-- ==== Sys2Proof/Word.lean ====
section
/-! DEFINITION. The widths the manual counts in: bytes, 32-bit lane elements, 64-bit words (00_scope.md R3, 03_encoding.md R19, R37). -/
namespace Sys2Proof

/-- One byte of device memory. -/
abbrev Byte := BitVec 8
/-- One lane of a v register, or a k register (R37). -/
abbrev Word32 := BitVec 32
/-- An s register, a code word, a pointer (R19, R37). -/
abbrev Word64 := BitVec 64

end Sys2Proof
end

