-- ==== Sys2Proof/Syntax.lean ====
section
/-! DEFINITION. The syntax: operands, the fields of the seven instruction formats (03_encoding.md R26 to R34), and the one inductive Instr with a constructor for every row of spec/opcode_table.json: 156 instruction rows, then 71 device-event rows. -/
namespace Sys2Proof

/-- The type codes of format X (R31). -/
inductive Ty where
  | i32 | u32 | i64 | u64 | f32 | f16 | bf16 | e4m3 | e5m2 | i8 | u8 | i16 | u16 | b32 | b64
  deriving DecidableEq, Repr

/-- A 9-bit operand code (R29). -/
inductive Operand where
  /-- v0 to v255 -/
  | v (n : BitVec 8)
  /-- s0 to s63 -/
  | s (n : BitVec 6)
  /-- k0 to k7, read as a 32-bit value -/
  | k (n : BitVec 3)
  /-- the trailing literal -/
  | lit
  /-- the lane index -/
  | lane
  /-- the wave's index within its block -/
  | wave
  /-- bits [31:0] of the lane's work identifier -/
  | widlo
  /-- bits [63:32] of the lane's work identifier -/
  | widhi
  /-- the number of waves the block was launched with -/
  | nwaves
  /-- the index of the block's flash page -/
  | pgidx
  /-- an inline integer: code 0x180 + n; n below 64 is n, n from 64 to 95 is n - 96 -/
  | int (n : BitVec 7)
  /-- an FP32 constant: code 0x1E0 + n -/
  | fc (n : BitVec 4)
  /-- NONE -/
  | none
  deriving DecidableEq, Repr, Inhabited

/-- The guard fields G and GN of every instruction word (R26). -/
structure Guard where
  g  : BitVec 3
  gn : Bool
  deriving DecidableEq, Repr

/-- The fields of a format X word and its trailing literal (R27, R33). -/
structure XW where
  guard : Guard
  sub   : BitVec 4
  d     : Operand
  a     : Operand
  b     : Operand
  c     : Operand
  t     : Ty
  m     : BitVec 3
  ea    : Bool
  eb    : Bool
  ec    : Bool
  lit   : Option Word64
  deriving DecidableEq, Repr

/-- The fields of a format M word and its trailing literal (R27, R147). -/
structure MW where
  guard : Guard
  sub   : BitVec 4
  d     : Operand
  a     : Operand
  b     : Operand
  off   : BitVec 10
  sz    : BitVec 3
  ord   : BitVec 2
  sco   : BitVec 3
  e     : Bool
  x     : Bool
  lit   : Option Word64
  deriving DecidableEq, Repr

/-- The fields of a format Q word (R27, R223). -/
structure QW where
  guard : Guard
  sub   : BitVec 4
  ct    : BitVec 6
  wa    : BitVec 5
  wb    : BitVec 5
  kn    : BitVec 8
  ia    : Operand
  ib    : Operand
  node  : BitVec 6
  deriving DecidableEq, Repr

/-- The fields of a format K word and its trailing literal (R27, R260). -/
structure KW where
  guard : Guard
  d     : Operand
  a     : Operand
  b     : Operand
  c     : Operand
  head  : BitVec 8
  lit   : Option Word64
  deriving DecidableEq, Repr

/-- The fields of a format Y word and its trailing literal (R27, R90). -/
structure YW where
  guard : Guard
  d     : Operand
  a     : Operand
  b     : Operand
  imm   : BitVec 16
  ea    : Bool
  eb    : Bool
  lit   : Option Word64
  deriving DecidableEq, Repr

/-- The fields of a format J word (R27, R86). -/
structure JW where
  guard : Guard
  a     : Operand
  b     : Operand
  off   : BitVec 28
  deriving DecidableEq, Repr

/-- The register steps of a repeat, signed 8-bit (R43). -/
structure Steps where
  d : BitVec 8
  a : BitVec 8
  b : BitVec 8
  c : BitVec 8
  deriving DecidableEq, Repr, Inhabited

/-- The three classes of engine operation that are counted and retire in issue order (R142). -/
inductive Engine where
  | cpy | mtx | gat
  deriving DecidableEq, Repr

/-- What the far side answers to an access the package cannot serve from its own memory, and whether data arrived corrected (R122, R283, R295, R312): the data of the far parts as one little-endian number; or the lane whose data is uncorrectable; or such data with the parts, as bits, whose request was not answered. -/
inductive Arrival where
  | data (bytes : Nat)
  | uncorrectable (lane : Nat)
  | failed (bytes parts : Nat)
  deriving DecidableEq, Repr

/-- What the management port reads: a unit of the frozen state, by its code (R317), or a wave's breakpoint counter (R112, R296). -/
inductive MgmtRead where
  | unit (code : Nat)
  | breakpoints
  deriving DecidableEq, Repr

/-- What a ring brings of its other members (R322, R324): their lowest ACK and their highest SENT. -/
structure RingNews where
  ack  : Nat
  sent : Nat
  deriving DecidableEq, Repr, Inhabited

/-- A revolution as it arrives (R323, R324): its number, and whether it is a write that was in flight when the ring was last rewound or formed. -/
structure Incoming where
  no  : Nat
  old : Bool
  deriving DecidableEq, Repr, Inhabited

/-- The core, wave or step counter that an event concerns; failed: data that it reads arrives uncorrectable (R283, R295), or what it sends is not delivered (R312). -/
structure Acting where
  key : Nat
  failed : Bool
  deriving DecidableEq, Repr

/-- What firmware may attempt (R289, R295, R326): count KICK on, write host memory, send a message on a channel (0 host MSI-X, 1 + p the link port p, 17 the management port), reach a context's memory in the name of a requester, set the module's power in watts or the arithmetic clock in MHz, or program the decoder of a CXL port. -/
inductive FwAct where
  | kick
  | host (len : Nat)
  | message (channel : Nat)
  | context (asid requester len : Nat)
  | power
  | clock
  | decoder (port : Nat)
  deriving DecidableEq, Repr

/-- The registers a write without a row of its own may name (R272, R290, R292, R326): the PF window, the window of virtual function n, the context table, and what firmware writes. -/
inductive RegSpace where
  | pf
  | vf (n : Nat)
  | contextTable
  | firmware (act : FwAct)
  deriving DecidableEq, Repr

/-- Instructions and events: one constructor per row of the opcode table. A row of the instruction set carries its word's fields; an event row carries the agent it concerns and, for an input, the input's data. -/
inductive Instr where
  -- integer and logic (R203 to R211)
  | add (x : XW)
  | sub (x : XW)
  | adds (x : XW)
  | subs (x : XW)
  | mul (x : XW)
  | mulh (x : XW)
  | mad (x : XW)
  | abs (x : XW)
  | min (x : XW)
  | max (x : XW)
  | and (x : XW)
  | or (x : XW)
  | xor (x : XW)
  | andn (x : XW)
  | shl (x : XW)
  | shr (x : XW)
  | sar (x : XW)
  | rol (x : XW)
  | clz (x : XW)
  | popc (x : XW)
  | brev (x : XW)
  | bfx (x : XW)
  | bfi (x : XW)
  | mov (x : XW)
  | lea (x : XW)
  | padd (x : XW)
  | divu (x : XW)
  | remu (x : XW)
  | sel (x : XW)
  | hmix (x : XW)
  -- floating point (R212 to R216)
  | fadd (x : XW)
  | fsub (x : XW)
  | fmul (x : XW)
  | fma (x : XW)
  | fmin (x : XW)
  | fmax (x : XW)
  | fabs (x : XW)
  | fneg (x : XW)
  | frnd (x : XW)
  | fclass (x : XW)
  | frcp (x : XW)
  | frsq (x : XW)
  | fsqrt (x : XW)
  | fexp2 (x : XW)
  | flog2 (x : XW)
  | ftanh (x : XW)
  | fscale (x : XW)
  | cvt (x : XW)
  -- lanes and masks (R217 to R222)
  | shfl (x : XW)
  | shflx (x : XW)
  | bcast (x : XW)
  | red (x : XW)
  | scan (x : XW)
  | pack (x : XW)
  | unpk (x : XW)
  | cmp (x : XW)
  | fcmp (x : XW)
  | kop (x : XW)
  | kpop (x : XW)
  | kff1 (x : XW)
  | kset (x : XW)
  | kget (x : XW)
  -- memory (R147 to R172)
  | ld (m : MW)
  | st (m : MW)
  | lds (m : MW)
  | sts (m : MW)
  | ldb (m : MW)
  | ldbZ (m : MW)
  | stb (m : MW)
  | stbZ (m : MW)
  | ldc (m : MW)
  | ldcCol (m : MW)
  | stc (m : MW)
  | stcCol (m : MW)
  | atom (m : MW)
  | ared (m : MW)
  | cpy (m : MW)
  | cpyLane (m : MW)
  | cpyt (m : MW)
  | cpytW (m : MW)
  | fence (m : MW)
  | waitc (m : MW)
  | pref (m : MW)
  | tagset (m : MW)
  | tagget (m : MW)
  | ptag (m : MW)
  | clean (m : MW)
  | cleanInv (m : MW)
  -- matrix and tolerance (R223 to R243)
  | wres (q : QW)
  | wrel (q : QW)
  | wstat (q : QW)
  | qcvt (q : QW)
  | qcvtW (q : QW)
  | mloop (q : QW)
  | mloopPeer (q : QW)
  | czero (q : QW)
  | cadd (q : QW)
  | caddPeer (q : QW)
  | cscale (q : QW)
  | cscaleRow (q : QW)
  | cscaleCol (q : QW)
  | demand (q : QW)
  | tolrd (q : QW)
  | toltab (q : QW)
  -- key store (R245 to R268)
  | kappend (k : KW)
  | kstep (k : KW)
  | ksig (k : KW)
  | kgather (k : KW)
  | kfetch (k : KW)
  | kfetchV (k : KW)
  | kfetchW (k : KW)
  | kfetchWV (k : KW)
  | kslot (k : KW)
  | kstat (k : KW)
  -- synchronisation (R90 to R106)
  | bar (y : YW)
  | barC (y : YW)
  | arrive (y : YW)
  | arriveC (y : YW)
  | bwait (y : YW)
  | bwaitC (y : YW)
  | drainB (y : YW)
  | drainC (y : YW)
  | phase (y : YW)
  | yield (y : YW)
  | qpush (y : YW)
  | qpop (y : YW)
  | qtry (y : YW)
  | qlen (y : YW)
  | qlenInit (y : YW)
  | poll (y : YW)
  | dcdec (y : YW)
  | dcset (y : YW)
  | launch (y : YW)
  -- control (R86 to R89)
  | nop (j : JW)
  | bra (j : JW)
  | bz (j : JW)
  | bnz (j : JW)
  | bany (j : JW)
  | ball (j : JW)
  | bnone (j : JW)
  | loop (j : JW)
  | call (j : JW)
  | ret (j : JW)
  | jmpi (j : JW)
  | endWave (j : JW)
  -- system (R107 to R114)
  | sysr (y : YW)
  | sysw (y : YW)
  | trap (y : YW)
  | tret (y : YW)
  | bkpt (y : YW)
  | ticks (y : YW)
  | kill (y : YW)
  | killGrid (y : YW)
  | faultrd (y : YW)
  -- repeat (R43, R44)
  | rpt (n : BitVec 6) (steps : Steps)
  | rptRegister (creg : BitVec 6) (steps : Steps)
  -- events of the core and its memory unit
  | clauseStart (core : Acting)
  | eligibilityAgeExpiry (wave : Nat)
  | loadDataReturn (wave : Nat) (index : Nat) (arrival : Arrival)
  | storeAcknowledge (wave : Nat) (delivered : Bool)
  | operationRetire (wave : Acting) (cls : Engine)
  | releasedQuernOperation (wave : Nat)
  | sideLogReplay (wave : Acting)
  -- events of blocks and placement
  | blockComplete (block : Nat)
  | blockPlace (request : Nat) (core : Nat)
  | placementAgeExpiry (request : Nat)
  | displace (baseDie : Nat)
  | pageListEntryRead (grid : Nat) (index : Nat)
  | landingSlotGrant (request : Nat) (core : Nat)
  | flashSenseComplete (lun : Nat) (accepted : BitVec 4)
  | lunTimeout (lun : Nat)
  | phaseSave (block : Nat)
  | phaseTimeReached (block : Nat)
  | phaseResume (request : Nat) (core : Nat)
  | pollAttempt (wave : Nat)
  | involuntarySave (block : Nat)
  | yieldExpiry (wave : Nat)
  -- events of quanta and saves
  | quantumEnd (partition : Nat)
  | contextSave (asid : Nat)
  | coreScrub (core : Nat)
  | contextRestore (asid : Nat) (core : Nat)
  -- events of the key store and write-back
  | appendArrival (asid : Nat) (step : Nat) (core : Nat)
  | stepFiling (asid : Nat) (step : Acting)
  | tailraceWriteback (baseDie : Nat)
  | flashProgramComplete (baseDie : Nat) (succeeded : Bool)
  -- commands of the physical function
  | load (asid : Nat)
  | inval (asid : Nat)
  | invalComplete
  | teardown (asid : Nat)
  | teardownComplete
  | grant (asid : Nat)
  | erase (asid : Nat)
  | eraseComplete (succeeded : Bool)
  | ring (asid : Nat)
  | reclog (asid : Nat)
  | pfUnassigned (op : Nat) (asid : Nat)
  -- inputs of host, drives and peers
  | launchTailWrite (vf : Nat) (tail : Nat)
  | launchEntry (vf : Nat) (entry : Nat) (uncorrectable : Bool)
  | completionHeadWrite (vf : Nat) (head : Nat)
  | partitionTableWrite (p : Nat) (lo hi : Nat)
  | quantumTableWrite (p index : Nat) (entry : Nat)
  | registerWrite (space : RegSpace) (offset value : Nat)
  | bar2Access (vf : Nat) (address len : Nat) (write : Option Nat)
  | driveInboundRequest (requester : Nat) (address len : Nat) (write : Option Nat)
  | mailboxWrite (requester : Nat) (address len : Nat) (data : Nat)
  | linkInboundAccess (port source : Nat) (offset len : Nat) (write : Option Nat)
  | mmioTimeout (wave : Nat) (index : Nat)
  -- freezing, management, watchdog
  | brakeN
  | freezeCommand
  | brk
  | brakeFlit (port : Nat)
  | scanRead (unit : MgmtRead) (index offset len : Nat)
  | packageReset
  | fire
  | watchdogTimeout
  | firmwareImage (image : Nat)
  | replayTimeout (asid : Nat) (address : Nat) (global : Bool)
  -- rings, idle levels, links
  | ringSend (asid ctl : Nat)
  | revolutionReceived (asid ctl : Nat) (revolution : Incoming) (data : List Byte)
  | ringStallTimeout (asid ctl : Nat)
  | linkFailure (port : Nat)
  | ringFailureNotice (asid ctl : Nat) (cause position : Nat)
  | idleEntry
  | idleWakeTimer
  | linkTrained (port : Nat) (package : Nat)
  | arevAdvance (asid ctl : Nat) (news : RingNews)
  | detectionByAnyMember (asid ctl : Nat) (cause position : Nat)
  deriving DecidableEq, Repr

end Sys2Proof
end

