-- ==== Sys2Proof/WellFormed.lean ====
section
/-! DEFINITION. Which instructions are legal: the encoding tables of the manual (R86, R90, R147, R203, R223, R260) as rows, one row for every instruction, and the check of a word against its row (R28 to R34, R36). The allotment and the place of a word in its clause are checked where the clause is decoded. -/
namespace Sys2Proof

/-- Why an encoding is not an instruction (R36). The machine raises one hard fault for all of them; the reason names the check that refused. -/
inductive Illegal where
  /-- ECL 5 to 15, or a nonzero header bit in [38:0] -/
  | header
  /-- unassigned OP -/
  | opcode
  /-- an opcode its clause class does not permit -/
  | clauseClass
  /-- unassigned SUB -/
  | subcode
  /-- G = 0 with GN = 1 -/
  | guardNever
  /-- a reserved operand code, or an operand the field does not take -/
  | operand
  /-- a v register at or beyond the wave's allotment -/
  | allotment
  /-- a register pair or quad whose first register is misaligned -/
  | pair
  /-- a nonzero zero-field -/
  | zeroField
  /-- an E bit on a field without a register -/
  | emptyBit
  /-- a type the instruction does not accept -/
  | type
  /-- a mode the instruction does not accept -/
  | mode
  /-- an access size the instruction does not accept -/
  | size
  /-- an ordering or scope the instruction does not accept -/
  | order
  /-- L inconsistent with LIT, or a literal beyond the clause -/
  | literal
  /-- bad literal high bits (R34) -/
  | literalHigh
  /-- an s destination with a per-lane source (R39) -/
  | uniformDestination
  /-- a control transfer before the last instruction word -/
  | transfer
  /-- the RPT faults of R43 and R44 -/
  | rpt
  /-- an immediate field outside its range (R90, R96) -/
  | immediate
  deriving DecidableEq, Repr

/-- The classes of operand codes that a field can accept. -/
inductive OpKind where
  | v | s | k | k0 | lit | lane | special | nat | neg | fc | none
  deriving DecidableEq, Repr

/-- The class of an operand code (R29). -/
def Operand.kind : Operand → OpKind
  | .v _ => .v
  | .s _ => .s
  | .k n => if n = 0 then .k0 else .k
  | .lit => .lit
  | .lane => .lane
  | .widlo => .lane
  | .widhi => .lane
  | .wave => .special
  | .nwaves => .special
  | .pgidx => .special
  | .int n => if n.toNat < 64 then .nat else .neg
  | .fc _ => .fc
  | .none => .none

/-- A code that R29 lists: an inline integer code stands for one of 96 integers. -/
def Operand.listed : Operand → Bool
  | .int n => decide (n.toNat < 96)
  | _ => true

/-- The operand is a register (R28, the E bits). -/
def Operand.isReg : Operand → Bool
  | .v _ => true
  | .s _ => true
  | .k _ => true
  | _ => false

/-- The operand has one value in each lane (R29). -/
def Operand.perLane : Operand → Bool
  | .v _ => true
  | .lane => true
  | .widlo => true
  | .widhi => true
  | _ => false

/-- The width of a type in bits (R31). -/
def Ty.width : Ty → Nat
  | .i32 | .u32 | .f32 | .b32 => 32
  | .i64 | .u64 | .b64 => 64
  | .f16 | .bf16 | .i16 | .u16 => 16
  | .e4m3 | .e5m2 | .i8 | .u8 => 8

/-- A floating type (R30). -/
def Ty.isFloat : Ty → Bool
  | .f32 | .f16 | .bf16 | .e4m3 | .e5m2 => true
  | _ => false

/-- A signed integer type. -/
def Ty.signed : Ty → Bool
  | .i8 | .i16 | .i32 | .i64 => true
  | _ => false

/-- The registers of a v pair for a 64-bit type, else one (R38). -/
def Ty.align (t : Ty) : Nat := if t.width = 64 then 2 else 1

def tysInt : List Ty := [.i8, .u8, .i16, .u16, .i32, .u32, .i64, .u64]
def tysBit : List Ty := tysInt ++ [.b32, .b64]
def tysFp : List Ty := [.f32, .f16, .bf16]
def tysAll : List Ty := tysBit ++ tysFp ++ [.e4m3, .e5m2]

/-- What one operand field accepts: the classes of codes, the alignment of a v and of an s register number, the width at which a literal is read (R34), and the largest inline integer where the table limits it. -/
structure Slot where
  kinds : List OpKind
  va : Nat := 1
  sa : Nat := 1
  lw : Nat := 64
  top : Nat := 63

/-- A field the instruction does not use (R28). -/
def Slot.unused : Slot := { kinds := [.none] }
/-- "src" of 12_instr_arith.md: any source code; read at width w; FP32 constants where fl. -/
def Slot.src (va w : Nat) (fl : Bool) : Slot :=
  { kinds := [.v, .s, .k, .k0, .lit, .lane, .special, .nat, .neg] ++ (if fl then [.fc] else []), va := va, lw := w }
/-- A uniform source of 12_instr_arith.md. -/
def Slot.uni (w : Nat) : Slot :=
  { kinds := [.s, .k, .k0, .lit, .special, .nat, .neg], lw := w }
/-- "src" of the M, Y and K tables: an s register, an inline integer or LIT, read at width w. -/
def Slot.scalar (w : Nat) : Slot := { kinds := [.s, .nat, .neg, .lit], lw := w }
/-- "src" of the Q table: an s register or an inline integer (R223, R224). -/
def Slot.scalarQ : Slot := { kinds := [.s, .nat, .neg] }
/-- A pointer pair (R147). -/
def Slot.ptr : Slot := { kinds := [.v, .s], va := 2, sa := 2 }
/-- A uniform pointer: an even s register (R147, R260). -/
def Slot.sptr : Slot := { kinds := [.s], sa := 2 }
def Slot.sreg : Slot := { kinds := [.s] }
def Slot.vreg (va : Nat) : Slot := { kinds := [.v], va := va }
def Slot.sOrNone : Slot := { kinds := [.s, .none] }
/-- The same field with NONE accepted as well. -/
def Slot.orNone (q : Slot) : Slot := { q with kinds := .none :: q.kinds }
/-- A v or s destination of type alignment va. -/
def Slot.dest (va : Nat) : Slot := { kinds := [.v, .s], va := va }
/-- A k destination: k0 is not one (R36). -/
def Slot.kdest : Slot := { kinds := [.k] }

/-- The operand's class is accepted. -/
def Slot.accepts (q : Slot) (o : Operand) : Bool :=
  q.kinds.contains o.kind &&
    (match o with
     | .int n => decide (n.toNat < 96) && (decide (n.toNat ≥ 64) || decide (n.toNat ≤ q.top))
     | _ => true)

/-- The register number is aligned as the field needs (R148, R204). -/
def Slot.aligned (q : Slot) (o : Operand) : Bool :=
  match o with
  | .v n => n.toNat % q.va == 0
  | .s n => n.toNat % q.sa == 0
  | _ => true

/-- Bits above w−1 of a literal are all zero, or all equal to bit w−1 (R34). -/
def literalHighOk (w : Nat) (l : Word64) : Bool :=
  let hi := l.toNat / 2 ^ w
  hi == 0 || (hi == 2 ^ (64 - w) - 1 && l.getLsbD (w - 1))

/-- The literal a field reads has legal high bits. -/
def Slot.literalOk (q : Slot) (o : Operand) (l : Option Word64) : Bool :=
  match o, l with
  | .lit, some x => literalHighOk q.lw x
  | _, _ => true

/-- One row of the format X table (R203). -/
structure XRow where
  subs : List Nat
  tys : List Ty
  d : Slot
  a : Slot
  b : Slot := .unused
  c : Slot := .unused
  modes : List Nat := [0]
  /-- RED, KGET, KPOP and KFF1 write an s register from per-lane sources (R39) -/
  reduces : Bool := false

/-- One row of the format M table (R147). -/
structure MRow where
  subs : List Nat := [0]
  d : Slot := .unused
  a : Slot := .unused
  b : Slot := .unused
  off : Bool := false
  szs : List Nat := [0]
  ords : List Nat := [0]
  /-- SCO must be 3 when ORD is not 0 (LDS, STS) -/
  sco3 : Bool := false
  x : Bool := false
  /-- D is written (an s destination on a per-lane word is illegal, R149) -/
  dest : Bool := false
  /-- D is a register source, to which E applies -/
  dsrc : Bool := false
  /-- OFF holds a reservation number in [4:0] (CPYT.w) -/
  offRes : Bool := false

/-- One row of the format Q table (R223). A field false must be zero. -/
structure QRow where
  subs : List Nat := [0]
  ct : Bool := false
  wa : Bool := false
  wb : Bool := false
  kn : Bool := false
  ia : Slot := .unused
  ib : Slot := .unused
  node : Bool := false

/-- One row of the format K table (R260). -/
structure KRow where
  d : Slot := .unused
  a : Slot := .sptr
  b : Slot := .unused
  c : Slot := .unused
  head : Bool := true

/-- One row of the format Y table (R90); imm says which immediates are legal. -/
structure YRow where
  d : Slot := .unused
  a : Slot := .unused
  b : Slot := .unused
  imm : Nat → Bool := fun n => n == 0

/-- One row of the format J table (R86). -/
structure JRow where
  a : Slot := .unused
  b : Slot := .unused
  off : Bool := true

/-- What an instruction's word is: its format, opcode, row and fields; K, Y and J words also have the SUB their row gives. -/
inductive Shape where
  | x (op : Nat) (row : XRow) (w : XW)
  | m (op : Nat) (row : MRow) (w : MW)
  | q (op : Nat) (row : QRow) (w : QW)
  | k (op sub : Nat) (row : KRow) (w : KW)
  | y (op sub : Nat) (row : YRow) (w : YW)
  | j (op : Nat) (row : JRow) (w : JW)
  | p (reg : Bool) (n : BitVec 6) (steps : Steps)
  /-- an event row: no word -/
  | event

/-! ### The rows of R203 -/

/-- Two sources and a v or s destination of one type. -/
def row2 (tys : List Ty) (t : Ty) (modes : List Nat := [0]) : XRow :=
  { subs := [0], tys := tys, d := .dest t.align, a := .src t.align t.width t.isFloat,
    b := .src t.align t.width t.isFloat, modes := modes }
def row1 (tys : List Ty) (t : Ty) (modes : List Nat := [0]) : XRow :=
  { subs := [0], tys := tys, d := .dest t.align, a := .src t.align t.width t.isFloat, modes := modes }
def row3 (tys : List Ty) (t : Ty) (modes : List Nat := [0]) : XRow :=
  { row2 tys t modes with c := .src t.align t.width t.isFloat }
/-- A count, position or length: 32 bits, or 64 for a 64-bit type (R206). -/
def Slot.count (t : Ty) : Slot := .src t.align (if t.width = 64 then 64 else 32) false
def rowShift (t : Ty) : XRow :=
  { subs := [0], tys := tysBit, d := .dest t.align, a := .src t.align t.width false, b := .count t }
def rowField (tys : List Ty) (t : Ty) : XRow :=
  { subs := [0], tys := tys, d := .dest t.align, a := .src t.align t.width false, b := .count t, c := .count t }
def rowMov (t : Ty) : XRow :=
  { subs := [0], tys := tysAll, d := { kinds := [.v, .s, .k], va := t.align }, a := .src t.align t.width t.isFloat }
def rowLea (t : Ty) : XRow :=
  { subs := [0], tys := [.i32, .u32, .i64, .u64], d := .dest 2, a := { kinds := [.v, .s], va := 2 },
    b := .src t.align t.width false, c := { kinds := [.nat, .none], top := 15 } }
def rowPadd : XRow :=
  { subs := [0, 1, 2, 3], tys := [.i8, .u8, .i16, .u16], d := .dest 1, a := .src 1 32 false, b := .src 1 32 false }
def rowSel (t : Ty) : XRow :=
  { row2 [.b32, .b64] t with c := { kinds := [.k, .k0, .s] } }
def modesR : List Nat := [0, 1, 2, 3]
def rowIter : XRow :=
  { subs := [0], tys := [.f32], d := .dest 1, a := .src 1 32 true, c := { kinds := [.nat, .none] } }
def rowFscale (t : Ty) : XRow :=
  { subs := [0], tys := tysFp, d := .dest 1, a := .src 1 t.width true, b := .src 1 32 true, modes := modesR }

/-- The type a code names (R31). -/
def Ty.ofCode : Nat → Option Ty
  | 0 => some .i32 | 1 => some .u32 | 2 => some .i64 | 3 => some .u64 | 4 => some .f32
  | 5 => some .f16 | 6 => some .bf16 | 7 => some .e4m3 | 8 => some .e5m2 | 9 => some .i8
  | 10 => some .u8 | 11 => some .i16 | 12 => some .u16 | 13 => some .b32 | 14 => some .b64
  | _ => none

/-- The code of a type (R31). -/
def Ty.code : Ty → BitVec 4
  | .i32 => 0 | .u32 => 1 | .i64 => 2 | .u64 => 3 | .f32 => 4 | .f16 => 5 | .bf16 => 6 | .e4m3 => 7
  | .e5m2 => 8 | .i8 => 9 | .u8 => 10 | .i16 => 11 | .u16 => 12 | .b32 => 13 | .b64 => 14

/-- The source type of a CVT, from its SUB; an unassigned SUB reads as .i32 and is refused by the row. -/
def XW.srcTy (x : XW) : Ty := (Ty.ofCode x.sub.toNat).getD .i32

def rowCvt (x : XW) : XRow :=
  { subs := [0, 1, 2, 3, 4, 5, 6, 7, 8, 9, 10, 11, 12, 13, 14], tys := tysAll, d := .dest x.t.align,
    a := .src x.srcTy.align x.srcTy.width x.srcTy.isFloat, modes := [0, 1, 2, 3, 4, 5, 6, 7] }
def rowShfl (x : XW) : XRow :=
  { subs := [0, 1, 2, 3], tys := [.b32, .b64], d := .vreg x.t.align, a := .vreg x.t.align,
    b := if x.sub = 0 then .src x.t.align x.t.width false else .uni x.t.width }
def rowShflx : XRow :=
  { subs := [0], tys := [.b32], d := .vreg 2, a := .vreg 1, b := .uni 32, c := .vreg 1 }
def rowBcast (t : Ty) : XRow :=
  { subs := [0], tys := [.b32, .b64], d := .vreg t.align, a := .vreg t.align, b := .uni t.width }
/-- The types and modes of RED and SCAN by operation (R203). -/
def redTys (op : Nat) : List Ty := if op < 3 then tysInt ++ tysFp else tysBit
def rowRed (x : XW) : XRow :=
  { subs := [0, 1, 2, 3, 4, 5], tys := redTys x.sub.toNat, d := .dest x.t.align, a := .vreg x.t.align,
    modes := if x.sub = 0 ∧ x.t.isFloat then modesR else [0], reduces := true }
def rowScan (x : XW) : XRow :=
  { subs := [0, 1, 2, 3, 4, 5, 8, 9, 10, 11, 12, 13], tys := redTys (x.sub.toNat % 8), d := .vreg x.t.align,
    a := .vreg x.t.align, modes := if x.sub.toNat % 8 = 0 ∧ x.t.isFloat then modesR else [0] }
def rowPack : XRow :=
  { subs := [0, 1, 2], tys := [.b32], d := .dest 1, a := .src 1 32 false, b := .src 1 32 false }
def rowUnpk : XRow :=
  { subs := [0, 1, 2], tys := [.i32, .u32], d := .dest 1, a := .src 1 32 false, b := .src 1 32 false }
def rowCmp (x : XW) : XRow :=
  { subs := [0, 1, 2, 3, 4, 5], tys := if x.sub.toNat < 2 then tysBit else tysInt, d := .kdest,
    a := .src x.t.align x.t.width false, b := .src x.t.align x.t.width false }
def rowFcmp (t : Ty) : XRow :=
  { subs := [0, 1, 2, 3, 4, 5, 6, 7], tys := tysFp, d := .kdest, a := .src 1 t.width true, b := .src 1 t.width true }
def rowKop (x : XW) : XRow :=
  { subs := [0, 1, 2, 3, 4, 5], tys := [.b32], d := .kdest, a := .uni 32,
    b := if x.sub.toNat < 4 then .uni 32 else .unused }
def rowKpop : XRow :=
  { subs := [0], tys := [.b32], d := .sreg, a := { kinds := [.v, .k, .k0] }, reduces := true }
def rowKset : XRow :=
  { subs := [0], tys := [.b32], d := .kdest, a := .src 1 32 false }
def rowKget (t : Ty) : XRow :=
  { subs := [0], tys := [.b32, .b64], d := .sreg, a := .vreg t.align, b := .uni t.width, reduces := true }

/-! ### The rows of R147 -/

/-- v registers that hold an access of code sz (R148). -/
def vAlign (sz : BitVec 3) : Nat := if sz = 3 then 2 else if sz = 4 then 4 else 1
/-- s registers that hold an access of code sz (R148). -/
def sAlign (sz : BitVec 3) : Nat := if sz = 4 then 2 else 1
/-- The size in bytes that SZ codes (R27). -/
def sizeOf (sz : BitVec 3) : Nat := 2 ^ sz.toNat
/-- A data register of code sz (R148). -/
def Slot.data (sz : BitVec 3) : Slot := { kinds := [.v, .s], va := vAlign sz, sa := sAlign sz }
/-- Store data: a register, or an inline integer or LIT of at most 8 bytes (R148). -/
def Slot.store (sz : BitVec 3) : Slot :=
  { kinds := [.v, .s] ++ (if sz = 4 then [] else [.nat, .neg, .lit]), va := vAlign sz, sa := sAlign sz,
    lw := 8 * sizeOf sz }
/-- An LDB or STB offset: v or src (R155). -/
def Slot.offset : Slot := { kinds := [.v, .s, .nat, .neg, .lit] }
/-- A tile row: s or inline 0 to 31; a tile number: s or inline 0 to 63 (R147). -/
def Slot.sOrNat (top : Nat) : Slot := { kinds := [.s, .nat], top := top }
/-- X is legal for SZ 0 and 1, and for SZ 2 into an s register (R148). -/
def signExtendOk (m : MW) : Bool := m.sz == 0 || m.sz == 1 || (m.sz == 2 && m.d.kind == .s)

def szAll : List Nat := [0, 1, 2, 3, 4]
def rowLd (m : MW) : MRow :=
  { d := .data m.sz, a := .ptr, off := true, szs := szAll, ords := [0, 1], x := signExtendOk m, dest := true }
def rowSt (m : MW) : MRow :=
  { a := .ptr, b := .store m.sz, off := true, szs := szAll, ords := [0, 2] }
def rowLds : MRow :=
  { d := .sreg, a := .sreg, off := true, szs := [3], ords := [0, 1], sco3 := true, dest := true }
def rowSts : MRow :=
  { a := .sreg, b := .scalar 64, off := true, szs := [3], ords := [0, 2], sco3 := true }
def rowLdb (sub : Nat) (m : MW) : MRow :=
  { subs := [sub], d := .data m.sz, a := .sptr, b := .offset, off := true, szs := szAll, ords := [0, 1],
    x := signExtendOk m, dest := true }
def rowStb (sub : Nat) (m : MW) : MRow :=
  { subs := [sub], d := .data m.sz, a := .sptr, b := .offset, off := true, szs := szAll, ords := [0, 2], dsrc := true }
def rowLdc (sub : Nat) : MRow :=
  { subs := [sub], d := .vreg 1, a := .sOrNat 31, b := .sOrNat 63, szs := [2], dest := true }
def rowStc (sub : Nat) : MRow :=
  { subs := [sub], d := .vreg 1, a := .sOrNat 31, b := .sOrNat 63, szs := [2], dsrc := true }
/-- The operand of an atomic: v or src at 8 × size bits. -/
def Slot.atomic (sz : BitVec 3) : Slot :=
  { kinds := [.v, .s, .nat, .neg, .lit], va := vAlign sz, lw := 8 * sizeOf sz }
/-- The floating atomics require SZ = 2 (R158). -/
def atomSizes (m : MW) : List Nat := if m.sub.toNat ≥ 10 then [2] else [2, 3]
def rowAtom (m : MW) : MRow :=
  { subs := [0, 1, 2, 3, 4, 5, 6, 7, 8, 9, 10, 11, 12], d := .data m.sz, a := .ptr, b := .atomic m.sz, off := true,
    szs := atomSizes m, ords := [0, 1, 2, 3], dest := true, dsrc := m.sub == 9 }
def rowAred (m : MW) : MRow :=
  { subs := [0, 1, 2, 3, 4, 5, 6, 7, 10, 11, 12], a := .ptr, b := .atomic m.sz, off := true,
    szs := atomSizes m, ords := [0, 2] }
def rowCpy : MRow := { d := .sptr, a := .sptr, b := .scalar 64, dsrc := true }
def rowCpyLane : MRow := { subs := [1], d := .ptr, a := .ptr, off := true, szs := szAll, dsrc := true }
def rowCpyt : MRow := { d := .sptr, a := .sptr, b := .sptr, dsrc := true }
def rowCpytW : MRow := { subs := [1], a := .sptr, b := .sptr, offRes := true }
def rowFence : MRow := { ords := [1, 2, 3] }
def rowWaitc : MRow := { subs := [0, 1, 2, 3], b := .scalar 64 }
def rowPref : MRow := { a := .ptr, b := (Slot.scalar 64).orNone, off := true }
def rowTagset (m : MW) : MRow :=
  { a := .ptr, b := if m.a.kind = .v then .unused else .scalar 64 }
def rowTagget : MRow := { d := .dest 1, a := .ptr, dest := true }
def rowPtag : MRow := { d := .ptr, a := .ptr, b := .scalar 64, dest := true }
def rowClean (sub : Nat) : MRow := { subs := [sub], a := .sptr, b := .scalar 64 }

/-! ### The rows of R223, R260, R90 and R86 -/

def subsPeer : List Nat := [8, 9, 10, 11, 12, 13, 14, 15]
def rowMloop (subs : List Nat) : QRow :=
  { subs := subs, ct := true, wa := true, wb := true, kn := true, ia := .scalarQ, ib := .scalarQ, node := true }
def rowCadd (subs : List Nat) : QRow := { subs := subs, ct := true, ia := .scalarQ }
def rowKfetch (d : Slot) : KRow := { d := d, b := .sptr, c := .scalar 64 }

def immBar (y : Nat) : Bool := decide (y < 16)
def immBarC (y : Nat) : Bool := decide (y < 4)
/-- PHASE: CK in [3:0], CGE [4], W32 [5]; CGE and W32 only with CK 4 (R96). -/
def immPhase (n : Nat) : Bool := decide (n < 6) || (n % 16 == 4 && decide (n < 64))
/-- The operands each CK needs (R96). -/
def rowPhase (y : YW) : YRow :=
  { a := (match y.imm.toNat % 16 with
          | 2 => { kinds := [.nat], top := 1 }
          | 5 => .unused
          | _ => .scalar 64),
    b := (match y.imm.toNat % 16 with
          | 4 => .scalar 64
          | 5 => .scalar 64
          | _ => .unused),
    imm := immPhase }
def immPoll (n : Nat) : Bool := decide (n % 16 = 0) && decide (n < 64)
def rowSync (d : Slot) (imm : Nat → Bool) : YRow := { d := d, imm := imm }

/-- The format, opcode and table row of every instruction (R35, R86, R90, R147, R203, R223, R260). -/
def Instr.shape : Instr → Shape
  | .add x => .x 0x00 (row2 tysInt x.t) x
  | .sub x => .x 0x01 (row2 tysInt x.t) x
  | .adds x => .x 0x02 (row2 tysInt x.t) x
  | .subs x => .x 0x03 (row2 tysInt x.t) x
  | .mul x => .x 0x04 (row2 tysInt x.t) x
  | .mulh x => .x 0x05 (row2 tysInt x.t) x
  | .mad x => .x 0x06 (row3 tysInt x.t) x
  | .abs x => .x 0x07 (row1 [.i8, .i16, .i32, .i64] x.t) x
  | .min x => .x 0x08 (row2 tysInt x.t) x
  | .max x => .x 0x09 (row2 tysInt x.t) x
  | .and x => .x 0x0A (row2 tysBit x.t) x
  | .or x => .x 0x0B (row2 tysBit x.t) x
  | .xor x => .x 0x0C (row2 tysBit x.t) x
  | .andn x => .x 0x0D (row2 tysBit x.t) x
  | .shl x => .x 0x0E (rowShift x.t) x
  | .shr x => .x 0x0F (rowShift x.t) x
  | .sar x => .x 0x10 (rowShift x.t) x
  | .rol x => .x 0x11 (rowShift x.t) x
  | .clz x => .x 0x12 (row1 [.b32, .b64] x.t) x
  | .popc x => .x 0x13 (row1 [.b32, .b64] x.t) x
  | .brev x => .x 0x14 (row1 [.b32, .b64] x.t) x
  | .bfx x => .x 0x15 (rowField [.i32, .u32, .i64, .u64] x.t) x
  | .bfi x => .x 0x16 (rowField [.b32, .b64] x.t) x
  | .mov x => .x 0x17 (rowMov x.t) x
  | .lea x => .x 0x18 (rowLea x.t) x
  | .padd x => .x 0x19 rowPadd x
  | .divu x => .x 0x1A (row2 [.u32, .u64] x.t) x
  | .remu x => .x 0x1B (row2 [.u32, .u64] x.t) x
  | .sel x => .x 0x1C (rowSel x.t) x
  | .hmix x => .x 0x1D (row2 [.b64] x.t) x
  | .fadd x => .x 0x40 (row2 tysFp x.t modesR) x
  | .fsub x => .x 0x41 (row2 tysFp x.t modesR) x
  | .fmul x => .x 0x42 (row2 tysFp x.t modesR) x
  | .fma x => .x 0x43 (row3 tysFp x.t modesR) x
  | .fmin x => .x 0x44 (row2 tysFp x.t) x
  | .fmax x => .x 0x45 (row2 tysFp x.t) x
  | .fabs x => .x 0x46 (row1 tysFp x.t) x
  | .fneg x => .x 0x47 (row1 tysFp x.t) x
  | .frnd x => .x 0x48 (row1 tysFp x.t modesR) x
  | .fclass x => .x 0x49 (row1 tysFp x.t) x
  | .frcp x => .x 0x4A rowIter x
  | .frsq x => .x 0x4B rowIter x
  | .fsqrt x => .x 0x4C (row1 tysFp x.t modesR) x
  | .fexp2 x => .x 0x4D rowIter x
  | .flog2 x => .x 0x4E rowIter x
  | .ftanh x => .x 0x4F rowIter x
  | .fscale x => .x 0x50 (rowFscale x.t) x
  | .cvt x => .x 0x60 (rowCvt x) x
  | .shfl x => .x 0x61 (rowShfl x) x
  | .shflx x => .x 0x62 rowShflx x
  | .bcast x => .x 0x63 (rowBcast x.t) x
  | .red x => .x 0x64 (rowRed x) x
  | .scan x => .x 0x65 (rowScan x) x
  | .pack x => .x 0x66 rowPack x
  | .unpk x => .x 0x67 rowUnpk x
  | .cmp x => .x 0x70 (rowCmp x) x
  | .fcmp x => .x 0x71 (rowFcmp x.t) x
  | .kop x => .x 0x72 (rowKop x) x
  | .kpop x => .x 0x73 rowKpop x
  | .kff1 x => .x 0x74 rowKpop x
  | .kset x => .x 0x75 rowKset x
  | .kget x => .x 0x76 (rowKget x.t) x
  | .ld m => .m 0x80 (rowLd m) m
  | .st m => .m 0x81 (rowSt m) m
  | .lds m => .m 0x82 rowLds m
  | .sts m => .m 0x83 rowSts m
  | .ldb m => .m 0x84 (rowLdb 0 m) m
  | .ldbZ m => .m 0x84 (rowLdb 1 m) m
  | .stb m => .m 0x85 (rowStb 0 m) m
  | .stbZ m => .m 0x85 (rowStb 1 m) m
  | .ldc m => .m 0x86 (rowLdc 0) m
  | .ldcCol m => .m 0x86 (rowLdc 1) m
  | .stc m => .m 0x87 (rowStc 0) m
  | .stcCol m => .m 0x87 (rowStc 1) m
  | .atom m => .m 0x88 (rowAtom m) m
  | .ared m => .m 0x89 (rowAred m) m
  | .cpy m => .m 0x8A rowCpy m
  | .cpyLane m => .m 0x8A rowCpyLane m
  | .cpyt m => .m 0x8B rowCpyt m
  | .cpytW m => .m 0x8B rowCpytW m
  | .fence m => .m 0x8C rowFence m
  | .waitc m => .m 0x8D rowWaitc m
  | .pref m => .m 0x8E rowPref m
  | .tagset m => .m 0x8F (rowTagset m) m
  | .tagget m => .m 0x90 rowTagget m
  | .ptag m => .m 0x91 rowPtag m
  | .clean m => .m 0x92 (rowClean 0) m
  | .cleanInv m => .m 0x92 (rowClean 1) m
  | .wres q => .q 0xA0 { wa := true, ia := .scalarQ, ib := .scalarQ } q
  | .wrel q => .q 0xA1 { wa := true } q
  | .wstat q => .q 0xA2 { wa := true, ia := .sreg } q
  | .qcvt q => .q 0xA3 { wa := true, ia := .sreg, ib := .scalarQ, node := true } q
  | .qcvtW q => .q 0xA3 { subs := [1], wa := true, wb := true, node := true } q
  | .mloop q => .q 0xA4 (rowMloop [0]) q
  | .mloopPeer q => .q 0xA4 (rowMloop subsPeer) q
  | .czero q => .q 0xA5 { ct := true, kn := true } q
  | .cadd q => .q 0xA6 (rowCadd [0]) q
  | .caddPeer q => .q 0xA6 (rowCadd subsPeer) q
  | .cscale q => .q 0xA7 { ct := true, ia := { kinds := [.s, .nat, .neg, .fc] } } q
  | .cscaleRow q => .q 0xA7 { subs := [1], ct := true, ia := .vreg 1 } q
  | .cscaleCol q => .q 0xA7 { subs := [2], ct := true, ia := .vreg 1 } q
  | .demand q => .q 0xA8 { ia := .sOrNone, ib := .scalarQ, node := true } q
  | .tolrd q => .q 0xA9 { ia := .sreg, ib := Slot.scalarQ.orNone, node := true } q
  | .toltab q => .q 0xAA { ia := .sreg } q
  | .kappend w => .k 0xB0 0 { d := .sreg, b := .vreg 1, c := .vreg 1 } w
  | .kstep w => .k 0xB1 0 { d := .sOrNone, head := false } w
  | .ksig w => .k 0xB2 0 { d := .sreg, b := .vreg 1 } w
  | .kgather w => .k 0xB3 0 { d := .sptr, b := .scalar 64, c := { kinds := [.k, .none] } } w
  | .kfetch w => .k 0xB4 0 (rowKfetch .sptr) w
  | .kfetchV w => .k 0xB4 1 (rowKfetch .sptr) w
  | .kfetchW w => .k 0xB4 2 (rowKfetch .unused) w
  | .kfetchWV w => .k 0xB4 3 (rowKfetch .unused) w
  | .kslot w => .k 0xB5 0 { d := .sreg, b := .scalar 64, head := false } w
  | .kstat w => .k 0xB6 0 { d := .sreg, b := .scalar 64, head := false } w
  | .bar y => .y 0xC0 0 (rowSync .sOrNone immBar) y
  | .barC y => .y 0xC0 1 (rowSync .sOrNone immBarC) y
  | .arrive y => .y 0xC1 0 (rowSync .unused immBar) y
  | .arriveC y => .y 0xC1 1 (rowSync .unused immBarC) y
  | .bwait y => .y 0xC2 0 (rowSync .sOrNone immBar) y
  | .bwaitC y => .y 0xC2 1 (rowSync .sOrNone immBarC) y
  | .drainB y => .y 0xC3 0 (rowSync .sOrNone immBar) y
  | .drainC y => .y 0xC3 1 (rowSync .sOrNone immBarC) y
  | .phase y => .y 0xC4 0 (rowPhase y) y
  | .yield y => .y 0xC5 0 (rowSync .unused (fun _ => true)) y
  | .qpush y => .y 0xC6 0 { a := .sreg, b := .scalar 64 } y
  | .qpop y => .y 0xC7 0 { d := .sreg, a := .sreg } y
  | .qtry y => .y 0xC8 0 { d := .sptr, a := .sreg } y
  | .qlen y => .y 0xC9 0 { d := .sreg, a := .sreg } y
  | .qlenInit y => .y 0xC9 1 { a := .sreg, b := .scalar 64 } y
  | .poll y => .y 0xCA 0 { d := .sOrNone, a := .sreg, b := .scalar 64, imm := immPoll } y
  | .dcdec y => .y 0xCB 0 { a := .sreg } y
  | .dcset y => .y 0xCC 0 { a := .sreg, b := .scalar 64 } y
  | .launch y => .y 0xCD 0 { d := .sreg, a := .sreg } y
  | .nop j => .j 0xD0 { off := false } j
  | .bra j => .j 0xD1 {} j
  | .bz j => .j 0xD2 { a := { kinds := [.s, .k, .k0] } } j
  | .bnz j => .j 0xD3 { a := { kinds := [.s, .k, .k0] } } j
  | .bany j => .j 0xD4 { a := { kinds := [.k, .k0] } } j
  | .ball j => .j 0xD5 { a := { kinds := [.k, .k0] } } j
  | .bnone j => .j 0xD6 { a := { kinds := [.k, .k0] } } j
  | .loop j => .j 0xD7 { a := .sreg } j
  | .call j => .j 0xD8 { a := .sreg } j
  | .ret j => .j 0xD9 { a := .sreg, off := false } j
  | .jmpi j => .j 0xDA { a := .sreg, off := false } j
  | .endWave j => .j 0xDB { off := false } j
  | .sysr y => .y 0xE0 0 { d := .sreg, imm := fun n => decide (n < 8) } y
  | .sysw y => .y 0xE1 0 { b := .scalar 64, imm := fun n => n == 4 || n == 7 } y
  | .trap y => .y 0xE2 0 { imm := fun _ => true } y
  | .tret y => .y 0xE3 0 { imm := fun n => decide (n < 3) } y
  | .bkpt y => .y 0xE4 0 { imm := fun _ => true } y
  | .ticks y => .y 0xE5 0 { d := .sreg } y
  | .kill y => .y 0xE6 0 {} y
  | .killGrid y => .y 0xE6 1 {} y
  | .faultrd y => .y 0xE7 0 { d := .sreg, imm := fun n => decide (n < 6) } y
  | .rpt n steps => .p false n steps
  | .rptRegister r steps => .p true r steps
  | .clauseStart _ => .event
  | .eligibilityAgeExpiry _ => .event
  | .loadDataReturn _ _ _ => .event
  | .storeAcknowledge _ _ => .event
  | .operationRetire _ _ => .event
  | .releasedQuernOperation _ => .event
  | .sideLogReplay _ => .event
  | .blockComplete _ => .event
  | .blockPlace _ _ => .event
  | .placementAgeExpiry _ => .event
  | .displace _ => .event
  | .pageListEntryRead _ _ => .event
  | .landingSlotGrant _ _ => .event
  | .flashSenseComplete _ _ => .event
  | .lunTimeout _ => .event
  | .phaseSave _ => .event
  | .phaseTimeReached _ => .event
  | .phaseResume _ _ => .event
  | .pollAttempt _ => .event
  | .involuntarySave _ => .event
  | .yieldExpiry _ => .event
  | .quantumEnd _ => .event
  | .contextSave _ => .event
  | .coreScrub _ => .event
  | .contextRestore _ _ => .event
  | .appendArrival _ _ _ => .event
  | .stepFiling _ _ => .event
  | .tailraceWriteback _ => .event
  | .flashProgramComplete _ _ => .event
  | .load _ => .event
  | .inval _ => .event
  | .invalComplete => .event
  | .teardown _ => .event
  | .teardownComplete => .event
  | .grant _ => .event
  | .erase _ => .event
  | .eraseComplete _ => .event
  | .ring _ => .event
  | .reclog _ => .event
  | .pfUnassigned _ _ => .event
  | .launchTailWrite _ _ => .event
  | .launchEntry _ _ _ => .event
  | .completionHeadWrite _ _ => .event
  | .partitionTableWrite _ _ _ => .event
  | .quantumTableWrite _ _ _ => .event
  | .registerWrite _ _ _ => .event
  | .bar2Access _ _ _ _ => .event
  | .driveInboundRequest _ _ _ _ => .event
  | .mailboxWrite _ _ _ _ => .event
  | .linkInboundAccess _ _ _ _ _ => .event
  | .mmioTimeout _ _ => .event
  | .brakeN => .event
  | .freezeCommand => .event
  | .brk => .event
  | .brakeFlit _ => .event
  | .scanRead _ _ _ _ => .event
  | .packageReset => .event
  | .fire => .event
  | .watchdogTimeout => .event
  | .firmwareImage _ => .event
  | .replayTimeout _ _ _ => .event
  | .ringSend _ _ => .event
  | .revolutionReceived _ _ _ _ => .event
  | .ringStallTimeout _ _ => .event
  | .linkFailure _ => .event
  | .ringFailureNotice _ _ _ _ => .event
  | .idleEntry => .event
  | .idleWakeTimer => .event
  | .linkTrained _ _ => .event
  | .arevAdvance _ _ _ => .event
  | .detectionByAnyMember _ _ _ _ => .event

/-! ### The checks -/

/-- The first check that fails names the refusal. -/
def firstFailed : List (Bool × Illegal) → Option Illegal
  | [] => none
  | (true, _) :: rest => firstFailed rest
  | (false, r) :: _ => some r

/-- G = 0 with GN = 1 would select no lane ever (R26). -/
def Guard.ok (g : Guard) : Bool := !(g.g == 0 && g.gn)

/-- The E bit of a field that holds no register is zero (R28). -/
def emptyBitOk (e : Bool) (o : Operand) : Bool := !e || o.isReg

/-- A literal is present exactly when a source field holds LIT (R33). -/
def literalPresent (l : Option Word64) (sources : List Operand) : Bool :=
  l.isSome == sources.any (fun o => o.kind == .lit)

/-- An s destination takes no per-lane source (R39). -/
def uniformOk (d : Operand) (sources : List Operand) : Bool :=
  !(d.kind == .s && sources.any Operand.perLane)

def checkX (r : XRow) (x : XW) : Option Illegal :=
  firstFailed [
    (x.guard.ok, .guardNever),
    (r.subs.contains x.sub.toNat, .subcode),
    (r.tys.contains x.t, .type),
    (r.modes.contains x.m.toNat, .mode),
    (r.d.accepts x.d && r.a.accepts x.a && r.b.accepts x.b && r.c.accepts x.c, .operand),
    (r.d.aligned x.d && r.a.aligned x.a && r.b.aligned x.b && r.c.aligned x.c, .pair),
    (emptyBitOk x.ea x.a && emptyBitOk x.eb x.b && emptyBitOk x.ec x.c, .emptyBit),
    (literalPresent x.lit [x.a, x.b, x.c], .literal),
    (r.a.literalOk x.a x.lit && r.b.literalOk x.b x.lit && r.c.literalOk x.c x.lit, .literalHigh),
    (r.reduces || uniformOk x.d [x.a, x.b, x.c], .uniformDestination)]

/-- ORD 0 has SCO 0; another ORD has SCO 0 to 4, or 3 alone for LDS and STS (R147). -/
def scopeOk (r : MRow) (m : MW) : Bool :=
  if m.ord = 0 then m.sco == 0 else if r.sco3 then m.sco == 3 else decide (m.sco.toNat ≤ 4)

/-- The registers to which E of a format M word applies (R41). -/
def mSources (r : MRow) (m : MW) : List Operand := [m.a, m.b] ++ (if r.dsrc then [m.d] else [])

def checkM (r : MRow) (m : MW) : Option Illegal :=
  firstFailed [
    (m.guard.ok, .guardNever),
    (r.subs.contains m.sub.toNat, .subcode),
    (r.szs.contains m.sz.toNat, .size),
    (r.ords.contains m.ord.toNat && scopeOk r m, .order),
    (r.off || m.off == 0 || (r.offRes && decide (m.off.toNat < 32)), .zeroField),
    (!m.x || r.x, .zeroField),
    (r.d.accepts m.d && r.a.accepts m.a && r.b.accepts m.b, .operand),
    (r.d.aligned m.d && r.a.aligned m.a && r.b.aligned m.b, .pair),
    (!m.e || (mSources r m).any Operand.isReg, .emptyBit),
    (literalPresent m.lit [m.b], .literal),
    (r.b.literalOk m.b m.lit, .literalHigh),
    (!r.dest || uniformOk m.d [m.a, m.b], .uniformDestination)]

/-- DESIGN CHOICE (log 56): an inline integer outside its word's range passes the decoder and is Illegal when the word issues (R24, R224). -/
def checkQ (r : QRow) (q : QW) : Option Illegal :=
  firstFailed [
    (q.guard.ok, .guardNever),
    (r.subs.contains q.sub.toNat, .subcode),
    ((r.ct || q.ct == 0) && (r.wa || q.wa == 0) && (r.wb || q.wb == 0) && (r.kn || q.kn == 0) && (r.node || q.node == 0), .zeroField),
    (r.ia.accepts q.ia && r.ib.accepts q.ib, .operand),
    (r.ia.aligned q.ia && r.ib.aligned q.ib, .pair)]

def checkK (r : KRow) (w : KW) : Option Illegal :=
  firstFailed [
    (w.guard.ok, .guardNever),
    (r.head || w.head == 0, .zeroField),
    (r.d.accepts w.d && r.a.accepts w.a && r.b.accepts w.b && r.c.accepts w.c, .operand),
    (r.d.aligned w.d && r.a.aligned w.a && r.b.aligned w.b && r.c.aligned w.c, .pair),
    (literalPresent w.lit [w.b, w.c], .literal)]

def checkY (r : YRow) (y : YW) : Option Illegal :=
  firstFailed [
    (y.guard.ok, .guardNever),
    (r.imm y.imm.toNat, .immediate),
    (r.d.accepts y.d && r.a.accepts y.a && r.b.accepts y.b, .operand),
    (r.d.aligned y.d, .pair),
    (emptyBitOk y.ea y.a && emptyBitOk y.eb y.b, .emptyBit),
    (literalPresent y.lit [y.a, y.b], .literal)]

def checkJ (r : JRow) (j : JW) : Option Illegal :=
  firstFailed [
    (j.guard.ok, .guardNever),
    (r.off || j.off == 0, .zeroField),
    (r.a.accepts j.a && j.b == .none, .operand)]

/-- Checks that one row makes beyond its shape: CZERO's tiles end at c63, QCVT.w names two reservations, TOLRD names its node once (R223, R232). -/
def Instr.extra : Instr → Option Illegal
  | .czero q => if q.ct.toNat + q.kn.toNat ≤ 63 then none else some .immediate
  | .qcvtW q => if q.wa = q.wb then some .operand else none
  | .tolrd q => if q.ib.kind ≠ .none ∧ q.node ≠ 0 then some .zeroField else none
  | _ => none

/-- The check of a word against its row alone. -/
def Shape.illegal? : Shape → Option Illegal
  | .x _ r w => checkX r w
  | .m _ r w => checkM r w
  | .q _ r w => checkQ r w
  | .k _ _ r w => checkK r w
  | .y _ _ r w => checkY r w
  | .j _ r w => checkJ r w
  | .p _ _ _ => none
  | .event => none

/-- Why the instruction's word is illegal, if it is (R36), judged from the word and its literal alone. -/
def Instr.illegal? (i : Instr) : Option Illegal :=
  match i.shape.illegal? with
  | some r => some r
  | none => i.extra

/-- The instruction has a legal encoding. -/
def Instr.wellFormed (i : Instr) : Bool := i.illegal?.isNone

/-! ### The allotment, the clause class and the repeat -/

/-- The operands of a word in the fields D, A, B and C, each with its slot. -/
def Shape.fields : Shape → List (Operand × Slot)
  | .x _ r w => [(w.d, r.d), (w.a, r.a), (w.b, r.b), (w.c, r.c)]
  | .m _ r w => [(w.d, r.d), (w.a, r.a), (w.b, r.b), (.none, .unused)]
  | .q _ r w => [(w.ia, r.ia), (w.ib, r.ib)]
  | .k _ _ r w => [(w.d, r.d), (w.a, r.a), (w.b, r.b), (w.c, r.c)]
  | .y _ _ r w => [(w.d, r.d), (w.a, r.a), (w.b, r.b), (.none, .unused)]
  | .j _ r w => [(w.a, r.a)]
  | .p _ _ _ => []
  | .event => []

/-- A v register inside the allotment (R36, R37); the alignment keeps the rest of a pair or quad inside it. -/
def Operand.fits (allot : Nat) : Operand → Bool
  | .v n => decide (n.toNat < allot)
  | _ => true

/-- Every v register of the word lies in the allotment. -/
def Instr.fits (allot : Nat) (i : Instr) : Bool := i.shape.fields.all (fun f => f.1.fits allot)

/-- The opcode of an instruction's word. -/
def Shape.op : Shape → Nat
  | .x op _ _ => op
  | .m op _ _ => op
  | .q op _ _ => op
  | .k op _ _ _ => op
  | .y op _ _ _ => op
  | .j op _ _ => op
  | .p _ _ _ => 0xF0
  | .event => 0

/-- A control transfer (R23). -/
def Shape.isTransfer : Shape → Bool
  | .j _ _ _ => true
  | _ => false

/-- The opcodes a clause of engine class ecl may hold (R22, R23). -/
def classPermits (ecl op : Nat) : Bool :=
  let hi := op / 16
  let plain := decide (hi < 4) || hi == 0xD || op == 0xF0
  match ecl with
  | 0 => decide (hi < 8) || hi == 0xD || op == 0xF0
  | 1 => plain || hi == 8 || hi == 9
  | 2 => plain || hi == 0xA
  | 3 => plain || hi == 0xB
  | 4 => plain || hi == 0xC || hi == 0xE
  | _ => false

/-- A word RPT may repeat: format X, M or K (R43). -/
def Shape.repeatable : Shape → Bool
  | .x _ _ _ => true
  | .m _ _ _ => true
  | .k _ _ _ _ => true
  | _ => false

/-- A step of 0, or a step on a v or s register field that keeps the field's pairs and quads legal (R43). -/
def stepOk (f : Operand × Slot) (step : BitVec 8) : Bool :=
  step == 0 ||
    match f.1 with
    | .v _ => step.toInt % (f.2.va : Int) == 0
    | .s _ => step.toInt % (f.2.sa : Int) == 0
    | _ => false

/-- The four steps against the four fields of the repeated word (R43). -/
def Steps.list (st : Steps) : List (BitVec 8) := [st.d, st.a, st.b, st.c]

/-- The static checks of R43 on the repeated word. -/
def stepsOk (st : Steps) (i : Instr) : Bool :=
  i.shape.repeatable && (i.shape.fields.zip st.list).all (fun p => stepOk p.1 p.2)

/-- Register number n plus k lies in its file: below the allotment for v, below 64 for s. -/
def Operand.inFile (allot : Nat) (o : Operand) (k : Int) : Bool :=
  match o with
  | .v n => decide (0 ≤ (n.toNat : Int) + k) && decide ((n.toNat : Int) + k < allot)
  | .s n => decide (0 ≤ (n.toNat : Int) + k) && decide ((n.toNat : Int) + k < 64)
  | _ => true

/-- Every stepped register of a repeat of n iterations lies in its file (R44). The numbers rise or fall steadily, so the last iteration decides. -/
def stepsInFile (allot n : Nat) (st : Steps) (i : Instr) : Bool :=
  (i.shape.fields.zip st.list).all (fun p => p.2 == 0 || p.1.1.inFile allot (((n : Int) - 1) * p.2.toInt))

end Sys2Proof
end

