-- ==== Sys2Proof/Decode.lean ====
section
/-! DEFINITION. From 64-bit code words to instructions and back: operand codes (R29), the seven formats (R26, R27), the opcode map (R35), the literal (R33), the clause header (R20) and the decode of a clause as a whole (R24). Decoding is total: a word is an instruction or is refused by the name of the check that it fails. -/
namespace Sys2Proof

/-! ### Operand codes (R29) -/

def Operand.encode : Operand → BitVec 9
  | .v n => 0#1 ++ n
  | .s n => 0b100#3 ++ n
  | .k n => 0b101000#6 ++ n
  | .lit => 0x148
  | .lane => 0x150
  | .wave => 0x151
  | .widlo => 0x152
  | .widhi => 0x153
  | .nwaves => 0x154
  | .pgidx => 0x155
  | .int n => 0b11#2 ++ n
  | .fc n => 0b11110#5 ++ n
  | .none => 0x1FF

def Operand.decode (c : BitVec 9) : Option Operand :=
  let n := c.toNat
  if n < 0x100 then some (.v (c.extractLsb' 0 8))
  else if n < 0x140 then some (.s (c.extractLsb' 0 6))
  else if n < 0x148 then some (.k (c.extractLsb' 0 3))
  else if n = 0x148 then some .lit
  else if n = 0x150 then some .lane
  else if n = 0x151 then some .wave
  else if n = 0x152 then some .widlo
  else if n = 0x153 then some .widhi
  else if n = 0x154 then some .nwaves
  else if n = 0x155 then some .pgidx
  else if n < 0x180 then Option.none
  else if n < 0x1E0 then some (.int (c.extractLsb' 0 7))
  else if n < 0x1F0 then some (.fc (c.extractLsb' 0 4))
  else if n = 0x1FF then some .none
  else Option.none

/-- The operand in the nine bits of a word from bit lo. -/
def operandAt (w : Word64) (lo : Nat) : Except Illegal Operand :=
  match Operand.decode (w.extractLsb' lo 9) with
  | some o => .ok o
  | none => .error .operand

/-! ### Fields -/

def guardOf (w : Word64) : Guard := { g := w.extractLsb' 53 3, gn := w.getLsbD 52 }
def opOf (w : Word64) : Nat := (w.extractLsb' 56 8).toNat
def subOf (w : Word64) : BitVec 4 := w.extractLsb' 48 4

/-- The trailing literal when L, bit [1], is set (R33); a literal beyond the clause is illegal. -/
def literalOf (w : Word64) (next : Option Word64) : Except Illegal (Option Word64) :=
  if w.getLsbD 1 then
    match next with
    | some l => .ok (some l)
    | none => .error .literal
  else .ok none

def decodeX (w : Word64) (next : Option Word64) : Except Illegal XW := do
  let d ← operandAt w 39
  let a ← operandAt w 30
  let b ← operandAt w 21
  let c ← operandAt w 12
  let lit ← literalOf w next
  match Ty.ofCode (w.extractLsb' 8 4).toNat with
  | none => .error .type
  | some t =>
    if w.getLsbD 0 then .error .zeroField
    else .ok { guard := guardOf w, sub := subOf w, d := d, a := a, b := b, c := c, t := t, m := w.extractLsb' 5 3,
               ea := w.getLsbD 4, eb := w.getLsbD 3, ec := w.getLsbD 2, lit := lit }

def decodeM (w : Word64) (next : Option Word64) : Except Illegal MW := do
  let d ← operandAt w 39
  let a ← operandAt w 30
  let b ← operandAt w 21
  let lit ← literalOf w next
  .ok { guard := guardOf w, sub := subOf w, d := d, a := a, b := b, off := w.extractLsb' 11 10,
        sz := w.extractLsb' 8 3, ord := w.extractLsb' 6 2, sco := w.extractLsb' 3 3, e := w.getLsbD 2,
        x := w.getLsbD 0, lit := lit }

def decodeQ (w : Word64) : Except Illegal QW := do
  let ia ← operandAt w 15
  let ib ← operandAt w 6
  .ok { guard := guardOf w, sub := subOf w, ct := w.extractLsb' 42 6, wa := w.extractLsb' 37 5,
        wb := w.extractLsb' 32 5, kn := w.extractLsb' 24 8, ia := ia, ib := ib, node := w.extractLsb' 0 6 }

def decodeK (w : Word64) (next : Option Word64) : Except Illegal KW := do
  let d ← operandAt w 39
  let a ← operandAt w 30
  let b ← operandAt w 21
  let c ← operandAt w 12
  let lit ← literalOf w next
  if w.extractLsb' 2 2 ≠ 0 ∨ w.getLsbD 0 then .error .zeroField
  else .ok { guard := guardOf w, d := d, a := a, b := b, c := c, head := w.extractLsb' 4 8, lit := lit }

def decodeY (w : Word64) (next : Option Word64) : Except Illegal YW := do
  let d ← operandAt w 39
  let a ← operandAt w 30
  let b ← operandAt w 21
  let lit ← literalOf w next
  if w.getLsbD 2 ∨ w.getLsbD 0 then .error .zeroField
  else .ok { guard := guardOf w, d := d, a := a, b := b, imm := w.extractLsb' 5 16, ea := w.getLsbD 4,
             eb := w.getLsbD 3, lit := lit }

def decodeJ (w : Word64) : Except Illegal JW := do
  let a ← operandAt w 39
  let b ← operandAt w 30
  if subOf w ≠ 0 then .error .subcode
  else if w.extractLsb' 0 2 ≠ 0 then .error .zeroField
  else .ok { guard := guardOf w, a := a, b := b, off := w.extractLsb' 2 28 }

/-- RPT (R43): G, GN and SUB are 0; the immediate form has CREG 0, the register form N 0 and an s register in CREG. -/
def decodeP (w : Word64) : Except Illegal Instr :=
  let st : Steps := { d := w.extractLsb' 24 8, a := w.extractLsb' 16 8, b := w.extractLsb' 8 8, c := w.extractLsb' 0 8 }
  if w.extractLsb' 48 8 ≠ 0 then .error .rpt
  else if w.getLsbD 41 then
    if w.extractLsb' 42 6 ≠ 0 then .error .rpt
    else match Operand.decode (w.extractLsb' 32 9) with
      | some (.s r) => .ok (.rptRegister r st)
      | _ => .error .rpt
  else if w.extractLsb' 32 9 ≠ 0 then .error .rpt
  else .ok (.rpt (w.extractLsb' 42 6) st)

/-! ### The opcode map (R35) -/

/-- The instruction of a format X (R203) opcode; a SUB the table does not list goes to the first row, which refuses it. -/
def makeX (op : Nat) : Option (XW → Instr) :=
  match op with
  | 0x00 => some .add
  | 0x01 => some .sub
  | 0x02 => some .adds
  | 0x03 => some .subs
  | 0x04 => some .mul
  | 0x05 => some .mulh
  | 0x06 => some .mad
  | 0x07 => some .abs
  | 0x08 => some .min
  | 0x09 => some .max
  | 0x0A => some .and
  | 0x0B => some .or
  | 0x0C => some .xor
  | 0x0D => some .andn
  | 0x0E => some .shl
  | 0x0F => some .shr
  | 0x10 => some .sar
  | 0x11 => some .rol
  | 0x12 => some .clz
  | 0x13 => some .popc
  | 0x14 => some .brev
  | 0x15 => some .bfx
  | 0x16 => some .bfi
  | 0x17 => some .mov
  | 0x18 => some .lea
  | 0x19 => some .padd
  | 0x1A => some .divu
  | 0x1B => some .remu
  | 0x1C => some .sel
  | 0x1D => some .hmix
  | 0x40 => some .fadd
  | 0x41 => some .fsub
  | 0x42 => some .fmul
  | 0x43 => some .fma
  | 0x44 => some .fmin
  | 0x45 => some .fmax
  | 0x46 => some .fabs
  | 0x47 => some .fneg
  | 0x48 => some .frnd
  | 0x49 => some .fclass
  | 0x4A => some .frcp
  | 0x4B => some .frsq
  | 0x4C => some .fsqrt
  | 0x4D => some .fexp2
  | 0x4E => some .flog2
  | 0x4F => some .ftanh
  | 0x50 => some .fscale
  | 0x60 => some .cvt
  | 0x61 => some .shfl
  | 0x62 => some .shflx
  | 0x63 => some .bcast
  | 0x64 => some .red
  | 0x65 => some .scan
  | 0x66 => some .pack
  | 0x67 => some .unpk
  | 0x70 => some .cmp
  | 0x71 => some .fcmp
  | 0x72 => some .kop
  | 0x73 => some .kpop
  | 0x74 => some .kff1
  | 0x75 => some .kset
  | 0x76 => some .kget
  | _ => none

/-- The instruction of a format M (R147) opcode; a SUB the table does not list goes to the first row, which refuses it. -/
def makeM (op sub : Nat) : Option (MW → Instr) :=
  match op with
  | 0x80 => some .ld
  | 0x81 => some .st
  | 0x82 => some .lds
  | 0x83 => some .sts
  | 0x84 => some (if sub = 1 then .ldbZ else .ldb)
  | 0x85 => some (if sub = 1 then .stbZ else .stb)
  | 0x86 => some (if sub = 1 then .ldcCol else .ldc)
  | 0x87 => some (if sub = 1 then .stcCol else .stc)
  | 0x88 => some .atom
  | 0x89 => some .ared
  | 0x8A => some (if sub = 1 then .cpyLane else .cpy)
  | 0x8B => some (if sub = 1 then .cpytW else .cpyt)
  | 0x8C => some .fence
  | 0x8D => some .waitc
  | 0x8E => some .pref
  | 0x8F => some .tagset
  | 0x90 => some .tagget
  | 0x91 => some .ptag
  | 0x92 => some (if sub = 1 then .cleanInv else .clean)
  | _ => none

/-- The instruction of a format Q (R223) opcode; a SUB the table does not list goes to the first row, which refuses it. -/
def makeQ (op sub : Nat) : Option (QW → Instr) :=
  match op with
  | 0xA0 => some .wres
  | 0xA1 => some .wrel
  | 0xA2 => some .wstat
  | 0xA3 => some (if sub = 1 then .qcvtW else .qcvt)
  | 0xA4 => some (if sub < 8 then .mloop else .mloopPeer)
  | 0xA5 => some .czero
  | 0xA6 => some (if sub < 8 then .cadd else .caddPeer)
  | 0xA7 => some (if sub = 1 then .cscaleRow else if sub = 2 then .cscaleCol else .cscale)
  | 0xA8 => some .demand
  | 0xA9 => some .tolrd
  | 0xAA => some .toltab
  | _ => none

/-- The instruction of a format K (R260) opcode and SUB. -/
def makeK (op sub : Nat) : Except Illegal (KW → Instr) :=
  match op with
  | 0xB0 => if sub = 0 then .ok .kappend else .error .subcode
  | 0xB1 => if sub = 0 then .ok .kstep else .error .subcode
  | 0xB2 => if sub = 0 then .ok .ksig else .error .subcode
  | 0xB3 => if sub = 0 then .ok .kgather else .error .subcode
  | 0xB4 => if sub = 0 then .ok .kfetch else if sub = 1 then .ok .kfetchV else if sub = 2 then .ok .kfetchW else if sub = 3 then .ok .kfetchWV else .error .subcode
  | 0xB5 => if sub = 0 then .ok .kslot else .error .subcode
  | 0xB6 => if sub = 0 then .ok .kstat else .error .subcode
  | _ => .error .opcode

/-- The instruction of a format Y (R90) opcode and SUB. -/
def makeY (op sub : Nat) : Except Illegal (YW → Instr) :=
  match op with
  | 0xC0 => if sub = 0 then .ok .bar else if sub = 1 then .ok .barC else .error .subcode
  | 0xC1 => if sub = 0 then .ok .arrive else if sub = 1 then .ok .arriveC else .error .subcode
  | 0xC2 => if sub = 0 then .ok .bwait else if sub = 1 then .ok .bwaitC else .error .subcode
  | 0xC3 => if sub = 0 then .ok .drainB else if sub = 1 then .ok .drainC else .error .subcode
  | 0xC4 => if sub = 0 then .ok .phase else .error .subcode
  | 0xC5 => if sub = 0 then .ok .yield else .error .subcode
  | 0xC6 => if sub = 0 then .ok .qpush else .error .subcode
  | 0xC7 => if sub = 0 then .ok .qpop else .error .subcode
  | 0xC8 => if sub = 0 then .ok .qtry else .error .subcode
  | 0xC9 => if sub = 0 then .ok .qlen else if sub = 1 then .ok .qlenInit else .error .subcode
  | 0xCA => if sub = 0 then .ok .poll else .error .subcode
  | 0xCB => if sub = 0 then .ok .dcdec else .error .subcode
  | 0xCC => if sub = 0 then .ok .dcset else .error .subcode
  | 0xCD => if sub = 0 then .ok .launch else .error .subcode
  | 0xE0 => if sub = 0 then .ok .sysr else .error .subcode
  | 0xE1 => if sub = 0 then .ok .sysw else .error .subcode
  | 0xE2 => if sub = 0 then .ok .trap else .error .subcode
  | 0xE3 => if sub = 0 then .ok .tret else .error .subcode
  | 0xE4 => if sub = 0 then .ok .bkpt else .error .subcode
  | 0xE5 => if sub = 0 then .ok .ticks else .error .subcode
  | 0xE6 => if sub = 0 then .ok .kill else if sub = 1 then .ok .killGrid else .error .subcode
  | 0xE7 => if sub = 0 then .ok .faultrd else .error .subcode
  | _ => .error .opcode

/-- The instruction of a format J opcode (R86). -/
def makeJ (op : Nat) : Option (JW → Instr) :=
  match op with
  | 0xD0 => some .nop
  | 0xD1 => some .bra
  | 0xD2 => some .bz
  | 0xD3 => some .bnz
  | 0xD4 => some .bany
  | 0xD5 => some .ball
  | 0xD6 => some .bnone
  | 0xD7 => some .loop
  | 0xD8 => some .call
  | 0xD9 => some .ret
  | 0xDA => some .jmpi
  | 0xDB => some .endWave
  | _ => none
/-- An instruction that its row accepts. -/
def accept (i : Instr) : Except Illegal Instr :=
  match i.illegal? with
  | none => .ok i
  | some r => .error r

/-- Apply an opcode's constructor to the fields its format gives, and check the row. -/
def finish {α : Type} (mk : Option (α → Instr)) (fields : Except Illegal α) : Except Illegal Instr :=
  match mk with
  | none => .error .opcode
  | some f =>
    match fields with
    | .error r => .error r
    | .ok w => accept (f w)

/-- The same where the opcode and SUB together name the constructor. -/
def finishSub {α : Type} (mk : Except Illegal (α → Instr)) (fields : Except Illegal α) : Except Illegal Instr :=
  match mk with
  | .error r => .error r
  | .ok f =>
    match fields with
    | .error r => .error r
    | .ok w => accept (f w)

/-- The instruction of a code word, with the word that follows it in the clause if there is one. The opcode alone selects the format (R27). -/
def decodeWord (w : Word64) (next : Option Word64) : Except Illegal Instr :=
  let op := opOf w
  let sub := (subOf w).toNat
  match op / 16 with
  | 0x8 => finish (makeM op sub) (decodeM w next)
  | 0x9 => finish (makeM op sub) (decodeM w next)
  | 0xA => finish (makeQ op sub) (decodeQ w)
  | 0xB => finishSub (makeK op sub) (decodeK w next)
  | 0xC => finishSub (makeY op sub) (decodeY w next)
  | 0xD => finish (makeJ op) (decodeJ w)
  | 0xE => finishSub (makeY op sub) (decodeY w next)
  | 0xF => if op = 0xF0 then decodeP w else .error .opcode
  | _ => finish (makeX op) (decodeX w next)

/-- A trailing literal follows the word: L is bit [1] of formats X, M, K and Y (R27, R33). -/
def hasLiteral (w : Word64) : Bool :=
  match opOf w / 16 with
  | 0xA => false
  | 0xD => false
  | 0xF => false
  | _ => w.getLsbD 1

/-- The words an instruction occupies in its clause. -/
def wordLength (w : Word64) : Nat := if hasLiteral w then 2 else 1

/-! ### The clause (R19 to R24) -/

/-- The fields of a clause header (R20). -/
structure ClauseHeader where
  ecl : Nat
  nw  : Nat
  thc : Nat
  thm : Nat
  thg : Nat
  ths : Nat
  y   : Bool
  deriving DecidableEq, Repr

/-- The header a word codes: ECL 0 to 4 and bits [38:0] zero (R20, R36). -/
def decodeHeader (h : Word64) : Option ClauseHeader :=
  let ecl := (h.extractLsb' 60 4).toNat
  if ecl < 5 ∧ h.extractLsb' 0 39 = 0 then
    some { ecl := ecl, nw := (h.extractLsb' 56 4).toNat, thc := (h.extractLsb' 52 4).toNat,
           thm := (h.extractLsb' 48 4).toNat, thg := (h.extractLsb' 44 4).toNat,
           ths := (h.extractLsb' 40 4).toNat, y := h.getLsbD 39 }
  else none

/-- The repeat a word begins: the count where the word gives it, and the steps. -/
def Instr.repeat? : Instr → Option (Option Nat × Steps)
  | .rpt n steps => some (some (n.toNat + 1), steps)
  | .rptRegister _ steps => some (none, steps)
  | _ => none

/-- The static checks of a repeat against the word it repeats (R43, R44). -/
def repeatOk (allot : Nat) (rep : Option Nat × Steps) (i : Instr) : Bool :=
  stepsOk rep.2 i &&
    (match rep.1 with
     | some n => stepsInFile allot n rep.2 i
     | none => true)

/-- What the decoder refuses in a repeat: RPT as the last word, or a word after it that it may not repeat. The RPT is the offending word; a next word that is illegal by itself is named itself (R36, R43). -/
def repeatIllegal (ecl allot : Nat) (rep : Option Nat × Steps) (rest : List Word64) : Option Illegal :=
  match rest with
  | [] => some .rpt
  | w :: more =>
    match decodeWord w more.head? with
    | .ok i => if ¬ classPermits ecl i.shape.op ∨ ¬ i.fits allot ∨ repeatOk allot rep i then none else some .rpt
    | .error _ => none

/-- What the decoder refuses in one word of a clause: the word itself, its class, its allotment, its place (R23, R24). -/
def wordIllegal (ecl allot : Nat) (w : Word64) (rest : List Word64) (i : Instr) : Option Illegal :=
  if ¬ classPermits ecl i.shape.op then some .clauseClass
  else if ¬ i.fits allot then some .allotment
  else if i.shape.isTransfer ∧ rest ≠ [] then some .transfer
  else match i.repeat? with
    | some rep => repeatIllegal ecl allot rep rest
    | none => if wordLength w ≤ rest.length + 1 then none else some .literal

/-- The first illegal word of a clause, with its index (R24). skip is true where the word is the literal of the one before it. -/
def checkWords (ecl allot : Nat) (ix : Nat) (skip : Bool) : List Word64 → Option (Nat × Illegal)
  | [] => none
  | w :: rest =>
    if skip then checkWords ecl allot (ix + 1) false rest
    else match decodeWord w rest.head? with
      | .error r => some (ix, r)
      | .ok i =>
        match wordIllegal ecl allot w rest i with
        | some r => some (ix, r)
        | none => checkWords ecl allot (ix + 1) (hasLiteral w) rest

/-- The first illegal word of a clause with this header. -/
def checkClause (h : ClauseHeader) (allot : Nat) (words : List Word64) : Option (Nat × Illegal) :=
  checkWords h.ecl allot 0 false words

/-! ### Repeats (R43) -/

/-- What iteration k of a repeat adds to a word whose nine-bit field at bit lo is stepped: register number + k × step, a sum inside the field because every stepped register lies in its file. -/
def stepAt (lo k : Nat) (step : BitVec 8) : Word64 := BitVec.ofInt 64 ((k : Int) * step.toInt * 2 ^ lo)

/-- The repeated word as iteration k issues it: fields D, A, B and C stepped (R43). -/
def stepWord (w : Word64) (st : Steps) (k : Nat) : Word64 :=
  w + stepAt 39 k st.d + stepAt 30 k st.a + stepAt 21 k st.b + stepAt 12 k st.c

/-! ### Encoding -/

/-- The common fields in [63:48] (R26). -/
def encodeCommon (op : Nat) (g : Guard) (sub : BitVec 4) : BitVec 16 :=
  BitVec.ofNat 8 op ++ g.g ++ BitVec.ofBool g.gn ++ sub

def XW.encode (op : Nat) (x : XW) : Word64 :=
  encodeCommon op x.guard x.sub ++ x.d.encode ++ x.a.encode ++ x.b.encode ++ x.c.encode ++ x.t.code ++ x.m ++
    BitVec.ofBool x.ea ++ BitVec.ofBool x.eb ++ BitVec.ofBool x.ec ++ BitVec.ofBool x.lit.isSome ++ 0#1

def MW.encode (op : Nat) (m : MW) : Word64 :=
  encodeCommon op m.guard m.sub ++ m.d.encode ++ m.a.encode ++ m.b.encode ++ m.off ++ m.sz ++ m.ord ++ m.sco ++
    BitVec.ofBool m.e ++ BitVec.ofBool m.lit.isSome ++ BitVec.ofBool m.x

def QW.encode (op : Nat) (q : QW) : Word64 :=
  encodeCommon op q.guard q.sub ++ q.ct ++ q.wa ++ q.wb ++ q.kn ++ q.ia.encode ++ q.ib.encode ++ q.node

def KW.encode (op sub : Nat) (w : KW) : Word64 :=
  encodeCommon op w.guard (BitVec.ofNat 4 sub) ++ w.d.encode ++ w.a.encode ++ w.b.encode ++ w.c.encode ++ w.head ++
    0#2 ++ BitVec.ofBool w.lit.isSome ++ 0#1

def YW.encode (op sub : Nat) (y : YW) : Word64 :=
  encodeCommon op y.guard (BitVec.ofNat 4 sub) ++ y.d.encode ++ y.a.encode ++ y.b.encode ++ y.imm ++
    BitVec.ofBool y.ea ++ BitVec.ofBool y.eb ++ 0#1 ++ BitVec.ofBool y.lit.isSome ++ 0#1

def JW.encode (op : Nat) (j : JW) : Word64 :=
  encodeCommon op j.guard 0#4 ++ j.a.encode ++ j.b.encode ++ j.off ++ 0#2

def encodeP (reg : Bool) (n : BitVec 6) (st : Steps) : Word64 :=
  0xF0#8 ++ 0#8 ++ (if reg then 0#6 ++ 1#1 ++ (Operand.s n).encode else n ++ 0#1 ++ 0#9) ++ st.d ++ st.a ++ st.b ++ st.c

/-- A word and its trailing literal, if it has one (R33). -/
def withLiteral (w : Word64) (lit : Option Word64) : List Word64 := w :: lit.toList

/-- The words of an instruction: its word and its literal; none for an event. -/
def encode (i : Instr) : List Word64 :=
  match i.shape with
  | .x op _ w => withLiteral (w.encode op) w.lit
  | .m op _ w => withLiteral (w.encode op) w.lit
  | .q op _ w => [w.encode op]
  | .k op sub _ w => withLiteral (w.encode op sub) w.lit
  | .y op sub _ w => withLiteral (w.encode op sub) w.lit
  | .j op _ w => [w.encode op]
  | .p reg n st => [encodeP reg n st]
  | .event => []

/-- An instruction with a word: not an event row. -/
def Instr.isWord (i : Instr) : Bool :=
  match i.shape with
  | .event => false
  | _ => true

/-! ### Bytes and the host's table words -/

/-- Eight bytes as one little-endian word (R3, R19). -/
def wordOfBytes : List Byte → Option Word64
  | b0 :: b1 :: b2 :: b3 :: b4 :: b5 :: b6 :: b7 :: _ => some (b7 ++ b6 ++ b5 ++ b4 ++ b3 ++ b2 ++ b1 ++ b0)
  | _ => none

/-- The bytes of a word, lowest address first (R3). -/
def bytesOfWord (w : Word64) : List Byte := (List.range 8).map (fun j => w.extractLsb' (8 * j) 8)

/-- The instruction at the head of a list of bytes; fewer than eight bytes hold no word. -/
def decodeBytes (bs : List Byte) : Except Illegal Instr :=
  match wordOfBytes bs with
  | none => .error .opcode
  | some w => decodeWord w (wordOfBytes (bs.drop 8))

/-- The words of a table word of nbits bits, the bits above them zero: the instruction's word and the word that follows it. -/
def tableWords (nbits w : Nat) : Word64 × Word64 :=
  let v := w % 2 ^ nbits
  (BitVec.ofNat 64 v, BitVec.ofNat 64 (v / 2 ^ 64))

/-- The instruction this decoder reads from a table word, laid out in memory as R19 says and read back. -/
def decodeTableWord (nbits w : Nat) : Option Instr :=
  let ws := tableWords nbits w
  match decodeBytes (bytesOfWord ws.1 ++ bytesOfWord ws.2) with
  | .ok i => some i
  | .error _ => none

end Sys2Proof
end

