-- ==== Sys2Proof/Config.lean ====
section
/-! DEFINITION. What one implementation fixes and the manual leaves open: free values without a body. Nothing can prove a value of one of them, so a claim that holds of the model holds whatever they are. -/
namespace Sys2Proof

/-- What acts next (the model's own; log 2). Time passes only in `pass`. -/
inductive Move where
  /-- the wave with this key issues the next word of its started clause -/
  | issue (wave : Nat)
  /-- a device event or an input takes place -/
  | event (i : Instr)
  /-- cycles of the arithmetic clock and ticks of the tick counter pass -/
  | pass (cycles ticks : Nat)
  /-- a 32-byte granule of device-physical memory takes an error that cannot be corrected (R283, R295; log 53) -/
  | spoil (granule : Nat)
  /-- the drive behind a 64 KiB unit of device-MMIO stops answering, or answers again (R312; log 53) -/
  | drive (unit : Nat) (answers : Bool)
  deriving DecidableEq, Repr, Inhabited

/-- DESIGN CHOICE (log 2). The order of agents that the manual leaves open: the n-th move, where the state lists none. -/
opaque Config.freeMove : Nat → Move

/-- DESIGN CHOICE (log 6). A 64-bit value the manual does not state, one for every draw (the state's counter names the draw). -/
opaque Config.freeValue : Nat → BitVec 64

/-- DESIGN CHOICE (log 6). A choice of yes or no the manual leaves open, one for every draw. -/
opaque Config.freeBool : Nat → Bool

/-- DESIGN CHOICE (log 6). The exponent FSCALE takes from an FP32 constant code, which the manual does not state: one value for each code. -/
opaque Config.freeExponent : BitVec 4 → BitVec 32

/-- DESIGN CHOICE (log 6). A byte of a unit's scan, from the unit's state and the byte's offset: the manual gives the scan no layout (R317). -/
opaque Config.scanByte : List Nat → Nat → BitVec 8

/-- DESIGN CHOICE (log 28). Whether a byte of a context's memory belongs to the queue and doorbell set-up that the GRANT of a requester names, by ASID, requester and address: the manual does not say which bytes those are (R326). -/
opaque Config.grantSetUp : Nat → Nat → Nat → Bool

/-- DESIGN CHOICE (log 9). Flash pages of one NAND erase block: the page-store card's, not stated (R310). -/
opaque Config.pagesPerBlock : Nat

end Sys2Proof
end

