-- ==== Sys2Proof/Machine/State.lean ====
section
/-! DEFINITION. The state of the package: plain data, everything the manual gives the machine. Maps are lists of (key, value) pairs with strictly rising keys; the operations that keep that form are in Machine/Maps.lean. -/
namespace Sys2Proof.Machine

/-- A map from Nat keys: pairs with strictly rising keys. -/
abbrev AMap (α : Type) := List (Nat × α)

/-- Why the machine itself stops. A hard fault of the manual is no stop: it ends a block and the package runs on. -/
inductive Fault where
  /-- raised by the meaning of an instruction word when no wave is issuing, or the issuing wave does not exist: the manual gives such a step no meaning. Safe: no run that starts a word through `step` meets it. -/
  | noIssuingWave
  deriving DecidableEq, Repr

/-- Why the model has no answer. -/
inductive Refusal where
  /-- raised by the dispatch arm of an instruction without a meaning. Safe: nothing is claimed of it. -/
  | notModelled (mnemonic : String)
  deriving DecidableEq, Repr

/-! ### Words in flight -/

/-- The word an operation came from, as a fault record names it (R284). -/
structure WordInfo where
  pc   : Word64
  ix   : Nat
  iter : Nat
  opc  : Nat
  deriving DecidableEq, Repr, Inhabited

/-- One lane's bytes of a store: address bits [59:0], the tag it is checked against, the bytes in address order. -/
structure Piece where
  lane : Nat
  addr : Nat
  tag  : Nat
  data : List Byte
  deriving DecidableEq, Repr, Inhabited

/-- One lane of an atomic: its location, its operand and the value `.cas` compares with (R159). -/
structure AtomLane where
  lane : Nat
  addr : Nat
  tag  : Nat
  b    : Nat
  cmp  : Nat
  deriving DecidableEq, Repr, Inhabited

/-- One lane of a CPY.lane (R162). -/
structure CopyLane where
  lane : Nat
  src  : Nat
  stag : Nat
  dst  : Nat
  dtag : Nat
  deriving DecidableEq, Repr, Inhabited

/-- An operation that the memory unit holds for a wave until it is performed (R92, R124, R142, R151 to R172). -/
inductive MemOp where
  | store (pieces : List Piece)
  /-- a journal entry of KAPPEND: the region and the entry's number (R254) -/
  | journal (region entry : Nat) (pieces : List Piece)
  | atom (returning : Bool) (op size : Nat) (dest : Operand) (lanes : List AtomLane)
  /-- per-lane TAGSET: lane, address and tag of each write -/
  | tagset (writes : List (Nat × Nat × Nat))
  | tagRange (addr len tag : Nat)
  | clean (addr len tag : Nat) (inv : Bool)
  | sts (addr : Nat) (val : Word64)
  | lds (addr : Nat) (dest : Operand)
  | push (q : Nat) (item : Word64)
  | qinit (q : Nat) (cap : Word64)
  | dcdec (c : Nat)
  | dcset (c : Nat) (val : Word64)
  deriving DecidableEq, Repr, Inhabited

/-- An entry of the wave's memory queue; acq: it is an acquire, or for an STS a release (R152); logged: it stands in the core's side log (R124); carried: a save has carried it, and it stays ahead of every later store and Quern operation (R132); no: its number among the operations that oc.st counts (R142). -/
structure MqEntry where
  op     : MemOp
  info   : WordInfo
  acq    : Bool
  logged : Bool
  carried : Bool
  no     : Nat
  deriving DecidableEq, Repr, Inhabited

/-- The part of a lane's value that the far side answers (R122): len bytes from byte off of the value, the TIER of their page, and shared where the part is the one read that serves every lane (R149). -/
structure FarPart where
  lane   : Nat
  off    : Nat
  len    : Nat
  tier   : Nat
  shared : Bool
  deriving DecidableEq, Repr, Inhabited

/-- A result of a long-latency producer on its way to its register (R40). lanes pairs a lane with its raw value (an s destination has one entry, for lane 0); far names the parts whose data the arrival brings, in lane order (R122); bad: the lane and address of a read whose data cannot be supplied (R306); addrs: the pointer each lane reads through; acq: an acquire whose value has not arrived (R138). -/
structure Return where
  info  : WordInfo
  dest  : Operand
  size  : Nat
  sx    : Bool
  lanes : List (Nat × Nat)
  far   : List FarPart
  bad   : Option (Nat × Nat)
  addrs : List (Nat × Nat)
  acq   : Bool
  deriving DecidableEq, Repr, Inhabited

/-- Where a KFETCH writes its rows (R264). -/
inductive FetchDest where
  | window (addr : Nat)
  | rows (res : Nat)
  | columns (res qb : Nat)
  deriving DecidableEq, Repr, Inhabited

/-- What a KFETCH that registers finds beyond the read that stops a row (R259): the block table entry, the row's bytes and the scale code, each where its mapping was there and its access passed. -/
structure RowSeen where
  page : Option Nat
  bytes : Option (List Byte)
  scale : Option Nat
  deriving DecidableEq, Repr, Inhabited

/-- A row of a KFETCH as it stood when the word registered (R259): zeros; the bytes and scale code of its section, with the slot, the KV page it lies on and that page's TIER; or read only so far, where a mapping was pending or an access fails: not even its generation record; that record, which names the slot's entry; or the block table entry too. later: a row read so far, and what the word found beyond. missed: a whole row of a tier 2 page whose miss is counted and logged, and whose page is still to be brought in (R265). -/
inductive RowSnap where
  | zero
  | unread (slot gen : Nat)
  | live (slot : Nat)
  | paged (slot page : Nat)
  | row (slot page tier scale : Nat) (bytes : List Byte)
  | missed (slot page scale : Nat) (bytes : List Byte)
  | later (at_ : RowSnap) (seen : RowSeen)
  deriving DecidableEq, Repr, Inhabited

/-- An operation in flight in one of a core's engines (R142): its operand values, moved on to the point that its work has reached (R82). -/
inductive EngOp where
  | cpy (dst dtag src stag len : Nat)
  /-- the lanes not yet written; data: their sources' bytes, once every source is read -/
  | cpyLane (size : Nat) (lanes : List CopyLane) (data : Option (List (List Byte)))
  /-- last: the table entry last read, with its number -/
  | cpyt (dst dtag table ttag rpb rb n first : Nat) (last : Option (Nat × Nat))
  /-- off: where the next row goes in the reservation -/
  | cpytW (res off table ttag rpb rb n first : Nat) (last : Option (Nat × Nat))
  /-- peer: the block key of the supplying block -/
  | mloop (ct wa wb : Nat) (peer : Nat) (n a0 b0 : Nat)
  /-- blk: the next block to convert -/
  | qcvt (wd addr stride blk : Nat)
  | qcvtW (wd ws : Nat)
  /-- the writing of a KGATHER list, decided at issue (R263) -/
  | list (addr : Nat) (bytes : List Byte) (region : Nat)
  /-- a KFETCH: descriptor words, head, values or keys, the rows left, the number of the first of them, and the KV pages it has missed on -/
  | fetch (desc : List Word64) (head : Nat) (values : Bool) (dest : FetchDest) (rows : List RowSnap) (first : Nat) (missed : List Nat)
  deriving DecidableEq, Repr, Inhabited

/-- An engine operation in a wave's queue: the A lines it reads that were empty when it issued and are not yet filled (R120), how many entries of the wave's memory queue are older, its number among the wave's engine operations (R141), and whether it is complete and held back behind an older one of its class (R142). -/
structure EngEntry where
  op    : EngOp
  info  : WordInfo
  need  : List Nat
  after : Nat
  no    : Nat
  ran   : Bool
  deriving DecidableEq, Repr, Inhabited

/-! ### Waves -/

/-- A repeat in progress (R44): count, next iteration, steps. -/
structure Repeat where
  count : Nat
  iter  : Nat
  steps : Steps
  deriving DecidableEq, Repr, Inhabited

/-- The started clause of a wave (R22, R25): its words, decoded as a whole when it started, and the resume point in it. -/
structure Clause where
  words : List Word64
  idx   : Nat
  y     : Bool
  rpt   : Option Repeat
  /-- the cycles of a YIELD that has issued in this clause (R98) -/
  yld   : Option Nat
  deriving DecidableEq, Repr, Inhabited

/-- A POLL held at its word (R70, R71, R104). -/
structure PollState where
  fails : Nat
  /-- cycles of the back-off wait that are left -/
  left : Nat
  var   : Nat
  value : Word64
  cge   : Bool
  w32   : Bool
  dest  : Operand
  deriving DecidableEq, Repr, Inhabited

/-- The condition of an executed PHASE (R56, R96); ord: how many of the block's waves had executed theirs before. -/
structure PhaseReq where
  ck   : Nat
  cge  : Bool
  w32  : Bool
  ca   : Word64
  cval : Word64
  ord  : Nat
  deriving DecidableEq, Repr, Inhabited

/-- The six words of the trap record (R111). -/
structure TrapRec where
  w0 : Word64
  w1 : Word64
  w2 : Word64
  w3 : Word64
  w4 : Word64
  w5 : Word64
  deriving DecidableEq, Repr, Inhabited

/-- Where TRET continues (R113): the clause header, and the clause with the word to go on at (none: its last word is done, the header is the next one's); retry: the raising word took no effect (causes 1 to 5). -/
structure Resume where
  pc     : Word64
  clause : Option Clause
  retry  : Bool
  deriving DecidableEq, Repr, Inhabited

/-- The four outstanding counters (R166). -/
structure Counters where
  cpy : Nat
  mtx : Nat
  gat : Nat
  st  : Nat
  deriving DecidableEq, Repr, Inhabited

structure Wave where
  /-- key of its block -/
  blk : Nat
  idx : Nat
  /-- allotment a, waves of the block, page index, work identifier of lane 0 (R37, R46) -/
  allot : Nat
  nwaves : Nat
  pgidx : Nat
  wid : Word64
  pc : Word64
  clause : Option Clause
  /-- s, k and v registers, sparse, 0 where not listed; v keyed by register × 32 + lane (R37) -/
  s : AMap Word64
  k : AMap Word32
  v : AMap Word32
  /-- empty s, k and v registers (R40) -/
  sE : List Nat
  kE : List Nat
  vE : List Nat
  oc : Counters
  /-- the operations that oc.st counts, by number, oldest first, and the number of the next one: oc.st falls in issue order (R142) -/
  stOut : List Nat
  stNext : Nat
  /-- engine operations issued so far (R141) -/
  engNo : Nat
  /-- a save that is due has stopped the wave at this word, which waits (R81) -/
  held : Bool
  backoff : Nat
  poll : Option PollState
  /-- failed attempts that a restored POLL counts on from when it issues anew (R71) -/
  again : Nat
  arv : Bool
  behind : Bool
  /-- cycles of a YIELD that are left (R98), and how many it began with -/
  yieldLeft : Option Nat
  yieldLen : Nat
  age : Nat
  aged : Bool
  /-- pending arrivals: barrier and generation (R93, R94) -/
  pendB : AMap Nat
  pendC : AMap Nat
  phase : Option PhaseReq
  /-- the queue whose waiter list holds it (R72) -/
  parked : Option Nat
  phaseVal : Word64
  trapVec : Word64
  trapSt : Bool
  tierMiss : Word64
  trec : TrapRec
  resume : Option Resume
  /-- the next word treats every E bit as 0 (TRET.wait) -/
  noE : Bool
  bkpts : Nat
  mq : List MqEntry
  returns : List Return
  cpyQ : List EngEntry
  mtxQ : List EngEntry
  gatQ : List EngEntry
  /-- the wave stops at its next clause boundary: KILL, a fault of its block (R114, R286) -/
  stop : Bool
  ended : Bool
  /-- Quern operations of the wave so far (R319) -/
  qops : Nat
  deriving DecidableEq, Repr, Inhabited

/-! ### Blocks and grids -/

/-- A W reservation (R121, R226): st 1 empty, 2 filling, 3 ready, 4 draining; free reservations are not listed. units: UNITS of the record, one less than the units held; bytes sparse, 0 where not listed. -/
structure Res where
  st : Nat
  ach : Nat
  nv : Bool
  node : Nat
  fmt : Nat
  b32 : Bool
  sc : Bool
  e96 : Nat
  units : Nat
  soff : Nat
  /-- operations that still read it -/
  readers : Nat
  bytes : List Host.Cell
  deriving DecidableEq, Repr, Inhabited

/-- A node of the loaded tolerance table (R192). -/
structure TolNode where
  kind : Nat
  /-- operand nodes and their sensitivities: (index i, OPi, Ki) for each NDM bit set -/
  ops : List (Nat × Nat × Int)
  perm : Nat
  deriving DecidableEq, Repr, Inhabited

/-- A choice file entry (R197). -/
structure Choice where
  use : Bool
  rch : Bool
  prd : Bool
  st : Bool
  unm : Bool
  ach : Nat
  code : Nat
  cho : Nat
  deriving DecidableEq, Repr, Inhabited

/-- A barrier: current generation, members arrived in it, and what the last completed generation elected (R74, R77). -/
structure Bar where
  gen : Nat
  arrived : List Nat
  elected : Nat
  deriving DecidableEq, Repr, Inhabited

/-- Where a block stands (R12, R13, R51, R57, R65, R66, R81). -/
inductive Life where
  /-- not placed -/
  | waiting
  /-- its landing slot is granted, its flash page is on the way -/
  | reserved
  /-- its page window is full and it holds its core, not yet runnable -/
  | landed
  /-- landed when its context was saved: it is restored to a core -/
  | savedLanded
  /-- displaced: its page window is kept in the save area -/
  | displaced
  | running
  /-- in a phase record, queued in Quern -/
  | phase
  /-- in the context save area -/
  | saved
  /-- it has its status word -/
  | done
  deriving DecidableEq, Repr, Inhabited

/-- How a block ends when it does not end by itself: the status word's ST and GT (R62, R63, R114). -/
inductive EndAs where
  | done
  | faulted
  | gridFault
  deriving DecidableEq, Repr, Inhabited

structure Block where
  gid : Nat
  /-- block number (R47) -/
  num : Nat
  life : Life
  core : Option Nat
  /-- A allocation, sparse, 0 where not listed; its empty lines (R8, R120) -/
  a : List Host.Cell
  aE : List Nat
  res : AMap Res
  /-- accumulator tiles, sparse, +0 where not listed; keyed by tile × 1024 + row × 32 + column; bound tiles (R237) -/
  tiles : AMap Word32
  bound : List Nat
  /-- its loops that have not run, in the order they issued: the index of the wave, and the operation's number there (R187, R234) -/
  loops : List (Nat × Nat)
  tol : AMap TolNode
  choice : AMap Choice
  bars : AMap Bar
  /-- waves that arrived at cluster barrier n in the current generation (R94) -/
  cArr : AMap (List Nat)
  /-- index of its stack slice, the stack bytes themselves lie in device memory (R117) -/
  slice : Option Nat
  /-- the flash page entry, rung of its read ladder and codewords accepted (R300) -/
  fa : Word64
  sd : Bool
  rl : Nat
  landedAt : Nat
  /-- the displacement window of the save area that holds its page: its device-physical address (R66, R272) -/
  dsp : Option Nat
  endAs : Option EndAs
  /-- an involuntary save is due, for the polling wave with this index (R71) -/
  escal : Option Nat
  deriving DecidableEq, Repr, Inhabited

/-- The fields of a launch descriptor (R48). -/
structure Desc where
  kind : Nat
  prio : Nat
  det : Bool
  fpol : Bool
  rmode : Nat
  gs : Nat
  pwoff : Nat
  au : Nat
  cv : Nat
  cs : Nat
  va : Nat
  nw : Nat
  entry : Word64
  args : Word64
  pgf : Nat
  w1 : Nat
  w2 : Nat
  w3 : Nat
  w4 : Nat
  w5 : Nat
  ext3 : Nat
  ext4 : Nat
  ext5 : Nat
  plist : Nat
  dcbase : Nat
  stbase : Nat
  prbase : Nat
  gdone : Nat
  stksz : Nat
  deriving DecidableEq, Repr, Inhabited

structure Grid where
  asid : Nat
  d : Desc
  /-- status words, 0 where not listed (R62) -/
  status : AMap Word32
  /-- dependence counters already seen at 0: blocks made runnable (R52) -/
  runnable : List Nat
  /-- page-list entries read (R54) -/
  listed : List Nat
  gbar : AMap Bar
  /-- cluster barriers keyed by group × 4 + barrier (R74, R94) -/
  cbars : AMap Bar
  done : Bool
  /-- the launch ring's VF and tag, for the completion entry (R292) -/
  launcher : Option (Nat × Nat)
  deriving DecidableEq, Repr, Inhabited

/-! ### Contexts -/

/-- An adopted context table entry (R272). -/
structure CtxEntry where
  part : Nat
  root : Nat
  sbk : Nat
  syncsz : Nat
  stks : Nat
  stkb : Nat
  save : Nat
  fql : Nat
  fqb : Nat
  dspn : Nat
  fgn : Nat
  fgt : Nat
  deriving DecidableEq, Repr, Inhabited

/-- Who sent a push (R72, R100, R307): a wave, with the operation's number there; a base die's Tailrace; or Lovage (R265). -/
inductive Sender where
  | wave (key no : Nat)
  | tailrace (die : Nat)
  | lovage
  deriving DecidableEq, Repr, Inhabited

/-- A queue in Quern (R72, R99, R100): capacity (0: 2^24), items, waiters oldest first as (wave key, destination s register), held pushes oldest first with their senders. -/
structure SyncQueue where
  cap : Nat
  items : List Word64
  waiters : List (Nat × Nat)
  held : List (Sender × Word64)
  deriving DecidableEq, Repr, Inhabited

/-- An entry of a core's journal (R253, R255): its core, its place in the journal, its key in the region, the wave to acknowledge and the operation's number there, whether it is written and the step it took on arrival. -/
structure JEntry where
  id : Nat
  core : Nat
  slot : Nat
  wave : Nat
  no : Nat
  written : Bool
  step : Option Word64
  /-- arrival order -/
  seq : Nat
  desc : List Word64
  deriving DecidableEq, Repr, Inhabited

/-- A key-store region at its home Lovage (R255, R259). -/
structure Region where
  entries : List JEntry
  nextId : Nat
  nextSeq : Nat
  /-- next journal slot of each core -/
  next : AMap Nat
  /-- gathers and fetches registered and not complete -/
  readers : Nat
  /-- KSTEP words arrived: wave key and descriptor; the first one files -/
  ksteps : List (Nat × List Word64)
  deriving DecidableEq, Repr, Inhabited

/-- A ring of a context (R321 to R324); its control block lies in sync space. -/
structure Ring where
  pos : Nat
  nm : Nat
  tmo : Nat
  next : Nat
  prev : Nat
  rbb : Nat
  rsz : Nat
  /-- highest revolution handed to NEXT, and the lowest ACK and the highest SENT of the other members as last heard -/
  sent : Nat
  others : Nat
  theirs : Nat
  /-- the last tick at which AREV advanced or no member's SENT exceeded it (R324) -/
  since : Nat
  /-- formed on a closed ring, and nothing received yet -/
  fresh : Bool
  deriving DecidableEq, Repr, Inhabited

/-- The log area of a context (R318 to R320). -/
structure LogArea where
  base : Nat
  units : Nat
  written : Nat
  /-- grids recorded or replayed; empty: none -/
  grids : List Nat
  replay : Bool
  /-- replayed records consumed, and addresses or pages whose constraint is lifted -/
  used : List Nat
  lifted : List (Nat × Bool)
  full : Bool
  /-- tick at which the replay began, and at which each record was consumed (R320) -/
  began : Nat
  stamps : AMap Nat
  deriving DecidableEq, Repr, Inhabited

structure Ctx where
  ent : CtxEntry
  /-- sync space bytes by 64-bit word, 0 where not listed (R123) -/
  sync : AMap Word64
  queues : AMap SyncQueue
  /-- stack slices lent out (R117): first byte's offset in the region, and length -/
  slices : List (Nat × Nat)
  lost : Bool
  regions : AMap Region
  rings : AMap Ring
  log : Option LogArea
  /-- its blocks are in the save area (R81) -/
  saved : Bool
  deriving DecidableEq, Repr, Inhabited

/-! ### Placement, phases, flash -/

/-- A request in the placement queues (R65). -/
inductive ReqKind where
  /-- an ordinary block or group becomes runnable: its blocks -/
  | start (blocks : List Nat)
  /-- a phase record, or a group's records -/
  | resume (blocks : List Nat)
  /-- a displaced block becomes runnable -/
  | back (block : Nat)
  /-- Millrace asks for a landing slot -/
  | slot (block : Nat)
  deriving DecidableEq, Repr, Inhabited

structure Request where
  kind : ReqKind
  gid : Nat
  prio : Nat
  entered : Nat
  aged : Bool
  deriving DecidableEq, Repr, Inhabited

/-- A wave that a phase record resumes: its index, its Quern operations and breakpoints so far, what a YIELD or Y = 1 of its last clause leaves (R22, R98), and its resume point with the clause it stands in. -/
structure PhaseWave where
  idx : Nat
  qops : Nat
  bkpts : Nat
  behind : Bool
  yieldLen : Option Nat
  pc : Word64
  clause : Option Clause
  deriving DecidableEq, Repr, Inhabited

/-- A phase record queued in Quern (R58, R61): the condition (none: a group member saved with an escalating peer), the value delivered once it holds, and the waves it resumes, ascending. -/
structure PhaseRec where
  inv : Bool
  waves : List PhaseWave
  cond : Option PhaseReq
  gen : Nat
  rval : Option Word64
  /-- the wave whose POLL escalated (R71) -/
  poller : Option Nat
  deriving DecidableEq, Repr, Inhabited

/-- One operation of a LUN, in order (R304). -/
inductive LunOp where
  | read (block : Nat)
  | program (baseDie page : Nat)
  | erase (page : Nat)
  deriving DecidableEq, Repr, Inhabited

structure Lun where
  attached : Bool
  retry : Nat
  /-- the read in progress: rung (8: soft), codewords accepted, timed out once -/
  rung : Nat
  accepted : BitVec 4
  timedOut : Bool
  /-- tick at which the operation in progress, or its rung, began -/
  since : Nat
  ops : List LunOp
  deriving DecidableEq, Repr, Inhabited

/-- What a write-back does once the programs have reported, or the queue of retired pages has room (R307). -/
inductive WbNext where
  | programs
  | finish
  | again
  | fail
  | lift
  deriving DecidableEq, Repr, Inhabited

/-- A write-back in progress (R307): the page and the unit of it, the unit's bytes as the program began, the four new flash pages, programs still to report, whether one failed, and whether the unit has failed once. -/
structure Writeback where
  page : Nat
  unit : Nat
  image : List Host.Cell
  fresh : List Nat
  left : Nat
  bad : Bool
  retried : Bool
  next : WbNext
  deriving DecidableEq, Repr, Inhabited

structure Tailrace where
  queue : List Nat
  now : Option Writeback
  deriving DecidableEq, Repr, Inhabited

/-- Write-back state of a flash-backed page (R126); clean pages are not listed. -/
inductive WbState where
  | queued
  | writing
  | redirtied
  | failed
  deriving DecidableEq, Repr, Inhabited

/-- A flash-backed translation page Tailrace knows: its leaf's address, context and state (R126). -/
structure WbPage where
  leaf : Nat
  size : Nat
  state : WbState
  deriving DecidableEq, Repr, Inhabited

/-! ### Partitions, functions, package -/

structure Part where
  v : Bool
  vf : Nat
  /-- the clusters it holds, and those it has taken up at a boundary while another partition still holds them (R274) -/
  mask : Nat
  joining : Nat
  /-- a written cluster mask to be taken up at the next quantum boundary (R274) -/
  pend : Option Nat
  quanta : AMap Word64
  /-- the current entry, and the ASID it named when it became current -/
  cur : Option (Nat × Nat)
  ends : Nat
  /-- contexts of the partition are to be saved, but for the one that goes on without a save (R80) -/
  saving : Bool
  keep : Option Nat
  deriving DecidableEq, Repr, Inhabited

structure Vf where
  lrb : Nat
  lrs : Nat
  tail : Nat
  crb : Nat
  crh : Nat
  win : Nat
  /-- launch entries fetched, completions written, completions held back: (tag, kind, code) -/
  fetched : Nat
  written : Nat
  held : List (Nat × Nat × Nat)
  deriving DecidableEq, Repr, Inhabited

structure Pf where
  ctxb : Nat
  cmda : Nat
  cmdl : Nat
  go : Bool
  /-- CMDA and CMDL as the running command took them -/
  runA : Nat
  runL : Nat
  stat : Nat
  op : Nat
  asid : Nat
  inw : AMap Word64
  cnt3100lo : Word32
  cnt3100hi : Word32
  cnt3108 : Word64
  cnt3110 : Word32
  tbb : Nat
  onwd : Bool
  fwd : Bool
  fire : Bool
  kick : Word32
  fwwin : Nat
  latency : Nat
  cnt3330 : Word32
  deriving DecidableEq, Repr, Inhabited

structure Core where
  /-- the context the core is given to, and whether a scrub is due before another has it (R84) -/
  ctx : Option Nat
  dirty : Bool
  deriving DecidableEq, Repr, Inhabited

structure Link where
  trained : Bool
  package : Nat
  deriving DecidableEq, Repr, Inhabited

structure Firmware where
  halted : Bool
  image : Nat
  accepted : Option Nat
  /-- tick at which KICK last changed -/
  kickAt : Nat
  /-- the module's power in watts and the arithmetic clock in MHz, as firmware has set them -/
  power : Nat
  clock : Nat
  /-- ticks of the messages that each channel has taken in the last second (R326) -/
  msgs : AMap (List Nat)
  deriving DecidableEq, Repr, Inhabited

/-- The far side of an access that leaves the package (R289): an address of the storage port's drives, or a package and an offset. -/
inductive FarSide where
  | drive (addr : Nat)
  | peer (package offset : Nat)
  deriving DecidableEq, Repr, Inhabited

/-- What the device presents outside itself (R122, R292, R316, R323, R324). -/
inductive Out where
  | msix (vf vector : Nat)
  | farWrite (side : FarSide) (data : List Byte)
  | farRead (side : FarSide) (len : Nat)
  | brakeFlit (port : Nat)
  | revolution (package r : Nat) (data : List Byte)
  | notify (what value : Nat)
  | scan (unit index offset : Nat) (data : List Byte)
  | answer (data : List Byte)
  /-- a peer's read of data that cannot be supplied is answered so (R295, R306) -/
  | uncorrectable
  | unsupported
  | abort
  deriving DecidableEq, Repr, Inhabited

structure Sched where
  moves : List Move
  moveNo : Nat
  freeNo : Nat
  cur : Option Nat
  deriving DecidableEq, Repr, Inhabited

structure Time where
  cycle : Nat
  ticks : Word64
  deriving DecidableEq, Repr, Inhabited

/-- The whole package. -/
structure State where
  sched : Sched
  time : Time
  /-- device-physical memory, 0 where not listed (log 1); 4-bit tags by granule (R281) -/
  mem : List Host.Cell
  /-- 32-byte granules of device-physical memory whose data is uncorrectable, rising (R283, R295; log 53) -/
  spoilt : List Nat
  tags : AMap (BitVec 4)
  /-- near-cache lines held: line number, modified (R122, R172) -/
  near : AMap Bool
  /-- cached leaf and next-table entries, by ASID, level and index (R282) -/
  tlb : AMap Word64
  /-- the context table's words, by device-physical word address: only the physical function reaches it (R272, R290) -/
  ctxTab : AMap Word64
  cores : AMap Core
  parts : AMap Part
  pf : Pf
  vfs : AMap Vf
  frozen : Bool
  fw : Firmware
  idle : Nat
  links : AMap Link
  cxl : AMap Nat
  grants : AMap Nat
  luns : AMap Lun
  deadTargets : List Nat
  nand : List Host.Cell
  /-- flash pages programmed since their erase, rising (R300) -/
  programmed : List Nat
  /-- 64 KiB units of device-MMIO whose drive does not answer, rising (R312; log 53) -/
  silent : List Nat
  tail : AMap Tailrace
  wb : AMap WbPage
  placeQ : AMap Request
  nextReq : Nat
  phaseQ : AMap PhaseRec
  ctxs : AMap Ctx
  /-- log areas bound to ASIDs that no LOAD has adopted (R291) -/
  logs : AMap LogArea
  grids : AMap Grid
  nextGrid : Nat
  blocks : AMap Block
  waves : AMap Wave
  out : List Out
  deriving DecidableEq, Repr

/-- The package right after reset: registers at the values the manual states (R79, R108, R274, R290, R316), no context adopted, nothing resident; the values it does not state are those of log 5. -/
def State.reset : State :=
  { sched := { moves := [], moveNo := 0, freeNo := 0, cur := none }
    time := { cycle := 0, ticks := 0 }
    mem := [], spoilt := [], tags := [], near := [], tlb := [], ctxTab := [], cores := [], parts := []
    pf := { ctxb := 0, cmda := 0, cmdl := 0, go := false, runA := 0, runL := 0, stat := 0, op := 0, asid := 0, inw := []
            cnt3100lo := 0, cnt3100hi := 0, cnt3108 := 0, cnt3110 := 0, tbb := 0, onwd := false, fwd := false
            fire := false, kick := 0, fwwin := 0, latency := 0, cnt3330 := 0 }
    vfs := [], frozen := false
    fw := { halted := false, image := 0, accepted := none, kickAt := 0, power := 3800, clock := 2700, msgs := [] }
    idle := 0, links := [], cxl := [], grants := [], luns := [], deadTargets := [], nand := [], programmed := [], silent := []
    tail := [], wb := [], placeQ := [], nextReq := 0, phaseQ := [], ctxs := [], logs := [], grids := [], nextGrid := 0
    blocks := [], waves := [], out := [] }

end Sys2Proof.Machine
end

