-- ==== Sys2Proof/Machine/Maps.lean ====
section
/-! DEFINITION. Maps as lists of pairs with strictly rising keys, and sets as strictly rising lists: reading, writing and removing, each keeping the form. A sparse map lists no entry equal to its default. -/
namespace Sys2Proof.Machine

/-- The value at a key. -/
def mget {α : Type} : List (Nat × α) → Nat → Option α
  | [], _ => none
  | (j, x) :: rest, k => if j = k then some x else mget rest k

/-- The value at a key, or the default. -/
def mgetD {α : Type} (m : List (Nat × α)) (k : Nat) (d : α) : α := (mget m k).getD d

/-- Write a value at a key, in key order. -/
def mput {α : Type} : List (Nat × α) → Nat → α → List (Nat × α)
  | [], k, x => [(k, x)]
  | (j, y) :: rest, k, x =>
    if k < j then (k, x) :: (j, y) :: rest
    else if k = j then (k, x) :: rest
    else (j, y) :: mput rest k x

/-- Remove a key. -/
def mdel {α : Type} : List (Nat × α) → Nat → List (Nat × α)
  | [], _ => []
  | (j, y) :: rest, k => if j = k then mdel rest k else (j, y) :: mdel rest k

/-- Write into a sparse map: the default value removes the entry. -/
def mset {α : Type} [DecidableEq α] (d : α) (m : List (Nat × α)) (k : Nat) (x : α) : List (Nat × α) :=
  if x = d then mdel m k else mput m k x

/-- Change the value at a key, the default where it has none. -/
def mmod {α : Type} (m : List (Nat × α)) (k : Nat) (d : α) (f : α → α) : List (Nat × α) :=
  mput m k (f (mgetD m k d))

/-- The keys strictly rise. -/
def mapWf {α : Type} : List (Nat × α) → Bool
  | [] => true
  | [_] => true
  | (j, _) :: (k, y) :: rest => decide (j < k) && mapWf ((k, y) :: rest)

/-- A sparse map is canonical: rising keys, and no entry equal to the default. -/
def sparseWf {α : Type} [DecidableEq α] (d : α) (m : List (Nat × α)) : Bool :=
  mapWf m && m.all (fun e => decide (e.2 ≠ d))

/-- Insert into a strictly rising list. -/
def sadd : List Nat → Nat → List Nat
  | [], k => [k]
  | j :: rest, k => if k < j then k :: j :: rest else if k = j then j :: rest else j :: sadd rest k

/-- Remove from a strictly rising list. -/
def sdel : List Nat → Nat → List Nat
  | [], _ => []
  | j :: rest, k => if j = k then sdel rest k else j :: sdel rest k

/-- The least number that satisfies p among 0 to n − 1. -/
def leastBelow (p : Nat → Bool) (n : Nat) : Option Nat := (List.range n).find? p

/-- Replace the element at an index. -/
def setAt {α : Type} : List α → Nat → α → List α
  | [], _, _ => []
  | _ :: xs, 0, y => y :: xs
  | x :: xs, n + 1, y => x :: setAt xs n y

/-- Remove the element at an index. -/
def delAt {α : Type} : List α → Nat → List α
  | [], _ => []
  | _ :: xs, 0 => xs
  | x :: xs, n + 1 => x :: delAt xs n

end Sys2Proof.Machine
end

