-- ==== Sys2Proof/Machine/Bits.lean ====
section
/-! DEFINITION. Bit fields, sign extension and byte order on exact numbers (R3, R38). -/
namespace Sys2Proof.Machine

/-- Bits [lo+len−1 : lo] of a number. -/
def field (x lo len : Nat) : Nat := x / 2 ^ lo % 2 ^ len

/-- Bit j of a number. -/
def bitAt (x j : Nat) : Bool := x.testBit j

/-- A w-bit pattern read as two's complement. -/
def toSigned (w x : Nat) : Int := if x % 2 ^ w < 2 ^ (w - 1) then (x % 2 ^ w : Nat) else (x % 2 ^ w : Nat) - (2 ^ w : Nat)

/-- An integer narrowed to w bits. -/
def ofSigned (w : Nat) (x : Int) : Nat := (x % ((2 ^ w : Nat) : Int)).toNat

/-- A w-bit pattern sign-extended to v bits. -/
def signExt (w v x : Nat) : Nat := ofSigned v (toSigned w x)

/-- The number that little-endian bytes spell (R3). -/
def bytesToNat : List Byte → Nat
  | [] => 0
  | b :: rest => b.toNat + 256 * bytesToNat rest

/-- The n low bytes of a number, lowest first (R3). -/
def natToBytes : Nat → Nat → List Byte
  | 0, _ => []
  | n + 1, x => BitVec.ofNat 8 x :: natToBytes n (x / 256)

/-- Clamp to a range. -/
def clampInt (lo hi x : Int) : Int := if x < lo then lo else if hi < x then hi else x

/-- Bits [59:0] and [63:60] of a generic pointer (R115). -/
def ptrAddr (p : Nat) : Nat := p % 2 ^ 60
def ptrTag (p : Nat) : Nat := p / 2 ^ 60 % 16

/-- All lanes. -/
def lanes32 : List Nat := List.range 32

/-- The selected lanes of a mask, ascending. -/
def lanesOf (m : Word32) : List Nat := lanes32.filter (fun i => m.getLsbD i)

/-- A mask from a predicate on lanes. -/
def maskOf (p : Nat → Bool) : Word32 :=
  BitVec.ofNat 32 ((lanes32.filter p).foldl (fun x i => x + 2 ^ i) 0)

/-- Round up to a multiple. -/
def roundUp (x m : Nat) : Nat := (x + m - 1) / m * m

end Sys2Proof.Machine
end

