-- ==== Sys2Proof/Machine/Float.lean ====
section
/-! DEFINITION. The floating-point formats, exact values, and rounding (R174, R175, R177, R178, R182 to R184, R188). A value is computed exactly and narrowed once. -/
namespace Sys2Proof.Machine

/-- A format: exponent and fraction bits, bias, and whether it is E4M3, which has no infinity and one NaN per sign (R174). -/
structure FFmt where
  eb : Nat
  fb : Nat
  bias : Int
  noInf : Bool
  deriving DecidableEq, Repr

def fmtF32 : FFmt := { eb := 8, fb := 23, bias := 127, noInf := false }
def fmtF16 : FFmt := { eb := 5, fb := 10, bias := 15, noInf := false }
def fmtBf16 : FFmt := { eb := 8, fb := 7, bias := 127, noInf := false }
def fmtE4m3 : FFmt := { eb := 4, fb := 3, bias := 7, noInf := true }
def fmtE5m2 : FFmt := { eb := 5, fb := 2, bias := 15, noInf := false }

/-- The format of a floating type; a type that is none reads as FP32 and is refused at decode. -/
def fmtOf : Ty → FFmt
  | .f16 => fmtF16
  | .bf16 => fmtBf16
  | .e4m3 => fmtE4m3
  | .e5m2 => fmtE5m2
  | _ => fmtF32

/-- An exact value: a NaN, a signed infinity, or (−1)^neg × m × 2^e; zero keeps its sign. -/
inductive FVal where
  | nan
  | inf (neg : Bool)
  | fin (neg : Bool) (m : Nat) (e : Int)
  deriving DecidableEq, Repr

/-- Rounding modes (R32): 0 nearest even, 1 toward zero, 2 toward +∞, 3 toward −∞. -/
abbrev RMode := Nat

def signBit (f : FFmt) (neg : Bool) : Nat := if neg then 2 ^ (f.eb + f.fb) else 0
def fInf (f : FFmt) (neg : Bool) : Nat := signBit f neg + (2 ^ f.eb - 1) * 2 ^ f.fb
/-- The canonical NaN (R174, R175). -/
def fNan (f : FFmt) : Nat :=
  if f.noInf then 2 ^ (f.eb + f.fb) - 1 else (2 ^ f.eb - 1) * 2 ^ f.fb + 2 ^ (f.fb - 1)
/-- The largest finite magnitude's encoding. -/
def fMax (f : FFmt) (neg : Bool) : Nat :=
  signBit f neg + (if f.noInf then 2 ^ (f.eb + f.fb) - 2 else (2 ^ f.eb - 1) * 2 ^ f.fb - 1)

/-- The value an encoding stands for (R174). -/
def fDecode (f : FFmt) (x : Nat) : FVal :=
  let neg := x.testBit (f.eb + f.fb)
  let e := field x f.fb f.eb
  let m := field x 0 f.fb
  if f.noInf then
    if e = 2 ^ f.eb - 1 ∧ m = 2 ^ f.fb - 1 then .nan
    else if e = 0 then .fin neg m (1 - f.bias - f.fb)
    else .fin neg (2 ^ f.fb + m) ((e : Int) - f.bias - f.fb)
  else if e = 2 ^ f.eb - 1 then (if m = 0 then .inf neg else .nan)
  else if e = 0 then .fin neg m (1 - f.bias - f.fb)
  else .fin neg (2 ^ f.fb + m) ((e : Int) - f.bias - f.fb)

/-- Whether a magnitude n + remainder rounds up: rem against half, a sticky bit for what lies below (R177). -/
def roundsUp (mode : RMode) (neg : Bool) (n rem half : Nat) (sticky : Bool) : Bool :=
  let exact := rem == 0 && !sticky
  match mode with
  | 0 => decide (rem > half) || (rem == half && half != 0 && (sticky || n % 2 == 1))
  | 1 => false
  | 2 => !exact && !neg
  | _ => !exact && neg

/-- m × 2^e in units of 2^q, rounded; sticky: the value lies strictly between m and m + 1 units of 2^e. -/
def roundUnits (mode : RMode) (neg : Bool) (m : Nat) (e q : Int) (sticky : Bool) : Nat :=
  if q ≤ e then m * 2 ^ (e - q).toNat
  else
    let sh := (q - e).toNat
    let n := m / 2 ^ sh
    let rem := m % 2 ^ sh
    if roundsUp mode neg n rem (2 ^ (sh - 1)) sticky then n + 1 else n

/-- What an overflow gives (R178). -/
def overflowTo (f : FFmt) (mode : RMode) (sat neg : Bool) : Nat :=
  if sat then fMax f neg
  else if f.noInf then fNan f
  else match mode with
    | 0 => fInf f neg
    | 1 => fMax f neg
    | 2 => if neg then fMax f neg else fInf f neg
    | _ => if neg then fInf f neg else fMax f neg

/-- Round (−1)^neg × m × 2^e, with a sticky remainder, to a format (R177, R178). -/
def fRound (f : FFmt) (mode : RMode) (sat neg : Bool) (m : Nat) (e : Int) (sticky : Bool) : Nat :=
  if m = 0 ∧ ¬ sticky then signBit f neg
  else
    let q := max ((Nat.log2 m : Int) + e - f.fb) (1 - f.bias - f.fb)
    let n := roundUnits mode neg m e q sticky
    let n1 := if n = 2 ^ (f.fb + 1) then 2 ^ f.fb else n
    let q1 := if n = 2 ^ (f.fb + 1) then q + 1 else q
    if n1 < 2 ^ f.fb then signBit f neg + n1
    else
      let ex := (q1 + f.fb + f.bias).toNat
      if ex > 2 ^ f.eb - 1 ∨ (ex = 2 ^ f.eb - 1 ∧ ¬ f.noInf) ∨ (f.noInf ∧ ex = 2 ^ f.eb - 1 ∧ n1 = 2 ^ (f.fb + 1) - 1) then
        overflowTo f mode sat neg
      else signBit f neg + ex * 2 ^ f.fb + (n1 - 2 ^ f.fb)

/-- A value encoded in a format (R178). -/
def fEncode (f : FFmt) (mode : RMode) (sat : Bool) : FVal → Nat
  | .nan => fNan f
  | .inf neg => if sat then fMax f neg else if f.noInf then fNan f else fInf f neg
  | .fin neg m e => fRound f mode sat neg m e false

/-! ### Exact arithmetic -/

def FVal.neg : FVal → FVal
  | .nan => .nan
  | .inf n => .inf (!n)
  | .fin n m e => .fin (!n) m e

def FVal.isNan : FVal → Bool
  | .nan => true
  | _ => false

def FVal.isZero : FVal → Bool
  | .fin _ m _ => m == 0
  | _ => false

/-- The signed integer a finite value is in units of 2^q, q at most its exponent. -/
def inUnits (neg : Bool) (m : Nat) (e q : Int) : Int :=
  let x : Int := ((m * 2 ^ (e - q).toNat : Nat) : Int)
  if neg then -x else x

/-- The sign of an exact zero sum of operands of opposite sign: − only toward −∞ (R177). -/
def zeroSumNeg (mode : RMode) : Bool := mode == 3

/-- Exact sum; the mode decides only the sign of an exact zero (R177). -/
def fAdd (mode : RMode) : FVal → FVal → FVal
  | .nan, _ => .nan
  | _, .nan => .nan
  | .inf a, .inf b => if a = b then .inf a else .nan
  | .inf a, .fin _ _ _ => .inf a
  | .fin _ _ _, .inf b => .inf b
  | .fin na ma ea, .fin nb mb eb =>
    let q := min ea eb
    let x := inUnits na ma ea q + inUnits nb mb eb q
    if x = 0 then (if ma = 0 ∧ mb = 0 ∧ na = nb then .fin na 0 0 else .fin (zeroSumNeg mode) 0 0)
    else .fin (decide (x < 0)) x.natAbs q

/-- Exact product. -/
def fMul : FVal → FVal → FVal
  | .nan, _ => .nan
  | _, .nan => .nan
  | .inf a, .inf b => .inf (a != b)
  | .inf a, .fin b m _ => if m = 0 then .nan else .inf (a != b)
  | .fin a m _, .inf b => if m = 0 then .nan else .inf (a != b)
  | .fin a m e, .fin b n g => .fin (a != b) (m * n) (e + g)

/-- −1, 0 or 1 as a value is below, equal to or above another; −0 equals +0. NaN operands are tested before. -/
def fCompare : FVal → FVal → Int
  | .inf a, .inf b => if a = b then 0 else if a then -1 else 1
  | .inf a, _ => if a then -1 else 1
  | _, .inf b => if b then 1 else -1
  | .fin na ma ea, .fin nb mb eb =>
    let q := min ea eb
    let x := inUnits na ma ea q
    let y := inUnits nb mb eb q
    if x < y then -1 else if x = y then 0 else 1
  | _, _ => 0

/-- The sign of a value. -/
def FVal.signNeg : FVal → Bool
  | .nan => false
  | .inf n => n
  | .fin n _ _ => n

/-- a is below b in the order of FMIN and FMAX, where −0 lies below +0 (R213). -/
def fBelow (a b : FVal) : Bool :=
  let c := fCompare a b
  c == -1 || (c == 0 && a.isZero && b.isZero && a.signNeg && !b.signNeg)

/-- FMIN, R213. -/
def fMinV (a b : FVal) : FVal := if a.isNan then b else if b.isNan then a else if fBelow b a then b else a
/-- FMAX, R213. -/
def fMaxV (a b : FVal) : FVal := if a.isNan then b else if b.isNan then a else if fBelow a b then b else a

/-- The integer a finite value rounds to in a mode (R178, R213). -/
def fToInt (mode : RMode) (neg : Bool) (m : Nat) (e : Int) : Int :=
  let n := roundUnits mode neg m e 0 false
  if neg then -(n : Int) else n

/-- Largest r with r × r ≤ x, by bits from the top. -/
def isqrtStep : Nat → Nat → Nat → Nat
  | 0, _, r => r
  | n + 1, x, r =>
    let c := r + 2 ^ n
    isqrtStep n x (if c * c ≤ x then c else r)

def isqrt (x : Nat) : Nat := isqrtStep (Nat.log2 x / 2 + 1) x 0

/-- √ of a finite nonnegative value rounded once: 2 × 64 extra bits decide the rounding exactly, with a sticky remainder (R212). -/
def fSqrtBits (f : FFmt) (mode : RMode) (m : Nat) (e : Int) : Nat :=
  let k : Int := if (e - 128) % 2 = 0 then 128 else 129
  let x := m * 2 ^ k.toNat
  let r := isqrt x
  fRound f mode false false r ((e - k) / 2) (r * r != x)

/-- Exponents beyond this lie outside every format on either side, so clamping keeps the rounded result (R212). -/
def clampExp (e : Int) : Int := clampInt (-4000) 4000 e

/-! ### Block scales -/

/-- An S10 scale word's value (R182, R183); fourBit: the block is of the 4-bit family, b32: its length is 32. none: a NaN scale. -/
def s10Value (fourBit b32 : Bool) (w : Nat) : Option (Nat × Int) :=
  let se := field w 2 8
  let sf := field w 0 2
  if se = 255 ∨ field w 12 4 ≠ 0 ∨ (¬ fourBit ∧ field w 10 2 ≠ 0) ∨ (b32 ∧ sf ≠ 0) then none
  else some (4 + sf, (se : Int) - 129)

/-- An E5M3 scale's value; none: NaN (R184). -/
def e5m3Value (c : Nat) : Option (Nat × Int) :=
  if c % 256 = 255 then none
  else if field c 3 5 = 0 then some (field c 0 3, -17)
  else some (8 + field c 0 3, (field c 3 5 : Int) - 18)

/-- Magnitudes of the 4-bit codes' fields, as m × 2^e (R179). -/
def e2m1Mag (m : Nat) : Nat × Int := (match m with | 0 => 0 | 1 => 1 | 2 => 2 | 3 => 3 | 4 => 4 | 5 => 6 | 6 => 8 | _ => 12, -1)
def p2Mag (m : Nat) : Nat × Int := (match m with | 0 => 0 | n => 2 ^ (n - 1), -3)
def hyb4Mag (m : Nat) : Nat × Int := (match m with | 0 => 0 | 1 => 1 | 2 => 2 | 3 => 3 | 4 => 8 | 5 => 16 | 6 => 32 | _ => 64, 0)

/-- The value of a 4-bit code of element type et: 0 E2M1, 1 INT4, 2 P2, 3 HYB4 (R179, R182); the two codes of zero are one value. -/
def fourBitValue (et c : Nat) : FVal :=
  if et = 1 then
    let x := toSigned 4 c
    .fin (decide (x < 0)) x.natAbs 0
  else
    let p := (match et with | 0 => e2m1Mag (c % 8) | 2 => p2Mag (c % 8) | _ => hyb4Mag (c % 8))
    .fin (c.testBit 3 && p.1 != 0) p.1 p.2

/-- A value times a scale. -/
def scaleBy (v : FVal) (s : Nat × Int) : FVal := fMul v (.fin false s.1 s.2)

end Sys2Proof.Machine
end

