-- ==== Sys2Proof/Machine/Operands.lean ====
section
/-! DEFINITION. The registers of a wave, every operand form, full and empty registers, and the resume point's advance (R25, R29, R30, R37 to R41). All of it reads and writes one Wave. -/
namespace Sys2Proof.Machine

/-! ### Register files (R37) -/

/-- s register n. -/
def sReg (w : Wave) (n : Nat) : Word64 := mgetD w.s n 0
/-- k register n; k0 always reads all ones (R37). -/
def kReg (w : Wave) (n : Nat) : Word32 := if n = 0 then 0xFFFFFFFF else mgetD w.k n 0
/-- Lane i of v register n. -/
def vReg (w : Wave) (n i : Nat) : Word32 := mgetD w.v (n * 32 + i) 0

def setS (w : Wave) (n : Nat) (x : Word64) : Wave := { w with s := mset 0 w.s n x }
/-- Write a k register; k0 is never written (R36). -/
def setK (w : Wave) (n : Nat) (x : Word32) : Wave := if n = 0 then w else { w with k := mset 0 w.k n x }
def setV (w : Wave) (n i : Nat) (x : Word32) : Wave := { w with v := mset 0 w.v (n * 32 + i) x }

/-- A v pair as 64 bits: bits [31:0] in the even register (R38). -/
def vPair (w : Wave) (n i : Nat) : Word64 := vReg w (n + 1) i ++ vReg w n i
def setVPair (w : Wave) (n i : Nat) (x : Word64) : Wave :=
  setV (setV w n i (x.extractLsb' 0 32)) (n + 1) i (x.extractLsb' 32 32)

/-! ### Operand values (R29, R30) -/

/-- The integer an inline code stands for. -/
def inlineInt (n : BitVec 7) : Int := if n.toNat < 64 then n.toNat else (n.toNat : Int) - 96

/-- The FP32 constants (R29). -/
def fcBits (n : BitVec 4) : Nat :=
  match n.toNat with
  | 0 => 0x00000000
  | 1 => 0x3F800000
  | 2 => 0x40000000
  | 3 => 0x40800000
  | 4 => 0x3F000000
  | 5 => 0x3E800000
  | 6 => 0xBF800000
  | 7 => 0xC0000000
  | 8 => 0xC0800000
  | 9 => 0xBF000000
  | 10 => 0x3FB8AA3B
  | 11 => 0x3F317218
  | 12 => 0x3E22F983
  | 13 => 0x7F800000
  | 14 => 0x7F7FFFFF
  | _ => 0x80000000

/-- The work identifier of a lane: field 0 is the lane (R46). -/
def laneWid (w : Wave) (i : Nat) : Word64 := w.wid + BitVec.ofNat 64 i

/-- An operand as 64 bits in lane i: an inline integer sign-extended, a 32-bit source zero-extended, a v pair where wide (R29, R38). -/
def rawOp (w : Wave) (lit : Option Word64) (wide : Bool) (o : Operand) (i : Nat) : Word64 :=
  match o with
  | .v n => if wide then vPair w n.toNat i else (vReg w n.toNat i).setWidth 64
  | .s n => sReg w n.toNat
  | .k n => (kReg w n.toNat).setWidth 64
  | .lit => lit.getD 0
  | .lane => BitVec.ofNat 64 i
  | .wave => BitVec.ofNat 64 w.idx
  | .widlo => (laneWid w i).extractLsb' 0 32 |>.setWidth 64
  | .widhi => (laneWid w i).extractLsb' 32 32 |>.setWidth 64
  | .nwaves => BitVec.ofNat 64 w.nwaves
  | .pgidx => BitVec.ofNat 64 w.pgidx
  | .int n => BitVec.ofInt 64 (inlineInt n)
  | .fc n => BitVec.ofNat 64 (fcBits n)
  | .none => 0

/-- An operand at a width of at most 64 bits (R38). -/
def intOp (w : Wave) (lit : Option Word64) (width : Nat) (o : Operand) (i : Nat) : Nat :=
  (rawOp w lit (width == 64) o i).toNat % 2 ^ width

/-- An inline integer as a value of a floating format (R30). -/
def intAsFloat (f : FFmt) (x : Int) : Nat := fRound f 0 false (decide (x < 0)) x.natAbs 0 false
/-- An FP32 constant in a floating format: nearest even; beyond the largest finite value +∞, or the largest finite value in E4M3 (R30). -/
def constAsFloat (f : FFmt) (n : BitVec 4) : Nat := fEncode f 0 f.noInf (fDecode fmtF32 (fcBits n))

/-- An operand read in a type: inline integers and constants take their value in a floating type (R30, R38). -/
def tyOp (w : Wave) (lit : Option Word64) (t : Ty) (o : Operand) (i : Nat) : Nat :=
  if t.isFloat then
    match o with
    | .int n => intAsFloat (fmtOf t) (inlineInt n)
    | .fc n => constAsFloat (fmtOf t) n
    | o => intOp w lit t.width o i
  else intOp w lit t.width o i

/-! ### Results (R38) -/

/-- A result of type t in a v register: narrow signed types sign-extend, others clear the high bits. -/
def toV (t : Ty) (x : Nat) : Word32 :=
  match t with
  | .i8 => BitVec.ofNat 32 (signExt 8 32 x)
  | .i16 => BitVec.ofNat 32 (signExt 16 32 x)
  | t => BitVec.ofNat 32 (x % 2 ^ t.width)

/-- A result of type t in an s register: .i8, .i16 and .i32 sign-extend, others zero-extend. -/
def toS (t : Ty) (x : Nat) : Word64 :=
  match t with
  | .i8 => BitVec.ofNat 64 (signExt 8 64 x)
  | .i16 => BitVec.ofNat 64 (signExt 16 64 x)
  | .i32 => BitVec.ofNat 64 (signExt 32 64 x)
  | t => BitVec.ofNat 64 (x % 2 ^ t.width)

/-- Write a result of type t to lane i of a v destination, or to an s register (R38, R39). A k destination is written by its own rule (R204). -/
def putTy (t : Ty) (d : Operand) (i : Nat) (x : Nat) (w : Wave) : Wave :=
  match d with
  | .v n => if t.width = 64 then setVPair w n.toNat i (BitVec.ofNat 64 x) else setV w n.toNat i (toV t x)
  | .s n => setS w n.toNat (toS t x)
  | _ => w

/-- Write one bit per selected lane of a k register; the other bits keep their values (R204). -/
def putK (n : BitVec 3) (m x : Word32) (w : Wave) : Wave :=
  setK w n.toNat ((kReg w n.toNat &&& ~~~m) ||| (x &&& m))

/-- Write lane values to a destination: each selected lane of a v register, one value for an s register (R39). -/
def putLanes (t : Ty) (d : Operand) (m : Word32) (f : Nat → Nat) (w : Wave) : Wave :=
  match d with
  | .v _ => (lanesOf m).foldl (fun w' i => putTy t d i (f i) w') w
  | _ => putTy t d 0 (f 0) w

/-! ### Full and empty (R40, R41) -/

/-- The lanes of n registers from an operand's register that are empty, among the lanes asked for; an s or k register counts in every lane. -/
def emptyIn (w : Wave) (o : Operand) (n : Nat) (m : Word32) : Word32 :=
  match o with
  | .v r => maskOf (fun i => m.getLsbD i && (List.range n).any (fun j => w.vE.contains ((r.toNat + j) * 32 + i)))
  | .s r => if (List.range n).any (fun j => w.sE.contains (r.toNat + j)) then m else 0
  | .k r => if w.kE.contains r.toNat then m else 0
  | _ => 0

/-- Mark a destination of n registers empty in the selected lanes (R40). -/
def markEmpty (o : Operand) (n : Nat) (m : Word32) (w : Wave) : Wave :=
  match o with
  | .v r => { w with vE := (List.range n).foldl (fun l j => (lanesOf m).foldl (fun l i => sadd l ((r.toNat + j) * 32 + i)) l) w.vE }
  | .s r => { w with sE := (List.range n).foldl (fun l j => sadd l (r.toNat + j)) w.sE }
  | .k r => { w with kE := sadd w.kE r.toNat }
  | _ => w

/-- Mark a destination full again. -/
def markFull (o : Operand) (n : Nat) (m : Word32) (w : Wave) : Wave :=
  match o with
  | .v r => { w with vE := (List.range n).foldl (fun l j => (lanesOf m).foldl (fun l i => sdel l ((r.toNat + j) * 32 + i)) l) w.vE }
  | .s r => { w with sE := (List.range n).foldl (fun l j => sdel l (r.toNat + j)) w.sE }
  | .k r => { w with kE := sdel w.kE r.toNat }
  | _ => w

/-- A register source: the operand, how many registers it names, its E bit, and whether every lane is read (R204). -/
structure Src where
  o : Operand
  n : Nat := 1
  e : Bool := false
  all : Bool := false

/-- What stands in a word's way: nothing, an empty register it waits for, or an empty source whose E bit is set (R41). -/
inductive Ready where
  | go
  | wait
  | trap (o : Operand) (lanes : Word32)
  deriving DecidableEq, Repr

/-- The empty lanes of a source, given the mask of the lanes the word reads. -/
def srcEmpty (w : Wave) (m : Word32) (q : Src) : Word32 := emptyIn w q.o q.n (if q.all then 0xFFFFFFFF else m)

/-- The first source whose E bit is set and that is empty (R41). -/
def firstTrap (w : Wave) (m : Word32) : List Src → Option (Operand × Word32)
  | [] => none
  | q :: rest => if q.e ∧ srcEmpty w m q ≠ 0 then some (q.o, srcEmpty w m q) else firstTrap w m rest

/-- R41: E sources are tested first, then the sources and destinations the word waits for. After TRET.wait every E bit counts as 0 (R113). -/
def readiness (w : Wave) (m : Word32) (srcs : List Src) (dests : List (Operand × Nat)) : Ready :=
  match (if w.noE then none else firstTrap w m srcs) with
  | some (o, l) => .trap o l
  | none =>
    if srcs.any (fun q => srcEmpty w m q != 0) || dests.any (fun d => emptyIn w d.1 d.2 m != 0) then .wait else .go

/-! ### The resume point (R22, R25, R44) -/

/-- The raw word at the resume point, and the word after it. -/
def rawWord (c : Clause) : Option Word64 := c.words[c.idx]?
def nextWord (c : Clause) : Option Word64 := c.words[c.idx + 1]?

/-- The address of the header that follows the clause (R19, R87). -/
def nextHeader (w : Wave) : Word64 :=
  match w.clause with
  | some c => w.pc + BitVec.ofNat 64 (8 * (c.words.length + 1))
  | none => w.pc

/-- The longer of two YIELDs. -/
def longerYield (a b : Option Nat) : Option Nat :=
  match a, b with
  | some x, some y => some (max x y)
  | some x, none => some x
  | none, b => b

/-- The clause is over: the wave chooses its next clause at the address a; Y and YIELD take effect, beside what a handler's clause has left of them (R22, R98). -/
def endClause (a : Word64) (w : Wave) : Wave :=
  { w with
    pc := a
    clause := none
    behind := w.behind || (match w.clause with | some c => c.y || c.yld.isSome | none => false)
    yieldLeft := longerYield w.yieldLeft (match w.clause with | some c => c.yld | none => none)
    yieldLen := (match w.clause with | some c => (match c.yld with | some n => if w.yieldLeft.isSome then max w.yieldLen n else n | none => w.yieldLen) | none => w.yieldLen)
    again := 0
    noE := false
    arv := false
    held := false
    age := 0
    aged := false }

/-- Continue after the word at the resume point and its literal (R22, R44). -/
def stepOver (w : Wave) : Wave :=
  match w.clause with
  | none => w
  | some c =>
    match rawWord c with
    | none => endClause (nextHeader w) w
    | some raw =>
      let j := c.idx + wordLength raw
      if j < c.words.length then { w with clause := some { c with idx := j, rpt := none }, again := 0, noE := false, arv := false, held := false }
      else endClause (nextHeader w) w

/-- The word, or its repeat iteration, has issued: on to the next (R22, R44). -/
def advance (w : Wave) : Wave :=
  match w.clause with
  | none => w
  | some c =>
    match c.rpt with
    | some r =>
      if r.iter + 1 < r.count then
        { w with clause := some { c with rpt := some { r with iter := r.iter + 1 } }, again := 0, noE := false, arv := false, held := false }
      else stepOver w
    | none => stepOver w

/-- The word at the resume point as a fault record names it (R284). -/
def wordInfo (w : Wave) : WordInfo :=
  match w.clause with
  | some c =>
    { pc := w.pc, ix := c.idx, iter := (match c.rpt with | some r => r.iter | none => 0),
      opc := (match rawWord c with | some x => opOf x | none => 0) }
  | none => { pc := w.pc, ix := 0x1F, iter := 0, opc := 0 }

end Sys2Proof.Machine
end

