-- ==== Sys2Proof/Machine/Flags.lean ====
section
/-! DEFINITION. Guards and conditions: the device has no flag register (R205); what an instruction tests is its guard (R42), a compare's condition (R221), a control transfer's condition (R88) and the poll comparison (R104). -/
namespace Sys2Proof.Machine

/-- The guard mask of a word, negated if GN is set (R26, R42). -/
def guardMask (w : Wave) (g : Guard) : Word32 :=
  let k := kReg w g.g.toNat
  if g.gn then ~~~k else k

/-- The guard register is empty: the word waits (R41, R42). -/
def guardEmpty (w : Wave) (g : Guard) : Bool := w.kE.contains g.g.toNat

/-- CMP's condition (R221): 0 eq, 1 ne, 2 lt, 3 le, 4 gt, 5 ge, on integers. -/
def cmpHolds (op : Nat) (a b : Int) : Bool :=
  match op with
  | 0 => a == b
  | 1 => a != b
  | 2 => decide (a < b)
  | 3 => decide (a ≤ b)
  | 4 => decide (b < a)
  | _ => decide (b ≤ a)

/-- FCMP's condition (R221); 6 un, 7 ord. -/
def fcmpHolds (op : Nat) (a b : FVal) : Bool :=
  if a.isNan || b.isNan then op == 1 || op == 6
  else match op with
    | 6 => false
    | 7 => true
    | _ => cmpHolds op (fCompare a b) 0

/-- The comparison of POLL and of a CK 4 phase (R58, R104). -/
def pollHolds (cge : Bool) (x value : Word64) : Bool := if cge then decide (value.toNat ≤ x.toNat) else x == value

/-- The value of a condition register: 64 bits of an s register, 32 of a k register (R88). -/
def condValue (w : Wave) (o : Operand) : Nat := (rawOp w none false o 0).toNat

end Sys2Proof.Machine
end

