-- ==== Sys2Proof/Machine/Access.lean ====
section
/-! DEFINITION. Finding and changing the parts of the state: keys of blocks and waves, the issuing wave, waves, blocks, grids and contexts, and what the launch descriptor fixes for a block (R45 to R47, R50, R59). -/
namespace Sys2Proof.Machine

/-- The outcome of a step of this machine. -/
abbrev Result := Host.Outcome State Fault Refusal

/-! ### Keys -/

def blockKey (gid num : Nat) : Nat := gid * 2 ^ 28 + num
def waveKey (bk idx : Nat) : Nat := bk * 32 + idx
/-- The block of a wave key. -/
def blockOfWave (k : Nat) : Nat := k / 32

/-! ### Changing one entry -/

def modWave (k : Nat) (f : Wave → Wave) (s : State) : State :=
  match mget s.waves k with
  | some w => { s with waves := mput s.waves k (f w) }
  | none => s
def modBlock (k : Nat) (f : Block → Block) (s : State) : State :=
  match mget s.blocks k with
  | some b => { s with blocks := mput s.blocks k (f b) }
  | none => s
def modGrid (k : Nat) (f : Grid → Grid) (s : State) : State :=
  match mget s.grids k with
  | some g => { s with grids := mput s.grids k (f g) }
  | none => s
def modCtx (k : Nat) (f : Ctx → Ctx) (s : State) : State :=
  match mget s.ctxs k with
  | some c => { s with ctxs := mput s.ctxs k (f c) }
  | none => s

/-- Put a wave back. -/
def putWave (k : Nat) (w : Wave) (s : State) : State := { s with waves := mput s.waves k w }
def putBlock (k : Nat) (b : Block) (s : State) : State := { s with blocks := mput s.blocks k b }

/-- The issuing wave and its key. -/
def current (s : State) : Option (Nat × Wave) :=
  match s.sched.cur with
  | none => none
  | some k =>
    match mget s.waves k with
    | none => none
    | some w => some (k, w)

/-- A wave with its block, grid and context: what a word that reaches beyond its registers acts in. -/
structure View where
  key : Nat
  w : Wave
  b : Block
  g : Grid
  c : Ctx

/-- The block, grid and context of a wave. -/
def viewOf (s : State) (k : Nat) : Option View :=
  match mget s.waves k with
  | none => none
  | some w =>
    match mget s.blocks w.blk with
    | none => none
    | some b =>
      match mget s.grids b.gid with
      | none => none
      | some g =>
        match mget s.ctxs g.asid with
        | none => none
        | some c => some { key := k, w := w, b := b, g := g, c := c }

/-- Draw a free value (log 6). -/
def freeWord (s : State) : BitVec 64 := Config.freeValue s.sched.freeNo
def drawn (s : State) : State := { s with sched := { s.sched with freeNo := s.sched.freeNo + 1 } }

/-- Present something outside the device. -/
def emit (o : Out) (s : State) : State := { s with out := s.out ++ [o] }

/-! ### Geometry (R5, R6, R7) -/

def clusterOf (core : Nat) : Nat := core / 8
def dieOf (core : Nat) : Nat := core / 192
/-- The home base die of a device-physical or sync address (R7, R123). -/
def homeOf (a : Nat) : Nat := field a 12 2

/-! ### What a descriptor fixes (R45 to R50) -/

/-- Blocks of a grid (R47). -/
def gridBlocks (d : Desc) : Nat := d.gs * d.ext3 * d.ext4 * d.ext5
/-- Group of a block, and the index f2 of the block in it (R47). -/
def groupOf (d : Desc) (num : Nat) : Nat := num / d.gs
def f2Of (d : Desc) (num : Nat) : Nat := num % d.gs
/-- Block numbers of a group. -/
def groupBlocks (d : Desc) (grp : Nat) : List Nat := (List.range d.gs).map (fun i => grp * d.gs + i)

/-- The work identifier of lane 0 of wave i of block num (R46). -/
def workId (d : Desc) (num i : Nat) : Word64 :=
  let g := groupOf d num
  let g3 := g % d.ext3
  let g4 := g / d.ext3 % d.ext4
  let g5 := g / d.ext3 / d.ext4
  BitVec.ofNat 64 (i * 2 ^ 5 + f2Of d num * 2 ^ (5 + d.w1) + g3 * 2 ^ (5 + d.w1 + d.w2) +
    g4 * 2 ^ (5 + d.w1 + d.w2 + d.w3) + g5 * 2 ^ (5 + d.w1 + d.w2 + d.w3 + d.w4))

/-- The page index of a block: its number in a page grid, else 0 (R29, R47, R55). -/
def pageIndex (d : Desc) (num : Nat) : Nat := if d.kind = 1 then num else 0

/-- A wave that has not issued: every register zero and full (R37, R50). -/
def freshWave (d : Desc) (bk num i : Nat) (pc : Word64) : Wave :=
  { blk := bk, idx := i, allot := d.va, nwaves := d.nw, pgidx := pageIndex d num, wid := workId d num i
    pc := pc, clause := none, s := [], k := [], v := [], sE := [], kE := [], vE := []
    oc := { cpy := 0, mtx := 0, gat := 0, st := 0 }, stOut := [], stNext := 0, engNo := 0, held := false
    backoff := 0, poll := none, again := 0, arv := false, behind := false, yieldLeft := none, yieldLen := 0
    age := 0, aged := false, pendB := [], pendC := [], phase := none, parked := none
    phaseVal := 0, trapVec := 0, trapSt := false, tierMiss := 0
    trec := { w0 := 0, w1 := 0, w2 := 0, w3 := 0, w4 := 0, w5 := 0 }
    resume := none, noE := false, bkpts := 0, mq := [], returns := [], cpyQ := [], mtxQ := [], gatQ := []
    stop := false, ended := false, qops := 0 }

/-- A wave as it first issues: s0 holds ARGS, s1 the block number, the PC ENTRY (R50). -/
def firstWave (d : Desc) (bk num i : Nat) : Wave :=
  setS (setS (freshWave d bk num i d.entry) 0 d.args) 1 (BitVec.ofNat 64 num)

/-- A block not yet placed. -/
def freshBlock (gid num : Nat) : Block :=
  { gid := gid, num := num, life := .waiting, core := none, a := [], aE := [], res := [], tiles := [], bound := [], loops := []
    tol := [], choice := [], bars := [], cArr := [], slice := none, fa := 0, sd := false, rl := 0, landedAt := 0, dsp := none
    endAs := none, escal := none }

/-- The block record of a block number, fresh where none is held. -/
def blockOr (s : State) (gid num : Nat) : Block := (mget s.blocks (blockKey gid num)).getD (freshBlock gid num)

/-- The block holds resources of a core (R12, R65, R66). -/
def Life.resident : Life → Bool
  | .reserved => true
  | .landed => true
  | .running => true
  | _ => false

/-! ### Waves of a block -/

/-- The waves of a block, with their keys. -/
def wavesOf (s : State) (bk : Nat) : List (Nat × Wave) := s.waves.filter (fun e => blockOfWave e.1 == bk)
/-- The present waves: those that have not retired (R74, R89). -/
def presentOf (s : State) (bk : Nat) : List (Nat × Wave) := (wavesOf s bk).filter (fun e => !e.2.ended)
/-- Change every wave of a block. -/
def mapWaves (bk : Nat) (f : Wave → Wave) (s : State) : State :=
  { s with waves := s.waves.map (fun e => if blockOfWave e.1 = bk then (e.1, f e.2) else e) }

/-- A block has its status word. -/
def hasStatus (g : Grid) (num : Nat) : Bool := mgetD g.status num 0 != 0

end Sys2Proof.Machine
end

