-- ==== Sys2Proof/Machine/Phys.lean ====
section
/-! DEFINITION. Device-physical memory (R3, R289): the bytes of tier 1, tier 2 and host memory as every agent sees them, the near-cache lines held with their modified bits (R122, R172), and the granules' tags (R281). -/
namespace Sys2Proof.Machine

/-- What a byte that nothing has written reads as (log 1). -/
def blankByte : Byte := 0

/-- One byte of device-physical memory. -/
def physByte (s : State) (a : Nat) : Byte := mgetD s.mem a blankByte

/-- n bytes from an address, lowest first. -/
def physBytes (s : State) (a : Nat) : Nat → List Byte
  | 0 => []
  | n + 1 => physByte s a :: physBytes s (a + 1) n

/-- n bytes as one little-endian number (R3). -/
def physNat (s : State) (a n : Nat) : Nat := bytesToNat (physBytes s a n)
def physWord (s : State) (a : Nat) : Word64 := BitVec.ofNat 64 (physNat s a 8)

/-- Write bytes into a sparse byte map from an address. -/
def cellsPut (m : List Host.Cell) (a : Nat) : List Byte → List Host.Cell
  | [] => m
  | b :: rest => cellsPut (mset blankByte m a b) (a + 1) rest

/-- n bytes of a sparse byte map. -/
def cellsGet (m : List Host.Cell) (a : Nat) : Nat → List Byte
  | 0 => []
  | n + 1 => mgetD m a blankByte :: cellsGet m (a + 1) n

/-- The memory's form: rising addresses, and no entry equal to what an unlisted address reads as. -/
def Memory.wf (m : List Host.Cell) : Bool := sparseWf blankByte m

/-- The regions of R289. -/
inductive RegionKind where
  | tier1
  | tier2
  | mmio
  | host
  | peer
  | hole
  deriving DecidableEq, Repr

def regionOf (pa : Nat) : RegionKind :=
  if pa < 0x8000000000 then .tier1
  else if 0x100000000000 ≤ pa ∧ pa < 0x200000000000 then .tier2
  else if 0x200000000000 ≤ pa ∧ pa < 0x300000000000 then .mmio
  else if 0x40000000000000 ≤ pa ∧ pa < 0x80000000000000 then .host
  else if 0x80000000000000 ≤ pa ∧ pa < 0x100000000000000 then .peer
  else .hole

/-- The near-cache lines of a range take the modified bit; tier 2 and host stores write through (R138). -/
def touchLines (pa n : Nat) (s : State) : State :=
  match regionOf pa with
  | .tier1 =>
    { s with near := (List.range ((pa + n + 127) / 128 - pa / 128)).foldl (fun m j => mput m (pa / 128 + j) true) s.near }
  | _ => s

/-- What is left spoilt after a write of n bytes: the granules that it does not cover (DESIGN CHOICE, log 53). -/
def heal (spoilt : List Nat) (a n : Nat) : List Nat := spoilt.filter (fun g => !(decide (a ≤ g * 32) && decide (g * 32 + 32 ≤ a + n)))

/-- A granule of tier 1, tier 2 or host memory takes an error that cannot be corrected (R283, R295). -/
def spoil (g : Nat) (s : State) : State :=
  match regionOf (g * 32) with
  | .tier1 => { s with spoilt := sadd s.spoilt g }
  | .tier2 => { s with spoilt := sadd s.spoilt g }
  | .host => { s with spoilt := sadd s.spoilt g }
  | _ => s

/-- Write bytes to device-physical memory through the home near cache (R122). -/
def physPut (a : Nat) (bs : List Byte) (s : State) : State :=
  touchLines a bs.length { s with mem := cellsPut s.mem a bs, spoilt := heal s.spoilt a bs.length }

def physPutWord (a : Nat) (x : Word64) (s : State) : State := physPut a (natToBytes 8 x.toNat) s

/-- The tag of the granule at a tier 1 address (R281). -/
def tagOf (s : State) (pa : Nat) : Nat := (mgetD s.tags (pa / 32) 0).toNat
def setTag (pa t : Nat) (s : State) : State := { s with tags := mset 0 s.tags (pa / 32) (BitVec.ofNat 4 t) }

/-- Write a modified line back; with inv, drop the line (R172). -/
def cleanLine (line : Nat) (inv : Bool) (s : State) : State :=
  match mget s.near line with
  | none => s
  | some _ => { s with near := if inv then mdel s.near line else mput s.near line false }

/-- Hold a line in the near cache (R171). -/
def holdLine (line : Nat) (s : State) : State :=
  match mget s.near line with
  | none => { s with near := mput s.near line false }
  | some _ => s

end Sys2Proof.Machine
end

