-- ==== Sys2Proof/Machine/Notify.lean ====
section
/-! DEFINITION. What the device writes for the host and for system software: completion entries and MSI-X (R292), fault records (R284, R285), and the log of a recording or replaying grid (R318 to R320). -/
namespace Sys2Proof.Machine

def dfltVf : Vf := { lrb := 0, lrs := 0, tail := 0, crb := 0, crh := 0, win := 0, fetched := 0, written := 0, held := [] }
def vfAt (s : State) (n : Nat) : Vf := mgetD s.vfs n dfltVf
def dfltPart : Part := { v := false, vf := 0, mask := 0, joining := 0, pend := none, quanta := [], cur := none, ends := 0, saving := false, keep := none }
def partAt (s : State) (p : Nat) : Part := mgetD s.parts p dfltPart

/-- The virtual function that serves a context (R292): its partition's. -/
def servingVf (s : State) (asid : Nat) : Option Nat :=
  match mget s.ctxs asid with
  | none => none
  | some c => let p := partAt s c.ent.part; if p.v then some p.vf else none

/-- Raise an MSI-X vector of the function that serves a context. -/
def raiseVector (asid vector : Nat) (s : State) : State :=
  match servingVf s asid with
  | some n => emit (.msix n vector) s
  | none => s

/-! ### Completion rings (R292) -/

/-- The device-physical address of a host bus address (R289). -/
def hostPa (a : Nat) : Nat := 0x40000000000000 + a % 2 ^ 54

/-- Entries of a VF's rings: 2^LRS, LRS from 1 to 16 (R292). DESIGN CHOICE (log 57): 0 counts as 1, and 17 to 31 as 16. -/
def ringSize (v : Vf) : Nat := 2 ^ (min 16 (max 1 v.lrs))

/-- The ring is full when k − CRH = 2^LRS modulo 2^32. -/
def ringFull (v : Vf) : Bool := (v.written + 2 ^ 32 - v.crh) % 2 ^ 32 == ringSize v

/-- The 16 bytes of completion entry k (R292). -/
def completionBytes (v : Vf) (tag kind code : Nat) : List Byte :=
  let phase := 1 - v.written / ringSize v % 2
  natToBytes 8 (tag * 2 ^ 32 + phase * 2 ^ 16 + kind * 2 ^ 8 + code) ++ natToBytes 8 0

/-- Write one completion entry and raise vector 0. -/
def writeCompletion (n tag kind code : Nat) (s : State) : State :=
  let v := vfAt s n
  emit (.msix n 0)
    { physPut (hostPa (v.crb + 16 * (v.written % ringSize v))) (completionBytes v tag kind code) s with
      vfs := mput s.vfs n { v with written := v.written + 1 } }

/-- Give a completion to a VF's ring, or hold it back while the ring is full (R292). -/
def postCompletion (n tag kind code : Nat) (s : State) : State :=
  let v := vfAt s n
  if v.held ≠ [] ∨ ringFull v then { s with vfs := mput s.vfs n { v with held := v.held ++ [(tag, kind, code)] } }
  else writeCompletion n tag kind code s

/-- Write held completions while the ring has room. -/
def releaseHeld (n : Nat) : List (Nat × Nat × Nat) → State → State
  | [], s => s
  | (tag, kind, code) :: rest, s =>
    if ringFull (vfAt s n) then s
    else
      let s1 := writeCompletion n tag kind code s
      releaseHeld n rest { s1 with vfs := mput s1.vfs n { vfAt s1 n with held := rest } }

/-! ### Fault queue (R285) -/

/-- Write a record, or drop it when the queue is full; the words are those of R284 but for LOST. -/
def pushFault (asid : Nat) (words : List Word64) (s : State) : State :=
  match mget s.ctxs asid with
  | none => s
  | some c =>
    let base := c.ent.fqb
    let n := 2 ^ (c.ent.fql + 4)
    let hdr := physNat s base 8
    let pidx := hdr % 2 ^ 32
    let lostc := hdr / 2 ^ 32
    let cidx := physNat s (base + 8) 4
    if (pidx + 2 ^ 32 - cidx) % 2 ^ 32 = n then
      modCtx asid (fun c => { c with lost := true })
        (physPutWord base (BitVec.ofNat 64 (pidx + (lostc + 1) % 2 ^ 32 * 2 ^ 32)) s)
    else
      let lostBit : Word64 := if c.lost then 1 <<< 31 else 0
      let recWords := (match words with | w :: rest => (w ||| lostBit) :: rest | [] => [])
      let s1 := physPut (base + 64 + 64 * (pidx % n)) (recWords.flatMap (fun w => natToBytes 8 w.toNat)) s
      let s2 := physPutWord base (BitVec.ofNat 64 ((pidx + 1) % 2 ^ 32 + lostc * 2 ^ 32)) s1
      raiseVector asid 1 (modCtx asid (fun c => { c with lost := false }) s2)

/-! ### The log of a recording or replaying grid (R318 to R320) -/

/-- Records that fit in an area. -/
def logCap (l : LogArea) : Nat := l.units * 2048

/-- Word j of log record i. -/
def logWord (s : State) (l : LogArea) (i j : Nat) : Nat := physNat s (l.base + 32 * i + 8 * j) 8

/-- Write a record at the end of the area (R319). The last slot of a recording takes END with FULL, and the recording stops; the last slot of a replay takes its DIVERGE record itself (DESIGN CHOICE, log 38). -/
def logAppend (asid : Nat) (w0 w1 w2 w3 : Nat) (s : State) : State :=
  match mget s.ctxs asid with
  | none => s
  | some c =>
    match c.log with
    | none => s
    | some l =>
      if l.full ∨ l.written ≥ logCap l then s
      else
        let last := l.written + 1 = logCap l
        let ws := if last ∧ ¬ l.replay then [6 * 2 ^ 60, l.written, 1, 0] else [w0, w1, w2, w3]
        modCtx asid (fun c => { c with log := some { l with written := l.written + 1, full := last } })
          (physPut (l.base + 32 * l.written) (ws.flatMap (natToBytes 8)) s)

/-- The grid is being recorded, or replayed, in its context. -/
def recording (c : Ctx) (gid : Nat) : Bool :=
  match c.log with | some l => !l.replay && !l.full && l.grids.contains gid | none => false
def replaying (c : Ctx) (gid : Nat) : Bool :=
  match c.log with | some l => l.replay && l.grids.contains gid | none => false

/-- TYPE of log record i. -/
def logType (s : State) (l : LogArea) (i : Nat) : Nat := logWord s l i 0 / 2 ^ 60

/-- The number of records before the END record, or before the first slot without a record. -/
def logStop (s : State) (l : LogArea) : Nat :=
  ((List.range (logCap l)).find? (fun i => logType s l i == 6 || logType s l i == 0)).getD (logCap l)

/-- The first log record not yet replayed that satisfies p. -/
def nextRecord (s : State) (l : LogArea) (p : Nat → Bool) : Option Nat :=
  (List.range (logStop s l)).find? (fun i => !l.used.contains i && p i)

/-- Record i of a replay is consumed. -/
def consume (asid i : Nat) (s : State) : State :=
  modCtx asid (fun c => { c with log := c.log.map (fun l => { l with used := i :: l.used, stamps := mput l.stamps i s.time.ticks.toNat }) }) s

/-- Whether a Quern operation may be performed now under replay, and the state with it recorded, or its record consumed (R319, R320). none: it arrives early and is held. own: it is one of the wave's Quern operations, which their ordinals tell apart. DESIGN CHOICE (log 58): an operation that the device makes for a wave is not counted among them, and a record that names the wave is its own, whatever the ordinal. -/
def quernOp (asid gid num wave ordinal addr : Nat) (global : Bool) (s : State) (own : Bool := true) : Option State :=
  match mget s.ctxs asid with
  | none => some s
  | some c =>
    let w2 := (if global then 2 ^ 63 else 0) + wave
    if recording c gid then some (logAppend asid (4 * 2 ^ 60 + num) addr w2 ordinal s)
    else if replaying c gid then
      match c.log with
      | none => some s
      | some l =>
        if l.lifted.contains (addr, global) then some s
        else
          match nextRecord s l (fun i => logType s l i == 4 && logWord s l i 1 == addr && (decide (2 ^ 63 ≤ logWord s l i 2) == global)) with
          | none => some s
          | some i =>
            if logWord s l i 0 % 2 ^ 60 = num ∧ logWord s l i 2 % 32 = wave ∧ (own = false ∨ logWord s l i 3 = ordinal) then
              some (consume asid i s)
            else none
    else some s

/-- The run differs from its log (R320): a DIVERGE record, and the constraint of the address or page is lifted. -/
def diverge (asid type word1 observed expected : Nat) (lift : Nat × Bool) (s : State) : State :=
  modCtx asid (fun c => { c with log := c.log.map (fun l => { l with lifted := lift :: l.lifted }) })
    (logAppend asid (5 * 2 ^ 60 + type) word1 observed expected s)

/-- HMIX on 64-bit words (R211). -/
def hmix (a b : Word64) : Word64 :=
  let x0 := a ^^^ b
  let x1 := x0 ^^^ (x0 >>> 31)
  let x2 := x1 * 0x9E3779B97F4A7C15
  let x3 := x2 ^^^ (x2 >>> 29)
  let x4 := x3 * 0xD6E8FEB86659FD93
  x4 ^^^ (x4 >>> 32)

/-- The hash of the log over bytes, by 8-byte words in address order (R319). -/
def logHash : Nat → List Byte → Word64 → Word64
  | 0, _, h => h
  | n + 1, bs, h => logHash n (bs.drop 8) (hmix h (BitVec.ofNat 64 (bytesToNat (bs.take 8))))

def hashBytes (bs : List Byte) : Word64 := logHash (bs.length / 8) bs 0

end Sys2Proof.Machine
end

