-- ==== Sys2Proof/Machine/Quern.lean ====
section
/-! DEFINITION. Quern and Windshaft: sync words and their effects (R51, R52, R78, R123, R153), queues (R72, R73, R99, R100), barriers (R74, R75, R77, R94), phase conditions (R58), placement requests (R65), block starts, status words and grid completion (R62, R64). Every function is one serialised operation. -/
namespace Sys2Proof.Machine

/-! ### Placement requests (R65) -/

/-- A request enters the queues: the package is no longer idle (R328). -/
def enqueue (kind : ReqKind) (gid prio : Nat) (s : State) : State :=
  { s with
    placeQ := mput s.placeQ s.nextReq { kind := kind, gid := gid, prio := prio, entered := s.time.cycle, aged := false }
    nextReq := s.nextReq + 1, idle := 0 }

/-- The block keys a request concerns. -/
def ReqKind.blocks : ReqKind → List Nat
  | .start bs => bs
  | .resume bs => bs
  | .back b => [b]
  | .slot b => [b]

/-- What is left of a request without a block; none: nothing. -/
def ReqKind.without (bk : Nat) (k : ReqKind) : Option ReqKind :=
  let rest := k.blocks.filter (fun b => b != bk)
  if rest = [] then none
  else match k with
    | .start _ => some (.start rest)
    | .resume _ => some (.resume rest)
    | k => some k

/-- A block leaves the requests that concern it; the rest of its group stays in them. -/
def dropRequests (bk : Nat) (s : State) : State :=
  { s with placeQ := s.placeQ.filterMap (fun r => (r.2.kind.without bk).map (fun k => (r.1, { r.2 with kind := k }))) }

/-! ### Starting a block (R50, R51) -/

/-- Give a placed block its waves (R50). -/
def startWaves (d : Desc) (bk num : Nat) (s : State) : State :=
  { s with waves := (List.range d.nw).foldl (fun m i => mput m (waveKey bk i) (firstWave d bk num i)) s.waves }

/-- Start a block on the core it holds. -/
def startBlock (d : Desc) (bk num : Nat) (s : State) : State :=
  modBlock bk (fun b => { b with life := .running }) (startWaves d bk num s)

/-- A block's counter went to 0, or was 0 at the grid's start (R51, R52): an ordinary block whose whole group is runnable asks for placement; a landed page-grid block starts, a displaced one asks for placement. -/
def blockRunnable (gid num : Nat) (s : State) : State :=
  match mget s.grids gid with
  | none => s
  | some g =>
    if g.runnable.contains num ∨ hasStatus g num then s
    else
      let g1 := { g with runnable := sadd g.runnable num }
      let s1 := { s with grids := mput s.grids gid g1 }
      let bk := blockKey gid num
      if g.d.kind = 1 then
        match (blockOr s gid num).life with
        | .landed => startBlock g.d bk num s1
        | .displaced => enqueue (.back bk) gid g.d.prio s1
        | _ => s1
      else
        let grp := groupBlocks g.d (groupOf g.d num)
        if grp.all (fun n => g1.runnable.contains n) then
          enqueue (.start (grp.map (blockKey gid))) gid g.d.prio s1
        else s1

/-! ### Sync space (R123, R153) -/

/-- A sync access of n bytes lies in the context's sync space (R91, R123). -/
def inSync (c : Ctx) (a n : Nat) : Bool := decide (a + n ≤ c.ent.syncsz * 65536)

/-- The 64-bit word that holds a sync address. -/
def syncWord (c : Ctx) (a : Nat) : Word64 := mgetD c.sync (a / 8 * 8) 0

/-- The address belongs to the 64 bytes of a queue that has had a queue operation (R153). -/
def isQueueWord (c : Ctx) (a : Nat) : Bool := (mget c.queues (a / 64 * 64)).isSome

/-- The word at a overlaps the status words of a grid that has not completed (R153). DESIGN CHOICE (log 54): a 64-bit word of which a status word is only one half counts as a status word, so that an STS to it is discarded whole. -/
def isStatusWord (s : State) (asid a : Nat) : Bool :=
  s.grids.any (fun e => e.2.asid == asid && !e.2.done && decide (e.2.d.stbase < a + 8) && decide (a < e.2.d.stbase + 4 * gridBlocks e.2.d))

/-- What a Quern read of a word returns: a queue's words read as zero (R153). -/
def readSync (c : Ctx) (a : Nat) : Word64 := if isQueueWord c a then 0 else syncWord c a

/-- The 32-bit word at a 4-byte aligned sync address. -/
def readSync32 (c : Ctx) (a : Nat) : Word32 := (readSync c a).extractLsb' (8 * (a % 8)) 32

/-- The variable of a POLL or CK 4 phase (R58, R104). -/
def readVar (c : Ctx) (a : Nat) (w32 : Bool) : Word64 := if w32 then (readSync32 c a).setWidth 64 else readSync c a

def dfltQueue : SyncQueue := { cap := 0, items := [], waiters := [], held := [] }
def queueAt (c : Ctx) (q : Nat) : SyncQueue := mgetD c.queues q dfltQueue
/-- A capacity field of 0 means 2^24 (R99). -/
def capOf (q : SyncQueue) : Nat := if q.cap = 0 then 2 ^ 24 else q.cap

/-! ### Phase conditions (R58) -/

def dfltBar : Bar := { gen := 0, arrived := [], elected := 0 }

/-- The value a phase condition delivers if it holds now (R58). -/
def condHolds (s : State) (asid gid : Nat) (r : PhaseRec) : Option Word64 :=
  match r.cond with
  | none => some 0
  | some p =>
    match mget s.ctxs asid with
    | none => none
    | some c =>
      let ca := p.ca.toNat
      match p.ck with
      | 0 => if readSync c ca = 0 then some 0 else none
      | 1 => let x := readSync32 c ca; if x = 0 then none else some (x.setWidth 64)
      | 2 =>
        match mget s.grids gid with
        | none => none
        | some g => if (mgetD g.gbar ca dfltBar).gen = r.gen then none else some (BitVec.ofNat 64 r.gen)
      | 3 => let n := (queueAt c ca).items.length; if n = 0 then none else some (BitVec.ofNat 64 n)
      | 4 => let x := readVar c ca p.w32; if pollHolds p.cge x p.cval then some x else none
      | _ => if p.cval.toNat ≤ s.time.ticks.toNat then some s.time.ticks else none

/-- Every record of a group holds its value, and the group waits in Quern as a whole (R56, R59). -/
def groupReady (s : State) (gid grp : Nat) (d : Desc) : Bool :=
  let bks := (groupBlocks d grp).map (blockKey gid)
  bks.any (fun bk => (mget s.phaseQ bk).isSome) &&
    bks.all (fun bk =>
      match mget s.phaseQ bk with
      | some r => r.rval.isSome
      | none => (match mget s.blocks bk with | some b => b.life == .done || b.endAs.isSome | none => false))

/-- The request resumes one of these blocks. -/
def ReqKind.resumes (bks : List Nat) : ReqKind → Bool
  | .resume l => l.any (fun k => bks.contains k)
  | _ => false

/-- The group of a block asks for placement, once, when every record of it holds its value (R58, R59, R65): also where the member that kept it waiting completes or faults. -/
def askGroup (gid num : Nat) (s : State) : State :=
  match mget s.grids gid with
  | none => s
  | some g =>
    let bks := ((groupBlocks g.d (groupOf g.d num)).map (blockKey gid)).filter (fun k => (mget s.phaseQ k).isSome)
    if groupReady s gid (groupOf g.d num) g.d && !s.placeQ.any (fun e => e.2.kind.resumes bks) then enqueue (.resume bks) gid g.d.prio s
    else s

/-- Mark one record eligible, and ask for placement when its whole group is (R58, R65). -/
def satisfy (bk : Nat) (x : Word64) (s : State) : State :=
  match mget s.phaseQ bk, mget s.blocks bk with
  | some r, some b => askGroup b.gid b.num { s with phaseQ := mput s.phaseQ bk { r with rval := some x } }
  | _, _ => s

/-- Test one record that waits. -/
def testRecord (asid : Nat) (s : State) (bk : Nat) : State :=
  match mget s.phaseQ bk, mget s.blocks bk with
  | some r, some b =>
    if r.rval.isSome then s
    else
      match mget s.grids b.gid with
      | none => s
      | some g =>
        if g.asid ≠ asid then s
        else match condHolds s asid b.gid r with
          | some x => satisfy bk x s
          | none => s
  | _, _ => s

/-- Test the records of a context that wait; a CK 5 record whose tick is still to come is tested again when it is reached. -/
def wakePhases (asid : Nat) (s : State) : State :=
  (s.phaseQ.map Prod.fst).foldl (testRecord asid) s

/-! ### Writing a sync word (R52, R78, R105, R153) -/

/-- Blocks whose dependence counter is the word at a (R52). -/
def countersAt (s : State) (asid a : Nat) : List (Nat × Nat) :=
  s.grids.filterMap (fun e =>
    let d := e.2.d
    if e.2.asid = asid ∧ ¬ e.2.done ∧ d.dcbase ≠ 0 ∧ d.dcbase ≤ a ∧ a < d.dcbase + 8 * gridBlocks d then some (e.1, (a - d.dcbase) / 8)
    else none)

/-- Write the 64-bit word at an aligned sync address with all its effects: a transition of a counter to 0 makes its block runnable, and phase conditions are tested (R52, R58, R78). -/
def syncWrite (asid a : Nat) (x : Word64) (s : State) : State :=
  match mget s.ctxs asid with
  | none => s
  | some c =>
    let old := syncWord c a
    let s1 := modCtx asid (fun c => { c with sync := mset 0 c.sync (a / 8 * 8) x }) s
    let s2 := if old ≠ 0 ∧ x = 0 then (countersAt s1 asid a).foldl (fun t p => blockRunnable p.1 p.2 t) s1 else s1
    wakePhases asid s2

/-- What a write of x leaves at a: in the SENT or ACK word of a ring, bits [63:32] are zero, and a write that does not raise the word, and an ACK above RECV, are discarded (R322). -/
def ringWord (c : Ctx) (a : Nat) (x : Word64) : Option Word64 :=
  let low := fun (b : Nat) => (syncWord c b).toNat % 2 ^ 32
  match c.rings.find? (fun r => a == r.1 || a == r.1 + 8) with
  | none => some x
  | some r =>
    let y := x.toNat % 2 ^ 32
    if y ≤ low a ∨ (a = r.1 + 8 ∧ y > low (r.1 + 0x10)) then none else some (BitVec.ofNat 64 y)

/-- A write of a sync word that is not the device's own of a control block (R105, R153, R313, R322). -/
def plainWrite (asid a : Nat) (x : Word64) (s : State) : State :=
  match mget s.ctxs asid with
  | none => s
  | some c => match ringWord c a x with | some y => syncWrite asid a y s | none => s

/-- Lower a counter by 1, and leave 0 at 0 (R52, R105). -/
def counterDec (asid a : Nat) (s : State) : State :=
  match mget s.ctxs asid with
  | none => s
  | some c => if syncWord c a = 0 then s else plainWrite asid a (syncWord c a - 1) s

/-- Write the 32-bit half of a sync word, as a status word is written (R62). DESIGN CHOICE (log 39): a DCBASE, STBASE or GDONE beyond the context's sync space, which acceptance does not check (R49), reads and writes words there as if they existed. -/
def syncWrite32 (asid a : Nat) (x : Word32) (s : State) : State :=
  match mget s.ctxs asid with
  | none => s
  | some c =>
    let old := syncWord c a
    let sh := 8 * (a % 8 / 4 * 4)
    let y := (old &&& ~~~((0xFFFFFFFF : Word64) <<< sh)) ||| ((x.setWidth 64) <<< sh)
    wakePhases asid (modCtx asid (fun c => { c with sync := mset 0 c.sync (a / 8 * 8) y }) s)

/-! ### Queues (R72, R99, R100) -/

/-- What oc.st reads: the operations from the oldest that is not acknowledged on (R142). -/
def stCount (out : List Nat) (next : Nat) : Nat := match out with | [] => 0 | n :: _ => next - n

/-- Operation n of a wave is acknowledged; the counter falls in issue order (R142, R166). -/
def ackSt (n : Nat) (w : Wave) : Wave :=
  let out := sdel w.stOut n
  { w with stOut := out, oc := { w.oc with st := stCount out w.stNext } }

/-- A push is admitted: where a wave sent it, it is acknowledged there. -/
def ackSender (sender : Sender) (s : State) : State :=
  match sender with
  | .wave k n => modWave k (ackSt n) s
  | _ => s

/-- The wave's block has faulted or been ended with its grid: a push of it that would be held is discarded (R286). -/
def pushDiscarded (s : State) (sender : Sender) : Bool :=
  match sender with
  | .wave k _ => (match mget s.blocks (blockOfWave k) with | some b => b.endAs == some .faulted || b.endAs == some .gridFault | none => false)
  | _ => false

/-- Give an item to a wave parked in QPOP: its pop is complete (R72). -/
def deliver (d : Nat) (item : Word64) (w : Wave) : Wave :=
  advance { setS w d item with sE := sdel w.sE d, parked := none }

def putQueue (asid q : Nat) (x : SyncQueue) (s : State) : State :=
  modCtx asid (fun c => { c with queues := mput c.queues q x }) s

/-- Push an item: to the oldest waiter, into the queue, or held while the queue is full (R72, R100). -/
def pushItem (asid q : Nat) (item : Word64) (sender : Sender) (s : State) : State :=
  match mget s.ctxs asid with
  | none => s
  | some c =>
    let x := queueAt c q
    match x.waiters with
    | (k, d) :: rest => ackSender sender (modWave k (deliver d item) (putQueue asid q { x with waiters := rest } s))
    | [] =>
      if x.items.length < capOf x then
        wakePhases asid (ackSender sender (putQueue asid q { x with items := x.items ++ [item] } s))
      else if pushDiscarded s sender then ackSender sender (putQueue asid q x s)
      else putQueue asid q { x with held := x.held ++ [(sender, item)] } s

/-- Admit held pushes, oldest first, while there is room (R99, R100). -/
def admitHeld (asid q : Nat) : List (Sender × Word64) → State → State
  | [], s => s
  | (sender, item) :: rest, s =>
    match mget s.ctxs asid with
    | none => s
    | some c =>
      let x := queueAt c q
      if x.items.length < capOf x then
        admitHeld asid q rest (ackSender sender (putQueue asid q { x with items := x.items ++ [item], held := rest } s))
      else s

/-- Take the oldest item; the room it makes admits the oldest held push (R72, R100). -/
def popItem (asid q : Nat) (s : State) : Option (Word64 × State) :=
  match mget s.ctxs asid with
  | none => none
  | some c =>
    let x := queueAt c q
    match x.items with
    | [] => none
    | item :: rest => some (item, wakePhases asid (admitHeld asid q x.held (putQueue asid q { x with items := rest } s)))

/-- The first queue operation at an address makes it a queue, empty with capacity 2^24 (R153). -/
def touchQueue (asid q : Nat) (s : State) : State :=
  modCtx asid (fun c => { c with queues := mput c.queues q (queueAt c q) }) s

/-- QLEN.init: discard the items, set the capacity, leave the waiters, admit held pushes (R99). -/
def initQueue (asid q : Nat) (cap : Word64) (s : State) : State :=
  match mget s.ctxs asid with
  | none => s
  | some c =>
    let x := queueAt c q
    let n := if cap.toNat = 0 ∨ cap.toNat > 2 ^ 24 then 0 else cap.toNat
    wakePhases asid (admitHeld asid q x.held (putQueue asid q { x with cap := n, items := [] } s))

/-- Park a wave at the tail of the waiter list (R72, R101). -/
def parkWave (asid q d : Nat) (key : Nat) (s : State) : State :=
  match mget s.ctxs asid with
  | none => s
  | some c =>
    let x := queueAt c q
    modWave key (fun w => { markEmpty (.s (BitVec.ofNat 6 d)) 1 0xFFFFFFFF w with parked := some q })
      (putQueue asid q { x with waiters := x.waiters ++ [(key, d)] } s)

/-- Unlink a parked wave: its pop issues again, and the destination it marked is full as before (R73, R114). -/
def unpark (asid key : Nat) (s : State) : State :=
  match mget s.waves key with
  | none => s
  | some w =>
    match w.parked, mget s.ctxs asid with
    | some q, some c =>
      let x := queueAt c q
      let d := ((x.waiters.find? (fun e => e.1 == key)).map Prod.snd).getD 0
      modWave key (fun w => { w with parked := none, sE := sdel w.sE d })
        (putQueue asid q { x with waiters := x.waiters.filter (fun e => e.1 != key) } s)
    | _, _ => s

/-- A held push of a wave: the wave, the operation's number, the queue and the item. -/
structure HeldPush where
  key : Nat
  no : Nat
  q : Nat
  item : Word64

/-- The held pushes of the waves a predicate names, oldest first in each queue of a context (R81, R286). -/
def heldOf (c : Ctx) (p : Nat → Bool) : List HeldPush :=
  c.queues.flatMap (fun e => e.2.held.filterMap (fun h => match h.1 with | .wave k n => if p k then some { key := k, no := n, q := e.1, item := h.2 } else none | _ => none))

/-- Withdraw them. -/
def withdrawHeld (asid : Nat) (p : Nat → Bool) (s : State) : State :=
  modCtx asid (fun c => { c with queues := c.queues.map (fun e => (e.1, { e.2 with held := e.2.held.filter (fun h => match h.1 with | .wave k _ => !p k | _ => true) })) }) s

/-! ### Barriers (R74, R75, R77, R94) -/

/-- Complete a block barrier when every present wave has arrived: a new generation, and the highest member present is elected (R74, R77). -/
def checkBar (bk n : Nat) (s : State) : State :=
  match mget s.blocks bk with
  | none => s
  | some b =>
    let x := mgetD b.bars n dfltBar
    let members := (presentOf s bk).map (fun e => e.2.idx)
    if members ≠ [] ∧ x.arrived ≠ [] ∧ members.all (fun i => x.arrived.contains i) then
      modBlock bk (fun b => { b with bars := mput b.bars n { gen := x.gen + 1, arrived := [], elected := members.foldl max 0 } }) s
    else s

/-- Complete a cluster barrier of a group when every present block has arrived; the highest f2 is elected (R74, R94). -/
def checkCluster (gid grp n : Nat) (s : State) : State :=
  match mget s.grids gid with
  | none => s
  | some g =>
    let nums := (groupBlocks g.d grp).filter (fun m => !hasStatus g m)
    let x := mgetD g.cbars (grp * 4 + n) dfltBar
    if nums ≠ [] ∧ x.arrived ≠ [] ∧ nums.all (fun m => x.arrived.contains (f2Of g.d m)) then
      let y : Bar := { gen := x.gen + 1, arrived := [], elected := (nums.map (f2Of g.d)).foldl max 0 }
      let s1 := { s with grids := mput s.grids gid { g with cbars := mput g.cbars (grp * 4 + n) y } }
      nums.foldl (fun t m => modBlock (blockKey gid m) (fun b => { b with cArr := mdel b.cArr n }) t) s1
    else s

/-- A block arrives at a cluster barrier when every present wave of it has (R94). -/
def checkBlockArrival (bk n : Nat) (s : State) : State :=
  match mget s.blocks bk with
  | none => s
  | some b =>
    let arr := mgetD b.cArr n []
    let members := (presentOf s bk).map (fun e => e.2.idx)
    match mget s.grids b.gid with
    | none => s
    | some g =>
      let grp := groupOf g.d b.num
      if members ≠ [] ∧ members.all (fun i => arr.contains i) then
        checkCluster b.gid grp n
          (modGrid b.gid (fun g => { g with cbars := mmod g.cbars (grp * 4 + n) dfltBar (fun x => { x with arrived := sadd x.arrived (f2Of g.d b.num) }) }) s)
      else s

/-- After a wave retires: every barrier of its block, and its block's arrivals at cluster barriers (R74). -/
def checkAllBars (bk : Nat) (s : State) : State :=
  let s1 := (List.range 16).foldl (fun t n => checkBar bk n t) s
  (List.range 4).foldl (fun t n => checkBlockArrival bk n t) s1

/-- Complete a grid barrier's generation when every block has arrived in it or holds a status (R75). -/
def checkGridBar (gid n : Nat) (s : State) : State :=
  match mget s.grids gid with
  | none => s
  | some g =>
    let x := mgetD g.gbar n dfltBar
    if x.arrived ≠ [] ∧ (List.range (gridBlocks g.d)).all (fun m => x.arrived.contains m || hasStatus g m) then
      wakePhases g.asid (modGrid gid (fun g => { g with gbar := mput g.gbar n { gen := (x.gen + 1) % 2 ^ 64, arrived := [], elected := 0 } }) s)
    else s

/-- A block arrives at a grid barrier (R56, R75). -/
def gridArrive (gid num n : Nat) (s : State) : State :=
  checkGridBar gid n (modGrid gid (fun g => { g with gbar := mmod g.gbar n dfltBar (fun x => { x with arrived := sadd x.arrived num }) }) s)

/-! ### Ends (R14, R62, R64, R89) -/

/-- The wave retires: it issues nothing more and leaves its barriers (R89). -/
def endWave (w : Wave) : Wave :=
  { w with clause := none, ended := true, poll := none, again := 0, phase := none, yieldLeft := none, pendB := [], pendC := [], age := 0, aged := false }

/-- Retire a wave, parked or not (R74, R89). -/
def retireWave (key : Nat) (s : State) : State :=
  match mget s.waves key with
  | none => s
  | some w =>
    if w.ended then s
    else
      let s1 := (match mget s.blocks w.blk with
        | some b => (match mget s.grids b.gid with | some g => unpark g.asid key s | none => s)
        | none => s)
      checkAllBars w.blk (modWave key endWave s1)

/-- The status word a block leaves (R62): ST, PFC, GT, SD, RL. -/
def statusWord (st pfc : Nat) (gt sd : Bool) (rl : Nat) : Word32 :=
  BitVec.ofNat 32 (st * 2 ^ 30 + pfc * 2 ^ 28 + (if gt then 2 ^ 27 else 0) + (if sd then 2 ^ 26 else 0) + rl * 2 ^ 23)

/-- A block's status word if it ends as it stands (R62, R63, R114). -/
def endStatus (b : Block) : Word32 :=
  match b.endAs with
  | some .faulted => statusWord 2 0 false b.sd b.rl
  | some .gridFault => statusWord 2 0 true b.sd b.rl
  | _ => statusWord 1 0 false b.sd b.rl

/-- Return a block's resources (R14, R117): core, registers, A allocation, reservations, tiles, stack slice. -/
def freeBlock (b : Block) : Block :=
  { freshBlock b.gid b.num with life := .done, endAs := b.endAs, sd := b.sd, rl := b.rl }

/-- The stack slice of a block returns to its context (R117). -/
def freeSlice (asid : Nat) (b : Block) (s : State) : State :=
  match b.slice with
  | some o => modCtx asid (fun c => { c with slices := c.slices.filter (fun e => e.1 != o) }) s
  | none => s

/-- A grid whose blocks all have status words completes (R64): GDONE falls, the launcher hears, a recording ends. -/
def checkGridDone (gid : Nat) (s : State) : State :=
  match mget s.grids gid with
  | none => s
  | some g =>
    if g.done ∨ ¬ (List.range (gridBlocks g.d)).all (fun m => hasStatus g m) then s
    else
      let s1 := { s with grids := mput s.grids gid { g with done := true } }
      let s2 := if g.d.gdone = 0 then s1 else counterDec g.asid g.d.gdone s1
      let s3 := (match g.launcher with | some (n, tag) => postCompletion n tag 1 0 s2 | none => s2)
      match mget s3.ctxs g.asid with
      | none => s3
      | some c =>
        match c.log with
        | none => s3
        | some l =>
          if ¬ l.grids.contains gid then s3
          else
            let rest := l.grids.filter (fun x => x != gid)
            let s4 := if l.replay ∨ rest ≠ [] then s3 else logAppend g.asid (6 * 2 ^ 60) l.written 0 0 s3
            modCtx g.asid (fun c => { c with log := c.log.map (fun l => { l with grids := rest }) }) s4

/-- The writing of a block's status word is an operation of Quern for the block (R123, R319): recorded under its first wave, or admitted by a replay. DESIGN CHOICE (log 58). -/
def statusOp (gid num : Nat) (s : State) : Option State :=
  match mget s.grids gid with
  | none => some s
  | some g =>
    let ordinal := (match mget s.waves (waveKey (blockKey gid num) 0) with | some w => w.qops | none => 0)
    quernOp g.asid gid num 0 ordinal (g.d.stbase + 4 * num) false s false

/-- The block has its status word. -/
def statusSet (s : State) (gid num : Nat) : Bool := match mget s.grids gid with | some g => hasStatus g num | none => false

/-- The block's status word is still to be written, and a replay has another operation come first there (R320). -/
def statusEarly (s : State) (gid num : Nat) : Bool := !statusSet s gid num && (statusOp gid num s).isNone

/-- What an event leaves that may write the block's status word: it is held as a whole while that comes early. -/
def unlessEarly (gid num : Nat) (s t : State) : State := if statusEarly s gid num && statusSet t gid num then s else t

/-- Write a block's status word once, release what it holds, and let waiters, barriers and the grid see it (R14, R62, R64). DESIGN CHOICE (log 58): where its block ends with its grid, or a target is given up, a replay holds it not. -/
def setStatus (gid num : Nat) (x : Word32) (before : State) : State :=
  let s := if statusSet before gid num then before else (statusOp gid num before).getD before
  match mget s.grids gid with
  | none => s
  | some g =>
    if hasStatus g num then s
    else
      let bk := blockKey gid num
      let b := blockOr s gid num
      let s1 := { s with
        grids := mput s.grids gid { g with status := mput g.status num x }
        blocks := mput s.blocks bk (freeBlock b)
        waves := s.waves.filter (fun e => blockOfWave e.1 != bk)
        phaseQ := mdel s.phaseQ bk }
      let s2 := syncWrite32 g.asid (g.d.stbase + 4 * num) x (askGroup gid num (freeSlice g.asid b (dropRequests bk s1)))
      let s3 := (List.range 4).foldl (fun t n => checkCluster gid (groupOf g.d num) n t) s2
      let s4 := (List.range 2).foldl (fun t n => checkGridBar gid n t) s3
      checkGridDone gid s4

end Sys2Proof.Machine
end

