-- ==== Sys2Proof/Machine/Ops.lean ====
section
/-! DEFINITION. Taking an exception and returning from one, ending blocks and grids, and what every instruction word shares: its guard, its waits, its Empty Source trap (R41, R42, R63, R109 to R114, R283 to R286). -/
namespace Sys2Proof.Machine

/-! ### Hard faults -/

/-- What a hard fault reports beside the word it concerns (R283, R284). -/
structure FaultSpec where
  cause : Nat
  det : Nat := 0
  lane : Nat := 0
  addr : Nat := 0
  deriving DecidableEq, Repr

/-- Cause 8 (R36). -/
def illegalSpec : FaultSpec := { cause := 8 }

/-- The eight words of a fault record, but for LOST (R284). -/
def faultWords (s : State) (asid : Nat) (g : Grid) (num widx : Nat) (wid : Word64) (info : WordInfo) (f : FaultSpec) : List Word64 :=
  let part := (match mget s.ctxs asid with | some c => c.ent.part | none => 0)
  let opc := if info.ix = 0x1F then 0 else info.opc
  [ BitVec.ofNat 64 (asid * 2 ^ 52 + part * 2 ^ 48 + f.det * 2 ^ 32 + (if g.d.fpol then 2 ^ 30 else 0) +
      (if f.cause = 10 then 2 ^ 29 else 0) + widx * 2 ^ 21 + f.lane * 2 ^ 16 + opc * 2 ^ 8 + f.cause),
    wid + BitVec.ofNat 64 f.lane, info.pc, BitVec.ofNat 64 (info.iter * 2 ^ 8 + info.ix), BitVec.ofNat 64 f.addr,
    BitVec.ofNat 64 num, BitVec.ofNat 64 g.d.stbase, s.time.ticks ]

/-- The instruction at a wave's resume point, its fields stepped for the repeat's iteration (R25, R43, R44). -/
def fetchInstr (w : Wave) : Except Illegal Instr :=
  match w.clause with
  | none => .error .header
  | some c =>
    match rawWord c with
    | none => .error .literal
    | some raw =>
      let x := (match c.rpt with | some r => stepWord raw r.steps r.iter | none => raw)
      decodeWord x (nextWord c)

/-- A destination that NONE leaves out. -/
def dstY (y : YW) : List (Operand × Nat) := match y.d with | .none => [] | o => [(o, 1)]

/-- The word of a barrier: whether it is a cluster barrier, and whether it drains first (R93 to R95). -/
def barrierOf : Instr → Option (Bool × Bool × YW)
  | .bar y => some (false, false, y)
  | .barC y => some (true, false, y)
  | .arrive y => some (false, false, y)
  | .arriveC y => some (true, false, y)
  | .bwait y => some (false, false, y)
  | .bwaitC y => some (true, false, y)
  | .drainB y => some (false, true, y)
  | .drainC y => some (true, true, y)
  | _ => none

/-- A barrier of a block, or of its group's cluster. -/
def barIn (s : State) (bk : Nat) (cl : Bool) (n : Nat) : Bar :=
  match mget s.blocks bk with
  | none => dfltBar
  | some b =>
    if cl then (match mget s.grids b.gid with | some g => mgetD g.cbars (groupOf g.d b.num * 4 + n) dfltBar | none => dfltBar)
    else mgetD b.bars n dfltBar

/-- The generation of the wave's pending arrival. -/
def pendAt (w : Wave) (cl : Bool) (n : Nat) : Option Nat := if cl then mget w.pendC n else mget w.pendB n

/-- Nothing a wave has issued to memory is outstanding. -/
def memoryQuiet (w : Wave) : Bool := w.oc.st == 0 && w.mq.isEmpty && w.returns.isEmpty

/-- The wave waits at a barrier for a generation that has not completed: its word's registers are full, and a DRAIN has drained (R93 to R95). -/
def atBarrier (s : State) (w : Wave) : Bool :=
  match fetchInstr w with
  | .ok i =>
    (match barrierOf i with
     | some (cl, drain, y) =>
       !guardEmpty w y.guard && guardMask w y.guard != 0 && decide (readiness w (guardMask w y.guard) [] (dstY y) = .go) &&
         (!drain || w.arv || memoryQuiet w) && pendAt w cl y.imm.toNat == some (barIn s w.blk cl y.imm.toNat).gen
     | none => false)
  | .error _ => false

/-- The wave is between clauses, or held where an end of its block abandons the wait: parked, at a POLL, a PHASE or a barrier (R114, R286). -/
def atRest (s : State) (w : Wave) : Bool := w.clause.isNone || w.poll.isSome || w.parked.isSome || w.phase.isSome || atBarrier s w

/-- Stop every present wave of a block: at rest it retires now, else at its next clause boundary, or where it waits (R63, R114, R286). -/
def stopBlock (bk : Nat) (s : State) : State :=
  let ws := presentOf s bk
  let rest := (ws.filter (fun e => atRest s e.2)).map Prod.fst
  rest.foldl (fun t k => retireWave k t) ((ws.map Prod.fst).foldl (fun t k => modWave k (fun w => { w with stop := true }) t) s)

/-- The block's waves stop in place where they wait: it has faulted, or is ended with its grid (R63, R286); a block that KILL ends stops at clause boundaries (R114). -/
def inPlace (b : Block) : Bool := b.endAs == some .faulted || b.endAs == some .gridFault

/-- Engine operations count the entries of the memory queue that are older (R141): entry i is gone. -/
def olderGone (i : Nat) (q : List EngEntry) : List EngEntry := q.map (fun e => if i < e.after then { e with after := e.after - 1 } else e)

/-- Remove entry i of the wave's memory queue. -/
def dropOp (i : Nat) (w : Wave) : Wave :=
  { w with mq := delAt w.mq i, cpyQ := olderGone i w.cpyQ, mtxQ := olderGone i w.mtxQ, gatQ := olderGone i w.gatQ }

/-- The held pushes that a save carries, at the head of a wave's memory queue (R100). -/
def carriedPushes (w : Wave) : List MqEntry := w.mq.takeWhile (fun e => e.carried && (match e.op with | .push _ _ => true | _ => false))

/-- Held pushes of a block are withdrawn and discarded, those that a save carries included (R286). -/
def discardHeld (asid bk : Nat) (s : State) : State :=
  match mget s.ctxs asid with
  | none => s
  | some c =>
    let p := fun k => blockOfWave k == bk
    let t := (heldOf c p).foldl (fun t h => modWave h.key (ackSt h.no) t) (withdrawHeld asid p s)
    match mget t.blocks bk with
    | none => t
    | some b => if b.core.isSome then t else mapWaves bk (fun w => (carriedPushes w).foldl (fun u e => ackSt e.no (dropOp 0 u)) w) t

/-- Forget the flash read of a block that no longer needs it: the next operation of the LUN begins. -/
def dropReads (bk : Nat) (s : State) : State :=
  { s with luns := s.luns.map (fun e =>
      let rest := e.2.ops.filter (fun o => o != .read bk)
      if e.2.ops.head? = some (.read bk) then (e.1, { e.2 with ops := rest, rung := 0, accepted := 0, retry := 0, timedOut := false, since := s.time.ticks.toNat })
      else (e.1, { e.2 with ops := rest })) }

/-- RL and SD at a rung (R300); rung 8 is the soft one. -/
def rungRl (r : Nat) : Nat := min r 7
def rungSd (r : Nat) : Bool := decide (r ≥ 8)

/-- SD and RL of a block: those of its ladder that has stopped, though a replay keeps the decoded page unlanded (R62, R300, R320). -/
def ladderOf (s : State) (bk : Nat) (b : Block) : Bool × Nat :=
  match s.luns.find? (fun e => e.2.ops.head? == some (.read bk) && e.2.accepted == 0xF) with
  | some (_, l) => (rungSd l.rung, rungRl l.rung)
  | none => (b.sd, b.rl)

/-- End one block of a grid that ends (R63, R114, R287): with GT = 1, whether it has faulted itself or not; at once where nothing of it is outstanding, else once its waves have stopped and its stores are drained. -/
def endOther (gid num : Nat) (s : State) : State :=
  match mget s.grids gid with
  | none => s
  | some g =>
    if hasStatus g num then s
    else
      let bk := blockKey gid num
      let b := blockOr s gid num
      if (wavesOf s bk).isEmpty then
        setStatus gid num (statusWord 2 0 true (ladderOf s bk b).1 (ladderOf s bk b).2) (dropReads bk s)
      else
        let s1 := dropRequests bk { putBlock bk { b with endAs := some .gridFault, escal := none, life := if b.life = .phase then .running else b.life } s with phaseQ := mdel s.phaseQ bk }
        discardHeld g.asid bk
          (if b.life = .running then stopBlock bk s1 else ((presentOf s1 bk).map Prod.fst).foldl (fun t k => retireWave k t) s1)

/-- End every block of a grid but one (R63, R114, R287). -/
def endGrid (gid : Nat) (keep : Option Nat) (s : State) : State :=
  match mget s.grids gid with
  | none => s
  | some g => (List.range (gridBlocks g.d)).foldl (fun t n => if keep = some n then t else endOther gid n t) s

/-- TAKING A HARD FAULT (R285, R286): the record is written, or dropped when the queue is full, unless the block has already faulted or been ended; the faulting wave stops at its word, the others at their clause boundary or where they wait; with FPOL = 1 the grid ends (R63). DESIGN CHOICE (log 40): a fault of a block that KILL has ended and that has not drained is taken like any other, and its status is faulted. -/
def faultBlock (bk widx : Nat) (wid : Word64) (info : WordInfo) (f : FaultSpec) (s : State) : State :=
  match mget s.blocks bk with
  | none => s
  | some b =>
    match mget s.grids b.gid with
    | none => s
    | some g =>
      if b.endAs = some .faulted ∨ b.endAs = some .gridFault ∨ b.life = .done then s
      else
        let s1 := pushFault g.asid (faultWords s g.asid g b.num widx wid info f) s
        let s2 := modBlock bk (fun b => { b with endAs := some .faulted, life := if b.life = .phase then .running else b.life }) s1
        let s3 := discardHeld g.asid bk (stopBlock bk (retireWave (waveKey bk widx)
          (if b.life = .phase then askGroup b.gid b.num (dropRequests bk { s2 with phaseQ := mdel s2.phaseQ bk }) else s2)))
        if g.d.fpol then endGrid b.gid (some b.num) s3 else s3

/-- Two waves name the same condition. -/
def samePhase (a b : PhaseReq) : Bool := a.ck == b.ck && a.cge == b.cge && a.w32 == b.w32 && a.ca == b.ca && a.cval == b.cval

/-- The phases of a block's present waves, where every one has executed PHASE (R56). -/
def allPhases (s : State) (bk : Nat) : Option (List (Nat × PhaseReq)) :=
  let ws := presentOf s bk
  if ws ≠ [] ∧ ws.all (fun e => e.2.phase.isSome) then some (ws.filterMap (fun e => e.2.phase.map (fun p => (e.1, p)))) else none

/-- Every present wave names one condition. -/
def phasesAgree (ps : List (Nat × PhaseReq)) : Bool := match ps with | [] => true | p :: rest => rest.all (fun q => samePhase p.2 q.2)

/-- The wave that executed its PHASE last. -/
def lastPhase (ps : List (Nat × PhaseReq)) : Nat := (ps.foldl (fun b p => if b.2 ≤ p.2.ord then (p.1, p.2.ord) else b) (0, 0)).1

/-- A wave's word, at the given place, takes a hard fault. -/
def faultAt (key : Nat) (info : WordInfo) (f : FaultSpec) (s : State) : State :=
  match mget s.waves key with
  | none => s
  | some w => faultBlock w.blk w.idx w.wid info f s

/-- Every present wave of a block holds at a PHASE: where two name different conditions, the block faults at the last one's word (R56, R96). -/
def checkPhases (bk : Nat) (s : State) : State :=
  match allPhases s bk with
  | none => s
  | some ps =>
    if phasesAgree ps then s
    else match mget s.waves (lastPhase ps) with
      | some w => faultAt (lastPhase ps) (wordInfo w) illegalSpec s
      | none => s

/-- The issuing word takes a hard fault. -/
def hardFault (w : Wave) (f : FaultSpec) (s : State) : Result :=
  .next (faultBlock w.blk w.idx w.wid (wordInfo w) f s)

/-- The issuing word raises Illegal Instruction (R36). -/
def illegalWord (w : Wave) (s : State) : Result := hardFault w illegalSpec s

/-- KILL: the block ends with status done (R114). -/
def killBlock (bk : Nat) (s : State) : State :=
  stopBlock bk (modBlock bk (fun b => { b with endAs := match b.endAs with | some x => some x | none => some .done, escal := none }) s)

/-! ### Soft traps -/

/-- What a soft trap records (R111). -/
structure TrapSpec where
  cause : Nat
  o : Operand := .v 0
  imm : Nat := 0
  addr : Nat := 0
  detail : Nat := 0
  lanes : Word32 := 0
  deriving DecidableEq, Repr

/-- The trap record, with the resume point it names (R111). -/
def trapWords (t : TrapSpec) (opc : Nat) (place : WordInfo) : TrapRec :=
  { w0 := BitVec.ofNat 64 ((if t.cause = 1 then t.o.encode.toNat * 2 ^ 32 else 0) + t.imm * 2 ^ 16 + opc * 2 ^ 8 + t.cause)
    w1 := place.pc
    w2 := BitVec.ofNat 64 (place.iter * 2 ^ 8 + place.ix)
    w3 := BitVec.ofNat 64 t.addr
    w4 := BitVec.ofNat 64 t.detail
    w5 := t.lanes.setWidth 64 }

/-- The resume point of a wave as a record names it: the next clause's header has word index 0. -/
def resumeInfo (w : Wave) : WordInfo :=
  match w.clause with
  | some _ => wordInfo w
  | none => { pc := w.pc, ix := 0, iter := 0, opc := 0 }

/-- What a soft trap does to its wave: becomes a hard fault, enters the handler, or takes its default action, which for Determinism is a hard fault that leaves its record. -/
inductive TrapAct where
  | hard
  | enter (w : Wave)
  | go (w : Wave)
  | fault (w : Wave)
  deriving DecidableEq, Repr

/-- TAKING A SOFT TRAP (R109, R110, R111). Causes 1 to 5 resume at the raising word, TRAP and BKPT at the next one. -/
def softTrap (w : Wave) (t : TrapSpec) : TrapAct :=
  let after := if t.cause ≤ 5 then w else advance w
  let entry := trapWords t (wordInfo w).opc (resumeInfo after)
  if w.trapSt then .hard
  else if w.trapVec = 0 then (if t.cause = 5 then .fault { w with trec := entry } else .go { w with trec := entry })
  else .enter { after with
      trec := entry
      trapSt := true
      resume := some { pc := after.pc, clause := after.clause, retry := decide (t.cause ≤ 5) }
      pc := w.trapVec
      clause := none
      again := 0
      noE := false
      arv := false
      held := false
      age := 0
      aged := false }

/-- The default action of Empty Source: the word waits from now on as if its E bits were 0, and raises nothing again (R41, R109). -/
def waitsOn (key : Nat) (w : Wave) (s : State) : Result := .next (putWave key { w with noE := true } s)

/-- Raise a soft trap for the issuing word; go is what its default action does with the wave, its record written. -/
def raiseTrap (key : Nat) (w : Wave) (t : TrapSpec) (go : Wave → State → Result) (s : State) : Result :=
  match softTrap w t with
  | .hard => illegalWord w s
  | .enter w1 => .next (putWave key w1 s)
  | .go w1 => go w1 (putWave key w1 s)
  | .fault w1 => illegalWord w1 (putWave key w1 s)

/-- RETURNING FROM A SOFT TRAP (R113): mode 1 skips a word that took no effect, mode 2 issues it with every E bit as 0. -/
def trapReturn (mode : Nat) (r : Resume) (w : Wave) : Wave :=
  let left := endClause r.pc w
  let back := { left with trapSt := false, resume := none, clause := r.clause }
  if r.retry then
    match mode with
    | 1 => advance back
    | 2 => { back with noE := true }
    | _ => back
  else back

/-! ### What every word shares -/

/-- A word under its guard (R41, R42): waits for its guard register; is skipped when guarded off; traps or waits on empty registers; else takes effect. -/
def word (g : Guard) (srcs : List Src) (dests : List (Operand × Nat)) (body : Nat → Wave → Word32 → State → Result) (s : State) : Result :=
  match current s with
  | none => .fault .noIssuingWave
  | some (key, w) =>
    if guardEmpty w g then .next s
    else
      let m := guardMask w g
      if m = 0 then .next (putWave key (advance w) s)
      else
        match readiness w m srcs dests with
        | .wait => .next s
        | .trap o l => raiseTrap key w { cause := 1, o := o, lanes := l } (waitsOn key) s
        | .go => body key w m s

/-- A word that only changes its wave's registers. -/
def regWord (g : Guard) (srcs : List Src) (dests : List (Operand × Nat)) (f : Word32 → Wave → Wave) (s : State) : Result :=
  word g srcs dests (fun key w m t => .next (putWave key (advance (f m w)) t)) s

/-- A word that acts in its block, grid and context. -/
def viewWord (g : Guard) (srcs : List Src) (dests : List (Operand × Nat)) (body : View → Word32 → State → Result) (s : State) : Result :=
  word g srcs dests (fun key _ m t =>
    match viewOf t key with
    | none => .fault .noIssuingWave
    | some v => body v m t) s

/-- The word is done: on to the next. -/
def done (key : Nat) (s : State) : Result := .next (modWave key advance s)

/-- The word waits at its place (R25). -/
def hold (s : State) : Result := .next s

/-- The parts of a block's group have an involuntary save to come (R61, R71). -/
def escalating (s : State) (bk : Nat) : Bool :=
  match mget s.blocks bk with
  | none => false
  | some b =>
    match mget s.grids b.gid with
    | none => false
    | some g => (groupBlocks g.d (groupOf g.d b.num)).any (fun n => match mget s.blocks (blockKey b.gid n) with | some x => x.escal.isSome | none => false)

/-- The blocks of a context that hold a core's resources. -/
def residentOf (s : State) (asid : Nat) : List (Nat × Block) :=
  s.blocks.filter (fun e => e.2.life.resident && e.2.core.isSome && (match mget s.grids e.2.gid with | some g => g.asid == asid | none => false))

/-- A context of the partition with resident blocks, other than one. -/
def otherResident (s : State) (p : Nat) (keep : Option Nat) : Bool :=
  s.ctxs.any (fun e => e.2.ent.part == p && keep != some e.1 && !(residentOf s e.1).isEmpty)

/-- The partition waits for the contexts that are to leave it: until none of them has a resident block, whichever way the last one goes (R79 to R81). -/
def stillSaving (s : State) (n : Nat) (p : Part) : Bool := p.saving && otherResident s n p.keep

/-- The partition's save is over: its current context takes a core. -/
def saveOver (asid : Nat) (s : State) : State :=
  match (mget s.ctxs asid).bind (fun c => (mget s.parts c.ent.part).map (fun p => (c.ent.part, p))) with
  | some (n, p) => { s with parts := mput s.parts n { p with saving := false } }
  | none => s

/-- A teardown of the context is under way (R287). -/
def tearingDown (s : State) (asid : Nat) : Bool := s.pf.go && s.pf.op == 3 && s.pf.asid == asid

/-- The context is to be saved at the end of its quantum (R81). -/
def leaving (s : State) (asid : Nat) : Bool :=
  match mget s.ctxs asid with
  | none => false
  | some c => let p := partAt s c.ent.part; p.saving && p.keep != some asid

/-- A save of the block is due: its waves stop (R81). -/
def saveDue (s : State) (bk : Nat) : Bool :=
  escalating s bk ||
    (match (mget s.blocks bk).bind (fun b => mget s.grids b.gid) with | some g => leaving s g.asid | none => false)

end Sys2Proof.Machine
end

