-- ==== Sys2Proof/Machine/Translate.lean ====
section
/-! DEFINITION. From a generic pointer to bytes: the windows (R115, R116), the five-level walk and cached leaves (R275 to R277, R282), regions (R289), permissions (R278), tags (R281), accessed and dirty bits (R280), and the write-back states of flash-backed pages (R126, R308). -/
namespace Sys2Proof.Machine

/-! ### Windows (R115, R116) -/

def aBase : Nat := 0x0F00000000000000
def sBase : Nat := 0x0F00000000100000
def sEnd : Nat := 0x0F00000000110000

inductive Window where
  | a
  | stack
  | global
  deriving DecidableEq, Repr

/-- The window of an address (bits [59:0]). -/
def windowOf (addr : Nat) : Window :=
  if aBase ≤ addr ∧ addr < sBase then .a
  else if sBase ≤ addr ∧ addr < sEnd then .stack
  else .global

/-- The causes an access check can find. -/
inductive Chk where
  | ok
  | pending
  | fail (cause det : Nat)
  deriving DecidableEq, Repr

/-- Aperture cross, then the bounds of the A and stack windows (R116), for n ≥ 1 bytes. -/
def checkWindow (d : Desc) (addr n : Nat) : Chk :=
  let last := addr + n - 1
  if last ≥ 2 ^ 60 then .fail 4 0
  else match windowOf addr with
    | .a => if last ≥ sBase then .fail 4 0 else if last ≥ aBase + d.au * 4096 then .fail 3 0 else .ok
    | .stack => if last ≥ sEnd then .fail 4 0 else if last ≥ sBase + d.stksz then .fail 3 0 else .ok
    | .global => if addr < aBase ∧ last ≥ aBase then .fail 4 0 else .ok

/-! ### The walk (R275 to R277) -/

def leafV (x : Nat) : Bool := bitAt x 63
def leafTier (x : Nat) : Nat := field x 13 3
def leafTg (x : Nat) : Bool := bitAt x 12
def leafFb (x : Nat) : Bool := bitAt x 11
def leafAc (x : Nat) : Bool := bitAt x 10
def leafDt (x : Nat) : Bool := bitAt x 9
def leafTwp (x : Nat) : Bool := bitAt x 8
def leafRd (x : Nat) : Bool := bitAt x 7
def leafWr (x : Nat) : Bool := bitAt x 6
def leafEx (x : Nat) : Bool := bitAt x 5
def leafRo (x : Nat) : Bool := bitAt x 4

/-- Page bits of a leaf at a level (R275). -/
def pageBits (level : Nat) : Nat := match level with | 2 => 30 | 3 => 21 | _ => 16

/-- An entry with V = 1 that breaks R277. -/
def malformed (level x : Nat) : Bool :=
  if bitAt x 61 then
    decide (level ≤ 1) || bitAt x 62 || field x 56 5 != 0 || field x 0 4 != 0 ||
      field x 16 (pageBits level - 16) != 0 || decide (leafTier x ≥ 5) || ((leafTg x || leafFb x) && leafTier x != 0) ||
      (leafWr x && leafRo x) || (leafEx x && (!leafRo x || decide (leafTier x > 1))) || (leafTwp x && !leafFb x)
  else level == 4 || bitAt x 62 || field x 56 5 != 0 || field x 0 8 != 0

/-- How a walk ends (R124, R277): the leaf with its level, the address it stands at (0: it is a cached copy that memory no longer holds) and the next-table entries met; pending; or unmappable, with DET (R284). -/
inductive Walk where
  | leaf (x : Nat) (level at_ : Nat) (path : List (Nat × Nat))
  | pending
  | bad (det : Nat)
  deriving DecidableEq, Repr

/-- A leaf without the bits the device changes (R276): what a cached copy is compared by; a next-table entry as it is. -/
def entryKey (x : Nat) : Nat :=
  if bitAt x 61 then x - (if leafAc x then 2 ^ 10 else 0) - (if leafDt x then 2 ^ 9 else 0) - (if leafTwp x then 2 ^ 8 else 0) else x

/-- Where a cached entry stands: by ASID, level and index bits; lo is the level's lowest address bit. -/
def tlbKey (asid level lo va : Nat) : Nat := (asid * 8 + level) * 2 ^ 44 + va / 2 ^ lo

/-- A cached copy of an entry that memory no longer holds serves an access only where the access changes no bit of it: AC is set, and for a write DT too, and no write-back state hangs on it (R126, R280). -/
def servesStale (write : Bool) (x : Nat) : Bool := !bitAt x 61 || (leafAc x && (!write || (leafDt x && !leafFb x)))

/-- The entry a walk uses, and whether it is a cached copy that differs from the entry in memory: either may be used until an invalidation completes (R282; a free choice of the step). -/
def usedEntry (s : State) (write : Bool) (key x : Nat) : Nat × Bool :=
  match mget s.tlb key with
  | none => (x, false)
  | some c =>
    if entryKey c.toNat ≠ entryKey x ∧ servesStale write c.toNat ∧ Config.freeBool (s.sched.freeNo * 2 ^ 64 + key) then (c.toNat, true)
    else (x, false)

/-- Walk the levels from a table (R275): lo and width of each level's index. DESIGN CHOICE (log 59): a NEXT address that is not aligned for its level's table, or that lies outside tier 1, is used as it stands; the rule gives no consequence. -/
def walkFrom (s : State) (asid : Nat) (write : Bool) (va : Nat) : List (Nat × Nat × Nat) → Nat → List (Nat × Nat) → Walk
  | [], _, _ => .bad 4
  | (level, lo, width) :: rest, table, path =>
    let p := table + 8 * field va lo width
    let key := tlbKey asid level lo va
    let u := usedEntry s write key (physNat s p 8)
    let x := u.1
    if leafV x then
      if malformed level x then .bad (level + 0x80)
      else if bitAt x 61 then .leaf x level (if u.2 then 0 else p) path
      else walkFrom s asid write va rest (field x 8 48 * 256) (path ++ [(key, x)])
    else if bitAt x 62 then .pending
    else .bad level

def levels : List (Nat × Nat × Nat) := [(0, 48, 12), (1, 39, 9), (2, 30, 9), (3, 21, 9), (4, 16, 5)]

/-- The lowest address bit of a level's index. -/
def levelLo (level : Nat) : Nat := ((levels.find? (fun l => l.1 == level)).map (fun l => l.2.1)).getD 0

def walk (s : State) (asid root : Nat) (write : Bool) (va : Nat) : Walk := walkFrom s asid write va levels root []

/-- The physical address a leaf gives. -/
def leafPa (x level va : Nat) : Nat :=
  field x 16 40 * 65536 / 2 ^ pageBits level * 2 ^ pageBits level + va % 2 ^ pageBits level

/-- The leaf's PA and TIER agree (R289). DESIGN CHOICE (log 57): of a tier 2 leaf that straddles its port's capacity, the addresses below it are served and those above fault. -/
def regionOk (s : State) (x pa : Nat) : Bool :=
  match leafTier x, regionOf pa with
  | 0, .tier1 => true
  | 1, .tier2 => decide (field pa 0 41 < mgetD s.cxl (field pa 41 3) 0)
  | 2, .host => true
  | 3, .peer => true
  | 4, .mmio => true
  | _, _ => false

/-- A translation of one address. -/
inductive Xlate where
  | ok (pa leaf level at_ : Nat)
  | pending
  | bad (det : Nat)
  deriving DecidableEq, Repr

def xlate (s : State) (asid root va : Nat) (write : Bool := false) : Xlate :=
  match walk s asid root write va with
  | .pending => .pending
  | .bad det => .bad det
  | .leaf x level p _ =>
    let pa := leafPa x level va
    if regionOk s x pa then .ok pa x level p else .bad (0x40 + level)

/-! ### Permissions and tags (R278, R281) -/

/-- The access kinds of R278. -/
inductive Kind where
  | load
  | store
  | atomic
  | fetch
  deriving DecidableEq, Repr

/-- The access writes. -/
def Kind.writes (k : Kind) : Bool := k == .store || k == .atomic

/-- The permission a leaf lacks for a kind: cause and DET (R278, R284). -/
def permCheck (k : Kind) (x : Nat) : Chk :=
  match k with
  | .load => if leafRd x then .ok else .fail 7 0x10
  | .store => if leafWr x then .ok else .fail 6 0
  | .atomic => if ¬ leafRd x ∨ leafTier x > 2 then .fail 7 0x10 else if leafWr x then .ok else .fail 6 0
  | .fetch => if leafEx x then .ok else .fail 5 0

/-- The pieces of a range, one for each 64 KiB unit: address and length. n is the number of units. -/
def unitsFrom (addr len : Nat) : Nat → List (Nat × Nat)
  | 0 => []
  | n + 1 =>
    if len = 0 then []
    else
      let m := min len (65536 - addr % 65536)
      (addr, m) :: unitsFrom (addr + m) (len - m) n

def units (addr len : Nat) : List (Nat × Nat) := unitsFrom addr len (len / 65536 + 2)

/-- The tag of every granule of a piece matches (R281). -/
def tagsMatch (s : State) (pa n tag : Nat) : Bool :=
  (List.range ((pa + n + 31) / 32 - pa / 32)).all (fun j => tagOf s ((pa / 32 + j) * 32) == tag)

/-- The parts of a range between multiples of m: address and length. -/
def parts (m addr len : Nat) : List (Nat × Nat) :=
  if len = 0 then []
  else (List.range ((addr + len - 1) / m - addr / m + 1)).map (fun j =>
    let lo := max addr ((addr / m + j) * m)
    (lo, min (addr + len) ((addr / m + j + 1) * m) - lo))

/-- The first failure in a list of checks, else pending if any is, else ok. -/
def firstFail : List Chk → Chk
  | [] => .ok
  | .fail c d :: _ => .fail c d
  | .pending :: rest => (match firstFail rest with | .fail c d => .fail c d | _ => .pending)
  | .ok :: rest => firstFail rest

/-- Stages 3, 4 and 5 of R279 for a global range: the walk of every unit, then permission, then the tag. tag: none where the path checks none. -/
def checkGlobal (s : State) (asid root : Nat) (k : Kind) (tag : Option Nat) (addr len : Nat) : Chk :=
  let xs := (units addr len).map (fun u => (u, xlate s asid root u.1 k.writes))
  let walks := firstFail (xs.map (fun x => match x.2 with | .ok _ _ _ _ => .ok | .pending => .pending | .bad d => .fail 7 d))
  match walks with
  | .fail c d => .fail c d
  | w =>
    match firstFail (xs.map (fun x => match x.2 with | .ok _ l _ _ => permCheck k l | _ => .ok)) with
    | .fail c d => .fail c d
    | _ =>
      match firstFail (xs.map (fun x => match x.2, tag with
          | .ok pa l _ _, some t => if leafTg l ∧ ¬ tagsMatch s pa x.1.2 t then .fail 1 0 else .ok
          | _, _ => .ok)) with
      | .fail c d => .fail c d
      | _ => w

/-- The context entry's root. -/
def rootOf (c : Ctx) : Nat := c.ent.root

/-- Stages 2 to 5 of R279 for one access of a wave (R116, R150). -/
def checkAccess (s : State) (v : View) (k : Kind) (tag : Option Nat) (addr n : Nat) : Chk :=
  match checkWindow v.g.d addr n with
  | .ok =>
    (match windowOf addr with
     | .global => checkGlobal s v.g.asid (rootOf v.c) k tag addr n
     | _ => .ok)
  | x => x

/-- An atomic or reduction: the A and stack windows raise local bounds, and then natural alignment is checked (R116, R159). -/
def checkAtomic (s : State) (v : View) (addr n tag : Nat) : Chk :=
  match checkWindow v.g.d addr n with
  | .ok =>
    (match windowOf addr with
     | .global => if addr % n ≠ 0 then .fail 8 0 else checkGlobal s v.g.asid (rootOf v.c) .atomic (some tag) addr n
     | _ => .fail 3 0)
  | .fail 3 d => .fail 3 d
  | x => x

/-! ### Accessed, dirty, write-back (R126, R280, R282, R306 to R308) -/

/-- The base die whose Tailrace serves a page at PA (R307). -/
def tailOf (pa : Nat) : Nat := Nat.xor (Nat.xor (field pa 16 2) (field pa 21 2)) (field pa 30 2)

def dfltTail : Tailrace := { queue := [], now := none }

/-- The backing record of a unit (R306). -/
def backingAt (s : State) (pa : Nat) : Nat := s.pf.tbb + pa / 65536 * 64
/-- The unit's image is lost: its record is valid, and has PSN set. -/
def backingPsn (s : State) (pa : Nat) : Bool := bitAt (physNat s (backingAt s pa) 8) 63 && bitAt (physNat s (backingAt s pa) 8) 62
def backingFail (s : State) (pa : Nat) : Bool := bitAt (physNat s (backingAt s pa) 8) 61

/-- Rewrite a leaf's byte 1, which holds AC, DT and TWP, in place (R280). -/
def setLeafBit (p bit : Nat) (b : Bool) (s : State) : State :=
  let x := physNat s p 8
  if bitAt x bit = b then s
  else physPut p (natToBytes 8 (if b then x + 2 ^ bit else x - 2 ^ bit)) s

/-- The page base of a physical address under a leaf of a level. -/
def pageBase (pa level : Nat) : Nat := pa / 2 ^ pageBits level * 2 ^ pageBits level

/-- FAIL is set in the backing record of some unit of a leaf: the page's state holds for all of it (R306). -/
def leafFailed (s : State) (base level : Nat) : Bool := (List.range (2 ^ (pageBits level - 16))).any (fun j => backingFail s (base + 65536 * j))

/-- A store reaches a flash-backed page (R126, R308): clean goes to queued and write-protected, writing to re-dirtied, failed to queued once no unit of the leaf has FAIL set. -/
def tailStore (pa level p : Nat) (s : State) : State :=
  let base := pageBase pa level
  let die := tailOf base
  let put := fun (st : WbState) (t : State) => { t with wb := mput t.wb base { leaf := p, size := 2 ^ pageBits level, state := st } }
  let queue := fun (t : State) =>
    setLeafBit p 8 true (setLeafBit p 9 true
      { put .queued t with tail := mmod t.tail die dfltTail (fun q => { q with queue := q.queue ++ [base] }) })
  match mget s.wb base with
  | none => queue s
  | some x =>
    match x.state with
    | .queued => s
    | .writing => put .redirtied s
    | .redirtied => s
    | .failed => if leafFailed s base level then s else queue s

/-- The leaf that a walk ended at served an access: AC is set, and DT where the access writes and the page is not flash-backed, and the entries of the walk are cached (R280, R282). -/
def noteWalk (asid va : Nat) (writes : Nat → Bool) (w : Walk) (s : State) : State :=
  match w with
  | .leaf x level p path =>
    let s1 := { s with tlb := path.foldl (fun m e => mput m e.1 (BitVec.ofNat 64 e.2)) s.tlb }
    if p = 0 then s1
    else
      let s2 := setLeafBit p 10 true s1
      let s3 := if writes x ∧ ¬ leafFb x then setLeafBit p 9 true s2 else s2
      { s3 with tlb := mput s3.tlb (tlbKey asid level (levelLo level) va) (physWord s3 p) }
  | _ => s

/-- An access to one address has passed stage 4 of its checks (R280). -/
def noteLeaf (asid root : Nat) (write : Bool) (va : Nat) (s : State) : State := noteWalk asid va (fun _ => write) (walk s asid root write va) s

/-- A TAGSET at one address has passed stage 4: it walks as a write, and writes where the page is tagged (R168, R280). -/
def noteTag (asid root va : Nat) (s : State) : State := noteWalk asid va leafTg (walk s asid root true va) s

/-- An access to one address takes place: the leaf's bits are set, and a store to a flash-backed page is handed to Tailrace (R126, R280). -/
def recordUnit (asid root : Nat) (write : Bool) (va : Nat) (s : State) : State :=
  let s1 := noteLeaf asid root write va s
  match walk s asid root write va with
  | .leaf x level p _ => if write ∧ leafFb x ∧ p ≠ 0 then tailStore (leafPa x level va) level p s1 else s1
  | _ => s1

/-- The same for a global range. -/
def recordAccess (asid root : Nat) (write : Bool) (addr len : Nat) (s : State) : State :=
  (units addr len).foldl (fun t u => recordUnit asid root write u.1 t) s

/-- An access of a wave passes stages 1 to 4 of R279 in global memory. -/
def passesFour (s : State) (v : View) (k : Kind) (addr n : Nat) : Bool :=
  windowOf addr == .global && checkWindow v.g.d addr n == .ok && (k != .atomic || addr % n == 0) &&
    checkGlobal s v.g.asid (rootOf v.c) k none addr n == .ok

/-- A word that faults has passed stage 4 in some lanes: their leaves are marked all the same (R280). accs: lanes with their addresses; mark: what one address leaves. -/
def markPassed (mark : Nat → State → State) (v : View) (k : Kind) (n : Nat) (accs : List (Nat × Nat)) (s : State) : State :=
  accs.foldl (fun t a => if passesFour s v k a.2 n then (units a.2 n).foldl (fun t u => mark u.1 t) t else t) s

/-- The same of accesses of a kind, and of a TAGSET. -/
def notePassed (v : View) (k : Kind) (n : Nat) (accs : List (Nat × Nat)) (s : State) : State := markPassed (noteLeaf v.g.asid (rootOf v.c) k.writes) v k n accs s
def noteTags (v : View) (n : Nat) (accs : List (Nat × Nat)) (s : State) : State := markPassed (noteTag v.g.asid (rootOf v.c)) v .store n accs s

/-- The granules of a range whose checks passed stage 4 leave the same marks, in an access that fails later on (R280). -/
def noteSpan (v : View) (k : Kind) (addr n : Nat) (s : State) : State :=
  (parts 32 addr n).foldl (fun t p => notePassed v k p.2 [(0, p.1)] t) s

/-- The same for an access in a context, outside any wave. -/
def noteCtx (asid root : Nat) (k : Kind) (addr n : Nat) (s : State) : State :=
  (parts 32 addr n).foldl (fun t p => if checkGlobal s asid root k none p.1 p.2 = .ok then (units p.1 p.2).foldl (fun u x => noteLeaf asid root k.writes x.1 u) t else t) s

/-! ### Bytes through a pointer -/

/-- The device-physical address of a lane's stack byte (R117). -/
def stackPa (v : View) (lane off : Nat) : Nat :=
  v.c.ent.stkb + v.b.slice.getD 0 + (v.w.idx * 32 + lane) * v.g.d.stksz + off

/-- Where one byte lives: in the block's A allocation, at a device-physical address with the TIER of its page, or nowhere yet. -/
inductive Place where
  | a (off : Nat)
  | phys (pa tier : Nat)
  | nowhere (va : Nat)
  deriving DecidableEq, Repr

def placeOf (s : State) (v : View) (lane addr : Nat) (write : Bool := false) : Place :=
  match windowOf addr with
  | .a => .a (addr - aBase)
  | .stack => .phys (stackPa v lane (addr - sBase)) 0
  | .global =>
    match xlate s v.g.asid (rootOf v.c) addr write with
    | .ok pa x _ _ => .phys pa (leafTier x)
    | _ => .nowhere addr

/-- The drive behind a device-MMIO address does not answer (R312). -/
def silentAt (s : State) (tier pa : Nat) : Bool := tier == 4 && s.silent.contains (pa / 65536)

/-- The far-side address of an access (R289). -/
def farSide (tier pa : Nat) : FarSide := if tier = 4 then .drive (field pa 0 44) else .peer (field pa 42 13) (field pa 0 42)

/-- The storage port counts n requests: reads that were not answered, or stores that it could not deliver (R312). DEDUCED (log 53): each request counts, of which a word may make several. -/
def countDrives (n : Nat) (s : State) : State := { s with pf := { s.pf with cnt3110 := s.pf.cnt3110 + BitVec.ofNat 32 n } }
def countDrive (s : State) : State := countDrives 1 s

/-- A byte that the far side of a peer or device-MMIO page answers with, where no arrival brings it: all ones from a drive that does not answer, else a free value (log 6). -/
def farByte (s : State) (tier pa : Nat) : Byte := if silentAt s tier pa then 0xFF else (Config.freeValue (s.sched.freeNo * 2 ^ 64 + pa)).setWidth 8

/-- A byte as memory holds it now. -/
def placeByte (s : State) (bk : Nat) (p : Place) : Byte :=
  match p with
  | .a off => (match mget s.blocks bk with | some b => mgetD b.a off blankByte | none => blankByte)
  | .phys pa tier => if tier ≥ 3 then farByte s tier pa else physByte s pa
  | .nowhere _ => blankByte

/-- An access of n bytes that the far side sees as one transaction: at most 8 bytes, naturally aligned (R122, R127). -/
def farWhole (pa n : Nat) : Bool := (n == 1 || n == 2 || n == 4 || n == 8) && pa % n == 0

/-- One write to the far side; one that the port cannot deliver is dropped, and counted. -/
def farWriteOne (tier pa : Nat) (bs : List Byte) (s : State) : State :=
  if silentAt s tier pa then countDrive s else emit (.farWrite (farSide tier pa) bs) s

/-- Bytes written to the far side: one transaction, or else each byte by itself, in no fixed order (R127; a free choice of the step). -/
def farPut (tier pa : Nat) (bs : List Byte) (s : State) : State :=
  if farWhole pa bs.length then farWriteOne tier pa bs s
  else
    (List.range bs.length).foldl (fun t j =>
      let i := (j + (freeWord s).toNat) % bs.length
      farWriteOne tier (pa + i) [bs.getD i blankByte] t) s

/-- One read of the far side; one that no drive answers is counted. -/
def farReadOne (tier pa n : Nat) (s : State) : State :=
  let t := emit (.farRead (farSide tier pa) n) s
  if silentAt s tier pa then countDrive t else t

/-- Bytes read from the far side: one transaction, or each byte by itself (R122, R127). -/
def farGet (tier pa n : Nat) (s : State) : State :=
  if farWhole pa n then farReadOne tier pa n s
  else (List.range n).foldl (fun t j => farReadOne tier (pa + j) 1 t) s

/-- Write bytes at a place; peer and device-MMIO stores go to the far side (R122). -/
def placePut (bk : Nat) (p : Place) (bs : List Byte) (s : State) : State :=
  match p with
  | .a off => modBlock bk (fun b => { b with a := cellsPut b.a off bs }) s
  | .phys pa tier => if tier ≥ 3 then farPut tier pa bs s else physPut pa bs s
  | .nowhere _ => s

/-- n bytes through a pointer, read byte by byte; write: as an access that also writes them walks (R282). -/
def bytesAt (s : State) (v : View) (lane addr n : Nat) (write : Bool := false) : List Byte :=
  (List.range n).map (fun j => placeByte s v.w.blk (placeOf s v lane (addr + j) write))

/-- Far reads of a source range leave the package, 8 bytes or less at a time (R122). -/
def sendReads (v : View) (lane addr n : Nat) (s : State) : State :=
  (parts 8 addr n).foldl (fun t u =>
    match placeOf t v lane u.1 with
    | .phys pa tier => if tier ≥ 3 then farGet tier pa u.2 t else t
    | _ => t) s

/-- Write bytes through a pointer, one 64 KiB unit at a time, recording the accesses (R126, R280). -/
def putAt (v : View) (lane addr : Nat) (bs : List Byte) (s : State) : State :=
  (units addr bs.length).foldl (fun t u =>
    let part := (bs.drop (u.1 - addr)).take u.2
    let t1 := if windowOf u.1 = .global then recordAccess v.g.asid (rootOf v.c) true u.1 u.2 t else t
    placePut v.w.blk (placeOf t v lane u.1 true) part t1) s

/-- A byte of a context's global memory. -/
def ctxByte (s : State) (asid root va : Nat) : Byte :=
  match xlate s asid root va with
  | .ok pa x _ _ => if leafTier x ≥ 3 then farByte s (leafTier x) pa else physByte s pa
  | _ => blankByte

/-- The reads of a context's range that leave the package, 8 bytes or less at a time (R122). -/
def sendCtx (asid root addr n : Nat) (s : State) : State :=
  (parts 8 addr n).foldl (fun t u =>
    match xlate t asid root u.1 with
    | .ok pa x _ _ => if leafTier x ≥ 3 then farGet (leafTier x) pa u.2 t else t
    | _ => t) s

/-- The first of n bytes from a device-physical address whose data cannot be supplied: the image of a 64 KiB unit is lost, or an error has spoilt a granule (R283, R295, R306). -/
def lostIn (s : State) (pa n : Nat) : Option Nat :=
  let image := ((units pa n).find? (fun u => regionOf u.1 == .tier1 && backingPsn s u.1)).map (fun u => u.1 - pa)
  let granule := (s.spoilt.find? (fun g => decide (g * 32 < pa + n) && decide (pa < g * 32 + 32))).map (fun g => g * 32 - pa)
  match image, granule with
  | some i, some j => some (min i j)
  | some i, none => some i
  | none, j => j

/-- The first address of a global range whose data cannot be supplied; write: as an access that also writes it walks (R282). -/
def lostAt (s : State) (asid root addr n : Nat) (write : Bool := false) : Option Nat :=
  (units addr n).findSome? (fun u =>
    match xlate s asid root u.1 write with
    | .ok pa x _ _ => if leafTier x ≤ 2 then (lostIn s pa u.2).map (fun j => u.1 + j) else none
    | _ => none)

/-- The same for a range that a lane of a wave reads, in any window. -/
def lostFrom (s : State) (v : View) (lane addr n : Nat) : Option Nat :=
  match windowOf addr with
  | .a => none
  | .stack => (lostIn s (stackPa v lane (addr - sBase)) n).map (fun j => addr + j)
  | .global => lostAt s v.g.asid (rootOf v.c) addr n

/-- Write bytes to a context's global memory, recording the access. -/
def ctxPut (asid : Nat) (c : Ctx) (addr : Nat) (bs : List Byte) (s : State) : State :=
  (units addr bs.length).foldl (fun t u =>
    let t1 := recordUnit asid (rootOf c) true u.1 t
    match xlate t asid (rootOf c) u.1 true with
    | .ok pa x _ _ => placePut 0 (.phys pa (leafTier x)) ((bs.drop (u.1 - addr)).take u.2) t1
    | _ => t1) s

/-! ### A lines (R120) -/

/-- The A-buffer lines of a window range. -/
def linesOf (addr len : Nat) : List Nat :=
  if len = 0 then [] else (List.range ((addr - aBase + len - 1) / 128 - (addr - aBase) / 128 + 1)).map (fun j => (addr - aBase) / 128 + j)

/-- Some line of the range is empty. -/
def anyEmptyLine (b : Block) (addr len : Nat) : Bool := (linesOf addr len).any (fun l => b.aE.contains l)

def markLines (addr len : Nat) (b : Block) : Block := { b with aE := (linesOf addr len).foldl sadd b.aE }
def fillLines (addr len : Nat) (b : Block) : Block := { b with aE := (linesOf addr len).foldl sdel b.aE }

end Sys2Proof.Machine
end

