-- ==== Sys2Proof/Machine/Clause.lean ====
section
/-! DEFINITION. Choosing, fetching and decoding the next clause (R19 to R24, R67, R68, R87, R278), the passing of time, and the word a wave issues next (R22, R25, R44). -/
namespace Sys2Proof.Machine

/-! ### Quanta and residence -/

/-- The context named by a quantum table entry (R79). -/
def quantumAsid (x : Word64) : Nat := field x.toNat 52 12
def quantumLen (x : Word64) : Nat := field x.toNat 32 20
/-- An entry that is visited: V = 1, LEN not 0, zero field zero (R79, R80). -/
def quantumValid (x : Word64) : Bool := bitAt x.toNat 0 && quantumLen x != 0 && field x.toNat 1 31 == 0

/-- The context holds its partition's current quantum, and no context that leaves it has a block to be saved (R67, R80). -/
def holdsQuantum (s : State) (asid : Nat) : Bool :=
  match mget s.ctxs asid with
  | none => false
  | some c =>
    let p := partAt s c.ent.part
    match p.cur with
    | none => false
    | some i => p.v && !stillSaving s c.ent.part p && i.2 == asid

/-! ### Fetching a clause -/

/-- What a clause fetch finds. -/
inductive Fetch where
  | wait
  /-- a hard fault of the fetch: it concerns the header (word index 0x1F) -/
  | fail (cause det : Nat)
  /-- an illegal header or word: its index and opcode -/
  | illegal (ix opc : Nat)
  | ok (h : ClauseHeader) (words : List Word64)
  deriving DecidableEq, Repr

/-- The words of code from an address: translated for fetch, no tag checked; the A and stack windows raise execute-never (R278); code on a page that the page store lost is uncorrectable (R306). DESIGN CHOICE (log 59): a clause whose words run out of the global window, into the A window or past 2^60, raises execute-never like one whose PC lies outside it; the rule speaks of the PC. -/
def fetchWords (s : State) (v : View) (addr n : Nat) : Fetch :=
  let a := ptrAddr addr
  match checkWindow v.g.d a (8 * n) with
  | .fail 4 _ => .fail 5 0
  | _ =>
    if windowOf a ≠ .global then .fail 5 0
    else
      match checkGlobal s v.g.asid (rootOf v.c) .fetch none a (8 * n) with
      | .fail c d => .fail c d
      | .pending => .wait
      | .ok =>
        if (lostAt s v.g.asid (rootOf v.c) a (8 * n)).isSome then .fail 10 0
        else .ok { ecl := 0, nw := 0, thc := 0, thm := 0, thg := 0, ths := 0, y := false }
          ((List.range n).map (fun j => BitVec.ofNat 64 (bytesToNat ((List.range 8).map (fun i => ctxByte s v.g.asid (rootOf v.c) (a + 8 * j + i))))))

/-- The clause at the wave's PC, decoded as a whole (R19, R20, R24, R36). -/
def fetchClause (s : State) (v : View) : Fetch :=
  match fetchWords s v v.w.pc.toNat 1 with
  | .ok _ (h :: _) =>
    match decodeHeader h with
    | none => .illegal 0x1F 0
    | some hd =>
      match fetchWords s v (v.w.pc.toNat + 8) (hd.nw + 1) with
      | .ok _ words =>
        match checkClause hd v.w.allot words with
        | some (ix, _) => .illegal ix (match words[ix]? with | some x => opOf x | none => 0)
        | none => .ok hd words
      | x => x
  | .ok _ [] => .wait
  | x => x

/-- What the fetch of a wave's clause leaves in the leaves it passed: of the header, and of the words where the header is legal (R280). -/
def noteFetch (v : View) (s : State) : State :=
  let a := ptrAddr v.w.pc.toNat
  let seen := fun (addr n : Nat) (t : State) =>
    if passesFour t v .fetch addr n then recordAccess v.g.asid (rootOf v.c) false addr n t else t
  match fetchWords s v v.w.pc.toNat 1 with
  | .ok _ (h :: _) =>
    (match decodeHeader h with
     | some hd => seen (a + 8) (8 * (hd.nw + 1)) (seen a 8 s)
     | none => seen a 8 s)
  | _ => seen a 8 s

/-- A threshold admits a counter (R21). -/
def admits (th n : Nat) : Bool := th == 15 || decide (n ≤ th)

/-- The thresholds of the wave's next clause hold; a clause that will fault has none to wait for (R21, R67). -/
def thresholdsHold (s : State) (v : View) : Bool :=
  match fetchClause s v with
  | .ok h _ => admits h.thc v.w.oc.cpy && admits h.thm v.w.oc.mtx && admits h.thg v.w.oc.gat && admits h.ths v.w.oc.st
  | .wait => false
  | _ => true

/-- R67; a wave starts no clause while its block, or its group, is to be saved (R71, R81). -/
def eligible (s : State) (v : View) : Bool :=
  v.b.life == .running && holdsQuantum s v.g.asid && !escalating s v.w.blk && !v.w.ended && !v.w.stop && v.w.clause.isNone && v.w.poll.isNone &&
    v.w.parked.isNone && v.w.yieldLeft.isNone && thresholdsHold s v

/-! ### Choosing (R68) -/

/-- The eligible waves of a core. -/
def eligibleOn (s : State) (core : Nat) : List View :=
  s.waves.filterMap (fun e => match viewOf s e.1 with | some v => if v.b.core = some core ∧ eligible s v then some v else none | none => none)

/-- A wave eligible for 2,048 cycles without being chosen (R68). -/
def agedWave (w : Wave) : Bool := w.aged || decide (2048 ≤ w.age)

/-- R68: an aged wave first, the oldest such; then priority class, back-off level, the waves that gave way last, the longest eligible; then the lower key (DESIGN CHOICE, log 2). -/
def before (a b : View) : Bool :=
  if agedWave a.w != agedWave b.w then agedWave a.w
  else if agedWave a.w then decide (b.w.age < a.w.age)
  else if a.g.d.prio ≠ b.g.d.prio then decide (a.g.d.prio < b.g.d.prio)
  else if a.w.backoff ≠ b.w.backoff then decide (a.w.backoff < b.w.backoff)
  else if a.w.behind != b.w.behind then b.w.behind
  else decide (b.w.age < a.w.age)

/-- The wave a core chooses next. -/
def chosen (s : State) (core : Nat) : Option View :=
  (eligibleOn s core).foldl (fun best v => match best with | some u => if before v u then some v else some u | none => some v) none

/-- A fetch whose data arrived uncorrectable (R283, R295). -/
def spoilFetch (bad : Bool) (x : Fetch) : Fetch :=
  match bad, x with
  | true, .ok _ _ => .fail 10 0
  | true, .illegal _ _ => .fail 10 0
  | _, x => x

/-- CLAUSE_START (R21, R22, R24, R68): the core's next clause is chosen, fetched, decoded whole, and started; an illegal one faults and none of its words takes effect; what was fetched may be uncorrectable. -/
def execClauseStart (core : Acting) (s : State) : Result :=
  match chosen s core.key with
  | none => .next s
  | some v =>
    let here : WordInfo := { pc := v.w.pc, ix := 0x1F, iter := 0, opc := 0 }
    match spoilFetch core.failed (fetchClause s v) with
    | .wait => .next s
    | .fail cause det => .next (faultAt v.key here { cause := cause, det := det, addr := v.w.pc.toNat } (noteFetch v s))
    | .illegal ix opc => .next (faultAt v.key { here with ix := ix, opc := opc } illegalSpec (noteFetch v s))
    | .ok h words =>
      .next (recordAccess v.g.asid (rootOf v.c) false (ptrAddr v.w.pc.toNat) (8 * (words.length + 1))
        (modWave v.key (fun w => { w with clause := some { words := words, idx := 0, y := h.y, rpt := none, yld := none }, age := 0, aged := false, behind := false, held := false }) s))

/-- ELIGIBILITY_AGE_EXPIRY (R68): eligible for 2,048 cycles without being chosen. -/
def execEligibilityAgeExpiry (wave : Nat) (s : State) : Result :=
  match viewOf s wave with
  | none => .next s
  | some v => if eligible s v ∧ 2048 ≤ v.w.age then .next (putWave wave { v.w with aged := true } s) else .next s

/-- YIELD_EXPIRY (R98): the wave's cycles are over. -/
def execYieldExpiry (wave : Nat) (s : State) : Result :=
  match mget s.waves wave with
  | none => .next s
  | some w => if w.yieldLeft = some 0 then .next (putWave wave { w with yieldLeft := none } s) else .next s

/-! ### Time -/

/-- Cycles pass for a wave on its core: its waits run down, and it ages while it is eligible; cycles outside its context's quanta do not count (R68). DESIGN CHOICE (log 41): a saved wave's waits stand still, and a YIELD begins anew when its block is restored (R81). -/
def passWave (s : State) (cycles : Nat) (key : Nat) (w : Wave) : Wave :=
  match viewOf s key with
  | none => w
  | some v =>
    if v.b.life ≠ .running then w
    else
      let w1 := { w with poll := w.poll.map (fun p => { p with left := p.left - cycles }), yieldLeft := w.yieldLeft.map (fun n => n - cycles) }
      if ¬ holdsQuantum s v.g.asid then w1
      else if eligible s v then { w1 with age := w.age + cycles }
      else { w1 with age := 0 }

/-- The 32-bit word of a ring's control block at an offset (R322). -/
def ringLow (c : Ctx) (ctl off : Nat) : Nat := field (syncWord c (ctl + off)).toNat 0 32

/-- Some member's SENT exceeds AREV, as far as this package sees: its own; that of the member before it, which has sent what is received; or what the ring has brought of the others (R324). -/
def sentAhead (c : Ctx) (ctl : Nat) (r : Ring) : Bool :=
  decide (ringLow c ctl 0x18 < ringLow c ctl 0) || decide (ringLow c ctl 0x18 < ringLow c ctl 0x10) || decide (ringLow c ctl 0x18 < r.theirs)

/-- Ticks pass for a ring: while no SENT exceeds AREV it has not begun to stall (R324). -/
def passRing (now : Nat) (c : Ctx) (ctl : Nat) (r : Ring) : Ring := if sentAhead c ctl r then r else { r with since := now }

/-- Time passes: the waits of waves and rings run down, nothing else changes. -/
def passTime (cycles ticks : Nat) (s : State) : State :=
  let now := s.time.ticks + BitVec.ofNat 64 ticks
  { s with
    time := { cycle := s.time.cycle + cycles, ticks := now }
    ctxs := s.ctxs.map (fun e => (e.1, { e.2 with rings := e.2.rings.map (fun r => (r.1, passRing now.toNat e.2 r.1 r.2)) }))
    waves := s.waves.map (fun e => (e.1, passWave s cycles e.1 e.2)) }

/-! ### Issuing -/

/-- An acquire whose data comes from the far side has not arrived: no younger access goes ahead of it (R134, R138). -/
def acquiring (w : Wave) : Bool := w.returns.any (fun r => r.acq && !r.far.isEmpty)

/-- The wave issues words now: its clause is started, it is not held in Quern, its block runs on a core (R22, R25), no acquire of it is outstanding on the far side, and it does not stand at a word at which a save has stopped it (R81); a wave of an ending block goes on to its clause boundary all the same (R114). -/
def mayIssue (s : State) (key : Nat) : Bool :=
  match viewOf s key with
  | none => false
  | some v =>
    v.w.clause.isSome && !v.w.ended && v.w.poll.isNone && v.w.parked.isNone && v.b.life == .running &&
      !acquiring v.w && !(v.w.held && !v.w.stop && saveDue s v.w.blk)

/-- The next move: the first the state lists, or the free one (log 2). -/
def nextMove (s : State) : Move × State :=
  match s.sched.moves with
  | m :: rest => (m, { s with sched := { s.sched with moves := rest, freeNo := s.sched.freeNo + 1 } })
  | [] => (Config.freeMove s.sched.moveNo, { s with sched := { s.sched with moveNo := s.sched.moveNo + 1, freeNo := s.sched.freeNo + 1 } })

/-- The state in which a wave's word is issued. -/
def issuing (key : Nat) (s : State) : State := { s with sched := { s.sched with cur := some key } }

/-- The inputs that a frozen package still answers (R317): scan, reset and firmware image recovery through the management port (R296). -/
def answersFrozen : Instr → Bool
  | .scanRead _ _ _ _ => true
  | .packageReset => true
  | .firmwareImage _ => true
  | _ => false

/-- BAR accesses, which a frozen package completes with Completer Abort (R317): a write of a register, of BRKCTL or FIRE, of the command register, or of a table. -/
def abortsFrozen : Instr → Bool
  | .bar2Access _ _ _ _ => true
  | .registerWrite (.firmware _) _ _ => false
  | .registerWrite _ _ _ => true
  | .launchTailWrite _ _ => true
  | .completionHeadWrite _ _ => true
  | .partitionTableWrite _ _ _ => true
  | .quantumTableWrite _ _ _ => true
  | .brk => true
  | .fire => true
  | .load _ => true
  | .inval _ => true
  | .teardown _ => true
  | .grant _ => true
  | .erase _ => true
  | .ring _ => true
  | .reclog _ => true
  | .pfUnassigned _ _ => true
  | _ => false

end Sys2Proof.Machine
end

