-- ==== Sys2Proof/Machine/Control.lean ====
section
/-! DEFINITION. Control transfers (R86 to R89), the repeat (R43, R44) and the system instructions (R107 to R114). -/
namespace Sys2Proof.Machine

/-! ### Control transfers (R86 to R89) -/

/-- The target of the OFF forms: H + 8 × OFF, OFF sign-extended (R87). -/
def offTarget (w : Wave) (off : BitVec 28) : Word64 := w.pc + BitVec.ofInt 64 (8 * off.toInt)

/-- The PC after a transfer: its target when it is taken, else NEXT (R87). -/
def transferTo (w : Wave) (taken : Bool) (target : Word64) : Wave := endClause (if taken then target else nextHeader w) w

/-- A transfer that reads the operand A and changes no register: taken says whether it is taken, from the guard mask and the wave (R88). -/
def branch (j : JW) (taken : Word32 → Wave → Bool) (s : State) : Result :=
  word j.guard [{ o := j.a }] [] (fun key w m t => .next (putWave key (transferTo w (taken m w) (offTarget w j.off)) t)) s

/-- The k register that BANY, BALL and BNONE test. -/
def branchMask (w : Wave) (o : Operand) : Word32 := BitVec.ofNat 32 (condValue w o)

/-- A transfer to the address in the register A; low bits that are not zero fault, naming the transfer (R87). -/
def jump (j : JW) (s : State) : Result :=
  word j.guard [{ o := j.a }] [] (fun key w _ t =>
    let a : Word64 := rawOp w none false j.a 0
    if a.extractLsb' 0 3 ≠ 0 then illegalWord w t else .next (putWave key (endClause a w) t)) s

def execNop (j : JW) (s : State) : Result := branch j (fun _ _ => false) s
def execBra (j : JW) (s : State) : Result := branch j (fun _ _ => true) s
def execBz (j : JW) (s : State) : Result := branch j (fun _ w => condValue w j.a == 0) s
def execBnz (j : JW) (s : State) : Result := branch j (fun _ w => condValue w j.a != 0) s
def execBany (j : JW) (s : State) : Result := branch j (fun m w => branchMask w j.a &&& m != 0) s
def execBall (j : JW) (s : State) : Result := branch j (fun m w => branchMask w j.a &&& m == m) s
def execBnone (j : JW) (s : State) : Result := branch j (fun m w => branchMask w j.a &&& m == 0) s

/-- The number of an s operand. -/
def sNum : Operand → Nat
  | .s n => n.toNat
  | _ => 0

def execLoop (j : JW) (s : State) : Result :=
  word j.guard [{ o := j.a }] [(j.a, 1)] (fun key w _ t =>
    let x := sReg w (sNum j.a) - 1
    .next (putWave key (transferTo (setS w (sNum j.a) x) (x != 0) (offTarget w j.off)) t)) s

def execCall (j : JW) (s : State) : Result :=
  word j.guard [] [(j.a, 1)] (fun key w _ t =>
    .next (putWave key (transferTo (setS w (sNum j.a) (nextHeader w)) true (offTarget w j.off)) t)) s

def execRet (j : JW) (s : State) : Result := jump j s
def execJmpi (j : JW) (s : State) : Result := jump j s

/-- END: the wave retires (R89); the waves that are left may all hold at a PHASE now (R56). -/
def execEndWave (j : JW) (s : State) : Result :=
  word j.guard [] [] (fun key w _ t => .next (checkPhases w.blk (retireWave key (putWave key (advance w) t)))) s

/-! ### Repeat (R43, R44) -/

/-- Pass over the word a repeat of 0 iterations would repeat, and its literal. -/
def skipRepeated (w : Wave) : Wave := stepOver (stepOver w)

/-- Begin a repeat of n iterations of the next word: the range check comes before any iteration (R44). -/
def beginRepeat (key : Nat) (w : Wave) (c : Clause) (n : Nat) (st : Steps) (s : State) : Result :=
  if n = 0 then .next (putWave key (skipRepeated w) s)
  else
    match nextWord c with
    | none => illegalWord w s
    | some raw =>
      match decodeWord raw (c.words[c.idx + 2]?) with
      | .error _ => illegalWord w s
      | .ok i =>
        if stepsInFile w.allot n st i then
          .next (putWave key { w with clause := some { c with idx := c.idx + 1, rpt := some { count := n, iter := 0, steps := st } }, again := 0, noE := false, arv := false } s)
        else illegalWord w s

/-- RPT carries no guard; its count is given or read once from a register. -/
def repeatWord (srcs : List Src) (n : Wave → Nat) (st : Steps) (s : State) : Result :=
  word { g := 0, gn := false } srcs [] (fun key w _ t =>
    match w.clause with
    | none => .fault .noIssuingWave
    | some c => if n w > 64 then illegalWord w t else beginRepeat key w c (n w) st t) s

def execRpt (n : BitVec 6) (steps : Steps) (s : State) : Result := repeatWord [] (fun _ => n.toNat + 1) steps s
def execRptRegister (creg : BitVec 6) (steps : Steps) (s : State) : Result :=
  repeatWord [{ o := .s creg }] (fun w => (sReg w creg.toNat).toNat) steps s

/-! ### System registers (R107, R108, R111) -/

/-- The value of a system register (R107). -/
def sysReg (v : View) (n : Nat) : Word64 :=
  match n with
  | 0 => BitVec.ofNat 64 (v.b.core.getD 0)
  | 1 => BitVec.ofNat 64 (v.c.ent.part * 2 ^ 12 + v.g.asid)
  | 2 => v.w.phaseVal
  | 3 => if v.g.d.kind = 1 then BitVec.ofNat 64 (16 + (if v.b.sd then 8 else 0) + v.b.rl) else 0
  | 4 => v.w.trapVec
  | 5 => if v.w.trapSt then 1 else 0
  | 6 => BitVec.ofNat 64 v.w.backoff
  | _ => v.w.tierMiss

/-- A word that writes one s register from its wave, block, grid and context. -/
def readWord (y : YW) (f : View → Word64) (s : State) : Result :=
  viewWord y.guard [] [(y.d, 1)] (fun v _ t => .next (putWave v.key (advance (setS v.w (sNum y.d) (f v))) t)) s

def execSysr (y : YW) (s : State) : Result := readWord y (fun v => sysReg v y.imm.toNat) s

/-- The source B of a Y word. -/
def srcYB (y : YW) : Src := { o := y.b, e := y.eb }
def srcYA (y : YW) : Src := { o := y.a, e := y.ea }
/-- A whole 64-bit source of a Y word (R90). -/
def valYA (y : YW) (w : Wave) : Word64 := rawOp w y.lit false y.a 0
def valYB (y : YW) (w : Wave) : Word64 := rawOp w y.lit false y.b 0

/-- SYSW (R107): trap.vec takes a header address, whose low bits are zero; tier.miss takes any value. -/
def execSysw (y : YW) (s : State) : Result :=
  word y.guard [srcYB y] [] (fun key w _ t =>
    let x := valYB y w
    if y.imm = 4 then
      if x.extractLsb' 0 3 ≠ 0 then illegalWord w t else .next (putWave key (advance { w with trapVec := x }) t)
    else .next (putWave key (advance { w with tierMiss := x }) t)) s

def execTicks (y : YW) (s : State) : Result :=
  word y.guard [] [(y.d, 1)] (fun key w _ t => .next (putWave key (advance (setS w (sNum y.d) t.time.ticks)) t)) s

/-- Word i of the trap record (R111). -/
def TrapRec.word (r : TrapRec) (i : Nat) : Word64 :=
  match i with
  | 0 => r.w0
  | 1 => r.w1
  | 2 => r.w2
  | 3 => r.w3
  | 4 => r.w4
  | _ => r.w5

def execFaultrd (y : YW) (s : State) : Result :=
  word y.guard [] [(y.d, 1)] (fun key w _ t => .next (putWave key (advance (setS w (sNum y.d) (w.trec.word y.imm.toNat))) t)) s

/-! ### Soft traps on purpose (R112, R113) -/

def execTrap (y : YW) (s : State) : Result :=
  word y.guard [] [] (fun key w m t =>
    raiseTrap key w { cause := 6, imm := y.imm.toNat, lanes := m } (fun _ u => done key u) t) s

/-- BKPT also counts in the breakpoint counter (R112). -/
def execBkpt (y : YW) (s : State) : Result :=
  word y.guard [] [] (fun key w m t =>
    let w1 := { w with bkpts := w.bkpts + 1 }
    raiseTrap key w1 { cause := 7, imm := y.imm.toNat, lanes := m } (fun _ u => done key u) (putWave key w1 t)) s

def execTret (y : YW) (s : State) : Result :=
  word y.guard [] [] (fun key w _ t =>
    match w.trapSt, w.resume with
    | true, some r => .next (putWave key (trapReturn y.imm.toNat r w) t)
    | _, _ => illegalWord w t) s

/-! ### Ending early (R114) -/

def execKill (y : YW) (s : State) : Result :=
  word y.guard [] [] (fun key w _ t => done key (killBlock w.blk t)) s

def execKillGrid (y : YW) (s : State) : Result :=
  viewWord y.guard [] [] (fun v _ t => done v.key (endGrid v.b.gid (some v.b.num) (killBlock v.w.blk t))) s

end Sys2Proof.Machine
end

