-- ==== Sys2Proof/Machine/Integer.lean ====
section
/-! DEFINITION. Integer and logic instructions, opcodes 0x00 to 0x1D (R203 to R211, R220): a value function for each, and its meaning over the operands at the width of its type. -/
namespace Sys2Proof.Machine

/-! ### Shared shapes of format X words -/

/-- Registers an operand names: a v pair where the value is 64 bits wide (R38). -/
def regsOf (wide : Bool) (o : Operand) : Nat :=
  match o with
  | .v _ => if wide then 2 else 1
  | _ => 1

/-- A type of 64 bits. -/
def wideTy (t : Ty) : Bool := t.width == 64

def srcA (x : XW) (wide : Bool) : Src := { o := x.a, n := regsOf wide x.a, e := x.ea }
def srcB (x : XW) (wide : Bool) : Src := { o := x.b, n := regsOf wide x.b, e := x.eb }
def srcC (x : XW) (wide : Bool) : Src := { o := x.c, n := regsOf wide x.c, e := x.ec }
def dstD (x : XW) (wide : Bool) : Operand × Nat := (x.d, regsOf wide x.d)

/-- Values of A, B and C at the operation's type in lane i (R38). -/
def valA (x : XW) (w : Wave) (i : Nat) : Nat := tyOp w x.lit x.t x.a i
def valB (x : XW) (w : Wave) (i : Nat) : Nat := tyOp w x.lit x.t x.b i
def valC (x : XW) (w : Wave) (i : Nat) : Nat := tyOp w x.lit x.t x.c i

/-- A word of three sources at one type, writing f of them in each lane (R39). -/
def xWord (x : XW) (f : Wave → Nat → Nat) : State → Result :=
  regWord x.guard [srcA x (wideTy x.t), srcB x (wideTy x.t), srcC x (wideTy x.t)] [dstD x (wideTy x.t)]
    (fun m w => putLanes x.t x.d m (f w) w)

def xUn (x : XW) (f : Nat → Nat) : State → Result := xWord x (fun w i => f (valA x w i))
def xBin (x : XW) (f : Nat → Nat → Nat) : State → Result := xWord x (fun w i => f (valA x w i) (valB x w i))
def xTern (x : XW) (f : Nat → Nat → Nat → Nat) : State → Result :=
  xWord x (fun w i => f (valA x w i) (valB x w i) (valC x w i))

/-! ### Values (R205 to R211) -/

/-- A pattern as the integer it stands for in a type (R176). -/
def intVal (t : Ty) (x : Nat) : Int := if t.signed then toSigned t.width x else (x % 2 ^ t.width : Nat)

/-- The least and greatest integers of a type. -/
def tyMin (t : Ty) : Int := if t.signed then -(2 ^ (t.width - 1) : Nat) else 0
def tyMax (t : Ty) : Int := if t.signed then (2 ^ (t.width - 1) : Nat) - 1 else (2 ^ t.width : Nat) - 1

def addVal (t : Ty) (a b : Nat) : Nat := (a + b) % 2 ^ t.width
def subVal (t : Ty) (a b : Nat) : Nat := ofSigned t.width ((a : Int) - b)
def addsVal (t : Ty) (a b : Nat) : Nat := ofSigned t.width (clampInt (tyMin t) (tyMax t) (intVal t a + intVal t b))
def subsVal (t : Ty) (a b : Nat) : Nat := ofSigned t.width (clampInt (tyMin t) (tyMax t) (intVal t a - intVal t b))
def mulVal (t : Ty) (a b : Nat) : Nat := a * b % 2 ^ t.width
def mulhVal (t : Ty) (a b : Nat) : Nat := ofSigned t.width (intVal t a * intVal t b / (2 ^ t.width : Nat))
def madVal (t : Ty) (a b c : Nat) : Nat := (a * b + c) % 2 ^ t.width
def absVal (t : Ty) (a : Nat) : Nat := (intVal t a).natAbs % 2 ^ t.width
def minVal (t : Ty) (a b : Nat) : Nat := if intVal t a ≤ intVal t b then a else b
def maxVal (t : Ty) (a b : Nat) : Nat := if intVal t a ≤ intVal t b then b else a
def andnVal (t : Ty) (a b : Nat) : Nat := a &&& (2 ^ t.width - 1 - b % 2 ^ t.width)

/-- Shift counts of the width or more (R206). -/
def shlVal (t : Ty) (a c : Nat) : Nat := if c ≥ t.width then 0 else a * 2 ^ c % 2 ^ t.width
def shrVal (t : Ty) (a c : Nat) : Nat := if c ≥ t.width then 0 else a % 2 ^ t.width / 2 ^ c
def sarVal (t : Ty) (a c : Nat) : Nat := ofSigned t.width (toSigned t.width a / (2 ^ (min c t.width) : Nat))
def rolVal (t : Ty) (a c : Nat) : Nat :=
  let n := c % t.width
  (a * 2 ^ n + a % 2 ^ t.width / 2 ^ (t.width - n)) % 2 ^ t.width

def clzVal (t : Ty) (a : Nat) : Nat := if a % 2 ^ t.width = 0 then t.width else t.width - 1 - Nat.log2 (a % 2 ^ t.width)
def popcVal (t : Ty) (a : Nat) : Nat := ((List.range t.width).filter (fun j => a.testBit j)).length
def brevVal (t : Ty) (a : Nat) : Nat :=
  (List.range t.width).foldl (fun r j => if a.testBit j then r + 2 ^ (t.width - 1 - j) else r) 0

/-- n' of R207. -/
def fieldLen (t : Ty) (p n : Nat) : Nat := if p < t.width then min n (t.width - p) else 0
def bfxVal (t : Ty) (a p n : Nat) : Nat :=
  let n1 := fieldLen t p n
  if n1 = 0 then 0
  else if t.signed then signExt n1 t.width (field a p n1) else field a p n1
def bfiVal (t : Ty) (d a p n : Nat) : Nat :=
  let n1 := fieldLen t p n
  if n1 = 0 then d else d - field d p n1 * 2 ^ p + field a 0 n1 * 2 ^ p

/-- LEA (R209): bits [59:0] move, the tag stays. -/
def leaVal (a x sh : Nat) : Nat := (a % 2 ^ 60 + x * 2 ^ sh) % 2 ^ 60 + a / 2 ^ 60 * 2 ^ 60

/-- PADD (R210), element by element. -/
def paddElem (t : Ty) (op : Nat) (a b : Nat) : Nat :=
  let x := if op < 2 then intVal t a + intVal t b else intVal t a - intVal t b
  ofSigned t.width (if op % 2 = 1 then clampInt (tyMin t) (tyMax t) x else x)
def paddVal (t : Ty) (op a b : Nat) : Nat :=
  (List.range (32 / t.width)).foldl
    (fun r j => r + paddElem t op (field a (j * t.width) t.width) (field b (j * t.width) t.width) * 2 ^ (j * t.width)) 0

def divuVal (t : Ty) (a b : Nat) : Nat := if b = 0 then 2 ^ t.width - 1 else a / b
def remuVal (a b : Nat) : Nat := if b = 0 then a else a % b

/-- HMIX (R211). -/
def hmixVal (a b : Nat) : Nat := (hmix (BitVec.ofNat 64 a) (BitVec.ofNat 64 b)).toNat

/-! ### Meanings -/

def execAdd (x : XW) (s : State) : Result := xBin x (addVal x.t) s
def execSub (x : XW) (s : State) : Result := xBin x (subVal x.t) s
def execAdds (x : XW) (s : State) : Result := xBin x (addsVal x.t) s
def execSubs (x : XW) (s : State) : Result := xBin x (subsVal x.t) s
def execMul (x : XW) (s : State) : Result := xBin x (mulVal x.t) s
def execMulh (x : XW) (s : State) : Result := xBin x (mulhVal x.t) s
def execMad (x : XW) (s : State) : Result := xTern x (madVal x.t) s
def execAbs (x : XW) (s : State) : Result := xUn x (absVal x.t) s
def execMin (x : XW) (s : State) : Result := xBin x (minVal x.t) s
def execMax (x : XW) (s : State) : Result := xBin x (maxVal x.t) s
def execAnd (x : XW) (s : State) : Result := xBin x (fun a b => a &&& b) s
def execOr (x : XW) (s : State) : Result := xBin x (fun a b => a ||| b) s
def execXor (x : XW) (s : State) : Result := xBin x (fun a b => a ^^^ b) s
def execAndn (x : XW) (s : State) : Result := xBin x (andnVal x.t) s

/-- The width of a count, position or length (R206). -/
def countWidth (t : Ty) : Nat := if t.width = 64 then 64 else 32
/-- B or C read as a count (R206, R207). -/
def countB (x : XW) (w : Wave) (i : Nat) : Nat := intOp w x.lit (countWidth x.t) x.b i
def countC (x : XW) (w : Wave) (i : Nat) : Nat := intOp w x.lit (countWidth x.t) x.c i

def xShift (x : XW) (f : Nat → Nat → Nat) : State → Result := xWord x (fun w i => f (valA x w i) (countB x w i))
def execShl (x : XW) (s : State) : Result := xShift x (shlVal x.t) s
def execShr (x : XW) (s : State) : Result := xShift x (shrVal x.t) s
def execSar (x : XW) (s : State) : Result := xShift x (sarVal x.t) s
def execRol (x : XW) (s : State) : Result := xShift x (rolVal x.t) s
def execClz (x : XW) (s : State) : Result := xUn x (clzVal x.t) s
def execPopc (x : XW) (s : State) : Result := xUn x (popcVal x.t) s
def execBrev (x : XW) (s : State) : Result := xUn x (brevVal x.t) s

def execBfx (x : XW) (s : State) : Result :=
  xWord x (fun w i => bfxVal x.t (valA x w i) (countB x w i) (countC x w i)) s

/-- BFI reads D before it writes it (R204, R207). DESIGN CHOICE (log 56): BFI.b32 into an s register extends its 32-bit result with zeros, as R38 does for every word, also where R207 leaves D unchanged. -/
def execBfi (x : XW) (s : State) : Result :=
  xWord x (fun w i => bfiVal x.t (tyOp w x.lit x.t x.d i) (valA x w i) (countB x w i) (countC x w i)) s

/-- The 32 bits that a uniform A gives a k register: its bits [31:0] as they stand; an inline integer or a constant in a floating type has its value there (R30, R208). DEDUCED (log 12): an inline integer in another type is sign-extended to all 32 bits, whatever the type's width. -/
def maskBits (x : XW) (w : Wave) : Word32 :=
  match x.t.isFloat, x.a with
  | true, .int _ => BitVec.ofNat 32 (valA x w 0)
  | true, .fc _ => BitVec.ofNat 32 (valA x w 0)
  | _, o => (rawOp w x.lit false o 0).setWidth 32

/-- What lane i of a MOV into a k register receives (R208): bit i of A as the lane reads it. DEDUCED (log 12): of a v register in a type narrower than 32 bits the lane reads the low bits as R38 extends them, so the bits above the type's width are not the register's. -/
def movBit (x : XW) (w : Wave) (i : Nat) : Bool :=
  if x.a.perLane then (if x.t.width = 64 then (valA x w i).testBit i else (toV x.t (valA x w i)).getLsbD i)
  else (maskBits x w).getLsbD i

/-- MOV (R208). -/
def execMov (x : XW) (s : State) : Result :=
  match x.d with
  | .k n =>
    regWord x.guard [srcA x (wideTy x.t)] [(x.d, 1)]
      (fun m w => putK n m (maskOf (movBit x w)) w) s
  | _ => xUn x (fun a => a) s

/-- LEA (R209): a 64-bit result, A a pointer, B at the width of its type. -/
def execLea (x : XW) (s : State) : Result :=
  regWord x.guard [srcA x true, srcB x (wideTy x.t)] [dstD x true]
    (fun m w => putLanes .u64 x.d m (fun i =>
      let idx := intVal x.t (valB x w i)
      leaVal (intOp w x.lit 64 x.a i) (ofSigned 64 idx) (rawOp w x.lit false x.c i).toNat) w) s

/-- PADD (R210): 32-bit sources and one 32-bit result, whatever T is. -/
def execPadd (x : XW) (s : State) : Result :=
  regWord x.guard [srcA x false, srcB x false] [dstD x false]
    (fun m w => putLanes .u32 x.d m (fun i => paddVal x.t x.sub.toNat (intOp w x.lit 32 x.a i) (intOp w x.lit 32 x.b i)) w) s

def execDivu (x : XW) (s : State) : Result := xBin x (divuVal x.t) s
def execRemu (x : XW) (s : State) : Result := xBin x remuVal s

/-- SEL's condition in lane i (R208). -/
def selCond (x : XW) (w : Wave) (i : Nat) : Bool :=
  match x.c, x.d with
  | .k n, .v _ => (kReg w n.toNat).getLsbD i
  | .k n, _ => kReg w n.toNat != 0
  | .s n, _ => sReg w n.toNat != 0
  | _, _ => false

def execSel (x : XW) (s : State) : Result :=
  xWord x (fun w i => if selCond x w i then valA x w i else valB x w i) s

def execHmix (x : XW) (s : State) : Result := xBin x hmixVal s

end Sys2Proof.Machine
end

