-- ==== Sys2Proof/Machine/FloatOps.lean ====
section
/-! DEFINITION. Floating-point instructions and conversion (R212 to R216, R178, R188); the iterative functions stand in Iterative.lean. -/
namespace Sys2Proof.Machine

/-- A pattern as its value in a floating type. -/
def fVal (t : Ty) (x : Nat) : FVal := fDecode (fmtOf t) x
/-- A value rounded once to a type (R177, R188). -/
def fPut (t : Ty) (mode : RMode) (v : FVal) : Nat := fEncode (fmtOf t) mode false v

def faddVal (t : Ty) (mode : RMode) (a b : Nat) : Nat := fPut t mode (fAdd mode (fVal t a) (fVal t b))
def fsubVal (t : Ty) (mode : RMode) (a b : Nat) : Nat := fPut t mode (fAdd mode (fVal t a) (fVal t b).neg)
def fmulVal (t : Ty) (mode : RMode) (a b : Nat) : Nat := fPut t mode (fMul (fVal t a) (fVal t b))
def fmaVal (t : Ty) (mode : RMode) (a b c : Nat) : Nat := fPut t mode (fAdd mode (fMul (fVal t a) (fVal t b)) (fVal t c))
def fminVal (t : Ty) (a b : Nat) : Nat := fPut t 0 (fMinV (fVal t a) (fVal t b))
def fmaxVal (t : Ty) (a b : Nat) : Nat := fPut t 0 (fMaxV (fVal t a) (fVal t b))

/-- FABS and FNEG (R213): a NaN gives the canonical NaN. -/
def fabsVal (t : Ty) (a : Nat) : Nat :=
  match fVal t a with
  | .nan => fNan (fmtOf t)
  | .inf _ => fInf (fmtOf t) false
  | .fin _ m e => fEncode (fmtOf t) 0 false (.fin false m e)
def fnegVal (t : Ty) (a : Nat) : Nat := fPut t 0 (fVal t a).neg

/-- FRND (R213): the integral value; zero keeps A's sign. -/
def frndVal (t : Ty) (mode : RMode) (a : Nat) : Nat :=
  match fVal t a with
  | .fin neg m e => if 0 ≤ e then fPut t 0 (.fin neg m e) else fPut t 0 (.fin neg (roundUnits mode neg m e 0 false) 0)
  | v => fPut t 0 v

/-- FSQRT (R212): √−0 is −0, and any A below −0 gives NaN. -/
def fsqrtVal (t : Ty) (mode : RMode) (a : Nat) : Nat :=
  match fVal t a with
  | .nan => fNan (fmtOf t)
  | .inf neg => if neg then fNan (fmtOf t) else fInf (fmtOf t) false
  | .fin neg m e =>
    if m = 0 then fPut t 0 (.fin neg 0 0)
    else if neg then fNan (fmtOf t)
    else fSqrtBits (fmtOf t) mode m e

/-- FSCALE (R212): × 2^e, one rounding; NaN, infinity and zero keep their value. -/
def fscaleVal (t : Ty) (mode : RMode) (a : Nat) (e : Int) : Nat :=
  match fVal t a with
  | .fin neg m g => if m = 0 then fPut t 0 (.fin neg 0 0) else fPut t mode (.fin neg m (g + clampExp e))
  | v => fPut t 0 v

/-- FCLASS (R214). -/
def fclassVal (t : Ty) (a : Nat) : Nat :=
  let f := fmtOf t
  match fVal t a with
  | .nan => 2 ^ 8
  | .inf neg => if neg then 2 ^ 0 else 2 ^ 7
  | .fin neg m _ =>
    if m = 0 then (if neg then 2 ^ 3 else 2 ^ 4)
    else if field a f.fb f.eb = 0 then (if neg then 2 ^ 2 else 2 ^ 5)
    else if neg then 2 ^ 1 else 2 ^ 6

def execFadd (x : XW) (s : State) : Result := xBin x (faddVal x.t x.m.toNat) s
def execFsub (x : XW) (s : State) : Result := xBin x (fsubVal x.t x.m.toNat) s
def execFmul (x : XW) (s : State) : Result := xBin x (fmulVal x.t x.m.toNat) s
def execFma (x : XW) (s : State) : Result := xTern x (fmaVal x.t x.m.toNat) s
def execFmin (x : XW) (s : State) : Result := xBin x (fminVal x.t) s
def execFmax (x : XW) (s : State) : Result := xBin x (fmaxVal x.t) s
def execFabs (x : XW) (s : State) : Result := xUn x (fabsVal x.t) s
def execFneg (x : XW) (s : State) : Result := xUn x (fnegVal x.t) s
def execFrnd (x : XW) (s : State) : Result := xUn x (frndVal x.t x.m.toNat) s
def execFsqrt (x : XW) (s : State) : Result := xUn x (fsqrtVal x.t x.m.toNat) s

/-- FCLASS's class is zero-extended to the destination (R214). -/
def execFclass (x : XW) (s : State) : Result :=
  regWord x.guard [srcA x false] [dstD x false] (fun m w => putLanes .u32 x.d m (fun i => fclassVal x.t (valA x w i)) w) s

/-- FSCALE's exponent: bits [31:0] of a register, an inline integer or a literal, signed. R212 gives no value for an FP32 constant code: a free value, fixed by the code (R173; log 6). -/
def fscaleExp (x : XW) (w : Wave) (i : Nat) : Int :=
  match x.b with
  | .fc n => (Config.freeExponent n).toInt
  | o => toSigned 32 (intOp w x.lit 32 o i)

def execFscale (x : XW) (s : State) : Result :=
  regWord x.guard [srcA x false, srcB x false] [dstD x false]
    (fun m w => putLanes x.t x.d m (fun i => fscaleVal x.t x.m.toNat (valA x w i) (fscaleExp x w i)) w) s

/-! ### CVT (R178, R216) -/

/-- .b32 and .b64 are unsigned in CVT (R216). -/
def cvtInt (t : Ty) (x : Nat) : Int := intVal t x

/-- A value to an integer type: NaN gives 0, the rest saturates (R178). -/
def toIntTy (t : Ty) (mode : RMode) : FVal → Nat
  | .nan => 0
  | .inf neg => ofSigned t.width (if neg then tyMin t else tyMax t)
  | .fin neg m e => ofSigned t.width (clampInt (tyMin t) (tyMax t) (fToInt mode neg m e))

/-- CVT from type u to type t (R178, R216). -/
def cvtVal (u t : Ty) (mode : RMode) (sat : Bool) (a : Nat) : Nat :=
  match u.isFloat, t.isFloat with
  | true, true => if u = t then fEncode (fmtOf t) 0 false (fVal t a) else fEncode (fmtOf t) mode sat (fVal u a)
  | true, false => toIntTy t mode (fVal u a)
  | false, true =>
    let x := cvtInt u a
    fEncode (fmtOf t) mode sat (.fin (decide (x < 0)) x.natAbs 0)
  | false, false =>
    if sat then ofSigned t.width (clampInt (tyMin t) (tyMax t) (cvtInt u a)) else ofSigned t.width (cvtInt u a)

def execCvt (x : XW) (s : State) : Result :=
  regWord x.guard [srcA x (wideTy x.srcTy)] [dstD x (wideTy x.t)]
    (fun m w => putLanes x.t x.d m (fun i => cvtVal x.srcTy x.t (x.m.toNat % 4) (x.m.getLsbD 2) (tyOp w x.lit x.srcTy x.a i)) w) s

end Sys2Proof.Machine
end

