-- ==== Sys2Proof/Machine/Lanes.lean ====
section
/-! DEFINITION. Lane and mask instructions (R204, R217 to R222). A cross-lane word reads its v sources in all 32 lanes before it writes. -/
namespace Sys2Proof.Machine

/-- A v source of a cross-lane word: every lane is read (R204). -/
def srcAll (o : Operand) (wide e : Bool) : Src := { o := o, n := regsOf wide o, e := e, all := true }

/-- B of a cross-lane word: a v register is read in all 32 lanes (R204). -/
def srcLanesB (x : XW) (wide : Bool) : Src :=
  match x.b with
  | .v _ => srcAll x.b wide x.eb
  | _ => srcB x wide

/-- The source lane of SHFL (R217); a lane outside 0 to 31 gives the lane its own element. -/
def shflLane (op i b : Nat) : Nat :=
  match op with
  | 0 => b % 32
  | 1 => if b ≤ i then i - b else i
  | 2 => if i + b < 32 then i + b else i
  | _ => Nat.xor i (b % 32)

def execShfl (x : XW) (s : State) : Result :=
  regWord x.guard [srcAll x.a (wideTy x.t) x.ea, srcLanesB x (wideTy x.t)] [dstD x (wideTy x.t)]
    (fun m w => putLanes x.t x.d m (fun i => valA x w (shflLane x.sub.toNat i (valB x w i))) w) s

/-- SHFLX (R217): D from A and D + 1 from C, both of lane i XOR (B mod 32). -/
def execShflx (x : XW) (s : State) : Result :=
  regWord x.guard [srcAll x.a false x.ea, srcLanesB x false, srcAll x.c false x.ec] [(x.d, 2)]
    (fun m w =>
      match x.d with
      | .v n =>
        (lanesOf m).foldl (fun u i =>
          let j := Nat.xor i (valB x w i % 32)
          setV (setV u n.toNat i (BitVec.ofNat 32 (valA x w j))) (n.toNat + 1) i (BitVec.ofNat 32 (valC x w j))) w
      | _ => w) s

def execBcast (x : XW) (s : State) : Result :=
  regWord x.guard [srcAll x.a (wideTy x.t) x.ea, srcLanesB x (wideTy x.t)] [dstD x (wideTy x.t)]
    (fun m w => putLanes x.t x.d m (fun i => valA x w (valB x w i % 32)) w) s

/-! ### RED and SCAN (R218, R219) -/

/-- ⊕ of R218. -/
def redOp (t : Ty) (mode : RMode) (op a b : Nat) : Nat :=
  match op with
  | 0 => if t.isFloat then faddVal t mode a b else addVal t a b
  | 1 => if t.isFloat then fminVal t a b else minVal t a b
  | 2 => if t.isFloat then fmaxVal t a b else maxVal t a b
  | 3 => a &&& b
  | 4 => a ||| b
  | _ => a ^^^ b

/-- The identity of R218. -/
def redId (t : Ty) (op : Nat) : Nat :=
  match op with
  | 0 => if t.isFloat then signBit (fmtOf t) true else 0
  | 1 => if t.isFloat then fNan (fmtOf t) else ofSigned t.width (tyMax t)
  | 2 => if t.isFloat then fNan (fmtOf t) else ofSigned t.width (tyMin t)
  | 3 => 2 ^ t.width - 1
  | _ => 0

/-- One level of the fixed tree: neighbours combined. -/
def redLevel (f : Nat → Nat → Nat) : List Nat → List Nat
  | a :: b :: rest => f a b :: redLevel f rest
  | l => l

/-- The tree of R218 over 32 values. -/
def redTree (f : Nat → Nat → Nat) (xs : List Nat) : Nat :=
  (redLevel f (redLevel f (redLevel f (redLevel f (redLevel f xs))))).headD 0

/-- The lanes that take part, the others the identity (R218). -/
def redInput (x : XW) (op : Nat) (m : Word32) (w : Wave) : List Nat :=
  lanes32.map (fun i => if m.getLsbD i then valA x w i else redId x.t op)

def execRed (x : XW) (s : State) : Result :=
  regWord x.guard [srcAll x.a (wideTy x.t) x.ea] [dstD x (wideTy x.t)]
    (fun m w =>
      let r := redTree (redOp x.t x.m.toNat x.sub.toNat) (redInput x x.sub.toNat m w)
      putLanes x.t x.d m (fun _ => r) w) s

/-- Running combinations in lane order (R219). -/
def scanFrom (f : Nat → Nat → Nat) (acc : Nat) : List Nat → List Nat
  | [] => []
  | a :: rest => f acc a :: scanFrom f (f acc a) rest
def scanAll (f : Nat → Nat → Nat) : List Nat → List Nat
  | [] => []
  | a :: rest => a :: scanFrom f a rest

/-- A value of a type as an operation writes it: a NaN is canonical (R175). -/
def canonical (t : Ty) (a : Nat) : Nat := if t.isFloat ∧ (fVal t a).isNan then fNan (fmtOf t) else a

def execScan (x : XW) (s : State) : Result :=
  regWord x.guard [srcAll x.a (wideTy x.t) x.ea] [dstD x (wideTy x.t)]
    (fun m w =>
      let op := x.sub.toNat % 8
      let ys := (scanAll (redOp x.t x.m.toNat op) (redInput x op m w)).map (canonical x.t)
      let excl := decide (8 ≤ x.sub.toNat)
      putLanes x.t x.d m (fun i => if excl then (if i = 0 then redId x.t op else ys.getD (i - 1) 0) else ys.getD i 0) w) s

/-! ### PACK and UNPK (R220) -/

def packVal (op d a b : Nat) : Nat :=
  match op with
  | 0 => a % 2 ^ 16 + b % 2 ^ 16 * 2 ^ 16
  | 1 => a % 2 ^ 8 + b % 2 ^ 8 * 2 ^ 8 + field d 16 16 * 2 ^ 16
  | _ => d % 2 ^ 16 + (a % 2 ^ 8) * 2 ^ 16 + (b % 2 ^ 8) * 2 ^ 24

def unpkVal (t : Ty) (op a q : Nat) : Nat :=
  let n := (match op with | 0 => 16 | 1 => 8 | _ => 4)
  let f := field a (q % (32 / n) * n) n
  if t.signed then signExt n 32 f else f

def execPack (x : XW) (s : State) : Result :=
  xWord x (fun w i => packVal x.sub.toNat (tyOp w x.lit x.t x.d i) (valA x w i) (valB x w i)) s
def execUnpk (x : XW) (s : State) : Result := xBin x (unpkVal x.t x.sub.toNat) s

/-! ### Compares and masks (R221, R222) -/

/-- A word that writes one bit of a k register in each selected lane (R204). -/
def maskWord (x : XW) (f : Wave → Nat → Bool) : State → Result :=
  regWord x.guard [srcA x (wideTy x.t), srcB x (wideTy x.t)] [(x.d, 1)]
    (fun m w => match x.d with | .k n => putK n m (maskOf (f w)) w | _ => w)

def execCmp (x : XW) (s : State) : Result :=
  maskWord x (fun w i => cmpHolds x.sub.toNat (intVal x.t (valA x w i)) (intVal x.t (valB x w i))) s
def execFcmp (x : XW) (s : State) : Result :=
  maskWord x (fun w i => fcmpHolds x.sub.toNat (fVal x.t (valA x w i)) (fVal x.t (valB x w i))) s

/-- KOP's value (R222). -/
def kopVal (op : Nat) (a b : Word32) : Word32 :=
  match op with
  | 0 => a &&& b
  | 1 => a ||| b
  | 2 => a ^^^ b
  | 3 => a &&& ~~~b
  | 4 => ~~~a
  | _ => a

def execKop (x : XW) (s : State) : Result :=
  maskWord x (fun w i => (kopVal x.sub.toNat (BitVec.ofNat 32 (valA x w 0)) (BitVec.ofNat 32 (valB x w 0))).getLsbD i) s

/-- KSET (R222): a lane's value nonzero, or with a uniform source bit i of it. -/
def execKset (x : XW) (s : State) : Result :=
  maskWord x (fun w i => if x.a.perLane then valA x w i != 0 else (valA x w 0).testBit i) s

/-- The lanes KPOP and KFF1 count: selected, and their bit set, or their value nonzero for a v source (R222). -/
def countLanes (x : XW) (m : Word32) (w : Wave) : List Nat :=
  (lanesOf m).filter (fun i => match x.a with | .v _ => valA x w i != 0 | _ => (valA x w 0).testBit i)

/-- The source of KPOP and KFF1: a v source is read in every lane (R204). -/
def srcCount (x : XW) : Src :=
  match x.a with
  | .v _ => srcAll x.a false x.ea
  | _ => srcA x false

def execKpop (x : XW) (s : State) : Result :=
  regWord x.guard [srcCount x] [dstD x false] (fun m w => putLanes .u32 x.d m (fun _ => (countLanes x m w).length) w) s
def execKff1 (x : XW) (s : State) : Result :=
  regWord x.guard [srcCount x] [dstD x false] (fun m w => putLanes .u32 x.d m (fun _ => ((countLanes x m w).head?).getD 32) w) s

/-- KGET (R217): the named lane, selected or not. -/
def execKget (x : XW) (s : State) : Result :=
  regWord x.guard [srcAll x.a (wideTy x.t) x.ea, srcLanesB x (wideTy x.t)] [dstD x false]
    (fun m w => putLanes x.t x.d m (fun _ => valA x w (valB x w 0 % 32)) w) s

end Sys2Proof.Machine
end

