-- ==== Sys2Proof/Machine/Memory.lean ====
section
/-! DEFINITION. Memory instructions and the memory unit (R120, R122, R124, R125, R147 to R155, R158 to R160, R165 to R172): what a word checks and holds for when it issues, what the memory unit performs later, and how results return. -/
namespace Sys2Proof.Machine

/-! ### Lanes, pointers, data (R148, R149) -/

def isV : Operand → Bool
  | .v _ => true
  | _ => false

/-- A word is per-lane when a field names a v register (R149). -/
def memPerLane (m : MW) : Bool := isV m.d || isV m.a || isV m.b

/-- The lanes in which a word acts: the selected ones, or once, as lane 0. -/
def memLanes (m : MW) (mask : Word32) : List Nat := if memPerLane m then lanesOf mask else [0]

/-- Registers of a data operand of size code sz (R148). -/
def dataRegs (sz : BitVec 3) (o : Operand) : Nat :=
  match o with
  | .v _ => if sz = 3 then 2 else if sz = 4 then 4 else 1
  | .s _ => if sz = 4 then 2 else 1
  | _ => 1

/-- A pointer source: a v pair, or one even s register (R147). -/
def ptrSrc (m : MW) (o : Operand) : Src := { o := o, n := if isV o then 2 else 1, e := m.e }
def dataSrc (m : MW) (o : Operand) : Src := { o := o, n := dataRegs m.sz o, e := m.e }
def plainSrc (m : MW) (o : Operand) : Src := { o := o, e := m.e }

/-- A lane's 64-bit pointer. -/
def ptrVal (m : MW) (w : Wave) (o : Operand) (i : Nat) : Nat := (rawOp w m.lit true o i).toNat

/-- The address of lane i, tag included: p + sext(OFF) × size, modulo 2^64 (R149). -/
def laneAddr (m : MW) (w : Wave) (i : Nat) : Nat := ofSigned 64 ((ptrVal m w m.a i : Int) + m.off.toInt * sizeOf m.sz)

/-- The value in n registers from a v register, or a 64-bit value, lowest first. -/
def dataVal (m : MW) (w : Wave) (o : Operand) (i : Nat) : Nat :=
  match o with
  | .v r => (List.range (dataRegs m.sz o)).foldl (fun x j => x + (vReg w (r.toNat + j) i).toNat * 2 ^ (32 * j)) 0 % 2 ^ (8 * sizeOf m.sz)
  | .s r => ((sReg w r.toNat).toNat + (if m.sz = 4 then (sReg w (r.toNat + 1)).toNat * 2 ^ 64 else 0)) % 2 ^ (8 * sizeOf m.sz)
  | o => (rawOp w m.lit true o i).toNat % 2 ^ (8 * sizeOf m.sz)

/-- Write a loaded value of size bytes to n registers of a destination in one lane (R148). -/
def putData (d : Operand) (size : Nat) (sx : Bool) (i x : Nat) (w : Wave) : Wave :=
  match d with
  | .v r =>
    if size ≤ 4 then setV w r.toNat i (BitVec.ofNat 32 (if sx then signExt (8 * size) 32 x else x))
    else (List.range (size / 4)).foldl (fun u j => setV u (r.toNat + j) i (BitVec.ofNat 32 (field x (32 * j) 32))) w
  | .s r =>
    if size ≤ 8 then setS w r.toNat (BitVec.ofNat 64 (if sx then signExt (8 * size) 64 x else x))
    else setS (setS w r.toNat (BitVec.ofNat 64 x)) (r.toNat + 1) (BitVec.ofNat 64 (x / 2 ^ 64))
  | .k r => setK w r.toNat (BitVec.ofNat 32 x)
  | _ => w

/-- Registers a result of size bytes occupies. -/
def resultRegs (d : Operand) (size : Nat) : Nat :=
  match d with
  | .v _ => if size ≤ 4 then 1 else size / 4
  | .s _ => if size ≤ 8 then 1 else 2
  | _ => 1

/-- Deliver a result: its values are written and its destination is full (R40). -/
def deliverReturn (r : Return) (w : Wave) : Wave :=
  markFull r.dest (resultRegs r.dest r.size) (r.lanes.foldl (fun x l => x ||| (1 <<< l.1)) 0)
    (r.lanes.foldl (fun u l => putData r.dest r.size r.sx l.1 l.2 u) w)

/-! ### Checks in every lane (R116, R150, R279) -/

/-- The fault of a lane's failing check; cause 8 reports address 0 (R283). -/
def laneSpec (lane ptr cause det : Nat) : FaultSpec := { cause := cause, det := det, lane := lane, addr := if cause = 8 then 0 else ptr }

/-- The lowest failing lane, where any fails: lanes pair with their pointers, ascending. -/
def laneFault (chk : Nat → Chk) : List (Nat × Nat) → Option FaultSpec
  | [] => none
  | (i, p) :: rest => match chk p with | .fail c d => some (laneSpec i p c d) | _ => laneFault chk rest

/-- Some lane's translation is pending. -/
def lanePending (chk : Nat → Chk) (accs : List (Nat × Nat)) : Bool := accs.any (fun a => chk a.2 == .pending)

/-- Bits of the lanes in a list. -/
def laneMask (accs : List (Nat × Nat)) : Word32 := maskOf (fun i => accs.any (fun a => a.1 == i))

/-- Lanes whose bytes lie on an empty line of the A allocation (R120). -/
def emptyLineLanes (b : Block) (accs : List (Nat × Nat)) (n : Nat) : List (Nat × Nat) :=
  accs.filter (fun a => windowOf (ptrAddr a.2) == .a && anyEmptyLine b (ptrAddr a.2) n)

/-! ### What the memory queue hides from a load (R124, R125, R129, R131) -/

/-- The bytes an entry stores, with the place of each. -/
def piecesOf : MemOp → List Piece
  | .store ps => ps
  | .journal _ _ ps => ps
  | _ => []

/-- The byte an entry leaves at a place, the last of its pieces that covers it. -/
def entryByte (s : State) (v : View) (e : MqEntry) (p : Place) : Option Byte :=
  (piecesOf e.op).foldl (fun best q =>
    (List.range q.data.length).foldl (fun best j => if placeOf s v q.lane (q.addr + j) true = p then q.data[j]? else best) best) none

/-- The wave's newest store to a place, and whether it stands in the side log. -/
def forwardByte (s : State) (v : View) (p : Place) : Option (Byte × Bool) :=
  v.w.mq.foldl (fun best e => match entryByte s v e p with | some b => some (b, e.logged) | none => best) none

/-- The pages an access reaches on the far side (TIER 3 and 4, R122). -/
def farPlace : Place → Option Nat
  | .phys _ tier => if tier ≥ 3 then some tier else none
  | _ => none

/-- A tag write of the wave is outstanding (R168). -/
def tagsOut (w : Wave) : Bool := w.mq.any (fun e => match e.op with | .tagset _ => true | .tagRange _ _ _ => true | _ => false)

/-- A check fails at issue; a comparison of tags waits for the wave's own tag writes, which it is to be made against (R169). note: what the lanes that passed stage 4 leave in their leaves (R280); back: what the word leaves where it waits. -/
def issueFault (v : View) (f : FaultSpec) (note : State → State) (s : State) (back : State := s) : Result :=
  if f.cause = 1 ∧ tagsOut v.w then hold back else hardFault v.w f (note s)

/-- Lanes with their addresses, without the tags. -/
def addrsOf (accs : List (Nat × Nat)) : List (Nat × Nat) := accs.map (fun a => (a.1, ptrAddr a.2))

/-- A place outside the A buffer. -/
def Place.isPhys : Place → Bool
  | .phys _ _ => true
  | _ => false

/-- A place on the far side, or one that its pending mapping may yet put there. -/
def Place.mayBeFar : Place → Bool
  | .nowhere _ => true
  | p => (farPlace p).isSome

/-- A byte of a piece goes to the far side, or may go there. -/
def pieceFar (s : State) (v : View) (q : Piece) : Bool := (List.range q.data.length).any (fun j => (placeOf s v q.lane (q.addr + j) true).mayBeFar)

/-- An older operation of the wave that a load waits for: one that orders it (a returning atomic, an acquire), one whose effect cannot be forwarded (a tag write, a reduction on its bytes), or a store to the far side, a logged one whose page may prove to be there among them, before a far load (R125, R138, R165, R169). -/
def loadBlocked (s : State) (v : View) (ps : List Place) : Bool :=
  v.w.mq.any (fun e => (match e.op with
    | .lds _ _ => e.acq
    | .atom ret _ size _ lanes => ret || e.acq || lanes.any (fun l => (List.range size).any (fun j => ps.contains (placeOf s v l.lane (l.addr + j) true)))
    | .tagset _ => ps.any Place.isPhys
    | .tagRange _ _ _ => ps.any Place.isPhys
    | op => ps.any (fun p => (farPlace p).isSome) && (piecesOf op).any (pieceFar s v)))

/-- What a lane's load finds: bytes, or it waits (R124, R125). -/
def laneBytes (s : State) (v : View) (lane addr n : Nat) (pending : Bool) : Option (List Byte) :=
  let ps := (List.range n).map (fun j => placeOf s v lane (addr + j))
  let fs := ps.map (forwardByte s v)
  let isLogged := fun (f : Option (Byte × Bool)) => (match f with | some x => x.2 | none => false)
  if fs.any isLogged then (if fs.all isLogged then some (fs.map (fun f => (f.map Prod.fst).getD blankByte)) else none)
  else if pending then none
  else some ((ps.zip fs).map (fun x => match x.2 with | some f => f.1 | none => placeByte s v.w.blk x.1))

/-- Data that a read of a lane would return cannot be supplied (R283, R306). -/
def lostUnit (s : State) (v : View) (lane addr n : Nat) : Bool := (lostFrom s v lane addr n).isSome

/-! ### Loads (R151, R155, R170) -/

/-- A load as a word issues it: lanes with their pointers, ascending; lanes that receive zero without an access (R155); shared: one access serves every lane (R149). -/
structure LoadReq where
  dest : Operand
  size : Nat
  sx : Bool
  mask : Word32
  accs : List (Nat × Nat)
  zeros : List Nat
  shared : Bool
  acq : Bool
  src : Operand
  e : Bool

/-- Mark the accesses of a word as made (R280). -/
def recordAccs (v : View) (write : Bool) (n : Nat) (accs : List (Nat × Nat)) (s : State) : State :=
  accs.foldl (fun t a => if windowOf (ptrAddr a.2) = .global then recordAccess v.g.asid (rootOf v.c) write (ptrAddr a.2) n t else t) s

/-- The parts of an access whose bytes the far side holds: one where it is one transaction, else each byte (R122, R127). -/
def farParts (s : State) (v : View) (shared : Bool) (lane addr n : Nat) : List FarPart :=
  let tier := fun (j : Nat) => farPlace (placeOf s v lane (addr + j))
  if farWhole addr n then (match tier 0 with | some t => [{ lane := lane, off := 0, len := n, tier := t, shared := shared }] | none => [])
  else (List.range n).filterMap (fun j => (tier j).map (fun t => { lane := lane, off := j, len := 1, tier := t, shared := shared }))

/-- The reads of an access that leave the package. -/
def sendParts (v : View) (lane addr : Nat) (ps : List FarPart) (s : State) : State :=
  ps.foldl (fun t p => match placeOf t v lane (addr + p.off) with | .phys pa tier => emit (.farRead (farSide tier pa) p.len) t | _ => t) s

/-- A load issues: its lanes are checked; it waits for full lines, mappings and older operations; then its values are bound, its destination marked empty, and its far accesses sent; one access serves every lane of a shared load. DESIGN CHOICE (log 32): through a uniform pointer into the stack window each lane reads its own stack (R115 beside R149). -/
def loadIssue (r : LoadReq) (v : View) (s : State) : Result :=
  let chk := fun p => checkAccess s v .load (some (ptrTag p)) (ptrAddr p) r.size
  match laneFault chk r.accs with
  | some f => issueFault v f (notePassed v .load r.size (addrsOf r.accs)) s
  | none =>
    let dry := emptyLineLanes v.b r.accs r.size
    if dry ≠ [] then
      if r.e ∧ ¬ v.w.noE then raiseTrap v.key v.w { cause := 1, o := r.src, lanes := laneMask dry } (waitsOn v.key) s
      else hold s
    else if loadBlocked s v (r.accs.flatMap (fun a => (List.range r.size).map (fun j => placeOf s v a.1 (ptrAddr a.2 + j)))) then hold s
    else
      let got := r.accs.map (fun a => (a, laneBytes s v a.1 (ptrAddr a.2) r.size (chk a.2 == .pending)))
      if got.any (fun g => g.2.isNone) then hold s
      else
        let sent := (if r.shared then r.accs.take 1 else r.accs).map (fun a => (a, farParts s v r.shared a.1 (ptrAddr a.2) r.size))
        let ret : Return :=
          { info := wordInfo v.w, dest := r.dest, size := r.size, sx := r.sx
            lanes := r.zeros.map (fun i => (i, 0)) ++ got.map (fun g => (g.1.1, bytesToNat (g.2.getD [])))
            far := sent.flatMap Prod.snd
            bad := (r.accs.find? (fun a => lostUnit s v a.1 (ptrAddr a.2) r.size))
            addrs := r.accs, acq := r.acq }
        let w1 := markEmpty r.dest (resultRegs r.dest r.size) r.mask { v.w with returns := v.w.returns ++ [ret] }
        let s1 := sent.foldl (fun t a => sendParts v a.1.1 (ptrAddr a.1.2) a.2 t) (recordAccs v false r.size r.accs s)
        .next (putWave v.key (advance w1) s1)

/-- The word is an acquire, or a release, at system scope (R133, R138). -/
def systemAcq (m : MW) : Bool := bitAt m.ord.toNat 0 && m.sco == 4
def systemRel (m : MW) : Bool := bitAt m.ord.toNat 1 && m.sco == 4

/-- A load of the wave from the far side has not returned. -/
def farLoadsOut (w : Wave) : Bool := w.returns.any (fun r => !r.far.isEmpty)

def execLd (m : MW) (s : State) : Result :=
  viewWord m.guard [ptrSrc m m.a] [(m.d, dataRegs m.sz m.d)] (fun v mask t =>
    loadIssue { dest := m.d, size := sizeOf m.sz, sx := m.x, mask := mask,
                accs := (memLanes m mask).map (fun i => (i, laneAddr m v.w i)), zeros := [],
                shared := !isV m.a, acq := systemAcq m, src := m.a, e := m.e } v t) s

/-! ### Stores (R124, R151, R166) -/

/-- Entries in the side log of the core that runs a block: at most 64 (R124). -/
def loggedOn (s : State) (core : Option Nat) : Nat :=
  (s.waves.map (fun e => if (mget s.blocks e.2.blk).bind (fun b => b.core) = core then (e.2.mq.filter (fun q => q.logged)).length else 0)).foldl (· + ·) 0

/-- The wave has entries in the side log. -/
def hasLogged (w : Wave) : Bool := w.mq.any (fun e => e.logged)

/-- The operations that enter the side log (R124). -/
def logs : MemOp → Bool
  | .store _ => true
  | .journal _ _ _ => true
  | .atom ret _ _ _ _ => !ret
  | .tagset _ => true
  | .tagRange _ _ _ => true
  | _ => false

/-- An operation goes to the side log: its translation is pending, or a logged entry is older (R124). -/
def toLog (v : View) (op : MemOp) (pending : Bool) : Bool := pending || (hasLogged v.w && logs op)

/-- The memory unit cannot take an operation yet: its counter is at 63, or the side log is full (R124, R166). -/
def queueFull (v : View) (op : MemOp) (counted pending : Bool) (s : State) : Bool :=
  (counted && decide (v.w.oc.st ≥ 63)) || (toLog v op pending && decide (loggedOn s v.b.core ≥ 64))

/-- A counted operation takes the next number, and raises oc.st (R166). -/
def countOp (counted : Bool) (w : Wave) : Wave :=
  if counted then { w with stOut := w.stOut ++ [w.stNext], stNext := w.stNext + 1, oc := { w.oc with st := w.oc.st + 1 } } else w

/-- Give an operation to the memory unit. -/
def queueOp (v : View) (op : MemOp) (counted acq pending : Bool) (s : State) (edit : Wave → Wave) : Result :=
  if queueFull v op counted pending s then hold s
  else
    let e : MqEntry := { op := op, info := wordInfo v.w, acq := acq, logged := toLog v op pending, carried := false, no := v.w.stNext }
    .next (putWave v.key (advance (edit (countOp counted { v.w with mq := v.w.mq ++ [e] }))) s)

/-- A store issues: every lane is checked, full lines are waited for, a release waits for the side log to empty (R125), one at system scope for loads from the far side too (R134, R138), and the bytes enter the store queue. -/
def storeIssue (n : Nat) (rel sys : Bool) (accs : List (Nat × Nat)) (data : Nat → Nat) (v : View) (s : State) : Result :=
  let chk := fun p => checkAccess s v .store (some (ptrTag p)) (ptrAddr p) n
  match laneFault chk accs with
  | some f => issueFault v f (notePassed v .store n (addrsOf accs)) s
  | none =>
    if emptyLineLanes v.b accs n ≠ [] ∨ (rel ∧ hasLogged v.w) ∨ (sys ∧ farLoadsOut v.w) then hold s
    else
      queueOp v (.store (accs.map (fun a => { lane := a.1, addr := ptrAddr a.2, tag := ptrTag a.2, data := natToBytes n (data a.1) })))
        true false (lanePending chk accs) s id

def execSt (m : MW) (s : State) : Result :=
  viewWord m.guard [ptrSrc m m.a, dataSrc m m.b] [] (fun v mask t =>
    storeIssue (sizeOf m.sz) (m.ord = 2) (systemRel m) ((memLanes m mask).map (fun i => (i, laneAddr m v.w i))) (dataVal m v.w m.b) v t) s

/-! ### Sync space (R91, R152, R153) -/

/-- A sync operand's check (R91): misaligned is illegal; outside sync space is unmappable. -/
def syncCheck (c : Ctx) (a size align : Nat) : Option FaultSpec :=
  if a % align ≠ 0 then some illegalSpec
  else if inSync c a size then none
  else some { cause := 7, det := 0x20, addr := a }

/-- The sync address of LDS and STS (R152). -/
def syncAddr (m : MW) (w : Wave) : Nat := ofSigned 64 (((rawOp w m.lit false m.a 0).toNat : Int) + m.off.toInt * 8)

def execLds (m : MW) (s : State) : Result :=
  viewWord m.guard [plainSrc m m.a] [(m.d, 1)] (fun v mask t =>
    match syncCheck v.c (syncAddr m v.w) 8 8 with
    | some f => hardFault v.w f t
    | none => queueOp v (.lds (syncAddr m v.w) m.d) false (m.ord = 1) false t (markEmpty m.d 1 mask)) s

/-- A release STS is marked as ordered, so that it never passes a logged entry. -/
def execSts (m : MW) (s : State) : Result :=
  viewWord m.guard [plainSrc m m.a, plainSrc m m.b] [] (fun v _ t =>
    match syncCheck v.c (syncAddr m v.w) 8 8 with
    | some f => hardFault v.w f t
    | none => queueOp v (.sts (syncAddr m v.w) (rawOp v.w m.lit false m.b 0)) true (m.ord = 2) false t id) s

/-! ### Bounds-checked buffers (R154, R155) -/

/-- A buffer descriptor's two registers. -/
structure BufDesc where
  lo : Nat
  hi : Nat

def bufOf (w : Wave) (o : Operand) : BufDesc :=
  match o with
  | .s n => { lo := (sReg w n.toNat).toNat, hi := (sReg w (n.toNat + 1)).toNat }
  | _ => { lo := 0, hi := 0 }

def BufDesc.malformed (d : BufDesc) : Bool := field d.hi 49 15 != 0 || field d.hi 32 16 != 0
def BufDesc.ro (d : BufDesc) : Bool := bitAt d.hi 48
def BufDesc.len (d : BufDesc) : Nat := field d.hi 0 32

/-- e of R155, exact. -/
def bufOffset (m : MW) (w : Wave) (i : Nat) : Int := ((rawOp w m.lit false m.b i).toNat : Int) + m.off.toInt * sizeOf m.sz

/-- TAG:(BASE + e). -/
def bufPtr (d : BufDesc) (e : Int) : Nat := ptrTag d.lo * 2 ^ 60 + ofSigned 60 ((ptrAddr d.lo : Int) + e)

def bufInRange (d : BufDesc) (e : Int) (size : Nat) : Bool := decide (0 ≤ e) && decide (e + size ≤ d.len)

/-- The checks of a lane that precede the window checks (R154, R155): a malformed descriptor or a lane out of range; a read-only buffer; a last byte beyond the address range. -/
def bufFault (store z : Bool) (d : BufDesc) (e : Int) (size lane : Nat) : Option FaultSpec :=
  if d.malformed then some { cause := 2, lane := lane, addr := bufPtr d e }
  else if ¬ bufInRange d e size then (if z then none else some { cause := 2, lane := lane, addr := bufPtr d e })
  else if store ∧ d.ro then some { cause := 6, lane := lane, addr := bufPtr d e }
  else if (ptrAddr d.lo : Int) + e ≥ 2 ^ 60 then some { cause := 4, lane := lane, addr := bufPtr d e }
  else none

/-- The first fault by lane: stage 1 of a lane, then its access checks. -/
def bufFirst (pre : Nat → Option FaultSpec) (acc : Nat → Option FaultSpec) : List Nat → Option FaultSpec
  | [] => none
  | i :: rest => match pre i with
    | some f => some f
    | none => match acc i with | some f => some f | none => bufFirst pre acc rest

/-- A buffer word: its descriptor is read at issue, every lane is checked by stages in lane order, and the lanes in range go on. -/
def bufWord (store z : Bool) (m : MW) (v : View) (mask : Word32) (s : State) (go : List (Nat × Nat) → List Nat → Result) : Result :=
  let d := bufOf v.w m.a
  let size := sizeOf m.sz
  let perLane := isV m.d || isV m.b
  let lanes := if perLane then lanesOf mask else [0]
  let e := bufOffset m v.w
  let ins := lanes.filter (fun i => bufInRange d (e i) size)
  let kind : Kind := if store then .store else .load
  let chk := fun i => if ins.contains i then laneFault (fun p => checkAccess s v kind (some (ptrTag p)) (ptrAddr p) size) [(i, bufPtr d (e i))] else none
  match bufFirst (fun i => bufFault store z d (e i) size i) chk lanes with
  | some f =>
    let reached := ins.filter (fun i => (bufFault store z d (e i) size i).isNone)
    issueFault v f (notePassed v kind size (reached.map (fun i => (i, ptrAddr (bufPtr d (e i)))))) s
  | none => go (ins.map (fun i => (i, bufPtr d (e i)))) (lanes.filter (fun i => !ins.contains i))

def bufSrcs (m : MW) : List Src := [{ o := m.a, n := 2, e := m.e }, plainSrc m m.b]

def bufLoad (z : Bool) (m : MW) (s : State) : Result :=
  viewWord m.guard (bufSrcs m) [(m.d, dataRegs m.sz m.d)] (fun v mask t =>
    bufWord false z m v mask t (fun accs out =>
      loadIssue { dest := m.d, size := sizeOf m.sz, sx := m.x, mask := mask, accs := accs, zeros := out,
                  shared := !isV m.b, acq := systemAcq m, src := m.a, e := m.e } v t)) s

def bufStore (z : Bool) (m : MW) (s : State) : Result :=
  viewWord m.guard (bufSrcs m ++ [dataSrc m m.d]) [] (fun v mask t =>
    bufWord true z m v mask t (fun accs _ => storeIssue (sizeOf m.sz) (m.ord = 2) (systemRel m) accs (dataVal m v.w m.d) v t)) s

def execLdb (m : MW) (s : State) : Result := bufLoad false m s
def execLdbZ (m : MW) (s : State) : Result := bufLoad true m s
def execStb (m : MW) (s : State) : Result := bufStore false m s
def execStbZ (m : MW) (s : State) : Result := bufStore true m s

/-! ### Atomics (R158 to R160) -/

/-- The new value of a location (R158), at a width of 8 × size bits. -/
def atomVal (op size old b cmp : Nat) : Nat :=
  let wd := 8 * size
  match op with
  | 0 => (old + b) % 2 ^ wd
  | 1 => old &&& b
  | 2 => old ||| b
  | 3 => old ^^^ b
  | 4 => if toSigned wd old ≤ toSigned wd b then old else b
  | 5 => if toSigned wd old ≤ toSigned wd b then b else old
  | 6 => min old b
  | 7 => max old b
  | 8 => b
  | 9 => if old = cmp then b else old
  | 10 => faddVal .f32 0 old b
  | 11 => fminVal .f32 old b
  | _ => fmaxVal .f32 old b

/-- The operand b of a lane; the floating operations read an inline integer as an FP32 value (R30, R158). -/
def atomOperand (m : MW) (w : Wave) (i : Nat) : Nat :=
  if m.sub.toNat ≥ 10 then tyOp w m.lit .f32 m.b i else dataVal m w m.b i

/-- The lanes of an atomic as the memory unit holds them. -/
def atomLanes (m : MW) (w : Wave) (accs : List (Nat × Nat)) : List AtomLane :=
  accs.map (fun a => { lane := a.1, addr := ptrAddr a.2, tag := ptrTag a.2, b := atomOperand m w a.1, cmp := if m.sub = 9 then dataVal m w m.d a.1 else 0 })

/-- An atomic or reduction issues: Determinism (R160; its record's word 3 is 0, DESIGN CHOICE, log 43), the checks of every lane (R159), the waits of R124 and R125, then the memory unit holds it. -/
def atomIssue (ret : Bool) (m : MW) (v : View) (mask : Word32) (s : State) : Result :=
  if m.sub = 10 ∧ v.g.d.det then raiseTrap v.key v.w { cause := 5, lanes := mask } (fun _ t => .next t) s
  else
    let accs := (memLanes m mask).map (fun i => (i, laneAddr m v.w i))
    let chk := fun p => checkAtomic s v (ptrAddr p) (sizeOf m.sz) (ptrTag p)
    match laneFault chk accs with
    | some f => issueFault v f (notePassed v .atomic (sizeOf m.sz) (addrsOf accs)) s
    | none =>
      let pend := lanePending chk accs
      if (ret ∧ pend) ∨ (2 ≤ m.ord.toNat ∧ hasLogged v.w) ∨ (systemRel m ∧ farLoadsOut v.w) then hold s
      else
        queueOp v (.atom ret m.sub.toNat (sizeOf m.sz) m.d (atomLanes m v.w accs)) (!ret) (m.ord = 1 || m.ord = 3) pend s
          (fun w => if ret then markEmpty m.d (dataRegs m.sz m.d) mask w else w)

def execAtom (m : MW) (s : State) : Result :=
  viewWord m.guard ([ptrSrc m m.a, dataSrc m m.b] ++ (if m.sub = 9 then [dataSrc m m.d] else [])) [(m.d, dataRegs m.sz m.d)]
    (fun v mask t => atomIssue true m v mask t) s
def execAred (m : MW) (s : State) : Result :=
  viewWord m.guard [ptrSrc m m.a, dataSrc m m.b] [] (fun v mask t => atomIssue false m v mask t) s

/-! ### Fences and counter waits (R165, R166) -/

/-- An older load of the wave has no value yet: LD, LDS, LDB, ATOM by opcode, TAGGET (R165). -/
def loadsOut (w : Wave) : Bool :=
  w.returns.any (fun r => r.info.opc == 0x80 || r.info.opc == 0x82 || r.info.opc == 0x84 || r.info.opc == 0x88 || r.info.opc == 0x90) ||
    w.mq.any (fun e => match e.op with | .lds _ _ => true | .atom ret _ _ _ _ => ret | _ => false)

/-- An older store, an append's among them (R254), STS, TAGSET or atomic is not yet performed (R165). -/
def storesOut (w : Wave) : Bool :=
  w.mq.any (fun e => match e.op with
    | .store _ => true | .journal _ _ _ => true | .atom _ _ _ _ _ => true | .tagset _ => true | .tagRange _ _ _ => true | .sts _ _ => true | _ => false)

def execFence (m : MW) (s : State) : Result :=
  word m.guard [] [] (fun key w _ t =>
    if loadsOut w ∨ hasLogged w ∨ (2 ≤ m.ord.toNat ∧ storesOut w) then hold t else done key t) s

/-- The counter that SUB names (R166). -/
def Counters.at (c : Counters) (n : Nat) : Nat :=
  match n with
  | 0 => c.cpy
  | 1 => c.mtx
  | 2 => c.gat
  | _ => c.st

def execWaitc (m : MW) (s : State) : Result :=
  word m.guard [plainSrc m m.b] [] (fun key w _ t =>
    if w.oc.at m.sub.toNat ≤ (rawOp w m.lit false m.b 0).toNat then done key t else hold t) s

/-! ### Tags (R167 to R170) -/

def execPtag (m : MW) (s : State) : Result :=
  word m.guard [ptrSrc m m.a, plainSrc m m.b] [(m.d, if isV m.d then 2 else 1)] (fun key w mask t =>
    let tag := (rawOp w m.lit false m.b 0).toNat % 16
    let f := fun i => tag * 2 ^ 60 + ptrAddr (ptrVal m w m.a i)
    .next (putWave key (advance (putLanes .b64 m.d mask f w)) t)) s

/-- The check of a TAGSET: the window checks, then write permission on translated pages. DEDUCED (log 14): R168's 'raises nothing' in the A and stack windows is read of bytes that pass the window checks of R150 and R116. -/
def tagCheck (s : State) (v : View) (addr n : Nat) : Chk := checkAccess s v .store none addr n

/-- TAGSET (R168). DESIGN CHOICE (log 56): the per-lane form checks all 32 bytes of each granule that it writes, so an address in the last 16 bytes of a slice with STKSZ an odd multiple of 16 raises local bounds; the uniform form with length 0 checks nothing and is counted. -/
def execTagset (m : MW) (s : State) : Result :=
  viewWord m.guard [ptrSrc m m.a, plainSrc m m.b] [] (fun v mask t =>
    if isV m.a then
      let accs := (lanesOf mask).map (fun i => (i, ptrVal m v.w m.a i))
      let chk := fun p => tagCheck t v (ptrAddr p / 32 * 32) 32
      match laneFault chk accs with
      | some f => hardFault v.w f (noteTags v 32 (accs.map (fun a => (a.1, ptrAddr a.2 / 32 * 32))) t)
      | none => queueOp v (.tagset (accs.map (fun a => (a.1, ptrAddr a.2, ptrTag a.2)))) true false (lanePending chk accs) t id
    else
      let p := ptrVal m v.w m.a 0
      let n := (rawOp v.w m.lit false m.b 0).toNat
      if p % 32 ≠ 0 ∨ n % 32 ≠ 0 ∨ n ≥ 2 ^ 32 then illegalWord v.w t
      else
        let chk := fun q => if n = 0 then Chk.ok else tagCheck t v (ptrAddr q) n
        match laneFault chk [(0, p)] with
        | some f => hardFault v.w f (noteTags v n [(0, ptrAddr p)] t)
        | none => queueOp v (.tagRange (ptrAddr p) n (ptrTag p)) true false (chk p == .pending) t id) s

/-- The tag that TAGGET reads: 0 on an untagged page and in the A and stack windows (R170). -/
def tagValue (s : State) (v : View) (addr : Nat) : Nat :=
  if windowOf addr = .global then
    match xlate s v.g.asid (rootOf v.c) addr with
    | .ok pa x _ _ => if leafTg x then tagOf s pa else 0
    | _ => 0
  else 0

/-- TAGGET (R170). DESIGN CHOICE (log 56): it checks the byte at the lane's address alone, not the granule. -/
def execTagget (m : MW) (s : State) : Result :=
  viewWord m.guard [ptrSrc m m.a] [(m.d, 1)] (fun v mask t =>
    let accs := (memLanes m mask).map (fun i => (i, ptrVal m v.w m.a i))
    let chk := fun p => checkAccess t v .load none (ptrAddr p) 1
    match laneFault chk accs with
    | some f => hardFault v.w f (notePassed v .load 1 (addrsOf accs) t)
    | none =>
      if lanePending chk accs ∨ tagsOut v.w ∨ loadBlocked t v [] then hold t
      else
        let ret : Return := { info := wordInfo v.w, dest := m.d, size := 4, sx := false, lanes := accs.map (fun a => (a.1, tagValue t v (ptrAddr a.2))), far := [], bad := none, addrs := accs, acq := false }
        .next (putWave v.key (advance (markEmpty m.d 1 mask { v.w with returns := v.w.returns ++ [ret] })) (recordAccs v false 1 accs t))) s

/-! ### Near cache (R171, R172) -/

/-- The 128-byte lines of a range, as address and length of each part. -/
def linePieces (addr len : Nat) : List (Nat × Nat) :=
  if len = 0 then []
  else (List.range ((addr + len - 1) / 128 - addr / 128 + 1)).map (fun j =>
    let lo := max addr ((addr / 128 + j) * 128)
    (lo, min (addr + len) ((addr / 128 + j + 1) * 128) - lo))

/-- Hold one line, or drop it (R171). DESIGN CHOICE (log 42): the tags compared are those of the line's granules inside the range asked for, for a single line that of the granule that holds the address. -/
def prefLine (v : View) (tag : Nat) (s : State) (l : Nat × Nat) : State :=
  if windowOf l.1 = .global ∧ l.1 + l.2 ≤ 2 ^ 60 ∧ checkGlobal s v.g.asid (rootOf v.c) .load (some tag) l.1 l.2 = .ok then
    match xlate s v.g.asid (rootOf v.c) l.1 with
    | .ok pa x _ _ => if leafTier x ≤ 2 then holdLine (pa / 128) s else s
    | _ => s
  else s

/-- The ranges PREF asks for: the length's lines, or one line for each pointer (R171). -/
def prefRanges (m : MW) (w : Wave) (mask : Word32) : List (Nat × Nat) :=
  let n := (rawOp w m.lit false m.b 0).toNat
  (if isV m.a then lanesOf mask else [0]).map (fun i => (laneAddr m w i, if isV m.a ∨ n = 0 then 1 else n))

def execPref (m : MW) (s : State) : Result :=
  viewWord m.guard [ptrSrc m m.a, plainSrc m m.b] [] (fun v mask t =>
    done v.key ((prefRanges m v.w mask).foldl (fun u r => (linePieces (ptrAddr r.1) r.2).foldl (prefLine v (ptrTag r.1)) u) t)) s

/-- The check of CLEAN: as a load of the range; the A and stack windows raise local bounds (R150, R172). -/
def cleanCheck (s : State) (v : View) (tag addr n : Nat) : Chk :=
  match checkWindow v.g.d addr n with
  | .fail 4 d => .fail 4 d
  | _ => if windowOf addr = .global then checkGlobal s v.g.asid (rootOf v.c) .load (some tag) addr n else .fail 3 0

/-- CLEAN and CLEAN.inv (R172). DESIGN CHOICE (log 56): with length 0 it checks nothing and is counted all the same. -/
def cleanWord (inv : Bool) (m : MW) (s : State) : Result :=
  viewWord m.guard [ptrSrc m m.a, plainSrc m m.b] [] (fun v _ t =>
    let p := ptrVal m v.w m.a 0
    let n := (rawOp v.w m.lit false m.b 0).toNat
    if n ≥ 2 ^ 32 then illegalWord v.w t
    else
      let chk := fun q => if n = 0 then Chk.ok else cleanCheck t v (ptrTag q) (ptrAddr q) n
      match laneFault chk [(0, p)] with
      | some f => issueFault v f (notePassed v .load n [(0, ptrAddr p)]) t
      | none =>
        if chk p = .pending then hold t
        else queueOp v (.clean (ptrAddr p) n (ptrTag p) inv) true false false (recordAccs v false n (if n = 0 then [] else [(0, p)]) t) id) s

def execClean (m : MW) (s : State) : Result := cleanWord false m s
def execCleanInv (m : MW) (s : State) : Result := cleanWord true m s

end Sys2Proof.Machine
end

