-- ==== Sys2Proof/Machine/MemUnit.lean ====
section
/-! DEFINITION. What the memory unit performs for a wave, in its queue's order, and the results that return (R92, R122, R124, R125, R139, R142, R145, R152, R153, R159, R168, R172, R312). -/
namespace Sys2Proof.Machine

/-- What performing an operation comes to: it is done; its translation is pending; a replay holds it; it faults; or it is done as far as its data allows and then faults. -/
inductive Perf where
  | done (s : State)
  | wait
  | replay
  | fault (f : FaultSpec)
  | lost (f : FaultSpec) (s : State)

/-- One Quern operation of a wave: recorded, or admitted by a replay; none: it is held (R319, R320). -/
def quernOne (v : View) (addr : Nat) (global : Bool) (s : State) : Option State :=
  let n := (match mget s.waves v.key with | some w => w.qops | none => 0)
  (quernOp v.g.asid v.b.gid v.b.num v.w.idx n addr global s).map (modWave v.key (fun w => { w with qops := w.qops + 1 }))

/-- The Quern operations of every lane of an atomic. -/
def quernAll (v : View) : List Nat → State → Option State
  | [], s => some s
  | a :: rest, s => match quernOne v a true s with | some t => quernAll v rest t | none => none

/-- What checks of accesses by lane and pointer come to when they are performed: the first failing lane decides, else a pending one waits, else the operation goes on. -/
def perfCheck (accs : List (Nat × Nat × Chk)) (go : Unit → Perf) : Perf :=
  match laneFault (fun p => (accs.find? (fun a => a.2.1 == p)).map (fun a => a.2.2) |>.getD .ok) (accs.map (fun a => (a.1, a.2.1))) with
  | some f => .fault f
  | none => if accs.any (fun a => a.2.2 == .pending) then .wait else go ()

/-- A pointer from its tag and address. -/
def ptrFrom (tag addr : Nat) : Nat := tag * 2 ^ 60 + addr

/-- Store every piece, in order (R151, R154). -/
def putPieces (v : View) (ps : List Piece) (s : State) : State := ps.foldl (fun t q => putAt v q.lane q.addr q.data t) s

def perfStore (v : View) (ps : List Piece) (s : State) : Perf :=
  perfCheck (ps.map (fun q => (q.lane, ptrFrom q.tag q.addr, checkAccess s v .store (some q.tag) q.addr q.data.length)))
    (fun _ => .done (putPieces v ps s))

/-- One lane's indivisible read and write (R159), through the entry that its check used: the old value, and the state after. -/
def atomOne (v : View) (op size : Nat) (l : AtomLane) (s : State) : Nat × State :=
  let old := bytesToNat (bytesAt s v l.lane l.addr size true)
  (old, putAt v l.lane l.addr (natToBytes size (atomVal op size old l.b l.cmp)) s)

/-- Every lane's operation, in ascending lane order. -/
def atomAll (v : View) (op size : Nat) : List AtomLane → State → List (Nat × Nat) × State
  | [], s => ([], s)
  | l :: rest, s =>
    let r := atomOne v op size l s
    let q := atomAll v op size rest r.2
    ((l.lane, r.1) :: q.1, q.2)

/-- Give a wave a result on its way. -/
def addReturn (key : Nat) (r : Return) (s : State) : State := modWave key (fun w => { w with returns := w.returns ++ [r] }) s

/-- A lane's old value cannot be supplied: the page store lost it (R283, R306). The walk is the write's, as its check, its read and its write are: one entry serves the whole atomic (R282). -/
def lostLane (s : State) (v : View) (size : Nat) (l : AtomLane) : Bool := (lostAt s v.g.asid (rootOf v.c) l.addr size true).isSome

/-- The lanes whose data is there are performed; a lane whose data is lost, which has passed its checks and marks its leaf (R280), raises cause 10, when the result arrives where there is one. -/
def perfAtom (v : View) (info : WordInfo) (ret : Bool) (op size : Nat) (d : Operand) (lanes : List AtomLane) (s : State) : Perf :=
  perfCheck (lanes.map (fun l => (l.lane, ptrFrom l.tag l.addr, checkAtomic s v l.addr size l.tag))) (fun _ =>
    match quernAll v (lanes.map (fun l => l.addr)) s with
    | none => .replay
    | some t =>
      let lost := lanes.filter (lostLane s v size)
      let r := atomAll v op size (lanes.filter (fun l => !lostLane s v size l)) (notePassed v .atomic size (lost.map (fun l => (l.lane, l.addr))) t)
      let bad := (lanes.find? (lostLane s v size)).map (fun l => (l.lane, ptrFrom l.tag l.addr))
      if ret then
        .done (addReturn v.key { info := info, dest := d, size := size, sx := false, lanes := r.1, far := [], bad := bad
                                 addrs := lanes.map (fun l => (l.lane, ptrFrom l.tag l.addr)), acq := false } r.2)
      else match bad with
        | some a => .lost { cause := 10, lane := a.1, addr := a.2 } r.2
        | none => .done r.2)

/-- Write the tag of the granule at an address, where its page is tagged; the entry that was checked is the one marked (R168, R282). -/
def tagGranule (v : View) (addr tag : Nat) (s : State) : State :=
  if windowOf addr = .global then
    match xlate s v.g.asid (rootOf v.c) addr true with
    | .ok pa x _ _ => if leafTg x then setTag pa tag (recordUnit v.g.asid (rootOf v.c) true addr s) else noteTag v.g.asid (rootOf v.c) addr s
    | _ => s
  else s

/-- A per-lane TAGSET is performed: each granule is checked whole (log 56). -/
def perfTags (v : View) (writes : List (Nat × Nat × Nat)) (s : State) : Perf :=
  perfCheck (writes.map (fun a => (a.1, ptrFrom a.2.2 a.2.1, tagCheck s v (a.2.1 / 32 * 32) 32))) (fun _ => .done (writes.foldl (fun t a => tagGranule v a.2.1 a.2.2 t) s))

/-- A uniform TAGSET is performed; one of length 0 checks nothing (log 56). -/
def perfTagRange (v : View) (addr len tag : Nat) (s : State) : Perf :=
  if len = 0 then .done s
  else perfCheck [(0, ptrFrom tag addr, tagCheck s v addr len)] (fun _ =>
    .done ((List.range (len / 32)).foldl (fun t j => tagGranule v (addr + 32 * j) tag t) s))

/-- A CLEAN is performed (R172); one of length 0 checks nothing (log 56). -/
def perfClean (v : View) (addr len tag : Nat) (inv : Bool) (s : State) : Perf :=
  if len = 0 then .done s
  else perfCheck [(0, ptrFrom tag addr, cleanCheck s v tag addr len)] (fun _ =>
    .done ((linePieces addr len).foldl (fun t l =>
      match xlate t v.g.asid (rootOf v.c) l.1 with
      | .ok pa _ _ _ => cleanLine (pa / 128) inv t
      | _ => t) s))

/-- STS (R152, R153): discarded on queue words and status words. -/
def perfSts (v : View) (addr : Nat) (val : Word64) (s : State) : Perf :=
  match quernOne v addr false s with
  | none => .replay
  | some t =>
    match mget t.ctxs v.g.asid with
    | none => .done t
    | some c =>
      if isQueueWord c addr ∨ isStatusWord t v.g.asid addr then .done t
      else .done (plainWrite v.g.asid addr val t)

def perfLds (v : View) (info : WordInfo) (addr : Nat) (d : Operand) (s : State) : Perf :=
  match quernOne v addr false s with
  | none => .replay
  | some t =>
    match mget t.ctxs v.g.asid with
    | none => .done t
    | some c => .done (addReturn v.key { info := info, dest := d, size := 8, sx := false, lanes := [(0, (readSync c addr).toNat)], far := [], bad := none, addrs := [], acq := false } t)

/-- A Quern operation that changes a context's state. -/
def perfQuern (v : View) (addr : Nat) (f : State → State) (s : State) : Perf :=
  match quernOne v addr false s with
  | none => .replay
  | some t => .done (f t)

/-- A journal entry is written when its bytes are (R254). -/
def markWritten (asid region entry : Nat) (s : State) : State :=
  modCtx asid (fun c =>
    match mget c.regions region with
    | some r => { c with regions := mput c.regions region { r with entries := r.entries.map (fun e => if e.id = entry then { e with written := true } else e) } }
    | none => c) s

/-- Perform one operation of the queue. -/
def perform (v : View) (e : MqEntry) (s : State) : Perf :=
  match e.op with
  | .store ps => perfStore v ps s
  | .journal region entry ps =>
    (match perfStore v ps s with
     | .done t => .done (markWritten v.g.asid region entry t)
     | r => r)
  | .atom ret op size d lanes => perfAtom v e.info ret op size d lanes s
  | .tagset writes => perfTags v writes s
  | .tagRange addr len tag => perfTagRange v addr len tag s
  | .clean addr len tag inv => perfClean v addr len tag inv s
  | .sts addr val => perfSts v addr val s
  | .lds addr d => perfLds v e.info addr d s
  | .push q item => perfQuern v q (pushItem v.g.asid q item (.wave v.key e.no)) s
  | .qinit q cap => perfQuern v q (initQueue v.g.asid q cap) s
  | .dcdec c => perfQuern v c (counterDec v.g.asid c) s
  | .dcset c val => perfQuern v c (plainWrite v.g.asid c val) s

/-- Operations acknowledged by something later than their performing: a push when it is admitted (R100), an append when it has arrived (R254); and those oc.st does not count. -/
def acksLater : MemOp → Bool
  | .push _ _ => true
  | .journal _ _ _ => true
  | .atom ret _ _ _ _ => ret
  | .lds _ _ => true
  | _ => false

/-- The operation is counted in oc.st (R124, R142, R166). -/
def counted : MemOp → Bool
  | .atom ret _ _ _ _ => !ret
  | .lds _ _ => false
  | _ => true

/-- Entry e, at place i of a wave's queue, is gone; ack: it is acknowledged now. -/
def retireOp (key i : Nat) (e : MqEntry) (ack : Bool) (s : State) : State :=
  modWave key (fun w => if ack then ackSt e.no (dropOp i w) else dropOp i w) s

/-- Drop the entry at place i, acknowledged. -/
def discardAt (w : Wave) (i : Nat) : Wave := match w.mq[i]? with | some e => ackSt e.no (dropOp i w) | none => w

/-- After a fault of a logged entry no later entry of the wave is replayed (R125). -/
def dropLogged (key : Nat) (s : State) : State :=
  modWave key (fun w =>
    ((List.range w.mq.length).filter (fun i => (match w.mq[i]? with | some e => e.logged | none => false))).reverse.foldl discardAt w) s

/-- The entries from place i on that the side log takes (R124). -/
def logFrom (i : Nat) (q : List MqEntry) : List MqEntry := q.take i ++ (q.drop i).map (fun e => { e with logged := e.logged || logs e.op })

/-- Entry i's translation is found pending: it and every later entry of the wave that the side log takes go there, where the log has room for them; else the entry waits (R124). -/
def logPending (v : View) (i : Nat) (s : State) : State :=
  let q := logFrom i v.w.mq
  let more := (q.filter (fun e => e.logged)).length - (v.w.mq.filter (fun e => e.logged)).length
  if loggedOn s v.b.core + more ≤ 64 then modWave v.key (fun w => { w with mq := logFrom i w.mq }) s else s

/-- What an operation that faults leaves in the leaves of the lanes that passed stage 4 (R280). -/
def noteOp (v : View) (op : MemOp) (s : State) : State :=
  match op with
  | .store ps => ps.foldl (fun t q => notePassed v .store q.data.length [(q.lane, q.addr)] t) s
  | .journal _ _ ps => ps.foldl (fun t q => notePassed v .store q.data.length [(q.lane, q.addr)] t) s
  | .atom _ _ size _ lanes => notePassed v .atomic size (lanes.map (fun l => (l.lane, l.addr))) s
  | .tagset writes => noteTags v 32 (writes.map (fun a => (a.1, a.2.1 / 32 * 32))) s
  | .tagRange addr len _ => noteTags v len [(0, addr)] s
  | .clean addr len _ _ => notePassed v .load len [(0, addr)] s
  | _ => s

/-- Perform entry i of a wave's queue. -/
def performAt (v : View) (i : Nat) (e : MqEntry) (s : State) : State :=
  match perform v e s with
  | .done t => retireOp v.key i e (!acksLater e.op) t
  | .wait => logPending v i s
  | .replay => s
  | .fault f =>
    let t := noteOp v e.op s
    faultAt v.key e.info f (if e.logged then dropLogged v.key t else retireOp v.key i e (counted e.op) t)
  | .lost f t => faultAt v.key e.info f (retireOp v.key i e (counted e.op) t)

/-- The queue's operations that the store path acknowledges (R142, R166); the Quern releases of R92 have their own event. -/
def viaStorePath : MemOp → Bool
  | .push _ _ => false
  | .dcdec _ => false
  | .dcset _ _ => false
  | _ => true

/-- An operation that may pass logged stores: a plain access of sync space, which orders nothing towards them (R92, R152); none passes what a save has carried (R132). -/
def passesLog (older : List MqEntry) (e : MqEntry) : Bool :=
  !e.acq && older.all (fun o => o.logged && !o.carried && (match o.op with | .atom _ _ _ _ _ => false | _ => true)) &&
    (match e.op with | .sts _ _ => true | .lds _ _ => true | .qinit _ _ => true | _ => false)

/-- The next operation the store path performs: the first that is not in the side log, if nothing older holds it. -/
def nextStore (w : Wave) : Option (Nat × MqEntry) :=
  let i := (w.mq.takeWhile (fun e => e.logged)).length
  match w.mq[i]? with
  | none => none
  | some e => if viaStorePath e.op ∧ (i = 0 ∨ passesLog (w.mq.take i) e) then some (i, e) else none

/-- The wave's block is on its core (R81: a saved wave's operations are carried, not performed). -/
def onCore (v : View) : Bool := v.b.life == .running

/-- The 64 KiB units of device-MMIO that an operation stores to. -/
def driveUnits (s : State) (v : View) (op : MemOp) : List Nat :=
  (piecesOf op).flatMap (fun q => (units q.addr q.data.length).filterMap (fun u =>
    match placeOf s v q.lane u.1 true with | .phys pa 4 => some (pa / 65536) | _ => none))

/-- Perform entry i; where the port cannot deliver what it stores to TIER 4 pages, no drive there answers now: those requests are dropped and counted, and the rest is performed (R312). -/
def performVia (delivered : Bool) (v : View) (i : Nat) (e : MqEntry) (s : State) : State :=
  if delivered then performAt v i e s
  else { performAt v i e { s with silent := (driveUnits s v e.op).foldl sadd s.silent } with silent := s.silent }

/-- An append of a wave is written and has not arrived at its home Lovage: its store is not acknowledged yet (R92, R254). -/
def appendOut (c : Ctx) (key : Nat) : Bool := c.regions.any (fun r => r.2.entries.any (fun e => e.wave == key && e.written && e.step.isNone))

/-- A Quern operation that takes effect only when the wave's older stores are acknowledged: a push, a counter's, or a release STS (R92, R152). -/
def releases (e : MqEntry) : Bool := match e.op with | .sts _ _ => e.acq | op => !viaStorePath op

/-- Such an operation, with an append of the wave on its way. -/
def awaitsAppend (v : View) (e : MqEntry) : Bool := releases e && appendOut v.c v.key

/-- STORE_ACKNOWLEDGE: the wave's next store, atomic or sync access is performed and acknowledged. -/
def execStoreAcknowledge (wave : Nat) (delivered : Bool) (s : State) : Result :=
  match viewOf s wave with
  | none => .next s
  | some v =>
    if ¬ onCore v then .next s
    else
      match nextStore v.w with
      | none => .next s
      | some (i, e) => if awaitsAppend v e then .next s else .next (performVia delivered v i e s)

/-- RELEASED_QUERN_OPERATION: every older store, atomic and reduction of the wave is acknowledged, and the operation takes effect in Quern (R92, R166). -/
def execReleasedQuernOperation (wave : Nat) (s : State) : Result :=
  match viewOf s wave with
  | none => .next s
  | some v =>
    match v.w.mq with
    | e :: _ => if onCore v ∧ ¬ viaStorePath e.op ∧ ¬ awaitsAppend v e then .next (performAt v 0 e s) else .next s
    | [] => .next s

/-- SIDE_LOG_REPLAY: the wave's oldest logged entry is performed once its mapping exists, or faults (R125). -/
def execSideLogReplay (wave : Acting) (s : State) : Result :=
  match viewOf s wave.key with
  | none => .next s
  | some v =>
    match v.w.mq with
    | e :: _ => if onCore v ∧ e.logged then .next (performVia (!wave.failed) v 0 e s) else .next s
    | [] => .next s

/-! ### Results that return (R40, R122, R283, R306, R312) -/

/-- len bytes of a value, from byte off, replaced. -/
def setBytes (x off len y : Nat) : Nat := x - field x (8 * off) (8 * len) * 2 ^ (8 * off) + y % 2 ^ (8 * len) * 2 ^ (8 * off)

/-- The far parts of a return take their bytes: f gives part j's. A shared part is every lane's (R149). -/
def farData (r : Return) (f : Nat → FarPart → Nat) : List (Nat × Nat) :=
  r.lanes.map (fun l => (l.1, ((List.range r.far.length).zip r.far).foldl (fun x p =>
    if p.2.shared ∨ p.2.lane = l.1 then setBytes x p.2.off p.2.len (f p.1 p.2) else x) l.2))

/-- Part j of the data that arrived: the parts follow one another. -/
def arrived (r : Return) (bytes j : Nat) : Nat :=
  field bytes (8 * ((r.far.take j).map (fun p => p.len)).sum) (8 * ((r.far[j]?).map (fun p => p.len)).getD 0)

/-- Take a return off its wave's list and write its destination. -/
def finishReturn (key i : Nat) (r : Return) (s : State) : State :=
  modWave key (fun w => deliverReturn r { w with returns := delAt w.returns i }) s

/-- A read whose data cannot be supplied raises cause 10 when it would arrive (R283). -/
def badReturn (key i : Nat) (r : Return) (at_ : Nat × Nat) (s : State) : State :=
  faultAt key r.info { cause := 10, lane := at_.1, addr := at_.2 } (modWave key (fun w => { w with returns := delAt w.returns i }) s)

/-- A read of a TIER 4 page that was not answered: all ones (R312). -/
def allOnes (size : Nat) : Nat := 2 ^ (8 * size) - 1

/-- What a part that was not answered reads as: all ones on a TIER 4 page; the manual states no value for a peer page: a free one (log 6). -/
def unanswered (s : State) (p : FarPart) : Nat := if p.tier = 4 then allOnes p.len else (freeWord s).toNat

/-- The parts of a return that a TIER 4 page serves: each is a request of its own (R122, R312). -/
def drivePart (p : FarPart) : Bool := p.tier == 4

/-- The pointer that a lane of a return reads through. -/
def Return.ptrOf (r : Return) (lane : Nat) : Nat := ((r.addrs.find? (fun a => a.1 == lane)).map Prod.snd).getD 0

/-- LOAD_DATA_RETURN: one of the wave's results returns, in any order. -/
def execLoadDataReturn (wave index : Nat) (arrival : Arrival) (s : State) : Result :=
  match mget s.waves wave with
  | none => .next s
  | some w =>
    match w.returns[index]? with
    | none => .next s
    | some r =>
      match r.bad, arrival with
      | some a, _ => .next (badReturn wave index r a s)
      | none, .uncorrectable lane => .next (badReturn wave index r (lane, r.ptrOf lane) s)
      | none, .data bytes => .next (finishReturn wave index { r with lanes := farData r (fun j _ => arrived r bytes j) } s)
      | none, .failed bytes parts =>
        .next (finishReturn wave index { r with lanes := farData r (fun j p => if bitAt parts j then unanswered s p else arrived r bytes j) }
          (countDrives (((List.range r.far.length).zip r.far).filter (fun p => bitAt parts p.1 && drivePart p.2)).length s))

/-- MMIO_TIMEOUT: the requests of a load to TIER 4 pages have no completion within 50 ms (R312); what comes from peer pages is still waited for. -/
def execMmioTimeout (wave index : Nat) (s : State) : Result :=
  match mget s.waves wave with
  | none => .next s
  | some w =>
    match w.returns[index]? with
    | none => .next s
    | some r =>
      if r.bad.isNone ∧ r.far.any drivePart then
        let missed := r.far.filter drivePart
        let rest := r.far.filter (fun p => !drivePart p)
        let r1 := { r with lanes := farData { r with far := missed } (fun _ p => allOnes p.len), far := rest }
        if rest.isEmpty then .next (finishReturn wave index r1 (countDrives missed.length s))
        else .next (modWave wave (fun w => { w with returns := setAt w.returns index r1 }) (countDrives missed.length s))
      else .next s

end Sys2Proof.Machine
end

