-- ==== Sys2Proof/Machine/Sage.lean ====
section
/-! DEFINITION. The Sage: the tolerance table, its walks, the choice file, what producers and consumers check, and DEMAND, TOLRD, TOLTAB (R190 to R202, R240 to R242). -/
namespace Sys2Proof.Machine

/-! ### Codes (R190, R191, R194) -/

def share (p : Nat) : Nat :=
  match p with
  | 2 => 8
  | 3 => 13
  | 4 => 16
  | _ => 0

/-- Bound codes of choice codes, for a format producer and for an iterative one (R191). -/
def boundOf (kind c : Nat) : Nat :=
  if kind = 2 then (match c with | 0 => 88 | 1 => 168 | _ => 184)
  else match c with
    | 0 => 8
    | 1 => 8
    | 2 => 16
    | 3 => 24
    | 4 => 24
    | 5 => 32
    | 6 => 56
    | 7 => 64
    | 8 => 88
    | _ => 192

/-- Quantize and iterative nodes choose and produce. -/
def TolNode.produces (t : TolNode) : Bool := t.kind == 0 || t.kind == 2
def TolNode.parties (t : TolNode) : Nat := t.ops.length + (if t.produces then 1 else 0)
/-- U (R194). -/
def TolNode.target (t : TolNode) (c : Nat) : Nat := min 255 (c + share t.parties)
/-- T_i (R194). -/
def TolNode.pass (t : TolNode) (c : Nat) (k : Int) : Nat := (clampInt 0 255 ((c : Int) + share t.parties + k)).toNat

/-- Permitted choice codes, ascending. -/
def TolNode.choices (t : TolNode) : List Nat := (List.range 10).filter (fun c => bitAt t.perm c)

def dfltChoice : Choice := { use := false, rch := false, prd := false, st := false, unm := false, ach := 0, code := 0, cho := 0 }
def choiceAt (b : Block) (n : Nat) : Choice := mgetD b.choice n dfltChoice

/-- Whether an achieved code falls short of what a node asks (R196, R200). -/
def fallsShort (t : TolNode) (e : Choice) (ach : Nat) : Bool := decide (ach < min (t.target e.code) (boundOf t.kind e.cho))

/-- The choice of a producing node (R196). -/
def choose (t : TolNode) (e : Choice) : Choice :=
  let best := (t.choices.find? (fun c => decide (t.target e.code ≤ boundOf t.kind c)))
  let e1 := (match best with
    | some c => { e with cho := c, unm := false }
    | none => { e with cho := t.choices.getLastD 0, unm := true })
  { e1 with st := e1.prd && fallsShort t e1 e1.ach }

/-! ### The walk (R195) -/

/-- Nodes reached from a frontier, with those seen before. -/
def reachFrom (tol : AMap TolNode) : Nat → List Nat → List Nat → List Nat
  | 0, _, seen => seen
  | n + 1, frontier, seen =>
    let next := frontier.flatMap (fun k => (match mget tol k with | some t => t.ops.map (fun o => o.2.1) | none => []))
    reachFrom tol n (next.filter (fun k => !seen.contains k)) (next.foldl sadd seen)

/-- The reached nodes in topological order: a node after every reached parent, the lowest ready first. -/
def topoOrder (tol : AMap TolNode) : Nat → List Nat → List Nat
  | 0, _ => []
  | n + 1, left =>
    match left.find? (fun k => !left.any (fun m => (match mget tol m with | some t => t.ops.any (fun o => o.2.1 == k) | none => false))) with
    | none => []
    | some k => k :: topoOrder tol n (sdel left k)

/-- Codes passed on the way, and the choice file. -/
structure WalkState where
  codes : AMap Nat
  file : AMap Choice

/-- One node on the way down: its code tightens, it passes codes to its operands, and chooses. -/
def walkDown (tol : AMap TolNode) (x : WalkState) (n : Nat) : WalkState :=
  match mget tol n with
  | none => x
  | some t =>
    let e := mgetD x.file n dfltChoice
    let e1 := { e with code := max e.code (mgetD x.codes n 0), rch := true }
    let codes := t.ops.foldl (fun w o => mput w o.2.1 (max (mgetD w o.2.1 0) (t.pass e1.code o.2.2))) x.codes
    { codes := codes, file := mput x.file n (if t.produces then choose t e1 else e1) }

/-- One node on the way up: a node that only passes on takes ST and UNM from below. -/
def walkUp (tol : AMap TolNode) (f : AMap Choice) (n : Nat) : AMap Choice :=
  match mget tol n with
  | none => f
  | some t =>
    if t.produces then f
    else
      let e := mgetD f n dfltChoice
      mput f n { e with st := t.ops.any (fun o => (mgetD f o.2.1 dfltChoice).st), unm := t.ops.any (fun o => (mgetD f o.2.1 dfltChoice).unm) }

/-- The walk from node r with code c: the choice file and the stale mask (R195, R202). -/
def tolWalk (b : Block) (r c : Nat) : AMap Choice × Word64 :=
  if ¬ (mget b.tol r).isSome then (b.choice, 0)
  else
    let order := topoOrder b.tol 64 (reachFrom b.tol 64 [r] [r])
    let down := order.foldl (walkDown b.tol) { codes := [(r, c)], file := b.choice }
    let file := order.reverse.foldl (walkUp b.tol) down.file
    (file, order.foldl (fun x n => if (mgetD file n dfltChoice).st then x ||| (1 <<< n) else x) 0)

/-! ### Producers and consumers (R199, R200) -/

/-- A producing node records its production at its current choice (R199). -/
def produced (t : TolNode) (e : Choice) : Choice :=
  let a := boundOf t.kind e.cho
  { e with prd := true, ach := a, st := fallsShort t e a }

/-- A producing node of a kind, in use. -/
def producerAt (b : Block) (kind n : Nat) : Option TolNode :=
  match mget b.tol n with
  | some t => if t.kind = kind then some t else none
  | none => none

/-- The record of a production. -/
def recordProduction (bk n : Nat) (t : TolNode) (s : State) : State :=
  modBlock bk (fun b => { b with choice := mput b.choice n (produced t (choiceAt b n)) }) s

/-- The Unmet check of R199: the trap, or go on. -/
def unmetCheck (v : View) (mask : Word32) (n : Nat) (go : Wave → State → Result) (s : State) : Result :=
  if (choiceAt v.b n).unm then raiseTrap v.key v.w { cause := 4, detail := n, lanes := mask } go s
  else go v.w s

/-- A reservation is stale for the node it records (R200). -/
def staleRes (b : Block) (r : Res) : Bool :=
  r.nv && (match mget b.tol r.node with
    | some t => t.produces && fallsShort t (choiceAt b r.node) r.ach
    | none => false)

/-- The staleness check of one reservation: the trap, or go on. -/
def staleCheck (v : View) (mask : Word32) (owner : Block) (n : Nat) (go : Wave → State → Result) (w : Wave) (s : State) : Result :=
  match mget owner.res n with
  | none => go w s
  | some r =>
    if staleRes v.b r then raiseTrap v.key w { cause := 3, detail := r.node + n * 256, lanes := mask } go s
    else go w s

/-! ### DEMAND, TOLRD (R240, R241) -/

/-- Sources and the value of a Q field. -/
def srcQ (o : Operand) : Src := { o := o }
def valQ (w : Wave) (o : Operand) : Nat := (rawOp w none false o 0).toNat
/-- A destination that NONE leaves out. -/
def dstQ (o : Operand) : List (Operand × Nat) := match o with | .none => [] | o => [(o, 1)]
/-- Write an s destination that NONE leaves out. -/
def putS (o : Operand) (x : Word64) (w : Wave) : Wave := match o with | .s n => setS w n.toNat x | _ => w

def execDemand (q : QW) (s : State) : Result :=
  viewWord q.guard [srcQ q.ib] (dstQ q.ia) (fun v _ t =>
    let c := valQ v.w q.ib
    if c > 255 then illegalWord v.w t
    else
      let r := tolWalk v.b q.node.toNat c
      .next (putWave v.key (advance (putS q.ia r.2 v.w)) (modBlock v.w.blk (fun b => { b with choice := r.1 }) t))) s

/-- A choice file entry as a word (R197). -/
def choiceWord (e : Choice) : Nat :=
  (if e.use then 2 ^ 31 else 0) + (if e.rch then 2 ^ 30 else 0) + (if e.prd then 2 ^ 29 else 0) + (if e.st then 2 ^ 28 else 0) +
    (if e.unm then 2 ^ 27 else 0) + e.ach * 2 ^ 16 + e.code * 2 ^ 8 + e.cho

/-- A long-latency producer whose value is bound when it issues. -/
def lateResult (v : View) (d : Operand) (size : Nat) (mask : Word32) (lanes : List (Nat × Nat)) (s : State) : Result :=
  let ret : Return := { info := wordInfo v.w, dest := d, size := size, sx := false, lanes := lanes, far := [], bad := none, addrs := [], acq := false }
  .next (putWave v.key (advance (markEmpty d (resultRegs d size) mask { v.w with returns := v.w.returns ++ [ret] })) s)

def execTolrd (q : QW) (s : State) : Result :=
  viewWord q.guard [srcQ q.ib] [(q.ia, 1)] (fun v mask t =>
    let n := (match q.ib with | .none => q.node.toNat | o => valQ v.w o)
    if n > 63 then illegalWord v.w t
    else lateResult v q.ia 8 mask [(0, choiceWord (choiceAt v.b n))] t) s

/-! ### TOLTAB (R192, R193, R198, R242) -/

/-- An entry's two doublewords. -/
structure TolImage where
  d0 : Nat
  d1 : Nat

def TolImage.used (e : TolImage) : Bool := bitAt e.d1 63
def TolImage.kind (e : TolImage) : Nat := field e.d0 0 2
def TolImage.cnt (e : TolImage) : Nat := field e.d0 2 2 + 1
def TolImage.ndm (e : TolImage) (i : Nat) : Bool := bitAt e.d0 (4 + i)
def TolImage.op (e : TolImage) (i : Nat) : Nat := field e.d0 (8 + 6 * i) 6
def TolImage.sens (e : TolImage) (i : Nat) : Int := toSigned 8 (field e.d0 (32 + 8 * i) 8)
def TolImage.perm (e : TolImage) : Nat := field e.d1 0 10

/-- The rules of one entry in use (R193). -/
def entryValid (used : Nat → Bool) (e : TolImage) : Bool :=
  field e.d1 10 53 == 0 &&
    ([0, 1, 2, 3].all (fun i =>
      if i < e.cnt ∧ e.ndm i then used (e.op i) else (!e.ndm i || decide (i < e.cnt)) && e.op i == 0 && e.sens i == 0)) &&
    (match e.kind with
     | 0 => e.cnt == 1 && e.perm != 0
     | 1 => e.cnt == 2 && e.perm == 0
     | 2 => e.cnt == 1 && e.perm != 0 && decide (e.perm < 8)
     | _ => e.perm == 0)

/-- No path from a node passes through more than n nodes. -/
def pathWithin (tol : AMap TolNode) : Nat → Nat → Bool
  | 0, _ => false
  | n + 1, k => (match mget tol k with | some t => t.ops.all (fun o => pathWithin tol n o.2.1) | none => true)

/-- A node from its entry. -/
def nodeOf (e : TolImage) : TolNode :=
  { kind := e.kind, perm := e.perm
    ops := ([0, 1, 2, 3].filter (fun i => decide (i < e.cnt) && e.ndm i)).map (fun i => (i, e.op i, e.sens i)) }

/-- The table an image holds, if it is valid (R193). -/
def parseTable (image : List Byte) : Option (AMap TolNode) :=
  let es := (List.range 64).map (fun j => { d0 := bytesToNat ((image.drop (16 * j)).take 8), d1 := bytesToNat ((image.drop (16 * j + 8)).take 8) : TolImage })
  let used := fun n => (match es[n]? with | some e => e.used | none => false)
  let tol := ((List.range 64).zip es).filterMap (fun p => if p.2.used then some (p.1, nodeOf p.2) else none)
  if es.all (fun e => if e.used then entryValid used e else e.d0 == 0 && e.d1 == 0) && tol.all (fun p => pathWithin tol 8 p.1) then some tol
  else none

/-- The choice file right after a load (R198). -/
def freshFile (tol : AMap TolNode) : AMap Choice :=
  tol.map (fun p => (p.1, { dfltChoice with use := true, cho := if p.2.produces then p.2.choices.headD 0 else 0 }))

/-- A read of a word that holds its wave until the bytes are there, as a load of the wave. back: what the word leaves where it waits: its reads so far are made again when it issues, and none of them has been sent (R122). -/
def heldRead (v : View) (ptr n : Nat) (s : State) (go : List Byte → State → Result) (back : State := s) : Result :=
  let addr := ptrAddr ptr
  match laneFault (fun p => checkAccess s v .load (some (ptrTag p)) (ptrAddr p) n) [(0, ptr)] with
  | some f => issueFault v f (notePassed v .load n [(0, addr)]) s back
  | none =>
    let places := (List.range n).map (fun j => placeOf s v 0 (addr + j))
    if emptyLineLanes v.b [(0, ptr)] n ≠ [] ∨ loadBlocked s v places then hold back
    else
      match laneBytes s v 0 addr n (checkAccess s v .load (some (ptrTag ptr)) addr n == .pending) with
      | none => hold back
      | some bs =>
        let t := recordAccs v false n [(0, ptr)] s
        if lostUnit s v 0 addr n then hardFault v.w { cause := 10, addr := ptr } t
        else go bs (sendReads v 0 addr n t)

def execToltab (q : QW) (s : State) : Result :=
  viewWord q.guard [srcQ q.ia] [] (fun v _ t =>
    let p := valQ v.w q.ia
    if p % 16 ≠ 0 then illegalWord v.w t
    else heldRead v p 1024 t (fun bs u =>
      match parseTable bs with
      | none => illegalWord v.w u
      | some tol => done v.key (modBlock v.w.blk (fun b => { b with tol := tol, choice := freshFile tol }) u))) s

end Sys2Proof.Machine
end

