-- ==== Sys2Proof/Machine/Iterative.lean ====
section
/-! DEFINITION. The iterative functions FRCP, FRSQ, FEXP2, FLOG2 and FTANH (R215): the exact value rounded once. A value that is not rational is computed in fixed point to `fixBits` bits after the point, with a sticky remainder: far below the distance of any FP32 argument's value from a rounding boundary (log 8). -/
namespace Sys2Proof.Machine

/-- Round |y| = m × 2^e, with a sticky remainder, for an iteration count (R215). -/
def iterRound (n : Nat) (neg : Bool) (m : Nat) (e : Int) (sticky : Bool) : Nat :=
  if n ≥ 2 then fRound fmtF32 0 false neg m e sticky
  else
    let cut := Nat.log2 m + 1 - (if n = 0 then 12 else 22)
    let m1 := m / 2 ^ cut
    let e1 := e + cut
    if m ≠ 0 ∧ (Nat.log2 m : Int) + e ≥ 128 then fInf fmtF32 neg
    else fRound fmtF32 1 false neg m1 e1 false

/-! ### Rational and algebraic values -/

/-- 1 / (m × 2^e). -/
def recipRound (n : Nat) (neg : Bool) (m : Nat) (e : Int) : Nat :=
  iterRound n neg (2 ^ 200 / m) (-e - 200) (2 ^ 200 % m != 0)

/-- 1 / √(m × 2^e). -/
def rsqrtRound (n : Nat) (m : Nat) (e : Int) : Nat :=
  let odd := e % 2 != 0
  let m1 := if odd then 2 * m else m
  let e1 := if odd then e - 1 else e
  let r := isqrt (2 ^ 400 / m1)
  iterRound n false r (-200 - e1 / 2) (r * r * m1 != 2 ^ 400)

/-! ### Fixed point -/

def fixBits : Nat := 320

/-- Σ z^(2k+1) / (2k+1) from term k on: zk is z^(2k+1), zz is z². -/
def atanhSum : Nat → Nat → Nat → Nat → Nat
  | 0, _, _, _ => 0
  | n + 1, k, zk, zz => zk / (2 * k + 1) + atanhSum n (k + 1) (zk * zz / 2 ^ fixBits) zz

/-- atanh z for z of at most 1/3. -/
def atanhFix (z : Nat) : Nat := atanhSum 110 0 z (z * z / 2 ^ fixBits)

/-- ln 2 = 2 atanh (1/3). -/
def ln2Fix : Nat := 2 * atanhFix (2 ^ fixBits / 3)

/-- Σ t^k / k! from term k on. -/
def expSum : Nat → Nat → Nat → Nat → Nat
  | 0, _, _, _ => 0
  | n + 1, k, tk, t => tk + expSum n (k + 1) (tk * t / 2 ^ fixBits / (k + 1)) t

/-- 2^f for a fraction f below 1: between 1 and 2. -/
def exp2Fix (f : Nat) : Nat := expSum 80 0 (2 ^ fixBits) (f * ln2Fix / 2 ^ fixBits)

/-- Drop the low bits that the series leave inexact. -/
def guardBits : Nat := 32

/-- A positive fixed-point value that is not exact, rounded. -/
def fixRound (n : Nat) (neg : Bool) (x : Nat) (e : Int) : Nat :=
  iterRound n neg (x / 2 ^ guardBits) (e - fixBits + guardBits) true

/-! ### The functions of finite arguments -/

/-- 2^x for x = ±m × 2^e. -/
def exp2Round (n : Nat) (neg : Bool) (m : Nat) (e : Int) : Nat :=
  if m ≠ 0 ∧ (Nat.log2 m : Int) + e ≥ 9 then (if neg then iterRound n false 1 (-600) true else iterRound n false 1 600 false)
  else
    let x : Int := inUnits neg m e (-fixBits)
    let whole := x / (2 ^ fixBits : Nat)
    let frac := (x % (2 ^ fixBits : Nat)).toNat
    if frac = 0 then iterRound n false 1 whole false else fixRound n false (exp2Fix frac) whole

/-- log2 x for x = m × 2^e, m ≠ 0. -/
def log2Round (n : Nat) (m : Nat) (e : Int) : Nat :=
  let l := Nat.log2 m
  let whole : Int := (l : Int) + e
  if m = 2 ^ l then iterRound n (decide (whole < 0)) whole.natAbs 0 false
  else
    let z := (m - 2 ^ l) * 2 ^ fixBits / (m + 2 ^ l)
    let y : Int := whole * (2 ^ fixBits : Nat) + ((2 * atanhFix z * 2 ^ fixBits / ln2Fix : Nat) : Int)
    fixRound n (decide (y < 0)) y.natAbs 0

/-- 2^−t for t ≥ 0 in fixed point. -/
def expNeg (t : Nat) : Nat :=
  let k := t / 2 ^ fixBits
  let f := t % 2 ^ fixBits
  if f = 0 then 2 ^ fixBits / 2 ^ k else exp2Fix (2 ^ fixBits - f) / 2 ^ (k + 1)

/-- tanh |x| for x = m × 2^e, m ≠ 0: below 2^−20 it lies just below |x|, and from 32 just below 1. -/
def tanhRound (n : Nat) (neg : Bool) (m : Nat) (e : Int) : Nat :=
  let top : Int := (Nat.log2 m : Int) + e
  if top < -20 then iterRound n neg (m * 2 ^ 40 - 1) (e - 40) true
  else if top ≥ 5 then iterRound n neg (2 ^ 40 - 1) (-40) true
  else
    let x := (inUnits false m e (-fixBits)).toNat
    let u := expNeg (2 * x * 2 ^ fixBits / ln2Fix)
    fixRound n neg ((2 ^ fixBits - u) * 2 ^ fixBits / (2 ^ fixBits + u)) 0

/-! ### The table of special inputs (R215) -/

def oneF32 (neg : Bool) : Nat := if neg then 0xBF800000 else 0x3F800000

def frcpVal (n x : Nat) : Nat :=
  match fDecode fmtF32 x with
  | .nan => fNan fmtF32
  | .inf neg => signBit fmtF32 neg
  | .fin neg m e => if m = 0 then fInf fmtF32 neg else recipRound n neg m e

def frsqVal (n x : Nat) : Nat :=
  match fDecode fmtF32 x with
  | .nan => fNan fmtF32
  | .inf neg => if neg then fNan fmtF32 else 0
  | .fin neg m e => if m = 0 then fInf fmtF32 neg else if neg then fNan fmtF32 else rsqrtRound n m e

def fexp2Val (n x : Nat) : Nat :=
  match fDecode fmtF32 x with
  | .nan => fNan fmtF32
  | .inf neg => if neg then 0 else fInf fmtF32 false
  | .fin neg m e => if m = 0 then oneF32 false else exp2Round n neg m e

def flog2Val (n x : Nat) : Nat :=
  match fDecode fmtF32 x with
  | .nan => fNan fmtF32
  | .inf neg => if neg then fNan fmtF32 else fInf fmtF32 false
  | .fin neg m e => if m = 0 then fInf fmtF32 true else if neg then fNan fmtF32 else log2Round n m e

def ftanhVal (n x : Nat) : Nat :=
  match fDecode fmtF32 x with
  | .nan => fNan fmtF32
  | .inf neg => oneF32 neg
  | .fin neg m e => if m = 0 then signBit fmtF32 neg else tanhRound n neg m e

/-! ### The words -/

/-- The node that C names. -/
def iterNode (x : XW) : Option Nat :=
  match x.c with
  | .int n => some n.toNat
  | _ => none

/-- Write f at iteration count n in each lane. -/
def iterWrite (x : XW) (f : Nat → Nat → Nat) (n : Nat) (m : Word32) (w : Wave) : Wave :=
  putLanes x.t x.d m (fun i => f n (valA x w i)) w

/-- An iterative word: without a node, 2 iterations; with one, the Sage step of R199 and its choice. -/
def iterWord (x : XW) (f : Nat → Nat → Nat) (s : State) : Result :=
  match iterNode x with
  | none => regWord x.guard [srcA x false] [dstD x false] (iterWrite x f 2) s
  | some n =>
    viewWord x.guard [srcA x false] [dstD x false] (fun v m t =>
      match producerAt v.b 2 n with
      | none => illegalWord v.w t
      | some node =>
        unmetCheck v m n (fun w u =>
          .next (putWave v.key (advance (iterWrite x f (choiceAt v.b n).cho m w)) (recordProduction v.w.blk n node u))) t) s

def execFrcp (x : XW) (s : State) : Result := iterWord x frcpVal s
def execFrsq (x : XW) (s : State) : Result := iterWord x frsqVal s
def execFexp2 (x : XW) (s : State) : Result := iterWord x fexp2Val s
def execFlog2 (x : XW) (s : State) : Result := iterWord x flog2Val s
def execFtanh (x : XW) (s : State) : Result := iterWord x ftanhVal s

end Sys2Proof.Machine
end

