-- ==== Sys2Proof/Machine/Matrix.lean ====
section
/-! DEFINITION. The W buffer's reservations, the quantizer, the matrix loop, and accumulator tiles (R121, R156, R157, R179 to R187, R223 to R239). -/
namespace Sys2Proof.Machine

/-! ### Reservations (R225 to R230) -/

/-- Bits of an element in a format (R227). -/
def elemBits (fmt : Nat) : Nat := if fmt ≤ 3 then 4 else if fmt ≤ 6 then 8 else if fmt ≤ 8 then 16 else 32
/-- Step class K of a format (R227). -/
def stepClass (fmt : Nat) : Nat := if fmt ≤ 3 then 96 else if fmt ≤ 6 then 48 else 24
def blockLen (b32 : Bool) : Nat := if b32 then 32 else 48
/-- RB, NB, SOFF and the size of R227. -/
def rowBytes (fmt e : Nat) : Nat := e * elemBits fmt / 8
def scaleOff (fmt e : Nat) (sc : Bool) : Nat := if sc then 32 * rowBytes fmt e else 0
def resSize (fmt e : Nat) (b32 sc : Bool) : Nat := 32 * rowBytes fmt e + (if sc then 64 * (e / blockLen b32) else 0)
def Res.elems (r : Res) : Nat := r.e96 * 96
/-- Bytes of the units a reservation holds. -/
def Res.room (r : Res) : Nat := (r.units + 1) * 4096

/-- The record as a word (R226). -/
def recordWord (r : Res) : Nat :=
  r.st * 2 ^ 61 + r.ach * 2 ^ 53 + (if r.nv then 2 ^ 52 else 0) + r.node * 2 ^ 46 + r.fmt * 2 ^ 42 + (if r.b32 then 2 ^ 41 else 0) +
    (if r.sc then 2 ^ 40 else 0) + r.e96 * 2 ^ 28 + r.units * 2 ^ 20 + r.soff

/-- Units a block holds. -/
def unitsHeld (b : Block) : Nat := b.res.foldl (fun n r => n + r.2.units + 1) 0
/-- Units held on a core by every block on it. -/
def unitsOn (s : State) (core : Option Nat) : Nat := s.blocks.foldl (fun n b => if b.2.core = core then n + unitsHeld b.2 else n) 0

def admitsWriter (r : Option Res) : Bool := match r with | some r => r.st == 1 || r.st == 3 | none => false
def admitsReader (r : Option Res) : Bool := match r with | some r => r.st == 3 || r.st == 4 | none => false

def modRes (bk n : Nat) (f : Res → Res) (s : State) : State :=
  modBlock bk (fun b => match mget b.res n with | some r => { b with res := mput b.res n (f r) } | none => b) s

/-- A reader issues, and a reader has read its last byte (R121). -/
def startRead (r : Res) : Res := { r with st := 4, readers := r.readers + 1 }
def endRead (r : Res) : Res := { r with readers := r.readers - 1, st := if r.readers ≤ 1 then 3 else r.st }

/-- The format word and element count that WRES accepts (R227, R228). -/
def formatOk (e f : Nat) : Bool :=
  let fmt := field f 0 4
  let sc := bitAt f 5
  e != 0 && e % 96 == 0 && decide (f < 64) && decide (fmt ≤ 9) && !(bitAt f 4 && !sc) && !(decide (fmt ≤ 3) && !sc) && !(decide (fmt ≥ 7) && sc)

def execWres (q : QW) (s : State) : Result :=
  viewWord q.guard [srcQ q.ia, srcQ q.ib] [] (fun v _ t =>
    let e := valQ v.w q.ia
    let f := valQ v.w q.ib
    let fmt := field f 0 4
    let size := resSize fmt e (bitAt f 4) (bitAt f 5)
    let n := (size + 4095) / 4096
    let own := unitsHeld { v.b with res := mdel v.b.res q.wa.toNat }
    if ¬ formatOk e f ∨ size > 2 ^ 20 ∨ own + n > 256 then illegalWord v.w t
    else if (mget v.b.res q.wa.toNat).isSome ∨ unitsOn t v.b.core + n > 256 then hold t
    else
      let r : Res := { st := 1, ach := 0, nv := false, node := 0, fmt := fmt, b32 := bitAt f 4, sc := bitAt f 5, e96 := e / 96
                       units := n - 1, soff := scaleOff fmt e (bitAt f 5), readers := 0, bytes := [] }
      done v.key (modBlock v.w.blk (fun b => { b with res := mput b.res q.wa.toNat r }) t)) s

def execWrel (q : QW) (s : State) : Result :=
  viewWord q.guard [] [] (fun v _ t =>
    if admitsWriter (mget v.b.res q.wa.toNat) then done v.key (modBlock v.w.blk (fun b => { b with res := mdel b.res q.wa.toNat }) t)
    else hold t) s

def execWstat (q : QW) (s : State) : Result :=
  viewWord q.guard [] [(q.ia, 1)] (fun v _ t =>
    match mget v.b.res q.wa.toNat with
    | some r => .next (putWave v.key (advance (putS q.ia (BitVec.ofNat 64 (recordWord r)) v.w)) t)
    | none => hold t) s

/-! ### Elements (R179 to R183, R227) -/

/-- The floating type of a format: E5M2, E4M3, BF16, FP16, FP32. -/
def fmtTy (fmt : Nat) : Ty :=
  match fmt with
  | 4 => .e5m2
  | 5 => .e4m3
  | 7 => .bf16
  | 8 => .f16
  | _ => .f32

/-- The bits of element k of a lane. -/
def elemBitsAt (r : Res) (lane k : Nat) : Nat :=
  let base := lane * rowBytes r.fmt r.elems
  if r.fmt ≤ 3 then field (mgetD r.bytes (base + k / 2) 0).toNat (4 * (k % 2)) 4
  else bytesToNat (cellsGet r.bytes (base + k * (elemBits r.fmt / 8)) (elemBits r.fmt / 8))

/-- The scale word of the block that holds element k of a lane. -/
def scaleAt (r : Res) (lane k : Nat) : Nat :=
  bytesToNat (cellsGet r.bytes (r.soff + 2 * (lane * (r.elems / blockLen r.b32) + k / blockLen r.b32)) 2)

/-- An element's value without its scale; et: the element type its scale word names (R179). -/
def codeValue (fmt et x : Nat) : FVal :=
  if fmt ≤ 3 then fourBitValue et x
  else if fmt = 6 then let i := toSigned 8 x; .fin (decide (i < 0)) i.natAbs 0
  else fDecode (fmtOf (fmtTy fmt)) x

/-- An element's value, exactly (R183). -/
def elemValue (r : Res) (lane k : Nat) : FVal :=
  if r.sc then
    let w := scaleAt r lane k
    match s10Value (decide (r.fmt ≤ 3)) r.b32 w with
    | none => .nan
    | some sc => scaleBy (codeValue r.fmt (field w 10 2) (elemBitsAt r lane k)) sc
  else codeValue r.fmt 0 (elemBitsAt r lane k)

/-! ### The matrix step (R185) -/

/-- floor(log2 |p|) of a nonzero value. -/
def expOf : FVal → Option Int
  | .fin _ m e => if m = 0 then none else some ((Nat.log2 m : Int) + e)
  | _ => none

def maxExp (ps : List FVal) : Option Int := ps.foldl (fun b p => match b, expOf p with | some x, some y => some (max x y) | none, y => y | x, none => x) none

/-- A product truncated toward zero to a multiple of 2^q, in those units. -/
def truncUnits (q : Int) : FVal → Int
  | .fin neg m e => let n : Int := ((if q ≤ e then m * 2 ^ (e - q).toNat else m / 2 ^ (q - e).toNat : Nat) : Int); if neg then -n else n
  | _ => 0

/-- The signs of the infinities among the products. -/
def infSigns (ps : List FVal) : List Bool := ps.filterMap (fun p => match p with | .inf n => some n | _ => none)

/-- One step of one element (R185): the accumulator's new bits. -/
def matrixStep (acc : Nat) (ps : List FVal) : Nat :=
  let a := fDecode fmtF32 acc
  if a.isNan ∨ ps.any FVal.isNan then fNan fmtF32
  else
    match infSigns ps with
    | n :: rest => if rest.any (fun x => x != n) ∨ a = .inf (!n) then fNan fmtF32 else fInf fmtF32 n
    | [] =>
      match maxExp ps with
      | none => acc
      | some x =>
        let q := x - 47
        let sum := ps.foldl (fun n p => n + truncUnits q p) 0
        fEncode fmtF32 0 false (fAdd 0 a (.fin (decide (sum < 0)) sum.natAbs q))

/-- The products of step t for element (i, j). -/
def stepProducts (ra rb : Res) (k a0 b0 t i j : Nat) : List FVal :=
  (List.range k).map (fun x => fMul (elemValue ra i (a0 * k + t * k + x)) (elemValue rb j (b0 * k + t * k + x)))

/-- A loop of n steps on one element, in ascending t. -/
def loopElem (ra rb : Res) (k a0 b0 n i j acc : Nat) : Nat :=
  (List.range n).foldl (fun c t => matrixStep c (stepProducts ra rb k a0 b0 t i j)) acc

/-! ### Tiles (R237) -/

def tileKey (t i j : Nat) : Nat := t * 1024 + i * 32 + j
def tileAt (b : Block) (t i j : Nat) : Word32 := mgetD b.tiles (tileKey t i j) 0
def setTile (t i j : Nat) (x : Word32) (b : Block) : Block := { b with tiles := mset 0 b.tiles (tileKey t i j) x }

/-- Every element (i, j). -/
def allElems : List (Nat × Nat) := lanes32.flatMap (fun i => lanes32.map (fun j => (i, j)))

/-- Change every element of a tile. -/
def mapTile (t : Nat) (f : Nat → Nat → Word32 → Word32) (b : Block) : Block :=
  allElems.foldl (fun c e => setTile t e.1 e.2 (f e.1 e.2 (tileAt b t e.1 e.2)) c) b

/-- Physical tiles bound on a core. -/
def tilesOn (s : State) (core : Option Nat) : Nat := s.blocks.foldl (fun n b => if b.2.core = core then n + b.2.bound.length else n) 0

/-- Enough physical tiles are free to bind the tiles a word names (R237). -/
def tilesFree (v : View) (ts : List Nat) (s : State) : Bool :=
  decide (tilesOn s v.b.core + (ts.filter (fun t => !v.b.bound.contains t)).length ≤ 64)

/-- Bind the tiles a word names. -/
def bindTiles (bk : Nat) (ts : List Nat) (s : State) : State := modBlock bk (fun b => { b with bound := ts.foldl sadd b.bound }) s

/-- An older MLOOP of the wave on one of the tiles has not completed (R239): its last step is accumulated when it has run (R234), retired or not. -/
def loopOn (w : Wave) (ts : List Nat) : Bool :=
  w.mtxQ.any (fun e => !e.ran && (match e.op with | .mloop ct _ _ _ _ _ _ => ts.contains ct | _ => false))

/-- A tile word: it waits for the wave's older loops, its tiles are bound, and it takes effect at issue. -/
def tileWord (v : View) (ts : List Nat) (go : State → Result) (s : State) : Result :=
  if loopOn v.w ts ∨ ¬ tilesFree v ts s then hold s else go (bindTiles v.w.blk ts s)

def execCzero (q : QW) (s : State) : Result :=
  viewWord q.guard [] [] (fun v _ t =>
    let ts := (List.range (q.kn.toNat + 1)).map (fun i => q.ct.toNat + i)
    tileWord v ts (fun u => done v.key (modBlock v.w.blk (fun b => ts.foldl (fun c n => mapTile n (fun _ _ _ => 0) c) b) u)) t) s

/-- The peer block of a word (R235): the block whose f2 is SUB − 8 in the group; the word is illegal where the group has no such block or it has completed. -/
def peerOf (v : View) (sub : Nat) (s : State) : Option (Nat × Block) :=
  let f2 := sub - 8
  if f2 ≥ v.g.d.gs then none
  else
    let num := groupOf v.g.d v.b.num * v.g.d.gs + f2
    if hasStatus v.g num then none
    else (mget s.blocks (blockKey v.b.gid num)).map (fun b => (blockKey v.b.gid num, b))

/-- CADD from a block's tile. DESIGN CHOICE (log 56): an inline tile number outside its range is Illegal when the word issues, as a register's is. -/
def caddFrom (q : QW) (own : Bool) (v : View) (src : Block) (s : State) : Result :=
  let t := valQ v.w q.ia
  if t > 63 then illegalWord v.w s
  else
    let ct := q.ct.toNat
    tileWord v (if own ∧ t ≠ ct then [ct, t] else [ct]) (fun u =>
      done v.key (modBlock v.w.blk (mapTile ct (fun i j x => BitVec.ofNat 32 (faddVal .f32 0 x.toNat (tileAt src t i j).toNat))) u)) s

def execCadd (q : QW) (s : State) : Result :=
  viewWord q.guard [srcQ q.ia] [] (fun v _ t => caddFrom q true v v.b t) s
def execCaddPeer (q : QW) (s : State) : Result :=
  viewWord q.guard [srcQ q.ia] [] (fun v _ t =>
    match peerOf v q.sub.toNat t with
    | none => illegalWord v.w t
    | some (k, b) => caddFrom q (k == v.w.blk) v b t) s

/-- A tile scaled by a factor for each element; the elements without one keep their value. -/
def scaleTile (q : QW) (f : View → Word32 → Nat → Nat → Option Nat) (s : State) : Result :=
  viewWord q.guard [srcQ q.ia] [] (fun v m t =>
    tileWord v [q.ct.toNat] (fun u =>
      done v.key (modBlock v.w.blk (mapTile q.ct.toNat (fun i j x => match f v m i j with | some y => BitVec.ofNat 32 (fmulVal .f32 0 x.toNat y) | none => x)) u)) t) s

def execCscale (q : QW) (s : State) : Result := scaleTile q (fun v _ _ _ => some (tyOp v.w none .f32 q.ia 0)) s
def execCscaleRow (q : QW) (s : State) : Result :=
  scaleTile q (fun v m i _ => if m.getLsbD i then some (tyOp v.w none .f32 q.ia i) else none) s
def execCscaleCol (q : QW) (s : State) : Result :=
  scaleTile q (fun v m _ j => if m.getLsbD j then some (tyOp v.w none .f32 q.ia j) else none) s

/-! ### LDC and STC (R156) -/

/-- Element of lane i for row or column r. -/
def laneElem (col : Bool) (r i : Nat) : Nat × Nat := if col then (i, r) else (r, i)

/-- Row or column and tile of LDC and STC; beyond their ranges the word is illegal. -/
def tileOperands (m : MW) (w : Wave) : Option (Nat × Nat) :=
  let r := (rawOp w m.lit false m.a 0).toNat
  let t := (rawOp w m.lit false m.b 0).toNat
  if r < 32 ∧ t < 64 then some (r, t) else none

def loadTile (col : Bool) (m : MW) (s : State) : Result :=
  viewWord m.guard [plainSrc m m.a, plainSrc m m.b] [(m.d, 1)] (fun v mask t =>
    match tileOperands m v.w with
    | none => illegalWord v.w t
    | some (r, n) => tileWord v [n] (fun u =>
        lateResult v m.d 4 mask ((lanesOf mask).map (fun i => (i, (tileAt v.b n (laneElem col r i).1 (laneElem col r i).2).toNat))) u) t) s

def storeTile (col : Bool) (m : MW) (s : State) : Result :=
  viewWord m.guard [plainSrc m m.a, plainSrc m m.b, plainSrc m m.d] [] (fun v mask t =>
    match tileOperands m v.w with
    | none => illegalWord v.w t
    | some (r, n) => tileWord v [n] (fun u =>
        done v.key (modBlock v.w.blk (fun b => (lanesOf mask).foldl (fun c i =>
          setTile n (laneElem col r i).1 (laneElem col r i).2 (BitVec.ofNat 32 (intOp v.w m.lit 32 m.d i)) c) b) u)) t) s

def execLdc (m : MW) (s : State) : Result := loadTile false m s
def execLdcCol (m : MW) (s : State) : Result := loadTile true m s
def execStc (m : MW) (s : State) : Result := storeTile false m s
def execStcCol (m : MW) (s : State) : Result := storeTile true m s

/-! ### Engine queues (R141, R142, R166) -/

/-- An engine entry of the issuing word; the A lines of a source range that are empty now are waited for. -/
def engEntry (v : View) (op : EngOp) (lines : List Nat) : EngEntry :=
  { op := op, info := wordInfo v.w, need := lines.filter (fun l => v.b.aE.contains l), after := v.w.mq.length, no := v.w.engNo, ran := false }

/-- Bytes that an access reads or writes: its lane, the first address, the length. -/
structure Span where
  lane : Nat
  addr : Nat
  len  : Nat

/-- Two stretches within one 64 KiB unit share a byte. -/
def placesMeet (p : Place) (m : Nat) (q : Place) (n : Nat) : Bool :=
  let meet := fun (a b : Nat) => decide (a < b + n) && decide (b < a + m)
  match p, q with
  | .a x, .a y => meet x y
  | .phys x _, .phys y _ => meet x y
  | .nowhere x, .nowhere y => meet x y
  | _, _ => false

/-- Two accesses of a wave share a location. -/
def spansMeet (s : State) (v : View) (a b : Span) : Bool :=
  (units a.addr a.len).any (fun x => (units b.addr b.len).any (fun y =>
    placesMeet (placeOf s v a.lane x.1) x.2 (placeOf s v b.lane y.1) y.2))

/-- What a queued operation writes, tags included. -/
def opSpans : MemOp → List Span
  | .store ps => ps.map (fun p => ⟨p.lane, p.addr, p.data.length⟩)
  | .journal _ _ ps => ps.map (fun p => ⟨p.lane, p.addr, p.data.length⟩)
  | .atom _ _ size _ lanes => lanes.map (fun l => ⟨l.lane, l.addr, size⟩)
  | .tagset writes => writes.map (fun w => ⟨w.1, w.2.1 / 32 * 32, 32⟩)
  | .tagRange addr len _ => [⟨0, addr, len⟩]
  | _ => []

/-- What a queued operation accesses: what it writes, and the range of a CLEAN. -/
def opUses : MemOp → List Span
  | .clean addr len _ _ => [⟨0, addr, len⟩]
  | op => opSpans op

/-- What a copy is still to write, beside a reservation. -/
def engWrites : EngOp → List Span
  | .cpy dst _ _ _ len => [⟨0, dst, len⟩]
  | .cpyLane size lanes _ => lanes.map (fun l => ⟨l.lane, l.dst, size⟩)
  | .cpyt dst _ _ _ _ rb n _ _ => [⟨0, dst, n * rb⟩]
  | _ => []

/-- A row of a fetch is not read yet, or may bring its page in: it reads and writes global memory that tables decide (R264, R265). -/
def rowOpen (missed : List Nat) (r : RowSnap) : Bool :=
  match r with
  | .zero => false
  | .row slot _ tier _ _ => tier == 1 && !missed.contains (slot / 16)
  | _ => true

/-- A fetch that may still read and write global memory that tables decide. -/
def engOpens : EngOp → Bool
  | .fetch _ _ _ _ rows _ missed => rows.any (rowOpen missed)
  | _ => false

/-- What an engine operation of a block is still to read; none: a table decides. -/
def engReads (b : Block) : EngOp → Option (List Span)
  | .cpy _ _ src _ len => some [⟨0, src, len⟩]
  | .cpyLane size lanes none => some (lanes.map (fun l => ⟨l.lane, l.src, size⟩))
  | .cpyt _ _ _ _ _ _ _ _ _ => none
  | .cpytW _ _ _ _ _ _ _ _ _ => none
  | .fetch _ _ _ _ rows _ missed => if rows.any (rowOpen missed) then none else some []
  | .qcvt wd addr stride _ => some (lanes32.map (fun l => ⟨0, addr + l * stride, 4 * ((mget b.res wd).map Res.elems).getD 0⟩))
  | _ => some []

/-- What an engine operation comes after: an older acquire of its wave (R134); what its wave's older queued operations write, and what its older engine operations that are not complete read and write (R141). What an older gather or fetch writes lies on empty lines (R120). -/
structure Older where
  /-- an older acquire is not performed -/
  acquire : Bool
  writes : List Span
  /-- an older fetch may still write global memory, to bring a page in -/
  opens  : Bool
  reads  : List (Option (List Span))

/-- The engine operations of a wave that are not complete. -/
def engOpen (w : Wave) : List EngEntry := (w.cpyQ ++ w.mtxQ ++ w.gatQ).filter (fun x => !x.ran)

/-- An acquire in the memory queue: an LDS.acq or ATOM.acq that is not performed (R133). -/
def isAcquire (e : MqEntry) : Bool := e.acq && (match e.op with | .lds _ _ => true | .atom _ _ _ _ _ => true | _ => false)

def olderThan (v : View) (e : EngEntry) : Older :=
  let older := ((engOpen v.w).filter (fun x => decide (x.no < e.no))).map (fun x => x.op)
  { acquire := (v.w.mq.take e.after).any isAcquire
    writes := (v.w.mq.take e.after).flatMap (fun m => opSpans m.op) ++ older.flatMap engWrites, opens := older.any engOpens, reads := older.map (engReads v.b) }

/-- A read waits for an older acquire, and for an older write of the location. -/
def Older.holdsRead (o : Older) (s : State) (v : View) (x : Span) : Bool := o.acquire || (o.opens && windowOf x.addr == .global) || o.writes.any (spansMeet s v x)

/-- A write waits for an older read or write of the location. -/
def Older.holdsWrite (o : Older) (s : State) (v : View) (x : Span) : Bool :=
  o.holdsRead s v x || o.reads.any (fun r => match r with | some l => l.any (spansMeet s v x) | none => true)

/-- What a stretch of an engine's work comes to: the operation is complete; it is held at the point it has reached, by a line (line) or by a pending translation or an older access; or it fails, what it has written staying written. -/
inductive Worked where
  | done (s : State)
  | part (op : EngOp) (line : Bool) (s : State)
  | fail (f : FaultSpec) (s : State)

/-- Put an operation into the matrix queue, and count it. -/
def queueMtx (e : EngEntry) (w : Wave) : Wave := { w with mtxQ := w.mtxQ ++ [e], engNo := w.engNo + 1, oc := { w.oc with mtx := w.oc.mtx + 1 } }

/-! ### MLOOP (R233 to R236) -/

/-- The staleness check of a second reservation: where the first is stale, the trap has named it (R200). -/
def staleOther (v : View) (mask : Word32) (first : Bool) (owner : Block) (n : Nat) (go : Wave → State → Result) (w : Wave) (s : State) : Result :=
  if first then go w s else staleCheck v mask owner n go w s

/-- A loop joins those of its block, in the order they issue (R187, R234). -/
def joinLoops (v : View) (s : State) : State := modBlock v.w.blk (fun b => { b with loops := b.loops ++ [(v.w.idx, v.w.engNo)] }) s

/-- The oldest of a block's loops has run. -/
def leaveLoops (bk : Nat) (s : State) : State := modBlock bk (fun b => { b with loops := b.loops.drop 1 }) s

/-- Operation no of a wave is the oldest loop of its block: the unit takes the loops of every wave in the order they issued (R187, R234). DEDUCED (log 25): between blocks of a core the order is timing, since they share neither tiles nor reservations. -/
def loopsNext (b : Block) (idx no : Nat) : Bool := match b.loops with | [] => true | x :: _ => x == (idx, no)

/-- The issue of a loop whose B operand is reservation wb of a block (R224, R234). DESIGN CHOICE (log 56): the wait for a free physical tile (R237) stands after the record checks and before the tolerance checks. -/
def mloopIssue (q : QW) (pk : Nat) (pb : Block) (v : View) (mask : Word32) (s : State) : Result :=
  let n := q.kn.toNat + 1
  let a0 := valQ v.w q.ia
  let b0 := valQ v.w q.ib
  let wa := q.wa.toNat
  let wb := q.wb.toNat
  match mget v.b.res wa, mget pb.res wb with
  | some ra, some rb =>
    if ¬ admitsReader (some ra) ∨ ¬ admitsReader (some rb) ∨ v.w.oc.mtx ≥ 63 then hold s
    else
      let k := min (stepClass ra.fmt) (stepClass rb.fmt)
      if ra.fmt = 9 ∨ rb.fmt = 9 ∨ (a0 + n) * k > ra.elems ∨ (b0 + n) * k > rb.elems then illegalWord v.w s
      else if ¬ tilesFree v [q.ct.toNat] s then hold s
      else
        staleCheck v mask v.b wa (fun w1 s1 =>
          staleOther v mask (staleRes v.b ra) pb wb (fun w2 s2 =>
            unmetCheck { v with w := w2 } mask q.node.toNat (fun w3 s3 =>
              let s4 := modRes v.w.blk wa startRead (joinLoops v (bindTiles v.w.blk [q.ct.toNat] s3))
              let s5 := if pk = v.w.blk ∧ wa = wb then s4 else modRes pk wb startRead s4
              .next (putWave v.key (advance (queueMtx (engEntry v (.mloop q.ct.toNat wa wb pk n a0 b0) []) w3)) s5)) s2) w1 s1) v.w s
  | _, _ => hold s

def execMloop (q : QW) (s : State) : Result :=
  viewWord q.guard [srcQ q.ia, srcQ q.ib] [] (fun v m t => mloopIssue q v.w.blk v.b v m t) s
def execMloopPeer (q : QW) (s : State) : Result :=
  viewWord q.guard [srcQ q.ia, srcQ q.ib] [] (fun v m t =>
    match peerOf v q.sub.toNat t with
    | none => illegalWord v.w t
    | some (k, b) => mloopIssue q k b v m t) s

/-- The loop runs: every element of the tile, step by step; then its reservations are released. -/
def runLoop (bk ct wa wb pk n a0 b0 : Nat) (s : State) : State :=
  match mget s.blocks bk, mget s.blocks pk with
  | some b, some p =>
    match mget b.res wa, mget p.res wb with
    | some ra, some rb =>
      let k := min (stepClass ra.fmt) (stepClass rb.fmt)
      let s1 := modBlock bk (mapTile ct (fun i j x => BitVec.ofNat 32 (loopElem ra rb k a0 b0 n i j x.toNat))) s
      let s2 := modRes bk wa endRead s1
      if pk = bk ∧ wa = wb then s2 else modRes pk wb endRead s2
    | _, _ => s
  | _, _ => s

/-! ### QCVT (R231, R232) -/

/-- Vmax of R231. -/
def vmaxOf (c : Nat) : Nat :=
  match c with
  | 0 => 8
  | 1 => 64
  | 2 => 6
  | 3 => 7
  | 4 => 57344
  | 5 => 448
  | _ => 127

/-- ET of a 4-bit choice code (R182). -/
def etOf (c : Nat) : Nat :=
  match c with
  | 0 => 2
  | 1 => 3
  | 3 => 1
  | _ => 0

/-- m × 2^e is at most n × 2^g. -/
def dyadLe (m : Nat) (e : Int) (n : Nat) (g : Int) : Bool := let q := min e g; decide (m * 2 ^ (e - q).toNat ≤ n * 2 ^ (g - q).toNat)

/-- The value of a finite S10 code (R183). -/
def s10Of (c : Nat) : Nat × Int := (4 + c % 4, (c / 4 : Nat) - 129)

/-- The S10 code of a block whose greatest magnitude is m × 2^e ≠ 0 (R231). -/
def pickScale (c : Nat) (b32 : Bool) (m : Nat) (e : Int) : Nat :=
  let codes := (List.range 1020).filter (fun x => !b32 || x % 4 == 0)
  (codes.find? (fun x => dyadLe m e (vmaxOf c * (s10Of x).1) (s10Of x).2)).getD (if b32 then 0x3F8 else 0x3FB)

/-- |x| / s as a quotient of naturals. -/
def quotient (m : Nat) (e : Int) (s : Nat × Int) : Nat × Nat :=
  let q := min e s.2
  (m * 2 ^ (e - q).toNat, s.1 * 2 ^ (s.2 - q).toNat)

/-- A quotient to the nearest integer, ties to even (R181). -/
def nearestInt (p : Nat × Nat) : Nat :=
  let n := p.1 / p.2
  let r := 2 * (p.1 % p.2)
  if r > p.2 ∨ (r = p.2 ∧ n % 2 = 1) then n + 1 else n

/-- |a − b|. -/
def absDiff (a b : Nat) : Nat := a - b + (b - a)

/-- The magnitude field nearest to x/s; at a tie the even field (R181). et: 0 E2M1, 2 P2, 3 HYB4. -/
def nearestField (et m : Nat) (e : Int) (s : Nat × Int) : Nat :=
  let mag := fun i => (match fourBitValue et i with | .fin _ n g => (n * s.1, g + s.2) | _ => (0, 0))
  let q := (List.range 8).foldl (fun b i => min b (mag i).2) e
  let x := m * 2 ^ (e - q).toNat
  let dist := fun i => absDiff x ((mag i).1 * 2 ^ ((mag i).2 - q).toNat)
  (List.range 8).foldl (fun best i => if dist i < dist best ∨ (dist i = dist best ∧ i % 2 = 0 ∧ best % 2 = 1) then i else best) 0

/-- The code of one element x/s (R177, R181). DESIGN CHOICE (log 57): INT4 and INT8 at the largest scale saturate at −8 and −128, as R181 clamps. -/
def encodeElem (c : Nat) (neg : Bool) (m : Nat) (e : Int) (s : Nat × Int) : Nat :=
  match c with
  | 3 => let n : Int := nearestInt (quotient m e s); ofSigned 4 (clampInt (-8) 7 (if neg then -n else n))
  | 6 => let n : Int := nearestInt (quotient m e s); ofSigned 8 (clampInt (-128) 127 (if neg then -n else n))
  | 4 => let p := quotient m e s; fRound fmtE5m2 0 true neg (p.1 * 2 ^ 64 / p.2) (-64) (p.1 * 2 ^ 64 % p.2 != 0)
  | 5 => let p := quotient m e s; fRound fmtE4m3 0 true neg (p.1 * 2 ^ 64 / p.2) (-64) (p.1 * 2 ^ 64 % p.2 != 0)
  | _ => (if neg then 8 else 0) + nearestField (etOf c) m e s

/-- The larger of two magnitudes. -/
def maxMag (a : Nat × Int) : FVal → Nat × Int
  | .fin _ m e => if dyadLe m e a.1 a.2 then a else (m, e)
  | _ => a

/-- A block's scale word and element codes (R231). -/
def encodeBlock (c : Nat) (b32 : Bool) (xs : List FVal) : Nat × List Nat :=
  let et := if c ≤ 3 then etOf c * 1024 else 0
  if xs.any (fun x => match x with | .fin _ _ _ => false | _ => true) then (0x3FC + et, xs.map (fun _ => 0))
  else
    let a := xs.foldl maxMag (0, 0)
    let code := if a.1 = 0 then 0x1FC else pickScale c b32 a.1 a.2
    (et + code, xs.map (fun x => match x with | .fin neg m e => encodeElem c neg m e (s10Of code) | _ => 0))

/-- Codes packed two to a byte, the even element low (R180). -/
def packNibbles : List Nat → List Byte
  | a :: b :: rest => BitVec.ofNat 8 (a + 16 * b) :: packNibbles rest
  | [a] => [BitVec.ofNat 8 a]
  | [] => []

/-- Element codes as bytes in a format. -/
def codeBytes (fmt : Nat) (codes : List Nat) : List Byte :=
  if fmt ≤ 3 then packNibbles codes else codes.flatMap (natToBytes (elemBits fmt / 8))

/-- Blocks of a lane, and of the whole reservation. -/
def Res.perLane (r : Res) : Nat := r.elems / blockLen r.b32
def Res.blocks (r : Res) : Nat := 32 * r.perLane

/-- The first element of block n, and its lane: blocks are numbered lane by lane (R232). -/
def Res.laneOf (r : Res) (n : Nat) : Nat := n / r.perLane
def Res.firstElem (r : Res) (n : Nat) : Nat := n % r.perLane * blockLen r.b32

/-- Write the values of block n into a reservation (R227, R231). -/
def writeBlock (n : Nat) (xs : List FVal) (r : Res) : Res :=
  let at_ := r.laneOf n * rowBytes r.fmt r.elems + r.firstElem n * elemBits r.fmt / 8
  if r.fmt ≥ 7 then { r with bytes := cellsPut r.bytes at_ (codeBytes r.fmt (xs.map (fun x => fEncode (fmtOf (fmtTy r.fmt)) 0 false x))) }
  else
    let b := encodeBlock r.fmt r.b32 xs
    { r with bytes := cellsPut (cellsPut r.bytes at_ (codeBytes r.fmt b.2)) (r.soff + 2 * n) (natToBytes 2 b.1) }

/-- The values of block n, where xs gives a lane's values. -/
def blockVals (r : Res) (xs : Nat → Nat → FVal) (n : Nat) : List FVal := (List.range (blockLen r.b32)).map (fun k => xs (r.laneOf n) (r.firstElem n + k))

/-- The destination as the word leaves it at issue (R232). -/
def quantDest (r : Res) (node c : Nat) : Res :=
  { r with st := 2, fmt := c, sc := decide (c ≤ 6), soff := scaleOff c r.elems (decide (c ≤ 6)), nv := true, node := node, ach := boundOf 0 c }

/-- The staleness check of the source of `QCVT.w` (R200). -/
def staleSource (v : View) (mask : Word32) (src : Option Nat) (go : Wave → State → Result) (w : Wave) (s : State) : Result :=
  match src with
  | some n => staleCheck v mask v.b n go w s
  | none => go w s

/-- The checks of a quantize word against the records, then its effect (R199, R200, R224, R232). DESIGN CHOICE (log 54): a node that is not a quantize node in use raises Illegal Instruction before a stale source of `QCVT.w` is looked at. The A-window range of SUB 0 is checked against the allocation. -/
def quantIssue (q : QW) (op : EngOp) (src : Option Nat) (range : Nat → Option FaultSpec) (lines : Nat → List Nat) (v : View) (mask : Word32) (s : State) : Result :=
  let wd := q.wa.toNat
  match mget v.b.res wd with
  | none => hold s
  | some r =>
    let sr := src.map (fun n => mget v.b.res n)
    if ¬ admitsWriter (some r) ∨ (match sr with | some x => !admitsReader x | none => false) = true ∨ v.w.oc.mtx ≥ 63 then hold s
    else if (match sr with | some (some x) => x.e96 != r.e96 | _ => false) = true then illegalWord v.w s
    else match range r.elems with
      | some f => hardFault v.w f s
      | none =>
        match producerAt v.b 0 q.node.toNat with
        | none => illegalWord v.w s
        | some node =>
          let c := (choiceAt v.b q.node.toNat).cho
          if resSize c r.elems r.b32 (decide (c ≤ 6)) > r.room then illegalWord v.w s
          else
            staleSource v mask src (fun w1 s1 =>
              unmetCheck { v with w := w1 } mask q.node.toNat (fun w2 s2 =>
                let s3 := modRes v.w.blk wd (fun r => quantDest r q.node.toNat c) s2
                let s4 := (match src with | some n => modRes v.w.blk n startRead s3 | none => s3)
                .next (putWave v.key (advance (queueMtx (engEntry v op (lines r.elems)) w2)) (recordProduction v.w.blk q.node.toNat node s4))) s1) v.w s

/-- The lines of 32 strided rows of FP32 values in the A window. -/
def rowLines (addr stride e : Nat) : List Nat := lanes32.flatMap (fun l => linesOf (addr + l * stride) (4 * e))

/-- QCVT (R232): 32 rows of FP32 values in the A window. DESIGN CHOICE (log 56): stride is an unsigned 64-bit number, so a negative one leaves the allocation and raises local bounds. -/
def execQcvt (q : QW) (s : State) : Result :=
  viewWord q.guard [srcQ q.ia, srcQ q.ib] [] (fun v m t =>
    let p := valQ v.w q.ia
    let stride := valQ v.w q.ib
    let a := ptrAddr p
    if p % 4 ≠ 0 ∨ stride % 4 ≠ 0 ∨ windowOf a ≠ .a then illegalWord v.w t
    else quantIssue q (.qcvt q.wa.toNat a stride 0) none
      (fun e => if a - aBase + 31 * stride + 4 * e > v.g.d.au * 4096 then some { cause := 3, addr := p } else none)
      (rowLines a stride) v m t) s

def execQcvtW (q : QW) (s : State) : Result :=
  viewWord q.guard [] [] (fun v m t =>
    quantIssue q (.qcvtW q.wa.toNat q.wb.toNat) (some q.wb.toNat) (fun _ => none) (fun _ => []) v m t) s

/-- The quantizer writes every block; the destination is ready (R232). -/
def quantWrite (bk wd : Nat) (xs : Nat → Nat → FVal) (s : State) : State :=
  modRes bk wd (fun r => { (List.range r.blocks).foldl (fun u n => writeBlock n (blockVals r xs n) u) r with st := 3 }) s

/-- FP32 value k of a row in a block's A allocation. -/
def rowValue (b : Block) (addr stride l k : Nat) : FVal :=
  fDecode fmtF32 (bytesToNat (cellsGet b.a (addr - aBase + l * stride + 4 * k) 4))

/-- The source bytes of block n in the A window. -/
def blockSource (r : Res) (addr stride n : Nat) : Span := ⟨0, addr + r.laneOf n * stride + 4 * r.firstElem n, 4 * blockLen r.b32⟩

/-- The quantizer goes on with block n, for at most k blocks: a block waits for its source lines and for older stores to them (R82, R120, R141, R232). -/
def quantFrom (v : View) (need : List Nat) (o : Older) (wd addr stride : Nat) : Nat → Nat → State → Worked
  | 0, _, s => .done (modRes v.w.blk wd (fun r => { r with st := 3 }) s)
  | k + 1, n, s =>
    match mget s.blocks v.w.blk with
    | none => .done s
    | some b =>
      match mget b.res wd with
      | none => .done s
      | some r =>
        let src := blockSource r addr stride n
        if (linesOf src.addr src.len).any (fun l => need.contains l) then .part (.qcvt wd addr stride n) true s
        else if o.holdsRead s v src then .part (.qcvt wd addr stride n) false s
        else quantFrom v need o wd addr stride k (n + 1) (modRes v.w.blk wd (writeBlock n (blockVals r (rowValue b addr stride) n)) s)

def runQuant (v : View) (e : EngEntry) (o : Older) (wd addr stride n : Nat) (s : State) : Worked :=
  match mget v.b.res wd with
  | some r => quantFrom v e.need o wd addr stride (r.blocks - n) n s
  | none => .done s

def runQuantW (bk wd ws : Nat) (s : State) : State :=
  match mget s.blocks bk with
  | some b => (match mget b.res ws with
    | some r => modRes bk ws endRead (quantWrite bk wd (elemValue r) s)
    | none => s)
  | none => s

end Sys2Proof.Machine
end

