-- ==== Sys2Proof/Machine/Copy.lean ====
section
/-! DEFINITION. The copy engine (R120, R121, R141, R150, R161 to R164): what the copy words check when they issue, and what the engine does with an operation when it runs. -/
namespace Sys2Proof.Machine

/-! ### Running an engine operation (R163) -/

/-- What an operation of an engine or of Lovage comes to: it is complete with a result; a translation or a line holds it; or it fails, the bytes written so far staying written. -/
inductive Run (α : Type) where
  | ok (a : α) (s : State)
  | pending
  | fail (f : FaultSpec) (s : State)

def Run.andThen {α β : Type} (r : Run α) (f : α → State → Run β) : Run β :=
  match r with
  | .ok a s => f a s
  | .pending => .pending
  | .fail x s => .fail x s

/-- A copy fault with its underlying cause (R163, R258). -/
def copySpec (det lane addr : Nat) : FaultSpec := { cause := 9, det := det, lane := lane, addr := addr }

/-- The first granule of a range that fails its check, or whose translation is pending (R163, R281, R306). -/
def firstBad (s : State) (v : View) (k : Kind) (lane tag : Nat) : List (Nat × Nat) → Option (Nat × Chk)
  | [] => none
  | (a, n) :: rest =>
    match checkAccess s v k (some tag) a n with
    | .ok => if k = .load ∧ lostUnit s v lane a n then some (a, .fail 10 0) else firstBad s v k lane tag rest
    | c => some (a, c)

/-- The part of a range of n bytes up to the granule of an address in it, that granule included: what an access that fails there has reached. -/
def upTo (addr n at_ : Nat) : Nat := min n ((at_ / 32 + 1) * 32 - addr)

/-- Write bytes granule by granule, each checked as the engine reaches it, after the older accesses of its bytes (R141). -/
def writeParts (v : View) (o : Older) (lane tag : Nat) : List (Nat × Nat) → List Byte → State → Run Unit
  | [], _, s => .ok () s
  | (a, n) :: rest, bs, s =>
    if o.holdsWrite s v ⟨lane, a, n⟩ then .pending
    else match checkAccess s v .store (some tag) a n with
    | .ok => writeParts v o lane tag rest (bs.drop n) (putAt v lane a (bs.take n) s)
    | .pending => .pending
    | .fail c _ => .fail (copySpec c lane (ptrFrom tag a)) (noteSpan v .store a n s)

/-- Read a source range after the older writes of its bytes, recording the access (R141). -/
def readParts (v : View) (o : Older) (lane tag addr n : Nat) (s : State) : Run (List Byte) :=
  if o.holdsRead s v ⟨lane, addr, n⟩ then .pending
  else match firstBad s v .load lane tag (parts 32 addr n) with
  | some (a, .fail c _) => .fail (copySpec c lane (ptrFrom tag a)) (noteSpan v .load addr (upTo addr n a) s)
  | some _ => .pending
  | none => .ok (bytesAt s v lane addr n) (sendReads v lane addr n (recordAccs v false n [(lane, addr)] s))

/-- Lines of a block are full again: whoever waits for them goes on (R120). -/
def fillFor (bk : Nat) (ls : List Nat) (s : State) : State :=
  let drop := fun (q : List EngEntry) => q.map (fun e => { e with need := e.need.filter (fun l => !ls.contains l) })
  mapWaves bk (fun w => { w with cpyQ := drop w.cpyQ, mtxQ := drop w.mtxQ, gatQ := drop w.gatQ })
    (modBlock bk (fun b => { b with aE := ls.foldl sdel b.aE }) s)

/-- The A lines of a range, none outside the A window. -/
def aLines (addr len : Nat) : List Nat := if windowOf addr = .a then linesOf addr len else []

/-! ### Issue -/

/-- Put an operation into the copy queue, and count it. -/
def queueCpy (e : EngEntry) (w : Wave) : Wave := { w with cpyQ := w.cpyQ ++ [e], engNo := w.engNo + 1, oc := { w.oc with cpy := w.oc.cpy + 1 } }

/-- A queued store of some wave of a block goes to one of these A lines. -/
def storesTo (s : State) (bk : Nat) (lines : List Nat) : Bool :=
  (wavesOf s bk).any (fun e => e.2.mq.any (fun q => (piecesOf q.op).any (fun p => (aLines p.addr p.data.length).any (fun l => lines.contains l))))

/-- An engine word may not yet take its destination lines: an older operation still fills one, or an older store of a wave of the block to one is not performed (R120: a line takes its writes in issue order). -/
def linesTaken (v : View) (lines : List Nat) (s : State) : Bool := lines.any (fun l => v.b.aE.contains l) || storesTo s v.w.blk lines

/-- A copy word issues: it waits for its counter and its destination lines, which it marks empty (R120, R166). -/
def copyIssue (v : View) (op : EngOp) (srcLines dstLines : List Nat) (s : State) : Result :=
  if v.w.oc.cpy ≥ 63 ∨ linesTaken v dstLines s then hold s
  else .next (putWave v.key (advance (queueCpy (engEntry v op srcLines) v.w))
    (modBlock v.w.blk (fun b => { b with aE := dstLines.foldl sadd b.aE }) s))

/-- A window check at issue raises its own cause (R163). -/
def windowSpec (d : Desc) (lane ptr n : Nat) : Option FaultSpec :=
  match checkWindow d (ptrAddr ptr) n with
  | .fail c det => some (laneSpec lane ptr c det)
  | _ => none

/-- The ranges overlap in address bits [59:0] (R161). -/
def overlaps (a b n : Nat) : Bool := decide (a < b + n) && decide (b < a + n)

/-- DESIGN CHOICE (log 54): ADDR of a copy fault that is raised at issue names the source where the length is too great, the destination where the ranges overlap, the table in CPYT. DESIGN CHOICE (log 56): where both ranges fail their window checks the source's fault is raised. -/
def execCpy (m : MW) (s : State) : Result :=
  viewWord m.guard [ptrSrc m m.d, ptrSrc m m.a, plainSrc m m.b] [] (fun v _ t =>
    let dst := ptrVal m v.w m.d 0
    let src := ptrVal m v.w m.a 0
    let n := (rawOp v.w m.lit false m.b 0).toNat
    let op : EngOp := .cpy (ptrAddr dst) (ptrTag dst) (ptrAddr src) (ptrTag src) n
    if n ≥ 2 ^ 32 then hardFault v.w { cause := 9, addr := src } t
    else if n = 0 then copyIssue v op [] [] t
    else
      match windowSpec v.g.d 0 src n, windowSpec v.g.d 0 dst n with
      | some f, _ => hardFault v.w f t
      | none, some f => hardFault v.w f t
      | none, none =>
        if overlaps (ptrAddr src) (ptrAddr dst) n then hardFault v.w { cause := 9, addr := dst } t
        else copyIssue v op (aLines (ptrAddr src) n) (aLines (ptrAddr dst) n) t) s

/-- The lowest lane whose source or destination fails its window check. DESIGN CHOICE (log 56): of one lane's two ranges the source's fault is raised. -/
def laneWindows (d : Desc) (size : Nat) : List (Nat × Nat × Nat) → Option FaultSpec
  | [] => none
  | (i, src, dst) :: rest =>
    match windowSpec d i src size, windowSpec d i dst size with
    | some f, _ => some f
    | none, some f => some f
    | none, none => laneWindows d size rest

/-- CPY.lane (R162): the window checks of every lane, a lane's source before its destination (log 56). -/
def execCpyLane (m : MW) (s : State) : Result :=
  viewWord m.guard [ptrSrc m m.d, ptrSrc m m.a] [] (fun v mask t =>
    let size := sizeOf m.sz
    let lanes := (memLanes m mask).map (fun i => (i, laneAddr m v.w i, ptrVal m v.w m.d i))
    match laneWindows v.g.d size lanes with
    | some f => hardFault v.w f t
    | none =>
      copyIssue v (.cpyLane size (lanes.map (fun l => { lane := l.1, src := ptrAddr l.2.1, stag := ptrTag l.2.1, dst := ptrAddr l.2.2, dtag := ptrTag l.2.2 })) none)
        (lanes.flatMap (fun l => aLines (ptrAddr l.2.1) size)) (lanes.flatMap (fun l => aLines (ptrAddr l.2.2) size)) t) s

/-! ### CPYT (R164) -/

/-- The parameters of a CPYT. -/
structure TableArgs where
  zero : Nat
  rpb : Nat
  rb : Nat
  n : Nat
  first : Nat

def tableArgs (w : Wave) (o : Operand) : TableArgs :=
  let a := (sReg w (sNum o)).toNat
  let b := (sReg w (sNum o + 1)).toNat
  { zero := field a 48 16, rpb := field a 32 16, rb := field a 0 32, n := field b 32 32, first := field b 0 32 }

def TableArgs.ok (p : TableArgs) : Bool :=
  p.zero == 0 && p.rpb != 0 && p.rb % 16 == 0 && decide (16 ≤ p.rb) && decide (p.rb ≤ 4096) && decide (1 ≤ p.n) && decide (p.n ≤ 65536)

/-- The table entries a CPYT reads: their first address, and their bytes. -/
def TableArgs.range (p : TableArgs) (table : Nat) : Nat × Nat :=
  let e0 := p.first / p.rpb
  (table + 8 * e0, 8 * ((p.first + p.n - 1) / p.rpb - e0 + 1))

/-- The window check of the table entries that a CPYT reads: their addresses are not wrapped, so that a first entry beyond the address range crosses it (R116, R163). -/
def tableWindow (d : Desc) (table : Nat) (p : TableArgs) : Option FaultSpec :=
  let r := p.range (ptrAddr table)
  match checkWindow d r.1 r.2 with
  | .fail c det => some (laneSpec 0 (ptrFrom (ptrTag table) (r.1 % 2 ^ 60)) c det)
  | _ => none

/-- What both forms of CPYT check first: the parameters, then the table's windows. DESIGN CHOICE (log 56): where the destination fails its window check too, the table's fault is raised. -/
def cpytWord (m : MW) (srcs : List Src) (go : View → TableArgs → Nat → State → Result) (s : State) : Result :=
  viewWord m.guard ([ptrSrc m m.a, { o := m.b, n := 2, e := m.e }] ++ srcs) [] (fun v _ t =>
    let p := tableArgs v.w m.b
    let table := ptrVal m v.w m.a 0
    if p.ok then
      match tableWindow v.g.d table p with
      | some f => hardFault v.w f t
      | none => go v p table t
    else hardFault v.w { cause := 9, addr := table } t) s

/-- The lines that are empty when a CPYT issues: it waits for those it reads, row by row (R120). -/
def tableLines (v : View) : List Nat := v.b.aE

def execCpyt (m : MW) (s : State) : Result :=
  cpytWord m [ptrSrc m m.d] (fun v p table t =>
    let dst := ptrVal m v.w m.d 0
    match windowSpec v.g.d 0 dst (p.n * p.rb) with
    | some f => hardFault v.w f t
    | none =>
      copyIssue v (.cpyt (ptrAddr dst) (ptrTag dst) (ptrAddr table) (ptrTag table) p.rpb p.rb p.n p.first none)
        (tableLines v) (aLines (ptrAddr dst) (p.n * p.rb)) t) s

def execCpytW (m : MW) (s : State) : Result :=
  cpytWord m [] (fun v p table t =>
    let n := m.off.toNat % 32
    match mget v.b.res n with
    | none => hold t
    | some r =>
      if ¬ admitsWriter (some r) then hold t
      else if p.n * p.rb > resSize r.fmt r.elems r.b32 r.sc then hardFault v.w { cause := 9, addr := table } t
      else if v.w.oc.cpy ≥ 63 then hold t
      else copyIssue v (.cpytW n 0 (ptrAddr table) (ptrTag table) p.rpb p.rb p.n p.first none) (tableLines v) [] (modRes v.w.blk n (fun r => { r with st := 2 }) t)) s

/-! ### The engine at work (R82, R161 to R164) -/

/-- The lines of what is written that hold nothing still to be written: they are full (R120). -/
def doneLines (written left : List Nat) : List Nat := written.filter (fun l => !left.contains l)

/-- The end of an operation's work. -/
def Worked.finish (f : State → State) : Worked → Worked
  | .done s => .done (f s)
  | w => w

/-- Read a source range and go on, or stay at the point here: the windows that issue did not check, then lines that were empty at issue, then the access. -/
def readOr (v : View) (e : EngEntry) (o : Older) (lane tag addr n : Nat) (here : EngOp) (go : List Byte → State → Worked) (s : State) : Worked :=
  match checkWindow v.g.d addr n with
  | .fail c _ => .fail (copySpec c lane (ptrFrom tag addr)) s
  | _ =>
    if (aLines addr n).any (fun l => e.need.contains l) then .part here true s
    else match readParts v o lane tag addr n s with
      | .ok bs t => go bs t
      | .pending => .part here false s
      | .fail f t => .fail f t

/-- Write and go on, or stay at the point here with the state back. -/
def writeOr (r : Run Unit) (here : EngOp) (back : State) (go : State → Worked) : Worked :=
  match r with
  | .ok _ t => go t
  | .pending => .part here false back
  | .fail f t => .fail f t

/-- A copy goes on, unit by unit of its source, in ascending order (R161); k bounds the units. -/
def cpyFrom (v : View) (e : EngEntry) (o : Older) (dtag stag : Nat) : Nat → Nat → Nat → Nat → State → Worked
  | 0, _, _, _, s => .done s
  | k + 1, dst, src, len, s =>
    if len = 0 then .done s
    else
      let n := min len (128 - src % 128)
      let here : EngOp := .cpy dst dtag src stag len
      readOr v e o 0 stag src n here (fun bs t =>
        writeOr (writeParts v o 0 dtag (parts 32 dst n) bs t) here s (fun u =>
          cpyFrom v e o dtag stag k (dst + n) (src + n) (len - n)
            (fillFor v.w.blk (doneLines (aLines dst n) (aLines (dst + n) (len - n))) u))) s

def runCpy (v : View) (e : EngEntry) (o : Older) (dst dtag src stag len : Nat) (s : State) : Worked := cpyFrom v e o dtag stag (len / 128 + 2) dst src len s

/-- A lane of CPY.lane whose source or destination fails its checks. -/
def copyLaneBad (s : State) (v : View) (size : Nat) (l : CopyLane) : Option (Nat × Chk) :=
  match firstBad s v .load l.lane l.stag (parts 32 l.src size) with
  | some (a, c) => some (ptrFrom l.stag a, c)
  | none => (firstBad s v .store l.lane l.dtag (parts 32 l.dst size)).map (fun x => (ptrFrom l.dtag x.1, x.2))

/-- The lowest failing lane; a source that fails keeps every lane from writing (R162, R163). -/
def lowestBad (s : State) (v : View) (size : Nat) : List CopyLane → Option FaultSpec
  | [] => none
  | l :: rest => match copyLaneBad s v size l with
    | some (a, .fail c _) => some (copySpec c l.lane a)
    | _ => lowestBad s v size rest

/-- Write the lanes' bytes in ascending lane order. -/
def lanesFrom (v : View) (o : Older) (size : Nat) : List (CopyLane × List Byte) → State → Worked
  | [], s => .done s
  | (l, bs) :: rest, s =>
    writeOr (writeParts v o l.lane l.dtag (parts 32 l.dst size) bs s) (.cpyLane size (l :: rest.map Prod.fst) (some (bs :: rest.map Prod.snd))) s (fun t =>
      lanesFrom v o size rest (fillFor v.w.blk (doneLines (aLines l.dst size) (rest.flatMap (fun x => aLines x.1.dst size))) t))

/-- Every lane's source is read before any lane writes. -/
def runCpyLane (v : View) (e : EngEntry) (o : Older) (size : Nat) (lanes : List CopyLane) (data : Option (List (List Byte))) (s : State) : Worked :=
  match data with
  | some bs => lanesFrom v o size (lanes.zip bs) s
  | none =>
    let here : EngOp := .cpyLane size lanes none
    let bad := lanes.map (fun l => firstBad s v .load l.lane l.stag (parts 32 l.src size))
    if !e.need.isEmpty then .part here true s
    else if lanes.any (fun l => o.holdsRead s v ⟨l.lane, l.src, size⟩) then .part here false s
    else if bad.any (fun x => match x with | some (_, .fail _ _) => true | _ => false) then
      match lowestBad s v size lanes with
      | some f => .fail f (lanes.foldl (fun t l => noteSpan v .load l.src size t) s)
      | none => .part here false s
    else if bad.any Option.isSome then .part here false s
    else
      lanesFrom v o size (lanes.map (fun l => (l, bytesAt s v l.lane l.src size)))
        (lanes.foldl (fun t l => sendReads v l.lane l.src size (recordAccs v false size [(l.lane, l.src)] t)) s)

/-- A table copy goes on, row by row: n rows are left, the next one is row, its place is p (R164). here names a point; put writes a row; filled: its lines are full. The table entry last read is kept. DESIGN CHOICE (log 56): a row that begins beyond 2^60 is read at the wrapped address, under the entry's tag. -/
def rowsFrom (v : View) (e : EngEntry) (o : Older) (table ttag rpb rb : Nat) (here : Nat → Nat → Nat → Option (Nat × Nat) → EngOp)
    (put : Nat → List Byte → State → Run Unit) (filled : Nat → Nat → State → State) : Nat → Nat → Nat → Option (Nat × Nat) → State → Worked
  | 0, _, _, _, s => .done s
  | n + 1, p, row, last, s =>
    let copy := fun (ent : Nat) (t : State) =>
      let point := here p (n + 1) row (some (row / rpb, ent))
      readOr v e o 0 (ptrTag ent) ((ptrAddr ent + row % rpb * rb) % 2 ^ 60) rb point (fun bs u =>
        writeOr (put p bs u) point t (fun x =>
          rowsFrom v e o table ttag rpb rb here put filled n (p + rb) (row + 1) (some (row / rpb, ent)) (filled p n x))) t
    let entry := readOr v e o 0 ttag (table + 8 * (row / rpb)) 8 (here p (n + 1) row last) (fun bs t => copy (bytesToNat bs) t) s
    match last with
    | some (i, ent) => if i = row / rpb then copy ent s else entry
    | none => entry

def runCpyt (v : View) (e : EngEntry) (o : Older) (dst dtag table ttag rpb rb n first : Nat) (last : Option (Nat × Nat)) (s : State) : Worked :=
  rowsFrom v e o table ttag rpb rb (fun p n row last => .cpyt p dtag table ttag rpb rb n row last)
    (fun p bs t => writeParts v o 0 dtag (parts 32 p bs.length) bs t)
    (fun p n t => fillFor v.w.blk (doneLines (aLines p rb) (aLines (p + rb) (n * rb))) t) n dst first last s

def runCpytW (v : View) (e : EngEntry) (o : Older) (res off table ttag rpb rb n first : Nat) (last : Option (Nat × Nat)) (s : State) : Worked :=
  (rowsFrom v e o table ttag rpb rb (fun p n row last => .cpytW res p table ttag rpb rb n row last)
    (fun p bs t => .ok () (modRes v.w.blk res (fun r => { r with bytes := cellsPut r.bytes p bs }) t)) (fun _ _ t => t) n off first last s).finish
    (modRes v.w.blk res (fun r => { r with st := 3 }))

end Sys2Proof.Machine
end

