-- ==== Sys2Proof/Machine/KeyStore.lean ====
section
/-! DEFINITION. The key store (R146, R245 to R268): descriptors, slots, signatures, buckets, and the words of opcodes 0xB0 to 0xB6. -/
namespace Sys2Proof.Machine

/-! ### The descriptor (R245, R246) -/

/-- The fields of a region descriptor. -/
structure KvDesc where
  fb : Bool
  bf16 : Bool
  dh : Nat
  nh : Nat
  w : Nat
  s : Nat
  btab : Nat
  hrec : Nat
  genb : Nat
  step : Nat
  jbase : Nat
  chlim : Nat
  gcap : Nat
  jent : Nat
  free : Nat
  pin : Nat
  tmq : Nat

/-- Word i of a descriptor. -/
def descWord (ws : List Word64) (i : Nat) : Nat := ((ws[i]?).getD 0).toNat

def kvDesc (ws : List Word64) : KvDesc :=
  let x := descWord ws
  { fb := bitAt (x 0) 17, bf16 := bitAt (x 0) 16, dh := 32 * (field (x 0) 8 8 + 1), nh := field (x 0) 0 8 + 1
    w := field (x 1) 32 32, s := field (x 1) 0 32, btab := x 2, hrec := x 3, genb := x 4, step := x 5, jbase := x 6
    chlim := field (x 7) 56 8, gcap := field (x 7) 32 12 + 1, jent := field (x 7) 0 32, free := x 8, pin := x 9, tmq := x 10 }

/-- R246. -/
def descValid (ws : List Word64) : Bool :=
  let x := descWord ws
  let d := kvDesc ws
  field (x 0) 18 46 == 0 && decide (field (x 0) 8 8 ≤ 7) && d.w % 16 == 0 && decide (16 ≤ d.w) && d.s % 16 == 0 && decide (d.s + d.w ≤ 2 ^ 20) &&
    d.btab % 8 == 0 && d.hrec % 16 == 0 && d.genb % 8 == 0 && d.step % 8 == 0 && d.step != 0 && d.jbase % 64 == 0 &&
    decide (d.chlim ≤ 254) && field (x 7) 44 12 == 0 && decide (1 ≤ d.jent) && decide (d.jent ≤ 65536) &&
    d.free % 64 == 0 && d.pin % 64 == 0 && d.tmq % 64 == 0 && [11, 12, 13, 14, 15].all (fun i => x i == 0)

/-- NS, eb, HS, ESZ (R246, R248, R253). -/
def KvDesc.ns (d : KvDesc) : Nat := d.s + d.w
def KvDesc.eb (d : KvDesc) : Nat := if d.bf16 then 2 else 1
def KvDesc.hs (d : KvDesc) : Nat := 32 * d.dh * d.eb + 128
def KvDesc.esz (d : KvDesc) : Nat := 64 + 8 * d.dh

/-- A pointer moved on: its tag stays (R245). -/
def ptrPlus (p n : Nat) : Nat := ptrFrom (ptrTag p) ((ptrAddr p + n) % 2 ^ 60)

/-- A head record (R247). -/
structure HeadRec where
  seed : Word64
  /-- bucket array address, tag included -/
  bkt : Nat
  b : Nat
  nl : Nat

def headRec (w0 w1 : Nat) : HeadRec :=
  { seed := BitVec.ofNat 64 w0, bkt := field w1 7 57 * 128, b := field w1 2 3 + 8, nl := field w1 0 2 + 1 }

def headValid (w1 : Nat) : Bool := field w1 5 2 == 0 && decide (field w1 2 3 ≤ 6)

/-- n words of bytes. -/
def wordsOf (n : Nat) (bs : List Byte) : List Word64 := (List.range n).map (fun i => BitVec.ofNat 64 (bytesToNat ((bs.drop (8 * i)).take 8)))

/-- Read a descriptor as a load of the wave (R245). DESIGN CHOICE (log 55): a descriptor pointer into the A or stack window, which R245 does not speak of beside its 'global memory', reads the descriptor there, as a load would. -/
def withDesc (v : View) (ptr : Nat) (s : State) (go : KvDesc → List Word64 → State → Result) : Result :=
  if ptr % 128 ≠ 0 then illegalWord v.w s
  else heldRead v ptr 128 s (fun bs t =>
    let ws := wordsOf 16 bs
    if descValid ws then go (kvDesc ws) ws t else illegalWord v.w t)

/-- Read the record of the head a word names (R247, R268). -/
def withHead (v : View) (d : KvDesc) (h : Nat) (s : State) (go : HeadRec → State → Result) (back : State := s) : Result :=
  if h ≥ d.nh then illegalWord v.w s
  else heldRead v (ptrPlus d.hrec (16 * h)) 16 s (fun bs t =>
    let w0 := bytesToNat (bs.take 8)
    let w1 := bytesToNat (bs.drop 8)
    if headValid w1 then go (headRec w0 w1) t else illegalWord v.w t) back

/-! ### Slots and signatures (R249, R251) -/

def KvDesc.slot (d : KvDesc) (p : Nat) : Nat := if p < d.s then p else d.s + (p - d.s) % d.w
def KvDesc.gen (d : KvDesc) (p : Nat) : Nat := if p < d.s then 0 else (p - d.s) / d.w % 4096

/-- σ(t, j, i) is −1. -/
def sigNeg (seed : Word64) (t j i : Nat) : Bool := (hmix seed (BitVec.ofNat 64 (t * 2 ^ 48 + j * 2 ^ 32 + i))).getLsbD 63

/-- Bit j of table t: the exact sum is greater than 0; sums of infinities of both signs are no number, and give 0. -/
def sigBit (seed : Word64) (xs : List FVal) (t j : Nat) : Bool :=
  let sum := (List.zip (List.range xs.length) xs).foldl (fun acc p => fAdd 0 acc (if sigNeg seed t j p.1 then p.2.neg else p.2)) (.fin false 0 0)
  match sum with
  | .nan => false
  | .inf neg => !neg
  | .fin neg m _ => !neg && m != 0

/-- The signature of a vector (R251). -/
def signature (r : HeadRec) (xs : List FVal) : Word64 :=
  if xs.any FVal.isNan then 0
  else BitVec.ofNat 64 ((List.range r.nl).foldl (fun x t => (List.range r.b).foldl (fun y j => if sigBit r.seed xs t j then y + 2 ^ (16 * t + j) else y) x) 0)

/-- FP32 elements of n v registers: element i in lane i mod 32 of register i div 32 (R254). -/
def vecBits (w : Wave) (r n : Nat) : List Nat := (List.range n).flatMap (fun j => lanes32.map (fun i => (vReg w (r + j) i).toNat))
def vecVals (w : Wave) (r n : Nat) : List FVal := (vecBits w r n).map (fDecode fmtF32)

/-- The number of a v operand, and whether its n registers are full in every lane. -/
def vNum : Operand → Nat
  | .v n => n.toNat
  | _ => 0
def vecFull (w : Wave) (r n : Nat) : Bool := (List.range n).all (fun j => lanes32.all (fun i => !w.vE.contains ((r + j) * 32 + i)))

/-! ### Regions (R245, R255) -/

def dfltRegion : Region := { entries := [], nextId := 0, nextSeq := 0, next := [], readers := 0, ksteps := [] }
def kvRegion (s : State) (asid step : Nat) : Region :=
  match mget s.ctxs asid with
  | some c => mgetD c.regions step dfltRegion
  | none => dfltRegion
def modRegion (asid step : Nat) (f : Region → Region) (s : State) : State :=
  modCtx asid (fun c => { c with regions := mmod c.regions step dfltRegion f }) s

/-- A KSTEP has arrived and its step is being filed (R255). DESIGN CHOICE (log 55): while a second KSTEP stands behind it, the region stays closed between the two filings. -/
def Region.closed (r : Region) : Bool := !r.ksteps.isEmpty

/-- The step counter. -/
def stepCounter (s : State) (asid step : Nat) : Word64 :=
  match mget s.ctxs asid with
  | some c => syncWord c step
  | none => 0

/-- An entry that will still arrive or has arrived: its store was not lost with a fault. -/
def JEntry.alive (s : State) (step : Nat) (e : JEntry) : Bool :=
  e.written || (match mget s.waves e.wave with
    | some w => w.mq.any (fun q => match q.op with | .journal r i _ => r == step && i == e.id | _ => false)
    | none => false)

/-- Unfiled entries of a core's journal. -/
def unfiled (s : State) (asid step core : Nat) : Nat :=
  ((kvRegion s asid step).entries.filter (fun e => e.core == core && e.alive s step)).length

/-- A sync address of the key store is checked under R91 when it is used (R268). -/
def kvSync (v : View) (a align : Nat) : Option FaultSpec := syncCheck v.c a align align

/-- A Quern operation that Lovage makes for a wave, on a queue of the region or its step counter: recorded, or admitted by a replay (R257, R319, R320; DESIGN CHOICE, log 58). none: it is held. A wave that is gone with its block has no record. -/
def servedOp (key addr : Nat) (s : State) : Option State :=
  match viewOf s key with
  | some v => quernOp v.g.asid v.b.gid v.b.num v.w.idx v.w.qops addr false s false
  | none => some s

/-! ### KAPPEND (R253, R254) -/

/-- The bytes of a journal entry. -/
def journalBytes (h p gen slot : Nat) (sig : Word64) (key val : List Nat) : List Byte :=
  natToBytes 8 (h * 2 ^ 48 + p) ++ natToBytes 8 (gen * 2 ^ 20 + slot) ++ natToBytes 8 sig.toNat ++ natToBytes 40 0 ++
    key.flatMap (natToBytes 4) ++ val.flatMap (natToBytes 4)

/-- The address of an entry in a core's journal (R253). -/
def journalAddr (d : KvDesc) (core slot : Nat) : Nat := ptrPlus d.jbase ((core * d.jent + slot) * d.esz)

/-- The place that an append of a core takes in its journal: the first from the last one's successor on, round the area, that holds no unfiled entry. DESIGN CHOICE (log 55): R253 does not say which. -/
def freePlace (s : State) (r : Region) (step core jent : Nat) : Nat :=
  let from_ := mgetD r.next core 0
  (((List.range jent).map (fun j => (from_ + j) % jent)).find? (fun k => r.entries.all (fun e => !(e.core == core && e.slot == k && e.alive s step)))).getD from_

/-- The append is written as a store of the wave; back: what the word leaves where it waits. -/
def appendEntry (v : View) (d : KvDesc) (ws : List Word64) (bytes : List Byte) (s : State) (back : State := s) : Result :=
  let core := v.b.core.getD 0
  let r := kvRegion s v.g.asid d.step
  let slot := freePlace s r d.step core d.jent
  let p := journalAddr d core slot
  let chk := fun q => checkAccess s v .store (some (ptrTag q)) (ptrAddr q) d.esz
  match laneFault chk [(0, p)] with
  | some f => issueFault v f (notePassed v .store d.esz [(0, ptrAddr p)]) s back
  | none =>
    let op : MemOp := .journal d.step r.nextId [{ lane := 0, addr := ptrAddr p, tag := ptrTag p, data := bytes }]
    let pend := chk p == .pending
    if emptyLineLanes v.b [(0, p)] d.esz ≠ [] ∨ queueFull v op true pend s then hold back
    else
      let e : JEntry := { id := r.nextId, core := core, slot := slot, wave := v.key, no := v.w.stNext, written := false, step := none, seq := 0, desc := ws }
      queueOp v op true false pend
        (modRegion v.g.asid d.step (fun r => { r with entries := r.entries ++ [e], nextId := r.nextId + 1, next := mput r.next core ((slot + 1) % d.jent) }) s) id

def execKappend (k : KW) (s : State) : Result :=
  viewWord k.guard [{ o := k.a }, { o := k.d }] [] (fun v _ t =>
    withDesc v (sReg v.w (sNum k.a)).toNat t (fun d ws u =>
      let h := k.head.toNat
      let p := (sReg v.w (sNum k.d)).toNat
      let n := d.dh / 32
      if h ≥ d.nh ∨ p ≥ 2 ^ 48 ∨ vNum k.b + n > v.w.allot ∨ vNum k.c + n > v.w.allot then illegalWord v.w u
      else withHead v d h u (fun hr x =>
        if ¬ vecFull v.w (vNum k.b) n ∨ ¬ vecFull v.w (vNum k.c) n then hold t
        else match kvSync v d.step 8 with
          | some f => hardFault v.w f x
          | none =>
            if unfiled x v.g.asid d.step (v.b.core.getD 0) ≥ d.jent then hold t
            else appendEntry v d ws (journalBytes h p (d.gen p) (d.slot p) (signature hr (vecVals v.w (vNum k.b) n)) (vecBits v.w (vNum k.b) n) (vecBits v.w (vNum k.c) n)) x t) t)) s

/-! ### KSTEP (R261) -/

/-- Something older of the wave is not acknowledged: a store, atomic, reduction or Quern operation (R261). -/
def unacked (w : Wave) : Bool :=
  decide (w.oc.st ≠ 0) || hasLogged w || w.mq.any (fun e => match e.op with | .lds _ _ => true | _ => false)

/-- The word is presented once, and holds until its step is filed (STEP_FILING completes it). -/
def execKstep (k : KW) (s : State) : Result :=
  viewWord k.guard [{ o := k.a }] (match k.d with | .none => [] | o => [(o, 1)]) (fun v _ t =>
    if v.w.arv ∨ unacked v.w then hold t
    else withDesc v (sReg v.w (sNum k.a)).toNat t (fun d ws u =>
      match kvSync v d.step 8 with
      | some f => hardFault v.w f u
      | none =>
        .next (modRegion v.g.asid d.step (fun r => { r with ksteps := r.ksteps ++ [(v.key, ws)] })
          (putWave v.key { v.w with arv := true } u)))) s

/-! ### KSIG, KSLOT, KSTAT (R262, R266, R267) -/

def execKsig (k : KW) (s : State) : Result :=
  viewWord k.guard [{ o := k.a }] [(k.d, 1)] (fun v m t =>
    withDesc v (sReg v.w (sNum k.a)).toNat t (fun d _ u =>
      let n := d.dh / 32
      if k.head.toNat ≥ d.nh ∨ vNum k.b + n > v.w.allot then illegalWord v.w u
      else withHead v d k.head.toNat u (fun hr x =>
        if ¬ vecFull v.w (vNum k.b) n then hold t
        else lateResult v k.d 8 m [(0, (signature hr (vecVals v.w (vNum k.b) n)).toNat)] x) t)) s

/-- The value of a K word's source. -/
def valK (w : Wave) (k : KW) (o : Operand) : Nat := (rawOp w k.lit false o 0).toNat

/-- Write an s destination, and go on. -/
def putResult (v : View) (d : Operand) (x : Nat) (s : State) : Result := .next (putWave v.key (advance (putS d (BitVec.ofNat 64 x) v.w)) s)

def execKslot (k : KW) (s : State) : Result :=
  viewWord k.guard [{ o := k.a }, { o := k.b }] [(k.d, 1)] (fun v _ t =>
    withDesc v (sReg v.w (sNum k.a)).toNat t (fun d _ u =>
      let p := valK v.w k k.b
      if p ≥ 2 ^ 48 then illegalWord v.w u
      else putResult v k.d (d.slot p + d.gen p * 2 ^ 20 + d.slot p / 16 * 2 ^ 32 + d.slot p % 16 * 2 ^ 52) u)) s

/-- What a KSTAT selector names (R267). The counter is read as an operation on sync space, which a replay reproduces; R320 leaves selectors 1 to 3 open (log 58). -/
def kvStat (s : State) (v : View) (d : KvDesc) (n : Nat) : Nat :=
  let r := kvRegion s v.g.asid d.step
  let now := stepCounter s v.g.asid d.step
  match n with
  | 0 => now.toNat
  | 1 => (r.entries.filter (fun e => e.step == some now)).length
  | 2 => unfiled s v.g.asid d.step (v.b.core.getD 0)
  | _ => if r.closed then 1 else 0

def execKstat (k : KW) (s : State) : Result :=
  viewWord k.guard [{ o := k.a }, { o := k.b }] [(k.d, 1)] (fun v _ t =>
    withDesc v (sReg v.w (sNum k.a)).toNat t (fun d _ u =>
      let n := valK v.w k k.b
      if n ≥ 4 then illegalWord v.w u
      else match kvSync v d.step 8 with
        | some f => hardFault v.w f u
        | none =>
          if n ≠ 0 then putResult v k.d (kvStat u v d n) u
          else match servedOp v.key d.step u with
            | some x => putResult v k.d (kvStat x v d 0) x
            | none => hold t)) s

/-! ### Lovage's accesses (R258, R268) -/

/-- Windows as Lovage sees them: it reaches global memory alone; a last byte beyond the address range crosses. DESIGN CHOICE (log 55): a BTAB, GENB or BKT pointer into the A or stack window gives local bounds, and JBASE reaches the window as a store of the wave does. -/
def lovageWindow (addr n : Nat) : Chk :=
  if addr + n - 1 ≥ 2 ^ 60 then .fail 4 0
  else if windowOf addr ≠ .global then .fail 3 0
  else if addr + n - 1 ≥ aBase ∧ addr < aBase then .fail 4 0
  else .ok

/-- The check of an access in a context (R268). -/
def lovageCheck (s : State) (asid : Nat) (k : Kind) (ptr n : Nat) : Chk :=
  match mget s.ctxs asid with
  | none => .fail 7 0
  | some c =>
    match lovageWindow (ptrAddr ptr) n with
    | .ok => checkGlobal s asid (rootOf c) k (some (ptrTag ptr)) (ptrAddr ptr) n
    | x => x

/-- The first granule of a failing access. -/
def failingAt (s : State) (asid : Nat) (k : Kind) (ptr n : Nat) : Nat :=
  match (parts 32 (ptrAddr ptr) n).find? (fun u => match lovageCheck s asid k (ptrFrom (ptrTag ptr) u.1) u.2 with | .fail _ _ => true | _ => false) with
  | some u => ptrFrom (ptrTag ptr) u.1
  | none => ptr

/-- Read n bytes in a context. -/
def lovageRead (asid ptr n : Nat) (s : State) : Run (List Byte) :=
  match mget s.ctxs asid with
  | none => .fail (copySpec 7 0 ptr) s
  | some c =>
    match lovageCheck s asid .load ptr n with
    | .fail det _ => let at_ := failingAt s asid .load ptr n; .fail (copySpec det 0 at_) (noteCtx asid (rootOf c) .load (ptrAddr ptr) (upTo (ptrAddr ptr) n (ptrAddr at_)) s)
    | .pending => .pending
    | .ok =>
      match lostAt s asid (rootOf c) (ptrAddr ptr) n with
      | some a => .fail (copySpec 10 0 (ptrFrom (ptrTag ptr) a)) (noteCtx asid (rootOf c) .load (ptrAddr ptr) n s)
      | none =>
        .ok ((List.range n).map (fun j => ctxByte s asid (rootOf c) (ptrAddr ptr + j)))
          (sendCtx asid (rootOf c) (ptrAddr ptr) n (recordAccess asid (rootOf c) false (ptrAddr ptr) n s))

/-- Write bytes in a context. -/
def lovageWrite (asid ptr : Nat) (bs : List Byte) (s : State) : Run Unit :=
  match mget s.ctxs asid with
  | none => .fail (copySpec 7 0 ptr) s
  | some c =>
    match lovageCheck s asid .store ptr bs.length with
    | .fail det _ => let at_ := failingAt s asid .store ptr bs.length; .fail (copySpec det 0 at_) (noteCtx asid (rootOf c) .store (ptrAddr ptr) (upTo (ptrAddr ptr) bs.length (ptrAddr at_)) s)
    | .pending => .pending
    | .ok => .ok () (ctxPut asid c (ptrAddr ptr) bs s)

def lovageNat (asid ptr n : Nat) (s : State) : Run Nat := (lovageRead asid ptr n s).andThen (fun bs t => .ok (bytesToNat bs) t)

/-- A queue of the key store is in sync space (R268). -/
def queueSpec (s : State) (asid q : Nat) : Option FaultSpec :=
  match mget s.ctxs asid with
  | some c => syncCheck c q 64 64
  | none => none

/-- A queue operation of Lovage for a wave: the queue lies in sync space, and a replay admits the operation. -/
def lovageQueue {α : Type} (key asid q : Nat) (s : State) (go : State → Run α) : Run α :=
  match queueSpec s asid q with
  | some f => .fail f s
  | none => match servedOp key q s with
    | some t => go t
    | none => .pending

/-- Take an item as QTRY does (R257, R265). -/
def lovagePop (key asid q : Nat) (s : State) : Run (Option Nat) :=
  lovageQueue key asid q s (fun t =>
    match popItem asid q t with
    | some (x, u) => .ok (some x.toNat) u
    | none => .ok none (touchQueue asid q t))

/-- Push an item as QPUSH does. -/
def lovagePush (key asid q : Nat) (x : Nat) (s : State) : Run Unit :=
  lovageQueue key asid q s (fun t => .ok () (pushItem asid q (BitVec.ofNat 64 x) .lovage t))

/-! ### Buckets (R252, R342) -/

/-- A bucket block. -/
structure Bucket where
  ptr : Nat
  chn : Nat
  next : Nat
  ents : List Nat

def bucketCnt (bs : List Byte) : Nat := bytesToNat (bs.take 1)
def bucketOf (ptr : Nat) (bs : List Byte) : Bucket :=
  { ptr := ptr, chn := bytesToNat ((bs.drop 1).take 1), next := bytesToNat ((bs.drop 2).take 6)
    ents := (List.range (bucketCnt bs)).map (fun e => bytesToNat ((bs.drop (8 + 4 * e)).take 4)) }

/-- The 128 bytes of a block (R252). DESIGN CHOICE (log 55): the bytes of entries not in use are zeros. -/
def Bucket.bytes (b : Bucket) : List Byte :=
  natToBytes 1 b.ents.length ++ natToBytes 1 b.chn ++ natToBytes 6 b.next ++ b.ents.flatMap (natToBytes 4) ++ natToBytes (120 - 4 * b.ents.length) 0

/-- The overflow blocks of a chain, at most n of them: the blocks visited, and whether the walk met a block whose CNT exceeds 30. -/
def walkChain (asid tag : Nat) : Nat → Nat → List Bucket → State → Run (List Bucket × Bool)
  | 0, _, acc, s => .ok (acc, false) s
  | n + 1, next, acc, s =>
    if next = 0 then .ok (acc, false) s
    else
      let ptr := ptrFrom tag (next * 128)
      (lovageRead asid ptr 128 s).andThen (fun bs t =>
        if bucketCnt bs > 30 then .ok (acc, true) t
        else walkChain asid tag n (bucketOf ptr bs).next (acc ++ [bucketOf ptr bs]) t)

/-- Walk a bucket from its primary block (R342). -/
def walkBucket (asid ptr : Nat) (s : State) : Run (List Bucket × Bool) :=
  (lovageRead asid ptr 128 s).andThen (fun bs t =>
    let b := bucketOf ptr bs
    if b.chn = 255 ∨ bucketCnt bs > 30 then .ok ([], true) t
    else walkChain asid (ptrTag ptr) b.chn b.next [b] t)

/-- The primary block of table t for a signature (R247, R263). -/
def primaryOf (r : HeadRec) (t : Nat) (sig : Nat) : Nat := ptrPlus r.bkt ((t * 2 ^ r.b + field sig (16 * t) r.b) * 128)

/-- Slot and generation of an entry. -/
def entSlot (e : Nat) : Nat := field e 0 20
def entGen (e : Nat) : Nat := field e 20 12

/-- The generation record of a slot (R250). -/
def genPtr (d : KvDesc) (h slot : Nat) : Nat := ptrPlus d.genb (8 * (h * d.ns + slot))

/-- The position of an entry that is live, none where it is not (R252). -/
def livePos (asid : Nat) (d : KvDesc) (h e : Nat) (s : State) : Run (Option Nat) :=
  if entSlot e ≥ d.ns then .ok none s
  else (lovageNat asid (genPtr d h (entSlot e)) 8 s).andThen (fun x t =>
    .ok (if bitAt x 63 ∧ field x 48 12 = entGen e then some (field x 0 48) else none) t)

/-- The live entries of a list, each as position × 2^32 + entry, in order. -/
def liveOf (asid : Nat) (d : KvDesc) (h : Nat) : List Nat → State → Run (List Nat)
  | [], s => .ok [] s
  | e :: rest, s =>
    (livePos asid d h e s).andThen (fun p t =>
      (liveOf asid d h rest t).andThen (fun xs u => .ok (match p with | some q => (q * 2 ^ 32 + e) :: xs | none => xs) u))

/-! ### KGATHER (R263) -/

/-- What a gather has found so far: the union by ascending position, a broken bucket, a chain beyond CHLIM. -/
structure Gathered where
  u : List Nat
  brk : Bool
  chl : Bool

/-- Walk the buckets of tables t and up, n of them. -/
def gather (asid : Nat) (d : KvDesc) (r : HeadRec) (h sig : Nat) : Nat → Nat → Gathered → State → Run Gathered
  | 0, _, g, s => .ok g s
  | n + 1, t, g, s =>
    (walkBucket asid (primaryOf r t sig) s).andThen (fun w s1 =>
      (liveOf asid d h (w.1.flatMap Bucket.ents) s1).andThen (fun xs s2 =>
        gather asid d r h sig n (t + 1)
          { u := xs.foldl sadd g.u, brk := g.brk || w.2, chl := g.chl || (!w.2 && decide ((w.1.head?.map Bucket.chn).getD 0 > d.chlim)) } s2))

/-- A candidate list's bytes. -/
def listBytes (brk cap chl : Bool) (step : Word64) (ents : List Nat) : List Byte :=
  let flag := fun (b : Bool) (i : Nat) => if b then 2 ^ i else 0
  natToBytes 8 (flag brk 35 + flag cap 34 + flag chl 33 + flag (brk || cap || chl) 32 + ents.length) ++ natToBytes 8 step.toNat ++
    ents.flatMap (natToBytes 4)

/-- Put an operation into the gather queue, and count it. -/
def queueGat (e : EngEntry) (w : Wave) : Wave := { w with gatQ := w.gatQ ++ [e], engNo := w.engNo + 1, oc := { w.oc with gat := w.oc.gat + 1 } }

/-- An older access of the wave that writes global memory is not performed: a gather or fetch comes after it (R141; log 25). -/
def writesOut (w : Wave) : Bool :=
  (w.mq.flatMap (fun e => opSpans e.op) ++ (engOpen w).flatMap (fun e => engWrites e.op)).any (fun x => windowOf x.addr == .global) ||
    (engOpen w).any (fun e => engOpens e.op)

/-- Register with the home Lovage, which reads the step counter (R259): the word holds while the region is closed, while its counter is full, for the wave's older writes, and where a replay has the counter's order (R320). -/
def registers (v : View) (d : KvDesc) (s : State) (go : State → Result) (back : State := s) : Result :=
  match kvSync v d.step 8 with
  | some f => hardFault v.w f s
  | none =>
    if (kvRegion s v.g.asid d.step).closed ∨ v.w.oc.gat ≥ 63 ∨ writesOut v.w then hold back
    else match servedOp v.key d.step s with
      | some t => go t
      | none => hold back

/-- The destination lines are marked empty, once no older operation or store writes them (R120). -/
def takesLines (v : View) (lines : List Nat) (s : State) (go : State → Result) (back : State := s) : Result :=
  if linesTaken v lines s then hold back
  else go (modBlock v.w.blk (fun b => { b with aE := lines.foldl sadd b.aE }) s)

/-- The gather's list is decided: Dense Fallback, whose default action goes on with its record written (R109), or the list is written by the engine. With trap.vec = 0 an incomplete gather completes as if FB were 0, in a handler too (R263). DEDUCED (log 11): in a handler it writes no trap record then. -/
def gathered (k : KW) (v : View) (d : KvDesc) (q dptr : Nat) (m : Word32) (g : Gathered) (s : State) (back : State := s) : Result :=
  let cap := decide (g.u.length > d.gcap)
  let u := g.u.drop (g.u.length - d.gcap)
  let inc := g.brk || g.chl || cap
  let list := fun (w : Wave) (t0 : State) =>
    let bytes := listBytes g.brk cap g.chl (stepCounter s v.g.asid d.step) (u.map (fun x => x % 2 ^ 32))
    takesLines v (linesOf (ptrAddr q) bytes.length) t0 (fun t =>
      let w1 := queueGat (engEntry v (.list (ptrAddr q) bytes d.step) []) w
      let w2 := (match k.c with | .k n => putK n m (if inc then 0xFFFFFFFF else 0) w1 | _ => w1)
      .next (putWave v.key (advance w2) (modRegion v.g.asid d.step (fun r => { r with readers := r.readers + 1 }) t))) back
  if inc ∧ d.fb ∧ ¬ (v.w.trapVec = 0 ∧ v.w.trapSt) then raiseTrap v.key v.w { cause := 2, addr := dptr, detail := k.head.toNat, lanes := m } list s
  else list v.w s

/-- A range of the A window, else local bounds (R263, R264). -/
def inA (d : Desc) (addr n : Nat) : Bool := windowOf addr == .a && decide (addr + n ≤ aBase + d.au * 4096)

/-- KGATHER (R263). DESIGN CHOICE (log 55): the head record is read, and may fault, before q's alignment and its local bounds are checked, since the rule orders neither; a gather whose bucket walk meets a pending mapping is not kept registered while it waits: filing does not wait for it, and it registers anew when it is examined again (R259). -/
def execKgather (k : KW) (s : State) : Result :=
  viewWord k.guard [{ o := k.a }, { o := k.d }, { o := k.b }] (match k.c with | .none => [] | o => [(o, 1)]) (fun v m t =>
    let dptr := (sReg v.w (sNum k.a)).toNat
    withDesc v dptr t (fun d _ x =>
      let q := (sReg v.w (sNum k.d)).toNat
      let sig := valK v.w k k.b
      withHead v d k.head.toNat x (fun hr y =>
        if q % 16 ≠ 0 then illegalWord v.w y
        else if ¬ inA v.g.d (ptrAddr q) (16 + 4 * d.gcap) then hardFault v.w { cause := 3, addr := q } y
        else registers v d y (fun z =>
          match gather v.g.asid d hr k.head.toNat sig hr.nl 0 { u := [], brk := false, chl := false } z with
          | .pending => hold t
          | .fail f u => hardFault v.w f u
          | .ok g u => gathered k v d q dptr m g u t) t) t)) s

/-! ### KFETCH (R264) -/

/-- The fields of a parameter word. -/
structure FetchArgs where
  zero : Nat
  qb : Nat
  wr : Nat
  nr : Nat
  first : Nat

def fetchArgs (p : Nat) : FetchArgs := { zero := field p 40 24, qb := field p 37 3, wr := field p 32 5, nr := field p 16 16, first := field p 0 16 }

/-- The parameter word's own rules for SUB 0 to 3. DESIGN CHOICE (log 55): a QB outside the range that the table gives it for KFETCH.w.v, DH/32 or more, raises Illegal Instruction; the rule states no consequence. -/
def FetchArgs.ok (p : FetchArgs) (d : KvDesc) (sub : Nat) : Bool :=
  p.zero == 0 && p.nr != 0 &&
    (match sub with
     | 2 => p.qb == 0 && decide (p.nr ≤ 32)
     | 3 => decide (p.qb < d.dh / 32)
     | _ => p.qb == 0 && p.wr == 0)

/-- The section of a head's rows in a KV page, and the bytes of a row's key or value in it (R248). -/
def kvSection (d : KvDesc) (h page : Nat) : Nat := ptrPlus page (h * d.hs)
def rowPtr (d : KvDesc) (h page slot : Nat) (values : Bool) : Nat := ptrPlus (kvSection d h page) ((slot % 16 + if values then 16 else 0) * (d.dh * d.eb))

/-- The TIER of the translation page that a pointer names. -/
def tierAt (asid ptr : Nat) (s : State) : Nat :=
  match mget s.ctxs asid with
  | none => 0
  | some c => match xlate s asid (rootOf c) (ptrAddr ptr) with
    | .ok _ x _ _ => leafTier x
    | _ => 0

/-- One read further into a row (R264): its generation record, which gives zeros where the slot does not hold the entry's generation; then the block table entry; then the bytes and the scale code of its section. DESIGN CHOICE (log 55): the tier of the KV page's first byte decides whether the row is a miss, and a block table entry that is not 128-byte aligned is used as it stands. -/
def rowRead (asid : Nat) (d : KvDesc) (h : Nat) (values : Bool) (r : RowSnap) (s : State) : Run RowSnap :=
  match r with
  | .unread slot gen =>
    if slot ≥ d.ns then .ok .zero s
    else (lovageNat asid (genPtr d h slot) 8 s).andThen (fun g t => .ok (if bitAt g 63 ∧ field g 48 12 = gen then .live slot else .zero) t)
  | .live slot => (lovageNat asid (ptrPlus d.btab (8 * (slot / 16))) 8 s).andThen (fun page t => .ok (.paged slot page) t)
  | .paged slot page =>
    (lovageRead asid (rowPtr d h page slot values) (d.dh * d.eb) s).andThen (fun bs t =>
      (if d.bf16 then Run.ok 0 t else lovageNat asid (ptrPlus (kvSection d h page) (32 * d.dh)) 1 t).andThen (fun sc u =>
        .ok (.row slot page (tierAt asid page u) sc bs) u))
  | r => .ok r s

/-- A row with what its word found at registration in place of what a later read finds (R259). -/
def RowSeen.over (seen : RowSeen) (r : RowSnap) : RowSnap :=
  match r with
  | .paged slot page => .later (.paged slot (seen.page.getD page)) seen
  | .row slot page tier scale bytes => .row slot page tier (seen.scale.getD scale) (seen.bytes.getD bytes)
  | .zero => .zero
  | r => .later r seen

/-- The same for a row that its word found in part: the read is made, and checked, and what was there at registration is what it finds (R259). -/
def rowStep (asid : Nat) (d : KvDesc) (h : Nat) (values : Bool) (r : RowSnap) (s : State) : Run RowSnap :=
  match r with
  | .later a seen => (rowRead asid d h values a s).andThen (fun b t => .ok (seen.over b) t)
  | r => rowRead asid d h values r s

/-- A row read to its end. -/
def readRow (asid : Nat) (d : KvDesc) (h : Nat) (values : Bool) (r : RowSnap) (s : State) : Run RowSnap :=
  (rowStep asid d h values r s).andThen (fun a t => (rowStep asid d h values a t).andThen (rowStep asid d h values))

/-- A row read as far as n reads get, where a pending mapping or a failing access stops them. -/
def snapRow (asid : Nat) (d : KvDesc) (h : Nat) (values : Bool) : Nat → RowSnap → State → RowSnap × State
  | 0, r, s => (r, s)
  | n + 1, r, s => match rowStep asid d h values r s with
    | .ok a t => snapRow asid d h values n a t
    | _ => (r, s)

/-- What a read finds, if it goes through. -/
def Run.found {α : Type} : Run α → Option α
  | .ok a _ => some a
  | _ => none

/-- What the reads beyond the one that stops a row find: the block table entry of its slot, and what lies in the section that this names. -/
def rowSeen (asid : Nat) (d : KvDesc) (h : Nat) (values : Bool) (slot : Nat) (page : Option Nat) (s : State) : RowSeen :=
  let page := page.or (lovageNat asid (ptrPlus d.btab (8 * (slot / 16))) 8 s).found
  { page := page
    bytes := page.bind (fun p => (lovageRead asid (rowPtr d h p slot values) (d.dh * d.eb) s).found)
    scale := page.bind (fun p => (lovageNat asid (ptrPlus (kvSection d h p) (32 * d.dh)) 1 s).found) }

/-- A row that a read has stopped, with what its word finds beyond. -/
def stoppedRow (asid : Nat) (d : KvDesc) (h : Nat) (values : Bool) (r : RowSnap) (s : State) : RowSnap :=
  match r with
  | .unread slot _ => .later r (rowSeen asid d h values slot none s)
  | .live slot => .later r (rowSeen asid d h values slot none s)
  | .paged slot page => .later r (rowSeen asid d h values slot (some page) s)
  | r => r

/-- The rows of a fetch as they stand at its registration; a read that is held or fails is left to the engine, which makes it and finds what is there now, and what can be read beyond it is kept as it is now (R259). -/
def snapRows (asid : Nat) (d : KvDesc) (h : Nat) (values : Bool) : List Nat → State → List RowSnap × State
  | [], s => ([], s)
  | e :: rest, s =>
    let here := snapRow asid d h values 3 (.unread (entSlot e) (entGen e)) s
    let more := snapRows asid d h values rest here.2
    (stoppedRow asid d h values here.1 here.2 :: more.1, more.2)

/-- The fetch takes effect: it is registered, its rows are read, its destination is marked, and it is counted and queued. -/
def fetchGo (k : KW) (v : View) (d : KvDesc) (ws : List Word64) (values : Bool) (dest : FetchDest) (ents : List Nat) (lines : List Nat) (mark : State → State) (s : State) (back : State := s) : Result :=
  registers v d s (fun t =>
    takesLines v lines t (fun u =>
      let snap := snapRows v.g.asid d k.head.toNat values ents u
      let op : EngOp := .fetch ws k.head.toNat values dest snap.1 0 []
      .next (putWave v.key (advance (queueGat (engEntry v op []) v.w)) (modRegion v.g.asid d.step (fun r => { r with readers := r.readers + 1 }) (mark snap.2)))) back) back

/-- The reservation of SUB 2 and 3 (R264): it holds until it admits a writer, and then its record is checked. -/
def fetchRes (v : View) (p : FetchArgs) (d : KvDesc) (columns : Bool) (s : State) (go : Res → Result) (back : State := s) : Result :=
  match mget v.b.res p.wr with
  | none => hold back
  | some r =>
    if ¬ admitsWriter (some r) then hold back
    else if r.fmt ≠ 7 ∨ r.sc ∨ (¬ columns ∧ r.elems < d.dh) ∨ (columns ∧ p.nr > r.elems) then illegalWord v.w s
    else go r

/-- Read the list's header and entries as loads of the wave (R264). DESIGN CHOICE (log 55): FIRST + NR > N raises Illegal Instruction after the header's read and before the entries' own line wait and local bounds. -/
def withList (v : View) (l : Nat) (p : FetchArgs) (s : State) (go : List Nat → State → Result) (back : State := s) : Result :=
  heldRead v l 16 s (fun hd t =>
    if p.first + p.nr > bytesToNat (hd.take 4) then illegalWord v.w t
    else heldRead v (ptrPlus l (16 + 4 * p.first)) (4 * p.nr) t (fun bs u =>
      go ((List.range p.nr).map (fun j => bytesToNat ((bs.drop (4 * j)).take 4))) u) back) back

/-- KFETCH, by its SUB: where the rows go, and what is checked on the way. DESIGN CHOICE (log 55): P's fields and the alignment and window of d and l are checked before the list is read, so that their Illegal Instruction comes ahead of the list read's own wait and local bounds; FIRST + NR > N is checked once the list's header is read, before its entries are (withList). The rule gives the cases and no order. -/
def fetchWord (sub : Nat) (k : KW) (s : State) : Result :=
  viewWord k.guard ([{ o := k.a }, { o := k.b }, { o := k.c }] ++ (if sub < 2 then [{ o := k.d }] else [])) [] (fun v _ t =>
    withDesc v (sReg v.w (sNum k.a)).toNat t (fun d ws x =>
      let p := fetchArgs (valK v.w k k.c)
      let l := (sReg v.w (sNum k.b)).toNat
      let dst := (sReg v.w (sNum k.d)).toNat
      let len := 4 * d.dh * p.nr
      withHead v d k.head.toNat x (fun _ y =>
        if ¬ p.ok d sub ∨ l % 16 ≠ 0 ∨ windowOf (ptrAddr l) ≠ .a ∨ (sub < 2 ∧ (dst % 4 ≠ 0 ∨ windowOf (ptrAddr dst) ≠ .a)) then illegalWord v.w y
        else withList v l p y (fun ents z =>
          if sub < 2 then
            if ¬ inA v.g.d (ptrAddr dst) len then hardFault v.w { cause := 3, addr := dst } z
            else fetchGo k v d ws (sub = 1) (.window (ptrAddr dst)) ents (linesOf (ptrAddr dst) len) id z t
          else fetchRes v p d (sub = 3) z (fun _ =>
            fetchGo k v d ws (sub = 3) (if sub = 3 then .columns p.wr p.qb else .rows p.wr) ents [] (modRes v.w.blk p.wr (fun r => { r with st := 2 })) z t) t) t) t)) s

def execKfetch (k : KW) (s : State) : Result := fetchWord 0 k s
def execKfetchV (k : KW) (s : State) : Result := fetchWord 1 k s
def execKfetchW (k : KW) (s : State) : Result := fetchWord 2 k s
def execKfetchWV (k : KW) (s : State) : Result := fetchWord 3 k s

end Sys2Proof.Machine
end

