-- ==== Sys2Proof/Machine/Lovage.lean ====
section
/-! DEFINITION. Lovage and the gather engine at work (R255 to R258, R263 to R265), and the retiring of engine operations (R120, R142, R163). -/
namespace Sys2Proof.Machine

/-! ### Arrival (R255) -/

/-- The oldest append of a core that has not arrived. -/
def nextArrival (s : State) (r : Region) (step core : Nat) : Option JEntry :=
  r.entries.find? (fun e => e.core == core && e.step.isNone && e.alive s step)

/-- An entry takes the counter's step, which is written into its step field; its wave is acknowledged. -/
def arrive (asid step : Nat) (c : Ctx) (e : JEntry) (s : State) : State :=
  let now := syncWord c step
  let at_ := journalAddr (kvDesc e.desc) e.core e.slot + 0x18
  let s1 := ctxPut asid c (ptrAddr at_) (natToBytes 8 now.toNat) s
  modWave e.wave (ackSt e.no) (modRegion asid step (fun r =>
    { r with
      entries := r.entries.map (fun x => if x.id = e.id then { x with step := some now, seq := r.nextSeq } else x)
      nextSeq := r.nextSeq + 1 }) s1)

/-- APPEND_ARRIVAL: the next written entry of a core's journal arrives, while the region is open, and reads the step counter, which a replay may hold (R320). -/
def execAppendArrival (asid step core : Nat) (s : State) : Result :=
  match mget s.ctxs asid with
  | none => .next s
  | some c =>
    let r := mgetD c.regions step dfltRegion
    if r.closed then .next s
    else match nextArrival s r step core with
      | some e => if e.written then .next (((servedOp e.wave step s).map (arrive asid step c e)).getD s) else .next s
      | none => .next s

/-! ### Encoding a row (R256) -/

/-- The smallest E5M3 code from 2^−17 on with a/σ ≤ 448, or 0xFE; a = m × 2^e. -/
def fitScale (m : Nat) (e : Int) : Nat :=
  ((List.range 254).map (fun i => i + 1)).find? (fun c => match e5m3Value c with | some s => dyadLe m e (448 * s.1) s.2 | none => false) |>.getD 0xFE

/-- x/σ in E4M3 with saturation, for σ not zero. -/
def encE4 (s : Nat × Int) (x : FVal) : Nat :=
  match x with
  | .nan => 0x7F
  | .inf neg => fMax fmtE4m3 neg
  | .fin neg m e => encodeElem 5 neg m e s

/-- A code moved from one scale to another: its value exactly, one rounding (R256). -/
def recode (old new : Nat × Int) (code : Nat) : Nat := encE4 new (scaleBy (fDecode fmtE4m3 code) old)

/-- Elements under a scale code; a NaN scale, which only a program writes, makes every element a NaN. -/
def encRow (sc : Nat) (xs : List FVal) : List Byte :=
  xs.map (fun x => BitVec.ofNat 8 (match e5m3Value sc with | some s => if s.1 = 0 then 0x7F else encE4 s x | none => 0x7F))

/-- The scale of a section after an entry whose greatest finite magnitude is m × 2^e, and the section's codes moved to it where it rises. -/
def newScale (asid sec n m : Nat) (e : Int) (sc : Nat) (s : State) : Run Nat :=
  if sc = 0 then
    let c := if m = 0 then 0x78 else fitScale m e
    (lovageWrite asid (ptrPlus sec n) (natToBytes 1 c) s).andThen (fun _ t => .ok c t)
  else
    match e5m3Value sc with
    | none => .ok sc s
    | some old =>
      if dyadLe m e (448 * old.1) old.2 then .ok sc s
      else
        let c := fitScale m e
        (lovageRead asid sec n s).andThen (fun bs t =>
          (lovageWrite asid sec (bs.map (fun b => BitVec.ofNat 8 (recode old ((e5m3Value c).getD (1, 0)) b.toNat))) t).andThen (fun _ u =>
            (lovageWrite asid (ptrPlus sec n) (natToBytes 1 c) u).andThen (fun _ x => .ok c x)))

/-- Step 1 of filing: the key row and the value row of an entry. -/
def fileRows (asid : Nat) (d : KvDesc) (sec row : Nat) (key val : List FVal) (s : State) : Run Unit :=
  let n := d.dh * d.eb
  let put := fun (k v : List Byte) (t : State) =>
    (lovageWrite asid (ptrPlus sec (row * n)) k t).andThen (fun _ u => lovageWrite asid (ptrPlus sec ((16 + row) * n)) v u)
  if d.bf16 then
    let enc := fun (xs : List FVal) => xs.flatMap (fun x => natToBytes 2 (fEncode fmtBf16 0 false x))
    put (enc key) (enc val) s
  else
    (lovageNat asid (ptrPlus sec (32 * d.dh)) 1 s).andThen (fun sc t =>
      let a := (key ++ val).foldl maxMag (0, 0)
      (newScale asid sec (32 * d.dh) a.1 a.2 sc t).andThen (fun c u => put (encRow c key) (encRow c val) u))

/-! ### Linking (R257) -/

/-- A block from FREE that passes its test; one that fails is discarded, and a pending translation holds filing (R258). -/
def freeBlockFor (key asid : Nat) (d : KvDesc) (tag : Nat) (s : State) : Run (Option Nat) :=
  if d.free = 0 then .ok none s
  else (lovagePop key asid d.free s).andThen (fun x t =>
    match x with
    | none => .ok none t
    | some p =>
      if ptrTag p = tag ∧ p % 128 = 0 ∧ ptrAddr p < 2 ^ 55 then
        match lovageCheck t asid .store p 128 with
        | .ok => .ok (some p) t
        | .pending => .pending
        | .fail _ _ => .ok none t
      else .ok none t)

/-- Write blocks back. -/
def putBuckets (asid : Nat) : List Bucket → State → Run Unit
  | [], s => .ok () s
  | b :: rest, s => (lovageWrite asid b.ptr b.bytes s).andThen (fun _ => putBuckets asid rest)

/-- Return emptied blocks, newest first. DESIGN CHOICE (log 55): a return that a full FREE queue holds does not hold the filing. -/
def returnBlocks (key asid q : Nat) : List Bucket → State → Run Unit
  | [], s => .ok () s
  | b :: rest, s => (lovagePush key asid q b.ptr s).andThen (fun _ => returnBlocks key asid q rest)

/-- Entries packed into blocks from the first onward, 30 to a block. -/
def repack : List Bucket → List Nat → List Bucket
  | [], _ => []
  | b :: rest, es => { b with ents := es.take 30 } :: repack rest (es.drop 30)

/-- Append an entry to the first block with room. -/
def addEntry (e : Nat) : List Bucket → List Bucket
  | [] => []
  | b :: rest => if b.ents.length < 30 then { b with ents := b.ents ++ [e] } :: rest else b :: addEntry e rest

/-- CHN and NEXT of a chain of these blocks. -/
def chainLinks (bs : List Bucket) : List Bucket :=
  (List.range bs.length).filterMap (fun i => (bs[i]?).map (fun b =>
    { b with chn := if i = 0 then bs.length - 1 else 0, next := (match bs[i + 1]? with | some c => ptrAddr c.ptr / 128 | none => 0) }))

/-- The primary block marked broken. -/
def breakChain : List Bucket → List Bucket
  | [] => []
  | b :: rest => { b with chn := 255 } :: rest

/-- A full bucket is compacted, and extended where nothing was free (R257). -/
def compact (key asid : Nat) (d : KvDesc) (h tag e : Nat) (bs : List Bucket) (s : State) : Run Unit :=
  (liveOf asid d h (bs.flatMap Bucket.ents) s).andThen (fun live t =>
    let es := live.map (fun x => x % 2 ^ 32)
    let kept := if d.free = 0 then bs.length else max 1 ((es.length + 29) / 30)
    let back := (bs.drop kept).reverse
    let packed := repack (bs.take kept) es
    let linked := if d.free = 0 then packed else chainLinks packed
    (returnBlocks key asid d.free back t).andThen (fun _ u =>
      if linked.any (fun b => decide (b.ents.length < 30)) then putBuckets asid (addEntry e linked) u
      else
        (freeBlockFor key asid d tag u).andThen (fun x y =>
          match x with
          | some p => putBuckets asid (chainLinks (linked ++ [{ ptr := p, chn := 0, next := 0, ents := [e] }])) y
          | none => putBuckets asid (breakChain linked) y)))

/-- Link (slot, gen) into one bucket. -/
def linkEntry (key asid : Nat) (d : KvDesc) (h ptr e : Nat) (s : State) : Run Unit :=
  (walkBucket asid ptr s).andThen (fun w t =>
    if w.2 then lovageWrite asid (ptrPlus ptr 1) [0xFF] t
    else match w.1.getLast? with
      | none => .ok () t
      | some b =>
        if b.ents.length < 30 then lovageWrite asid b.ptr { b with ents := b.ents ++ [e] }.bytes t
        else compact key asid d h (ptrTag ptr) e w.1 t)

def linkAll (key asid : Nat) (d : KvDesc) (r : HeadRec) (h sig e : Nat) : Nat → Nat → State → Run Unit
  | 0, _, s => .ok () s
  | n + 1, t, s => (linkEntry key asid d h (primaryOf r t sig) e s).andThen (fun _ => linkAll key asid d r h sig e n (t + 1))

/-! ### Filing a step (R255, R258) -/

/-- A journal entry as it stands in memory when it is filed. -/
structure Filed where
  pos : Nat
  head : Nat
  seq : Nat
  gen : Nat
  slot : Nat
  sig : Nat
  key : List FVal
  val : List FVal

/-- n FP32 values of bytes. -/
def floatsOf (n : Nat) (bs : List Byte) : List FVal := (List.range n).map (fun i => fDecode fmtF32 (bytesToNat ((bs.drop (4 * i)).take 4)))

def filedOf (d : KvDesc) (seq : Nat) (bs : List Byte) : Filed :=
  let w := fun i => bytesToNat ((bs.drop (8 * i)).take 8)
  { pos := field (w 0) 0 48, head := field (w 0) 48 8, seq := seq, gen := field (w 1) 20 12, slot := field (w 1) 0 20, sig := w 2
    key := floatsOf d.dh (bs.drop 64), val := floatsOf d.dh (bs.drop (64 + 4 * d.dh)) }

/-- Filing order: ascending position, then head, then arrival. -/
def filesBefore (a b : Filed) : Bool :=
  if a.pos ≠ b.pos then decide (a.pos < b.pos) else if a.head ≠ b.head then decide (a.head < b.head) else decide (a.seq < b.seq)

def insertFiled (x : Filed) : List Filed → List Filed
  | [] => [x]
  | y :: rest => if filesBefore x y then x :: y :: rest else y :: insertFiled x rest

/-- The three steps of one entry. DESIGN CHOICE (log 55): the head's record is not judged anew, and the fields that it has by then are used (R247, R257). -/
def fileEntry (key asid : Nat) (d : KvDesc) (x : Filed) (s : State) : Run Unit :=
  (lovageNat asid (ptrPlus d.btab (8 * (x.slot / 16))) 8 s).andThen (fun page t =>
    (fileRows asid d (ptrPlus page (x.head * d.hs)) (x.slot % 16) x.key x.val t).andThen (fun _ u =>
      (lovageWrite asid (genPtr d x.head x.slot) (natToBytes 8 (2 ^ 63 + x.gen * 2 ^ 48 + x.pos)) u).andThen (fun _ y =>
        (lovageRead asid (ptrPlus d.hrec (16 * x.head)) 16 y).andThen (fun bs z =>
          let r := headRec (bytesToNat (bs.take 8)) (bytesToNat (bs.drop 8))
          linkAll key asid d r x.head x.sig (x.gen * 2 ^ 20 + x.slot) r.nl 0 z))))

/-- A failure while filing is the KSTEP's: its block faults, and filing goes on (R258). -/
def stepFault (key : Nat) (f : FaultSpec) (s : State) : State :=
  match mget s.waves key with
  | some w => if w.ended then s else faultAt key (wordInfo w) f s
  | none => s

/-- What went through, or none where a translation is pending or a replay holds an operation. -/
def orFault (key : Nat) (r : Run Unit) : Option State :=
  match r with
  | .ok _ s => some s
  | .pending => none
  | .fail f s => some (stepFault key f s)

/-- Read the step's journal entries, in filing order. -/
def readJournal (asid key : Nat) : List JEntry → List Filed → State → Option (List Filed × State)
  | [], acc, s => some (acc, s)
  | e :: rest, acc, s =>
    let d := kvDesc e.desc
    match lovageRead asid (journalAddr d e.core e.slot) d.esz s with
    | .ok bs t => readJournal asid key rest (insertFiled (filedOf d e.seq bs) acc) t
    | .pending => none
    | .fail f t => readJournal asid key rest acc (stepFault key f t)

def fileAll (asid key : Nat) (d : KvDesc) : List Filed → State → Option State
  | [], s => some s
  | x :: rest, s =>
    match orFault key (fileEntry key asid d x s) with
    | some t => fileAll asid key d rest t
    | none => none

/-- The KSTEP word is complete: its destination takes s + 1 (R261). -/
def finishKstep (key : Nat) (x : Word64) (s : State) : State :=
  modWave key (fun w =>
    if w.arv ∧ ¬ w.ended then
      match fetchInstr w with
      | .ok (.kstep k) => advance (putS k.d x { w with arv := false })
      | _ => w
    else w) s

/-- The counter advances and the region reopens; none: a replay has another operation on the counter come first. -/
def reopen (asid step : Nat) (now : Word64) (key : Nat) (s : State) : Option State :=
  (servedOp key step s).map (fun t =>
    finishKstep key (now + 1)
      (syncWrite asid step (now + 1)
        (modRegion asid step (fun r => { r with entries := r.entries.filter (fun e => e.step != some now), ksteps := r.ksteps.drop 1 }) t)))

/-- A read through a pointer of the context has passed its checks at its first byte, whose leaf it marks (R280). -/
def noteFirst (asid ptr : Nat) (s : State) : State :=
  match mget s.ctxs asid with
  | some c => noteCtx asid (rootOf c) .load (ptrAddr ptr) 1 s
  | none => s

/-- The journal of a step is read; bad: the first entry's read, which passes its other checks (R279) and marks its leaf (R280), finds uncorrectable data, a copy fault that leaves the entry unfiled (R258, R295). -/
def stepJournal (asid key : Nat) (bad : Bool) (es : List JEntry) (s : State) : Option (List Filed × State) :=
  match es with
  | e :: rest =>
    let p := journalAddr (kvDesc e.desc) e.core e.slot
    if bad ∧ lovageCheck s asid .load p 1 = .ok then readJournal asid key rest [] (stepFault key (copySpec 10 0 p) (noteFirst asid p s))
    else readJournal asid key es [] s
  | [] => some ([], s)

/-- STEP_FILING: the first KSTEP to have arrived files its step, once every registered gather and fetch is complete. DESIGN CHOICE (log 44): the step is filed in one move, so that no plain load finds it in progress, which R146 allows; a replay holds that move as a whole (log 58). -/
def execStepFiling (asid : Nat) (step : Acting) (s : State) : Result :=
  let r := kvRegion s asid step.key
  match r.ksteps with
  | [] => .next s
  | (key, ws) :: _ =>
    if r.readers ≠ 0 then .next s
    else
      let now := stepCounter s asid step.key
      match stepJournal asid key step.failed (r.entries.filter (fun e => e.step == some now)) s with
      | none => .next s
      | some (xs, t) =>
        match fileAll asid key (kvDesc ws) xs t with
        | none => .next s
        | some u => .next ((reopen asid step.key now key u).getD s)

/-! ### KFETCH at work (R264, R265) -/

/-- A miss is counted, and logged in TMQ; a push to a full queue without a waiter is dropped. -/
def logMiss (v : View) (d : KvDesc) (h page : Nat) (s : State) : Run Unit :=
  let s1 := modWave v.key (fun w => { w with tierMiss := w.tierMiss + 1 }) s
  if d.tmq = 0 then .ok () s1
  else lovageQueue v.key v.g.asid d.tmq s1 (fun t =>
    match mget t.ctxs v.g.asid with
    | none => .ok () t
    | some c =>
      let x := queueAt c d.tmq
      if x.waiters = [] ∧ x.items.length ≥ capOf x then .ok () t
      else .ok () (pushItem v.g.asid d.tmq (BitVec.ofNat 64 (page + h * 2 ^ 20)) .lovage t))

/-- Bring a KV page in to a frame, where one is to be had and the block table still names the page: one that another fetch has brought in is not brought in again (R265). The row is then read from the frame. held: an older access of the wave holds a write of n bytes at a pointer (R141). -/
def pageIn (key asid : Nat) (d : KvDesc) (bte page : Nat) (row : Nat → Nat) (n : Nat) (held : State → Nat → Nat → Bool) (s : State) : Run Unit :=
  if d.pin = 0 then .ok () s
  else match lovageCheck s asid .store bte 8 with
    | .pending => .pending
    | .fail _ _ => .ok () s
    | .ok =>
      (lovageNat asid bte 8 s).andThen (fun now t =>
        if now ≠ page then .ok () t
        else (lovagePop key asid d.pin t).andThen (fun x u =>
          match x with
          | none => .ok () u
          | some f =>
            if f % 128 ≠ 0 then .ok () u
            else if held u f (d.nh * d.hs) || held u bte 8 then .pending
            else (lovageRead asid page (d.nh * d.hs) u).andThen (fun bs y =>
              (lovageWrite asid f bs y).andThen (fun _ z =>
                (lovageWrite asid bte (natToBytes 8 f) z).andThen (fun _ a =>
                  (lovageRead asid (row f) n a).andThen (fun _ b => .ok () b))))))

/-- A row whose KV page lies on tier 2 is a miss: the first of its page in this word is counted and logged (R265). missed: the pages this word has missed on. -/
def noteMiss (v : View) (d : KvDesc) (h : Nat) (r : RowSnap) (missed : List Nat) (s : State) : Run (RowSnap × List Nat) :=
  match r with
  | .row slot page tier sc bs =>
    if tier = 1 ∧ ¬ missed.contains (slot / 16) then (logMiss v d h (slot / 16) s).andThen (fun _ t => .ok (.missed slot page sc bs, slot / 16 :: missed) t)
    else .ok (r, missed) s
  | r => .ok (r, missed) s

/-- An element of a row: its code's value under the section's scale (R256, R264). -/
def rowElem (d : KvDesc) (sc : Nat) (bs : List Byte) (i : Nat) : FVal :=
  if d.bf16 then fDecode fmtBf16 (bytesToNat ((bs.drop (2 * i)).take 2))
  else match e5m3Value sc with
    | some s => scaleBy (fDecode fmtE4m3 (bytesToNat ((bs.drop i).take 1))) s
    | none => .nan

/-- The values of a row that is read; a missed page is brought in first (R265). -/
def rowValues (v : View) (o : Older) (d : KvDesc) (h : Nat) (values : Bool) (r : RowSnap) (s : State) : Run (List FVal) :=
  let elems := fun (sc : Nat) (bs : List Byte) => (List.range d.dh).map (rowElem d sc bs)
  match r with
  | .row _ _ _ sc bs => .ok (elems sc bs) s
  | .missed slot page sc bs =>
    (pageIn v.key v.g.asid d (ptrPlus d.btab (8 * (slot / 16))) page (fun f => rowPtr d h f slot values) (d.dh * d.eb)
      (fun x p n => o.holdsWrite x v ⟨0, ptrAddr p, n⟩) s).andThen (fun _ t => .ok (elems sc bs) t)
  | _ => .ok (List.replicate d.dh (FVal.fin false 0 0)) s

/-- BF16 element k of a lane in a reservation. -/
def putBf16 (lane k : Nat) (x : FVal) (r : Res) : Res :=
  { r with bytes := cellsPut r.bytes (lane * rowBytes r.fmt r.elems + 2 * k) (natToBytes 2 (fEncode fmtBf16 0 false x)) }

/-- Number the elements of a list. -/
def numbered {α : Type} (l : List α) : List (Nat × α) := (List.range l.length).zip l

/-- Row j as lane j (SUB 2), or as element j of every lane (SUB 3); the first row sets every other element to +0. -/
def fillRow (j : Nat) (xs : List FVal) (r : Res) : Res :=
  (numbered xs).foldl (fun x e => putBf16 j e.1 e.2 x) (if j = 0 then { r with bytes := [] } else r)
def fillColumn (qb j : Nat) (xs : List FVal) (r : Res) : Res :=
  lanes32.foldl (fun x l => putBf16 l j ((xs[32 * qb + l]?).getD (.fin false 0 0)) x) (if j = 0 then { r with bytes := [] } else r)

/-- Where row j of a fetch goes in the A window. -/
def rowSpan (d : KvDesc) (a j : Nat) : Span := ⟨0, a + 4 * d.dh * j, 4 * d.dh⟩

/-- Write row j of a fetch to its destination; left: how many rows follow. -/
def placeRow (v : View) (d : KvDesc) (dest : FetchDest) (j left : Nat) (xs : List FVal) (s : State) : State :=
  match dest with
  | .window a =>
    let p := rowSpan d a j
    fillFor v.w.blk (doneLines (linesOf p.addr p.len) (linesOf (p.addr + p.len) (p.len * left)))
      (modBlock v.w.blk (fun b => { b with a := cellsPut b.a (p.addr - aBase) (xs.flatMap (fun x => natToBytes 4 (fEncode fmtF32 0 false x))) }) s)
  | .rows res => modRes v.w.blk res (fillRow j xs) s
  | .columns res qb => modRes v.w.blk res (fillColumn qb j xs) s

/-- A row waits for older reads of the A bytes it overwrites (R141). -/
def rowHeld (v : View) (o : Older) (d : KvDesc) (dest : FetchDest) (j : Nat) (s : State) : Bool :=
  match dest with
  | .window a => o.holdsWrite s v (rowSpan d a j)
  | _ => false

/-- The reservation of a fetch is ready. -/
def fetchDone (v : View) (dest : FetchDest) (s : State) : State :=
  match dest with
  | .window _ => s
  | .rows res => modRes v.w.blk res (fun r => { r with st := 3 }) s
  | .columns res _ => modRes v.w.blk res (fun r => { r with st := 3 }) s

/-- A gather or fetch is complete: it no longer holds filing up (R255). -/
def leaveRegion (asid step : Nat) (s : State) : State := modRegion asid step (fun r => { r with readers := r.readers - 1 }) s

/-- A fetch goes on, row by row: it reads the row, notes its miss, brings its page in and writes it; what holds it leaves it at the point reached (R82, R264). -/
def fetchFrom (v : View) (o : Older) (desc : List Word64) (h : Nat) (values : Bool) (dest : FetchDest) : List RowSnap → Nat → List Nat → State → Worked
  | [], _, _, s => .done (leaveRegion v.g.asid (kvDesc desc).step (fetchDone v dest s))
  | r :: rest, j, missed, s =>
    let d := kvDesc desc
    let stay := fun (r : RowSnap) (missed : List Nat) (t : State) => Worked.part (.fetch desc h values dest (r :: rest) j missed) false t
    let fail := fun (f : FaultSpec) (t : State) => Worked.fail f (leaveRegion v.g.asid d.step t)
    if rowHeld v o d dest j s then stay r missed s
    else match readRow v.g.asid d h values r s with
      | .pending => let p := snapRow v.g.asid d h values 3 r s; stay p.1 missed p.2
      | .fail f t => fail f t
      | .ok a t =>
        match noteMiss v d h a missed t with
        | .pending => stay a missed t
        | .fail f u => fail f u
        | .ok x u =>
          match rowValues v o d h values x.1 u with
          | .pending => stay x.1 x.2 u
          | .fail f z => fail f z
          | .ok xs z => fetchFrom v o desc h values dest rest (j + 1) x.2 (placeRow v d dest j rest.length xs z)

/-- The list of a gather is written (R263). -/
def runList (v : View) (o : Older) (addr : Nat) (bytes : List Byte) (step : Nat) (s : State) : Worked :=
  if o.holdsWrite s v ⟨0, addr, bytes.length⟩ then .part (.list addr bytes step) false s
  else .done (leaveRegion v.g.asid step (fillFor v.w.blk (linesOf addr bytes.length) (modBlock v.w.blk (fun b => { b with a := cellsPut b.a (addr - aBase) bytes }) s)))

/-! ### Retiring (R82, R142) -/

/-- Run an engine operation on from its point. -/
def runEng (v : View) (e : EngEntry) (s : State) : Worked :=
  let o := olderThan v e
  match e.op with
  | .cpy dst dtag src stag len => runCpy v e o dst dtag src stag len s
  | .cpyLane size lanes data => runCpyLane v e o size lanes data s
  | .cpyt dst dtag table ttag rpb rb n first last => runCpyt v e o dst dtag table ttag rpb rb n first last s
  | .cpytW res off table ttag rpb rb n first last => runCpytW v e o res off table ttag rpb rb n first last s
  | .mloop ct wa wb peer n a0 b0 =>
    if loopsNext v.b v.w.idx e.no then .done (leaveLoops v.w.blk (runLoop v.w.blk ct wa wb peer n a0 b0 s)) else .part e.op false s
  | .qcvt wd addr stride blk => runQuant v e o wd addr stride blk s
  | .qcvtW wd ws => .done (runQuantW v.w.blk wd ws s)
  | .list addr bytes step => runList v o addr bytes step s
  | .fetch desc head values dest rows first missed => fetchFrom v o desc head values dest rows first missed s

/-- The pointer that a row of a fetch reads through next. -/
def rowNext (d : KvDesc) (head : Nat) (values : Bool) : RowSnap → Option Nat
  | .zero => none
  | .unread slot _ => some (genPtr d head slot)
  | .live slot => some (ptrPlus d.btab (8 * (slot / 16)))
  | .paged slot page => some (rowPtr d head page slot values)
  | .row slot page _ _ _ => some (rowPtr d head page slot values)
  | .missed slot page _ _ => some (rowPtr d head page slot values)
  | .later r _ => rowNext d head values r

/-- Where an operation reads global memory next: the lane and the pointer. -/
def nextRead (op : EngOp) : Option (Nat × Nat) :=
  match op with
  | .cpy _ _ src stag len => if len = 0 then none else some (0, ptrFrom stag src)
  | .cpyLane _ (l :: _) none => some (l.lane, ptrFrom l.stag l.src)
  | .cpyt _ _ table ttag rpb _ _ first none => some (0, ptrFrom ttag (table + 8 * (first / rpb)))
  | .cpytW _ _ table ttag rpb _ _ first none => some (0, ptrFrom ttag (table + 8 * (first / rpb)))
  | .cpyt _ _ _ _ rpb rb _ first (some x) => some (0, ptrPlus x.2 (first % rpb * rb))
  | .cpytW _ _ _ _ rpb rb _ first (some x) => some (0, ptrPlus x.2 (first % rpb * rb))
  | .fetch desc head values _ (r :: _) _ _ => (rowNext (kvDesc desc) head values r).map (fun p => (0, p))
  | _ => none

/-- A fetch that fails leaves its region. -/
def leaveFailed (v : View) (op : EngOp) (s : State) : State :=
  match op with
  | .fetch desc _ _ _ _ _ _ => leaveRegion v.g.asid (kvDesc desc).step s
  | _ => s

/-- A read of global memory at a pointer passes stages 2 to 5 of its checks: only then is its data judged (R279). -/
def readPasses (s : State) (v : View) (ptr : Nat) : Bool := windowOf (ptrAddr ptr) == .global && checkAccess s v .load (some (ptrTag ptr)) (ptrAddr ptr) 1 == .ok

/-- The same where the next read, which passes its other checks, finds uncorrectable data: a copy fault, after an access that marks its leaf (R163, R279, R280, R283, R295). -/
def runBad (v : View) (e : EngEntry) (s : State) : Worked :=
  match nextRead e.op with
  | some (lane, ptr) => if readPasses s v ptr then .fail (copySpec 10 lane ptr) (leaveFailed v e.op (notePassed v .load 1 [(lane, ptrAddr ptr)] s)) else runEng v e s
  | none => runEng v e s

/-- The queue of a class, and the wave with it replaced. -/
def engQueue (w : Wave) (c : Engine) : List EngEntry :=
  match c with
  | .cpy => w.cpyQ
  | .mtx => w.mtxQ
  | .gat => w.gatQ
def setQueue (c : Engine) (q : List EngEntry) (w : Wave) : Wave :=
  match c with
  | .cpy => { w with cpyQ := q }
  | .mtx => { w with mtxQ := q }
  | .gat => { w with gatQ := q }

/-- The class's counter falls. -/
def lowerCount (c : Engine) (w : Wave) : Wave :=
  match c with
  | .cpy => { w with oc := { w.oc with cpy := w.oc.cpy - 1 } }
  | .mtx => { w with oc := { w.oc with mtx := w.oc.mtx - 1 } }
  | .gat => { w with oc := { w.oc with gat := w.oc.gat - 1 } }

/-- Entry i of a class leaves its queue. -/
def dropEng (c : Engine) (i : Nat) (w : Wave) : Wave := lowerCount c (setQueue c (delAt (engQueue w c) i) w)
/-- Entry i of a class is replaced. -/
def setEng (c : Engine) (i : Nat) (e : EngEntry) (w : Wave) : Wave := setQueue c (setAt (engQueue w c) i e) w

/-- The work gets the operation past its point. -/
def getsOn (e : EngEntry) : Worked → Bool
  | .part op _ _ => op != e.op
  | _ => true

/-- The operation is held at its point by an A line. -/
def lineHeld (s : State) (v : View) (e : EngEntry) : Bool :=
  match runEng v e s with
  | .part op true _ => op == e.op
  | _ => false

/-- Every engine operation of a block waits for lines: after the block's end nothing will fill them (R120). -/
def stuckOnLines (s : State) (bk : Nat) : Bool :=
  (wavesOf s bk).all (fun e => match viewOf s e.1 with | some v => (engOpen v.w).all (lineHeld s v) | none => true)

/-- What entry i's work leaves: complete, it retires if it is the oldest and is held back if not (R142). -/
def worked (wave : Nat) (c : Engine) (i : Nat) (e : EngEntry) (r : Worked) : State :=
  match r with
  | .done t => modWave wave (if i = 0 then dropEng c 0 else setEng c i { e with ran := true }) t
  | .part op _ t => modWave wave (fun w => match (engQueue w c)[i]? with | some x => setEng c i { x with op := op } w | none => w) t
  | .fail f t => faultAt wave e.info f (modWave wave (dropEng c i) t)

/-- OPERATION_RETIRE: the oldest operation of a class retires if it is complete; else the oldest that can get on is performed as far as it can (R82, R142). Operations that wait for lines no one will fill are lost with their ended block. -/
def execOperationRetire (wave : Acting) (cls : Engine) (s : State) : Result :=
  match viewOf s wave.key with
  | none => .next s
  | some v =>
    match engQueue v.w cls with
    | [] => .next s
    | h :: rest =>
      if ¬ onCore v then .next s
      else if h.ran then .next (modWave wave.key (dropEng cls 0) s)
      else match (numbered (h :: rest)).find? (fun p => !p.2.ran && getsOn p.2 (runEng v p.2 s)) with
        | some (i, e) => .next (worked wave.key cls i e (if wave.failed then runBad v e s else runEng v e s))
        | none => if v.b.endAs.isSome ∧ stuckOnLines s v.w.blk then .next (modWave wave.key (dropEng cls 0) s) else .next s

end Sys2Proof.Machine
end

