-- ==== Sys2Proof/Machine/Sync.lean ====
section
/-! DEFINITION. Synchronisation words (R90 to R105): barriers, phases, yielding, queues, polling, dependence counters. -/
namespace Sys2Proof.Machine

/-! ### Issue order at a home Quern (R92) -/

/-- The sync or global addresses an operation of the memory queue performs at in Quern. -/
def quernAddrs : MemOp → List Nat
  | .atom _ _ _ _ lanes => lanes.map (fun l => l.addr)
  | .sts a _ => [a]
  | .lds a _ => [a]
  | .push q _ => [q]
  | .qinit q _ => [q]
  | .dcdec c => [c]
  | .dcset c _ => [c]
  | _ => []

/-- An older Quern operation of the wave for the same home Quern has not taken effect. -/
def olderAtHome (w : Wave) (a : Nat) : Bool := w.mq.any (fun e => (quernAddrs e.op).any (fun b => homeOf b == homeOf a))

/-- An older acquire of the wave is not performed: it orders every younger access (R134, R137). -/
def acquireOut (w : Wave) : Bool := w.mq.any isAcquire

/-- A save has carried an operation of the wave that is still to be performed: every later Quern operation comes after it (R132). -/
def carriedOut (w : Wave) : Bool := w.mq.any (fun e => e.carried)

/-- A word that Quern answers at once: its sync operand is checked, older operations and acquires take effect first, and a replay may hold it (R91, R92, R132, R134, R320). -/
def quernWord (v : View) (a size align : Nat) (s : State) (go : State → Result) : Result :=
  match syncCheck v.c a size align with
  | some f => hardFault v.w f s
  | none =>
    if olderAtHome v.w a ∨ acquireOut v.w ∨ carriedOut v.w then hold s
    else match quernOne v a false s with
      | some t => go t
      | none => hold s

/-- The wave as it stands now. -/
def waveNow (s : State) (v : View) : Wave := (mget s.waves v.key).getD v.w

/-- Change the issuing wave, and go on to the next word. -/
def doneWith (v : View) (f : Wave → Wave) (s : State) : Result := .next (putWave v.key (advance (f (waveNow s v))) s)

/-! ### Barriers (R17, R74, R93 to R95) -/

/-- Stores of the wave to the A window that are not yet performed: an arrival waits for them (R17). -/
def aStoresOut (w : Wave) : Bool := w.mq.any (fun e => (piecesOf e.op).any (fun q => windowOf q.addr == .a))

/-- Engine operations of the wave that may still read the A window: an arrival waits for them too (R17, R127). -/
def aReadsOut (v : View) : Bool :=
  (engOpen v.w).any (fun e => !engOpens e.op && match engReads v.b e.op with | some l => l.any (fun x => windowOf x.addr == .a) | none => true)

/-- A barrier as a wave meets it: a block barrier, or a cluster barrier of the group. -/
def barAt (s : State) (v : View) (cl : Bool) (n : Nat) : Bar := barIn s v.w.blk cl n

def setPend (cl : Bool) (n g : Nat) (w : Wave) : Wave := if cl then { w with pendC := mput w.pendC n g } else { w with pendB := mput w.pendB n g }
def clearPend (cl : Bool) (n : Nat) (w : Wave) : Wave := if cl then { w with pendC := mdel w.pendC n } else { w with pendB := mdel w.pendB n }

/-- The wave's pending arrival belongs to a generation that has not completed. -/
def stillPending (s : State) (v : View) (cl : Bool) (n : Nat) : Bool := pendAt (waveNow s v) cl n == some (barAt s v cl n).gen

/-- Record an arrival, and complete the barrier where it is the last (R74, R93, R94). -/
def recordArrival (v : View) (cl : Bool) (n : Nat) (s : State) : State :=
  let s1 := modWave v.key (setPend cl n (barAt s v cl n).gen) s
  if cl then checkBlockArrival v.w.blk n (modBlock v.w.blk (fun b => { b with cArr := mput b.cArr n (sadd (mgetD b.cArr n []) v.w.idx) }) s1)
  else checkBar v.w.blk n (modBlock v.w.blk (fun b => { b with bars := mmod b.bars n dfltBar (fun x => { x with arrived := sadd x.arrived v.w.idx }) }) s1)

/-- An arrival waits for the generation of an earlier one (R93), and for the wave's older A accesses (R17). -/
def mayArrive (s : State) (v : View) (cl : Bool) (n : Nat) : Bool := !stillPending s v cl n && !aStoresOut v.w && !aReadsOut v

/-- BWAIT: it waits for its arrival's generation, and takes the elected member; without a pending arrival it takes 0. -/
def waitAt (v : View) (cl : Bool) (n : Nat) (d : Operand) (s : State) : Result :=
  if stillPending s v cl n then hold s
  else
    let x := (match pendAt (waveNow s v) cl n with | some _ => (barAt s v cl n).elected | none => 0)
    doneWith v (fun w => putS d (BitVec.ofNat 64 x) (clearPend cl n w)) s

/-- BAR: it arrives once, and then waits as BWAIT. -/
def barWord (cl : Bool) (d : Operand) (n : Nat) (v : View) (s : State) : Result :=
  if v.w.arv then waitAt v cl n d s
  else if mayArrive s v cl n then waitAt v cl n d (modWave v.key (fun w => { w with arv := true }) (recordArrival v cl n s))
  else hold s

def execBar (y : YW) (s : State) : Result := viewWord y.guard [] (dstY y) (fun v _ t => barWord false y.d y.imm.toNat v t) s
def execBarC (y : YW) (s : State) : Result := viewWord y.guard [] (dstY y) (fun v _ t => barWord true y.d y.imm.toNat v t) s

def arriveWord (cl : Bool) (y : YW) (s : State) : Result :=
  viewWord y.guard [] [] (fun v _ t => if mayArrive t v cl y.imm.toNat then done v.key (recordArrival v cl y.imm.toNat t) else hold t) s

def execArrive (y : YW) (s : State) : Result := arriveWord false y s
def execArriveC (y : YW) (s : State) : Result := arriveWord true y s
def execBwait (y : YW) (s : State) : Result := viewWord y.guard [] (dstY y) (fun v _ t => waitAt v false y.imm.toNat y.d t) s
def execBwaitC (y : YW) (s : State) : Result := viewWord y.guard [] (dstY y) (fun v _ t => waitAt v true y.imm.toNat y.d t) s

/-- An older access of the wave that no counter counts is not performed: a returning atomic, an LDS, a load from the far side (R144). -/
def uncountedOut (w : Wave) : Bool :=
  farLoadsOut w || w.mq.any (fun e => match e.op with | .lds _ _ => true | .atom _ _ _ _ _ => true | _ => false)

/-- DRAIN waits until the wave's oc.st is zero, its side log empty and its other accesses performed, and then behaves as BAR (R95, R125, R144). -/
def drainWord (cl : Bool) (y : YW) (s : State) : Result :=
  viewWord y.guard [] (dstY y) (fun v _ t =>
    if ¬ v.w.arv ∧ (v.w.oc.st ≠ 0 ∨ hasLogged v.w ∨ uncountedOut v.w) then hold t else barWord cl y.d y.imm.toNat v t) s

def execDrainB (y : YW) (s : State) : Result := drainWord false y s
def execDrainC (y : YW) (s : State) : Result := drainWord true y s

/-! ### PHASE (R56, R96) -/

/-- The sync operand of a condition, with its size and alignment (R91). -/
def phaseOperand (p : PhaseReq) : Option (Nat × Nat × Nat) :=
  match p.ck with
  | 0 => some (p.ca.toNat, 8, 8)
  | 1 => some (p.ca.toNat, 4, 4)
  | 3 => some (p.ca.toNat, 64, 64)
  | 4 => if p.w32 then some (p.ca.toNat, 4, 4) else some (p.ca.toNat, 8, 8)
  | _ => none

def phaseReq (y : YW) (w : Wave) (ord : Nat) : PhaseReq :=
  let n := y.imm.toNat
  { ck := n % 16, cge := bitAt n 4, w32 := bitAt n 5
    ca := (match y.a with | .none => 0 | o => rawOp w y.lit false o 0)
    cval := (match y.b with | .none => 0 | o => rawOp w y.lit false o 0), ord := ord }

/-- The wave holds at its PHASE until PHASE_SAVE ends the phase. -/
def execPhase (y : YW) (s : State) : Result :=
  viewWord y.guard [srcYA y, srcYB y] [] (fun v _ t =>
    if v.w.phase.isSome then hold t
    else if v.w.trapSt then illegalWord v.w t
    else
      let p := phaseReq y v.w ((presentOf t v.w.blk).filter (fun e => e.2.phase.isSome)).length
      match (match phaseOperand p with | some (a, n, al) => syncCheck v.c a n al | none => none) with
      | some f => hardFault v.w f t
      | none => .next (checkPhases v.w.blk (putWave v.key { v.w with phase := some p } t))) s

/-! ### YIELD (R98) -/

/-- Of two YIELDs of one clause the longer wait holds, since each keeps the wave not eligible for its cycles. -/
def execYield (y : YW) (s : State) : Result :=
  word y.guard [] [] (fun key w _ t =>
    .next (putWave key (advance { w with clause := w.clause.map (fun c => { c with yld := longerYield c.yld (some y.imm.toNat) }) }) t)) s

/-! ### Queues (R99 to R103) -/

/-- A non-returning Quern operation is given to the memory unit (R92). -/
def quernQueue (y : YW) (size align : Nat) (op : Nat → Word64 → MemOp) (s : State) : Result :=
  viewWord y.guard [srcYA y, srcYB y] [] (fun v _ t =>
    let a := (valYA y v.w).toNat
    match syncCheck v.c a size align with
    | some f => hardFault v.w f t
    | none => queueOp v (op a (valYB y v.w)) true false false t id) s

def execQpush (y : YW) (s : State) : Result := quernQueue y 64 64 .push s
def execQlenInit (y : YW) (s : State) : Result := quernQueue y 64 64 .qinit s
def execDcdec (y : YW) (s : State) : Result := quernQueue y 8 8 (fun a _ => .dcdec a) s
def execDcset (y : YW) (s : State) : Result := quernQueue y 8 8 .dcset s

/-- QPOP: the oldest item, on its way to the destination; an empty queue parks the wave (R72). -/
def execQpop (y : YW) (s : State) : Result :=
  viewWord y.guard [srcYA y] [(y.d, 1)] (fun v m t =>
    let q := (valYA y v.w).toNat
    quernWord v q 64 64 t (fun u =>
      match popItem v.g.asid q u with
      | some (x, z) => lateResult { v with w := waveNow z v } y.d 8 m [(0, x.toNat)] z
      | none => .next (parkWave v.g.asid q (sNum y.d) v.key u))) s

/-- QTRY (R102). -/
def execQtry (y : YW) (s : State) : Result :=
  viewWord y.guard [srcYA y] [(y.d, 2)] (fun v _ t =>
    let q := (valYA y v.w).toNat
    quernWord v q 64 64 t (fun u =>
      match popItem v.g.asid q u with
      | some (x, z) => doneWith v (fun w => setS (setS w (sNum y.d) x) (sNum y.d + 1) 1) z
      | none => doneWith v (fun w => setS (setS w (sNum y.d) 0) (sNum y.d + 1) 0) (touchQueue v.g.asid q u))) s

/-- Items minus parked waiters (R103). -/
def queueLen (x : SyncQueue) : Int := (x.items.length : Int) - x.waiters.length

def execQlen (y : YW) (s : State) : Result :=
  viewWord y.guard [srcYA y] [(y.d, 1)] (fun v _ t =>
    let q := (valYA y v.w).toNat
    quernWord v q 64 64 t (fun u =>
      match mget u.ctxs v.g.asid with
      | none => .fault .noIssuingWave
      | some c => doneWith v (fun w => setS w (sNum y.d) (BitVec.ofInt 64 (queueLen (queueAt c q)))) (touchQueue v.g.asid q u))) s

/-! ### POLL (R70, R71, R104) -/

/-- An attempt of a held POLL: success completes the word; failure raises the level and starts the next wait; the 16th failure asks for an involuntary save. -/
def attempt (v : View) (p : PollState) (s : State) : State :=
  match mget s.ctxs v.g.asid with
  | none => s
  | some c =>
    let x := readVar c p.var p.w32
    if pollHolds p.cge x p.value then
      modWave v.key (fun w => advance (putS p.dest x { w with poll := none, backoff := 0 })) s
    else
      let level := min 15 (v.w.backoff + 1)
      let s1 := modWave v.key (fun w => { w with backoff := level, poll := some { p with fails := p.fails + 1, left := 2 ^ (level + 4) } }) s
      if p.fails + 1 ≥ 16 then modBlock v.w.blk (fun b => { b with escal := some (b.escal.getD v.w.idx) }) s1 else s1

/-- The word issues: its value is read once, and the first attempt is made; after a restoration its count of failed attempts goes on (R71). -/
def execPoll (y : YW) (s : State) : Result :=
  viewWord y.guard [srcYA y, srcYB y] (dstY y) (fun v _ t =>
    let a := (valYA y v.w).toNat
    let w32 := bitAt y.imm.toNat 5
    let n := if w32 then 4 else 8
    quernWord v a n n t (fun u =>
      let w := waveNow u v
      .next (attempt { v with w := w } { fails := w.again, left := 0, var := a, value := valYB y w, cge := bitAt y.imm.toNat 4, w32 := w32, dest := y.d } u))) s

/-- POLL_ATTEMPT: the back-off wait is over. No attempt is made while the wave is not on a core, or while an involuntary save of its group is due (R71, R81). -/
def execPollAttempt (wave : Nat) (s : State) : Result :=
  match viewOf s wave with
  | none => .next s
  | some v =>
    match v.w.poll with
    | none => .next s
    | some p =>
      if p.left ≠ 0 ∨ v.b.life ≠ .running ∨ ¬ holdsQuantum s v.g.asid ∨ escalating s v.w.blk ∨ v.w.stop then .next s
      else match quernOne v p.var false s with
        | some t => .next (attempt { v with w := waveNow t v } p t)
        | none => .next s

end Sys2Proof.Machine
end

