-- ==== Sys2Proof/Machine/Windshaft.lean ====
section
/-! DEFINITION. Windshaft: launches (R48 to R51, R106, R318), placement (R9, R12, R65, R66, R117, R274), landing slots and page lists (R53, R54, R273, R302, R341), and block completion (R14). -/
namespace Sys2Proof.Machine

/-! ### Launch descriptors (R48, R49) -/

/-- The fields of a descriptor's sixteen words. -/
def launchDesc (ws : List Word64) : Desc :=
  let x := descWord ws
  { kind := field (x 0) 60 4, prio := field (x 0) 58 2, det := bitAt (x 0) 57, fpol := bitAt (x 0) 56, rmode := field (x 0) 54 2
    gs := field (x 1) 42 3 + 1, pwoff := field (x 1) 34 8, au := field (x 1) 25 9, cv := field (x 1) 16 9, cs := field (x 1) 9 7
    va := 16 * (field (x 1) 5 4 + 1), nw := field (x 1) 0 5 + 1
    entry := BitVec.ofNat 64 (x 2), args := BitVec.ofNat 64 (x 3), pgf := field (x 4) 30 2
    w1 := field (x 4) 0 6, w2 := field (x 4) 6 6, w3 := field (x 4) 12 6, w4 := field (x 4) 18 6, w5 := field (x 4) 24 6
    ext3 := x 5, ext4 := x 6, ext5 := x 7, plist := x 8, dcbase := x 9, stbase := x 10, prbase := x 11, gdone := x 12, stksz := field (x 13) 0 32 }

/-- Code 1, but for the conditions on RMODE that R106 and R318 add. -/
def launchZeros (ws : List Word64) (d : Desc) : Bool :=
  let x := descWord ws
  decide (d.kind ≤ 1) && d.rmode != 3 && field (x 0) 0 54 == 0 && field (x 1) 45 19 == 0 && field (x 4) 32 32 == 0 && field (x 13) 32 32 == 0 &&
    x 14 == 0 && x 15 == 0

def launchRoom (d : Desc) : Bool := decide (d.nw * d.va ≤ 4096) && decide (d.cv ≤ d.va) && decide (d.cs ≤ 64) && decide (d.au ≤ 256)

def launchWidths (d : Desc) : Bool :=
  decide (1 ≤ d.ext3) && decide (1 ≤ d.ext4) && decide (1 ≤ d.ext5) && decide (5 + d.w1 + d.w2 + d.w3 + d.w4 + d.w5 ≤ 64) &&
    decide (d.nw ≤ 2 ^ d.w1) && decide (d.gs ≤ 2 ^ d.w2) && decide (d.ext3 ≤ 2 ^ d.w3) && decide (d.ext4 ≤ 2 ^ d.w4) && decide (d.ext5 ≤ 2 ^ d.w5)

def launchKind (d : Desc) : Bool :=
  if d.kind = 1 then
    d.pgf != 0 && d.gs == 1 && decide (d.nw ≤ 16) && decide (d.pwoff + 4 ≤ d.au) && d.plist != 0 &&
      (d.pgf == 1 || d.ext3 == 1) && (d.pgf == 2 || d.ext4 == 1) && (d.pgf == 3 || d.ext5 == 1)
  else d.pgf == 0 && d.plist == 0

def launchAligned (d : Desc) : Bool :=
  d.entry.toNat % 8 == 0 && d.plist % 8 == 0 && d.dcbase % 8 == 0 && d.stbase % 4 == 0 && d.gdone % 8 == 0 && d.prbase % 128 == 0

def launchStack (e : CtxEntry) (d : Desc) : Bool :=
  d.stksz % 16 == 0 && decide (d.stksz ≤ 65536) && decide (d.stksz * 32 * d.nw ≤ e.stks * 65536)

/-- Where a launch comes from: the host, or a block's wave (R106, R318). -/
inductive Launcher where
  | host (vf tag : Nat)
  | wave (gid : Nat)

/-- The conditions on RMODE 1 and 2 (R106, R318): from the host a bound log area with no such grid, empty for recording, beginning with a LAUNCH record for replay; from device code a launcher of the same mode, whose log may have filled up (R319). -/
def rmodeOk (s : State) (c : Ctx) (by_ : Launcher) (d : Desc) : Bool :=
  if d.rmode = 0 ∨ d.rmode = 3 then true
  else match by_ with
    | .wave gid => (match c.log with | some l => l.grids.contains gid && l.replay == (d.rmode == 2) | none => false)
    | .host _ _ =>
      match c.log with
      | none => false
      | some l => l.grids.isEmpty && (if d.rmode = 1 then logType s l 0 == 0 else logType s l 0 == 1)

/-- The code of R49: 0, or the lowest of the codes whose condition fails. -/
def launchCode (s : State) (c : Ctx) (by_ : Launcher) (ws : List Word64) : Nat :=
  let d := launchDesc ws
  if ¬ launchZeros ws d ∨ ¬ rmodeOk s c by_ d then 1
  else if ¬ launchRoom d then 2
  else if ¬ launchWidths d then 3
  else if ¬ launchKind d then 4
  else if ¬ launchAligned d then 5
  else if gridBlocks d > 2 ^ 28 then 6
  else if ¬ launchStack c.ent d then 7
  else 0

/-! ### Acceptance and start (R50 to R52) -/

/-- Clear the 32-bit words of a range of sync space. -/
def clearHalves (lo hi : Nat) (e : Nat × Word64) : Nat × Word64 :=
  let keep := fun (a : Nat) (m : Word64) => if lo ≤ a ∧ a < hi then (0 : Word64) else m
  (e.1, e.2 &&& (keep e.1 0x00000000FFFFFFFF ||| keep (e.1 + 4) 0xFFFFFFFF00000000))

/-- Quern writes 0 to every word of the completion status array (R50). -/
def clearStatus (asid : Nat) (d : Desc) (s : State) : State :=
  wakePhases asid (modCtx asid (fun c => { c with sync := (c.sync.map (clearHalves d.stbase (d.stbase + 4 * gridBlocks d))).filter (fun e => e.2 != 0) }) s)

/-- The test of a block's counter at the grid's start (R51, R52). -/
def startTest (asid gid : Nat) (d : Desc) (s : State) (num : Nat) : State :=
  match mget s.ctxs asid with
  | none => s
  | some c => if d.dcbase = 0 ∨ syncWord c (d.dcbase + 8 * num) = 0 then blockRunnable gid num s else s

/-- The log as a launch of mode 1 or 2 leaves it (R318 to R320): the grid joins it; a recording writes its LAUNCH record; a replay starts from the first record. -/
def joinLog (asid gid : Nat) (d : Desc) (ptr : Nat) (bytes : List Byte) (s : State) : State :=
  match mget s.ctxs asid with
  | none => s
  | some c =>
    match c.log with
    | none => s
    | some l =>
      if d.rmode = 1 then
        logAppend asid (2 ^ 60) ptr d.stbase (hashBytes bytes).toNat
          (modCtx asid (fun c => { c with log := some (if l.grids = [] then { l with grids := [gid], replay := false, written := 0, full := false } else { l with grids := sadd l.grids gid, replay := false }) }) s)
      else if d.rmode = 2 then
        let l := if l.grids = [] then { l with used := [], lifted := [], began := s.time.ticks.toNat, stamps := [] } else l
        let used := (match nextRecord s l (fun i => logType s l i == 1) with | some i => i :: l.used | none => l.used)
        let stop := logStop s l
        let end_ := if stop < logCap l ∧ logType s l stop = 6 then stop + 1 else stop
        if l.grids = [] then
          modCtx asid (fun c => { c with log := some { l with grids := [gid], replay := true, used := used, written := end_, full := false } }) s
        else modCtx asid (fun c => { c with log := some { l with grids := sadd l.grids gid, used := used } }) s
      else s

/-- Accept a launch: the grid is made, its status array cleared, and it starts; while its context is torn down it ends at once, as every grid of it does (R287). -/
def acceptLaunch (asid : Nat) (by_ : Launcher) (ptr : Nat) (ws : List Word64) (s : State) : State :=
  let d := launchDesc ws
  let gid := s.nextGrid
  let g : Grid := { asid := asid, d := d, status := [], runnable := [], listed := [], gbar := [], cbars := [], done := false
                    launcher := (match by_ with | .host n t => some (n, t) | .wave _ => none) }
  let s1 := { s with grids := mput s.grids gid g, nextGrid := gid + 1 }
  let s2 := clearStatus asid d (joinLog asid gid d ptr (ws.flatMap (fun w => natToBytes 8 w.toNat)) s1)
  let t := (List.range (gridBlocks d)).foldl (startTest asid gid d) s2
  if tearingDown s asid then endGrid gid none t else t

/-- Offer a descriptor to the Windshafts: the code, and the state after (R49). -/
def offerLaunch (asid : Nat) (by_ : Launcher) (ptr : Nat) (ws : List Word64) (s : State) : Nat × State :=
  match mget s.ctxs asid with
  | none => (8, s)
  | some c =>
    let code := launchCode s c by_ ws
    (code, if code = 0 then acceptLaunch asid by_ ptr ws s else s)

/-- An older store, non-returning atomic or reduction of the wave is not acknowledged, an append's among them (R92, R106, R254). -/
def releaseWaits (v : View) : Bool :=
  appendOut v.c v.key || v.w.mq.any (fun e => match e.op with
    | .store _ => true | .journal _ _ _ => true | .atom ret _ _ _ _ => !ret | .tagset _ => true | .tagRange _ _ _ => true | _ => false)

/-- LAUNCH (R106): it waits for the wave's older stores, reads the descriptor and writes the code of the offer. DESIGN CHOICE (log 56): it waits for no older Quern operation, so the grid may be placed, and its counter tested, before an older DCSET, DCDEC or STS of the wave has taken effect. -/
def execLaunch (y : YW) (s : State) : Result :=
  viewWord y.guard [srcYA y] [(y.d, 1)] (fun v _ t =>
    let p := (valYA y v.w).toNat
    if releaseWaits v then hold t
    else if p % 128 ≠ 0 ∨ windowOf (ptrAddr p) ≠ .global then illegalWord v.w t
    else heldRead v p 128 t (fun bs u =>
      let r := offerLaunch v.g.asid (.wave v.b.gid) p (wordsOf 16 bs) u
      doneWith v (fun w => setS w (sNum y.d) (BitVec.ofNat 64 r.1)) r.2)) s

/-! ### Room (R9, R12, R65, R89, R117, R274) -/

/-- Clusters of a partition, as a mask. -/
def coreInMask (mask core : Nat) : Bool := decide (core < 768) && bitAt mask (clusterOf core)

/-- A core is given to a context: it lies in the partition, the context holds the quantum, and no other context's state is on it (R84, R274). DESIGN CHOICE (log 57): a request and the restoration of a saved block take what room there is, in either order. -/
def coreFor (s : State) (asid core : Nat) : Bool :=
  match mget s.ctxs asid with
  | none => false
  | some c =>
    holdsQuantum s asid && coreInMask (partAt s c.ent.part).mask core &&
      (match mget s.cores core with | some k => k.ctx == some asid || !k.dirty | none => true)

/-- A wave still holds its slot and v registers: it has not ended, or its producers and engines are not done (R89). -/
def holdsSlot (w : Wave) : Bool :=
  !w.ended || !w.returns.isEmpty || w.oc.cpy != 0 || w.oc.mtx != 0 || w.oc.gat != 0 ||
    w.mq.any (fun e => match e.op with | .atom ret _ _ _ _ => ret | .lds _ _ => true | _ => false)

/-- Waves of a block that hold a slot: an ended one too whose engine operations are carried (R82, R89). -/
def slotWaves (s : State) (bk : Nat) : Nat := ((wavesOf s bk).filter (fun e => holdsSlot e.2)).length

/-- Wave slots a block on a core holds. -/
def slotsHeld (s : State) (bk : Nat) (b : Block) (d : Desc) : Nat := if b.life = .running then slotWaves s bk else d.nw

/-- What a core's blocks use: slots, v registers, A units, slots of reserved blocks (R12), W units, tiles. -/
structure Use where
  slots : Nat
  vregs : Nat
  au : Nat
  waiting : Nat
  units : Nat
  tiles : Nat

def useOf (s : State) (core : Nat) : Use :=
  s.blocks.foldl (fun u e =>
    if e.2.core = some core then
      match mget s.grids e.2.gid with
      | none => u
      | some g =>
        let n := slotsHeld s e.1 e.2 g.d
        { slots := u.slots + n, vregs := u.vregs + n * g.d.va, au := u.au + g.d.au
          waiting := u.waiting + (if e.2.life = .reserved then g.d.nw else 0)
          units := u.units + unitsHeld e.2, tiles := u.tiles + e.2.bound.length }
    else u) { slots := 0, vregs := 0, au := 0, waiting := 0, units := 0, tiles := 0 }

/-- What one block of a request needs. -/
structure Need where
  waves : Nat
  va : Nat
  au : Nat
  landing : Bool
  units : Nat
  tiles : Nat

def roomOn (s : State) (core : Nat) (n : Need) : Bool :=
  let u := useOf s core
  decide (u.slots + n.waves ≤ 64) && decide (u.vregs + n.waves * n.va ≤ 4096) && decide (u.au + n.au ≤ 256) &&
    (!n.landing || decide (u.waiting + n.waves ≤ 16)) && decide (u.units + n.units ≤ 256) && decide (u.tiles + n.tiles ≤ 64)

/-- Bytes of a block's stack slice (R117). -/
def sliceLen (d : Desc) : Nat := d.stksz * 32 * d.nw

/-- The lowest free place for a slice in the context's stack region. DESIGN CHOICE (log 48): the spec does not say which free range a slice takes (R117); with the first that fits, fragmentation can keep a slice from being lent. -/
def freeSliceAt (c : Ctx) (len : Nat) : Option Nat :=
  ((0 :: c.slices.map (fun e => e.1 + e.2)).filter (fun o =>
    decide (o + len ≤ c.ent.stks * 65536) && c.slices.all (fun e => decide (o + len ≤ e.1) || decide (e.1 + e.2 ≤ o)))).min?

/-- Lend a block a slice, which reads zero; with STKSZ = 0 there is nothing to lend (R117). -/
def lendSlice (asid bk : Nat) (d : Desc) (s : State) : State :=
  match mget s.ctxs asid with
  | none => s
  | some c =>
    match (if sliceLen d = 0 then none else freeSliceAt c (sliceLen d)) with
    | none => s
    | some o =>
      let lo := c.ent.stkb + o
      modBlock bk (fun b => { b with slice := some o })
        (modCtx asid (fun c => { c with slices := c.slices ++ [(o, sliceLen d)] })
          { s with mem := s.mem.filter (fun e => decide (e.1 < lo) || decide (lo + sliceLen d ≤ e.1)), spoilt := heal s.spoilt lo (sliceLen d) })

/-- Return a block's slice, and forget where it was. -/
def returnSlice (asid bk : Nat) (s : State) : State :=
  match mget s.blocks bk with
  | none => s
  | some b => modBlock bk (fun b => { b with slice := none }) (freeSlice asid b s)

/-- A slice for each of n blocks of a grid is free. -/
def slicesFree (c : Ctx) (d : Desc) : Nat → Bool
  | 0 => true
  | n + 1 =>
    match freeSliceAt c (sliceLen d) with
    | none => false
    | some o => slicesFree { c with slices := c.slices ++ [(o, sliceLen d)] } d n

/-- The grid and context of a request. -/
def requestGrid (s : State) (r : Request) : Option (Grid × Ctx) :=
  match mget s.grids r.gid with
  | none => none
  | some g => (mget s.ctxs g.asid).map (fun c => (g, c))

/-- What a block needs to be placed as its request asks. -/
def needOf (s : State) (k : ReqKind) (d : Desc) (bk : Nat) : Need :=
  let b := (mget s.blocks bk).getD (freshBlock 0 0)
  match k with
  | .resume _ =>
    let r := mget s.phaseQ bk
    let inv := (match r with | some x => x.inv | none => false)
    { waves := if inv then slotWaves s bk else (match r with | some x => x.waves.length | none => d.nw), va := d.va, au := d.au, landing := false
      units := if inv then unitsHeld b else 0, tiles := if inv then b.bound.length else 0 }
  | .slot _ => { waves := d.nw, va := d.va, au := d.au, landing := true, units := 0, tiles := 0 }
  | _ => { waves := d.nw, va := d.va, au := d.au, landing := false, units := 0, tiles := 0 }

/-- A request needs fresh slices: an involuntarily saved block kept its own (R117). -/
def needsSlices (s : State) (r : Request) : Nat :=
  (r.kind.blocks.filter (fun bk => (match mget s.blocks bk with | some b => b.slice.isNone | none => true))).length

/-- The cores of a cluster from a core on. -/
def clusterFrom (core : Nat) : List Nat := (List.range 8).map (fun i => clusterOf core * 8 + (core + i) % 8)

/-- Give each block of a group a core of its own, in order, from the cores offered (R45, R65). -/
def assign (s : State) (asid : Nat) (need : Nat → Need) : List Nat → List Nat → Option (List (Nat × Nat))
  | [], _ => some []
  | bk :: rest, cores =>
    match cores.find? (fun c => coreFor s asid c && roomOn s c (need bk)) with
    | none => none
    | some c => (assign s asid need rest (cores.filter (fun x => x != c))).map (fun l => (bk, c) :: l)

/-- The cores a request would take if its search starts at a core: one core, or a core for each block of the group in the cluster. -/
def placing (s : State) (r : Request) (core : Nat) : Option (List (Nat × Nat)) :=
  match requestGrid s r with
  | none => none
  | some (g, c) =>
    if slicesFree c g.d (needsSlices s r) then
      let bks := r.kind.blocks
      if bks.length ≤ 1 then assign s g.asid (needOf s r.kind g.d) bks [core]
      else assign s g.asid (needOf s r.kind g.d) bks (clusterFrom core)
    else none

/-! ### The order of requests (R65) -/

def ReqKind.isSlot : ReqKind → Bool
  | .slot _ => true
  | _ => false

/-- The channel of a flash page, and the base die of its Millrace (R6, R53). -/
def channelOf (fa : Nat) : Nat := field fa 0 6
def millraceOf (fa : Nat) : Nat := channelOf fa / 16

/-- The flash page of a slot request's block. -/
def slotPage (s : State) (r : Request) : Nat :=
  match r.kind with
  | .slot bk => (match mget s.blocks bk with | some b => b.fa.toNat | none => 0)
  | _ => 0

/-- The request is in the queue of a base die's Windshaft. -/
def onDie (s : State) (r : Request) (die : Nat) : Bool := !r.kind.isSlot || millraceOf (slotPage s r) == die

/-- a is served before b. -/
def servedBefore (a b : Nat × Request) : Bool := decide (a.2.prio < b.2.prio) || (a.2.prio == b.2.prio && decide (a.1 < b.1))

/-- The name under which the constraint of a page is lifted: its block's number and its page-list entry. -/
def pageName (num fa : Nat) : Nat × Bool := (2 ^ 128 + fa * 2 ^ 60 + num, false)

/-- Record i is a PAGE record whose constraint stands; its block number and page-list entry (R319). -/
def pageRecord (s : State) (l : LogArea) (i : Nat) : Bool := logType s l i == 2 && !l.lifted.contains (pageName (logWord s l i 0 % 2 ^ 60) (logWord s l i 1))
def isPage (s : State) (l : LogArea) (num fa i : Nat) : Bool := logWord s l i 0 % 2 ^ 60 == num && logWord s l i 1 == fa

/-- The page of record i is still to come: a replayed grid's block of its number, with its page-list entry or one not read yet, stands so; or an older LAUNCH record's grid is still to be launched. -/
def pageComes (s : State) (l : LogArea) (ok : Life → Bool) (i : Nat) : Bool :=
  let n := logWord s l i 0 % 2 ^ 60
  l.grids.any (fun gid => match mget s.grids gid with
    | some g => g.d.kind == 1 && decide (n < gridBlocks g.d) && !hasStatus g n &&
        (!g.listed.contains n || ((blockOr s gid n).fa.toNat == logWord s l i 1 && ok (blockOr s gid n).life))
    | none => false) ||
  (List.range i).any (fun j => logType s l j == 1 && !l.used.contains j)

/-- The first PAGE record not yet replayed whose page is still to come. -/
def nextPage (s : State) (l : LogArea) (ok : Life → Bool) : Option Nat := nextRecord s l (fun i => pageRecord s l i && pageComes s l ok i)

/-- A replay holds a block's page back: it has a record, and another one's page comes first (R320). DESIGN CHOICE (log 23): records name no grid, and are told apart by their page-list entries. -/
def pageHeld (s : State) (asid gid num : Nat) (ok : Life → Bool) : Bool :=
  match mget s.ctxs asid with
  | none => false
  | some c =>
    match c.log with
    | none => false
    | some l =>
      let own := isPage s l num (blockOr s gid num).fa.toNat
      replaying c gid && (nextRecord s l (fun i => pageRecord s l i && own i)).isSome &&
        (match nextPage s l ok with | some i => !own i | none => false)

/-- Under replay landing slots are reserved in PAGE order (R320). -/
def heldByLog (s : State) (r : Request) : Bool :=
  match r.kind, mget s.grids r.gid with
  | .slot bk, some g => pageHeld s g.asid r.gid (bk % 2 ^ 28) (fun x => x == .waiting)
  | _, _ => false

/-- The request has waited 1,048,576 cycles (R65). -/
def agedRequest (s : State) (r : Request) : Bool := r.aged || decide (r.entered + 1048576 ≤ s.time.cycle)

/-- An aged older request that keeps a younger one from being granted on a die. DESIGN CHOICE (log 46): an aged landing-slot request that a replay's PAGE order holds back (R320) keeps no younger one back. -/
def heldByAge (s : State) (key die : Nat) : Bool :=
  s.placeQ.any (fun e => agedRequest s e.2 && decide (e.1 < key) && onDie s e.2 die && !heldByLog s e.2)

/-- The cores of a base die. -/
def coresOf (die : Nat) : List Nat := (List.range 192).map (fun i => die * 192 + i)

/-- The request's grid is replayed. -/
def inReplay (s : State) (r : Request) : Bool :=
  match mget s.grids r.gid with
  | some g => (match mget s.ctxs g.asid with | some c => replaying c r.gid | none => false)
  | none => false

/-- The reads of one channel start in page-list order (R54): an older entry of the grid on the channel has not been granted. A replay has its own order. -/
def behindInList (s : State) (key : Nat) (r : Request) : Bool :=
  if inReplay s r then heldByLog s r
  else r.kind.isSlot && s.placeQ.any (fun e => decide (e.1 < key) && e.2.kind.isSlot && e.2.gid == r.gid && channelOf (slotPage s e.2) == channelOf (slotPage s r))

/-- A request may be granted on a die, but for the order of service. -/
def grantable (s : State) (die : Nat) (e : Nat × Request) : Bool :=
  onDie s e.2 die && !heldByAge s e.1 die && !behindInList s e.1 e.2 && (coresOf die).any (fun c => (placing s e.2 c).isSome)

/-- The request may be granted at a core now, and where its blocks go. -/
def grantAt (s : State) (key core : Nat) : Option (Request × List (Nat × Nat)) :=
  match mget s.placeQ key with
  | none => none
  | some r =>
    let die := dieOf core
    if onDie s r die ∧ ¬ heldByAge s key die ∧ ¬ behindInList s key r ∧ ¬ s.placeQ.any (fun e => servedBefore e (key, r) && grantable s die e) then
      (placing s r core).map (fun l => (r, l))
    else none

/-- PLACEMENT_AGE_EXPIRY (R65): the request has waited 1,048,576 cycles. -/
def execPlacementAgeExpiry (request : Nat) (s : State) : Result :=
  match mget s.placeQ request with
  | none => .next s
  | some r => if r.entered + 1048576 ≤ s.time.cycle then .next { s with placeQ := mput s.placeQ request { r with aged := true } } else .next s

/-! ### Placing blocks (R50, R51, R65, R66) -/

/-- A block takes a core, which wakes an idle package (R328); its context holds the quantum, so no save of the partition goes on (R80). -/
def takeCore (asid bk core : Nat) (life : Life) (s : State) : State :=
  let b := (mget s.blocks bk).getD (freshBlock (bk / 2 ^ 28) (bk % 2 ^ 28))
  saveOver asid { s with blocks := mput s.blocks bk { b with core := some core, life := life }, cores := mput s.cores core { ctx := some asid, dirty := true }, idle := 0 }

/-- Place one block of a start request. -/
def startOn (asid : Nat) (d : Desc) (s : State) (p : Nat × Nat) : State :=
  startBlock d p.1 (p.1 % 2 ^ 28) (lendSlice asid p.1 d (takeCore asid p.1 p.2 .running s))

/-- A displaced block's window is written back, with every line full (R13, R66). -/
def windowBack (d : Desc) (bk : Nat) (s : State) : State :=
  match (mget s.blocks bk).bind (fun b => b.dsp) with
  | none => s
  | some pa =>
    let bytes := (List.range 16384).map (fun j => physByte s (pa + j))
    modBlock bk (fun b => { b with a := cellsPut b.a (d.pwoff * 4096) bytes, dsp := none }) s

/-- BLOCK_PLACE: a request to start an ordinary block or group, or a displaced block, is granted. -/
def execBlockPlace (request core : Nat) (s : State) : Result :=
  match grantAt s request core with
  | none => .next s
  | some (r, l) =>
    match requestGrid s r, r.kind with
    | some (g, _), .start _ => .next (l.foldl (startOn g.asid g.d) { s with placeQ := mdel s.placeQ request })
    | some (g, _), .back bk => .next (windowBack g.d bk (l.foldl (startOn g.asid g.d) { s with placeQ := mdel s.placeQ request }))
    | _, _ => .next s

/-! ### Displacement (R66) -/

/-- The request at the head of a die's queue. -/
def headOf (s : State) (die : Nat) : Option (Nat × Request) :=
  (s.placeQ.filter (fun e => onDie s e.2 die)).foldl (fun h e => match h with | none => some e | some x => if servedBefore e x then some e else some x) none

/-- Cores of a partition. -/
def partCores (p : Part) : Nat := 8 * ((List.range 96).filter (fun i => bitAt p.mask i)).length

/-- A displacement window of a context that holds no page: its device-physical address, after 3 MiB for each core of the partition (R272). -/
def freeWindow (s : State) (c : Ctx) : Option Nat :=
  ((List.range c.ent.dspn).map (fun i => c.ent.save + 3 * 2 ^ 20 * partCores (partAt s c.ent.part) + 16384 * i)).find? (fun pa =>
    s.blocks.all (fun e => e.2.dsp != some pa))

/-- The landed, non-runnable block of a die that landed earliest, of a context with a free displacement window. DESIGN CHOICE (log 47): of two that landed at the same moment, the one with the lower block key. -/
def displaceable (s : State) (die : Nat) : Option (Nat × Block) :=
  (s.blocks.filter (fun e => e.2.life == .landed && (match e.2.core with | some c => dieOf c == die | none => false) &&
      (match mget s.grids e.2.gid with
       | some g => !g.runnable.contains e.2.num && (match mget s.ctxs g.asid with | some c => (freeWindow s c).isSome | none => false)
       | none => false))).foldl
    (fun h e => match h with | none => some e | some x => if e.2.landedAt < x.2.landedAt then some e else some x) none

/-- A landed block gives up its core; its page window is copied into the save area (R66). DESIGN CHOICE (log 48): its stack slice is returned, and a new one is lent when it is placed again; R117 names the release only at a phase's end or at completion. -/
def displaceBlock (bk : Nat) (b : Block) (s : State) : State :=
  match mget s.grids b.gid with
  | none => s
  | some g =>
    match (mget s.ctxs g.asid).bind (freeWindow s) with
    | none => s
    | some pa =>
      modBlock bk (fun b => { b with life := .displaced, core := none, a := [], dsp := some pa })
        (returnSlice g.asid bk (physPut pa (cellsGet b.a (g.d.pwoff * 4096) 16384) s))

/-- DISPLACE: the head of a base die's queue cannot be granted on any of its cores: none has room for it, or an older aged request without room holds it back (R65). -/
def execDisplace (baseDie : Nat) (s : State) : Result :=
  match headOf s baseDie with
  | none => .next s
  | some e =>
    if grantable s baseDie e then .next s
    else match displaceable s baseDie with
      | some (bk, b) => .next (displaceBlock bk b s)
      | none => .next s

/-! ### Page lists and landing slots (R12, R53, R54, R273, R302) -/

/-- The block ends with status page failed (R54, R62). -/
def pageFail (gid num pfc : Nat) (sd : Bool) (rl : Nat) (s : State) : State := setStatus gid num (statusWord 3 pfc false sd rl) s

/-- A valid grant of the context names a LUN; write: it permits programs (R273). DESIGN CHOICE (log 59): an entry with V = 1 and any of its bits [61:14] set is no valid grant; the rule says that they are zero and gives no consequence. -/
def grantsLun (s : State) (e : CtxEntry) (lun : Nat) (write : Bool) : Bool :=
  (List.range e.fgn).any (fun i =>
    let x := physNat s (e.fgt + 8 * i) 8
    bitAt x 63 && (!write || bitAt x 62) && field x 14 48 == 0 && field x 0 14 == lun)

def dfltLun : Lun := { attached := false, retry := 0, rung := 0, accepted := 0, timedOut := false, since := 0, ops := [] }
def lunAt (s : State) (n : Nat) : Lun := mgetD s.luns n dfltLun

/-- An access that Windshaft or Quern makes for a block: its cause is the one that a load or store of the failing address would raise (R341). -/
def accessSpec (s : State) (asid : Nat) (k : Kind) (f : FaultSpec) : FaultSpec :=
  { cause := f.det, det := (match lovageCheck s asid k f.addr 1 with | .fail _ d => d | _ => 0), addr := f.addr }

/-- The block's page-list entry could not be read: one fault record, and the block ends faulted (R341). -/
def listFault (gid num : Nat) (f : FaultSpec) (s : State) : State :=
  match mget s.grids gid with
  | none => s
  | some g =>
    let info : WordInfo := { pc := g.d.entry, ix := 0, iter := 0, opc := 0 }
    let s1 := setStatus gid num (statusWord 2 0 false false 0) (pushFault g.asid (faultWords s g.asid g num 0 (workId g.d num 0) info f) s)
    if g.d.fpol then endGrid gid (some num) s1 else s1

/-- An entry that names a flash page: zero field, grant, attached flash, and a target that has not been given up, else the code it fails with. -/
def entryFails (s : State) (c : Ctx) (x : Nat) : Option Nat :=
  if field x 38 26 ≠ 0 ∨ ¬ grantsLun s c.ent (field x 0 14) false then some 1
  else if ¬ (lunAt s (field x 0 14)).attached ∨ s.deadTargets.contains (field x 0 10) then some 2
  else none

/-- A block's flash page is known: it asks for a landing slot. -/
def askSlot (gid num x prio : Nat) (s : State) : State :=
  enqueue (.slot (blockKey gid num)) gid prio (putBlock (blockKey gid num) { blockOr s gid num with fa := BitVec.ofNat 64 x } s)

/-- What is done with an entry once it is read. -/
def useEntry (gid index x : Nat) (g : Grid) (c : Ctx) (s : State) : State :=
  match entryFails s c x with
  | some pfc => pageFail gid index pfc false 0 s
  | none => askSlot gid index x g.d.prio s

/-- PAGE_LIST_ENTRY_READ: entries are read in page-list order. DESIGN CHOICE (log 45): the spec does not say in which order the four Windshafts read the entries of different channels (R54); the model reads one order over the whole list, so that an entry whose mapping is pending holds back every later one. -/
def execPageListEntryRead (grid index : Nat) (s : State) : Result :=
  match mget s.grids grid with
  | none => .next s
  | some g =>
    match mget s.ctxs g.asid with
    | none => .next s
    | some c =>
      if g.d.kind ≠ 1 ∨ index ≠ g.listed.length ∨ index ≥ gridBlocks g.d then .next s
      else
        let s0 := modGrid grid (fun g => { g with listed := sadd g.listed index }) s
        if hasStatus g index then .next s0
        else match lovageRead g.asid (ptrPlus g.d.plist (8 * index)) 8 s0 with
          | .pending => .next s
          | .fail f t => .next (unlessEarly grid index s (listFault grid index (accessSpec s g.asid .load f) t))
          | .ok bs t => .next (unlessEarly grid index s (useEntry grid index (bytesToNat bs) g c t))

/-- The lines of a block's page window. -/
def windowLines (d : Desc) : List Nat := (List.range 128).map (fun i => d.pwoff * 32 + i)

/-- The LUN of a flash page, as a key; and the target within which it lies. -/
def lunOf (fa : Nat) : Nat := field fa 0 14
def targetOf (fa : Nat) : Nat := field fa 0 10

/-- Give a LUN one more operation. -/
def lunPush (n : Nat) (o : LunOp) (s : State) : State :=
  { s with luns := mput s.luns n { lunAt s n with ops := (lunAt s n).ops ++ [o], since := if (lunAt s n).ops = [] then s.time.ticks.toNat else (lunAt s n).since } }

/-- LANDING_SLOT_GRANT: the block holds its core, its window's lines are empty, and Millrace reads its page; an entry that names a dead target fails. -/
def execLandingSlotGrant (request core : Nat) (s : State) : Result :=
  match grantAt s request core with
  | none => .next s
  | some (r, l) =>
    match requestGrid s r, r.kind with
    | some (g, _), .slot bk =>
      let fa := slotPage s r
      let s0 := { s with placeQ := mdel s.placeQ request }
      if s.deadTargets.contains (targetOf fa) then .next (unlessEarly r.gid (bk % 2 ^ 28) s (pageFail r.gid (bk % 2 ^ 28) 2 false 0 s0))
      else
        .next (l.foldl (fun t p =>
          lunPush (lunOf fa) (.read p.1)
            (modBlock p.1 (fun b => { b with aE := (windowLines g.d).foldl sadd b.aE }) (lendSlice g.asid p.1 g.d (takeCore g.asid p.1 p.2 .reserved t)))) s0)
    | _, _ => .next s

/-! ### Completion (R14) -/

/-- Nothing that a block's waves issued is outstanding, and no peer's loop still reads a reservation of the block (R14, R89, R235). -/
def drained (s : State) (bk : Nat) : Bool :=
  (match mget s.blocks bk with | some b => b.res.all (fun r => r.2.readers == 0) | none => true) &&
  (wavesOf s bk).all (fun e => e.2.ended && e.2.returns.isEmpty && e.2.mq.isEmpty && e.2.cpyQ.isEmpty && e.2.mtxQ.isEmpty && e.2.gatQ.isEmpty && e.2.oc.st == 0)

/-- BLOCK_COMPLETE: every wave has ended and every store is acknowledged; Quern writes the status word. -/
def execBlockComplete (block : Nat) (s : State) : Result :=
  match mget s.blocks block with
  | none => .next s
  | some b =>
    if b.life = .done ∨ (wavesOf s block).isEmpty ∨ ¬ drained s block then .next s
    else .next (unlessEarly b.gid b.num s (setStatus b.gid b.num (endStatus b) s))

end Sys2Proof.Machine
end

