-- ==== Sys2Proof/Machine/Phases.lean ====
section
/-! DEFINITION. The end of a phase and its resumption (R56 to R61, R71, R97, R341): the phase record in memory, the voluntary and the involuntary save, and what a resumed block starts with. -/
namespace Sys2Proof.Machine

/-! ### The record in memory (R60) -/

def sectionSize (d : Desc) : Nat := 576 + 132 * d.va
def recordSize (d : Desc) : Nat := roundUp (128 + d.nw * sectionSize d) 128
def recordPtr (d : Desc) (num : Nat) : Nat := ptrPlus d.prbase (num * recordSize d)
def sectionPtr (d : Desc) (num i : Nat) : Nat := ptrPlus (recordPtr d num) (128 + i * sectionSize d)

/-- A mask with the bits that a list of distinct numbers names. -/
def bitsOf (l : List Nat) : Nat := l.foldl (fun x i => x + 2 ^ i) 0

/-- CBAR: the cluster barriers at which the block has arrived. -/
def cbarBits (g : Grid) (num : Nat) : Nat :=
  bitsOf ((List.range 4).filter (fun j => (mgetD g.cbars (groupOf g.d num * 4 + j) dfltBar).arrived.contains (f2Of g.d num)))

/-- The 128 bytes of the header; RVAL is 0 until the block resumes. DESIGN CHOICE (log 19): the arrival of a wave that has executed END since stays in BARM, where PRES does not name it. -/
def headerBytes (g : Grid) (b : Block) (inv : Bool) (pres : List Nat) (p : PhaseReq) : List Byte :=
  natToBytes 8 b.num ++
    natToBytes 8 (bitsOf pres * 2 ^ 32 + g.d.cv * 2 ^ 23 + g.d.cs * 2 ^ 16 + (if p.w32 then 2 ^ 7 else 0) + (if g.d.gs > 1 then 2 ^ 6 else 0) +
      (if inv then 2 ^ 5 else 0) + (if p.cge then 2 ^ 4 else 0) + p.ck) ++
    natToBytes 8 p.ca.toNat ++ natToBytes 8 p.cval.toNat ++ natToBytes 8 0 ++ natToBytes 8 (cbarBits g b.num) ++ natToBytes 16 0 ++
    (List.range 16).flatMap (fun j => natToBytes 4 (bitsOf (mgetD b.bars j dfltBar).arrived))

/-- Failed attempts of the POLL at a wave's resume point, whether it is held there or issues anew (R71). -/
def failsOf (w : Wave) : Nat := match w.poll with | some p => p.fails | none => w.again

/-- The 16 bytes of a wave's resume point. -/
def resumeBytes (w : Wave) : List Byte :=
  let i := resumeInfo w
  natToBytes 8 i.pc.toNat ++
    natToBytes 8 (i.ix + i.iter * 2 ^ 8 + w.backoff * 2 ^ 16 + min 31 (failsOf w) * 2 ^ 20 + (if w.arv then 2 ^ 25 else 0))

def sBytes (w : Wave) (n : Nat) : List Byte := (List.range n).flatMap (fun i => natToBytes 8 (sReg w i).toNat)
def vBytes (w : Wave) (m : Nat) : List Byte := (List.range m).flatMap (fun j => lanes32.flatMap (fun i => natToBytes 4 (vReg w j i).toNat))
def sFullBits (w : Wave) (n : Nat) : Nat := bitsOf ((List.range n).filter (fun i => !w.sE.contains i))
def vFullBytes (w : Wave) (m : Nat) : List Byte :=
  (List.range m).flatMap (fun j => natToBytes 4 (bitsOf (lanes32.filter (fun i => !w.vE.contains (j * 32 + i)))))

/-- What an involuntary save writes of a wave: its whole section. -/
def fullSection (w : Wave) : List Byte :=
  resumeBytes w ++ sBytes w 64 ++ (List.range 8).flatMap (fun i => natToBytes 4 (kReg w i).toNat) ++ natToBytes 8 (sFullBits w 64) ++
    natToBytes 8 (bitsOf ((List.range 8).filter (fun i => !w.kE.contains i))) ++ vBytes w w.allot ++ vFullBytes w w.allot

/-- What a voluntary save writes of a wave: its resume point and its carry registers, with their full bits set; old is the word of scalar full bits that stood there. -/
def carrySection (d : Desc) (old : Nat) (w : Wave) : List (Nat × List Byte) :=
  [(0, resumeBytes w), (0x10, sBytes w d.cs), (0x230, natToBytes 8 (old ||| (2 ^ d.cs - 1))), (0x240, vBytes w d.cv),
   (0x240 + 128 * d.va, natToBytes (4 * d.cv) (2 ^ (32 * d.cv) - 1))]

/-- Write parts of a record. -/
def writeAll (asid : Nat) : List (Nat × List Byte) → State → Run Unit
  | [], s => .ok () s
  | (p, bs) :: rest, s => if bs = [] then writeAll asid rest s else (lovageWrite asid p bs s).andThen (fun _ => writeAll asid rest)

/-- Read parts of a record: address and length. -/
def readAll (asid : Nat) : List (Nat × Nat) → State → Run (List (List Byte))
  | [], s => .ok [] s
  | (p, n) :: rest, s =>
    (if n = 0 then Run.ok [] s else lovageRead asid p n s).andThen (fun bs t =>
      (readAll asid rest t).andThen (fun l u => .ok (bs :: l) u))

/-- The parts of a block's record that its save writes; ws: its present waves at their resume points. -/
def recordParts (s : State) (g : Grid) (c : Ctx) (b : Block) (inv : Bool) (ws : List Wave) (p : PhaseReq) : List (Nat × List Byte) :=
  (recordPtr g.d b.num, headerBytes g b inv (ws.map (fun w => w.idx)) p) ::
    ws.flatMap (fun w =>
      let at_ := sectionPtr g.d b.num w.idx
      if inv then [(at_, fullSection w)]
      else
        let old := bytesToNat ((List.range 8).map (fun j => ctxByte s g.asid (rootOf c) (ptrAddr (ptrPlus at_ 0x230) + j)))
        (carrySection g.d old w).map (fun x => (ptrPlus at_ x.1, x.2)))

/-! ### Ending a phase (R56, R57, R96) -/

/-- The present blocks of a block's group (R74). -/
def groupPresent (g : Grid) (gid num : Nat) : List Nat := ((groupBlocks g.d (groupOf g.d num)).filter (fun n => !hasStatus g n)).map (blockKey gid)

/-- Nothing of a wave is outstanding, and its side log is empty. -/
def noneOut (w : Wave) : Bool := w.oc.cpy == 0 && w.oc.mtx == 0 && w.oc.gat == 0 && w.oc.st == 0 && w.mq.isEmpty

/-- The carry registers are full. -/
def carryFull (d : Desc) (w : Wave) : Bool := w.sE.all (fun i => decide (d.cs ≤ i)) && w.vE.all (fun i => decide (d.cv * 32 ≤ i))

/-- Every present wave of a block has executed PHASE on one condition, and the block has drained. -/
def phaseReady (s : State) (d : Desc) (bk : Nat) : Bool :=
  match mget s.blocks bk with
  | none => false
  | some b =>
    b.life == .running && b.endAs.isNone && (match allPhases s bk with | some ps => phasesAgree ps | none => false) &&
      (wavesOf s bk).all (fun e => noneOut e.2) && (presentOf s bk).all (fun e => carryFull d e.2)

/-- The condition the block's waves named. -/
def phaseOf (s : State) (bk : Nat) : PhaseReq :=
  match allPhases s bk with
  | some ((_, p) :: _) => p
  | _ => { ck := 0, cge := false, w32 := false, ca := 0, cval := 0, ord := 0 }

/-- The present waves of a block as they continue after PHASE. -/
def afterPhase (s : State) (bk : Nat) : List Wave := (presentOf s bk).map (fun e => advance e.2)

/-- A failed write or read of a phase record, for the lowest-numbered present wave (R341). -/
def recordInfo (w : Wave) : WordInfo := { resumeInfo w with iter := 0, opc := 0xC4 }

/-- Write the records of blocks, one after another; a block whose record cannot be written faults. none: a translation is pending. -/
def writeRecords (asid : Nat) (part : State → Nat → List (Nat × List Byte)) (low : State → Nat → Option Wave) : List Nat → State → Option State
  | [], s => some s
  | bk :: rest, s =>
    match writeAll asid (part s bk) s with
    | .pending => none
    | .ok _ t => writeRecords asid part low rest t
    | .fail f t =>
      match low t bk with
      | some w => writeRecords asid part low rest (faultBlock bk w.idx w.wid (recordInfo w) (accessSpec t asid .store f) t)
      | none => writeRecords asid part low rest t

/-- The parts of a voluntary save of a block; none once it has faulted. -/
def phaseParts (s : State) (bk : Nat) : List (Nat × List Byte) :=
  match mget s.blocks bk with
  | none => []
  | some b =>
    match mget s.grids b.gid with
    | none => []
    | some g =>
      match mget s.ctxs g.asid with
      | none => []
      | some c => if b.endAs.isSome then [] else recordParts s g c b false (afterPhase s bk) (phaseOf s bk)

/-- Queueing a record on a sync address is a Quern operation of the block's lowest present wave: a replay may hold it (R319, R320). -/
def countRecords : List Nat → State → Option State
  | [], s => some s
  | bk :: rest, s =>
    match phaseOperand (phaseOf s bk), (presentOf s bk).head? with
    | some (a, _, _), some e =>
      (match viewOf s e.1 with
       | some v => (match quernOne v a false s with | some t => countRecords rest t | none => none)
       | none => countRecords rest s)
    | _, _ => countRecords rest s

/-- What a phase record keeps of a wave beside its section in memory; the breakpoint counter among it (log 56). -/
def phaseWave (w : Wave) : PhaseWave :=
  { idx := w.idx, qops := w.qops, bkpts := w.bkpts, behind := w.behind, yieldLen := w.yieldLeft.map (fun _ => w.yieldLen), pc := w.pc, clause := w.clause }

/-- The block releases everything it holds, and its record is queued (R57, R97). -/
def leaveForPhase (asid : Nat) (s : State) (bk : Nat) : State :=
  match mget s.blocks bk with
  | none => s
  | some b =>
    match mget s.grids b.gid with
    | none => s
    | some g =>
      let p := phaseOf s bk
      let r : PhaseRec := { inv := false, waves := (afterPhase s bk).map phaseWave, cond := some p, gen := (mgetD g.gbar p.ca.toNat dfltBar).gen, rval := none, poller := none }
      let kept : Block := { freshBlock b.gid b.num with life := .phase, fa := b.fa, sd := b.sd, rl := b.rl }
      let s1 := returnSlice asid bk s
      let grp := groupOf g.d b.num
      { s1 with
        waves := s1.waves.filter (fun e => blockOfWave e.1 != bk)
        blocks := mput s1.blocks bk kept
        grids := mput s1.grids b.gid { g with cbars := g.cbars.map (fun e => if e.1 / 4 = grp then (e.1, { e.2 with arrived := sdel e.2.arrived (f2Of g.d b.num) }) else e) }
        phaseQ := mput s1.phaseQ bk r }

/-- What a queued record does in Quern: a grid barrier arrival (R56, R75), a queue's first use (R153); and the condition is tested. -/
def queueRecord (asid : Nat) (s : State) (bk : Nat) : State :=
  match mget s.phaseQ bk, mget s.blocks bk with
  | some r, some b =>
    match r.cond with
    | some p =>
      let s1 := (match p.ck with
        | 2 => gridArrive b.gid b.num p.ca.toNat s
        | 3 => touchQueue asid p.ca.toNat s
        | _ => s)
      testRecord asid s1 bk
    | none => testRecord asid s bk
  | _, _ => s

/-- Blocks of a list that have not been ended. -/
def unended (s : State) (bks : List Nat) : List Nat := bks.filter (fun bk => match mget s.blocks bk with | some b => b.endAs.isNone | none => false)

/-- PHASE_SAVE: the block, with every present block of its group, ends its phase. -/
def execPhaseSave (block : Nat) (s : State) : Result :=
  match mget s.blocks block with
  | none => .next s
  | some b =>
    match mget s.grids b.gid with
    | none => .next s
    | some g =>
      let bks := groupPresent g b.gid b.num
      if ¬ bks.contains block ∨ ¬ bks.all (phaseReady s g.d) then .next s
      else match writeRecords g.asid phaseParts (fun t bk => (afterPhase t bk).head?) bks s with
        | none => .next s
        | some t =>
          let go := unended t bks
          match countRecords go t with
          | none => .next s
          | some u => .next (go.foldl (queueRecord g.asid) (go.foldl (leaveForPhase g.asid) u))

/-- PHASE_TIME_REACHED: the tick counter has reached a CK 5 record's value (R58). -/
def execPhaseTimeReached (block : Nat) (s : State) : Result :=
  match mget s.phaseQ block with
  | none => .next s
  | some r =>
    match r.cond with
    | some p => if p.ck = 5 ∧ r.rval = none ∧ p.cval.toNat ≤ s.time.ticks.toNat then .next (satisfy block s.time.ticks s) else .next s
    | none => .next s

/-! ### Stopping a block in mid-flight (R61, R73, R81, R82, R100) -/

/-- The wave has stopped: between clauses, or at a word on which it is held (R22, R81). -/
def stoppedWave (w : Wave) : Bool := w.ended || w.clause.isNone || w.held || w.poll.isSome || w.parked.isSome || w.phase.isSome

/-- The memory unit has performed what it can: what is left are carried pushes, and what stands in the side log or waits for it (R81, R100). -/
def quietQueue (w : Wave) : Bool :=
  (nextStore w).isNone && (match w.mq.drop (carriedPushes w).length with | [] => true | e :: _ => e.logged)

/-- An engine operation cannot get on, and is carried: a pending translation, a line, or an older access that is itself held stops it; a QCVT is carried for a line alone (R82, R243). -/
def carriedEng (e : EngEntry) (x : Worked) : Bool :=
  !getsOn e x && (match e.op, x with
    | .qcvt _ _ _ _, .part _ line _ => line
    | _, _ => true)

/-- Every engine operation of the wave is complete and retired, or carried. -/
def quietEngines (s : State) (v : View) : Bool :=
  (engOpen v.w).all (fun e => carriedEng e (runEng v e s)) && [v.w.cpyQ, v.w.mtxQ, v.w.gatQ].all (fun q => match q with | e :: _ => !e.ran | [] => true)

/-- The wave has stopped; its stores are acknowledged, an append's when it has arrived, or logged; its results are written, its engine operations complete or carried. -/
def quietWave (s : State) (key : Nat) : Bool :=
  match viewOf s key with
  | none => true
  | some v => stoppedWave v.w && v.w.returns.isEmpty && quietQueue v.w && !appendOut v.c key && quietEngines s v

def quietBlock (s : State) (bk : Nat) : Bool := (wavesOf s bk).all (fun e => quietWave s e.1)

/-- Pushes in the order of their issue (R132). -/
def inOrder : List HeldPush → List HeldPush
  | [] => []
  | h :: rest => insert h (inOrder rest)
where
  insert (h : HeldPush) : List HeldPush → List HeldPush
    | [] => [h]
    | x :: xs => if h.no ≤ x.no then h :: x :: xs else x :: insert h xs

/-- What a save carries of a wave's memory queue: its withdrawn pushes, in the order of their issue, which go ahead of everything, and all that is left there; the rest of the wave's work stays behind it (R100, R132). -/
def carryPushes (held : List HeldPush) (key : Nat) (w : Wave) : Wave :=
  let es : List MqEntry := (inOrder (held.filter (fun h => h.key == key))).map (fun h => { op := .push h.q h.item, info := resumeInfo w, acq := false, logged := false, carried := true, no := h.no })
  let later := fun (q : List EngEntry) => q.map (fun e => if e.after = 0 then e else { e with after := e.after + es.length })
  { w with mq := es ++ w.mq.map (fun e => { e with carried := true }), cpyQ := later w.cpyQ, mtxQ := later w.mtxQ, gatQ := later w.gatQ }

/-- Take a block's waves out of Quern: parked waves are unlinked, held pushes withdrawn and carried. -/
def liftBlock (asid : Nat) (s : State) (bk : Nat) : State :=
  let s1 := ((wavesOf s bk).map Prod.fst).foldl (fun t k => unpark asid k t) s
  match mget s1.ctxs asid with
  | none => s1
  | some c =>
    let p := fun k => blockOfWave k == bk
    let held := heldOf c p
    ((wavesOf s1 bk).map Prod.fst).foldl (fun t k => modWave k (carryPushes held k) t) (withdrawHeld asid p s1)

/-- A restored wave's carried pushes are presented again and its side-log entries replayed, in order, as far as they go, a push no earlier than the appends before it have arrived (R92); n bounds them (R83, R100). -/
def replayWave (key : Nat) : Nat → State → State
  | 0, s => s
  | n + 1, s =>
    match viewOf s key with
    | none => s
    | some v =>
      match v.w.mq with
      | [] => s
      | e :: _ =>
        if (e.logged ∨ carriedPushes v.w ≠ []) ∧ ¬ awaitsAppend v e then
          let t := performAt v 0 e s
          if ((mget t.waves key).map (fun w => w.mq.length)) = some v.w.mq.length then t else replayWave key n t
        else s

/-- A wave that runs again issues its word anew: a POLL with its count of failed attempts, a PHASE as if newly reached; a YIELD's wait begins again (R71, R81; log 41). A POLL whose 16th attempt has failed makes no other: its involuntary save is still to come (R71). -/
def restoreWave (w : Wave) : Wave :=
  { w with held := false, again := failsOf w, poll := w.poll.filter (fun p => decide (16 ≤ p.fails)), phase := none, yieldLeft := w.yieldLeft.map (fun _ => w.yieldLen) }

/-- A saved block is on its core again (R82, R83). -/
def backOnCore (bk : Nat) (s : State) : State :=
  let t := mapWaves bk restoreWave s
  (wavesOf t bk).foldl (fun u e => replayWave e.1 e.2.mq.length u) t

/-! ### The involuntary save (R61, R71) -/

/-- The condition of the block's escalated POLL. -/
def escalation (s : State) (bk : Nat) : Option (Nat × PhaseReq) :=
  match mget s.blocks bk with
  | none => none
  | some b =>
    match b.escal with
    | none => none
    | some i =>
      match mget s.waves (waveKey bk i) with
      | none => none
      | some w => w.poll.map (fun p => (i, { ck := 4, cge := p.cge, w32 := p.w32, ca := BitVec.ofNat 64 p.var, cval := p.value, ord := 0 }))

/-- The parts of an involuntary save; cond: the condition of a member without a POLL of its own. -/
def involuntaryParts (cond : PhaseReq) (s : State) (bk : Nat) : List (Nat × List Byte) :=
  match mget s.blocks bk with
  | none => []
  | some b =>
    match mget s.grids b.gid with
    | none => []
    | some g =>
      match mget s.ctxs g.asid with
      | none => []
      | some c =>
        if b.endAs.isSome then []
        else recordParts s g c b true ((presentOf s bk).map Prod.snd) (match escalation s bk with | some e => e.2 | none => cond)

/-- The block leaves its core with all it holds, and its record is queued. -/
def leaveInvoluntary (s : State) (bk : Nat) : State :=
  let e := escalation s bk
  let r : PhaseRec := { inv := true, waves := (presentOf s bk).map (fun w => phaseWave w.2), cond := e.map Prod.snd, gen := 0, rval := none, poller := e.map Prod.fst }
  modBlock bk (fun b => { b with life := .phase, core := none, escal := none }) { s with phaseQ := mput s.phaseQ bk r }

/-- The variable's record is queued by a Quern operation of the polling wave. -/
def countEscalations : List Nat → State → Option State
  | [], s => some s
  | bk :: rest, s =>
    match escalation s bk with
    | none => countEscalations rest s
    | some (i, p) =>
      match viewOf s (waveKey bk i) with
      | none => countEscalations rest s
      | some v => (match quernOne v p.ca.toNat false s with | some t => countEscalations rest t | none => none)

/-- INVOLUNTARY_SAVE: an escalated POLL's block, with its group, has stopped and drained. -/
def execInvoluntarySave (block : Nat) (s : State) : Result :=
  match mget s.blocks block with
  | none => .next s
  | some b =>
    match mget s.grids b.gid, escalation s block with
    | some g, some e =>
      let bks := groupPresent g b.gid b.num
      if ¬ bks.all (fun bk => (match mget s.blocks bk with | some x => x.life == .running && x.endAs.isNone | none => false) && quietBlock s bk) then .next s
      else match writeRecords g.asid (involuntaryParts e.2) (fun t bk => ((presentOf t bk).map Prod.snd).head?) bks (bks.foldl (liftBlock g.asid) s) with
        | none => .next s
        | some t =>
          let go := unended t bks
          match countEscalations go t with
          | none => .next s
          | some u => .next (go.foldl (testRecord g.asid) (go.foldl leaveInvoluntary u))
    | _, _ => .next (modBlock block (fun b => { b with escal := none }) s)

/-! ### Resumption (R59, R61, R71, R97) -/

/-- The parts of a wave's section that its resumption reads. -/
def sectionReads (d : Desc) (inv : Bool) (n m at_ : Nat) : List (Nat × Nat) :=
  if inv then [(at_, sectionSize d)]
  else [(at_, 16), (ptrPlus at_ 0x10, 8 * n), (ptrPlus at_ 0x230, 8), (ptrPlus at_ 0x240, 128 * m), (ptrPlus at_ (0x240 + 128 * d.va), 4 * m)]

/-- Bytes of a list as a number. -/
def sliceNat (bs : List Byte) (at_ n : Nat) : Nat := bytesToNat ((bs.drop at_).take n)

/-- Registers from bytes: n scalars, m vectors, with their full bits. -/
def loadS (n : Nat) (bs : List Byte) (full : Nat) (w : Wave) : Wave :=
  (List.range n).foldl (fun u i =>
    let x := setS u i (BitVec.ofNat 64 (sliceNat bs (8 * i) 8))
    { x with sE := if bitAt full i then sdel x.sE i else sadd x.sE i }) w
def loadV (m : Nat) (bs full : List Byte) (w : Wave) : Wave :=
  (List.range m).foldl (fun u j => lanes32.foldl (fun u i =>
    let x := setV u j i (BitVec.ofNat 32 (sliceNat bs (128 * j + 4 * i) 4))
    { x with vE := if bitAt (sliceNat full (4 * j) 4) i then sdel x.vE (j * 32 + i) else sadd x.vE (j * 32 + i) }) u) w
def loadK (bs : List Byte) (full : Nat) (w : Wave) : Wave :=
  (List.range 8).foldl (fun u i =>
    let x := setK u i (BitVec.ofNat 32 (sliceNat bs (4 * i) 4))
    { x with kE := if bitAt full i ∨ i = 0 then sdel x.kE i else sadd x.kE i }) w

/-- Where a wave goes on: in a clause, at a clause header, not yet (a mapping is pending), or a clause that faults. -/
inductive Going where
  | on (c : Option Clause)
  | wait
  | bad (info : WordInfo) (f : FaultSpec)

/-- The repeat a resume point stands in: the word before it begins it (R44). -/
def repeatAt (w : Wave) (words : List Word64) (ix iter : Nat) : Option Repeat :=
  match words[ix - 1]? with
  | none => none
  | some x =>
    match decodeWord x none with
    | .ok (.rpt n st) => some { count := n.toNat + 1, iter := iter, steps := st }
    | .ok (.rptRegister r st) => some { count := (sReg w r.toNat).toNat, iter := iter, steps := st }
    | _ => none

/-- The resume point of a record: as it was saved, the clause goes on; moved by a program's store, the clause is fetched there (R25, R60). DESIGN CHOICE (log 18): a header address that a program has misaligned is fetched from as it stands. -/
def goingOn (s : State) (v : View) (pw : PhaseWave) (pc : Word64) (ix iter : Nat) : Going :=
  let saved := resumeInfo { v.w with pc := pw.pc, clause := pw.clause }
  if saved.pc = pc ∧ saved.ix = ix ∧ saved.iter = iter then .on pw.clause
  else if ix = 0 ∧ iter = 0 then .on none
  else
    match fetchClause s { v with w := { v.w with pc := pc } } with
    | .wait => .wait
    | .fail cause det => .bad { pc := pc, ix := 0x1F, iter := 0, opc := 0 } { cause := cause, det := det, addr := pc.toNat }
    | .illegal at_ opc => .bad { pc := pc, ix := at_, iter := 0, opc := opc } illegalSpec
    | .ok h words => .on (some { words := words, idx := ix, y := h.y, rpt := if iter = 0 then none else repeatAt v.w words ix iter, yld := none })

/-- A wave with its registers and resume point from its section. DESIGN CHOICE (log 56): its breakpoint counter (R112), which no rule clears, goes on over the phase. -/
def voluntaryWave (g : Grid) (bk num : Nat) (pw : PhaseWave) (rval : Word64) (n m : Nat) (parts : List (List Byte)) : Wave :=
  let part := fun i => (parts[i]?).getD []
  let x := sliceNat (part 0) 8 8
  { loadV m (part 3) (part 4) (loadS n (part 1) (sliceNat (part 2) 0 8) (freshWave g.d bk num pw.idx (BitVec.ofNat 64 (sliceNat (part 0) 0 8)))) with
    backoff := field x 16 4, phaseVal := rval, qops := pw.qops, bkpts := pw.bkpts, behind := pw.behind, yieldLeft := pw.yieldLen, yieldLen := pw.yieldLen.getD 0 }

def involuntaryWave (w : Wave) (bs : List Byte) : Wave :=
  let x := sliceNat bs 8 8
  let r := loadV w.allot (bs.drop 0x240) (bs.drop (0x240 + 128 * w.allot)) (loadK (bs.drop 0x210) (sliceNat bs 0x238 8) (loadS 64 (bs.drop 0x10) (sliceNat bs 0x230 8) w))
  { r with
    pc := BitVec.ofNat 64 (sliceNat bs 0 8), backoff := field x 16 4, arv := bitAt x 25
    poll := none, again := field x 20 5, phase := none }

/-- An escalated POLL is complete: its destination holds the value, the level is 0, the wave goes on at the next word (R71); a record that a program has moved to another word resumes there. -/
def pollDone (rval : Word64) (w : Wave) : Wave :=
  match fetchInstr w with
  | .ok (.poll y) => advance (putS y.d rval { w with backoff := 0 })
  | _ => w

/-- A KSTEP that was filed while its block waited is complete: s[D] has its value (R81, R261). -/
def filedStep (old : Wave) (pw : PhaseWave) (w : Wave) : Wave :=
  if old.pc = pw.pc ∧ old.clause = pw.clause then w
  else
    match fetchInstr w with
    | .ok (.kstep k) => advance (putS k.d (sReg old (sNum k.d)) { w with arv := false })
    | _ => w

/-- Put one resumed wave on its core. none: a mapping is pending. -/
def resumeWave (bk : Nat) (g : Grid) (c : Ctx) (r : PhaseRec) (rval : Word64) (n m : Nat) (pw : PhaseWave) (parts : List (List Byte)) (s : State) : Option State :=
  let key := waveKey bk pw.idx
  let first := (parts[0]?).getD []
  let x := sliceNat first 8 8
  let pc := BitVec.ofNat 64 (sliceNat first 0 8)
  let w := (match r.inv, mget s.waves key with
    | true, some w => involuntaryWave w first
    | _, _ => voluntaryWave g bk (bk % 2 ^ 28) pw rval n m parts)
  let b := (mget s.blocks bk).getD (freshBlock (bk / 2 ^ 28) (bk % 2 ^ 28))
  match goingOn s { key := key, w := w, b := b, g := g, c := c } pw pc (field x 0 5) (field x 8 6) with
  | .wait => none
  | .bad info f => some (faultAt key info f (putWave key { w with clause := none } s))
  | .on cl =>
    let w1 := { w with clause := cl }
    let w2 := (match r.inv, mget s.waves key with | true, some old => if cl != pw.clause then w1 else filedStep old pw w1 | _, _ => w1)
    some (putWave key (if r.inv ∧ r.poller = some pw.idx then pollDone rval w2 else w2) s)

/-- The sections that a resumption reads, for each wave of the record. -/
def readSections (asid bk : Nat) (g : Grid) (r : PhaseRec) (n m : Nat) : List PhaseWave → State → Run (List (PhaseWave × List (List Byte)))
  | [], s => .ok [] s
  | pw :: rest, s =>
    (readAll asid (sectionReads g.d r.inv n m (sectionPtr g.d (bk % 2 ^ 28) pw.idx)) s).andThen (fun parts t =>
      (readSections asid bk g r n m rest t).andThen (fun l u => .ok ((pw, parts) :: l) u))

/-- Put the waves of a record that has been read on their core. none: a mapping is pending. -/
def resumeWaves (bk : Nat) (g : Grid) (c : Ctx) (r : PhaseRec) (rval : Word64) (n m : Nat) : List (PhaseWave × List (List Byte)) → State → Option State
  | [], s => some s
  | (pw, parts) :: rest, s =>
    match resumeWave bk g c r rval n m pw parts s with
    | none => none
    | some u => resumeWaves bk g c r rval n m rest u

/-- The block's record could not be read: it is left unplaced, and ends faulted (R341). -/
def resumeFault (bk : Nat) (g : Grid) (r : PhaseRec) (f : FaultSpec) (s : State) : State :=
  let num := bk % 2 ^ 28
  let gid := bk / 2 ^ 28
  match r.waves with
  | [] => s
  | pw :: _ =>
    let w := { freshWave g.d bk num pw.idx pw.pc with clause := pw.clause }
    let s1 := { s with phaseQ := mdel s.phaseQ bk }
    if (wavesOf s bk).isEmpty then
      let b := blockOr s gid num
      let s2 := setStatus gid num (statusWord 2 0 false b.sd b.rl) (pushFault g.asid (faultWords s1 g.asid g num pw.idx w.wid (recordInfo w) f) s1)
      if g.d.fpol then endGrid gid (some num) s2 else s2
    else faultBlock bk pw.idx w.wid (recordInfo w) f (modBlock bk (fun b => { b with life := .running }) s1)

/-- Waves that the record no longer names are not resumed; a block left with none is done. -/
def dropAbsent (bk : Nat) (gone : List PhaseWave) (s : State) : State :=
  let s1 := gone.foldl (fun t pw => retireWave (waveKey bk pw.idx) t) s
  if (wavesOf s1 bk).isEmpty then
    match mget s1.blocks bk with
    | some b => setStatus b.gid b.num (endStatus b) s1
    | none => s1
  else s1

/-- Bits of a mask among numbers. -/
def namedIn (x : Nat) (ns : List Nat) : List Nat := ns.filter (bitAt x)

/-- The arrivals that the header of an involuntary record states, at block barriers and at cluster barriers (R60, R76). -/
def headerBars (bk : Nat) (g : Grid) (hd : List Byte) (s : State) : State :=
  let num := bk % 2 ^ 28
  let gid := bk / 2 ^ 28
  let grp := groupOf g.d num
  let f2 := f2Of g.d num
  let members := (presentOf s bk).map (fun e => e.2.idx)
  let s1 := (List.range 16).foldl (fun t j =>
    modBlock bk (fun b => if (mget b.bars j).isNone ∧ sliceNat hd (0x40 + 4 * j) 4 = 0 then b
      else { b with bars := mmod b.bars j dfltBar (fun x => { x with arrived := namedIn (sliceNat hd (0x40 + 4 * j) 4) members }) }) t) s
  let s2 := (List.range 4).foldl (fun t j =>
    modGrid gid (fun g => if (mget g.cbars (grp * 4 + j)).isNone ∧ ¬ bitAt (sliceNat hd 0x28 8) j then g
      else { g with cbars := mmod g.cbars (grp * 4 + j) dfltBar (fun x =>
        { x with arrived := if bitAt (sliceNat hd 0x28 8) j then sadd x.arrived f2 else sdel x.arrived f2 }) }) t) s1
  (List.range 4).foldl (fun t j => checkCluster gid grp j t) ((List.range 16).foldl (fun t j => checkBar bk j t) s2)

/-- n and m of a record's header, as far as the allotment goes. -/
def headerCs (hd : List Byte) : Nat := min 64 (field (sliceNat hd 8 8) 16 7)
def headerCv (d : Desc) (hd : List Byte) : Nat := min d.va (field (sliceNat hd 8 8) 23 9)
/-- The waves of a record that its header names. -/
def headerWaves (r : PhaseRec) (hd : List Byte) (named : Bool) : List PhaseWave := r.waves.filter (fun pw => bitAt (sliceNat hd 8 8) (32 + pw.idx) == named)

/-- Read what a block's record holds, and write the delivered value into it: the header, and the sections of the waves it names. -/
def readRecord (asid bk : Nat) (g : Grid) (r : PhaseRec) (s : State) : Run (List Byte × List (PhaseWave × List (List Byte))) :=
  let at_ := recordPtr g.d (bk % 2 ^ 28)
  (lovageRead asid at_ 128 s).andThen (fun hd t =>
    (readSections asid bk g r (headerCs hd) (headerCv g.d hd) (headerWaves r hd true) t).andThen (fun l u =>
      (lovageWrite asid (ptrPlus at_ 0x20) (natToBytes 8 (r.rval.getD 0).toNat) u).andThen (fun _ z => .ok (hd, l) z)))

/-- Place one block of a granted resume request, and read its record. DESIGN CHOICE (log 57): of the header a program's store changes what PRES, CSU, CVU, BARM and CBAR say; CK, CA, CVAL, CGE, W32, INV and GRP are kept as they were saved. -/
def resumeBlock (asid : Nat) (g : Grid) (c : Ctx) (s : State) (bk core : Nat) : Option State :=
  match mget s.phaseQ bk with
  | none => some s
  | some r =>
    match readRecord asid bk g r s with
    | .pending => none
    | .fail f t => some (resumeFault bk g r (accessSpec t asid .load f) t)
    | .ok x t =>
      let placed := takeCore asid bk core .running (if r.inv then { t with phaseQ := mdel t.phaseQ bk } else lendSlice asid bk g.d { t with phaseQ := mdel t.phaseQ bk })
      (resumeWaves bk g c r (r.rval.getD 0) (headerCs x.1) (headerCv g.d x.1) x.2 placed).map (fun u =>
        let u1 := dropAbsent bk (headerWaves r x.1 false) u
        if r.inv then backOnCore bk (headerBars bk g x.1 u1) else u1)

def resumeAll (asid : Nat) (g : Grid) (c : Ctx) : List (Nat × Nat) → State → Option State
  | [], s => some s
  | (bk, core) :: rest, s => match resumeBlock asid g c s bk core with | some t => resumeAll asid g c rest t | none => none

/-- PHASE_RESUME: an eligible record, or a group's, is granted a place; the request stands until every member is resumed or has faulted. -/
def execPhaseResume (request core : Nat) (s : State) : Result :=
  match grantAt s request core with
  | none => .next s
  | some (r, l) =>
    match requestGrid s r, r.kind with
    | some (g, c), .resume _ =>
      (match resumeAll g.asid g c l s with
       | some t => .next { t with placeQ := mdel t.placeQ request }
       | none => .next s)
    | _, _ => .next s

end Sys2Proof.Machine
end

