-- ==== Sys2Proof/Machine/Quanta.lean ====
section
/-! DEFINITION. Quanta, context save and restoration, and the scrub of a core (R22, R25, R73, R76, R79 to R84, R274). -/
namespace Sys2Proof.Machine

/-! ### The partition's next entry (R79, R80, R274) -/

/-- The entries of a quantum table in the order a partition visits them after entry i. -/
def visitOrder (i : Nat) : List Nat := (List.range 64).map (fun j => (i + 1 + j) % 64)

/-- The next entry that is not skipped. DESIGN CHOICE (log 50): after a time with no valid entry the visit starts at entry 0 again, a point that R80 leaves open. -/
def nextEntry (p : Part) : Option (Nat × Word64) :=
  ((visitOrder (match p.cur with | some c => c.1 | none => 63)).find? (fun i => quantumValid (mgetD p.quanta i 0))).map (fun i => (i, mgetD p.quanta i 0))

/-- A written cluster mask is taken up at the boundary: clusters that leave go at once, and those that join are the partition's once no other one holds them (R274). -/
def takePending (p : Part) : Part :=
  match p.pend with
  | none => p
  | some mask =>
    if p.v then { p with mask := p.mask &&& mask, joining := mask ^^^ (p.mask &&& mask), pend := none }
    else { p with mask := mask, joining := 0, pend := none }

/-- The joining clusters of partition n that no other valid partition holds. -/
def freeJoining (ps : AMap Part) (n joining : Nat) : Nat :=
  ps.foldl (fun x e => if e.1 != n && e.2.v then x ^^^ (x &&& e.2.mask) else x) joining

/-- A valid partition takes the clusters that have become free for it. -/
def claim (ps : AMap Part) (n : Nat) : AMap Part :=
  match mget ps n with
  | none => ps
  | some p =>
    let x := freeJoining ps n p.joining
    if p.v then mput ps n { p with mask := p.mask ||| x, joining := p.joining ^^^ x } else ps

/-- Every partition in turn takes the clusters it joins. -/
def claimAll (s : State) : State := { s with parts := (s.parts.map Prod.fst).foldl claim s.parts }

/-- The partition moves to its next entry: the same ASID goes on without a save, unless clusters leave; else what is resident is to be saved first. DESIGN CHOICE (log 49): the LEN × 4,096 cycles of the entry run from the boundary, so the time that saving the leaving context takes counts against them, a point that R80 leaves open. -/
def moveOn (s : State) (n : Nat) (p : Part) : Part :=
  let q := takePending p
  let changed := q.mask != p.mask
  match (if q.v then nextEntry q else none) with
  | none => { q with cur := none, ends := s.time.cycle, saving := otherResident s n none, keep := none }
  | some (i, x) =>
    let keep := if changed then none else some (quantumAsid x)
    { q with cur := some (i, quantumAsid x), ends := s.time.cycle + quantumLen x * 4096, saving := otherResident s n keep, keep := keep }

/-- QUANTUM_END: the current quantum's length has expired, or the partition has none. -/
def execQuantumEnd (partition : Nat) (s : State) : Result :=
  match mget s.parts partition with
  | none => .next s
  | some p => if stillSaving s partition p ∨ s.time.cycle < p.ends then .next s else .next (claimAll { s with parts := mput s.parts partition (moveOn s partition p) })

/-! ### Context save (R22, R81) -/

/-- The saved blocks of a context, by key. -/
def savedOf (s : State) (asid : Nat) : List (Nat × Block) :=
  s.blocks.filter (fun e => (e.2.life == .saved || e.2.life == .savedLanded) && (match mget s.grids e.2.gid with | some g => g.asid == asid | none => false))

/-- A running block, or one whose page has landed, leaves its core with all it holds (R13, R81). -/
def saveBlock (asid : Nat) (s : State) (bk : Nat) : State :=
  match mget s.blocks bk with
  | none => s
  | some b =>
    match b.life with
    | .running => modBlock bk (fun b => { b with life := .saved, core := none }) (liftBlock asid s bk)
    | .landed => modBlock bk (fun b => { b with life := .savedLanded, core := none }) s
    | _ => s

/-- Every resident block has stopped and drained, and no page is on its way to a reserved slot, which stays held until it lands (R12). -/
def quietContext (s : State) (asid : Nat) : Bool := (residentOf s asid).all (fun e => e.2.life != .reserved && quietBlock s e.1)

/-- CONTEXT_SAVE: the context's partition is leaving its quantum, and its blocks are saved. -/
def execContextSave (asid : Nat) (s : State) : Result :=
  match mget s.ctxs asid with
  | none => .next s
  | some c =>
    let p := partAt s c.ent.part
    if ¬ p.saving ∨ p.keep = some asid ∨ (residentOf s asid).isEmpty ∨ ¬ quietContext s asid then .next s
    else
      let u := ((residentOf s asid).map Prod.fst).foldl (saveBlock asid) s
      let t := modCtx asid (fun c => { c with saved := !(savedOf u asid).isEmpty }) u
      .next { t with parts := mput t.parts c.ent.part { p with saving := otherResident t c.ent.part p.keep } }

/-! ### Scrub (R84) -/

/-- No block holds the core. -/
def coreEmpty (s : State) (core : Nat) : Bool := s.blocks.all (fun e => !(e.2.core == some core))

/-- CORE_SCRUB: an empty core's registers and buffers are zeroed; it may be given to any context. -/
def execCoreScrub (core : Nat) (s : State) : Result :=
  match mget s.cores core with
  | none => .next s
  | some k => if k.dirty ∧ coreEmpty s core then .next { s with cores := mput s.cores core { ctx := none, dirty := false } } else .next s

/-! ### Restoration (R76, R82, R83) -/

/-- What a saved block needs: slots of the waves it still has, or is to start with, its registers, units and tiles. -/
def savedNeed (s : State) (d : Desc) (bk : Nat) : Need :=
  let b := (mget s.blocks bk).getD (freshBlock 0 0)
  { waves := if b.life = .savedLanded then d.nw else slotWaves s bk
    va := d.va, au := d.au, landing := false, units := unitsHeld b, tiles := b.bound.length }

/-- A saved block is restored: it runs on, or, with its page landed, it starts if it has become runnable (R13, R83). -/
def restoreOn (asid : Nat) (s : State) (p : Nat × Nat) : State :=
  match mget s.blocks p.1 with
  | none => s
  | some b =>
    if b.life = .savedLanded then
      let t := takeCore asid p.1 p.2 .landed s
      match mget t.grids b.gid with
      | some g => if g.runnable.contains b.num then startBlock g.d p.1 b.num t else t
      | none => t
    else backOnCore p.1 (takeCore asid p.1 p.2 .running s)

/-- The groups that are saved, each by its first block. -/
def savedGroups (s : State) (asid : Nat) : List (List Nat) :=
  ((savedOf s asid).map (fun e => match mget s.grids e.2.gid with
    | some g => (savedOf s asid).filterMap (fun x => if x.2.gid = e.2.gid ∧ groupOf g.d x.2.num = groupOf g.d e.2.num then some x.1 else none)
    | none => [e.1])).eraseDups

/-- Where a saved group would go if its search starts at a core. -/
def restorePlaces (s : State) (asid core : Nat) (bks : List Nat) : Option (List (Nat × Nat)) :=
  match bks with
  | [] => none
  | bk :: _ =>
    match mget s.grids (bk / 2 ^ 28) with
    | none => none
    | some g => if bks.length ≤ 1 then assign s asid (savedNeed s g.d) bks [core] else assign s asid (savedNeed s g.d) bks (clusterFrom core)

/-- CONTEXT_RESTORE: in its context's quantum, a saved block or group is put on a core, or a cluster, with room. -/
def execContextRestore (asid core : Nat) (s : State) : Result :=
  match (savedGroups s asid).findSome? (restorePlaces s asid core) with
  | none => .next s
  | some l =>
    let t := l.foldl (restoreOn asid) s
    .next (modCtx asid (fun c => { c with saved := !(savedOf t asid).isEmpty }) t)

end Sys2Proof.Machine
end

