-- ==== Sys2Proof/Machine/Flash.lean ====
section
/-! DEFINITION. Millrace and Tailrace (R12, R13, R54, R126, R299 to R304, R306 to R310, R319, R320): senses, landings, timeouts, write-back, and erasing. -/
namespace Sys2Proof.Machine

/-! ### Flash pages -/

/-- Bytes of a flash page, and of a codeword (R299, R300). -/
def flashPageSize : Nat := 16384

/-- A byte of a flash page; one that was never programmed since its erase reads 0xFF (R300, R310). -/
def nandByte (s : State) (fa j : Nat) : Byte := mgetD s.nand (fa * flashPageSize + j) 0xFF
def nandBytes (s : State) (fa at_ n : Nat) : List Byte := (List.range n).map (fun j => nandByte s fa (at_ + j))

/-- Program a flash page: bytes of an image, 0 where not listed. -/
def nandPut (fa : Nat) (bs : List Byte) (s : State) : State :=
  { s with programmed := sadd s.programmed fa, nand := ((List.range bs.length).zip bs).foldl (fun m e => mset 0xFF m (fa * flashPageSize + e.1) e.2) s.nand }

/-- The NAND erase block of a flash page: its LUN, and the block of its row (R310). -/
def sameEraseBlock (a b : Nat) : Bool := lunOf a == lunOf b && field a 14 24 / Config.pagesPerBlock == field b 14 24 / Config.pagesPerBlock

/-! ### A LUN's queue (R304) -/

/-- A LUN is done with its oldest operation: its retry level is 0 again. -/
def lunPop (n : Nat) (s : State) : State :=
  { s with luns := mput s.luns n { lunAt s n with ops := (lunAt s n).ops.drop 1, retry := 0, rung := 0, accepted := 0, timedOut := false, since := s.time.ticks.toNat } }

/-! ### Landing (R12, R13, R301, R319, R320) -/

/-- The lines of codeword i in a block's A allocation. -/
def codewordLines (d : Desc) (i : Nat) : List Nat := (List.range 32).map (fun j => d.pwoff * 32 + 32 * i + j)

/-- Accepted codewords land: their lines are written, in ascending order, and full. -/
def landCodewords (bk fa : Nat) (d : Desc) (is : List Nat) (s : State) : State :=
  is.foldl (fun t i =>
    fillFor bk (codewordLines d i)
      (modBlock bk (fun b => { b with a := cellsPut b.a (d.pwoff * 4096 + 4096 * i) (nandBytes t fa (4096 * i) 4096) }) t)) s

/-- Bits [26:23] of a status word, in place: SD and RL. -/
def ladderBits (sd : Bool) (rl : Nat) : Nat := (if sd then 2 ^ 26 else 0) + rl * 2 ^ 23

/-- A replay lands pages in PAGE order: the page waits unlanded (R320). -/
def landingHeld (s : State) (asid gid num : Nat) : Bool := pageHeld s asid gid num (fun x => x == .waiting || x == .reserved)

/-- A landed page is logged, or compared with its record (R319, R320). -/
def logLanding (asid gid num fa : Nat) (sd : Bool) (rl : Nat) (s : State) : State :=
  match mget s.ctxs asid with
  | none => s
  | some c =>
    let hash := (hashBytes (nandBytes s fa 0 flashPageSize)).toNat
    if recording c gid then logAppend asid (2 * 2 ^ 60 + num) fa hash (ladderBits sd rl) s
    else if replaying c gid then
      match c.log with
      | none => s
      | some l =>
        match nextRecord s l (fun i => pageRecord s l i && isPage s l num fa i) with
        | none => s
        | some i =>
          let s1 := consume asid i s
          if logWord s l i 2 = hash then s1 else diverge asid 2 fa hash (logWord s l i 2) (pageName num fa) s1
    else s

/-- The whole page has landed: the slot no longer counts under R12; the block starts if it is runnable. -/
def pageLanded (bk : Nat) (sd : Bool) (rl : Nat) (s : State) : State :=
  let s1 := modBlock bk (fun b => { b with sd := sd, rl := rl, life := .landed, landedAt := s.time.cycle }) s
  match mget s1.blocks bk with
  | none => s1
  | some b =>
    match mget s1.grids b.gid with
    | none => s1
    | some g => if g.runnable.contains b.num then startBlock g.d bk b.num s1 else s1

/-- The codewords a sense accepts that were not accepted before. -/
def newlyAccepted (l : Lun) (accepted : BitVec 4) : List Nat := (List.range 4).filter (fun i => accepted.getLsbD i && !l.accepted.getLsbD i)

/-- The flash page has not been programmed since its erase, whatever bytes a program gave it. -/
def erasedPage (s : State) (fa : Nat) : Bool := !s.programmed.contains fa

/-- The codewords a rung accepts: at rung 0 an erased page is accepted as a whole, where all four codewords read as erased (R300); hits then names those with at most 64 zero bits. -/
def acceptedAt (s : State) (l : Lun) (fa : Nat) (hits : BitVec 4) : BitVec 4 :=
  if l.rung = 0 ∧ erasedPage s fa then (if hits = 0xF then 0xF else 0) else hits

/-- A rung of the ladder has been sensed and decoded (R300). While a replay holds the page back, it is decoded and waits unlanded (R320); its ladder has ended all the same, and the retry level is 0 again. -/
def senseDone (n bk : Nat) (b : Block) (g : Grid) (accepted : BitVec 4) (s : State) : State :=
  let l := lunAt s n
  let fa := b.fa.toNat
  let all := l.accepted ||| acceptedAt s l fa accepted
  let held := landingHeld s g.asid b.gid b.num
  let s1 := if held then s else landCodewords bk fa g.d (newlyAccepted l all) s
  if all = 0xF then
    if held then { s1 with luns := mput s1.luns n { l with accepted := all, retry := 0 } }
    else
      pageLanded bk (rungSd l.rung) (rungRl l.rung)
        (logLanding g.asid b.gid b.num fa (rungSd l.rung) (rungRl l.rung) (lunPop n (landCodewords bk fa g.d [0, 1, 2, 3] s1)))
  else if l.rung ≥ 8 then unlessEarly b.gid b.num s (pageFail b.gid b.num 0 true 7 (lunPop n s1))
  else
    { s1 with luns := mput s1.luns n { l with accepted := all, rung := l.rung + 1, retry := min (l.rung + 1) 7, since := s.time.ticks.toNat } }

/-- FLASH_SENSE_COMPLETE: the LUN's read in progress ends a rung, or a decoded page lands that had to wait; accepted: the codewords whose decoder converged with a matching CRC. Operations of different LUNs end in any order: which of them gets the channel first is timing (R304; log 51). -/
def execFlashSenseComplete (lun : Nat) (accepted : BitVec 4) (s : State) : Result :=
  match (lunAt s lun).ops with
  | .read bk :: _ =>
    match mget s.blocks bk with
    | none => .next (lunPop lun s)
    | some b =>
      match mget s.grids b.gid with
      | none => .next (lunPop lun s)
      | some g => .next (senseDone lun bk b g accepted s)
  | _ => .next s

/-- 20 ms in ticks of 1 GHz (R108, R302). -/
def lunLimit : Nat := 20000000

/-- The blocks whose reads in a target have not begun when one of its LUNs is given up: later entries that name the target (R302). -/
def laterReads (s : State) (lun : Nat) : List Nat :=
  s.luns.flatMap (fun e =>
    if e.1 % 1024 = lun % 1024 then (if e.1 = lun then e.2.ops else e.2.ops.drop 1).filterMap (fun o => match o with | .read bk => some bk | _ => none)
    else [])

/-- The read of a block's page ends with status page failed and PFC 2. -/
def readGivenUp (s : State) (bk : Nat) : State :=
  match mget s.blocks bk with
  | some b => pageFail b.gid b.num 2 false 0 (dropReads bk s)
  | none => dropReads bk s

/-- The LUN timed out twice in one page: its read ends, and its target is given up. -/
def giveUpTarget (lun bk : Nat) (s : State) : State :=
  let s1 := { lunPop lun s with deadTargets := sadd s.deadTargets (lun % 1024) }
  (bk :: laterReads s1 lun).foldl readGivenUp s1

/-- LUN_TIMEOUT: the LUN is reset and the rung repeated once; a second timeout of the page ends its read, and gives up its target (R302). A page that is decoded and waits unlanded has left the LUN ready (R320). -/
def execLunTimeout (lun : Nat) (s : State) : Result :=
  let l := lunAt s lun
  match l.ops with
  | .read bk :: _ =>
    if l.accepted = 0xF ∨ s.time.ticks.toNat < l.since + lunLimit then .next s
    else if ¬ l.timedOut then .next { s with luns := mput s.luns lun { l with timedOut := true, since := s.time.ticks.toNat } }
    else .next (giveUpTarget lun bk s)
  | _ => .next s

/-! ### Write-back (R126, R306, R307) -/

/-- A backing record. -/
structure Backing where
  at_ : Nat
  w0 : Nat
  fa : List Nat
  freeq : Nat
  retq : Nat
  rest : Nat

def backingOf (s : State) (pa : Nat) : Backing :=
  let p := backingAt s pa
  { at_ := p, w0 := physNat s p 8, fa := (List.range 4).map (fun i => physNat s (p + 8 + 8 * i) 8)
    freeq := physNat s (p + 0x28) 8, retq := physNat s (p + 0x30) 8, rest := physNat s (p + 0x38) 8 }

def Backing.asid (r : Backing) : Nat := field r.w0 32 12

/-- A sync address of the record's context names a queue. -/
def queueOk (s : State) (asid q : Nat) : Bool := (mget s.ctxs asid).isSome && (queueSpec s asid q).isNone

/-- V = 1, zero fields zero, FREEQ and RETQ inside the context's sync space. -/
def backingOk (s : State) (r : Backing) : Bool :=
  bitAt r.w0 63 && field r.w0 44 17 == 0 && r.rest == 0 && queueOk s r.asid r.freeq && queueOk s r.asid r.retq

/-- A push to the queue would be held. -/
def queueFilled (s : State) (asid q : Nat) : Bool :=
  match mget s.ctxs asid with
  | some c => (queueAt c q).waiters.isEmpty && decide (capOf (queueAt c q) ≤ (queueAt c q).items.length)
  | none => false

/-- A base die's Tailrace pushes an item to a queue of the record's context, held while the queue is full (R100); a context that is torn down holds no push (R287). -/
def pushTo (die : Nat) (s : State) (asid q x : Nat) : State :=
  if queueOk s asid q ∧ ¬ (tearingDown s asid ∧ queueFilled s asid q) then pushItem asid q (BitVec.ofNat 64 x) (.tailrace die) s else s

/-- A push of this Tailrace to the queue is held: its write-back waits. -/
def pushWaits (die : Nat) (s : State) (r : Backing) : Bool :=
  match mget s.ctxs r.asid with
  | some c => queueOk s r.asid r.retq && (queueAt c r.retq).held.any (fun h => h.1 == .tailrace die)
  | none => false

/-- Take up to n items, one at a time. -/
def takeItems (asid q : Nat) : Nat → List Nat → State → List Nat × State
  | 0, acc, s => (acc, s)
  | n + 1, acc, s =>
    match popItem asid q s with
    | some (x, t) => takeItems asid q n (acc ++ [x.toNat]) t
    | none => (acc, touchQueue asid q s)

/-- An item is a valid flash page address, on a LUN that the context may program (R53, R273). -/
def itemOk (s : State) (asid x : Nat) : Bool :=
  match mget s.ctxs asid with
  | some c => field x 38 26 == 0 && grantsLun s c.ent (lunOf x) true
  | none => false

def tailAt (s : State) (die : Nat) : Tailrace := mgetD s.tail die dfltTail
def setTail (die : Nat) (q : Tailrace) (s : State) : State := { s with tail := mput s.tail die q }
def setWb (page : Nat) (st : WbState) (s : State) : State := { s with wb := mmod s.wb page { leaf := 0, size := 65536, state := .queued } (fun x => { x with state := st }) }
def wbLeaf (s : State) (page : Nat) : Nat := (match mget s.wb page with | some x => x.leaf | none => 0)
def wbSize (s : State) (page : Nat) : Nat := (match mget s.wb page with | some x => x.size | none => 65536)

/-- The physical address of the unit being written back. -/
def Writeback.pa (w : Writeback) : Nat := w.page + w.unit * 65536

/-- The failed unit's notice has its place in RETQ: TWP is lifted and the page stands failed, DT = 1 (R307). -/
def liftFailed (die : Nat) (w : Writeback) (s : State) : State :=
  if pushWaits die s (backingOf s w.pa) then setTail die { tailAt s die with now := some { w with next := .lift } } s
  else setWb w.page .failed (setLeafBit (wbLeaf s w.page) 8 false (setTail die { tailAt s die with now := none } s))

/-- fail: FAIL = 1, and a notice with the unit's PA bits [55:16] (R307). -/
def failUnit (die : Nat) (w : Writeback) (s : State) : State :=
  let r := backingOf s w.pa
  let s1 := physPutWord r.at_ (BitVec.ofNat 64 (if bitAt r.w0 61 then r.w0 else r.w0 + 2 ^ 61)) s
  liftFailed die w (pushTo die s1 r.asid r.retq (2 ^ 63 + field w.pa 16 40 * 2 ^ 16))

/-- The unit fails once its pushes have their places in RETQ (R100, R307). -/
def failAfter (die : Nat) (w : Writeback) (s : State) : State :=
  if pushWaits die s (backingOf s w.pa) then setTail die { tailAt s die with now := some { w with next := .fail } } s else failUnit die w s

/-- The bytes of a unit, as a sparse map from the unit's start. -/
def unitImage (s : State) (pa : Nat) : List Host.Cell :=
  (s.mem.filter (fun e => decide (pa ≤ e.1) && decide (e.1 < pa + 65536))).map (fun e => (e.1 - pa, e.2))

/-- Take four erased pages and begin the programs of a unit: the unit is read now (R126). -/
def beginUnit (die : Nat) (w : Writeback) (s : State) : State :=
  let r := backingOf s w.pa
  if ¬ backingOk s r then failUnit die w s
  else
    let (items, s1) := takeItems r.asid r.freeq 4 [] s
    if items.length < 4 then
      let s2 := items.foldl (fun t x => pushTo die t r.asid r.freeq x) s1
      setWb w.page .queued (setTail die { queue := (tailAt s2 die).queue ++ [w.page], now := none } s2)
    else
      let bad := items.filter (fun x => !itemOk s1 r.asid x)
      if bad ≠ [] then failAfter die w (bad.foldl (fun t x => pushTo die t r.asid r.retq (if bitAt x 62 then x else x + 2 ^ 62)) s1)
      else
        let w1 := { w with image := unitImage s1 w.pa, fresh := items, left := 4, bad := false, next := .programs }
        let s2 := setTail die { tailAt s1 die with now := some w1 } s1
        let s3 := if (mget s2.wb w.page).map (fun x => x.state) = some .queued then setWb w.page .writing s2 else s2
        items.foldl (fun t x => lunPush (lunOf x) (.program die x) t) s3

/-- The page's last unit is done: a page written since is queued again, any other is clean (R126). -/
def pageWritten (die page : Nat) (s : State) : State :=
  match mget s.wb page with
  | none => setTail die { tailAt s die with now := none } s
  | some x =>
    if x.state = .redirtied then setWb page .queued (setTail die { queue := (tailAt s die).queue ++ [page], now := none } s)
    else
      let s1 := setLeafBit x.leaf 8 false (setLeafBit x.leaf 9 false s)
      setTail die { tailAt s1 die with now := none } { s1 with wb := mdel s1.wb page }

/-- The pushes of a unit have their places: on to the next unit, to another try, or to the page's end. -/
def goOn (die : Nat) (w : Writeback) (s : State) : State :=
  if pushWaits die s (backingOf s w.pa) then setTail die { tailAt s die with now := some w } s
  else
    match w.next with
    | .programs => s
    | .finish =>
      if (w.unit + 1) * 65536 < wbSize s w.page then beginUnit die { w with unit := w.unit + 1, retried := false } s
      else pageWritten die w.page s
    | .again => beginUnit die { w with retried := true } s
    | .fail => failUnit die w s
    | .lift => liftFailed die w s

/-- Every program of the unit has reported (R307). -/
def unitReported (die : Nat) (w : Writeback) (s : State) : State :=
  let r := backingOf s w.pa
  if w.bad then
    let s1 := w.fresh.foldl (fun t x => pushTo die t r.asid r.retq (x + 2 ^ 62)) s
    if w.retried then failAfter die w s1 else goOn die { w with next := .again } s1
  else
    let s1 := physPut (r.at_ + 8) (w.fresh.flatMap (natToBytes 8)) (physPut r.at_ (natToBytes 4 (r.w0 + 1)) s)
    goOn die { w with next := .finish } ((r.fa.filter (fun x => x != 0)).foldl (fun t x => pushTo die t r.asid r.retq x) s1)

/-- TAILRACE_WRITEBACK: the oldest queued page of the base die is begun, or a write-back goes on whose push has been admitted. -/
def execTailraceWriteback (baseDie : Nat) (s : State) : Result :=
  let q := tailAt s baseDie
  match q.now with
  | some w => .next (goOn baseDie w s)
  | none =>
    match q.queue with
    | [] => .next s
    | page :: rest =>
      .next (beginUnit baseDie { page := page, unit := 0, image := [], fresh := [], left := 0, bad := false, retried := false, next := .programs }
        (setTail baseDie { queue := rest, now := none } s))

/-- The lowest LUN whose oldest operation is a program of the base die's Tailrace. -/
def programAt (s : State) (die : Nat) : Option (Nat × Nat) :=
  s.luns.findSome? (fun e => match e.2.ops.head? with | some (.program d x) => if d = die then some (e.1, x) else none | _ => none)

/-- The bytes of a unit that go to one of its four flash pages. -/
def programImage (w : Writeback) (x : Nat) : List Byte := cellsGet w.image (w.fresh.findIdx (fun y => y == x) * flashPageSize) flashPageSize

/-- FLASH_PROGRAM_COMPLETE: one of the unit's programs reports. A page that failed to program is left as it was (log 10). -/
def execFlashProgramComplete (baseDie : Nat) (succeeded : Bool) (s : State) : Result :=
  match programAt s baseDie, (tailAt s baseDie).now with
  | some (lun, x), some w =>
    let s1 := lunPop lun (if succeeded then nandPut x (programImage w x) s else s)
    let w1 := { w with left := w.left - 1, bad := w.bad || !succeeded }
    if w1.left = 0 then .next (unitReported baseDie w1 s1) else .next (setTail baseDie { tailAt s1 baseDie with now := some w1 } s1)
  | _, _ => .next s

end Sys2Proof.Machine
end

