-- ==== Sys2Proof/Machine/Commands.lean ====
section
/-! DEFINITION. The physical function's commands (R272, R282, R287, R290, R291, R310, R318), and the launch and completion rings (R292). -/
namespace Sys2Proof.Machine

/-- Any outside access wakes the package (R328). -/
def wake (s : State) : State := { s with idle := 0 }

/-- Tell the physical function something it has no register for: 0 a refused table write, 1 a skipped quantum entry (R79, R274). -/
def tellPf (what value : Nat) (s : State) : State := emit (.notify what value) s

/-! ### The command register (R290, R291) -/

/-- A command ends: GO reads 0, and STAT its outcome. -/
def finishCmd (stat : Nat) (s : State) : State := { s with pf := { s.pf with go := false, stat := stat } }

/-- A write of GO = 1 starts a command; while one runs the write is discarded. -/
def startCmd (op asid : Nat) (f : State → State) (s : State) : Result :=
  if s.pf.go then .next s
  else .next (f { s with pf := { s.pf with go := true, op := op % 16, asid := asid % 4096, runA := s.pf.cmda, runL := s.pf.cmdl } })

/-- A firmware service: refused once the watchdog has fired (R327). -/
def service (f : State → State) (s : State) : State := if s.fw.halted then finishCmd 1 s else f s

/-! ### LOAD (R123, R272) -/

/-- Word i of the context table entry of an ASID. -/
def ctxWord (s : State) (asid i : Nat) : Nat := (mgetD s.ctxTab (s.pf.ctxb / 8 + 8 * asid + i) 0).toNat

def ctxEntry (s : State) (asid : Nat) : CtxEntry :=
  let x := ctxWord s asid
  { part := field (x 0) 56 4, root := field (x 0) 0 56, sbk := field (x 1) 0 56, stks := field (x 2) 32 32, syncsz := field (x 2) 0 17
    stkb := field (x 3) 0 56, save := field (x 4) 0 56, fql := field (x 5) 60 4, fqb := field (x 5) 0 56
    dspn := field (x 6) 32 32, fgn := field (x 6) 0 32, fgt := field (x 7) 0 56 }

/-- V = 1, zero fields zero, alignments, and a legal size of sync space. -/
def ctxEntryOk (s : State) (asid : Nat) : Bool :=
  let x := ctxWord s asid
  let e := ctxEntry s asid
  bitAt (x 0) 63 && field (x 0) 60 3 == 0 && field (x 1) 56 8 == 0 && field (x 2) 17 15 == 0 && field (x 3) 56 8 == 0 && field (x 4) 56 8 == 0 &&
    field (x 5) 56 4 == 0 && field (x 7) 56 8 == 0 && e.root % 32768 == 0 && e.sbk % 65536 == 0 && decide (1 ≤ e.syncsz) && decide (e.syncsz ≤ 65536) &&
    e.stkb % 65536 == 0 && e.save % 4096 == 0 && e.fqb % 64 == 0 && e.fgt % 8 == 0

/-- A context has grids, phase records or a saved state. -/
def ctxLive (s : State) (asid : Nat) : Bool :=
  s.grids.any (fun e => e.2.asid == asid && !e.2.done) || (match mget s.ctxs asid with | some c => c.saved | none => false)

/-- An adopted context: its sync space reads zero. A log area stays bound. -/
def freshCtx (e : CtxEntry) (log : Option LogArea) : Ctx :=
  { ent := e, sync := [], queues := [], slices := [], lost := false, regions := [], rings := [], log := log, saved := false }

/-- The log area bound to an ASID, whether a LOAD has adopted it or not (R291, R318). -/
def logOf (s : State) (asid : Nat) : Option LogArea :=
  match mget s.ctxs asid with
  | some c => c.log
  | none => mget s.logs asid

/-- Bind or unbind it. -/
def setLog (asid : Nat) (l : Option LogArea) (s : State) : State :=
  match mget s.ctxs asid, l with
  | some _, l => modCtx asid (fun c => { c with log := l }) s
  | none, some a => { s with logs := mput s.logs asid a }
  | none, none => { s with logs := mdel s.logs asid }

def runLoad (asid : Nat) (s : State) : State :=
  if ctxLive s asid then finishCmd 2 s
  else if ctxEntryOk s asid then
    finishCmd 0 { s with ctxs := mput s.ctxs asid (freshCtx (ctxEntry s asid) (logOf s asid)), logs := mdel s.logs asid }
  else finishCmd 1 s

def execLoad (asid : Nat) (s : State) : Result := startCmd 1 asid (service (runLoad (asid % 4096))) s

/-! ### INVAL (R282) -/

/-- GO reads 1 until INVAL_COMPLETE; until then an access may use a cached copy. -/
def execInval (asid : Nat) (s : State) : Result := startCmd 2 asid id s

/-- n bytes from lo meet the units of an invalidation; a length of 0 takes in the whole ASID. -/
def meetsUnits (a len lo n : Nat) : Bool :=
  len == 0 || (decide (lo < (ptrAddr a / 65536 + len) * 65536) && decide (ptrAddr a / 65536 * 65536 < lo + n))

/-- The cached copies that an invalidation removes: leaf and next-table entries that the walk of an address in its range would use. -/
def invalidates (asid a len key : Nat) : Bool :=
  let lo := levelLo (key / 2 ^ 44 % 8)
  key / 2 ^ 47 == asid && meetsUnits a len (key % 2 ^ 44 * 2 ^ lo) (2 ^ lo)

/-- Waves of a context. -/
def ctxWaves (s : State) (asid : Nat) : List (Nat × Wave) :=
  s.waves.filter (fun e => match mget s.blocks e.2.blk with
    | some b => (match mget s.grids b.gid with | some g => g.asid == asid | none => false)
    | none => false)

/-- An outstanding access of the span lies in the invalidation's range, whatever its entry says by now. -/
def usesUnits (a len : Nat) (x : Span) : Bool := windowOf x.addr == .global && (units x.addr x.len).any (fun u => meetsUnits a len u.1 u.2)

/-- A wave's operations in flight that may use an old entry of the range: queued ones that the side log does not hold, reads that the far side has not answered, and engine operations that can get on. -/
def waveUses (s : State) (a len : Nat) (v : View) : Bool :=
  v.w.mq.any (fun m => !m.logged && (opUses m.op).any (usesUnits a len)) ||
    v.w.returns.any (fun r => !r.far.isEmpty && r.addrs.any (fun x => usesUnits a len ⟨x.1, ptrAddr x.2, r.size⟩)) ||
    (engOpen v.w).any (fun e => getsOn e (runEng v e s) &&
      (match engReads v.b e.op with | some l => (l ++ engWrites e.op).any (usesUnits a len) | none => true))

/-- A journal entry of the context has not arrived at its Lovage; one whose store was lost with a fault never will. -/
def journalOut (s : State) (c : Ctx) : Bool := c.regions.any (fun r => r.2.entries.any (fun e => e.step.isNone && e.alive s r.1))

/-- What used an old entry has been performed and acknowledged (R282). -/
def invalDone (s : State) (asid a len : Nat) : Bool :=
  (ctxWaves s asid).all (fun e => match viewOf s e.1 with | some v => v.b.core.isNone || !waveUses s a len v | none => true) &&
    (match mget s.ctxs asid with | some c => !journalOut s c | none => true)

/-- INVAL_COMPLETE: no cached copy remains, and no access in flight used one. An access that comes later reads its leaf when it is performed. -/
def execInvalComplete (s : State) : Result :=
  if s.pf.go ∧ s.pf.op = 2 ∧ invalDone s s.pf.asid s.pf.runA s.pf.runL then
    .next (finishCmd 0 { s with tlb := s.tlb.filter (fun e => !invalidates s.pf.asid s.pf.runA s.pf.runL e.1) })
  else .next s

/-! ### TEARDOWN (R287) -/

/-- Grids of a context that have not completed. -/
def openGrids (s : State) (asid : Nat) : List Nat := (s.grids.filter (fun e => e.2.asid == asid && !e.2.done)).map Prod.fst

/-- What Quern and Lovage hold for a context is removed: waiters and held pushes leave with their waves, journal entries are discarded. -/
def emptyQuern (asid : Nat) (s : State) : State :=
  modCtx asid (fun c => { c with regions := [], queues := c.queues.map (fun e => (e.1, { e.2 with held := [] })) }) s

/-- TEARDOWN: every grid of the context ends; every block without a status will receive faulted with GT = 1. -/
def execTeardown (asid : Nat) (s : State) : Result :=
  startCmd 3 asid (fun t => emptyQuern (asid % 4096) ((openGrids t (asid % 4096)).foldl (fun u gid => endGrid gid none u) t)) s

/-- A Tailrace writes back a unit whose backing record names the context: it takes from and pushes to the context's queues (R307). -/
def writesBack (s : State) (asid : Nat) : Bool := s.tail.any (fun e => match e.2.now with | some w => (backingOf s w.pa).asid == asid | none => false)

/-- No access of the context is outstanding: its waves have ended, and on a core nothing but what teardown discards is left of them; no write-back of it is under way; what the save area holds makes no access. -/
def tornDown (s : State) (asid : Nat) : Bool :=
  !writesBack s asid &&
  (ctxWaves s asid).all (fun e => e.2.ended && (quietWave s e.1 || (match mget s.blocks e.2.blk with | some b => b.core.isNone | none => true)))

/-- Every block of a grid without a status receives faulted with GT = 1. -/
def failGrid (s : State) (gid : Nat) : State :=
  match mget s.grids gid with
  | none => s
  | some g => (List.range (gridBlocks g.d)).foldl (fun t n => let l := ladderOf t (blockKey gid n) (blockOr t gid n); setStatus gid n (statusWord 2 0 true l.1 l.2) (dropReads (blockKey gid n) t)) s

/-- The context is gone: its cached translations are invalidated, its cores scrubbed, and the neighbours of its rings told, which wakes an idle package (R328); the ASID's log area stays bound (R291). -/
def removeCtx (asid : Nat) (s : State) : State :=
  let rings := (match mget s.ctxs asid with | some c => c.rings | none => [])
  let p := (match mget s.ctxs asid with | some c => c.ent.part | none => 0)
  let s1 := rings.foldl (fun t r => emit (.notify 2 r.1) (wake t)) s
  let s2 := { s1 with
    ctxs := mdel s1.ctxs asid
    logs := (match logOf s1 asid with | some l => mput s1.logs asid { l with grids := [] } | none => s1.logs)
    tlb := s1.tlb.filter (fun e => e.1 / 2 ^ 47 != asid)
    cores := s1.cores.map (fun e => if e.2.ctx = some asid then (e.1, { ctx := none, dirty := false }) else e) }
  match mget s2.parts p with
  | some q => { s2 with parts := mput s2.parts p { q with saving := q.saving && otherResident s2 p q.keep } }
  | none => s2

/-- TEARDOWN_COMPLETE. -/
def execTeardownComplete (s : State) : Result :=
  if s.pf.go ∧ s.pf.op = 3 ∧ tornDown s s.pf.asid then
    .next (finishCmd 0 (removeCtx s.pf.asid ((openGrids s s.pf.asid).foldl failGrid s)))
  else .next s

/-! ### GRANT (R291, R311) -/

/-- CMDA names the requester and whether to bind it; at most 256 are bound at once. -/
def runGrant (asid : Nat) (s : State) : State :=
  let r := field s.pf.runA 0 16
  let other := (match mget s.grants r with | some a => a != asid | none => false)
  if other then finishCmd 1 s
  else if bitAt s.pf.runA 16 then
    if (mget s.grants r).isNone ∧ s.grants.length ≥ 256 then finishCmd 1 s else finishCmd 0 { s with grants := mput s.grants r asid }
  else finishCmd 0 { s with grants := mdel s.grants r }

def execGrant (asid : Nat) (s : State) : Result := startCmd 4 asid (service (runGrant (asid % 4096))) s

/-! ### ERASE (R304, R310) -/

def runErase (asid : Nat) (s : State) : State :=
  match mget s.ctxs asid with
  | none => finishCmd 1 s
  | some c => if grantsLun s c.ent (lunOf s.pf.runA) true then lunPush (lunOf s.pf.runA) (.erase s.pf.runA) (wake s) else finishCmd 1 s

def execErase (asid : Nat) (s : State) : Result := startCmd 5 asid (runErase (asid % 4096)) s

/-- The erase block of a flash page is erased. -/
def nandErase (x : Nat) (s : State) : State :=
  { s with nand := s.nand.filter (fun e => !sameEraseBlock x (e.1 / flashPageSize)), programmed := s.programmed.filter (fun fa => !sameEraseBlock x fa) }

/-- ERASE_COMPLETE: the erase has its turn on its LUN, and reports. -/
def execEraseComplete (succeeded : Bool) (s : State) : Result :=
  match s.luns.find? (fun e => match e.2.ops.head? with | some (.erase _) => true | _ => false) with
  | none => .next s
  | some (n, l) =>
    match l.ops.head? with
    | some (.erase x) =>
      if succeeded then .next (finishCmd 0 (lunPop n (nandErase x s)))
      else .next (finishCmd 3 (lunPop n s))
    | _ => .next s

/-! ### RECLOG (R318) -/

/-- A fresh log area (R318). -/
def freshLog (base units : Nat) : LogArea :=
  { base := base, units := units, written := 0, grids := [], replay := false, used := [], lifted := [], full := false, began := 0, stamps := [] }

/-- RECLOG binds CMDL units at CMDA to the ASID, or unbinds its area: refused while a recording or replaying grid of it is open, and for an area that is not aligned units of tier 1. -/
def runReclog (asid : Nat) (s : State) : State :=
  if (match logOf s asid with | some l => !l.grids.isEmpty | none => false) then finishCmd 1 s
  else if s.pf.runL = 0 then finishCmd 0 (setLog asid none s)
  else if s.pf.runA % 65536 ≠ 0 ∨ s.pf.runA + s.pf.runL * 65536 > 0x8000000000 then finishCmd 1 s
  else finishCmd 0 (setLog asid (some (freshLog s.pf.runA s.pf.runL)) s)

def execReclog (asid : Nat) (s : State) : Result := startCmd 7 asid (runReclog (asid % 4096)) s

/-- PF_UNASSIGNED: STAT 0xFF, and nothing else happens. -/
def execPfUnassigned (op asid : Nat) (s : State) : Result :=
  if op % 16 = 0 ∨ 8 ≤ op % 16 then startCmd op asid (finishCmd 0xFF) s else .next s

/-! ### Launch and completion rings (R292) -/

/-- LAUNCH_TAIL_WRITE: the device will fetch the entries up to the index. It is the write of LRS's bits [63:32] alone, and restarts no count (DESIGN CHOICE, log 59). -/
def execLaunchTailWrite (vf tail : Nat) (s : State) : Result :=
  .next { s with vfs := mput s.vfs vf { vfAt s vf with tail := tail % 2 ^ 32 } }

/-- The context of a launch entry belongs to the partition the function serves. -/
def servedBy (s : State) (vf asid : Nat) : Bool :=
  match mget s.ctxs asid with
  | none => false
  | some c => let p := partAt s c.ent.part; p.v && p.vf == vf

/-- The code of an entry and the state after it; none: the descriptor's translation is pending. uncorrectable: the descriptor's read brought uncorrectable data. -/
def runEntry (vf asid tag ptr : Nat) (uncorrectable : Bool) (s : State) : Option (Nat × State) :=
  if ¬ servedBy s vf asid then some (8, s)
  else if ptr % 128 ≠ 0 then some (5, s)
  else
    match lovageRead asid ptr 128 s with
    | .pending => none
    | .fail _ t => some (9, t)
    | .ok bs t => if uncorrectable then some (9, t) else some (offerLaunch asid (.host vf tag) ptr (wordsOf 16 bs) t)

/-- The 16 bytes of the launch entry that a function fetches next: slot k mod 2^LRS of its ring in host memory. -/
def entryAt (v : Vf) : Nat := hostPa (v.lrb + 16 * (v.fetched % ringSize v))

/-- LAUNCH_ENTRY (R292): the next entry of the ring is fetched from the host, checked and launched, and its completion entry written; while the completion ring is full no entry is fetched. entry: its number since the ring was set, since entries are fetched in ring order. DESIGN CHOICE (log 59): the tail index is a count modulo 2^32 of entries since the ring was set, like CRH, so that entries are fetched until their count equals it; bits [31:12] of an entry's dword 0 are ignored. -/
def execLaunchEntry (vf entry : Nat) (uncorrectable : Bool) (s : State) : Result :=
  let v := vfAt s vf
  if entry ≠ v.fetched ∨ v.fetched % 2 ^ 32 = v.tail ∨ v.held ≠ [] ∨ ringFull v then .next s
  else
    let x := physNat s (entryAt v) 8
    let tag := field x 32 32
    match runEntry vf (field x 0 12) tag (physNat s (entryAt v + 8) 8) uncorrectable s with
    | none => .next (wake s)
    | some (code, t) =>
      .next (wake (postCompletion vf tag 0 code { t with vfs := mput t.vfs vf { vfAt t vf with fetched := v.fetched + 1 } }))

/-- COMPLETION_HEAD_WRITE: entries held back are written while there is room. -/
def execCompletionHeadWrite (vf head : Nat) (s : State) : Result :=
  let v := vfAt s vf
  .next (releaseHeld vf v.held { s with vfs := mput s.vfs vf { v with crh := head % 2 ^ 32 } })

end Sys2Proof.Machine
end

