-- ==== Sys2Proof/Machine/Borders.lean ====
section
/-! DEFINITION. Host, drives and peers (R79, R139, R274, R293 to R295, R311, R313, R319, R320): table writes, freezing, and inbound accesses. -/
namespace Sys2Proof.Machine

/-! ### Partition and quantum tables (R79, R274) -/

/-- The cluster mask as it was last written: what waits for the boundary, else the partition's clusters with those that it joins. -/
def writtenMask (p : Part) : Nat := p.pend.getD (p.mask ||| p.joining)

/-- An entry with V, VF and the mask written: the mask waits for the partition's next quantum boundary; a partition that becomes valid has no cluster until then. -/
def writtenPart (v : Bool) (vf mask : Nat) (p : Part) : Part :=
  { p with v := v, vf := vf, mask := if v ∧ ¬ p.v then 0 else p.mask, joining := if v then p.joining else 0, pend := some mask }

/-- PARTITION_TABLE_WRITE: a cluster belongs to at most one valid partition; a changed cluster mask is taken up at the next quantum boundary. DESIGN CHOICE (log 59): an entry whose bits [62:37] are not zero, or with a VF of 0 or above 16, is accepted as it stands, its other fields used; the rule gives no consequence. -/
def execPartitionTableWrite (p lo hi : Nat) (s : State) : Result :=
  let v := bitAt hi 63
  let mask := lo % 2 ^ 64 + field hi 0 32 * 2 ^ 64
  if p ≥ 16 then .next s
  else if v ∧ s.parts.any (fun e => e.1 != p && e.2.v && writtenMask e.2 &&& mask != 0) then .next (tellPf 0 p s)
  else .next (claimAll { s with parts := mput s.parts p (writtenPart v (field hi 32 5) mask (partAt s p)) })

/-- QUANTUM_TABLE_WRITE: the entry is used the next time it becomes current; one whose zero field is not zero is skipped, and reported. -/
def execQuantumTableWrite (p i entry : Nat) (s : State) : Result :=
  if p ≥ 16 ∨ i ≥ 64 then .next s
  else
    let t := { s with parts := mput s.parts p { partAt s p with quanta := mset 0 (partAt s p).quanta i (BitVec.ofNat 64 entry) } }
    if field entry 1 31 ≠ 0 then .next (tellPf 1 (p * 64 + i) t) else .next t

/-! ### Freezing (R316) -/

/-- The program or erase that is on a LUN's bus completes inside its card; whether it succeeds is a free value (log 6). Its result is not taken: Tailrace and the command register see nothing of it. -/
def endInCard (s : State) (n : Nat) : State :=
  if ¬ Config.freeBool (s.sched.freeNo * 2 ^ 64 + n) then s
  else match (lunAt s n).ops.head? with
    | some (.program die x) =>
      (match (tailAt s die).now with
       | some w => nandPut x (programImage w x) s
       | none => s)
    | some (.erase x) => nandErase x s
    | _ => s

/-- BRAKE: the package freezes; with FWD = 1 every trained port sends a BRAKE flit. A package that is frozen stays as it is. -/
def freeze (s : State) : State :=
  if s.frozen then s else
  let s1 := (s.luns.map Prod.fst).foldl endInCard { s with frozen := true }
  if s.pf.fwd then s.links.foldl (fun t e => if e.2.trained then emit (.brakeFlit e.1) t else t) s1 else s1

/-- The watchdog fires: firmware halts and its mailboxes close; with ONWD = 1 the package freezes instead (R327). -/
def fireWatchdog (s : State) : State :=
  if s.pf.onwd then freeze s else { s with fw := { s.fw with halted := true } }

/-! ### Inbound accesses (R139, R293, R294, R311) -/

def allOnesBytes (n : Nat) : List Byte := List.replicate n 0xFF

/-- An inbound access of a context passes stage 4 of its checks: it is translated and checked for permission, never tag-checked. none: it fails. -/
def permitted (s : State) (asid addr len : Nat) (write : Bool) : Option Ctx :=
  match mget s.ctxs asid with
  | none => none
  | some c =>
    let k : Kind := if write then .store else .load
    if len = 0 ∨ lovageWindow addr len ≠ .ok then none
    else if checkGlobal s asid (rootOf c) k none addr len ≠ .ok then none
    else some c

/-- Every leaf of a range is of tier 1 or tier 2; the walk is the access's own: one entry serves all of it (R282). -/
def nearLeaves (s : State) (asid : Nat) (c : Ctx) (addr len : Nat) (write : Bool) : Bool :=
  (units addr len).all (fun u => match xlate s asid (rootOf c) u.1 write with | .ok _ x _ _ => decide (leafTier x ≤ 1) | _ => false)

/-- What an inbound access of a context comes to: it passes its checks, reaches tier 1 and tier 2 leaves alone, and a read finds its data. none: it fails. -/
def inbound (s : State) (asid addr len : Nat) (write : Bool) : Option Ctx :=
  match permitted s asid addr len write with
  | none => none
  | some c => if nearLeaves s asid c addr len write ∧ (write ∨ (lostAt s asid (rootOf c) addr len).isNone) then some c else none

/-- An inbound access that passes stage 4 and then fails leaves its marks in the leaves (R280; log 30). -/
def noteInbound (asid addr len : Nat) (write : Bool) (s : State) : State :=
  match permitted s asid addr len write with
  | some c => (units addr len).foldl (fun t u => noteLeaf asid (rootOf c) write u.1 t) s
  | none => s

/-- Perform an inbound access that passed, in the home near cache; a read is answered. -/
def performInbound (asid addr len : Nat) (write : Option Nat) (c : Ctx) (s : State) : State :=
  match write with
  | some x => ctxPut asid c addr (natToBytes len x) s
  | none => emit (.answer ((List.range len).map (fun j => ctxByte s asid (rootOf c) (addr + j)))) (recordAccess asid (rootOf c) false addr len s)

/-- BAR2_ACCESS: the window of a virtual function onto the context it names, which must belong to its partition. -/
def execBar2Access (vf address len : Nat) (write : Option Nat) (s : State) : Result :=
  let ones := fun (t : State) => match write with | some _ => t | none => emit (.answer (allOnesBytes len)) t
  let s0 := wake s
  let asid := (vfAt s vf).win
  let addr := address % 2 ^ 40
  if ¬ servedBy s vf asid then .next (ones s0)
  else match inbound s0 asid addr len write.isSome with
    | some c => .next (performInbound asid addr len write c s0)
    | none =>
      let t := noteInbound asid addr len write.isSome s0
      .next (ones { t with pf := { t.pf with cnt3100lo := t.pf.cnt3100lo + 1 } })

/-- An inbound request is refused: Unsupported Request, and counted (R294). -/
def refuseInbound (s : State) : State := emit .unsupported { s with pf := { s.pf with cnt3100hi := s.pf.cnt3100hi + 1 } }

/-- The mailbox range (R313). -/
def isMailbox (address len : Nat) : Bool :=
  (len == 4 || len == 8) && address % len == 0 && decide (0x0E00000000000000 ≤ ptrAddr address) && decide (ptrAddr address ≤ 0x0E000000FFFFFFFF)

/-- A mailbox write adds to a sync word of the bound context; one outside sync space is dropped and counted. -/
def mailbox (asid address data : Nat) (s : State) : State :=
  let x := field address 0 32 / 8 * 8
  match mget s.ctxs asid with
  | none => refuseInbound s
  | some c =>
    if ¬ inSync c x 8 then { s with pf := { s.pf with cnt3100hi := s.pf.cnt3100hi + 1 } }
    else if isQueueWord c x ∨ isStatusWord s asid x then s
    else plainWrite asid x (syncWord c x + BitVec.ofNat 64 data) s

/-- MAILBOX_WRITE. -/
def execMailboxWrite (requester address len data : Nat) (s : State) : Result :=
  if ¬ isMailbox address len then .next s
  else match mget s.grants requester with
    | none => .next (refuseInbound (wake s))
    | some asid => .next (mailbox asid address (data % 2 ^ (8 * len)) (wake s))

/-- DRIVE_INBOUND_REQUEST: translated in the context bound to its requester, or refused. -/
def execDriveInboundRequest (requester address len : Nat) (write : Option Nat) (s : State) : Result :=
  let s0 := wake s
  match mget s.grants requester with
  | none => .next (refuseInbound s0)
  | some asid =>
    match write, isMailbox address len with
    | some x, true => .next (mailbox asid address (x % 2 ^ (8 * len)) s0)
    | _, _ =>
      match inbound s0 asid (ptrAddr address) len write.isSome with
      | some c => .next (performInbound asid (ptrAddr address) len write c s0)
      | none => .next (refuseInbound (noteInbound asid (ptrAddr address) len write.isSome s0))

/-! ### Tirten Link (R295, R319, R320) -/

/-- An inbound window. -/
def inwAt (s : State) (e : Nat) : Nat := (mgetD s.pf.inw e 0).toNat

/-- A range lies in tier 1, or in the programmed part of tier 2. -/
def localRange (s : State) (pa len : Nat) : Bool :=
  match regionOf pa, regionOf (pa + len - 1) with
  | .tier1, .tier1 => true
  | .tier2, .tier2 => field pa 41 3 == field (pa + len - 1) 41 3 && decide (field (pa + len - 1) 0 41 < mgetD s.cxl (field pa 41 3) 0)
  | _, _ => false

/-- Word 0 of a LINK record. -/
def linkWord (port source : Nat) : Nat := 3 * 2 ^ 60 + port % 16 * 2 ^ 13 + source % 2 ^ 13

/-- Contexts with a log area that a predicate names. -/
def loggingCtxs (s : State) (replay : Bool) : List Nat :=
  (s.ctxs.filter (fun e => match e.2.log with | some l => l.replay == replay && !l.grids.isEmpty | none => false)).map Prod.fst

/-- The name under which the constraint of a link address is lifted. -/
def linkName (offset : Nat) : Nat × Bool := (2 ^ 65 + offset, false)

/-- The first LINK record of a context that binds an inbound write still to come. -/
def nextLink (s : State) (asid : Nat) : Option Nat :=
  match mget s.ctxs asid with
  | none => none
  | some c =>
    match c.log with
    | none => none
    | some l => nextRecord s l (fun i => logType s l i == 3 && !l.lifted.contains (linkName (logWord s l i 1)))

/-- The record is this write's. -/
def linkMatches (s : State) (asid i port source offset : Nat) : Bool :=
  match mget s.ctxs asid with
  | some c => (match c.log with | some l => logWord s l i 0 == linkWord port source && logWord s l i 1 == offset | none => false)
  | none => false

/-- A divergence has lifted the constraint of a link address in a context's replay. -/
def linkLifted (s : State) (asid offset : Nat) : Bool :=
  match (mget s.ctxs asid).bind (fun c => c.log) with | some l => l.lifted.contains (linkName offset) | none => false

/-- A replay performs link writes in logged order: this one has come early, and no divergence has lifted the constraint of its address (R320). -/
def linkHeld (s : State) (port source offset : Nat) : Bool :=
  (loggingCtxs s true).any (fun asid => match nextLink s asid with | some i => !linkMatches s asid i port source offset && !linkLifted s asid offset | none => false)

/-- A link write that is performed is recorded, or its record consumed; data that differs is a divergence; a write at an address whose constraint is lifted consumes none. -/
def logLink (port source offset len : Nat) (bs : List Byte) (s : State) : State :=
  let hash := (hashBytes (bs ++ natToBytes (roundUp len 8 - len) 0)).toNat
  let s1 := (loggingCtxs s false).foldl (fun t asid => logAppend asid (linkWord port source) offset len hash t) s
  (loggingCtxs s true).foldl (fun t asid =>
    match nextLink t asid, mget t.ctxs asid with
    | some i, some c =>
      (match c.log with
       | some l =>
         let t1 := consume asid i t
         if ¬ linkMatches t asid i port source offset then t
         else if logWord t l i 3 = hash then t1 else diverge asid 3 offset hash (logWord t l i 3) (linkName offset) t1
       | none => t)
    | _, _ => t) s1

/-- LINK_INBOUND_ACCESS: performed through the inbound window that the offset selects, or dropped and counted; a read of data that is lost is answered as uncorrectable (R306). -/
def execLinkInboundAccess (port source offset len : Nat) (write : Option Nat) (s : State) : Result :=
  let s0 := wake s
  let x := inwAt s (field offset 38 4)
  let pa := field x 16 40 * 65536 + field offset 0 38
  if ¬ bitAt x 63 ∨ (write.isSome ∧ ¬ bitAt x 62) ∨ len = 0 ∨ ¬ localRange s pa len then
    let t := { s0 with pf := { s0.pf with cnt3108 := s0.pf.cnt3108 + 1 } }
    match write with
    | some _ => .next t
    | none => .next (emit (.answer (allOnesBytes len)) t)
  else match write with
    | some d =>
      if linkHeld s port source offset then .next s0
      else .next (logLink port source offset len (natToBytes len d) (physPut pa (natToBytes len d) s0))
    | none => .next (emit (if (lostIn s pa len).isSome then .uncorrectable else .answer (physBytes s pa len)) s0)

end Sys2Proof.Machine
end

