-- ==== Sys2Proof/Machine/Recovery.lean ====
section
/-! DEFINITION. Recovery beyond the package (R316, R317, R320 to R328): freezing, scan and reset, the watchdog, replay timeouts, rings on Tirten Links, and idle levels. -/
namespace Sys2Proof.Machine

/-! ### BRAKE, scan, reset (R316, R317, R327) -/

def execBrakeN (s : State) : Result := .next (freeze s)
def execFreezeCommand (s : State) : Result := .next (freeze s)
def execBrk (s : State) : Result := .next (freeze s)

/-- BRAKE_FLIT: link traffic, which wakes the package (R328); accepted from a trained port while FWD = 1. -/
def execBrakeFlit (port : Nat) (s : State) : Result :=
  if (mget s.links port).map (fun l => l.trained) = some true then .next (if s.pf.fwd then freeze (wake s) else wake s) else .next s

/-- A list behind its length, so that what follows it is told apart from it. -/
def listed (l : List Nat) : List Nat := l.length :: l

/-- A map as numbers: how many entries, and each with its key. -/
def numbersOf {α : Type} (m : AMap α) (f : α → List Nat) : List Nat := m.length :: m.flatMap (fun e => e.1 :: listed (f e.2))

/-- Something that may be absent. -/
def maybe {α : Type} (x : Option α) (f : α → List Nat) : List Nat := listed ((x.map f).getD [])

/-- What an operation of a store queue or side log holds: the operation, its places and operands, and the data to be stored (R124). -/
def opWords : MemOp → List Nat
  | .store ps => 0 :: piecesWords ps
  | .journal r i ps => 1 :: r :: i :: piecesWords ps
  | .atom ret op size _ lanes => 2 :: (if ret then 1 else 0) :: op :: size :: lanes.flatMap (fun l => [l.lane, l.addr, l.tag, l.b, l.cmp])
  | .tagset ws => 3 :: ws.flatMap (fun w => [w.1, w.2.1, w.2.2])
  | .tagRange a n t => [4, a, n, t]
  | .clean a n t inv => [5, a, n, t, if inv then 1 else 0]
  | .sts a x => [6, a, x.toNat]
  | .lds a _ => [7, a]
  | .push q x => [8, q, x.toNat]
  | .qinit q x => [9, q, x.toNat]
  | .dcdec c => [10, c]
  | .dcset c x => [11, c, x.toNat]
where
  piecesWords (ps : List Piece) : List Nat := ps.flatMap (fun p => p.lane :: p.addr :: p.tag :: listed (p.data.map (fun b => b.toNat)))

/-- The registers of a wave that a program reads with the special-register words (R107, R111). -/
def specialWords (w : Wave) : List Nat :=
  [w.phaseVal.toNat, w.trapVec.toNat, if w.trapSt then 1 else 0, w.tierMiss.toNat, w.backoff] ++
    [w.trec.w0, w.trec.w1, w.trec.w2, w.trec.w3, w.trec.w4, w.trec.w5].map (fun x => x.toNat)

/-- Core n: registers and full bits, resume points with their POLL counts and arrival bits (R25), outstanding counters, store queues and side logs with the words of their entries (R124), reservation records, accumulator tiles with their bindings. -/
def coreScan (s : State) (n : Nat) : List Nat :=
  let bs := s.blocks.filter (fun b => b.2.core == some n)
  numbersOf bs (fun b => numbersOf b.res (fun r => [recordWord r]) ++ numbersOf b.tiles (fun x => [x.toNat]) ++ listed b.bound) ++
    numbersOf (s.waves.filter (fun w => bs.any (fun b => b.1 == w.2.blk))) (fun w =>
      let p := resumeInfo w
      numbersOf w.s (fun x => [x.toNat]) ++ numbersOf w.k (fun x => [x.toNat]) ++ numbersOf w.v (fun x => [x.toNat]) ++
        listed w.sE ++ listed w.kE ++ listed w.vE ++ specialWords w ++
        [p.pc.toNat, p.iter, p.ix, failsOf w, if w.arv then 1 else 0, w.oc.cpy, w.oc.mtx, w.oc.gat, w.oc.st, w.mq.length] ++
        w.mq.flatMap (fun e => (if e.logged then 1 else 0) :: e.no :: e.info.pc.toNat :: e.info.ix :: listed (opWords e.op)))

/-- The kind of a placement request. -/
def reqCode : ReqKind → Nat
  | .start _ => 0
  | .resume _ => 1
  | .back _ => 2
  | .slot _ => 3

/-- Who sent a held push. -/
def senderWords : Sender → List Nat
  | .wave k n => [0, k, n]
  | .tailrace die => [1, die]
  | .lovage => [2]

/-- A barrier: its generation, what the last one elected, and the members arrived. -/
def barWords (b : Bar) : List Nat := b.gen :: b.elected :: b.arrived

/-- A phase record as Quern queues it: its condition, its generation, the value delivered and the waves it resumes. -/
def phaseWords (r : PhaseRec) : List Nat :=
  (if r.inv then 1 else 0) :: r.gen :: maybe r.cond (fun p => [p.ck, if p.cge then 1 else 0, if p.w32 then 1 else 0, p.ca.toNat, p.cval.toNat]) ++
    maybe r.rval (fun x => [x.toNat]) ++ listed (r.waves.map (fun w => w.idx))

/-- Base die b: the A buffers of its cores with the full/empty bits of their lines (R8), their W buffers, near-cache lines with their bytes and dirty bits, the placement queue and landing slots. -/
def dieScan (s : State) (b : Nat) : List Nat :=
  numbersOf (s.blocks.filter (fun x => match x.2.core with | some n => dieOf n == b | none => false)) (fun x =>
      (if x.life == .reserved || x.life == .landed then 1 else 0) :: numbersOf x.a (fun y => [y.toNat]) ++ listed x.aE ++ numbersOf x.res (fun r => numbersOf r.bytes (fun y => [y.toNat]))) ++
    listed ((s.near.filter (fun e => homeOf (e.1 * 128) == b)).flatMap (fun e => e.1 :: (if e.2 then 1 else 0) :: (physBytes s (e.1 * 128) 128).map (fun y => y.toNat))) ++ numbersOf s.placeQ (fun r => reqCode r.kind :: r.gid :: r.prio :: r.entered :: r.kind.blocks)

/-- Base die b: Quern's words, queues, waiter lists and held pushes; its barriers and the phase records queued on it. DEDUCED (log 6): a barrier and a record without a sync address are read with every base die's Quern. -/
def quernScan (s : State) (b : Nat) : List Nat :=
  numbersOf s.ctxs (fun c =>
    numbersOf (c.sync.filter (fun e => homeOf e.1 == b)) (fun x => [x.toNat]) ++
      numbersOf (c.queues.filter (fun e => homeOf e.1 == b)) (fun q =>
        q.cap :: listed (q.items.map (fun x => x.toNat)) ++ listed (q.waiters.flatMap (fun w => [w.1, w.2])) ++ listed (q.held.flatMap (fun h => senderWords h.1 ++ [h.2.toNat])))) ++
    numbersOf s.blocks (fun x => numbersOf x.bars barWords ++ numbersOf x.cArr id) ++
    numbersOf s.grids (fun g => numbersOf g.cbars barWords ++ numbersOf g.gbar barWords) ++
    numbersOf (s.phaseQ.filter (fun e => match e.2.cond.bind phaseOperand with | some (a, _, _) => homeOf a == b | none => true)) phaseWords

/-- One operation of a LUN. -/
def lunWords : LunOp → List Nat
  | .read bk => [0, bk]
  | .program die page => [1, die, page]
  | .erase page => [2, page]

/-- Base die b: the LUNs' state, rungs, accepted codewords and operations, the targets given up, the journals at Lovage, the Tailrace queue. -/
def storeScan (s : State) (b : Nat) : List Nat :=
  numbersOf (s.luns.filter (fun e => e.1 % 64 / 16 == b)) (fun l =>
      [if l.attached then 1 else 0, l.rung, l.retry, l.accepted.toNat, if l.timedOut then 1 else 0, l.since, l.ops.length] ++ l.ops.flatMap lunWords) ++
    listed (s.deadTargets.filter (fun t => t % 64 / 16 == b)) ++
    numbersOf s.ctxs (fun c => numbersOf (c.regions.filter (fun e => homeOf e.1 == b)) (fun r =>
      r.entries.flatMap (fun e => [e.id, e.core, e.slot, e.wave, if e.written then 1 else 0] ++ maybe e.step (fun x => [x.toNat])))) ++
    maybe (mget s.tail b) (fun q => listed q.queue ++ maybe q.now (fun w => w.page :: w.unit :: w.left :: w.fresh))

/-- A ring: its members, its neighbours, its slots, and its control block. -/
def ringWords (c : Ctx) (ctl : Nat) (r : Ring) : List Nat :=
  [r.pos, r.nm, r.tmo, r.next, r.prev, r.rbb, r.rsz, r.sent, r.others, r.theirs, r.since, if r.fresh then 1 else 0] ++ (List.range 8).map (fun i => (syncWord c (ctl + 8 * i)).toNat)

/-- Port p: the state of its Tirten Link and CXL links, and the rings. -/
def portScan (s : State) (p : Nat) : List Nat :=
  maybe (mget s.links p) (fun l => [if l.trained then 1 else 0, l.package]) ++ [mgetD s.cxl p 0] ++
    numbersOf s.ctxs (fun c => listed <| c.rings.flatMap (fun e => e.1 :: ringWords c e.1 e.2))

/-- What the frozen state holds for a unit code; none: no such unit. -/
def scanState (s : State) (unit index : Nat) : Option (List Nat) :=
  match unit with
  | 1 => if index < 768 then some (coreScan s index) else none
  | 2 => if index < 4 then some (dieScan s index) else none
  | 3 => if index < 4 then some (quernScan s index) else none
  | 4 => if index < 4 then some (storeScan s index) else none
  | 5 => if index < 16 then some (portScan s index) else none
  | _ => none

/-- SCAN_READ: the management port reads a wave's breakpoint counter at any time (R112, R296), and of a frozen package up to 1,024 bytes of a unit's state. The layout is not given: each byte is a free value that the unit's state and the byte's offset fix (log 6). Read-out changes nothing. -/
def execScanRead (unit : MgmtRead) (index offset len : Nat) (s : State) : Result :=
  match unit with
  | .breakpoints => .next (emit (.answer (natToBytes 8 (((mget s.waves index).map (fun w => w.bkpts)).getD 0))) s)
  | .unit code =>
    match scanState s code index with
    | none => .next s
    | some x =>
      if s.frozen then .next (emit (.scan code index offset ((List.range (min len 1024)).map (fun j => Config.scanByte (code :: index :: x) (offset + j)))) s)
      else .next s

/-- PACKAGE_RESET: the package as after reset; firmware starts from the image last accepted. What lies outside the package stays: the flash cards, the memory behind the CXL ports and the host's. -/
def execPackageReset (s : State) : Result :=
  .next { State.reset with
    sched := s.sched
    ctxTab := s.ctxTab.filter (fun e => decide (0x8000000000 ≤ e.1 * 8))
    fw := { State.reset.fw with image := s.fw.accepted.getD s.fw.image }
    mem := s.mem.filter (fun e => decide (0x8000000000 ≤ e.1))
    spoilt := s.spoilt.filter (fun g => decide (0x8000000000 ≤ g * 32))
    luns := s.luns.map (fun e => (e.1, { dfltLun with attached := e.2.attached }))
    nand := s.nand
    programmed := s.programmed
    silent := s.silent
    out := s.out }

/-! ### The watchdog (R326, R327) -/

def execFire (s : State) : Result := .next (fireWatchdog { s with pf := { s.pf with fire := true } })

/-- WATCHDOG_TIMEOUT: KICK has not changed for 1 s of the tick counter. -/
def execWatchdogTimeout (s : State) : Result :=
  if ¬ s.fw.halted ∧ s.fw.kickAt + 1000000000 ≤ s.time.ticks.toNat then .next (fireWatchdog s) else .next s

/-- FIRMWARE_IMAGE: after the watchdog has fired, one image is accepted through the management port. -/
def execFirmwareImage (image : Nat) (s : State) : Result :=
  if s.fw.halted ∧ s.fw.accepted.isNone then .next { s with fw := { s.fw with accepted := some image } } else .next s

/-! ### Replay (R320) -/

/-- The tick from which the next logged operation of an address is awaited: its last one, or the replay's begin. -/
def awaitedSince (l : LogArea) (same : Nat → Bool) : Nat :=
  l.used.foldl (fun t i => if same i then max t (mgetD l.stamps i 0) else t) l.began

/-- REPLAY_TIMEOUT: the next logged operation of an address has not arrived within 1 s: one of Quern on a sync or global address, or else a link write at an inbound address; each waits for its own. What was observed in its place is a free value (log 6). -/
def execReplayTimeout (asid address : Nat) (global : Bool) (s : State) : Result :=
  match mget s.ctxs asid with
  | none => .next s
  | some c =>
    match c.log with
    | none => .next s
    | some l =>
      let quern := fun (i : Nat) => logType s l i == 4 && logWord s l i 1 == address && (decide (2 ^ 63 ≤ logWord s l i 2) == global)
      let link := fun (i : Nat) => logType s l i == 3
      let late := fun (same : Nat → Bool) => decide (awaitedSince l same + 1000000000 ≤ s.time.ticks.toNat)
      let lateQuern := if l.lifted.contains (address, global) ∨ ¬ late quern then none else nextRecord s l quern
      let lateLink := if global ∨ ¬ late link then none else (nextLink s asid).filter (fun i => logWord s l i 1 == address)
      if ¬ l.replay ∨ l.grids.isEmpty then .next s
      else match lateQuern, lateLink with
        | some i, _ => .next (drawn (diverge asid 4 address (freeWord s).toNat (logWord s l i 3) (address, global) s))
        | none, some i => .next (drawn (diverge asid 3 address (freeWord s).toNat (logWord s l i 3) (linkName address) s))
        | none, none => .next s

/-! ### Rings (R321 to R324) -/

/-- A ring descriptor. -/
structure RingDesc where
  v : Bool
  pos : Nat
  nm : Nat
  tmo : Nat
  next : Nat
  prev : Nat
  rbb : Nat
  rsz : Nat
  ctl : Nat
  zero : Bool

def ringDesc (ws : List Word64) : RingDesc :=
  let x := descWord ws
  { v := bitAt (x 0) 63, pos := field (x 0) 45 13, nm := field (x 0) 32 13 + 1, tmo := field (x 0) 0 32
    next := field (x 1) 13 13, prev := field (x 1) 0 13, rbb := x 2, rsz := field (x 3) 0 32, ctl := x 4
    zero := field (x 0) 58 5 == 0 && field (x 1) 26 38 == 0 && field (x 3) 32 32 == 0 && [5, 6, 7].all (fun i => x i == 0) }

/-- A package is reachable over a trained port. -/
def reachable (s : State) (p : Nat) : Bool := s.links.any (fun e => e.2.trained && e.2.package == p)

/-- Every unit of a range is a tier 1 leaf of the context. -/
def onTier1 (s : State) (asid : Nat) (c : Ctx) (addr len : Nat) : Bool :=
  (units addr len).all (fun u => match xlate s asid (rootOf c) u.1 with | .ok _ x _ _ => leafTier x == 0 | _ => false)

/-- R321's conditions on a descriptor. -/
def ringOk (s : State) (asid : Nat) (c : Ctx) (d : RingDesc) : Bool :=
  d.v && d.zero && decide (2 ≤ d.nm) && decide (d.pos < d.nm) && decide (1 ≤ d.tmo) && decide (d.tmo ≤ 60000) && d.rbb % 4096 == 0 &&
    d.rsz % 4096 == 0 && decide (d.rsz ≤ 2 ^ 30) && d.ctl % 64 == 0 && inSync c d.ctl 64 && reachable s d.next && reachable s d.prev &&
    onTier1 s asid c (ptrAddr d.rbb) (6 * d.rsz)

/-- Write words of a control block as one Quern operation. -/
def ctlWrite (asid ctl : Nat) (ws : List (Nat × Nat)) (s : State) : State :=
  wakePhases asid (modCtx asid (fun c => { c with sync := ws.foldl (fun m w => mset 0 m (ctl + w.1) (BitVec.ofNat 64 w.2)) c.sync }) s)

def ctlWord (s : State) (asid ctl off : Nat) : Nat := (match mget s.ctxs asid with | some c => (syncWord c (ctl + off)).toNat | none => 0)

/-- SENT, ACK, RECV, AREV, STATE. -/
def ringSent (s : State) (asid ctl : Nat) : Nat := field (ctlWord s asid ctl 0) 0 32
def ringAck (s : State) (asid ctl : Nat) : Nat := field (ctlWord s asid ctl 8) 0 32
def ringRecv (s : State) (asid ctl : Nat) : Nat := field (ctlWord s asid ctl 0x10) 0 32
def ringArev (s : State) (asid ctl : Nat) : Nat := field (ctlWord s asid ctl 0x18) 0 32
def ringState (s : State) (asid ctl : Nat) : Nat := field (ctlWord s asid ctl 0x20) 62 2

def modRing (asid ctl : Nat) (f : Ring → Ring) (s : State) : State :=
  modCtx asid (fun c => { c with rings := match mget c.rings ctl with | some r => mput c.rings ctl (f r) | none => c.rings }) s

/-- Form a closed ring, or set a rewound one going again with its kept slots to be resent; what the others acknowledged before a rewind counts up to AREV, since one of them may have been replaced (R322, R324). -/
def formRing (asid : Nat) (d : RingDesc) (s : State) : State :=
  let st := ringState s asid d.ctl
  let old := if st = 2 then (mget s.ctxs asid).bind (fun c => mget c.rings d.ctl) else none
  let a := ringArev s asid d.ctl
  let r : Ring := { pos := d.pos, nm := d.nm, tmo := d.tmo, next := d.next, prev := d.prev, rbb := d.rbb, rsz := d.rsz
                    sent := if st = 2 then a else 0, others := if st = 2 then a else 0, theirs := (old.map (fun r => r.theirs)).getD 0, since := s.time.ticks.toNat
                    fresh := decide (st ≠ 2) }
  let s1 := modCtx asid (fun c => { c with rings := mput c.rings d.ctl r }) s
  if st = 2 then ctlWrite asid d.ctl [(0x10, ringRecv s asid d.ctl), (0x20, 2 ^ 62 + ctlWord s asid d.ctl 0x20 % 2 ^ 62)] s1
  else ctlWrite asid d.ctl [(0, 0), (8, 0), (0x10, 0), (0x18, 0), (0x20, 2 ^ 62), (0x28, 0), (0x30, 0), (0x38, 0)] s1

/-- The descriptor is 64-byte aligned, in tier 1 memory of the context, and read as a load of it; a running ring is not formed anew. -/
def runRing (asid : Nat) (s : State) : State :=
  match mget s.ctxs asid with
  | none => finishCmd 1 s
  | some c =>
    if s.pf.runA % 64 ≠ 0 ∨ ¬ onTier1 s asid c (ptrAddr s.pf.runA) 64 then finishCmd 1 s
    else match lovageRead asid s.pf.runA 64 s with
      | .ok bs t =>
        let d := ringDesc (wordsOf 8 bs)
        if ringOk t asid c d ∧ ringState t asid d.ctl ≠ 1 then finishCmd 0 (formRing asid d t) else finishCmd 1 t
      | .fail _ t => finishCmd 1 t
      | .pending => finishCmd 1 s

/-- RING. -/
def execRing (asid : Nat) (s : State) : Result := startCmd 6 asid (service (runRing (asid % 4096))) s

/-- A ring that runs, with its context. -/
def runningRing (s : State) (asid ctl : Nat) : Option (Ctx × Ring) :=
  match mget s.ctxs asid with
  | none => none
  | some c => if ringState s asid ctl = 1 then (mget c.rings ctl).map (fun r => (c, r)) else none

/-- RING_SEND: the next revolution whose send slot is filled goes to NEXT; it is link traffic, which wakes the package (R328). -/
def execRingSend (asid ctl : Nat) (s : State) : Result :=
  match runningRing s asid ctl with
  | none => .next s
  | some (_, r) =>
    let n := r.sent + 1
    if ringSent s asid ctl < n ∨ ¬ reachable s r.next then .next s
    else
      let go := fun (bs : List Byte) (t : State) => Host.Outcome.next (emit (.revolution r.next n bs) (modRing asid ctl (fun r => { r with sent := n }) (wake t)))
      if r.rsz = 0 then go [] s
      else match lovageRead asid (ptrPlus r.rbb (n % 3 * r.rsz)) r.rsz s with
        | .ok bs t => go bs t
        | .fail _ t => .next t
        | .pending => .next s

/-- REVOLUTION_RECEIVED: a revolution's data is stored in its receive slot, checked in the ring's context, and RECV is raised to it once all of it is. A write that was in flight at the last rewind is never counted (R324). Of the others it is the revolution after RECV, but that a member which RING has formed on a closed ring takes the first one it is sent, whatever its number (log 36). -/
def execRevolutionReceived (asid ctl : Nat) (revolution : Incoming) (data : List Byte) (s : State) : Result :=
  let s0 := wake s
  match runningRing s0 asid ctl with
  | none => .next s0
  | some (_, r) =>
    let n := revolution.no
    if revolution.old ∨ n = 0 ∨ data.length ≠ r.rsz ∨ ¬ (r.fresh ∨ n = ringRecv s asid ctl + 1) then .next s0
    else
      let go := fun (t : State) => Host.Outcome.next (ctlWrite asid ctl [(0x10, max (ringRecv s asid ctl) (n % 2 ^ 32))] (modRing asid ctl (fun r => { r with fresh := false }) t))
      if r.rsz = 0 then go s0
      else match lovageWrite asid (ptrPlus r.rbb ((3 + n % 3) * r.rsz)) data s0 with
        | .ok _ t => go t
        | .fail _ t => .next t
        | .pending => .next s0

/-- AREV_ADVANCE: link traffic: the lowest ACK and the highest SENT of the other members as the ring has brought them; AREV is the lowest ACK over every member, this one's included. -/
def execArevAdvance (asid ctl : Nat) (news : RingNews) (s : State) : Result :=
  let s0 := wake s
  match runningRing s0 asid ctl with
  | none => .next s0
  | some (_, r) =>
    let others := max r.others news.ack
    let low := min others (ringAck s asid ctl)
    let s1 := modRing asid ctl (fun r => { r with others := others, theirs := max r.theirs news.sent }) s0
    if low > ringArev s asid ctl then
      .next (ctlWrite asid ctl [(0x18, low % 2 ^ 32)] (modRing asid ctl (fun r => { r with since := s.time.ticks.toNat }) s1))
    else .next s1

/-- A survivor rewinds to AREV, as one Quern operation, and tells the serving function (R324). -/
def rewind (asid ctl cause position : Nat) (s : State) : State :=
  match runningRing s asid ctl with
  | none => s
  | some _ =>
    let a := ringArev s asid ctl
    raiseVector asid 1
      (ctlWrite asid ctl [(0x10, 2 ^ 63 + a), (0x20, 2 * 2 ^ 62 + cause % 64 * 2 ^ 56 + position % 2 ^ 13 * 2 ^ 32 + a)] s)

/-- A detection is passed on to the other members: link traffic, which wakes the package (R328). -/
def detect (asid ctl cause position : Nat) (s : State) : State :=
  match runningRing s asid ctl with
  | none => s
  | some _ => emit (.notify 3 ctl) (rewind asid ctl cause position (wake s))

/-- RING_STALL_TIMEOUT: AREV has not advanced for TMO ms while some member's SENT exceeds it; which member failed is a free value (log 6). -/
def execRingStallTimeout (asid ctl : Nat) (s : State) : Result :=
  match runningRing s asid ctl with
  | none => .next s
  | some (c, r) =>
    if s.time.ticks.toNat < r.since + r.tmo * 1000000 ∨ ¬ sentAhead c ctl r then .next s
    else .next (drawn (detect asid ctl 1 ((freeWord s).toNat % r.nm) s))

/-- LINK_FAILURE: rings whose neighbour lies behind the port rewind with cause 4. -/
def execLinkFailure (port : Nat) (s : State) : Result :=
  match mget s.links port with
  | none => .next s
  | some l =>
    let s1 := { s with links := mput s.links port { l with trained := false } }
    if ¬ l.trained then .next s1
    else
      .next (s1.ctxs.foldl (fun t c => c.2.rings.foldl (fun u r =>
        if r.2.next = l.package then detect c.1 r.1 4 ((r.2.pos + 1) % r.2.nm) u
        else if r.2.prev = l.package then detect c.1 r.1 4 ((r.2.pos + r.2.nm - 1) % r.2.nm) u
        else u) t) s1)

/-- RING_FAILURE_NOTICE: a neighbour reports a teardown or BRAKE (2), or a reset (3). -/
def execRingFailureNotice (asid ctl cause position : Nat) (s : State) : Result :=
  if cause = 2 ∨ cause = 3 then .next (detect asid ctl cause position (wake s)) else .next s

/-- DETECTION_BY_ANY_MEMBER: every survivor rewinds. -/
def execDetectionByAnyMember (asid ctl cause position : Nat) (s : State) : Result :=
  if 1 ≤ cause ∧ cause ≤ 4 then .next (rewind asid ctl cause position (wake s)) else .next s

/-- LINK_TRAINED: one of the 16 ports reaches a package. -/
def execLinkTrained (port package : Nat) (s : State) : Result :=
  if port < 16 then .next (wake { s with links := mput s.links port { trained := true, package := package % 2 ^ 13 } }) else .next s

/-! ### Idle levels (R328) -/

/-- Exit latency of a level, in µs. -/
def exitLatency (level : Nat) : Nat :=
  match level with
  | 0 => 1
  | 1 => 10
  | 2 => 200
  | 3 => 2000
  | _ => 50000

/-- The deepest level that a tolerance admits; I0 at least. -/
def deepestLevel (tolerance : Nat) : Nat := ([4, 3, 2, 1].find? (fun l => decide (exitLatency l ≤ tolerance))).getD 0

/-- No wave is resident, which also leaves no engine operation in flight; no placement request is queued; no flash or Tailrace operation and no append, filing, gather or fetch of Lovage is in flight. -/
def packageIdle (s : State) : Bool :=
  s.blocks.all (fun e => !(e.2.life == .running)) && s.placeQ.isEmpty && s.luns.all (fun e => e.2.ops.isEmpty) &&
    s.tail.all (fun e => e.2.now.isNone && e.2.queue.isEmpty) &&
    s.ctxs.all (fun c => c.2.regions.all (fun r => r.2.ksteps.isEmpty && r.2.readers == 0 && r.2.entries.all (fun e => e.step.isSome)))

/-- IDLE_ENTRY: an idle package enters the deepest level the tolerance admits; from I3 on the near cache is written back and off. -/
def execIdleEntry (s : State) : Result :=
  if packageIdle s then
    let l := deepestLevel s.pf.latency
    .next { s with idle := l, near := if l ≥ 3 then [] else s.near }
  else .next s

/-- IDLE_WAKE_TIMER: a CK 5 record wakes the package one exit latency before its tick count. -/
def execIdleWakeTimer (s : State) : Result :=
  if s.phaseQ.any (fun e => match e.2.cond with
      | some p => p.ck == 5 && e.2.rval.isNone && decide (p.cval.toNat ≤ s.time.ticks.toNat + exitLatency s.idle * 1000)
      | none => false) then .next (wake s) else .next s

end Sys2Proof.Machine
end

