-- ==== Sys2Proof/Machine/Registers.lean ====
section
/-! DEFINITION. Registers without a row of their own (R272, R290, R292, R306, R316, R326, R328): the physical function's and the virtual functions' windows, the context table, and what firmware may attempt. -/
namespace Sys2Proof.Machine

/-! ### The physical function's window (R290) -/

/-- The command that a write of GO = 1 starts (R291). -/
def startOp (op asid : Nat) (s : State) : Result :=
  match op with
  | 1 => execLoad asid s
  | 2 => execInval asid s
  | 3 => execTeardown asid s
  | 4 => execGrant asid s
  | 5 => execErase asid s
  | 6 => execRing asid s
  | 7 => execReclog asid s
  | _ => execPfUnassigned op asid s

/-- One half of a partition table entry is written, the other keeping what it last held. -/
def writePart (p half x : Nat) (s : State) : Result :=
  let q := partAt s p
  let mask := writtenMask q
  if half = 0 then execPartitionTableWrite p x ((if q.v then 2 ^ 63 else 0) + q.vf * 2 ^ 32 + field mask 64 32) s
  else execPartitionTableWrite p (field mask 0 64) x s

/-- An offset beyond the single registers: a table entry or an inbound window. -/
def writeTables (offset x : Nat) (s : State) : Result :=
  if offset % 8 ≠ 0 then .next s
  else if 0x100 ≤ offset ∧ offset < 0x200 then writePart (offset / 16 % 16) (offset / 8 % 2) x s
  else if 0x1000 ≤ offset ∧ offset < 0x3000 then execQuantumTableWrite ((offset - 0x1000) / 512) (offset / 8 % 64) x s
  else if 0x3000 ≤ offset ∧ offset < 0x3080 then
    .next { s with pf := { s.pf with inw := mset 0 s.pf.inw ((offset - 0x3000) / 8) (BitVec.ofNat 64 x) } }
  else .next s

/-- A write to the physical function's window; a lowered tolerance leaves a level it no longer admits at once (R328); registers it does not name and read-only fields keep their values. -/
def writePf (offset x : Nat) (s : State) : Result :=
  let p := s.pf
  match offset with
  | 0x000 => .next { s with pf := { p with ctxb := field x 18 38 * 2 ^ 18 } }
  | 0x008 => .next { s with pf := { p with cmda := x } }
  | 0x010 => .next { s with pf := { p with cmdl := field x 0 32 } }
  | 0x018 =>
    if p.go then .next s
    else if bitAt x 63 then startOp (field x 16 4) (field x 0 12) s
    else .next { s with pf := { p with op := field x 16 4, asid := field x 0 12 } }
  | 0x3200 => .next { s with pf := { p with tbb := field x 29 27 * 2 ^ 29 } }
  | 0x3300 =>
    let t := { s with pf := { p with onwd := bitAt x 2, fwd := bitAt x 1 } }
    .next (if bitAt x 0 then freeze t else t)
  | 0x3308 => if bitAt x 0 then execFire s else .next s
  | 0x3310 => .next { s with pf := { p with fwwin := field x 0 56 } }
  | 0x3318 => .next { s with pf := { p with latency := field x 0 32 }, idle := min s.idle (deepestLevel (field x 0 32)) }
  | _ => writeTables offset x s

/-! ### A virtual function's window (R292, R293) -/

/-- A write to a virtual function's window (R292): the rings' base and size restart the counts of entries; completions held back are written while there is room. DESIGN CHOICE (log 59): the write of LRB, or of the whole register at 0x08, restarts the fetch count with the completion count; that of LRB keeps the tail, so that the entries up to it are fetched from the new ring with no further tail write; completions held back are kept, and written into the restarted ring; CRH stays as it was. -/
def writeVf (n offset x : Nat) (s : State) : State :=
  let v := vfAt s n
  let put := fun (v : Vf) => { s with vfs := mput s.vfs n v }
  match offset with
  | 0x00 => releaseHeld n v.held (put { v with lrb := x / 64 * 64, fetched := 0, written := 0 })
  | 0x08 => releaseHeld n v.held (put { v with lrs := field x 0 5, tail := field x 32 32, fetched := 0, written := 0 })
  | 0x10 => put { v with crb := x / 64 * 64 }
  | 0x18 => releaseHeld n v.held (put { v with crh := field x 0 32 })
  | 0x20 => put { v with win := field x 0 12 }
  | _ => s

/-! ### Firmware's bounds (R289, R326) -/

/-- An attempt beyond a bound is dropped, and counted. -/
def beyond (s : State) : State := { s with pf := { s.pf with cnt3330 := s.pf.cnt3330 + 1 } }

/-- The host addresses of FWWIN. -/
def inFwwin (s : State) (addr len : Nat) : Bool :=
  let base := field s.pf.fwwin 16 40 * 65536
  decide (base ≤ addr) && decide (addr + len ≤ base + field s.pf.fwwin 0 16 * 65536)

/-- A message: at most 1,000 a second on each channel. One on a link port is link traffic, which wakes the package (R328). -/
def fwMessage (channel value : Nat) (s : State) : State :=
  let now := s.time.ticks.toNat
  let recent := (mgetD s.fw.msgs channel []).filter (fun t => decide (now < t + 1000000000))
  if recent.length ≥ 1000 then beyond s
  else emit (.notify (8 + channel) value) { (if 1 ≤ channel ∧ channel ≤ 16 then wake s else s) with fw := { s.fw with msgs := mput s.fw.msgs channel (recent ++ [now]) } }

/-- What the CXL decoders would serve in all, port p's with a capacity. -/
def servedBytes (s : State) (p cap : Nat) : Nat := (mput s.cxl p cap).foldl (fun n e => n + e.2) 0

/-- What firmware attempts, within its bounds; halted firmware attempts nothing (R327). No decoder is programmed to its port's whole window, which is larger than its memory, or beyond the package's total of 16,384 GB (R11, R289); power and clock are only ever lowered; of a context's memory it reaches the queue and doorbell set-up that a GRANT names, and which bytes those are is a free value (log 28). -/
def fwAttempt (act : FwAct) (offset value : Nat) (s : State) : State :=
  if s.fw.halted then s
  else match act with
    | .kick =>
      if s.pf.kick = BitVec.ofNat 32 value then s
      else { s with pf := { s.pf with kick := BitVec.ofNat 32 value }, fw := { s.fw with kickAt := s.time.ticks.toNat } }
    | .host len => if inFwwin s offset len then physPut (hostPa offset) (natToBytes len value) s else beyond s
    | .message channel => fwMessage channel value s
    | .context asid requester len =>
      if mget s.grants requester = some asid ∧ (List.range len).all (fun j => Config.grantSetUp asid requester (ptrAddr offset + j)) then
        (match inbound s asid (ptrAddr offset) len true with
         | some c => performInbound asid (ptrAddr offset) len (some value) c (wake s)
         | none => beyond (noteInbound asid (ptrAddr offset) len true s))
      else beyond s
    | .power => if value ≤ s.fw.power then { s with fw := { s.fw with power := value } } else beyond s
    | .clock => if value ≤ s.fw.clock then { s with fw := { s.fw with clock := value } } else beyond s
    | .decoder port =>
      if port < 8 ∧ value < 2 ^ 41 ∧ servedBytes s port value ≤ 16384 * 10 ^ 9 then { s with cxl := mset 0 s.cxl port value } else s

/-- REGISTER_WRITE. -/
def execRegisterWrite (space : RegSpace) (offset value : Nat) (s : State) : Result :=
  match space with
  | .pf => writePf offset (value % 2 ^ 64) s
  | .vf n => .next (writeVf n offset (value % 2 ^ 64) s)
  | .contextTable =>
    .next { s with ctxTab := mset 0 s.ctxTab (s.pf.ctxb / 8 + offset % 2 ^ 18 / 8) (BitVec.ofNat 64 value) }
  | .firmware act => .next (fwAttempt act offset (value % 2 ^ 64) s)

end Sys2Proof.Machine
end

