-- ==== Sys2Proof/Machine/Dispatch.lean ====
section
/-! DEFINITION. One arm for every constructor of Instr: its meaning. -/
namespace Sys2Proof.Machine

def exec (i : Instr) (s : State) : Host.Outcome State Fault Refusal :=
  match i with
  | .add x => Sys2Proof.Machine.execAdd x s
  | .sub x => Sys2Proof.Machine.execSub x s
  | .adds x => Sys2Proof.Machine.execAdds x s
  | .subs x => Sys2Proof.Machine.execSubs x s
  | .mul x => Sys2Proof.Machine.execMul x s
  | .mulh x => Sys2Proof.Machine.execMulh x s
  | .mad x => Sys2Proof.Machine.execMad x s
  | .abs x => Sys2Proof.Machine.execAbs x s
  | .min x => Sys2Proof.Machine.execMin x s
  | .max x => Sys2Proof.Machine.execMax x s
  | .and x => Sys2Proof.Machine.execAnd x s
  | .or x => Sys2Proof.Machine.execOr x s
  | .xor x => Sys2Proof.Machine.execXor x s
  | .andn x => Sys2Proof.Machine.execAndn x s
  | .shl x => Sys2Proof.Machine.execShl x s
  | .shr x => Sys2Proof.Machine.execShr x s
  | .sar x => Sys2Proof.Machine.execSar x s
  | .rol x => Sys2Proof.Machine.execRol x s
  | .clz x => Sys2Proof.Machine.execClz x s
  | .popc x => Sys2Proof.Machine.execPopc x s
  | .brev x => Sys2Proof.Machine.execBrev x s
  | .bfx x => Sys2Proof.Machine.execBfx x s
  | .bfi x => Sys2Proof.Machine.execBfi x s
  | .mov x => Sys2Proof.Machine.execMov x s
  | .lea x => Sys2Proof.Machine.execLea x s
  | .padd x => Sys2Proof.Machine.execPadd x s
  | .divu x => Sys2Proof.Machine.execDivu x s
  | .remu x => Sys2Proof.Machine.execRemu x s
  | .sel x => Sys2Proof.Machine.execSel x s
  | .hmix x => Sys2Proof.Machine.execHmix x s
  | .fadd x => Sys2Proof.Machine.execFadd x s
  | .fsub x => Sys2Proof.Machine.execFsub x s
  | .fmul x => Sys2Proof.Machine.execFmul x s
  | .fma x => Sys2Proof.Machine.execFma x s
  | .fmin x => Sys2Proof.Machine.execFmin x s
  | .fmax x => Sys2Proof.Machine.execFmax x s
  | .fabs x => Sys2Proof.Machine.execFabs x s
  | .fneg x => Sys2Proof.Machine.execFneg x s
  | .frnd x => Sys2Proof.Machine.execFrnd x s
  | .fclass x => Sys2Proof.Machine.execFclass x s
  | .frcp x => Sys2Proof.Machine.execFrcp x s
  | .frsq x => Sys2Proof.Machine.execFrsq x s
  | .fsqrt x => Sys2Proof.Machine.execFsqrt x s
  | .fexp2 x => Sys2Proof.Machine.execFexp2 x s
  | .flog2 x => Sys2Proof.Machine.execFlog2 x s
  | .ftanh x => Sys2Proof.Machine.execFtanh x s
  | .fscale x => Sys2Proof.Machine.execFscale x s
  | .cvt x => Sys2Proof.Machine.execCvt x s
  | .shfl x => Sys2Proof.Machine.execShfl x s
  | .shflx x => Sys2Proof.Machine.execShflx x s
  | .bcast x => Sys2Proof.Machine.execBcast x s
  | .red x => Sys2Proof.Machine.execRed x s
  | .scan x => Sys2Proof.Machine.execScan x s
  | .pack x => Sys2Proof.Machine.execPack x s
  | .unpk x => Sys2Proof.Machine.execUnpk x s
  | .cmp x => Sys2Proof.Machine.execCmp x s
  | .fcmp x => Sys2Proof.Machine.execFcmp x s
  | .kop x => Sys2Proof.Machine.execKop x s
  | .kpop x => Sys2Proof.Machine.execKpop x s
  | .kff1 x => Sys2Proof.Machine.execKff1 x s
  | .kset x => Sys2Proof.Machine.execKset x s
  | .kget x => Sys2Proof.Machine.execKget x s
  | .ld m => Sys2Proof.Machine.execLd m s
  | .st m => Sys2Proof.Machine.execSt m s
  | .lds m => Sys2Proof.Machine.execLds m s
  | .sts m => Sys2Proof.Machine.execSts m s
  | .ldb m => Sys2Proof.Machine.execLdb m s
  | .ldbZ m => Sys2Proof.Machine.execLdbZ m s
  | .stb m => Sys2Proof.Machine.execStb m s
  | .stbZ m => Sys2Proof.Machine.execStbZ m s
  | .ldc m => Sys2Proof.Machine.execLdc m s
  | .ldcCol m => Sys2Proof.Machine.execLdcCol m s
  | .stc m => Sys2Proof.Machine.execStc m s
  | .stcCol m => Sys2Proof.Machine.execStcCol m s
  | .atom m => Sys2Proof.Machine.execAtom m s
  | .ared m => Sys2Proof.Machine.execAred m s
  | .cpy m => Sys2Proof.Machine.execCpy m s
  | .cpyLane m => Sys2Proof.Machine.execCpyLane m s
  | .cpyt m => Sys2Proof.Machine.execCpyt m s
  | .cpytW m => Sys2Proof.Machine.execCpytW m s
  | .fence m => Sys2Proof.Machine.execFence m s
  | .waitc m => Sys2Proof.Machine.execWaitc m s
  | .pref m => Sys2Proof.Machine.execPref m s
  | .tagset m => Sys2Proof.Machine.execTagset m s
  | .tagget m => Sys2Proof.Machine.execTagget m s
  | .ptag m => Sys2Proof.Machine.execPtag m s
  | .clean m => Sys2Proof.Machine.execClean m s
  | .cleanInv m => Sys2Proof.Machine.execCleanInv m s
  | .wres q => Sys2Proof.Machine.execWres q s
  | .wrel q => Sys2Proof.Machine.execWrel q s
  | .wstat q => Sys2Proof.Machine.execWstat q s
  | .qcvt q => Sys2Proof.Machine.execQcvt q s
  | .qcvtW q => Sys2Proof.Machine.execQcvtW q s
  | .mloop q => Sys2Proof.Machine.execMloop q s
  | .mloopPeer q => Sys2Proof.Machine.execMloopPeer q s
  | .czero q => Sys2Proof.Machine.execCzero q s
  | .cadd q => Sys2Proof.Machine.execCadd q s
  | .caddPeer q => Sys2Proof.Machine.execCaddPeer q s
  | .cscale q => Sys2Proof.Machine.execCscale q s
  | .cscaleRow q => Sys2Proof.Machine.execCscaleRow q s
  | .cscaleCol q => Sys2Proof.Machine.execCscaleCol q s
  | .demand q => Sys2Proof.Machine.execDemand q s
  | .tolrd q => Sys2Proof.Machine.execTolrd q s
  | .toltab q => Sys2Proof.Machine.execToltab q s
  | .kappend k => Sys2Proof.Machine.execKappend k s
  | .kstep k => Sys2Proof.Machine.execKstep k s
  | .ksig k => Sys2Proof.Machine.execKsig k s
  | .kgather k => Sys2Proof.Machine.execKgather k s
  | .kfetch k => Sys2Proof.Machine.execKfetch k s
  | .kfetchV k => Sys2Proof.Machine.execKfetchV k s
  | .kfetchW k => Sys2Proof.Machine.execKfetchW k s
  | .kfetchWV k => Sys2Proof.Machine.execKfetchWV k s
  | .kslot k => Sys2Proof.Machine.execKslot k s
  | .kstat k => Sys2Proof.Machine.execKstat k s
  | .bar y => Sys2Proof.Machine.execBar y s
  | .barC y => Sys2Proof.Machine.execBarC y s
  | .arrive y => Sys2Proof.Machine.execArrive y s
  | .arriveC y => Sys2Proof.Machine.execArriveC y s
  | .bwait y => Sys2Proof.Machine.execBwait y s
  | .bwaitC y => Sys2Proof.Machine.execBwaitC y s
  | .drainB y => Sys2Proof.Machine.execDrainB y s
  | .drainC y => Sys2Proof.Machine.execDrainC y s
  | .phase y => Sys2Proof.Machine.execPhase y s
  | .yield y => Sys2Proof.Machine.execYield y s
  | .qpush y => Sys2Proof.Machine.execQpush y s
  | .qpop y => Sys2Proof.Machine.execQpop y s
  | .qtry y => Sys2Proof.Machine.execQtry y s
  | .qlen y => Sys2Proof.Machine.execQlen y s
  | .qlenInit y => Sys2Proof.Machine.execQlenInit y s
  | .poll y => Sys2Proof.Machine.execPoll y s
  | .dcdec y => Sys2Proof.Machine.execDcdec y s
  | .dcset y => Sys2Proof.Machine.execDcset y s
  | .launch y => Sys2Proof.Machine.execLaunch y s
  | .nop j => Sys2Proof.Machine.execNop j s
  | .bra j => Sys2Proof.Machine.execBra j s
  | .bz j => Sys2Proof.Machine.execBz j s
  | .bnz j => Sys2Proof.Machine.execBnz j s
  | .bany j => Sys2Proof.Machine.execBany j s
  | .ball j => Sys2Proof.Machine.execBall j s
  | .bnone j => Sys2Proof.Machine.execBnone j s
  | .loop j => Sys2Proof.Machine.execLoop j s
  | .call j => Sys2Proof.Machine.execCall j s
  | .ret j => Sys2Proof.Machine.execRet j s
  | .jmpi j => Sys2Proof.Machine.execJmpi j s
  | .endWave j => Sys2Proof.Machine.execEndWave j s
  | .sysr y => Sys2Proof.Machine.execSysr y s
  | .sysw y => Sys2Proof.Machine.execSysw y s
  | .trap y => Sys2Proof.Machine.execTrap y s
  | .tret y => Sys2Proof.Machine.execTret y s
  | .bkpt y => Sys2Proof.Machine.execBkpt y s
  | .ticks y => Sys2Proof.Machine.execTicks y s
  | .kill y => Sys2Proof.Machine.execKill y s
  | .killGrid y => Sys2Proof.Machine.execKillGrid y s
  | .faultrd y => Sys2Proof.Machine.execFaultrd y s
  | .rpt n steps => Sys2Proof.Machine.execRpt n steps s
  | .rptRegister creg steps => Sys2Proof.Machine.execRptRegister creg steps s
  | .clauseStart core => Sys2Proof.Machine.execClauseStart core s
  | .eligibilityAgeExpiry wave => Sys2Proof.Machine.execEligibilityAgeExpiry wave s
  | .loadDataReturn wave index arrival => Sys2Proof.Machine.execLoadDataReturn wave index arrival s
  | .storeAcknowledge wave delivered => Sys2Proof.Machine.execStoreAcknowledge wave delivered s
  | .operationRetire wave cls => Sys2Proof.Machine.execOperationRetire wave cls s
  | .releasedQuernOperation wave => Sys2Proof.Machine.execReleasedQuernOperation wave s
  | .sideLogReplay wave => Sys2Proof.Machine.execSideLogReplay wave s
  | .blockComplete block => Sys2Proof.Machine.execBlockComplete block s
  | .blockPlace request core => Sys2Proof.Machine.execBlockPlace request core s
  | .placementAgeExpiry request => Sys2Proof.Machine.execPlacementAgeExpiry request s
  | .displace baseDie => Sys2Proof.Machine.execDisplace baseDie s
  | .pageListEntryRead grid index => Sys2Proof.Machine.execPageListEntryRead grid index s
  | .landingSlotGrant request core => Sys2Proof.Machine.execLandingSlotGrant request core s
  | .flashSenseComplete lun accepted => Sys2Proof.Machine.execFlashSenseComplete lun accepted s
  | .lunTimeout lun => Sys2Proof.Machine.execLunTimeout lun s
  | .phaseSave block => Sys2Proof.Machine.execPhaseSave block s
  | .phaseTimeReached block => Sys2Proof.Machine.execPhaseTimeReached block s
  | .phaseResume request core => Sys2Proof.Machine.execPhaseResume request core s
  | .pollAttempt wave => Sys2Proof.Machine.execPollAttempt wave s
  | .involuntarySave block => Sys2Proof.Machine.execInvoluntarySave block s
  | .yieldExpiry wave => Sys2Proof.Machine.execYieldExpiry wave s
  | .quantumEnd partition => Sys2Proof.Machine.execQuantumEnd partition s
  | .contextSave asid => Sys2Proof.Machine.execContextSave asid s
  | .coreScrub core => Sys2Proof.Machine.execCoreScrub core s
  | .contextRestore asid core => Sys2Proof.Machine.execContextRestore asid core s
  | .appendArrival asid step core => Sys2Proof.Machine.execAppendArrival asid step core s
  | .stepFiling asid step => Sys2Proof.Machine.execStepFiling asid step s
  | .tailraceWriteback baseDie => Sys2Proof.Machine.execTailraceWriteback baseDie s
  | .flashProgramComplete baseDie succeeded => Sys2Proof.Machine.execFlashProgramComplete baseDie succeeded s
  | .load asid => Sys2Proof.Machine.execLoad asid s
  | .inval asid => Sys2Proof.Machine.execInval asid s
  | .invalComplete => Sys2Proof.Machine.execInvalComplete s
  | .teardown asid => Sys2Proof.Machine.execTeardown asid s
  | .teardownComplete => Sys2Proof.Machine.execTeardownComplete s
  | .grant asid => Sys2Proof.Machine.execGrant asid s
  | .erase asid => Sys2Proof.Machine.execErase asid s
  | .eraseComplete succeeded => Sys2Proof.Machine.execEraseComplete succeeded s
  | .ring asid => Sys2Proof.Machine.execRing asid s
  | .reclog asid => Sys2Proof.Machine.execReclog asid s
  | .pfUnassigned op asid => Sys2Proof.Machine.execPfUnassigned op asid s
  | .launchTailWrite vf tail => Sys2Proof.Machine.execLaunchTailWrite vf tail s
  | .launchEntry vf entry uncorrectable => Sys2Proof.Machine.execLaunchEntry vf entry uncorrectable s
  | .completionHeadWrite vf head => Sys2Proof.Machine.execCompletionHeadWrite vf head s
  | .partitionTableWrite p lo hi => Sys2Proof.Machine.execPartitionTableWrite p lo hi s
  | .quantumTableWrite p index entry => Sys2Proof.Machine.execQuantumTableWrite p index entry s
  | .registerWrite space offset value => Sys2Proof.Machine.execRegisterWrite space offset value s
  | .bar2Access vf address len write => Sys2Proof.Machine.execBar2Access vf address len write s
  | .driveInboundRequest requester address len write => Sys2Proof.Machine.execDriveInboundRequest requester address len write s
  | .mailboxWrite requester address len data => Sys2Proof.Machine.execMailboxWrite requester address len data s
  | .linkInboundAccess port source offset len write => Sys2Proof.Machine.execLinkInboundAccess port source offset len write s
  | .mmioTimeout wave index => Sys2Proof.Machine.execMmioTimeout wave index s
  | .brakeN => Sys2Proof.Machine.execBrakeN s
  | .freezeCommand => Sys2Proof.Machine.execFreezeCommand s
  | .brk => Sys2Proof.Machine.execBrk s
  | .brakeFlit port => Sys2Proof.Machine.execBrakeFlit port s
  | .scanRead unit index offset len => Sys2Proof.Machine.execScanRead unit index offset len s
  | .packageReset => Sys2Proof.Machine.execPackageReset s
  | .fire => Sys2Proof.Machine.execFire s
  | .watchdogTimeout => Sys2Proof.Machine.execWatchdogTimeout s
  | .firmwareImage image => Sys2Proof.Machine.execFirmwareImage image s
  | .replayTimeout asid address global => Sys2Proof.Machine.execReplayTimeout asid address global s
  | .ringSend asid ctl => Sys2Proof.Machine.execRingSend asid ctl s
  | .revolutionReceived asid ctl revolution data => Sys2Proof.Machine.execRevolutionReceived asid ctl revolution data s
  | .ringStallTimeout asid ctl => Sys2Proof.Machine.execRingStallTimeout asid ctl s
  | .linkFailure port => Sys2Proof.Machine.execLinkFailure port s
  | .ringFailureNotice asid ctl cause position => Sys2Proof.Machine.execRingFailureNotice asid ctl cause position s
  | .idleEntry => Sys2Proof.Machine.execIdleEntry s
  | .idleWakeTimer => Sys2Proof.Machine.execIdleWakeTimer s
  | .linkTrained port package => Sys2Proof.Machine.execLinkTrained port package s
  | .arevAdvance asid ctl news => Sys2Proof.Machine.execArevAdvance asid ctl news s
  | .detectionByAnyMember asid ctl cause position => Sys2Proof.Machine.execDetectionByAnyMember asid ctl cause position s

end Sys2Proof.Machine
end

