-- ==== Sys2Proof/Machine/Hold.lean ====
section
/-! DEFINITION. Where a wave stops: a stopping wave that retires, and a wave that a due save holds at a word that waits (R22, R81, R114, R286). -/
namespace Sys2Proof.Machine

/-! ### The waits of R81 -/

/-- A journal entry as a drain leaves it: written and arrived, where its store is still to come (R81, R254). -/
def filedEntry (s : State) (step : Nat) (e : JEntry) : JEntry := if e.alive s step then { e with written := true, step := some (e.step.getD 0) } else e

/-- A context as a drain leaves it: its journal entries are written, and Quern has answered what a replay holds (R81, R320). -/
def drainedCtx (s : State) (c : Ctx) : Ctx :=
  { c with regions := c.regions.map (fun r => (r.1, { r.2 with entries := r.2.entries.map (filedEntry s r.1) })),
           log := c.log.map (fun l => { l with replay := false }) }

/-- A wave as a drain leaves it: its memory queue performed but for what of its side log is kept, its results on their way arrived, and with engines its engine operations complete (R81). -/
def drainedWave (engines log : Bool) (w : Wave) : Wave :=
  { w with mq := if log then w.mq.filter (fun e => e.logged) else [], returns := [], cpyQ := if engines then [] else w.cpyQ, mtxQ := if engines then [] else w.mtxQ, gatQ := if engines then [] else w.gatQ }

/-- What step 2 of R81 completes is complete; registers, counters, A lines, reservations, tiles, barriers and regions stand as they are. -/
def drainedState (engines log : Bool) (s : State) : State :=
  { s with ctxs := s.ctxs.map (fun e => (e.1, drainedCtx s e.2)), waves := s.waves.map (fun e => (e.1, drainedWave engines log e.2)) }

/-- A load waits for the side log as long as a mapping that the log waits for is missing: it waits for that mapping (R81, R125, R138). -/
def waitsForLog (i : Instr) : Bool :=
  match i with
  | .ld _ => true
  | .ldb _ => true
  | _ => false

/-- With the drain complete the word goes on. -/
def drainEnds (engines : Bool) (i : Instr) (s : State) : Bool :=
  match exec i (drainedState engines (waitsForLog i) s) with
  | .next t => decide (t ≠ drainedState engines (waitsForLog i) s)
  | _ => true

/-- The wave's engine operations can still get on. -/
def enginesRun (s : State) (key : Nat) : Bool := match viewOf s key with | some v => !quietEngines s v | none => false

/-- A wait that step 1 of R81 does not list: the word waits only for what step 2 completes, its wave's older operations or an answer, and goes on then; so no save stops the wave there. A KSTEP that has not arrived is listed whatever it waits for. -/
def ownWait (i : Instr) (key : Nat) (s : State) : Bool :=
  match i with
  | .kstep _ => false
  | _ => drainEnds false i s || (enginesRun s key && drainEnds true i s)

/-! ### After a word -/

/-- A stopping wave retires where it stands: at rest, or where its word waits at a barrier, or in a block that stops in place (R114, R286). -/
def retiresHere (s : State) (waits : Bool) (w : Wave) : Bool :=
  w.stop && (w.clause.isNone || w.poll.isSome || w.parked.isSome || w.phase.isSome ||
    (waits && (atBarrier s w || (match mget s.blocks w.blk with | some b => inPlace b | none => false))))

/-- After a wave's word: a wave of an ending block retires at its clause boundary or where it waits, and a wave whose save is due stops at a word on one of the waits of R81. -/
def settle (i : Instr) (key : Nat) (before : State) (r : Result) : Result :=
  match r with
  | .next s =>
    match mget s.waves key with
    | some w =>
      let waits := decide (s = before)
      let held := saveDue s w.blk && waits && !ownWait i key s
      if retiresHere s waits w then .next (retireWave key s)
      else if w.held = held then .next s
      else .next (putWave key { w with held := held } s)
    | none => .next s
  | r => r

end Sys2Proof.Machine
end

