-- ==== Sys2Proof/Machine/Place.lean ====
section
/-! DEFINITION. A program loaded from outside, as one word: a context, a grid of one block of one wave, and a clause started on core 0 (log 7). -/
namespace Sys2Proof.Machine

/-- The context of the loaded word: partition 0, one unit of sync space, a stack region. -/
def loadedCtx : Ctx :=
  { ent := { part := 0, root := 0x100000, sbk := 0x200000, syncsz := 1, stks := 16, stkb := 0x300000, save := 0x400000
             fql := 0, fqb := 0x500000, dspn := 0, fgn := 0, fgt := 0x600000 }
    sync := [], queues := [], slices := [(0, 512)], lost := false, regions := [], rings := [], log := none, saved := false }

/-- The grid of the loaded word: one block of one wave, an allotment of 256, a 4 KiB A allocation. -/
def loadedDesc : Desc :=
  { kind := 0, prio := 0, det := false, fpol := false, rmode := 0, gs := 1, pwoff := 0, au := 1, cv := 0, cs := 0
    va := 256, nw := 1, entry := 0x10000, args := 0, pgf := 0, w1 := 0, w2 := 0, w3 := 0, w4 := 0, w5 := 0
    ext3 := 1, ext4 := 1, ext5 := 1, plist := 0, dcbase := 0, stbase := 0x8000, prbase := 0x20000, gdone := 0, stksz := 16 }

/-- The words after a table word: its literal, or for RPT the word it repeats (the integer operation of opcode 0x17, MOV, on v0). -/
def followers (w lit : Word64) : List Word64 :=
  if opOf w = 0xF0 then [0x170000003FFFFD00] else if hasLiteral w then [lit] else []

/-- The state with the word at the resume point of the wave that the next move issues. -/
def placeWord (w lit : Word64) (s : State) : State :=
  let gid := s.nextGrid
  let bk := blockKey gid 0
  let key := waveKey bk 0
  let d := loadedDesc
  let wave := { firstWave d bk 0 0 with clause := some { words := w :: followers w lit, idx := 0, y := false, rpt := none, yld := none } }
  let part := { partAt s 0 with v := true, vf := 1, mask := 1, quanta := [(0, 0x0000000010000001)], cur := some (0, 0), ends := s.time.cycle + 4096, saving := false }
  { s with
    frozen := false
    sched := { s.sched with moves := [.issue key] }
    parts := mput s.parts 0 part
    cores := mput s.cores 0 { ctx := some 0, dirty := true }
    ctxs := mput s.ctxs 0 loadedCtx
    grids := mput s.grids gid { asid := 0, d := d, status := [], runnable := [0], listed := [], gbar := [], cbars := [], done := false, launcher := none }
    nextGrid := gid + 1
    blocks := mput s.blocks bk { freshBlock gid 0 with life := .running, core := some 0, slice := some 0 }
    waves := mput s.waves key wave }

end Sys2Proof.Machine
end

