-- ==== Sys2Proof/Machine/Step.lean ====
section
/-! DEFINITION. One step of the package: the next move is a word that a wave issues, a device event or an input, an error of memory or of a drive, or time that passes (log 2, log 53). A frozen package answers the management port alone (R316, R317). -/
namespace Sys2Proof.Machine

/-- A wave issues the word at its resume point. -/
def issueStep (key : Nat) (s : State) : Result :=
  match mget s.waves key with
  | none => .next s
  | some w =>
    if mayIssue s key then
      match fetchInstr w with
      | .ok i => settle i key (issuing key s) (exec i (issuing key s))
      | .error _ => illegalWord w s
    else .next s

/-- A move of a package that is not frozen. -/
def moveStep (m : Move) (s : State) : Result :=
  match m with
  | .issue key => issueStep key s
  | .event i => if i.isWord then .next s else exec i s
  | .pass cycles ticks => .next (passTime cycles ticks s)
  | .spoil granule => .next (spoil granule s)
  | .drive unit answers => .next { s with silent := if answers then sdel s.silent unit else sadd s.silent unit }

/-- A move of a frozen package (R316, R317). -/
def frozenStep (m : Move) (s : State) : Result :=
  match m with
  | .event i => if answersFrozen i then exec i s else if abortsFrozen i then .next (emit .abort s) else .next s
  | _ => .next s

def step (s : State) : Host.Outcome State Fault Refusal :=
  let p := nextMove s
  if p.2.frozen then frozenStep p.1 p.2 else moveStep p.1 p.2

/-- The state with an instruction's word stored where the next step fetches it: a wave of a fresh block whose started clause holds the word, the literal that follows it, and a word for a repeat to repeat; and the move that issues it. -/
def State.withFetchWord (s : State) (nbits w : Nat) : State := placeWord (tableWords nbits w).1 (tableWords nbits w).2 s

end Sys2Proof.Machine
end

