-- ==== Sys2Proof/Safety.lean ====
section
/-! DEFINITION. What claims about runs are stated in: reached states, invariants that every step keeps, the safe outcomes of a step, and the conditions under which a word takes effect. -/
namespace Sys2Proof

open Sys2Proof.Machine

/-- A property that every step keeps, from every state that has it. -/
def Preserved (Inv : State → Prop) : Prop := ∀ s t, Inv s → step s = .next t → Inv t

/-- The step goes on: it ends neither in a fault of the model nor in a refusal. -/
def StepsOn (s : State) : Prop := ∃ t, step s = .next t

/-! ### Words that take effect (R25, R41, R42) -/

/-- In s the wave with this key, which is w, issues a word; its guard register is full and selects the lanes m, not none; and no source or destination stands in its way (R41, R42). -/
structure Issues (g : Guard) (srcs : List Src) (dests : List (Operand × Nat)) (key : Nat) (w : Wave) (m : Word32) (s : State) : Prop where
  wave : current s = some (key, w)
  guardFull : guardEmpty w g = false
  mask : guardMask w g = m
  lanes : m ≠ 0
  ready : readiness w m srcs dests = .go

/-- The same, with the block, grid and context the wave acts in. -/
structure Acts (g : Guard) (srcs : List Src) (dests : List (Operand × Nat)) (v : View) (m : Word32) (s : State) : Prop where
  issues : Issues g srcs dests v.key v.w m s
  view : viewOf s v.key = some v

/-- The guard of an instruction word (R26); RPT and the events carry none. -/
def Instr.guard? (i : Instr) : Option Guard :=
  match i.shape with
  | .x _ _ w => some w.guard
  | .m _ _ w => some w.guard
  | .q _ _ w => some w.guard
  | .k _ _ _ w => some w.guard
  | .y _ _ _ w => some w.guard
  | .j _ _ w => some w.guard
  | .p _ _ _ => none
  | .event => none

/-- The word is done and nothing but its wave has changed: the wave's registers are those of w, and it goes on to the next word. -/
def GoesOn (key : Nat) (w : Wave) (s : State) : Result := .next (putWave key (advance w) s)

/-- A format X word of sources and destination at the width of its type takes effect. -/
def XReady (x : XW) (key : Nat) (w : Wave) (m : Word32) (s : State) : Prop :=
  Issues x.guard [srcA x (wideTy x.t), srcB x (wideTy x.t), srcC x (wideTy x.t)] [dstD x (wideTy x.t)] key w m s

/-- The instruction i, with the fields x, writes f of each selected lane to D at the width of its type, and does nothing else. -/
def XWrites (x : XW) (i : Instr) (key : Nat) (w : Wave) (m : Word32) (s : State) (f : Nat → Nat) : Prop :=
  exec i s = GoesOn key (putLanes x.t x.d m f w) s

/-- Operands A, B and C of lane i as words of the type's width. -/
def opA (x : XW) (w : Wave) (i : Nat) : BitVec x.t.width := BitVec.ofNat _ (valA x w i)
def opB (x : XW) (w : Wave) (i : Nat) : BitVec x.t.width := BitVec.ofNat _ (valB x w i)
def opC (x : XW) (w : Wave) (i : Nat) : BitVec x.t.width := BitVec.ofNat _ (valC x w i)
/-- D before the word, for the words that read it. -/
def opD (x : XW) (w : Wave) (i : Nat) : BitVec x.t.width := BitVec.ofNat _ (tyOp w x.lit x.t x.d i)

/-- A word as the integer it stands for in a type: two's complement where the type is signed. -/
def tyInt (t : Ty) (x : BitVec t.width) : Int := if t.signed then x.toInt else (x.toNat : Int)

/-- A count, position or length in lane i: 64 bits for a 64-bit type, else 32 (R206). -/
def countOf (x : XW) (w : Wave) (o : Operand) (i : Nat) : Nat := intOp w x.lit (if x.t.width = 64 then 64 else 32) o i

/-! ### Memory words -/

/-- The value a lane's load binds: its wave's own newest store to each byte, else what the place holds (R129, R131). -/
def loadedValue (v : View) (lane addr n : Nat) (s : State) : Nat :=
  bytesToNat ((List.range n).map (fun j =>
    match forwardByte s v (placeOf s v lane (addr + j)) with
    | some f => f.1
    | none => placeByte s v.w.blk (placeOf s v lane (addr + j))))

/-- A load completes its issue: where every access passes its checks, no line it reads is empty and no older operation of its wave orders it, the result res is a next state in which its wave has one more result on its way, with the values of all lanes, its destination is empty in the selected lanes, and nothing else has changed but the accessed bits that R280 sets. -/
def LoadIssues (r : LoadReq) (v : View) (s : State) (res : Result) : Prop :=
  (∀ a ∈ r.accs, checkAccess s v .load (some (ptrTag a.2)) (ptrAddr a.2) r.size = .ok) →
  emptyLineLanes v.b r.accs r.size = [] → hasLogged v.w = false →
  loadBlocked s v (r.accs.flatMap (fun a => (List.range r.size).map (fun j => placeOf s v a.1 (ptrAddr a.2 + j)))) = false →
  ∃ (t : State) (ret : Return), res = .next t ∧
    ret.info = wordInfo v.w ∧ ret.dest = r.dest ∧ ret.size = r.size ∧ ret.sx = r.sx ∧
    ret.lanes = r.zeros.map (fun i => (i, 0)) ++ r.accs.map (fun a => (a.1, loadedValue v a.1 (ptrAddr a.2) r.size s)) ∧
    ret.far = (if r.shared then r.accs.take 1 else r.accs).flatMap (fun a => farParts s v r.shared a.1 (ptrAddr a.2) r.size) ∧
    ret.addrs = r.accs ∧ ret.acq = r.acq ∧
    ret.bad = r.accs.find? (fun a => lostUnit s v a.1 (ptrAddr a.2) r.size) ∧
    mget t.waves v.key = some (advance (markEmpty r.dest (resultRegs r.dest r.size) r.mask { v.w with returns := v.w.returns ++ [ret] })) ∧
    (∀ k, k ≠ v.key → mget t.waves k = mget s.waves k) ∧ t.blocks = s.blocks ∧ t.ctxs = s.ctxs ∧ t.tags = s.tags ∧
    t.mem = (recordAccs v false r.size r.accs s).mem

/-- An operation enters its wave's memory queue: the result res is the next state in which the wave holds it as its newest entry; where it is counted, oc.st is raised and its number stands last among those that oc.st counts; the registers are those of edit, and nothing else has changed (R124, R142, R166). -/
def Queues (op : MemOp) (counts acq pending : Bool) (edit : Wave → Wave) (v : View) (s : State) (res : Result) : Prop :=
  queueFull v op counts pending s = false →
  res = GoesOn v.key (edit { v.w with
    mq := v.w.mq ++ [{ op := op, info := wordInfo v.w, acq := acq, logged := pending || (hasLogged v.w && logs op), carried := false, no := v.w.stNext }]
    stOut := if counts then v.w.stOut ++ [v.w.stNext] else v.w.stOut
    stNext := if counts then v.w.stNext + 1 else v.w.stNext
    oc := { v.w.oc with st := if counts then v.w.oc.st + 1 else v.w.oc.st } }) s

/-- No access of a list fails its check (one whose translation is pending does not fail). -/
def NoneFails (chk : Nat → Chk) (accs : List (Nat × Nat)) : Prop := ∀ a ∈ accs, chk a.2 = .ok ∨ chk a.2 = .pending

/-- A read of n bytes that a word makes for itself goes through at once (R129, R245): its access passes its checks, no line is empty, no older operation of the wave orders it, the page store has the data, and no byte of it lies on the far side. -/
structure Readable (v : View) (ptr n : Nat) (s : State) : Prop where
  checks : checkAccess s v .load (some (ptrTag ptr)) (ptrAddr ptr) n = .ok
  lines : emptyLineLanes v.b [(0, ptr)] n = []
  unlogged : hasLogged v.w = false
  unordered : loadBlocked s v ((List.range n).map (fun j => placeOf s v 0 (ptrAddr ptr + j))) = false
  present : lostUnit s v 0 (ptrAddr ptr) n = false
  near : ∀ p ∈ parts 8 (ptrAddr ptr) n, farParts s v false 0 p.1 p.2 = []

/-- The bytes it finds, and the state with its access recorded. -/
def readBytes (v : View) (ptr n : Nat) (s : State) : List Byte :=
  (List.range n).map (fun j =>
    match forwardByte s v (placeOf s v 0 (ptrAddr ptr + j)) with
    | some f => f.1
    | none => placeByte s v.w.blk (placeOf s v 0 (ptrAddr ptr + j)))
def readState (v : View) (ptr n : Nat) (s : State) : State := recordAccs v false n [(0, ptr)] s

/-- The descriptor that A of a format K word names is aligned, readable and valid: its words, and the state once it is read (R245, R246). -/
structure HasDesc (v : View) (k : KW) (s : State) (ws : List Word64) (t : State) : Prop where
  aligned : (sReg v.w (sNum k.a)).toNat % 128 = 0
  readable : Readable v (sReg v.w (sNum k.a)).toNat 128 s
  words : ws = wordsOf 16 (readBytes v (sReg v.w (sNum k.a)).toNat 128 s)
  valid : descValid ws = true
  after : t = readState v (sReg v.w (sNum k.a)).toNat 128 s

/-- The record of the word's head is readable and valid (R247). -/
structure HasHead (v : View) (k : KW) (ws : List Word64) (s : State) (r : HeadRec) (t : State) : Prop where
  inside : k.head.toNat < (kvDesc ws).nh
  readable : Readable v (ptrPlus (kvDesc ws).hrec (16 * k.head.toNat)) 16 s
  valid : headValid (bytesToNat ((readBytes v (ptrPlus (kvDesc ws).hrec (16 * k.head.toNat)) 16 s).drop 8)) = true
  record : r = headRec (bytesToNat ((readBytes v (ptrPlus (kvDesc ws).hrec (16 * k.head.toNat)) 16 s).take 8))
    (bytesToNat ((readBytes v (ptrPlus (kvDesc ws).hrec (16 * k.head.toNat)) 16 s).drop 8))
  after : t = readState v (ptrPlus (kvDesc ws).hrec (16 * k.head.toNat)) 16 s

/-- t is s but for what Lovage reads of a context leave: the accessed bits, and the requests that leave the package. -/
inductive ReadsOf (asid : Nat) : State → State → Prop where
  | refl (s : State) : ReadsOf asid s s
  | read {s t u : State} {ptr n : Nat} {bs : List Byte} : ReadsOf asid s t → lovageRead asid ptr n t = .ok bs u → ReadsOf asid s u

/-- The engine entry of a word that issues now, with the A lines it waits for (R120, R141). -/
def entryNow (v : View) (op : EngOp) (lines : List Nat) : EngEntry :=
  { op := op, info := wordInfo v.w, need := lines.filter (fun l => v.b.aE.contains l), after := v.w.mq.length
    no := v.w.engNo, ran := false }

/-! ### Values of floating point -/

/-- The rational number a finite value is. -/
def Machine.FVal.rat : FVal → Option Rat
  | .fin neg m e => some ((if neg then -1 else 1) * (m : Rat) * (2 : Rat) ^ e)
  | _ => none

end Sys2Proof
end

