-- ==== Sys2Proof/Certificates/Slice0/Obligations.lean ====
section
/-! DEFINITION. The statements for the provers: what the rules of the spec say the machine does, and the invariants its steps keep. -/
open Sys2Proof Sys2Proof.Machine

/-- For every integer or bit type, every operand form and every state in which the word takes effect, ADD, SUB, ADDS, SUBS, MUL, MULH, MAD, ABS, MIN, MAX, AND, OR, XOR, ANDN, CLZ, POPC, BREV, DIVU and REMU answer a next state: D holds in each selected lane the result of the table of R205 at the width of the type, the wave goes on to the next word, and nothing else changes. -/
def Obligations.IntegerResults : Prop :=
  ∀ (x : XW) (key : Nat) (w : Wave) (m : Word32) (s : State), XReady x key w m s → x.t.isFloat = false →
      let a := opA x w
      let b := opB x w
      let c := opC x w
      let int := tyInt x.t
      let clamp := fun (z : Int) => BitVec.ofInt x.t.width (max (tyMin x.t) (Min.min z (tyMax x.t)))
      XWrites x (.add x) key w m s (fun i => (a i + b i).toNat) ∧
      XWrites x (.sub x) key w m s (fun i => (a i - b i).toNat) ∧
      XWrites x (.adds x) key w m s (fun i => (clamp (int (a i) + int (b i))).toNat) ∧
      XWrites x (.subs x) key w m s (fun i => (clamp (int (a i) - int (b i))).toNat) ∧
      XWrites x (.mul x) key w m s (fun i => (a i * b i).toNat) ∧
      XWrites x (.mulh x) key w m s (fun i => (BitVec.ofInt x.t.width (int (a i) * int (b i) / 2 ^ x.t.width)).toNat) ∧
      XWrites x (.mad x) key w m s (fun i => (a i * b i + c i).toNat) ∧
      XWrites x (.abs x) key w m s (fun i => (BitVec.ofInt x.t.width |int (a i)|).toNat) ∧
      XWrites x (.min x) key w m s (fun i => (if int (a i) < int (b i) then a i else b i).toNat) ∧
      XWrites x (.max x) key w m s (fun i => (if int (b i) < int (a i) then a i else b i).toNat) ∧
      XWrites x (.and x) key w m s (fun i => (a i &&& b i).toNat) ∧
      XWrites x (.or x) key w m s (fun i => (a i ||| b i).toNat) ∧
      XWrites x (.xor x) key w m s (fun i => (a i ^^^ b i).toNat) ∧
      XWrites x (.andn x) key w m s (fun i => (a i &&& ~~~(b i)).toNat) ∧
      (∃ f, XWrites x (.clz x) key w m s f ∧ ∀ i, f i ≤ x.t.width ∧ (∀ j, x.t.width - f i ≤ j → (a i).getLsbD j = false) ∧
        (f i < x.t.width → (a i).getLsbD (x.t.width - 1 - f i) = true)) ∧
      XWrites x (.popc x) key w m s (fun i => (Finset.univ.filter (fun j : Fin x.t.width => (a i).getLsbD j = true)).card) ∧
      (∃ f, XWrites x (.brev x) key w m s f ∧ ∀ i j, (f i).testBit j = (decide (j < x.t.width) && (a i).getLsbD (x.t.width - 1 - j))) ∧
      XWrites x (.divu x) key w m s (fun i => (if b i = 0 then BitVec.allOnes x.t.width else a i / b i).toNat) ∧
      XWrites x (.remu x) key w m s (fun i => (if b i = 0 then a i else a i % b i).toNat)

/-- Whenever the word takes effect, SHL, SHR, SAR and ROL shift A by the unsigned count B, read at 32 bits or, for a 64-bit type, at 64; BFX takes the field of min(n, w - p) bits at p out of A and extends it, and BFI writes the low bits of A into that field of D and keeps every other bit of its type's width: BFI.b32 into an s register clears bits [63:32], which is the choice of log 56. Each answers a next state in which nothing else changes. -/
def Obligations.ShiftAndFieldResults : Prop :=
  ∀ (x : XW) (key : Nat) (w : Wave) (m : Word32) (s : State), XReady x key w m s → x.t.isFloat = false →
      let a := opA x w
      let d := opD x w
      let c := fun i => countOf x w x.b i
      let len := fun i => if c i < x.t.width then Min.min (countOf x w x.c i) (x.t.width - c i) else 0
      XWrites x (.shl x) key w m s (fun i => (a i <<< c i).toNat) ∧
      XWrites x (.shr x) key w m s (fun i => (a i >>> c i).toNat) ∧
      XWrites x (.sar x) key w m s (fun i => ((a i).sshiftRight (c i)).toNat) ∧
      XWrites x (.rol x) key w m s (fun i => ((a i).rotateLeft (c i)).toNat) ∧
      (∃ f, XWrites x (.bfx x) key w m s f ∧ ∀ i j, (f i).testBit j = (decide (j < x.t.width) &&
        (if j < len i then (a i).getLsbD (c i + j)
         else x.t.signed && decide (0 < len i) && (a i).getLsbD (c i + len i - 1)))) ∧
      (∃ f, XWrites x (.bfi x) key w m s f ∧ ∀ i j, (f i).testBit j =
        (if c i ≤ j ∧ j < c i + len i then (a i).getLsbD (j - c i) else (d i).getLsbD j))

/-- Whenever the word takes effect: MOV to a v or s register writes A bit for bit at the width of its type; MOV to a k register writes to the bit of each selected lane i the bit i of A as lane i reads it and keeps the other bits: a per-lane A supplies bit i of lane i its own value, extended as R38 says, and a uniform A supplies its bits [31:0] unchanged, whatever the width of the type: those of an s or k register or of a literal (of an inline integer, sign-extended, and of a constant, which has its value in its type there: the reading of log 12); SEL writes A or B by the condition in C: bit i of a k register for a v destination, the whole k register for an s destination, an s register for both. Each answers a next state and changes nothing else. -/
def Obligations.MoveResults : Prop :=
  ∀ (x : XW) (key : Nat) (w : Wave) (m : Word32) (s : State),
      (XReady x key w m s → (∀ n, x.d ≠ .k n) →
        exec (.mov x) s = .next (putWave key (advance (putLanes x.t x.d m (valA x w) w)) s)) ∧
      (∀ n, Issues x.guard [srcA x (wideTy x.t)] [(x.d, 1)] key w m s → x.d = .k n →
        ∃ k : Word32, exec (.mov x) s = .next (putWave key (advance (setK w n.toNat k)) s) ∧
          ∀ i < 32, (m.getLsbD i = false → k.getLsbD i = (kReg w n.toNat).getLsbD i) ∧
            (m.getLsbD i = true →
              (x.a.perLane = true → k.getLsbD i = (if x.t.width = 64 then (valA x w i).testBit i else (toV x.t (valA x w i)).getLsbD i)) ∧
              (∀ r, x.a = .s r → k.getLsbD i = (sReg w r.toNat).getLsbD i) ∧
              (∀ r, x.a = .k r → k.getLsbD i = (kReg w r.toNat).getLsbD i) ∧
              (x.a = .lit → k.getLsbD i = (x.lit.getD 0).getLsbD i) ∧
              (∀ c, x.a = .int c → x.t.isFloat = false → k.getLsbD i = (BitVec.ofInt 64 (inlineInt c)).getLsbD i) ∧
              (x.t.isFloat = true → ((∃ c, x.a = .int c) ∨ ∃ c, x.a = .fc c) → k.getLsbD i = (BitVec.ofNat 32 (valA x w 0)).getLsbD i) ∧
              (x.a.perLane = false → (∀ c, x.a ≠ .int c) → (∀ c, x.a ≠ .fc c) → k.getLsbD i = (rawOp w x.lit false x.a 0).getLsbD i))) ∧
      (XReady x key w m s →
        let picks := fun (f : Nat → Bool) =>
          exec (.sel x) s = .next (putWave key (advance (putLanes x.t x.d m (fun i => if f i then valA x w i else valB x w i) w)) s)
        (∀ k, x.c = .k k → (∃ d, x.d = .v d) → picks (fun i => (kReg w k.toNat).getLsbD i)) ∧
        (∀ k, x.c = .k k → (∃ d, x.d = .s d) → picks (fun _ => decide (kReg w k.toNat ≠ 0))) ∧
        (∀ c, x.c = .s c → picks (fun _ => decide (sReg w c.toNat ≠ 0))))

/-- Whenever the word takes effect: LEA adds the extended and shifted index to bits [59:0] of A modulo 2^60 and keeps bits [63:60]; PADD adds or subtracts the 8-bit or 16-bit elements of its 32-bit sources one by one, wrapping or clamping each, into one 32-bit word; HMIX computes the mixing steps of R211. Each answers a next state and changes nothing else. -/
def Obligations.PointerAndPackedResults : Prop :=
  ∀ (x : XW) (key : Nat) (w : Wave) (m : Word32) (s : State),
      (Issues x.guard [srcA x true, srcB x (wideTy x.t)] [dstD x true] key w m s → x.t.isFloat = false →
        ∃ f : Nat → Word64, exec (.lea x) s = GoesOn key (putLanes .u64 x.d m (fun i => (f i).toNat) w) s ∧
          ∀ i, let a := BitVec.ofNat 64 (intOp w x.lit 64 x.a i)
               let idx : Word64 := if x.t.signed then (opB x w i).signExtend 64 else (opB x w i).setWidth 64
               (f i).extractLsb' 0 60 = a.extractLsb' 0 60 + (idx <<< (rawOp w x.lit false x.c i).toNat).extractLsb' 0 60 ∧
               (f i).extractLsb' 60 4 = a.extractLsb' 60 4) ∧
      (Issues x.guard [srcA x false, srcB x false] [dstD x false] key w m s → (x.t.width = 8 ∨ x.t.width = 16) → x.sub.toNat < 4 →
        ∃ f : Nat → Word32, exec (.padd x) s = GoesOn key (putLanes .u32 x.d m (fun i => (f i).toNat) w) s ∧
          ∀ i j, j < 32 / x.t.width →
            let a : BitVec x.t.width := (BitVec.ofNat 32 (intOp w x.lit 32 x.a i)).extractLsb' (j * x.t.width) x.t.width
            let b : BitVec x.t.width := (BitVec.ofNat 32 (intOp w x.lit 32 x.b i)).extractLsb' (j * x.t.width) x.t.width
            let z : Int := if x.sub.toNat < 2 then tyInt x.t a + tyInt x.t b else tyInt x.t a - tyInt x.t b
            (f i).extractLsb' (j * x.t.width) x.t.width =
              BitVec.ofInt x.t.width (if x.sub.toNat % 2 = 1 then max (tyMin x.t) (Min.min z (tyMax x.t)) else z)) ∧
      (XReady x key w m s → x.t = .b64 →
        XWrites x (.hmix x) key w m s (fun i =>
          let x0 : Word64 := BitVec.ofNat 64 (valA x w i) ^^^ BitVec.ofNat 64 (valB x w i)
          let x1 := (x0 ^^^ (x0 >>> 31)) * 0x9E3779B97F4A7C15#64
          let x2 := (x1 ^^^ (x1 >>> 29)) * 0xD6E8FEB86659FD93#64
          (x2 ^^^ (x2 >>> 32)).toNat))

/-- For every floating type, mode and operand form, whenever the word takes effect it answers a next state in which D holds in each selected lane the exact rational result, rounded once to the type in the mode of M, where the operands are finite and the exact result is not zero. An exact zero has the common sign of what it comes from, or for a sum of opposite signs + but - toward minus infinity; a zero product has the sign of the product. Infinities follow IEEE 754: opposite ones give the canonical NaN in a sum, and so does an infinity times zero; any other result with one is an infinity of its sign. A NaN operand gives the canonical NaN. The square root is the one rounding of an integer of more bits than the type keeps, with a sticky bit, whose square brackets A; of -0 it is -0, below that the canonical NaN, of +infinity itself. FSCALE keeps a NaN, an infinity and a zero; it is stated for an exponent that is a register, an inline integer or a literal (the model takes a free value for an FP32 constant there: log 6). Nothing else changes. -/
def Obligations.FloatResults : Prop :=
  ∀ (x : XW) (key : Nat) (w : Wave) (m : Word32) (s : State),
      let fmt := fmtOf x.t
      let a := fun i => fDecode fmt (valA x w i)
      let b := fun i => fDecode fmt (valB x w i)
      let c := fun i => fDecode fmt (valC x w i)
      let once := fun (f : Nat → Nat) (i : Nat) (q : Rat) => q ≠ 0 → ∃ v : FVal, v.rat = some q ∧ f i = fEncode fmt x.m.toNat false v
      let inf := fun (n : Bool) => fEncode fmt 0 false (.inf n)
      let zero := fun (n k : Bool) => signBit fmt (if n = k then n else decide (x.m.toNat = 3))
      let sums := fun (f : Nat → Nat) (i : Nat) (u v : FVal) =>
        ((u = .nan ∨ v = .nan) → f i = fNan fmt) ∧
        (∀ n k, u = .inf n → v = .inf k → f i = if n = k then inf n else fNan fmt) ∧
        (∀ n q, u = .inf n → v.rat = some q → f i = inf n) ∧ (∀ p k, u.rat = some p → v = .inf k → f i = inf k) ∧
        (∀ p q, u.rat = some p → v.rat = some q → once f i (p + q) ∧ (p + q = 0 → f i = zero u.signNeg v.signNeg))
      (XReady x key w m s →
        (∃ f, XWrites x (.fadd x) key w m s f ∧ ∀ i, sums f i (a i) (b i)) ∧
        (∃ f, XWrites x (.fsub x) key w m s f ∧ ∀ i, sums f i (a i) (b i).neg) ∧
        (∃ f, XWrites x (.fmul x) key w m s f ∧ ∀ i, ((a i = .nan ∨ b i = .nan) → f i = fNan fmt) ∧
          (∀ p, (a i).rat = some p → (∃ k, b i = .inf k) → f i = if p = 0 then fNan fmt else inf ((a i).signNeg != (b i).signNeg)) ∧
          (∀ q, (∃ n, a i = .inf n) → (b i).rat = some q → f i = if q = 0 then fNan fmt else inf ((a i).signNeg != (b i).signNeg)) ∧
          (∀ n k, a i = .inf n → b i = .inf k → f i = inf (n != k)) ∧
          ∀ p q, (a i).rat = some p → (b i).rat = some q → once f i (p * q) ∧ (p * q = 0 → f i = signBit fmt ((a i).signNeg != (b i).signNeg))) ∧
        (∃ f, XWrites x (.fma x) key w m s f ∧ ∀ i, ((a i = .nan ∨ b i = .nan ∨ c i = .nan) → f i = fNan fmt) ∧
          (∀ p k, (a i).rat = some p → b i = .inf k → p = 0 → f i = fNan fmt) ∧
          (∀ n q, a i = .inf n → (b i).rat = some q → q = 0 → f i = fNan fmt) ∧
          (∀ p q, (a i).rat = some p → (b i).rat = some q → ∀ k, c i = .inf k → f i = inf k) ∧
          (a i ≠ .nan → b i ≠ .nan → c i ≠ .nan → (a i).isZero = false → (b i).isZero = false → ((a i).rat = none ∨ (b i).rat = none) →
            let n := (a i).signNeg != (b i).signNeg
            f i = if c i = .inf (!n) then fNan fmt else inf n) ∧
          ∀ p q r, (a i).rat = some p → (b i).rat = some q → (c i).rat = some r →
            once f i (p * q + r) ∧ (p * q + r = 0 → f i = zero ((a i).signNeg != (b i).signNeg) (c i).signNeg)) ∧
        (∃ f, XWrites x (.fsqrt x) key w m s f ∧ ∀ i,
          (a i = .nan → f i = fNan fmt) ∧ (∀ n, a i = .inf n → f i = if n then fNan fmt else fInf fmt false) ∧
          (∀ p, (a i).rat = some p → p < 0 → f i = fNan fmt) ∧
          (∀ n e, a i = .fin n 0 e → f i = signBit fmt n) ∧
          (∀ p, (a i).rat = some p → 0 < p → ∃ (r : Nat) (e : Int) (more : Bool),
            f i = fRound fmt x.m.toNat false false r e more ∧ 2 ^ (fmt.fb + 2) ≤ r ∧
            ((r : Rat) * 2 ^ e) ^ 2 ≤ p ∧ p < (((r : Rat) + 1) * 2 ^ e) ^ 2 ∧ (more = false ↔ ((r : Rat) * 2 ^ e) ^ 2 = p)))) ∧
      (Issues x.guard [srcA x false, srcB x false] [dstD x false] key w m s → (∀ n, x.b ≠ .fc n) →
        ∃ f, XWrites x (.fscale x) key w m s f ∧ ∀ i, (a i = .nan → f i = fNan fmt) ∧
          (∀ n, a i = .inf n → f i = inf n) ∧ (∀ n e, a i = .fin n 0 e → f i = signBit fmt n) ∧
          ∀ p, (a i).rat = some p →
            once f i (p * (2 : Rat) ^ (BitVec.ofNat 32 (intOp w x.lit 32 x.b i)).toInt))

/-- For every floating type, whenever the word takes effect it answers a next state, D holds in each selected lane the value R213 or R214 gives, and nothing else changes: the minimum and maximum with -0 below +0 and a NaN yielding to the other operand; the sign cleared or inverted; the integral value nearest in the mode of M, with zeros, infinities and integral values unchanged and the sign of A kept; the one-hot class. -/
def Obligations.FloatSelections : Prop :=
  ∀ (x : XW) (key : Nat) (w : Wave) (m : Word32) (s : State), x.t ∈ tysFp →
      let fmt := fmtOf x.t
      let pa := valA x w
      let pb := valB x w
      let a := fun i => fDecode fmt (pa i)
      let b := fun i => fDecode fmt (pb i)
      let top := fmt.eb + fmt.fb
      (XReady x key w m s →
        (∃ f, XWrites x (.fmin x) key w m s f ∧ ∀ i, (a i = .nan → b i = .nan → f i = fNan fmt) ∧
          (a i = .nan → b i ≠ .nan → f i = pb i) ∧ (b i = .nan → a i ≠ .nan → f i = pa i) ∧
          (a i ≠ .nan → b i ≠ .nan → (f i = pa i ∨ f i = pb i) ∧ fBelow (a i) (fDecode fmt (f i)) = false ∧ fBelow (b i) (fDecode fmt (f i)) = false)) ∧
        (∃ f, XWrites x (.fmax x) key w m s f ∧ ∀ i, (a i = .nan → b i = .nan → f i = fNan fmt) ∧
          (a i = .nan → b i ≠ .nan → f i = pb i) ∧ (b i = .nan → a i ≠ .nan → f i = pa i) ∧
          (a i ≠ .nan → b i ≠ .nan → (f i = pa i ∨ f i = pb i) ∧ fBelow (fDecode fmt (f i)) (a i) = false ∧ fBelow (fDecode fmt (f i)) (b i) = false)) ∧
        (∃ f, XWrites x (.fabs x) key w m s f ∧ ∀ i, (a i = .nan → f i = fNan fmt) ∧ (a i ≠ .nan → f i = pa i % 2 ^ top)) ∧
        (∃ f, XWrites x (.fneg x) key w m s f ∧ ∀ i, (a i = .nan → f i = fNan fmt) ∧
          (a i ≠ .nan → f i = if (pa i).testBit top then pa i - 2 ^ top else pa i + 2 ^ top)) ∧
        (∃ f, XWrites x (.frnd x) key w m s f ∧ ∀ i, (a i = .nan → f i = fNan fmt) ∧ (∀ n, a i = .inf n → f i = pa i) ∧
          ∀ p : Rat, (a i).rat = some p → ∃ z : Int, (fDecode fmt (f i)).rat = some (z : Rat) ∧
            (f i).testBit top = (pa i).testBit top ∧ (p = (p.floor : Rat) → f i = pa i) ∧
            (x.m.toNat = 0 → |(z : Rat) - p| ≤ 1 / 2 ∧ (|(z : Rat) - p| = 1 / 2 → z % 2 = 0)) ∧
            (x.m.toNat = 1 → z = if 0 ≤ p then p.floor else p.ceil) ∧
            (x.m.toNat = 2 → z = p.ceil) ∧ (x.m.toNat = 3 → z = p.floor))) ∧
      (Issues x.guard [srcA x false] [dstD x false] key w m s →
        ∃ f, exec (.fclass x) s = GoesOn key (putLanes .u32 x.d m f w) s ∧ ∀ i,
          let neg := (pa i).testBit top
          let sub := field (pa i) fmt.fb fmt.eb == 0
          f i = 2 ^ (match a i with
            | .nan => 8
            | .inf _ => if neg then 0 else 7
            | .fin _ k _ => if k = 0 then (if neg then 3 else 4) else if neg then (if sub then 2 else 1) else (if sub then 5 else 6)))

/-- In each of the five formats of R174, every mode, and for every finite value: where the rounded encoding is finite, under round to nearest even no finite encoding lies nearer to the exact value, and where another lies as near, the fraction of the one chosen is even; toward zero, up and down it lies on the side the mode names and no finite encoding lies strictly between it and the exact value. A finite encoding is rounded to itself in every mode. With M the largest finite value and u the distance to the one below, the rounded magnitude exceeds M exactly from M + u/2 to nearest (at M + u/2 itself where M is odd), beyond M away from zero, and from M + u toward zero: then the result is the largest finite value with .sat, else the NaN of E4M3, else an infinity to nearest or away from zero, else the largest finite value; otherwise it is finite. -/
def Obligations.RoundingIsNearest : Prop :=
  ∀ (t : Ty) (mode : Nat) (sat : Bool) (v : FVal) (q : Rat), t.isFloat = true → mode < 4 → v.rat = some q →
      let fmt := fmtOf t
      let out := fEncode fmt mode sat v
      let val := fun (y : Nat) => (fDecode fmt y).rat
      (∀ r, val out = some r →
        (mode = 0 → ∀ y p, val y = some p → |q - r| ≤ |q - p| ∧ (p ≠ r → |q - r| = |q - p| → out % 2 = 0)) ∧
        (mode = 1 → |r| ≤ |q| ∧ 0 ≤ r * q ∧ ∀ y p, val y = some p → ¬ (|r| < |p| ∧ |p| ≤ |q|)) ∧
        (mode = 2 → sat = false → q ≤ r ∧ ∀ y p, val y = some p → ¬ (q ≤ p ∧ p < r)) ∧
        (mode = 3 → sat = false → r ≤ q ∧ ∀ y p, val y = some p → ¬ (r < p ∧ p ≤ q))) ∧
      (∀ y, y < 2 ^ t.width → fDecode fmt y = v → out = y) ∧
      (∀ top below, val (fMax fmt false) = some top → val (fMax fmt false - 1) = some below →
        let gap := top - below
        let past := (mode = 0 ∧ (top + gap / 2 < |q| ∨ (|q| = top + gap / 2 ∧ fMax fmt false % 2 = 1))) ∨ (mode = 1 ∧ top + gap ≤ |q|) ∨
          (mode = 2 ∧ (top < q ∨ q ≤ -(top + gap))) ∨ (mode = 3 ∧ (q < -top ∨ top + gap ≤ q))
        (¬ past → (val out).isSome = true) ∧
        (past → out = if sat then fMax fmt (decide (q < 0)) else if t = .e4m3 then 0x7F
          else if mode = 0 ∨ (mode = 2 ∧ 0 < q) ∨ (mode = 3 ∧ q < 0) then fInf fmt (decide (q < 0)) else fMax fmt (decide (q < 0))))

/-- For every pair of types, whenever CVT takes effect it answers a next state in which D holds the converted value in each selected lane and nothing else changes: between integers the low bits, or with .sat the clamped value; an integer to a floating type rounded once, exactly where representable; a floating value to an integer rounded in the mode and clamped, a NaN to 0 and an infinity to an end of the range; a NaN to the canonical NaN, and a floating value to its own type unchanged. .b32 and .b64 are unsigned. -/
def Obligations.ConversionResults : Prop :=
  ∀ (x : XW) (key : Nat) (w : Wave) (m : Word32) (s : State),
      Issues x.guard [srcA x (wideTy x.srcTy)] [dstD x (wideTy x.t)] key w m s →
      let mode := x.m.toNat % 4
      let sat := x.m.getLsbD 2
      let pat := fun i => tyOp w x.lit x.srcTy x.a i
      let int := fun i => tyInt x.srcTy (BitVec.ofNat _ (pat i))
      let v := fun i => fDecode (fmtOf x.srcTy) (pat i)
      ∃ f, exec (.cvt x) s = GoesOn key (putLanes x.t x.d m f w) s ∧ ∀ i,
        (x.srcTy.isFloat = false → x.t.isFloat = false →
          f i = (BitVec.ofInt x.t.width (if sat then max (tyMin x.t) (Min.min (int i) (tyMax x.t)) else int i)).toNat) ∧
        (x.srcTy.isFloat = false → x.t.isFloat = true → ∃ u : FVal, u.rat = some (int i : Rat) ∧ f i = fEncode (fmtOf x.t) mode sat u) ∧
        (x.srcTy.isFloat = true → x.t.isFloat = false →
          (v i = .nan → f i = 0) ∧
          (∀ n, v i = .inf n → f i = (BitVec.ofInt x.t.width (if n then tyMin x.t else tyMax x.t)).toNat) ∧
          (∀ q, (v i).rat = some q → ∃ z : Int, f i = (BitVec.ofInt x.t.width (max (tyMin x.t) (Min.min z (tyMax x.t)))).toNat ∧
            (mode = 0 → |(z : Rat) - q| ≤ 1 / 2 ∧ (|(z : Rat) - q| = 1 / 2 → z % 2 = 0)) ∧
            (mode = 1 → z = if 0 ≤ q then q.floor else q.ceil) ∧ (mode = 2 → z = q.ceil) ∧ (mode = 3 → z = q.floor))) ∧
        (x.srcTy.isFloat = true → x.t.isFloat = true →
          (v i = .nan → f i = fNan (fmtOf x.t)) ∧
          (x.srcTy = x.t → v i ≠ .nan → f i = pat i) ∧
          (x.srcTy ≠ x.t → f i = fEncode (fmtOf x.t) mode sat (v i)))

/-- Whenever one of the five iterative words takes effect it answers a next state in which D holds in each selected lane the result at 2 iterations, or at the iteration count that its node of the loaded table chose, and nothing else changes but the production that the node records; a node that is not an iterative one in use raises Illegal Instruction. A node marked unmet raises the Tolerance Unmet soft trap with the node as its detail: with a handler the wave enters it and nothing is recorded; without one the record is written and the word goes on as with any node; inside a handler it is Illegal Instruction. The special inputs of the table of R215 give its results at every count; FRCP of a finite nonzero value and FRSQ of a finite positive one are at 2 iterations the rounding to nearest of 1/x and of 1/sqrt(x), known to at least 100 bits with a sticky remainder, and at 0 and 1 iterations the value cut to 12 and 22 significant bits and encoded toward zero, infinite from 2^128. At every count FEXP2 of an integer is that power of two, infinite from 2^128 and 0 below 2^-149, and FLOG2 of a power of two its exponent. Six ordinary values, FTANH among them, are stated at each count. -/
def Obligations.IterativeResults : Prop :=
  (∀ (x : XW) (key : Nat) (w : Wave) (m : Word32) (s : State), x.c = .none → x.t = .f32 →
        Issues x.guard [srcA x false] [dstD x false] key w m s →
        XWrites x (.frcp x) key w m s (fun i => frcpVal 2 (valA x w i)) ∧
        XWrites x (.frsq x) key w m s (fun i => frsqVal 2 (valA x w i)) ∧
        XWrites x (.fexp2 x) key w m s (fun i => fexp2Val 2 (valA x w i)) ∧
        XWrites x (.flog2 x) key w m s (fun i => flog2Val 2 (valA x w i)) ∧
        XWrites x (.ftanh x) key w m s (fun i => ftanhVal 2 (valA x w i))) ∧
      (∀ (x : XW) (v : View) (m : Word32) (n : BitVec 7) (node : TolNode) (s : State), x.c = .int n → x.t = .f32 → Acts x.guard [srcA x false] [dstD x false] v m s →
        (choiceAt v.b n.toNat).unm = false →
        let iters := (choiceAt v.b n.toNat).cho
        let bound := if iters = 0 then 88 else if iters = 1 then 168 else 184
        let writes := fun (i : Instr) (f : Nat → Nat) => exec i s = GoesOn v.key (putLanes .f32 x.d m f v.w)
          { s with blocks := mput s.blocks v.w.blk { v.b with choice := mput v.b.choice n.toNat { choiceAt v.b n.toNat with
              prd := true, ach := bound, st := fallsShort node (choiceAt v.b n.toNat) bound } } }
        (mget v.b.tol n.toNat = some node → node.kind = 2 →
          writes (.frcp x) (fun i => frcpVal iters (valA x v.w i)) ∧ writes (.frsq x) (fun i => frsqVal iters (valA x v.w i)) ∧
          writes (.fexp2 x) (fun i => fexp2Val iters (valA x v.w i)) ∧ writes (.flog2 x) (fun i => flog2Val iters (valA x v.w i)) ∧
          writes (.ftanh x) (fun i => ftanhVal iters (valA x v.w i))) ∧
        ((∀ t, mget v.b.tol n.toNat = some t → t.kind ≠ 2) → exec (.frcp x) s = illegalWord v.w s ∧ exec (.frsq x) s = illegalWord v.w s ∧
          exec (.fexp2 x) s = illegalWord v.w s ∧ exec (.flog2 x) s = illegalWord v.w s ∧ exec (.ftanh x) s = illegalWord v.w s)) ∧
      (∀ (x : XW) (v : View) (m : Word32) (n : BitVec 7) (node : TolNode) (s : State), x.c = .int n → x.t = .f32 → Acts x.guard [srcA x false] [dstD x false] v m s →
        mget v.b.tol n.toNat = some node → node.kind = 2 → (choiceAt v.b n.toNat).unm = true →
        let iters := (choiceAt v.b n.toNat).cho
        let bound := if iters = 0 then 88 else if iters = 1 then 168 else 184
        let trap := softTrap v.w { cause := 4, detail := n.toNat, lanes := m }
        let raises := fun (i : Instr) (f : Nat → Nat) =>
          (v.w.trapSt = true → exec i s = illegalWord v.w s) ∧
          (v.w.trapSt = false → v.w.trapVec ≠ 0 → ∃ u, trap = .enter u ∧ exec i s = .next (putWave v.key u s)) ∧
          (v.w.trapSt = false → v.w.trapVec = 0 → ∃ u, trap = .go u ∧ exec i s = GoesOn v.key (putLanes .f32 x.d m f u)
            { putWave v.key u s with blocks := mput s.blocks v.w.blk { v.b with choice := mput v.b.choice n.toNat { choiceAt v.b n.toNat with
                prd := true, ach := bound, st := fallsShort node (choiceAt v.b n.toNat) bound } } })
        raises (.frcp x) (fun i => frcpVal iters (valA x v.w i)) ∧ raises (.frsq x) (fun i => frsqVal iters (valA x v.w i)) ∧
        raises (.fexp2 x) (fun i => fexp2Val iters (valA x v.w i)) ∧ raises (.flog2 x) (fun i => flog2Val iters (valA x v.w i)) ∧
        raises (.ftanh x) (fun i => ftanhVal iters (valA x v.w i))) ∧
      (∀ n a, (fDecode fmtF32 a = .nan → frcpVal n a = 0x7FC00000 ∧ frsqVal n a = 0x7FC00000 ∧ fexp2Val n a = 0x7FC00000 ∧
          flog2Val n a = 0x7FC00000 ∧ ftanhVal n a = 0x7FC00000) ∧
        (∀ neg e, fDecode fmtF32 a = .fin neg 0 e → frcpVal n a = (if neg then 0xFF800000 else 0x7F800000) ∧
          frsqVal n a = (if neg then 0xFF800000 else 0x7F800000) ∧ fexp2Val n a = 0x3F800000 ∧ flog2Val n a = 0xFF800000 ∧
          ftanhVal n a = (if neg then 0x80000000 else 0)) ∧
        (fDecode fmtF32 a = .inf false → frcpVal n a = 0 ∧ frsqVal n a = 0 ∧ fexp2Val n a = 0x7F800000 ∧ flog2Val n a = 0x7F800000 ∧ ftanhVal n a = 0x3F800000) ∧
        (fDecode fmtF32 a = .inf true → frcpVal n a = 0x80000000 ∧ frsqVal n a = 0x7FC00000 ∧ fexp2Val n a = 0 ∧ flog2Val n a = 0x7FC00000 ∧ ftanhVal n a = 0xBF800000) ∧
        (∀ q, (fDecode fmtF32 a).rat = some q → q < 0 → frsqVal n a = 0x7FC00000 ∧ flog2Val n a = 0x7FC00000)) ∧
      (∀ a q, (fDecode fmtF32 a).rat = some q → q ≠ 0 → ∃ (neg : Bool) (r : Nat) (e : Int) (more : Bool),
        frcpVal 2 a = fRound fmtF32 0 false neg r e more ∧ (neg = decide (q < 0)) ∧
        (r : Rat) * 2 ^ e ≤ 1 / |q| ∧ 1 / |q| < ((r : Rat) + 1) * 2 ^ e ∧ (more = false ↔ (r : Rat) * 2 ^ e = 1 / |q|) ∧ 2 ^ 100 ≤ r) ∧
      (∀ a q, (fDecode fmtF32 a).rat = some q → 0 < q → ∃ (r : Nat) (e : Int) (more : Bool),
        frsqVal 2 a = fRound fmtF32 0 false false r e more ∧ ((r : Rat) * 2 ^ e) ^ 2 * q ≤ 1 ∧ 1 < (((r : Rat) + 1) * 2 ^ e) ^ 2 * q ∧
        (more = false ↔ ((r : Rat) * 2 ^ e) ^ 2 * q = 1) ∧ 2 ^ 100 ≤ r) ∧
      (∀ n k a q, (n = 0 ∧ k = 12 ∨ n = 1 ∧ k = 22) → (fDecode fmtF32 a).rat = some q → q ≠ 0 →
        let cut := fun (r : Nat) => 2 ^ (k - 1) ≤ r ∧ r < 2 ^ k
        (2 ^ 128 ≤ 1 / |q| → frcpVal n a = if q < 0 then 0xFF800000 else 0x7F800000) ∧
        (1 / |q| < 2 ^ 128 → ∃ (r : Nat) (e : Int), cut r ∧ (r : Rat) * 2 ^ e ≤ 1 / |q| ∧ 1 / |q| < ((r : Rat) + 1) * 2 ^ e ∧
          frcpVal n a = fRound fmtF32 1 false (decide (q < 0)) r e false) ∧
        (0 < q → ∃ (r : Nat) (e : Int), cut r ∧ ((r : Rat) * 2 ^ e) ^ 2 * q ≤ 1 ∧ 1 < (((r : Rat) + 1) * 2 ^ e) ^ 2 * q ∧
          frsqVal n a = fRound fmtF32 1 false false r e false)) ∧
      (∀ n a (z : Int),
        ((fDecode fmtF32 a).rat = some (z : Rat) → (-149 ≤ z → z < 128 → (fDecode fmtF32 (fexp2Val n a)).rat = some ((2 : Rat) ^ z)) ∧
          (128 ≤ z → fexp2Val n a = 0x7F800000) ∧ (z < -149 → fexp2Val n a = 0)) ∧
        ((fDecode fmtF32 a).rat = some ((2 : Rat) ^ z) → (fDecode fmtF32 (flog2Val n a)).rat = some (z : Rat))) ∧
      (let at_ := fun (f : Nat → Nat → Nat) (a : Nat) => [f 0 a, f 1 a, f 2 a]
       at_ frcpVal 0x40400000 = [0x3EAAA000, 0x3EAAAAA8, 0x3EAAAAAB] ∧ at_ frsqVal 0x40400000 = [0x3F13C000, 0x3F13CD38, 0x3F13CD3A] ∧
       at_ fexp2Val 0x3F000000 = [0x3FB50000, 0x3FB504F0, 0x3FB504F3] ∧ at_ flog2Val 0x40400000 = [0x3FCAE000, 0x3FCAE00C, 0x3FCAE00D] ∧
       at_ ftanhVal 0x3F000000 = [0x3EEC9000, 0x3EEC9A9C, 0x3EEC9A9F] ∧ at_ ftanhVal 0x41A00000 = [0x3F7FF000, 0x3F7FFFFC, 0x3F800000])

/-- Whenever the word takes effect, with its v sources full in all 32 lanes, it answers a next state and changes nothing but D: SHFL takes the element of A from lane b mod 32, i - b, i + b or i XOR (b mod 32), or its own where that lies outside 0 to 31; SHFLX writes A of lane i XOR (B mod 32) to D and C of that lane to D + 1; BCAST writes A of lane B mod 32 to every selected lane and KGET writes it to the s destination. That a register amount of .up and .down is read unsigned is the choice of log 12. -/
def Obligations.LaneMoves : Prop :=
  ∀ (x : XW) (key : Nat) (w : Wave) (m : Word32) (s : State),
      (Issues x.guard [srcAll x.a (wideTy x.t) x.ea, srcLanesB x (wideTy x.t)] [dstD x (wideTy x.t)] key w m s →
        (x.sub = 0 → XWrites x (.shfl x) key w m s (fun i => valA x w (valB x w i % 32))) ∧
        (x.sub = 1 → XWrites x (.shfl x) key w m s (fun i => if valB x w i ≤ i then valA x w (i - valB x w i) else valA x w i)) ∧
        (x.sub = 2 → XWrites x (.shfl x) key w m s (fun i => if i + valB x w i < 32 then valA x w (i + valB x w i) else valA x w i)) ∧
        (x.sub = 3 → XWrites x (.shfl x) key w m s (fun i => valA x w (i ^^^ (valB x w i % 32)))) ∧
        XWrites x (.bcast x) key w m s (fun i => valA x w (valB x w i % 32))) ∧
      (∀ n, Issues x.guard [srcAll x.a false x.ea, srcLanesB x false, srcAll x.c false x.ec] [(x.d, 2)] key w m s → x.d = .v n →
        ∃ u, exec (.shflx x) s = GoesOn key u s ∧ u = { w with v := u.v } ∧
          ∀ r i, i < 32 → vReg u r i =
            (if m.getLsbD i ∧ r = n.toNat then BitVec.ofNat 32 (valA x w (i ^^^ (valB x w i % 32)))
             else if m.getLsbD i ∧ r = n.toNat + 1 then BitVec.ofNat 32 (valC x w (i ^^^ (valB x w i % 32)))
             else vReg w r i)) ∧
      (∀ n, Issues x.guard [srcAll x.a (wideTy x.t) x.ea, srcLanesB x (wideTy x.t)] [dstD x false] key w m s → x.d = .s n →
        exec (.kget x) s = GoesOn key (setS w n.toNat (toS x.t (valA x w (valB x w 0 % 32)))) s)

/-- Whenever RED or SCAN takes effect it answers a next state that changes nothing but D. The operation and its identity are those of the table of R218: integers add modulo 2^w from 0, take the minimum from the maximum of the type or the maximum from its minimum, and combine by AND from all ones, by OR and XOR from 0; floating values add, each sum exact and rounded once in mode M, from -0.0, and take the minimum or maximum by the rules of FMIN and FMAX, a NaN yielding, from the canonical NaN. With x[i] the element of a selected lane and the identity elsewhere, RED writes the value that the five levels x[i] = x[2i] + x[2i+1] give to every selected lane or to the s register; SCAN writes in lane i the running combination up to lane i, or with .excl up to the lane before and the identity in lane 0, a NaN being written as the canonical one. -/
def Obligations.ReductionResults : Prop :=
  ∀ (x : XW) (key : Nat) (w : Wave) (m : Word32) (s : State),
      Issues x.guard [srcAll x.a (wideTy x.t) x.ea] [dstD x (wideTy x.t)] key w m s →
      let op := x.sub.toNat % 8
      let fmt := fmtOf x.t
      let zero := fun (n k : Bool) => signBit fmt (if n = k then n else decide (x.m.toNat = 3))
      ∃ (cat : Nat → Nat → Nat) (one : Nat),
        (x.t.isFloat = false → ∀ p q, p < 2 ^ x.t.width → q < 2 ^ x.t.width →
          let a : BitVec x.t.width := BitVec.ofNat _ p
          let b : BitVec x.t.width := BitVec.ofNat _ q
          (op = 0 → one = 0 ∧ cat p q = (a + b).toNat) ∧
          (op = 1 → one = (BitVec.ofInt x.t.width (tyMax x.t)).toNat ∧ cat p q = (if tyInt x.t b < tyInt x.t a then b else a).toNat) ∧
          (op = 2 → one = (BitVec.ofInt x.t.width (tyMin x.t)).toNat ∧ cat p q = (if tyInt x.t a < tyInt x.t b then b else a).toNat) ∧
          (op = 3 → one = 2 ^ x.t.width - 1 ∧ cat p q = (a &&& b).toNat) ∧
          (op = 4 → one = 0 ∧ cat p q = (a ||| b).toNat) ∧ (op = 5 → one = 0 ∧ cat p q = (a ^^^ b).toNat)) ∧
        (x.t.isFloat = true → ∀ p q, p < 2 ^ x.t.width → q < 2 ^ x.t.width →
          let a := fDecode fmt p
          let b := fDecode fmt q
          let r := fDecode fmt (cat p q)
          let picks := (a = .nan → b = .nan → cat p q = fNan fmt) ∧ (a = .nan → b ≠ .nan → cat p q = q) ∧ (b = .nan → a ≠ .nan → cat p q = p)
          (op = 0 → one = 2 ^ (fmt.eb + fmt.fb) ∧ ((a = .nan ∨ b = .nan) → cat p q = fNan fmt) ∧
            (∀ n k, a = .inf n → b = .inf k → cat p q = if n = k then fInf fmt n else fNan fmt) ∧
            (∀ n y, a = .inf n → b.rat = some y → cat p q = fInf fmt n) ∧ (∀ y k, a.rat = some y → b = .inf k → cat p q = fInf fmt k) ∧
            (∀ y z, a.rat = some y → b.rat = some z → (y + z = 0 → cat p q = zero a.signNeg b.signNeg) ∧
              (y + z ≠ 0 → ∃ v : FVal, v.rat = some (y + z) ∧ cat p q = fEncode fmt x.m.toNat false v))) ∧
          (op = 1 → one = fNan fmt ∧ picks ∧ (a ≠ .nan → b ≠ .nan → (cat p q = p ∨ cat p q = q) ∧ fBelow a r = false ∧ fBelow b r = false)) ∧
          (op = 2 → one = fNan fmt ∧ picks ∧ (a ≠ .nan → b ≠ .nan → (cat p q = p ∨ cat p q = q) ∧ fBelow r a = false ∧ fBelow r b = false))) ∧
        let x0 := fun i => if m.getLsbD i then valA x w i else one
        let level := fun (y : Nat → Nat) (i : Nat) => cat (y (2 * i)) (y (2 * i + 1))
        let written := fun (p : Nat) => if x.t.isFloat = true ∧ fDecode fmt p = .nan then fNan fmt else p
        (x.sub.toNat < 6 → exec (.red x) s = .next (putWave key (advance (putLanes x.t x.d m (fun _ => level (level (level (level (level x0)))) 0) w)) s)) ∧
        (∃ y : Nat → Nat, y 0 = x0 0 ∧ (∀ i, i < 31 → y (i + 1) = cat (y i) (x0 (i + 1))) ∧
          ((x.sub.toNat < 6 ∨ 8 ≤ x.sub.toNat) → ∃ f : Nat → Nat, exec (.scan x) s = .next (putWave key (advance (putLanes x.t x.d m f w)) s) ∧
            (x.sub.toNat < 6 → ∀ i < 32, f i = written (y i)) ∧ (8 ≤ x.sub.toNat → f 0 = one ∧ ∀ i < 31, f (i + 1) = written (y i))))

/-- Whenever the word takes effect it answers a next state that changes nothing but D: PACK writes the low 16 or 8 bits of B and A side by side into D, .lo and .hi keeping the other half of D; UNPK writes field q of A, q being B modulo the number of 16-, 8- or 4-bit fields, sign-extended for .i32 and zero-extended for .u32. -/
def Obligations.PackResults : Prop :=
  ∀ (x : XW) (key : Nat) (w : Wave) (m : Word32) (s : State), XReady x key w m s → x.t.width = 32 → x.t.isFloat = false →
      let a := fun i => BitVec.ofNat 32 (valA x w i)
      let b := fun i => BitVec.ofNat 32 (valB x w i)
      let d := fun i => BitVec.ofNat 32 (tyOp w x.lit x.t x.d i)
      (x.sub = 0 → XWrites x (.pack x) key w m s (fun i => ((b i).extractLsb' 0 16 ++ (a i).extractLsb' 0 16).toNat)) ∧
      (x.sub = 1 → XWrites x (.pack x) key w m s (fun i => ((d i).extractLsb' 16 16 ++ (b i).extractLsb' 0 8 ++ (a i).extractLsb' 0 8).toNat)) ∧
      (x.sub = 2 → XWrites x (.pack x) key w m s (fun i => ((b i).extractLsb' 0 8 ++ (a i).extractLsb' 0 8 ++ (d i).extractLsb' 0 16).toNat)) ∧
      (∀ n, (x.sub = 0 ∧ n = 16 ∨ x.sub = 1 ∧ n = 8 ∨ x.sub = 2 ∧ n = 4) →
        XWrites x (.unpk x) key w m s (fun i =>
          let q := (b i).toNat % (32 / n)
          let field := (a i).extractLsb' (n * q) n
          (if x.t.signed then field.signExtend 32 else field.setWidth 32).toNat))

/-- Whenever the word takes effect it answers a next state that changes only its k register, and there only the bits of the selected lanes: CMP writes whether the condition of SUB holds between A and B as integers of the type, FCMP between their rational values, with the infinities outside every finite value, and the fixed results for a NaN. -/
def Obligations.CompareResults : Prop :=
  ∀ (x : XW) (n : BitVec 3) (key : Nat) (w : Wave) (m : Word32) (s : State), x.d = .k n →
      Issues x.guard [srcA x (wideTy x.t), srcB x (wideTy x.t)] [(x.d, 1)] key w m s →
      let holds := fun (lt eq : Bool) => match x.sub.toNat with
        | 0 => eq | 1 => !eq | 2 => lt | 3 => lt || eq | 4 => !(lt || eq) | 5 => !lt | 6 => false | _ => true
      (x.sub.toNat < 6 → x.t.isFloat = false → ∃ k : Word32, exec (.cmp x) s = GoesOn key (setK w n.toNat k) s ∧ ∀ i < 32, k.getLsbD i =
        if m.getLsbD i then
          holds (decide (tyInt x.t (opA x w i) < tyInt x.t (opB x w i))) (decide (tyInt x.t (opA x w i) = tyInt x.t (opB x w i)))
        else (kReg w n.toNat).getLsbD i) ∧
      ((Instr.cmp x).wellFormed = true → x.t = .b32 ∨ x.t = .b64 → x.sub.toNat < 2) ∧
      (x.sub.toNat < 8 → ∃ k : Word32, exec (.fcmp x) s = GoesOn key (setK w n.toNat k) s ∧ ∀ i < 32,
        let a := fDecode (fmtOf x.t) (valA x w i)
        let b := fDecode (fmtOf x.t) (valB x w i)
        (m.getLsbD i = false → k.getLsbD i = (kReg w n.toNat).getLsbD i) ∧
        (m.getLsbD i = true → (a = .nan ∨ b = .nan) → k.getLsbD i = (x.sub == 1 || x.sub == 6)) ∧
        (m.getLsbD i = true → ∀ p q, a.rat = some p → b.rat = some q → k.getLsbD i = holds (decide (p < q)) (decide (p = q))) ∧
        (m.getLsbD i = true → ∀ c d, a = .inf c → b = .inf d → k.getLsbD i = holds (c && !d) (c == d)) ∧
        (m.getLsbD i = true → ∀ c q, a = .inf c → b.rat = some q → k.getLsbD i = holds c false) ∧
        (m.getLsbD i = true → ∀ p d, a.rat = some p → b = .inf d → k.getLsbD i = holds (!d) false))

/-- Whenever the word takes effect it answers a next state that changes only its destination: KOP writes to each selected bit the bit of the combination of its uniform sources; KSET writes whether the value of a v source is nonzero, or the bit of a uniform source; KPOP and KFF1 write to an s register the number of selected lanes whose bit is set, or whose value is nonzero for a v source, and the lowest such lane or 32. That KSET reads a per-lane source other than a v register (LANE, WIDLO, WIDHI) by its value in each lane is the choice of log 12. -/
def Obligations.MaskResults : Prop :=
  ∀ (x : XW) (key : Nat) (w : Wave) (m : Word32) (s : State),
      let a := BitVec.ofNat 32 (valA x w 0)
      let b := BitVec.ofNat 32 (valB x w 0)
      (∀ n, Issues x.guard [srcA x (wideTy x.t), srcB x (wideTy x.t)] [(x.d, 1)] key w m s → x.d = .k n →
        (∀ z : Word32, (x.sub = 0 ∧ z = a &&& b ∨ x.sub = 1 ∧ z = a ||| b ∨ x.sub = 2 ∧ z = a ^^^ b ∨ x.sub = 3 ∧ z = a &&& ~~~b ∨
            x.sub = 4 ∧ z = ~~~a ∨ x.sub = 5 ∧ z = a) →
          exec (.kop x) s = GoesOn key (setK w n.toNat ((kReg w n.toNat &&& ~~~m) ||| (z &&& m))) s) ∧
        ∃ k : Word32, exec (.kset x) s = GoesOn key (setK w n.toNat k) s ∧ ∀ i < 32, k.getLsbD i =
          if m.getLsbD i = false then (kReg w n.toNat).getLsbD i
          else if x.a.perLane then decide (valA x w i ≠ 0) else (valA x w 0).testBit i) ∧
      (∀ n, Issues x.guard [srcCount x] [dstD x false] key w m s → x.d = .s n →
        let hit := fun (i : Nat) => m.getLsbD i && (if isV x.a then decide (valA x w i ≠ 0) else (valA x w 0).testBit i)
        exec (.kpop x) s = GoesOn key (setS w n.toNat (BitVec.ofNat 64 (Finset.univ.filter (fun i : Fin 32 => hit i = true)).card)) s ∧
        ∃ r : Nat, exec (.kff1 x) s = GoesOn key (setS w n.toNat (BitVec.ofNat 64 r)) s ∧ r ≤ 32 ∧
          (∀ i < r, hit i = false) ∧ (r < 32 → hit r = true))

/-- Whenever its guard selects a lane and its register is full, NOP, BRA, BZ, BNZ, BANY, BALL, BNONE, LOOP, CALL, RET and JMPI answer a next state in which the clause has ended and the PC is the target (H + 8 x OFF, or the register of RET and JMPI) if the condition of R88 holds, else the address of the next header; LOOP writes its decremented register, CALL its link register, and no other register, no memory and no other state changes. RET and JMPI with nonzero low bits raise Illegal Instruction instead, naming the transfer. -/
def Obligations.TransferResults : Prop :=
  ∀ (j : JW) (key : Nat) (w : Wave) (m : Word32) (s : State),
      let off := w.pc + (j.off.signExtend 64) * 8
      let goes := fun (u : Wave) (taken : Prop) [Decidable taken] (a : Word64) =>
        (Host.Outcome.next (putWave key (endClause (if taken then a else nextHeader w) u) s) : Result)
      (Issues j.guard [{ o := j.a }] [] key w m s →
        exec (.nop j) s = goes w False off ∧ exec (.bra j) s = goes w True off ∧
        (∀ n, j.a = .s n → exec (.bz j) s = goes w (sReg w n.toNat = 0) off ∧ exec (.bnz j) s = goes w (sReg w n.toNat ≠ 0) off) ∧
        (∀ n, j.a = .k n → exec (.bz j) s = goes w (kReg w n.toNat = 0) off ∧ exec (.bnz j) s = goes w (kReg w n.toNat ≠ 0) off ∧
          exec (.bany j) s = goes w (kReg w n.toNat &&& m ≠ 0) off ∧ exec (.ball j) s = goes w (kReg w n.toNat &&& m = m) off ∧
          exec (.bnone j) s = goes w (kReg w n.toNat &&& m = 0) off) ∧
        (∀ n, j.a = .s n → sReg w n.toNat &&& 7 = 0 →
          exec (.ret j) s = goes w True (sReg w n.toNat) ∧ exec (.jmpi j) s = goes w True (sReg w n.toNat)) ∧
        (∀ n, j.a = .s n → sReg w n.toNat &&& 7 ≠ 0 → exec (.ret j) s = illegalWord w s ∧ exec (.jmpi j) s = illegalWord w s)) ∧
      (∀ n, Issues j.guard [{ o := j.a }] [(j.a, 1)] key w m s → j.a = .s n →
        exec (.loop j) s = goes (setS w n.toNat (sReg w n.toNat - 1)) (sReg w n.toNat - 1 ≠ 0) off) ∧
      (∀ n, Issues j.guard [] [(j.a, 1)] key w m s → j.a = .s n →
        exec (.call j) s = goes (setS w n.toNat (nextHeader w)) True off) ∧
      (∀ c, w.clause = some c → nextHeader w = w.pc + BitVec.ofNat 64 (8 * (c.words.length + 1)))

/-- Whenever END takes effect it answers a next state in which its wave has ended, holds no clause and issues nothing more; where no two present waves hold at PHASEs that name different conditions, every other wave is as it was, and so are memory, tags, tiles and the block of every wave but for the barriers of its own block and group. Where every other present wave holds at a PHASE and two of them differ, the block takes the hard fault of R56. -/
def Obligations.EndRetiresTheWave : Prop :=
  ∀ (j : JW) (v : View) (m : Word32) (s : State), Acts j.guard [] [] v m s → v.w.ended = false → v.w.parked = none →
      let others := (presentOf s v.w.blk).filter (fun e => e.1 != v.key)
      ((∀ p ∈ others, ∀ q ∈ others, ∀ x y, p.2.phase = some x → q.2.phase = some y → samePhase x y = true) → ∃ t w', exec (.endWave j) s = .next t ∧ mget t.waves v.key = some w' ∧ w'.ended = true ∧ w'.clause = none ∧
        w'.s = v.w.s ∧ w'.k = v.w.k ∧ w'.v = v.w.v ∧ mayIssue t v.key = false ∧
        (∀ k, k ≠ v.key → mget t.waves k = mget s.waves k) ∧ t.mem = s.mem ∧ t.tags = s.tags ∧ t.ctxs = s.ctxs ∧
        ∀ k b, mget s.blocks k = some b → ∃ b', mget t.blocks k = some b' ∧ b' = { b with bars := b'.bars, cArr := b'.cArr }) ∧
      ((∀ p ∈ others, p.2.phase ≠ none) → (∃ p ∈ others, ∃ q ∈ others, ∃ x y, p.2.phase = some x ∧ q.2.phase = some y ∧ samePhase x y = false) →
        v.b.life = .running → v.b.endAs = none → ∃ t b', exec (.endWave j) s = .next t ∧ mget t.blocks v.w.blk = some b' ∧ b'.endAs = some .faulted)

/-- RPT and RPT with a register count n answer a next state whenever the count register is full: n = 0 passes over the next word and its literal; n from 1 to 64 with every stepped register in its file makes the resume point iteration 0 of the next word; a stepped register out of its file, or a count above 64, raises Illegal Instruction. No register is written. That the fault is raised at the RPT word itself, before any iteration, is the choice of log 13. -/
def Obligations.RepeatBegins : Prop :=
  ∀ (key : Nat) (w : Wave) (c : Clause) (steps : Steps) (raw : Word64) (i : Instr) (s : State),
      current s = some (key, w) → w.clause = some c → nextWord c = some raw → decodeWord raw (c.words[c.idx + 2]?) = .ok i → w.kE.contains 0 = false →
      let begins := fun (n : Nat) => (Host.Outcome.next (putWave key { w with
        clause := some { c with idx := c.idx + 1, rpt := some { count := n, iter := 0, steps := steps } }, noE := false, arv := false, again := 0 } s) : Result)
      (∀ n : BitVec 6, stepsInFile w.allot (n.toNat + 1) steps i = true → exec (.rpt n steps) s = begins (n.toNat + 1)) ∧
      (∀ n : BitVec 6, stepsInFile w.allot (n.toNat + 1) steps i = false → exec (.rpt n steps) s = illegalWord w s) ∧
      (∀ r : BitVec 6, r.toNat ∉ w.sE →
        let n := (sReg w r.toNat).toNat
        (n = 0 → exec (.rptRegister r steps) s = .next (putWave key (stepOver (stepOver w)) s)) ∧
        (0 < n → n ≤ 64 → stepsInFile w.allot n steps i = true → exec (.rptRegister r steps) s = begins n) ∧
        (0 < n → n ≤ 64 → stepsInFile w.allot n steps i = false → exec (.rptRegister r steps) s = illegalWord w s) ∧
        (64 < n → exec (.rptRegister r steps) s = illegalWord w s))

/-- For a word of format X, M or K, the fields D, A and B, and C of formats X and K, each with step 0 or naming a v or s register that the step keeps in its file: the word that iteration k issues has each register number raised by k x step and every other bit unchanged, in format M, whose C step is 0, the offset and the fields below it too; after an iteration that is not the last the resume point is the next iteration of the same word, after the last it lies behind the word and its literal. -/
def Obligations.RepeatIterations : Prop :=
  (∀ (raw : Word64) (st : Steps) (k : Nat) (lo : Nat) (step : BitVec 8) (o : Operand), k < 64 →
        (lo, step) ∈ [(39, st.d), (30, st.a), (21, st.b), (12, st.c)] → Operand.decode (raw.extractLsb' lo 9) = some o →
        (∀ p ∈ [(39, st.d), (30, st.a), (21, st.b), (12, st.c)], p.2 = 0 ∨ ∃ q, Operand.decode (raw.extractLsb' p.1 9) = some q ∧
          ((∃ n, q = .v n) ∨ ∃ n, q = .s n) ∧ q.inFile 256 ((k : Int) * p.2.toInt) = true) →
        (∀ n, o = .v n → Operand.decode ((stepWord raw st k).extractLsb' lo 9) = some (.v (BitVec.ofInt 8 ((n.toNat : Int) + k * step.toInt)))) ∧
        (∀ n, o = .s n → Operand.decode ((stepWord raw st k).extractLsb' lo 9) = some (.s (BitVec.ofInt 6 ((n.toNat : Int) + k * step.toInt)))) ∧
        (∀ p ∈ [(39, st.d), (30, st.a), (21, st.b), (12, st.c)], p.2 = 0 → (stepWord raw st k).extractLsb' p.1 9 = raw.extractLsb' p.1 9) ∧
        (st.c = 0 → (stepWord raw st k).extractLsb' 0 21 = raw.extractLsb' 0 21) ∧
        (stepWord raw st k).extractLsb' 48 16 = raw.extractLsb' 48 16 ∧ (stepWord raw st k).extractLsb' 0 12 = raw.extractLsb' 0 12) ∧
      (∀ (w : Wave) (c : Clause) (r : Repeat) (raw : Word64), w.clause = some c → c.rpt = some r → rawWord c = some raw →
        (r.iter + 1 < r.count → (advance w).clause = some { c with rpt := some { r with iter := r.iter + 1 } } ∧ (advance w).pc = w.pc) ∧
        (r.count ≤ r.iter + 1 → c.idx + wordLength raw < c.words.length →
          (advance w).clause = some { c with idx := c.idx + wordLength raw, rpt := none } ∧ (advance w).pc = w.pc) ∧
        (r.count ≤ r.iter + 1 → c.words.length ≤ c.idx + wordLength raw →
          (advance w).clause = none ∧ (advance w).pc = w.pc + BitVec.ofNat 64 (8 * (c.words.length + 1))))

/-- Every instruction word with a guard: while its guard register is empty nothing changes; once it is full and selects no lane the word answers the state in which its wave has gone on and nothing else has changed. Every format X word of three sources whose guard selects a lane: if a source or the destination is empty and no empty source has its E bit set (after TRET.wait none counts as set), nothing changes and the word waits; the first empty source with its E bit set raises Empty Source with the lanes found empty, and the word has taken no effect; without a handler it waits from then on as if its E bits were 0. That sources with E are tested before any other wait is the order of log 11. -/
def Obligations.WordsWaitOrPass : Prop :=
  (∀ (i : Instr) (g : Guard) (key : Nat) (w : Wave) (s : State), i.guard? = some g → current s = some (key, w) →
        (guardEmpty w g = true → exec i s = .next s) ∧
        (guardEmpty w g = false → guardMask w g = 0 → exec i s = .next (putWave key (advance w) s))) ∧
      (∀ (x : XW) (f : Wave → Nat → Nat) (key : Nat) (w : Wave) (m : Word32) (s : State),
        current s = some (key, w) → guardEmpty w x.guard = false → guardMask w x.guard = m → m ≠ 0 →
        let wide := wideTy x.t
        let empty := fun (o : Operand) => emptyIn w o (regsOf wide o) m
        let trapped := fun (e : Bool) (o : Operand) => e = true ∧ w.noE = false ∧ empty o ≠ 0
        let raises := fun (o : Operand) => xWord x f s =
          (match softTrap w { cause := 1, o := o, lanes := empty o } with
           | .hard => illegalWord w s
           | .fault u => illegalWord u (putWave key u s)
           | .enter u => .next (putWave key u s)
           | .go u => .next (putWave key { u with noE := true } s))
        (¬ trapped x.ea x.a → ¬ trapped x.eb x.b → ¬ trapped x.ec x.c →
          (empty x.a ≠ 0 ∨ empty x.b ≠ 0 ∨ empty x.c ≠ 0 ∨ empty x.d ≠ 0) → xWord x f s = .next s) ∧
        (trapped x.ea x.a → raises x.a) ∧
        (¬ trapped x.ea x.a → trapped x.eb x.b → raises x.b) ∧
        (¬ trapped x.ea x.a → ¬ trapped x.eb x.b → trapped x.ec x.c → raises x.c) ∧
        (empty x.a = 0 → empty x.b = 0 → empty x.c = 0 → empty x.d = 0 → xWord x f s = GoesOn key (putLanes x.t x.d m (f w) w) s))

/-- With a handler and outside it, a soft trap changes only its wave: trap.st becomes 1, the PC the handler address with no clause started, the resume point is kept (the raising word for causes 1 to 5, the next word for TRAP and BKPT), the record holds cause, opcode, immediate, source code, resume point, address, detail and lanes, and no register changes. A clause that TRAP or BKPT ends so leaves its Y hint and its YIELD to the wave. Without a handler the record is written alike and the default action follows, which for cause 5 is an Illegal Instruction hard fault; inside a handler the trap becomes that fault and the record stays; that it does so with trap.vec = 0 too is the reading of log 11. -/
def Obligations.SoftTrapEntry : Prop :=
  ∀ (w : Wave) (t : TrapSpec) (c : Clause) (raw : Word64), w.clause = some c → rawWord c = some raw → t.imm < 2 ^ 16 → t.cause < 2 ^ 8 →
      c.idx < 32 → (∀ r, c.rpt = some r → r.iter < 64) →
      let place := if t.cause ≤ 5 then w else advance w
      let fills := fun (r : TrapRec) =>
        r.w0.extractLsb' 0 8 = BitVec.ofNat 8 t.cause ∧ r.w0.extractLsb' 8 8 = raw.extractLsb' 56 8 ∧ r.w0.extractLsb' 16 16 = BitVec.ofNat 16 t.imm ∧
        r.w0.extractLsb' 32 9 = (if t.cause = 1 then t.o.encode else 0) ∧ r.w0.extractLsb' 41 23 = 0 ∧
        r.w1 = place.pc ∧
        (∀ c', place.clause = some c' → c'.idx < 32 → r.w2.extractLsb' 0 5 = BitVec.ofNat 5 c'.idx ∧
          r.w2.extractLsb' 8 6 = (match c'.rpt with | some q => BitVec.ofNat 6 q.iter | none => 0)) ∧
        (place.clause = none → r.w2 = 0) ∧ r.w3 = BitVec.ofNat 64 t.addr ∧ r.w4 = BitVec.ofNat 64 t.detail ∧ r.w5 = t.lanes.setWidth 64
      (w.trapSt = true → softTrap w t = .hard) ∧
      (w.trapSt = false → w.trapVec = 0 → t.cause = 5 → ∃ r, softTrap w t = .fault { w with trec := r } ∧ fills r) ∧
      (w.trapSt = false → w.trapVec = 0 → t.cause ≠ 5 → ∃ r, softTrap w t = .go { w with trec := r } ∧ fills r) ∧
      (w.trapSt = false → w.trapVec ≠ 0 → ∃ u, softTrap w t = .enter u ∧ fills u.trec ∧ u.trapSt = true ∧ u.pc = w.trapVec ∧ u.clause = none ∧
        u.resume = some { pc := place.pc, clause := place.clause, retry := decide (t.cause ≤ 5) } ∧
        u = { place with trec := u.trec, trapSt := true, resume := u.resume, pc := w.trapVec, clause := none, again := 0, noE := false, arv := false, held := false, age := 0, aged := false })

/-- TRAP and BKPT answer a next state whenever their guard selects a lane outside a handler: without a handler the record is written and the wave goes on to the next word of the clause; with one the wave enters it, to resume at the next word. BKPT also counts in the breakpoint counter. Inside a handler they raise Illegal Instruction. TRET outside a handler raises Illegal Instruction; inside it clears trap.st and continues at the saved resume point, TRET.skip behind a word that took no effect and TRET.wait at it with every E bit taken as 0. The order of a word and its traps is that of log 11. -/
def Obligations.TrapWords : Prop :=
  ∀ (y : YW) (key : Nat) (w : Wave) (m : Word32) (s : State), Issues y.guard [] [] key w m s →
      let trap := fun (u : Wave) (cause : Nat) => softTrap u { cause := cause, imm := y.imm.toNat, lanes := m }
      let counts := { w with bkpts := w.bkpts + 1 }
      (w.trapSt = false → w.trapVec = 0 →
        (∃ u, trap w 6 = .go u ∧ exec (.trap y) s = .next (putWave key (advance u) s)) ∧
        (∃ u, trap counts 7 = .go u ∧ exec (.bkpt y) s = .next (putWave key (advance u) s))) ∧
      (w.trapSt = false → w.trapVec ≠ 0 →
        (∃ u, trap w 6 = .enter u ∧ exec (.trap y) s = .next (putWave key u s)) ∧
        (∃ u, trap counts 7 = .enter u ∧ exec (.bkpt y) s = .next (putWave key u s))) ∧
      (w.trapSt = true → exec (.trap y) s = illegalWord w s ∧ exec (.bkpt y) s = illegalWord counts (putWave key counts s)) ∧
      (w.trapSt = false → exec (.tret y) s = illegalWord w s) ∧
      (∀ r, w.trapSt = true → w.resume = some r → ∃ back : Wave,
        back = { endClause r.pc w with trapSt := false, resume := none, clause := r.clause } ∧
        (r.retry = false ∨ y.imm = 0 → exec (.tret y) s = .next (putWave key back s)) ∧
        (r.retry = true → y.imm = 1 → exec (.tret y) s = .next (putWave key (advance back) s)) ∧
        (r.retry = true → y.imm = 2 → exec (.tret y) s = .next (putWave key { back with noE := true } s)))

/-- Whenever the word takes effect it answers a next state that changes only its destination: SYSR writes the system register that its immediate names (core number, partition and ASID, phase value, page state, trap vector, trap state, back-off level, tier misses); SYSW writes trap.vec, if the low bits are zero (else Illegal Instruction), or tier.miss; TICKS writes the tick counter; FAULTRD a word of the trap record. No other system register can be written, and no word encodes another number. -/
def Obligations.SystemRegisters : Prop :=
  ∀ (y : YW) (v : View) (m : Word32) (s : State),
      (∀ d, y.d = .s d → Acts y.guard [] [(y.d, 1)] v m s →
        let writes := fun (i : Instr) (x : Word64) => exec i s = GoesOn v.key (setS v.w d.toNat x) s
        (y.imm = 0 → ∀ c, v.b.core = some c → writes (.sysr y) (BitVec.ofNat 64 c)) ∧
        (y.imm = 1 → writes (.sysr y) (BitVec.ofNat 64 (v.c.ent.part * 4096 + v.g.asid))) ∧
        (y.imm = 2 → writes (.sysr y) v.w.phaseVal) ∧
        (y.imm = 3 → v.g.d.kind ≠ 1 → writes (.sysr y) 0) ∧
        (y.imm = 3 → v.g.d.kind = 1 → writes (.sysr y) (BitVec.ofNat 64 (16 + (if v.b.sd then 8 else 0) + v.b.rl))) ∧
        (y.imm = 4 → writes (.sysr y) v.w.trapVec) ∧
        (y.imm = 5 → writes (.sysr y) (if v.w.trapSt then 1 else 0)) ∧
        (y.imm = 6 → writes (.sysr y) (BitVec.ofNat 64 v.w.backoff)) ∧
        (y.imm = 7 → writes (.sysr y) v.w.tierMiss) ∧
        writes (.ticks y) s.time.ticks ∧
        (∀ n x, y.imm.toNat = n → [v.w.trec.w0, v.w.trec.w1, v.w.trec.w2, v.w.trec.w3, v.w.trec.w4, v.w.trec.w5][n]? = some x → writes (.faultrd y) x)) ∧
      (Issues y.guard [srcYB y] [] v.key v.w m s →
        let x := rawOp v.w y.lit false y.b 0
        (y.imm = 4 → x &&& 7 = 0 → exec (.sysw y) s = GoesOn v.key { v.w with trapVec := x } s) ∧
        (y.imm = 4 → x &&& 7 ≠ 0 → exec (.sysw y) s = illegalWord v.w s) ∧
        (y.imm = 7 → exec (.sysw y) s = GoesOn v.key { v.w with tierMiss := x } s)) ∧
      ((Instr.sysr y).wellFormed = true → y.imm.toNat < 8) ∧ ((Instr.sysw y).wellFormed = true → y.imm = 4 ∨ y.imm = 7) ∧
      ((Instr.faultrd y).wellFormed = true → y.imm.toNat < 6)

/-- Whenever the word acts, every access passes its checks, no line is empty and no older operation orders it, LD, LDB and LDB.z answer a next state with one more result on its way: for each lane the bytes its pointer addresses, the own newest store of the wave before memory, and zero in the lanes of LDB.z that lie outside the buffer; D is empty in the selected lanes; every other wave, every block, context and tag is as before, and memory but for the accessed bits of R280. LDB needs every lane inside the buffer of an intact descriptor. That the value is bound when the word issues is the choice of log 3; that a uniform access of the stack window uses the stack of lane 0 is that of log 32. -/
def Obligations.LoadWords : Prop :=
  ∀ (m : MW) (v : View) (mask : Word32) (s : State),
      (Acts m.guard [ptrSrc m m.a] [(m.d, dataRegs m.sz m.d)] v mask s →
        LoadIssues { dest := m.d, size := Sys2Proof.sizeOf m.sz, sx := m.x, mask := mask, accs := (memLanes m mask).map (fun i => (i, laneAddr m v.w i)), zeros := [], shared := !isV m.a, acq := systemAcq m, src := m.a, e := m.e } v s (exec (.ld m) s)) ∧
      (Acts m.guard (bufSrcs m) [(m.d, dataRegs m.sz m.d)] v mask s →
        let d := bufOf v.w m.a
        let lanes := if isV m.d || isV m.b then lanesOf mask else [0]
        let e := bufOffset m v.w
        let inside := fun i => 0 ≤ e i ∧ e i + Sys2Proof.sizeOf m.sz ≤ d.len
        d.malformed = false → (∀ i ∈ lanes, inside i → (ptrAddr d.lo : Int) + e i < 2 ^ 60) →
        ((∀ i ∈ lanes, inside i) → LoadIssues { dest := m.d, size := Sys2Proof.sizeOf m.sz, sx := m.x, mask := mask, accs := lanes.map (fun i => (i, bufPtr d (e i))), zeros := [], shared := !isV m.b, acq := systemAcq m, src := m.a, e := m.e } v s (exec (.ldb m) s)) ∧
        (∃ ins out : List Nat, ins = lanes.filter (fun i => decide (inside i)) ∧ out = lanes.filter (fun i => !decide (inside i)) ∧
          LoadIssues { dest := m.d, size := Sys2Proof.sizeOf m.sz, sx := m.x, mask := mask, accs := ins.map (fun i => (i, bufPtr d (e i))), zeros := out, shared := !isV m.b, acq := systemAcq m, src := m.a, e := m.e } v s (exec (.ldbZ m) s)))

/-- LOAD_DATA_RETURN of an intact result answers a next state in which the result is off its way and D holds, in each of its lanes, the value: 1, 2 and 4 bytes zero- or sign-extended to a v register, 8 and 16 bytes across a pair or quad, up to 8 bytes extended to an s register and 16 across a pair; D is full there; every other register of the wave, every other wave, memory, blocks and contexts are as before. Where the value has parts on a far page, each byte is that of the newest part that covers it, taken from the arrived data, the parts one after another; a part of a uniform access serves every lane. -/
def Obligations.ReturnedResults : Prop :=
  ∀ (wave index : Nat) (w : Wave) (r : Return) (bytes : Nat) (s : State), mget s.waves wave = some w → w.returns[index]? = some r → r.bad = none →
      (r.lanes.map Prod.fst).Nodup → (∀ l ∈ r.lanes, l.1 < 32) →
      let covers := fun (q : FarPart) (l : Nat × Nat) (k : Nat) => (q.shared = true ∨ q.lane = l.1) ∧ q.off ≤ k ∧ k < q.off + q.len
      ∃ (val : Nat × Nat → Nat) (w' : Wave),
        (∀ l k, (∀ q ∈ r.far, ¬ covers q l k) → field (val l) (8 * k) 8 = field l.2 (8 * k) 8) ∧
        (∀ l k j q, r.far[j]? = some q → covers q l k → (∀ i x, j < i → r.far[i]? = some x → ¬ covers x l k) →
          field (val l) (8 * k) 8 = field bytes (8 * (((r.far.take j).map (fun x => x.len)).sum + (k - q.off))) 8) ∧
        (r.far = [] → ∀ l, val l = l.2) ∧ exec (.loadDataReturn wave index (.data bytes)) s = .next { s with waves := mput s.waves wave w' } ∧
        w' = { w with returns := w.returns.eraseIdx index, s := w'.s, v := w'.v, k := w'.k, sE := w'.sE, vE := w'.vE, kE := w'.kE } ∧
        (∀ n, r.dest = .v n → w'.s = w.s ∧ w'.k = w.k ∧ w'.sE = w.sE ∧ w'.kE = w.kE ∧
          (∀ l ∈ r.lanes, (r.size ≤ 4 → vReg w' n.toNat l.1 = BitVec.ofNat 32 (if r.sx then signExt (8 * r.size) 32 (val l) else val l)) ∧
            (∀ j, 4 < r.size → j < r.size / 4 → vReg w' (n.toNat + j) l.1 = BitVec.ofNat 32 (val l / 2 ^ (32 * j))) ∧
            (∀ j, j < resultRegs r.dest r.size → ((n.toNat + j) * 32 + l.1) ∉ w'.vE)) ∧
          (∀ q i, i < 32 → ((q < n.toNat ∨ n.toNat + resultRegs r.dest r.size ≤ q) ∨ (∀ l ∈ r.lanes, l.1 ≠ i)) →
            vReg w' q i = vReg w q i ∧ ((q * 32 + i) ∈ w'.vE ↔ (q * 32 + i) ∈ w.vE))) ∧
        (∀ n x, r.dest = .s n → r.lanes = [(0, x)] → w'.v = w.v ∧ w'.k = w.k ∧ w'.vE = w.vE ∧ w'.kE = w.kE ∧ n.toNat ∉ w'.sE ∧
          (r.size ≤ 8 → sReg w' n.toNat = BitVec.ofNat 64 (if r.sx then signExt (8 * r.size) 64 (val (0, x)) else val (0, x)) ∧
            ∀ q, q ≠ n.toNat → sReg w' q = sReg w q ∧ (q ∈ w'.sE ↔ q ∈ w.sE)) ∧
          (8 < r.size → sReg w' n.toNat = BitVec.ofNat 64 (val (0, x)) ∧ sReg w' (n.toNat + 1) = BitVec.ofNat 64 (val (0, x) / 2 ^ 64) ∧ n.toNat + 1 ∉ w'.sE ∧
            ∀ q, q ≠ n.toNat → q ≠ n.toNat + 1 → sReg w' q = sReg w q ∧ (q ∈ w'.sE ↔ q ∈ w.sE)))

/-- Whenever the word acts, no lane fails its checks, no line it writes is empty, a release finds the side log empty, one at system scope no load from the far side outstanding, and the counter and log have room, ST, STB and STB.z answer a next state in which the wave holds one more store: for each lane the bytes of its data at its address, lowest first, STB.z leaving out the lanes outside the buffer; oc.st is one higher, and no register, no byte of memory and nothing else has changed. STB needs every lane inside a writable buffer of an intact descriptor. That a uniform ST or STB in the stack window reaches the stack of lane 0 is the reading of log 32. -/
def Obligations.StoreWords : Prop :=
  ∀ (m : MW) (v : View) (mask : Word32) (s : State),
      let n := Sys2Proof.sizeOf m.sz
      let chk := fun p => checkAccess s v .store (some (ptrTag p)) (ptrAddr p) n
      let stores := fun (accs : List (Nat × Nat)) (o : Operand) (i : Instr) =>
        NoneFails chk accs → emptyLineLanes v.b accs n = [] → ¬ (m.ord = 2 ∧ hasLogged v.w = true) → ¬ (systemRel m = true ∧ farLoadsOut v.w = true) →
        Queues (.store (accs.map (fun a => { lane := a.1, addr := ptrAddr a.2, tag := ptrTag a.2, data := natToBytes n (dataVal m v.w o a.1) })))
          true false (lanePending chk accs) id v s (exec i s)
      (Acts m.guard [ptrSrc m m.a, dataSrc m m.b] [] v mask s → stores ((memLanes m mask).map (fun i => (i, laneAddr m v.w i))) m.b (.st m)) ∧
      (Acts m.guard (bufSrcs m ++ [dataSrc m m.d]) [] v mask s →
        let d := bufOf v.w m.a
        let lanes := if isV m.d || isV m.b then lanesOf mask else [0]
        let e := bufOffset m v.w
        let inside := fun i => 0 ≤ e i ∧ e i + n ≤ d.len
        d.malformed = false → d.ro = false → (∀ i ∈ lanes, inside i → (ptrAddr d.lo : Int) + e i < 2 ^ 60) →
        ((∀ i ∈ lanes, inside i) → stores (lanes.map (fun i => (i, bufPtr d (e i)))) m.d (.stb m)) ∧
        stores ((lanes.filter (fun i => decide (inside i))).map (fun i => (i, bufPtr d (e i)))) m.d (.stbZ m))

/-- STORE_ACKNOWLEDGE of the next store of a wave on its core answers a next state in which the store is off the queue and acknowledged: oc.st counts from the oldest operation that is not (R142). Stores to the A window: every byte of the allocation is that of the last piece that covers it, else as before, and no byte of device memory changes. A one-lane store of n bytes to the stack window changes exactly the n bytes at the address stackPa gives. A one-lane store inside one 64 KiB unit of a tier 1, tier 2 or host page changes the n bytes at the physical address of its translation, and of the rest of memory only the eight bytes of the leaf its translation used. -/
def Obligations.StoresReachMemory : Prop :=
  ∀ (wave : Nat) (v : View) (e : MqEntry) (pieces : List Piece) (s : State), viewOf s wave = some v → onCore v = true → nextStore v.w = some (0, e) →
      e.op = .store pieces → (∀ q ∈ pieces, q.data ≠ [] ∧ checkAccess s v .store (some q.tag) q.addr q.data.length = .ok) →
      let gone := fun (w : Wave) => ackSt e.no (dropOp 0 w)
      ((∀ q ∈ pieces, windowOf q.addr = .a) → ∃ t b, exec (.storeAcknowledge wave true) s = .next t ∧
        mget t.waves v.key = some (gone v.w) ∧ t.mem = s.mem ∧ mget t.blocks v.w.blk = some b ∧ b = { v.b with a := b.a } ∧
        ∀ off, mgetD b.a off blankByte = pieces.foldl (fun x q =>
          if q.addr - aBase ≤ off ∧ off < q.addr - aBase + q.data.length then q.data.getD (off - (q.addr - aBase)) 0 else x) (mgetD v.b.a off blankByte)) ∧
      (∀ q, pieces = [q] → windowOf q.addr = .stack → ∃ t, exec (.storeAcknowledge wave true) s = .next t ∧
        mget t.waves v.key = some (gone v.w) ∧ t.blocks = s.blocks ∧ t.ctxs = s.ctxs ∧
        (∀ j < q.data.length, physByte t (stackPa v q.lane (q.addr - sBase) + j) = q.data.getD j 0) ∧
        ∀ a, (a < stackPa v q.lane (q.addr - sBase) ∨ stackPa v q.lane (q.addr - sBase) + q.data.length ≤ a) → physByte t a = physByte s a) ∧
      (∀ q pa leaf level p, pieces = [q] → windowOf q.addr = .global → q.addr % 65536 + q.data.length ≤ 65536 →
        xlate s v.g.asid (rootOf v.c) q.addr true = .ok pa leaf level p → leafTier leaf ≤ 2 →
        ∃ t, exec (.storeAcknowledge wave true) s = .next t ∧ mget t.waves v.key = some (gone v.w) ∧ t.blocks = s.blocks ∧ t.ctxs = s.ctxs ∧
        (∀ j < q.data.length, physByte t (pa + j) = q.data.getD j 0) ∧
        ∀ a, (a < pa ∨ pa + q.data.length ≤ a) → (p = 0 ∨ a < p ∨ p + 8 ≤ a) → physByte t a = physByte s a)

/-- Whenever the word acts, no lane fails its checks, it is no .fadd of a DET = 1 launch, no ordering holds it and there is room, ATOM and ARED answer a next state in which the wave holds one more atomic, with the address, operand and compare value of every lane; ATOM marks D empty in the selected lanes and raises no counter (and waits for pending translations), ARED raises oc.st; nothing else changes. A .fadd of a DET = 1 launch raises the Determinism soft trap and takes no effect; that word 3 of its record is 0 is the choice of log 43. -/
def Obligations.AtomicWords : Prop :=
  ∀ (m : MW) (v : View) (mask : Word32) (s : State),
      let accs := (memLanes m mask).map (fun i => (i, laneAddr m v.w i))
      let chk := fun p => checkAtomic s v (ptrAddr p) (Sys2Proof.sizeOf m.sz) (ptrTag p)
      let op := fun (ret : Bool) => MemOp.atom ret m.sub.toNat (Sys2Proof.sizeOf m.sz) m.d
        (accs.map (fun a => { lane := a.1, addr := ptrAddr a.2, tag := ptrTag a.2, b := atomOperand m v.w a.1, cmp := if m.sub = 9 then dataVal m v.w m.d a.1 else 0 }))
      (Acts m.guard ([ptrSrc m m.a, dataSrc m m.b] ++ (if m.sub = 9 then [dataSrc m m.d] else [])) [(m.d, dataRegs m.sz m.d)] v mask s →
        (¬ (m.sub = 10 ∧ v.g.d.det = true) → (∀ a ∈ accs, chk a.2 = .ok) → ¬ (2 ≤ m.ord.toNat ∧ hasLogged v.w = true) → ¬ (systemRel m = true ∧ farLoadsOut v.w = true) →
          Queues (op true) false (m.ord = 1 || m.ord = 3) false (fun w => markEmpty m.d (dataRegs m.sz m.d) mask w) v s (exec (.atom m) s)) ∧
        (m.sub = 10 → v.g.d.det = true → exec (.atom m) s = raiseTrap v.key v.w { cause := 5, lanes := mask } (fun _ t => .next t) s)) ∧
      (Acts m.guard [ptrSrc m m.a, dataSrc m m.b] [] v mask s →
        (¬ (m.sub = 10 ∧ v.g.d.det = true) → NoneFails chk accs → ¬ (2 ≤ m.ord.toNat ∧ hasLogged v.w = true) → ¬ (systemRel m = true ∧ farLoadsOut v.w = true) →
          Queues (op false) true (m.ord = 1 || m.ord = 3) (lanePending chk accs) id v s (exec (.ared m) s)) ∧
        (m.sub = 10 → v.g.d.det = true → exec (.ared m) s = raiseTrap v.key v.w { cause := 5, lanes := mask } (fun _ t => .next t) s))

/-- The new value of a location is that of the table of R158 at a width of 8 x size bits: sums, bitwise operations, signed and unsigned minima and maxima, exchange, compare and swap, and the FP32 operations, on every pair of operands: the FP32 sum is rounded once to nearest even, with infinities and exact zeros as IEEE 754 has them and every NaN canonical; the minimum and maximum take -0 below +0 and a NaN for less than any other operand. When lanes are performed each reads what the lane before it left and, returning, receives the value before its own operation. -/
def Obligations.AtomicValues : Prop :=
  (∀ (size old b cmp : Nat), old < 2 ^ (8 * size) → b < 2 ^ (8 * size) → 0 < size →
        let x : BitVec (8 * size) := BitVec.ofNat _ old
        let y : BitVec (8 * size) := BitVec.ofNat _ b
        atomVal 0 size old b cmp = (x + y).toNat ∧ atomVal 1 size old b cmp = (x &&& y).toNat ∧ atomVal 2 size old b cmp = (x ||| y).toNat ∧
        atomVal 3 size old b cmp = (x ^^^ y).toNat ∧ atomVal 4 size old b cmp = (if y.slt x then y else x).toNat ∧
        atomVal 5 size old b cmp = (if x.slt y then y else x).toNat ∧ atomVal 6 size old b cmp = Min.min old b ∧
        atomVal 7 size old b cmp = Max.max old b ∧ atomVal 8 size old b cmp = b ∧ (atomVal 9 size old b old = b) ∧
        (old ≠ cmp → atomVal 9 size old b cmp = old)) ∧
      (∀ (old b : Nat), old < 2 ^ 32 → b < 2 ^ 32 → let x := fDecode fmtF32 old
        let y := fDecode fmtF32 b
        ((x = .nan ∨ y = .nan) → atomVal 10 4 old b 0 = 0x7FC00000) ∧
        (∀ p q, x.rat = some p → y.rat = some q → p + q ≠ 0 → ∃ z : FVal, z.rat = some (p + q) ∧ atomVal 10 4 old b 0 = fEncode fmtF32 0 false z) ∧
        (∀ n, x = .inf n → (y = .inf n ∨ ∃ q, y.rat = some q) → atomVal 10 4 old b 0 = if n then 0xFF800000 else 0x7F800000) ∧
        (∀ n p, y = .inf n → x.rat = some p → atomVal 10 4 old b 0 = if n then 0xFF800000 else 0x7F800000) ∧
        (∀ p q, x.rat = some p → y.rat = some q → p + q = 0 → atomVal 10 4 old b 0 = if x.signNeg && y.signNeg then 0x80000000 else 0) ∧
        (x = .nan → y = .nan → atomVal 11 4 old b 0 = 0x7FC00000 ∧ atomVal 12 4 old b 0 = 0x7FC00000) ∧
        (x = .nan → y ≠ .nan → atomVal 11 4 old b 0 = b ∧ atomVal 12 4 old b 0 = b) ∧
        (y = .nan → x ≠ .nan → atomVal 11 4 old b 0 = old ∧ atomVal 12 4 old b 0 = old) ∧
        (∀ n, x = .inf n → y = .inf (!n) → atomVal 10 4 old b 0 = 0x7FC00000) ∧
        (∀ p q, x.rat = some p → y.rat = some q → (p < q → atomVal 11 4 old b 0 = old ∧ atomVal 12 4 old b 0 = b) ∧
          (q < p → atomVal 11 4 old b 0 = b ∧ atomVal 12 4 old b 0 = old)) ∧
        (∀ n, x = .inf n → y ≠ .nan → atomVal 11 4 old b 0 = (if n then old else b) ∧ atomVal 12 4 old b 0 = if n then b else old) ∧
        (∀ n, y = .inf n → x ≠ .nan → atomVal 11 4 old b 0 = (if n then b else old) ∧ atomVal 12 4 old b 0 = if n then old else b) ∧
        (∀ p, x.rat = some p → y.rat = some p → p ≠ 0 → atomVal 11 4 old b 0 = old ∧ atomVal 12 4 old b 0 = old) ∧
        (old = b → x ≠ .nan → atomVal 11 4 old b 0 = old ∧ atomVal 12 4 old b 0 = old) ∧
        (old = 0x80000000 → b = 0 → atomVal 11 4 old b 0 = old ∧ atomVal 12 4 old b 0 = b) ∧
        (old = 0 → b = 0x80000000 → atomVal 11 4 old b 0 = b ∧ atomVal 12 4 old b 0 = old)) ∧
      (∀ m : MW, ((Instr.ared m).wellFormed = true → m.sub.toNat < 13 ∧ m.sub ≠ 8 ∧ m.sub ≠ 9) ∧ ((Instr.atom m).wellFormed = true → m.sub.toNat < 13) ∧
        ((Instr.ared m).wellFormed = true ∨ (Instr.atom m).wellFormed = true → 10 ≤ m.sub.toNat → m.sz = 2)) ∧
      (∀ (v : View) (op size : Nat) (l : AtomLane) (rest : List AtomLane) (s : State),
        let old := bytesToNat (bytesAt s v l.lane l.addr size true)
        let r := atomAll v op size rest (putAt v l.lane l.addr (natToBytes size (atomVal op size old l.b l.cmp)) s)
        atomAll v op size (l :: rest) s = ((l.lane, old) :: r.1, r.2))

/-- Whenever the word acts on an aligned word of sync space, LDS and STS answer a next state in which the wave holds the access; LDS marks D empty, STS raises oc.st, an LDS with acquire and an STS with release are marked as ordered. A misaligned address raises Illegal Instruction and one outside sync space Unmappable Translation. Performed outside a recorded or replayed grid, an LDS returns the word (zero on a queue) and an STS to a word of no queue, status word or ring writes exactly that word with the effects of a Quern write, and one to a queue changes nothing in sync space; one to SENT or ACK of a ring writes its low half, with zeros above, or is discarded where that does not raise the word or an ACK lies above RECV. -/
def Obligations.SyncWords : Prop :=
  (∀ (m : MW) (v : View) (mask : Word32) (s : State),
        let a := ofSigned 64 (((rawOp v.w m.lit false m.a 0).toNat : Int) + m.off.toInt * 8)
        let inside := a % 8 = 0 ∧ a + 8 ≤ v.c.ent.syncsz * 65536
        (Acts m.guard [plainSrc m m.a] [(m.d, 1)] v mask s →
          (inside → Queues (.lds a m.d) false (m.ord = 1) false (markEmpty m.d 1 mask) v s (exec (.lds m) s)) ∧
          (a % 8 ≠ 0 → exec (.lds m) s = illegalWord v.w s) ∧
          (a % 8 = 0 → ¬ inside → exec (.lds m) s = hardFault v.w { cause := 7, det := 0x20, addr := a } s)) ∧
        (Acts m.guard [plainSrc m m.a, plainSrc m m.b] [] v mask s →
          (inside → Queues (.sts a (rawOp v.w m.lit false m.b 0)) true (m.ord = 2) false id v s (exec (.sts m) s)) ∧
          (a % 8 ≠ 0 → exec (.sts m) s = illegalWord v.w s) ∧
          (a % 8 = 0 → ¬ inside → exec (.sts m) s = hardFault v.w { cause := 7, det := 0x20, addr := a } s))) ∧
      (∀ (v : View) (info : WordInfo) (a : Nat) (x : Word64) (d : Operand) (s : State), viewOf s v.key = some v →
        recording v.c v.b.gid = false → replaying v.c v.b.gid = false → a % 8 = 0 →
        let counted := modWave v.key (fun w => { w with qops := w.qops + 1 }) s
        (∃ ret, perfLds v info a d s = .done (addReturn v.key ret counted) ∧ ret.dest = d ∧ ret.size = 8 ∧ ret.far = [] ∧ ret.bad = none ∧
          ret.lanes = [(0, (if (mget v.c.queues (a / 64 * 64)).isSome then 0 else mgetD v.c.sync a 0).toNat)]) ∧
        ((mget v.c.queues (a / 64 * 64)).isSome → perfSts v a x s = .done counted) ∧
        ((mget v.c.queues (a / 64 * 64)).isSome = false → isStatusWord s v.g.asid a = false → v.c.rings = [] →
          perfSts v a x s = .done (syncWrite v.g.asid a x counted)) ∧
        (∀ ctl r, (mget v.c.queues (a / 64 * 64)).isSome = false → isStatusWord s v.g.asid a = false → v.c.rings = [(ctl, r)] → (a = ctl ∨ a = ctl + 8) →
          let y := x.toNat % 2 ^ 32
          let lower := y ≤ (syncWord v.c a).toNat % 2 ^ 32 ∨ (a = ctl + 8 ∧ (syncWord v.c (ctl + 16)).toNat % 2 ^ 32 < y)
          (lower → perfSts v a x s = .done counted) ∧ (¬ lower → perfSts v a x s = .done (syncWrite v.g.asid a (BitVec.ofNat 64 y) counted))))

/-- Writing a word of sync space leaves every other word of the context and every other context as it was, and makes that word read as the value; DCDEC of a counter lowers it by one, where the context has no ring, and leaves 0 at 0. No byte of device memory, no register of any wave and no tag changes where no block starts by it. -/
def Obligations.SyncWriteEffects : Prop :=
  ∀ (asid a : Nat) (x : Word64) (c : Ctx) (s : State), mget s.ctxs asid = some c → a % 8 = 0 →
      (∃ c', mget (syncWrite asid a x s).ctxs asid = some c' ∧ c' = { c with sync := c'.sync } ∧
        (∀ b, syncWord c' b = if b / 8 = a / 8 then x else syncWord c b)) ∧
      (∀ k, k ≠ asid → mget (syncWrite asid a x s).ctxs k = mget s.ctxs k) ∧
      (syncWrite asid a x s).mem = s.mem ∧ (syncWrite asid a x s).tags = s.tags ∧
      ((syncWord c a = 0 ∨ x ≠ 0) → (syncWrite asid a x s).waves = s.waves ∧ (syncWrite asid a x s).blocks = s.blocks) ∧
      (syncWord c a = 0 → counterDec asid a s = s) ∧
      (syncWord c a ≠ 0 → c.rings = [] → counterDec asid a s = syncWrite asid a (syncWord c a - 1) s)

/-- Whenever the word takes effect: FENCE lets its wave go on, changing nothing else, once no older load of its kind is outstanding and the side log is empty and, for release and full, no older store is outstanding, and holds it till then; WAITC lets it go on once the counter that SUB names is at most B and holds it till then; PTAG writes the pointer with bits [63:60] replaced by bits [3:0] of B; PREF goes on and changes no memory, tag, leaf, register, counter or fault state. That an acquire waits for the side log too is R125; that a release or full FENCE of a narrow scope waits for every store not yet performed is the choice of log 3. -/
def Obligations.FenceWords : Prop :=
  ∀ (m : MW) (key : Nat) (w : Wave) (mask : Word32) (s : State),
      (Issues m.guard [] [] key w mask s →
        let loads := loadsOut w = true
        let logged := w.mq.any (fun e => e.logged) = true
        let stores := storesOut w = true
        (m.ord = 1 → ¬ loads → ¬ logged → exec (.fence m) s = GoesOn key w s) ∧ (m.ord = 1 → (loads ∨ logged) → exec (.fence m) s = .next s) ∧
        (2 ≤ m.ord.toNat → ¬ loads → ¬ logged → ¬ stores → exec (.fence m) s = GoesOn key w s) ∧
        (2 ≤ m.ord.toNat → (loads ∨ logged ∨ stores) → exec (.fence m) s = .next s)) ∧
      (Issues m.guard [plainSrc m m.b] [] key w mask s → ∀ n, (m.sub = 0 ∧ n = w.oc.cpy ∨ m.sub = 1 ∧ n = w.oc.mtx ∨ m.sub = 2 ∧ n = w.oc.gat ∨ m.sub = 3 ∧ n = w.oc.st) →
        (n ≤ (rawOp w m.lit false m.b 0).toNat → exec (.waitc m) s = GoesOn key w s) ∧
        ((rawOp w m.lit false m.b 0).toNat < n → exec (.waitc m) s = .next s)) ∧
      (Issues m.guard [ptrSrc m m.a, plainSrc m m.b] [(m.d, if isV m.d then 2 else 1)] key w mask s →
        ∃ f : Nat → Word64, exec (.ptag m) s = GoesOn key (putLanes .b64 m.d mask (fun i => (f i).toNat) w) s ∧ ∀ i,
          (f i).extractLsb' 0 60 = (rawOp w m.lit true m.a i).extractLsb' 0 60 ∧ (f i).extractLsb' 60 4 = (rawOp w m.lit false m.b 0).extractLsb' 0 4) ∧
      (∀ v, v.key = key → v.w = w → Acts m.guard [ptrSrc m m.a, plainSrc m m.b] [] v mask s →
        ∃ near, exec (.pref m) s = GoesOn key w { s with near := near } ∧ ∀ l b, mget s.near l = some b → mget near l = some b)

/-- Whenever the word acts and no check fails, per-lane and uniform TAGSET answer a next state in which the wave holds the tag writes and oc.st is one higher, and nothing else changes; a misaligned address or length, or a length of 2^32, raises Illegal Instruction. Performed on a tagged page, the write of one granule sets the tag of that granule to the pointer tag and no other tag. TAGGET binds for each lane the tag of its granule, 0 on an untagged page and in the windows, and marks D empty. That the tag is bound at issue is the choice of log 3, that TAGGET waits for the TAGSETs of its wave that of log 14, and that a per-lane TAGSET checks its whole granule, TAGGET one byte, and a TAGSET of length 0 nothing, though it is counted, that of log 56. -/
def Obligations.TagWords : Prop :=
  ∀ (m : MW) (v : View) (mask : Word32) (s : State),
      (Acts m.guard [ptrSrc m m.a, plainSrc m m.b] [] v mask s →
        (isV m.a = true →
          let accs := (lanesOf mask).map (fun i => (i, ptrVal m v.w m.a i))
          let chk := fun p => tagCheck s v (ptrAddr p / 32 * 32) 32
          NoneFails chk accs →
          Queues (.tagset (accs.map (fun a => (a.1, ptrAddr a.2, ptrTag a.2)))) true false (lanePending chk accs) id v s (exec (.tagset m) s)) ∧
        (isV m.a = false →
          let p := ptrVal m v.w m.a 0
          let n := (rawOp v.w m.lit false m.b 0).toNat
          (p % 32 = 0 → n % 32 = 0 → n < 2 ^ 32 → (n = 0 ∨ tagCheck s v (ptrAddr p) n = .ok) →
            Queues (.tagRange (ptrAddr p) n (ptrTag p)) true false false id v s (exec (.tagset m) s)) ∧
          (p % 32 = 0 → n % 32 = 0 → n < 2 ^ 32 → n ≠ 0 → tagCheck s v (ptrAddr p) n = .pending →
            Queues (.tagRange (ptrAddr p) n (ptrTag p)) true false true id v s (exec (.tagset m) s)) ∧
          (¬ (p % 32 = 0 ∧ n % 32 = 0 ∧ n < 2 ^ 32) → exec (.tagset m) s = illegalWord v.w s))) ∧
      (∀ (addr tag pa leaf level p : Nat), windowOf addr = .global → xlate s v.g.asid (rootOf v.c) addr true = .ok pa leaf level p → tag < 16 →
        (leafTg leaf = true → tagOf (tagGranule v addr tag s) pa = tag ∧ ∀ a, a / 32 ≠ pa / 32 → tagOf (tagGranule v addr tag s) a = tagOf s a) ∧
        (leafTg leaf = false → (tagGranule v addr tag s).tags = s.tags)) ∧
      (Acts m.guard [ptrSrc m m.a] [(m.d, 1)] v mask s →
        let accs := (memLanes m mask).map (fun i => (i, ptrVal m v.w m.a i))
        (∀ a ∈ accs, checkAccess s v .load none (ptrAddr a.2) 1 = .ok) → tagsOut v.w = false → loadBlocked s v [] = false →
        ∃ t ret, exec (.tagget m) s = .next t ∧ ret.dest = m.d ∧ ret.size = 4 ∧ ret.sx = false ∧ ret.far = [] ∧ ret.bad = none ∧
          ret.lanes = accs.map (fun a => (a.1, if windowOf (ptrAddr a.2) ≠ .global then 0 else
            match xlate s v.g.asid (rootOf v.c) (ptrAddr a.2) with
            | .ok pa leaf _ _ => if leafTg leaf then tagOf s pa else 0
            | _ => 0)) ∧
          mget t.waves v.key = some (advance (markEmpty m.d 1 mask { v.w with returns := v.w.returns ++ [ret] })) ∧
          t.blocks = s.blocks ∧ t.tags = s.tags ∧ t.mem = (recordAccs v false 1 accs s).mem)

/-- Whenever the word acts and its range passes its checks, CLEAN and CLEAN.inv answer a next state in which the wave holds the clean with oc.st one higher; a length of 2^32 or more raises Illegal Instruction. Performed, it changes no byte of memory, no tag, wave, block or context: only which near-cache lines are held and modified, each line of the range is clean, and absent with .inv. That a CLEAN of length 0 checks nothing and is counted is the choice of log 56. -/
def Obligations.CleanWords : Prop :=
  ∀ (m : MW) (v : View) (mask : Word32) (s : State),
      (Acts m.guard [ptrSrc m m.a, plainSrc m m.b] [] v mask s →
        let p := ptrVal m v.w m.a 0
        let n := (rawOp v.w m.lit false m.b 0).toNat
        let seen := recordAccs v false n (if n = 0 then [] else [(0, p)]) s
        (n < 2 ^ 32 → (n = 0 ∨ cleanCheck s v (ptrTag p) (ptrAddr p) n = .ok) →
          Queues (.clean (ptrAddr p) n (ptrTag p) false) true false false id v seen (exec (.clean m) s) ∧
          Queues (.clean (ptrAddr p) n (ptrTag p) true) true false false id v seen (exec (.cleanInv m) s)) ∧
        (2 ^ 32 ≤ n → exec (.clean m) s = illegalWord v.w s ∧ exec (.cleanInv m) s = illegalWord v.w s)) ∧
      (∀ (addr len tag : Nat) (inv : Bool) (t : State), perfClean v addr len tag inv s = .done t →
        t = { s with near := t.near } ∧
        ∀ l pa leaf level p, l ∈ linePieces addr len → xlate s v.g.asid (rootOf v.c) l.1 = .ok pa leaf level p →
          mget t.near (pa / 128) = (if inv then none else (mget s.near (pa / 128)).map (fun _ => false)))

/-- Whenever the word acts, no older loop of the wave is on its tiles and enough physical tiles are free, the word answers a next state in which its tiles are bound: LDC and LDC.col mark D empty and bind a row or column element for each selected lane; STC and STC.col write them; CZERO sets its tiles to +0; CADD adds a tile, CADD.peer the same tile of a peer block, element by element in FP32; CSCALE multiplies every element, .row and .col those of the selected rows or columns. No other element, and no memory, changes. That a peer tile that its block has not bound reads as +0 is the choice of log 27. -/
def Obligations.TileWords : Prop :=
  (∀ (m : MW) (v : View) (mask : Word32) (r n : Nat) (s : State), (rawOp v.w m.lit false m.a 0).toNat = r → (rawOp v.w m.lit false m.b 0).toNat = n → r < 32 → n < 64 →
        loopOn v.w [n] = false → tilesFree v [n] s = true →
        let bound := bindTiles v.w.blk [n] s
        (Acts m.guard [plainSrc m m.a, plainSrc m m.b] [(m.d, 1)] v mask s →
          exec (.ldc m) s = lateResult v m.d 4 mask ((lanesOf mask).map (fun i => (i, (tileAt v.b n r i).toNat))) bound ∧
          exec (.ldcCol m) s = lateResult v m.d 4 mask ((lanesOf mask).map (fun i => (i, (tileAt v.b n i r).toNat))) bound) ∧
        (Acts m.guard [plainSrc m m.a, plainSrc m m.b, plainSrc m m.d] [] v mask s → ∀ col : Bool, ∃ b',
          exec (if col then .stcCol m else .stc m) s = GoesOn v.key v.w { s with blocks := mput s.blocks v.w.blk b' } ∧
          b' = { v.b with tiles := b'.tiles, bound := sadd v.b.bound n } ∧
          ∀ q i j, i < 32 → j < 32 → tileAt b' q i j =
            if q = n ∧ (if col then j else i) = r ∧ mask.getLsbD (if col then i else j) then BitVec.ofNat 32 (intOp v.w m.lit 32 m.d (if col then i else j)) else tileAt v.b q i j)) ∧
      (∀ (q : QW) (v : View) (mask : Word32) (s : State),
        let changes := fun (i : Instr) (ts : List Nat) (f : Nat → Nat → Nat → Word32) => loopOn v.w ts = false → tilesFree v ts s = true →
          ∃ b', exec i s = GoesOn v.key v.w { s with blocks := mput s.blocks v.w.blk b' } ∧ b' = { v.b with tiles := b'.tiles, bound := ts.foldl sadd v.b.bound } ∧
            ∀ t a b, a < 32 → b < 32 → tileAt b' t a b = f t a b
        let ct := q.ct.toNat
        (Acts q.guard [] [] v mask s → changes (.czero q) ((List.range (q.kn.toNat + 1)).map (fun i => ct + i))
          (fun t a b => if ct ≤ t ∧ t ≤ ct + q.kn.toNat then 0 else tileAt v.b t a b)) ∧
        (Acts q.guard [srcQ q.ia] [] v mask s →
          (∀ n, valQ v.w q.ia = n → n < 64 →
            let sum := fun t a b => if t = ct then BitVec.ofNat 32 (faddVal .f32 0 (tileAt v.b ct a b).toNat (tileAt v.b n a b).toNat) else tileAt v.b t a b
            changes (.cadd q) (if n ≠ ct then [ct, n] else [ct]) sum ∧
            (∀ pb, peerOf v q.sub.toNat s = some (v.w.blk, pb) → changes (.caddPeer q) (if n ≠ ct then [ct, n] else [ct]) sum) ∧
            (∀ k pb, peerOf v q.sub.toNat s = some (k, pb) → k ≠ v.w.blk → changes (.caddPeer q) [ct] (fun t a b =>
              if t = ct then BitVec.ofNat 32 (faddVal .f32 0 (tileAt v.b ct a b).toNat (tileAt pb n a b).toNat) else tileAt v.b t a b))) ∧
          changes (.cscale q) [ct] (fun t a b => if t = ct then BitVec.ofNat 32 (fmulVal .f32 0 (tileAt v.b ct a b).toNat (tyOp v.w none .f32 q.ia 0)) else tileAt v.b t a b) ∧
          changes (.cscaleRow q) [ct] (fun t a b => if t = ct ∧ mask.getLsbD a then BitVec.ofNat 32 (fmulVal .f32 0 (tileAt v.b ct a b).toNat (tyOp v.w none .f32 q.ia a)) else tileAt v.b t a b) ∧
          changes (.cscaleCol q) [ct] (fun t a b => if t = ct ∧ mask.getLsbD b then BitVec.ofNat 32 (fmulVal .f32 0 (tileAt v.b ct a b).toNat (tyOp v.w none .f32 q.ia b)) else tileAt v.b t a b)))

/-- Whenever the word acts, its parameters are legal, its windows pass, oc.cpy is below 63, no older operation still fills its destination lines and no queued store of the block goes to them, it answers a next state in which the copy is the newest of the copy queue, oc.cpy is one higher and its destination lines are empty (the reservation of CPYT.w is filling); no byte moves and nothing else changes. The copy holds those of its source lines that are empty; CPYT, whose table names its sources, holds every line empty at its issue and waits for those of them that it comes to read (EngineRetires says so). A length of 2^32, or ranges that overlap, raise Copy fault; that its ADDR is the source for the length and the destination for the overlap is the choice of log 54. -/
def Obligations.CopyWords : Prop :=
  ∀ (m : MW) (v : View) (mask : Word32) (s : State),
      let queues := fun (i : Instr) (op : EngOp) (srcs dsts : List Nat) => v.w.oc.cpy < 63 → (∀ l ∈ dsts, l ∉ v.b.aE) → storesTo s v.w.blk dsts = false →
        exec i s = .next (putWave v.key (advance { v.w with cpyQ := v.w.cpyQ ++ [entryNow v op srcs], engNo := v.w.engNo + 1, oc := { v.w.oc with cpy := v.w.oc.cpy + 1 } })
          { s with blocks := mput s.blocks v.w.blk { v.b with aE := dsts.foldl sadd v.b.aE } })
      let lines := fun (p n : Nat) => if windowOf (ptrAddr p) = .a then linesOf (ptrAddr p) n else []
      let passes := fun (p n : Nat) => checkWindow v.g.d (ptrAddr p) n = .ok
      (Acts m.guard [ptrSrc m m.d, ptrSrc m m.a, plainSrc m m.b] [] v mask s →
        let dst := ptrVal m v.w m.d 0
        let src := ptrVal m v.w m.a 0
        let n := (rawOp v.w m.lit false m.b 0).toNat
        (n < 2 ^ 32 → (n = 0 ∨ passes src n ∧ passes dst n ∧ (ptrAddr src + n ≤ ptrAddr dst ∨ ptrAddr dst + n ≤ ptrAddr src)) →
          queues (.cpy m) (.cpy (ptrAddr dst) (ptrTag dst) (ptrAddr src) (ptrTag src) n) (if n = 0 then [] else lines src n) (if n = 0 then [] else lines dst n)) ∧
        (2 ^ 32 ≤ n → exec (.cpy m) s = hardFault v.w { cause := 9, addr := src } s) ∧
        (0 < n → n < 2 ^ 32 → passes src n → passes dst n → ¬ (ptrAddr src + n ≤ ptrAddr dst ∨ ptrAddr dst + n ≤ ptrAddr src) →
          exec (.cpy m) s = hardFault v.w { cause := 9, addr := dst } s)) ∧
      (Acts m.guard [ptrSrc m m.d, ptrSrc m m.a] [] v mask s →
        let lanes := memLanes m mask
        let n := Sys2Proof.sizeOf m.sz
        (∀ i ∈ lanes, passes (laneAddr m v.w i) n ∧ passes (ptrVal m v.w m.d i) n) →
          queues (.cpyLane m) (.cpyLane n (lanes.map (fun i => { lane := i, src := ptrAddr (laneAddr m v.w i), stag := ptrTag (laneAddr m v.w i), dst := ptrAddr (ptrVal m v.w m.d i), dtag := ptrTag (ptrVal m v.w m.d i) })) none)
            (lanes.flatMap (fun i => lines (laneAddr m v.w i) n)) (lanes.flatMap (fun i => lines (ptrVal m v.w m.d i) n))) ∧
      (let p := tableArgs v.w m.b
       let table := ptrVal m v.w m.a 0
       p.ok = true → checkWindow v.g.d (p.range (ptrAddr table)).1 (p.range (ptrAddr table)).2 = .ok →
        (Acts m.guard [ptrSrc m m.a, { o := m.b, n := 2, e := m.e }, ptrSrc m m.d] [] v mask s → passes (ptrVal m v.w m.d 0) (p.n * p.rb) →
          queues (.cpyt m) (.cpyt (ptrAddr (ptrVal m v.w m.d 0)) (ptrTag (ptrVal m v.w m.d 0)) (ptrAddr table) (ptrTag table) p.rpb p.rb p.n p.first none)
            v.b.aE (lines (ptrVal m v.w m.d 0) (p.n * p.rb))) ∧
        (Acts m.guard [ptrSrc m m.a, { o := m.b, n := 2, e := m.e }] [] v mask s → ∀ r, mget v.b.res (m.off.toNat % 32) = some r → (r.st = 1 ∨ r.st = 3) →
          p.n * p.rb ≤ resSize r.fmt r.elems r.b32 r.sc → v.w.oc.cpy < 63 →
          exec (.cpytW m) s = .next (putWave v.key (advance { v.w with
              cpyQ := v.w.cpyQ ++ [entryNow v (.cpytW (m.off.toNat % 32) 0 (ptrAddr table) (ptrTag table) p.rpb p.rb p.n p.first none) v.b.aE]
              engNo := v.w.engNo + 1
              oc := { v.w.oc with cpy := v.w.oc.cpy + 1 } })
            { s with blocks := mput s.blocks v.w.blk { v.b with res := mput v.b.res (m.off.toNat % 32) { r with st := 2 } } })))

/-- OPERATION_RETIRE of the oldest operation of a class, nothing older of its wave outstanding, answers a next state in which it is off its queue and its counter one lower. A copy inside the A window that awaits no line makes the n destination bytes those of the source, leaves every other byte of the allocation and all device memory as before, and its destination lines are full. A table copy of one row does the same with the row that its table entry names, where no line it reads is one it still awaits; where the entry or the row lies on such a line, and nothing else is queued, nothing changes. A loop, once it is the oldest of its block, makes every element of its tile the result of its steps in ascending order and leaves every other tile. That an operation which nothing holds is performed in one move is the choice of log 25. -/
def Obligations.EngineRetires : Prop :=
  ∀ (wave : Nat) (v : View) (e : EngEntry) (rest : List EngEntry) (s : State), viewOf s wave = some v → blockOfWave wave = v.w.blk → onCore v = true → e.after = 0 → e.ran = false →
      (∀ x ∈ v.w.cpyQ ++ v.w.mtxQ ++ v.w.gatQ, x.ran = false → e.no ≤ x.no) →
      let moved := fun (dst src n : Nat) => ∃ t b w', exec (.operationRetire ⟨wave, false⟩ .cpy) s = .next t ∧ mget t.waves wave = some w' ∧
        w'.cpyQ = (rest.map (fun x => { x with need := x.need.filter (fun l => l ∉ linesOf dst n) })) ∧
        w'.oc.cpy = v.w.oc.cpy - 1 ∧ w'.s = v.w.s ∧ w'.v = v.w.v ∧ w'.k = v.w.k ∧ t.mem = s.mem ∧ t.tags = s.tags ∧
        mget t.blocks v.w.blk = some b ∧ (∀ l ∈ linesOf dst n, l ∉ b.aE) ∧
        ∀ off, mgetD b.a off blankByte = if dst - aBase ≤ off ∧ off < dst - aBase + n then mgetD v.b.a (off - (dst - aBase) + (src - aBase)) blankByte else mgetD v.b.a off blankByte
      let inA := fun (p n : Nat) => checkWindow v.g.d p n = .ok ∧ windowOf p = .a
      let awaits := fun (p n : Nat) => ∃ l ∈ linesOf p n, l ∈ e.need
      (∀ dst dtag src stag n, v.w.cpyQ = e :: rest → e.op = .cpy dst dtag src stag n → e.need = [] → 0 < n →
        inA src n → inA dst n → (src + n ≤ dst ∨ dst + n ≤ src) → moved dst src n) ∧
      (∀ dst dtag table ttag rpb rb first, v.w.cpyQ = e :: rest → e.op = .cpyt dst dtag table ttag rpb rb 1 first none → 0 < rb →
        let at_ := table + 8 * (first / rpb)
        let src := (ptrAddr (bytesToNat (bytesAt s v 0 at_ 8)) + first % rpb * rb) % 2 ^ 60
        inA at_ 8 → inA src rb → inA dst rb → (src + rb ≤ dst ∨ dst + rb ≤ src) →
        (¬ awaits at_ 8 → ¬ awaits src rb → moved dst src rb) ∧
        (awaits at_ 8 → rest = [] → v.b.endAs = none → exec (.operationRetire ⟨wave, false⟩ .cpy) s = .next s)) ∧
      (∀ ct wa wb n a0 b0 ra rb more, v.w.mtxQ = e :: rest → e.op = .mloop ct wa wb v.w.blk n a0 b0 → v.b.loops = (v.w.idx, e.no) :: more → mget v.b.res wa = some ra → mget v.b.res wb = some rb →
        let k := Min.min (stepClass ra.fmt) (stepClass rb.fmt)
        ∃ t b w', exec (.operationRetire ⟨wave, false⟩ .mtx) s = .next t ∧ mget t.waves wave = some w' ∧ w' = { v.w with mtxQ := rest, oc := { v.w.oc with mtx := v.w.oc.mtx - 1 } } ∧
          t.mem = s.mem ∧ mget t.blocks v.w.blk = some b ∧ b = { v.b with tiles := b.tiles, res := b.res, loops := more } ∧
          ∀ q i j, i < 32 → j < 32 → ∃ acc : Nat → Nat, acc 0 = (tileAt v.b ct i j).toNat ∧
            (∀ x, x < n → acc (x + 1) = matrixStep (acc x) ((List.range k).map (fun y => fMul (elemValue ra i ((a0 + x) * k + y)) (elemValue rb j ((b0 + x) * k + y))))) ∧
            tileAt b q i j = if q = ct then BitVec.ofNat 32 (acc n) else tileAt v.b q i j)

/-- A step of an element with the products p of one step: a NaN accumulator or product gives the canonical NaN; infinite products give that infinity, or a NaN where they differ in sign or oppose the accumulator; zero products leave the accumulator; otherwise, with x the greatest exponent of a nonzero product, the result is accumulator plus the sum of the products truncated toward zero to multiples of 2^(x-47), rounded once to nearest even in FP32, an exact zero being +0. The steps of a loop are applied in ascending order, on the elements at the operand indices R185 names. -/
def Obligations.MatrixStepRounding : Prop :=
  (∀ (acc : Nat) (ps : List FVal), acc < 2 ^ 32 → let a := fDecode fmtF32 acc
        ((a = .nan ∨ .nan ∈ ps) → matrixStep acc ps = 0x7FC00000) ∧
        (a ≠ .nan → .nan ∉ ps → ∀ n, .inf n ∈ ps → matrixStep acc ps =
          if .inf (!n) ∈ ps ∨ a = .inf (!n) then 0x7FC00000 else if n then 0xFF800000 else 0x7F800000) ∧
        (∀ (qs : List Rat), ps.map FVal.rat = qs.map some →
          ((∀ q ∈ qs, q = 0) → a ≠ .nan → matrixStep acc ps = acc) ∧
          (∀ (x : Int), (∃ q ∈ qs, q ≠ 0 ∧ (2 : Rat) ^ x ≤ |q|) → (∀ q ∈ qs, |q| < (2 : Rat) ^ (x + 1)) →
            let unit := (2 : Rat) ^ (x - 47)
            let sum := (qs.map (fun q => (if 0 ≤ q then ((q / unit).floor : Rat) else ((q / unit).ceil : Rat)) * unit)).sum
            (∀ r, a.rat = some r → r + sum ≠ 0 → ∃ z : FVal, z.rat = some (r + sum) ∧ matrixStep acc ps = fEncode fmtF32 0 false z) ∧
            (∀ r, a.rat = some r → r + sum = 0 → matrixStep acc ps = 0) ∧
            (∀ n, a = .inf n → matrixStep acc ps = acc)))) ∧
      (∀ (ra rb : Res) (k a0 b0 n i j acc : Nat), loopElem ra rb k a0 b0 (n + 1) i j acc =
        matrixStep (loopElem ra rb k a0 b0 n i j acc)
          ((List.range k).map (fun y => fMul (elemValue ra i ((a0 + n) * k + y)) (elemValue rb j ((b0 + n) * k + y)))))

/-- Whenever the word acts: WRES with a legal element count and format word, its reservation free and units enough, answers a next state in which the reservation holds the record of R228, its bytes zero; an illegal operand, a size above 1 MiB or more units than the block may hold raise Illegal Instruction, a reservation in use or too few free units hold the word. WREL of an empty or ready reservation frees it, else holds. WSTAT writes the record to its register in every state but free, where it holds. Nothing else changes. That the limit of 256 units is judged without the reservation that WRES names, where it is still held, is the reading of log 27. -/
def Obligations.ReservationWords : Prop :=
  ∀ (q : QW) (v : View) (mask : Word32) (s : State),
      let e := valQ v.w q.ia
      let f := valQ v.w q.ib
      let fmt := f % 16
      let b32 := f.testBit 4
      let sc := f.testBit 5
      let bits := if fmt ≤ 3 then 4 else if fmt ≤ 6 then 8 else if fmt ≤ 8 then 16 else 32
      let rows := 32 * (e * bits / 8)
      let size := rows + (if sc then 64 * (e / (if b32 then 32 else 48)) else 0)
      let units := (size + 4095) / 4096
      let legal := e ≠ 0 ∧ e % 96 = 0 ∧ f < 64 ∧ fmt ≤ 9 ∧ (b32 = true → sc = true) ∧ (fmt ≤ 3 → sc = true) ∧ (7 ≤ fmt → sc = false)
      let own := unitsHeld { v.b with res := mdel v.b.res q.wa.toNat }
      (Acts q.guard [srcQ q.ia, srcQ q.ib] [] v mask s →
        (legal → size ≤ 2 ^ 20 → own + units ≤ 256 → mget v.b.res q.wa.toNat = none → unitsOn s v.b.core + units ≤ 256 →
          exec (.wres q) s = GoesOn v.key v.w { s with blocks := mput s.blocks v.w.blk { v.b with res := mput v.b.res q.wa.toNat { st := 1, ach := 0, nv := false, node := 0, fmt := fmt, b32 := b32, sc := sc, e96 := e / 96, units := units - 1, soff := if sc then rows else 0, readers := 0, bytes := [] } } }) ∧
        (¬ (legal ∧ size ≤ 2 ^ 20 ∧ own + units ≤ 256) → exec (.wres q) s = illegalWord v.w s) ∧
        (legal → size ≤ 2 ^ 20 → own + units ≤ 256 → (mget v.b.res q.wa.toNat ≠ none ∨ 256 < unitsOn s v.b.core + units) → exec (.wres q) s = .next s)) ∧
      (Acts q.guard [] [] v mask s →
        (∀ r, mget v.b.res q.wa.toNat = some r → (r.st = 1 ∨ r.st = 3) →
          exec (.wrel q) s = GoesOn v.key v.w { s with blocks := mput s.blocks v.w.blk { v.b with res := mdel v.b.res q.wa.toNat } }) ∧
        ((∀ r, mget v.b.res q.wa.toNat = some r → r.st ≠ 1 ∧ r.st ≠ 3) → exec (.wrel q) s = .next s)) ∧
      (Acts q.guard [] [(q.ia, 1)] v mask s →
        (∀ r d, mget v.b.res q.wa.toNat = some r → q.ia = .s d →
          exec (.wstat q) s = GoesOn v.key (setS v.w d.toNat (BitVec.ofNat 64 (r.st * 2 ^ 61 + r.ach * 2 ^ 53 + (if r.nv then 2 ^ 52 else 0) + r.node * 2 ^ 46 + r.fmt * 2 ^ 42 +
            (if r.b32 then 2 ^ 41 else 0) + (if r.sc then 2 ^ 40 else 0) + r.e96 * 2 ^ 28 + r.units * 2 ^ 20 + r.soff))) s) ∧
        (mget v.b.res q.wa.toNat = none → exec (.wstat q) s = .next s))

/-- Whenever the word acts, its reservations admit it, its ranges and node are legal, a physical tile is free, oc.mtx is below 63, and no node is unmet and no reservation stale, it answers a next state in which the operation is the newest of the matrix queue and oc.mtx one higher. MLOOP and MLOOP.peer join the loops of the block as its newest, bind the tile and make their reservations draining; QCVT and QCVT.w make the destination filling in the chosen format with the node and bound recorded, the source of .w draining, and the production noted in the choice file. No byte, tile or register changes. A stale reservation raises the Tolerance Stale soft trap, WA before WB, with the node and the number of the reservation as its detail, and else an unmet node the Tolerance Unmet one with the node: with a handler the wave enters it and the word has no effect; without one the record of the last is written and the word goes on; inside a handler it is Illegal Instruction. That the staleness of a reservation of a peer is judged with the choice file of the issuing block is the reading of log 27. -/
def Obligations.MatrixWords : Prop :=
  ∀ (q : QW) (v : View) (mask : Word32) (s : State), v.w.oc.mtx < 63 →
      let wa := q.wa.toNat
      let wb := q.wb.toNat
      let unmet := (choiceAt v.b q.node.toNat).unm
      let queued := fun (op : EngOp) (lines : List Nat) => { v.w with mtxQ := v.w.mtxQ ++ [entryNow v op lines], engNo := v.w.engNo + 1, oc := { v.w.oc with mtx := v.w.oc.mtx + 1 } }
      let unmetTrap : TrapSpec := { cause := 4, detail := q.node.toNat, lanes := mask }
      let staleTrap := fun (r : Res) (n : Nat) => ({ cause := 3, detail := r.node + n * 256, lanes := mask } : TrapSpec)
      let raises := fun (i : Instr) (trap : TrapSpec) => (v.w.trapSt = true → exec i s = illegalWord v.w s) ∧
        (v.w.trapSt = false → v.w.trapVec ≠ 0 → ∃ u, softTrap v.w trap = .enter u ∧ exec i s = .next (putWave v.key u s))
      let records := fun (i : Instr) (trap : TrapSpec) (w1 : Wave) (did : State → Prop) => v.w.trapSt = false → v.w.trapVec = 0 →
        ∃ u t, softTrap v.w trap = .go u ∧ exec i s = .next t ∧ mget t.waves v.key = some (advance { w1 with trec := u.trec }) ∧
          (∀ k, k ≠ v.key → mget t.waves k = mget s.waves k) ∧ t = { s with waves := t.waves, blocks := t.blocks } ∧ did t
      (Acts q.guard [srcQ q.ia, srcQ q.ib] [] v mask s → ∀ (peer : Bool) (pk : Nat) (pb : Block) (ra rb : Res),
        (peer = false → pk = v.w.blk ∧ pb = v.b) → (peer = true → peerOf v q.sub.toNat s = some (pk, pb)) →
        mget v.b.res wa = some ra → mget pb.res wb = some rb → (ra.st = 3 ∨ ra.st = 4) → (rb.st = 3 ∨ rb.st = 4) →
        let n := q.kn.toNat + 1
        let k := Min.min (stepClass ra.fmt) (stepClass rb.fmt)
        ra.fmt ≠ 9 → rb.fmt ≠ 9 → (valQ v.w q.ia + n) * k ≤ ra.elems → (valQ v.w q.ib + n) * k ≤ rb.elems →
        tilesFree v [q.ct.toNat] s = true →
        let word : Instr := if peer then .mloopPeer q else .mloop q
        let goes := queued (.mloop q.ct.toNat wa wb pk n (valQ v.w q.ia) (valQ v.w q.ib)) []
        let did := fun (t : State) =>
          (∀ key, key ≠ v.w.blk → key ≠ pk → mget t.blocks key = mget s.blocks key) ∧
          (∃ b, mget t.blocks v.w.blk = some b ∧ b = { v.b with bound := sadd v.b.bound q.ct.toNat, loops := v.b.loops ++ [(v.w.idx, v.w.engNo)], res := b.res } ∧
            mget b.res wa = some { ra with st := 4, readers := ra.readers + 1 }) ∧
          ∃ p, mget t.blocks pk = some p ∧ mget p.res wb = some { rb with st := 4, readers := rb.readers + 1 }
        (staleRes v.b ra = false → staleRes v.b rb = false → unmet = false →
          ∃ t, exec word s = .next (putWave v.key (advance goes) t) ∧ t = { s with blocks := t.blocks } ∧ did t) ∧
        (staleRes v.b ra = true → raises word (staleTrap ra wa) ∧ (unmet = false → records word (staleTrap ra wa) goes did)) ∧
        (staleRes v.b ra = false → staleRes v.b rb = true → raises word (staleTrap rb wb) ∧ (unmet = false → records word (staleTrap rb wb) goes did)) ∧
        (staleRes v.b ra = false → staleRes v.b rb = false → unmet = true → raises word unmetTrap) ∧
        (unmet = true → records word unmetTrap goes did)) ∧
      (∀ (r : Res) (node : TolNode), mget v.b.res wa = some r → (r.st = 1 ∨ r.st = 3) → mget v.b.tol q.node.toNat = some node → node.kind = 0 →
        let c := (choiceAt v.b q.node.toNat).cho
        resSize c r.elems r.b32 (decide (c ≤ 6)) ≤ r.room →
        let dest := { r with st := 2, fmt := c, sc := decide (c ≤ 6), soff := if c ≤ 6 then 32 * rowBytes c r.elems else 0, nv := true, node := q.node.toNat, ach := boundOf 0 c }
        let file := mput v.b.choice q.node.toNat { choiceAt v.b q.node.toNat with prd := true, ach := boundOf 0 c, st := fallsShort node (choiceAt v.b q.node.toNat) (boundOf 0 c) }
        (Acts q.guard [srcQ q.ia, srcQ q.ib] [] v mask s →
          let p := valQ v.w q.ia
          let stride := valQ v.w q.ib
          p % 4 = 0 → stride % 4 = 0 → windowOf (ptrAddr p) = .a → ptrAddr p - aBase + 31 * stride + 4 * r.elems ≤ v.g.d.au * 4096 →
          let goes := queued (.qcvt wa (ptrAddr p) stride 0) (rowLines (ptrAddr p) stride r.elems)
          let blocks := mput s.blocks v.w.blk { v.b with res := mput v.b.res wa dest, choice := file }
          (unmet = false → exec (.qcvt q) s = .next (putWave v.key (advance goes) { s with blocks := blocks })) ∧
          (unmet = true → raises (.qcvt q) unmetTrap ∧ records (.qcvt q) unmetTrap goes (fun t => t.blocks = blocks))) ∧
        (∀ src, Acts q.guard [] [] v mask s → wa ≠ wb → mget v.b.res wb = some src → (src.st = 3 ∨ src.st = 4) → src.e96 = r.e96 →
          let goes := queued (.qcvtW wa wb) []
          let blocks := mput s.blocks v.w.blk { v.b with res := mput (mput v.b.res wa dest) wb { src with st := 4, readers := src.readers + 1 }, choice := file }
          (staleRes v.b src = false → unmet = false → exec (.qcvtW q) s = .next (putWave v.key (advance goes) { s with blocks := blocks })) ∧
          (staleRes v.b src = true → raises (.qcvtW q) (staleTrap src wb) ∧ (unmet = false → records (.qcvtW q) (staleTrap src wb) goes (fun t => t.blocks = blocks))) ∧
          (staleRes v.b src = false → unmet = true → raises (.qcvtW q) unmetTrap) ∧
          (unmet = true → records (.qcvtW q) unmetTrap goes (fun t => t.blocks = blocks))))

/-- Whenever the word acts: DEMAND with a code of at most 255 answers a next state with the choice file of the walk and the mask of stale nodes in its register, and with a greater code raises Illegal Instruction; TOLRD of a node below 64 marks its register empty and binds the entry of the choice file; TOLTAB of a readable valid table loads the nodes its entries in use give and makes the choice file fresh, each producing node at its lowest permitted code, and an invalid table raises Illegal Instruction. A walk of a table without cycles changes exactly the nodes it reaches: each takes the greatest code that a reached parent passes to it by T_i = min(255, max(0, C + S(p) + K_i)), or keeps a greater one of its own, the root taking the code asked for; a producing node then chooses, another takes ST and UNM from its operands; the mask names the reached stale nodes. A choice is the lowest permitted code whose bound meets the target, else the highest permitted one, marked unmet. -/
def Obligations.ToleranceWords : Prop :=
  (∀ (q : QW) (v : View) (mask : Word32) (s : State),
        (Acts q.guard [srcQ q.ib] (dstQ q.ia) v mask s →
          let c := valQ v.w q.ib
          let r := tolWalk v.b q.node.toNat c
          let t := { s with blocks := mput s.blocks v.w.blk { v.b with choice := r.1 } }
          (c ≤ 255 → (∀ d, q.ia = .s d → exec (.demand q) s = .next (putWave v.key (advance (setS v.w d.toNat r.2)) t)) ∧
            (q.ia = .none → exec (.demand q) s = .next (putWave v.key (advance v.w) t))) ∧
          (255 < c → exec (.demand q) s = illegalWord v.w s)) ∧
        (Acts q.guard [srcQ q.ib] [(q.ia, 1)] v mask s → ∀ n, (q.ib = .none ∧ n = q.node.toNat ∨ q.ib ≠ .none ∧ n = valQ v.w q.ib) →
          let e := choiceAt v.b n
          (n < 64 → ∃ ret, exec (.tolrd q) s = .next (putWave v.key (advance (markEmpty q.ia (resultRegs q.ia 8) mask { v.w with returns := v.w.returns ++ [ret] })) s) ∧
            ret.dest = q.ia ∧ ret.size = 8 ∧ ret.sx = false ∧ ret.far = [] ∧ ret.bad = none ∧
            ret.lanes = [(0, (if e.use then 2 ^ 31 else 0) + (if e.rch then 2 ^ 30 else 0) + (if e.prd then 2 ^ 29 else 0) +
              (if e.st then 2 ^ 28 else 0) + (if e.unm then 2 ^ 27 else 0) + e.ach * 2 ^ 16 + e.code * 2 ^ 8 + e.cho)]) ∧
          (64 ≤ n → exec (.tolrd q) s = illegalWord v.w s)) ∧
        (Acts q.guard [srcQ q.ia] [] v mask s → let p := valQ v.w q.ia
          (p % 16 ≠ 0 → exec (.toltab q) s = illegalWord v.w s) ∧
          (p % 16 = 0 → Readable v p 1024 s →
            let d0 := fun (n : Nat) => BitVec.ofNat 64 (bytesToNat (((readBytes v p 1024 s).drop (16 * n)).take 8))
            let d1 := fun (n : Nat) => BitVec.ofNat 64 (bytesToNat (((readBytes v p 1024 s).drop (16 * n + 8)).take 8))
            (parseTable (readBytes v p 1024 s) = none → exec (.toltab q) s = illegalWord v.w (readState v p 1024 s)) ∧
            (∀ tol, parseTable (readBytes v p 1024 s) = some tol →
              (∃ t, exec (.toltab q) s = .next t ∧
                mget t.waves v.key = some (advance v.w) ∧ (∀ k, k ≠ v.key → mget t.waves k = mget s.waves k) ∧
                mget t.blocks v.w.blk = some { v.b with tol := tol, choice := freshFile tol } ∧ t.mem = (readState v p 1024 s).mem) ∧
              (∀ n, mget tol n ≠ none ↔ n < 64 ∧ (d1 n).getLsbD 63 = true) ∧ (∀ n, mget tol n = none → mget (freshFile tol) n = none) ∧
              ∀ n node, mget tol n = some node → node.kind = ((d0 n).extractLsb' 0 2).toNat ∧ node.perm = ((d1 n).extractLsb' 0 10).toNat ∧
                (∀ i m k, (i, m, k) ∈ node.ops ↔ i ≤ ((d0 n).extractLsb' 2 2).toNat ∧ (d0 n).getLsbD (4 + i) = true ∧
                  m = ((d0 n).extractLsb' (8 + 6 * i) 6).toNat ∧ k = ((d0 n).extractLsb' (32 + 8 * i) 8).toInt) ∧
                ∃ e, mget (freshFile tol) n = some e ∧ e.use = true ∧ e.rch = false ∧ e.prd = false ∧ e.st = false ∧ e.unm = false ∧ e.ach = 0 ∧ e.code = 0 ∧
                  ((node.kind = 1 ∨ node.kind = 3) → e.cho = 0) ∧
                  ((node.kind = 0 ∨ node.kind = 2) → bitAt node.perm e.cho = true ∧ ∀ c < e.cho, bitAt node.perm c = false))))) ∧
      (∀ (t : TolNode) (e : Choice), let u := Min.min 255 (e.code + share t.parties)
        (∀ c, c < 10 → bitAt t.perm c = true → u ≤ boundOf t.kind c → (∀ c' < c, bitAt t.perm c' = true → boundOf t.kind c' < u) → (choose t e).cho = c ∧ (choose t e).unm = false) ∧
        ((∀ c < 10, bitAt t.perm c = true → boundOf t.kind c < u) → (choose t e).unm = true ∧
          ∀ c < 10, bitAt t.perm c = true → (∀ c' < 10, c < c' → bitAt t.perm c' = false) → (choose t e).cho = c) ∧
        (choose t e).st = (e.prd && decide (e.ach < Min.min u (boundOf t.kind (choose t e).cho))) ∧
        choose t e = { e with cho := (choose t e).cho, unm := (choose t e).unm, st := (choose t e).st }) ∧
      (∀ (b : Block) (r c : Nat), mget b.tol r = none → tolWalk b r c = (b.choice, 0)) ∧
      (∀ (b : Block) (r c : Nat) (rank : Nat → Nat), mget b.tol r ≠ none →
        (∀ n t, mget b.tol n = some t → n < 64 ∧ t.parties ≤ 4 ∧ ∀ o ∈ t.ops, mget b.tol o.2.1 ≠ none ∧ rank o.2.1 < rank n) →
        let reached := fun (n : Nat) => Relation.ReflTransGen (fun x y => ∃ t, mget b.tol x = some t ∧ ∃ o ∈ t.ops, o.2.1 = y) r n
        let new := fun (n : Nat) => mgetD (tolWalk b r c).1 n dfltChoice
        ∃ code : Nat → Nat,
          (∀ n, ¬ reached n → mget (tolWalk b r c).1 n = mget b.choice n) ∧
          (∀ n t, reached n → mget b.tol n = some t →
            code n = (new n).code ∧ (choiceAt b n).code ≤ code n ∧ (n = r → c ≤ code n) ∧
            (∀ o ∈ t.ops, (max 0 (Min.min (255 : Int) (code n + ([0, 0, 8, 13, 16][t.parties]?).getD 0 + o.2.2))).toNat ≤ code o.2.1) ∧
            (code n = (choiceAt b n).code ∨ (n = r ∧ code n = c) ∨ ∃ m u, reached m ∧ mget b.tol m = some u ∧
              ∃ o ∈ u.ops, o.2.1 = n ∧ code n = (max 0 (Min.min (255 : Int) (code m + ([0, 0, 8, 13, 16][u.parties]?).getD 0 + o.2.2))).toNat) ∧
            ((t.kind = 0 ∨ t.kind = 2) → new n = choose t { choiceAt b n with code := code n, rch := true }) ∧
            (¬ (t.kind = 0 ∨ t.kind = 2) → new n = { choiceAt b n with code := code n, rch := true, st := t.ops.any (fun o => (new o.2.1).st), unm := t.ops.any (fun o => (new o.2.1).unm) })) ∧
          ∀ n < 64, ((tolWalk b r c).2.getLsbD n = true ↔ reached n ∧ (new n).st = true))

/-- Six words, one each of formats X (FADD, and FCMP with a condition), M (a load with ordering and scope), J and P, with an offset of minus one, and a word of an unassigned opcode: each decodes to its instruction with every field as the encoding tables place it, and the last is refused by name. -/
def Obligations.DecodeSampleWords : Prop :=
  let always : Guard := { g := 0, gn := false }
  decodeWord 0x40000800011FF400 none = .ok (.fadd { guard := always, sub := 0, d := .v 16, a := .v 0, b := .v 8, c := .none, t := .f32, m := 0, ea := false, eb := false, ec := false, lit := none }) ∧
  decodeWord 0x7104A080003FF400 none = .ok (.fcmp { guard := always, sub := 4, d := .k 1, a := .v 0, b := .v 1, c := .none, t := .f32, m := 0, ea := false, eb := false, ec := false, lit := none }) ∧
  decodeWord 0x80000200BFE08250 none = .ok (.ld { guard := always, sub := 0, d := .v 4, a := .v 2, b := .none, off := 0x010, sz := 2, ord := 1, sco := 2, e := false, x := false, lit := none }) ∧
  decodeWord 0xD30080FFFFFFFFFC none = .ok (.bnz { guard := always, a := .s 1, b := .none, off := 0xFFFFFFF }) ∧
  decodeWord 0xF0000C0001010100 none = .ok (.rpt 3 { d := 1, a := 1, b := 1, c := 0 }) ∧
  decodeWord 0x1E00000000000000 none = .error .opcode

/-- For every well-formed instruction that has a word, of any of the seven formats and 156 rows, with every operand, immediate, type, mode, guard and literal that the encoding admits: its word, with its literal as the next word where it has one, decodes to exactly that instruction. No bit of an encoding is dropped. -/
def Obligations.DecodeEncode : Prop :=
  ∀ (i : Instr), i.isWord = true → i.wellFormed = true → ∃ w rest, encode i = w :: rest ∧ rest.length + 1 = wordLength w ∧ decodeWord w rest.head? = .ok i

/-- For every 64-bit word and every word or end that follows it: if it decodes, the instruction is well-formed and has a word, and encoding it gives the same 64 bits back, with the following word as its literal exactly where the word says that a literal follows. Every bit of an accepted word is read, and no two words decode to the same instruction. -/
def Obligations.EncodeDecode : Prop :=
  ∀ (w : Word64) (next : Option Word64) (i : Instr), decodeWord w next = .ok i →
      i.isWord = true ∧ i.wellFormed = true ∧
      ∃ rest, encode i = w :: rest ∧ (hasLiteral w = false → rest = []) ∧ (hasLiteral w = true → ∃ l, next = some l ∧ rest = [l])

/-- In a package that is not frozen, when the next move lets a wave issue that has a started clause, on a core, not held in Quern, with no acquire outstanding on the far side (R134) and not stopped at this word by a save that is due (R81), and the word at its resume point, stepped for its repeat, decodes to i, the step is exec of i in that state with the wave as the issuing one and the move taken. The step answers just what exec answers where the wave lives on, is not stopping, and whether a due save holds it at a word that waits is as it was; where that alone changes, the answer differs in that mark alone. A word that does not decode raises Illegal Instruction, a move that names an event runs it, and time that passes changes no register, memory, block or grid, and of a context only the time from which a ring whose SENTs do not exceed its AREV would stall. Which words a due save holds (those that leave the whole state as it was, and wait for more than their own wave's older operations) is log 15; the ring time, which runs on only while a SENT that this member knows of exceeds AREV (R324), is log 36; the moves are log 2, and the time that passes between them log 4. -/
def Obligations.StepRunsTheWord : Prop :=
  ∀ (m : Move) (rest : List Move) (s : State), s.frozen = false → s.sched.moves = m :: rest →
      let s1 := { s with sched := { s.sched with moves := rest, freeNo := s.sched.freeNo + 1 } }
      (∀ key v c raw, m = .issue key → viewOf s key = some v → v.w.clause = some c → v.w.ended = false → v.w.poll = none → v.w.parked = none → v.b.life = .running →
        acquiring v.w = false → (v.w.held && !v.w.stop && saveDue s v.w.blk) = false → c.words[c.idx]? = some raw →
        let word := (match c.rpt with | some r => stepWord raw r.steps r.iter | none => raw)
        let s2 := { s1 with sched := { s1.sched with cur := some key } }
        (∀ i, decodeWord word (c.words[c.idx + 1]?) = .ok i →
          step s = settle i key s2 (exec i s2) ∧
          (∀ t, exec i s2 = .next t → (∀ w, mget t.waves key = some w → w.stop = false ∧ w.held = (saveDue t w.blk && decide (t = s2) && !ownWait i key t)) → step s = .next t) ∧
          (∀ t w, exec i s2 = .next t → mget t.waves key = some w → w.stop = false → w.held ≠ (saveDue t w.blk && decide (t = s2) && !ownWait i key t) →
            step s = .next (putWave key { w with held := !w.held } t))) ∧
        (∀ r, decodeWord word (c.words[c.idx + 1]?) = .error r → step s = illegalWord v.w s1)) ∧
      (∀ i, m = .event i → i.isWord = false → step s = exec i s1) ∧
      (∀ c n, m = .pass c n → ∃ t, step s = .next t ∧ t.time.cycle = s.time.cycle + c ∧ t.time.ticks = s.time.ticks + BitVec.ofNat 64 n ∧
        t.mem = s.mem ∧ t.blocks = s.blocks ∧ t.grids = s.grids ∧
        (∀ key c, mget s.ctxs key = some c → ∃ c', mget t.ctxs key = some c' ∧ c' = { c with rings := c'.rings } ∧
          ∀ ctl r, mget c.rings ctl = some r → mget c'.rings ctl = some (if sentAhead c ctl r then r else { r with since := t.time.ticks.toNat })) ∧
        ∀ key w, mget s.waves key = some w → ∃ w', mget t.waves key = some w' ∧ w' = { w with poll := w'.poll, yieldLeft := w'.yieldLeft, age := w'.age })

/-- Every state steps to a next state: whatever word a wave issues with whatever operands, and whatever event or input arrives, the step answers neither a fault nor a refusal of the model. -/
def Obligations.StepNeverStops : Prop :=
  ∀ (s : State), StepsOn s

/-- In a frozen package every step other than a package reset leaves every part of the state as it was, registers, memory, tags, queues, flash and time included, but for the list of moves to come and what the package answers outside itself; no instruction issues and no event takes effect. BAR and register accesses are answered with Completer Abort. Scan of each unit of the table of R317 is answered with the bytes asked for, at most 1,024 of them, each fixed by the frozen state of that unit and its offset: two scans of one byte agree. A wave's breakpoint counter is read out too. A package reset is the only way out. The values of the scanned bytes are free (log 6). -/
def Obligations.FrozenPackage : Prop :=
  ∀ (s t : State), s.frozen = true → step s = .next t →
      ((t = { s with sched := t.sched, out := t.out } ∧ ∃ o, t.out = s.out ++ o ∧ o.length ≤ 1) ∨ (nextMove s).1 = .event .packageReset) ∧
      (∀ rest vf a n w, s.sched.moves = .event (.bar2Access vf a n w) :: rest → t.out = s.out ++ [.abort]) ∧
      (∀ rest sp o x, s.sched.moves = .event (.registerWrite sp o x) :: rest → (∀ f, sp ≠ .firmware f) → t.out = s.out ++ [.abort]) ∧
      (∀ rest u i o n, s.sched.moves = .event (.scanRead (.unit u) i o n) :: rest →
        (u = 1 ∧ i < 768 ∨ 2 ≤ u ∧ u ≤ 4 ∧ i < 4 ∨ u = 5 ∧ i < 16) →
        ∃ x, scanState s u i = some x ∧ t.out = s.out ++ [.scan u i o ((List.range (Nat.min n 1024)).map (fun j => Config.scanByte (u :: i :: x) (o + j)))]) ∧
      (∀ rest key w o n, s.sched.moves = .event (.scanRead .breakpoints key o n) :: rest → mget s.waves key = some w →
        t.out = s.out ++ [.answer (natToBytes 8 w.bkpts)])

/-- From every state whose device memory lists rising addresses and no byte equal to what an unlisted address reads as, every step, of any word, event or input, gives a state whose memory has that form again: equal memories stay equal data, and every address has one byte. That an unlisted byte reads as zero is the choice of log entry 1. -/
def Obligations.MemoryStaysCanonical : Prop :=
  Preserved (fun s => Memory.wf s.mem = true)

/-- After reset the registers whose reset value the manual states hold it: CTXB, CMDA, CMDL, GO and STAT, the inbound windows and the partition and quantum table entries of the PF window, ONWD and FWD, and the tick counter read 0, and the package is not frozen. What the manual does not give is the choice of the model (log entries 1 and 5): TBB, FWWIN, the latency tolerance, the counters, KICK and the VF registers read 0, no link is trained, no wave, block, grid or context exists, no tag is set, and device memory lists nothing, in its canonical form. -/
def Obligations.ResetState : Prop :=
  let s := State.reset
  s.time.ticks = 0 ∧ s.pf.ctxb = 0 ∧ s.pf.cmda = 0 ∧ s.pf.cmdl = 0 ∧ s.pf.go = false ∧ s.pf.stat = 0 ∧ s.pf.tbb = 0 ∧ s.pf.onwd = false ∧ s.pf.fwd = false ∧
  s.pf.kick = 0 ∧ s.pf.fwwin = 0 ∧ s.pf.latency = 0 ∧ s.pf.cnt3108 = 0 ∧ s.pf.cnt3110 = 0 ∧ s.pf.cnt3330 = 0 ∧ (∀ n, inwAt s n = 0) ∧
  (∀ n, vfAt s n = dfltVf) ∧ dfltVf.lrb = 0 ∧ dfltVf.crb = 0 ∧ (∀ p i, mgetD (partAt s p).quanta i 0 = 0 ∧ (partAt s p).v = false) ∧ s.frozen = false ∧
  (∀ p l, mget s.links p = some l → l.trained = false) ∧
  (∀ k, mget s.waves k = none ∧ mget s.blocks k = none ∧ mget s.grids k = none ∧ mget s.ctxs k = none) ∧ (∀ a, tagOf s a = 0) ∧ Memory.wf s.mem = true

/-- Writing lane values of a type to a v register makes each selected lane hold the value at its width (extended by sign for .i8 and .i16, with high bits cleared else), or, for a 64-bit type, its halves in the pair, bits 31:0 in the lower register; an s register takes the sign-extended or zero-extended value. No other register and no other lane changes, and going on to the next word changes no register. k0 reads all ones and is never written (R37). Read at 32 bits or fewer an s register gives its low bits, and a k register its 32 bits. -/
def Obligations.RegisterWrites : Prop :=
  ∀ (t : Ty) (m : Word32) (f : Nat → Nat) (w : Wave),
      let low := fun (i : Nat) => BitVec.ofNat t.width (f i)
      (∀ n : BitVec 8, t.width ≤ 32 → ∃ u, putLanes t (.v n) m f w = u ∧ u = { w with v := u.v } ∧ ∀ r i, i < 32 → vReg u r i =
        if r = n.toNat ∧ m.getLsbD i then (if t = .i8 ∨ t = .i16 then (low i).signExtend 32 else (low i).setWidth 32) else vReg w r i) ∧
      (∀ n : BitVec 8, t.width = 64 → ∃ u, putLanes t (.v n) m f w = u ∧ u = { w with v := u.v } ∧ ∀ r i, i < 32 → vReg u r i =
        if r = n.toNat ∧ m.getLsbD i then BitVec.ofNat 32 (f i) else if r = n.toNat + 1 ∧ m.getLsbD i then BitVec.ofNat 32 (f i / 2 ^ 32) else vReg w r i) ∧
      (∀ n : BitVec 6, ∃ u, putLanes t (.s n) m f w = u ∧ u = { w with s := u.s } ∧ ∀ r, sReg u r =
        if r = n.toNat then (if t = .i8 ∨ t = .i16 ∨ t = .i32 then (low 0).signExtend 64 else (low 0).setWidth 64) else sReg w r) ∧
      (kReg w 0 = 0xFFFFFFFF ∧ ∀ x, setK w 0 x = w) ∧
      (∀ n x r, 0 < n → kReg (setK w n x) r = if r = n then x else kReg w r) ∧
      (∀ u, u = advance w → u.s = w.s ∧ u.k = w.k ∧ u.v = w.v ∧ u.sE = w.sE ∧ u.kE = w.kE ∧ u.vE = w.vE ∧ u.oc = w.oc ∧ u.mq = w.mq ∧ u.returns = w.returns) ∧
      (∀ lit (n : BitVec 6) i, t.width ≤ 32 → tyOp w lit t (.s n) i = ((sReg w n.toNat).setWidth t.width).toNat) ∧
      (∀ lit (n : BitVec 8) i, tyOp w lit t (.v n) i = if t.width = 64 then (vReg w n.toNat i).toNat + 2 ^ 32 * (vReg w (n.toNat + 1) i).toNat else (vReg w n.toNat i).toNat % 2 ^ t.width) ∧
      (∀ (n : BitVec 3) i, rawOp w none false (.k n) i = (kReg w n.toNat).setWidth 64)

/-- A hard fault of a running block: with room in its fault queue the producer index rises by one, the slot it named holds the eight words of the record as R284 lays them out (ASID, PART, DET, GRID when FPOL = 1, IMP for cause 10, WAVE, LANE, OPC, 0 for word index 0x1F, and CAUSE; the work identifier of the named lane, PC, ITER and WORD, ADDR, the block, STBASE, the tick counter), LOST set where records were dropped before it, and where the grid goes on no other byte of memory changes; with a full queue the lost count rises and no record is written; the block is marked faulted, and a second fault of a faulted or ended block changes nothing. With FPOL = 1 every other block of the grid has a status or is marked to end with it. KILL answers a next state in which the block is marked done, every present wave at a clause boundary, parked, at a POLL, a PHASE or a barrier has retired and every other will stop at its clause boundary, and memory is as before; KILL.grid ends its own block so, and every other block of the grid has a status or is marked to end with the grid, faulted. -/
def Obligations.EndingABlock : Prop :=
  let gridEnds := fun (gid : Nat) (g : Grid) (own : Nat) (s t : State) => ∀ n b, n < gridBlocks g.d → n ≠ own → mget s.blocks (blockKey gid n) = some b →
    hasStatus g n = false → blockKey gid n ≠ blockKey gid own →
    (∃ g', mget t.grids gid = some g' ∧ hasStatus g' n = true) ∨ (∃ b', mget t.blocks (blockKey gid n) = some b' ∧ b'.endAs = some .gridFault)
  (∀ (w : Wave) (f : FaultSpec) (b : Block) (g : Grid) (c : Ctx) (s : State), mget s.blocks w.blk = some b → mget s.grids b.gid = some g → mget s.ctxs g.asid = some c →
    b.life = .running →
    let info := wordInfo w
    (b.endAs = some .faulted ∨ b.endAs = some .gridFault → hardFault w f s = .next s) ∧
    (b.endAs = none → w.blk = blockKey b.gid b.num →
      let q := c.ent.fqb
      let n := 2 ^ (c.ent.fql + 4)
      let pidx := physNat s q 4
      let lost := physNat s (q + 4) 4
      let full := (pidx + 2 ^ 32 - physNat s (q + 8) 4) % 2 ^ 32 = n
      let slot := q + 64 + 64 * (pidx % n)
      let flags := (if c.lost then 2 ^ 31 else 0) + (if g.d.fpol then 2 ^ 30 else 0) + (if f.cause = 10 then 2 ^ 29 else 0)
      let w0 := g.asid * 2 ^ 52 + c.ent.part * 2 ^ 48 + f.det * 2 ^ 32 + flags + w.idx * 2 ^ 21 + f.lane * 2 ^ 16 + (if info.ix = 0x1F then 0 else info.opc) * 2 ^ 8 + f.cause
      ∃ t, hardFault w f s = .next t ∧ (∃ b', mget t.blocks w.blk = some b' ∧ b'.endAs = some .faulted) ∧
        (g.d.fpol = true → gridEnds b.gid g b.num s t) ∧
        (g.d.fpol = false → ¬ full → physNat t q 4 = (pidx + 1) % 2 ^ 32 ∧ physNat t (q + 4) 4 = lost ∧
          (f.cause < 256 → f.det < 256 → f.lane < 32 → w.idx < 32 → info.opc < 256 → c.ent.part < 16 → g.asid < 4096 → physNat t slot 8 = w0) ∧
          physWord t (slot + 8) = w.wid + BitVec.ofNat 64 f.lane ∧ physWord t (slot + 16) = info.pc ∧
          physWord t (slot + 24) = BitVec.ofNat 64 (info.iter * 2 ^ 8 + info.ix) ∧ physWord t (slot + 32) = BitVec.ofNat 64 f.addr ∧
          physWord t (slot + 40) = BitVec.ofNat 64 b.num ∧ physWord t (slot + 48) = BitVec.ofNat 64 g.d.stbase ∧ physWord t (slot + 56) = s.time.ticks ∧
          ∀ a, ¬ (q ≤ a ∧ a < q + 8) → ¬ (slot ≤ a ∧ a < slot + 64) → physByte t a = physByte s a) ∧
        (g.d.fpol = false → full → physNat t q 4 = pidx ∧ physNat t (q + 4) 4 = (lost + 1) % 2 ^ 32 ∧ ∀ a, ¬ (q ≤ a ∧ a < q + 8) → physByte t a = physByte s a))) ∧
  (∀ (y : YW) (v : View) (m : Word32) (s : State), Acts y.guard [] [] v m s → v.b.endAs = none → v.w.blk = blockKey v.b.gid v.b.num →
    let halted := fun (t : State) => ∀ k u, mget s.waves k = some u → blockOfWave k = v.w.blk → u.ended = false →
      (atRest s u = true → ∀ u', mget t.waves k = some u' → u'.ended = true) ∧
      (atRest s u = false → ∀ u', mget t.waves k = some u' → u'.ended = true ∨ u'.stop = true)
    (∃ t b', exec (.kill y) s = .next t ∧ mget t.blocks v.w.blk = some b' ∧ b'.endAs = some .done ∧ b'.a = v.b.a ∧ halted t ∧ t.mem = s.mem ∧ t.tags = s.tags) ∧
    (∃ t b', exec (.killGrid y) s = .next t ∧ mget t.blocks v.w.blk = some b' ∧ b'.endAs = some .done ∧ gridEnds v.b.gid v.g v.b.num s t))

/-- Whenever the word acts and its descriptor, and head record where it names one, are read and valid, it answers a next state: KSLOT writes the slot, generation, page and row of its position; KSTAT what its selector names; KSIG marks its register empty and binds the signature; KAPPEND hands the journal entry, in the next place of its core that holds no unfiled entry (the model's choice, log 55), to the memory unit and raises oc.st; KSTEP is presented once nothing older is unacknowledged. A position of 2^48 or more, or a selector of 4 or more, raises Illegal Instruction. KSTAT 0 reads the counter as an operation on sync space, which a replay may hold; that it is recorded under its wave without an ordinal of its own is the choice of log 58. A bit of a finite vector signature is 1 exactly where the exact signed sum is greater than 0. -/
def Obligations.KeyStoreWords : Prop :=
  (∀ (k : KW) (v : View) (m : Word32) (ws : List Word64) (s t : State), HasDesc v k s ws t →
        let d := kvDesc ws
        let pb := (rawOp v.w k.lit false k.b 0).toNat
        let n := d.dh / 32
        let region := kvRegion s v.g.asid d.step
        let home := d.step + 8 ≤ v.c.ent.syncsz * 65536
        let full := fun (o : Operand) => (∀ j i, j < n → i < 32 → (vNum o + j) * 32 + i ∉ v.w.vE) ∧ vNum o + n ≤ v.w.allot
        (∀ r : BitVec 6, k.d = .s r →
          (Acts k.guard [{ o := k.a }, { o := k.b }] [(k.d, 1)] v m s →
            let slot := if pb < d.s then pb else d.s + (pb - d.s) % d.w
            let gen := if pb < d.s then 0 else (pb - d.s) / d.w % 4096
            (pb < 2 ^ 48 → exec (.kslot k) s = GoesOn v.key (setS v.w r.toNat (BitVec.ofNat 64 (slot + gen * 2 ^ 20 + slot / 16 * 2 ^ 32 + slot % 16 * 2 ^ 52))) t) ∧
            (2 ^ 48 ≤ pb → exec (.kslot k) s = illegalWord v.w t) ∧
            (4 ≤ pb → exec (.kstat k) s = illegalWord v.w t) ∧
            (home → (pb = 0 → (∀ x, servedOp v.key d.step t = some x → exec (.kstat k) s = GoesOn v.key (setS v.w r.toNat (syncWord v.c d.step)) x) ∧
                (servedOp v.key d.step t = none → exec (.kstat k) s = .next s)) ∧
              (pb = 1 → exec (.kstat k) s = GoesOn v.key (setS v.w r.toNat (BitVec.ofNat 64 (region.entries.filter (fun e => e.step == some (syncWord v.c d.step))).length)) t) ∧
              (pb = 2 → exec (.kstat k) s = GoesOn v.key (setS v.w r.toNat (BitVec.ofNat 64 (unfiled s v.g.asid d.step (v.b.core.getD 0)))) t) ∧
              (pb = 3 → exec (.kstat k) s = GoesOn v.key (setS v.w r.toNat (if region.ksteps = [] then 0 else 1)) t))) ∧
          (Acts k.guard [{ o := k.a }] [(k.d, 1)] v m s → ∀ hr u, HasHead v k ws t hr u → full k.b →
            exec (.ksig k) s = lateResult v k.d 8 m [(0, (signature hr (vecVals v.w (vNum k.b) n)).toNat)] u)) ∧
        (Acts k.guard [{ o := k.a }, { o := k.d }] [] v m s → ∀ hr u, HasHead v k ws t hr u → full k.b → full k.c → home →
          let p := (sReg v.w (sNum k.d)).toNat
          let core := v.b.core.getD 0
          let taken := fun (j : Nat) => (kvRegion u v.g.asid d.step).entries.any (fun e => e.core == core && e.slot == j && e.alive u d.step)
          ∀ i, i < d.jent → taken ((mgetD (kvRegion u v.g.asid d.step).next core 0 + i) % d.jent) = false →
            (∀ j < i, taken ((mgetD (kvRegion u v.g.asid d.step).next core 0 + j) % d.jent) = true) →
          let place := (mgetD (kvRegion u v.g.asid d.step).next core 0 + i) % d.jent
          let at_ := ptrPlus d.jbase ((core * d.jent + place) * (64 + 8 * d.dh))
          let slot := if p < d.s then p else d.s + (p - d.s) % d.w
          let gen := if p < d.s then 0 else (p - d.s) / d.w % 4096
          let bytes := natToBytes 8 (k.head.toNat * 2 ^ 48 + p) ++ natToBytes 8 (gen * 2 ^ 20 + slot) ++ natToBytes 8 (signature hr (vecVals v.w (vNum k.b) n)).toNat ++
            natToBytes 40 0 ++ (vecBits v.w (vNum k.b) n).flatMap (natToBytes 4) ++ (vecBits v.w (vNum k.c) n).flatMap (natToBytes 4)
          p < 2 ^ 48 → unfiled u v.g.asid d.step core < d.jent →
          checkAccess u v .store (some (ptrTag at_)) (ptrAddr at_) (64 + 8 * d.dh) = .ok → emptyLineLanes v.b [(0, at_)] (64 + 8 * d.dh) = [] →
          ∃ e : JEntry, e.id = region.nextId ∧ e.core = core ∧ e.slot = place ∧ e.wave = v.key ∧ e.no = v.w.stNext ∧ e.written = false ∧ e.step = none ∧ e.desc = ws ∧
            Queues (.journal d.step region.nextId [{ lane := 0, addr := ptrAddr at_, tag := ptrTag at_, data := bytes }]) true false false id v
              (modRegion v.g.asid d.step (fun r => { r with entries := r.entries ++ [e], nextId := r.nextId + 1, next := mput r.next core ((place + 1) % d.jent) }) u)
              (exec (.kappend k) s)) ∧
        (Acts k.guard [{ o := k.a }] (match k.d with | .none => [] | o => [(o, 1)]) v m s →
          (home → v.w.arv = false → v.w.oc.st = 0 → v.w.mq = [] →
            exec (.kstep k) s = .next (modRegion v.g.asid d.step (fun r => { r with ksteps := r.ksteps ++ [(v.key, ws)] }) (putWave v.key { v.w with arv := true } t))) ∧
          (v.w.arv = true ∨ v.w.oc.st ≠ 0 → exec (.kstep k) s = .next s))) ∧
      (∀ (r : HeadRec) (xs : List FVal),
        let sign := fun (t j i : Nat) => (if (hmix r.seed (BitVec.ofNat 64 (t * 2 ^ 48 + j * 2 ^ 32 + i))).getLsbD 63 then (-1 : Rat) else 1)
        (.nan ∈ xs → signature r xs = 0) ∧
        (r.b ≤ 16 → ∀ qs : List Rat, xs.map FVal.rat = qs.map some → ∀ t j, t < 4 → j < 16 →
          (signature r xs).getLsbD (16 * t + j) =
            (decide (t < r.nl) && decide (j < r.b) && decide (0 < ((List.range qs.length).map (fun i => sign t j i * (qs[i]?).getD 0)).sum)))
      )

/-- Whenever the word acts with a valid descriptor and head, its address legal, the region open, oc.gat below 63, none of its older writes to global memory left to perform and its destination lines full and free of older stores, it answers a next state: KGATHER, its union found, queues the list whose header counts the entries kept (the GCAP of highest position), flags broken, capped or chain-limited, and holds the step counter, and sets the selected bits of its k register to whether it is incomplete; where the descriptor asks for a fallback, an incomplete one enters the handler with cause 2 instead, or without a handler goes on with its trap recorded, or, where trap.st is 1 all the same, without (the reading of log 11). The union stands by strictly ascending position, and every entry of it is live: its slot has a generation record that is valid, of the entry's generation, and holds that position, as memory stands when the word issues, but for what the accesses of its own reads leave. KFETCH queues the rows of the list entries it names, as they stand when it registers (a row whose slot does not hold its entry's generation is zeros), to the A window, or to a reservation of BF16 that becomes filling. The region counts one more reader, and the counter is read as an operation on sync space, which a replay may hold (log 58). The order of the checks of KFETCH, and that a QB out of its range is no QB that is queued, are choices of log 55. -/
def Obligations.KeyStoreReads : Prop :=
  (∀ (k : KW) (v : View) (m : Word32) (ws : List Word64) (hr : HeadRec) (s t u : State), HasDesc v k s ws t → HasHead v k ws t hr u → v.w.oc.gat < 63 → writesOut v.w = false →
      let d := kvDesc ws
      d.step + 8 ≤ v.c.ent.syncsz * 65536 → (kvRegion u v.g.asid d.step).ksteps = [] →
      let queues := fun (i : Instr) (from_ : State) (b' : Block) (w : Wave) (op : EngOp) => ∃ z, exec i s =
          .next (putWave v.key (advance { w with gatQ := v.w.gatQ ++ [entryNow v op []], engNo := v.w.engNo + 1, oc := { v.w.oc with gat := v.w.oc.gat + 1 } }) z) ∧
        mget z.blocks v.w.blk = some b' ∧ (∀ key, key ≠ v.w.blk → mget z.blocks key = mget from_.blocks key) ∧ z.waves = from_.waves ∧ z.mem = from_.mem ∧ z.tags = from_.tags ∧
        (kvRegion z v.g.asid d.step) = { kvRegion from_ v.g.asid d.step with readers := (kvRegion from_ v.g.asid d.step).readers + 1 }
      let marked := fun (lines : List Nat) => { v.b with aE := lines.foldl sadd v.b.aE }
      let free := fun (lines : List Nat) => (∀ l ∈ lines, l ∉ v.b.aE) ∧ storesTo s v.w.blk lines = false
      (Acts k.guard [{ o := k.a }, { o := k.d }, { o := k.b }] (match k.c with | .none => [] | o => [(o, 1)]) v m s →
        let q := (sReg v.w (sNum k.d)).toNat
        ∀ g z, q % 16 = 0 → windowOf (ptrAddr q) = .a → ptrAddr q + 16 + 4 * d.gcap ≤ aBase + v.g.d.au * 4096 →
        ∀ u1, servedOp v.key d.step u = some u1 →
        gather v.g.asid d hr k.head.toNat (rawOp v.w k.lit false k.b 0).toNat hr.nl 0 { u := [], brk := false, chl := false } u1 = .ok g z →
        let cap := decide (d.gcap < g.u.length)
        let inc := g.brk || g.chl || cap
        let kept := (g.u.drop (g.u.length - d.gcap)).map (fun x => x % 2 ^ 32)
        let header := (if g.brk then 2 ^ 35 else 0) + (if cap then 2 ^ 34 else 0) + (if g.chl then 2 ^ 33 else 0) + (if inc then 2 ^ 32 else 0) + kept.length
        let bytes := natToBytes 8 header ++ natToBytes 8 (stepCounter z v.g.asid d.step).toNat ++ kept.flatMap (natToBytes 4)
        let lines := linesOf (ptrAddr q) (16 + 4 * kept.length)
        (inc = true → d.fb = true → v.w.trapVec ≠ 0 → v.w.trapSt = false → ∃ w', exec (.kgather k) s = .next (putWave v.key w' z) ∧
          softTrap v.w { cause := 2, addr := (sReg v.w (sNum k.a)).toNat, detail := k.head.toNat, lanes := m } = .enter w') ∧
        (∀ w0, (((inc = false ∨ d.fb = false ∨ (v.w.trapVec = 0 ∧ v.w.trapSt = true)) ∧ w0 = v.w) ∨ (inc = true ∧ d.fb = true ∧
            softTrap v.w { cause := 2, addr := (sReg v.w (sNum k.a)).toNat, detail := k.head.toNat, lanes := m } = .go w0)) → free lines →
          (k.c = .none → ∃ y, y = { z with waves := y.waves } ∧ queues (.kgather k) y (marked lines) w0 (.list (ptrAddr q) bytes d.step)) ∧
          (∀ c, k.c = .k c → ∃ y, y = { z with waves := y.waves } ∧
            queues (.kgather k) y (marked lines) (setK w0 c.toNat ((kReg w0 c.toNat &&& ~~~m) ||| ((if inc then 0xFFFFFFFF else 0) &&& m))) (.list (ptrAddr q) bytes d.step)))) ∧
      (let p := (rawOp v.w k.lit false k.c 0).toNat
       let nr := p / 2 ^ 16 % 2 ^ 16
       let first := p % 2 ^ 16
       let wr := p / 2 ^ 32 % 2 ^ 5
       let qb := p / 2 ^ 37 % 2 ^ 3
       let l := (sReg v.w (sNum k.b)).toNat
       let dst := (sReg v.w (sNum k.d)).toNat
       p < 2 ^ 40 → nr ≠ 0 → l % 16 = 0 → windowOf (ptrAddr l) = .a → Readable v l 16 u →
       let x := readState v l 16 u
       first + nr ≤ bytesToNat ((readBytes v l 16 u).take 4) → Readable v (ptrPlus l (16 + 4 * first)) (4 * nr) x →
       let y := readState v (ptrPlus l (16 + 4 * first)) (4 * nr) x
       let ents := (List.range nr).map (fun j => bytesToNat (((readBytes v (ptrPlus l (16 + 4 * first)) (4 * nr) x).drop (4 * j)).take 4))
       let lines := linesOf (ptrAddr dst) (4 * d.dh * nr)
       ∀ y1, servedOp v.key d.step y = some y1 →
       let rows := fun (values : Bool) (ls : List Nat) => snapRows v.g.asid d k.head.toNat values ents (modBlock v.w.blk (fun b => { b with aE := ls.foldl sadd b.aE }) y1)
       let fetches := fun (i : Instr) (values : Bool) (dest : FetchDest) (ls : List Nat) (b' : Block) =>
         queues i (rows values ls).2 b' v.w (.fetch ws k.head.toNat values dest (rows values ls).1 0 [])
       (Acts k.guard [{ o := k.a }, { o := k.b }, { o := k.c }, { o := k.d }] [] v m s → qb = 0 → wr = 0 → dst % 4 = 0 → windowOf (ptrAddr dst) = .a →
         ptrAddr dst + 4 * d.dh * nr ≤ aBase + v.g.d.au * 4096 → free lines →
         fetches (.kfetch k) false (.window (ptrAddr dst)) lines (marked lines) ∧ fetches (.kfetchV k) true (.window (ptrAddr dst)) lines (marked lines)) ∧
       (Acts k.guard [{ o := k.a }, { o := k.b }, { o := k.c }] [] v m s → ∀ r, mget v.b.res wr = some r → (r.st = 1 ∨ r.st = 3) → r.fmt = 7 → r.sc = false →
         let filling := { v.b with res := mput v.b.res wr { r with st := 2 } }
         (qb = 0 → nr ≤ 32 → d.dh ≤ r.elems → fetches (.kfetchW k) false (.rows wr) [] filling) ∧
         (qb < d.dh / 32 → nr ≤ r.elems → fetches (.kfetchWV k) true (.columns wr qb) [] filling)))) ∧
      (∀ (asid : Nat) (d : KvDesc) (r : HeadRec) (h sig : Nat) (s z : State) (g : Gathered),
        gather asid d r h sig r.nl 0 { u := [], brk := false, chl := false } s = .ok g z →
        g.u.Pairwise (fun x y => x < y) ∧
        ∀ x ∈ g.u, let e := x % 2 ^ 32
          e % 2 ^ 20 < d.s + d.w ∧ ∃ s' t' rec, ReadsOf asid s s' ∧ lovageNat asid (ptrPlus d.genb (8 * (h * (d.s + d.w) + e % 2 ^ 20))) 8 s' = .ok rec t' ∧
            rec / 2 ^ 63 % 2 = 1 ∧ rec / 2 ^ 48 % 2 ^ 12 = e / 2 ^ 20 % 2 ^ 12 ∧ x / 2 ^ 32 = rec % 2 ^ 48) ∧
      (∀ (asid : Nat) (d : KvDesc) (h : Nat) (values : Bool) (slot gen : Nat) (s : State),
        let row := readRow asid d h values (.unread slot gen) s
        (d.s + d.w ≤ slot → row = .ok .zero s) ∧
        (slot < d.s + d.w → ∀ rec t, lovageNat asid (ptrPlus d.genb (8 * (h * (d.s + d.w) + slot))) 8 s = .ok rec t →
          ((rec / 2 ^ 63 % 2 = 0 ∨ rec / 2 ^ 48 % 2 ^ 12 ≠ gen) → row = .ok .zero t) ∧
          (rec / 2 ^ 63 % 2 = 1 → rec / 2 ^ 48 % 2 ^ 12 = gen → d.bf16 = true → ∀ page u bs z, lovageNat asid (ptrPlus d.btab (8 * (slot / 16))) 8 t = .ok page u →
            lovageRead asid (ptrPlus (ptrPlus page (h * d.hs)) ((slot % 16 + if values then 16 else 0) * (d.dh * d.eb))) (d.dh * d.eb) u = .ok bs z →
            ∃ tier, row = .ok (.row slot page tier 0 bs) z)) ∧
        (∀ e rest row t, readRow asid d h values (.unread (e % 2 ^ 20) (e / 2 ^ 20 % 2 ^ 12)) s = .ok row t →
          (snapRows asid d h values (e :: rest) s).1 = row :: (snapRows asid d h values rest t).1))

/-- Whenever the word acts: an arrival waits for an earlier one of its wave to complete, for its stores to the A window and for its engine operations that may still read it, and is then recorded, by ARRIVE going on, by BAR waiting for its generation; the last present wave of a block completes a block barrier, whose generation rises, whose arrivals clear and which elects the highest member; the last block of a group a cluster barrier, electing the highest index. BWAIT and a waiting BAR go on once their generation is over, with the elected member in D, and 0 without a pending arrival. DRAIN waits until its wave has no store, returning atomic, LDS or far load outstanding (R144), and is then BAR. Memory, registers and other waves stay. -/
def Obligations.BarrierWords : Prop :=
  (∀ (y : YW) (v : View) (m : Word32) (cl : Bool) (s : State),
        let n := y.imm.toNat
        let may := stillPending s v cl n = false ∧ aStoresOut v.w = false ∧ aReadsOut v = false
        let met := recordArrival v cl n s
        let goes := fun (t : State) (x : Nat) => .next (putWave v.key (advance (putS y.d (BitVec.ofNat 64 x) (clearPend cl n (waveNow t v)))) t)
        let bar := fun (i : Instr) =>
          (v.w.arv = false → ¬ may → exec i s = .next s) ∧
          (v.w.arv = false → may → stillPending met v cl n = true → exec i s = .next (modWave v.key (fun w => { w with arv := true }) met)) ∧
          (v.w.arv = false → may → stillPending met v cl n = false → exec i s = goes (modWave v.key (fun w => { w with arv := true }) met) (barAt met v cl n).elected) ∧
          (v.w.arv = true → stillPending s v cl n = true → exec i s = .next s) ∧
          (v.w.arv = true → stillPending s v cl n = false → (pendAt v.w cl n).isSome → exec i s = goes s (barAt s v cl n).elected)
        (Acts y.guard [] (dstY y) v m s →
          bar (if cl then .barC y else .bar y) ∧
          (v.w.oc.st = 0 → hasLogged v.w = false → uncountedOut v.w = false → bar (if cl then .drainC y else .drainB y)) ∧
          (v.w.arv = false → (v.w.oc.st ≠ 0 ∨ hasLogged v.w = true ∨ uncountedOut v.w = true) → exec (if cl then .drainC y else .drainB y) s = .next s) ∧
          (stillPending s v cl n = true → exec (if cl then .bwaitC y else .bwait y) s = .next s) ∧
          (stillPending s v cl n = false → (pendAt v.w cl n).isSome → exec (if cl then .bwaitC y else .bwait y) s = goes s (barAt s v cl n).elected) ∧
          (pendAt v.w cl n = none → exec (if cl then .bwaitC y else .bwait y) s = goes s 0)) ∧
        (Acts y.guard [] [] v m s →
          (may → exec (if cl then .arriveC y else .arrive y) s = .next (modWave v.key advance met)) ∧
          (¬ may → exec (if cl then .arriveC y else .arrive y) s = .next s))) ∧
      (∀ (v : View) (n : Nat) (s : State), viewOf s v.key = some v →
        let members := (presentOf s v.w.blk).map (fun e => e.2.idx)
        let x := mgetD v.b.bars n dfltBar
        let here := sadd x.arrived v.w.idx
        let t := recordArrival v false n s
        mget t.waves v.key = some { v.w with pendB := mput v.w.pendB n x.gen } ∧ (∀ k, k ≠ v.key → mget t.waves k = mget s.waves k) ∧
        t = { s with waves := t.waves, blocks := t.blocks } ∧ (∀ k, k ≠ v.w.blk → mget t.blocks k = mget s.blocks k) ∧
        ((members = [] ∨ ∃ i ∈ members, i ∉ here) → mget t.blocks v.w.blk = some { v.b with bars := mput v.b.bars n { x with arrived := here } }) ∧
        (members ≠ [] → (∀ i ∈ members, i ∈ here) → ∃ y : Bar, mget t.blocks v.w.blk = some { v.b with bars := mput v.b.bars n y } ∧
          y.gen = x.gen + 1 ∧ y.arrived = [] ∧ y.elected ∈ members ∧ ∀ i ∈ members, i ≤ y.elected)) ∧
      (∀ (v : View) (n : Nat) (s : State), viewOf s v.key = some v → n < 4 →
        let members := (presentOf s v.w.blk).map (fun e => e.2.idx)
        let grp := groupOf v.g.d v.b.num
        let x := mgetD v.g.cbars (grp * 4 + n) dfltBar
        let here := sadd x.arrived (f2Of v.g.d v.b.num)
        let blocks := (groupBlocks v.g.d grp).filter (fun b => !hasStatus v.g b)
        let arr := sadd (mgetD v.b.cArr n []) v.w.idx
        let t := recordArrival v true n s
        mget t.waves v.key = some { v.w with pendC := mput v.w.pendC n x.gen } ∧ (∀ k, k ≠ v.key → mget t.waves k = mget s.waves k) ∧
        t = { s with waves := t.waves, blocks := t.blocks, grids := t.grids } ∧
        ((∃ i ∈ members, i ∉ arr) → t.grids = s.grids ∧ mget t.blocks v.w.blk = some { v.b with cArr := mput v.b.cArr n arr }) ∧
        (members ≠ [] → (∀ i ∈ members, i ∈ arr) → (∃ b ∈ blocks, f2Of v.g.d b ∉ here) →
          mget t.grids v.b.gid = some { v.g with cbars := mput v.g.cbars (grp * 4 + n) { x with arrived := here } }) ∧
        (members ≠ [] → (∀ i ∈ members, i ∈ arr) → blocks ≠ [] → (∀ b ∈ blocks, f2Of v.g.d b ∈ here) → ∃ (g' : Grid) (y : Bar),
          mget t.grids v.b.gid = some g' ∧ g' = { v.g with cbars := g'.cbars } ∧ mget g'.cbars (grp * 4 + n) = some y ∧
          y.gen = x.gen + 1 ∧ y.arrived = [] ∧ (∃ b ∈ blocks, f2Of v.g.d b = y.elected) ∧ ∀ b ∈ blocks, f2Of v.g.d b ≤ y.elected))

/-- Whenever the word acts on an aligned operand inside sync space, it answers a next state: QPUSH, QLEN.init, DCDEC and DCSET hand their operation to the memory unit and raise oc.st; QPOP binds the oldest item to its empty register, or parks the wave; QTRY writes the item and 1, or 0 and 0; QLEN the items minus the waiters; POLL goes on with the value where its condition holds, else waits at a raised level, its failed attempts counted on from those that a restored POLL brings, the 16th asking for an involuntary save, where the block keeps the first POLL that does so (log 18); PHASE holds with its condition, its operand aligned as its CK asks; YIELD marks its clause with its cycles, the longer of two (the reading of log 41); LAUNCH writes the code of its descriptor, the lowest of R49 whose condition fails, and a code other than 0 starts nothing; a grid accepted while its context is torn down ends at once (log 21). QPOP, QTRY, QLEN and POLL wait while an older operation of the wave at the same home, an acquire of it, or an operation that a save has carried is not performed. A misaligned operand of any of these words raises Illegal Instruction. An admitted push goes to the oldest waiter, else to the tail, and is held while the queue is full, or discarded where its block has faulted or been ended with its grid. -/
def Obligations.QueueAndWaitWords : Prop :=
  (∀ (y : YW) (v : View) (m : Word32) (s : State),
        let a := (rawOp v.w y.lit false y.a 0).toNat
        let b := rawOp v.w y.lit false y.b 0
        let sync := v.c.ent.syncsz * 65536
        (Acts y.guard [srcYA y, srcYB y] [] v m s →
          (a % 64 = 0 → a + 64 ≤ sync → Queues (.push a b) true false false id v s (exec (.qpush y) s) ∧ Queues (.qinit a b) true false false id v s (exec (.qlenInit y) s)) ∧
          (a % 64 ≠ 0 → exec (.qpush y) s = illegalWord v.w s ∧ exec (.qlenInit y) s = illegalWord v.w s) ∧
          (a % 8 = 0 → a + 8 ≤ sync → Queues (.dcdec a) true false false id v s (exec (.dcdec y) s) ∧ Queues (.dcset a b) true false false id v s (exec (.dcset y) s)) ∧
          (a % 8 ≠ 0 → exec (.dcdec y) s = illegalWord v.w s ∧ exec (.dcset y) s = illegalWord v.w s)) ∧
        (let size := if y.imm.toNat.testBit 5 then 4 else 8
         let mis := fun (i : Instr) (align : Nat) => (a % align ≠ 0 → exec i s = illegalWord v.w s)
         let late := (acquireOut v.w = true ∨ carriedOut v.w = true ∨ ∃ e ∈ v.w.mq, ∃ b ∈ quernAddrs e.op, homeOf b = homeOf a)
         let waits := fun (i : Instr) (len align : Nat) => (a % align = 0 → a + len ≤ sync → late → exec i s = .next s)
         (Acts y.guard [srcYA y] [(y.d, 1)] v m s → mis (.qpop y) 64 ∧ mis (.qlen y) 64 ∧ waits (.qpop y) 64 64 ∧ waits (.qlen y) 64 64) ∧
         (Acts y.guard [srcYA y] [(y.d, 2)] v m s → mis (.qtry y) 64 ∧ waits (.qtry y) 64 64) ∧
         (Acts y.guard [srcYA y, srcYB y] (dstY y) v m s → mis (.poll y) size ∧ waits (.poll y) size size) ∧
         (Acts y.guard [srcYA y, srcYB y] [] v m s → v.w.phase = none → v.w.trapSt = false → y.a ≠ .none →
           (y.imm.toNat % 16 = 0 → mis (.phase y) 8) ∧ (y.imm.toNat % 16 = 1 → mis (.phase y) 4) ∧ (y.imm.toNat % 16 = 3 → mis (.phase y) 64) ∧
           (y.imm.toNat % 16 = 4 → mis (.phase y) size))) ∧
        (recording v.c v.b.gid = false → replaying v.c v.b.gid = false → (∀ e ∈ v.w.mq, (∀ b ∈ quernAddrs e.op, homeOf b ≠ homeOf a) ∧ e.acq = false ∧ e.carried = false) →
          let w := { v.w with qops := v.w.qops + 1 }
          let s1 := putWave v.key w s
          let q := queueAt v.c a
          (a % 64 = 0 → a + 64 ≤ sync →
            (∀ d : BitVec 6, y.d = .s d → Acts y.guard [srcYA y] [(y.d, 1)] v m s →
              (∀ x rest, q.items = x :: rest → q.held = [] → ∃ t, exec (.qpop y) s = .next t ∧
                (∃ c, mget t.ctxs v.g.asid = some c ∧ queueAt c a = { q with items := rest } ∧ c.sync = v.c.sync) ∧
                ∃ ret : Return, ret.dest = y.d ∧ ret.size = 8 ∧ ret.lanes = [(0, x.toNat)] ∧ ret.far = [] ∧ ret.bad = none ∧
                  mget t.waves v.key = some (advance (markEmpty y.d 1 m { w with returns := w.returns ++ [ret] })) ∧ t.mem = s.mem) ∧
              (q.items = [] → ∃ t w', exec (.qpop y) s = .next t ∧ mget t.waves v.key = some w' ∧ w' = { w with parked := some a, sE := sadd v.w.sE d.toNat } ∧
                (∃ c, mget t.ctxs v.g.asid = some c ∧ queueAt c a = { q with waiters := q.waiters ++ [(v.key, d.toNat)] }) ∧ t.mem = s.mem ∧ t.blocks = s.blocks) ∧
              ∃ t c, exec (.qlen y) s = .next (putWave v.key (advance (setS w d.toNat (BitVec.ofInt 64 ((q.items.length : Int) - q.waiters.length)))) t) ∧
                t = { s1 with ctxs := t.ctxs } ∧ mget t.ctxs v.g.asid = some c ∧ c = { v.c with queues := c.queues } ∧ ∀ k, queueAt c k = queueAt v.c k) ∧
            (∀ d : BitVec 6, y.d = .s d → Acts y.guard [srcYA y] [(y.d, 2)] v m s → q.held = [] →
              (∀ x rest, q.items = x :: rest → ∃ t, exec (.qtry y) s = .next t ∧ mget t.waves v.key = some (advance (setS (setS w d.toNat x) (d.toNat + 1) 1)) ∧
                (∃ c, mget t.ctxs v.g.asid = some c ∧ queueAt c a = { q with items := rest }) ∧ t.mem = s.mem) ∧
              (q.items = [] → ∃ t, exec (.qtry y) s = .next (putWave v.key (advance (setS (setS w d.toNat 0) (d.toNat + 1) 0)) t) ∧ t = { s1 with ctxs := t.ctxs }))) ∧
          (Acts y.guard [srcYA y, srcYB y] (dstY y) v m s →
            let w32 := y.imm.toNat.testBit 5
            let size := if w32 then 4 else 8
            let word := mgetD v.c.sync (a / 8 * 8) 0
            let x : Word64 := if (mget v.c.queues (a / 64 * 64)).isSome then 0 else if w32 then (word.extractLsb' (8 * (a % 8)) 32).setWidth 64 else word
            let holds := (if y.imm.toNat.testBit 4 then b.toNat ≤ x.toNat else x = b)
            a % size = 0 → a + size ≤ sync →
            (holds → exec (.poll y) s = .next (putWave v.key (advance (putS y.d x { w with poll := none, backoff := 0 })) s1)) ∧
            (¬ holds → ∃ p : PollState, p.fails = v.w.again + 1 ∧ p.left = 2 ^ (Min.min 15 (v.w.backoff + 1) + 4) ∧ p.var = a ∧ p.value = b ∧ p.w32 = w32 ∧ p.cge = y.imm.toNat.testBit 4 ∧ p.dest = y.d ∧
              let failed := putWave v.key { w with backoff := Min.min 15 (v.w.backoff + 1), poll := some p } s1
              (v.w.again < 15 → exec (.poll y) s = .next failed) ∧
              (15 ≤ v.w.again → exec (.poll y) s = .next { failed with blocks := mput s.blocks v.w.blk { v.b with escal := some (v.b.escal.getD v.w.idx) } })))) ∧
        (Acts y.guard [srcYA y, srcYB y] [] v m s → v.w.phase = none →
          (v.w.trapSt = true → exec (.phase y) s = illegalWord v.w s) ∧
          (v.w.trapSt = false → (∀ k u q, (k, u) ∈ presentOf s v.w.blk → u.phase = some q → samePhase (phaseReq y v.w 0) q = true) → 
            let ck := y.imm.toNat % 16
            let size := if ck = 1 then 4 else if ck = 3 then 64 else if ck = 4 ∧ y.imm.toNat.testBit 5 = true then 4 else 8
            (ck = 2 ∨ ck = 5 ∨ ck < 5 ∧ y.a ≠ .none ∧ a % size = 0 ∧ a + size ≤ sync) →
            ∃ p : PhaseReq, p.ck = ck ∧ p.cge = y.imm.toNat.testBit 4 ∧ p.w32 = y.imm.toNat.testBit 5 ∧ (y.a ≠ .none → p.ca.toNat = a) ∧ (y.b ≠ .none → p.cval = b) ∧ exec (.phase y) s = .next (putWave v.key { v.w with phase := some p } s))) ∧
        (∀ c, v.w.clause = some c → Issues y.guard [] [] v.key v.w m s → exec (.yield y) s = GoesOn v.key { v.w with clause := some { c with yld := some (match c.yld with | none => y.imm.toNat | some n => Max.max n y.imm.toNat) } } s) ∧
        (∀ d : BitVec 6, y.d = .s d → Acts y.guard [srcYA y] [(y.d, 1)] v m s → v.w.mq = [] → appendOut v.c v.key = false →
          ((a % 128 ≠ 0 ∨ windowOf (ptrAddr a) ≠ .global) → exec (.launch y) s = illegalWord v.w s) ∧
          (a % 128 = 0 → windowOf (ptrAddr a) = .global → Readable v a 128 s →
            let u := readState v a 128 s
            let ws := wordsOf 16 (readBytes v a 128 s)
            ∀ code, code = launchCode u v.c (.wave v.b.gid) ws →
              (code ≠ 0 → exec (.launch y) s = GoesOn v.key (setS v.w d.toNat (BitVec.ofNat 64 code)) u) ∧
              (code = 0 → ∃ t g, exec (.launch y) s = .next t ∧ t.nextGrid = s.nextGrid + 1 ∧
                mget t.grids s.nextGrid = some g ∧ g.asid = v.g.asid ∧ g.d = launchDesc ws ∧ g.launcher = none ∧
                ((s.pf.go = false ∨ s.pf.op ≠ 3 ∨ s.pf.asid ≠ v.g.asid) → g.done = false ∧ ∃ w', mget t.waves v.key = some w' ∧ sReg w' d.toNat = 0) ∧
                (s.pf.go = true → s.pf.op = 3 → s.pf.asid = v.g.asid → ∀ n < gridBlocks g.d,
                  (mget g.status n).isSome = true ∨ ∃ b, mget t.blocks (blockKey s.nextGrid n) = some b ∧ b.endAs ≠ none))))) ∧
      (∀ (s : State) (c : Ctx) (by_ : Launcher) (ws : List Word64),
        let x := fun (i : Nat) => ((ws[i]?).getD 0).toNat
        let kind := x 0 / 2 ^ 60 % 16
        let rmode := x 0 / 2 ^ 54 % 4
        let g := x 1 / 2 ^ 42 % 8 + 1
        let au := x 1 / 2 ^ 25 % 512
        let nw := x 1 % 32 + 1
        let a := 16 * (x 1 / 2 ^ 5 % 16 + 1)
        let pgf := x 4 / 2 ^ 30 % 4
        let width := fun (i : Nat) => x 4 / 2 ^ (6 * (i - 1)) % 64
        let stksz := x 13 % 2 ^ 32
        let mayRecord := rmode = 0 ∨ (match by_ with
          | .wave gid => ∃ l, c.log = some l ∧ gid ∈ l.grids ∧ (l.replay = true ↔ rmode = 2)
          | .host _ _ => ∃ l, c.log = some l ∧ l.grids = [] ∧ logType s l 0 = if rmode = 1 then 0 else 1)
        let k1 := kind ≤ 1 ∧ rmode ≠ 3 ∧ x 0 % 2 ^ 54 = 0 ∧ x 1 / 2 ^ 45 % 2 ^ 19 = 0 ∧ x 4 / 2 ^ 32 % 2 ^ 32 = 0 ∧ x 13 / 2 ^ 32 % 2 ^ 32 = 0 ∧ x 14 = 0 ∧ x 15 = 0 ∧ mayRecord
        let k2 := nw * a ≤ 4096 ∧ x 1 / 2 ^ 16 % 512 ≤ a ∧ x 1 / 2 ^ 9 % 128 ≤ 64 ∧ au ≤ 256
        let k3 := 1 ≤ x 5 ∧ 1 ≤ x 6 ∧ 1 ≤ x 7 ∧ 5 + width 1 + width 2 + width 3 + width 4 + width 5 ≤ 64 ∧ nw ≤ 2 ^ width 1 ∧ g ≤ 2 ^ width 2 ∧
          x 5 ≤ 2 ^ width 3 ∧ x 6 ≤ 2 ^ width 4 ∧ x 7 ≤ 2 ^ width 5
        let k4 := if kind = 1 then pgf ≠ 0 ∧ g = 1 ∧ nw ≤ 16 ∧ x 1 / 2 ^ 34 % 256 + 4 ≤ au ∧ x 8 ≠ 0 ∧ (pgf ≠ 1 → x 5 = 1) ∧ (pgf ≠ 2 → x 6 = 1) ∧ (pgf ≠ 3 → x 7 = 1)
          else pgf = 0 ∧ x 8 = 0
        let k5 := x 2 % 8 = 0 ∧ x 8 % 8 = 0 ∧ x 9 % 8 = 0 ∧ x 10 % 4 = 0 ∧ x 12 % 8 = 0 ∧ x 11 % 128 = 0
        let k6 := g * x 5 * x 6 * x 7 ≤ 2 ^ 28
        let k7 := stksz % 16 = 0 ∧ stksz ≤ 65536 ∧ stksz * 32 * nw ≤ c.ent.stks * 65536
        let code := launchCode s c by_ ws
        (¬ k1 → code = 1) ∧ (k1 → (¬ k2 → code = 2) ∧ (k2 → (¬ k3 → code = 3) ∧ (k3 → (¬ k4 → code = 4) ∧ (k4 → (¬ k5 → code = 5) ∧
          (k5 → (¬ k6 → code = 6) ∧ (k6 → (¬ k7 → code = 7) ∧ (k7 → code = 0)))))))) ∧
      (∀ (asid q : Nat) (item : Word64) (sender : Sender) (c : Ctx) (s : State), mget s.ctxs asid = some c →
        let x := queueAt c q
        let t := pushItem asid q item sender s
        ∃ c', mget t.ctxs asid = some c' ∧ c'.sync = c.sync ∧ (∀ k, k ≠ q → queueAt c' k = queueAt c k) ∧ t.mem = s.mem ∧
          (∀ k d rest, x.waiters = (k, d) :: rest → queueAt c' q = { x with waiters := rest } ∧
            ∀ w, mget s.waves k = some w → (∀ n, sender ≠ .wave k n) → mget t.waves k = some (advance { setS w d item with sE := sdel w.sE d, parked := none })) ∧
          (x.waiters = [] → x.items.length < capOf x → queueAt c' q = { x with items := x.items ++ [item] } ∧
            ∀ k n w, sender = .wave k n → mget s.waves k = some w → mget t.waves k = some (ackSt n w)) ∧
          (x.waiters = [] → capOf x ≤ x.items.length → (∀ k n b, sender = .wave k n → mget s.blocks (k / 32) = some b → b.endAs ≠ some .faulted ∧ b.endAs ≠ some .gridFault) →
            queueAt c' q = { x with held := x.held ++ [(sender, item)] }) ∧
          (x.waiters = [] → capOf x ≤ x.items.length → ∀ k n b w, sender = .wave k n → mget s.blocks (k / 32) = some b → b.endAs = some .faulted ∨ b.endAs = some .gridFault →
            queueAt c' q = x ∧ (mget s.waves k = some w → mget t.waves k = some (ackSt n w))))

/-- Each event, where it is due, answers a next state with its own effect. CLAUSE_START starts the chosen wave, of the eligible ones on its core the one that R68 puts first, at the words its clause holds, all of which decode and whose thresholds its counters meet, and changes no register; a clause that is illegal, cannot be fetched or arrives uncorrectable faults and starts nothing. ELIGIBILITY_AGE_EXPIRY ages a wave that waited 2,048 cycles; YIELD_EXPIRY and POLL_ATTEMPT end a wait, an attempt as R71 says, made only while no save of the group is due; a released Quern operation, no append of the wave being on its way, and a logged store are performed and leave their queue; an unanswered load of TIER 4 pages returns all ones in the bytes it asked for and counts each of its requests (log 53); APPEND_ARRIVAL gives the entry the current step; STEP_FILING advances the counter by one and completes its KSTEP; where a replay has another operation on the counter come first, either is held and nothing changes. A Quern operation of a grid that is neither recorded nor replayed goes on as it is; of a recorded one it leaves the QUERN record; of a replayed one it consumes its record where that is the next of its address, is held where another comes first, and goes on where none is left or the constraint is lifted. Model choices: keeping the first POLL that escalates is log 18, filing with the descriptor of the KSTEP, and taking the step on arrival, log 26, filing a whole step at once log 44, and that operations made for a wave have no ordinal of their own log 58. -/
def Obligations.CoreEvents : Prop :=
  (∀ (core : Nat) (s : State),
        (∀ v, chosen s core = some v → viewOf s v.key = some v ∧ v.b.core = some core ∧ eligible s v = true ∧
          ∀ key u, viewOf s key = some u → u.b.core = some core → eligible s u = true →
            let aged := fun (x : View) => x.w.aged = true ∨ 2048 ≤ x.w.age
            (aged u → aged v ∧ u.w.age ≤ v.w.age) ∧
            (¬ aged v → v.g.d.prio ≤ u.g.d.prio ∧ (v.g.d.prio = u.g.d.prio → v.w.backoff ≤ u.w.backoff ∧
              (v.w.backoff = u.w.backoff → (v.w.behind = true → u.w.behind = true) ∧ (v.w.behind = u.w.behind → u.w.age ≤ v.w.age))))) ∧
        (chosen s core = none → (∀ key u, viewOf s key = some u → u.b.core = some core → eligible s u = false) ∧ exec (.clauseStart ⟨core, false⟩) s = .next s)) ∧
      (∀ (core : Nat) (v : View) (s : State), chosen s core = some v →
        (∀ h words, fetchClause s v = .ok h words →
          ∃ t, exec (.clauseStart ⟨core, false⟩) s = .next t ∧
            mget t.waves v.key = some { v.w with clause := some { words := words, idx := 0, y := h.y, rpt := none, yld := none }, age := 0, aged := false, behind := false, held := false } ∧
            (∀ k, k ≠ v.key → mget t.waves k = mget s.waves k) ∧ t.blocks = s.blocks ∧ t.ctxs = s.ctxs ∧ t.tags = s.tags ∧
            words.length = h.nw + 1 ∧ checkClause h v.w.allot words = none ∧
            (h.thc = 15 ∨ v.w.oc.cpy ≤ h.thc) ∧ (h.thm = 15 ∨ v.w.oc.mtx ≤ h.thm) ∧ (h.thg = 15 ∨ v.w.oc.gat ≤ h.thg) ∧ (h.ths = 15 ∨ v.w.oc.st ≤ h.ths)) ∧
        (∀ ix opc, fetchClause s v = .illegal ix opc →
          exec (.clauseStart ⟨core, false⟩) s = .next (faultAt v.key { pc := v.w.pc, ix := ix, iter := 0, opc := opc } { cause := 8 } (noteFetch v s))) ∧
        (let here : WordInfo := { pc := v.w.pc, ix := 0x1F, iter := 0, opc := 0 }
         (∀ cause det, fetchClause s v = .fail cause det →
           exec (.clauseStart ⟨core, false⟩) s = .next (faultAt v.key here { cause := cause, det := det, addr := v.w.pc.toNat } (noteFetch v s))) ∧
         (∀ h words, fetchClause s v = .ok h words →
           exec (.clauseStart ⟨core, true⟩) s = .next (faultAt v.key here { cause := 10, addr := v.w.pc.toNat } (noteFetch v s)))) ∧
        v.w.ended = false ∧ v.w.clause = none ∧ v.b.life = .running ∧ v.b.core = some core) ∧
      (∀ (wave : Nat) (v : View) (s : State), viewOf s wave = some v →
        (eligible s v = true → 2048 ≤ v.w.age → exec (.eligibilityAgeExpiry wave) s = .next (putWave wave { v.w with aged := true } s)) ∧
        (v.w.yieldLeft = some 0 → exec (.yieldExpiry wave) s = .next (putWave wave { v.w with yieldLeft := none } s)) ∧
        (∀ p, v.w.poll = some p → p.left = 0 → v.b.life = .running → holdsQuantum s v.g.asid = true → v.w.stop = false → escalating s v.w.blk = false →
          recording v.c v.b.gid = false → replaying v.c v.b.gid = false →
          let x := readVar v.c p.var p.w32
          let holds := if p.cge then p.value.toNat ≤ x.toNat else x = p.value
          let w := { v.w with qops := v.w.qops + 1 }
          let level := Min.min 15 (v.w.backoff + 1)
          let failed := putWave wave { w with backoff := level, poll := some { p with fails := p.fails + 1, left := 2 ^ (level + 4) } } s
          (holds → exec (.pollAttempt wave) s = .next (putWave wave (advance (putS p.dest x { w with poll := none, backoff := 0 })) s)) ∧
          (¬ holds → p.fails < 15 → exec (.pollAttempt wave) s = .next failed) ∧
          (¬ holds → 15 ≤ p.fails → exec (.pollAttempt wave) s = .next { failed with blocks := mput s.blocks v.w.blk { v.b with escal := some (v.b.escal.getD v.w.idx) } })) ∧
        (∀ e rest, v.w.mq = e :: rest → v.b.life = .running →
          (recording v.c v.b.gid = false → replaying v.c v.b.gid = false → e.logged = false → appendOut v.c wave = false →
            let s1 := putWave wave { v.w with qops := v.w.qops + 1 } s
            (∀ q item, e.op = .push q item → exec (.releasedQuernOperation wave) s = .next (modWave wave (dropOp 0) (pushItem v.g.asid q item (.wave wave e.no) s1))) ∧
            (∀ c, e.op = .dcdec c → exec (.releasedQuernOperation wave) s = .next (modWave wave (fun w => ackSt e.no (dropOp 0 w)) (counterDec v.g.asid c s1))) ∧
            (∀ c x, e.op = .dcset c x → exec (.releasedQuernOperation wave) s = .next (modWave wave (fun w => ackSt e.no (dropOp 0 w)) (plainWrite v.g.asid c x s1)))) ∧
          (∀ ps, e.op = .store ps → e.logged = true →
            ((∀ q ∈ ps, checkAccess s v .store (some q.tag) q.addr q.data.length = .ok) →
              exec (.sideLogReplay ⟨wave, false⟩) s = .next (modWave wave (fun w => ackSt e.no (dropOp 0 w)) (putPieces v ps s))) ∧
            ((∀ q ∈ ps, checkAccess s v .store (some q.tag) q.addr q.data.length = .pending) → ps ≠ [] → ∃ t w', exec (.sideLogReplay ⟨wave, false⟩) s = .next t ∧ mget t.waves wave = some w' ∧ w' = { v.w with mq := w'.mq } ∧
              w'.mq.map MqEntry.op = v.w.mq.map MqEntry.op ∧ t = { s with waves := t.waves }))) ∧
        (∀ i r, v.w.returns[i]? = some r → r.bad = none → r.far ≠ [] → (∀ p ∈ r.far, p.tier = 4) → ∃ (t : State) (r' : Return) (f : Nat × Nat → Nat),
          exec (.mmioTimeout wave i) s = .next t ∧ t.pf = { s.pf with cnt3110 := s.pf.cnt3110 + BitVec.ofNat 32 r.far.length } ∧ r' = { r with lanes := r'.lanes, far := [] } ∧
          r'.lanes = r.lanes.map (fun l => (l.1, f l)) ∧
          (∀ l ∈ r.lanes, ∀ j, f l / 2 ^ (8 * j) % 256 =
            if r.far.any (fun p => (p.shared || p.lane == l.1) && decide (p.off ≤ j) && decide (j < p.off + p.len)) then 255 else l.2 / 2 ^ (8 * j) % 256) ∧
          mget t.waves wave = some (deliverReturn r' { v.w with returns := delAt v.w.returns i }) ∧ t.mem = s.mem)) ∧
      (∀ (asid gid num wave ordinal addr : Nat) (global own : Bool) (c : Ctx) (s : State), mget s.ctxs asid = some c →
        let does := quernOp asid gid num wave ordinal addr global s own
        (recording c gid = false → replaying c gid = false → does = some s) ∧
        (∀ l, c.log = some l → recording c gid = true → l.written + 1 < logCap l → num < 2 ^ 60 → wave < 2 ^ 63 → ∃ t, does = some t ∧
          t.waves = s.waves ∧ t.blocks = s.blocks ∧ t.grids = s.grids ∧ logWord t l l.written 0 = 4 * 2 ^ 60 + num ∧ logWord t l l.written 1 = addr % 2 ^ 64 ∧
          logWord t l l.written 2 = (if global then 2 ^ 63 else 0) + wave ∧ logWord t l l.written 3 = ordinal % 2 ^ 64) ∧
        (∀ l, c.log = some l → replaying c gid = true →
          let next := nextRecord s l (fun i => logType s l i == 4 && logWord s l i 1 == addr && (decide (2 ^ 63 ≤ logWord s l i 2) == global))
          ((addr, global) ∈ l.lifted ∨ next = none → does = some s) ∧
          ∀ i, (addr, global) ∉ l.lifted → next = some i →
            let its := logWord s l i 0 % 2 ^ 60 = num ∧ logWord s l i 2 % 32 = wave ∧ (own = true → logWord s l i 3 = ordinal)
            (its → ∃ t c' l', does = some t ∧ mget t.ctxs asid = some c' ∧ c'.log = some l' ∧ l'.used = i :: l.used ∧ t.mem = s.mem ∧ t.waves = s.waves) ∧
            (¬ its → does = none))) ∧
      (∀ (key addr : Nat) (v : View) (s : State), viewOf s key = some v →
        servedOp key addr s = quernOp v.g.asid v.b.gid v.b.num v.w.idx v.w.qops addr false s false) ∧
      (∀ (asid step core : Nat) (c : Ctx) (r : Region) (e : JEntry) (s : State), mget s.ctxs asid = some c → mget c.regions step = some r → r.ksteps = [] →
        nextArrival s r step core = some e → e.written = true →
        (servedOp e.wave step s = none → exec (.appendArrival asid step core) s = .next s) ∧
        ∀ x, servedOp e.wave step s = some x → ∃ t, exec (.appendArrival asid step core) s = .next t ∧
          kvRegion t asid step = { r with entries := r.entries.map (fun x => if x.id = e.id then { x with step := some (syncWord c step), seq := r.nextSeq } else x), nextSeq := r.nextSeq + 1 } ∧
          (∀ w, mget s.waves e.wave = some w → mget t.waves e.wave = some (ackSt e.no w)) ∧ t.blocks = s.blocks) ∧
      (∀ (asid step key : Nat) (ws : List Word64) (rest : List (Nat × List Word64)) (c : Ctx) (r : Region) (xs : List Filed) (s t u : State),
        mget s.ctxs asid = some c → mget c.regions step = some r → r.ksteps = (key, ws) :: rest → r.readers = 0 → step % 8 = 0 →
        let now := syncWord c step
        readJournal asid key (r.entries.filter (fun e => e.step == some now)) [] s = some (xs, t) → fileAll asid key (kvDesc ws) xs t = some u → now.toNat + 1 < 2 ^ 64 →
        (∃ cu, mget u.ctxs asid = some cu ∧ mget cu.regions step = some r) →
        (servedOp key step u = none → exec (.stepFiling asid ⟨step, false⟩) s = .next s) ∧
        ∀ x, servedOp key step u = some x → ∃ z cz, exec (.stepFiling asid ⟨step, false⟩) s = .next z ∧ mget z.ctxs asid = some cz ∧ syncWord cz step = now + 1 ∧
          mget cz.regions step = some { r with entries := r.entries.filter (fun e => e.step != some now), ksteps := rest } ∧
          ∀ w k d, mget u.waves key = some w → w.arv = true → w.ended = false → fetchInstr w = .ok (.kstep k) → k.d = .s d →
            mget z.waves key = some (advance (setS { w with arv := false } d.toNat (now + 1))))

/-- Each event, where it is due, answers a next state with its own effect: a drained block gets its status word once and gives up what it holds, unless a replay has another operation come first at that word; a granted block runs on its core with its waves as they first issue; a request ages after 1,048,576 cycles; where the head of a die's queue has no room on it, or an aged request holds it back, a landed block that is displaced has its page window copied to a free displacement window of the save area, and gets it back when it is placed again; a page-list entry asks for a slot or fails the page; a granted slot empties the window lines and queues the read; accepted codewords land as the bytes of the flash page (at rung 0 an erased page as a whole, where all four read as erased), the next rung follows while some are missing, and after the soft rung the page fails with RL 7; a LUN that timed out twice gives up its target; Tailrace programs a unit into four fresh pages, and a program writes the page with the unit. Model choices: that a failed program leaves the bytes of the page is log 10, the displacement window that a block takes log 20, the order of the PFC codes log 24, that a displaced block gives up its stack slice log 48, that a page list is read in order log 45, and that a status word is recorded as an operation of wave 0 of its block, for which a replay may hold the event as a whole, log 58. -/
def Obligations.BlockEvents : Prop :=
  (∀ (bk : Nat) (b : Block) (g : Grid) (c : Ctx) (s : State), mget s.blocks bk = some b → bk = blockKey b.gid b.num → mget s.grids b.gid = some g → mget s.ctxs g.asid = some c →
        b.life ≠ .done → wavesOf s bk ≠ [] → drained s bk = true → hasStatus g b.num = false → (statusEarly s b.gid b.num = true → exec (.blockComplete bk) s = .next s) ∧ (statusEarly s b.gid b.num = false → ∃ t g',
          exec (.blockComplete bk) s = .next t ∧ mget t.grids b.gid = some g' ∧
          mgetD g'.status b.num 0 = BitVec.ofNat 32 ((match b.endAs with | some .faulted => 2 | some .gridFault => 2 | _ => 1) * 2 ^ 30 +
            (if b.endAs = some .gridFault then 2 ^ 27 else 0) + (if b.sd then 2 ^ 26 else 0) + b.rl * 2 ^ 23) ∧
          (g.d.gdone = 0 → wavesOf t bk = [] ∧ ∃ b', mget t.blocks bk = some b' ∧ b'.life = .done ∧ b'.core = none ∧ b'.a = [] ∧ b'.res = [] ∧ b'.tiles = [] ∧ b'.slice = none))) ∧
      (∀ (key core bk : Nat) (r : Request) (g : Grid) (c : Ctx) (s : State), grantAt s key core = some (r, [(bk, core)]) → requestGrid s r = some (g, c) → g.d.nw ≤ 32 →
        ((r.kind = .start [bk] ∨ r.kind = .back bk) → ∃ t b', exec (.blockPlace key core) s = .next t ∧ mget t.placeQ key = none ∧
          mget t.blocks bk = some b' ∧ b'.life = .running ∧ b'.core = some core ∧ (sliceLen g.d ≠ 0 → b'.slice ≠ none) ∧
          (∀ b, mget s.blocks bk = some b → (r.kind = .start [bk] → b'.a = b.a) ∧
            (r.kind = .back bk → ∀ pa, b.dsp = some pa → b'.dsp = none ∧ ∀ j < 16384, mgetD b'.a (g.d.pwoff * 4096 + j) blankByte = physByte t (pa + j))) ∧ mget t.cores core = some { ctx := some g.asid, dirty := true } ∧
          ∀ i < g.d.nw, ∃ w, mget t.waves (waveKey bk i) = some w ∧ w = firstWave g.d bk (bk % 2 ^ 28) i ∧
            w.pc = g.d.entry ∧ sReg w 0 = g.d.args ∧ sReg w 1 = BitVec.ofNat 64 (bk % 2 ^ 28) ∧ (∀ n, 2 ≤ n → sReg w n = 0) ∧ w.v = [] ∧ w.sE = [] ∧ w.vE = []) ∧
        (r.kind = .slot bk → s.deadTargets.contains (targetOf (slotPage s r)) = false → ∃ t b', exec (.landingSlotGrant key core) s = .next t ∧ mget t.placeQ key = none ∧
          mget t.blocks bk = some b' ∧ b'.life = .reserved ∧ b'.core = some core ∧ (∀ i < 128, g.d.pwoff * 32 + i ∈ b'.aE) ∧
          (lunAt t (lunOf (slotPage s r))).ops = (lunAt s (lunOf (slotPage s r))).ops ++ [.read bk])) ∧
      (∀ (key : Nat) (r : Request) (s : State), mget s.placeQ key = some r → r.entered + 1048576 ≤ s.time.cycle →
        exec (.placementAgeExpiry key) s = .next { s with placeQ := mput s.placeQ key { r with aged := true } }) ∧
      (∀ (die bk : Nat) (e : Nat × Request) (b : Block) (s : State), headOf s die = some e → ((∀ c ∈ coresOf die, placing s e.2 c = none) ∨ heldByAge s e.1 die = true) → displaceable s die = some (bk, b) →
        mget s.blocks bk = some b → ∃ t g c pa i, exec (.displace die) s = .next t ∧ mget s.grids b.gid = some g ∧ mget s.ctxs g.asid = some c ∧
          b.life = .landed ∧ g.runnable.contains b.num = false ∧ i < c.ent.dspn ∧ pa = c.ent.save + 3 * 2 ^ 20 * partCores (partAt s c.ent.part) + 16384 * i ∧
          (∀ k x, mget s.blocks k = some x → x.dsp ≠ some pa) ∧
          mget t.blocks bk = some { b with life := .displaced, core := none, slice := none, a := [], dsp := some pa } ∧
          (∀ k, k ≠ bk → mget t.blocks k = mget s.blocks k) ∧
          (∀ j < 16384, physByte t (pa + j) = mgetD b.a (g.d.pwoff * 4096 + j) blankByte) ∧ ∀ a, ¬ (pa ≤ a ∧ a < pa + 16384) → physByte t a = physByte s a) ∧
      (∀ (gid i : Nat) (g : Grid) (c : Ctx) (bs : List Byte) (s t : State), mget s.grids gid = some g → mget s.ctxs g.asid = some c → g.d.kind = 1 →
        i = g.listed.length → i < gridBlocks g.d → hasStatus g i = false →
        lovageRead g.asid (ptrPlus g.d.plist (8 * i)) 8 { s with grids := mput s.grids gid { g with listed := sadd g.listed i } } = .ok bs t →
        let x := bytesToNat bs
        (entryFails t c x = none → ∃ u, exec (.pageListEntryRead gid i) s = .next u ∧ (blockOr u gid i).fa = BitVec.ofNat 64 x ∧
          ∃ r, mget u.placeQ t.nextReq = some r ∧ r.kind = .slot (blockKey gid i) ∧ r.gid = gid ∧ r.prio = g.d.prio) ∧
        (∀ pfc, entryFails t c x = some pfc → exec (.pageListEntryRead gid i) s =
          .next (if statusEarly s gid i then s else setStatus gid i (BitVec.ofNat 32 (3 * 2 ^ 30 + pfc * 2 ^ 28)) t))) ∧
      (∀ (lun bk : Nat) (rest : List LunOp) (b : Block) (g : Grid) (acc : BitVec 4) (s : State), (lunAt s lun).ops = .read bk :: rest → mget s.blocks bk = some b →
        mget s.grids b.gid = some g → landingHeld s g.asid b.gid b.num = false →
        let l := lunAt s lun
        let good : BitVec 4 := if l.rung = 0 ∧ erasedPage s b.fa.toNat then (if acc = 0xF then 0xF else 0) else acc
        let all := l.accepted ||| good
        let landing := (List.range 4).filter (fun i => good.getLsbD i && !l.accepted.getLsbD i)
        let landed := landCodewords bk b.fa.toNat g.d landing s
        (all ≠ 0xF → l.rung < 8 → exec (.flashSenseComplete lun acc) s = .next { landed with luns := mput landed.luns lun { l with accepted := all, rung := l.rung + 1, retry := Min.min (l.rung + 1) 7, since := s.time.ticks.toNat } }) ∧
        (all ≠ 0xF → 8 ≤ l.rung → exec (.flashSenseComplete lun acc) s =
          .next (if statusEarly s b.gid b.num then s else setStatus b.gid b.num (BitVec.ofNat 32 (3 * 2 ^ 30 + 2 ^ 26 + 7 * 2 ^ 23)) (lunPop lun landed))) ∧
        (all = 0xF → ∃ t b', exec (.flashSenseComplete lun acc) s = .next t ∧ mget t.blocks bk = some b' ∧ b'.sd = decide (8 ≤ l.rung) ∧ b'.rl = Min.min l.rung 7 ∧
          (lunAt t lun).ops = rest ∧ b'.life = (if g.runnable.contains b.num then .running else .landed) ∧
          ∀ i < 4, ∀ j < 4096, mgetD b'.a (g.d.pwoff * 4096 + 4096 * i + j) blankByte = nandByte s b.fa.toNat (4096 * i + j))) ∧
      (∀ (lun bk : Nat) (rest : List LunOp) (s : State), (lunAt s lun).ops = .read bk :: rest → (lunAt s lun).since + 20000000 ≤ s.time.ticks.toNat → (lunAt s lun).accepted ≠ 0xF →
        ((lunAt s lun).timedOut = false → exec (.lunTimeout lun) s = .next { s with luns := mput s.luns lun { lunAt s lun with timedOut := true, since := s.time.ticks.toNat } }) ∧
        ((lunAt s lun).timedOut = true → ∃ t, exec (.lunTimeout lun) s = .next t ∧ t.deadTargets = sadd s.deadTargets (lun % 1024))) ∧
      (∀ (die page : Nat) (queue items : List Nat) (s s1 : State), (tailAt s die).now = none → (tailAt s die).queue = page :: queue →
        let s0 := setTail die { queue := queue, now := none } s
        let r := backingOf s0 page
        backingOk s0 r = true → takeItems r.asid r.freeq 4 [] s0 = (items, s1) → items.length = 4 → (∀ x ∈ items, itemOk s1 r.asid x = true) → (tailAt s1 die).queue = queue →
        ∃ t w, exec (.tailraceWriteback die) s = .next t ∧ tailAt t die = { queue := queue, now := some w } ∧ w.page = page ∧ w.unit = 0 ∧ w.fresh = items ∧ w.left = 4 ∧ w.bad = false ∧
          ∀ x ∈ items, .program die x ∈ (lunAt t (lunOf x)).ops) ∧
      (∀ (die lun x : Nat) (w : Writeback) (ok : Bool) (s : State), programAt s die = some (lun, x) → (tailAt s die).now = some w → 2 ≤ w.left → ∃ t,
        exec (.flashProgramComplete die ok) s = .next t ∧ (tailAt t die).now = some { w with left := w.left - 1, bad := w.bad || !ok } ∧ t.mem = s.mem ∧
        (∀ y j, j < 16384 → nandByte t y j = if ok ∧ y = x then mgetD w.image (w.fresh.findIdx (fun z => z == x) * 16384 + j) blankByte else nandByte s y j))

/-- Each event, where it is due, answers a next state with its own effect. PHASE_SAVE leaves every block of the group without waves and without its core, with a record queued on the condition its waves named and their resume points after PHASE; PHASE_TIME_REACHED marks a record eligible with the tick count and asks for its placement; PHASE_RESUME gives a wave the carry registers that its section holds, 0 elsewhere, its resume point and the delivered value. INVOLUNTARY_SAVE takes a block off its core with everything else it holds and queues it on the variable its POLL named. QUANTUM_END, once no context that leaves the partition has a resident block, takes up a written cluster mask: clusters that leave go at once, a joining one is taken unless another valid partition has it or joins it; the partition moves to the next visited entry for 4,096 cycles a unit. CONTEXT_SAVE, once no page is on its way and every wave has stopped at a clause boundary or at a word that held it, takes the blocks off their cores and changes no register; CONTEXT_RESTORE puts a block with nothing carried on a core again, running, or landed where it was landed, a POLL to be tried again with its count of failed attempts, but for one that has failed 16 times, which waits for its involuntary save; CORE_SCRUB frees an empty core. Model choices: logs 18 (a wave whose resume point stands as it was saved goes on in the clause it had; the POLL that has failed 16 times), 19 (the POLL word as resume point), 20 (landed blocks kept, masks taken up), 41 (a YIELD begins anew), 49 (the length counts from the boundary) and 50 (a visit starts at entry 0). -/
def Obligations.PhaseAndQuantumEvents : Prop :=
  (∀ (block : Nat) (b : Block) (g : Grid) (s t u : State), mget s.blocks block = some b → mget s.grids b.gid = some g →
        let bks := groupPresent g b.gid b.num
        block ∈ bks → (∀ bk ∈ bks, phaseReady s g.d bk = true ∧ ∀ x, mget s.blocks bk = some x → x.gid = b.gid) →
        writeRecords g.asid phaseParts (fun t bk => (afterPhase t bk).head?) bks s = some t →
        t = { s with mem := t.mem, spoilt := t.spoilt, near := t.near, tlb := t.tlb, tail := t.tail, wb := t.wb, out := t.out, pf := t.pf } → countRecords bks t = some u →
        ∃ z, exec (.phaseSave block) s = .next z ∧ ∀ bk ∈ bks, ∀ x, mget s.blocks bk = some x → wavesOf z bk = [] ∧
          mget z.blocks bk = some { freshBlock x.gid x.num with life := .phase, fa := x.fa, sd := x.sd, rl := x.rl } ∧
          ∃ r p, mget z.phaseQ bk = some r ∧ r.inv = false ∧ r.poller = none ∧ r.cond = some p ∧ samePhase p (phaseOf s bk) = true ∧
            (∀ e ∈ presentOf s bk, ∃ w ∈ r.waves, w.idx = e.2.idx ∧ w.pc = (advance e.2).pc ∧ w.clause = (advance e.2).clause) ∧
            (∀ w ∈ r.waves, ∃ e ∈ presentOf s bk, w.idx = e.2.idx ∧ w.pc = (advance e.2).pc ∧ w.clause = (advance e.2).clause)) ∧
      (∀ (block : Nat) (b : Block) (r : PhaseRec) (p : PhaseReq) (s : State), mget s.phaseQ block = some r → mget s.blocks block = some b →
        r.cond = some p → p.ck = 5 → r.rval = none → p.cval.toNat ≤ s.time.ticks.toNat → ∃ t,
          exec (.phaseTimeReached block) s = .next t ∧ mget t.phaseQ block = some { r with rval := some s.time.ticks } ∧ t.blocks = s.blocks ∧ t.waves = s.waves ∧
          ∀ g, mget s.grids b.gid = some g → g.d.gs = 1 → block = blockKey b.gid b.num →
            mget t.placeQ s.nextReq = some { kind := .resume [block], gid := b.gid, prio := g.d.prio, entered := s.time.cycle, aged := false }) ∧
      (∀ (key core : Nat) (r : Request) (l : List (Nat × Nat)) (bks : List Nat) (g : Grid) (c : Ctx) (s : State),
        grantAt s key core = some (r, l) → requestGrid s r = some (g, c) → r.kind = .resume bks →
        (∀ t, resumeAll g.asid g c l s = some t → exec (.phaseResume key core) s = .next { t with placeQ := mdel t.placeQ key }) ∧
        (∀ (bk : Nat) (q : PhaseRec) (pw : PhaseWave) (hd : List Byte) (parts : List (List Byte)) (t1 t2 t3 : State), l = [(bk, core)] →
          mget s.phaseQ bk = some q → q.inv = false → q.waves = [pw] →
          let num := bk % 2 ^ 28
          let rval := q.rval.getD 0
          let x := sliceNat hd 8 8
          let n := Min.min 64 (field x 16 7)
          let m := Min.min g.d.va (field x 23 9)
          let part := fun i => (parts[i]?).getD []
          let i := resumeInfo { freshWave g.d bk num pw.idx pw.pc with clause := pw.clause }
          lovageRead g.asid (recordPtr g.d num) 128 s = .ok hd t1 → bitAt x (32 + pw.idx) = true →
          readAll g.asid (sectionReads g.d false n m (sectionPtr g.d num pw.idx)) t1 = .ok parts t2 →
          lovageWrite g.asid (ptrPlus (recordPtr g.d num) 0x20) (natToBytes 8 rval.toNat) t2 = .ok () t3 →
          i.pc = BitVec.ofNat 64 (sliceNat (part 0) 0 8) → i.ix = field (sliceNat (part 0) 8 8) 0 5 → i.iter = field (sliceNat (part 0) 8 8) 8 6 →
          ∃ t w b', exec (.phaseResume key core) s = .next t ∧ mget t.phaseQ bk = none ∧ mget t.blocks bk = some b' ∧ b'.life = .running ∧ b'.core = some core ∧
            mget t.waves (waveKey bk pw.idx) = some w ∧ w.pc = pw.pc ∧ w.clause = pw.clause ∧ w.phaseVal = rval ∧ w.idx = pw.idx ∧
            (∀ j, sReg w j = if j < n then BitVec.ofNat 64 (sliceNat (part 1) (8 * j) 8) else 0) ∧
            (∀ j, ∀ k < 32, vReg w j k = if j < m then BitVec.ofNat 32 (sliceNat (part 3) (128 * j + 4 * k) 4) else 0))) ∧
      (∀ (block : Nat) (b : Block) (g : Grid) (e : Nat × PhaseReq) (s t u : State), mget s.blocks block = some b → mget s.grids b.gid = some g →
        escalation s block = some e →
        let bks := groupPresent g b.gid b.num
        let lifted := bks.foldl (liftBlock g.asid) s
        block ∈ bks → (∀ bk ∈ bks, quietBlock s bk = true ∧ ∃ x, mget s.blocks bk = some x ∧ x.gid = b.gid ∧ x.life = .running ∧ x.endAs = none) →
        writeRecords g.asid (involuntaryParts e.2) (fun t bk => ((presentOf t bk).map Prod.snd).head?) bks lifted = some t →
        t = { lifted with mem := t.mem, spoilt := t.spoilt, near := t.near, tlb := t.tlb, tail := t.tail, wb := t.wb, out := t.out, pf := t.pf } → countEscalations bks t = some u →
        ∃ z, exec (.involuntarySave block) s = .next z ∧
          (∀ bk ∈ bks, ∀ x, mget s.blocks bk = some x → mget z.blocks bk = some { x with life := .phase, core := none, escal := none } ∧
            ∃ r, mget z.phaseQ bk = some r ∧ r.inv = true ∧
              (∀ e ∈ presentOf s bk, ∃ w ∈ r.waves, w.idx = e.2.idx ∧ w.pc = e.2.pc ∧ w.clause = e.2.clause) ∧
              (∀ w ∈ r.waves, ∃ e ∈ presentOf s bk, w.idx = e.2.idx ∧ w.pc = e.2.pc ∧ w.clause = e.2.clause)) ∧
          ∃ r, mget z.phaseQ block = some r ∧ r.cond = some e.2 ∧ r.poller = some e.1 ∧ e.2.ck = 4) ∧
      (∀ (n : Nat) (p : Part) (s : State), mget s.parts n = some p → p.saving = true → (∃ e ∈ s.ctxs, e.2.ent.part = n ∧ p.keep ≠ some e.1 ∧ residentOf s e.1 ≠ []) →
        exec (.quantumEnd n) s = .next s) ∧
      (∀ (n : Nat) (p : Part) (s : State), mget s.parts n = some p → (p.saving = true → ∀ e ∈ s.ctxs, e.2.ent.part = n → p.keep ≠ some e.1 → residentOf s e.1 = []) → p.ends ≤ s.time.cycle →
        let start := (match p.cur with | some c => c.1 | none => 63)
        let entry := fun j => mgetD p.quanta ((start + 1 + j) % 64) 0
        ∃ t q, exec (.quantumEnd n) s = .next t ∧ t = { s with parts := t.parts } ∧ mget t.parts n = some q ∧ q.v = p.v ∧ q.vf = p.vf ∧
          q.pend = none ∧ (p.v = false → q.mask = p.pend.getD p.mask) ∧
          (p.v = true → let m := p.pend.getD (p.mask ||| p.joining)
            ∀ j, (q.mask.testBit j = true → m.testBit j = true) ∧ (m.testBit j = true → p.mask.testBit j = true → q.mask.testBit j = true) ∧
              (m.testBit j = true → p.mask.testBit j = false →
                ((∀ e ∈ s.parts, e.1 ≠ n → e.2.v = true → e.2.mask.testBit j = false ∧ e.2.joining.testBit j = false) → q.mask.testBit j = true) ∧
                ((∃ e ∈ s.parts, e.1 ≠ n ∧ e.2.v = true ∧ e.2.mask.testBit j = true) → q.mask.testBit j = false))) ∧
          (∀ j < 64, p.v = true → quantumValid (entry j) = true → (∀ i < j, quantumValid (entry i) = false) →
            q.cur = some ((start + 1 + j) % 64, quantumAsid (entry j)) ∧ q.ends = s.time.cycle + quantumLen (entry j) * 4096) ∧
          ((p.v = false ∨ ∀ j < 64, quantumValid (entry j) = false) → q.cur = none)) ∧
      (∀ (asid : Nat) (c : Ctx) (s : State), mget s.ctxs asid = some c → (partAt s c.ent.part).saving = true → (partAt s c.ent.part).keep ≠ some asid → residentOf s asid ≠ [] → quietContext s asid = true →
        ∃ t c', exec (.contextSave asid) s = .next t ∧ t.mem = s.mem ∧ t.tags = s.tags ∧ mget t.ctxs asid = some c' ∧
          (∀ bk b, (bk, b) ∈ residentOf s asid → mget s.blocks bk = some b →
            c'.saved = true ∧ (b.life = .running → mget t.blocks bk = some { b with life := .saved, core := none }) ∧
            (b.life = .landed → mget t.blocks bk = some { b with life := .savedLanded, core := none }) ∧
            b.life ≠ .reserved ∧
            ∀ e ∈ wavesOf s bk, ∀ v, viewOf s e.1 = some v → v.w.returns = [] ∧
              (v.w.ended = true ∨ v.w.clause = none ∨ v.w.held = true ∨ v.w.poll ≠ none ∨ v.w.parked ≠ none ∨ v.w.phase ≠ none)) ∧
          ∀ k w, mget s.waves k = some w → ∃ w', mget t.waves k = some w' ∧ w'.s = w.s ∧ w'.k = w.k ∧ w'.v = w.v ∧ w'.pc = w.pc ∧ w'.clause = w.clause) ∧
      (∀ (core : Nat) (k : Core) (s : State), mget s.cores core = some k → k.dirty = true → (∀ e ∈ s.blocks, e.2.core ≠ some core) →
        exec (.coreScrub core) s = .next { s with cores := mput s.cores core { ctx := none, dirty := false } }) ∧
      (∀ (asid core : Nat) (l : List (Nat × Nat)) (s : State), (savedGroups s asid).findSome? (restorePlaces s asid core) = some l →
        l.Pairwise (fun p q => p.1 ≠ q.1) →
        (∀ p ∈ l, ∀ k w, blockOfWave k = p.1 → mget s.waves k = some w → w.mq = []) → ∃ t, exec (.contextRestore asid core) s = .next t ∧ t.mem = s.mem ∧ ∀ p ∈ l,
          mget t.cores p.2 = some { ctx := some asid, dirty := true } ∧
          ∀ b g, mget s.blocks p.1 = some b → mget s.grids b.gid = some g →
            (b.life = .saved → mget t.blocks p.1 = some { b with life := .running, core := some p.2 } ∧
              ∀ k w, blockOfWave k = p.1 → mget s.waves k = some w → mget t.waves k = some { w with held := false, again := (match w.poll with | some q => q.fails | none => w.again), poll := (match w.poll with | some q => if q.fails < 16 then none else some q | none => none), phase := none, yieldLeft := w.yieldLeft.map (fun _ => w.yieldLen) }) ∧
            (b.life = .savedLanded → mget t.blocks p.1 = some { b with life := if g.runnable.contains b.num then .running else .landed, core := some p.2 }))

/-- A command written while GO reads 1 is discarded; otherwise it takes CMDA and CMDL as they stand, whether it is given as an input of its own or as a write of register 0x018. LOAD adopts an entry that meets R272 with a sync space of zeros, or leaves STAT 2 for a live context and 1 for a bad entry; INVAL runs until INVAL_COMPLETE, which waits for the accesses in flight that used an entry of the range and removes exactly the cached leaf and next-table entries that the walks of its range use; TEARDOWN ends every grid of the context, and when nothing is outstanding every block has a status and no cached leaf, core or record of the context is left; GRANT binds and unbinds; ERASE queues on the LUN, and its success makes exactly the pages of the erase block read 0xFF; RING starts a ring and refuses a descriptor that breaks R321; RECLOG binds an area to the ASID, unbinds it, and is refused while a recording or replaying grid of it is open, whether a LOAD has adopted a context or not; an unassigned command leaves STAT 0xFF and nothing else. LOAD, GRANT and RING are refused once firmware has halted. That a ring which runs is refused is the choice of the model (log 29); STAT 2 before STAT 1, the limit of RECLOG at 0x80_0000_0000, an area bound before LOAD and kept by TEARDOWN, and the removal of cached next-table entries are its readings (log 21). -/
def Obligations.CommandEvents : Prop :=
  ∀ (asid0 : Nat) (s : State),
      let asid := asid0 % 4096
      let begun := fun (op : Nat) => { s with pf := { s.pf with go := true, op := op, asid := asid, runA := s.pf.cmda, runL := s.pf.cmdl } }
      let ended := fun (stat : Nat) (t : State) => { t with pf := { t.pf with go := false, stat := stat } }
      (s.pf.go = true → ∀ op, exec (.load asid0) s = .next s ∧ exec (.inval asid0) s = .next s ∧ exec (.teardown asid0) s = .next s ∧ exec (.grant asid0) s = .next s ∧
        exec (.erase asid0) s = .next s ∧ exec (.ring asid0) s = .next s ∧ exec (.reclog asid0) s = .next s ∧ exec (.pfUnassigned op asid0) s = .next s) ∧
      (s.pf.go = false →
        (s.fw.halted = true → exec (.load asid0) s = .next (ended 1 (begun 1)) ∧ exec (.grant asid0) s = .next (ended 1 (begun 4)) ∧ exec (.ring asid0) s = .next (ended 1 (begun 6))) ∧
        (s.fw.halted = false →
          let live := (∃ e ∈ s.grids, e.2.asid = asid ∧ e.2.done = false) ∨ ∃ c, mget s.ctxs asid = some c ∧ c.saved = true
          (live → exec (.load asid0) s = .next (ended 2 (begun 1))) ∧
          (¬ live → ctxEntryOk s asid = false → exec (.load asid0) s = .next (ended 1 (begun 1))) ∧
          (¬ live → ctxEntryOk s asid = true → ∃ t c, exec (.load asid0) s = .next t ∧ t.pf.go = false ∧ t.pf.stat = 0 ∧ mget t.ctxs asid = some c ∧
            c.ent = ctxEntry s asid ∧ c.ent.syncsz = (mgetD s.ctxTab (s.pf.ctxb / 8 + 8 * asid + 2) 0).toNat % 2 ^ 17 ∧ (∀ a, syncWord c a = 0) ∧ c.queues = [] ∧ c.saved = false ∧ c.log = logOf s asid ∧ (∀ k, k ≠ asid → mget t.ctxs k = mget s.ctxs k) ∧ t.mem = s.mem) ∧
          let r := s.pf.cmda % 2 ^ 16
          (∀ a, mget s.grants r = some a → a ≠ asid → exec (.grant asid0) s = .next (ended 1 (begun 4))) ∧
          ((∀ a, mget s.grants r = some a → a = asid) →
            (bitAt s.pf.cmda 16 = false → exec (.grant asid0) s = .next (ended 0 { begun 4 with grants := mdel s.grants r })) ∧
            (bitAt s.pf.cmda 16 = true → mget s.grants r = none → 256 ≤ s.grants.length → exec (.grant asid0) s = .next (ended 1 (begun 4))) ∧
            (bitAt s.pf.cmda 16 = true → (mget s.grants r ≠ none ∨ s.grants.length < 256) → exec (.grant asid0) s = .next (ended 0 { begun 4 with grants := mput s.grants r asid }))) ∧
          (mget s.ctxs asid = none → exec (.ring asid0) s = .next (ended 1 (begun 6))) ∧
          (∀ c, mget s.ctxs asid = some c →
            ((s.pf.cmda % 64 ≠ 0 ∨ onTier1 (begun 6) asid c (ptrAddr s.pf.cmda) 64 = false) → exec (.ring asid0) s = .next (ended 1 (begun 6))) ∧
            (∀ bs t, s.pf.cmda % 64 = 0 → onTier1 (begun 6) asid c (ptrAddr s.pf.cmda) 64 = true → lovageRead asid s.pf.cmda 64 (begun 6) = .ok bs t →
              let d := ringDesc (wordsOf 8 bs)
              ((ringOk t asid c d = false ∨ ringState t asid d.ctl = 1) → exec (.ring asid0) s = .next (ended 1 t)) ∧
              (ringOk t asid c d = true → ringState t asid d.ctl ≠ 1 → ∃ z cz q, exec (.ring asid0) s = .next z ∧ z.pf.go = false ∧ z.pf.stat = 0 ∧
                ringState z asid d.ctl = 1 ∧ mget z.ctxs asid = some cz ∧ mget cz.rings d.ctl = some q ∧ q.pos = d.pos ∧ q.nm = d.nm ∧ q.tmo = d.tmo ∧
                q.next = d.next ∧ q.prev = d.prev ∧ q.rbb = d.rbb ∧ q.rsz = d.rsz ∧ q.sent = (if ringState t asid d.ctl = 2 then ringArev t asid d.ctl else 0) ∧ q.fresh = decide (ringState t asid d.ctl ≠ 2))))) ∧
        exec (.inval asid0) s = .next (begun 2) ∧
        (∃ t, exec (.teardown asid0) s = .next t ∧ t.pf = (begun 3).pf ∧ (∀ c, mget t.ctxs asid = some c → c.regions = [] ∧ ∀ e ∈ c.queues, e.2.held = []) ∧
          ∀ gid g, mget s.grids gid = some g → g.asid = asid → g.done = false → ∀ n < gridBlocks g.d,
            (∃ g', mget t.grids gid = some g' ∧ (mget g'.status n).isSome = true) ∨ ∃ b, mget t.blocks (blockKey gid n) = some b ∧ b.endAs ≠ none) ∧
        (mget s.ctxs asid = none → exec (.erase asid0) s = .next (ended 1 (begun 5))) ∧
        (∀ c, mget s.ctxs asid = some c →
          (grantsLun s c.ent (lunOf s.pf.cmda) true = false → exec (.erase asid0) s = .next (ended 1 (begun 5))) ∧
          (grantsLun s c.ent (lunOf s.pf.cmda) true = true → ∃ t, exec (.erase asid0) s = .next t ∧ t.pf = (begun 5).pf ∧ t.nand = s.nand ∧
            (lunAt t (lunOf s.pf.cmda)).ops = (lunAt s (lunOf s.pf.cmda)).ops ++ [.erase s.pf.cmda])) ∧
        (∀ l, logOf s asid = some l → l.grids ≠ [] → exec (.reclog asid0) s = .next (ended 1 (begun 7))) ∧
        ((∀ l, logOf s asid = some l → l.grids = []) →
          (s.pf.cmdl = 0 → exec (.reclog asid0) s = .next (ended 0 (setLog asid none (begun 7)))) ∧
          (s.pf.cmdl ≠ 0 → (s.pf.cmda % 65536 ≠ 0 ∨ s.pf.cmda + s.pf.cmdl * 65536 > 0x8000000000) → exec (.reclog asid0) s = .next (ended 1 (begun 7))) ∧
          (s.pf.cmdl ≠ 0 → s.pf.cmda % 65536 = 0 → s.pf.cmda + s.pf.cmdl * 65536 ≤ 0x8000000000 → exec (.reclog asid0) s =
            .next (ended 0 (setLog asid (some { base := s.pf.cmda, units := s.pf.cmdl, written := 0, grids := [], replay := false, used := [], lifted := [], full := false, began := 0, stamps := [] }) (begun 7))))) ∧
        (∀ c, mget s.ctxs asid = some c → logOf s asid = c.log ∧ ∀ l, setLog asid l (begun 7) = { begun 7 with ctxs := mput s.ctxs asid { c with log := l } }) ∧
        (mget s.ctxs asid = none → logOf s asid = mget s.logs asid ∧ setLog asid none (begun 7) = { begun 7 with logs := mdel s.logs asid } ∧
          ∀ l, setLog asid (some l) (begun 7) = { begun 7 with logs := mput s.logs asid l }) ∧
        (∀ op, (op % 16 = 0 ∨ 8 ≤ op % 16) → exec (.pfUnassigned op asid0) s = .next (ended 0xFF (begun (op % 16))))) ∧
      (s.pf.go = true → s.pf.op = 2 →
        (invalDone s s.pf.asid s.pf.runA s.pf.runL = true → ∃ t, exec .invalComplete s = .next t ∧ t = { s with pf := { s.pf with go := false, stat := 0 }, tlb := t.tlb } ∧
          ∀ e, e ∈ t.tlb ↔ e ∈ s.tlb ∧
            (let size := 2 ^ levelLo (e.1 / 2 ^ 44 % 8)
             let lo := e.1 % 2 ^ 44 * size
             ¬ (e.1 / 2 ^ 47 = s.pf.asid ∧ (s.pf.runL = 0 ∨
               (lo < (ptrAddr s.pf.runA / 65536 + s.pf.runL) * 65536 ∧ ptrAddr s.pf.runA / 65536 * 65536 < lo + size))))) ∧
        (invalDone s s.pf.asid s.pf.runA s.pf.runL = false → exec .invalComplete s = .next s) ∧
        (∀ key v m ps q, viewOf s key = some v → v.g.asid = s.pf.asid → v.b.core ≠ none → m ∈ v.w.mq → m.logged = false → m.op = .store ps → q ∈ ps →
          usesUnits s.pf.runA s.pf.runL ⟨q.lane, q.addr, q.data.length⟩ = true → exec .invalComplete s = .next s)) ∧
      (∀ x < 2 ^ 64,
        let op := x / 2 ^ 16 % 16
        (s.pf.go = true → exec (.registerWrite .pf 0x18 x) s = .next s) ∧
        (s.pf.go = false → x < 2 ^ 63 → exec (.registerWrite .pf 0x18 x) s = .next { s with pf := { s.pf with op := op, asid := x % 4096 } }) ∧
        (s.pf.go = false → 2 ^ 63 ≤ x →
          let same := fun (n : Nat) (i : Instr) => op = n → exec (.registerWrite .pf 0x18 x) s = exec i s
          let a := x % 4096
          same 1 (.load a) ∧ same 2 (.inval a) ∧ same 3 (.teardown a) ∧ same 4 (.grant a) ∧ same 5 (.erase a) ∧ same 6 (.ring a) ∧ same 7 (.reclog a) ∧
          ((op = 0 ∨ 8 ≤ op) → exec (.registerWrite .pf 0x18 x) s = exec (.pfUnassigned op a) s))) ∧
      (s.pf.go = true → s.pf.op = 3 → tornDown s s.pf.asid = true → ∃ t, exec .teardownComplete s = .next t ∧ t.pf.go = false ∧ t.pf.stat = 0 ∧
        mget t.ctxs s.pf.asid = none ∧ (∀ e ∈ t.tlb, e.1 / 2 ^ 47 ≠ s.pf.asid) ∧ (∀ e ∈ t.cores, e.2.ctx ≠ some s.pf.asid) ∧
        ∀ gid g, mget s.grids gid = some g → g.asid = s.pf.asid → g.done = false → ∀ n < gridBlocks g.d, ∃ g', mget t.grids gid = some g' ∧ (mget g'.status n).isSome = true) ∧
      (∀ (pre post : List (Nat × Lun)) (n x : Nat) (l : Lun) (rest : List LunOp), s.luns = pre ++ (n, l) :: post → l.ops = .erase x :: rest →
        (∀ e ∈ pre, ∀ y, e.2.ops.head? ≠ some (.erase y)) →
        (∃ t, exec (.eraseComplete true) s = .next t ∧ t.pf.go = false ∧ t.pf.stat = 0 ∧ t.mem = s.mem ∧
          ∀ y, ∀ j < 16384, nandByte t y j = if sameEraseBlock x y then 0xFF else nandByte s y j) ∧
        (∃ t, exec (.eraseComplete false) s = .next t ∧ t.pf.go = false ∧ t.pf.stat = 3 ∧ t.mem = s.mem ∧ t.nand = s.nand)) ∧
      (let x := fun (i : Nat) => (mgetD s.ctxTab (s.pf.ctxb / 8 + 8 * asid + i) 0).toNat
       let zero := fun (i lo n : Nat) => x i / 2 ^ lo % 2 ^ n = 0
       let place := fun (i : Nat) => x i % 2 ^ 56
       ctxEntryOk s asid = true ↔ (x 0).testBit 63 = true ∧ zero 0 60 3 ∧ zero 1 56 8 ∧ zero 2 17 15 ∧ zero 3 56 8 ∧ zero 4 56 8 ∧ zero 5 56 4 ∧ zero 7 56 8 ∧
         place 0 % 32768 = 0 ∧ place 1 % 65536 = 0 ∧ 1 ≤ x 2 % 2 ^ 17 ∧ x 2 % 2 ^ 17 ≤ 65536 ∧ place 3 % 65536 = 0 ∧ place 4 % 4096 = 0 ∧ place 5 % 64 = 0 ∧ place 7 % 8 = 0) ∧
      (∀ (c : Ctx) (ws : List Word64),
        let x := fun (i : Nat) => ((ws[i]?).getD 0).toNat
        let d := ringDesc ws
        let reaches := fun (package : Nat) => ∃ e ∈ s.links, e.2.trained = true ∧ e.2.package = package
        (d.pos = x 0 / 2 ^ 45 % 2 ^ 13 ∧ d.nm = x 0 / 2 ^ 32 % 2 ^ 13 + 1 ∧ d.tmo = x 0 % 2 ^ 32 ∧ d.next = x 1 / 2 ^ 13 % 2 ^ 13 ∧ d.prev = x 1 % 2 ^ 13 ∧
          d.rbb = x 2 ∧ d.rsz = x 3 % 2 ^ 32 ∧ d.ctl = x 4) ∧
        (ringOk s asid c d = true ↔ (x 0).testBit 63 = true ∧ x 0 / 2 ^ 58 % 2 ^ 5 = 0 ∧ x 1 / 2 ^ 26 % 2 ^ 38 = 0 ∧ x 3 / 2 ^ 32 % 2 ^ 32 = 0 ∧ x 5 = 0 ∧ x 6 = 0 ∧ x 7 = 0 ∧
          2 ≤ d.nm ∧ d.pos < d.nm ∧ 1 ≤ d.tmo ∧ d.tmo ≤ 60000 ∧ d.rbb % 4096 = 0 ∧ d.rsz % 4096 = 0 ∧ d.rsz ≤ 2 ^ 30 ∧ d.ctl % 64 = 0 ∧
          d.ctl + 64 ≤ c.ent.syncsz * 65536 ∧ reaches d.next ∧ reaches d.prev ∧
          ∀ u ∈ units (ptrAddr d.rbb) (6 * d.rsz), ∃ pa leaf level at_, xlate s asid (rootOf c) u.1 = .ok pa leaf level at_ ∧ leafTier leaf = 0))

/-- Each input answers a next state with its own effect. A tail write moves the tail; a launch entry is fetched from its slot of the ring in host memory and answered by one completion entry, code 8 for a context the function does not serve, 5 for a misaligned descriptor, 9 for one that cannot be read, else the code of the launch, with its phase bit and vector 0; a head write frees entries held back; partition and quantum entries are kept or refused and reported, a valid bit and function taking effect at once and a cluster mask waiting for its quantum boundary, where clusters that become free go to the partitions that join them; the registers take their fields and nothing else; BAR2 and drive accesses go through the permission checks to tier 1 and 2 leaves, and failures read all ones or are refused and counted, with the leaf bits of an access that had passed its permission checks set; a mailbox write adds to its sync word, but for the words of a ring; a peer access goes through its inbound window or is counted. That a mailbox write to a queue or status word is discarded, that an inbound access to a pending mapping fails, and that one which fails for its tier or its data marks its leaf, are choices of the model (log 30); that a BAR2 access to a context the function does not serve is not counted, and a link access that reaches no memory is, are its readings (log 22), as are the partition write at once and its waiting mask (log 20) and a context table apart from memory (log 52). -/
def Obligations.HostInputs : Prop :=
  (∀ (vf x : Nat) (s : State), exec (.launchTailWrite vf x) s = .next { s with vfs := mput s.vfs vf { vfAt s vf with tail := x % 2 ^ 32 } }) ∧
      (∀ (vf : Nat) (bad : Bool) (s : State),
        let v := vfAt s vf
        let slot := hostPa (v.lrb + 16 * (v.fetched % ringSize v))
        let tag := physNat s slot 8 / 2 ^ 32 % 2 ^ 32
        let asid := physNat s slot 8 % 2 ^ 12
        let ptr := physNat s (slot + 8) 8
        let answer := fun (code : Nat) (t : State) => wake (postCompletion vf tag 0 code { t with vfs := mput t.vfs vf { vfAt t vf with fetched := v.fetched + 1 } })
        v.fetched % 2 ^ 32 ≠ v.tail → v.held = [] → ringFull v = false →
        (servedBy s vf asid = false → exec (.launchEntry vf v.fetched bad) s = .next (answer 8 s)) ∧
        (servedBy s vf asid = true → ptr % 128 ≠ 0 → exec (.launchEntry vf v.fetched bad) s = .next (answer 5 s)) ∧
        (servedBy s vf asid = true → ptr % 128 = 0 →
          (∀ f t, lovageRead asid ptr 128 s = .fail f t → exec (.launchEntry vf v.fetched bad) s = .next (answer 9 t)) ∧
          (∀ bs t, lovageRead asid ptr 128 s = .ok bs t → bad = true → exec (.launchEntry vf v.fetched bad) s = .next (answer 9 t)) ∧
          (∀ bs t, lovageRead asid ptr 128 s = .ok bs t → bad = false →
            let r := offerLaunch asid (.host vf tag) ptr (wordsOf 16 bs) t
            exec (.launchEntry vf v.fetched bad) s = .next (answer r.1 r.2))) ∧
        ∀ code < 256, physNat (answer code s) (hostPa (v.crb + 16 * (v.written % ringSize v))) 16 =
            tag * 2 ^ 32 + (1 - v.written / ringSize v % 2) * 2 ^ 16 + code ∧
          (answer code s).out = s.out ++ [.msix vf 0] ∧ (vfAt (answer code s) vf).written = v.written + 1) ∧
      (∀ (vf head tag kind code : Nat) (s : State),
        let v := { vfAt s vf with crh := head % 2 ^ 32 }
        (v.held = [] → exec (.completionHeadWrite vf head) s = .next { s with vfs := mput s.vfs vf v }) ∧
        (ringFull v = true → exec (.completionHeadWrite vf head) s = .next { s with vfs := mput s.vfs vf v }) ∧
        (v.held = [(tag, kind, code)] → ringFull v = false → ∃ t, exec (.completionHeadWrite vf head) s = .next t ∧ (vfAt t vf).held = [] ∧
          (vfAt t vf).written = v.written + 1 ∧ t.out = s.out ++ [.msix vf 0] ∧ physNat t (hostPa (v.crb + 16 * (v.written % ringSize v))) 16 =
            (tag * 2 ^ 32 + (1 - v.written / ringSize v % 2) * 2 ^ 16 + kind * 2 ^ 8 + code) % 2 ^ 64)) ∧
      (∀ (p lo hi : Nat) (s : State), p < 16 →
        let mask := lo % 2 ^ 64 + hi % 2 ^ 32 * 2 ^ 64
        let clash := ∃ e ∈ s.parts, e.1 ≠ p ∧ e.2.v = true ∧ e.2.pend.getD (e.2.mask ||| e.2.joining) &&& mask ≠ 0
        (hi.testBit 63 = true → clash → exec (.partitionTableWrite p lo hi) s = .next { s with out := s.out ++ [.notify 0 p] }) ∧
        ((hi.testBit 63 = false ∨ ¬ clash) → exec (.partitionTableWrite p lo hi) s =
          .next (claimAll { s with parts := mput s.parts p { partAt s p with
            v := hi.testBit 63, vf := hi / 2 ^ 32 % 32, mask := if hi.testBit 63 = true ∧ (partAt s p).v = false then 0 else (partAt s p).mask,
            joining := if hi.testBit 63 then (partAt s p).joining else 0, pend := some mask } }))) ∧
      (∀ (p i x : Nat) (s : State), p < 16 → x < 2 ^ 64 →
        let mask := (partAt s p).pend.getD ((partAt s p).mask ||| (partAt s p).joining)
        exec (.registerWrite .pf (0x100 + 16 * p + 8) x) s = exec (.partitionTableWrite p (mask % 2 ^ 64) x) s ∧
        exec (.registerWrite .pf (0x100 + 16 * p) x) s =
          exec (.partitionTableWrite p x ((if (partAt s p).v then 2 ^ 63 else 0) + (partAt s p).vf * 2 ^ 32 + mask / 2 ^ 64 % 2 ^ 32)) s ∧
        (i < 64 → exec (.registerWrite .pf (0x1000 + 512 * p + 8 * i) x) s = exec (.quantumTableWrite p i x) s) ∧
        ∃ t, exec (.registerWrite .contextTable (64 * i) x) s = .next t ∧ t = { s with ctxTab := t.ctxTab } ∧
          (i < 4096 → ctxWord t i 0 = x ∧ ∀ a j, j < 8 → ¬ (a = i ∧ j = 0) → ctxWord t a j = ctxWord s a j)) ∧
      (∀ (p i entry : Nat) (s : State), p < 16 → i < 64 → ∃ t, exec (.quantumTableWrite p i entry) s = .next t ∧ t = { s with parts := t.parts, out := t.out } ∧
        (∀ j, mgetD (partAt t p).quanta j 0 = if j = i then BitVec.ofNat 64 entry else mgetD (partAt s p).quanta j 0) ∧
        (∀ q, q ≠ p → mget t.parts q = mget s.parts q) ∧ partAt t p = { partAt s p with quanta := (partAt t p).quanta } ∧
        t.out = if entry / 2 % 2 ^ 31 = 0 then s.out else s.out ++ [.notify 1 (p * 64 + i)]) ∧
      (∀ (x n : Nat) (s : State), x < 2 ^ 64 →
        exec (.registerWrite .pf 0x000 x) s = .next { s with pf := { s.pf with ctxb := x / 2 ^ 18 % 2 ^ 38 * 2 ^ 18 } } ∧
        exec (.registerWrite .pf 0x008 x) s = .next { s with pf := { s.pf with cmda := x } } ∧
        exec (.registerWrite .pf 0x010 x) s = .next { s with pf := { s.pf with cmdl := x % 2 ^ 32 } } ∧
        (s.pf.go = false → x < 2 ^ 63 → exec (.registerWrite .pf 0x018 x) s = .next { s with pf := { s.pf with op := x / 2 ^ 16 % 16, asid := x % 4096 } }) ∧
        (s.pf.go = true → exec (.registerWrite .pf 0x018 x) s = .next s) ∧
        exec (.registerWrite .pf 0x3200 x) s = .next { s with pf := { s.pf with tbb := x / 2 ^ 29 % 2 ^ 27 * 2 ^ 29 } } ∧
        (x % 2 = 0 → exec (.registerWrite .pf 0x3300 x) s = .next { s with pf := { s.pf with onwd := x.testBit 2, fwd := x.testBit 1 } }) ∧
        (x % 2 = 1 → ∃ t, exec (.registerWrite .pf 0x3300 x) s = .next t ∧ t.frozen = true ∧ t.mem = s.mem ∧ t.waves = s.waves ∧ t.ctxs = s.ctxs ∧ t.pf = { s.pf with onwd := x.testBit 2, fwd := x.testBit 1 }) ∧
        exec (.registerWrite .pf 0x3310 x) s = .next { s with pf := { s.pf with fwwin := x % 2 ^ 56 } } ∧
        exec (.registerWrite .pf 0x3318 x) s = .next { s with pf := { s.pf with latency := x % 2 ^ 32 }, idle := Min.min s.idle (deepestLevel (x % 2 ^ 32)) } ∧
        exec (.registerWrite .pf 0x3100 x) s = .next s ∧ exec (.registerWrite .pf 0x3108 x) s = .next s ∧ exec (.registerWrite .pf 0x3110 x) s = .next s ∧
        (∀ e < 16, ∃ t, exec (.registerWrite .pf (0x3000 + 8 * e) x) s = .next t ∧ ∀ i, inwAt t i = if i = e then x else inwAt s i) ∧
        exec (.registerWrite (.vf n) 0x00 x) s = .next { s with vfs := mput s.vfs n { vfAt s n with lrb := x / 64 * 64, fetched := 0, written := 0 } } ∧
        exec (.registerWrite (.vf n) 0x08 x) s = .next { s with vfs := mput s.vfs n { vfAt s n with lrs := x % 32, tail := x / 2 ^ 32, fetched := 0, written := 0 } } ∧
        exec (.registerWrite (.vf n) 0x10 x) s = .next { s with vfs := mput s.vfs n { vfAt s n with crb := x / 64 * 64 } } ∧
        exec (.registerWrite (.vf n) 0x18 x) s = exec (.completionHeadWrite n x) s ∧
        exec (.registerWrite (.vf n) 0x20 x) s = .next { s with vfs := mput s.vfs n { vfAt s n with win := x % 4096 } }) ∧
      (∀ (s : State) (asid addr len : Nat) (w : Bool) (c : Ctx), inbound s asid addr len w = some c → mget s.ctxs asid = some c ∧
        checkGlobal s asid (rootOf c) (if w then .store else .load) none addr len = .ok ∧
        ∀ u ∈ units addr len, ∃ pa x level at_, xlate s asid (rootOf c) u.1 w = .ok pa x level at_ ∧ leafTier x ≤ 1) ∧
      (∀ (s : State) (asid addr len : Nat) (w : Bool),
        ((∀ c, mget s.ctxs asid = some c → checkGlobal s asid (rootOf c) (if w then .store else .load) none addr len ≠ .ok) → noteInbound asid addr len w s = s) ∧
        ∀ c, mget s.ctxs asid = some c → len ≠ 0 → lovageWindow addr len = .ok → checkGlobal s asid (rootOf c) (if w then .store else .load) none addr len = .ok →
          noteInbound asid addr len w s = (units addr len).foldl (fun t u => noteLeaf asid (rootOf c) w u.1 t) s) ∧
      (∀ (vf req address len d : Nat) (s : State),
        let t := wake s
        let win := (vfAt s vf).win
        let addr := address % 2 ^ 40
        let failed := fun (w : Bool) => let z := noteInbound win addr len w t; { z with pf := { z.pf with cnt3100lo := z.pf.cnt3100lo + 1 } }
        let ones := fun (t : State) => emit (.answer (List.replicate len 0xFF)) t
        let refused := fun (z : State) => emit .unsupported { z with pf := { z.pf with cnt3100hi := z.pf.cnt3100hi + 1 } }
        let read := fun (asid a : Nat) (c : Ctx) => emit (.answer ((List.range len).map (fun j => ctxByte t asid (rootOf c) (a + j)))) (recordAccess asid (rootOf c) false a len t)
        (servedBy s vf win = false → exec (.bar2Access vf address len (some d)) s = .next t ∧ exec (.bar2Access vf address len none) s = .next (ones t)) ∧
        (servedBy s vf win = true →
          (inbound t win addr len true = none → exec (.bar2Access vf address len (some d)) s = .next (failed true)) ∧
          (inbound t win addr len false = none → exec (.bar2Access vf address len none) s = .next (ones (failed false))) ∧
          (∀ c, inbound t win addr len true = some c → exec (.bar2Access vf address len (some d)) s = .next (ctxPut win c addr (natToBytes len d) t)) ∧
          (∀ c, inbound t win addr len false = some c → exec (.bar2Access vf address len none) s = .next (read win addr c))) ∧
        (mget s.grants req = none → ∀ wr, exec (.driveInboundRequest req address len wr) s = .next (refused t)) ∧
        (∀ asid, mget s.grants req = some asid →
          let a := address % 2 ^ 60
          (isMailbox address len = false → inbound t asid a len true = none → exec (.driveInboundRequest req address len (some d)) s = .next (refused (noteInbound asid a len true t))) ∧
          (isMailbox address len = false → ∀ c, inbound t asid a len true = some c → exec (.driveInboundRequest req address len (some d)) s = .next (ctxPut asid c a (natToBytes len d) t)) ∧
          (inbound t asid a len false = none → exec (.driveInboundRequest req address len none) s = .next (refused (noteInbound asid a len false t))) ∧
          (∀ c, inbound t asid a len false = some c → exec (.driveInboundRequest req address len none) s = .next (read asid a c))) ∧
        (isMailbox address len = true → exec (.mailboxWrite req address len d) s = exec (.driveInboundRequest req address len (some d)) s ∧
          (mget s.grants req = none → exec (.mailboxWrite req address len d) s = .next (refused t)) ∧
          ∀ asid c, mget s.grants req = some asid → mget s.ctxs asid = some c →
            let x := address % 2 ^ 32 / 8 * 8
            (¬ x + 8 ≤ c.ent.syncsz * 65536 → exec (.mailboxWrite req address len d) s = .next { t with pf := { t.pf with cnt3100hi := t.pf.cnt3100hi + 1 } }) ∧
            (x + 8 ≤ c.ent.syncsz * 65536 → (isQueueWord c x = true ∨ isStatusWord s asid x = true) → exec (.mailboxWrite req address len d) s = .next t) ∧
            (x + 8 ≤ c.ent.syncsz * 65536 → isQueueWord c x = false → isStatusWord s asid x = false → (∀ r ∈ c.rings, x ≠ r.1 ∧ x ≠ r.1 + 8) → ∃ z cz, exec (.mailboxWrite req address len d) s = .next z ∧
              mget z.ctxs asid = some cz ∧ syncWord cz x = syncWord c x + BitVec.ofNat 64 (d % 2 ^ (8 * len)) ∧ z.mem = s.mem))) ∧
      (∀ (port source offset len d : Nat) (s : State),
        let x := inwAt s (offset / 2 ^ 38 % 16)
        let pa := x / 2 ^ 16 % 2 ^ 40 * 65536 + offset % 2 ^ 38
        let dropped := { wake s with pf := { s.pf with cnt3108 := s.pf.cnt3108 + 1 } }
        ((x.testBit 63 = false ∨ x.testBit 62 = false ∨ len = 0 ∨ localRange s pa len = false) → exec (.linkInboundAccess port source offset len (some d)) s = .next dropped) ∧
        ((x.testBit 63 = false ∨ len = 0 ∨ localRange s pa len = false) →
          exec (.linkInboundAccess port source offset len none) s = .next (emit (.answer (List.replicate len 0xFF)) dropped)) ∧
        (x.testBit 63 = true → len ≠ 0 → localRange s pa len = true →
          (lostIn s pa len = none → exec (.linkInboundAccess port source offset len none) s = .next (emit (.answer (physBytes s pa len)) (wake s))) ∧
          (lostIn s pa len ≠ none → exec (.linkInboundAccess port source offset len none) s = .next (emit .uncorrectable (wake s))) ∧
          (x.testBit 62 = true → linkHeld s port source offset = true → exec (.linkInboundAccess port source offset len (some d)) s = .next (wake s)) ∧
          (x.testBit 62 = true → linkHeld s port source offset = false →
            exec (.linkInboundAccess port source offset len (some d)) s = .next (logLink port source offset len (natToBytes len d) (physPut pa (natToBytes len d) (wake s))) ∧
            ((∀ e ∈ s.ctxs, ∀ l, e.2.log = some l → l.grids = []) →
              exec (.linkInboundAccess port source offset len (some d)) s = .next (physPut pa (natToBytes len d) (wake s))))))

/-- Each event, where it is due, answers a next state with its own effect. BRAKE freezes the package and with FWD = 1 sends a flit on every trained port, and changes no flash page but one whose program or erase was on the bus; scan answers a frozen package alone, at most 1,024 bytes, and changes nothing; a reset leaves no wave, block, grid or context, the registers at reset, and keeps flash; a watchdog fire halts firmware or, with ONWD = 1, freezes; one image is accepted; what firmware attempts beyond its window, the set-up of its grants, or the power and clock in force is dropped and counted, and halted firmware attempts nothing; a replay timeout, due 1 s after the address was last served, for a Quern operation or else for a link write at that address, writes a DIVERGE record and lifts the constraint; a ring sends its next revolution, receives the one after RECV, or the first it is sent after it was formed on a closed ring, and raises RECV to it, drops any other and every one that was in flight at a rewind, advances AREV to the lowest ACK, and rewinds with RECV, RWD, STATE, CAUSE, FPOS and REW as R324 says on a stall (no advance for TMO ms while a SENT that the package knows of exceeds AREV), a failed link, a notice or a detection; an idle package enters the deepest level that the tolerance admits, and wakes. That tier 1 reads zero after a reset, and FPOS of a stall, are choices of the model (logs 5 and 6); the start of the 1 s is log 23, that a DIVERGE record takes the last slot of the area log 38, which SENTs a member knows of, how a write in flight is told from the resent one, and which revolution a newly formed member takes first log 36, and which bytes firmware may set up log 28. -/
def Obligations.RecoveryEvents : Prop :=
  (∀ s : State,
        let lines := if s.pf.fwd then (s.links.filter (fun e => e.2.trained)).map (fun e => Out.brakeFlit e.1) else []
        let freezes := fun (i : Instr) (pf : Pf) (idle : Nat) => ∃ t, exec i s = .next t ∧ t = { s with frozen := true, pf := pf, idle := idle, nand := t.nand, out := s.out ++ lines } ∧
          ∀ y j, j < 16384 → nandByte t y j = nandByte s y j ∨
            ∃ e ∈ s.luns, (∃ die, e.2.ops.head? = some (.program die y)) ∨ ∃ x, e.2.ops.head? = some (.erase x) ∧ sameEraseBlock x y = true
        let halted := { s with fw := { s.fw with halted := true } }
        (s.frozen = false → freezes .brakeN s.pf s.idle ∧ freezes .freezeCommand s.pf s.idle ∧ freezes .brk s.pf s.idle ∧
          (∀ port l, mget s.links port = some l → l.trained = true → s.pf.fwd = true → freezes (.brakeFlit port) s.pf 0) ∧
          (s.pf.onwd = true → freezes .fire { s.pf with fire := true } s.idle) ∧
          (s.pf.onwd = true → s.fw.halted = false → s.fw.kickAt + 1000000000 ≤ s.time.ticks.toNat → freezes .watchdogTimeout s.pf s.idle)) ∧
        (s.frozen = true → exec .brakeN s = .next s ∧ exec .freezeCommand s = .next s ∧ exec .brk s = .next s) ∧
        (∀ port, (∀ l, mget s.links port = some l → l.trained = false) → exec (.brakeFlit port) s = .next s) ∧
        (∀ port l, mget s.links port = some l → l.trained = true → s.pf.fwd = false → exec (.brakeFlit port) s = .next { s with idle := 0 }) ∧
        (s.pf.onwd = false → exec .fire s = .next { halted with pf := { s.pf with fire := true } }) ∧
        (s.pf.onwd = false → s.fw.halted = false → s.fw.kickAt + 1000000000 ≤ s.time.ticks.toNat → exec .watchdogTimeout s = .next halted) ∧
        (∀ image, s.fw.halted = true → s.fw.accepted = none → exec (.firmwareImage image) s = .next { s with fw := { s.fw with accepted := some image } }) ∧
        (∀ image, (s.fw.halted = false ∨ s.fw.accepted ≠ none) → exec (.firmwareImage image) s = .next s) ∧
        (∀ act at_ x, s.fw.halted = true → exec (.registerWrite (.firmware act) at_ x) s = .next s) ∧
        (s.fw.halted = false → ∀ at_ len x, x < 2 ^ 64 →
          let counted := { s with pf := { s.pf with cnt3330 := s.pf.cnt3330 + 1 } }
          let base := s.pf.fwwin / 2 ^ 16 % 2 ^ 40 * 65536
          let end_ := base + s.pf.fwwin % 2 ^ 16 * 65536
          (base ≤ at_ → at_ + len ≤ end_ → exec (.registerWrite (.firmware (.host len)) at_ x) s = .next (physPut (hostPa at_) (natToBytes len x) s)) ∧
          ((at_ < base ∨ end_ < at_ + len) → exec (.registerWrite (.firmware (.host len)) at_ x) s = .next counted) ∧
          (∀ asid req, (mget s.grants req ≠ some asid → exec (.registerWrite (.firmware (.context asid req len)) at_ x) s = .next counted) ∧
            ∀ c, mget s.grants req = some asid → inbound s asid (ptrAddr at_) len true = some c → exec (.registerWrite (.firmware (.context asid req len)) at_ x) s =
              .next (if ∀ j < len, Config.grantSetUp asid req (ptrAddr at_ + j) = true then ctxPut asid c (ptrAddr at_) (natToBytes len x) (wake s) else counted)) ∧
          (s.fw.power < x → exec (.registerWrite (.firmware .power) at_ x) s = .next counted) ∧ (s.fw.clock < x → exec (.registerWrite (.firmware .clock) at_ x) s = .next counted) ∧
          (x ≤ s.fw.power → exec (.registerWrite (.firmware .power) at_ x) s = .next { s with fw := { s.fw with power := x } }) ∧
          (x ≤ s.fw.clock → exec (.registerWrite (.firmware .clock) at_ x) s = .next { s with fw := { s.fw with clock := x } }) ∧
          (s.pf.kick ≠ BitVec.ofNat 32 x → exec (.registerWrite (.firmware .kick) at_ x) s =
            .next { s with pf := { s.pf with kick := BitVec.ofNat 32 x }, fw := { s.fw with kickAt := s.time.ticks.toNat } })) ∧
        (∀ u i o n, (s.frozen = false → exec (.scanRead (.unit u) i o n) s = .next s) ∧
          (s.frozen = true → ∀ x, scanState s u i = some x → exec (.scanRead (.unit u) i o n) s =
            .next { s with out := s.out ++ [.scan u i o ((List.range (Nat.min n 1024)).map (fun j => Config.scanByte (u :: i :: x) (o + j)))] })) ∧
        (∀ key w o n, mget s.waves key = some w → exec (.scanRead .breakpoints key o n) s = .next { s with out := s.out ++ [.answer (natToBytes 8 w.bkpts)] }) ∧
        (∃ t, exec .packageReset s = .next t ∧ t.frozen = false ∧ t.waves = [] ∧ t.blocks = [] ∧ t.grids = [] ∧ t.ctxs = [] ∧ t.tags = [] ∧ t.pf = State.reset.pf ∧ t.vfs = [] ∧
          t.parts = [] ∧ t.time.ticks = 0 ∧ t.nand = s.nand ∧ t.fw.halted = false ∧ (∀ x, s.fw.accepted = some x → t.fw.image = x) ∧
          (s.fw.accepted = none → t.fw.image = s.fw.image) ∧ (∀ a, physByte t a = if a < 0x8000000000 then blankByte else physByte s a) ∧
          ∀ k, mgetD t.ctxTab k 0 = if k * 8 < 0x8000000000 then 0 else mgetD s.ctxTab k 0) ∧
        (packageIdle s = true → ∃ l t, exec .idleEntry s = .next t ∧ t = { s with idle := l, near := if 3 ≤ l then [] else s.near } ∧ l ≤ 4 ∧
          (l = 0 ∨ exitLatency l ≤ s.pf.latency) ∧ ∀ k ≤ 4, exitLatency k ≤ s.pf.latency → k ≤ l) ∧
        (packageIdle s = false → exec .idleEntry s = .next s) ∧
        (∀ e ∈ s.phaseQ, ∀ p, e.2.cond = some p → p.ck = 5 → e.2.rval = none → p.cval.toNat ≤ s.time.ticks.toNat + exitLatency s.idle * 1000 →
          exec .idleWakeTimer s = .next { s with idle := 0 }) ∧
        (∀ port package, port < 16 → exec (.linkTrained port package) s =
          .next { s with links := mput s.links port { trained := true, package := package % 2 ^ 13 }, idle := 0 })) ∧
      (∀ (asid address : Nat) (global : Bool) (c : Ctx) (l : LogArea) (s : State), mget s.ctxs asid = some c → c.log = some l → l.replay = true → l.grids ≠ [] →
        let same := fun (i : Nat) => logType s l i == 4 && logWord s l i 1 == address && (decide (2 ^ 63 ≤ logWord s l i 2) == global)
        let link := fun (i : Nat) => logType s l i == 3
        let now := s.time.ticks.toNat
        let late := fun (p : Nat → Bool) => l.began + 1000000000 ≤ now ∧ ∀ i ∈ l.used, p i = true → mgetD l.stamps i 0 + 1000000000 ≤ now
        let mine := nextRecord s l same
        let writes := fun (t : State) (type i : Nat) => l.full = false → l.written < logCap l → logWord t l l.written 0 = 5 * 2 ^ 60 + type ∧
          logWord t l l.written 1 = address % 2 ^ 64 ∧ logWord t l l.written 3 = logWord s l i 3
        let idle := (address, global) ∈ l.lifted ∨ mine = none ∨ ¬ late same
        let linkDue := fun (i : Nat) => global = false ∧ late link ∧ nextLink s asid = some i ∧ logWord s l i 1 = address
        (∀ i, (address, global) ∉ l.lifted → mine = some i → late same → ∃ t c' l', exec (.replayTimeout asid address global) s = .next t ∧
          mget t.ctxs asid = some c' ∧ c'.log = some l' ∧ l'.lifted = (address, global) :: l.lifted ∧ writes t 4 i) ∧
        (∀ i, idle → linkDue i → ∃ t c' l', exec (.replayTimeout asid address global) s = .next t ∧
          mget t.ctxs asid = some c' ∧ c'.log = some l' ∧ l'.lifted = linkName address :: l.lifted ∧ writes t 3 i) ∧
        (idle → (∀ i, ¬ linkDue i) → exec (.replayTimeout asid address global) s = .next s)) ∧
      (∀ (asid ctl : Nat) (c : Ctx) (r : Ring) (s : State), runningRing s asid ctl = some (c, r) → ctl % 64 = 0 →
        let a := ringArev s asid ctl
        let rewound := fun (t : State) (cause position : Nat) => ctlWord t asid ctl 0x10 = 2 ^ 63 + a ∧
          ctlWord t asid ctl 0x20 = 2 * 2 ^ 62 + cause * 2 ^ 56 + position % 2 ^ 13 * 2 ^ 32 + a ∧ ringSent t asid ctl = ringSent s asid ctl ∧ t.mem = s.mem ∧ t.idle = 0
        let n := r.sent + 1
        (n ≤ ringSent s asid ctl → reachable s r.next = true →
          (r.rsz = 0 → ∃ t ct rt, exec (.ringSend asid ctl) s = .next t ∧ t.out = s.out ++ [.revolution r.next n []] ∧ mget t.ctxs asid = some ct ∧
            mget ct.rings ctl = some rt ∧ rt = { r with sent := n } ∧ t.idle = 0) ∧
          (∀ bs u, r.rsz ≠ 0 → lovageRead asid (ptrPlus r.rbb (n % 3 * r.rsz)) r.rsz s = .ok bs u → ∃ t ct rt, exec (.ringSend asid ctl) s = .next t ∧
            t.out = u.out ++ [.revolution r.next n bs] ∧ mget t.ctxs asid = some ct ∧ mget ct.rings ctl = some rt ∧ rt = { r with sent := n } ∧ t.idle = 0)) ∧
        ((ringSent s asid ctl < n ∨ reachable s r.next = false) → exec (.ringSend asid ctl) s = .next s) ∧
        (∀ (rev : Incoming) (data : List Byte), (rev.old = true ∨ rev.no = 0 ∨ data.length ≠ r.rsz ∨ (r.fresh = false ∧ rev.no ≠ ringRecv s asid ctl + 1)) → exec (.revolutionReceived asid ctl rev data) s = .next { s with idle := 0 }) ∧
        (∀ (rev : Incoming) (data : List Byte), rev.old = false → rev.no ≠ 0 → data.length = r.rsz → (rev.no = ringRecv s asid ctl + 1 ∨ r.fresh = true) → let recv := Max.max (ringRecv s asid ctl) (rev.no % 2 ^ 32)
          (r.rsz = 0 → ∃ t ct, exec (.revolutionReceived asid ctl rev data) s = .next t ∧ ringRecv t asid ctl = recv ∧ mget t.ctxs asid = some ct ∧ mget ct.rings ctl = some { r with fresh := false }) ∧
          (∀ u, r.rsz ≠ 0 → lovageWrite asid (ptrPlus r.rbb ((3 + rev.no % 3) * r.rsz)) data (wake s) = .ok () u → ∃ t, exec (.revolutionReceived asid ctl rev data) s = .next t ∧
            ringRecv t asid ctl = recv ∧ t.mem = u.mem)) ∧
        (∀ ack sent, let low := Min.min (Max.max r.others ack) (ringAck s asid ctl)
          ∃ t ct rt, exec (.arevAdvance asid ctl ⟨ack, sent⟩) s = .next t ∧ mget t.ctxs asid = some ct ∧ mget ct.rings ctl = some rt ∧ rt.theirs = Max.max r.theirs sent ∧
            (a < low → ringArev t asid ctl = low ∧ ringAck t asid ctl = ringAck s asid ctl) ∧ (low ≤ a → ringArev t asid ctl = a)) ∧
        ((s.time.ticks.toNat < r.since + r.tmo * 1000000 ∨ ringSent s asid ctl ≤ a ∧ ringRecv s asid ctl ≤ a ∧ r.theirs ≤ a) → exec (.ringStallTimeout asid ctl) s = .next s) ∧
        (r.since + r.tmo * 1000000 ≤ s.time.ticks.toNat → (a < ringSent s asid ctl ∨ a < ringRecv s asid ctl ∨ a < r.theirs) → ∃ t position, exec (.ringStallTimeout asid ctl) s = .next t ∧ rewound t 1 position) ∧
        (∀ cause position, (cause = 2 ∨ cause = 3) → ∃ t, exec (.ringFailureNotice asid ctl cause position) s = .next t ∧ rewound t cause position) ∧
        (∀ cause position, 1 ≤ cause → cause ≤ 4 → ∃ t, exec (.detectionByAnyMember asid ctl cause position) s = .next t ∧ rewound t cause position) ∧
        (∀ port l, mget s.links port = some l → l.trained = true → (r.next = l.package ∨ r.prev = l.package) → c.rings = [(ctl, r)] → ∃ t position,
          exec (.linkFailure port) s = .next t ∧ mget t.links port = some { l with trained := false } ∧ rewound t 4 position)) ∧
      (∀ (port : Nat) (l : Link) (s : State), mget s.links port = some l →
        let down := { s with links := mput s.links port { l with trained := false } }
        let hit := fun (c : Nat × Ctx) (u : State) (r : Nat × Ring) =>
          if r.2.next = l.package then detect c.1 r.1 4 ((r.2.pos + 1) % r.2.nm) u
          else if r.2.prev = l.package then detect c.1 r.1 4 ((r.2.pos + r.2.nm - 1) % r.2.nm) u else u
        (l.trained = false → exec (.linkFailure port) s = .next down) ∧
        (l.trained = true → exec (.linkFailure port) s = .next (s.ctxs.foldl (fun t c => c.2.rings.foldl (hit c) t) down)))
end

