-- ==== Sys2Proof/Laws/Maps.lean ====
section
/-! SUPPORT. Laws of the maps and sets of Machine/Maps.lean: what a write, a removal and a filter leave at each key, and that they keep the rising order and the canonical form. -/
namespace Sys2Proof.Machine

variable {α : Type}

/-! ### Reading after writing -/

@[simp] theorem mget_nil (k : Nat) : mget ([] : List (Nat × α)) k = none := rfl

@[simp] theorem mget_mput_same (m : List (Nat × α)) (k : Nat) (x : α) : mget (mput m k x) k = some x := by
  induction m with
  | nil => simp [mput, mget]
  | cons e rest ih =>
    simp only [mput]
    split
    · simp [mget]
    · split
      · simp [mget]
      · rename_i h1 h2
        simp only [mget]
        rw [if_neg (fun h => h2 h.symm)]
        exact ih

theorem mget_mput_ne (m : List (Nat × α)) {k j : Nat} (x : α) (h : j ≠ k) : mget (mput m k x) j = mget m j := by
  induction m with
  | nil => simp [mput, mget, Ne.symm h]
  | cons e rest ih =>
    simp only [mput]
    split
    · simp [mget, Ne.symm h]
    · split
      · subst_vars
        simp [mget, Ne.symm h]
      · simp [mget, ih]

theorem mget_mput (m : List (Nat × α)) (k j : Nat) (x : α) : mget (mput m k x) j = if j = k then some x else mget m j := by
  split
  · subst_vars; simp
  · exact mget_mput_ne m x ‹_›

@[simp] theorem mget_mdel_same (m : List (Nat × α)) (k : Nat) : mget (mdel m k) k = none := by
  induction m with
  | nil => rfl
  | cons e rest ih =>
    simp only [mdel]
    split
    · exact ih
    · simp [mget, *]

theorem mget_mdel_ne (m : List (Nat × α)) {k j : Nat} (h : j ≠ k) : mget (mdel m k) j = mget m j := by
  induction m with
  | nil => rfl
  | cons e rest ih =>
    simp only [mdel]
    split
    · subst_vars
      simp [mget, Ne.symm h, ih]
    · simp [mget, ih]

theorem mget_mdel (m : List (Nat × α)) (k j : Nat) : mget (mdel m k) j = if j = k then none else mget m j := by
  split
  · subst_vars; simp
  · exact mget_mdel_ne m ‹_›

theorem mgetD_mput (m : List (Nat × α)) (k j : Nat) (x d : α) : mgetD (mput m k x) j d = if j = k then x else mgetD m j d := by
  unfold mgetD
  rw [mget_mput]
  split <;> rfl

theorem mgetD_mset [DecidableEq α] (d : α) (m : List (Nat × α)) (k j : Nat) (x : α) :
    mgetD (mset d m k x) j d = if j = k then x else mgetD m j d := by
  unfold mset mgetD
  split
  · rw [mget_mdel]
    split <;> simp_all
  · rw [mget_mput]
    split <;> simp_all

theorem mput_mput (m : List (Nat × α)) (k : Nat) (x y : α) : mput (mput m k x) k y = mput m k y := by
  induction m with
  | nil => simp [mput]
  | cons e rest ih =>
    simp only [mput]
    split
    · simp [mput]
    · split
      · simp [mput]
      · simp [mput, *]

/-- A filter that looks at keys alone. -/
theorem mget_filter (p : Nat → Bool) (m : List (Nat × α)) (k : Nat) :
    mget (m.filter (fun e => p e.1)) k = if p k then mget m k else none := by
  induction m with
  | nil => simp
  | cons e rest ih =>
    by_cases h : p e.1 = true
    · rw [List.filter_cons_of_pos (by simpa using h)]
      by_cases h2 : e.1 = k <;> simp_all [mget]
    · rw [List.filter_cons_of_neg (by simpa using h)]
      by_cases h2 : e.1 = k <;> simp_all [mget]

/-- Changing values by a function of key and value. -/
theorem mget_map {β : Type} (f : Nat → α → β) (m : List (Nat × α)) (k : Nat) :
    mget (m.map (fun e => (e.1, f e.1 e.2))) k = (mget m k).map (f k) := by
  induction m with
  | nil => rfl
  | cons e rest ih => by_cases h : e.1 = k <;> simp_all [mget]

theorem mem_of_mget {m : List (Nat × α)} {k : Nat} {x : α} (h : mget m k = some x) : (k, x) ∈ m := by
  induction m with
  | nil => cases h
  | cons e rest ih =>
    simp only [mget] at h
    split at h
    · cases h; subst_vars; simp
    · exact List.mem_cons_of_mem _ (ih h)

/-! ### The rising order -/

/-- Every key of a map is above a bound. -/
def keysAbove (n : Nat) (m : List (Nat × α)) : Prop := ∀ e ∈ m, n < e.1

theorem mapWf_cons (e : Nat × α) (m : List (Nat × α)) : mapWf (e :: m) = true ↔ keysAbove e.1 m ∧ mapWf m = true := by
  induction m generalizing e with
  | nil => simp [mapWf, keysAbove]
  | cons f rest ih =>
    obtain ⟨j, x⟩ := e
    obtain ⟨k, y⟩ := f
    simp only [mapWf, Bool.and_eq_true, decide_eq_true_eq]
    constructor
    · rintro ⟨h1, h2⟩
      refine ⟨fun e he => ?_, h2⟩
      rcases List.mem_cons.mp he with rfl | he
      · exact h1
      · exact Nat.lt_trans h1 (((ih (k, y)).mp h2).1 e he)
    · rintro ⟨h1, h2⟩
      exact ⟨h1 _ (List.mem_cons_self ..), h2⟩

theorem keysAbove_mput {n k : Nat} {m : List (Nat × α)} (h : keysAbove n m) (hk : n < k) (x : α) : keysAbove n (mput m k x) := by
  induction m with
  | nil => intro e he; simp [mput] at he; subst he; exact hk
  | cons f rest ih =>
    have h1 : n < f.1 := h f (List.mem_cons_self ..)
    have h2 : keysAbove n rest := fun e he => h e (List.mem_cons_of_mem _ he)
    simp only [mput]
    split
    · intro e he
      rcases List.mem_cons.mp he with rfl | he
      · exact hk
      · exact h e he
    · split
      · intro e he
        rcases List.mem_cons.mp he with rfl | he
        · exact hk
        · exact h2 e he
      · intro e he
        rcases List.mem_cons.mp he with rfl | he
        · exact h1
        · exact ih h2 e he

theorem mapWf_mput {m : List (Nat × α)} (h : mapWf m = true) (k : Nat) (x : α) : mapWf (mput m k x) = true := by
  induction m with
  | nil => rfl
  | cons f rest ih =>
    obtain ⟨h1, h2⟩ := (mapWf_cons f rest).mp h
    simp only [mput]
    split
    · rename_i hlt
      refine (mapWf_cons _ _).mpr ⟨fun e he => ?_, h⟩
      rcases List.mem_cons.mp he with rfl | he
      · exact hlt
      · exact Nat.lt_trans hlt (h1 e he)
    · split
      · rename_i heq
        exact (mapWf_cons _ _).mpr ⟨by intro e he; rw [show ((k, x) : Nat × α).1 = f.1 from heq]; exact h1 e he, h2⟩
      · rename_i hlt hne
        exact (mapWf_cons _ _).mpr ⟨keysAbove_mput h1 (by simp at hlt hne ⊢; omega) x, ih h2⟩

theorem keysAbove_of_sublist {n : Nat} {l m : List (Nat × α)} (h : keysAbove n m) (hs : l.Sublist m) : keysAbove n l :=
  fun e he => h e (hs.subset he)

theorem mapWf_sublist {l m : List (Nat × α)} (hs : l.Sublist m) (h : mapWf m = true) : mapWf l = true := by
  induction hs with
  | slnil => rfl
  | cons e hs ih => exact ih ((mapWf_cons _ _).mp h).2
  | cons_cons e hs ih =>
    obtain ⟨h1, h2⟩ := (mapWf_cons _ _).mp h
    exact (mapWf_cons _ _).mpr ⟨keysAbove_of_sublist h1 hs, ih h2⟩

theorem mdel_sublist (m : List (Nat × α)) (k : Nat) : (mdel m k).Sublist m := by
  induction m with
  | nil => exact .slnil
  | cons e rest ih =>
    simp only [mdel]
    split
    · exact ih.cons _
    · exact ih.cons_cons _

theorem mapWf_mdel {m : List (Nat × α)} (h : mapWf m = true) (k : Nat) : mapWf (mdel m k) = true := mapWf_sublist (mdel_sublist m k) h

/-! ### The canonical form -/

theorem sparseWf_sublist [DecidableEq α] {d : α} {l m : List (Nat × α)} (hs : l.Sublist m) (h : sparseWf d m = true) : sparseWf d l = true := by
  unfold sparseWf at *
  rw [Bool.and_eq_true] at *
  refine ⟨mapWf_sublist hs h.1, List.all_eq_true.mpr fun e he => List.all_eq_true.mp h.2 e (hs.subset he)⟩

theorem mem_mput {m : List (Nat × α)} {k : Nat} {x : α} {e : Nat × α} (h : e ∈ mput m k x) : e = (k, x) ∨ e ∈ m := by
  induction m with
  | nil => simpa [mput] using h
  | cons f rest ih =>
    simp only [mput] at h
    split at h
    · simpa using h
    · split at h
      · rcases List.mem_cons.mp h with rfl | h
        · exact .inl rfl
        · exact .inr (List.mem_cons_of_mem _ h)
      · rcases List.mem_cons.mp h with rfl | h
        · exact .inr (List.mem_cons_self ..)
        · exact (ih h).imp id (List.mem_cons_of_mem _)

/-- Writing into a sparse map keeps its one form. -/
theorem sparseWf_mset [DecidableEq α] {d : α} {m : List (Nat × α)} (h : sparseWf d m = true) (k : Nat) (x : α) :
    sparseWf d (mset d m k x) = true := by
  unfold mset
  split
  · exact sparseWf_sublist (mdel_sublist m k) h
  · rename_i hx
    unfold sparseWf at *
    rw [Bool.and_eq_true] at *
    refine ⟨mapWf_mput h.1 k x, List.all_eq_true.mpr fun e he => ?_⟩
    rcases mem_mput he with rfl | he
    · simpa using hx
    · exact List.all_eq_true.mp h.2 e he

theorem sparseWf_filter [DecidableEq α] {d : α} {m : List (Nat × α)} (h : sparseWf d m = true) (p : Nat × α → Bool) :
    sparseWf d (m.filter p) = true := sparseWf_sublist List.filter_sublist h

/-! ### Sets -/

theorem mem_sadd (l : List Nat) (k j : Nat) : j ∈ sadd l k ↔ j = k ∨ j ∈ l := by
  induction l with
  | nil => simp [sadd]
  | cons a rest ih =>
    simp only [sadd]
    split
    · simp
    · split
      · subst_vars; simp
      · simp only [List.mem_cons, ih]; tauto

theorem mem_sdel (l : List Nat) (k j : Nat) : j ∈ sdel l k ↔ j ≠ k ∧ j ∈ l := by
  induction l with
  | nil => simp [sdel]
  | cons a rest ih =>
    simp only [sdel]
    split
    · subst_vars
      rw [ih, List.mem_cons]
      constructor
      · exact fun h => ⟨h.1, .inr h.2⟩
      · rintro ⟨h1, h2 | h2⟩
        · exact absurd h2 h1
        · exact ⟨h1, h2⟩
    · rename_i h
      simp only [List.mem_cons, ih]
      constructor
      · rintro (rfl | h2)
        · exact ⟨h, .inl rfl⟩
        · exact ⟨h2.1, .inr h2.2⟩
      · rintro ⟨h1, h2⟩
        exact h2.imp id (fun h2 => ⟨h1, h2⟩)

theorem mem_foldl_sadd (ks l : List Nat) (j : Nat) : j ∈ ks.foldl sadd l ↔ j ∈ ks ∨ j ∈ l := by
  induction ks generalizing l with
  | nil => simp
  | cons k rest ih => simp only [List.foldl_cons, ih, mem_sadd, List.mem_cons]; tauto

end Sys2Proof.Machine
end

