-- ==== Sys2Proof/Laws/State.lean ====
section
/-! SUPPORT. What each update of the state and of a wave leaves in each field: one lemma per field per update. -/
namespace Sys2Proof.Machine

/-! ### putWave -/

@[simp] theorem putWave_sched (k : Nat) (x : Wave) (s : State) : (putWave k x s).sched = s.sched := rfl
@[simp] theorem putWave_time (k : Nat) (x : Wave) (s : State) : (putWave k x s).time = s.time := rfl
@[simp] theorem putWave_mem (k : Nat) (x : Wave) (s : State) : (putWave k x s).mem = s.mem := rfl
@[simp] theorem putWave_spoilt (k : Nat) (x : Wave) (s : State) : (putWave k x s).spoilt = s.spoilt := rfl
@[simp] theorem putWave_tags (k : Nat) (x : Wave) (s : State) : (putWave k x s).tags = s.tags := rfl
@[simp] theorem putWave_near (k : Nat) (x : Wave) (s : State) : (putWave k x s).near = s.near := rfl
@[simp] theorem putWave_tlb (k : Nat) (x : Wave) (s : State) : (putWave k x s).tlb = s.tlb := rfl
@[simp] theorem putWave_ctxTab (k : Nat) (x : Wave) (s : State) : (putWave k x s).ctxTab = s.ctxTab := rfl
@[simp] theorem putWave_cores (k : Nat) (x : Wave) (s : State) : (putWave k x s).cores = s.cores := rfl
@[simp] theorem putWave_parts (k : Nat) (x : Wave) (s : State) : (putWave k x s).parts = s.parts := rfl
@[simp] theorem putWave_pf (k : Nat) (x : Wave) (s : State) : (putWave k x s).pf = s.pf := rfl
@[simp] theorem putWave_vfs (k : Nat) (x : Wave) (s : State) : (putWave k x s).vfs = s.vfs := rfl
@[simp] theorem putWave_frozen (k : Nat) (x : Wave) (s : State) : (putWave k x s).frozen = s.frozen := rfl
@[simp] theorem putWave_fw (k : Nat) (x : Wave) (s : State) : (putWave k x s).fw = s.fw := rfl
@[simp] theorem putWave_idle (k : Nat) (x : Wave) (s : State) : (putWave k x s).idle = s.idle := rfl
@[simp] theorem putWave_links (k : Nat) (x : Wave) (s : State) : (putWave k x s).links = s.links := rfl
@[simp] theorem putWave_cxl (k : Nat) (x : Wave) (s : State) : (putWave k x s).cxl = s.cxl := rfl
@[simp] theorem putWave_grants (k : Nat) (x : Wave) (s : State) : (putWave k x s).grants = s.grants := rfl
@[simp] theorem putWave_luns (k : Nat) (x : Wave) (s : State) : (putWave k x s).luns = s.luns := rfl
@[simp] theorem putWave_deadTargets (k : Nat) (x : Wave) (s : State) : (putWave k x s).deadTargets = s.deadTargets := rfl
@[simp] theorem putWave_nand (k : Nat) (x : Wave) (s : State) : (putWave k x s).nand = s.nand := rfl
@[simp] theorem putWave_programmed (k : Nat) (x : Wave) (s : State) : (putWave k x s).programmed = s.programmed := rfl
@[simp] theorem putWave_silent (k : Nat) (x : Wave) (s : State) : (putWave k x s).silent = s.silent := rfl
@[simp] theorem putWave_tail (k : Nat) (x : Wave) (s : State) : (putWave k x s).tail = s.tail := rfl
@[simp] theorem putWave_wb (k : Nat) (x : Wave) (s : State) : (putWave k x s).wb = s.wb := rfl
@[simp] theorem putWave_placeQ (k : Nat) (x : Wave) (s : State) : (putWave k x s).placeQ = s.placeQ := rfl
@[simp] theorem putWave_nextReq (k : Nat) (x : Wave) (s : State) : (putWave k x s).nextReq = s.nextReq := rfl
@[simp] theorem putWave_phaseQ (k : Nat) (x : Wave) (s : State) : (putWave k x s).phaseQ = s.phaseQ := rfl
@[simp] theorem putWave_ctxs (k : Nat) (x : Wave) (s : State) : (putWave k x s).ctxs = s.ctxs := rfl
@[simp] theorem putWave_logs (k : Nat) (x : Wave) (s : State) : (putWave k x s).logs = s.logs := rfl
@[simp] theorem putWave_grids (k : Nat) (x : Wave) (s : State) : (putWave k x s).grids = s.grids := rfl
@[simp] theorem putWave_nextGrid (k : Nat) (x : Wave) (s : State) : (putWave k x s).nextGrid = s.nextGrid := rfl
@[simp] theorem putWave_blocks (k : Nat) (x : Wave) (s : State) : (putWave k x s).blocks = s.blocks := rfl
@[simp] theorem putWave_waves (k : Nat) (x : Wave) (s : State) : (putWave k x s).waves = mput s.waves k x := rfl
@[simp] theorem putWave_out (k : Nat) (x : Wave) (s : State) : (putWave k x s).out = s.out := rfl

/-! ### putBlock -/

@[simp] theorem putBlock_sched (k : Nat) (x : Block) (s : State) : (putBlock k x s).sched = s.sched := rfl
@[simp] theorem putBlock_time (k : Nat) (x : Block) (s : State) : (putBlock k x s).time = s.time := rfl
@[simp] theorem putBlock_mem (k : Nat) (x : Block) (s : State) : (putBlock k x s).mem = s.mem := rfl
@[simp] theorem putBlock_spoilt (k : Nat) (x : Block) (s : State) : (putBlock k x s).spoilt = s.spoilt := rfl
@[simp] theorem putBlock_tags (k : Nat) (x : Block) (s : State) : (putBlock k x s).tags = s.tags := rfl
@[simp] theorem putBlock_near (k : Nat) (x : Block) (s : State) : (putBlock k x s).near = s.near := rfl
@[simp] theorem putBlock_tlb (k : Nat) (x : Block) (s : State) : (putBlock k x s).tlb = s.tlb := rfl
@[simp] theorem putBlock_ctxTab (k : Nat) (x : Block) (s : State) : (putBlock k x s).ctxTab = s.ctxTab := rfl
@[simp] theorem putBlock_cores (k : Nat) (x : Block) (s : State) : (putBlock k x s).cores = s.cores := rfl
@[simp] theorem putBlock_parts (k : Nat) (x : Block) (s : State) : (putBlock k x s).parts = s.parts := rfl
@[simp] theorem putBlock_pf (k : Nat) (x : Block) (s : State) : (putBlock k x s).pf = s.pf := rfl
@[simp] theorem putBlock_vfs (k : Nat) (x : Block) (s : State) : (putBlock k x s).vfs = s.vfs := rfl
@[simp] theorem putBlock_frozen (k : Nat) (x : Block) (s : State) : (putBlock k x s).frozen = s.frozen := rfl
@[simp] theorem putBlock_fw (k : Nat) (x : Block) (s : State) : (putBlock k x s).fw = s.fw := rfl
@[simp] theorem putBlock_idle (k : Nat) (x : Block) (s : State) : (putBlock k x s).idle = s.idle := rfl
@[simp] theorem putBlock_links (k : Nat) (x : Block) (s : State) : (putBlock k x s).links = s.links := rfl
@[simp] theorem putBlock_cxl (k : Nat) (x : Block) (s : State) : (putBlock k x s).cxl = s.cxl := rfl
@[simp] theorem putBlock_grants (k : Nat) (x : Block) (s : State) : (putBlock k x s).grants = s.grants := rfl
@[simp] theorem putBlock_luns (k : Nat) (x : Block) (s : State) : (putBlock k x s).luns = s.luns := rfl
@[simp] theorem putBlock_deadTargets (k : Nat) (x : Block) (s : State) : (putBlock k x s).deadTargets = s.deadTargets := rfl
@[simp] theorem putBlock_nand (k : Nat) (x : Block) (s : State) : (putBlock k x s).nand = s.nand := rfl
@[simp] theorem putBlock_programmed (k : Nat) (x : Block) (s : State) : (putBlock k x s).programmed = s.programmed := rfl
@[simp] theorem putBlock_silent (k : Nat) (x : Block) (s : State) : (putBlock k x s).silent = s.silent := rfl
@[simp] theorem putBlock_tail (k : Nat) (x : Block) (s : State) : (putBlock k x s).tail = s.tail := rfl
@[simp] theorem putBlock_wb (k : Nat) (x : Block) (s : State) : (putBlock k x s).wb = s.wb := rfl
@[simp] theorem putBlock_placeQ (k : Nat) (x : Block) (s : State) : (putBlock k x s).placeQ = s.placeQ := rfl
@[simp] theorem putBlock_nextReq (k : Nat) (x : Block) (s : State) : (putBlock k x s).nextReq = s.nextReq := rfl
@[simp] theorem putBlock_phaseQ (k : Nat) (x : Block) (s : State) : (putBlock k x s).phaseQ = s.phaseQ := rfl
@[simp] theorem putBlock_ctxs (k : Nat) (x : Block) (s : State) : (putBlock k x s).ctxs = s.ctxs := rfl
@[simp] theorem putBlock_logs (k : Nat) (x : Block) (s : State) : (putBlock k x s).logs = s.logs := rfl
@[simp] theorem putBlock_grids (k : Nat) (x : Block) (s : State) : (putBlock k x s).grids = s.grids := rfl
@[simp] theorem putBlock_nextGrid (k : Nat) (x : Block) (s : State) : (putBlock k x s).nextGrid = s.nextGrid := rfl
@[simp] theorem putBlock_blocks (k : Nat) (x : Block) (s : State) : (putBlock k x s).blocks = mput s.blocks k x := rfl
@[simp] theorem putBlock_waves (k : Nat) (x : Block) (s : State) : (putBlock k x s).waves = s.waves := rfl
@[simp] theorem putBlock_out (k : Nat) (x : Block) (s : State) : (putBlock k x s).out = s.out := rfl

/-! ### emit -/

@[simp] theorem emit_sched (o : Out) (s : State) : (emit o s).sched = s.sched := rfl
@[simp] theorem emit_time (o : Out) (s : State) : (emit o s).time = s.time := rfl
@[simp] theorem emit_mem (o : Out) (s : State) : (emit o s).mem = s.mem := rfl
@[simp] theorem emit_spoilt (o : Out) (s : State) : (emit o s).spoilt = s.spoilt := rfl
@[simp] theorem emit_tags (o : Out) (s : State) : (emit o s).tags = s.tags := rfl
@[simp] theorem emit_near (o : Out) (s : State) : (emit o s).near = s.near := rfl
@[simp] theorem emit_tlb (o : Out) (s : State) : (emit o s).tlb = s.tlb := rfl
@[simp] theorem emit_ctxTab (o : Out) (s : State) : (emit o s).ctxTab = s.ctxTab := rfl
@[simp] theorem emit_cores (o : Out) (s : State) : (emit o s).cores = s.cores := rfl
@[simp] theorem emit_parts (o : Out) (s : State) : (emit o s).parts = s.parts := rfl
@[simp] theorem emit_pf (o : Out) (s : State) : (emit o s).pf = s.pf := rfl
@[simp] theorem emit_vfs (o : Out) (s : State) : (emit o s).vfs = s.vfs := rfl
@[simp] theorem emit_frozen (o : Out) (s : State) : (emit o s).frozen = s.frozen := rfl
@[simp] theorem emit_fw (o : Out) (s : State) : (emit o s).fw = s.fw := rfl
@[simp] theorem emit_idle (o : Out) (s : State) : (emit o s).idle = s.idle := rfl
@[simp] theorem emit_links (o : Out) (s : State) : (emit o s).links = s.links := rfl
@[simp] theorem emit_cxl (o : Out) (s : State) : (emit o s).cxl = s.cxl := rfl
@[simp] theorem emit_grants (o : Out) (s : State) : (emit o s).grants = s.grants := rfl
@[simp] theorem emit_luns (o : Out) (s : State) : (emit o s).luns = s.luns := rfl
@[simp] theorem emit_deadTargets (o : Out) (s : State) : (emit o s).deadTargets = s.deadTargets := rfl
@[simp] theorem emit_nand (o : Out) (s : State) : (emit o s).nand = s.nand := rfl
@[simp] theorem emit_programmed (o : Out) (s : State) : (emit o s).programmed = s.programmed := rfl
@[simp] theorem emit_silent (o : Out) (s : State) : (emit o s).silent = s.silent := rfl
@[simp] theorem emit_tail (o : Out) (s : State) : (emit o s).tail = s.tail := rfl
@[simp] theorem emit_wb (o : Out) (s : State) : (emit o s).wb = s.wb := rfl
@[simp] theorem emit_placeQ (o : Out) (s : State) : (emit o s).placeQ = s.placeQ := rfl
@[simp] theorem emit_nextReq (o : Out) (s : State) : (emit o s).nextReq = s.nextReq := rfl
@[simp] theorem emit_phaseQ (o : Out) (s : State) : (emit o s).phaseQ = s.phaseQ := rfl
@[simp] theorem emit_ctxs (o : Out) (s : State) : (emit o s).ctxs = s.ctxs := rfl
@[simp] theorem emit_logs (o : Out) (s : State) : (emit o s).logs = s.logs := rfl
@[simp] theorem emit_grids (o : Out) (s : State) : (emit o s).grids = s.grids := rfl
@[simp] theorem emit_nextGrid (o : Out) (s : State) : (emit o s).nextGrid = s.nextGrid := rfl
@[simp] theorem emit_blocks (o : Out) (s : State) : (emit o s).blocks = s.blocks := rfl
@[simp] theorem emit_waves (o : Out) (s : State) : (emit o s).waves = s.waves := rfl
@[simp] theorem emit_out (o : Out) (s : State) : (emit o s).out = s.out ++ [o] := rfl

/-! ### drawn -/

@[simp] theorem drawn_sched (s : State) : (drawn s).sched = { s.sched with freeNo := s.sched.freeNo + 1 } := rfl
@[simp] theorem drawn_time (s : State) : (drawn s).time = s.time := rfl
@[simp] theorem drawn_mem (s : State) : (drawn s).mem = s.mem := rfl
@[simp] theorem drawn_spoilt (s : State) : (drawn s).spoilt = s.spoilt := rfl
@[simp] theorem drawn_tags (s : State) : (drawn s).tags = s.tags := rfl
@[simp] theorem drawn_near (s : State) : (drawn s).near = s.near := rfl
@[simp] theorem drawn_tlb (s : State) : (drawn s).tlb = s.tlb := rfl
@[simp] theorem drawn_ctxTab (s : State) : (drawn s).ctxTab = s.ctxTab := rfl
@[simp] theorem drawn_cores (s : State) : (drawn s).cores = s.cores := rfl
@[simp] theorem drawn_parts (s : State) : (drawn s).parts = s.parts := rfl
@[simp] theorem drawn_pf (s : State) : (drawn s).pf = s.pf := rfl
@[simp] theorem drawn_vfs (s : State) : (drawn s).vfs = s.vfs := rfl
@[simp] theorem drawn_frozen (s : State) : (drawn s).frozen = s.frozen := rfl
@[simp] theorem drawn_fw (s : State) : (drawn s).fw = s.fw := rfl
@[simp] theorem drawn_idle (s : State) : (drawn s).idle = s.idle := rfl
@[simp] theorem drawn_links (s : State) : (drawn s).links = s.links := rfl
@[simp] theorem drawn_cxl (s : State) : (drawn s).cxl = s.cxl := rfl
@[simp] theorem drawn_grants (s : State) : (drawn s).grants = s.grants := rfl
@[simp] theorem drawn_luns (s : State) : (drawn s).luns = s.luns := rfl
@[simp] theorem drawn_deadTargets (s : State) : (drawn s).deadTargets = s.deadTargets := rfl
@[simp] theorem drawn_nand (s : State) : (drawn s).nand = s.nand := rfl
@[simp] theorem drawn_programmed (s : State) : (drawn s).programmed = s.programmed := rfl
@[simp] theorem drawn_silent (s : State) : (drawn s).silent = s.silent := rfl
@[simp] theorem drawn_tail (s : State) : (drawn s).tail = s.tail := rfl
@[simp] theorem drawn_wb (s : State) : (drawn s).wb = s.wb := rfl
@[simp] theorem drawn_placeQ (s : State) : (drawn s).placeQ = s.placeQ := rfl
@[simp] theorem drawn_nextReq (s : State) : (drawn s).nextReq = s.nextReq := rfl
@[simp] theorem drawn_phaseQ (s : State) : (drawn s).phaseQ = s.phaseQ := rfl
@[simp] theorem drawn_ctxs (s : State) : (drawn s).ctxs = s.ctxs := rfl
@[simp] theorem drawn_logs (s : State) : (drawn s).logs = s.logs := rfl
@[simp] theorem drawn_grids (s : State) : (drawn s).grids = s.grids := rfl
@[simp] theorem drawn_nextGrid (s : State) : (drawn s).nextGrid = s.nextGrid := rfl
@[simp] theorem drawn_blocks (s : State) : (drawn s).blocks = s.blocks := rfl
@[simp] theorem drawn_waves (s : State) : (drawn s).waves = s.waves := rfl
@[simp] theorem drawn_out (s : State) : (drawn s).out = s.out := rfl

/-! ### issuing -/

@[simp] theorem issuing_sched (k : Nat) (s : State) : (issuing k s).sched = { s.sched with cur := some k } := rfl
@[simp] theorem issuing_time (k : Nat) (s : State) : (issuing k s).time = s.time := rfl
@[simp] theorem issuing_mem (k : Nat) (s : State) : (issuing k s).mem = s.mem := rfl
@[simp] theorem issuing_spoilt (k : Nat) (s : State) : (issuing k s).spoilt = s.spoilt := rfl
@[simp] theorem issuing_tags (k : Nat) (s : State) : (issuing k s).tags = s.tags := rfl
@[simp] theorem issuing_near (k : Nat) (s : State) : (issuing k s).near = s.near := rfl
@[simp] theorem issuing_tlb (k : Nat) (s : State) : (issuing k s).tlb = s.tlb := rfl
@[simp] theorem issuing_ctxTab (k : Nat) (s : State) : (issuing k s).ctxTab = s.ctxTab := rfl
@[simp] theorem issuing_cores (k : Nat) (s : State) : (issuing k s).cores = s.cores := rfl
@[simp] theorem issuing_parts (k : Nat) (s : State) : (issuing k s).parts = s.parts := rfl
@[simp] theorem issuing_pf (k : Nat) (s : State) : (issuing k s).pf = s.pf := rfl
@[simp] theorem issuing_vfs (k : Nat) (s : State) : (issuing k s).vfs = s.vfs := rfl
@[simp] theorem issuing_frozen (k : Nat) (s : State) : (issuing k s).frozen = s.frozen := rfl
@[simp] theorem issuing_fw (k : Nat) (s : State) : (issuing k s).fw = s.fw := rfl
@[simp] theorem issuing_idle (k : Nat) (s : State) : (issuing k s).idle = s.idle := rfl
@[simp] theorem issuing_links (k : Nat) (s : State) : (issuing k s).links = s.links := rfl
@[simp] theorem issuing_cxl (k : Nat) (s : State) : (issuing k s).cxl = s.cxl := rfl
@[simp] theorem issuing_grants (k : Nat) (s : State) : (issuing k s).grants = s.grants := rfl
@[simp] theorem issuing_luns (k : Nat) (s : State) : (issuing k s).luns = s.luns := rfl
@[simp] theorem issuing_deadTargets (k : Nat) (s : State) : (issuing k s).deadTargets = s.deadTargets := rfl
@[simp] theorem issuing_nand (k : Nat) (s : State) : (issuing k s).nand = s.nand := rfl
@[simp] theorem issuing_programmed (k : Nat) (s : State) : (issuing k s).programmed = s.programmed := rfl
@[simp] theorem issuing_silent (k : Nat) (s : State) : (issuing k s).silent = s.silent := rfl
@[simp] theorem issuing_tail (k : Nat) (s : State) : (issuing k s).tail = s.tail := rfl
@[simp] theorem issuing_wb (k : Nat) (s : State) : (issuing k s).wb = s.wb := rfl
@[simp] theorem issuing_placeQ (k : Nat) (s : State) : (issuing k s).placeQ = s.placeQ := rfl
@[simp] theorem issuing_nextReq (k : Nat) (s : State) : (issuing k s).nextReq = s.nextReq := rfl
@[simp] theorem issuing_phaseQ (k : Nat) (s : State) : (issuing k s).phaseQ = s.phaseQ := rfl
@[simp] theorem issuing_ctxs (k : Nat) (s : State) : (issuing k s).ctxs = s.ctxs := rfl
@[simp] theorem issuing_logs (k : Nat) (s : State) : (issuing k s).logs = s.logs := rfl
@[simp] theorem issuing_grids (k : Nat) (s : State) : (issuing k s).grids = s.grids := rfl
@[simp] theorem issuing_nextGrid (k : Nat) (s : State) : (issuing k s).nextGrid = s.nextGrid := rfl
@[simp] theorem issuing_blocks (k : Nat) (s : State) : (issuing k s).blocks = s.blocks := rfl
@[simp] theorem issuing_waves (k : Nat) (s : State) : (issuing k s).waves = s.waves := rfl
@[simp] theorem issuing_out (k : Nat) (s : State) : (issuing k s).out = s.out := rfl

/-! ### wake -/

@[simp] theorem wake_sched (s : State) : (wake s).sched = s.sched := rfl
@[simp] theorem wake_time (s : State) : (wake s).time = s.time := rfl
@[simp] theorem wake_mem (s : State) : (wake s).mem = s.mem := rfl
@[simp] theorem wake_spoilt (s : State) : (wake s).spoilt = s.spoilt := rfl
@[simp] theorem wake_tags (s : State) : (wake s).tags = s.tags := rfl
@[simp] theorem wake_near (s : State) : (wake s).near = s.near := rfl
@[simp] theorem wake_tlb (s : State) : (wake s).tlb = s.tlb := rfl
@[simp] theorem wake_ctxTab (s : State) : (wake s).ctxTab = s.ctxTab := rfl
@[simp] theorem wake_cores (s : State) : (wake s).cores = s.cores := rfl
@[simp] theorem wake_parts (s : State) : (wake s).parts = s.parts := rfl
@[simp] theorem wake_pf (s : State) : (wake s).pf = s.pf := rfl
@[simp] theorem wake_vfs (s : State) : (wake s).vfs = s.vfs := rfl
@[simp] theorem wake_frozen (s : State) : (wake s).frozen = s.frozen := rfl
@[simp] theorem wake_fw (s : State) : (wake s).fw = s.fw := rfl
@[simp] theorem wake_idle (s : State) : (wake s).idle = 0 := rfl
@[simp] theorem wake_links (s : State) : (wake s).links = s.links := rfl
@[simp] theorem wake_cxl (s : State) : (wake s).cxl = s.cxl := rfl
@[simp] theorem wake_grants (s : State) : (wake s).grants = s.grants := rfl
@[simp] theorem wake_luns (s : State) : (wake s).luns = s.luns := rfl
@[simp] theorem wake_deadTargets (s : State) : (wake s).deadTargets = s.deadTargets := rfl
@[simp] theorem wake_nand (s : State) : (wake s).nand = s.nand := rfl
@[simp] theorem wake_programmed (s : State) : (wake s).programmed = s.programmed := rfl
@[simp] theorem wake_silent (s : State) : (wake s).silent = s.silent := rfl
@[simp] theorem wake_tail (s : State) : (wake s).tail = s.tail := rfl
@[simp] theorem wake_wb (s : State) : (wake s).wb = s.wb := rfl
@[simp] theorem wake_placeQ (s : State) : (wake s).placeQ = s.placeQ := rfl
@[simp] theorem wake_nextReq (s : State) : (wake s).nextReq = s.nextReq := rfl
@[simp] theorem wake_phaseQ (s : State) : (wake s).phaseQ = s.phaseQ := rfl
@[simp] theorem wake_ctxs (s : State) : (wake s).ctxs = s.ctxs := rfl
@[simp] theorem wake_logs (s : State) : (wake s).logs = s.logs := rfl
@[simp] theorem wake_grids (s : State) : (wake s).grids = s.grids := rfl
@[simp] theorem wake_nextGrid (s : State) : (wake s).nextGrid = s.nextGrid := rfl
@[simp] theorem wake_blocks (s : State) : (wake s).blocks = s.blocks := rfl
@[simp] theorem wake_waves (s : State) : (wake s).waves = s.waves := rfl
@[simp] theorem wake_out (s : State) : (wake s).out = s.out := rfl

/-! ### setTag -/

@[simp] theorem setTag_sched (p t : Nat) (s : State) : (setTag p t s).sched = s.sched := rfl
@[simp] theorem setTag_time (p t : Nat) (s : State) : (setTag p t s).time = s.time := rfl
@[simp] theorem setTag_mem (p t : Nat) (s : State) : (setTag p t s).mem = s.mem := rfl
@[simp] theorem setTag_spoilt (p t : Nat) (s : State) : (setTag p t s).spoilt = s.spoilt := rfl
@[simp] theorem setTag_tags (p t : Nat) (s : State) : (setTag p t s).tags = mset 0 s.tags (p / 32) (BitVec.ofNat 4 t) := rfl
@[simp] theorem setTag_near (p t : Nat) (s : State) : (setTag p t s).near = s.near := rfl
@[simp] theorem setTag_tlb (p t : Nat) (s : State) : (setTag p t s).tlb = s.tlb := rfl
@[simp] theorem setTag_ctxTab (p t : Nat) (s : State) : (setTag p t s).ctxTab = s.ctxTab := rfl
@[simp] theorem setTag_cores (p t : Nat) (s : State) : (setTag p t s).cores = s.cores := rfl
@[simp] theorem setTag_parts (p t : Nat) (s : State) : (setTag p t s).parts = s.parts := rfl
@[simp] theorem setTag_pf (p t : Nat) (s : State) : (setTag p t s).pf = s.pf := rfl
@[simp] theorem setTag_vfs (p t : Nat) (s : State) : (setTag p t s).vfs = s.vfs := rfl
@[simp] theorem setTag_frozen (p t : Nat) (s : State) : (setTag p t s).frozen = s.frozen := rfl
@[simp] theorem setTag_fw (p t : Nat) (s : State) : (setTag p t s).fw = s.fw := rfl
@[simp] theorem setTag_idle (p t : Nat) (s : State) : (setTag p t s).idle = s.idle := rfl
@[simp] theorem setTag_links (p t : Nat) (s : State) : (setTag p t s).links = s.links := rfl
@[simp] theorem setTag_cxl (p t : Nat) (s : State) : (setTag p t s).cxl = s.cxl := rfl
@[simp] theorem setTag_grants (p t : Nat) (s : State) : (setTag p t s).grants = s.grants := rfl
@[simp] theorem setTag_luns (p t : Nat) (s : State) : (setTag p t s).luns = s.luns := rfl
@[simp] theorem setTag_deadTargets (p t : Nat) (s : State) : (setTag p t s).deadTargets = s.deadTargets := rfl
@[simp] theorem setTag_nand (p t : Nat) (s : State) : (setTag p t s).nand = s.nand := rfl
@[simp] theorem setTag_programmed (p t : Nat) (s : State) : (setTag p t s).programmed = s.programmed := rfl
@[simp] theorem setTag_silent (p t : Nat) (s : State) : (setTag p t s).silent = s.silent := rfl
@[simp] theorem setTag_tail (p t : Nat) (s : State) : (setTag p t s).tail = s.tail := rfl
@[simp] theorem setTag_wb (p t : Nat) (s : State) : (setTag p t s).wb = s.wb := rfl
@[simp] theorem setTag_placeQ (p t : Nat) (s : State) : (setTag p t s).placeQ = s.placeQ := rfl
@[simp] theorem setTag_nextReq (p t : Nat) (s : State) : (setTag p t s).nextReq = s.nextReq := rfl
@[simp] theorem setTag_phaseQ (p t : Nat) (s : State) : (setTag p t s).phaseQ = s.phaseQ := rfl
@[simp] theorem setTag_ctxs (p t : Nat) (s : State) : (setTag p t s).ctxs = s.ctxs := rfl
@[simp] theorem setTag_logs (p t : Nat) (s : State) : (setTag p t s).logs = s.logs := rfl
@[simp] theorem setTag_grids (p t : Nat) (s : State) : (setTag p t s).grids = s.grids := rfl
@[simp] theorem setTag_nextGrid (p t : Nat) (s : State) : (setTag p t s).nextGrid = s.nextGrid := rfl
@[simp] theorem setTag_blocks (p t : Nat) (s : State) : (setTag p t s).blocks = s.blocks := rfl
@[simp] theorem setTag_waves (p t : Nat) (s : State) : (setTag p t s).waves = s.waves := rfl
@[simp] theorem setTag_out (p t : Nat) (s : State) : (setTag p t s).out = s.out := rfl

/-! ### modWave -/

@[simp] theorem modWave_sched (k : Nat) (f : Wave → Wave) (s : State) : (modWave k f s).sched = s.sched := by unfold modWave; split <;> rfl
@[simp] theorem modWave_time (k : Nat) (f : Wave → Wave) (s : State) : (modWave k f s).time = s.time := by unfold modWave; split <;> rfl
@[simp] theorem modWave_mem (k : Nat) (f : Wave → Wave) (s : State) : (modWave k f s).mem = s.mem := by unfold modWave; split <;> rfl
@[simp] theorem modWave_spoilt (k : Nat) (f : Wave → Wave) (s : State) : (modWave k f s).spoilt = s.spoilt := by unfold modWave; split <;> rfl
@[simp] theorem modWave_tags (k : Nat) (f : Wave → Wave) (s : State) : (modWave k f s).tags = s.tags := by unfold modWave; split <;> rfl
@[simp] theorem modWave_near (k : Nat) (f : Wave → Wave) (s : State) : (modWave k f s).near = s.near := by unfold modWave; split <;> rfl
@[simp] theorem modWave_tlb (k : Nat) (f : Wave → Wave) (s : State) : (modWave k f s).tlb = s.tlb := by unfold modWave; split <;> rfl
@[simp] theorem modWave_ctxTab (k : Nat) (f : Wave → Wave) (s : State) : (modWave k f s).ctxTab = s.ctxTab := by unfold modWave; split <;> rfl
@[simp] theorem modWave_cores (k : Nat) (f : Wave → Wave) (s : State) : (modWave k f s).cores = s.cores := by unfold modWave; split <;> rfl
@[simp] theorem modWave_parts (k : Nat) (f : Wave → Wave) (s : State) : (modWave k f s).parts = s.parts := by unfold modWave; split <;> rfl
@[simp] theorem modWave_pf (k : Nat) (f : Wave → Wave) (s : State) : (modWave k f s).pf = s.pf := by unfold modWave; split <;> rfl
@[simp] theorem modWave_vfs (k : Nat) (f : Wave → Wave) (s : State) : (modWave k f s).vfs = s.vfs := by unfold modWave; split <;> rfl
@[simp] theorem modWave_frozen (k : Nat) (f : Wave → Wave) (s : State) : (modWave k f s).frozen = s.frozen := by unfold modWave; split <;> rfl
@[simp] theorem modWave_fw (k : Nat) (f : Wave → Wave) (s : State) : (modWave k f s).fw = s.fw := by unfold modWave; split <;> rfl
@[simp] theorem modWave_idle (k : Nat) (f : Wave → Wave) (s : State) : (modWave k f s).idle = s.idle := by unfold modWave; split <;> rfl
@[simp] theorem modWave_links (k : Nat) (f : Wave → Wave) (s : State) : (modWave k f s).links = s.links := by unfold modWave; split <;> rfl
@[simp] theorem modWave_cxl (k : Nat) (f : Wave → Wave) (s : State) : (modWave k f s).cxl = s.cxl := by unfold modWave; split <;> rfl
@[simp] theorem modWave_grants (k : Nat) (f : Wave → Wave) (s : State) : (modWave k f s).grants = s.grants := by unfold modWave; split <;> rfl
@[simp] theorem modWave_luns (k : Nat) (f : Wave → Wave) (s : State) : (modWave k f s).luns = s.luns := by unfold modWave; split <;> rfl
@[simp] theorem modWave_deadTargets (k : Nat) (f : Wave → Wave) (s : State) : (modWave k f s).deadTargets = s.deadTargets := by unfold modWave; split <;> rfl
@[simp] theorem modWave_nand (k : Nat) (f : Wave → Wave) (s : State) : (modWave k f s).nand = s.nand := by unfold modWave; split <;> rfl
@[simp] theorem modWave_programmed (k : Nat) (f : Wave → Wave) (s : State) : (modWave k f s).programmed = s.programmed := by unfold modWave; split <;> rfl
@[simp] theorem modWave_silent (k : Nat) (f : Wave → Wave) (s : State) : (modWave k f s).silent = s.silent := by unfold modWave; split <;> rfl
@[simp] theorem modWave_tail (k : Nat) (f : Wave → Wave) (s : State) : (modWave k f s).tail = s.tail := by unfold modWave; split <;> rfl
@[simp] theorem modWave_wb (k : Nat) (f : Wave → Wave) (s : State) : (modWave k f s).wb = s.wb := by unfold modWave; split <;> rfl
@[simp] theorem modWave_placeQ (k : Nat) (f : Wave → Wave) (s : State) : (modWave k f s).placeQ = s.placeQ := by unfold modWave; split <;> rfl
@[simp] theorem modWave_nextReq (k : Nat) (f : Wave → Wave) (s : State) : (modWave k f s).nextReq = s.nextReq := by unfold modWave; split <;> rfl
@[simp] theorem modWave_phaseQ (k : Nat) (f : Wave → Wave) (s : State) : (modWave k f s).phaseQ = s.phaseQ := by unfold modWave; split <;> rfl
@[simp] theorem modWave_ctxs (k : Nat) (f : Wave → Wave) (s : State) : (modWave k f s).ctxs = s.ctxs := by unfold modWave; split <;> rfl
@[simp] theorem modWave_logs (k : Nat) (f : Wave → Wave) (s : State) : (modWave k f s).logs = s.logs := by unfold modWave; split <;> rfl
@[simp] theorem modWave_grids (k : Nat) (f : Wave → Wave) (s : State) : (modWave k f s).grids = s.grids := by unfold modWave; split <;> rfl
@[simp] theorem modWave_nextGrid (k : Nat) (f : Wave → Wave) (s : State) : (modWave k f s).nextGrid = s.nextGrid := by unfold modWave; split <;> rfl
@[simp] theorem modWave_blocks (k : Nat) (f : Wave → Wave) (s : State) : (modWave k f s).blocks = s.blocks := by unfold modWave; split <;> rfl
@[simp] theorem modWave_out (k : Nat) (f : Wave → Wave) (s : State) : (modWave k f s).out = s.out := by unfold modWave; split <;> rfl

/-! ### modBlock -/

@[simp] theorem modBlock_sched (k : Nat) (f : Block → Block) (s : State) : (modBlock k f s).sched = s.sched := by unfold modBlock; split <;> rfl
@[simp] theorem modBlock_time (k : Nat) (f : Block → Block) (s : State) : (modBlock k f s).time = s.time := by unfold modBlock; split <;> rfl
@[simp] theorem modBlock_mem (k : Nat) (f : Block → Block) (s : State) : (modBlock k f s).mem = s.mem := by unfold modBlock; split <;> rfl
@[simp] theorem modBlock_spoilt (k : Nat) (f : Block → Block) (s : State) : (modBlock k f s).spoilt = s.spoilt := by unfold modBlock; split <;> rfl
@[simp] theorem modBlock_tags (k : Nat) (f : Block → Block) (s : State) : (modBlock k f s).tags = s.tags := by unfold modBlock; split <;> rfl
@[simp] theorem modBlock_near (k : Nat) (f : Block → Block) (s : State) : (modBlock k f s).near = s.near := by unfold modBlock; split <;> rfl
@[simp] theorem modBlock_tlb (k : Nat) (f : Block → Block) (s : State) : (modBlock k f s).tlb = s.tlb := by unfold modBlock; split <;> rfl
@[simp] theorem modBlock_ctxTab (k : Nat) (f : Block → Block) (s : State) : (modBlock k f s).ctxTab = s.ctxTab := by unfold modBlock; split <;> rfl
@[simp] theorem modBlock_cores (k : Nat) (f : Block → Block) (s : State) : (modBlock k f s).cores = s.cores := by unfold modBlock; split <;> rfl
@[simp] theorem modBlock_parts (k : Nat) (f : Block → Block) (s : State) : (modBlock k f s).parts = s.parts := by unfold modBlock; split <;> rfl
@[simp] theorem modBlock_pf (k : Nat) (f : Block → Block) (s : State) : (modBlock k f s).pf = s.pf := by unfold modBlock; split <;> rfl
@[simp] theorem modBlock_vfs (k : Nat) (f : Block → Block) (s : State) : (modBlock k f s).vfs = s.vfs := by unfold modBlock; split <;> rfl
@[simp] theorem modBlock_frozen (k : Nat) (f : Block → Block) (s : State) : (modBlock k f s).frozen = s.frozen := by unfold modBlock; split <;> rfl
@[simp] theorem modBlock_fw (k : Nat) (f : Block → Block) (s : State) : (modBlock k f s).fw = s.fw := by unfold modBlock; split <;> rfl
@[simp] theorem modBlock_idle (k : Nat) (f : Block → Block) (s : State) : (modBlock k f s).idle = s.idle := by unfold modBlock; split <;> rfl
@[simp] theorem modBlock_links (k : Nat) (f : Block → Block) (s : State) : (modBlock k f s).links = s.links := by unfold modBlock; split <;> rfl
@[simp] theorem modBlock_cxl (k : Nat) (f : Block → Block) (s : State) : (modBlock k f s).cxl = s.cxl := by unfold modBlock; split <;> rfl
@[simp] theorem modBlock_grants (k : Nat) (f : Block → Block) (s : State) : (modBlock k f s).grants = s.grants := by unfold modBlock; split <;> rfl
@[simp] theorem modBlock_luns (k : Nat) (f : Block → Block) (s : State) : (modBlock k f s).luns = s.luns := by unfold modBlock; split <;> rfl
@[simp] theorem modBlock_deadTargets (k : Nat) (f : Block → Block) (s : State) : (modBlock k f s).deadTargets = s.deadTargets := by unfold modBlock; split <;> rfl
@[simp] theorem modBlock_nand (k : Nat) (f : Block → Block) (s : State) : (modBlock k f s).nand = s.nand := by unfold modBlock; split <;> rfl
@[simp] theorem modBlock_programmed (k : Nat) (f : Block → Block) (s : State) : (modBlock k f s).programmed = s.programmed := by unfold modBlock; split <;> rfl
@[simp] theorem modBlock_silent (k : Nat) (f : Block → Block) (s : State) : (modBlock k f s).silent = s.silent := by unfold modBlock; split <;> rfl
@[simp] theorem modBlock_tail (k : Nat) (f : Block → Block) (s : State) : (modBlock k f s).tail = s.tail := by unfold modBlock; split <;> rfl
@[simp] theorem modBlock_wb (k : Nat) (f : Block → Block) (s : State) : (modBlock k f s).wb = s.wb := by unfold modBlock; split <;> rfl
@[simp] theorem modBlock_placeQ (k : Nat) (f : Block → Block) (s : State) : (modBlock k f s).placeQ = s.placeQ := by unfold modBlock; split <;> rfl
@[simp] theorem modBlock_nextReq (k : Nat) (f : Block → Block) (s : State) : (modBlock k f s).nextReq = s.nextReq := by unfold modBlock; split <;> rfl
@[simp] theorem modBlock_phaseQ (k : Nat) (f : Block → Block) (s : State) : (modBlock k f s).phaseQ = s.phaseQ := by unfold modBlock; split <;> rfl
@[simp] theorem modBlock_ctxs (k : Nat) (f : Block → Block) (s : State) : (modBlock k f s).ctxs = s.ctxs := by unfold modBlock; split <;> rfl
@[simp] theorem modBlock_logs (k : Nat) (f : Block → Block) (s : State) : (modBlock k f s).logs = s.logs := by unfold modBlock; split <;> rfl
@[simp] theorem modBlock_grids (k : Nat) (f : Block → Block) (s : State) : (modBlock k f s).grids = s.grids := by unfold modBlock; split <;> rfl
@[simp] theorem modBlock_nextGrid (k : Nat) (f : Block → Block) (s : State) : (modBlock k f s).nextGrid = s.nextGrid := by unfold modBlock; split <;> rfl
@[simp] theorem modBlock_waves (k : Nat) (f : Block → Block) (s : State) : (modBlock k f s).waves = s.waves := by unfold modBlock; split <;> rfl
@[simp] theorem modBlock_out (k : Nat) (f : Block → Block) (s : State) : (modBlock k f s).out = s.out := by unfold modBlock; split <;> rfl

/-! ### modGrid -/

@[simp] theorem modGrid_sched (k : Nat) (f : Grid → Grid) (s : State) : (modGrid k f s).sched = s.sched := by unfold modGrid; split <;> rfl
@[simp] theorem modGrid_time (k : Nat) (f : Grid → Grid) (s : State) : (modGrid k f s).time = s.time := by unfold modGrid; split <;> rfl
@[simp] theorem modGrid_mem (k : Nat) (f : Grid → Grid) (s : State) : (modGrid k f s).mem = s.mem := by unfold modGrid; split <;> rfl
@[simp] theorem modGrid_spoilt (k : Nat) (f : Grid → Grid) (s : State) : (modGrid k f s).spoilt = s.spoilt := by unfold modGrid; split <;> rfl
@[simp] theorem modGrid_tags (k : Nat) (f : Grid → Grid) (s : State) : (modGrid k f s).tags = s.tags := by unfold modGrid; split <;> rfl
@[simp] theorem modGrid_near (k : Nat) (f : Grid → Grid) (s : State) : (modGrid k f s).near = s.near := by unfold modGrid; split <;> rfl
@[simp] theorem modGrid_tlb (k : Nat) (f : Grid → Grid) (s : State) : (modGrid k f s).tlb = s.tlb := by unfold modGrid; split <;> rfl
@[simp] theorem modGrid_ctxTab (k : Nat) (f : Grid → Grid) (s : State) : (modGrid k f s).ctxTab = s.ctxTab := by unfold modGrid; split <;> rfl
@[simp] theorem modGrid_cores (k : Nat) (f : Grid → Grid) (s : State) : (modGrid k f s).cores = s.cores := by unfold modGrid; split <;> rfl
@[simp] theorem modGrid_parts (k : Nat) (f : Grid → Grid) (s : State) : (modGrid k f s).parts = s.parts := by unfold modGrid; split <;> rfl
@[simp] theorem modGrid_pf (k : Nat) (f : Grid → Grid) (s : State) : (modGrid k f s).pf = s.pf := by unfold modGrid; split <;> rfl
@[simp] theorem modGrid_vfs (k : Nat) (f : Grid → Grid) (s : State) : (modGrid k f s).vfs = s.vfs := by unfold modGrid; split <;> rfl
@[simp] theorem modGrid_frozen (k : Nat) (f : Grid → Grid) (s : State) : (modGrid k f s).frozen = s.frozen := by unfold modGrid; split <;> rfl
@[simp] theorem modGrid_fw (k : Nat) (f : Grid → Grid) (s : State) : (modGrid k f s).fw = s.fw := by unfold modGrid; split <;> rfl
@[simp] theorem modGrid_idle (k : Nat) (f : Grid → Grid) (s : State) : (modGrid k f s).idle = s.idle := by unfold modGrid; split <;> rfl
@[simp] theorem modGrid_links (k : Nat) (f : Grid → Grid) (s : State) : (modGrid k f s).links = s.links := by unfold modGrid; split <;> rfl
@[simp] theorem modGrid_cxl (k : Nat) (f : Grid → Grid) (s : State) : (modGrid k f s).cxl = s.cxl := by unfold modGrid; split <;> rfl
@[simp] theorem modGrid_grants (k : Nat) (f : Grid → Grid) (s : State) : (modGrid k f s).grants = s.grants := by unfold modGrid; split <;> rfl
@[simp] theorem modGrid_luns (k : Nat) (f : Grid → Grid) (s : State) : (modGrid k f s).luns = s.luns := by unfold modGrid; split <;> rfl
@[simp] theorem modGrid_deadTargets (k : Nat) (f : Grid → Grid) (s : State) : (modGrid k f s).deadTargets = s.deadTargets := by unfold modGrid; split <;> rfl
@[simp] theorem modGrid_nand (k : Nat) (f : Grid → Grid) (s : State) : (modGrid k f s).nand = s.nand := by unfold modGrid; split <;> rfl
@[simp] theorem modGrid_programmed (k : Nat) (f : Grid → Grid) (s : State) : (modGrid k f s).programmed = s.programmed := by unfold modGrid; split <;> rfl
@[simp] theorem modGrid_silent (k : Nat) (f : Grid → Grid) (s : State) : (modGrid k f s).silent = s.silent := by unfold modGrid; split <;> rfl
@[simp] theorem modGrid_tail (k : Nat) (f : Grid → Grid) (s : State) : (modGrid k f s).tail = s.tail := by unfold modGrid; split <;> rfl
@[simp] theorem modGrid_wb (k : Nat) (f : Grid → Grid) (s : State) : (modGrid k f s).wb = s.wb := by unfold modGrid; split <;> rfl
@[simp] theorem modGrid_placeQ (k : Nat) (f : Grid → Grid) (s : State) : (modGrid k f s).placeQ = s.placeQ := by unfold modGrid; split <;> rfl
@[simp] theorem modGrid_nextReq (k : Nat) (f : Grid → Grid) (s : State) : (modGrid k f s).nextReq = s.nextReq := by unfold modGrid; split <;> rfl
@[simp] theorem modGrid_phaseQ (k : Nat) (f : Grid → Grid) (s : State) : (modGrid k f s).phaseQ = s.phaseQ := by unfold modGrid; split <;> rfl
@[simp] theorem modGrid_ctxs (k : Nat) (f : Grid → Grid) (s : State) : (modGrid k f s).ctxs = s.ctxs := by unfold modGrid; split <;> rfl
@[simp] theorem modGrid_logs (k : Nat) (f : Grid → Grid) (s : State) : (modGrid k f s).logs = s.logs := by unfold modGrid; split <;> rfl
@[simp] theorem modGrid_nextGrid (k : Nat) (f : Grid → Grid) (s : State) : (modGrid k f s).nextGrid = s.nextGrid := by unfold modGrid; split <;> rfl
@[simp] theorem modGrid_blocks (k : Nat) (f : Grid → Grid) (s : State) : (modGrid k f s).blocks = s.blocks := by unfold modGrid; split <;> rfl
@[simp] theorem modGrid_waves (k : Nat) (f : Grid → Grid) (s : State) : (modGrid k f s).waves = s.waves := by unfold modGrid; split <;> rfl
@[simp] theorem modGrid_out (k : Nat) (f : Grid → Grid) (s : State) : (modGrid k f s).out = s.out := by unfold modGrid; split <;> rfl

/-! ### modCtx -/

@[simp] theorem modCtx_sched (k : Nat) (f : Ctx → Ctx) (s : State) : (modCtx k f s).sched = s.sched := by unfold modCtx; split <;> rfl
@[simp] theorem modCtx_time (k : Nat) (f : Ctx → Ctx) (s : State) : (modCtx k f s).time = s.time := by unfold modCtx; split <;> rfl
@[simp] theorem modCtx_mem (k : Nat) (f : Ctx → Ctx) (s : State) : (modCtx k f s).mem = s.mem := by unfold modCtx; split <;> rfl
@[simp] theorem modCtx_spoilt (k : Nat) (f : Ctx → Ctx) (s : State) : (modCtx k f s).spoilt = s.spoilt := by unfold modCtx; split <;> rfl
@[simp] theorem modCtx_tags (k : Nat) (f : Ctx → Ctx) (s : State) : (modCtx k f s).tags = s.tags := by unfold modCtx; split <;> rfl
@[simp] theorem modCtx_near (k : Nat) (f : Ctx → Ctx) (s : State) : (modCtx k f s).near = s.near := by unfold modCtx; split <;> rfl
@[simp] theorem modCtx_tlb (k : Nat) (f : Ctx → Ctx) (s : State) : (modCtx k f s).tlb = s.tlb := by unfold modCtx; split <;> rfl
@[simp] theorem modCtx_ctxTab (k : Nat) (f : Ctx → Ctx) (s : State) : (modCtx k f s).ctxTab = s.ctxTab := by unfold modCtx; split <;> rfl
@[simp] theorem modCtx_cores (k : Nat) (f : Ctx → Ctx) (s : State) : (modCtx k f s).cores = s.cores := by unfold modCtx; split <;> rfl
@[simp] theorem modCtx_parts (k : Nat) (f : Ctx → Ctx) (s : State) : (modCtx k f s).parts = s.parts := by unfold modCtx; split <;> rfl
@[simp] theorem modCtx_pf (k : Nat) (f : Ctx → Ctx) (s : State) : (modCtx k f s).pf = s.pf := by unfold modCtx; split <;> rfl
@[simp] theorem modCtx_vfs (k : Nat) (f : Ctx → Ctx) (s : State) : (modCtx k f s).vfs = s.vfs := by unfold modCtx; split <;> rfl
@[simp] theorem modCtx_frozen (k : Nat) (f : Ctx → Ctx) (s : State) : (modCtx k f s).frozen = s.frozen := by unfold modCtx; split <;> rfl
@[simp] theorem modCtx_fw (k : Nat) (f : Ctx → Ctx) (s : State) : (modCtx k f s).fw = s.fw := by unfold modCtx; split <;> rfl
@[simp] theorem modCtx_idle (k : Nat) (f : Ctx → Ctx) (s : State) : (modCtx k f s).idle = s.idle := by unfold modCtx; split <;> rfl
@[simp] theorem modCtx_links (k : Nat) (f : Ctx → Ctx) (s : State) : (modCtx k f s).links = s.links := by unfold modCtx; split <;> rfl
@[simp] theorem modCtx_cxl (k : Nat) (f : Ctx → Ctx) (s : State) : (modCtx k f s).cxl = s.cxl := by unfold modCtx; split <;> rfl
@[simp] theorem modCtx_grants (k : Nat) (f : Ctx → Ctx) (s : State) : (modCtx k f s).grants = s.grants := by unfold modCtx; split <;> rfl
@[simp] theorem modCtx_luns (k : Nat) (f : Ctx → Ctx) (s : State) : (modCtx k f s).luns = s.luns := by unfold modCtx; split <;> rfl
@[simp] theorem modCtx_deadTargets (k : Nat) (f : Ctx → Ctx) (s : State) : (modCtx k f s).deadTargets = s.deadTargets := by unfold modCtx; split <;> rfl
@[simp] theorem modCtx_nand (k : Nat) (f : Ctx → Ctx) (s : State) : (modCtx k f s).nand = s.nand := by unfold modCtx; split <;> rfl
@[simp] theorem modCtx_programmed (k : Nat) (f : Ctx → Ctx) (s : State) : (modCtx k f s).programmed = s.programmed := by unfold modCtx; split <;> rfl
@[simp] theorem modCtx_silent (k : Nat) (f : Ctx → Ctx) (s : State) : (modCtx k f s).silent = s.silent := by unfold modCtx; split <;> rfl
@[simp] theorem modCtx_tail (k : Nat) (f : Ctx → Ctx) (s : State) : (modCtx k f s).tail = s.tail := by unfold modCtx; split <;> rfl
@[simp] theorem modCtx_wb (k : Nat) (f : Ctx → Ctx) (s : State) : (modCtx k f s).wb = s.wb := by unfold modCtx; split <;> rfl
@[simp] theorem modCtx_placeQ (k : Nat) (f : Ctx → Ctx) (s : State) : (modCtx k f s).placeQ = s.placeQ := by unfold modCtx; split <;> rfl
@[simp] theorem modCtx_nextReq (k : Nat) (f : Ctx → Ctx) (s : State) : (modCtx k f s).nextReq = s.nextReq := by unfold modCtx; split <;> rfl
@[simp] theorem modCtx_phaseQ (k : Nat) (f : Ctx → Ctx) (s : State) : (modCtx k f s).phaseQ = s.phaseQ := by unfold modCtx; split <;> rfl
@[simp] theorem modCtx_logs (k : Nat) (f : Ctx → Ctx) (s : State) : (modCtx k f s).logs = s.logs := by unfold modCtx; split <;> rfl
@[simp] theorem modCtx_grids (k : Nat) (f : Ctx → Ctx) (s : State) : (modCtx k f s).grids = s.grids := by unfold modCtx; split <;> rfl
@[simp] theorem modCtx_nextGrid (k : Nat) (f : Ctx → Ctx) (s : State) : (modCtx k f s).nextGrid = s.nextGrid := by unfold modCtx; split <;> rfl
@[simp] theorem modCtx_blocks (k : Nat) (f : Ctx → Ctx) (s : State) : (modCtx k f s).blocks = s.blocks := by unfold modCtx; split <;> rfl
@[simp] theorem modCtx_waves (k : Nat) (f : Ctx → Ctx) (s : State) : (modCtx k f s).waves = s.waves := by unfold modCtx; split <;> rfl
@[simp] theorem modCtx_out (k : Nat) (f : Ctx → Ctx) (s : State) : (modCtx k f s).out = s.out := by unfold modCtx; split <;> rfl

/-! ### touchLines -/

@[simp] theorem touchLines_sched (p n : Nat) (s : State) : (touchLines p n s).sched = s.sched := by unfold touchLines; split <;> rfl
@[simp] theorem touchLines_time (p n : Nat) (s : State) : (touchLines p n s).time = s.time := by unfold touchLines; split <;> rfl
@[simp] theorem touchLines_mem (p n : Nat) (s : State) : (touchLines p n s).mem = s.mem := by unfold touchLines; split <;> rfl
@[simp] theorem touchLines_spoilt (p n : Nat) (s : State) : (touchLines p n s).spoilt = s.spoilt := by unfold touchLines; split <;> rfl
@[simp] theorem touchLines_tags (p n : Nat) (s : State) : (touchLines p n s).tags = s.tags := by unfold touchLines; split <;> rfl
@[simp] theorem touchLines_tlb (p n : Nat) (s : State) : (touchLines p n s).tlb = s.tlb := by unfold touchLines; split <;> rfl
@[simp] theorem touchLines_ctxTab (p n : Nat) (s : State) : (touchLines p n s).ctxTab = s.ctxTab := by unfold touchLines; split <;> rfl
@[simp] theorem touchLines_cores (p n : Nat) (s : State) : (touchLines p n s).cores = s.cores := by unfold touchLines; split <;> rfl
@[simp] theorem touchLines_parts (p n : Nat) (s : State) : (touchLines p n s).parts = s.parts := by unfold touchLines; split <;> rfl
@[simp] theorem touchLines_pf (p n : Nat) (s : State) : (touchLines p n s).pf = s.pf := by unfold touchLines; split <;> rfl
@[simp] theorem touchLines_vfs (p n : Nat) (s : State) : (touchLines p n s).vfs = s.vfs := by unfold touchLines; split <;> rfl
@[simp] theorem touchLines_frozen (p n : Nat) (s : State) : (touchLines p n s).frozen = s.frozen := by unfold touchLines; split <;> rfl
@[simp] theorem touchLines_fw (p n : Nat) (s : State) : (touchLines p n s).fw = s.fw := by unfold touchLines; split <;> rfl
@[simp] theorem touchLines_idle (p n : Nat) (s : State) : (touchLines p n s).idle = s.idle := by unfold touchLines; split <;> rfl
@[simp] theorem touchLines_links (p n : Nat) (s : State) : (touchLines p n s).links = s.links := by unfold touchLines; split <;> rfl
@[simp] theorem touchLines_cxl (p n : Nat) (s : State) : (touchLines p n s).cxl = s.cxl := by unfold touchLines; split <;> rfl
@[simp] theorem touchLines_grants (p n : Nat) (s : State) : (touchLines p n s).grants = s.grants := by unfold touchLines; split <;> rfl
@[simp] theorem touchLines_luns (p n : Nat) (s : State) : (touchLines p n s).luns = s.luns := by unfold touchLines; split <;> rfl
@[simp] theorem touchLines_deadTargets (p n : Nat) (s : State) : (touchLines p n s).deadTargets = s.deadTargets := by unfold touchLines; split <;> rfl
@[simp] theorem touchLines_nand (p n : Nat) (s : State) : (touchLines p n s).nand = s.nand := by unfold touchLines; split <;> rfl
@[simp] theorem touchLines_programmed (p n : Nat) (s : State) : (touchLines p n s).programmed = s.programmed := by unfold touchLines; split <;> rfl
@[simp] theorem touchLines_silent (p n : Nat) (s : State) : (touchLines p n s).silent = s.silent := by unfold touchLines; split <;> rfl
@[simp] theorem touchLines_tail (p n : Nat) (s : State) : (touchLines p n s).tail = s.tail := by unfold touchLines; split <;> rfl
@[simp] theorem touchLines_wb (p n : Nat) (s : State) : (touchLines p n s).wb = s.wb := by unfold touchLines; split <;> rfl
@[simp] theorem touchLines_placeQ (p n : Nat) (s : State) : (touchLines p n s).placeQ = s.placeQ := by unfold touchLines; split <;> rfl
@[simp] theorem touchLines_nextReq (p n : Nat) (s : State) : (touchLines p n s).nextReq = s.nextReq := by unfold touchLines; split <;> rfl
@[simp] theorem touchLines_phaseQ (p n : Nat) (s : State) : (touchLines p n s).phaseQ = s.phaseQ := by unfold touchLines; split <;> rfl
@[simp] theorem touchLines_ctxs (p n : Nat) (s : State) : (touchLines p n s).ctxs = s.ctxs := by unfold touchLines; split <;> rfl
@[simp] theorem touchLines_logs (p n : Nat) (s : State) : (touchLines p n s).logs = s.logs := by unfold touchLines; split <;> rfl
@[simp] theorem touchLines_grids (p n : Nat) (s : State) : (touchLines p n s).grids = s.grids := by unfold touchLines; split <;> rfl
@[simp] theorem touchLines_nextGrid (p n : Nat) (s : State) : (touchLines p n s).nextGrid = s.nextGrid := by unfold touchLines; split <;> rfl
@[simp] theorem touchLines_blocks (p n : Nat) (s : State) : (touchLines p n s).blocks = s.blocks := by unfold touchLines; split <;> rfl
@[simp] theorem touchLines_waves (p n : Nat) (s : State) : (touchLines p n s).waves = s.waves := by unfold touchLines; split <;> rfl
@[simp] theorem touchLines_out (p n : Nat) (s : State) : (touchLines p n s).out = s.out := by unfold touchLines; split <;> rfl

/-! ### setS -/

@[simp] theorem setS_blk (n : Nat) (x : Word64) (w : Wave) : (setS w n x).blk = w.blk := rfl
@[simp] theorem setS_idx (n : Nat) (x : Word64) (w : Wave) : (setS w n x).idx = w.idx := rfl
@[simp] theorem setS_allot (n : Nat) (x : Word64) (w : Wave) : (setS w n x).allot = w.allot := rfl
@[simp] theorem setS_nwaves (n : Nat) (x : Word64) (w : Wave) : (setS w n x).nwaves = w.nwaves := rfl
@[simp] theorem setS_pgidx (n : Nat) (x : Word64) (w : Wave) : (setS w n x).pgidx = w.pgidx := rfl
@[simp] theorem setS_wid (n : Nat) (x : Word64) (w : Wave) : (setS w n x).wid = w.wid := rfl
@[simp] theorem setS_pc (n : Nat) (x : Word64) (w : Wave) : (setS w n x).pc = w.pc := rfl
@[simp] theorem setS_clause (n : Nat) (x : Word64) (w : Wave) : (setS w n x).clause = w.clause := rfl
@[simp] theorem setS_s (n : Nat) (x : Word64) (w : Wave) : (setS w n x).s = mset 0 w.s n x := rfl
@[simp] theorem setS_k (n : Nat) (x : Word64) (w : Wave) : (setS w n x).k = w.k := rfl
@[simp] theorem setS_v (n : Nat) (x : Word64) (w : Wave) : (setS w n x).v = w.v := rfl
@[simp] theorem setS_sE (n : Nat) (x : Word64) (w : Wave) : (setS w n x).sE = w.sE := rfl
@[simp] theorem setS_kE (n : Nat) (x : Word64) (w : Wave) : (setS w n x).kE = w.kE := rfl
@[simp] theorem setS_vE (n : Nat) (x : Word64) (w : Wave) : (setS w n x).vE = w.vE := rfl
@[simp] theorem setS_oc (n : Nat) (x : Word64) (w : Wave) : (setS w n x).oc = w.oc := rfl
@[simp] theorem setS_stOut (n : Nat) (x : Word64) (w : Wave) : (setS w n x).stOut = w.stOut := rfl
@[simp] theorem setS_stNext (n : Nat) (x : Word64) (w : Wave) : (setS w n x).stNext = w.stNext := rfl
@[simp] theorem setS_engNo (n : Nat) (x : Word64) (w : Wave) : (setS w n x).engNo = w.engNo := rfl
@[simp] theorem setS_held (n : Nat) (x : Word64) (w : Wave) : (setS w n x).held = w.held := rfl
@[simp] theorem setS_backoff (n : Nat) (x : Word64) (w : Wave) : (setS w n x).backoff = w.backoff := rfl
@[simp] theorem setS_poll (n : Nat) (x : Word64) (w : Wave) : (setS w n x).poll = w.poll := rfl
@[simp] theorem setS_again (n : Nat) (x : Word64) (w : Wave) : (setS w n x).again = w.again := rfl
@[simp] theorem setS_arv (n : Nat) (x : Word64) (w : Wave) : (setS w n x).arv = w.arv := rfl
@[simp] theorem setS_behind (n : Nat) (x : Word64) (w : Wave) : (setS w n x).behind = w.behind := rfl
@[simp] theorem setS_yieldLeft (n : Nat) (x : Word64) (w : Wave) : (setS w n x).yieldLeft = w.yieldLeft := rfl
@[simp] theorem setS_yieldLen (n : Nat) (x : Word64) (w : Wave) : (setS w n x).yieldLen = w.yieldLen := rfl
@[simp] theorem setS_age (n : Nat) (x : Word64) (w : Wave) : (setS w n x).age = w.age := rfl
@[simp] theorem setS_aged (n : Nat) (x : Word64) (w : Wave) : (setS w n x).aged = w.aged := rfl
@[simp] theorem setS_pendB (n : Nat) (x : Word64) (w : Wave) : (setS w n x).pendB = w.pendB := rfl
@[simp] theorem setS_pendC (n : Nat) (x : Word64) (w : Wave) : (setS w n x).pendC = w.pendC := rfl
@[simp] theorem setS_phase (n : Nat) (x : Word64) (w : Wave) : (setS w n x).phase = w.phase := rfl
@[simp] theorem setS_parked (n : Nat) (x : Word64) (w : Wave) : (setS w n x).parked = w.parked := rfl
@[simp] theorem setS_phaseVal (n : Nat) (x : Word64) (w : Wave) : (setS w n x).phaseVal = w.phaseVal := rfl
@[simp] theorem setS_trapVec (n : Nat) (x : Word64) (w : Wave) : (setS w n x).trapVec = w.trapVec := rfl
@[simp] theorem setS_trapSt (n : Nat) (x : Word64) (w : Wave) : (setS w n x).trapSt = w.trapSt := rfl
@[simp] theorem setS_tierMiss (n : Nat) (x : Word64) (w : Wave) : (setS w n x).tierMiss = w.tierMiss := rfl
@[simp] theorem setS_trec (n : Nat) (x : Word64) (w : Wave) : (setS w n x).trec = w.trec := rfl
@[simp] theorem setS_resume (n : Nat) (x : Word64) (w : Wave) : (setS w n x).resume = w.resume := rfl
@[simp] theorem setS_noE (n : Nat) (x : Word64) (w : Wave) : (setS w n x).noE = w.noE := rfl
@[simp] theorem setS_bkpts (n : Nat) (x : Word64) (w : Wave) : (setS w n x).bkpts = w.bkpts := rfl
@[simp] theorem setS_mq (n : Nat) (x : Word64) (w : Wave) : (setS w n x).mq = w.mq := rfl
@[simp] theorem setS_returns (n : Nat) (x : Word64) (w : Wave) : (setS w n x).returns = w.returns := rfl
@[simp] theorem setS_cpyQ (n : Nat) (x : Word64) (w : Wave) : (setS w n x).cpyQ = w.cpyQ := rfl
@[simp] theorem setS_mtxQ (n : Nat) (x : Word64) (w : Wave) : (setS w n x).mtxQ = w.mtxQ := rfl
@[simp] theorem setS_gatQ (n : Nat) (x : Word64) (w : Wave) : (setS w n x).gatQ = w.gatQ := rfl
@[simp] theorem setS_stop (n : Nat) (x : Word64) (w : Wave) : (setS w n x).stop = w.stop := rfl
@[simp] theorem setS_ended (n : Nat) (x : Word64) (w : Wave) : (setS w n x).ended = w.ended := rfl
@[simp] theorem setS_qops (n : Nat) (x : Word64) (w : Wave) : (setS w n x).qops = w.qops := rfl

/-! ### setV -/

@[simp] theorem setV_blk (n i : Nat) (x : Word32) (w : Wave) : (setV w n i x).blk = w.blk := rfl
@[simp] theorem setV_idx (n i : Nat) (x : Word32) (w : Wave) : (setV w n i x).idx = w.idx := rfl
@[simp] theorem setV_allot (n i : Nat) (x : Word32) (w : Wave) : (setV w n i x).allot = w.allot := rfl
@[simp] theorem setV_nwaves (n i : Nat) (x : Word32) (w : Wave) : (setV w n i x).nwaves = w.nwaves := rfl
@[simp] theorem setV_pgidx (n i : Nat) (x : Word32) (w : Wave) : (setV w n i x).pgidx = w.pgidx := rfl
@[simp] theorem setV_wid (n i : Nat) (x : Word32) (w : Wave) : (setV w n i x).wid = w.wid := rfl
@[simp] theorem setV_pc (n i : Nat) (x : Word32) (w : Wave) : (setV w n i x).pc = w.pc := rfl
@[simp] theorem setV_clause (n i : Nat) (x : Word32) (w : Wave) : (setV w n i x).clause = w.clause := rfl
@[simp] theorem setV_s (n i : Nat) (x : Word32) (w : Wave) : (setV w n i x).s = w.s := rfl
@[simp] theorem setV_k (n i : Nat) (x : Word32) (w : Wave) : (setV w n i x).k = w.k := rfl
@[simp] theorem setV_v (n i : Nat) (x : Word32) (w : Wave) : (setV w n i x).v = mset 0 w.v (n * 32 + i) x := rfl
@[simp] theorem setV_sE (n i : Nat) (x : Word32) (w : Wave) : (setV w n i x).sE = w.sE := rfl
@[simp] theorem setV_kE (n i : Nat) (x : Word32) (w : Wave) : (setV w n i x).kE = w.kE := rfl
@[simp] theorem setV_vE (n i : Nat) (x : Word32) (w : Wave) : (setV w n i x).vE = w.vE := rfl
@[simp] theorem setV_oc (n i : Nat) (x : Word32) (w : Wave) : (setV w n i x).oc = w.oc := rfl
@[simp] theorem setV_stOut (n i : Nat) (x : Word32) (w : Wave) : (setV w n i x).stOut = w.stOut := rfl
@[simp] theorem setV_stNext (n i : Nat) (x : Word32) (w : Wave) : (setV w n i x).stNext = w.stNext := rfl
@[simp] theorem setV_engNo (n i : Nat) (x : Word32) (w : Wave) : (setV w n i x).engNo = w.engNo := rfl
@[simp] theorem setV_held (n i : Nat) (x : Word32) (w : Wave) : (setV w n i x).held = w.held := rfl
@[simp] theorem setV_backoff (n i : Nat) (x : Word32) (w : Wave) : (setV w n i x).backoff = w.backoff := rfl
@[simp] theorem setV_poll (n i : Nat) (x : Word32) (w : Wave) : (setV w n i x).poll = w.poll := rfl
@[simp] theorem setV_again (n i : Nat) (x : Word32) (w : Wave) : (setV w n i x).again = w.again := rfl
@[simp] theorem setV_arv (n i : Nat) (x : Word32) (w : Wave) : (setV w n i x).arv = w.arv := rfl
@[simp] theorem setV_behind (n i : Nat) (x : Word32) (w : Wave) : (setV w n i x).behind = w.behind := rfl
@[simp] theorem setV_yieldLeft (n i : Nat) (x : Word32) (w : Wave) : (setV w n i x).yieldLeft = w.yieldLeft := rfl
@[simp] theorem setV_yieldLen (n i : Nat) (x : Word32) (w : Wave) : (setV w n i x).yieldLen = w.yieldLen := rfl
@[simp] theorem setV_age (n i : Nat) (x : Word32) (w : Wave) : (setV w n i x).age = w.age := rfl
@[simp] theorem setV_aged (n i : Nat) (x : Word32) (w : Wave) : (setV w n i x).aged = w.aged := rfl
@[simp] theorem setV_pendB (n i : Nat) (x : Word32) (w : Wave) : (setV w n i x).pendB = w.pendB := rfl
@[simp] theorem setV_pendC (n i : Nat) (x : Word32) (w : Wave) : (setV w n i x).pendC = w.pendC := rfl
@[simp] theorem setV_phase (n i : Nat) (x : Word32) (w : Wave) : (setV w n i x).phase = w.phase := rfl
@[simp] theorem setV_parked (n i : Nat) (x : Word32) (w : Wave) : (setV w n i x).parked = w.parked := rfl
@[simp] theorem setV_phaseVal (n i : Nat) (x : Word32) (w : Wave) : (setV w n i x).phaseVal = w.phaseVal := rfl
@[simp] theorem setV_trapVec (n i : Nat) (x : Word32) (w : Wave) : (setV w n i x).trapVec = w.trapVec := rfl
@[simp] theorem setV_trapSt (n i : Nat) (x : Word32) (w : Wave) : (setV w n i x).trapSt = w.trapSt := rfl
@[simp] theorem setV_tierMiss (n i : Nat) (x : Word32) (w : Wave) : (setV w n i x).tierMiss = w.tierMiss := rfl
@[simp] theorem setV_trec (n i : Nat) (x : Word32) (w : Wave) : (setV w n i x).trec = w.trec := rfl
@[simp] theorem setV_resume (n i : Nat) (x : Word32) (w : Wave) : (setV w n i x).resume = w.resume := rfl
@[simp] theorem setV_noE (n i : Nat) (x : Word32) (w : Wave) : (setV w n i x).noE = w.noE := rfl
@[simp] theorem setV_bkpts (n i : Nat) (x : Word32) (w : Wave) : (setV w n i x).bkpts = w.bkpts := rfl
@[simp] theorem setV_mq (n i : Nat) (x : Word32) (w : Wave) : (setV w n i x).mq = w.mq := rfl
@[simp] theorem setV_returns (n i : Nat) (x : Word32) (w : Wave) : (setV w n i x).returns = w.returns := rfl
@[simp] theorem setV_cpyQ (n i : Nat) (x : Word32) (w : Wave) : (setV w n i x).cpyQ = w.cpyQ := rfl
@[simp] theorem setV_mtxQ (n i : Nat) (x : Word32) (w : Wave) : (setV w n i x).mtxQ = w.mtxQ := rfl
@[simp] theorem setV_gatQ (n i : Nat) (x : Word32) (w : Wave) : (setV w n i x).gatQ = w.gatQ := rfl
@[simp] theorem setV_stop (n i : Nat) (x : Word32) (w : Wave) : (setV w n i x).stop = w.stop := rfl
@[simp] theorem setV_ended (n i : Nat) (x : Word32) (w : Wave) : (setV w n i x).ended = w.ended := rfl
@[simp] theorem setV_qops (n i : Nat) (x : Word32) (w : Wave) : (setV w n i x).qops = w.qops := rfl

/-! ### setK -/

@[simp] theorem setK_blk (n : Nat) (x : Word32) (w : Wave) : (setK w n x).blk = w.blk := by unfold setK; split <;> rfl
@[simp] theorem setK_idx (n : Nat) (x : Word32) (w : Wave) : (setK w n x).idx = w.idx := by unfold setK; split <;> rfl
@[simp] theorem setK_allot (n : Nat) (x : Word32) (w : Wave) : (setK w n x).allot = w.allot := by unfold setK; split <;> rfl
@[simp] theorem setK_nwaves (n : Nat) (x : Word32) (w : Wave) : (setK w n x).nwaves = w.nwaves := by unfold setK; split <;> rfl
@[simp] theorem setK_pgidx (n : Nat) (x : Word32) (w : Wave) : (setK w n x).pgidx = w.pgidx := by unfold setK; split <;> rfl
@[simp] theorem setK_wid (n : Nat) (x : Word32) (w : Wave) : (setK w n x).wid = w.wid := by unfold setK; split <;> rfl
@[simp] theorem setK_pc (n : Nat) (x : Word32) (w : Wave) : (setK w n x).pc = w.pc := by unfold setK; split <;> rfl
@[simp] theorem setK_clause (n : Nat) (x : Word32) (w : Wave) : (setK w n x).clause = w.clause := by unfold setK; split <;> rfl
@[simp] theorem setK_s (n : Nat) (x : Word32) (w : Wave) : (setK w n x).s = w.s := by unfold setK; split <;> rfl
@[simp] theorem setK_v (n : Nat) (x : Word32) (w : Wave) : (setK w n x).v = w.v := by unfold setK; split <;> rfl
@[simp] theorem setK_sE (n : Nat) (x : Word32) (w : Wave) : (setK w n x).sE = w.sE := by unfold setK; split <;> rfl
@[simp] theorem setK_kE (n : Nat) (x : Word32) (w : Wave) : (setK w n x).kE = w.kE := by unfold setK; split <;> rfl
@[simp] theorem setK_vE (n : Nat) (x : Word32) (w : Wave) : (setK w n x).vE = w.vE := by unfold setK; split <;> rfl
@[simp] theorem setK_oc (n : Nat) (x : Word32) (w : Wave) : (setK w n x).oc = w.oc := by unfold setK; split <;> rfl
@[simp] theorem setK_stOut (n : Nat) (x : Word32) (w : Wave) : (setK w n x).stOut = w.stOut := by unfold setK; split <;> rfl
@[simp] theorem setK_stNext (n : Nat) (x : Word32) (w : Wave) : (setK w n x).stNext = w.stNext := by unfold setK; split <;> rfl
@[simp] theorem setK_engNo (n : Nat) (x : Word32) (w : Wave) : (setK w n x).engNo = w.engNo := by unfold setK; split <;> rfl
@[simp] theorem setK_held (n : Nat) (x : Word32) (w : Wave) : (setK w n x).held = w.held := by unfold setK; split <;> rfl
@[simp] theorem setK_backoff (n : Nat) (x : Word32) (w : Wave) : (setK w n x).backoff = w.backoff := by unfold setK; split <;> rfl
@[simp] theorem setK_poll (n : Nat) (x : Word32) (w : Wave) : (setK w n x).poll = w.poll := by unfold setK; split <;> rfl
@[simp] theorem setK_again (n : Nat) (x : Word32) (w : Wave) : (setK w n x).again = w.again := by unfold setK; split <;> rfl
@[simp] theorem setK_arv (n : Nat) (x : Word32) (w : Wave) : (setK w n x).arv = w.arv := by unfold setK; split <;> rfl
@[simp] theorem setK_behind (n : Nat) (x : Word32) (w : Wave) : (setK w n x).behind = w.behind := by unfold setK; split <;> rfl
@[simp] theorem setK_yieldLeft (n : Nat) (x : Word32) (w : Wave) : (setK w n x).yieldLeft = w.yieldLeft := by unfold setK; split <;> rfl
@[simp] theorem setK_yieldLen (n : Nat) (x : Word32) (w : Wave) : (setK w n x).yieldLen = w.yieldLen := by unfold setK; split <;> rfl
@[simp] theorem setK_age (n : Nat) (x : Word32) (w : Wave) : (setK w n x).age = w.age := by unfold setK; split <;> rfl
@[simp] theorem setK_aged (n : Nat) (x : Word32) (w : Wave) : (setK w n x).aged = w.aged := by unfold setK; split <;> rfl
@[simp] theorem setK_pendB (n : Nat) (x : Word32) (w : Wave) : (setK w n x).pendB = w.pendB := by unfold setK; split <;> rfl
@[simp] theorem setK_pendC (n : Nat) (x : Word32) (w : Wave) : (setK w n x).pendC = w.pendC := by unfold setK; split <;> rfl
@[simp] theorem setK_phase (n : Nat) (x : Word32) (w : Wave) : (setK w n x).phase = w.phase := by unfold setK; split <;> rfl
@[simp] theorem setK_parked (n : Nat) (x : Word32) (w : Wave) : (setK w n x).parked = w.parked := by unfold setK; split <;> rfl
@[simp] theorem setK_phaseVal (n : Nat) (x : Word32) (w : Wave) : (setK w n x).phaseVal = w.phaseVal := by unfold setK; split <;> rfl
@[simp] theorem setK_trapVec (n : Nat) (x : Word32) (w : Wave) : (setK w n x).trapVec = w.trapVec := by unfold setK; split <;> rfl
@[simp] theorem setK_trapSt (n : Nat) (x : Word32) (w : Wave) : (setK w n x).trapSt = w.trapSt := by unfold setK; split <;> rfl
@[simp] theorem setK_tierMiss (n : Nat) (x : Word32) (w : Wave) : (setK w n x).tierMiss = w.tierMiss := by unfold setK; split <;> rfl
@[simp] theorem setK_trec (n : Nat) (x : Word32) (w : Wave) : (setK w n x).trec = w.trec := by unfold setK; split <;> rfl
@[simp] theorem setK_resume (n : Nat) (x : Word32) (w : Wave) : (setK w n x).resume = w.resume := by unfold setK; split <;> rfl
@[simp] theorem setK_noE (n : Nat) (x : Word32) (w : Wave) : (setK w n x).noE = w.noE := by unfold setK; split <;> rfl
@[simp] theorem setK_bkpts (n : Nat) (x : Word32) (w : Wave) : (setK w n x).bkpts = w.bkpts := by unfold setK; split <;> rfl
@[simp] theorem setK_mq (n : Nat) (x : Word32) (w : Wave) : (setK w n x).mq = w.mq := by unfold setK; split <;> rfl
@[simp] theorem setK_returns (n : Nat) (x : Word32) (w : Wave) : (setK w n x).returns = w.returns := by unfold setK; split <;> rfl
@[simp] theorem setK_cpyQ (n : Nat) (x : Word32) (w : Wave) : (setK w n x).cpyQ = w.cpyQ := by unfold setK; split <;> rfl
@[simp] theorem setK_mtxQ (n : Nat) (x : Word32) (w : Wave) : (setK w n x).mtxQ = w.mtxQ := by unfold setK; split <;> rfl
@[simp] theorem setK_gatQ (n : Nat) (x : Word32) (w : Wave) : (setK w n x).gatQ = w.gatQ := by unfold setK; split <;> rfl
@[simp] theorem setK_stop (n : Nat) (x : Word32) (w : Wave) : (setK w n x).stop = w.stop := by unfold setK; split <;> rfl
@[simp] theorem setK_ended (n : Nat) (x : Word32) (w : Wave) : (setK w n x).ended = w.ended := by unfold setK; split <;> rfl
@[simp] theorem setK_qops (n : Nat) (x : Word32) (w : Wave) : (setK w n x).qops = w.qops := by unfold setK; split <;> rfl

/-! ### endClause -/

@[simp] theorem endClause_blk (a : Word64) (w : Wave) : (endClause a w).blk = w.blk := rfl
@[simp] theorem endClause_idx (a : Word64) (w : Wave) : (endClause a w).idx = w.idx := rfl
@[simp] theorem endClause_allot (a : Word64) (w : Wave) : (endClause a w).allot = w.allot := rfl
@[simp] theorem endClause_nwaves (a : Word64) (w : Wave) : (endClause a w).nwaves = w.nwaves := rfl
@[simp] theorem endClause_pgidx (a : Word64) (w : Wave) : (endClause a w).pgidx = w.pgidx := rfl
@[simp] theorem endClause_wid (a : Word64) (w : Wave) : (endClause a w).wid = w.wid := rfl
@[simp] theorem endClause_pc (a : Word64) (w : Wave) : (endClause a w).pc = a := rfl
@[simp] theorem endClause_clause (a : Word64) (w : Wave) : (endClause a w).clause = none := rfl
@[simp] theorem endClause_s (a : Word64) (w : Wave) : (endClause a w).s = w.s := rfl
@[simp] theorem endClause_k (a : Word64) (w : Wave) : (endClause a w).k = w.k := rfl
@[simp] theorem endClause_v (a : Word64) (w : Wave) : (endClause a w).v = w.v := rfl
@[simp] theorem endClause_sE (a : Word64) (w : Wave) : (endClause a w).sE = w.sE := rfl
@[simp] theorem endClause_kE (a : Word64) (w : Wave) : (endClause a w).kE = w.kE := rfl
@[simp] theorem endClause_vE (a : Word64) (w : Wave) : (endClause a w).vE = w.vE := rfl
@[simp] theorem endClause_oc (a : Word64) (w : Wave) : (endClause a w).oc = w.oc := rfl
@[simp] theorem endClause_stOut (a : Word64) (w : Wave) : (endClause a w).stOut = w.stOut := rfl
@[simp] theorem endClause_stNext (a : Word64) (w : Wave) : (endClause a w).stNext = w.stNext := rfl
@[simp] theorem endClause_engNo (a : Word64) (w : Wave) : (endClause a w).engNo = w.engNo := rfl
@[simp] theorem endClause_held (a : Word64) (w : Wave) : (endClause a w).held = false := rfl
@[simp] theorem endClause_backoff (a : Word64) (w : Wave) : (endClause a w).backoff = w.backoff := rfl
@[simp] theorem endClause_poll (a : Word64) (w : Wave) : (endClause a w).poll = w.poll := rfl
@[simp] theorem endClause_again (a : Word64) (w : Wave) : (endClause a w).again = 0 := rfl
@[simp] theorem endClause_arv (a : Word64) (w : Wave) : (endClause a w).arv = false := rfl
@[simp] theorem endClause_age (a : Word64) (w : Wave) : (endClause a w).age = 0 := rfl
@[simp] theorem endClause_aged (a : Word64) (w : Wave) : (endClause a w).aged = false := rfl
@[simp] theorem endClause_pendB (a : Word64) (w : Wave) : (endClause a w).pendB = w.pendB := rfl
@[simp] theorem endClause_pendC (a : Word64) (w : Wave) : (endClause a w).pendC = w.pendC := rfl
@[simp] theorem endClause_phase (a : Word64) (w : Wave) : (endClause a w).phase = w.phase := rfl
@[simp] theorem endClause_parked (a : Word64) (w : Wave) : (endClause a w).parked = w.parked := rfl
@[simp] theorem endClause_phaseVal (a : Word64) (w : Wave) : (endClause a w).phaseVal = w.phaseVal := rfl
@[simp] theorem endClause_trapVec (a : Word64) (w : Wave) : (endClause a w).trapVec = w.trapVec := rfl
@[simp] theorem endClause_trapSt (a : Word64) (w : Wave) : (endClause a w).trapSt = w.trapSt := rfl
@[simp] theorem endClause_tierMiss (a : Word64) (w : Wave) : (endClause a w).tierMiss = w.tierMiss := rfl
@[simp] theorem endClause_trec (a : Word64) (w : Wave) : (endClause a w).trec = w.trec := rfl
@[simp] theorem endClause_resume (a : Word64) (w : Wave) : (endClause a w).resume = w.resume := rfl
@[simp] theorem endClause_noE (a : Word64) (w : Wave) : (endClause a w).noE = false := rfl
@[simp] theorem endClause_bkpts (a : Word64) (w : Wave) : (endClause a w).bkpts = w.bkpts := rfl
@[simp] theorem endClause_mq (a : Word64) (w : Wave) : (endClause a w).mq = w.mq := rfl
@[simp] theorem endClause_returns (a : Word64) (w : Wave) : (endClause a w).returns = w.returns := rfl
@[simp] theorem endClause_cpyQ (a : Word64) (w : Wave) : (endClause a w).cpyQ = w.cpyQ := rfl
@[simp] theorem endClause_mtxQ (a : Word64) (w : Wave) : (endClause a w).mtxQ = w.mtxQ := rfl
@[simp] theorem endClause_gatQ (a : Word64) (w : Wave) : (endClause a w).gatQ = w.gatQ := rfl
@[simp] theorem endClause_stop (a : Word64) (w : Wave) : (endClause a w).stop = w.stop := rfl
@[simp] theorem endClause_ended (a : Word64) (w : Wave) : (endClause a w).ended = w.ended := rfl
@[simp] theorem endClause_qops (a : Word64) (w : Wave) : (endClause a w).qops = w.qops := rfl

/-! ### stepOver -/

@[simp] theorem stepOver_blk (w : Wave) : (stepOver w).blk = w.blk := by unfold stepOver; split <;> [rfl; (split <;> [rfl; (dsimp only; split <;> rfl)])]
@[simp] theorem stepOver_idx (w : Wave) : (stepOver w).idx = w.idx := by unfold stepOver; split <;> [rfl; (split <;> [rfl; (dsimp only; split <;> rfl)])]
@[simp] theorem stepOver_allot (w : Wave) : (stepOver w).allot = w.allot := by unfold stepOver; split <;> [rfl; (split <;> [rfl; (dsimp only; split <;> rfl)])]
@[simp] theorem stepOver_nwaves (w : Wave) : (stepOver w).nwaves = w.nwaves := by unfold stepOver; split <;> [rfl; (split <;> [rfl; (dsimp only; split <;> rfl)])]
@[simp] theorem stepOver_pgidx (w : Wave) : (stepOver w).pgidx = w.pgidx := by unfold stepOver; split <;> [rfl; (split <;> [rfl; (dsimp only; split <;> rfl)])]
@[simp] theorem stepOver_wid (w : Wave) : (stepOver w).wid = w.wid := by unfold stepOver; split <;> [rfl; (split <;> [rfl; (dsimp only; split <;> rfl)])]
@[simp] theorem stepOver_s (w : Wave) : (stepOver w).s = w.s := by unfold stepOver; split <;> [rfl; (split <;> [rfl; (dsimp only; split <;> rfl)])]
@[simp] theorem stepOver_k (w : Wave) : (stepOver w).k = w.k := by unfold stepOver; split <;> [rfl; (split <;> [rfl; (dsimp only; split <;> rfl)])]
@[simp] theorem stepOver_v (w : Wave) : (stepOver w).v = w.v := by unfold stepOver; split <;> [rfl; (split <;> [rfl; (dsimp only; split <;> rfl)])]
@[simp] theorem stepOver_sE (w : Wave) : (stepOver w).sE = w.sE := by unfold stepOver; split <;> [rfl; (split <;> [rfl; (dsimp only; split <;> rfl)])]
@[simp] theorem stepOver_kE (w : Wave) : (stepOver w).kE = w.kE := by unfold stepOver; split <;> [rfl; (split <;> [rfl; (dsimp only; split <;> rfl)])]
@[simp] theorem stepOver_vE (w : Wave) : (stepOver w).vE = w.vE := by unfold stepOver; split <;> [rfl; (split <;> [rfl; (dsimp only; split <;> rfl)])]
@[simp] theorem stepOver_oc (w : Wave) : (stepOver w).oc = w.oc := by unfold stepOver; split <;> [rfl; (split <;> [rfl; (dsimp only; split <;> rfl)])]
@[simp] theorem stepOver_stOut (w : Wave) : (stepOver w).stOut = w.stOut := by unfold stepOver; split <;> [rfl; (split <;> [rfl; (dsimp only; split <;> rfl)])]
@[simp] theorem stepOver_stNext (w : Wave) : (stepOver w).stNext = w.stNext := by unfold stepOver; split <;> [rfl; (split <;> [rfl; (dsimp only; split <;> rfl)])]
@[simp] theorem stepOver_engNo (w : Wave) : (stepOver w).engNo = w.engNo := by unfold stepOver; split <;> [rfl; (split <;> [rfl; (dsimp only; split <;> rfl)])]
@[simp] theorem stepOver_backoff (w : Wave) : (stepOver w).backoff = w.backoff := by unfold stepOver; split <;> [rfl; (split <;> [rfl; (dsimp only; split <;> rfl)])]
@[simp] theorem stepOver_poll (w : Wave) : (stepOver w).poll = w.poll := by unfold stepOver; split <;> [rfl; (split <;> [rfl; (dsimp only; split <;> rfl)])]
@[simp] theorem stepOver_pendB (w : Wave) : (stepOver w).pendB = w.pendB := by unfold stepOver; split <;> [rfl; (split <;> [rfl; (dsimp only; split <;> rfl)])]
@[simp] theorem stepOver_pendC (w : Wave) : (stepOver w).pendC = w.pendC := by unfold stepOver; split <;> [rfl; (split <;> [rfl; (dsimp only; split <;> rfl)])]
@[simp] theorem stepOver_phase (w : Wave) : (stepOver w).phase = w.phase := by unfold stepOver; split <;> [rfl; (split <;> [rfl; (dsimp only; split <;> rfl)])]
@[simp] theorem stepOver_parked (w : Wave) : (stepOver w).parked = w.parked := by unfold stepOver; split <;> [rfl; (split <;> [rfl; (dsimp only; split <;> rfl)])]
@[simp] theorem stepOver_phaseVal (w : Wave) : (stepOver w).phaseVal = w.phaseVal := by unfold stepOver; split <;> [rfl; (split <;> [rfl; (dsimp only; split <;> rfl)])]
@[simp] theorem stepOver_trapVec (w : Wave) : (stepOver w).trapVec = w.trapVec := by unfold stepOver; split <;> [rfl; (split <;> [rfl; (dsimp only; split <;> rfl)])]
@[simp] theorem stepOver_trapSt (w : Wave) : (stepOver w).trapSt = w.trapSt := by unfold stepOver; split <;> [rfl; (split <;> [rfl; (dsimp only; split <;> rfl)])]
@[simp] theorem stepOver_tierMiss (w : Wave) : (stepOver w).tierMiss = w.tierMiss := by unfold stepOver; split <;> [rfl; (split <;> [rfl; (dsimp only; split <;> rfl)])]
@[simp] theorem stepOver_trec (w : Wave) : (stepOver w).trec = w.trec := by unfold stepOver; split <;> [rfl; (split <;> [rfl; (dsimp only; split <;> rfl)])]
@[simp] theorem stepOver_resume (w : Wave) : (stepOver w).resume = w.resume := by unfold stepOver; split <;> [rfl; (split <;> [rfl; (dsimp only; split <;> rfl)])]
@[simp] theorem stepOver_bkpts (w : Wave) : (stepOver w).bkpts = w.bkpts := by unfold stepOver; split <;> [rfl; (split <;> [rfl; (dsimp only; split <;> rfl)])]
@[simp] theorem stepOver_mq (w : Wave) : (stepOver w).mq = w.mq := by unfold stepOver; split <;> [rfl; (split <;> [rfl; (dsimp only; split <;> rfl)])]
@[simp] theorem stepOver_returns (w : Wave) : (stepOver w).returns = w.returns := by unfold stepOver; split <;> [rfl; (split <;> [rfl; (dsimp only; split <;> rfl)])]
@[simp] theorem stepOver_cpyQ (w : Wave) : (stepOver w).cpyQ = w.cpyQ := by unfold stepOver; split <;> [rfl; (split <;> [rfl; (dsimp only; split <;> rfl)])]
@[simp] theorem stepOver_mtxQ (w : Wave) : (stepOver w).mtxQ = w.mtxQ := by unfold stepOver; split <;> [rfl; (split <;> [rfl; (dsimp only; split <;> rfl)])]
@[simp] theorem stepOver_gatQ (w : Wave) : (stepOver w).gatQ = w.gatQ := by unfold stepOver; split <;> [rfl; (split <;> [rfl; (dsimp only; split <;> rfl)])]
@[simp] theorem stepOver_stop (w : Wave) : (stepOver w).stop = w.stop := by unfold stepOver; split <;> [rfl; (split <;> [rfl; (dsimp only; split <;> rfl)])]
@[simp] theorem stepOver_ended (w : Wave) : (stepOver w).ended = w.ended := by unfold stepOver; split <;> [rfl; (split <;> [rfl; (dsimp only; split <;> rfl)])]
@[simp] theorem stepOver_qops (w : Wave) : (stepOver w).qops = w.qops := by unfold stepOver; split <;> [rfl; (split <;> [rfl; (dsimp only; split <;> rfl)])]

/-! ### advance -/

@[simp] theorem advance_blk (w : Wave) : (advance w).blk = w.blk := by unfold advance; split <;> [rfl; (split <;> [(split <;> simp); simp])]
@[simp] theorem advance_idx (w : Wave) : (advance w).idx = w.idx := by unfold advance; split <;> [rfl; (split <;> [(split <;> simp); simp])]
@[simp] theorem advance_allot (w : Wave) : (advance w).allot = w.allot := by unfold advance; split <;> [rfl; (split <;> [(split <;> simp); simp])]
@[simp] theorem advance_nwaves (w : Wave) : (advance w).nwaves = w.nwaves := by unfold advance; split <;> [rfl; (split <;> [(split <;> simp); simp])]
@[simp] theorem advance_pgidx (w : Wave) : (advance w).pgidx = w.pgidx := by unfold advance; split <;> [rfl; (split <;> [(split <;> simp); simp])]
@[simp] theorem advance_wid (w : Wave) : (advance w).wid = w.wid := by unfold advance; split <;> [rfl; (split <;> [(split <;> simp); simp])]
@[simp] theorem advance_s (w : Wave) : (advance w).s = w.s := by unfold advance; split <;> [rfl; (split <;> [(split <;> simp); simp])]
@[simp] theorem advance_k (w : Wave) : (advance w).k = w.k := by unfold advance; split <;> [rfl; (split <;> [(split <;> simp); simp])]
@[simp] theorem advance_v (w : Wave) : (advance w).v = w.v := by unfold advance; split <;> [rfl; (split <;> [(split <;> simp); simp])]
@[simp] theorem advance_sE (w : Wave) : (advance w).sE = w.sE := by unfold advance; split <;> [rfl; (split <;> [(split <;> simp); simp])]
@[simp] theorem advance_kE (w : Wave) : (advance w).kE = w.kE := by unfold advance; split <;> [rfl; (split <;> [(split <;> simp); simp])]
@[simp] theorem advance_vE (w : Wave) : (advance w).vE = w.vE := by unfold advance; split <;> [rfl; (split <;> [(split <;> simp); simp])]
@[simp] theorem advance_oc (w : Wave) : (advance w).oc = w.oc := by unfold advance; split <;> [rfl; (split <;> [(split <;> simp); simp])]
@[simp] theorem advance_stOut (w : Wave) : (advance w).stOut = w.stOut := by unfold advance; split <;> [rfl; (split <;> [(split <;> simp); simp])]
@[simp] theorem advance_stNext (w : Wave) : (advance w).stNext = w.stNext := by unfold advance; split <;> [rfl; (split <;> [(split <;> simp); simp])]
@[simp] theorem advance_engNo (w : Wave) : (advance w).engNo = w.engNo := by unfold advance; split <;> [rfl; (split <;> [(split <;> simp); simp])]
@[simp] theorem advance_backoff (w : Wave) : (advance w).backoff = w.backoff := by unfold advance; split <;> [rfl; (split <;> [(split <;> simp); simp])]
@[simp] theorem advance_poll (w : Wave) : (advance w).poll = w.poll := by unfold advance; split <;> [rfl; (split <;> [(split <;> simp); simp])]
@[simp] theorem advance_pendB (w : Wave) : (advance w).pendB = w.pendB := by unfold advance; split <;> [rfl; (split <;> [(split <;> simp); simp])]
@[simp] theorem advance_pendC (w : Wave) : (advance w).pendC = w.pendC := by unfold advance; split <;> [rfl; (split <;> [(split <;> simp); simp])]
@[simp] theorem advance_phase (w : Wave) : (advance w).phase = w.phase := by unfold advance; split <;> [rfl; (split <;> [(split <;> simp); simp])]
@[simp] theorem advance_parked (w : Wave) : (advance w).parked = w.parked := by unfold advance; split <;> [rfl; (split <;> [(split <;> simp); simp])]
@[simp] theorem advance_phaseVal (w : Wave) : (advance w).phaseVal = w.phaseVal := by unfold advance; split <;> [rfl; (split <;> [(split <;> simp); simp])]
@[simp] theorem advance_trapVec (w : Wave) : (advance w).trapVec = w.trapVec := by unfold advance; split <;> [rfl; (split <;> [(split <;> simp); simp])]
@[simp] theorem advance_trapSt (w : Wave) : (advance w).trapSt = w.trapSt := by unfold advance; split <;> [rfl; (split <;> [(split <;> simp); simp])]
@[simp] theorem advance_tierMiss (w : Wave) : (advance w).tierMiss = w.tierMiss := by unfold advance; split <;> [rfl; (split <;> [(split <;> simp); simp])]
@[simp] theorem advance_trec (w : Wave) : (advance w).trec = w.trec := by unfold advance; split <;> [rfl; (split <;> [(split <;> simp); simp])]
@[simp] theorem advance_resume (w : Wave) : (advance w).resume = w.resume := by unfold advance; split <;> [rfl; (split <;> [(split <;> simp); simp])]
@[simp] theorem advance_bkpts (w : Wave) : (advance w).bkpts = w.bkpts := by unfold advance; split <;> [rfl; (split <;> [(split <;> simp); simp])]
@[simp] theorem advance_mq (w : Wave) : (advance w).mq = w.mq := by unfold advance; split <;> [rfl; (split <;> [(split <;> simp); simp])]
@[simp] theorem advance_returns (w : Wave) : (advance w).returns = w.returns := by unfold advance; split <;> [rfl; (split <;> [(split <;> simp); simp])]
@[simp] theorem advance_cpyQ (w : Wave) : (advance w).cpyQ = w.cpyQ := by unfold advance; split <;> [rfl; (split <;> [(split <;> simp); simp])]
@[simp] theorem advance_mtxQ (w : Wave) : (advance w).mtxQ = w.mtxQ := by unfold advance; split <;> [rfl; (split <;> [(split <;> simp); simp])]
@[simp] theorem advance_gatQ (w : Wave) : (advance w).gatQ = w.gatQ := by unfold advance; split <;> [rfl; (split <;> [(split <;> simp); simp])]
@[simp] theorem advance_stop (w : Wave) : (advance w).stop = w.stop := by unfold advance; split <;> [rfl; (split <;> [(split <;> simp); simp])]
@[simp] theorem advance_ended (w : Wave) : (advance w).ended = w.ended := by unfold advance; split <;> [rfl; (split <;> [(split <;> simp); simp])]
@[simp] theorem advance_qops (w : Wave) : (advance w).qops = w.qops := by unfold advance; split <;> [rfl; (split <;> [(split <;> simp); simp])]

end Sys2Proof.Machine
end

