-- ==== Sys2Proof/Laws/Memory.lean ====
section
/-! SUPPORT. Laws of memory: bytes and numbers, a read after a write, that a write leaves every other byte alone, and that every memory operation keeps the canonical form. -/
namespace Sys2Proof.Machine

/-! ### Bytes and numbers (R3) -/

@[simp] theorem length_natToBytes (n x : Nat) : (natToBytes n x).length = n := by
  induction n generalizing x with
  | zero => rfl
  | succ n ih => simp [natToBytes, ih]

theorem bytesToNat_natToBytes (n x : Nat) : bytesToNat (natToBytes n x) = x % 256 ^ n := by
  induction n generalizing x with
  | zero => simp [natToBytes, bytesToNat, Nat.mod_one]
  | succ n ih =>
    simp only [natToBytes, bytesToNat, ih, BitVec.toNat_ofNat]
    rw [show (256 : Nat) ^ (n + 1) = 256 * 256 ^ n by ring, Nat.mod_mul]

theorem bytesToNat_lt (bs : List Byte) : bytesToNat bs < 256 ^ bs.length := by
  induction bs with
  | nil => simp [bytesToNat]
  | cons b rest ih =>
    have := b.isLt
    simp only [bytesToNat, List.length_cons, Nat.pow_succ]
    omega

theorem bytesToNat_append (as bs : List Byte) : bytesToNat (as ++ bs) = bytesToNat as + 256 ^ as.length * bytesToNat bs := by
  induction as with
  | nil => simp [bytesToNat]
  | cons b rest ih => simp only [List.cons_append, bytesToNat, ih, List.length_cons, Nat.pow_succ]; ring

/-! ### Sparse bytes -/

theorem mgetD_cellsPut (m : List Host.Cell) (a : Nat) (bs : List Byte) (x : Nat) :
    mgetD (cellsPut m a bs) x blankByte = if h : a ≤ x ∧ x < a + bs.length then bs[x - a]'(by omega) else mgetD m x blankByte := by
  induction bs generalizing m a with
  | nil => simp [cellsPut]
  | cons b rest ih =>
    simp only [cellsPut, ih, mgetD_mset]
    by_cases h1 : a + 1 ≤ x ∧ x < a + 1 + rest.length
    · have h2 : a ≤ x ∧ x < a + (b :: rest).length := by simp; omega
      have h3 : x - a = x - (a + 1) + 1 := by omega
      rw [dif_pos h1, dif_pos h2]
      simp only [h3, List.getElem_cons_succ]
    · by_cases h2 : x = a
      · subst h2
        simp
      · have h3 : ¬ (a ≤ x ∧ x < a + (b :: rest).length) := by simp; omega
        rw [dif_neg h1, dif_neg h3, if_neg h2]

theorem cellsPut_wf {m : List Host.Cell} (h : Memory.wf m = true) (a : Nat) (bs : List Byte) : Memory.wf (cellsPut m a bs) = true := by
  induction bs generalizing m a with
  | nil => exact h
  | cons b rest ih => exact ih (sparseWf_mset h a b) (a + 1)

theorem filter_wf {m : List Host.Cell} (h : Memory.wf m = true) (p : Host.Cell → Bool) : Memory.wf (m.filter p) = true := sparseWf_filter h p

@[simp] theorem length_cellsGet (m : List Host.Cell) (a n : Nat) : (cellsGet m a n).length = n := by
  induction n generalizing a with
  | zero => rfl
  | succ n ih => simp [cellsGet, ih]

/-! ### Device-physical memory -/

@[simp] theorem touchLines_physByte (p n a : Nat) (s : State) : physByte (touchLines p n s) a = physByte s a := by simp [physByte]

@[simp] theorem physPut_mem (a : Nat) (bs : List Byte) (s : State) : (physPut a bs s).mem = cellsPut s.mem a bs := by simp [physPut]

/-- A read after a write: the bytes written, and every other byte as before. -/
theorem physByte_physPut (a : Nat) (bs : List Byte) (s : State) (x : Nat) :
    physByte (physPut a bs s) x = if h : a ≤ x ∧ x < a + bs.length then bs[x - a]'(by omega) else physByte s x := by
  simp only [physByte, physPut_mem, mgetD_cellsPut]

theorem physByte_physPut_ne {a : Nat} {bs : List Byte} {x : Nat} (h : x < a ∨ a + bs.length ≤ x) (s : State) :
    physByte (physPut a bs s) x = physByte s x := by
  rw [physByte_physPut, dif_neg (by omega)]

theorem physBytes_eq (s : State) (a n : Nat) : physBytes s a n = (List.range n).map (fun j => physByte s (a + j)) := by
  induction n generalizing a with
  | zero => rfl
  | succ n ih =>
    rw [physBytes, ih, List.range_succ_eq_map]
    simp [Nat.add_comm, Nat.add_left_comm]

theorem physBytes_physPut (a : Nat) (bs : List Byte) (s : State) : physBytes (physPut a bs s) a bs.length = bs := by
  rw [physBytes_eq]
  apply List.ext_getElem
  · simp
  · intro i h1 h2
    simp only [List.getElem_map, List.getElem_range, physByte_physPut]
    rw [dif_pos (by omega)]
    simp

/-- A number written and read back. -/
theorem physNat_physPut (a n x : Nat) (s : State) : physNat (physPut a (natToBytes n x) s) a n = x % 256 ^ n := by
  have h := physBytes_physPut a (natToBytes n x) s
  rw [length_natToBytes] at h
  rw [physNat, h, bytesToNat_natToBytes]

theorem physPut_frame (a : Nat) (bs : List Byte) (s : State) :
    physPut a bs s = { s with mem := (physPut a bs s).mem, spoilt := (physPut a bs s).spoilt, near := (physPut a bs s).near } := by
  unfold physPut touchLines
  dsimp only
  split <;> rfl

/-! ### The canonical form is kept -/

/-- The device memory of a state has its one form. -/
abbrev MemOk (s : State) : Prop := Memory.wf s.mem = true

theorem reset_memOk : MemOk State.reset := by decide

theorem memOk_of_mem_eq {s t : State} (h : MemOk s) (e : t.mem = s.mem) : MemOk t := by rw [MemOk, e]; exact h

theorem memOk_foldl {α : Type} {f : State → α → State} (hf : ∀ s a, MemOk s → MemOk (f s a)) (l : List α) {s : State} (h : MemOk s) : MemOk (l.foldl f s) := by
  induction l generalizing s with
  | nil => exact h
  | cons a rest ih => exact ih (hf s a h)

theorem physPut_memOk (a : Nat) (bs : List Byte) {s : State} (h : MemOk s) : MemOk (physPut a bs s) := by
  rw [MemOk, physPut_mem]; exact cellsPut_wf h a bs

theorem physPutWord_memOk (a : Nat) (x : Word64) {s : State} (h : MemOk s) : MemOk (physPutWord a x s) := physPut_memOk _ _ h

theorem setLeafBit_memOk (p bit : Nat) (b : Bool) {s : State} (h : MemOk s) : MemOk (setLeafBit p bit b s) := by
  unfold setLeafBit
  dsimp only
  split
  · exact h
  · exact physPut_memOk _ _ h

theorem tailStore_memOk (pa level p : Nat) {s : State} (h : MemOk s) : MemOk (tailStore pa level p s) := by
  unfold tailStore
  dsimp only
  split
  · exact setLeafBit_memOk _ _ _ (setLeafBit_memOk _ _ _ h)
  · split
    · exact h
    · exact h
    · exact h
    · split
      · exact h
      · exact setLeafBit_memOk _ _ _ (setLeafBit_memOk _ _ _ h)

theorem noteWalk_memOk (asid va : Nat) (writes : Nat → Bool) (w : Walk) {s : State} (h : MemOk s) : MemOk (noteWalk asid va writes w s) := by
  unfold noteWalk
  split
  · dsimp only
    split
    · exact h
    · split
      · exact setLeafBit_memOk _ _ _ (setLeafBit_memOk _ _ _ h)
      · exact setLeafBit_memOk _ _ _ h
  · exact h

theorem noteLeaf_memOk (asid root : Nat) (write : Bool) (va : Nat) {s : State} (h : MemOk s) : MemOk (noteLeaf asid root write va s) := noteWalk_memOk _ _ _ _ h
theorem noteTag_memOk (asid root va : Nat) {s : State} (h : MemOk s) : MemOk (noteTag asid root va s) := noteWalk_memOk _ _ _ _ h

theorem recordUnit_memOk (asid root : Nat) (write : Bool) (va : Nat) {s : State} (h : MemOk s) : MemOk (recordUnit asid root write va s) := by
  have hn := noteLeaf_memOk asid root write va h
  unfold recordUnit
  dsimp only
  split
  · split
    · exact tailStore_memOk _ _ _ hn
    · exact hn
  · exact hn

theorem recordAccess_memOk (asid root : Nat) (write : Bool) (addr len : Nat) {s : State} (h : MemOk s) : MemOk (recordAccess asid root write addr len s) :=
  memOk_foldl (fun _ _ => recordUnit_memOk _ _ _ _) _ h

theorem farWriteOne_memOk (tier pa : Nat) (bs : List Byte) {s : State} (h : MemOk s) : MemOk (farWriteOne tier pa bs s) := by
  unfold farWriteOne
  split <;> exact h

/-- What goes to the far side leaves the package's memory alone. -/
theorem farPut_memOk (tier pa : Nat) (bs : List Byte) {s : State} (h : MemOk s) : MemOk (farPut tier pa bs s) := by
  unfold farPut
  split
  · exact farWriteOne_memOk _ _ _ h
  · exact memOk_foldl (fun _ _ h => farWriteOne_memOk _ _ _ h) _ h

theorem placePut_memOk (bk : Nat) (p : Place) (bs : List Byte) {s : State} (h : MemOk s) : MemOk (placePut bk p bs s) := by
  unfold placePut
  split
  · exact memOk_of_mem_eq h (by simp)
  · split
    · exact farPut_memOk _ _ _ h
    · exact physPut_memOk _ _ h
  · exact h

theorem putAt_memOk (v : View) (lane addr : Nat) (bs : List Byte) {s : State} (h : MemOk s) : MemOk (putAt v lane addr bs s) := by
  unfold putAt
  refine memOk_foldl (fun s u h => ?_) _ h
  dsimp only
  refine placePut_memOk _ _ _ ?_
  split
  · exact recordAccess_memOk _ _ _ _ _ h
  · exact h

theorem ctxPut_memOk (asid : Nat) (c : Ctx) (addr : Nat) (bs : List Byte) {s : State} (h : MemOk s) : MemOk (ctxPut asid c addr bs s) := by
  unfold ctxPut
  refine memOk_foldl (fun s u h => ?_) _ h
  dsimp only
  split
  · exact placePut_memOk _ _ _ (recordUnit_memOk _ _ _ _ h)
  · exact recordUnit_memOk _ _ _ _ h

theorem lendSlice_memOk (asid bk : Nat) (d : Desc) {s : State} (h : MemOk s) : MemOk (lendSlice asid bk d s) := by
  unfold lendSlice
  split
  · exact h
  · split
    · exact h
    · simpa [MemOk] using filter_wf h _

theorem packageReset_memOk {s t : State} (h : MemOk s) (e : execPackageReset s = .next t) : MemOk t := by
  cases e
  exact filter_wf h _

end Sys2Proof.Machine
end

