-- ==== Sys2Proof/Laws/Ops.lean ====
section
/-! SUPPORT. Laws of the operations that the words share: what each can do, said once. -/
namespace Sys2Proof.Machine
open Sys2Proof

/-! ### Masks of lanes -/

/-- The sum of 2^i over the numbers below n that a predicate names. -/
def powersBelow (p : Nat → Bool) (n : Nat) : Nat := ((List.range n).filter p).foldl (fun x i => x + 2 ^ i) 0

theorem powersBelow_succ (p : Nat → Bool) (n : Nat) : powersBelow p (n + 1) = powersBelow p n + if p n then 2 ^ n else 0 := by
  unfold powersBelow
  rw [List.range_succ, List.filter_append, List.foldl_append]
  by_cases h : p n = true <;> simp [h]

theorem powersBelow_lt (p : Nat → Bool) (n : Nat) : powersBelow p n < 2 ^ n := by
  induction n with
  | zero => simp [powersBelow]
  | succ n ih =>
    rw [powersBelow_succ, Nat.pow_succ]
    split <;> omega

theorem testBit_powersBelow (p : Nat → Bool) (n j : Nat) : (powersBelow p n).testBit j = (decide (j < n) && p j) := by
  induction n with
  | zero => simp [powersBelow]
  | succ n ih =>
    rw [powersBelow_succ]
    by_cases hp : p n = true
    · rw [if_pos hp, Nat.add_comm]
      by_cases hj : j = n
      · subst hj
        rw [Nat.testBit_two_pow_add_eq, ih]
        simp [hp]
      · by_cases hl : j < n
        · rw [Nat.testBit_two_pow_add_gt hl, ih]
          simp [hl, Nat.lt_succ_of_lt hl]
        · have h1 : 2 ^ n + powersBelow p n < 2 ^ j := by
            have := powersBelow_lt p n
            have h2 : 2 ^ (n + 1) ≤ 2 ^ j := Nat.pow_le_pow_right (by omega) (by omega)
            rw [Nat.pow_succ] at h2
            omega
          rw [Nat.testBit_lt_two_pow h1]
          simp [show ¬ j < n + 1 by omega]
    · rw [if_neg hp, Nat.add_zero, ih]
      by_cases hj : j = n
      · subst hj; simp [hp]
      · simp [show (j < n + 1) = (j < n) by rw [Nat.lt_succ_iff, Nat.le_iff_lt_or_eq]; simp [hj]]

/-- Bit i of a mask is the predicate of lane i. -/
theorem getLsbD_maskOf (p : Nat → Bool) (i : Nat) : (maskOf p).getLsbD i = (decide (i < 32) && p i) := by
  have h : maskOf p = BitVec.ofNat 32 (powersBelow p 32) := rfl
  rw [h, BitVec.getLsbD_ofNat, testBit_powersBelow]
  by_cases hi : i < 32 <;> simp [hi]

theorem mem_lanesOf (m : Word32) (i : Nat) : i ∈ lanesOf m ↔ i < 32 ∧ m.getLsbD i = true := by
  simp [lanesOf, lanes32]

/-! ### Waves and views -/

@[simp] theorem mget_putWave_same (k : Nat) (w : Wave) (s : State) : mget (putWave k w s).waves k = some w := by simp

theorem mget_putWave_ne {k j : Nat} (h : j ≠ k) (w : Wave) (s : State) : mget (putWave k w s).waves j = mget s.waves j := by
  simp [mget_mput_ne _ _ h]

theorem putWave_putWave (k : Nat) (x y : Wave) (s : State) : putWave k y (putWave k x s) = putWave k y s := by
  simp [putWave, mput_mput]

theorem modWave_of_some {k : Nat} {w : Wave} {s : State} (h : mget s.waves k = some w) (f : Wave → Wave) : modWave k f s = putWave k (f w) s := by
  simp [modWave, h, putWave]

theorem modWave_of_none {k : Nat} {s : State} (h : mget s.waves k = none) (f : Wave → Wave) : modWave k f s = s := by
  simp [modWave, h]

theorem modBlock_of_some {k : Nat} {b : Block} {s : State} (h : mget s.blocks k = some b) (f : Block → Block) : modBlock k f s = putBlock k (f b) s := by
  simp [modBlock, h, putBlock]

theorem mget_modWave (k j : Nat) (f : Wave → Wave) (s : State) :
    mget (modWave k f s).waves j = if j = k then (mget s.waves k).map f else mget s.waves j := by
  unfold modWave
  split
  · simp only [mget_mput]
    split <;> simp_all
  · split <;> simp_all

theorem mget_modBlock (k j : Nat) (f : Block → Block) (s : State) :
    mget (modBlock k f s).blocks j = if j = k then (mget s.blocks k).map f else mget s.blocks j := by
  unfold modBlock
  split
  · simp only [mget_mput]
    split <;> simp_all
  · split <;> simp_all

theorem mget_modGrid (k j : Nat) (f : Grid → Grid) (s : State) :
    mget (modGrid k f s).grids j = if j = k then (mget s.grids k).map f else mget s.grids j := by
  unfold modGrid
  split
  · simp only [mget_mput]
    split <;> simp_all
  · split <;> simp_all

theorem mget_modCtx (k j : Nat) (f : Ctx → Ctx) (s : State) :
    mget (modCtx k f s).ctxs j = if j = k then (mget s.ctxs k).map f else mget s.ctxs j := by
  unfold modCtx
  split
  · simp only [mget_mput]
    split <;> simp_all
  · split <;> simp_all

/-- What is bound to an ASID is what was bound last (R291), whether a LOAD has adopted it or not. -/
theorem logOf_setLog (asid k : Nat) (l : Option LogArea) (s : State) : logOf (setLog asid l s) k = if k = asid then l else logOf s k := by
  unfold setLog logOf
  by_cases h : k = asid
  · subst h
    cases hc : mget s.ctxs k <;> cases l <;> simp [hc, mget_modCtx]
  · cases hc : mget s.ctxs asid <;> cases l <;> simp [h, mget_modCtx, mget_mput_ne, mget_mdel_ne]

/-- A loop that issues is the newest of its block, and no other field of it changes (R187). -/
theorem mget_joinLoops (v : View) (k : Nat) (s : State) : mget (joinLoops v s).blocks k =
    if k = v.w.blk then (mget s.blocks k).map (fun b => { b with loops := b.loops ++ [(v.w.idx, v.w.engNo)] }) else mget s.blocks k := by
  unfold joinLoops
  rw [mget_modBlock]
  split <;> simp_all

/-- The oldest loop of a block leaves it, and no other field of it changes (R187). -/
theorem mget_leaveLoops (bk k : Nat) (s : State) : mget (leaveLoops bk s).blocks k =
    if k = bk then (mget s.blocks k).map (fun b => { b with loops := b.loops.drop 1 }) else mget s.blocks k := by
  unfold leaveLoops
  rw [mget_modBlock]
  split <;> simp_all

theorem current_eq_some {s : State} {key : Nat} {w : Wave} : current s = some (key, w) ↔ s.sched.cur = some key ∧ mget s.waves key = some w := by
  unfold current
  constructor
  · intro h
    split at h
    · cases h
    · split at h
      · cases h
      · cases h; exact ⟨‹_›, ‹_›⟩
  · rintro ⟨h1, h2⟩
    simp [h1, h2]

theorem current_issuing {s : State} {key : Nat} {w : Wave} (h : mget s.waves key = some w) : current (issuing key s) = some (key, w) := by
  simp [current_eq_some, h]

/-- What a view is a view of. -/
theorem viewOf_eq_some {s : State} {k : Nat} {v : View} : viewOf s k = some v ↔
    v.key = k ∧ mget s.waves k = some v.w ∧ mget s.blocks v.w.blk = some v.b ∧ mget s.grids v.b.gid = some v.g ∧ mget s.ctxs v.g.asid = some v.c := by
  unfold viewOf
  constructor
  · intro h
    repeat' split at h
    all_goals cases h
    exact ⟨rfl, ‹_›, ‹_›, ‹_›, ‹_›⟩
  · rintro ⟨rfl, h2, h3, h4, h5⟩
    simp [h2, h3, h4, h5]

/-! ### Words -/

/-- A word that takes effect does what its body does. -/
theorem word_of_issues {g : Guard} {srcs : List Src} {dests : List (Operand × Nat)} {key : Nat} {w : Wave} {m : Word32} {s : State}
    (h : Issues g srcs dests key w m s) (body : Nat → Wave → Word32 → State → Result) : word g srcs dests body s = body key w m s := by
  unfold word
  rw [h.wave]
  simp only [h.guardFull, h.mask, h.ready, if_neg h.lanes, Bool.false_eq_true, if_false]

theorem regWord_of_issues {g : Guard} {srcs : List Src} {dests : List (Operand × Nat)} {key : Nat} {w : Wave} {m : Word32} {s : State}
    (h : Issues g srcs dests key w m s) (f : Word32 → Wave → Wave) : regWord g srcs dests f s = GoesOn key (f m w) s :=
  word_of_issues h _

theorem viewWord_of_acts {g : Guard} {srcs : List Src} {dests : List (Operand × Nat)} {v : View} {m : Word32} {s : State}
    (h : Acts g srcs dests v m s) (body : View → Word32 → State → Result) : viewWord g srcs dests body s = body v m s := by
  unfold viewWord
  rw [word_of_issues h.issues]
  simp only [h.view]

/-- Everything a word can do: it has no wave to issue for; it waits at its place, and nothing changes; its guard skips it; an empty source traps; or it takes effect. -/
theorem word_cases (g : Guard) (srcs : List Src) (dests : List (Operand × Nat)) (body : Nat → Wave → Word32 → State → Result) (s : State) :
    (current s = none ∧ word g srcs dests body s = .fault .noIssuingWave) ∨
    ∃ key w, current s = some (key, w) ∧
      (word g srcs dests body s = .next s ∨
       (guardMask w g = 0 ∧ word g srcs dests body s = GoesOn key w s) ∨
       (∃ o l, word g srcs dests body s = raiseTrap key w { cause := 1, o := o, lanes := l } (waitsOn key) s) ∨
       (Issues g srcs dests key w (guardMask w g) s ∧ word g srcs dests body s = body key w (guardMask w g) s)) := by
  cases hc : current s with
  | none => exact .inl ⟨rfl, by simp [word, hc]⟩
  | some p =>
    obtain ⟨key, w⟩ := p
    refine .inr ⟨key, w, rfl, ?_⟩
    by_cases hg : guardEmpty w g = true
    · exact .inl (by simp [word, hc, hg])
    · by_cases hm : guardMask w g = 0
      · exact .inr (.inl ⟨hm, by simp [word, hc, hg, hm, GoesOn]⟩)
      · cases hr : readiness w (guardMask w g) srcs dests with
        | wait => exact .inl (by simp only [word, hc, if_neg hg, if_neg hm, hr])
        | trap o l => exact .inr (.inr (.inl ⟨o, l, by simp only [word, hc, if_neg hg, if_neg hm, hr]⟩))
        | go => exact .inr (.inr (.inr ⟨⟨hc, by simpa using hg, rfl, hm, hr⟩, by simp only [word, hc, if_neg hg, if_neg hm, hr]⟩))

/-! ### Exceptions -/

theorem hardFault_next (w : Wave) (f : FaultSpec) (s : State) : ∃ t, hardFault w f s = .next t := ⟨_, rfl⟩
theorem illegalWord_next (w : Wave) (s : State) : ∃ t, illegalWord w s = .next t := ⟨_, rfl⟩

/-- What a soft trap can do to its wave (R109, R110): inside a handler it is a hard fault; without a handler its record is written, which for Determinism a hard fault follows; else the handler is entered, with the resume point saved and the PC at the vector. -/
theorem softTrap_cases (w : Wave) (t : TrapSpec) :
    (softTrap w t = .hard ∧ w.trapSt = true) ∨
    (∃ r, softTrap w t = (if t.cause = 5 then .fault { w with trec := r } else .go { w with trec := r }) ∧ w.trapSt = false ∧ w.trapVec = 0) ∨
    (∃ w1, softTrap w t = .enter w1 ∧ w.trapSt = false ∧ w.trapVec ≠ 0 ∧ w1.trapSt = true ∧ w1.pc = w.trapVec ∧ w1.clause = none ∧ w1.resume.isSome = true) := by
  unfold softTrap
  by_cases h1 : w.trapSt = true
  · exact .inl ⟨if_pos h1, h1⟩
  · refine .inr ?_
    have h0 : w.trapSt = false := by simpa using h1
    dsimp only
    rw [if_neg h1]
    by_cases h2 : w.trapVec = 0
    · exact .inl ⟨_, if_pos h2, h0, h2⟩
    · exact .inr ⟨_, if_neg h2, h0, h2, rfl, rfl, rfl, rfl⟩

/-- A soft trap answers a next state where its default action does. -/
theorem raiseTrap_next (key : Nat) (w : Wave) (t : TrapSpec) {go : Wave → State → Result} (s : State) (h : ∀ w1 s1, ∃ u, go w1 s1 = .next u) :
    ∃ u, raiseTrap key w t go s = .next u := by
  unfold raiseTrap
  split
  · exact illegalWord_next w s
  · exact ⟨_, rfl⟩
  · exact h _ _
  · exact illegalWord_next _ _

/-- A word whose body goes on, for a wave that issues, answers a next state. -/
theorem word_next {g : Guard} {srcs : List Src} {dests : List (Operand × Nat)} {body : Nat → Wave → Word32 → State → Result} {s : State}
    (hc : (current s).isSome = true) (h : ∀ key w m, Issues g srcs dests key w m s → ∃ u, body key w m s = .next u) :
    ∃ u, word g srcs dests body s = .next u := by
  rcases word_cases g srcs dests body s with ⟨hn, _⟩ | ⟨key, w, _, h1 | ⟨_, h1⟩ | ⟨o, l, h1⟩ | ⟨hi, h1⟩⟩
  · simp [hn] at hc
  · exact ⟨s, h1⟩
  · exact ⟨_, h1⟩
  · rw [h1]; exact raiseTrap_next key w _ s (fun _ _ => ⟨_, rfl⟩)
  · rw [h1]; exact h key w _ hi

theorem regWord_next (g : Guard) (srcs : List Src) (dests : List (Operand × Nat)) (f : Word32 → Wave → Wave) {s : State} (hc : (current s).isSome = true) :
    ∃ u, regWord g srcs dests f s = .next u := word_next hc (fun _ _ _ _ => ⟨_, rfl⟩)

/-- The end of a stopping wave's word stays a next state. -/
theorem settle_next (i : Instr) (key : Nat) (before s : State) : ∃ t, settle i key before (.next s) = .next t := by
  unfold settle
  dsimp only
  repeat' split
  all_goals exact ⟨_, rfl⟩

/-- Restoring from a soft trap leaves the handler. -/
theorem trapReturn_trapSt (mode : Nat) (r : Resume) (w : Wave) : (trapReturn mode r w).trapSt = false := by
  unfold trapReturn
  dsimp only
  split
  · split <;> simp
  · rfl

/-! ### Sync space and queues -/

/-- Discarding what a Quern operation could not find: without its context it changes nothing. -/
theorem syncWrite_of_none {asid : Nat} {s : State} (h : mget s.ctxs asid = none) (a : Nat) (x : Word64) : syncWrite asid a x s = s := by
  simp [syncWrite, h]

theorem counterDec_zero {asid a : Nat} {c : Ctx} {s : State} (h : mget s.ctxs asid = some c) (hz : syncWord c a = 0) : counterDec asid a s = s := by
  simp [counterDec, h, hz]

/-- A group that asks for placement enters one request, or changes nothing. -/
theorem askGroup_cases (gid num : Nat) (s : State) :
    askGroup gid num s = s ∨ ∃ g bks, mget s.grids gid = some g ∧ groupReady s gid (groupOf g.d num) g.d = true ∧
      askGroup gid num s = enqueue (.resume bks) gid g.d.prio s := by
  unfold askGroup
  split
  · exact .inl rfl
  · dsimp only
    split
    · next g hg hc => exact .inr ⟨g, _, hg, (Bool.and_eq_true _ _ ▸ hc).1, rfl⟩
    · exact .inl rfl

theorem askGroup_frame (gid num : Nat) (s : State) :
    askGroup gid num s = { s with placeQ := (askGroup gid num s).placeQ, nextReq := (askGroup gid num s).nextReq, idle := (askGroup gid num s).idle } := by
  rcases askGroup_cases gid num s with h | ⟨g, bks, -, -, h⟩
  · rw [h]
  · rw [h]; rfl

/-- A block that leaves its requests is in none of them. -/
theorem without_blocks {bk : Nat} {k k' : ReqKind} (h : k.without bk = some k') : bk ∉ k'.blocks := by
  unfold ReqKind.without at h
  cases k <;> simp [ReqKind.blocks] at h <;> obtain ⟨h1, rfl⟩ := h <;> simp [ReqKind.blocks] <;> exact fun e => h1 e.symm

/-- Testing phase conditions touches the phase records and the placement queue alone. -/
theorem satisfy_frame (bk : Nat) (x : Word64) (s : State) :
    satisfy bk x s = { s with phaseQ := (satisfy bk x s).phaseQ, placeQ := (satisfy bk x s).placeQ, nextReq := (satisfy bk x s).nextReq, idle := (satisfy bk x s).idle } := by
  unfold satisfy
  split
  · rw [askGroup_frame]
  · rfl

theorem testRecord_frame (asid : Nat) (s : State) (bk : Nat) :
    testRecord asid s bk = { s with phaseQ := (testRecord asid s bk).phaseQ, placeQ := (testRecord asid s bk).placeQ, nextReq := (testRecord asid s bk).nextReq, idle := (testRecord asid s bk).idle } := by
  unfold testRecord
  repeat' split
  all_goals first
    | rfl
    | exact satisfy_frame _ _ _

theorem wakePhases_frame (asid : Nat) (s : State) :
    wakePhases asid s = { s with phaseQ := (wakePhases asid s).phaseQ, placeQ := (wakePhases asid s).placeQ, nextReq := (wakePhases asid s).nextReq, idle := (wakePhases asid s).idle } := by
  unfold wakePhases
  generalize s.phaseQ.map Prod.fst = l
  induction l generalizing s with
  | nil => rfl
  | cons k rest ih =>
    simp only [List.foldl_cons]
    have h := ih (testRecord asid s k)
    have h2 := testRecord_frame asid s k
    rw [h2] at h
    rw [h2]
    exact h

/-- Every field but the phase records and the placement queue survives a test of phase conditions. -/
@[simp] theorem wakePhases_mem (asid : Nat) (s : State) : (wakePhases asid s).mem = s.mem := by rw [wakePhases_frame]
@[simp] theorem wakePhases_waves (asid : Nat) (s : State) : (wakePhases asid s).waves = s.waves := by rw [wakePhases_frame]
@[simp] theorem wakePhases_blocks (asid : Nat) (s : State) : (wakePhases asid s).blocks = s.blocks := by rw [wakePhases_frame]
@[simp] theorem wakePhases_grids (asid : Nat) (s : State) : (wakePhases asid s).grids = s.grids := by rw [wakePhases_frame]
@[simp] theorem wakePhases_ctxs (asid : Nat) (s : State) : (wakePhases asid s).ctxs = s.ctxs := by rw [wakePhases_frame]
@[simp] theorem wakePhases_pf (asid : Nat) (s : State) : (wakePhases asid s).pf = s.pf := by rw [wakePhases_frame]
@[simp] theorem wakePhases_out (asid : Nat) (s : State) : (wakePhases asid s).out = s.out := by rw [wakePhases_frame]
@[simp] theorem wakePhases_luns (asid : Nat) (s : State) : (wakePhases asid s).luns = s.luns := by rw [wakePhases_frame]

/-! ### The log of Quern operations -/

/-- A record goes to a context's log and into memory, and nowhere else. -/
theorem logAppend_frame (asid w0 w1 w2 w3 : Nat) (s : State) :
    let t := logAppend asid w0 w1 w2 w3 s
    t = { s with ctxs := t.ctxs, mem := t.mem, spoilt := t.spoilt, near := t.near } := by
  unfold logAppend
  split
  · rfl
  · split
    · rfl
    · split
      · rfl
      · dsimp only
        rw [physPut_frame]
        simp [modCtx]
        split <;> rfl

/-- A record of a replay is consumed in its context's log alone. -/
theorem consume_frame (asid i : Nat) (s : State) : consume asid i s = { s with ctxs := (consume asid i s).ctxs } := by
  unfold consume modCtx
  split <;> rfl

/-- A Quern operation that is admitted changes at most its context's log and, where it is recorded, memory. -/
theorem quernOp_frame {asid gid num wave ordinal addr : Nat} {global own : Bool} {s t : State} (h : quernOp asid gid num wave ordinal addr global s own = some t) :
    t = { s with ctxs := t.ctxs, mem := t.mem, spoilt := t.spoilt, near := t.near } := by
  unfold quernOp at h
  split at h
  · cases h; rfl
  · dsimp only at h
    split at h
    · cases h; exact logAppend_frame _ _ _ _ _ _
    · split at h
      · split at h
        · cases h; rfl
        · split at h
          · cases h; rfl
          · split at h
            · cases h; rfl
            · split at h
              · cases h; rw [consume_frame]
              · cases h
      · cases h; rfl

/-- The same of what Lovage makes for a wave. -/
theorem servedOp_frame {key addr : Nat} {s t : State} (h : servedOp key addr s = some t) :
    t = { s with ctxs := t.ctxs, mem := t.mem, spoilt := t.spoilt, near := t.near } := by
  unfold servedOp at h
  split at h
  · exact quernOp_frame h
  · cases h; rfl

/-- What may write a status word goes on where no replay holds it, and a held one leaves the state before it. -/
theorem unlessEarly_of_not {gid num : Nat} {s : State} (h : statusEarly s gid num = false) (t : State) : unlessEarly gid num s t = t := by
  simp [unlessEarly, h]

theorem unlessEarly_cases (gid num : Nat) (s t : State) :
    (unlessEarly gid num s t = s ∧ statusEarly s gid num = true ∧ statusSet t gid num = true) ∨ unlessEarly gid num s t = t := by
  unfold unlessEarly
  split <;> simp_all

/-- Without a recording or a replay of its grid an operation goes on as it is. -/
theorem quernOp_plain {asid gid : Nat} {c : Ctx} {s : State} (hc : mget s.ctxs asid = some c) (hr : recording c gid = false) (hp : replaying c gid = false)
    (num wave ordinal addr : Nat) (global own : Bool) : quernOp asid gid num wave ordinal addr global s own = some s := by
  simp [quernOp, hc, hr, hp]

/-! ### Cores and quanta -/

/-- The end of a partition's save touches the partitions alone. -/
theorem saveOver_frame (asid : Nat) (s : State) : saveOver asid s = { s with parts := (saveOver asid s).parts } := by
  unfold saveOver
  split <;> rfl

@[simp] theorem saveOver_blocks (asid : Nat) (s : State) : (saveOver asid s).blocks = s.blocks := by rw [saveOver_frame]
@[simp] theorem saveOver_cores (asid : Nat) (s : State) : (saveOver asid s).cores = s.cores := by rw [saveOver_frame]
@[simp] theorem saveOver_waves (asid : Nat) (s : State) : (saveOver asid s).waves = s.waves := by rw [saveOver_frame]
@[simp] theorem saveOver_ctxs (asid : Nat) (s : State) : (saveOver asid s).ctxs = s.ctxs := by rw [saveOver_frame]
@[simp] theorem saveOver_mem (asid : Nat) (s : State) : (saveOver asid s).mem = s.mem := by rw [saveOver_frame]

/-- A block that takes a core changes blocks, cores, partitions and the idle level, and nothing else. -/
theorem takeCore_frame (asid bk core : Nat) (life : Life) (s : State) :
    takeCore asid bk core life s = { s with
      blocks := mput s.blocks bk { (mget s.blocks bk).getD (freshBlock (bk / 2 ^ 28) (bk % 2 ^ 28)) with core := some core, life := life }
      cores := mput s.cores core { ctx := some asid, dirty := true }
      parts := (takeCore asid bk core life s).parts, idle := 0 } := by
  unfold takeCore
  rw [saveOver_frame]

/-- A save that no resident block needs any more holds nobody up. -/
theorem stillSaving_of_none {s : State} {n : Nat} {p : Part}
    (h : ∀ e ∈ s.ctxs, e.2.ent.part = n → p.keep ≠ some e.1 → residentOf s e.1 = []) : stillSaving s n p = false := by
  have : otherResident s n p.keep = false := by
    rw [otherResident, List.any_eq_false]
    intro e he
    simp only [Bool.and_eq_true, beq_iff_eq, bne_iff_ne, ne_eq, Bool.not_eq_true', not_and, Bool.not_eq_false]
    intro hp
    simp [h e he hp.1 hp.2]
  simp [stillSaving, this]

/-! ### Inbound accesses -/

/-- What an inbound access that is performed has passed. -/
theorem inbound_some {s : State} {asid addr len : Nat} {write : Bool} {c : Ctx} (h : inbound s asid addr len write = some c) :
    permitted s asid addr len write = some c ∧ nearLeaves s asid c addr len write = true ∧ (write = true ∨ lostAt s asid (rootOf c) addr len = none) := by
  unfold inbound at h
  split at h
  · cases h
  · split at h
    · rename_i c' hc hp
      cases h
      exact ⟨hc, hp.1, by simpa using hp.2⟩
    · cases h

/-! ### Commands -/

/-- A command that is discarded, or begun. -/
theorem startCmd_cases (op asid : Nat) (f : State → State) (s : State) :
    (s.pf.go = true ∧ startCmd op asid f s = .next s) ∨
    (s.pf.go = false ∧ startCmd op asid f s =
      .next (f { s with pf := { s.pf with go := true, op := op % 16, asid := asid % 4096, runA := s.pf.cmda, runL := s.pf.cmdl } })) := by
  unfold startCmd
  by_cases h : s.pf.go = true
  · exact .inl ⟨h, by simp [h]⟩
  · exact .inr ⟨by simpa using h, by simp [h]⟩

end Sys2Proof.Machine
end

