-- ==== Sys2Proof/Laws/PerInstr.lean ====
section
/-! SUPPORT. A family of lemmas over the constructors of Instr: the encoder writes the opcode of an instruction's row into bits [63:56] of its word (R26, R35), and an event has no word. -/
namespace Sys2Proof.Laws

/-- Bits [63:56] of the first word of i hold the opcode of its row. -/
def Opcode.Statement (i : Instr) : Prop := ∀ w, (encode i).head? = some w → opOf w = i.shape.op ∧ i.isWord = true

/-- The high part of an appended word. -/
theorem toNat_append_div {k n : Nat} (x : BitVec k) (y : BitVec n) (m : Nat) : (x ++ y).toNat / 2 ^ (n + m) = x.toNat / 2 ^ m := by
  rw [BitVec.toNat_append, Nat.pow_add, ← Nat.div_div_eq_div_mul, ← Nat.shiftRight_eq_div_pow _ n, Nat.shiftRight_or_distrib,
    Nat.shiftLeft_shiftRight, Nat.shiftRight_eq_div_pow y.toNat, Nat.div_eq_of_lt y.isLt, Nat.or_zero]

theorem opOf_eq (w : Word64) : opOf w = w.toNat / 2 ^ 56 % 256 := by
  simp [opOf, BitVec.extractLsb'_toNat, Nat.shiftRight_eq_div_pow]

theorem common_div (op : Nat) (g : Guard) (sub : BitVec 4) (h : op < 256) : (encodeCommon op g sub).toNat / 2 ^ 8 % 256 = op := by
  have h1 : (encodeCommon op g sub).toNat / 2 ^ 8 = (BitVec.ofNat 8 op).toNat / 2 ^ 0 :=
    (toNat_append_div _ sub 4).trans ((toNat_append_div _ (BitVec.ofBool g.gn) 3).trans (toNat_append_div (BitVec.ofNat 8 op) g.g 0))
  rw [h1]
  simp
  omega

theorem XW.opOf_encode (op : Nat) (x : XW) (h : op < 256) : opOf (x.encode op) = op := by
  rw [opOf_eq]
  have h1 : (x.encode op).toNat / 2 ^ 56 = (encodeCommon op x.guard x.sub).toNat / 2 ^ 8 :=
    (toNat_append_div _ _ 55).trans ((toNat_append_div _ _ 54).trans ((toNat_append_div _ _ 53).trans ((toNat_append_div _ _ 52).trans
      ((toNat_append_div _ _ 51).trans ((toNat_append_div _ _ 48).trans ((toNat_append_div _ _ 44).trans ((toNat_append_div _ _ 35).trans
        ((toNat_append_div _ _ 26).trans ((toNat_append_div _ _ 17).trans (toNat_append_div _ _ 8))))))))))
  rw [h1, common_div op _ _ h]

theorem MW.opOf_encode (op : Nat) (x : MW) (h : op < 256) : opOf (x.encode op) = op := by
  rw [opOf_eq]
  have h1 : (x.encode op).toNat / 2 ^ 56 = (encodeCommon op x.guard x.sub).toNat / 2 ^ 8 :=
    (toNat_append_div _ _ 55).trans ((toNat_append_div _ _ 54).trans ((toNat_append_div _ _ 53).trans ((toNat_append_div _ _ 50).trans
      ((toNat_append_div _ _ 48).trans ((toNat_append_div _ _ 45).trans ((toNat_append_div _ _ 35).trans ((toNat_append_div _ _ 26).trans
        ((toNat_append_div _ _ 17).trans (toNat_append_div _ _ 8)))))))))
  rw [h1, common_div op _ _ h]

theorem QW.opOf_encode (op : Nat) (x : QW) (h : op < 256) : opOf (x.encode op) = op := by
  rw [opOf_eq]
  have h1 : (x.encode op).toNat / 2 ^ 56 = (encodeCommon op x.guard x.sub).toNat / 2 ^ 8 :=
    (toNat_append_div _ _ 50).trans ((toNat_append_div _ _ 41).trans ((toNat_append_div _ _ 32).trans ((toNat_append_div _ _ 24).trans
      ((toNat_append_div _ _ 19).trans ((toNat_append_div _ _ 14).trans (toNat_append_div _ _ 8))))))
  rw [h1, common_div op _ _ h]

theorem KW.opOf_encode (op sub : Nat) (x : KW) (h : op < 256) : opOf (x.encode op sub) = op := by
  rw [opOf_eq]
  have h1 : (x.encode op sub).toNat / 2 ^ 56 = (encodeCommon op x.guard (BitVec.ofNat 4 sub)).toNat / 2 ^ 8 :=
    (toNat_append_div _ _ 55).trans ((toNat_append_div _ _ 54).trans ((toNat_append_div _ _ 52).trans ((toNat_append_div _ _ 44).trans
      ((toNat_append_div _ _ 35).trans ((toNat_append_div _ _ 26).trans ((toNat_append_div _ _ 17).trans (toNat_append_div _ _ 8)))))))
  rw [h1, common_div op _ _ h]

theorem YW.opOf_encode (op sub : Nat) (x : YW) (h : op < 256) : opOf (x.encode op sub) = op := by
  rw [opOf_eq]
  have h1 : (x.encode op sub).toNat / 2 ^ 56 = (encodeCommon op x.guard (BitVec.ofNat 4 sub)).toNat / 2 ^ 8 :=
    (toNat_append_div _ _ 55).trans ((toNat_append_div _ _ 54).trans ((toNat_append_div _ _ 53).trans ((toNat_append_div _ _ 52).trans
      ((toNat_append_div _ _ 51).trans ((toNat_append_div _ _ 35).trans ((toNat_append_div _ _ 26).trans ((toNat_append_div _ _ 17).trans
        (toNat_append_div _ _ 8))))))))
  rw [h1, common_div op _ _ h]

theorem JW.opOf_encode (op : Nat) (x : JW) (h : op < 256) : opOf (x.encode op) = op := by
  rw [opOf_eq]
  have h1 : (x.encode op).toNat / 2 ^ 56 = (encodeCommon op x.guard 0#4).toNat / 2 ^ 8 :=
    (toNat_append_div _ _ 54).trans ((toNat_append_div _ _ 26).trans ((toNat_append_div _ _ 17).trans (toNat_append_div _ _ 8)))
  rw [h1, common_div op _ _ h]

theorem opOf_encodeP (reg : Bool) (n : BitVec 6) (st : Steps) : opOf (encodeP reg n st) = 0xF0 := by
  rw [opOf_eq]
  have h1 : (encodeP reg n st).toNat / 2 ^ 56 = (0xF0#8).toNat / 2 ^ 0 :=
    (toNat_append_div _ st.c 48).trans ((toNat_append_div _ st.b 40).trans ((toNat_append_div _ st.a 32).trans ((toNat_append_div _ st.d 24).trans
      ((toNat_append_div _ _ 8).trans (toNat_append_div (0xF0#8) (0#8) 0)))))
  rw [h1]
  rfl

/-- Every opcode has eight bits. -/
theorem opcode_of_shape (i : Instr) (h : i.shape.op < 256) : Opcode.Statement i := by
  intro w hw
  unfold encode at hw
  unfold Instr.isWord
  revert h hw
  cases i.shape with
  | x op row x => intro h hw; simp [withLiteral] at hw; subst hw; exact ⟨XW.opOf_encode op x h, rfl⟩
  | m op row x => intro h hw; simp [withLiteral] at hw; subst hw; exact ⟨MW.opOf_encode op x h, rfl⟩
  | q op row x => intro h hw; simp at hw; subst hw; exact ⟨QW.opOf_encode op x h, rfl⟩
  | k op sub row x => intro h hw; simp [withLiteral] at hw; subst hw; exact ⟨KW.opOf_encode op sub x h, rfl⟩
  | y op sub row x => intro h hw; simp [withLiteral] at hw; subst hw; exact ⟨YW.opOf_encode op sub x h, rfl⟩
  | j op row x => intro h hw; simp at hw; subst hw; exact ⟨JW.opOf_encode op x h, rfl⟩
  | p reg n st => intro h hw; simp at hw; subst hw; exact ⟨opOf_encodeP reg n st, rfl⟩
  | event => intro h hw; simp at hw

/-! ### One lemma per constructor -/

theorem Opcode.add (x : XW) : Opcode.Statement (.add x) := opcode_of_shape _ (of_decide_eq_true rfl)
theorem Opcode.sub (x : XW) : Opcode.Statement (.sub x) := opcode_of_shape _ (of_decide_eq_true rfl)
theorem Opcode.adds (x : XW) : Opcode.Statement (.adds x) := opcode_of_shape _ (of_decide_eq_true rfl)
theorem Opcode.subs (x : XW) : Opcode.Statement (.subs x) := opcode_of_shape _ (of_decide_eq_true rfl)
theorem Opcode.mul (x : XW) : Opcode.Statement (.mul x) := opcode_of_shape _ (of_decide_eq_true rfl)
theorem Opcode.mulh (x : XW) : Opcode.Statement (.mulh x) := opcode_of_shape _ (of_decide_eq_true rfl)
theorem Opcode.mad (x : XW) : Opcode.Statement (.mad x) := opcode_of_shape _ (of_decide_eq_true rfl)
theorem Opcode.abs (x : XW) : Opcode.Statement (.abs x) := opcode_of_shape _ (of_decide_eq_true rfl)
theorem Opcode.min (x : XW) : Opcode.Statement (.min x) := opcode_of_shape _ (of_decide_eq_true rfl)
theorem Opcode.max (x : XW) : Opcode.Statement (.max x) := opcode_of_shape _ (of_decide_eq_true rfl)
theorem Opcode.and (x : XW) : Opcode.Statement (.and x) := opcode_of_shape _ (of_decide_eq_true rfl)
theorem Opcode.or (x : XW) : Opcode.Statement (.or x) := opcode_of_shape _ (of_decide_eq_true rfl)
theorem Opcode.xor (x : XW) : Opcode.Statement (.xor x) := opcode_of_shape _ (of_decide_eq_true rfl)
theorem Opcode.andn (x : XW) : Opcode.Statement (.andn x) := opcode_of_shape _ (of_decide_eq_true rfl)
theorem Opcode.shl (x : XW) : Opcode.Statement (.shl x) := opcode_of_shape _ (of_decide_eq_true rfl)
theorem Opcode.shr (x : XW) : Opcode.Statement (.shr x) := opcode_of_shape _ (of_decide_eq_true rfl)
theorem Opcode.sar (x : XW) : Opcode.Statement (.sar x) := opcode_of_shape _ (of_decide_eq_true rfl)
theorem Opcode.rol (x : XW) : Opcode.Statement (.rol x) := opcode_of_shape _ (of_decide_eq_true rfl)
theorem Opcode.clz (x : XW) : Opcode.Statement (.clz x) := opcode_of_shape _ (of_decide_eq_true rfl)
theorem Opcode.popc (x : XW) : Opcode.Statement (.popc x) := opcode_of_shape _ (of_decide_eq_true rfl)
theorem Opcode.brev (x : XW) : Opcode.Statement (.brev x) := opcode_of_shape _ (of_decide_eq_true rfl)
theorem Opcode.bfx (x : XW) : Opcode.Statement (.bfx x) := opcode_of_shape _ (of_decide_eq_true rfl)
theorem Opcode.bfi (x : XW) : Opcode.Statement (.bfi x) := opcode_of_shape _ (of_decide_eq_true rfl)
theorem Opcode.mov (x : XW) : Opcode.Statement (.mov x) := opcode_of_shape _ (of_decide_eq_true rfl)
theorem Opcode.lea (x : XW) : Opcode.Statement (.lea x) := opcode_of_shape _ (of_decide_eq_true rfl)
theorem Opcode.padd (x : XW) : Opcode.Statement (.padd x) := opcode_of_shape _ (of_decide_eq_true rfl)
theorem Opcode.divu (x : XW) : Opcode.Statement (.divu x) := opcode_of_shape _ (of_decide_eq_true rfl)
theorem Opcode.remu (x : XW) : Opcode.Statement (.remu x) := opcode_of_shape _ (of_decide_eq_true rfl)
theorem Opcode.sel (x : XW) : Opcode.Statement (.sel x) := opcode_of_shape _ (of_decide_eq_true rfl)
theorem Opcode.hmix (x : XW) : Opcode.Statement (.hmix x) := opcode_of_shape _ (of_decide_eq_true rfl)
theorem Opcode.fadd (x : XW) : Opcode.Statement (.fadd x) := opcode_of_shape _ (of_decide_eq_true rfl)
theorem Opcode.fsub (x : XW) : Opcode.Statement (.fsub x) := opcode_of_shape _ (of_decide_eq_true rfl)
theorem Opcode.fmul (x : XW) : Opcode.Statement (.fmul x) := opcode_of_shape _ (of_decide_eq_true rfl)
theorem Opcode.fma (x : XW) : Opcode.Statement (.fma x) := opcode_of_shape _ (of_decide_eq_true rfl)
theorem Opcode.fmin (x : XW) : Opcode.Statement (.fmin x) := opcode_of_shape _ (of_decide_eq_true rfl)
theorem Opcode.fmax (x : XW) : Opcode.Statement (.fmax x) := opcode_of_shape _ (of_decide_eq_true rfl)
theorem Opcode.fabs (x : XW) : Opcode.Statement (.fabs x) := opcode_of_shape _ (of_decide_eq_true rfl)
theorem Opcode.fneg (x : XW) : Opcode.Statement (.fneg x) := opcode_of_shape _ (of_decide_eq_true rfl)
theorem Opcode.frnd (x : XW) : Opcode.Statement (.frnd x) := opcode_of_shape _ (of_decide_eq_true rfl)
theorem Opcode.fclass (x : XW) : Opcode.Statement (.fclass x) := opcode_of_shape _ (of_decide_eq_true rfl)
theorem Opcode.frcp (x : XW) : Opcode.Statement (.frcp x) := opcode_of_shape _ (of_decide_eq_true rfl)
theorem Opcode.frsq (x : XW) : Opcode.Statement (.frsq x) := opcode_of_shape _ (of_decide_eq_true rfl)
theorem Opcode.fsqrt (x : XW) : Opcode.Statement (.fsqrt x) := opcode_of_shape _ (of_decide_eq_true rfl)
theorem Opcode.fexp2 (x : XW) : Opcode.Statement (.fexp2 x) := opcode_of_shape _ (of_decide_eq_true rfl)
theorem Opcode.flog2 (x : XW) : Opcode.Statement (.flog2 x) := opcode_of_shape _ (of_decide_eq_true rfl)
theorem Opcode.ftanh (x : XW) : Opcode.Statement (.ftanh x) := opcode_of_shape _ (of_decide_eq_true rfl)
theorem Opcode.fscale (x : XW) : Opcode.Statement (.fscale x) := opcode_of_shape _ (of_decide_eq_true rfl)
theorem Opcode.cvt (x : XW) : Opcode.Statement (.cvt x) := opcode_of_shape _ (of_decide_eq_true rfl)
theorem Opcode.shfl (x : XW) : Opcode.Statement (.shfl x) := opcode_of_shape _ (of_decide_eq_true rfl)
theorem Opcode.shflx (x : XW) : Opcode.Statement (.shflx x) := opcode_of_shape _ (of_decide_eq_true rfl)
theorem Opcode.bcast (x : XW) : Opcode.Statement (.bcast x) := opcode_of_shape _ (of_decide_eq_true rfl)
theorem Opcode.red (x : XW) : Opcode.Statement (.red x) := opcode_of_shape _ (of_decide_eq_true rfl)
theorem Opcode.scan (x : XW) : Opcode.Statement (.scan x) := opcode_of_shape _ (of_decide_eq_true rfl)
theorem Opcode.pack (x : XW) : Opcode.Statement (.pack x) := opcode_of_shape _ (of_decide_eq_true rfl)
theorem Opcode.unpk (x : XW) : Opcode.Statement (.unpk x) := opcode_of_shape _ (of_decide_eq_true rfl)
theorem Opcode.cmp (x : XW) : Opcode.Statement (.cmp x) := opcode_of_shape _ (of_decide_eq_true rfl)
theorem Opcode.fcmp (x : XW) : Opcode.Statement (.fcmp x) := opcode_of_shape _ (of_decide_eq_true rfl)
theorem Opcode.kop (x : XW) : Opcode.Statement (.kop x) := opcode_of_shape _ (of_decide_eq_true rfl)
theorem Opcode.kpop (x : XW) : Opcode.Statement (.kpop x) := opcode_of_shape _ (of_decide_eq_true rfl)
theorem Opcode.kff1 (x : XW) : Opcode.Statement (.kff1 x) := opcode_of_shape _ (of_decide_eq_true rfl)
theorem Opcode.kset (x : XW) : Opcode.Statement (.kset x) := opcode_of_shape _ (of_decide_eq_true rfl)
theorem Opcode.kget (x : XW) : Opcode.Statement (.kget x) := opcode_of_shape _ (of_decide_eq_true rfl)
theorem Opcode.ld (m : MW) : Opcode.Statement (.ld m) := opcode_of_shape _ (of_decide_eq_true rfl)
theorem Opcode.st (m : MW) : Opcode.Statement (.st m) := opcode_of_shape _ (of_decide_eq_true rfl)
theorem Opcode.lds (m : MW) : Opcode.Statement (.lds m) := opcode_of_shape _ (of_decide_eq_true rfl)
theorem Opcode.sts (m : MW) : Opcode.Statement (.sts m) := opcode_of_shape _ (of_decide_eq_true rfl)
theorem Opcode.ldb (m : MW) : Opcode.Statement (.ldb m) := opcode_of_shape _ (of_decide_eq_true rfl)
theorem Opcode.ldbZ (m : MW) : Opcode.Statement (.ldbZ m) := opcode_of_shape _ (of_decide_eq_true rfl)
theorem Opcode.stb (m : MW) : Opcode.Statement (.stb m) := opcode_of_shape _ (of_decide_eq_true rfl)
theorem Opcode.stbZ (m : MW) : Opcode.Statement (.stbZ m) := opcode_of_shape _ (of_decide_eq_true rfl)
theorem Opcode.ldc (m : MW) : Opcode.Statement (.ldc m) := opcode_of_shape _ (of_decide_eq_true rfl)
theorem Opcode.ldcCol (m : MW) : Opcode.Statement (.ldcCol m) := opcode_of_shape _ (of_decide_eq_true rfl)
theorem Opcode.stc (m : MW) : Opcode.Statement (.stc m) := opcode_of_shape _ (of_decide_eq_true rfl)
theorem Opcode.stcCol (m : MW) : Opcode.Statement (.stcCol m) := opcode_of_shape _ (of_decide_eq_true rfl)
theorem Opcode.atom (m : MW) : Opcode.Statement (.atom m) := opcode_of_shape _ (of_decide_eq_true rfl)
theorem Opcode.ared (m : MW) : Opcode.Statement (.ared m) := opcode_of_shape _ (of_decide_eq_true rfl)
theorem Opcode.cpy (m : MW) : Opcode.Statement (.cpy m) := opcode_of_shape _ (of_decide_eq_true rfl)
theorem Opcode.cpyLane (m : MW) : Opcode.Statement (.cpyLane m) := opcode_of_shape _ (of_decide_eq_true rfl)
theorem Opcode.cpyt (m : MW) : Opcode.Statement (.cpyt m) := opcode_of_shape _ (of_decide_eq_true rfl)
theorem Opcode.cpytW (m : MW) : Opcode.Statement (.cpytW m) := opcode_of_shape _ (of_decide_eq_true rfl)
theorem Opcode.fence (m : MW) : Opcode.Statement (.fence m) := opcode_of_shape _ (of_decide_eq_true rfl)
theorem Opcode.waitc (m : MW) : Opcode.Statement (.waitc m) := opcode_of_shape _ (of_decide_eq_true rfl)
theorem Opcode.pref (m : MW) : Opcode.Statement (.pref m) := opcode_of_shape _ (of_decide_eq_true rfl)
theorem Opcode.tagset (m : MW) : Opcode.Statement (.tagset m) := opcode_of_shape _ (of_decide_eq_true rfl)
theorem Opcode.tagget (m : MW) : Opcode.Statement (.tagget m) := opcode_of_shape _ (of_decide_eq_true rfl)
theorem Opcode.ptag (m : MW) : Opcode.Statement (.ptag m) := opcode_of_shape _ (of_decide_eq_true rfl)
theorem Opcode.clean (m : MW) : Opcode.Statement (.clean m) := opcode_of_shape _ (of_decide_eq_true rfl)
theorem Opcode.cleanInv (m : MW) : Opcode.Statement (.cleanInv m) := opcode_of_shape _ (of_decide_eq_true rfl)
theorem Opcode.wres (q : QW) : Opcode.Statement (.wres q) := opcode_of_shape _ (of_decide_eq_true rfl)
theorem Opcode.wrel (q : QW) : Opcode.Statement (.wrel q) := opcode_of_shape _ (of_decide_eq_true rfl)
theorem Opcode.wstat (q : QW) : Opcode.Statement (.wstat q) := opcode_of_shape _ (of_decide_eq_true rfl)
theorem Opcode.qcvt (q : QW) : Opcode.Statement (.qcvt q) := opcode_of_shape _ (of_decide_eq_true rfl)
theorem Opcode.qcvtW (q : QW) : Opcode.Statement (.qcvtW q) := opcode_of_shape _ (of_decide_eq_true rfl)
theorem Opcode.mloop (q : QW) : Opcode.Statement (.mloop q) := opcode_of_shape _ (of_decide_eq_true rfl)
theorem Opcode.mloopPeer (q : QW) : Opcode.Statement (.mloopPeer q) := opcode_of_shape _ (of_decide_eq_true rfl)
theorem Opcode.czero (q : QW) : Opcode.Statement (.czero q) := opcode_of_shape _ (of_decide_eq_true rfl)
theorem Opcode.cadd (q : QW) : Opcode.Statement (.cadd q) := opcode_of_shape _ (of_decide_eq_true rfl)
theorem Opcode.caddPeer (q : QW) : Opcode.Statement (.caddPeer q) := opcode_of_shape _ (of_decide_eq_true rfl)
theorem Opcode.cscale (q : QW) : Opcode.Statement (.cscale q) := opcode_of_shape _ (of_decide_eq_true rfl)
theorem Opcode.cscaleRow (q : QW) : Opcode.Statement (.cscaleRow q) := opcode_of_shape _ (of_decide_eq_true rfl)
theorem Opcode.cscaleCol (q : QW) : Opcode.Statement (.cscaleCol q) := opcode_of_shape _ (of_decide_eq_true rfl)
theorem Opcode.demand (q : QW) : Opcode.Statement (.demand q) := opcode_of_shape _ (of_decide_eq_true rfl)
theorem Opcode.tolrd (q : QW) : Opcode.Statement (.tolrd q) := opcode_of_shape _ (of_decide_eq_true rfl)
theorem Opcode.toltab (q : QW) : Opcode.Statement (.toltab q) := opcode_of_shape _ (of_decide_eq_true rfl)
theorem Opcode.kappend (k : KW) : Opcode.Statement (.kappend k) := opcode_of_shape _ (of_decide_eq_true rfl)
theorem Opcode.kstep (k : KW) : Opcode.Statement (.kstep k) := opcode_of_shape _ (of_decide_eq_true rfl)
theorem Opcode.ksig (k : KW) : Opcode.Statement (.ksig k) := opcode_of_shape _ (of_decide_eq_true rfl)
theorem Opcode.kgather (k : KW) : Opcode.Statement (.kgather k) := opcode_of_shape _ (of_decide_eq_true rfl)
theorem Opcode.kfetch (k : KW) : Opcode.Statement (.kfetch k) := opcode_of_shape _ (of_decide_eq_true rfl)
theorem Opcode.kfetchV (k : KW) : Opcode.Statement (.kfetchV k) := opcode_of_shape _ (of_decide_eq_true rfl)
theorem Opcode.kfetchW (k : KW) : Opcode.Statement (.kfetchW k) := opcode_of_shape _ (of_decide_eq_true rfl)
theorem Opcode.kfetchWV (k : KW) : Opcode.Statement (.kfetchWV k) := opcode_of_shape _ (of_decide_eq_true rfl)
theorem Opcode.kslot (k : KW) : Opcode.Statement (.kslot k) := opcode_of_shape _ (of_decide_eq_true rfl)
theorem Opcode.kstat (k : KW) : Opcode.Statement (.kstat k) := opcode_of_shape _ (of_decide_eq_true rfl)
theorem Opcode.bar (y : YW) : Opcode.Statement (.bar y) := opcode_of_shape _ (of_decide_eq_true rfl)
theorem Opcode.barC (y : YW) : Opcode.Statement (.barC y) := opcode_of_shape _ (of_decide_eq_true rfl)
theorem Opcode.arrive (y : YW) : Opcode.Statement (.arrive y) := opcode_of_shape _ (of_decide_eq_true rfl)
theorem Opcode.arriveC (y : YW) : Opcode.Statement (.arriveC y) := opcode_of_shape _ (of_decide_eq_true rfl)
theorem Opcode.bwait (y : YW) : Opcode.Statement (.bwait y) := opcode_of_shape _ (of_decide_eq_true rfl)
theorem Opcode.bwaitC (y : YW) : Opcode.Statement (.bwaitC y) := opcode_of_shape _ (of_decide_eq_true rfl)
theorem Opcode.drainB (y : YW) : Opcode.Statement (.drainB y) := opcode_of_shape _ (of_decide_eq_true rfl)
theorem Opcode.drainC (y : YW) : Opcode.Statement (.drainC y) := opcode_of_shape _ (of_decide_eq_true rfl)
theorem Opcode.phase (y : YW) : Opcode.Statement (.phase y) := opcode_of_shape _ (of_decide_eq_true rfl)
theorem Opcode.yield (y : YW) : Opcode.Statement (.yield y) := opcode_of_shape _ (of_decide_eq_true rfl)
theorem Opcode.qpush (y : YW) : Opcode.Statement (.qpush y) := opcode_of_shape _ (of_decide_eq_true rfl)
theorem Opcode.qpop (y : YW) : Opcode.Statement (.qpop y) := opcode_of_shape _ (of_decide_eq_true rfl)
theorem Opcode.qtry (y : YW) : Opcode.Statement (.qtry y) := opcode_of_shape _ (of_decide_eq_true rfl)
theorem Opcode.qlen (y : YW) : Opcode.Statement (.qlen y) := opcode_of_shape _ (of_decide_eq_true rfl)
theorem Opcode.qlenInit (y : YW) : Opcode.Statement (.qlenInit y) := opcode_of_shape _ (of_decide_eq_true rfl)
theorem Opcode.poll (y : YW) : Opcode.Statement (.poll y) := opcode_of_shape _ (of_decide_eq_true rfl)
theorem Opcode.dcdec (y : YW) : Opcode.Statement (.dcdec y) := opcode_of_shape _ (of_decide_eq_true rfl)
theorem Opcode.dcset (y : YW) : Opcode.Statement (.dcset y) := opcode_of_shape _ (of_decide_eq_true rfl)
theorem Opcode.launch (y : YW) : Opcode.Statement (.launch y) := opcode_of_shape _ (of_decide_eq_true rfl)
theorem Opcode.nop (j : JW) : Opcode.Statement (.nop j) := opcode_of_shape _ (of_decide_eq_true rfl)
theorem Opcode.bra (j : JW) : Opcode.Statement (.bra j) := opcode_of_shape _ (of_decide_eq_true rfl)
theorem Opcode.bz (j : JW) : Opcode.Statement (.bz j) := opcode_of_shape _ (of_decide_eq_true rfl)
theorem Opcode.bnz (j : JW) : Opcode.Statement (.bnz j) := opcode_of_shape _ (of_decide_eq_true rfl)
theorem Opcode.bany (j : JW) : Opcode.Statement (.bany j) := opcode_of_shape _ (of_decide_eq_true rfl)
theorem Opcode.ball (j : JW) : Opcode.Statement (.ball j) := opcode_of_shape _ (of_decide_eq_true rfl)
theorem Opcode.bnone (j : JW) : Opcode.Statement (.bnone j) := opcode_of_shape _ (of_decide_eq_true rfl)
theorem Opcode.loop (j : JW) : Opcode.Statement (.loop j) := opcode_of_shape _ (of_decide_eq_true rfl)
theorem Opcode.call (j : JW) : Opcode.Statement (.call j) := opcode_of_shape _ (of_decide_eq_true rfl)
theorem Opcode.ret (j : JW) : Opcode.Statement (.ret j) := opcode_of_shape _ (of_decide_eq_true rfl)
theorem Opcode.jmpi (j : JW) : Opcode.Statement (.jmpi j) := opcode_of_shape _ (of_decide_eq_true rfl)
theorem Opcode.endWave (j : JW) : Opcode.Statement (.endWave j) := opcode_of_shape _ (of_decide_eq_true rfl)
theorem Opcode.sysr (y : YW) : Opcode.Statement (.sysr y) := opcode_of_shape _ (of_decide_eq_true rfl)
theorem Opcode.sysw (y : YW) : Opcode.Statement (.sysw y) := opcode_of_shape _ (of_decide_eq_true rfl)
theorem Opcode.trap (y : YW) : Opcode.Statement (.trap y) := opcode_of_shape _ (of_decide_eq_true rfl)
theorem Opcode.tret (y : YW) : Opcode.Statement (.tret y) := opcode_of_shape _ (of_decide_eq_true rfl)
theorem Opcode.bkpt (y : YW) : Opcode.Statement (.bkpt y) := opcode_of_shape _ (of_decide_eq_true rfl)
theorem Opcode.ticks (y : YW) : Opcode.Statement (.ticks y) := opcode_of_shape _ (of_decide_eq_true rfl)
theorem Opcode.kill (y : YW) : Opcode.Statement (.kill y) := opcode_of_shape _ (of_decide_eq_true rfl)
theorem Opcode.killGrid (y : YW) : Opcode.Statement (.killGrid y) := opcode_of_shape _ (of_decide_eq_true rfl)
theorem Opcode.faultrd (y : YW) : Opcode.Statement (.faultrd y) := opcode_of_shape _ (of_decide_eq_true rfl)
theorem Opcode.rpt (n : BitVec 6) (steps : Steps) : Opcode.Statement (.rpt n steps) := opcode_of_shape _ (of_decide_eq_true rfl)
theorem Opcode.rptRegister (creg : BitVec 6) (steps : Steps) : Opcode.Statement (.rptRegister creg steps) := opcode_of_shape _ (of_decide_eq_true rfl)
theorem Opcode.clauseStart (core : Acting) : Opcode.Statement (.clauseStart core) := opcode_of_shape _ (of_decide_eq_true rfl)
theorem Opcode.eligibilityAgeExpiry (wave : Nat) : Opcode.Statement (.eligibilityAgeExpiry wave) := opcode_of_shape _ (of_decide_eq_true rfl)
theorem Opcode.loadDataReturn (wave : Nat) (index : Nat) (arrival : Arrival) : Opcode.Statement (.loadDataReturn wave index arrival) := opcode_of_shape _ (of_decide_eq_true rfl)
theorem Opcode.storeAcknowledge (wave : Nat) (delivered : Bool) : Opcode.Statement (.storeAcknowledge wave delivered) := opcode_of_shape _ (of_decide_eq_true rfl)
theorem Opcode.operationRetire (wave : Acting) (cls : Engine) : Opcode.Statement (.operationRetire wave cls) := opcode_of_shape _ (of_decide_eq_true rfl)
theorem Opcode.releasedQuernOperation (wave : Nat) : Opcode.Statement (.releasedQuernOperation wave) := opcode_of_shape _ (of_decide_eq_true rfl)
theorem Opcode.sideLogReplay (wave : Acting) : Opcode.Statement (.sideLogReplay wave) := opcode_of_shape _ (of_decide_eq_true rfl)
theorem Opcode.blockComplete (block : Nat) : Opcode.Statement (.blockComplete block) := opcode_of_shape _ (of_decide_eq_true rfl)
theorem Opcode.blockPlace (request : Nat) (core : Nat) : Opcode.Statement (.blockPlace request core) := opcode_of_shape _ (of_decide_eq_true rfl)
theorem Opcode.placementAgeExpiry (request : Nat) : Opcode.Statement (.placementAgeExpiry request) := opcode_of_shape _ (of_decide_eq_true rfl)
theorem Opcode.displace (baseDie : Nat) : Opcode.Statement (.displace baseDie) := opcode_of_shape _ (of_decide_eq_true rfl)
theorem Opcode.pageListEntryRead (grid : Nat) (index : Nat) : Opcode.Statement (.pageListEntryRead grid index) := opcode_of_shape _ (of_decide_eq_true rfl)
theorem Opcode.landingSlotGrant (request : Nat) (core : Nat) : Opcode.Statement (.landingSlotGrant request core) := opcode_of_shape _ (of_decide_eq_true rfl)
theorem Opcode.flashSenseComplete (lun : Nat) (accepted : BitVec 4) : Opcode.Statement (.flashSenseComplete lun accepted) := opcode_of_shape _ (of_decide_eq_true rfl)
theorem Opcode.lunTimeout (lun : Nat) : Opcode.Statement (.lunTimeout lun) := opcode_of_shape _ (of_decide_eq_true rfl)
theorem Opcode.phaseSave (block : Nat) : Opcode.Statement (.phaseSave block) := opcode_of_shape _ (of_decide_eq_true rfl)
theorem Opcode.phaseTimeReached (block : Nat) : Opcode.Statement (.phaseTimeReached block) := opcode_of_shape _ (of_decide_eq_true rfl)
theorem Opcode.phaseResume (request : Nat) (core : Nat) : Opcode.Statement (.phaseResume request core) := opcode_of_shape _ (of_decide_eq_true rfl)
theorem Opcode.pollAttempt (wave : Nat) : Opcode.Statement (.pollAttempt wave) := opcode_of_shape _ (of_decide_eq_true rfl)
theorem Opcode.involuntarySave (block : Nat) : Opcode.Statement (.involuntarySave block) := opcode_of_shape _ (of_decide_eq_true rfl)
theorem Opcode.yieldExpiry (wave : Nat) : Opcode.Statement (.yieldExpiry wave) := opcode_of_shape _ (of_decide_eq_true rfl)
theorem Opcode.quantumEnd (partition : Nat) : Opcode.Statement (.quantumEnd partition) := opcode_of_shape _ (of_decide_eq_true rfl)
theorem Opcode.contextSave (asid : Nat) : Opcode.Statement (.contextSave asid) := opcode_of_shape _ (of_decide_eq_true rfl)
theorem Opcode.coreScrub (core : Nat) : Opcode.Statement (.coreScrub core) := opcode_of_shape _ (of_decide_eq_true rfl)
theorem Opcode.contextRestore (asid : Nat) (core : Nat) : Opcode.Statement (.contextRestore asid core) := opcode_of_shape _ (of_decide_eq_true rfl)
theorem Opcode.appendArrival (asid : Nat) (step : Nat) (core : Nat) : Opcode.Statement (.appendArrival asid step core) := opcode_of_shape _ (of_decide_eq_true rfl)
theorem Opcode.stepFiling (asid : Nat) (step : Acting) : Opcode.Statement (.stepFiling asid step) := opcode_of_shape _ (of_decide_eq_true rfl)
theorem Opcode.tailraceWriteback (baseDie : Nat) : Opcode.Statement (.tailraceWriteback baseDie) := opcode_of_shape _ (of_decide_eq_true rfl)
theorem Opcode.flashProgramComplete (baseDie : Nat) (succeeded : Bool) : Opcode.Statement (.flashProgramComplete baseDie succeeded) := opcode_of_shape _ (of_decide_eq_true rfl)
theorem Opcode.load (asid : Nat) : Opcode.Statement (.load asid) := opcode_of_shape _ (of_decide_eq_true rfl)
theorem Opcode.inval (asid : Nat) : Opcode.Statement (.inval asid) := opcode_of_shape _ (of_decide_eq_true rfl)
theorem Opcode.invalComplete : Opcode.Statement (.invalComplete) := opcode_of_shape _ (of_decide_eq_true rfl)
theorem Opcode.teardown (asid : Nat) : Opcode.Statement (.teardown asid) := opcode_of_shape _ (of_decide_eq_true rfl)
theorem Opcode.teardownComplete : Opcode.Statement (.teardownComplete) := opcode_of_shape _ (of_decide_eq_true rfl)
theorem Opcode.grant (asid : Nat) : Opcode.Statement (.grant asid) := opcode_of_shape _ (of_decide_eq_true rfl)
theorem Opcode.erase (asid : Nat) : Opcode.Statement (.erase asid) := opcode_of_shape _ (of_decide_eq_true rfl)
theorem Opcode.eraseComplete (succeeded : Bool) : Opcode.Statement (.eraseComplete succeeded) := opcode_of_shape _ (of_decide_eq_true rfl)
theorem Opcode.ring (asid : Nat) : Opcode.Statement (.ring asid) := opcode_of_shape _ (of_decide_eq_true rfl)
theorem Opcode.reclog (asid : Nat) : Opcode.Statement (.reclog asid) := opcode_of_shape _ (of_decide_eq_true rfl)
theorem Opcode.pfUnassigned (op : Nat) (asid : Nat) : Opcode.Statement (.pfUnassigned op asid) := opcode_of_shape _ (of_decide_eq_true rfl)
theorem Opcode.launchTailWrite (vf : Nat) (tail : Nat) : Opcode.Statement (.launchTailWrite vf tail) := opcode_of_shape _ (of_decide_eq_true rfl)
theorem Opcode.launchEntry (vf : Nat) (entry : Nat) (bad : Bool) : Opcode.Statement (.launchEntry vf entry bad) := opcode_of_shape _ (of_decide_eq_true rfl)
theorem Opcode.completionHeadWrite (vf : Nat) (head : Nat) : Opcode.Statement (.completionHeadWrite vf head) := opcode_of_shape _ (of_decide_eq_true rfl)
theorem Opcode.partitionTableWrite (p : Nat) (lo hi : Nat) : Opcode.Statement (.partitionTableWrite p lo hi) := opcode_of_shape _ (of_decide_eq_true rfl)
theorem Opcode.quantumTableWrite (p index : Nat) (entry : Nat) : Opcode.Statement (.quantumTableWrite p index entry) := opcode_of_shape _ (of_decide_eq_true rfl)
theorem Opcode.registerWrite (space : RegSpace) (offset value : Nat) : Opcode.Statement (.registerWrite space offset value) := opcode_of_shape _ (of_decide_eq_true rfl)
theorem Opcode.bar2Access (vf : Nat) (address len : Nat) (write : Option Nat) : Opcode.Statement (.bar2Access vf address len write) := opcode_of_shape _ (of_decide_eq_true rfl)
theorem Opcode.driveInboundRequest (requester : Nat) (address len : Nat) (write : Option Nat) : Opcode.Statement (.driveInboundRequest requester address len write) := opcode_of_shape _ (of_decide_eq_true rfl)
theorem Opcode.mailboxWrite (requester : Nat) (address len : Nat) (data : Nat) : Opcode.Statement (.mailboxWrite requester address len data) := opcode_of_shape _ (of_decide_eq_true rfl)
theorem Opcode.linkInboundAccess (port source : Nat) (offset len : Nat) (write : Option Nat) : Opcode.Statement (.linkInboundAccess port source offset len write) := opcode_of_shape _ (of_decide_eq_true rfl)
theorem Opcode.mmioTimeout (wave : Nat) (index : Nat) : Opcode.Statement (.mmioTimeout wave index) := opcode_of_shape _ (of_decide_eq_true rfl)
theorem Opcode.brakeN : Opcode.Statement (.brakeN) := opcode_of_shape _ (of_decide_eq_true rfl)
theorem Opcode.freezeCommand : Opcode.Statement (.freezeCommand) := opcode_of_shape _ (of_decide_eq_true rfl)
theorem Opcode.brk : Opcode.Statement (.brk) := opcode_of_shape _ (of_decide_eq_true rfl)
theorem Opcode.brakeFlit (port : Nat) : Opcode.Statement (.brakeFlit port) := opcode_of_shape _ (of_decide_eq_true rfl)
theorem Opcode.scanRead (unit : MgmtRead) (index offset len : Nat) : Opcode.Statement (.scanRead unit index offset len) := opcode_of_shape _ (of_decide_eq_true rfl)
theorem Opcode.packageReset : Opcode.Statement (.packageReset) := opcode_of_shape _ (of_decide_eq_true rfl)
theorem Opcode.fire : Opcode.Statement (.fire) := opcode_of_shape _ (of_decide_eq_true rfl)
theorem Opcode.watchdogTimeout : Opcode.Statement (.watchdogTimeout) := opcode_of_shape _ (of_decide_eq_true rfl)
theorem Opcode.firmwareImage (image : Nat) : Opcode.Statement (.firmwareImage image) := opcode_of_shape _ (of_decide_eq_true rfl)
theorem Opcode.replayTimeout (asid : Nat) (address : Nat) (global : Bool) : Opcode.Statement (.replayTimeout asid address global) := opcode_of_shape _ (of_decide_eq_true rfl)
theorem Opcode.ringSend (asid ctl : Nat) : Opcode.Statement (.ringSend asid ctl) := opcode_of_shape _ (of_decide_eq_true rfl)
theorem Opcode.revolutionReceived (asid ctl : Nat) (revolution : Incoming) (data : List Byte) : Opcode.Statement (.revolutionReceived asid ctl revolution data) := opcode_of_shape _ (of_decide_eq_true rfl)
theorem Opcode.ringStallTimeout (asid ctl : Nat) : Opcode.Statement (.ringStallTimeout asid ctl) := opcode_of_shape _ (of_decide_eq_true rfl)
theorem Opcode.linkFailure (port : Nat) : Opcode.Statement (.linkFailure port) := opcode_of_shape _ (of_decide_eq_true rfl)
theorem Opcode.ringFailureNotice (asid ctl : Nat) (cause position : Nat) : Opcode.Statement (.ringFailureNotice asid ctl cause position) := opcode_of_shape _ (of_decide_eq_true rfl)
theorem Opcode.idleEntry : Opcode.Statement (.idleEntry) := opcode_of_shape _ (of_decide_eq_true rfl)
theorem Opcode.idleWakeTimer : Opcode.Statement (.idleWakeTimer) := opcode_of_shape _ (of_decide_eq_true rfl)
theorem Opcode.linkTrained (port : Nat) (package : Nat) : Opcode.Statement (.linkTrained port package) := opcode_of_shape _ (of_decide_eq_true rfl)
theorem Opcode.arevAdvance (asid ctl : Nat) (news : RingNews) : Opcode.Statement (.arevAdvance asid ctl news) := opcode_of_shape _ (of_decide_eq_true rfl)
theorem Opcode.detectionByAnyMember (asid ctl : Nat) (cause position : Nat) : Opcode.Statement (.detectionByAnyMember asid ctl cause position) := opcode_of_shape _ (of_decide_eq_true rfl)

end Sys2Proof.Laws
end

