-- ==== Sys2Proof/Tests/Slice0.lean ====
section
/-! SUPPORT. Small tests: words written out from the encoding tables, the refusals of the decoder, results worked by hand from the rules, and for every statement with hypotheses a state and operands that meet them. -/
namespace Sys2Proof.Tests

open Sys2Proof Sys2Proof.Machine

set_option Elab.async false

/-! ### Words (R26 to R34) -/

def xw (g : BitVec 3) (gn : Bool) (sub : BitVec 4) (d a b c : Operand) (t : Ty) (m : BitVec 3) (ea eb ec : Bool) (lit : Option Word64) : XW :=
  { guard := { g := g, gn := gn }, sub := sub, d := d, a := a, b := b, c := c, t := t, m := m, ea := ea, eb := eb, ec := ec, lit := lit }
def mw (g : BitVec 3) (gn : Bool) (sub : BitVec 4) (d a b : Operand) (off : BitVec 10) (sz : BitVec 3) (ord : BitVec 2) (sco : BitVec 3) (e x : Bool) (lit : Option Word64) : MW :=
  { guard := { g := g, gn := gn }, sub := sub, d := d, a := a, b := b, off := off, sz := sz, ord := ord, sco := sco, e := e, x := x, lit := lit }
def qw (g : BitVec 3) (gn : Bool) (sub : BitVec 4) (ct : BitVec 6) (wa wb : BitVec 5) (kn : BitVec 8) (ia ib : Operand) (node : BitVec 6) : QW :=
  { guard := { g := g, gn := gn }, sub := sub, ct := ct, wa := wa, wb := wb, kn := kn, ia := ia, ib := ib, node := node }
def kw (g : BitVec 3) (gn : Bool) (d a b c : Operand) (head : BitVec 8) (lit : Option Word64) : KW :=
  { guard := { g := g, gn := gn }, d := d, a := a, b := b, c := c, head := head, lit := lit }
def yw (g : BitVec 3) (gn : Bool) (d a b : Operand) (imm : BitVec 16) (ea eb : Bool) (lit : Option Word64) : YW :=
  { guard := { g := g, gn := gn }, d := d, a := a, b := b, imm := imm, ea := ea, eb := eb, lit := lit }
def jw (g : BitVec 3) (gn : Bool) (a : Operand) (off : BitVec 28) : JW := { guard := { g := g, gn := gn }, a := a, b := .none, off := off }
def st (d a b c : BitVec 8) : Steps := { d := d, a := a, b := b, c := c }

/-- Every word, with the word that follows it, decodes to its instruction and is its encoding. -/
def reads (l : List (Word64 × Option Word64 × Instr)) : Bool :=
  l.all (fun p => (match decodeWord p.1 p.2.1 with | .ok i => decide (i = p.2.2) | .error _ => false) && decide (encode p.2.2 = p.1 :: p.2.1.toList))

/-- Words of every instruction of the integer rows, from R26, R27, R29 and the rows' tables. -/
theorem test_words_integer : reads [
    (0x00000180405FF100, none, .add (xw 0 false 0 (.v 3) (.v 1) (.v 2) .none .u32 0 false false false none)),
    (0x010001807BFFF000, none, .sub (xw 0 false 0 (.v 3) (.v 1) (.int 95) .none .i32 0 false false false none)),
    (0x020001C1405FF900, none, .adds (xw 0 false 0 (.v 3) (.s 5) (.v 2) .none .i8 0 false false false none)),
    (0x030081C0605FF300, none, .subs (xw 0 false 0 (.s 3) (.s 1) (.s 2) .none .u64 0 false false false none)),
    (0x04000201811FF200, none, .mul (xw 0 false 0 (.v 4) (.v 6) (.v 8) .none .i64 0 false false false none)),
    (0x05407FBFAA1FF100, none, .mulh (xw 2 false 0 (.v 255) (.v 254) .lane .none .u32 0 false false false none)),
    (0x0600018040400C04, none, .mad (xw 0 false 0 (.v 3) (.v 1) (.v 2) (.v 0) .u16 0 false false true none)),
    (0x070001807FFFFB10, none, .abs (xw 0 false 0 (.v 3) (.v 1) .none .none .i16 0 true false false none)),
    (0x0800018077FFF000, none, .min (xw 0 false 0 (.v 3) (.v 1) (.int 63) .none .i32 0 false false false none)),
    (0x09009FD5381FF000, none, .max (xw 0 false 0 (.s 63) .nwaves (.int 64) .none .i32 0 false false false none)),
    (0x0A0001D4805FFD00, none, .and (xw 0 false 0 (.v 3) .widlo (.v 2) .none .b32 0 false false false none)),
    (0x0B0001D4C05FFD00, none, .or (xw 0 false 0 (.v 3) .widhi (.v 2) .none .b32 0 false false false none)),
    (0x0C000180691FFD02, (some 0xDEADBEEF), .xor (xw 0 false 0 (.v 3) (.v 1) .lit .none .b32 0 false false false (some 0xDEADBEEF))),
    (0x0D0001D1C05FFD00, none, .andn (xw 0 false 0 (.v 3) (.k 7) (.v 2) .none .b32 0 false false false none)),
    (0x0E00018073FFF100, none, .shl (xw 0 false 0 (.v 3) (.v 1) (.int 31) .none .u32 0 false false false none)),
    (0x0F000180405FF108, none, .shr (xw 0 false 0 (.v 3) (.v 1) (.v 2) .none .u32 0 false true false none)),
    (0x10000180601FF000, none, .sar (xw 0 false 0 (.v 3) (.v 1) (.s 0) .none .i32 0 false false false none)),
    (0x11000180405FFD00, none, .rol (xw 0 false 0 (.v 3) (.v 1) (.v 2) .none .b32 0 false false false none)),
    (0x120001807FFFFD00, none, .clz (xw 0 false 0 (.v 3) (.v 1) .none .none .b32 0 false false false none)),
    (0x130001013FFFFE00, none, .popc (xw 0 false 0 (.v 2) (.v 4) .none .none .b64 0 false false false none)),
    (0x140081C07FFFFE00, none, .brev (xw 0 false 0 (.s 3) (.s 1) .none .none .b64 0 false false false none)),
    (0x1500018070988000, none, .bfx (xw 0 false 0 (.v 3) (.v 1) (.int 4) (.int 8) .i32 0 false false false none)),
    (0x1600018070988D00, none, .bfi (xw 0 false 0 (.v 3) (.v 1) (.int 4) (.int 8) .b32 0 false false false none)),
    (0x1770A080BFFFFD00, none, .mov (xw 3 true 0 (.k 1) (.v 2) .none .none .b32 0 false false false none)),
    (0x1800010100383000, none, .lea (xw 0 false 0 (.v 2) (.v 4) (.v 1) (.int 3) .i32 0 false false false none)),
    (0x19030180405FFA00, none, .padd (xw 0 false 3 (.v 3) (.v 1) (.v 2) .none .u8 0 false false false none)),
    (0x1A000180405FF100, none, .divu (xw 0 false 0 (.v 3) (.v 1) (.v 2) .none .u32 0 false false false none)),
    (0x1B00010100DFF300, none, .remu (xw 0 false 0 (.v 2) (.v 4) (.v 6) .none .u64 0 false false false none)),
    (0x1C00018040542D00, none, .sel (xw 0 false 0 (.v 3) (.v 1) (.v 2) (.k 2) .b32 0 false false false none)),
    (0x1D000200005FFE00, none, .hmix (xw 0 false 0 (.v 4) (.v 0) (.v 2) .none .b64 0 false false false none))] = true := by decide +kernel

/-- Words of every instruction of the float rows, from R26, R27, R29 and the rows' tables. -/
theorem test_words_float : reads [
    (0x40000800011FF400, none, .fadd (xw 0 false 0 (.v 16) (.v 0) (.v 8) .none .f32 0 false false false none)),
    (0x410001807C3FF520, none, .fsub (xw 0 false 0 (.v 3) (.v 1) (.fc 1) .none .f16 1 false false false none)),
    (0x42000180705FF640, none, .fmul (xw 0 false 0 (.v 3) (.v 1) (.int 2) .none .bf16 2 false false false none)),
    (0x430001804040447C, none, .fma (xw 0 false 0 (.v 3) (.v 1) (.v 2) (.v 4) .f32 3 true true true none)),
    (0x44000180405FF400, none, .fmin (xw 0 false 0 (.v 3) (.v 1) (.v 2) .none .f32 0 false false false none)),
    (0x45000180405FF500, none, .fmax (xw 0 false 0 (.v 3) (.v 1) (.v 2) .none .f16 0 false false false none)),
    (0x460001807FFFF600, none, .fabs (xw 0 false 0 (.v 3) (.v 1) .none .none .bf16 0 false false false none)),
    (0x470001807FFFF400, none, .fneg (xw 0 false 0 (.v 3) (.v 1) .none .none .f32 0 false false false none)),
    (0x480001807FFFF460, none, .frnd (xw 0 false 0 (.v 3) (.v 1) .none .none .f32 3 false false false none)),
    (0x490001807FFFF500, none, .fclass (xw 0 false 0 (.v 3) (.v 1) .none .none .f16 0 false false false none)),
    (0x4A0001807FFFF400, none, .frcp (xw 0 false 0 (.v 3) (.v 1) .none .none .f32 0 false false false none)),
    (0x4B0001807FFBF400, none, .frsq (xw 0 false 0 (.v 3) (.v 1) .none (.int 63) .f32 0 false false false none)),
    (0x4C0001807FFFF400, none, .fsqrt (xw 0 false 0 (.v 3) (.v 1) .none .none .f32 0 false false false none)),
    (0x4D0081C07FFFF400, none, .fexp2 (xw 0 false 0 (.s 3) (.s 1) .none .none .f32 0 false false false none)),
    (0x4E0001807FFFF400, none, .flog2 (xw 0 false 0 (.v 3) (.v 1) .none .none .f32 0 false false false none)),
    (0x4F0001807FFFF400, none, .ftanh (xw 0 false 0 (.v 3) (.v 1) .none .none .f32 0 false false false none)),
    (0x500001807B9FF400, none, .fscale (xw 0 false 0 (.v 3) (.v 1) (.int 92) .none .f32 0 false false false none)),
    (0x600401807FFFF780, none, .cvt (xw 0 false 4 (.v 3) (.v 1) .none .none .e4m3 4 false false false none)),
    (0x7104A080003FF400, none, .fcmp (xw 0 false 4 (.k 1) (.v 0) (.v 1) .none .f32 0 false false false none))] = true := by decide +kernel

/-- Words of every instruction of the lane rows, from R26, R27, R29 and the rows' tables. -/
theorem test_words_lane : reads [
    (0x61030180703FFD00, none, .shfl (xw 0 false 3 (.v 3) (.v 1) (.int 1) .none .b32 0 false false false none)),
    (0x6200010130205D00, none, .shflx (xw 0 false 0 (.v 2) (.v 4) (.int 1) (.v 5) .b32 0 false false false none)),
    (0x6300018070BFFD00, none, .bcast (xw 0 false 0 (.v 3) (.v 1) (.int 5) .none .b32 0 false false false none)),
    (0x640082023FFFF400, none, .red (xw 0 false 0 (.s 4) (.v 8) .none .none .f32 0 false false false none)),
    (0x650801807FFFF000, none, .scan (xw 0 false 8 (.v 3) (.v 1) .none .none .i32 0 false false false none)),
    (0x66020180405FFD00, none, .pack (xw 0 false 2 (.v 3) (.v 1) (.v 2) .none .b32 0 false false false none)),
    (0x67020180703FF000, none, .unpk (xw 0 false 2 (.v 3) (.v 1) (.int 1) .none .i32 0 false false false none)),
    (0x7002A080701FF000, none, .cmp (xw 0 false 2 (.k 1) (.v 1) (.int 0) .none .i32 0 false false false none)),
    (0x7203A150E89FFD00, none, .kop (xw 0 false 3 (.k 2) (.k 3) (.k 4) .none .b32 0 false false false none)),
    (0x730081507FFFFD00, none, .kpop (xw 0 false 0 (.s 2) (.k 1) .none .none .b32 0 false false false none)),
    (0x740081007FFFFD00, none, .kff1 (xw 0 false 0 (.s 2) (.v 1) .none .none .b32 0 false false false none)),
    (0x7500A0807FFFFD00, none, .kset (xw 0 false 0 (.k 1) (.v 1) .none .none .b32 0 false false false none)),
    (0x76008100B07FFE00, none, .kget (xw 0 false 0 (.s 2) (.v 2) (.int 3) .none .b64 0 false false false none))] = true := by decide +kernel

/-- Words of every instruction of the memory rows, from R26, R27, R29 and the rows' tables. -/
theorem test_words_memory : reads [
    (0x80000200BFE08250, none, .ld (mw 0 false 0 (.v 4) (.v 2) .none 16 2 1 2 false false none)),
    (0x8100FFC0803FFAA0, none, .st (mw 0 false 0 .none (.s 2) (.v 1) 1023 2 2 4 false false none)),
    (0x820080C0BFE00358, none, .lds (mw 0 false 0 (.s 1) (.s 2) .none 0 3 1 3 false false none)),
    (0x8300FFC0BBE00300, none, .sts (mw 0 false 0 .none (.s 2) (.int 95) 0 3 0 0 false false none)),
    (0x840000C100600101, none, .ldb (mw 0 false 0 (.v 1) (.s 4) (.v 3) 0 1 0 0 false true none)),
    (0x840100C131000000, none, .ldbZ (mw 0 false 1 (.v 1) (.s 4) (.int 8) 0 0 0 0 false false none)),
    (0x850000C100600204, none, .stb (mw 0 false 0 (.v 1) (.s 4) (.v 3) 0 2 0 0 true false none)),
    (0x8501814120C00300, none, .stbZ (mw 0 false 1 (.s 2) (.s 4) (.s 6) 0 3 0 0 false false none)),
    (0x860000E7F7E00200, none, .ldc (mw 0 false 0 (.v 1) (.int 31) (.int 63) 0 2 0 0 false false none)),
    (0x860100C070400200, none, .ldcCol (mw 0 false 1 (.v 1) (.s 1) (.int 2) 0 2 0 0 false false none)),
    (0x870000E020600200, none, .stc (mw 0 false 0 (.v 1) (.int 0) (.s 3) 0 2 0 0 false false none)),
    (0x870100E030200200, none, .stcCol (mw 0 false 1 (.v 1) (.int 0) (.int 1) 0 2 0 0 false false none)),
    (0x8809008080A002E0, none, .atom (mw 0 false 9 (.v 1) (.v 2) (.v 5) 0 2 3 4 false false none)),
    (0x8900FF8080C00298, none, .ared (mw 0 false 0 .none (.v 2) (.v 6) 0 2 2 3 false false none)),
    (0x8A00814129000002, (some 0x1000), .cpy (mw 0 false 0 (.s 2) (.s 4) .lit 0 0 0 0 false false (some 0x1000))),
    (0x8A0101013FE00400, none, .cpyLane (mw 0 false 1 (.v 2) (.v 4) .none 0 4 0 0 false false none)),
    (0x8B00814120C00000, none, .cpyt (mw 0 false 0 (.s 2) (.s 4) (.s 6) 0 0 0 0 false false none)),
    (0x8B01FFC120C0F800, none, .cpytW (mw 0 false 1 .none (.s 4) (.s 6) 31 0 0 0 false false none)),
    (0x8C00FFFFFFE000C0, none, .fence (mw 0 false 0 .none .none .none 0 0 3 0 false false none)),
    (0x8D03FFFFF0000000, none, .waitc (mw 0 false 3 .none .none (.int 0) 0 0 0 0 false false none)),
    (0x8E00FF80BFEFF800, none, .pref (mw 0 false 0 .none (.v 2) .none 511 0 0 0 false false none)),
    (0x8F00FFC0A0800000, none, .tagset (mw 0 false 0 .none (.s 2) (.s 4) 0 0 0 0 false false none)),
    (0x90000080BFE00000, none, .tagget (mw 0 false 0 (.v 1) (.v 2) .none 0 0 0 0 false false none)),
    (0x9100010130A00000, none, .ptag (mw 0 false 0 (.v 2) (.v 4) (.int 5) 0 0 0 0 false false none)),
    (0x9200FFC0A0800000, none, .clean (mw 0 false 0 .none (.s 2) (.s 4) 0 0 0 0 false false none)),
    (0x9201FFC0B4000000, none, .cleanInv (mw 0 false 1 .none (.s 2) (.int 32) 0 0 0 0 false false none))] = true := by decide +kernel

/-- Words of every instruction of the matrix rows, from R26, R27, R29 and the rows' tables. -/
theorem test_words_matrix : reads [
    (0xA00003E00080E1C0, none, .wres (qw 0 false 0 0 31 0 0 (.s 1) (.int 7) 0)),
    (0xA100002000FFFFC0, none, .wrel (qw 0 false 0 0 1 0 0 .none .none 0)),
    (0xA20000200081FFC0, none, .wstat (qw 0 false 0 0 1 0 0 (.s 3) .none 0)),
    (0xA3000020008140FF, none, .qcvt (qw 0 false 0 0 1 0 0 (.s 2) (.s 3) 63)),
    (0xA301002200FFFFC5, none, .qcvtW (qw 0 false 1 0 1 2 0 .none .none 5)),
    (0xA400FC22FFC04041, none, .mloop (qw 0 false 0 63 1 2 255 (.int 0) (.s 1) 1)),
    (0xA408042200C06000, none, .mloopPeer (qw 0 false 8 1 1 2 0 (.int 0) (.int 0) 0)),
    (0xA5000C003CFFFFC0, none, .czero (qw 0 false 0 3 0 0 60 .none .none 0)),
    (0xA600040000C17FC0, none, .cadd (qw 0 false 0 1 0 0 0 (.int 2) .none 0)),
    (0xA60F040000817FC0, none, .caddPeer (qw 0 false 15 1 0 0 0 (.s 2) .none 0)),
    (0xA700040000F27FC0, none, .cscale (qw 0 false 0 1 0 0 0 (.fc 4) .none 0)),
    (0xA70104000001FFC0, none, .cscaleRow (qw 0 false 1 1 0 0 0 (.v 3) .none 0)),
    (0xA70204000001FFC0, none, .cscaleCol (qw 0 false 2 1 0 0 0 (.v 3) .none 0)),
    (0xA800000000836A02, none, .demand (qw 0 false 0 0 0 0 0 (.s 6) (.int 40) 2)),
    (0xA900000000837FFF, none, .tolrd (qw 0 false 0 0 0 0 0 (.s 6) .none 63)),
    (0xAA00000000817FC0, none, .toltab (qw 0 false 0 0 0 0 0 (.s 2) .none 0))] = true := by decide +kernel

/-- Words of every instruction of the keystore rows, from R26, R27, R29 and the rows' tables. -/
theorem test_words_keystore : reads [
    (0xB000824080004FF0, none, .kappend (kw 0 false (.s 4) (.s 2) (.v 0) (.v 4) 255 none)),
    (0xB100FFC0BFFFF000, none, .kstep (kw 0 false .none (.s 2) .none .none 0 none)),
    (0xB2008240801FF010, none, .ksig (kw 0 false (.s 4) (.s 2) (.v 0) .none 1 none)),
    (0xB3008240A0D41010, none, .kgather (kw 0 false (.s 4) (.s 2) (.s 6) (.k 1) 1 none)),
    (0xB4008240A0D48002, (some 0x10000), .kfetch (kw 0 false (.s 4) (.s 2) (.s 6) .lit 0 (some 0x10000))),
    (0xB4018240A0D08000, none, .kfetchV (kw 0 false (.s 4) (.s 2) (.s 6) (.s 8) 0 none)),
    (0xB402FFC0A0D08000, none, .kfetchW (kw 0 false .none (.s 2) (.s 6) (.s 8) 0 none)),
    (0xB403FFC0A0D08000, none, .kfetchWV (kw 0 false .none (.s 2) (.s 6) (.s 8) 0 none)),
    (0xB5008240A0BFF000, none, .kslot (kw 0 false (.s 4) (.s 2) (.s 5) .none 0 none)),
    (0xB6008240B07FF000, none, .kstat (kw 0 false (.s 4) (.s 2) (.int 3) .none 0 none))] = true := by decide +kernel

/-- Words of every instruction of the sync rows, from R26, R27, R29 and the rows' tables. -/
theorem test_words_sync : reads [
    (0xC00080FFFFE001E0, none, .bar (yw 0 false (.s 1) .none .none 15 false false none)),
    (0xC001FFFFFFE00060, none, .barC (yw 0 false .none .none .none 3 false false none)),
    (0xC100FFFFFFE00020, none, .arrive (yw 0 false .none .none .none 1 false false none)),
    (0xC101FFFFFFE00020, none, .arriveC (yw 0 false .none .none .none 1 false false none)),
    (0xC20080FFFFE00020, none, .bwait (yw 0 false (.s 1) .none .none 1 false false none)),
    (0xC201FFFFFFE00020, none, .bwaitC (yw 0 false .none .none .none 1 false false none)),
    (0xC300FFFFFFE00000, none, .drainB (yw 0 false .none .none .none 0 false false none)),
    (0xC301FFFFFFE00000, none, .drainC (yw 0 false .none .none .none 0 false false none)),
    (0xC400FFC069000682, (some 0x5), .phase (yw 0 false .none (.s 1) .lit 52 false false (some 0x5))),
    (0xC500FFFFFFFFFFE0, none, .yield (yw 0 false .none .none .none 65535 false false none)),
    (0xC600FFC078000000, none, .qpush (yw 0 false .none (.s 1) (.int 64) 0 false false none)),
    (0xC70081407FE00000, none, .qpop (yw 0 false (.s 2) (.s 1) .none 0 false false none)),
    (0xC80081407FE00000, none, .qtry (yw 0 false (.s 2) (.s 1) .none 0 false false none)),
    (0xC90081407FE00000, none, .qlen (yw 0 false (.s 2) (.s 1) .none 0 false false none)),
    (0xC901FFC072000000, none, .qlenInit (yw 0 false .none (.s 1) (.int 16) 0 false false none)),
    (0xCA00814070200610, none, .poll (yw 0 false (.s 2) (.s 1) (.int 1) 48 true false none)),
    (0xCB00FFC07FE00000, none, .dcdec (yw 0 false .none (.s 1) .none 0 false false none)),
    (0xCCF0FFC070E00000, none, .dcset (yw 7 true .none (.s 1) (.int 7) 0 false false none)),
    (0xCD0081413FE00000, none, .launch (yw 0 false (.s 2) (.s 4) .none 0 false false none))] = true := by decide +kernel

/-- Words of every instruction of the control rows, from R26, R27, R29 and the rows' tables. -/
theorem test_words_control : reads [
    (0xD000FFFFC0000000, none, .nop (jw 0 false .none 0)),
    (0xD100FFFFFFFFFFF8, none, .bra (jw 0 false .none 268435454)),
    (0xD20080FFC0000004, none, .bz (jw 0 false (.s 1) 1)),
    (0xD30080FFC0000000, none, .bnz (jw 0 false (.s 1) 0)),
    (0xD400A0FFDFFFFFFC, none, .bany (jw 0 false (.k 1) 134217727)),
    (0xD500A07FC0000000, none, .ball (jw 0 false (.k 0) 0)),
    (0xD600A3FFC0000000, none, .bnone (jw 0 false (.k 7) 0)),
    (0xD7009FFFFFFFFFFC, none, .loop (jw 0 false (.s 63) 268435455)),
    (0xD8009F7FC0000010, none, .call (jw 0 false (.s 62) 4)),
    (0xD9009F7FC0000000, none, .ret (jw 0 false (.s 62) 0)),
    (0xDA00807FC0000000, none, .jmpi (jw 0 false (.s 0) 0)),
    (0xDB20FFFFC0000000, none, .endWave (jw 1 false .none 0))] = true := by decide +kernel

/-- Words of every instruction of the system rows, from R26, R27, R29 and the rows' tables. -/
theorem test_words_system : reads [
    (0xE00080FFFFE000E0, none, .sysr (yw 0 false (.s 1) .none .none 7 false false none)),
    (0xE100FFFFE0200080, none, .sysw (yw 0 false .none .none (.s 1) 4 false false none)),
    (0xE200FFFFFFF579A0, none, .trap (yw 0 false .none .none .none 43981 false false none)),
    (0xE300FFFFFFE00040, none, .tret (yw 0 false .none .none .none 2 false false none)),
    (0xE400FFFFFFE00020, none, .bkpt (yw 0 false .none .none .none 1 false false none)),
    (0xE50080FFFFE00000, none, .ticks (yw 0 false (.s 1) .none .none 0 false false none)),
    (0xE600FFFFFFE00000, none, .kill (yw 0 false .none .none .none 0 false false none)),
    (0xE601FFFFFFE00000, none, .killGrid (yw 0 false .none .none .none 0 false false none)),
    (0xE70080FFFFE000A0, none, .faultrd (yw 0 false (.s 1) .none .none 5 false false none)),
    (0xF0000C0001010100, none, .rpt 3 (st 1 1 1 0)),
    (0xF000FC00FF000000, none, .rpt 63 (st 255 0 0 0)),
    (0xF00003090200FE00, none, .rptRegister 9 (st 2 0 254 0))] = true := by decide +kernel

/-! ### Refusals (R36) -/

def refused (l : List (Instr × Illegal)) : Bool := l.all (fun p => decide (p.1.illegal? = some p.2))
def rejected (l : List (Word64 × Illegal)) : Bool :=
  l.all (fun p => match decodeWord p.1 none with | .ok _ => false | .error r => decide (r = p.2))

/-- Format X: one ill-formed term for every check, in the order of the checks. -/
theorem test_illformed_x : refused [
    (.add (xw 0 true 0 (.v 3) (.v 1) (.v 2) .none .u32 0 false false false none), .guardNever),
    (.add (xw 0 false 1 (.v 3) (.v 1) (.v 2) .none .u32 0 false false false none), .subcode),
    (.add (xw 0 false 0 (.v 3) (.v 1) (.v 2) .none .f32 0 false false false none), .type),
    (.fadd (xw 0 false 0 (.v 3) (.v 1) (.v 2) .none .f32 4 false false false none), .mode),
    (.add (xw 0 false 0 (.int 1) (.v 1) (.v 2) .none .u32 0 false false false none), .operand),
    (.add (xw 0 false 0 (.v 3) (.v 1) .none .none .u32 0 false false false none), .operand),
    (.add (xw 0 false 0 (.v 3) (.v 1) (.int 96) .none .u32 0 false false false none), .operand),
    (.mov (xw 0 false 0 (.k 0) (.v 1) .none .none .b32 0 false false false none), .operand),
    (.add (xw 0 false 0 (.v 3) (.v 2) (.v 4) .none .u64 0 false false false none), .pair),
    (.add (xw 0 false 0 (.v 3) (.v 1) (.int 2) .none .u32 0 false true false none), .emptyBit),
    (.add (xw 0 false 0 (.v 3) (.v 1) .lit .none .u32 0 false false false none), .literal),
    (.add (xw 0 false 0 (.v 3) (.v 1) .lit .none .u8 0 false false false (some 0x100)), .literalHigh),
    (.add (xw 0 false 0 (.s 1) (.v 0) (.int 1) .none .i32 0 false false false none), .uniformDestination)] = true := by decide +kernel

/-- Format M: one ill-formed term for every check. -/
theorem test_illformed_m : refused [
    (.ld (mw 0 true 0 (.v 4) (.v 2) .none 0 2 0 0 false false none), .guardNever),
    (.ldc (mw 0 false 2 (.v 4) (.int 0) (.int 0) 0 2 0 0 false false none), .subcode),
    (.ld (mw 0 false 0 (.v 4) (.v 2) .none 0 5 0 0 false false none), .size),
    (.ld (mw 0 false 0 (.v 4) (.v 2) .none 0 2 2 0 false false none), .order),
    (.ld (mw 0 false 0 (.v 4) (.v 2) .none 0 2 1 5 false false none), .order),
    (.lds (mw 0 false 0 (.s 1) (.s 2) .none 0 3 1 2 false false none), .order),
    (.cpy (mw 0 false 0 (.s 2) (.s 4) (.int 1) 1 0 0 0 false false none), .zeroField),
    (.cpytW (mw 0 false 1 .none (.s 4) (.s 6) 32 0 0 0 false false none), .zeroField),
    (.ld (mw 0 false 0 (.v 4) (.v 2) .none 0 2 0 0 false true none), .zeroField),
    (.ld (mw 0 false 0 (.v 4) (.k 2) .none 0 2 0 0 false false none), .operand),
    (.ld (mw 0 false 0 (.v 4) (.v 3) .none 0 2 0 0 false false none), .pair),
    (.waitc (mw 0 false 0 .none .none (.int 0) 0 0 0 0 true false none), .emptyBit),
    (.waitc (mw 0 false 0 .none .none .lit 0 0 0 0 false false none), .literal),
    (.st (mw 0 false 0 .none (.s 2) .lit 0 0 0 0 false false (some 0x1FF)), .literalHigh),
    (.ld (mw 0 false 0 (.s 4) (.v 2) .none 0 2 0 0 false false none), .uniformDestination)] = true := by decide +kernel

/-- Formats Q, K, Y and J, and the checks of single rows: one ill-formed term for every check. -/
theorem test_illformed_qkyj : refused [
    (.wrel (qw 0 true 0 0 1 0 0 .none .none 0), .guardNever),
    (.wrel (qw 0 false 1 0 1 0 0 .none .none 0), .subcode),
    (.wrel (qw 0 false 0 1 1 0 0 .none .none 0), .zeroField),
    (.wrel (qw 0 false 0 0 1 1 0 .none .none 0), .zeroField),
    (.wrel (qw 0 false 0 0 1 0 0 .none .none 1), .zeroField),
    (.wstat (qw 0 false 0 0 1 0 0 (.v 1) .none 0), .operand),
    (.czero (qw 0 false 0 60 0 0 4 .none .none 0), .immediate),
    (.qcvtW (qw 0 false 1 0 2 2 0 .none .none 0), .operand),
    (.tolrd (qw 0 false 0 0 0 0 0 (.s 1) (.s 2) 3), .zeroField),
    (.kslot (kw 0 true (.s 4) (.s 2) (.s 5) .none 0 none), .guardNever),
    (.kslot (kw 0 false (.s 4) (.s 2) (.s 5) .none 1 none), .zeroField),
    (.kslot (kw 0 false .none (.s 2) (.s 5) .none 0 none), .operand),
    (.kslot (kw 0 false (.s 4) (.s 3) (.s 5) .none 0 none), .pair),
    (.kslot (kw 0 false (.s 4) (.s 2) (.s 5) .none 0 (some 1)), .literal),
    (.bar (yw 0 true .none .none .none 0 false false none), .guardNever),
    (.bar (yw 0 false .none .none .none 16 false false none), .immediate),
    (.barC (yw 0 false .none .none .none 4 false false none), .immediate),
    (.phase (yw 0 false .none (.s 1) (.int 0) 0x11 false false none), .immediate),
    (.sysr (yw 0 false (.s 1) .none .none 8 false false none), .immediate),
    (.sysw (yw 0 false .none .none (.s 1) 5 false false none), .immediate),
    (.tret (yw 0 false .none .none .none 3 false false none), .immediate),
    (.faultrd (yw 0 false (.s 1) .none .none 6 false false none), .immediate),
    (.qpop (yw 0 false (.v 1) (.s 1) .none 0 false false none), .operand),
    (.qtry (yw 0 false (.s 1) (.s 1) .none 0 false false none), .pair),
    (.dcset (yw 0 false .none (.s 1) (.int 1) 0 false true none), .emptyBit),
    (.dcset (yw 0 false .none (.s 1) .lit 0 false false none), .literal),
    (.nop (jw 0 true .none 0), .guardNever),
    (.ret (jw 0 false (.s 1) 1), .zeroField),
    (.bany (jw 0 false (.s 1) 0), .operand)] = true := by decide +kernel

/-- Words that no encoding table lists: unassigned opcodes (R36 names 0x2C, 0xAB and 0xF5), a reserved operand code 0x149 in A, a reserved type 15, bit 0 of format X, SUB 4 of KFETCH and 1 of NOP, a reserved bit of formats K, Y and J, RPT with a guard, RPT with a count and a register. -/
theorem test_reserved_words : rejected [
    (0x2C00018040600100, .opcode), (0xAB00000000000000, .opcode), (0xF500000000000000, .opcode), (0x9300000000000000, .opcode), (0xE800000000000000, .opcode),
    (0x000001D2405FF100, .operand), (0x00000180405FFF00, .type), (0x00000180405FF101, .zeroField), (0xB404820040C08000, .subcode), (0xD001FFFFC0000000, .subcode),
    (0xB500820040BFF004, .zeroField), (0xE500809FFFE00004, .zeroField), (0xD000FFFFC0000001, .zeroField), (0xF020000000000000, .rpt), (0xF000070900000000, .rpt), (0xF000020200000000, .rpt)] = true := by decide +kernel

/-- A clause of class ecl with an allotment of 32 v registers, judged as R24 says: the first illegal word and why. -/
def judged (ecl : Nat) (ws : List Word64) : Option (Nat × Illegal) :=
  checkClause { ecl := ecl, nw := ws.length - 1, thc := 15, thm := 15, thg := 15, ths := 15, y := false } 32 ws

/-- The header of R20; ECL 5 and a bit of [38:0] are no header. A clause of one ADD is legal; FADD in a MEM clause, v40 of 32 registers, a transfer before the last word, a literal beyond the clause, RPT as the last word, RPT before a transfer, and RPT that steps v31 by one are not. -/
theorem test_clauses :
    decodeHeader 0x03FFFF0000000000 = some { ecl := 0, nw := 3, thc := 15, thm := 15, thg := 15, ths := 15, y := false } ∧
    decodeHeader 0x4F12348000000000 = some { ecl := 4, nw := 15, thc := 1, thm := 2, thg := 3, ths := 4, y := true } ∧
    decodeHeader 0x50FFFF0000000000 = none ∧ decodeHeader 0x00FFFF0000000001 = none ∧
    judged 0 [0x00000180405FF100] = none ∧
    judged 1 [0x00000180405FF100, 0x40000800011FF400] = some (1, .clauseClass) ∧
    judged 0 [0x00000180414FF100, 0x00001400405FF100] = some (0, .operand) ∧
    judged 0 [0x00001400405FF100] = some (0, .allotment) ∧
    judged 0 [0xD000FFFFC0000000, 0x00000180405FF100] = some (0, .transfer) ∧
    judged 0 [0x00000180405FF100, 0x0C000180691FFD02] = some (1, .literal) ∧
    judged 0 [0xF000040001000000] = some (0, .rpt) ∧
    judged 0 [0xF000040001000000, 0xD000FFFFC0000000] = some (0, .rpt) ∧
    judged 0 [0xF000040001000000, 0x00000F80405FF100] = some (0, .rpt) ∧
    judged 0 [0xF000040001000000, 0x00000F00405FF100] = none := by decide +kernel

/-! ### Results, each worked by hand from its rule -/

/-- One block of one wave on core 0, about to issue a word of two words' clause. -/
def wave0 : Wave := { firstWave loadedDesc 0 0 0 with clause := some { words := [0, 0, 0], idx := 0, y := false, rpt := none, yld := none } }
def block0 : Block := { freshBlock 0 0 with life := .running, core := some 0, slice := some 0 }
def grid0 : Grid := { asid := 0, d := loadedDesc, status := [], runnable := [0], listed := [], gbar := [], cbars := [], done := false, launcher := none }
def state (w : Wave) (b : Block) (g : Grid) (c : Ctx) : State :=
  { placeWord 0 0 State.reset with sched := { moves := [], moveNo := 0, freeNo := 0, cur := some 0 }, waves := [(0, w)], blocks := [(0, b)], grids := [(0, g)], ctxs := [(0, c)] }
/-- The wave after a word. -/
def after (i : Instr) (w : Wave) : Wave := match exec i (state w block0 grid0 loadedCtx) with | .next t => (mget t.waves 0).getD w | _ => w
/-- Lane 0 of v1, v2 and v3. -/
def lanes (a b c : Word32) : Wave := setV (setV (setV wave0 1 0 a) 2 0 b) 3 0 c
/-- What v3, lane 0, holds after the word with operands v1, v2, v3 and destination v3. -/
def gives (mk : XW → Instr) (t : Ty) (sub : BitVec 4) (m : BitVec 3) (a b c : Word32) : Word32 :=
  vReg (after (mk (xw 0 false sub (.v 3) (.v 1) (.v 2) (.v 3) t m false false false none)) (lanes a b c)) 3 0

/-- R205, R38: narrow sums clear or extend the high bits; saturation; the high half; division by zero; counts. -/
theorem test_integer :
    gives .add .u8 0 0 0xFF 1 0 = 0 ∧ gives .add .i16 0 0 0x7FFF 1 0 = 0xFFFF8000 ∧ gives .sub .u32 0 0 1 2 0 = 0xFFFFFFFF ∧
    gives .adds .i8 0 0 127 1 0 = 127 ∧ gives .subs .u32 0 0 1 2 0 = 0 ∧ gives .mul .u32 0 0 0xFFFFFFFF 2 0 = 0xFFFFFFFE ∧
    gives .mulh .i32 0 0 0xFFFFFFFF 0xFFFFFFFF 0 = 0 ∧ gives .mulh .u32 0 0 0xFFFFFFFF 0xFFFFFFFF 0 = 0xFFFFFFFE ∧ gives .mad .u32 0 0 3 5 7 = 22 ∧
    gives .abs .i32 0 0 0x80000000 0 0 = 0x80000000 ∧ gives .min .i32 0 0 0xFFFFFFFF 1 0 = 0xFFFFFFFF ∧ gives .max .u32 0 0 0xFFFFFFFF 1 0 = 0xFFFFFFFF ∧
    gives .and .b32 0 0 0xF0F0 0xFF00 0 = 0xF000 ∧ gives .or .b32 0 0 0xF0F0 0xFF00 0 = 0xFFF0 ∧ gives .xor .b32 0 0 0xF0F0 0xFF00 0 = 0x0FF0 ∧
    gives .andn .b32 0 0 0xF0F0 0xFF00 0 = 0x00F0 ∧ gives .clz .b32 0 0 0 0 0 = 32 ∧ gives .popc .b32 0 0 0x80000001 0 0 = 2 ∧ gives .brev .b32 0 0 1 0 0 = 0x80000000 ∧
    gives .divu .u32 0 0 7 0 0 = 0xFFFFFFFF ∧ gives .divu .u32 0 0 7 2 0 = 3 ∧ gives .remu .u32 0 0 7 0 0 = 7 ∧ gives .remu .u32 0 0 7 2 0 = 1 := by decide +kernel

/-- R206 to R210: counts of the width and more, fields cut at the top bit, clamped and wrapped elements. -/
theorem test_shifts_and_fields :
    gives .shl .u32 0 0 1 32 0 = 0 ∧ gives .shr .u32 0 0 0x80000000 31 0 = 1 ∧ gives .sar .i32 0 0 0x80000000 40 0 = 0xFFFFFFFF ∧ gives .rol .b32 0 0 0x80000001 33 0 = 3 ∧
    gives .bfx .i32 0 0 0x80 4 4 = 0xFFFFFFF8 ∧ gives .bfx .u32 0 0 0x80 4 4 = 8 ∧ gives .bfx .u32 0 0 0xF0000000 28 8 = 0xF ∧
    vReg (after (.bfi (xw 0 false 0 (.v 3) (.v 1) (.int 8) (.int 4) .b32 0 false false false none)) (lanes 0xAB 0 0xFFFFFFFF)) 3 0 = 0xFFFFFBFF ∧
    gives .padd .u8 3 0 0x01FF0102 0x02010101 0 = 0x00FE0001 ∧ gives .padd .i16 0 0 0x7FFF0001 0x0001FFFF 0 = 0x80000000 ∧
    gives .mov .b32 0 0 5 0 0 = 5 ∧ vReg (after (.sel (xw 0 false 0 (.v 3) (.v 1) (.v 2) (.k 1) .b32 0 false false false none)) (setK (lanes 5 6 7) 1 2)) 3 0 = 6 := by decide +kernel

/-- R209, R211: LEA keeps bits [63:60]; two mixed words, computed from the formula by a calculator. -/
theorem test_pairs :
    let w := setVPair (setVPair wave0 4 0 0xA000000000000010) 6 0 1
    vPair (after (.lea (xw 0 false 0 (.v 2) (.v 4) (.int 94) (.int 3) .i32 0 false false false none)) w) 2 0 = 0xA000000000000000 ∧
    vPair (after (.hmix (xw 0 false 0 (.v 2) (.v 6) (.v 8) .none .b64 0 false false false none)) w) 2 0 = 0xd8685893e3d7d0e9 ∧
    vPair (after (.hmix (xw 0 false 0 (.v 2) (.v 8) (.v 10) .none .b64 0 false false false none)) w) 2 0 = 0 := by decide +kernel

/-- R175 to R177, R212, R213: ties to even, a directed mode, one rounding in FMA, the sign of an exact zero, signed zeros and NaN. -/
theorem test_float :
    gives .fadd .f32 0 0 0x3F800000 0x33800000 0 = 0x3F800000 ∧ gives .fadd .f32 0 2 0x3F800000 0x33800000 0 = 0x3F800001 ∧ gives .fadd .f32 0 3 0x3F800000 0xBF800000 0 = 0x80000000 ∧
    gives .fsub .f32 0 0 0x40000000 0x3F800000 0 = 0x3F800000 ∧ gives .fmul .f32 0 0 0x00000001 0x3F000000 0 = 0 ∧ gives .fmul .f32 0 0 0x7F800000 0 0 = 0x7FC00000 ∧
    gives .fma .f32 0 0 0x3F800800 0x3F7FF000 0xBF800000 = 0xB3800000 ∧ gives .fmin .f32 0 0 0 0x80000000 0 = 0x80000000 ∧ gives .fmax .f32 0 0 0 0x80000000 0 = 0 ∧
    gives .fmin .f32 0 0 0x7FC00001 0x3F800000 0 = 0x3F800000 ∧ gives .fabs .f32 0 0 0x80000000 0 0 = 0 ∧ gives .fneg .f16 0 0 0x3C00 0 0 = 0xBC00 ∧ gives .frnd .f32 0 0 0xBF000000 0 0 = 0x80000000 ∧
    gives .frnd .f32 0 2 0x3F000000 0 0 = 0x3F800000 ∧ gives .fclass .f32 0 0 0x00000001 0 0 = 32 ∧ gives .fsqrt .f32 0 0 0x40000000 0 0 = 0x3FB504F3 := by decide +kernel

/-- R215: 1/3, 1/√4, 2³, log₂ 8 and tanh 0 in FP32; R214 of FSCALE: 3 × 2⁴. -/
theorem test_iterative :
    let it := fun (mk : XW → Instr) (a : Word32) => vReg (after (mk (xw 0 false 0 (.v 3) (.v 1) .none .none .f32 0 false false false none)) (lanes a 0 0)) 3 0
    it .frcp 0x40400000 = 0x3EAAAAAB ∧ it .frsq 0x40800000 = 0x3F000000 ∧ it .fexp2 0x40400000 = 0x41000000 ∧ it .flog2 0x41000000 = 0x40400000 ∧ it .ftanh 0 = 0 ∧
    gives .fscale .f32 0 0 0x40400000 4 0 = 0x42400000 := by decide +kernel

/-- R178: the five values that the manual converts to E4M3, with .sat and without; a float to an integer clamps; an integer narrows. -/
theorem test_conversion :
    gives .cvt .e4m3 4 0 0x43960000 0 0 = 0x79 ∧ gives .cvt .e4m3 4 0 0x43980000 0 0 = 0x7A ∧ gives .cvt .e4m3 4 0 0x43FA0000 0 0 = 0x7F ∧ gives .cvt .e4m3 4 4 0x43FA0000 0 0 = 0x7E ∧
    gives .cvt .e4m3 4 0 0xFF800000 0 0 = 0x7F ∧ gives .cvt .e4m3 4 4 0xFF800000 0 0 = 0xFE ∧ gives .cvt .e4m3 4 0 0x3A800000 0 0 = 0 ∧
    gives .cvt .u8 4 0 0xC0000000 0 0 = 0 ∧ gives .cvt .i32 4 0 0x7FC00000 0 0 = 0 ∧ gives .cvt .i8 0 4 300 0 0 = 127 ∧ gives .cvt .f32 0 0 0xFFFFFFFF 0 0 = 0xBF800000 := by decide +kernel

/-- Lane i of v1 holds i. -/
def ramp : Wave := lanes32.foldl (fun w i => setV w 1 i (BitVec.ofNat 32 i)) wave0
/-- R217 to R222 over that ramp. -/
theorem test_lanes :
    let x := fun (d a b c : Operand) (t : Ty) (sub : BitVec 4) => xw 0 false sub d a b c t 0 false false false none
    vReg (after (.shfl (x (.v 3) (.v 1) (.int 1) .none .b32 3)) ramp) 3 4 = 5 ∧ vReg (after (.shfl (x (.v 3) (.v 1) (.int 2) .none .b32 2)) ramp) 3 31 = 31 ∧
    vReg (after (.shflx (x (.v 2) (.v 1) (.int 3) (.v 1) .b32 0)) ramp) 3 0 = 3 ∧ vReg (after (.bcast (x (.v 3) (.v 1) (.int 33) .none .b32 0)) ramp) 3 9 = 1 ∧
    sReg (after (.red (x (.s 4) (.v 1) .none .none .i32 0)) ramp) 4 = 496 ∧ vReg (after (.scan (x (.v 3) (.v 1) .none .none .i32 8)) ramp) 3 4 = 6 ∧
    vReg (after (.pack (x (.v 3) (.v 1) (.int 3) .none .b32 0)) ramp) 3 2 = 0x00030002 ∧ vReg (after (.unpk (x (.v 3) (.int 95) (.int 1) .none .i32 2)) ramp) 3 2 = 0xFFFFFFFF ∧
    kReg (after (.cmp (x (.k 1) (.v 1) (.int 2) .none .i32 2)) ramp) 1 = 3 ∧ kReg (after (.fcmp (x (.k 1) (.fc 1) (.fc 2) .none .f32 2)) ramp) 1 = 0xFFFFFFFF ∧
    kReg (after (.kop (x (.k 2) (.k 0) (.int 5) .none .b32 3)) ramp) 2 = 0xFFFFFFFA ∧ sReg (after (.kpop (x (.s 2) (.v 1) .none .none .b32 0)) ramp) 2 = 31 ∧
    sReg (after (.kff1 (x (.s 2) (.v 1) .none .none .b32 0)) ramp) 2 = 1 ∧ kReg (after (.kset (x (.k 1) (.v 1) .none .none .b32 0)) ramp) 1 = 0xFFFFFFFE ∧
    sReg (after (.kget (x (.s 2) (.v 1) (.int 7) .none .b32 0)) ramp) 2 = 7 := by decide +kernel

/-- R208, R175: MOV at a narrow type to a k register supplies bits 31:0 of a uniform source; SCAN writes a NaN as the canonical one. -/
theorem test_mask_and_nan :
    kReg (after (.mov (xw 0 false 0 (.k 1) (.s 2) .none .none .u8 0 false false false none)) (setS wave0 2 0x100)) 1 = 0x100 ∧
    vReg (after (.scan (xw 0 false 0 (.v 3) (.v 1) .none .none .f32 0 false false false none)) (lanes 0xFFC00001 0 0)) 3 0 = 0x7FC00000 := by decide +kernel

/-- R46, R47: the work identifier and the block number of the manual's example. -/
theorem test_work_identifier :
    let d := { loadedDesc with nw := 4, gs := 2, ext3 := 100, ext4 := 3, w1 := 2, w2 := 1, w3 := 7, w4 := 2 }
    laneWid (freshWave d 0 485 3 0) 17 = 0x12AF1 ∧ ((0 * 3 + 2) * 100 + 42) * 2 + 1 = 485 := by decide +kernel

/-- The table below R186, cases A and B. -/
theorem test_matrix_step :
    matrixStep 0x3F000000 [.fin false 1 24, .fin false 1 0, .fin true 1 24, .fin false 1 (-30)] = 0x3FC00000 ∧
    matrixStep 0 [.fin false 1 24, .fin false 1 0, .fin false 1 (-40)] = 0x4B800000 := by decide +kernel

/-- The table image of the demand that the manual works on three nodes, and its choices: node 0 INT8 (6), node 1 BF16 (7); nothing produced, so no node is stale. -/
def image : List Byte :=
  [0, 0x80000000000000E0, 0, 0x80000000000000E4, 0x00000C0400004035, 0x8000000000000000].flatMap (natToBytes 8) ++ natToBytes (1024 - 48) 0
theorem test_tolerance :
    (match parseTable image with
     | some tol =>
       let b := { block0 with tol := tol, choice := freshFile tol }
       let r := tolWalk b 2 40
       decide ((choiceAt { b with choice := r.1 } 0).code = 52 ∧ (choiceAt { b with choice := r.1 } 1).code = 60 ∧
         (choiceAt { b with choice := r.1 } 0).cho = 6 ∧ (choiceAt { b with choice := r.1 } 1).cho = 7 ∧ r.2 = 0)
     | none => false) = true := by decide +kernel

/-! ### States and operands that meet the hypotheses of the statements -/

def always : Guard := { g := 0, gn := false }
/-- No register of the wave is empty. -/
def Full (w : Wave) : Prop := w.vE = [] ∧ w.sE = [] ∧ w.kE = []

theorem emptyIn_full {w : Wave} (h : Full w) (o : Operand) (n : Nat) (m : Word32) : emptyIn w o n m = 0 := by
  obtain ⟨hv, hs, hk⟩ := h
  cases o <;> simp only [emptyIn, hv, hs, hk, List.contains_nil, List.any_eq_true, Bool.false_eq_true, and_false, exists_false, if_false]
  have e : ∀ i : Nat, (m.getLsbD i && (List.range n).any (fun _ => false)) = false := by simp
  rw [funext e]
  decide

theorem firstTrap_full {w : Wave} (h : Full w) (m : Word32) (l : List Src) : firstTrap w m l = none := by
  induction l with
  | nil => rfl
  | cons q rest ih => simp [firstTrap, srcEmpty, emptyIn_full h, ih]

/-- With no empty register nothing stands in the way of a word. -/
theorem ready_full {w : Wave} (h : Full w) (m : Word32) (srcs : List Src) (dests : List (Operand × Nat)) : readiness w m srcs dests = .go := by
  simp [readiness, firstTrap_full h, srcEmpty, emptyIn_full h]

/-- Such a wave issues under an always guard. -/
theorem issues_full {key : Nat} {w : Wave} {srcs : List Src} {dests : List (Operand × Nat)} {s : State} (hc : current s = some (key, w)) (h : Full w) :
    Issues always srcs dests key w 0xFFFFFFFF s :=
  ⟨hc, by simp [guardEmpty, h.2.2], by simp [guardMask, kReg, always], by decide, ready_full h _ _ _⟩
/-- It acts in its block, grid and context. -/
theorem acts_full {v : View} {srcs : List Src} {dests : List (Operand × Nat)} {s : State} (hc : current s = some (v.key, v.w)) (hv : viewOf s v.key = some v) (h : Full v.w) :
    Acts always srcs dests v 0xFFFFFFFF s := ⟨issues_full hc h, hv⟩

def view (w : Wave) (b : Block) (g : Grid) (c : Ctx) : View := { key := 0, w := w, b := b, g := g, c := c }
def state0 : State := state wave0 block0 grid0 loadedCtx
def view0 : View := view wave0 block0 grid0 loadedCtx
theorem full0 : Full wave0 := ⟨rfl, rfl, rfl⟩
theorem issues0 {srcs : List Src} {dests : List (Operand × Nat)} : Issues always srcs dests 0 wave0 0xFFFFFFFF state0 := issues_full rfl full0
theorem acts0 {srcs : List Src} {dests : List (Operand × Nat)} : Acts always srcs dests view0 0xFFFFFFFF state0 := acts_full rfl rfl full0

def x3 (d a b c : Operand) (t : Ty) (sub : BitVec 4) : XW := xw 0 false sub d a b c t 0 false false false none

/-- A word of a narrow, a 32-bit and a 64-bit type, at the ends of the register files. -/
theorem witness_IntegerResults :
    XReady (x3 (.v 255) (.v 0) (.s 63) (.int 95) .i8 0) 0 wave0 0xFFFFFFFF state0 ∧ Ty.i8.isFloat = false ∧
    XReady (x3 (.v 2) (.v 254) (.v 6) (.v 0) .u64 0) 0 wave0 0xFFFFFFFF state0 ∧ Ty.u64.isFloat = false := ⟨issues0, rfl, issues0, rfl⟩
theorem witness_ShiftAndFieldResults : XReady (x3 (.v 255) (.v 0) (.int 32) (.int 0) .b32 0) 0 wave0 0xFFFFFFFF state0 ∧ Ty.b32.isFloat = false := ⟨issues0, rfl⟩
/-- MOV to a v and an s register, MOV to a k register from each kind of source, and the three conditions of SEL. -/
theorem witness_MoveResults :
    (∀ d ∈ [Operand.v 255, .s 63], let x := x3 d (.s 0) .none .none .b32 0; XReady x 0 wave0 0xFFFFFFFF state0 ∧ ∀ n, x.d ≠ .k n) ∧
    (∀ a ∈ [(Operand.v 1, Ty.b64), (.int 92, .u8), (.s 63, .i16), (.k 0, .b32), (.lit, .u8), (.int 95, .i8), (.int 1, .f32), (.fc 2, .f16)],
      let x := { x3 (.k 7) a.1 .none .none a.2 0 with lit := some 0x100 }; Issues x.guard [srcA x (wideTy x.t)] [(x.d, 1)] 0 wave0 0xFFFFFFFF state0 ∧ x.d = .k 7) ∧
    (let x := x3 (.v 0) (.v 1) (.v 2) (.k 0) .b32 0; XReady x 0 wave0 0xFFFFFFFF state0 ∧ x.c = .k 0 ∧ ∃ d, x.d = .v d) ∧
    (let x := x3 (.s 63) (.s 1) (.s 2) (.k 7) .b32 0; XReady x 0 wave0 0xFFFFFFFF state0 ∧ x.c = .k 7 ∧ ∃ d, x.d = .s d) ∧
    (let x := x3 (.v 0) (.v 1) (.v 2) (.s 63) .b32 0; XReady x 0 wave0 0xFFFFFFFF state0 ∧ x.c = .s 63) :=
  ⟨(by intro d h; refine ⟨issues0, ?_⟩; fin_cases h <;> decide), fun _ _ => ⟨issues0, rfl⟩, ⟨issues0, rfl, _, rfl⟩, ⟨issues0, rfl, _, rfl⟩, ⟨issues0, rfl⟩⟩
theorem witness_PointerAndPackedResults :
    (let x := x3 (.v 0) (.v 2) (.v 4) (.int 63) .i8 0; Issues x.guard [srcA x true, srcB x (wideTy x.t)] [dstD x true] 0 wave0 0xFFFFFFFF state0 ∧ x.t.isFloat = false) ∧
    (let x := x3 (.v 0) (.v 1) (.v 2) .none .u16 3; Issues x.guard [srcA x false, srcB x false] [dstD x false] 0 wave0 0xFFFFFFFF state0 ∧ (x.t.width = 8 ∨ x.t.width = 16) ∧ x.sub.toNat < 4) ∧
    (let x := x3 (.v 0) (.v 2) (.v 4) .none .b64 0; XReady x 0 wave0 0xFFFFFFFF state0 ∧ x.t = .b64) :=
  ⟨⟨issues0, rfl⟩, ⟨issues0, by decide, by decide⟩, issues0, rfl⟩
/-- Each class of value that a clause names has an encoding, and each word that the clauses name issues. -/
theorem witness_FloatResults :
    XReady (x3 (.v 0) (.v 1) (.v 2) (.v 3) .f32 0) 0 wave0 0xFFFFFFFF state0 ∧
    (let x := x3 (.v 0) (.v 1) (.int 0) .none .f32 0; Issues x.guard [srcA x false, srcB x false] [dstD x false] 0 wave0 0xFFFFFFFF state0 ∧ ∀ n, x.b ≠ .fc n) ∧
    fDecode fmtF32 0x7FC00000 = .nan ∧ fDecode fmtF32 0x7F800000 = .inf false ∧ fDecode fmtF32 0 = .fin false 0 (-149) ∧ fDecode fmtF32 0xBF800000 = .fin true 8388608 (-23) :=
  ⟨issues0, ⟨issues0, by decide⟩, by decide, by decide, by decide, by decide⟩
theorem witness_FloatSelections :
    (let x := x3 (.v 0) (.v 1) (.v 2) .none .f16 0; x.t ∈ tysFp ∧ XReady x 0 wave0 0xFFFFFFFF state0 ∧ Issues x.guard [srcA x false] [dstD x false] 0 wave0 0xFFFFFFFF state0) ∧
    fDecode fmtF16 0x7E00 = .nan ∧ fDecode fmtF16 0xFC00 = .inf true ∧ fDecode fmtF16 0x8000 = .fin true 0 (-24) :=
  ⟨⟨by decide, issues0, issues0⟩, by decide, by decide, by decide⟩
/-- A value that every format holds, in each mode. -/
theorem witness_RoundingIsNearest : ∀ t, t.isFloat = true → ∀ mode < 4, ∃ v q r, v.rat = some q ∧ (fDecode (fmtOf t) (fEncode (fmtOf t) mode false v)).rat = some r ∧
    ∃ y < 2 ^ t.width, fDecode (fmtOf t) y = v := by
  intro t ht mode hm
  have h : (match fDecode (fmtOf t) 2 with | .fin _ _ _ => true | _ => false) = true ∧ (match fDecode (fmtOf t) (fEncode (fmtOf t) mode false (fDecode (fmtOf t) 2)) with | .fin _ _ _ => true | _ => false) = true := by
    revert mode; revert t; intro t; cases t <;> decide
  generalize hv : fDecode (fmtOf t) 2 = v at h
  generalize hw : fDecode (fmtOf t) (fEncode (fmtOf t) mode false v) = w at h
  cases v <;> cases w <;> simp at h
  exact ⟨_, _, _, rfl, by rw [hw]; rfl, 2, by cases t <;> decide, hv⟩
/-- Every format has a largest finite value and one below it. -/
theorem witness_RoundingPastTheLargest : ∀ t, t.isFloat = true → ∃ p q, (fDecode (fmtOf t) (fMax (fmtOf t) false)).rat = some p ∧ (fDecode (fmtOf t) (fMax (fmtOf t) false - 1)).rat = some q := by
  intro t ht
  have h : (match fDecode (fmtOf t) (fMax (fmtOf t) false), fDecode (fmtOf t) (fMax (fmtOf t) false - 1) with | .fin _ _ _, .fin _ _ _ => true | _, _ => false) = true := by
    revert ht; cases t <;> decide
  split at h
  · rename_i hp hq; exact ⟨_, _, by rw [hp]; rfl, by rw [hq]; rfl⟩
  · contradiction
/-- The four pairs of kinds of type. -/
theorem witness_ConversionResults : ∀ p ∈ [(Ty.i32, (9 : BitVec 4)), (Ty.f32, 0), (Ty.i8, 4), (Ty.e4m3, 4)],
    let x := xw 0 false p.2 (.v 0) (.v 1) .none .none p.1 7 false false false none
    Issues x.guard [srcA x (wideTy x.srcTy)] [dstD x (wideTy x.t)] 0 wave0 0xFFFFFFFF state0 := fun _ _ => issues0
theorem witness_LaneMoves :
    (∀ p ∈ [(0 : BitVec 4), 1, 2, 3], let x := x3 (.v 0) (.v 1) (.int 31) .none .b32 p
      Issues x.guard [srcAll x.a (wideTy x.t) x.ea, srcB x (wideTy x.t)] [dstD x (wideTy x.t)] 0 wave0 0xFFFFFFFF state0) ∧
    (let x := x3 (.v 254) (.v 1) (.int 31) (.v 2) .b32 0; Issues x.guard [srcAll x.a false x.ea, srcB x false, srcAll x.c false x.ec] [(x.d, 2)] 0 wave0 0xFFFFFFFF state0 ∧ x.d = .v 254) ∧
    (let x := x3 (.s 63) (.v 2) (.int 31) .none .b64 0; Issues x.guard [srcAll x.a (wideTy x.t) x.ea, srcB x (wideTy x.t)] [dstD x false] 0 wave0 0xFFFFFFFF state0 ∧ x.d = .s 63) :=
  ⟨fun _ _ => issues0, ⟨issues0, rfl⟩, issues0, rfl⟩
/-- RED, SCAN and SCAN.excl of the first and last operation, of integers and of floating values. -/
theorem witness_ReductionResults : ∀ p ∈ [(Ty.i32, (0 : BitVec 4)), (.u64, 5), (.b32, 8), (.b64, 13), (.f32, 0), (.f16, 2), (.bf16, 8), (.f32, 10)],
    let x := x3 (.v 0) (.v 2) .none .none p.1 p.2
    Issues x.guard [srcAll x.a (wideTy x.t) x.ea] [dstD x (wideTy x.t)] 0 wave0 0xFFFFFFFF state0 ∧ (x.sub.toNat < 6 ∨ 8 ≤ x.sub.toNat) := by
  intro p h; refine ⟨issues0, ?_⟩; fin_cases h <;> decide
theorem witness_PackResults : ∀ p ∈ [(Ty.b32, (0 : BitVec 4), 16), (Ty.i32, 1, 8), (Ty.u32, 2, 4)],
    let x := x3 (.v 0) (.v 1) (.int 7) .none p.1 p.2.1
    XReady x 0 wave0 0xFFFFFFFF state0 ∧ x.t.width = 32 ∧ x.t.isFloat = false ∧ (x.sub = 0 ∧ p.2.2 = 16 ∨ x.sub = 1 ∧ p.2.2 = 8 ∨ x.sub = 2 ∧ p.2.2 = 4) := by
  intro p h; refine ⟨issues0, ?_⟩; fin_cases h <;> decide
theorem witness_CompareResults :
    (let x := x3 (.k 7) (.v 1) (.v 2) .none .i32 5
     x.d = .k 7 ∧ Issues x.guard [srcA x (wideTy x.t), srcB x (wideTy x.t)] [(x.d, 1)] 0 wave0 0xFFFFFFFF state0 ∧ x.sub.toNat < 6 ∧ x.t.isFloat = false) ∧
    (let x := x3 (.k 1) (.v 1) (.v 2) .none .b64 1; (Instr.cmp { x with a := .v 2 }).wellFormed = true ∧ x.t = .b64) ∧
    (let x := x3 (.k 1) (.v 1) (.v 2) .none .f32 7
     x.d = .k 1 ∧ Issues x.guard [srcA x (wideTy x.t), srcB x (wideTy x.t)] [(x.d, 1)] 0 wave0 0xFFFFFFFF state0 ∧ x.sub.toNat < 8) :=
  ⟨⟨rfl, issues0, by decide, rfl⟩, ⟨by decide, rfl⟩, rfl, issues0, by decide⟩
theorem witness_MaskResults :
    (let x := x3 (.k 7) (.s 1) (.k 0) .none .b32 0; Issues x.guard [srcA x (wideTy x.t), srcB x (wideTy x.t)] [(x.d, 1)] 0 wave0 0xFFFFFFFF state0 ∧ x.d = .k 7 ∧ x.sub = 0) ∧
    (let x := x3 (.s 63) (.v 1) .none .none .b32 0; Issues x.guard [srcCount x] [dstD x false] 0 wave0 0xFFFFFFFF state0 ∧ x.d = .s 63) ∧
    (let x := x3 (.s 0) (.k 1) .none .none .b32 0; Issues x.guard [srcCount x] [dstD x false] 0 wave0 0xFFFFFFFF state0 ∧ x.d = .s 0) :=
  ⟨⟨issues0, rfl, rfl⟩, ⟨issues0, rfl⟩, issues0, rfl⟩
theorem witness_IterativeResults :
    (let x := xw 0 false 0 (.v 0) (.v 1) .none .none .f32 0 false false false none
     x.c = .none ∧ x.t = .f32 ∧ Issues x.guard [srcA x false] [dstD x false] 0 wave0 0xFFFFFFFF state0) ∧
    (let x := xw 0 false 0 (.v 0) (.v 1) .none (.int 63) .f32 0 false false false none
     let node : TolNode := { kind := 2, ops := [], perm := 1 }
     let b := { block0 with tol := [(63, node)] }
     let v := view wave0 b grid0 loadedCtx
     x.c = .int 63 ∧ x.t = .f32 ∧ Acts x.guard [srcA x false] [dstD x false] v 0xFFFFFFFF (state wave0 b grid0 loadedCtx) ∧ (choiceAt v.b 63).unm = false ∧
     mget v.b.tol 63 = some node ∧ node.kind = 2) ∧
    (∀ t, mget view0.b.tol 0 = some t → t.kind ≠ 2) ∧ fDecode fmtF32 0x7F800001 = .nan ∧ fDecode fmtF32 0x80000000 = .fin true 0 (-149) ∧
    fDecode fmtF32 0xFF800000 = .inf true ∧ fDecode fmtF32 0xBF800000 = .fin true 8388608 (-23) :=
  ⟨⟨rfl, rfl, issues0⟩, ⟨rfl, rfl, acts_full rfl rfl ⟨rfl, rfl, rfl⟩, rfl, rfl, rfl⟩, (by intro t h; cases h), by decide, by decide, by decide, by decide⟩

/-- s5 holds 1 and s6 holds 8. -/
def wave1 : Wave := setS (setS wave0 5 1) 6 8
theorem witness_TransferResults :
    (∀ a ∈ [Operand.none, .s 5, .s 6, .k 0, .k 7], Issues (jw 0 false a 0x8000000).guard [{ o := a }] [(a, 1)] 0 wave1 0xFFFFFFFF (state wave1 block0 grid0 loadedCtx) ∧
      Issues (jw 0 false a 0x8000000).guard [{ o := a }] [] 0 wave1 0xFFFFFFFF (state wave1 block0 grid0 loadedCtx) ∧
      Issues (jw 0 false a 0x8000000).guard [] [(a, 1)] 0 wave1 0xFFFFFFFF (state wave1 block0 grid0 loadedCtx)) ∧
    sReg wave1 6 &&& 7 = 0 ∧ sReg wave1 5 &&& 7 ≠ 0 ∧ ∃ c, wave1.clause = some c :=
  ⟨fun _ _ => ⟨issues_full rfl full0, issues_full rfl full0, issues_full rfl full0⟩, by decide, by decide, _, rfl⟩
/-- Two more waves of the block of `wave0`, each at a PHASE. -/
def phaseT : PhaseReq := { ck := 5, cge := false, w32 := false, ca := 0, cval := 1, ord := 0 }
def atPhases (x y : PhaseReq) : State :=
  { state0 with waves := [(0, wave0), (1, { firstWave loadedDesc 0 0 1 with idx := 1, phase := some x }), (2, { firstWave loadedDesc 0 0 2 with idx := 2, phase := some y })] }
/-- A wave alone; with two others at one condition; with two others at differing conditions. -/
theorem witness_EndRetiresTheWave :
    (let j := jw 0 false .none 0
     Acts j.guard [] [] view0 0xFFFFFFFF state0 ∧ Acts j.guard [] [] view0 0xFFFFFFFF (atPhases phaseT phaseT) ∧ Acts j.guard [] [] view0 0xFFFFFFFF (atPhases phaseT { phaseT with ck := 2 })) ∧
    view0.w.ended = false ∧ view0.w.parked = none ∧ (1 : Nat) ≠ view0.key ∧ mget state0.blocks 0 = some block0 ∧ block0.life = .running ∧ block0.endAs = none ∧
    (let others := fun (s : State) => (presentOf s wave0.blk).filter (fun e => e.1 != 0)
     (∀ y ∈ [phaseT, { phaseT with ck := 2 }], (others (atPhases phaseT y)).map (fun e => e.2.phase) = [some phaseT, some y]) ∧ others state0 = []) ∧
    samePhase phaseT phaseT = true ∧ samePhase phaseT { phaseT with ck := 2 } = false := by
  refine ⟨⟨acts0, acts_full rfl rfl full0, acts_full rfl rfl full0⟩, ?_⟩
  decide +kernel

/-- A clause of RPT and ADD.u32 v3, v1, v2; s7 holds 64 and s8 holds 65. -/
def clause2 : Clause := { words := [0xF000040001000000, 0x00000180405FF100], idx := 0, y := false, rpt := none, yld := none }
def wave2 : Wave := { setS (setS wave0 7 64) 8 65 with clause := some clause2 }
theorem witness_RepeatBegins :
    current (state wave2 block0 grid0 loadedCtx) = some (0, wave2) ∧ wave2.clause = some clause2 ∧ nextWord clause2 = some 0x00000180405FF100 ∧
    decodeWord 0x00000180405FF100 none = .ok (.add (x3 (.v 3) (.v 1) (.v 2) .none .u32 0)) ∧ clause2.words[clause2.idx + 2]? = none ∧ wave2.kE.contains 0 = false ∧
    stepsInFile wave2.allot ((63 : BitVec 6).toNat + 1) (st 4 0 0 0) (.add (x3 (.v 3) (.v 1) (.v 2) .none .u32 0)) = true ∧
    stepsInFile wave2.allot ((63 : BitVec 6).toNat + 1) (st 5 0 0 0) (.add (x3 (.v 3) (.v 1) (.v 2) .none .u32 0)) = false ∧
    (∀ r ∈ [(0 : BitVec 6), 7, 8], r.toNat ∉ wave2.sE) ∧ (sReg wave2 0).toNat = 0 ∧ (sReg wave2 7).toNat = 64 ∧ 64 < (sReg wave2 8).toNat := by
  refine ⟨rfl, rfl, rfl, by decide, rfl, ?_⟩
  refine ⟨rfl, by decide, by decide, by decide, by decide, ?_⟩
  refine ⟨by decide, by decide⟩
theorem witness_RepeatIterations :
    (∀ x ∈ [((0x00000180405FF100 : Word64), st 1 0 0 0, Operand.v 3), ((encode (.ld (mw 0 false 0 (.v 3) (.v 2) .none 0x3FF 2 1 2 false false none))).headD 0, st 1 2 0 0, .v 3),
        ((encode (.kgather (kw 0 false (.s 0) (.s 2) (.s 4) (.k 1) 1 none))).headD 0, st 1 0 0 0, .s 0)],
     (39, x.2.1.d) ∈ [(39, x.2.1.d), (30, x.2.1.a), (21, x.2.1.b), (12, x.2.1.c)] ∧ x.2.1.c = 0 ∧ Operand.decode (x.1.extractLsb' 39 9) = some x.2.2 ∧
     ∀ p ∈ [(39, x.2.1.d), (30, x.2.1.a), (21, x.2.1.b), (12, x.2.1.c)], p.2 = 0 ∨ ∃ q, Operand.decode (x.1.extractLsb' p.1 9) = some q ∧
       ((∃ n, q = .v n) ∨ ∃ n, q = .s n) ∧ q.inFile 256 (((63 : Nat) : Int) * p.2.toInt) = true) ∧
    (let r : Repeat := { count := 2, iter := 0, steps := st 1 0 0 0 }
     let c := { clause2 with rpt := some r }
     ({ wave2 with clause := some c } : Wave).clause = some c ∧ c.rpt = some r ∧ rawWord c = some 0xF000040001000000 ∧ r.iter + 1 < r.count ∧
     ({ r with iter := 1 } : Repeat).count ≤ ({ r with iter := 1 } : Repeat).iter + 1 ∧ c.idx + wordLength 0xF000040001000000 < c.words.length ∧
     c.words.length ≤ ({ c with idx := 1 } : Clause).idx + wordLength 0x00000180405FF100) := by
  refine ⟨?_, by decide⟩
  intro x hx
  fin_cases hx <;> refine ⟨by decide, rfl, by decide, ?_⟩ <;> intro p h <;> fin_cases h
  · exact .inr ⟨.v 3, by decide, .inl ⟨3, rfl⟩, by decide⟩
  · exact .inl rfl
  · exact .inl rfl
  · exact .inl rfl
  · exact .inr ⟨.v 3, by decide, .inl ⟨3, rfl⟩, by decide⟩
  · exact .inr ⟨.v 2, by decide, .inl ⟨2, rfl⟩, by decide⟩
  · exact .inl rfl
  · exact .inl rfl
  · exact .inr ⟨.s 0, by decide, .inr ⟨0, rfl⟩, by decide⟩
  · exact .inl rfl
  · exact .inl rfl
  · exact .inl rfl

/-- k1 is empty, k2 is 0, s5 is empty. -/
def wave3 : Wave := { wave0 with kE := [1], sE := [5] }
def guard (g : BitVec 3) : Guard := { g := g, gn := false }
theorem witness_WordsWaitOrPass :
    current (state wave3 block0 grid0 loadedCtx) = some (0, wave3) ∧ (Instr.bra { guard := guard 1, a := .none, b := .none, off := 0 }).guard? = some (guard 1) ∧
    guardEmpty wave3 (guard 1) = true ∧ guardEmpty wave3 (guard 2) = false ∧ guardMask wave3 (guard 2) = 0 ∧
    guardEmpty wave3 always = false ∧ guardMask wave3 always = 0xFFFFFFFF ∧ (0xFFFFFFFF : Word32) ≠ 0 ∧
    emptyIn wave3 (.s 5) 1 0xFFFFFFFF ≠ 0 ∧ wave3.noE = false ∧ emptyIn wave3 (.v 1) 1 0xFFFFFFFF = 0 ∧ emptyIn wave3 .none 1 0xFFFFFFFF = 0 := by
  refine ⟨rfl, rfl, by decide, by decide, by decide, ?_⟩
  refine ⟨by decide, by decide, by decide, by decide, rfl, ?_⟩
  refine ⟨by decide, by decide⟩
theorem witness_SoftTrapEntry :
    wave2.clause = some clause2 ∧ rawWord clause2 = some 0xF000040001000000 ∧ clause2.idx < 32 ∧ (∀ r, clause2.rpt = some r → r.iter < 64) ∧
    ({ wave2 with trapSt := true } : Wave).trapSt = true ∧ wave2.trapSt = false ∧ wave2.trapVec = 0 ∧ ({ wave2 with trapVec := 8 } : Wave).trapVec ≠ 0 ∧
    (∃ c, (advance wave2).clause = some c ∧ c.idx < 32) ∧ (advance (advance wave2)).clause = none :=
  ⟨rfl, rfl, by decide, (by intro r h; cases h), rfl, rfl, rfl, by decide, ⟨_, rfl, by decide⟩, rfl⟩
theorem witness_TrapWords :
    (∀ w ∈ [wave2, { wave2 with trapVec := 8 }, { wave2 with trapSt := true, resume := some { pc := 0x10000, clause := some clause2, retry := true } }],
      Issues (yw 0 false .none .none .none 2 false false none).guard [] [] 0 w 0xFFFFFFFF (state w block0 grid0 loadedCtx)) ∧
    wave2.trapSt = false ∧ wave2.trapVec = 0 := by
  refine ⟨?_, rfl, rfl⟩
  intro w h
  fin_cases h <;> exact issues_full rfl full0
theorem witness_SystemRegisters :
    (let y := yw 0 false (.s 63) .none .none 0 false false none
     y.d = .s 63 ∧ Acts y.guard [] [(y.d, 1)] view0 0xFFFFFFFF state0 ∧ view0.b.core = some 0 ∧ view0.g.d.kind ≠ 1) ∧
    ({ grid0 with d := { loadedDesc with kind := 1 } } : Grid).d.kind = 1 ∧
    (let y := yw 0 false .none .none (.s 6) 4 false false none
     Issues y.guard [srcYB y] [] view0.key view0.w 0xFFFFFFFF state0 ∧ rawOp view0.w y.lit false y.b 0 &&& 7 = 0) ∧
    (let y := yw 0 false .none .none (.int 7) 4 false false none; rawOp view0.w y.lit false y.b 0 &&& 7 ≠ 0) ∧
    (Instr.sysr (yw 0 false (.s 1) .none .none 7 false false none)).wellFormed = true ∧ (Instr.sysw (yw 0 false .none .none (.s 6) 7 false false none)).wellFormed = true ∧
    (Instr.faultrd (yw 0 false (.s 1) .none .none 5 false false none)).wellFormed = true :=
  ⟨⟨rfl, acts0, rfl, by decide⟩, rfl, ⟨issues0, by decide⟩, by decide, by decide, by decide, by decide⟩
/-! #### Memory words -/

/-- Three levels of tables: the first GiB of addresses on a tagged page at 1 GiB, the second on an untagged one at 2 GiB, both readable and writable, the third on a page of code at 3 GiB, the fourth on a page whose translation is pending. -/
def tables : List (Nat × Nat) := [(0x100000, 2 ^ 63 + 0x101000), (0x101000, 2 ^ 63 + 0x102000), (0x102000, 2 ^ 63 + 2 ^ 61 + 0x400010C0), (0x102008, 2 ^ 63 + 2 ^ 61 + 0x800000C0),
  (0x102010, 2 ^ 63 + 2 ^ 61 + 0xC00000B0), (0x102018, 2 ^ 62)]
def memory1 : List Host.Cell := tables.foldl (fun m t => cellsPut m t.1 (natToBytes 8 t.2)) []
def mapped (s : State) : State := { s with mem := memory1 }
/-- s2 points to the A window, s4 and s5 hold a buffer descriptor of 64 bytes there, s6 points to the stack, s8 to the tagged page, s10 to the untagged one, s12 holds 8 and s13 the end of sync space. -/
def waveM : Wave := [(2, aBase), (4, aBase), (5, 64), (6, sBase), (8, 0x40), (10, 0x40000020), (12, 8), (13, 65536), (14, aBase + 2048), (15, 2 ^ 32)].foldl
  (fun w p => setS w p.1 (BitVec.ofNat 64 p.2)) wave0
def state1 : State := mapped (state waveM block0 grid0 loadedCtx)
def view1 : View := view waveM block0 grid0 loadedCtx
theorem full1 : Full waveM := ⟨rfl, rfl, rfl⟩
theorem acts1 {srcs : List Src} {dests : List (Operand × Nat)} : Acts always srcs dests view1 0xFFFFFFFF state1 := acts_full rfl rfl full1
def allOnes : Word32 := 0xFFFFFFFF

/-- What LoadIssues asks of its state. -/
abbrev Loads (accs : List (Nat × Nat)) (size : Nat) (v : View) (s : State) : Prop :=
  (∀ a ∈ accs, checkAccess s v .load (some (ptrTag a.2)) (ptrAddr a.2) size = .ok) ∧ emptyLineLanes v.b accs size = [] ∧ hasLogged v.w = false ∧
  loadBlocked s v (accs.flatMap (fun a => (List.range size).map (fun j => placeOf s v a.1 (ptrAddr a.2 + j)))) = false

/-- LD through a v pointer to the tagged page and through s pointers to the windows; LDB with every lane inside, and at the first byte outside. -/
theorem witness_LoadWords :
    (let m := mw 0 false 0 (.v 252) (.v 0) .none 0 4 0 0 false false none
     Acts m.guard [ptrSrc m m.a] [(m.d, dataRegs m.sz m.d)] view1 allOnes state1 ∧ Loads ((memLanes m allOnes).map (fun i => (i, laneAddr m waveM i))) (Sys2Proof.sizeOf m.sz) view1 state1) ∧
    (∀ a ∈ [(2 : BitVec 6), 6], let m := mw 0 false 0 (.s 63) (.s a) .none 0 3 0 0 false false none
     Acts m.guard [ptrSrc m m.a] [(m.d, dataRegs m.sz m.d)] view1 allOnes state1 ∧ Loads ((memLanes m allOnes).map (fun i => (i, laneAddr m waveM i))) (Sys2Proof.sizeOf m.sz) view1 state1) ∧
    (let d := bufOf waveM (.s 4)
     let inside := mw 0 false 0 (.s 63) (.s 4) (.int 60) 0 2 0 0 false false none
     let outside := mw 0 false 1 (.s 63) (.s 4) (.int 61) 0 2 0 0 false false none
     Acts inside.guard (bufSrcs inside) [(inside.d, dataRegs inside.sz inside.d)] view1 allOnes state1 ∧ d.malformed = false ∧ bufOffset inside waveM 0 + 4 = d.len ∧
     (ptrAddr d.lo : Int) + bufOffset inside waveM 0 < 2 ^ 60 ∧ Loads [(0, bufPtr d (bufOffset inside waveM 0))] 4 view1 state1 ∧
     Acts outside.guard (bufSrcs outside) [(outside.d, dataRegs outside.sz outside.d)] view1 allOnes state1 ∧ ¬ (bufOffset outside waveM 0 + 4 ≤ d.len) ∧ Loads [] 4 view1 state1) := by
  refine ⟨⟨acts1, by decide +kernel⟩, ?_, acts1, by decide +kernel, by decide +kernel, by decide +kernel, by decide +kernel, acts1, by decide +kernel, by decide +kernel⟩
  intro a h
  fin_cases h <;> exact ⟨acts1, by decide +kernel⟩

def ret (d : Operand) (size : Nat) (lanes : List (Nat × Nat)) : Return := { info := default, dest := d, size := size, sx := true, lanes := lanes, far := [], bad := none, addrs := [], acq := false }
theorem witness_ReturnedResults :
    (∀ r ∈ [ret (.v 252) 16 [(0, 1), (31, 2)], ret (.v 0) 1 [(5, 255)], ret (.s 62) 16 [(0, 7)], ret (.s 63) 8 [(0, 7)]],
      mget (state { wave0 with returns := [r] } block0 grid0 loadedCtx).waves 0 = some { wave0 with returns := [r] } ∧ ({ wave0 with returns := [r] } : Wave).returns[0]? = some r ∧ r.bad = none ∧
      (r.lanes.map Prod.fst).Nodup ∧ (∀ l ∈ r.lanes, l.1 < 32) ∧ ((∃ n, r.dest = .v n) ∨ ∃ n x, r.dest = .s n ∧ r.lanes = [(0, x)])) := by
  intro r h
  fin_cases h
  iterate 2 exact ⟨rfl, rfl, rfl, by decide, by decide, .inl ⟨_, rfl⟩⟩
  iterate 2 exact ⟨rfl, rfl, rfl, by decide, by decide, .inr ⟨_, _, rfl, rfl⟩⟩
/-- Bytes 2 and 3 of a uniform value come from a far page, byte 3 of lane 5 from a newer part: one byte no part covers, one that a part covers last, one that serves every lane. -/
theorem witness_ReturnedFarParts :
    let far : List FarPart := [{ lane := 0, off := 2, len := 2, tier := 3, shared := true }, { lane := 5, off := 3, len := 1, tier := 4, shared := false }]
    let covers := fun (q : FarPart) (l k : Nat) => (q.shared = true ∨ q.lane = l) ∧ q.off ≤ k ∧ k < q.off + q.len
    (∀ q ∈ far, ¬ covers q 5 1) ∧ (∃ q, far[0]? = some q ∧ covers q 31 3) ∧ (∀ x, far[1]? = some x → ¬ covers x 31 3) ∧ (∃ q, far[1]? = some q ∧ covers q 5 3) := by
  refine ⟨by decide, ⟨_, rfl, by decide⟩, ?_, ⟨_, rfl, by decide⟩⟩
  intro x h
  cases h
  decide

theorem witness_StoreWords :
    (let m := mw 0 false 0 .none (.s 10) (.int 5) 0 2 0 0 false false none
     let accs := (memLanes m allOnes).map (fun i => (i, laneAddr m waveM i))
     Acts m.guard [ptrSrc m m.a, dataSrc m m.b] [] view1 allOnes state1 ∧
     NoneFails (fun p => checkAccess state1 view1 .store (some (ptrTag p)) (ptrAddr p) 4) accs ∧ emptyLineLanes view1.b accs 4 = [] ∧ hasLogged waveM = false ∧ farLoadsOut waveM = false ∧
     queueFull view1 (.store []) true false state1 = false) ∧
    (let m := mw 0 false 0 (.s 12) (.s 4) (.int 60) 0 2 0 0 false false none
     let d := bufOf waveM m.a
     Acts m.guard (bufSrcs m ++ [dataSrc m m.d]) [] view1 allOnes state1 ∧ d.malformed = false ∧ d.ro = false ∧ bufOffset m waveM 0 + 4 = d.len ∧
     (ptrAddr d.lo : Int) + bufOffset m waveM 0 < 2 ^ 60 ∧ NoneFails (fun p => checkAccess state1 view1 .store (some (ptrTag p)) (ptrAddr p) 4) [(0, bufPtr d (bufOffset m waveM 0))]) := by
  refine ⟨⟨acts1, ?_, by decide +kernel⟩, acts1, by decide +kernel, by decide +kernel, by decide +kernel, by decide +kernel, ?_⟩
  · unfold NoneFails; decide +kernel
  · unfold NoneFails; decide +kernel

/-- A wave with one store: to the A window, to the stack, and to the end of a 64 KiB unit of the untagged page. -/
def storing (q : Piece) : Wave := { wave0 with mq := [{ op := .store [q], info := default, acq := false, logged := false, carried := false, no := 0 }], stOut := [0], stNext := 1, oc := { wave0.oc with st := 1 } }
theorem witness_StoresReachMemory : ∀ q ∈ [({ lane := 0, addr := aBase, tag := 0, data := [1, 2] } : Piece), { lane := 31, addr := sBase + 14, tag := 0, data := [1, 2] }, { lane := 0, addr := 0x4000FFFF, tag := 0, data := [1] }],
    let w := storing q
    let v := view w block0 grid0 loadedCtx
    let s := mapped (state w block0 grid0 loadedCtx)
    viewOf s 0 = some v ∧ onCore v = true ∧ (nextStore w).map (fun p => (p.1, p.2.op)) = some (0, .store [q]) ∧ q.data ≠ [] ∧ checkAccess s v .store (some q.tag) q.addr q.data.length = .ok ∧
    (windowOf q.addr = .a ∨ windowOf q.addr = .stack ∨ windowOf q.addr = .global ∧ q.addr % 65536 + q.data.length = 65536 ∧
      xlate s 0 0x100000 q.addr true = .ok 0x8000FFFF (2 ^ 63 + 2 ^ 61 + 0x800000C0) 2 0x102008 ∧ leafTier (2 ^ 63 + 2 ^ 61 + 0x800000C0) ≤ 2) := by
  intro q h
  fin_cases h <;> exact ⟨rfl, by decide +kernel, by decide +kernel, by decide, by decide +kernel, by decide +kernel⟩

theorem witness_AtomicWords :
    (let m := mw 0 false 9 (.s 1) (.s 10) (.int 1) 0 2 0 0 false false none
     Acts m.guard ([ptrSrc m m.a, dataSrc m m.b] ++ [dataSrc m m.d]) [(m.d, dataRegs m.sz m.d)] view1 allOnes state1 ∧
     (∀ a ∈ (memLanes m allOnes).map (fun i => (i, laneAddr m waveM i)), checkAtomic state1 view1 (ptrAddr a.2) 4 (ptrTag a.2) = .ok) ∧ hasLogged waveM = false ∧ farLoadsOut waveM = false ∧ ¬ (m.sub = 10 ∧ view1.g.d.det = true)) ∧
    (let m := mw 0 false 10 .none (.v 0) (.v 2) 0 2 0 0 false false none
     let g := { grid0 with d := { loadedDesc with det := true } }
     let v := view waveM block0 g loadedCtx
     Acts m.guard [ptrSrc m m.a, dataSrc m m.b] [] v allOnes (state waveM block0 g loadedCtx) ∧ m.sub = 10 ∧ v.g.d.det = true ∧
     Acts m.guard [ptrSrc m m.a, dataSrc m m.b] [] view1 allOnes state1 ∧ NoneFails (fun p => checkAtomic state1 view1 (ptrAddr p) 4 (ptrTag p)) ((memLanes m allOnes).map (fun i => (i, laneAddr m waveM i)))) := by
  refine ⟨⟨acts1, by decide +kernel⟩, acts_full rfl rfl ⟨rfl, rfl, rfl⟩, rfl, rfl, acts1, ?_⟩
  unfold NoneFails; decide +kernel
theorem witness_AtomicValues :
    (2 ^ 32 - 1 < 2 ^ (8 * 4) ∧ 0 < 4) ∧ fDecode fmtF32 0x7FC00000 = .nan ∧ fDecode fmtF32 0x7F800000 = .inf false ∧ fDecode fmtF32 0xFF800000 = .inf (!false) ∧ fDecode fmtF32 1 = .fin false 1 (-149) ∧
    fDecode fmtF32 0 = .fin false 0 (-149) ∧ fDecode fmtF32 0x80000000 = .fin true 0 (-149) ∧ fDecode fmtF32 0x3F800000 = .fin false 8388608 (-23) ∧ fDecode fmtF32 0xBF800000 = .fin true 8388608 (-23) ∧ (0xFF800000 < 2 ^ 32) ∧
    (Instr.ared (mw 0 false 12 .none (.v 2) (.v 6) 0 2 0 0 false false none)).wellFormed = true ∧ (Instr.atom (mw 0 false 9 (.v 4) (.v 2) (.v 6) 0 3 0 0 false false none)).wellFormed = true := by decide

theorem witness_SyncWords :
    (∀ a ∈ [(12 : BitVec 6), 5, 13], let m := mw 0 false 0 (.s 1) (.s a) .none 0 3 0 0 false false none
     Acts m.guard [plainSrc m m.a] [(m.d, 1)] view1 allOnes state1 ∧ Acts m.guard [plainSrc m m.a, plainSrc m m.b] [] view1 allOnes state1) ∧
    sReg waveM 12 = 8 ∧ sReg (setS waveM 5 1) 5 = 1 ∧ sReg waveM 13 = 65536 ∧ loadedCtx.ent.syncsz * 65536 = 65536 ∧ viewOf state1 view1.key = some view1 ∧
    recording loadedCtx 0 = false ∧ replaying loadedCtx 0 = false ∧ loadedCtx.rings = [] ∧ isStatusWord state1 0 8 = false ∧ (mget loadedCtx.queues 0).isSome = false ∧
    (mget ({ loadedCtx with queues := [(64, { cap := 0, items := [], waiters := [], held := [] })] } : Ctx).queues (72 / 64 * 64)).isSome = true ∧
    (∀ p ∈ [(0x100, 5, true), (0x100, 2 ^ 32 + 7, false), (0x108, 7, true), (0x108, 6, false)],
      let c : Ctx := { loadedCtx with sync := [(0x100, 5), (0x108, 5), (0x110, 6)], rings := [(0x100, default)] }
      isStatusWord { state1 with ctxs := [(0, c)] } 0 p.1 = false ∧ (mget c.queues (p.1 / 64 * 64)).isSome = false ∧
      (decide (p.2.1 % 2 ^ 32 ≤ (syncWord c p.1).toNat % 2 ^ 32 ∨ (p.1 = 0x100 + 8 ∧ (syncWord c (0x100 + 16)).toNat % 2 ^ 32 < p.2.1 % 2 ^ 32)) = p.2.2)) := by
  refine ⟨fun _ _ => ⟨acts1, acts1⟩, by decide +kernel, by decide +kernel, by decide +kernel, rfl, ?_⟩
  refine ⟨rfl, rfl, rfl, rfl, by decide +kernel, ?_⟩
  refine ⟨rfl, rfl, by decide +kernel⟩
theorem witness_SyncWriteEffects :
    mget state1.ctxs 0 = some loadedCtx ∧ 8 % 8 = 0 ∧ syncWord loadedCtx 8 = 0 ∧ syncWord { loadedCtx with sync := [(8, 2)] } 8 ≠ 0 ∧ loadedCtx.rings = [] := ⟨rfl, rfl, rfl, by decide, rfl⟩
theorem witness_FenceWords :
    (∀ o ∈ [(1 : BitVec 2), 2, 3], let m := mw 0 false 0 .none .none .none 0 0 o 0 false false none
      Issues m.guard [] [] 0 waveM allOnes state1 ∧ ¬ (loadsOut waveM = true) ∧ ¬ (storesOut waveM = true ∨ waveM.mq.any (fun e => e.logged) = true)) ∧
    loadsOut { wave0 with returns := [{ ret (.s 1) 8 [(0, 7)] with info := { pc := 0, ix := 0, iter := 0, opc := 0x80 } }] } = true ∧ storesOut (storing { lane := 0, addr := aBase, tag := 0, data := [1] }) = true ∧
    (let m := mw 0 false 3 .none .none (.int 0) 0 0 0 0 false false none
     Issues m.guard [plainSrc m m.b] [] 0 waveM allOnes state1 ∧ waveM.oc.st ≤ (rawOp waveM m.lit false m.b 0).toNat ∧
     (rawOp waveM m.lit false m.b 0).toNat < ({ waveM with oc := { waveM.oc with st := 1 } } : Wave).oc.st) ∧
    (let m := mw 0 false 0 (.v 0) (.s 8) (.int 15) 0 0 0 0 false false none
     Issues m.guard [ptrSrc m m.a, plainSrc m m.b] [(m.d, if isV m.d then 2 else 1)] 0 waveM allOnes state1 ∧ view1.key = 0 ∧ view1.w = waveM ∧ Acts m.guard [ptrSrc m m.a, plainSrc m m.b] [] view1 allOnes state1) :=
  ⟨fun _ _ => ⟨issues_full rfl full1, by decide +kernel, by decide +kernel⟩, by decide, by decide, ⟨issues_full rfl full1, by decide, by decide⟩, issues_full rfl full1, rfl, rfl, acts1⟩

/-- TAGSET per lane, of one range, of an empty one, misaligned and too long; a leaf with TG and one without; TAGGET. -/
theorem witness_TagWords :
    (∀ a ∈ [Operand.v 0, .s 8], ∀ b ∈ [Operand.int 32, .int 0, .int 1, .s 15], let m := mw 0 false 0 .none a b 0 0 0 0 false false none
      Acts m.guard [ptrSrc m m.a, plainSrc m m.b] [] view1 allOnes state1) ∧
    NoneFails (fun p => tagCheck state1 view1 (ptrAddr p / 32 * 32) 32) [(0, 0), (31, 0)] ∧ (0x40 % 32 = 0 ∧ tagCheck state1 view1 0x40 32 = .ok) ∧ (sReg waveM 15).toNat = 2 ^ 32 ∧
    xlate state1 0 0x100000 0x40 true = .ok 0x40000040 (2 ^ 63 + 2 ^ 61 + 0x400010C0) 2 0x102000 ∧ leafTg (2 ^ 63 + 2 ^ 61 + 0x400010C0) = true ∧
    xlate state1 0 0x100000 0x40000020 true = .ok 0x80000020 (2 ^ 63 + 2 ^ 61 + 0x800000C0) 2 0x102008 ∧ leafTg (2 ^ 63 + 2 ^ 61 + 0x800000C0) = false ∧
    (let m := mw 0 false 0 (.v 1) (.v 2) .none 0 0 0 0 false false none
     Acts m.guard [ptrSrc m m.a] [(m.d, 1)] view1 allOnes state1 ∧ (∀ a ∈ (memLanes m allOnes).map (fun i => (i, ptrVal m waveM m.a i)), checkAccess state1 view1 .load none (ptrAddr a.2) 1 = .ok) ∧
     tagsOut waveM = false ∧ loadBlocked state1 view1 [] = false) := by
  refine ⟨fun _ _ _ _ => acts1, ?_, by decide +kernel, by decide +kernel, by decide +kernel, by decide, by decide +kernel, by decide, acts1, by decide +kernel, by decide, by decide⟩
  unfold NoneFails; decide +kernel
theorem witness_CleanWords :
    (∀ b ∈ [Operand.int 0, .int 63, .s 15], let m := mw 0 false 0 .none (.s 10) b 0 0 0 0 false false none; Acts m.guard [ptrSrc m m.a, plainSrc m m.b] [] view1 allOnes state1) ∧
    cleanCheck state1 view1 0 0x40000020 63 = .ok ∧ (sReg waveM 15).toNat = 2 ^ 32 ∧ (∃ t, perfClean view1 0x40000020 63 0 true state1 = .done t) ∧
    xlate state1 0 0x100000 0x40000020 = .ok 0x80000020 (2 ^ 63 + 2 ^ 61 + 0x800000C0) 2 0x102008 ∧ (0x40000020, 63) ∈ linePieces 0x40000020 63 := by
  refine ⟨fun _ _ => acts1, by decide +kernel, by decide +kernel, ?_, by decide +kernel, by decide +kernel⟩
  have h : (match perfClean view1 0x40000020 63 0 true state1 with | .done _ => true | _ => false) = true := by decide +kernel
  split at h
  · exact ⟨_, by assumption⟩
  · contradiction
theorem witness_TileWords :
    (let m := mw 0 false 0 (.v 0) (.int 31) (.int 63) 0 2 0 0 false false none
     (rawOp waveM m.lit false m.a 0).toNat = 31 ∧ (rawOp waveM m.lit false m.b 0).toNat = 63 ∧ loopOn waveM [63] = false ∧ tilesFree view1 [63] state1 = true ∧
     Acts m.guard [plainSrc m m.a, plainSrc m m.b] [(m.d, 1)] view1 allOnes state1 ∧ Acts m.guard [plainSrc m m.a, plainSrc m m.b, plainSrc m m.d] [] view1 allOnes state1) ∧
    (let q := qw 0 false 8 0 0 0 63 (.int 63) .none 0
     Acts q.guard [] [] view1 allOnes state1 ∧ Acts q.guard [srcQ q.ia] [] view1 allOnes state1 ∧ valQ waveM q.ia = 63 ∧ tilesFree view1 ((List.range (q.kn.toNat + 1)).map (fun i => 0 + i)) state1 = true ∧
     peerOf view1 8 state1 = some (0, block0)) ∧
    (let b1 : Block := { freshBlock 0 1 with life := .running, core := some 1, slice := some 1 }
     let g := { grid0 with d := { loadedDesc with gs := 2 } }
     let s := { state waveM block0 g loadedCtx with blocks := [(0, block0), (1, b1)] }
     peerOf (view waveM block0 g loadedCtx) 9 s = some (1, b1) ∧ tilesFree (view waveM block0 g loadedCtx) [5] s = true) := by
  refine ⟨⟨by decide, by decide, by decide, by decide +kernel, acts1, acts1⟩, ⟨acts1, acts1, by decide, by decide +kernel, by decide +kernel⟩, by decide +kernel, by decide +kernel⟩

/-- s16 points to the upper half of the A window, s18 and s19 hold the table parameters of R164, s20 points to a table in the A window. -/
def waveC : Wave := [(16, aBase + 2048), (18, 4 * 2 ^ 32 + 16), (19, 128 * 2 ^ 32), (20, aBase)].foldl (fun w p => setS w p.1 (BitVec.ofNat 64 p.2)) waveM
def res1 : Res := { st := 1, ach := 0, nv := false, node := 0, fmt := 7, b32 := false, sc := false, e96 := 1, units := 1, soff := 0, readers := 0, bytes := [] }
def blockC : Block := { block0 with res := [(31, res1)] }
def viewC : View := view waveC blockC grid0 loadedCtx
def stateC : State := mapped (state waveC blockC grid0 loadedCtx)
theorem actsC {srcs : List Src} {dests : List (Operand × Nat)} : Acts always srcs dests viewC allOnes stateC := acts_full rfl rfl ⟨rfl, rfl, rfl⟩
theorem witness_CopyWords :
    (∀ n ∈ [(.int 0 : Operand), .int 63, .s 15, .s 14], let m := mw 0 false 0 (.s 16) (.s 2) n 0 0 0 0 false false none; Acts m.guard [ptrSrc m m.d, ptrSrc m m.a, plainSrc m m.b] [] viewC allOnes stateC) ∧
    (checkWindow viewC.g.d aBase 2048 = .ok ∧ checkWindow viewC.g.d (aBase + 2048) 2048 = .ok ∧ aBase + 2048 ≤ aBase + 2048 ∧ ¬ (aBase + 2048 ≤ aBase + 2047 ∨ aBase + 2047 + 2048 ≤ aBase)) ∧
    (let m := mw 0 false 1 (.s 16) (.s 2) .none 0 4 0 0 false false none
     Acts m.guard [ptrSrc m m.d, ptrSrc m m.a] [] viewC allOnes stateC ∧
     ∀ i ∈ memLanes m allOnes, checkWindow viewC.g.d (ptrAddr (laneAddr m waveC i)) 16 = .ok ∧ checkWindow viewC.g.d (ptrAddr (ptrVal m waveC m.d i)) 16 = .ok) ∧
    waveC.oc.cpy < 63 ∧ (∀ l ∈ linesOf (aBase + 2048) 2048, l ∉ blockC.aE) ∧ storesTo stateC waveC.blk (linesOf (aBase + 2048) 2048) = false ∧
    (let m := mw 0 false 1 (.s 16) (.s 20) (.s 18) 31 0 0 0 false false none
     let p := tableArgs waveC m.b
     p.ok = true ∧ checkWindow viewC.g.d (p.range aBase).1 (p.range aBase).2 = .ok ∧ checkWindow viewC.g.d (aBase + 2048) (p.n * p.rb) = .ok ∧
     Acts m.guard [ptrSrc m m.a, { o := m.b, n := 2, e := m.e }, ptrSrc m m.d] [] viewC allOnes stateC ∧ mget blockC.res 31 = some res1 ∧ (res1.st = 1 ∨ res1.st = 3) ∧
     p.n * p.rb ≤ resSize res1.fmt res1.elems res1.b32 res1.sc) := by
  refine ⟨fun _ _ => actsC, by decide +kernel, ⟨actsC, by decide +kernel⟩, by decide, by decide +kernel, by decide +kernel, by decide +kernel, by decide +kernel, by decide +kernel, actsC, rfl, by decide, by decide +kernel⟩

/-- A wave with one copy inside the A window, one with a copy of the one row that the table entry at the end of the first half names, and one with a loop of two steps on tile 63. -/
def engine (op : EngOp) : EngEntry := { op := op, info := default, need := [], after := 0, no := 0, ran := false }
def copying : Wave := { wave0 with cpyQ := [engine (.cpy (aBase + 2048) 0 aBase 0 2048)], oc := { wave0.oc with cpy := 1 } }
def tabled (need : List Nat) : Wave := { wave0 with cpyQ := [{ engine (.cpyt (aBase + 2048) 0 (aBase + 2040) 0 4 128 1 3 none) with need := need }], oc := { wave0.oc with cpy := 1 } }
def blockTab : Block := { block0 with a := cellsPut [] 2040 (natToBytes 8 aBase) }
def looping : Wave := { wave0 with mtxQ := [engine (.mloop 63 31 31 0 2 0 0)], oc := { wave0.oc with mtx := 1 } }
theorem witness_EngineRetires :
    (let v := view copying blockC grid0 loadedCtx
     viewOf (state copying blockC grid0 loadedCtx) 0 = some v ∧ blockOfWave 0 = v.w.blk ∧ onCore v = true ∧ checkWindow v.g.d aBase 2048 = .ok ∧ checkWindow v.g.d (aBase + 2048) 2048 = .ok ∧
     windowOf aBase = .a ∧ windowOf (aBase + 2048) = .a ∧ (aBase + 2048 ≤ aBase + 2048 ∨ aBase + 2048 + 2048 ≤ aBase) ∧
     ∀ x ∈ v.w.cpyQ ++ v.w.mtxQ ++ v.w.gatQ, x.after = 0 ∧ x.ran = false ∧ x.need = [] ∧ (x.ran = false → (0 : Nat) ≤ x.no)) ∧
    (∀ need ∈ [([] : List Nat), linesOf (aBase + 2040) 8], let v := view (tabled need) blockTab grid0 loadedCtx
     viewOf (state (tabled need) blockTab grid0 loadedCtx) 0 = some v ∧ onCore v = true ∧ (aBase + 2040) + 8 * (3 / 4) = aBase + 2040 ∧
     (ptrAddr (bytesToNat (bytesAt (state (tabled need) blockTab grid0 loadedCtx) v 0 (aBase + 2040) 8)) + 3 % 4 * 128) % 2 ^ 60 = aBase + 384 ∧
     (∀ p ∈ [(aBase + 2040, 8), (aBase + 384, 128), (aBase + 2048, 128)], checkWindow v.g.d p.1 p.2 = .ok ∧ windowOf p.1 = .a) ∧ aBase + 384 + 128 ≤ aBase + 2048 ∧ v.b.endAs = none ∧
     ((∃ l ∈ linesOf (aBase + 2040) 8, l ∈ need) ∨ need = [])) ∧
    (∀ more ∈ [[], [(1, 0)]], let b := { blockC with loops := (0, 0) :: more }
     let v := view looping b grid0 loadedCtx
     viewOf (state looping b grid0 loadedCtx) 0 = some v ∧ onCore v = true ∧ looping.mtxQ = [engine (.mloop 63 31 31 0 2 0 0)] ∧ v.b.loops = (v.w.idx, (engine (.mloop 63 31 31 0 2 0 0)).no) :: more ∧ mget v.b.res 31 = some res1) := by
  refine ⟨⟨rfl, rfl, rfl, by decide +kernel⟩, ?_, fun _ _ => ⟨rfl, rfl, rfl, rfl, rfl⟩⟩
  intro need h
  fin_cases h <;> exact ⟨rfl, by decide +kernel⟩
theorem witness_MatrixStepRounding :
    (0xFFFFFFFF < 2 ^ 32) ∧ fDecode fmtF32 0x7FC00000 = .nan ∧ fDecode fmtF32 0 ≠ .nan ∧ FVal.nan ∉ [FVal.inf true] ∧ FVal.inf true ∈ [FVal.inf true] ∧ fDecode fmtF32 0x7F800000 = .inf (!true) ∧
    [FVal.fin false 1 0].map FVal.rat = [((1 : Int) * (1 : Nat) * 2 ^ (0 : Int) : Rat)].map some ∧ (2 : Rat) ^ (0 : Int) ≤ |(1 : Rat)| ∧ |(1 : Rat)| < 2 ^ ((0 : Int) + 1) := by
  refine ⟨by decide, by decide, by decide, by decide, by decide, by decide, ?_, by norm_num, by norm_num⟩
  simp [FVal.rat]

/-- Elements and formats at their ends: 96 elements of BF16 without scales, 12288 of the 4-bit format 3 with them; an element count that is no multiple of 96. -/
theorem witness_ReservationWords :
    (∀ p ∈ [(96, 7), (96, 0x23)], p.1 ≠ 0 ∧ p.1 % 96 = 0 ∧ p.2 < 64) ∧
    (∀ q ∈ [qw 0 false 0 0 0 0 0 (.s 12) (.int 7) 0, qw 0 false 0 0 31 0 0 (.s 12) (.int 7) 0], Acts q.guard [srcQ q.ia, srcQ q.ib] [] viewC allOnes stateC ∧ Acts q.guard [] [] viewC allOnes stateC ∧ Acts q.guard [] [(q.ia, 1)] viewC allOnes stateC) ∧
    mget blockC.res 0 = none ∧ mget blockC.res 31 = some res1 ∧ (res1.st = 1 ∨ res1.st = 3) ∧ unitsOn stateC blockC.core + 2 ≤ 256 ∧ (8 : Nat) % 96 ≠ 0 :=
  ⟨by decide, by intro q h; fin_cases h <;> exact ⟨actsC, actsC, actsC⟩, rfl, rfl, .inl rfl, by decide +kernel, by decide⟩

/-- Reservation 30 is ready, 31 empty; node 5 is a quantize node that may use BF16; s16 points to the A window. -/
def res3 : Res := { res1 with st := 3 }
def node0 : TolNode := { kind := 0, ops := [], perm := 128 }
def blockQ : Block := { block0 with res := [(30, res3), (31, res1)], tol := [(5, node0)], choice := freshFile [(5, node0)] }
def gridQ : Grid := { grid0 with d := { loadedDesc with au := 16 } }
def viewQ : View := view waveC blockQ gridQ loadedCtx
def stateQ : State := state waveC blockQ gridQ loadedCtx
theorem actsQ {srcs : List Src} {dests : List (Operand × Nat)} : Acts always srcs dests viewQ allOnes stateQ := acts_full rfl rfl ⟨rfl, rfl, rfl⟩
theorem witness_MatrixWords :
    waveC.oc.mtx < 63 ∧ (choiceAt blockQ 5).unm = false ∧
    (let q := qw 0 false 8 63 30 30 3 (.int 0) (.int 0) 5
     Acts q.guard [srcQ q.ia, srcQ q.ib] [] viewQ allOnes stateQ ∧ peerOf viewQ 8 stateQ = some (0, blockQ) ∧ mget blockQ.res 30 = some res3 ∧ (res3.st = 3 ∨ res3.st = 4) ∧
     res3.fmt ≠ 9 ∧ (0 + 4) * Min.min (stepClass 7) (stepClass 7) = res3.elems ∧ tilesFree viewQ [63] stateQ = true ∧ staleRes blockQ res3 = false) ∧
    (let q := qw 0 false 0 0 31 30 0 (.s 2) (.s 12) 5
     mget blockQ.res 31 = some res1 ∧ (res1.st = 1 ∨ res1.st = 3) ∧ mget blockQ.tol 5 = some node0 ∧ node0.kind = 0 ∧ (choiceAt blockQ 5).cho = 7 ∧ resSize 7 res1.elems res1.b32 false ≤ res1.room ∧
     Acts q.guard [srcQ q.ia, srcQ q.ib] [] viewQ allOnes stateQ ∧ valQ waveC q.ia % 4 = 0 ∧ valQ waveC q.ib % 4 = 0 ∧ windowOf (ptrAddr (valQ waveC q.ia)) = .a ∧
     ptrAddr (valQ waveC q.ia) - aBase + 31 * valQ waveC q.ib + 4 * res1.elems ≤ gridQ.d.au * 4096 ∧
     Acts q.guard [] [] viewQ allOnes stateQ ∧ (31 : Nat) ≠ 30 ∧ res3.e96 = res1.e96 ∧ staleRes blockQ res3 = false) := by
  refine ⟨by decide, by decide, ⟨actsQ, by decide +kernel, rfl, .inl rfl, by decide, by decide, by decide +kernel, by decide⟩, rfl, .inl rfl, rfl, rfl, by decide, by decide, actsQ, by decide, by decide, by decide, by decide +kernel, actsQ, by decide, rfl, by decide⟩

/-- The table image of the manual in the A window. -/
def blockT : Block := { block0 with a := cellsPut [] 0 (image.take 48) }
def viewT : View := view waveC blockT grid0 loadedCtx
def stateT : State := state waveC blockT grid0 loadedCtx
theorem actsT {srcs : List Src} {dests : List (Operand × Nat)} : Acts always srcs dests viewT allOnes stateT := acts_full rfl rfl ⟨rfl, rfl, rfl⟩
/-- The six conditions of a read, as one decidable claim. -/
theorem readable_of {v : View} {ptr n : Nat} {s : State}
    (h : checkAccess s v .load (some (ptrTag ptr)) (ptrAddr ptr) n = .ok ∧ emptyLineLanes v.b [(0, ptr)] n = [] ∧ hasLogged v.w = false ∧
      loadBlocked s v ((List.range n).map (fun j => placeOf s v 0 (ptrAddr ptr + j))) = false ∧ lostUnit s v 0 (ptrAddr ptr) n = false ∧
      ∀ p ∈ parts 8 (ptrAddr ptr) n, farParts s v false 0 p.1 p.2 = []) : Readable v ptr n s :=
  ⟨h.1, h.2.1, h.2.2.1, h.2.2.2.1, h.2.2.2.2.1, h.2.2.2.2.2⟩
theorem readable_table : Readable viewT aBase 1024 stateT := readable_of (by decide +kernel)
theorem witness_ToleranceWords :
    (∀ c ∈ [Operand.int 0, .s 16], let q := qw 0 false 0 0 0 0 0 (.s 6) c 2; Acts q.guard [srcQ q.ib] (dstQ q.ia) viewT allOnes stateT ∧ Acts q.guard [srcQ q.ib] [(q.ia, 1)] viewT allOnes stateT) ∧
    valQ waveC (.int 0) ≤ 255 ∧ 255 < valQ waveC (.s 16) ∧ valQ waveC (.int 63) < 64 ∧ 64 ≤ valQ waveC (.s 16) ∧
    (let q := qw 0 false 0 0 0 0 0 (.s 2) .none 0
     Acts q.guard [srcQ q.ia] [] viewT allOnes stateT ∧ valQ waveC q.ia = aBase ∧ aBase % 16 = 0 ∧ Readable viewT aBase 1024 stateT ∧ (parseTable (readBytes viewT aBase 1024 stateT)).isSome = true) ∧
    valQ waveC (.s 12) % 16 ≠ 0 ∧ parseTable [0x03] = none ∧ bitAt 0xE0 5 = true ∧ 40 ≤ boundOf 0 6 ∧ mget block0.tol 0 = none ∧ mget blockQ.tol 5 ≠ none ∧
    (∀ n t, mget blockQ.tol n = some t → n < 64 ∧ t.parties ≤ 4 ∧ ∀ o ∈ t.ops, mget blockQ.tol o.2.1 ≠ none ∧ id o.2.1 < id n) := by
  refine ⟨fun _ _ => ⟨actsT, actsT⟩, by decide, by decide, by decide, by decide, ⟨actsT, by decide, by decide, readable_table, by decide +kernel⟩, by decide, by decide +kernel, by decide, by decide, rfl, by decide, ?_⟩
  intro n t h
  simp only [blockQ, mget] at h
  split at h
  · obtain rfl := Option.some.inj h
    subst_vars
    exact ⟨by decide, by decide, by decide⟩
  · cases h
/-- The table of the manual has no cycle: each node stands above its operands. -/
theorem witness_ToleranceWalk :
    (match parseTable image with
     | some tol => (mget tol 2).isSome && tol.all (fun e => decide (e.1 < 64 ∧ e.2.parties ≤ 4 ∧ ∀ o ∈ e.2.ops, (mget tol o.2.1).isSome = true ∧ o.2.1 < e.1))
     | none => false) = true := by decide +kernel
/-! #### Key store, barriers, queues -/

/-- A key-store descriptor at the start of the A window (two heads, DH 32, W 16, S 16, one gather entry, journal on the untagged page, FB set), the records of its heads at 256, and a list of one entry at 512; for signature 8 the primary bucket of head 0 is empty, that of head 1 has a CNT of 31. -/
def kvWords : List Nat := [2 ^ 17 + 1, 16 * 2 ^ 32 + 16, 0x1000, aBase + 256, 0x2000, 8, 0x40000000, 16, 0, 0, 0, 0, 0, 0, 0, 0]
def blockK : Block := { block0 with
  a := cellsPut (cellsPut (cellsPut [] 0 (kvWords.flatMap (natToBytes 8))) 256 ([0, 0x200, 0, 0].flatMap (natToBytes 8))) 512 [1]
  res := [(31, res1)] }
def waveK : Wave := [(22, aBase + 512), (24, 0x10000), (26, 31 * 2 ^ 32 + 0x10000)].foldl (fun w p => setS w p.1 (BitVec.ofNat 64 p.2)) waveC
def stateK : State := { state waveK blockK grid0 loadedCtx with mem := cellsPut memory1 0x40000400 [31] }
def viewK : View := view waveK blockK grid0 loadedCtx
theorem actsK {srcs : List Src} {dests : List (Operand × Nat)} : Acts always srcs dests viewK allOnes stateK := acts_full rfl rfl ⟨rfl, rfl, rfl⟩
def kvK : List Word64 := wordsOf 16 (readBytes viewK aBase 128 stateK)
def k0 (h : BitVec 8) : KW := kw 0 false .none (.s 2) .none .none h none
theorem desc_k0 : HasDesc viewK (k0 0) stateK kvK (readState viewK aBase 128 stateK) :=
  ⟨by decide +kernel, readable_of (by decide +kernel), rfl, by decide +kernel, rfl⟩
theorem desc_k (d b c : Operand) (head : BitVec 8) (lit : Option Word64) : HasDesc viewK (kw 0 false d (.s 2) b c head lit) stateK kvK (readState viewK aBase 128 stateK) :=
  ⟨desc_k0.aligned, desc_k0.readable, desc_k0.words, desc_k0.valid, desc_k0.after⟩
/-- A read of a window records no page access. -/
theorem readState_window {v : View} {ptr n : Nat} {s : State} (h : windowOf (ptrAddr ptr) ≠ .global) : readState v ptr n s = s := by
  simp [readState, recordAccs, h]
theorem readState_k : readState viewK aBase 128 stateK = stateK := readState_window (by decide)
def headAt (h : Nat) : HeadRec := headRec (bytesToNat ((readBytes viewK (aBase + 256 + 16 * h) 16 stateK).take 8)) (bytesToNat ((readBytes viewK (aBase + 256 + 16 * h) 16 stateK).drop 8))
theorem head_k0 (h : BitVec 8) (hh : h = 0 ∨ h = 1) : ∃ hr, HasHead viewK (k0 h) kvK stateK hr stateK := by
  rcases hh with rfl | rfl <;> exact ⟨_, by decide +kernel, readable_of (by decide +kernel), by decide +kernel, rfl, (readState_window (by decide +kernel)).symm⟩
theorem head_k (h : BitVec 8) (hh : h = 0 ∨ h = 1) (d b c : Operand) (lit : Option Word64) : ∃ hr, HasHead viewK (kw 0 false d (.s 2) b c h lit) kvK stateK hr stateK :=
  let ⟨hr, x⟩ := head_k0 h hh
  ⟨hr, x.inside, x.readable, x.valid, x.record, x.after⟩

theorem witness_KeyStoreWords :
    HasDesc viewK (kw 0 false (.s 63) (.s 2) (.int 0) .none 0 none) stateK kvK stateK ∧ (∃ hr, HasHead viewK (kw 0 false (.s 63) (.s 2) (.v 254) .none 1 none) kvK stateK hr stateK) ∧
    (kvDesc kvK).step + 8 ≤ loadedCtx.ent.syncsz * 65536 ∧ 254 + (kvDesc kvK).dh / 32 ≤ waveK.allot ∧ waveK.vE = [] ∧
    (∀ b ∈ [Operand.int 0, .int 1, .int 2, .int 3, .int 4, .s 15, .int 95], let k := kw 0 false (.s 63) (.s 2) b .none 0 none
      Acts k.guard [{ o := k.a }, { o := k.b }] [(k.d, 1)] viewK allOnes stateK ∧ Acts k.guard [{ o := k.a }, { o := k.d }] [] viewK allOnes stateK ∧ Acts k.guard [{ o := k.a }] [(k.d, 1)] viewK allOnes stateK ∧ Acts k.guard [{ o := k.a }] [] viewK allOnes stateK) ∧
    2 ^ 48 ≤ (rawOp waveK none false (.int 95) 0).toNat ∧ (sReg waveK 63).toNat < 2 ^ 48 ∧ unfiled stateK 0 8 0 < (kvDesc kvK).jent ∧ 0 < (kvDesc kvK).jent ∧ (kvRegion stateK 0 (kvDesc kvK).step).entries = [] ∧
    checkAccess stateK viewK .store (some 0) (kvDesc kvK).jbase (64 + 8 * (kvDesc kvK).dh) = .ok ∧ waveK.arv = false ∧ waveK.oc.st = 0 ∧ waveK.mq = [] ∧ ({ waveK with arv := true } : Wave).arv = true ∧
    FVal.nan ∈ [FVal.nan] ∧ [FVal.fin false 1 0].map FVal.rat = [((1 : Nat) : Rat) * 2 ^ (0 : Int)].map some := by
  refine ⟨readState_k ▸ desc_k _ _ _ _ _, head_k 1 (.inr rfl) _ _ _ _, by decide +kernel, by decide +kernel, rfl, ?_⟩
  refine ⟨fun _ _ => ⟨actsK, actsK, actsK, actsK⟩, by decide +kernel, by decide +kernel, by decide +kernel, by decide +kernel, by decide +kernel, by decide +kernel, ?_⟩
  refine ⟨rfl, rfl, rfl, rfl, by decide, ?_⟩
  simp [FVal.rat]

/-- A live row of the page at address 0, whose slot's generation record lies on the untagged page. -/
def descL : KvDesc := { kvDesc kvK with bf16 := true, genb := 0x40000500, btab := 0x40000600 }
def stateL : State := { stateK with mem := cellsPut stateK.mem 0x80000507 [0x80] }
/-- KGATHER of an empty bucket, and of a broken one; KFETCH of one entry to the A window and to a reservation. -/
theorem witness_KeyStoreReads :
    (∀ h ∈ [(0 : BitVec 8), 1], let k := kw 0 false (.s 16) (.s 2) (.s 12) (.k 7) h none
      HasDesc viewK k stateK kvK stateK ∧ (∃ hr, HasHead viewK k kvK stateK hr stateK) ∧ Acts k.guard [{ o := k.a }, { o := k.d }, { o := k.b }] [(k.c, 1)] viewK allOnes stateK) ∧
    waveK.oc.gat < 63 ∧ (kvRegion stateK 0 (kvDesc kvK).step).ksteps = [] ∧ (sReg waveK 16).toNat % 16 = 0 ∧ windowOf (ptrAddr (sReg waveK 16).toNat) = .a ∧ (kvDesc kvK).fb = true ∧
    (match gather 0 (kvDesc kvK) (headAt 0) 0 8 1 0 { u := [], brk := false, chl := false } stateK with | .ok g _ => !g.brk && !g.chl | _ => false) = true ∧
    (descL.bf16 = true ∧ 0 < descL.s + descL.w ∧ (match lovageNat 0 (ptrPlus descL.genb (8 * (0 * (descL.s + descL.w) + 0))) 8 stateL with
      | .ok rec t => rec / 2 ^ 63 % 2 == 1 && rec / 2 ^ 48 % 2 ^ 12 == 0 && (match lovageNat 0 (ptrPlus descL.btab (8 * (0 / 16))) 8 t with
        | .ok page u => (match lovageRead 0 (ptrPlus (ptrPlus page (0 * descL.hs)) ((0 % 16 + 0) * (descL.dh * descL.eb))) (descL.dh * descL.eb) u with | .ok _ _ => true | _ => false)
        | _ => false)
      | _ => false) = true) ∧
    (match gather 0 (kvDesc kvK) (headAt 1) 1 8 1 0 { u := [], brk := false, chl := false } stateK with | .ok g _ => g.brk | _ => false) = true ∧
    (let k := kw 0 false (.s 16) (.s 2) (.s 22) (.s 24) 1 none
     Acts k.guard [{ o := k.a }, { o := k.b }, { o := k.c }, { o := k.d }] [] viewK allOnes stateK ∧ Acts k.guard [{ o := k.a }, { o := k.b }, { o := k.c }] [] viewK allOnes stateK ∧
     (sReg waveK 24).toNat = 1 * 2 ^ 16 + 0 ∧ (sReg waveK 26).toNat = 31 * 2 ^ 32 + 2 ^ 16 ∧ (sReg waveK 22).toNat % 16 = 0 ∧ windowOf (sReg waveK 22).toNat = .a ∧ Readable viewK (aBase + 512) 16 stateK ∧
     0 + 1 ≤ bytesToNat ((readBytes viewK (aBase + 512) 16 stateK).take 4) ∧ Readable viewK (aBase + 528) 4 stateK ∧ aBase + 2048 + 4 * (kvDesc kvK).dh * 1 ≤ aBase + grid0.d.au * 4096 ∧
     writesOut waveK = false ∧ storesTo stateK waveK.blk (linesOf (aBase + 2048) 4096) = false ∧ (∀ l ∈ linesOf (aBase + 2048) 4096, l ∉ blockK.aE) ∧
     mget blockK.res 31 = some res1 ∧ (res1.st = 1 ∨ res1.st = 3) ∧ res1.fmt = 7 ∧ res1.sc = false ∧ (kvDesc kvK).dh ≤ res1.elems ∧ 0 < (kvDesc kvK).dh / 32 ∧ 1 ≤ res1.elems) := by
  refine ⟨?_, by decide, by decide +kernel, by decide +kernel, by decide +kernel, ?_⟩
  swap
  refine ⟨by decide +kernel, by decide +kernel, ⟨by decide +kernel, by decide +kernel, by decide +kernel⟩, by decide +kernel, actsK, actsK, ?_⟩
  refine ⟨by decide +kernel, by decide +kernel, by decide +kernel, by decide +kernel, readable_of (by decide +kernel), ?_⟩
  refine ⟨by decide +kernel, readable_of (by decide +kernel), by decide +kernel, rfl, by decide +kernel, ?_⟩
  refine ⟨by decide +kernel, rfl, .inl rfl, rfl, rfl, ?_⟩
  refine ⟨by decide +kernel, by decide +kernel, by decide⟩
  intro h hh
  fin_cases hh
  · exact ⟨readState_k ▸ desc_k _ _ _ _ _, head_k 0 (.inl rfl) _ _ _ _, actsK⟩
  · exact ⟨readState_k ▸ desc_k _ _ _ _ _, head_k 1 (.inr rfl) _ _ _ _, actsK⟩

/-- A second wave of the block, and a second block of the group. -/
def wave0b : Wave := { firstWave loadedDesc 0 0 1 with idx := 1 }
def gridG : Grid := { grid0 with d := { loadedDesc with gs := 2 } }
def pair (w : Wave) (b : Block) : State := { state w b grid0 loadedCtx with waves := [(0, w), (1, wave0b)] }
/-- An arrival of one wave of two and of the only wave; one that is pending, and one whose generation is over; a cluster arrival of one wave of two, of one block of two, and of the last block. -/
theorem witness_BarrierWords :
    (let y := yw 0 false (.s 63) .none .none 3 false false none
     Acts y.guard [] (dstY y) view0 allOnes state0 ∧ Acts y.guard [] [] view0 allOnes state0 ∧ wave0.arv = false ∧ stillPending state0 view0 false 3 = false ∧ stillPending state0 view0 true 3 = false ∧ aStoresOut wave0 = false ∧ aReadsOut view0 = false ∧ uncountedOut wave0 = false ∧
     stillPending (recordArrival view0 false 3 state0) view0 false 3 = false ∧ wave0.oc.st = 0 ∧ hasLogged wave0 = false ∧ pendAt wave0 false 3 = none ∧
     Acts y.guard [] (dstY y) view0 allOnes (pair wave0 block0) ∧ stillPending (recordArrival view0 false 3 (pair wave0 block0)) view0 false 3 = true) ∧
    (let w := { wave0 with arv := true, pendB := [(3, 0)] }
     let v := view w block0 grid0 loadedCtx
     let past := { block0 with bars := [(3, { gen := 1, arrived := [], elected := 1 })] }
     w.arv = true ∧ stillPending (pair w block0) v false 3 = true ∧ stillPending (pair w past) (view w past grid0 loadedCtx) false 3 = false ∧ (pendAt w false 3).isSome = true ∧
     aStoresOut (storing { lane := 0, addr := aBase, tag := 0, data := [1] }) = true ∧ aReadsOut (view copying block0 grid0 loadedCtx) = true ∧
     uncountedOut { wave0 with mq := [{ op := .lds 8 (.s 1), info := default, acq := false, logged := false, carried := false, no := 0 }] } = true) ∧
    ((∃ i ∈ (presentOf (pair wave0 block0) 0).map (fun e => e.2.idx), i ∉ sadd dfltBar.arrived wave0.idx) ∧ (presentOf state0 0).map (fun e => e.2.idx) = [0] ∧ ∀ i ∈ [0], i ∈ sadd dfltBar.arrived wave0.idx) ∧
    (let blocks := (groupBlocks gridG.d (groupOf gridG.d 0)).filter (fun b => !hasStatus gridG b)
     (∃ i ∈ (presentOf (pair wave0 block0) 0).map (fun e => e.2.idx), i ∉ sadd (mgetD block0.cArr 3 []) 0) ∧ (∀ i ∈ [0], i ∈ sadd (mgetD block0.cArr 3 []) 0) ∧
     (∃ b ∈ blocks, f2Of gridG.d b ∉ sadd dfltBar.arrived 0) ∧ blocks ≠ [] ∧ ∀ b ∈ blocks, f2Of gridG.d b ∈ sadd [1] 0) := by
  refine ⟨⟨acts0, acts0, rfl, by decide +kernel, by decide +kernel, by decide, by decide, by decide, by decide +kernel, rfl, rfl, rfl, acts_full rfl rfl full0, by decide +kernel⟩, by decide +kernel, by decide +kernel, by decide +kernel⟩

/-- The queue at 64 holds one item; s34, s37 and s39 hold the last addresses of sync space with 64, 4 and 8 bytes behind them, s40 points into the A window; the queue at 128 is empty and has a waiter in the last clauses; a launch descriptor stands at 0x80 on the tagged page. -/
def queue1 : SyncQueue := { cap := 1, items := [7], waiters := [], held := [] }
def ctxQ : Ctx := { loadedCtx with queues := [(64, queue1), (128, { queue1 with items := [] })] }
def launchBytes : List Byte := [0, 2 ^ 25 + 480, 0x10000, 0, 0, 1, 1, 1, 0, 0, 0x8000, 0x20000, 0, 16].flatMap (natToBytes 8)
def waveQ : Wave := [(30, 64), (32, 128), (34, 65472), (36, 0x80), (37, 65532), (38, 65), (39, 65528), (40, aBase + 128)].foldl (fun w p => setS w p.1 (BitVec.ofNat 64 p.2)) waveM
def stateQ2 : State := { state waveQ block0 grid0 ctxQ with mem := cellsPut memory1 0x40000080 launchBytes }
def viewQ2 : View := view waveQ block0 grid0 ctxQ
theorem actsQ2 {srcs : List Src} {dests : List (Operand × Nat)} : Acts always srcs dests viewQ2 allOnes stateQ2 := acts_full rfl rfl ⟨rfl, rfl, rfl⟩
theorem witness_QueueAndWaitWords :
    (∀ a ∈ [(30 : BitVec 6), 32, 34, 36, 12], ∀ imm ∈ [(0 : BitVec 16), 0x10, 0x30], let y := yw 0 false (.s 62) (.s a) (.int 1) imm false false none
      Acts y.guard [srcYA y, srcYB y] [] viewQ2 allOnes stateQ2 ∧ Acts y.guard [srcYA y] [(y.d, 1)] viewQ2 allOnes stateQ2 ∧ Acts y.guard [srcYA y] [(y.d, 2)] viewQ2 allOnes stateQ2 ∧ Acts y.guard [srcYA y, srcYB y] (dstY y) viewQ2 allOnes stateQ2 ∧ y.d = .s 62) ∧
    (sReg waveQ 34).toNat + 64 = ctxQ.ent.syncsz * 65536 ∧ (sReg waveQ 34).toNat % 64 = 0 ∧ (sReg waveQ 12).toNat % 64 ≠ 0 ∧ (sReg waveQ 12).toNat % 8 = 0 ∧ (sReg waveQ 37).toNat % 4 = 0 ∧ (sReg waveQ 37).toNat + 4 = ctxQ.ent.syncsz * 65536 ∧
    recording ctxQ 0 = false ∧ replaying ctxQ 0 = false ∧ (∀ e ∈ waveQ.mq, (∀ b ∈ quernAddrs e.op, homeOf b ≠ homeOf 64) ∧ e.acq = false ∧ e.carried = false) ∧ (queueAt ctxQ 64).items = 7 :: [] ∧ (queueAt ctxQ 64).held = [] ∧ (queueAt ctxQ 128).items = [] ∧ (queueAt ctxQ 128).held = [] ∧
    mgetD ctxQ.sync 8 0 ≠ (1 : Word64) ∧ (mgetD ({ ctxQ with sync := [(8, 1)] } : Ctx).sync 8 0 : Word64) = 1 ∧
    (∀ n ∈ [0, 14, 15], let w := { waveQ with again := n }; Acts always [] [(.s 62, 2)] (view w block0 grid0 ctxQ) allOnes (state w block0 grid0 ctxQ) ∧ (n < 15 ∨ 15 ≤ w.again)) ∧
    (∀ x ∈ [((37 : BitVec 6), 1, 4), (37, 0x24, 4), (39, 0, 8), (39, 4, 8), (34, 3, 64), (12, 2, 8), (12, 5, 8)], let y := yw 0 false .none (.s x.1) .none (BitVec.ofNat 16 x.2.1) false false none
      Acts y.guard [srcYA y, srcYB y] [] viewQ2 allOnes stateQ2 ∧ y.a ≠ .none ∧ (sReg waveQ x.1.toNat).toNat % x.2.2 = 0 ∧ (x.1 = 12 ∨ (sReg waveQ x.1.toNat).toNat + x.2.2 = ctxQ.ent.syncsz * 65536)) ∧
    waveQ.phase = none ∧ waveQ.trapSt = false ∧ ({ waveQ with trapSt := true } : Wave).trapSt = true ∧ (∀ e ∈ presentOf stateQ2 0, e.2.phase = none) ∧ (∃ c, waveQ.clause = some c) ∧
    (∀ n ∈ [none, some 7], let w := { waveQ with clause := some { clause2 with yld := n } }; Issues (yw 0 false .none .none .none 65535 false false none).guard [] [] 0 w allOnes (state w block0 grid0 ctxQ)) ∧
    waveQ.mq = [] ∧ appendOut ctxQ 0 = false ∧ windowOf (ptrAddr (sReg waveQ 40).toNat) ≠ .global ∧ (sReg waveQ 40).toNat % 128 = 0 ∧ (sReg waveQ 12).toNat % 128 ≠ 0 ∧ (sReg waveQ 36).toNat % 128 = 0 ∧ windowOf (ptrAddr 0x80) = .global ∧ Readable viewQ2 0x80 128 stateQ2 ∧
    launchCode (readState viewQ2 0x80 128 stateQ2) ctxQ (.wave 0) (wordsOf 16 (readBytes viewQ2 0x80 128 stateQ2)) = 0 ∧ launchCode stateQ2 ctxQ (.wave 0) [] ≠ 0 ∧
    mget stateQ2.ctxs 0 = some ctxQ ∧ ({ queue1 with waiters := [(0, 63)] } : SyncQueue).waiters = (0, 63) :: [] ∧ mget stateQ2.waves 0 = some waveQ ∧
    (queueAt ctxQ 128).items.length < capOf (queueAt ctxQ 128) ∧ capOf (queueAt ctxQ 64) ≤ (queueAt ctxQ 64).items.length ∧
    (∀ e ∈ [({ op := .lds 0x1000 (.s 1), info := default, acq := true, logged := false, carried := false, no := 0 } : MqEntry), { op := .push 64 7, info := default, acq := false, logged := false, carried := false, no := 0 },
        { op := .store [], info := default, acq := false, logged := true, carried := true, no := 0 }],
      let w := { waveQ with mq := [e] }
      let y := yw 0 false (.s 62) (.s 30) .none 0 false false none
      Acts y.guard [srcYA y] [(y.d, 1)] (view w block0 grid0 ctxQ) allOnes (state w block0 grid0 ctxQ) ∧
      (acquireOut w = true ∨ carriedOut w = true ∨ ∃ e ∈ w.mq, ∃ b ∈ quernAddrs e.op, homeOf b = homeOf (sReg w 30).toNat)) ∧
    ((sReg waveQ 37).toNat % 8 ≠ 0 ∧ (sReg waveQ 37).toNat % 64 ≠ 0 ∧ (sReg waveQ 38).toNat % 4 ≠ 0) ∧
    (∀ f ∈ [EndAs.faulted, .gridFault], mget ({ stateQ2 with blocks := [(0, { block0 with endAs := some f })] } : State).blocks (0 / 32) = some { block0 with endAs := some f }) := by
  refine ⟨fun _ _ _ _ => ⟨actsQ2, actsQ2, actsQ2, actsQ2, rfl⟩, by decide +kernel, by decide +kernel, by decide +kernel, by decide +kernel, ?_⟩
  refine ⟨by decide +kernel, by decide +kernel, rfl, rfl, by decide +kernel, ?_⟩
  refine ⟨rfl, rfl, rfl, rfl, by decide, ?_⟩
  refine ⟨rfl, ?_, ?_, rfl, rfl, ?_⟩
  · intro n h
    fin_cases h <;> exact ⟨acts_full rfl rfl ⟨rfl, rfl, rfl⟩, by decide⟩
  · intro x h
    fin_cases h <;> exact ⟨actsQ2, by decide, by decide +kernel, by decide +kernel⟩
  refine ⟨rfl, by decide +kernel, ⟨_, rfl⟩, fun _ _ => issues_full rfl ⟨rfl, rfl, rfl⟩, rfl, rfl, ?_⟩
  refine ⟨by decide +kernel, by decide +kernel, by decide +kernel, by decide +kernel, by decide +kernel, ?_⟩
  refine ⟨readable_of (by decide +kernel), by decide +kernel, by decide +kernel, rfl, ?_⟩
  refine ⟨rfl, rfl, by decide +kernel, by decide +kernel, ?_, by decide +kernel⟩
  intro e h
  fin_cases h <;> exact ⟨acts_full rfl rfl ⟨rfl, rfl, rfl⟩, by decide +kernel⟩
/-! #### Decoding, steps, events -/

theorem witness_DecodeEncode : (Instr.fadd (x3 (.v 16) (.v 0) (.v 8) .none .f32 0)).isWord = true ∧ (Instr.fadd (x3 (.v 16) (.v 0) (.v 8) .none .f32 0)).wellFormed = true := by decide
/-- A word with its literal, and the last word of a clause. -/
theorem witness_EncodeDecode :
    (match decodeWord 0x0C000180691FFD02 (some 0xDEADBEEF) with | .ok _ => true | .error _ => false) = true ∧ hasLiteral 0x0C000180691FFD02 = true ∧
    (match decodeWord 0x40000800011FF400 none with | .ok _ => true | .error _ => false) = true ∧ hasLiteral 0x40000800011FF400 = false := by decide
/-- A wave may issue the second word of its clause, whose first begins a repeat; a word that does not decode; an event; time. -/
theorem witness_StepRunsTheWord :
    (let w := { wave2 with clause := some { clause2 with idx := 1, rpt := some { count := 2, iter := 1, steps := st 1 0 0 0 } } }
     let s := { state w block0 grid0 loadedCtx with sched := { moves := [.issue 0], moveNo := 0, freeNo := 0, cur := none } }
     s.frozen = false ∧ s.sched.moves = .issue 0 :: [] ∧ viewOf s 0 = some (view w block0 grid0 loadedCtx) ∧ w.ended = false ∧ w.poll = none ∧ w.parked = none ∧ w.stop = false ∧ block0.life = .running ∧
     acquiring w = false ∧ (w.held && !w.stop && saveDue s w.blk) = false ∧ clause2.words[1]? = some 0x00000180405FF100 ∧ decodeWord (stepWord 0x00000180405FF100 (st 1 0 0 0) 1) none = .ok (.add (x3 (.v 4) (.v 1) (.v 2) .none .u32 0))) ∧
    (let w := { wave0 with clause := some { clause2 with words := [0x00000180405FF100] }, vE := [32] }
     let s2 := { state w block0 grid0 loadedCtx with parts := [(0, { partAt state0 0 with saving := true })] }
     acquiring w = false ∧ (w.held && !w.stop && saveDue s2 w.blk) = false ∧ saveDue s2 w.blk = true ∧
     (match exec (.add (x3 (.v 3) (.v 1) (.v 2) .none .u32 0)) s2 with | .next t => decide (t = s2 ∧ mget t.waves 0 = some w ∧ w.stop = false ∧ ownWait (.add (x3 (.v 3) (.v 1) (.v 2) .none .u32 0)) 0 t = false ∧ w.held ≠ true) | _ => false) = true) ∧
    decodeWord 0x1E00000000000000 none = .error .opcode ∧ Instr.brakeN.isWord = false ∧ mget ({ loadedCtx with rings := [(0x100, default)] } : Ctx).rings 0x100 = some (default : Ring) :=
  ⟨⟨rfl, rfl, rfl, by decide⟩, by decide +kernel, by decide, rfl, rfl⟩
theorem witness_FrozenPackage :
    (∀ i ∈ [Instr.scanRead (.unit 1) 767 0 1025, .scanRead (.unit 2) 0 1 1, .scanRead (.unit 4) 3 0 0, .scanRead (.unit 5) 15 9 1024, .scanRead .breakpoints 0 0 8, .bar2Access 1 0x10 8 none, .registerWrite .pf 0x18 1],
      let s := { state0 with frozen := true, sched := { state0.sched with moves := [.event i] } }
      s.frozen = true ∧ s.sched.moves = .event i :: [] ∧ (match step s with | .next _ => true | _ => false) = true ∧ mget s.waves 0 = some wave0) ∧
    (∀ f, RegSpace.pf ≠ .firmware f) := by
  refine ⟨?_, nofun⟩
  intro i h
  fin_cases h <;> exact ⟨rfl, rfl, by decide +kernel, rfl⟩
theorem witness_MemoryStaysCanonical : Memory.wf memory1 = true ∧ ∃ t, step { state0 with mem := memory1, sched := { state0.sched with moves := [.pass 1 1] } } = .next t :=
  ⟨by decide +kernel, ⟨_, rfl⟩⟩
theorem witness_RegisterWrites : Ty.i8.width ≤ 32 ∧ Ty.u64.width = 64 ∧ (0 : Nat) < 7 := by decide
/-- A running block, one that has faulted, one that a KILL of another block of its group finds, and one of a grid that a fault ends; a fault queue with room and a full one; a wave at a clause boundary and one inside a clause. -/
theorem witness_EndingABlock :
    mget state1.blocks waveM.blk = some block0 ∧ mget state1.grids block0.gid = some grid0 ∧ mget state1.ctxs grid0.asid = some loadedCtx ∧ block0.life = .running ∧ grid0.d.fpol = false ∧ block0.endAs = none ∧
    (physNat state1 0x500000 4 + 2 ^ 32 - physNat state1 0x500008 4) % 2 ^ 32 ≠ 16 ∧
    (let s := { state1 with mem := cellsPut memory1 0x500000 [16] }; (physNat s 0x500000 4 + 2 ^ 32 - physNat s 0x500008 4) % 2 ^ 32 = 16) ∧
    ({ block0 with endAs := some .faulted } : Block).endAs = some .faulted ∧
    Acts (yw 0 false .none .none .none 0 false false none).guard [] [] view1 allOnes state1 ∧
    (let s := { state waveM block0 gridG loadedCtx with blocks := [(0, block0), (1, freshBlock 0 1)] }
     Acts always [] [] (view waveM block0 gridG loadedCtx) allOnes s ∧ 1 < gridBlocks gridG.d ∧ mget s.blocks (blockKey 0 1) = some (freshBlock 0 1) ∧ blockKey 0 1 ≠ waveM.blk ∧ hasStatus gridG 1 = false) ∧
    (illegalSpec.cause < 256 ∧ illegalSpec.det < 256 ∧ illegalSpec.lane < 32 ∧ waveM.idx < 32 ∧ (wordInfo waveM).opc < 256 ∧ loadedCtx.ent.part < 16 ∧ grid0.asid < 4096 ∧ waveM.blk = blockKey block0.gid block0.num) ∧
    (let g := { gridG with d := { gridG.d with fpol := true } }
     let s := { state waveM block0 g loadedCtx with blocks := [(0, block0), (1, freshBlock 0 1)] }
     mget s.grids 0 = some g ∧ g.d.fpol = true ∧ 1 < gridBlocks g.d ∧ mget s.blocks (blockKey 0 1) = some (freshBlock 0 1) ∧ hasStatus g 1 = false ∧ blockKey 0 1 ≠ blockKey 0 0) ∧
    (let s := pair waveM block0; atRest s wave0b = true ∧ atRest s waveM = false ∧ blockOfWave 1 = waveM.blk ∧ wave0b.ended = false) := by
  refine ⟨rfl, rfl, rfl, rfl, rfl, ?_⟩
  refine ⟨rfl, by decide +kernel, by decide +kernel, rfl, acts1, ?_⟩
  refine ⟨⟨acts_full rfl rfl full1, by decide +kernel⟩, by decide +kernel⟩

/-- A wave between clauses whose next clause lies on the page of code, one word of ADD; one whose header has ECL 5; one whose clause lies on the untagged page, which is no code. -/
def idle (at_ : Nat) : Wave := { wave0 with clause := none, pc := BitVec.ofNat 64 at_, age := 2048 }
def codeMemory : List Host.Cell := cellsPut (cellsPut (cellsPut memory1 0xC0000000 (natToBytes 8 0x00FFFF0000000000)) 0xC0000008 (natToBytes 8 0x00000180405FF100)) 0xC0000100 (natToBytes 8 0x5000000000000000)
def atCode (a : Nat) : State := { state (idle a) block0 grid0 loadedCtx with mem := codeMemory }
def entryJ : JEntry := { id := 0, core := 0, slot := 0, wave := 0, written := true, step := none, seq := 0, no := 0, desc := [] }
def regionJ : Region := { dfltRegion with entries := [entryJ], nextId := 1 }
def ctxR (r : Region) : Ctx := { loadedCtx with regions := [(8, r)] }
def op (o : MemOp) (logged : Bool) : MqEntry := { op := o, info := default, acq := false, logged := logged, carried := false, no := 0 }
def pollQ (fails : Nat) (value : Word64) : PollState := { fails := fails, left := 0, var := 8, value := value, cge := false, w32 := false, dest := .s 1 }
theorem witness_CoreEvents :
    (chosen (atCode 0x80000000) 0 = some (view (idle 0x80000000) block0 grid0 loadedCtx) ∧ (match fetchClause (atCode 0x80000000) (view (idle 0x80000000) block0 grid0 loadedCtx) with | .ok _ ws => ws.length == 1 | _ => false) = true) ∧
    (chosen (atCode 0x80000100) 0 = some (view (idle 0x80000100) block0 grid0 loadedCtx) ∧ (match fetchClause (atCode 0x80000100) (view (idle 0x80000100) block0 grid0 loadedCtx) with | .illegal _ _ => true | _ => false) = true) ∧
    (chosen (atCode 0x40000000) 0 = some (view (idle 0x40000000) block0 grid0 loadedCtx) ∧ (match fetchClause (atCode 0x40000000) (view (idle 0x40000000) block0 grid0 loadedCtx) with | .fail _ _ => true | _ => false) = true) ∧
    (viewOf (atCode 0x80000000) 0 = some (view (idle 0x80000000) block0 grid0 loadedCtx) ∧ eligible (atCode 0x80000000) (view (idle 0x80000000) block0 grid0 loadedCtx) = true ∧ 2048 ≤ (idle 0x80000000).age) ∧
    ({ wave0 with yieldLeft := some 0 } : Wave).yieldLeft = some 0 ∧
    (∀ p ∈ [pollQ 1 0, pollQ 1 5, pollQ 15 5], let w := { wave0 with poll := some p }
      viewOf (state w block0 grid0 loadedCtx) 0 = some (view w block0 grid0 loadedCtx) ∧ p.left = 0 ∧ p.fails < 16 ∧ block0.life = .running ∧ holdsQuantum (state w block0 grid0 loadedCtx) 0 = true ∧ w.stop = false ∧ escalating (state w block0 grid0 loadedCtx) w.blk = false) ∧
    appendOut loadedCtx 0 = false ∧ recording loadedCtx 0 = false ∧ replaying loadedCtx 0 = false ∧ readVar loadedCtx 8 false = 0 ∧
    (∀ e ∈ [op (.push 64 7) false, op (.dcdec 8) false, op (.dcset 8 7) false, op (.store [{ lane := 0, addr := 0x40, tag := 0, data := [1] }]) true, op (.store [{ lane := 0, addr := 0xC0000000, tag := 0, data := [1] }]) true],
      ({ wave0 with mq := [e] } : Wave).mq = e :: []) ∧
    checkAccess state1 view1 .store (some 0) 0x40 1 = .ok ∧ checkAccess state1 view1 .store (some 0) 0xC0000000 1 = .pending ∧
    (let r := { ret (.s 1) 8 [(0, 7)] with far := [{ lane := 0, off := 4, len := 4, tier := 4, shared := true }] }
     ({ wave0 with returns := [r] } : Wave).returns[0]? = some r ∧ r.bad = none ∧ r.far ≠ [] ∧ ∀ f ∈ r.far, f.tier = 4) ∧
    (let s := state { wave0 with oc := { wave0.oc with st := 1 } } block0 grid0 (ctxR regionJ)
     mget s.ctxs 0 = some (ctxR regionJ) ∧ mget (ctxR regionJ).regions 8 = some regionJ ∧ regionJ.ksteps = [] ∧ nextArrival s regionJ 8 0 = some entryJ ∧ entryJ.written = true) ∧
    (let r := { regionJ with entries := [], ksteps := [(0, kvK)] }
     let s := { state { wave0 with arv := true, clause := some { words := [0xB1008240BFFFF000], idx := 0, y := false, rpt := none, yld := none } } block0 grid0 (ctxR r) with mem := memory1 }
     mget s.ctxs 0 = some (ctxR r) ∧ mget (ctxR r).regions 8 = some r ∧ r.ksteps = (0, kvK) :: [] ∧ r.readers = 0 ∧ 8 % 8 = 0 ∧ syncWord (ctxR r) 8 = 0 ∧ (0 : Word64).toNat + 1 < 2 ^ 64 ∧
     (match readJournal 0 0 (r.entries.filter (fun e => e.step == some (syncWord (ctxR r) 8))) [] s with
      | some (xs, t) => (match fileAll 0 0 (kvDesc kvK) xs t, fetchInstr { wave0 with clause := some { words := [0xB1008240BFFFF000], idx := 0, y := false, rpt := none, yld := none } } with
        | some u, .ok (.kstep k) => decide (mget u.ctxs 0 = some (ctxR r) ∧ k.d = .s 4)
        | _, _ => false)
      | none => false) = true) := by
  refine ⟨⟨rfl, by decide +kernel⟩, ⟨rfl, by decide +kernel⟩, ⟨rfl, by decide +kernel⟩, ⟨rfl, by decide +kernel, by decide⟩, rfl, ?_⟩
  refine ⟨?_, rfl, rfl, rfl, by decide +kernel, fun _ _ => rfl, ?_⟩
  swap
  refine ⟨by decide +kernel, by decide +kernel, ⟨rfl, rfl, by decide, by decide⟩, ⟨rfl, rfl, rfl, by decide +kernel, rfl⟩, rfl, ?_⟩
  refine ⟨rfl, rfl, rfl, rfl, by decide, ?_⟩
  refine ⟨by decide, by decide +kernel⟩
  intro p h
  fin_cases h <;> exact ⟨rfl, rfl, by decide, rfl, by decide +kernel, rfl, by decide +kernel⟩
/-! #### Blocks, flash, phases, quanta -/

/-- LUNs 0 to 3 are granted to the context, 0 is attached; the page list of the grid lies at 0x3000; the backing record of the page at 1 GiB names queues 64 and 128. -/
def ctxF : Ctx := { loadedCtx with
  ent := { loadedCtx.ent with fgn := 4, dspn := 1 }
  queues := [(64, { cap := 0, items := [0, 1, 2, 3], waiters := [], held := [] }), (128, { cap := 0, items := [], waiters := [], held := [] })] }
def flashMemory : List Host.Cell := [(0x600000, 2 ^ 63 + 2 ^ 62), (0x600008, 2 ^ 63 + 2 ^ 62 + 1), (0x600010, 2 ^ 63 + 2 ^ 62 + 2), (0x600018, 2 ^ 63 + 2 ^ 62 + 3),
  (0x20100000, 2 ^ 63), (0x20100028, 64), (0x20100030, 128)].foldl (fun m t => cellsPut m t.1 (natToBytes 8 t.2)) memory1
def pageGrid : Grid := { grid0 with d := { loadedDesc with kind := 1, pgf := 1, au := 4, plist := 0x3000 }, runnable := [] }
def lun0 : Lun := { dfltLun with attached := true }
/-- No wave, one block in a given state, one request in the placement queue. -/
def flashState (b : Block) (g : Grid) (k : ReqKind) : State :=
  { state wave0 b g ctxF with mem := flashMemory, waves := [], placeQ := [(5, { kind := k, gid := 0, prio := 0, entered := 0, aged := false })], luns := [(0, lun0)], pf := { State.reset.pf with tbb := 0x20000000 } }
def wb1 : Writeback := { page := 0x40000000, unit := 0, image := [], fresh := [0, 1, 2, 3], left := 2, bad := false, retried := false, next := .programs }
theorem witness_BlockEvents :
    (let s := state { wave0 with ended := true, clause := none } block0 grid0 loadedCtx
     mget s.blocks 0 = some block0 ∧ 0 = blockKey 0 0 ∧ mget s.grids 0 = some grid0 ∧ mget s.ctxs 0 = some loadedCtx ∧ block0.life ≠ .done ∧ wavesOf s 0 ≠ [] ∧ drained s 0 = true ∧ hasStatus grid0 0 = false ∧ grid0.d.gdone = 0) ∧
    (let s := flashState (freshBlock 0 0) grid0 (.start [0]); (grantAt s 5 0).map (fun p => (p.1.kind, p.2)) = some (.start [0], [(0, 0)]) ∧ grid0.d.nw ≤ 32) ∧
    (let s := flashState { freshBlock 0 0 with life := .displaced, dsp := some 0x400000 } grid0 (.back 0); (grantAt s 5 7).map (fun p => (p.1.kind, p.2)) = some (.back 0, [(0, 7)])) ∧
    (let s := flashState (freshBlock 0 0) pageGrid (.slot 0); (grantAt s 5 0).map (fun p => (p.1.kind, p.2)) = some (.slot 0, [(0, 0)]) ∧ s.deadTargets.contains (targetOf (slotPage s { kind := .slot 0, gid := 0, prio := 0, entered := 0, aged := false })) = false) ∧
    (let s := { flashState (freshBlock 0 0) grid0 (.start [0]) with time := { cycle := 1048576, ticks := 0 } }; (mget s.placeQ 5).map (fun r => decide (r.entered + 1048576 ≤ s.time.cycle)) = some true) ∧
    (let b := { freshBlock 0 0 with life := .landed, core := some 0, slice := some 0 }
     let s := { flashState b pageGrid (.start [1]) with ctxs := [(0, { ctxF with slices := [(0, 16 * 65536)] })] }
     let q := { s with placeQ := [(4, { kind := .start [0], gid := 0, prio := 7, entered := 0, aged := true })] ++ s.placeQ }
     ∃ e, headOf s 0 = some e ∧ (∀ c ∈ coresOf 0, placing s e.2 c = none) ∧ displaceable s 0 = some (0, b) ∧ mget s.blocks 0 = some b ∧ 0 < ctxF.ent.dspn ∧
       headOf q 0 = some e ∧ heldByAge q e.1 0 = true ∧ displaceable q 0 = some (0, b)) ∧
    (∀ x ∈ [(0, (none : Option Nat)), (1, some 2), (2 ^ 38, some 1)],
      let s := { flashState (freshBlock 0 0) pageGrid (.start [1]) with mem := cellsPut flashMemory 0x40003000 (natToBytes 8 x.1) }
      mget s.grids 0 = some pageGrid ∧ mget s.ctxs 0 = some ctxF ∧ pageGrid.d.kind = 1 ∧ 0 = pageGrid.listed.length ∧ 0 < gridBlocks pageGrid.d ∧ hasStatus pageGrid 0 = false ∧
      (match lovageRead 0 (ptrPlus pageGrid.d.plist 0) 8 { s with grids := mput s.grids 0 { pageGrid with listed := sadd pageGrid.listed 0 } } with
       | .ok bs t => decide (entryFails t ctxF (bytesToNat bs) = x.2) | _ => false) = true) ∧
    (∀ rung ∈ [0, 7, 8], let s := { flashState { freshBlock 0 0 with life := .reserved, core := some 0 } pageGrid (.start [1]) with luns := [(0, { lun0 with rung := rung, ops := [.read 0], since := 0 })], time := { cycle := 0, ticks := 20000000 } }
      (lunAt s 0).ops = .read 0 :: [] ∧ landingHeld s 0 0 0 = false ∧ (lunAt s 0).accepted ||| 0x7 ≠ 0xF ∧ (lunAt s 0).accepted ||| 0xF = 0xF ∧ (lunAt s 0).accepted ≠ 0xF ∧ erasedPage s 0 = true ∧ erasedPage { s with programmed := [0] } 0 = false ∧ (lunAt s 0).since + 20000000 ≤ s.time.ticks.toNat ∧ (lunAt s 0).timedOut = false) ∧
    (let s := { flashState (freshBlock 0 0) grid0 (.start [1]) with tail := [(0, { queue := [0x40000000], now := none })] }
     let s0 := setTail 0 { queue := [], now := none } s
     let r := backingOf s0 0x40000000
     backingOk s0 r = true ∧ (takeItems r.asid r.freeq 4 [] s0).1 = [0, 1, 2, 3] ∧ (∀ x ∈ [0, 1, 2, 3], itemOk (takeItems r.asid r.freeq 4 [] s0).2 r.asid x = true) ∧ (tailAt (takeItems r.asid r.freeq 4 [] s0).2 0).queue = []) ∧
    (let s := { flashState (freshBlock 0 0) grid0 (.start [1]) with luns := [(3, { lun0 with ops := [.program 0 3] })], tail := [(0, { queue := [], now := some wb1 })] }
     programAt s 0 = some (3, 3) ∧ (tailAt s 0).now = some wb1 ∧ 2 ≤ wb1.left) := by
  refine ⟨?_, by decide +kernel, by decide +kernel, by decide +kernel, ?_⟩
  swap
  refine ⟨by decide +kernel, ⟨_, rfl, by decide +kernel⟩, ?_, ?_, by decide +kernel, by decide +kernel⟩
  · intro x h
    fin_cases h <;> exact ⟨rfl, rfl, rfl, rfl, by decide, rfl, by decide +kernel⟩
  · intro x h
    fin_cases h <;> decide +kernel
  exact ⟨rfl, rfl, rfl, rfl, by decide, by decide, by decide +kernel, rfl, rfl⟩

/-- A wave that has executed PHASE with CK 5 for tick 1; the record saved at tick 0, its time reached, the record resumed. -/
def phased : State := mapped (state { wave0 with phase := some phaseT } block0 grid0 loadedCtx)
def runs (i : Instr) (s : State) : State := match exec i s with | .next t => t | _ => s
def saved : State := { runs (.phaseSave 0) phased with time := { cycle := 0, ticks := 1 } }
def queued : State := runs (.phaseTimeReached 0) saved
def gridE : Grid := { grid0 with d := { loadedDesc with va := 16, au := 0 } }
def escalated : State := mapped (state { wave0 with allot := 16, poll := some (pollQ 16 5) } { block0 with escal := some 0 } gridE loadedCtx)
set_option maxRecDepth 3000 in
theorem witness_PhaseAndQuantumEvents :
    (mget phased.blocks 0 = some block0 ∧ mget phased.grids 0 = some grid0 ∧ groupPresent grid0 0 0 = [0] ∧ phaseReady phased grid0.d 0 = true ∧
     (match writeRecords 0 phaseParts (fun t bk => (afterPhase t bk).head?) [0] phased with
      | some t => decide (t = { phased with mem := t.mem, near := t.near, tlb := t.tlb, tail := t.tail, wb := t.wb, out := t.out }) && (countRecords [0] t).isSome
      | none => false) = true) ∧
    (match mget saved.phaseQ 0, mget saved.blocks 0 with
     | some r, some _ => decide (r.cond = some phaseT ∧ phaseT.ck = 5 ∧ r.rval = none ∧ phaseT.cval.toNat ≤ saved.time.ticks.toNat ∧ grid0.d.gs = 1)
     | _, _ => false) = true ∧
    (match queued.placeQ with
     | [(key, r)] => decide ((grantAt queued key 3).map (fun p => p.2) = some [(0, 3)] ∧ r.kind = .resume [0]) && (match requestGrid queued r with
       | some (g, c) => (resumeAll g.asid g c [(0, 3)] queued).isSome
       | none => false)
     | _ => false) = true ∧
    (match mget queued.phaseQ 0 with
     | some q => (match q.waves with
       | [pw] =>
         (match lovageRead 0 (recordPtr loadedDesc 0) 128 queued with
          | .ok hd t1 =>
            let x := sliceNat hd 8 8
            let n := Min.min 64 (field x 16 7)
            let m := Min.min loadedDesc.va (field x 23 9)
            (match readAll 0 (sectionReads loadedDesc false n m (sectionPtr loadedDesc 0 0)) t1 with
             | .ok parts t2 =>
               let part := fun i => (parts[i]?).getD []
               let i := resumeInfo { freshWave loadedDesc 0 0 0 pw.pc with clause := pw.clause }
               decide (q.inv = false ∧ pw.idx = 0 ∧ bitAt x 32 = true ∧ i.pc = BitVec.ofNat 64 (sliceNat (part 0) 0 8) ∧ i.ix = field (sliceNat (part 0) 8 8) 0 5 ∧ i.iter = field (sliceNat (part 0) 8 8) 8 6) &&
                 (match lovageWrite 0 (ptrPlus (recordPtr loadedDesc 0) 0x20) (natToBytes 8 0) t2 with | .ok () _ => true | _ => false)
             | _ => false)
          | _ => false)
       | _ => false)
     | none => false) = true ∧
    (match escalation escalated 0 with
     | some e =>
       let lifted := [0].foldl (liftBlock 0) escalated
       decide (groupPresent gridE 0 0 = [0] ∧ quietBlock escalated 0 = true) &&
         (match writeRecords 0 (involuntaryParts e.2) (fun t bk => ((presentOf t bk).map Prod.snd).head?) [0] lifted with
          | some t => decide (t = { lifted with mem := t.mem, spoilt := t.spoilt, near := t.near, tlb := t.tlb, tail := t.tail, wb := t.wb, out := t.out, pf := t.pf }) && (countEscalations [0] t).isSome
          | none => false)
     | none => false) = true ∧
    (∀ x ∈ [(({ partAt state0 0 with quanta := [(63, 0x0000000010000001)], ends := 0 } : Part), false), ({ partAt state0 0 with quanta := [], ends := 0, pend := some 3 }, false), ({ partAt state0 0 with ends := 0, pend := some 2 }, true),
        ({ partAt state0 0 with v := false, ends := 0, pend := some 2 }, true), ({ partAt state0 0 with ends := 0, joining := 2 }, true)],
      let s := { state0 with parts := [(0, x.1)] ++ (if x.2 then [(1, { partAt state0 0 with mask := 2 })] else []) }
      mget s.parts 0 = some x.1 ∧ x.1.saving = false ∧ x.1.ends ≤ s.time.cycle ∧ ((∀ e ∈ s.parts, ¬ (e.1 ≠ 0)) ∨ ∃ e ∈ s.parts, e.1 ≠ 0 ∧ e.2.v = true ∧ e.2.mask.testBit 1 = true) ∧ (x.1.pend.getD (x.1.mask ||| x.1.joining)).testBit (if x.1.pend = none ∧ x.1.joining = 0 then 0 else 1) = true ∧
      ((∃ j < 64, quantumValid (mgetD x.1.quanta ((0 + 1 + j) % 64) 0) = true) ∨ ∀ j < 64, quantumValid (mgetD x.1.quanta ((0 + 1 + j) % 64) 0) = false)) ∧
    (∀ l ∈ [Life.running, .landed], let b := { block0 with life := l }
      let s := { state { wave0 with clause := none } b grid0 loadedCtx with parts := [(0, { partAt state0 0 with saving := true, cur := none, keep := none })] }
      mget s.ctxs 0 = some loadedCtx ∧ (partAt s loadedCtx.ent.part).saving = true ∧ (partAt s loadedCtx.ent.part).keep ≠ some 0 ∧ residentOf s 0 = [(0, b)] ∧ quietContext s 0 = true) ∧
    (let s := { state0 with blocks := [] }; mget s.cores 0 = some { ctx := some 0, dirty := true } ∧ ∀ e ∈ s.blocks, e.2.core ≠ some 0) ∧
    (∀ l ∈ [Life.saved, .savedLanded], let s := state wave0 { block0 with life := l, core := none } grid0 { loadedCtx with saved := true }
     (savedGroups s 0).findSome? (restorePlaces s 0 0) = some [(0, 0)] ∧ [(0, 0)].Pairwise (fun p q : Nat × Nat => p.1 ≠ q.1) ∧ s.waves = [(0, wave0)] ∧ wave0.mq = []) := by
  refine ⟨⟨rfl, rfl, by decide +kernel, by decide +kernel, by decide +kernel⟩, ?_⟩
  refine ⟨by decide +kernel, by decide +kernel, by decide +kernel, by decide +kernel, ?_, ?_, ⟨rfl, by decide⟩, ?_⟩
  · intro p h
    fin_cases h <;> decide +kernel
  · intro l h
    fin_cases h <;> decide +kernel
  · intro l h
    fin_cases h <;> decide +kernel
/-! #### Commands, host inputs, recovery -/

/-- The word of one wave with two ports trained to package 7, a page list and tables in memory, and the flash grants of `ctxF`. -/
def reg (a l : Nat) (s : State) : State := { s with pf := { s.pf with cmda := a, cmdl := l } }
def put8 (a x : Nat) (s : State) : State := { s with mem := cellsPut s.mem a (natToBytes 8 x) }
def stateX : State := { state wave0 block0 grid0 ctxF with mem := flashMemory, links := [(0, { trained := true, package := 7 })], luns := [(0, lun0)] }
/-- The entry of context 1 in the context table, and a ring's descriptor at 0x1000 of context 0: position 0 of 2, 1 ms, neighbour 7, slots of 4 KiB at 0x2000, control block at 0x100. -/
def entryC : State := { stateX with ctxTab := [(8, 2 ^ 63 + 0x100000), (9, 0x200000), (10, 1), (11, 0x300000), (12, 0x400000), (13, 0x500000), (15, 0x600000)] }
def ringC : State := [(0x40001000, 2 ^ 63 + 2 ^ 32 + 1), (0x40001008, 7 * 8192 + 7), (0x40001010, 0x2000), (0x40001018, 0x1000), (0x40001020, 0x100)].foldl (fun s t => put8 t.1 t.2 s) stateX
def logC : LogArea := { base := 0x700000, units := 1, written := 0, grids := [0], replay := false, used := [], lifted := [], full := false, began := 0, stamps := [] }
theorem witness_CommandEvents :
    ({ stateX.pf with go := true } : Pf).go = true ∧ stateX.pf.go = false ∧ stateX.fw.halted = false ∧ ({ stateX.fw with halted := true } : Firmware).halted = true ∧
    (∃ e ∈ stateX.grids, e.2.asid = 0 ∧ e.2.done = false) ∧ ctxLive stateX 1 = false ∧ ctxEntryOk stateX 1 = false ∧ ctxLive entryC 1 = false ∧ ctxEntryOk entryC 1 = true ∧
    (let s := reg 3 0 { stateX with grants := [(3, 1)] }; mget s.grants (s.pf.cmda % 2 ^ 16) = some 1 ∧ bitAt s.pf.cmda 16 = false) ∧
    (let s := reg (2 ^ 16 + 300) 0 { stateX with grants := (List.range 256).map (fun i => (i, 0)) }; bitAt s.pf.cmda 16 = true ∧ mget s.grants (s.pf.cmda % 2 ^ 16) = none ∧ 256 ≤ s.grants.length) ∧
    (let s := reg (2 ^ 16 + 300) 0 { stateX with grants := (List.range 255).map (fun i => (i, 0)) }; bitAt s.pf.cmda 16 = true ∧ s.grants.length < 256) ∧
    mget stateX.ctxs 1 = none ∧ mget stateX.ctxs 0 = some ctxF ∧ ¬ (0x1001 % 64 = 0) ∧ onTier1 stateX 0 ctxF 0x100000000 64 = false ∧
    (∀ s ∈ [(ringC, true), ({ ringC with links := [] }, false)], onTier1 s.1 0 ctxF (ptrAddr 0x1000) 64 = true ∧
      (match lovageRead 0 0x1000 64 s.1 with | .ok bs t => (ringOk t 0 ctxF (ringDesc (wordsOf 8 bs)) == s.2) && ringState t 0 (ringDesc (wordsOf 8 bs)).ctl != 1 | _ => false) = true) ∧
    grantsLun stateX ctxF.ent 4 true = false ∧ grantsLun stateX ctxF.ent (lunOf 0) true = true ∧ logC.grids ≠ [] ∧ ctxF.log = none ∧
    (0x700000 % 65536 = 0 ∧ 0x700000 + 1 * 65536 ≤ 0x8000000000) ∧ 0x7FFFFF0000 + 2 * 65536 > 0x8000000000 ∧
    ({ ctxF with saved := true } : Ctx).saved = true ∧ ctxLive { stateX with grids := [], ctxs := [(0, { ctxF with saved := true })] } 0 = true ∧
    (2 ^ 63 - 1 < 2 ^ 63 ∧ (2 ^ 63 : Nat) ≤ 2 ^ 63 ∧ (2 ^ 63 + 7 * 2 ^ 16) / 2 ^ 16 % 16 = 7) ∧
    tornDown (state { wave0 with ended := true, clause := none } block0 grid0 ctxF) 0 = true ∧ ({ lun0 with ops := [.erase 5] } : Lun).ops = .erase 5 :: [] := by
  refine ⟨rfl, rfl, rfl, rfl, ⟨_, .head _, rfl, rfl⟩, ?_⟩
  decide +kernel

/-- A store in flight to the first unit of the untagged page: INVAL of that unit waits for it, INVAL of the next one does not. -/
theorem witness_InvalCommand :
    (let p : Piece := { lane := 0, addr := 0x40000000, tag := 0, data := [1] }
     let w := storing p
     let s := { stateX with waves := [(0, w)], pf := { stateX.pf with go := true, op := 2, asid := 0, runA := 0x40000000, runL := 1 } }
     let v := view w block0 grid0 ctxF
     viewOf s 0 = some v ∧ v.g.asid = s.pf.asid ∧ v.b.core ≠ none ∧ w.mq.map (fun m => (m.op, m.logged)) = [(.store [p], false)] ∧ usesUnits s.pf.runA s.pf.runL ⟨0, 0x40000000, 1⟩ = true ∧
     invalDone s 0 0x40000000 1 = false ∧ invalDone s 0 0x40010000 1 = true ∧ invalDone stateX 0 0 0 = true) := by
  refine ⟨rfl, ?_⟩
  decide +kernel

/-- Function 1 serves context 0; requester 3 is bound to it; a launch ring of two entries with one to fetch. -/
def vf1 : Vf := { dfltVf with tail := 1, lrs := 1, lrb := 64, crb := 128 }
def entryH (asid ptr : Nat) (s : State) : State := put8 (hostPa 64) (5 * 2 ^ 32 + asid) (put8 (hostPa 72) ptr s)
def stateH : State := { stateX with vfs := [(1, vf1)], grants := [(3, 0)], pf := { State.reset.pf with inw := [(0, BitVec.ofNat 64 (2 ^ 63 + 2 ^ 62 + 0x40000000))] } }
def ctxL : Ctx := { ctxF with log := some { logC with replay := true } }
def heldH : State := put8 0x700000 (3 * 2 ^ 60) (put8 0x700008 64 { stateH with ctxs := [(0, ctxL)] })
theorem witness_HostInputs :
    vf1.fetched % 2 ^ 32 ≠ vf1.tail ∧ vf1.held = [] ∧ ringFull vf1 = false ∧ ringFull { vf1 with written := 2 } = true ∧ servedBy stateH 1 0 = true ∧ servedBy stateH 1 1 = false ∧ servedBy stateH 2 0 = false ∧
    (∀ x ∈ [(1, 0x80), (0, 0x84), (0, 0x80), (0, 0x100000000)], let s := entryH x.1 x.2 stateH
      let slot := hostPa (vf1.lrb + 16 * (vf1.fetched % ringSize vf1))
      physNat s slot 8 % 2 ^ 12 = x.1 ∧ physNat s slot 8 / 2 ^ 32 % 2 ^ 32 = 5 ∧ physNat s (slot + 8) 8 = x.2 ∧
      (x.1 = 0 → x.2 % 128 = 0 → (match lovageRead 0 x.2 128 s with | .ok _ _ => x.2 == 0x80 | .fail _ _ => x.2 != 0x80 | _ => false) = true)) ∧
    (match lovageRead 0 0x80 128 stateH with | .ok _ _ => true | _ => false) = true ∧ (match lovageRead 0 0x100000000 128 stateH with | .fail _ _ => true | _ => false) = true ∧
    ({ vf1 with held := [(1, 0, 0)] } : Vf).held = [(1, 0, 0)] ∧ (2 ^ 63).testBit 63 = true ∧
    (∃ e ∈ stateH.parts, e.1 ≠ 1 ∧ e.2.v = true ∧ e.2.pend.getD (e.2.mask ||| e.2.joining) &&& 1 ≠ 0) ∧ (∀ e ∈ stateH.parts, ¬ (e.1 ≠ 1 ∧ e.2.v = true ∧ e.2.pend.getD (e.2.mask ||| e.2.joining) &&& 2 ≠ 0)) ∧
    (∀ w ∈ [true, false], inbound stateH 0 0x40000000 8 w = some ctxF ∧ inbound stateH 0 0x100000000 8 w = none ∧ inbound stateH 0 0xC0000000 8 w = none ∧ (w = true → inbound stateH 0 0x80000000 8 w = none)) ∧
    mget stateH.grants 3 = some 0 ∧ mget stateH.grants 4 = none ∧ isMailbox 0x40000000 8 = false ∧ isMailbox 0x0E000000FFFFFFFC 4 = true ∧ isMailbox 0x0E00000100000000 4 = false ∧
    (0xFFF8 + 8 ≤ ctxF.ent.syncsz * 65536 ∧ ¬ (0x10000 + 8 ≤ ctxF.ent.syncsz * 65536)) ∧ isQueueWord ctxF 64 = true ∧ isQueueWord ctxF 192 = false ∧
    isStatusWord stateH 0 0x8000 = true ∧ isStatusWord stateH 0 0x8008 = false ∧ isStatusWord stateH 0 192 = false ∧
    (inwAt stateH 0).testBit 63 = true ∧ (inwAt stateH 0).testBit 62 = true ∧ (inwAt stateH 1).testBit 63 = false ∧ localRange stateH 0x40000000 8 = true ∧ localRange stateH 0x7FFFFFFFFC 8 = false ∧
    linkHeld stateH 0 0 0 = false ∧ linkHeld heldH 0 0 0 = true ∧ linkHeld heldH 0 0 64 = false ∧ lostIn stateH 0x40000000 8 = none ∧ lostIn { stateH with spoilt := [0x2000000] } 0x40000000 8 = some 0 ∧ (∀ e ∈ stateH.ctxs, ∀ l, e.2.log = some l → l.grids = []) := by
  refine ⟨by decide, rfl, by decide, by decide, by decide +kernel, ?_⟩
  refine ⟨by decide +kernel, by decide +kernel, by decide +kernel, by decide +kernel, by decide +kernel, ?_⟩
  refine ⟨rfl, by decide +kernel, by decide +kernel, by decide +kernel, by decide +kernel, ?_⟩
  refine ⟨rfl, rfl, by decide +kernel, by decide +kernel, by decide +kernel, ?_⟩
  refine ⟨by decide +kernel, by decide +kernel, by decide +kernel, by decide +kernel, by decide +kernel, ?_⟩
  refine ⟨by decide +kernel, by decide +kernel, by decide +kernel, by decide +kernel, by decide +kernel, ?_⟩
  refine ⟨by decide +kernel, by decide +kernel, by decide +kernel, by decide +kernel, by decide +kernel, by decide +kernel, ?_⟩
  intro e h l hl
  rw [show stateH.ctxs = [(0, ctxF)] from rfl, List.mem_singleton] at h
  subst h
  cases hl

/-- A ring of context 0 that runs, the first revolution filled and acknowledged here. -/
def ring1 (size : Nat) : Ring := { pos := 0, nm := 2, tmo := 1, next := 7, prev := 7, rbb := 0x2000, rsz := size, sent := 0, others := 0, theirs := 0, since := 0, fresh := true }
def ctxG (size : Nat) : Ctx := { ctxF with sync := [(0x100, 1), (0x108, 1), (0x120, BitVec.ofNat 64 (2 ^ 62))], rings := [(0x100, ring1 size)] }
def stateR (size : Nat) : State := { stateX with ctxs := [(0, ctxG size)], time := { cycle := 0, ticks := 1000000 } }
def replayR (type : Nat) : State := put8 0x700000 (type * 2 ^ 60) (put8 0x700008 64 { stateX with ctxs := [(0, ctxL)], time := { cycle := 0, ticks := 1000000000 } })
theorem witness_RecoveryEvents :
    mget stateX.links 0 = some { trained := true, package := 7 } ∧ stateX.pf.fwd = false ∧ stateX.pf.onwd = false ∧ ({ stateX.pf with fwd := true, onwd := true } : Pf).onwd = true ∧
    stateX.fw.halted = false ∧ stateX.fw.kickAt + 1000000000 ≤ ({ stateX with time := { cycle := 0, ticks := 1000000000 } } : State).time.ticks.toNat ∧
    ({ stateX.fw with halted := true, accepted := none } : Firmware).accepted = none ∧ ({ stateX with frozen := true } : State).frozen = true ∧
    packageIdle { stateX with blocks := [], waves := [] } = true ∧ packageIdle stateX = false ∧
    (∃ e ∈ saved.phaseQ, ∃ p, e.2.cond = some p ∧ p.ck = 5 ∧ e.2.rval = none ∧ p.cval.toNat ≤ saved.time.ticks.toNat + exitLatency saved.idle * 1000) ∧
    (∀ n ∈ [0, 2047], let s := replayR 4; let l := { logC with replay := true, written := n }; (64, false) ∉ l.lifted ∧ l.full = false ∧ l.written < logCap l ∧ (n = 2047 → l.written + 1 = logCap l) ∧
      nextRecord s l (fun i => logType s l i == 4 && logWord s l i 1 == 64 && (decide (2 ^ 63 ≤ logWord s l i 2) == false)) = some 0) ∧
    (let s := replayR 3; let l := { logC with replay := true }
     nextRecord s l (fun i => logType s l i == 4 && logWord s l i 1 == 64 && (decide (2 ^ 63 ≤ logWord s l i 2) == false)) = none ∧ nextLink s 0 = some 0 ∧ logWord s l 0 1 = 64) ∧
    (∀ l ∈ [{ logC with replay := true, used := [0], stamps := [(0, 500000000)] }, { logC with replay := true, lifted := [(64, false)] }],
     let s := put8 0x700020 (4 * 2 ^ 60) (put8 0x700028 64 (put8 0x700040 (3 * 2 ^ 60) (put8 0x700048 64 { replayR 4 with ctxs := [(0, { ctxF with log := some l })] })))
     ((64, false) ∈ l.lifted ∨ ∃ i ∈ l.used, logType s l i = 4 ∧ logWord s l i 1 = 64 ∧ logWord s l i 2 < 2 ^ 63 ∧ s.time.ticks.toNat < mgetD l.stamps i 0 + 1000000000) ∧
     l.began + 1000000000 ≤ s.time.ticks.toNat ∧ (∀ i ∈ l.used, logType s l i ≠ 3) ∧ nextLink s 0 = some 2 ∧ logWord s l 2 1 = 64) ∧
    (∀ size ∈ [0, 4096], let s := stateR size
      runningRing s 0 0x100 = some (ctxG size, ring1 size) ∧ 0x100 % 64 = 0 ∧ (ring1 size).sent + 1 ≤ ringSent s 0 0x100 ∧ reachable s 7 = true ∧ ringRecv s 0 0x100 = 0 ∧ ringArev s 0 0x100 = 0 ∧
      ringArev s 0 0x100 < Min.min (Max.max (ring1 size).others 1) (ringAck s 0 0x100) ∧ (ring1 size).since + (ring1 size).tmo * 1000000 ≤ s.time.ticks.toNat) ∧
    (match lovageRead 0 (ptrPlus (ring1 4096).rbb (1 % 3 * 4096)) 4096 (stateR 4096) with | .ok _ _ => true | _ => false) = true ∧
    (∀ rev ∈ [1, 5, 2 ^ 32 - 1], rev ≠ 0 ∧ (match lovageWrite 0 (ptrPlus (ring1 4096).rbb ((3 + rev % 3) * 4096)) (List.replicate 4096 0) (wake (stateR 4096)) with | .ok () _ => true | _ => false) = true) ∧
    (ringArev (stateR 0) 0 0x100 < ringSent (stateR 0) 0 0x100) ∧
    (let s := { stateR 0 with ctxs := [(0, { ctxG 0 with sync := [(0x120, BitVec.ofNat 64 (2 ^ 62))] })] }
     (runningRing s 0 0x100).isSome = true ∧ ringSent s 0 0x100 ≤ ringArev s 0 0x100 ∧ ringRecv s 0 0x100 ≤ ringArev s 0 0x100 ∧ (ring1 0).theirs ≤ ringArev s 0 0x100) ∧
    (stateX.fw.power < 3801 ∧ 3800 ≤ stateX.fw.power ∧ stateX.fw.clock < 2701 ∧ 2700 ≤ stateX.fw.clock ∧ mget stateH.grants 3 = some 0 ∧ inbound stateH 0 0x40000000 8 true = some ctxF) ∧
    (ctxG 0).rings = [(0x100, ring1 0)] ∧ ({ trained := false, package := 7 } : Link).trained = false := by
  refine ⟨rfl, rfl, rfl, rfl, rfl, ?_⟩
  refine ⟨by decide +kernel, rfl, rfl, by decide +kernel, by decide +kernel, ?_⟩
  refine ⟨?_, by decide +kernel, by decide +kernel, by decide +kernel, by decide +kernel, by decide +kernel, ?_⟩
  swap
  refine ⟨by decide +kernel, by decide +kernel, by decide +kernel, by decide +kernel, rfl, rfl⟩
  have h : saved.phaseQ.any (fun e => match e.2.cond with | some p => decide (p.ck = 5 ∧ e.2.rval = none ∧ p.cval.toNat ≤ saved.time.ticks.toNat + exitLatency saved.idle * 1000) | none => false) = true := by decide +kernel
  obtain ⟨e, he, hp⟩ := List.any_eq_true.mp h
  cases hc : e.2.cond with
  | none => simp [hc] at hp
  | some p => exact ⟨e, he, p, hc, by simpa [hc] using hp⟩
/-- A replay whose address nothing has served for a second, and one that has just begun; what firmware may attempt and may not; an operation on the bus of a LUN. -/
theorem witness_FirmwareAndReplay :
    (let l := { logC with replay := true }
     ctxL.log = some l ∧ l.grids ≠ [] ∧ (64, false) ∉ l.lifted ∧ (∀ i ∈ l.used, mgetD l.stamps i 0 + 1000000000 ≤ 0) ∧
     l.began + 1000000000 ≤ (replayR 4).time.ticks.toNat ∧ ¬ (l.began + 1000000000 ≤ stateX.time.ticks.toNat)) ∧
    (let s := { stateX with pf := { stateX.pf with fwwin := 2 ^ 16 + 1 } }
     let base := s.pf.fwwin / 2 ^ 16 % 2 ^ 40 * 65536
     let end_ := base + s.pf.fwwin % 2 ^ 16 * 65536
     s.fw.halted = false ∧ base ≤ 0x1FFF8 ∧ 0x1FFF8 + 8 ≤ end_ ∧ end_ < 0x1FFF9 + 8 ∧ 0xFFFF < base ∧ mget s.grants 3 ≠ some 0 ∧ s.pf.kick ≠ BitVec.ofNat 32 1) ∧
    (3800 < 3801 ∧ 2700 < 2701 ∧ ({ stateX.fw with halted := true } : Firmware).halted = true) ∧
    (∃ e ∈ [(0, { lun0 with ops := [.program 0 3] })], e.2.ops.head? = some (LunOp.program 0 3)) ∧ scanState stateX 1 767 ≠ none ∧ mget stateX.waves 0 = some wave0 := by
  refine ⟨by decide +kernel, by decide +kernel, by decide, by decide, ?_, rfl⟩
  rw [show scanState stateX 1 767 = some (coreScan stateX 767) from rfl]
  exact nofun
/-! #### One step of the words that are not format X -/

/-- The wave of a state after an instruction of its, in memory of `state1`. -/
def afterIn (i : Instr) (w : Wave) : State := runs i (mapped (state w block0 grid0 loadedCtx))
def waveOf (s : State) : Wave := (mget s.waves 0).getD wave0
/-- A header at 0x10000: targets are counted from there, NEXT is the header plus 8 for each of the three words and the header. -/
theorem test_transfers :
    let at_ := fun (i : Instr) (w : Wave) => (waveOf (afterIn i w)).pc
    wave0.pc = 0x10000 ∧ at_ (.bra (jw 0 false .none (-2))) wave0 = 0xFFF0 ∧ at_ (.bz (jw 0 false (.s 2) 4)) wave0 = 0x10020 ∧ at_ (.bnz (jw 0 false (.s 2) 8)) wave0 = nextHeader wave0 ∧
    at_ (.ret (jw 0 false (.s 2) 0)) (setS wave0 2 0x20008) = 0x20008 ∧ at_ (.jmpi (jw 0 false (.s 2) 0)) (setS wave0 2 0x20008) = 0x20008 ∧
    (let t := waveOf (afterIn (.call (jw 0 false (.s 2) 16)) wave0); t.pc = 0x10080 ∧ sReg t 2 = nextHeader wave0) ∧
    (let t := waveOf (afterIn (.loop (jw 0 false (.s 2) 16)) (setS wave0 2 1)); t.pc = nextHeader wave0 ∧ sReg t 2 = 0) ∧
    (let t := waveOf (afterIn (.loop (jw 0 false (.s 2) 16)) wave0); t.pc = 0x10080 ∧ sReg t 2 = 0xFFFFFFFFFFFFFFFF) ∧
    at_ (.bany (jw 0 false (.k 1) 16)) (setK wave0 1 8) = 0x10080 ∧ at_ (.ball (jw 0 false (.k 1) 16)) (setK wave0 1 8) = nextHeader wave0 ∧ at_ (.bnone (jw 0 false (.k 1) 16)) (setK wave0 1 0) = 0x10080 := by decide +kernel

/-- R107 to R113: ASID and partition, a trap vector, TICKS, a trap taken to it and returned from, and a wave that ends. -/
theorem test_system :
    sReg (waveOf (afterIn (.sysr (yw 0 false (.s 4) .none .none 1 false false none)) wave0)) 4 = 0 ∧
    (waveOf (afterIn (.sysw (yw 0 false .none .none (.s 2) 4 false false none)) (setS wave0 2 0x30000))).trapVec = 0x30000 ∧
    (let t := waveOf (afterIn (.trap (yw 0 false .none .none .none 77 false false none)) { wave0 with trapVec := 0x30000 })
     t.pc = 0x30000 ∧ t.trapSt = true ∧
     (let u := waveOf (afterIn (.tret (yw 0 false .none .none .none 0 false false none)) { t with clause := wave0.clause }); u.pc = 0x10000 ∧ u.trapSt = false)) ∧
    (waveOf (afterIn (.endWave (jw 0 false .none 0)) wave0)).ended = true := by decide +kernel

/-- R139, R149, R151: stores of all lanes to one address land when they are performed, the highest lane last and low byte first; a load gives a byte back, extended. -/
theorem test_memory :
    (let s := afterIn (.st (mw 0 false 0 .none (.s 10) (.v 1) 0 2 0 0 false false none)) (setV waveM 1 31 0x80000001)
     let t := runs (.storeAcknowledge 0 true) s
     (waveOf s).mq ≠ [] ∧ (waveOf t).mq = [] ∧ physByte t 0x80000020 = 1 ∧ physByte t 0x80000023 = 0x80) ∧
    (let s := { state1 with mem := cellsPut memory1 0x80000020 [0xFE] }
     let t := runs (.ld (mw 0 false 0 (.s 20) (.s 10) .none 0 0 0 0 false true none)) s
     sReg (waveOf (runs (.loadDataReturn 0 0 (.data 0)) t)) 20 = 0xFFFFFFFFFFFFFFFE) := by decide +kernel

/-- A node that is unmet, a reservation whose achieved code has fallen short, with a handler, without one and inside it. -/
def unmetBlock : Block := { blockQ with res := [(30, { res3 with nv := true, node := 5, ach := 0 }), (31, res1)], choice := [(5, { choiceAt blockQ 5 with code := 200, unm := true })] }
def trapped : List Wave := [waveC, { waveC with trapVec := 0x80000000 }, { waveC with trapSt := true }]
theorem witness_ToleranceTraps :
    (let x := xw 0 false 0 (.v 0) (.v 1) .none (.int 63) .f32 0 false false false none
     let node : TolNode := { kind := 2, ops := [], perm := 1 }
     let b := { block0 with tol := [(63, node)], choice := [(63, { choiceAt block0 63 with unm := true })] }
     ∀ w ∈ [wave0, { wave0 with trapVec := 0x80000000 }, { wave0 with trapSt := true }], let v := view w b grid0 loadedCtx
     x.c = .int 63 ∧ x.t = .f32 ∧ Acts x.guard [srcA x false] [dstD x false] v 0xFFFFFFFF (state w b grid0 loadedCtx) ∧ mget b.tol 63 = some node ∧ node.kind = 2 ∧ (choiceAt v.b 63).unm = true) ∧
    (∀ w ∈ trapped, ∀ unmet ∈ [false, true], let b := { unmetBlock with choice := [(5, { choiceAt unmetBlock 5 with unm := unmet })] }
     let v := view w b gridQ loadedCtx
     let s := state w b gridQ loadedCtx
     let q := qw 0 false 0 63 30 30 3 (.int 0) (.int 0) 5
     (Acts q.guard [srcQ q.ia, srcQ q.ib] [] v allOnes s ∧ Acts q.guard [] [] v allOnes s) ∧ w.oc.mtx < 63 ∧ tilesFree v [63] s = true ∧ (mget b.res 30).map (staleRes b) = some true ∧
     staleRes b res3 = false ∧ (choiceAt b 5).unm = unmet ∧ mget b.tol 5 = some node0) ∧
    (∃ w ∈ trapped, w.trapSt = false ∧ w.trapVec = 0) ∧ (∃ w ∈ trapped, w.trapSt = false ∧ w.trapVec ≠ 0) ∧ (∃ w ∈ trapped, w.trapSt = true) := by
  refine ⟨?_, ?_, by decide, by decide, by decide⟩
  · intro x node b w h
    fin_cases h <;> exact ⟨rfl, rfl, acts_full rfl rfl ⟨rfl, rfl, rfl⟩, rfl, rfl, rfl⟩
  · intro w h u hu
    fin_cases h <;> fin_cases hu <;> exact ⟨⟨acts_full rfl rfl ⟨rfl, rfl, rfl⟩, acts_full rfl rfl ⟨rfl, rfl, rfl⟩⟩, by decide, by decide +kernel, by decide +kernel, by decide +kernel, rfl, rfl⟩

/-- One descriptor for every code of R49, each failing at the lowest condition its code names; a teardown under way. -/
def launchWords (i : Nat) (x : Word64) : List Word64 := (wordsOf 16 launchBytes).set i x
theorem witness_LaunchCodes :
    (∀ p ∈ [(launchWords 3 0, 0), (launchWords 0 (2 * 2 ^ 60), 1), (launchWords 0 (2 ^ 54), 1), (launchWords 1 (2 ^ 25 + 511), 2), (launchWords 5 0, 3), (launchWords 8 8, 4), (launchWords 2 0x10004, 5), (launchWords 13 8, 7)],
      launchCode stateQ2 ctxQ (.wave 0) p.1 = p.2) ∧
    launchCode stateQ2 ctxQ (.wave 0) (((launchWords 7 (2 ^ 28 + 1)).set 4 (29 * 2 ^ 24)).set 1 (2 ^ 25)) = 6 ∧
    launchCode stateX { ctxF with log := some { logC with grids := [] } } (.host 1 0) (launchWords 0 (2 ^ 54)) = 0 ∧
    launchCode stateX { ctxF with log := some logC } (.wave 0) (launchWords 0 (2 ^ 54)) = 0 ∧
    tearingDown { stateQ2 with pf := { stateQ2.pf with go := true, op := 3, asid := 0 } } 0 = true ∧ stateQ2.pf.go = false := by
  decide +kernel

/-- Of two eligible waves of a core the one that waited longer is chosen; with no wave there is none. -/
def rivals : State := { atCode 0x80000000 with waves := [(0, { idle 0x80000000 with age := 5 }), (1, { idle 0x80000000 with idx := 1, age := 9 })] }
theorem witness_ChosenWave :
    (chosen rivals 0).map (fun v => v.key) = some 1 ∧ (viewOf rivals 0).map (fun v => eligible rivals v && decide (v.b.core = some 0)) = some true ∧
    chosen { rivals with waves := [] } 0 = none := by
  decide +kernel

/-- The save of context 1 holds its partition's quantum, and no longer when context 1 has no resident block; a POLL that has failed 16 times, and one to be tried again. -/
def saving : Part := { partAt state0 0 with ends := 0, saving := true, keep := some 1 }
def leaving (b : Block) : State := { state0 with parts := [(0, saving)], blocks := [(0, b)] }
theorem witness_SavesAndPolls :
    (mget (leaving block0).parts 0 = some saving ∧ saving.saving = true ∧ ∃ e ∈ (leaving block0).ctxs, e.2.ent.part = 0 ∧ saving.keep ≠ some e.1 ∧ residentOf (leaving block0) e.1 ≠ []) ∧
    (let s := leaving { block0 with life := .done, core := none }
     mget s.parts 0 = some saving ∧ (∀ e ∈ s.ctxs, e.2.ent.part = 0 → saving.keep ≠ some e.1 → residentOf s e.1 = []) ∧ saving.ends ≤ s.time.cycle) ∧
    (∀ n ∈ [3, 16], let w := { wave0 with poll := some (pollQ n 5) }
     let s := state w { block0 with life := .saved, core := none } grid0 loadedCtx
     (savedGroups s 0).findSome? (restorePlaces s 0 0) = some [(0, 0)] ∧ w.mq = [] ∧ mget s.waves 0 = some w) := by
  decide +kernel

/-- The log areas of an ASID without a context, bound, open and free; a ring's descriptor that breaks R321 in each field. -/
theorem witness_LogAreasAndRings :
    mget stateX.ctxs 1 = none ∧ logOf stateX 1 = none ∧ (logOf { stateX with logs := [(1, logC)] } 1).map (fun l => l.grids) = some [0] ∧
    (logOf { stateX with logs := [(1, { logC with grids := [] })] } 1).map (fun l => l.grids) = some [] ∧
    (let ws : List Word64 := [2 ^ 63 + 2 ^ 32 + 1, 7 * 8192 + 7, 0x2000, 0x1000, 0x100, 0, 0, 0]
     ringOk ringC 0 ctxF (ringDesc ws) = true ∧ ∀ p ∈ [(0, (2 ^ 32 + 1 : Word64)), (0, 2 ^ 63 + 1), (0, 2 ^ 63 + 2 ^ 45 * 2 + 2 ^ 32 + 1), (0, 2 ^ 63 + 2 ^ 32), (0, 2 ^ 63 + 2 ^ 32 + 60001), (1, 8), (2, 0x2001), (3, 2 ^ 30 + 4096), (4, 0x101), (4, 0x10000), (5, 1)],
       ringOk ringC 0 ctxF (ringDesc (ws.set p.1 p.2)) = false) := by
  decide +kernel

/-- Inbound accesses that pass stage 4 and fail: data that is lost, and a page on the far side; one that does not pass it; a ring that was rewound, at a stale revolution and at the next one. -/
theorem witness_InboundAndRevolutions :
    (let s := { stateH with spoilt := [0x4000000] }
     inbound s 0 0x40000000 8 false = none ∧ (permitted s 0 0x40000000 8 false).isSome = true ∧ lovageWindow 0x40000000 8 = .ok ∧
     checkGlobal s 0 (rootOf ctxF) .load none 0x40000000 8 = .ok ∧ checkGlobal s 0 (rootOf ctxF) .load none 0x100000000 8 ≠ .ok) ∧
    (let r := { ring1 0 with fresh := false }
     let s := { stateR 0 with ctxs := [(0, { ctxG 0 with rings := [(0x100, r)] })] }
     runningRing s 0 0x100 = some ({ ctxG 0 with rings := [(0x100, r)] }, r) ∧ r.fresh = false ∧ 7 ≠ ringRecv s 0 0x100 + 1 ∧ 1 = ringRecv s 0 0x100 + 1 ∧ (ring1 0).fresh = true ∧ (Incoming.mk 1 true).old = true ∧ (Incoming.mk 1 false).old = false) := by
  decide +kernel

/-- A grid that is recorded, one that is replayed, and one that is neither; a replay in which an operation is the next of its address, one in which another comes first, and one in which none is left; a status word that another block's comes before. -/
def early : State := put8 0x700010 3 (replayR 4)
def statusAt (num : Nat) : State := put8 0x700000 (4 * 2 ^ 60 + num) (put8 0x700008 (grid0.d.stbase + 0) { stateX with ctxs := [(0, ctxL)] })
theorem witness_RecordAndReplay :
    (recording loadedCtx 0 = false ∧ replaying loadedCtx 0 = false ∧ recording { ctxF with log := some logC } 0 = true ∧ logC.written + 1 < logCap logC ∧ replaying ctxL 0 = true) ∧
    (viewOf (replayR 4) 0).isSome = true ∧ (servedOp 0 64 (replayR 4)).isSome = true ∧ (servedOp 0 64 early).isSome = false ∧
    (quernOp 0 0 0 0 1 64 false (replayR 4)).isSome = false ∧ (quernOp 0 0 0 0 1 64 false (replayR 4) false).isSome = true ∧ (quernOp 0 0 0 0 0 72 false early).isSome = true ∧
    (servedOp 0 8 stateK).isSome = true ∧ (servedOp 0 8 (state wave0 block0 grid0 loadedCtx)).isSome = true ∧
    statusEarly (statusAt 1) 0 0 = true ∧ statusEarly (statusAt 0) 0 0 = false ∧ statusEarly (state wave0 block0 grid0 loadedCtx) 0 0 = false := by
  decide +kernel
end Sys2Proof.Tests
end

section
/-! SUPPORT. What one operation does to the form of device memory: an operation that leaves memory alone has a simp lemma `_mem`; one that may write has a lemma `_memOk`, from a state in the canonical form to one in it. Here the shared notions, and what Quern, Windshaft and the host's rings do. -/
namespace Sys2Proof.Machine
open Sys2Proof

/-! ### Outcomes that keep the form -/

/-- Where the outcome is a next state, its memory has the canonical form. -/
@[simp] def Keeps : Result → Prop
  | .next t => MemOk t
  | _ => True

/-- Where there is a next state at all, its memory has the canonical form. -/
@[simp] def AllOk : Option State → Prop
  | some t => MemOk t
  | none => True

theorem memOk_of_some {o : Option State} (ho : AllOk o) {t : State} (e : o = some t) : MemOk t := by rwa [e] at ho

theorem getD_memOk {o : Option State} {s : State} (ho : AllOk o) (hs : MemOk s) : MemOk (o.getD s) := by
  cases o <;> assumption

theorem memOk_ite {p : Prop} [Decidable p] {s t : State} (hs : MemOk s) (ht : MemOk t) : MemOk (if p then s else t) := by
  split <;> assumption

/-- A fold of operations that leave memory alone leaves memory alone. -/
@[simp] theorem mem_foldl {α : Type} {f : State → α → State} (hf : ∀ t a, (f t a).mem = t.mem) (l : List α) (s : State) : (l.foldl f s).mem = s.mem := by
  induction l generalizing s with
  | nil => rfl
  | cons a rest ih => rw [List.foldl_cons, ih, hf]

@[simp] theorem wf_cellsPut {m : List Host.Cell} (h : Memory.wf m = true) (a : Nat) (bs : List Byte) : Memory.wf (cellsPut m a bs) = true := cellsPut_wf h a bs

@[simp] theorem physPutWord_mem (a : Nat) (x : Word64) (s : State) : (physPutWord a x s).mem = cellsPut s.mem a (natToBytes 8 x.toNat) := physPut_mem _ _ _

/-! ### What the device writes for the host -/

@[simp] theorem raiseVector_mem (asid vector : Nat) (s : State) : (raiseVector asid vector s).mem = s.mem := by
  fun_cases raiseVector <;> simp

@[simp] theorem writeCompletion_memOk (n tag kind code : Nat) {s : State} (h : MemOk s) : MemOk (writeCompletion n tag kind code s) := by
  simp [writeCompletion, MemOk, h]

@[simp] theorem postCompletion_memOk (n tag kind code : Nat) {s : State} (h : MemOk s) : MemOk (postCompletion n tag kind code s) := by
  fun_cases postCompletion <;> simp [MemOk, h]

@[simp] theorem releaseHeld_memOk (n : Nat) (l : List (Nat × Nat × Nat)) {s : State} (h : MemOk s) : MemOk (releaseHeld n l s) := by
  fun_induction releaseHeld n l s with
  | case1 => exact h
  | case2 => exact h
  | case3 _ _ _ _ _ _ _ ih => exact ih (writeCompletion_memOk _ _ _ _ h)

@[simp] theorem pushFault_memOk (asid : Nat) (words : List Word64) {s : State} (h : MemOk s) : MemOk (pushFault asid words s) := by
  fun_cases pushFault <;> simp +zetaDelta [MemOk, h]

@[simp] theorem logAppend_memOk (asid w0 w1 w2 w3 : Nat) {s : State} (h : MemOk s) : MemOk (logAppend asid w0 w1 w2 w3 s) := by
  fun_cases logAppend <;> simp [MemOk, h]

@[simp] theorem consume_mem (asid i : Nat) (s : State) : (consume asid i s).mem = s.mem := modCtx_mem _ _ _

@[simp] theorem diverge_memOk (asid type word1 observed expected : Nat) (lift : Nat × Bool) {s : State} (h : MemOk s) : MemOk (diverge asid type word1 observed expected lift s) := by
  simp [diverge, MemOk, h]

theorem quernOp_allOk (asid gid num wave ordinal addr : Nat) (global own : Bool) {s : State} (h : MemOk s) : AllOk (quernOp asid gid num wave ordinal addr global s own) := by
  fun_cases quernOp <;> simp [MemOk, h]

/-! ### Placement requests and block starts -/

@[simp] theorem enqueue_mem (kind : ReqKind) (gid prio : Nat) (s : State) : (enqueue kind gid prio s).mem = s.mem := rfl
@[simp] theorem dropRequests_mem (bk : Nat) (s : State) : (dropRequests bk s).mem = s.mem := rfl
@[simp] theorem startWaves_mem (d : Desc) (bk num : Nat) (s : State) : (startWaves d bk num s).mem = s.mem := rfl
@[simp] theorem startBlock_mem (d : Desc) (bk num : Nat) (s : State) : (startBlock d bk num s).mem = s.mem := by simp [startBlock]

@[simp] theorem blockRunnable_mem (gid num : Nat) (s : State) : (blockRunnable gid num s).mem = s.mem := by
  fun_cases blockRunnable <;> simp +zetaDelta

@[simp] theorem askGroup_mem (gid num : Nat) (s : State) : (askGroup gid num s).mem = s.mem := by rw [askGroup_frame]
@[simp] theorem satisfy_mem (bk : Nat) (x : Word64) (s : State) : (satisfy bk x s).mem = s.mem := by rw [satisfy_frame]
@[simp] theorem testRecord_mem (asid : Nat) (s : State) (bk : Nat) : (testRecord asid s bk).mem = s.mem := by rw [testRecord_frame]

/-! ### Sync words -/

@[simp] theorem syncWrite_mem (asid a : Nat) (x : Word64) (s : State) : (syncWrite asid a x s).mem = s.mem := by
  unfold syncWrite
  split
  · rfl
  · dsimp only
    split <;> simp

@[simp] theorem plainWrite_mem (asid a : Nat) (x : Word64) (s : State) : (plainWrite asid a x s).mem = s.mem := by
  fun_cases plainWrite <;> simp

@[simp] theorem counterDec_mem (asid a : Nat) (s : State) : (counterDec asid a s).mem = s.mem := by
  fun_cases counterDec <;> simp

@[simp] theorem syncWrite32_mem (asid a : Nat) (x : Word32) (s : State) : (syncWrite32 asid a x s).mem = s.mem := by
  fun_cases syncWrite32 <;> simp

/-! ### Queues -/

@[simp] theorem ackSender_mem (sender : Sender) (s : State) : (ackSender sender s).mem = s.mem := by
  fun_cases ackSender <;> simp
@[simp] theorem putQueue_mem (asid q : Nat) (x : SyncQueue) (s : State) : (putQueue asid q x s).mem = s.mem := modCtx_mem _ _ _
@[simp] theorem touchQueue_mem (asid q : Nat) (s : State) : (touchQueue asid q s).mem = s.mem := modCtx_mem _ _ _
@[simp] theorem withdrawHeld_mem (asid : Nat) (p : Nat → Bool) (s : State) : (withdrawHeld asid p s).mem = s.mem := modCtx_mem _ _ _

@[simp] theorem pushItem_mem (asid q : Nat) (item : Word64) (sender : Sender) (s : State) : (pushItem asid q item sender s).mem = s.mem := by
  fun_cases pushItem <;> simp

@[simp] theorem admitHeld_mem (asid q : Nat) (l : List (Sender × Word64)) (s : State) : (admitHeld asid q l s).mem = s.mem := by
  fun_induction admitHeld asid q l s with
  | case1 => rfl
  | case2 => rfl
  | case3 _ _ _ _ _ _ _ _ ih => simpa using ih
  | case4 => rfl

theorem popItem_mem {asid q : Nat} {s : State} {r : Word64 × State} (e : popItem asid q s = some r) : r.2.mem = s.mem := by
  revert e
  fun_cases popItem
  · nofun
  · nofun
  · rintro ⟨⟩
    simp

@[simp] theorem initQueue_mem (asid q : Nat) (cap : Word64) (s : State) : (initQueue asid q cap s).mem = s.mem := by
  fun_cases initQueue <;> simp
@[simp] theorem parkWave_mem (asid q d key : Nat) (s : State) : (parkWave asid q d key s).mem = s.mem := by
  fun_cases parkWave <;> simp
@[simp] theorem unpark_mem (asid key : Nat) (s : State) : (unpark asid key s).mem = s.mem := by
  fun_cases unpark <;> simp

/-! ### Barriers -/

@[simp] theorem checkBar_mem (bk n : Nat) (s : State) : (checkBar bk n s).mem = s.mem := by
  fun_cases checkBar <;> simp
@[simp] theorem checkCluster_mem (gid grp n : Nat) (s : State) : (checkCluster gid grp n s).mem = s.mem := by
  fun_cases checkCluster <;> simp +zetaDelta
@[simp] theorem checkBlockArrival_mem (bk n : Nat) (s : State) : (checkBlockArrival bk n s).mem = s.mem := by
  fun_cases checkBlockArrival <;> simp
@[simp] theorem checkAllBars_mem (bk : Nat) (s : State) : (checkAllBars bk s).mem = s.mem := by simp [checkAllBars]
@[simp] theorem checkGridBar_mem (gid n : Nat) (s : State) : (checkGridBar gid n s).mem = s.mem := by
  fun_cases checkGridBar <;> simp
@[simp] theorem gridArrive_mem (gid num n : Nat) (s : State) : (gridArrive gid num n s).mem = s.mem := by simp [gridArrive]

/-! ### Ends -/

@[simp] theorem retireWave_mem (key : Nat) (s : State) : (retireWave key s).mem = s.mem := by
  unfold retireWave
  repeat' split
  all_goals simp
@[simp] theorem freeSlice_mem (asid : Nat) (b : Block) (s : State) : (freeSlice asid b s).mem = s.mem := by
  fun_cases freeSlice <;> simp

/-- What GDONE and the launcher's completion write. -/
theorem checkGridDone_memOk (gid : Nat) {s : State} (h : MemOk s) : MemOk (checkGridDone gid s) := by
  fun_cases checkGridDone gid s
  case case1 => exact h
  case case2 => exact h
  all_goals
    simp +zetaDelta only [MemOk, modCtx_mem]
    repeat' split
    all_goals simp [MemOk, h]

theorem statusOp_allOk (gid num : Nat) {s : State} (h : MemOk s) : AllOk (statusOp gid num s) := by
  fun_cases statusOp
  · exact h
  · exact quernOp_allOk _ _ _ _ _ _ _ _ h

@[simp] theorem unlessEarly_memOk (gid num : Nat) {s t : State} (hs : MemOk s) (ht : MemOk t) : MemOk (unlessEarly gid num s t) := by
  fun_cases unlessEarly <;> assumption

@[simp] theorem setStatus_memOk (gid num : Nat) (x : Word32) {s : State} (h : MemOk s) : MemOk (setStatus gid num x s) := by
  have hs : MemOk (if statusSet s gid num then s else (statusOp gid num s).getD s) := by
    split
    · exact h
    · exact getD_memOk (statusOp_allOk gid num h) h
  fun_cases setStatus gid num x s
  · exact hs
  · exact hs
  · exact checkGridDone_memOk _ (memOk_of_mem_eq hs (by simp +zetaDelta))

/-! ### Hard faults -/

@[simp] theorem mapWaves_mem (bk : Nat) (f : Wave → Wave) (s : State) : (mapWaves bk f s).mem = s.mem := rfl
@[simp] theorem stopBlock_mem (bk : Nat) (s : State) : (stopBlock bk s).mem = s.mem := by simp [stopBlock]
@[simp] theorem discardHeld_mem (asid bk : Nat) (s : State) : (discardHeld asid bk s).mem = s.mem := by
  fun_cases discardHeld <;> simp +zetaDelta
@[simp] theorem dropReads_mem (bk : Nat) (s : State) : (dropReads bk s).mem = s.mem := rfl

@[simp] theorem endOther_memOk (gid num : Nat) {s : State} (h : MemOk s) : MemOk (endOther gid num s) := by
  fun_cases endOther
  · exact h
  · exact h
  · exact setStatus_memOk _ _ _ h
  · simp +zetaDelta [MemOk, h, apply_ite State.mem]

@[simp] theorem endGrid_memOk (gid : Nat) (keep : Option Nat) {s : State} (h : MemOk s) : MemOk (endGrid gid keep s) := by
  fun_cases endGrid
  · exact h
  · refine memOk_foldl (fun t n ht => ?_) _ h
    split
    · exact ht
    · exact endOther_memOk _ _ ht

@[simp] theorem faultBlock_memOk (bk widx : Nat) (wid : Word64) (info : WordInfo) (f : FaultSpec) {s : State} (h : MemOk s) : MemOk (faultBlock bk widx wid info f s) := by
  fun_cases faultBlock
  case case1 => exact h
  case case2 => exact h
  case case3 => exact h
  all_goals simp +zetaDelta [MemOk, h, apply_ite State.mem]

@[simp] theorem faultAt_memOk (key : Nat) (info : WordInfo) (f : FaultSpec) {s : State} (h : MemOk s) : MemOk (faultAt key info f s) := by
  fun_cases faultAt <;> simp [MemOk, h]

@[simp] theorem checkPhases_memOk (bk : Nat) {s : State} (h : MemOk s) : MemOk (checkPhases bk s) := by
  fun_cases checkPhases <;> simp [MemOk, h]

@[simp] theorem killBlock_mem (bk : Nat) (s : State) : (killBlock bk s).mem = s.mem := by simp [killBlock]

theorem hardFault_keeps (w : Wave) (f : FaultSpec) {s : State} (h : MemOk s) : Keeps (hardFault w f s) := faultBlock_memOk _ _ _ _ _ h
theorem illegalWord_keeps (w : Wave) {s : State} (h : MemOk s) : Keeps (illegalWord w s) := hardFault_keeps w _ h

/-! ### What every word shares -/

theorem waitsOn_keeps (key : Nat) (w : Wave) {s : State} (h : MemOk s) : Keeps (waitsOn key w s) := h

theorem raiseTrap_keeps (key : Nat) (w : Wave) (t : TrapSpec) {go : Wave → State → Result} (hgo : ∀ u r, MemOk r → Keeps (go u r)) {s : State} (h : MemOk s) :
    Keeps (raiseTrap key w t go s) := by
  fun_cases raiseTrap
  · exact illegalWord_keeps _ h
  · exact h
  · exact hgo _ _ h
  · exact illegalWord_keeps _ h

/-- A word keeps the form where its effect does. -/
theorem word_keeps (g : Guard) (srcs : List Src) (dests : List (Operand × Nat)) {body : Nat → Wave → Word32 → State → Result}
    (hb : ∀ k w m t, MemOk t → Keeps (body k w m t)) {s : State} (h : MemOk s) : Keeps (word g srcs dests body s) := by
  fun_cases word
  · trivial
  · exact h
  · exact h
  · exact h
  · exact raiseTrap_keeps _ _ _ (fun _ _ => waitsOn_keeps _ _) h
  · exact hb _ _ _ _ h

theorem regWord_keeps (g : Guard) (srcs : List Src) (dests : List (Operand × Nat)) (f : Word32 → Wave → Wave) {s : State} (h : MemOk s) :
    Keeps (regWord g srcs dests f s) := word_keeps g srcs dests (fun _ _ _ _ => id) h

theorem viewWord_keeps (g : Guard) (srcs : List Src) (dests : List (Operand × Nat)) {body : View → Word32 → State → Result}
    (hb : ∀ v m t, MemOk t → Keeps (body v m t)) {s : State} (h : MemOk s) : Keeps (viewWord g srcs dests body s) := by
  refine word_keeps g srcs dests (fun k _ m t ht => ?_) h
  split
  · trivial
  · exact hb _ _ _ ht

@[simp] theorem done_keeps (key : Nat) {s : State} (h : MemOk s) : Keeps (done key s) := by simp [done, MemOk, h]
@[simp] theorem hold_keeps {s : State} (h : MemOk s) : Keeps (hold s) := h

end Sys2Proof.Machine
end
section
/-! SUPPORT. The form of device memory under the marks that accesses leave, clause starts, control transfers and system words. -/
namespace Sys2Proof.Machine
open Sys2Proof

/-! ### Marks and far accesses -/

theorem markPassed_memOk {mark : Nat → State → State} (hm : ∀ u t, MemOk t → MemOk (mark u t)) (v : View) (k : Kind) (n : Nat) (accs : List (Nat × Nat)) {s : State} (h : MemOk s) :
    MemOk (markPassed mark v k n accs s) := by
  refine memOk_foldl (fun t a ht => ?_) _ h
  split
  · exact memOk_foldl (fun r u hr => hm u.1 r hr) _ ht
  · exact ht

@[simp] theorem notePassed_memOk (v : View) (k : Kind) (n : Nat) (accs : List (Nat × Nat)) {s : State} (h : MemOk s) : MemOk (notePassed v k n accs s) :=
  markPassed_memOk (fun u _ => noteLeaf_memOk _ _ _ u) v k n accs h

@[simp] theorem noteTags_memOk (v : View) (n : Nat) (accs : List (Nat × Nat)) {s : State} (h : MemOk s) : MemOk (noteTags v n accs s) :=
  markPassed_memOk (fun u _ => noteTag_memOk _ _ u) v .store n accs h

@[simp] theorem noteSpan_memOk (v : View) (k : Kind) (addr n : Nat) {s : State} (h : MemOk s) : MemOk (noteSpan v k addr n s) :=
  memOk_foldl (fun _ _ => notePassed_memOk _ _ _ _) _ h

@[simp] theorem noteCtx_memOk (asid root : Nat) (k : Kind) (addr n : Nat) {s : State} (h : MemOk s) : MemOk (noteCtx asid root k addr n s) := by
  refine memOk_foldl (fun t p ht => ?_) _ h
  split
  · refine memOk_foldl (fun u x hu => ?_) _ ht
    exact noteLeaf_memOk _ _ _ _ hu
  · exact ht

@[simp] theorem countDrives_mem (n : Nat) (s : State) : (countDrives n s).mem = s.mem := rfl
@[simp] theorem countDrive_mem (s : State) : (countDrive s).mem = s.mem := rfl
@[simp] theorem farReadOne_mem (tier pa n : Nat) (s : State) : (farReadOne tier pa n s).mem = s.mem := by
  fun_cases farReadOne <;> simp +zetaDelta
@[simp] theorem farGet_mem (tier pa n : Nat) (s : State) : (farGet tier pa n s).mem = s.mem := by
  fun_cases farGet <;> simp

@[simp] theorem sendReads_mem (v : View) (lane addr n : Nat) (s : State) : (sendReads v lane addr n s).mem = s.mem := by
  refine mem_foldl (fun t u => ?_) _ s
  repeat' split
  all_goals simp

@[simp] theorem sendCtx_mem (asid root addr n : Nat) (s : State) : (sendCtx asid root addr n s).mem = s.mem := by
  refine mem_foldl (fun t u => ?_) _ s
  repeat' split
  all_goals simp

/-! ### Clauses and time -/

@[simp] theorem noteFetch_memOk (v : View) {s : State} (h : MemOk s) : MemOk (noteFetch v s) := by
  have seen (addr n : Nat) {t : State} (ht : MemOk t) :
      MemOk (if passesFour t v .fetch addr n then recordAccess v.g.asid (rootOf v.c) false addr n t else t) := by
    split
    · exact recordAccess_memOk _ _ _ _ _ ht
    · exact ht
  fun_cases noteFetch
  · exact seen _ _ (seen _ _ h)
  · exact seen _ _ h
  · exact seen _ _ h

theorem execClauseStart_keeps (core : Acting) {s : State} (h : MemOk s) : Keeps (execClauseStart core s) := by
  fun_cases execClauseStart <;> simp [MemOk, recordAccess_memOk, h]

theorem execEligibilityAgeExpiry_keeps (wave : Nat) {s : State} (h : MemOk s) : Keeps (execEligibilityAgeExpiry wave s) := by
  fun_cases execEligibilityAgeExpiry <;> exact h

theorem execYieldExpiry_keeps (wave : Nat) {s : State} (h : MemOk s) : Keeps (execYieldExpiry wave s) := by
  fun_cases execYieldExpiry <;> exact h

@[simp] theorem passTime_mem (cycles ticks : Nat) (s : State) : (passTime cycles ticks s).mem = s.mem := rfl
@[simp] theorem nextMove_mem (s : State) : (nextMove s).2.mem = s.mem := by
  fun_cases nextMove <;> rfl

/-! ### Control transfers and repeats -/

theorem branch_keeps (j : JW) (taken : Word32 → Wave → Bool) {s : State} (h : MemOk s) : Keeps (branch j taken s) :=
  word_keeps _ _ _ (fun _ _ _ _ => id) h

theorem jump_keeps (j : JW) {s : State} (h : MemOk s) : Keeps (jump j s) := by
  refine word_keeps _ _ _ (fun k w m t ht => ?_) h
  dsimp only
  split
  · exact illegalWord_keeps _ ht
  · exact ht

theorem execLoop_keeps (j : JW) {s : State} (h : MemOk s) : Keeps (execLoop j s) := word_keeps _ _ _ (fun _ _ _ _ => id) h
theorem execCall_keeps (j : JW) {s : State} (h : MemOk s) : Keeps (execCall j s) := word_keeps _ _ _ (fun _ _ _ _ => id) h

theorem execEndWave_keeps (j : JW) {s : State} (h : MemOk s) : Keeps (execEndWave j s) := by
  refine word_keeps _ _ _ (fun k w m t ht => ?_) h
  simp [MemOk, ht]

theorem beginRepeat_keeps (key : Nat) (w : Wave) (c : Clause) (n : Nat) (st : Steps) {s : State} (h : MemOk s) : Keeps (beginRepeat key w c n st s) := by
  fun_cases beginRepeat
  case case1 | case4 => exact h
  all_goals exact illegalWord_keeps _ h

theorem repeatWord_keeps (srcs : List Src) (n : Wave → Nat) (st : Steps) {s : State} (h : MemOk s) : Keeps (repeatWord srcs n st s) := by
  refine word_keeps _ _ _ (fun k w m t ht => ?_) h
  split
  · trivial
  · split
    · exact illegalWord_keeps _ ht
    · exact beginRepeat_keeps _ _ _ _ _ ht

/-! ### System words -/

theorem readWord_keeps (y : YW) (f : View → Word64) {s : State} (h : MemOk s) : Keeps (readWord y f s) := viewWord_keeps _ _ _ (fun _ _ _ => id) h

theorem execSysw_keeps (y : YW) {s : State} (h : MemOk s) : Keeps (execSysw y s) := by
  refine word_keeps _ _ _ (fun k w m t ht => ?_) h
  dsimp only
  split
  · split
    · exact illegalWord_keeps _ ht
    · exact ht
  · exact ht

theorem execTicks_keeps (y : YW) {s : State} (h : MemOk s) : Keeps (execTicks y s) := word_keeps _ _ _ (fun _ _ _ _ => id) h
theorem execFaultrd_keeps (y : YW) {s : State} (h : MemOk s) : Keeps (execFaultrd y s) := word_keeps _ _ _ (fun _ _ _ _ => id) h

theorem execTrap_keeps (y : YW) {s : State} (h : MemOk s) : Keeps (execTrap y s) :=
  word_keeps _ _ _ (fun _ _ _ _ => raiseTrap_keeps _ _ _ (fun _ _ => done_keeps _)) h

theorem execBkpt_keeps (y : YW) {s : State} (h : MemOk s) : Keeps (execBkpt y s) := by
  refine word_keeps _ _ _ (fun k w m t ht => ?_) h
  exact raiseTrap_keeps _ _ _ (fun _ _ => done_keeps _) ht

theorem execTret_keeps (y : YW) {s : State} (h : MemOk s) : Keeps (execTret y s) := by
  refine word_keeps _ _ _ (fun k w m t ht => ?_) h
  split
  · exact ht
  · exact illegalWord_keeps _ ht

theorem execKill_keeps (y : YW) {s : State} (h : MemOk s) : Keeps (execKill y s) :=
  word_keeps _ _ _ (fun _ _ _ _ ht => done_keeps _ (memOk_of_mem_eq ht (killBlock_mem _ _))) h

theorem execKillGrid_keeps (y : YW) {s : State} (h : MemOk s) : Keeps (execKillGrid y s) :=
  viewWord_keeps _ _ _ (fun _ _ _ ht => done_keeps _ (endGrid_memOk _ _ (memOk_of_mem_eq ht (killBlock_mem _ _)))) h

end Sys2Proof.Machine
end
section
/-! SUPPORT. The form of device memory under arithmetic, lane and memory words, and under the memory unit. -/
namespace Sys2Proof.Machine
open Sys2Proof

/-! ### Words that change registers alone -/

theorem xWord_keeps (x : XW) (f : Wave → Nat → Nat) {s : State} (h : MemOk s) : Keeps (xWord x f s) := regWord_keeps _ _ _ _ h
theorem maskWord_keeps (x : XW) (f : Wave → Nat → Bool) {s : State} (h : MemOk s) : Keeps (maskWord x f s) := regWord_keeps _ _ _ _ h

theorem execMov_keeps (x : XW) {s : State} (h : MemOk s) : Keeps (execMov x s) := by
  fun_cases execMov
  · exact regWord_keeps _ _ _ _ h
  · exact xWord_keeps _ _ h

/-! ### What memory words share -/

theorem keeps_ite {p : Prop} [Decidable p] {a b : Result} (ha : Keeps a) (hb : Keeps b) : Keeps (if p then a else b) := by
  split <;> assumption

@[simp] theorem issueFault_keeps (v : View) (f : FaultSpec) {note : State → State} {s back : State} (hn : MemOk (note s)) (hb : MemOk back) :
    Keeps (issueFault v f note s back) := by
  fun_cases issueFault
  · exact hb
  · exact hardFault_keeps _ _ hn

@[simp] theorem recordAccs_memOk (v : View) (write : Bool) (n : Nat) (accs : List (Nat × Nat)) {s : State} (h : MemOk s) : MemOk (recordAccs v write n accs s) := by
  refine memOk_foldl (fun t a ht => ?_) _ h
  split
  · exact recordAccess_memOk _ _ _ _ _ ht
  · exact ht

@[simp] theorem sendParts_mem (v : View) (lane addr : Nat) (ps : List FarPart) (s : State) : (sendParts v lane addr ps s).mem = s.mem := by
  refine mem_foldl (fun t p => ?_) _ s
  split <;> rfl

@[simp] theorem queueOp_keeps (v : View) (op : MemOp) (counted acq pending : Bool) {s : State} (edit : Wave → Wave) (h : MemOk s) :
    Keeps (queueOp v op counted acq pending s edit) := by
  fun_cases queueOp <;> exact h

/-! ### Loads, stores, atomics -/

theorem loadIssue_keeps (r : LoadReq) (v : View) {s : State} (h : MemOk s) : Keeps (loadIssue r v s) := by
  fun_cases loadIssue
  case case1 => exact issueFault_keeps _ _ (notePassed_memOk _ _ _ _ h) h
  case case2 => exact raiseTrap_keeps _ _ _ (fun _ _ => waitsOn_keeps _ _) h
  case case6 => simp +zetaDelta [MemOk, h]
  all_goals exact h

theorem storeIssue_keeps (n : Nat) (rel sys : Bool) (accs : List (Nat × Nat)) (data : Nat → Nat) (v : View) {s : State} (h : MemOk s) :
    Keeps (storeIssue n rel sys accs data v s) := by
  fun_cases storeIssue
  · exact issueFault_keeps _ _ (notePassed_memOk _ _ _ _ h) h
  · exact h
  · exact queueOp_keeps _ _ _ _ _ _ h

theorem atomIssue_keeps (ret : Bool) (m : MW) (v : View) (mask : Word32) {s : State} (h : MemOk s) : Keeps (atomIssue ret m v mask s) := by
  fun_cases atomIssue
  · exact raiseTrap_keeps _ _ _ (fun _ _ => id) h
  · exact issueFault_keeps _ _ (notePassed_memOk _ _ _ _ h) h
  · exact h
  · exact queueOp_keeps _ _ _ _ _ _ h

theorem bufWord_keeps (store z : Bool) (m : MW) (v : View) (mask : Word32) {s : State} (h : MemOk s) {go : List (Nat × Nat) → List Nat → Result}
    (hgo : ∀ accs out, Keeps (go accs out)) : Keeps (bufWord store z m v mask s go) := by
  fun_cases bufWord
  · exact issueFault_keeps _ _ (notePassed_memOk _ _ _ _ h) h
  · exact hgo _ _

theorem execLd_keeps (m : MW) {s : State} (h : MemOk s) : Keeps (execLd m s) := viewWord_keeps _ _ _ (fun _ _ _ => loadIssue_keeps _ _) h
theorem execSt_keeps (m : MW) {s : State} (h : MemOk s) : Keeps (execSt m s) := viewWord_keeps _ _ _ (fun _ _ _ => storeIssue_keeps _ _ _ _ _ _) h
theorem execAtom_keeps (m : MW) {s : State} (h : MemOk s) : Keeps (execAtom m s) := viewWord_keeps _ _ _ (fun _ _ _ => atomIssue_keeps _ _ _ _) h
theorem execAred_keeps (m : MW) {s : State} (h : MemOk s) : Keeps (execAred m s) := viewWord_keeps _ _ _ (fun _ _ _ => atomIssue_keeps _ _ _ _) h

theorem bufLoad_keeps (z : Bool) (m : MW) {s : State} (h : MemOk s) : Keeps (bufLoad z m s) :=
  viewWord_keeps _ _ _ (fun _ _ _ ht => bufWord_keeps _ _ _ _ _ ht (fun _ _ => loadIssue_keeps _ _ ht)) h

theorem bufStore_keeps (z : Bool) (m : MW) {s : State} (h : MemOk s) : Keeps (bufStore z m s) :=
  viewWord_keeps _ _ _ (fun _ _ _ ht => bufWord_keeps _ _ _ _ _ ht (fun _ _ => storeIssue_keeps _ _ _ _ _ _ ht)) h

theorem execLds_keeps (m : MW) {s : State} (h : MemOk s) : Keeps (execLds m s) := by
  refine viewWord_keeps _ _ _ (fun v mask t ht => ?_) h
  split
  · exact hardFault_keeps _ _ ht
  · exact queueOp_keeps _ _ _ _ _ _ ht

theorem execSts_keeps (m : MW) {s : State} (h : MemOk s) : Keeps (execSts m s) := by
  refine viewWord_keeps _ _ _ (fun v mask t ht => ?_) h
  split
  · exact hardFault_keeps _ _ ht
  · exact queueOp_keeps _ _ _ _ _ _ ht

/-! ### Waits, tags, lines -/

theorem execFence_keeps (m : MW) {s : State} (h : MemOk s) : Keeps (execFence m s) := by
  refine word_keeps _ _ _ (fun k w mask t ht => ?_) h
  split
  · exact ht
  · exact done_keeps _ ht

theorem execWaitc_keeps (m : MW) {s : State} (h : MemOk s) : Keeps (execWaitc m s) := by
  refine word_keeps _ _ _ (fun k w mask t ht => ?_) h
  split
  · exact done_keeps _ ht
  · exact ht

theorem execPtag_keeps (m : MW) {s : State} (h : MemOk s) : Keeps (execPtag m s) := word_keeps _ _ _ (fun _ _ _ _ => id) h

theorem execTagset_keeps (m : MW) {s : State} (h : MemOk s) : Keeps (execTagset m s) := by
  refine viewWord_keeps _ _ _ (fun v mask t ht => ?_) h
  dsimp only
  split
  · split
    · exact hardFault_keeps _ _ (noteTags_memOk _ _ _ ht)
    · exact queueOp_keeps _ _ _ _ _ _ ht
  · split
    · exact illegalWord_keeps _ ht
    · split
      · exact hardFault_keeps _ _ (noteTags_memOk _ _ _ ht)
      · exact queueOp_keeps _ _ _ _ _ _ ht

theorem execTagget_keeps (m : MW) {s : State} (h : MemOk s) : Keeps (execTagget m s) := by
  refine viewWord_keeps _ _ _ (fun v mask t ht => ?_) h
  dsimp only
  split
  · exact hardFault_keeps _ _ (notePassed_memOk _ _ _ _ ht)
  · split
    · exact ht
    · exact recordAccs_memOk _ _ _ _ ht

@[simp] theorem holdLine_mem (line : Nat) (s : State) : (holdLine line s).mem = s.mem := by
  fun_cases holdLine <;> rfl
@[simp] theorem cleanLine_mem (line : Nat) (inv : Bool) (s : State) : (cleanLine line inv s).mem = s.mem := by
  fun_cases cleanLine <;> rfl
@[simp] theorem prefLine_mem (v : View) (tag : Nat) (s : State) (l : Nat × Nat) : (prefLine v tag s l).mem = s.mem := by
  fun_cases prefLine <;> simp

theorem execPref_keeps (m : MW) {s : State} (h : MemOk s) : Keeps (execPref m s) := by
  refine viewWord_keeps _ _ _ (fun v mask t ht => ?_) h
  exact done_keeps _ (memOk_of_mem_eq ht (by simp))

theorem cleanWord_keeps (inv : Bool) (m : MW) {s : State} (h : MemOk s) : Keeps (cleanWord inv m s) := by
  refine viewWord_keeps _ _ _ (fun v mask t ht => ?_) h
  dsimp only
  split
  · exact illegalWord_keeps _ ht
  · split
    · exact issueFault_keeps _ _ (notePassed_memOk _ _ _ _ ht) ht
    · exact keeps_ite ht (queueOp_keeps _ _ _ _ _ _ (recordAccs_memOk _ _ _ _ ht))

/-! ### The memory unit performs -/

/-- What performing an operation leaves has its memory in the canonical form. -/
@[simp] def Perf.Ok : Perf → Prop
  | .done t => MemOk t
  | .lost _ t => MemOk t
  | _ => True

theorem allOk_map {o : Option State} (ho : AllOk o) {f : State → State} (hf : ∀ t, MemOk t → MemOk (f t)) : AllOk (o.map f) := by
  cases o with
  | none => trivial
  | some t => exact hf t ho

theorem quernOne_allOk (v : View) (addr : Nat) (global : Bool) {s : State} (h : MemOk s) : AllOk (quernOne v addr global s) :=
  allOk_map (quernOp_allOk _ _ _ _ _ _ _ _ h) (fun _ ht => memOk_of_mem_eq ht (modWave_mem _ _ _))

theorem quernAll_allOk (v : View) (l : List Nat) {s : State} (h : MemOk s) : AllOk (quernAll v l s) := by
  fun_induction quernAll v l s with
  | case1 => exact h
  | case2 a rest s t e ih => exact ih (memOk_of_some (quernOne_allOk v a true h) e)
  | case3 => trivial

theorem perfCheck_ok (accs : List (Nat × Nat × Chk)) {go : Unit → Perf} (hgo : (go ()).Ok) : (perfCheck accs go).Ok := by
  fun_cases perfCheck
  · trivial
  · trivial
  · exact hgo

@[simp] theorem putPieces_memOk (v : View) (ps : List Piece) {s : State} (h : MemOk s) : MemOk (putPieces v ps s) :=
  memOk_foldl (fun _ _ => putAt_memOk _ _ _ _) _ h

theorem perfStore_ok (v : View) (ps : List Piece) {s : State} (h : MemOk s) : (perfStore v ps s).Ok := perfCheck_ok _ (putPieces_memOk v ps h)

theorem atomAll_memOk (v : View) (op size : Nat) (l : List AtomLane) {s : State} (h : MemOk s) : MemOk (atomAll v op size l s).2 := by
  fun_induction atomAll v op size l s with
  | case1 => exact h
  | case2 s l rest r q ih => exact ih (putAt_memOk _ _ _ _ h)

@[simp] theorem addReturn_mem (key : Nat) (r : Return) (s : State) : (addReturn key r s).mem = s.mem := modWave_mem _ _ _

theorem perfAtom_ok (v : View) (info : WordInfo) (ret : Bool) (op size : Nat) (d : Operand) (lanes : List AtomLane) {s : State} (h : MemOk s) :
    (perfAtom v info ret op size d lanes s).Ok := by
  refine perfCheck_ok _ ?_
  dsimp only
  split
  · trivial
  · next t e =>
    have ht : MemOk t := memOk_of_some (quernAll_allOk v (lanes.map (fun l => l.addr)) h) e
    have hr := atomAll_memOk v op size (lanes.filter (fun l => !lostLane s v size l))
      (notePassed_memOk v .atomic size ((lanes.filter (lostLane s v size)).map (fun l => (l.lane, l.addr))) ht)
    repeat' split
    all_goals simpa [MemOk] using hr

@[simp] theorem tagGranule_memOk (v : View) (addr tag : Nat) {s : State} (h : MemOk s) : MemOk (tagGranule v addr tag s) := by
  fun_cases tagGranule
  · exact recordUnit_memOk _ _ _ _ h
  · exact noteTag_memOk _ _ _ h
  · exact h
  · exact h

theorem perfTags_ok (v : View) (writes : List (Nat × Nat × Nat)) {s : State} (h : MemOk s) : (perfTags v writes s).Ok :=
  perfCheck_ok _ (memOk_foldl (fun _ _ => tagGranule_memOk _ _ _) _ h)

theorem perfTagRange_ok (v : View) (addr len tag : Nat) {s : State} (h : MemOk s) : (perfTagRange v addr len tag s).Ok := by
  fun_cases perfTagRange
  · exact h
  · exact perfCheck_ok _ (memOk_foldl (fun _ _ => tagGranule_memOk _ _ _) _ h)

theorem perfClean_ok (v : View) (addr len tag : Nat) (inv : Bool) {s : State} (h : MemOk s) : (perfClean v addr len tag inv s).Ok := by
  fun_cases perfClean
  · exact h
  · refine perfCheck_ok _ (memOk_foldl (fun t l ht => ?_) _ h)
    split
    · exact memOk_of_mem_eq ht (cleanLine_mem _ _ _)
    · exact ht

/-- A Quern operation that is admitted, and then leaves memory alone. -/
theorem perfQuern_ok (v : View) (addr : Nat) {f : State → State} (hf : ∀ t, (f t).mem = t.mem) {s : State} (h : MemOk s) : (perfQuern v addr f s).Ok := by
  have hq := quernOne_allOk v addr false h
  fun_cases perfQuern
  · trivial
  · simp_all [MemOk]

theorem perfSts_ok (v : View) (addr : Nat) (val : Word64) {s : State} (h : MemOk s) : (perfSts v addr val s).Ok := by
  have hq := quernOne_allOk v addr false h
  fun_cases perfSts <;> simp_all [MemOk]

theorem perfLds_ok (v : View) (info : WordInfo) (addr : Nat) (d : Operand) {s : State} (h : MemOk s) : (perfLds v info addr d s).Ok := by
  have hq := quernOne_allOk v addr false h
  fun_cases perfLds <;> simp_all [MemOk]

@[simp] theorem markWritten_mem (asid region entry : Nat) (s : State) : (markWritten asid region entry s).mem = s.mem := modCtx_mem _ _ _

theorem perform_ok (v : View) (e : MqEntry) {s : State} (h : MemOk s) : (perform v e s).Ok := by
  fun_cases perform
  case case1 ps _ => exact perfStore_ok v ps h
  case case2 ps _ t e' =>
    have ht : MemOk t := by simpa [e'] using perfStore_ok v ps h
    exact memOk_of_mem_eq ht (markWritten_mem _ _ _ _)
  case case3 ps _ _ => exact perfStore_ok v ps h
  case case4 => exact perfAtom_ok _ _ _ _ _ _ _ h
  case case5 => exact perfTags_ok _ _ h
  case case6 => exact perfTagRange_ok _ _ _ _ h
  case case7 => exact perfClean_ok _ _ _ _ _ h
  case case8 => exact perfSts_ok _ _ _ h
  case case9 => exact perfLds_ok _ _ _ _ h
  case case10 => exact perfQuern_ok _ _ (fun _ => pushItem_mem _ _ _ _ _) h
  case case11 => exact perfQuern_ok _ _ (fun _ => initQueue_mem _ _ _ _) h
  case case12 => exact perfQuern_ok _ _ (fun _ => counterDec_mem _ _ _) h
  case case13 => exact perfQuern_ok _ _ (fun _ => plainWrite_mem _ _ _ _) h

@[simp] theorem retireOp_mem (key i : Nat) (e : MqEntry) (ack : Bool) (s : State) : (retireOp key i e ack s).mem = s.mem := modWave_mem _ _ _
@[simp] theorem dropLogged_mem (key : Nat) (s : State) : (dropLogged key s).mem = s.mem := modWave_mem _ _ _
@[simp] theorem logPending_mem (v : View) (i : Nat) (s : State) : (logPending v i s).mem = s.mem := by
  fun_cases logPending <;> simp

@[simp] theorem noteOp_memOk (v : View) (op : MemOp) {s : State} (h : MemOk s) : MemOk (noteOp v op s) := by
  fun_cases noteOp
  case case1 | case2 => exact memOk_foldl (fun _ _ => notePassed_memOk _ _ _ _) _ h
  case case3 | case6 => exact notePassed_memOk _ _ _ _ h
  case case4 | case5 => exact noteTags_memOk _ _ _ h
  case case7 => exact h

theorem performAt_memOk (v : View) (i : Nat) (e : MqEntry) {s : State} (h : MemOk s) : MemOk (performAt v i e s) := by
  have hp := perform_ok v e h
  fun_cases performAt
  case case1 t e' =>
    rw [e'] at hp
    exact memOk_of_mem_eq hp (retireOp_mem _ _ _ _ _)
  case case2 => exact memOk_of_mem_eq h (logPending_mem _ _ _)
  case case3 => exact h
  case case4 =>
    refine faultAt_memOk _ _ _ (memOk_of_mem_eq (noteOp_memOk v e.op h) ?_)
    split <;> simp +zetaDelta
  case case5 f t e' =>
    rw [e'] at hp
    exact faultAt_memOk _ _ _ (memOk_of_mem_eq hp (retireOp_mem _ _ _ _ _))

theorem performVia_memOk (delivered : Bool) (v : View) (i : Nat) (e : MqEntry) {s : State} (h : MemOk s) : MemOk (performVia delivered v i e s) := by
  fun_cases performVia
  · exact performAt_memOk _ _ _ h
  · exact performAt_memOk v i e (s := { s with silent := _ }) h

theorem execStoreAcknowledge_keeps (wave : Nat) (delivered : Bool) {s : State} (h : MemOk s) : Keeps (execStoreAcknowledge wave delivered s) := by
  fun_cases execStoreAcknowledge
  case case5 => exact performVia_memOk _ _ _ _ h
  all_goals exact h

theorem execReleasedQuernOperation_keeps (wave : Nat) {s : State} (h : MemOk s) : Keeps (execReleasedQuernOperation wave s) := by
  fun_cases execReleasedQuernOperation
  case case2 => exact performAt_memOk _ _ _ h
  all_goals exact h

theorem execSideLogReplay_keeps (wave : Acting) {s : State} (h : MemOk s) : Keeps (execSideLogReplay wave s) := by
  fun_cases execSideLogReplay
  case case2 => exact performVia_memOk _ _ _ _ h
  all_goals exact h

/-! ### Results that return -/

@[simp] theorem finishReturn_mem (key i : Nat) (r : Return) (s : State) : (finishReturn key i r s).mem = s.mem := modWave_mem _ _ _

@[simp] theorem badReturn_memOk (key i : Nat) (r : Return) (at_ : Nat × Nat) {s : State} (h : MemOk s) : MemOk (badReturn key i r at_ s) :=
  faultAt_memOk _ _ _ (memOk_of_mem_eq h (modWave_mem _ _ _))

theorem execLoadDataReturn_keeps (wave index : Nat) (arrival : Arrival) {s : State} (h : MemOk s) : Keeps (execLoadDataReturn wave index arrival s) := by
  fun_cases execLoadDataReturn <;> simp [MemOk, h]

theorem execMmioTimeout_keeps (wave index : Nat) {s : State} (h : MemOk s) : Keeps (execMmioTimeout wave index s) := by
  fun_cases execMmioTimeout <;> simp [MemOk, h]

end Sys2Proof.Machine
end
section
/-! SUPPORT. The form of device memory under the Sage's words and checks, the iterative functions, the matrix unit and the copy engine. -/
namespace Sys2Proof.Machine
open Sys2Proof

/-! ### Checks that go on or trap -/

@[simp] theorem recordProduction_mem (bk n : Nat) (t : TolNode) (s : State) : (recordProduction bk n t s).mem = s.mem := modBlock_mem _ _ _

theorem unmetCheck_keeps (v : View) (mask : Word32) (n : Nat) {go : Wave → State → Result} (hgo : ∀ w t, MemOk t → Keeps (go w t)) {s : State} (h : MemOk s) :
    Keeps (unmetCheck v mask n go s) := by
  fun_cases unmetCheck
  · exact raiseTrap_keeps _ _ _ hgo h
  · exact hgo _ _ h

theorem staleCheck_keeps (v : View) (mask : Word32) (owner : Block) (n : Nat) {go : Wave → State → Result} (hgo : ∀ w t, MemOk t → Keeps (go w t)) (w : Wave) {s : State}
    (h : MemOk s) : Keeps (staleCheck v mask owner n go w s) := by
  fun_cases staleCheck
  · exact hgo _ _ h
  · exact raiseTrap_keeps _ _ _ hgo h
  · exact hgo _ _ h

theorem staleOther_keeps (v : View) (mask : Word32) (first : Bool) (owner : Block) (n : Nat) {go : Wave → State → Result} (hgo : ∀ w t, MemOk t → Keeps (go w t)) (w : Wave)
    {s : State} (h : MemOk s) : Keeps (staleOther v mask first owner n go w s) := by
  fun_cases staleOther
  · exact hgo _ _ h
  · exact staleCheck_keeps _ _ _ _ hgo _ h

theorem staleSource_keeps (v : View) (mask : Word32) (src : Option Nat) {go : Wave → State → Result} (hgo : ∀ w t, MemOk t → Keeps (go w t)) (w : Wave) {s : State}
    (h : MemOk s) : Keeps (staleSource v mask src go w s) := by
  fun_cases staleSource
  · exact staleCheck_keeps _ _ _ _ hgo _ h
  · exact hgo _ _ h

@[simp] theorem lateResult_keeps (v : View) (d : Operand) (size : Nat) (mask : Word32) (lanes : List (Nat × Nat)) {s : State} (h : MemOk s) :
    Keeps (lateResult v d size mask lanes s) := h

/-- A read that holds its wave keeps the form where the word that reads does. -/
theorem heldRead_keeps (v : View) (ptr n : Nat) {s back : State} (h : MemOk s) {go : List Byte → State → Result} (hgo : ∀ bs t, MemOk t → Keeps (go bs t)) (hb : MemOk back) :
    Keeps (heldRead v ptr n s go back) := by
  fun_cases heldRead
  · exact issueFault_keeps _ _ (notePassed_memOk _ _ _ _ h) hb
  · exact hb
  · exact hb
  · exact hardFault_keeps _ _ (recordAccs_memOk _ _ _ _ h)
  · exact hgo _ _ (memOk_of_mem_eq (recordAccs_memOk _ _ _ _ h) (sendReads_mem _ _ _ _ _))

/-! ### Words of the Sage -/

theorem execDemand_keeps (q : QW) {s : State} (h : MemOk s) : Keeps (execDemand q s) := by
  refine viewWord_keeps _ _ _ (fun v m t ht => ?_) h
  exact keeps_ite (illegalWord_keeps _ ht) (memOk_of_mem_eq ht (modBlock_mem _ _ _))

theorem execTolrd_keeps (q : QW) {s : State} (h : MemOk s) : Keeps (execTolrd q s) := by
  refine viewWord_keeps _ _ _ (fun v m t ht => ?_) h
  exact keeps_ite (illegalWord_keeps _ ht) (lateResult_keeps _ _ _ _ _ ht)

theorem execToltab_keeps (q : QW) {s : State} (h : MemOk s) : Keeps (execToltab q s) := by
  refine viewWord_keeps _ _ _ (fun v m t ht => ?_) h
  generalize 1024 = n
  refine keeps_ite (illegalWord_keeps _ ht) (heldRead_keeps _ _ _ ht (fun bs u hu => ?_) ht)
  split
  · exact illegalWord_keeps _ hu
  · exact done_keeps _ (memOk_of_mem_eq hu (modBlock_mem _ _ _))

theorem iterWord_keeps (x : XW) (f : Nat → Nat → Nat) {s : State} (h : MemOk s) : Keeps (iterWord x f s) := by
  fun_cases iterWord
  · exact regWord_keeps _ _ _ _ h
  · refine viewWord_keeps _ _ _ (fun v m t ht => ?_) h
    split
    · exact illegalWord_keeps _ ht
    · refine unmetCheck_keeps _ _ _ (fun w u hu => ?_) ht
      exact memOk_of_mem_eq hu (recordProduction_mem _ _ _ _)

/-! ### Reservations and tiles -/

@[simp] theorem modRes_mem (bk n : Nat) (f : Res → Res) (s : State) : (modRes bk n f s).mem = s.mem := modBlock_mem _ _ _
@[simp] theorem bindTiles_mem (bk : Nat) (ts : List Nat) (s : State) : (bindTiles bk ts s).mem = s.mem := modBlock_mem _ _ _
@[simp] theorem joinLoops_mem (v : View) (s : State) : (joinLoops v s).mem = s.mem := modBlock_mem _ _ _
@[simp] theorem leaveLoops_mem (bk : Nat) (s : State) : (leaveLoops bk s).mem = s.mem := modBlock_mem _ _ _

/-- A word that ends with one change of its block. -/
theorem done_modBlock_keeps (key bk : Nat) (f : Block → Block) {s : State} (h : MemOk s) : Keeps (done key (modBlock bk f s)) :=
  done_keeps _ (memOk_of_mem_eq h (modBlock_mem _ _ _))

theorem execWres_keeps (q : QW) {s : State} (h : MemOk s) : Keeps (execWres q s) := by
  refine viewWord_keeps _ _ _ (fun v m t ht => ?_) h
  exact keeps_ite (illegalWord_keeps _ ht) (keeps_ite ht (done_modBlock_keeps _ _ _ ht))

theorem execWrel_keeps (q : QW) {s : State} (h : MemOk s) : Keeps (execWrel q s) := by
  refine viewWord_keeps _ _ _ (fun v m t ht => ?_) h
  exact keeps_ite (done_modBlock_keeps _ _ _ ht) ht

theorem execWstat_keeps (q : QW) {s : State} (h : MemOk s) : Keeps (execWstat q s) := by
  refine viewWord_keeps _ _ _ (fun v m t ht => ?_) h
  split <;> exact ht

theorem tileWord_keeps (v : View) (ts : List Nat) {go : State → Result} (hgo : ∀ t, MemOk t → Keeps (go t)) {s : State} (h : MemOk s) : Keeps (tileWord v ts go s) :=
  keeps_ite h (hgo _ (memOk_of_mem_eq h (bindTiles_mem _ _ _)))

theorem execCzero_keeps (q : QW) {s : State} (h : MemOk s) : Keeps (execCzero q s) := by
  refine viewWord_keeps _ _ _ (fun v m t ht => ?_) h
  exact tileWord_keeps _ _ (fun _ => done_modBlock_keeps _ _ _) ht

theorem caddFrom_keeps (q : QW) (own : Bool) (v : View) (src : Block) {s : State} (h : MemOk s) : Keeps (caddFrom q own v src s) :=
  keeps_ite (illegalWord_keeps _ h) (tileWord_keeps _ _ (fun _ => done_modBlock_keeps _ _ _) h)

theorem execCadd_keeps (q : QW) {s : State} (h : MemOk s) : Keeps (execCadd q s) := viewWord_keeps _ _ _ (fun _ _ _ => caddFrom_keeps _ _ _ _) h

theorem execCaddPeer_keeps (q : QW) {s : State} (h : MemOk s) : Keeps (execCaddPeer q s) := by
  refine viewWord_keeps _ _ _ (fun v m t ht => ?_) h
  split
  · exact illegalWord_keeps _ ht
  · exact caddFrom_keeps _ _ _ _ ht

theorem scaleTile_keeps (q : QW) (f : View → Word32 → Nat → Nat → Option Nat) {s : State} (h : MemOk s) : Keeps (scaleTile q f s) := by
  refine viewWord_keeps _ _ _ (fun v m t ht => ?_) h
  exact tileWord_keeps _ _ (fun _ => done_modBlock_keeps _ _ _) ht

theorem loadTile_keeps (col : Bool) (m : MW) {s : State} (h : MemOk s) : Keeps (loadTile col m s) := by
  refine viewWord_keeps _ _ _ (fun v mask t ht => ?_) h
  split
  · exact illegalWord_keeps _ ht
  · exact tileWord_keeps _ _ (fun _ => lateResult_keeps _ _ _ _ _) ht

theorem storeTile_keeps (col : Bool) (m : MW) {s : State} (h : MemOk s) : Keeps (storeTile col m s) := by
  refine viewWord_keeps _ _ _ (fun v mask t ht => ?_) h
  split
  · exact illegalWord_keeps _ ht
  · exact tileWord_keeps _ _ (fun _ => done_modBlock_keeps _ _ _) ht

/-! ### Loops and the quantizer -/

theorem mloopIssue_keeps (q : QW) (pk : Nat) (pb : Block) (v : View) (mask : Word32) {s : State} (h : MemOk s) : Keeps (mloopIssue q pk pb v mask s) := by
  fun_cases mloopIssue
  case case2 => exact illegalWord_keeps _ h
  case case4 =>
    refine staleCheck_keeps _ _ _ _ (fun w1 t1 h1 => staleOther_keeps _ _ _ _ _ (fun w2 t2 h2 => unmetCheck_keeps _ _ _ (fun w3 t3 h3 => ?_) h2) _ h1) _ h
    refine memOk_of_mem_eq h3 ?_
    dsimp only [putWave_mem]
    split <;> simp
  all_goals exact h

theorem execMloop_keeps (q : QW) {s : State} (h : MemOk s) : Keeps (execMloop q s) := viewWord_keeps _ _ _ (fun _ _ _ => mloopIssue_keeps _ _ _ _ _) h

theorem execMloopPeer_keeps (q : QW) {s : State} (h : MemOk s) : Keeps (execMloopPeer q s) := by
  refine viewWord_keeps _ _ _ (fun v m t ht => ?_) h
  split
  · exact illegalWord_keeps _ ht
  · exact mloopIssue_keeps _ _ _ _ _ ht

@[simp] theorem runLoop_mem (bk ct wa wb pk n a0 b0 : Nat) (s : State) : (runLoop bk ct wa wb pk n a0 b0 s).mem = s.mem := by
  fun_cases runLoop <;> simp +zetaDelta

theorem quantIssue_keeps (q : QW) (op : EngOp) (src : Option Nat) (range : Nat → Option FaultSpec) (lines : Nat → List Nat) (v : View) (mask : Word32) {s : State} (h : MemOk s) :
    Keeps (quantIssue q op src range lines v mask s) := by
  fun_cases quantIssue
  case case1 | case2 => exact h
  case case3 | case5 | case6 => exact illegalWord_keeps _ h
  case case4 => exact hardFault_keeps _ _ h
  case case7 =>
    refine staleSource_keeps _ _ _ (fun w1 t1 h1 => unmetCheck_keeps _ _ _ (fun w2 t2 h2 => ?_) h1) _ h
    refine memOk_of_mem_eq h2 ?_
    dsimp only [putWave_mem]
    split <;> simp

theorem execQcvt_keeps (q : QW) {s : State} (h : MemOk s) : Keeps (execQcvt q s) := by
  refine viewWord_keeps _ _ _ (fun v m t ht => ?_) h
  exact keeps_ite (illegalWord_keeps _ ht) (quantIssue_keeps _ _ _ _ _ _ _ ht)

theorem execQcvtW_keeps (q : QW) {s : State} (h : MemOk s) : Keeps (execQcvtW q s) := viewWord_keeps _ _ _ (fun _ _ _ => quantIssue_keeps _ _ _ _ _ _ _) h

@[simp] theorem quantWrite_mem (bk wd : Nat) (xs : Nat → Nat → FVal) (s : State) : (quantWrite bk wd xs s).mem = s.mem := modRes_mem _ _ _ _
@[simp] theorem runQuantW_mem (bk wd ws : Nat) (s : State) : (runQuantW bk wd ws s).mem = s.mem := by
  unfold runQuantW
  repeat' split
  all_goals simp

/-! ### What an engine's work leaves -/

/-- What a stretch of an engine's work leaves has its memory in the canonical form. -/
@[simp] def Worked.Ok : Worked → Prop
  | .done t => MemOk t
  | .part _ _ t => MemOk t
  | .fail _ t => MemOk t

theorem quantFrom_ok (v : View) (need : List Nat) (o : Older) (wd addr stride k n : Nat) {s : State} (h : MemOk s) : (quantFrom v need o wd addr stride k n s).Ok := by
  fun_induction quantFrom v need o wd addr stride k n s with
  | case6 _ _ _ _ _ _ _ _ _ _ ih => exact ih (memOk_of_mem_eq h (modRes_mem _ _ _ _))
  | _ => simpa [MemOk] using h

theorem runQuant_ok (v : View) (e : EngEntry) (o : Older) (wd addr stride n : Nat) {s : State} (h : MemOk s) : (runQuant v e o wd addr stride n s).Ok := by
  fun_cases runQuant
  · exact quantFrom_ok _ _ _ _ _ _ _ _ h
  · exact h

/-! ### Copy words -/

theorem copyIssue_keeps (v : View) (op : EngOp) (srcLines dstLines : List Nat) {s : State} (h : MemOk s) : Keeps (copyIssue v op srcLines dstLines s) :=
  keeps_ite h (memOk_of_mem_eq h (modBlock_mem _ _ _))

theorem execCpy_keeps (m : MW) {s : State} (h : MemOk s) : Keeps (execCpy m s) := by
  refine viewWord_keeps _ _ _ (fun v mask t ht => ?_) h
  refine keeps_ite (hardFault_keeps _ _ ht) (keeps_ite (copyIssue_keeps _ _ _ _ ht) ?_)
  split
  · exact hardFault_keeps _ _ ht
  · exact hardFault_keeps _ _ ht
  · exact keeps_ite (hardFault_keeps _ _ ht) (copyIssue_keeps _ _ _ _ ht)

theorem execCpyLane_keeps (m : MW) {s : State} (h : MemOk s) : Keeps (execCpyLane m s) := by
  refine viewWord_keeps _ _ _ (fun v mask t ht => ?_) h
  dsimp only
  split
  · exact hardFault_keeps _ _ ht
  · exact copyIssue_keeps _ _ _ _ ht

theorem cpytWord_keeps (m : MW) (srcs : List Src) {go : View → TableArgs → Nat → State → Result} (hgo : ∀ v p n t, MemOk t → Keeps (go v p n t)) {s : State} (h : MemOk s) :
    Keeps (cpytWord m srcs go s) := by
  refine viewWord_keeps _ _ _ (fun v mask t ht => ?_) h
  refine keeps_ite ?_ (hardFault_keeps _ _ ht)
  split
  · exact hardFault_keeps _ _ ht
  · exact hgo _ _ _ _ ht

theorem execCpyt_keeps (m : MW) {s : State} (h : MemOk s) : Keeps (execCpyt m s) := by
  refine cpytWord_keeps _ _ (fun v p table t ht => ?_) h
  dsimp only
  split
  · exact hardFault_keeps _ _ ht
  · exact copyIssue_keeps _ _ _ _ ht

theorem execCpytW_keeps (m : MW) {s : State} (h : MemOk s) : Keeps (execCpytW m s) := by
  refine cpytWord_keeps _ _ (fun v p table t ht => ?_) h
  dsimp only
  split
  · exact ht
  · exact keeps_ite ht (keeps_ite (hardFault_keeps _ _ ht) (keeps_ite ht (copyIssue_keeps _ _ _ _ (memOk_of_mem_eq ht (modRes_mem _ _ _ _)))))

/-! ### The copy engine at work -/

/-- What an operation of an engine or of Lovage leaves has its memory in the canonical form. -/
@[simp] def Run.Ok {α : Type} : Run α → Prop
  | .ok _ t => MemOk t
  | .fail _ t => MemOk t
  | .pending => True

theorem memOk_of_ok {α : Type} {r : Run α} (hr : r.Ok) {a : α} {t : State} (e : r = .ok a t) : MemOk t := by rwa [e] at hr
theorem memOk_of_fail {α : Type} {r : Run α} (hr : r.Ok) {f : FaultSpec} {t : State} (e : r = .fail f t) : MemOk t := by rwa [e] at hr

theorem andThen_ok {α β : Type} {r : Run α} (hr : r.Ok) {f : α → State → Run β} (hf : ∀ a t, MemOk t → (f a t).Ok) : (r.andThen f).Ok := by
  cases r with
  | ok a t => exact hf a t hr
  | pending => trivial
  | fail x t => exact hr

theorem writeParts_ok (v : View) (o : Older) (lane tag : Nat) (l : List (Nat × Nat)) (bs : List Byte) {s : State} (h : MemOk s) : (writeParts v o lane tag l bs s).Ok := by
  fun_induction writeParts v o lane tag l bs s with
  | case1 => exact h
  | case2 => trivial
  | case3 _ _ _ _ _ _ _ ih => exact ih (putAt_memOk _ _ _ _ h)
  | case4 => trivial
  | case5 => exact noteSpan_memOk _ _ _ _ h

theorem readParts_ok (v : View) (o : Older) (lane tag addr n : Nat) {s : State} (h : MemOk s) : (readParts v o lane tag addr n s).Ok := by
  fun_cases readParts
  · trivial
  · exact noteSpan_memOk _ _ _ _ h
  · trivial
  · exact memOk_of_mem_eq (recordAccs_memOk _ _ _ _ h) (sendReads_mem _ _ _ _ _)

@[simp] theorem fillFor_mem (bk : Nat) (ls : List Nat) (s : State) : (fillFor bk ls s).mem = s.mem := by simp [fillFor]

theorem finish_ok {f : State → State} (hf : ∀ t, (f t).mem = t.mem) {w : Worked} (h : w.Ok) : (w.finish f).Ok := by
  cases w with
  | done t => exact memOk_of_mem_eq h (hf t)
  | part op line t => exact h
  | fail x t => exact h

theorem readOr_ok (v : View) (e : EngEntry) (o : Older) (lane tag addr n : Nat) (here : EngOp) {go : List Byte → State → Worked} (hgo : ∀ bs t, MemOk t → (go bs t).Ok) {s : State}
    (h : MemOk s) : (readOr v e o lane tag addr n here go s).Ok := by
  have hr := readParts_ok v o lane tag addr n h
  fun_cases readOr
  · exact h
  · exact h
  · next e' _ =>
      rw [e'] at hr
      exact hgo _ _ hr
  · exact h
  · next e' _ =>
      rw [e'] at hr
      exact hr

theorem writeOr_ok {r : Run Unit} (hr : r.Ok) (here : EngOp) {back : State} (hb : MemOk back) {go : State → Worked} (hgo : ∀ t, MemOk t → (go t).Ok) : (writeOr r here back go).Ok := by
  cases r with
  | ok a t => exact hgo t hr
  | pending => exact hb
  | fail x t => exact hr

theorem cpyFrom_ok (v : View) (e : EngEntry) (o : Older) (dtag stag k dst src len : Nat) {s : State} (h : MemOk s) : (cpyFrom v e o dtag stag k dst src len s).Ok := by
  induction k generalizing dst src len s with
  | zero => exact h
  | succ k ih =>
    unfold cpyFrom
    split
    · exact h
    · exact readOr_ok _ _ _ _ _ _ _ _ (fun bs t ht => writeOr_ok (writeParts_ok _ _ _ _ _ _ ht) _ h (fun u hu => ih _ _ _ (memOk_of_mem_eq hu (fillFor_mem _ _ _)))) h

theorem lanesFrom_ok (v : View) (o : Older) (size : Nat) (l : List (CopyLane × List Byte)) {s : State} (h : MemOk s) : (lanesFrom v o size l s).Ok := by
  induction l generalizing s with
  | nil => exact h
  | cons x rest ih => exact writeOr_ok (writeParts_ok _ _ _ _ _ _ h) _ h (fun t ht => ih (memOk_of_mem_eq ht (fillFor_mem _ _ _)))

theorem runCpyLane_ok (v : View) (e : EngEntry) (o : Older) (size : Nat) (lanes : List CopyLane) (data : Option (List (List Byte))) {s : State} (h : MemOk s) :
    (runCpyLane v e o size lanes data s).Ok := by
  fun_cases runCpyLane
  case case1 => exact lanesFrom_ok _ _ _ _ h
  case case4 => exact memOk_foldl (fun _ _ => noteSpan_memOk _ _ _ _) _ h
  case case7 =>
    refine lanesFrom_ok _ _ _ _ (memOk_foldl (fun t l ht => ?_) _ h)
    exact memOk_of_mem_eq (recordAccs_memOk _ _ _ _ ht) (sendReads_mem _ _ _ _ _)
  all_goals exact h

/-- A table copy keeps the form where the way it writes a row does. -/
theorem rowsFrom_ok (v : View) (e : EngEntry) (o : Older) (table ttag rpb rb : Nat) (here : Nat → Nat → Nat → Option (Nat × Nat) → EngOp)
    {put : Nat → List Byte → State → Run Unit} (hput : ∀ p bs t, MemOk t → (put p bs t).Ok) {filled : Nat → Nat → State → State} (hf : ∀ p n t, (filled p n t).mem = t.mem)
    (n p row : Nat) (last : Option (Nat × Nat)) {s : State} (h : MemOk s) : (rowsFrom v e o table ttag rpb rb here put filled n p row last s).Ok := by
  induction n generalizing p row last s with
  | zero => exact h
  | succ n ih =>
    have copy (ent : Nat) (point : EngOp) {t : State} (ht : MemOk t) :
        (readOr v e o 0 (ptrTag ent) ((ptrAddr ent + row % rpb * rb) % 2 ^ 60) rb point (fun bs u =>
          writeOr (put p bs u) point t (fun x => rowsFrom v e o table ttag rpb rb here put filled n (p + rb) (row + 1) (some (row / rpb, ent)) (filled p n x))) t).Ok :=
      readOr_ok _ _ _ _ _ _ _ _ (fun bs u hu => writeOr_ok (hput _ _ _ hu) _ ht (fun x hx => ih _ _ _ (memOk_of_mem_eq hx (hf _ _ _)))) ht
    have entry := readOr_ok v e o 0 ttag (table + 8 * (row / rpb)) 8 (here p (n + 1) row last) (fun bs t ht => copy (bytesToNat bs) (here p (n + 1) row (some (row / rpb, bytesToNat bs))) ht) h
    unfold rowsFrom
    dsimp only
    split
    · split
      · exact copy _ _ h
      · exact entry
    · exact entry

theorem runCpyt_ok (v : View) (e : EngEntry) (o : Older) (dst dtag table ttag rpb rb n first : Nat) (last : Option (Nat × Nat)) {s : State} (h : MemOk s) :
    (runCpyt v e o dst dtag table ttag rpb rb n first last s).Ok :=
  rowsFrom_ok _ _ _ _ _ _ _ _ (fun _ _ _ => writeParts_ok _ _ _ _ _ _) (fun _ _ _ => fillFor_mem _ _ _) _ _ _ _ h

theorem runCpytW_ok (v : View) (e : EngEntry) (o : Older) (res off table ttag rpb rb n first : Nat) (last : Option (Nat × Nat)) {s : State} (h : MemOk s) :
    (runCpytW v e o res off table ttag rpb rb n first last s).Ok := by
  refine finish_ok (modRes_mem _ _ _) (rowsFrom_ok _ _ _ _ _ _ _ _ (fun p bs t ht => ?_) (fun _ _ _ => rfl) _ _ _ _ h)
  exact memOk_of_mem_eq ht (modRes_mem _ _ _ _)

end Sys2Proof.Machine
end
section
/-! SUPPORT. The form of device memory under the key store's words, Lovage and the gather engine, and the retiring of engine operations. -/
namespace Sys2Proof.Machine
open Sys2Proof

/-! ### Words of the key store -/

theorem withDesc_keeps (v : View) (ptr : Nat) {go : KvDesc → List Word64 → State → Result} (hgo : ∀ d ws t, MemOk t → Keeps (go d ws t)) {s : State} (h : MemOk s) :
    Keeps (withDesc v ptr s go) := by
  unfold withDesc
  refine keeps_ite (illegalWord_keeps _ h) (heldRead_keeps _ _ _ h (fun bs t ht => ?_) h)
  exact keeps_ite (hgo _ _ _ ht) (illegalWord_keeps _ ht)

theorem withHead_keeps (v : View) (d : KvDesc) (n : Nat) {s back : State} (h : MemOk s) {go : HeadRec → State → Result} (hgo : ∀ r t, MemOk t → Keeps (go r t)) (hb : MemOk back) :
    Keeps (withHead v d n s go back) := by
  unfold withHead
  refine keeps_ite (illegalWord_keeps _ h) (heldRead_keeps _ _ _ h (fun bs t ht => ?_) hb)
  exact keeps_ite (hgo _ _ ht) (illegalWord_keeps _ ht)

@[simp] theorem modRegion_mem (asid step : Nat) (f : Region → Region) (s : State) : (modRegion asid step f s).mem = s.mem := modCtx_mem _ _ _

theorem servedOp_allOk (key addr : Nat) {s : State} (h : MemOk s) : AllOk (servedOp key addr s) := by
  fun_cases servedOp
  · exact quernOp_allOk _ _ _ _ _ _ _ _ h
  · exact h

/-- The body is taken for the function as a whole, and the entry's address then for any address: unfolded at its arguments it makes the kernel compute that address in unary. -/
theorem appendEntry_keeps (v : View) (d : KvDesc) (ws : List Word64) (bytes : List Byte) {s back : State} (h : MemOk s) (hb : MemOk back) :
    Keeps (appendEntry v d ws bytes s back) := by
  generalize hf : @appendEntry = f
  delta appendEntry at hf
  subst hf
  beta_reduce
  extract_lets -underBinder core r slot p chk
  clear_value p chk
  split
  · exact issueFault_keeps _ _ (notePassed_memOk _ _ _ _ h) hb
  · exact keeps_ite hb (queueOp_keeps _ _ _ _ _ _ (memOk_of_mem_eq h (modRegion_mem _ _ _ _)))

theorem execKappend_keeps (k : KW) {s : State} (h : MemOk s) : Keeps (execKappend k s) := by
  refine viewWord_keeps _ _ _ (fun v m t ht => ?_) h
  refine withDesc_keeps _ _ (fun d ws u hu => ?_) ht
  refine keeps_ite (illegalWord_keeps _ hu) (withHead_keeps _ _ _ hu (fun hr x hx => ?_) ht)
  refine keeps_ite ht ?_
  split
  · exact hardFault_keeps _ _ hx
  · exact keeps_ite ht (appendEntry_keeps _ _ _ _ hx ht)

theorem execKstep_keeps (k : KW) {s : State} (h : MemOk s) : Keeps (execKstep k s) := by
  refine viewWord_keeps _ _ _ (fun v m t ht => ?_) h
  refine keeps_ite ht (withDesc_keeps _ _ (fun d ws u hu => ?_) ht)
  split
  · exact hardFault_keeps _ _ hu
  · exact memOk_of_mem_eq hu (modRegion_mem _ _ _ _)

theorem execKsig_keeps (k : KW) {s : State} (h : MemOk s) : Keeps (execKsig k s) := by
  refine viewWord_keeps _ _ _ (fun v m t ht => ?_) h
  refine withDesc_keeps _ _ (fun d ws u hu => ?_) ht
  refine keeps_ite (illegalWord_keeps _ hu) (withHead_keeps _ _ _ hu (fun hr x hx => ?_) ht)
  exact keeps_ite ht (lateResult_keeps _ _ _ _ _ hx)

theorem putResult_keeps (v : View) (d : Operand) (x : Nat) {s : State} (h : MemOk s) : Keeps (putResult v d x s) := h

theorem execKslot_keeps (k : KW) {s : State} (h : MemOk s) : Keeps (execKslot k s) := by
  refine viewWord_keeps _ _ _ (fun v m t ht => ?_) h
  refine withDesc_keeps _ _ (fun d ws u hu => ?_) ht
  exact keeps_ite (illegalWord_keeps _ hu) (putResult_keeps _ _ _ hu)

theorem execKstat_keeps (k : KW) {s : State} (h : MemOk s) : Keeps (execKstat k s) := by
  refine viewWord_keeps _ _ _ (fun v m t ht => ?_) h
  refine withDesc_keeps _ _ (fun d ws u hu => keeps_ite (illegalWord_keeps _ hu) ?_) ht
  split
  · exact hardFault_keeps _ _ hu
  · refine keeps_ite (putResult_keeps _ _ _ hu) ?_
    have hs := servedOp_allOk v.key d.step hu
    split
    · next e => exact putResult_keeps _ _ _ (memOk_of_some hs e)
    · exact ht

/-! ### Lovage's accesses -/

theorem lovageRead_ok (asid ptr n : Nat) {s : State} (h : MemOk s) : (lovageRead asid ptr n s).Ok := by
  fun_cases lovageRead <;> simp [MemOk, recordAccess_memOk, h]

theorem lovageWrite_ok (asid ptr : Nat) (bs : List Byte) {s : State} (h : MemOk s) : (lovageWrite asid ptr bs s).Ok := by
  fun_cases lovageWrite <;> simp [MemOk, ctxPut_memOk, h]

theorem lovageNat_ok (asid ptr n : Nat) {s : State} (h : MemOk s) : (lovageNat asid ptr n s).Ok := andThen_ok (lovageRead_ok _ _ _ h) (fun _ _ => id)

theorem lovageQueue_ok {α : Type} (key asid q : Nat) {s : State} (h : MemOk s) {go : State → Run α} (hgo : ∀ t, MemOk t → (go t).Ok) : (lovageQueue key asid q s go).Ok := by
  have hs := servedOp_allOk key q h
  fun_cases lovageQueue
  · exact h
  · next e => exact hgo _ (memOk_of_some hs e)
  · trivial

theorem lovagePop_ok (key asid q : Nat) {s : State} (h : MemOk s) : (lovagePop key asid q s).Ok := by
  refine lovageQueue_ok _ _ _ h (fun t ht => ?_)
  split
  · next e => exact memOk_of_mem_eq ht (popItem_mem e)
  · exact memOk_of_mem_eq ht (touchQueue_mem _ _ _)

theorem lovagePush_ok (key asid q x : Nat) {s : State} (h : MemOk s) : (lovagePush key asid q x s).Ok := by
  refine lovageQueue_ok _ _ _ h (fun t ht => ?_)
  exact memOk_of_mem_eq ht (pushItem_mem _ _ _ _ _)

theorem run_ok_ite {α : Type} {p : Prop} [Decidable p] {a b : Run α} (ha : a.Ok) (hb : b.Ok) : (if p then a else b).Ok := by
  split <;> assumption

/-! ### Buckets and gathers -/

theorem walkChain_ok (asid tag n next : Nat) (acc : List Bucket) {s : State} (h : MemOk s) : (walkChain asid tag n next acc s).Ok := by
  induction n generalizing next acc s with
  | zero => exact h
  | succ n ih =>
    unfold walkChain
    exact run_ok_ite h (andThen_ok (lovageRead_ok _ _ _ h) (fun bs t ht => run_ok_ite ht (ih _ _ ht)))

theorem walkBucket_ok (asid ptr : Nat) {s : State} (h : MemOk s) : (walkBucket asid ptr s).Ok :=
  andThen_ok (lovageRead_ok _ _ _ h) (fun _ _ ht => run_ok_ite ht (walkChain_ok _ _ _ _ _ ht))

theorem livePos_ok (asid : Nat) (d : KvDesc) (n e : Nat) {s : State} (h : MemOk s) : (livePos asid d n e s).Ok :=
  run_ok_ite h (andThen_ok (lovageNat_ok _ _ _ h) (fun _ _ => id))

theorem liveOf_ok (asid : Nat) (d : KvDesc) (n : Nat) (l : List Nat) {s : State} (h : MemOk s) : (liveOf asid d n l s).Ok := by
  induction l generalizing s with
  | nil => exact h
  | cons e rest ih => exact andThen_ok (livePos_ok _ _ _ _ h) (fun p t ht => andThen_ok (ih ht) (fun _ _ => id))

theorem gather_ok (asid : Nat) (d : KvDesc) (r : HeadRec) (hd sig n t : Nat) (g : Gathered) {s : State} (h : MemOk s) : (gather asid d r hd sig n t g s).Ok := by
  induction n generalizing t g s with
  | zero => exact h
  | succ n ih => exact andThen_ok (walkBucket_ok _ _ h) (fun w s1 h1 => andThen_ok (liveOf_ok _ _ _ _ h1) (fun xs s2 h2 => ih _ _ h2))

theorem registers_keeps (v : View) (d : KvDesc) {s back : State} (h : MemOk s) {go : State → Result} (hgo : ∀ t, MemOk t → Keeps (go t)) (hb : MemOk back) :
    Keeps (registers v d s go back) := by
  have hs := servedOp_allOk v.key d.step h
  fun_cases registers
  · exact hardFault_keeps _ _ h
  · exact hb
  · next e => exact hgo _ (memOk_of_some hs e)
  · exact hb

theorem takesLines_keeps (v : View) (lines : List Nat) {s back : State} (h : MemOk s) {go : State → Result} (hgo : ∀ t, MemOk t → Keeps (go t)) (hb : MemOk back) :
    Keeps (takesLines v lines s go back) := keeps_ite hb (hgo _ (memOk_of_mem_eq h (modBlock_mem _ _ _)))

theorem gathered_keeps (k : KW) (v : View) (d : KvDesc) (q dptr : Nat) (m : Word32) (g : Gathered) {s back : State} (h : MemOk s) (hb : MemOk back) :
    Keeps (gathered k v d q dptr m g s back) := by
  have list (lines : List Nat) (edit : Wave) (f : Region → Region) {t : State} (ht : MemOk t) :
      Keeps (takesLines v lines t (fun u => .next (putWave v.key edit (modRegion v.g.asid d.step f u))) back) :=
    takesLines_keeps _ _ ht (fun u hu => memOk_of_mem_eq hu (modRegion_mem _ _ _ _)) hb
  unfold gathered
  refine keeps_ite (raiseTrap_keeps _ _ _ (fun w t ht => ?_) h) ?_
  · exact list _ _ _ ht
  · exact list _ _ _ h

theorem execKgather_keeps (k : KW) {s : State} (h : MemOk s) : Keeps (execKgather k s) := by
  refine viewWord_keeps _ _ _ (fun v m t ht => ?_) h
  refine withDesc_keeps _ _ (fun d ws x hx => withHead_keeps _ _ _ hx (fun hr y hy => ?_) ht) ht
  refine keeps_ite (illegalWord_keeps _ hy) (keeps_ite (hardFault_keeps _ _ hy) (registers_keeps _ _ hy (fun z hz => ?_) ht))
  have hg := gather_ok v.g.asid d hr k.head.toNat (valK v.w k k.b) hr.nl 0 { u := [], brk := false, chl := false } hz
  split
  · exact ht
  · next e =>
    rw [e] at hg
    exact hardFault_keeps _ _ hg
  · next e =>
    rw [e] at hg
    exact gathered_keeps _ _ _ _ _ _ _ hg ht

/-! ### Fetches -/

theorem rowRead_ok (asid : Nat) (d : KvDesc) (hd : Nat) (values : Bool) (r : RowSnap) {s : State} (h : MemOk s) : (rowRead asid d hd values r s).Ok := by
  fun_cases rowRead
  case case1 => exact h
  case case2 => exact andThen_ok (lovageNat_ok _ _ _ h) (fun _ _ => id)
  case case3 => exact andThen_ok (lovageNat_ok _ _ _ h) (fun _ _ => id)
  case case4 =>
    exact andThen_ok (lovageRead_ok _ _ _ h) (fun bs t ht => andThen_ok (run_ok_ite (a := .ok 0 t) ht (lovageNat_ok _ _ _ ht)) (fun _ _ => id))
  case case5 => exact h

theorem rowStep_ok (asid : Nat) (d : KvDesc) (hd : Nat) (values : Bool) (r : RowSnap) {s : State} (h : MemOk s) : (rowStep asid d hd values r s).Ok := by
  fun_cases rowStep
  · exact andThen_ok (rowRead_ok _ _ _ _ _ h) (fun _ _ => id)
  · exact rowRead_ok _ _ _ _ _ h

theorem readRow_ok (asid : Nat) (d : KvDesc) (hd : Nat) (values : Bool) (r : RowSnap) {s : State} (h : MemOk s) : (readRow asid d hd values r s).Ok :=
  andThen_ok (rowStep_ok _ _ _ _ _ h) (fun _ _ ht => andThen_ok (rowStep_ok _ _ _ _ _ ht) (fun _ _ => rowStep_ok _ _ _ _ _))

theorem snapRow_memOk (asid : Nat) (d : KvDesc) (hd : Nat) (values : Bool) (n : Nat) (r : RowSnap) {s : State} (h : MemOk s) : MemOk (snapRow asid d hd values n r s).2 := by
  fun_induction snapRow asid d hd values n r s with
  | case1 => exact h
  | case2 n r s a t e ih => exact ih (by simpa [e] using rowStep_ok asid d hd values r h)
  | case3 => exact h

theorem snapRows_memOk (asid : Nat) (d : KvDesc) (hd : Nat) (values : Bool) (l : List Nat) {s : State} (h : MemOk s) : MemOk (snapRows asid d hd values l s).2 := by
  induction l generalizing s with
  | nil => exact h
  | cons e rest ih => exact ih (snapRow_memOk _ _ _ _ _ _ h)

theorem fetchGo_keeps (k : KW) (v : View) (d : KvDesc) (ws : List Word64) (values : Bool) (dest : FetchDest) (ents lines : List Nat) {mark : State → State}
    (hm : ∀ t, (mark t).mem = t.mem) {s back : State} (h : MemOk s) (hb : MemOk back) : Keeps (fetchGo k v d ws values dest ents lines mark s back) := by
  refine registers_keeps _ _ h (fun t ht => takesLines_keeps _ _ ht (fun u hu => ?_) hb) hb
  have hs := snapRows_memOk v.g.asid d k.head.toNat values ents hu
  exact memOk_of_mem_eq hs (by simp [hm])

theorem fetchRes_keeps (v : View) (p : FetchArgs) (d : KvDesc) (columns : Bool) {s back : State} (h : MemOk s) {go : Res → Result} (hgo : ∀ r, Keeps (go r)) (hb : MemOk back) :
    Keeps (fetchRes v p d columns s go back) := by
  fun_cases fetchRes
  · exact hb
  · exact hb
  · exact illegalWord_keeps _ h
  · exact hgo _

theorem withList_keeps (v : View) (l : Nat) (p : FetchArgs) {s back : State} (h : MemOk s) {go : List Nat → State → Result} (hgo : ∀ es t, MemOk t → Keeps (go es t)) (hb : MemOk back) :
    Keeps (withList v l p s go back) := by
  unfold withList
  refine heldRead_keeps _ _ _ h (fun hd t ht => ?_) hb
  refine keeps_ite (illegalWord_keeps _ ht) (heldRead_keeps _ _ _ ht (fun bs u hu => ?_) hb)
  exact hgo _ _ hu

theorem fetchWord_keeps (sub : Nat) (k : KW) {s : State} (h : MemOk s) : Keeps (fetchWord sub k s) := by
  refine viewWord_keeps _ _ _ (fun v m t ht => ?_) h
  refine withDesc_keeps _ _ (fun d ws x hx => withHead_keeps _ _ _ hx (fun hr y hy => ?_) ht) ht
  refine keeps_ite (illegalWord_keeps _ hy) (withList_keeps _ _ _ hy (fun ents z hz => ?_) ht)
  refine keeps_ite (keeps_ite (hardFault_keeps _ _ hz) (fetchGo_keeps _ _ _ _ _ _ _ _ (fun _ => rfl) hz ht)) (fetchRes_keeps _ _ _ _ hz (fun r => ?_) ht)
  exact fetchGo_keeps _ _ _ _ _ _ _ _ (modRes_mem _ _ _) hz ht

end Sys2Proof.Machine
end
section
/-! SUPPORT. The form of device memory under Lovage's arrivals and filing, the gather engine, and the retiring of engine operations. -/
namespace Sys2Proof.Machine
open Sys2Proof

/-! ### Arrival and rows -/

theorem arrive_memOk (asid step : Nat) (c : Ctx) (e : JEntry) {s : State} (h : MemOk s) : MemOk (arrive asid step c e s) := by
  simp [arrive, MemOk, ctxPut_memOk, h]

theorem execAppendArrival_keeps (asid step core : Nat) {s : State} (h : MemOk s) : Keeps (execAppendArrival asid step core s) := by
  fun_cases execAppendArrival
  case case3 c _ _ _ e _ _ =>
    exact getD_memOk (allOk_map (servedOp_allOk e.wave step h) (fun _ => arrive_memOk _ _ _ _)) h
  all_goals exact h

theorem newScale_ok (asid sec n m : Nat) (e : Int) (sc : Nat) {s : State} (h : MemOk s) : (newScale asid sec n m e sc s).Ok := by
  fun_cases newScale
  case case1 => exact andThen_ok (lovageWrite_ok _ _ _ h) (fun _ _ => id)
  case case4 =>
    refine andThen_ok (lovageRead_ok _ _ _ h) (fun bs t ht => andThen_ok (lovageWrite_ok _ _ _ ht) (fun _ u hu => ?_))
    exact andThen_ok (lovageWrite_ok _ _ _ hu) (fun _ _ => id)
  all_goals exact h

theorem fileRows_ok (asid : Nat) (d : KvDesc) (sec row : Nat) (key val : List FVal) {s : State} (h : MemOk s) : (fileRows asid d sec row key val s).Ok := by
  have put (k v : List Byte) (p q : Nat) {t : State} (ht : MemOk t) : ((lovageWrite asid p k t).andThen (fun _ u => lovageWrite asid q v u)).Ok :=
    andThen_ok (lovageWrite_ok _ _ _ ht) (fun _ _ => lovageWrite_ok _ _ _)
  fun_cases fileRows
  · exact put _ _ _ _ h
  · exact andThen_ok (lovageNat_ok _ _ _ h) (fun sc t ht => andThen_ok (newScale_ok _ _ _ _ _ _ ht) (fun c u hu => put _ _ _ _ hu))

/-! ### Linking -/

theorem freeBlockFor_ok (key asid : Nat) (d : KvDesc) (tag : Nat) {s : State} (h : MemOk s) : (freeBlockFor key asid d tag s).Ok := by
  refine run_ok_ite h (andThen_ok (lovagePop_ok _ _ _ h) (fun x t ht => ?_))
  split
  · exact ht
  · refine run_ok_ite ?_ ht
    split
    · exact ht
    · trivial
    · exact ht

theorem putBuckets_ok (asid : Nat) (l : List Bucket) {s : State} (h : MemOk s) : (putBuckets asid l s).Ok := by
  induction l generalizing s with
  | nil => exact h
  | cons b rest ih => exact andThen_ok (lovageWrite_ok _ _ _ h) (fun _ _ => ih)

theorem returnBlocks_ok (key asid q : Nat) (l : List Bucket) {s : State} (h : MemOk s) : (returnBlocks key asid q l s).Ok := by
  induction l generalizing s with
  | nil => exact h
  | cons b rest ih => exact andThen_ok (lovagePush_ok _ _ _ _ h) (fun _ _ => ih)

theorem compact_ok (key asid : Nat) (d : KvDesc) (hd tag e : Nat) (bs : List Bucket) {s : State} (h : MemOk s) : (compact key asid d hd tag e bs s).Ok := by
  refine andThen_ok (liveOf_ok _ _ _ _ h) (fun live t ht => andThen_ok (returnBlocks_ok _ _ _ _ ht) (fun _ u hu => ?_))
  refine run_ok_ite (putBuckets_ok _ _ hu) (andThen_ok (freeBlockFor_ok _ _ _ _ hu) (fun x y hy => ?_))
  split <;> exact putBuckets_ok _ _ hy

theorem linkEntry_ok (key asid : Nat) (d : KvDesc) (hd ptr e : Nat) {s : State} (h : MemOk s) : (linkEntry key asid d hd ptr e s).Ok := by
  refine andThen_ok (walkBucket_ok _ _ h) (fun w t ht => run_ok_ite (lovageWrite_ok _ _ _ ht) ?_)
  split
  · exact ht
  · exact run_ok_ite (lovageWrite_ok _ _ _ ht) (compact_ok _ _ _ _ _ _ _ ht)

theorem linkAll_ok (key asid : Nat) (d : KvDesc) (r : HeadRec) (hd sig e n t : Nat) {s : State} (h : MemOk s) : (linkAll key asid d r hd sig e n t s).Ok := by
  induction n generalizing t s with
  | zero => exact h
  | succ n ih => exact andThen_ok (linkEntry_ok _ _ _ _ _ _ h) (fun _ _ => ih _)

/-! ### Filing -/

theorem fileEntry_ok (key asid : Nat) (d : KvDesc) (x : Filed) {s : State} (h : MemOk s) : (fileEntry key asid d x s).Ok := by
  refine andThen_ok (lovageNat_ok _ _ _ h) (fun page t ht => andThen_ok (fileRows_ok _ _ _ _ _ _ ht) (fun _ u hu => ?_))
  refine andThen_ok (lovageWrite_ok _ _ _ hu) (fun _ y hy => andThen_ok (lovageRead_ok _ _ _ hy) (fun bs z hz => ?_))
  exact linkAll_ok _ _ _ _ _ _ _ _ _ hz

@[simp] theorem stepFault_memOk (key : Nat) (f : FaultSpec) {s : State} (h : MemOk s) : MemOk (stepFault key f s) := by
  fun_cases stepFault <;> simp [MemOk, h]

theorem orFault_allOk (key : Nat) {r : Run Unit} (hr : r.Ok) : AllOk (orFault key r) := by
  cases r with
  | ok a t => exact hr
  | pending => trivial
  | fail f t => exact stepFault_memOk _ _ hr

/-- Where the journal is read, the state it leaves has its memory in the canonical form. -/
def JournalOk (r : Option (List Filed × State)) : Prop := ∀ xs t, r = some (xs, t) → MemOk t

theorem readJournal_ok (asid key : Nat) (l : List JEntry) (acc : List Filed) {s : State} (h : MemOk s) : JournalOk (readJournal asid key l acc s) := by
  fun_induction readJournal asid key l acc s with
  | case1 =>
    rintro _ _ ⟨⟩
    exact h
  | case2 e rest acc s d bs t e' ih => exact ih (memOk_of_ok (lovageRead_ok _ _ _ h) e')
  | case3 => nofun
  | case4 e rest acc s d f t e' ih => exact ih (stepFault_memOk _ _ (memOk_of_fail (lovageRead_ok _ _ _ h) e'))

theorem fileAll_allOk (asid key : Nat) (d : KvDesc) (l : List Filed) {s : State} (h : MemOk s) : AllOk (fileAll asid key d l s) := by
  fun_induction fileAll asid key d l s with
  | case1 => exact h
  | case2 x rest s t e ih => exact ih (memOk_of_some (orFault_allOk key (fileEntry_ok key asid d x h)) e)
  | case3 => trivial

theorem reopen_allOk (asid step : Nat) (now : Word64) (key : Nat) {s : State} (h : MemOk s) : AllOk (reopen asid step now key s) :=
  allOk_map (servedOp_allOk _ _ h) (fun t ht => memOk_of_mem_eq ht (by simp [finishKstep]))

@[simp] theorem noteFirst_memOk (asid ptr : Nat) {s : State} (h : MemOk s) : MemOk (noteFirst asid ptr s) := by
  fun_cases noteFirst <;> simp [MemOk, h]

theorem stepJournal_ok (asid key : Nat) (bad : Bool) (es : List JEntry) {s : State} (h : MemOk s) : JournalOk (stepJournal asid key bad es s) := by
  fun_cases stepJournal
  · exact readJournal_ok _ _ _ _ (stepFault_memOk _ _ (noteFirst_memOk _ _ h))
  · exact readJournal_ok _ _ _ _ h
  · rintro _ _ ⟨⟩
    exact h

theorem execStepFiling_keeps (asid : Nat) (step : Acting) {s : State} (h : MemOk s) : Keeps (execStepFiling asid step s) := by
  fun_cases execStepFiling
  case case5 r key ws rest _ _ now xs t e u e' =>
    have ht := stepJournal_ok _ _ _ _ h _ _ e
    have hu : MemOk u := memOk_of_some (fileAll_allOk asid key (kvDesc ws) xs ht) e'
    exact getD_memOk (reopen_allOk _ _ _ _ hu) h
  all_goals exact h

/-! ### Fetches at work -/

theorem logMiss_ok (v : View) (d : KvDesc) (hd page : Nat) {s : State} (h : MemOk s) : (logMiss v d hd page s).Ok := by
  have h1 : MemOk (modWave v.key (fun w => { w with tierMiss := w.tierMiss + 1 }) s) := memOk_of_mem_eq h (modWave_mem _ _ _)
  refine run_ok_ite h1 (lovageQueue_ok _ _ _ h1 (fun t ht => ?_))
  split
  · exact ht
  · refine run_ok_ite ht ?_
    exact memOk_of_mem_eq ht (pushItem_mem _ _ _ _ _)

theorem pageIn_ok (key asid : Nat) (d : KvDesc) (bte page : Nat) (row : Nat → Nat) (n : Nat) (held : State → Nat → Nat → Bool) {s : State} (h : MemOk s) :
    (pageIn key asid d bte page row n held s).Ok := by
  refine run_ok_ite h ?_
  split
  · trivial
  · exact h
  · refine andThen_ok (lovageNat_ok _ _ _ h) (fun now t ht => run_ok_ite ht (andThen_ok (lovagePop_ok _ _ _ ht) (fun x u hu => ?_)))
    split
    · exact hu
    · refine run_ok_ite hu (run_ok_ite trivial (andThen_ok (lovageRead_ok _ _ _ hu) (fun bs y hy => ?_)))
      refine andThen_ok (lovageWrite_ok _ _ _ hy) (fun _ z hz => andThen_ok (lovageWrite_ok _ _ _ hz) (fun _ a ha => ?_))
      exact andThen_ok (lovageRead_ok _ _ _ ha) (fun _ _ => id)

theorem noteMiss_ok (v : View) (d : KvDesc) (hd : Nat) (r : RowSnap) (missed : List Nat) {s : State} (h : MemOk s) : (noteMiss v d hd r missed s).Ok := by
  fun_cases noteMiss
  · exact andThen_ok (logMiss_ok _ _ _ _ h) (fun _ _ => id)
  · exact h
  · exact h

theorem rowValues_ok (v : View) (o : Older) (d : KvDesc) (hd : Nat) (values : Bool) (r : RowSnap) {s : State} (h : MemOk s) : (rowValues v o d hd values r s).Ok := by
  fun_cases rowValues
  · exact h
  · exact andThen_ok (pageIn_ok _ _ _ _ _ _ _ _ h) (fun _ _ => id)
  · exact h

@[simp] theorem placeRow_mem (v : View) (d : KvDesc) (dest : FetchDest) (j left : Nat) (xs : List FVal) (s : State) : (placeRow v d dest j left xs s).mem = s.mem := by
  fun_cases placeRow <;> simp
@[simp] theorem fetchDone_mem (v : View) (dest : FetchDest) (s : State) : (fetchDone v dest s).mem = s.mem := by
  fun_cases fetchDone <;> simp
@[simp] theorem leaveRegion_mem (asid step : Nat) (s : State) : (leaveRegion asid step s).mem = s.mem := modRegion_mem _ _ _ _

theorem fetchFrom_ok (v : View) (o : Older) (desc : List Word64) (hd : Nat) (values : Bool) (dest : FetchDest) (l : List RowSnap) (j : Nat) (missed : List Nat) {s : State} (h : MemOk s) :
    (fetchFrom v o desc hd values dest l j missed s).Ok := by
  induction l generalizing j missed s with
  | nil => exact memOk_of_mem_eq h (by simp)
  | cons r rest ih =>
    have hr := readRow_ok v.g.asid (kvDesc desc) hd values r h
    unfold fetchFrom
    dsimp only
    split
    · exact h
    · split
      · exact snapRow_memOk _ _ _ _ _ _ h
      · next e =>
        rw [e] at hr
        exact memOk_of_mem_eq hr (leaveRegion_mem _ _ _)
      · next a t e =>
        rw [e] at hr
        have hm := noteMiss_ok v (kvDesc desc) hd a missed hr
        split
        · exact hr
        · next e =>
          rw [e] at hm
          exact memOk_of_mem_eq hm (leaveRegion_mem _ _ _)
        · next x u e =>
          rw [e] at hm
          have hv := rowValues_ok v o (kvDesc desc) hd values x.1 hm
          split
          · exact hm
          · next e =>
            rw [e] at hv
            exact memOk_of_mem_eq hv (leaveRegion_mem _ _ _)
          · next e =>
            rw [e] at hv
            exact ih _ _ (memOk_of_mem_eq hv (placeRow_mem _ _ _ _ _ _ _))

/-! ### Retiring -/

theorem worked_ok_ite {p : Prop} [Decidable p] {a b : Worked} (ha : a.Ok) (hb : b.Ok) : (if p then a else b).Ok := by
  split <;> assumption

theorem runList_ok (v : View) (o : Older) (addr : Nat) (bytes : List Byte) (step : Nat) {s : State} (h : MemOk s) : (runList v o addr bytes step s).Ok :=
  worked_ok_ite h (memOk_of_mem_eq h (by simp))

theorem runEng_ok (v : View) (e : EngEntry) {s : State} (h : MemOk s) : (runEng v e s).Ok := by
  fun_cases runEng
  case case1 => exact cpyFrom_ok _ _ _ _ _ _ _ _ _ h
  case case2 => exact runCpyLane_ok _ _ _ _ _ _ h
  case case3 => exact runCpyt_ok _ _ _ _ _ _ _ _ _ _ _ _ h
  case case4 => exact runCpytW_ok _ _ _ _ _ _ _ _ _ _ _ _ h
  case case5 => exact memOk_of_mem_eq h (by simp)
  case case6 => exact h
  case case7 => exact runQuant_ok _ _ _ _ _ _ _ h
  case case8 => exact memOk_of_mem_eq h (runQuantW_mem _ _ _ _)
  case case9 => exact runList_ok _ _ _ _ _ h
  case case10 => exact fetchFrom_ok _ _ _ _ _ _ _ _ _ h

@[simp] theorem leaveFailed_mem (v : View) (op : EngOp) (s : State) : (leaveFailed v op s).mem = s.mem := by
  fun_cases leaveFailed <;> simp

theorem runBad_ok (v : View) (e : EngEntry) {s : State} (h : MemOk s) : (runBad v e s).Ok := by
  fun_cases runBad
  · exact memOk_of_mem_eq (notePassed_memOk _ _ _ _ h) (leaveFailed_mem _ _ _)
  · exact runEng_ok _ _ h
  · exact runEng_ok _ _ h

theorem worked_memOk (wave : Nat) (c : Engine) (i : Nat) (e : EngEntry) {r : Worked} (hr : r.Ok) : MemOk (worked wave c i e r) := by
  cases r with
  | done t => exact memOk_of_mem_eq hr (modWave_mem _ _ _)
  | part op line t => exact memOk_of_mem_eq hr (modWave_mem _ _ _)
  | fail f t => exact faultAt_memOk _ _ _ (memOk_of_mem_eq hr (modWave_mem _ _ _))

theorem execOperationRetire_keeps (wave : Acting) (cls : Engine) {s : State} (h : MemOk s) : Keeps (execOperationRetire wave cls s) := by
  fun_cases execOperationRetire
  case case5 => exact worked_memOk _ _ _ _ (worked_ok_ite (runBad_ok _ _ h) (runEng_ok _ _ h))
  all_goals simp [MemOk, h]

end Sys2Proof.Machine
end
section
/-! SUPPORT. The form of device memory under synchronisation words. -/
namespace Sys2Proof.Machine
open Sys2Proof

/-- A word that Quern answers at once keeps the form where its answer does. -/
theorem quernWord_keeps (v : View) (a size align : Nat) {go : State → Result} (hgo : ∀ t, MemOk t → Keeps (go t)) {s : State} (h : MemOk s) :
    Keeps (quernWord v a size align s go) := by
  have hq := quernOne_allOk v a false h
  fun_cases quernWord
  case case1 => exact hardFault_keeps _ _ h
  case case2 => exact h
  case case3 t e => exact hgo _ (memOk_of_some hq e)
  case case4 => exact h

theorem doneWith_keeps (v : View) (f : Wave → Wave) {s : State} (h : MemOk s) : Keeps (doneWith v f s) := h

/-! ### Barriers -/

@[simp] theorem recordArrival_mem (v : View) (cl : Bool) (n : Nat) (s : State) : (recordArrival v cl n s).mem = s.mem := by
  fun_cases recordArrival <;> simp +zetaDelta

theorem waitAt_keeps (v : View) (cl : Bool) (n : Nat) (d : Operand) {s : State} (h : MemOk s) : Keeps (waitAt v cl n d s) :=
  keeps_ite h (doneWith_keeps _ _ h)

theorem barWord_keeps (cl : Bool) (d : Operand) (n : Nat) (v : View) {s : State} (h : MemOk s) : Keeps (barWord cl d n v s) := by
  fun_cases barWord
  · exact waitAt_keeps _ _ _ _ h
  · exact waitAt_keeps _ _ _ _ (memOk_of_mem_eq h (by simp))
  · exact h

theorem execBar_keeps (y : YW) {s : State} (h : MemOk s) : Keeps (execBar y s) := viewWord_keeps _ _ _ (fun _ _ _ => barWord_keeps _ _ _ _) h
theorem execBarC_keeps (y : YW) {s : State} (h : MemOk s) : Keeps (execBarC y s) := viewWord_keeps _ _ _ (fun _ _ _ => barWord_keeps _ _ _ _) h
theorem execBwait_keeps (y : YW) {s : State} (h : MemOk s) : Keeps (execBwait y s) := viewWord_keeps _ _ _ (fun _ _ _ => waitAt_keeps _ _ _ _) h
theorem execBwaitC_keeps (y : YW) {s : State} (h : MemOk s) : Keeps (execBwaitC y s) := viewWord_keeps _ _ _ (fun _ _ _ => waitAt_keeps _ _ _ _) h

theorem arriveWord_keeps (cl : Bool) (y : YW) {s : State} (h : MemOk s) : Keeps (arriveWord cl y s) := by
  refine viewWord_keeps _ _ _ (fun v m t ht => ?_) h
  exact keeps_ite (done_keeps _ (memOk_of_mem_eq ht (recordArrival_mem _ _ _ _))) ht

theorem drainWord_keeps (cl : Bool) (y : YW) {s : State} (h : MemOk s) : Keeps (drainWord cl y s) := by
  refine viewWord_keeps _ _ _ (fun v m t ht => ?_) h
  exact keeps_ite ht (barWord_keeps _ _ _ _ ht)

/-! ### Phases and yields -/

theorem execPhase_keeps (y : YW) {s : State} (h : MemOk s) : Keeps (execPhase y s) := by
  refine viewWord_keeps _ _ _ (fun v m t ht => ?_) h
  refine keeps_ite ht (keeps_ite (illegalWord_keeps _ ht) ?_)
  dsimp only
  split
  · exact hardFault_keeps _ _ ht
  · exact checkPhases_memOk v.w.blk (s := putWave _ _ t) ht

theorem execYield_keeps (y : YW) {s : State} (h : MemOk s) : Keeps (execYield y s) := word_keeps _ _ _ (fun _ _ _ _ => id) h

/-! ### Queues -/

theorem quernQueue_keeps (y : YW) (size align : Nat) (op : Nat → Word64 → MemOp) {s : State} (h : MemOk s) : Keeps (quernQueue y size align op s) := by
  refine viewWord_keeps _ _ _ (fun v m t ht => ?_) h
  dsimp only
  split
  · exact hardFault_keeps _ _ ht
  · exact queueOp_keeps _ _ _ _ _ _ ht

theorem execQpop_keeps (y : YW) {s : State} (h : MemOk s) : Keeps (execQpop y s) := by
  refine viewWord_keeps _ _ _ (fun v m t ht => quernWord_keeps _ _ _ _ (fun u hu => ?_) ht) h
  split
  · next e => exact lateResult_keeps _ _ _ _ _ (memOk_of_mem_eq hu (popItem_mem e))
  · exact memOk_of_mem_eq hu (parkWave_mem _ _ _ _ _)

theorem execQtry_keeps (y : YW) {s : State} (h : MemOk s) : Keeps (execQtry y s) := by
  refine viewWord_keeps _ _ _ (fun v m t ht => quernWord_keeps _ _ _ _ (fun u hu => ?_) ht) h
  split
  · next e => exact doneWith_keeps _ _ (memOk_of_mem_eq hu (popItem_mem e))
  · exact doneWith_keeps _ _ (memOk_of_mem_eq hu (touchQueue_mem _ _ _))

theorem execQlen_keeps (y : YW) {s : State} (h : MemOk s) : Keeps (execQlen y s) := by
  refine viewWord_keeps _ _ _ (fun v m t ht => quernWord_keeps _ _ _ _ (fun u hu => ?_) ht) h
  split
  · trivial
  · exact doneWith_keeps _ _ (memOk_of_mem_eq hu (touchQueue_mem _ _ _))

/-! ### Polls -/

@[simp] theorem attempt_mem (v : View) (p : PollState) (s : State) : (attempt v p s).mem = s.mem := by
  fun_cases attempt <;> simp +zetaDelta

theorem execPoll_keeps (y : YW) {s : State} (h : MemOk s) : Keeps (execPoll y s) := by
  refine viewWord_keeps _ _ _ (fun v m t ht => quernWord_keeps _ _ _ _ (fun u hu => ?_) ht) h
  exact memOk_of_mem_eq hu (attempt_mem _ _ _)

theorem execPollAttempt_keeps (wave : Nat) {s : State} (h : MemOk s) : Keeps (execPollAttempt wave s) := by
  fun_cases execPollAttempt
  case case4 v _ p _ _ t e =>
    have ht : MemOk t := memOk_of_some (quernOne_allOk v p.var false h) e
    exact memOk_of_mem_eq ht (attempt_mem _ _ _)
  all_goals exact h

end Sys2Proof.Machine
end
section
/-! SUPPORT. The form of device memory under Windshaft: launches, placement, displacement, landing slots, block completion. -/
namespace Sys2Proof.Machine
open Sys2Proof

/-! ### Launches -/

@[simp] theorem clearStatus_mem (asid : Nat) (d : Desc) (s : State) : (clearStatus asid d s).mem = s.mem := by simp [clearStatus]

@[simp] theorem startTest_mem (asid gid : Nat) (d : Desc) (s : State) (num : Nat) : (startTest asid gid d s num).mem = s.mem := by
  fun_cases startTest <;> simp

@[simp] theorem joinLog_memOk (asid gid : Nat) (d : Desc) (ptr : Nat) (bytes : List Byte) {s : State} (h : MemOk s) : MemOk (joinLog asid gid d ptr bytes s) := by
  fun_cases joinLog <;> simp [MemOk, h]

theorem acceptLaunch_memOk (asid : Nat) (by_ : Launcher) (ptr : Nat) (ws : List Word64) {s : State} (h : MemOk s) : MemOk (acceptLaunch asid by_ ptr ws s) := by
  fun_cases acceptLaunch <;> simp +zetaDelta [MemOk, h]

theorem offerLaunch_memOk (asid : Nat) (by_ : Launcher) (ptr : Nat) (ws : List Word64) {s : State} (h : MemOk s) : MemOk (offerLaunch asid by_ ptr ws s).2 := by
  fun_cases offerLaunch
  · exact h
  · dsimp only
    split
    · exact acceptLaunch_memOk _ _ _ _ h
    · exact h

theorem execLaunch_keeps (y : YW) {s : State} (h : MemOk s) : Keeps (execLaunch y s) := by
  refine viewWord_keeps _ _ _ (fun v m t ht => ?_) h
  refine keeps_ite ht (keeps_ite (illegalWord_keeps _ ht) ?_)
  exact heldRead_keeps _ _ _ ht (fun bs u hu => doneWith_keeps _ _ (offerLaunch_memOk _ _ _ _ hu)) ht

/-! ### Placement -/

@[simp] theorem returnSlice_mem (asid bk : Nat) (s : State) : (returnSlice asid bk s).mem = s.mem := by
  fun_cases returnSlice <;> simp

theorem execPlacementAgeExpiry_keeps (request : Nat) {s : State} (h : MemOk s) : Keeps (execPlacementAgeExpiry request s) := by
  fun_cases execPlacementAgeExpiry <;> exact h

@[simp] theorem takeCore_mem (asid bk core : Nat) (life : Life) (s : State) : (takeCore asid bk core life s).mem = s.mem := by simp [takeCore]

theorem startOn_memOk (asid : Nat) (d : Desc) (p : Nat × Nat) {s : State} (h : MemOk s) : MemOk (startOn asid d s p) :=
  memOk_of_mem_eq (lendSlice_memOk asid p.1 d (memOk_of_mem_eq h (takeCore_mem asid p.1 p.2 .running s))) (startBlock_mem _ _ _ _)

@[simp] theorem windowBack_mem (d : Desc) (bk : Nat) (s : State) : (windowBack d bk s).mem = s.mem := by
  fun_cases windowBack <;> simp

theorem execBlockPlace_keeps (request core : Nat) {s : State} (h : MemOk s) : Keeps (execBlockPlace request core s) := by
  have started (asid : Nat) (d : Desc) (l : List (Nat × Nat)) : MemOk (l.foldl (startOn asid d) { s with placeQ := mdel s.placeQ request }) :=
    memOk_foldl (fun _ _ => startOn_memOk _ _ _) _ h
  fun_cases execBlockPlace
  · exact h
  · exact started _ _ _
  · exact memOk_of_mem_eq (started _ _ _) (windowBack_mem _ _ _)
  · exact h

/-! ### Displacement -/

theorem displaceBlock_memOk (bk : Nat) (b : Block) {s : State} (h : MemOk s) : MemOk (displaceBlock bk b s) := by
  fun_cases displaceBlock <;> simp [MemOk, h]

theorem execDisplace_keeps (baseDie : Nat) {s : State} (h : MemOk s) : Keeps (execDisplace baseDie s) := by
  fun_cases execDisplace
  case case3 => exact displaceBlock_memOk _ _ h
  all_goals exact h

/-! ### Page lists and landing slots -/

@[simp] theorem pageFail_memOk (gid num pfc : Nat) (sd : Bool) (rl : Nat) {s : State} (h : MemOk s) : MemOk (pageFail gid num pfc sd rl s) := setStatus_memOk _ _ _ h

@[simp] theorem listFault_memOk (gid num : Nat) (f : FaultSpec) {s : State} (h : MemOk s) : MemOk (listFault gid num f s) := by
  fun_cases listFault
  · exact h
  · exact endGrid_memOk _ _ (setStatus_memOk _ _ _ (pushFault_memOk _ _ h))
  · exact setStatus_memOk _ _ _ (pushFault_memOk _ _ h)

@[simp] theorem askSlot_mem (gid num x prio : Nat) (s : State) : (askSlot gid num x prio s).mem = s.mem := rfl

@[simp] theorem useEntry_memOk (gid index x : Nat) (g : Grid) (c : Ctx) {s : State} (h : MemOk s) : MemOk (useEntry gid index x g c s) := by
  fun_cases useEntry
  · exact pageFail_memOk _ _ _ _ _ h
  · exact h

theorem execPageListEntryRead_keeps (grid index : Nat) {s : State} (h : MemOk s) : Keeps (execPageListEntryRead grid index s) := by
  have hr (asid ptr : Nat) : (lovageRead asid ptr 8 (modGrid grid (fun g => { g with listed := sadd g.listed index }) s)).Ok :=
    lovageRead_ok _ _ _ (memOk_of_mem_eq h (modGrid_mem _ _ _))
  fun_cases execPageListEntryRead
  case case4 => exact memOk_of_mem_eq h (modGrid_mem _ _ _)
  case case6 e => exact unlessEarly_memOk _ _ h (listFault_memOk _ _ _ (memOk_of_fail (hr _ _) e))
  case case7 e => exact unlessEarly_memOk _ _ h (useEntry_memOk _ _ _ _ _ (memOk_of_ok (hr _ _) e))
  all_goals exact h

@[simp] theorem lunPush_mem (n : Nat) (o : LunOp) (s : State) : (lunPush n o s).mem = s.mem := rfl

theorem execLandingSlotGrant_keeps (request core : Nat) {s : State} (h : MemOk s) : Keeps (execLandingSlotGrant request core s) := by
  fun_cases execLandingSlotGrant
  case case2 => exact unlessEarly_memOk _ _ h (pageFail_memOk _ _ _ _ _ h)
  case case3 =>
    refine memOk_foldl (fun t p ht => ?_) _ h
    exact memOk_of_mem_eq (lendSlice_memOk _ _ _ (memOk_of_mem_eq ht (takeCore_mem _ _ _ _ _))) (modBlock_mem _ _ _)
  all_goals exact h

/-! ### Completion -/

theorem execBlockComplete_keeps (block : Nat) {s : State} (h : MemOk s) : Keeps (execBlockComplete block s) := by
  fun_cases execBlockComplete
  case case3 => exact unlessEarly_memOk _ _ h (setStatus_memOk _ _ _ h)
  all_goals exact h

end Sys2Proof.Machine
end
section
/-! SUPPORT. The form of device memory at the end of a phase, under the involuntary save and under resumption. -/
namespace Sys2Proof.Machine
open Sys2Proof

/-! ### Records in memory -/

theorem writeAll_ok (asid : Nat) (l : List (Nat × List Byte)) {s : State} (h : MemOk s) : (writeAll asid l s).Ok := by
  induction l generalizing s with
  | nil => exact h
  | cons x rest ih =>
    unfold writeAll
    split
    · exact ih h
    · exact andThen_ok (lovageWrite_ok _ _ _ h) (fun _ _ => ih)

theorem readAll_ok (asid : Nat) (l : List (Nat × Nat)) {s : State} (h : MemOk s) : (readAll asid l s).Ok := by
  induction l generalizing s with
  | nil => exact h
  | cons x rest ih =>
    refine andThen_ok ?_ (fun bs t ht => andThen_ok (ih ht) (fun _ _ => id))
    split
    · exact h
    · exact lovageRead_ok _ _ _ h

theorem writeRecords_allOk (asid : Nat) (part : State → Nat → List (Nat × List Byte)) (low : State → Nat → Option Wave) (bks : List Nat) {s : State} (h : MemOk s) :
    AllOk (writeRecords asid part low bks s) := by
  fun_induction writeRecords asid part low bks s with
  | case1 => exact h
  | case2 => trivial
  | case3 _ _ _ _ _ e ih => exact ih (memOk_of_ok (writeAll_ok _ _ h) e)
  | case4 _ _ _ _ _ e _ _ ih => exact ih (faultBlock_memOk _ _ _ _ _ (memOk_of_fail (writeAll_ok _ _ h) e))
  | case5 _ _ _ _ _ e _ ih => exact ih (memOk_of_fail (writeAll_ok _ _ h) e)

/-! ### Ending a phase -/

theorem countRecords_allOk (bks : List Nat) {s : State} (h : MemOk s) : AllOk (countRecords bks s) := by
  fun_induction countRecords bks s with
  | case1 => exact h
  | case2 _ _ _ _ _ _ _ _ _ _ _ _ e ih => exact ih (memOk_of_some (quernOne_allOk _ _ _ h) e)
  | case3 => trivial
  | case4 => rename_i ih; exact ih h
  | case5 => rename_i ih; exact ih h

@[simp] theorem leaveForPhase_mem (asid : Nat) (s : State) (bk : Nat) : (leaveForPhase asid s bk).mem = s.mem := by
  fun_cases leaveForPhase <;> simp +zetaDelta

@[simp] theorem queueRecord_mem (asid : Nat) (s : State) (bk : Nat) : (queueRecord asid s bk).mem = s.mem := by
  fun_cases queueRecord
  · next s1 =>
    have hs : s1.mem = s.mem := by
      dsimp only [s1]
      split <;> simp
    rw [testRecord_mem, hs]
  all_goals simp

theorem execPhaseSave_keeps (block : Nat) {s : State} (h : MemOk s) : Keeps (execPhaseSave block s) := by
  fun_cases execPhaseSave
  case case6 e _ u e' =>
    have hu : MemOk u := memOk_of_some (countRecords_allOk _ (memOk_of_some (writeRecords_allOk _ _ _ _ h) e)) e'
    exact memOk_of_mem_eq hu (by simp)
  all_goals exact h

theorem execPhaseTimeReached_keeps (block : Nat) {s : State} (h : MemOk s) : Keeps (execPhaseTimeReached block s) := by
  fun_cases execPhaseTimeReached
  case case2 => exact memOk_of_mem_eq h (satisfy_mem _ _ _)
  all_goals exact h

/-! ### Stopped and restored blocks -/

@[simp] theorem liftBlock_mem (asid : Nat) (s : State) (bk : Nat) : (liftBlock asid s bk).mem = s.mem := by
  fun_cases liftBlock <;> simp +zetaDelta

@[simp] theorem replayWave_memOk (key n : Nat) {s : State} (h : MemOk s) : MemOk (replayWave key n s) := by
  fun_induction replayWave key n s with
  | case4 => exact performAt_memOk _ _ _ h
  | case5 _ _ _ _ _ _ _ _ _ _ ih => exact ih (performAt_memOk _ _ _ h)
  | _ => exact h

@[simp] theorem backOnCore_memOk (bk : Nat) {s : State} (h : MemOk s) : MemOk (backOnCore bk s) :=
  memOk_foldl (fun _ _ => replayWave_memOk _ _) _ h

/-! ### The involuntary save -/

@[simp] theorem leaveInvoluntary_mem (s : State) (bk : Nat) : (leaveInvoluntary s bk).mem = s.mem := by simp [leaveInvoluntary]

theorem countEscalations_allOk (bks : List Nat) {s : State} (h : MemOk s) : AllOk (countEscalations bks s) := by
  fun_induction countEscalations bks s with
  | case1 => exact h
  | case2 _ _ _ _ ih => exact ih h
  | case3 _ _ _ _ _ _ _ ih => exact ih h
  | case4 _ _ _ _ _ _ _ _ _ e ih => exact ih (memOk_of_some (quernOne_allOk _ _ _ h) e)
  | case5 => trivial

theorem execInvoluntarySave_keeps (block : Nat) {s : State} (h : MemOk s) : Keeps (execInvoluntarySave block s) := by
  fun_cases execInvoluntarySave
  case case5 e _ u e' =>
    have ht := memOk_of_some (writeRecords_allOk _ _ _ _ (memOk_of_mem_eq h (mem_foldl (liftBlock_mem _) _ _))) e
    have hu : MemOk u := memOk_of_some (countEscalations_allOk _ ht) e'
    exact memOk_of_mem_eq hu (by simp)
  case case6 => exact memOk_of_mem_eq h (modBlock_mem _ _ _)
  all_goals exact h

/-! ### Resumption -/

theorem resumeWave_allOk (bk : Nat) (g : Grid) (c : Ctx) (r : PhaseRec) (rval : Word64) (n m : Nat) (pw : PhaseWave) (parts : List (List Byte)) {s : State} (h : MemOk s) :
    AllOk (resumeWave bk g c r rval n m pw parts s) := by
  fun_cases resumeWave
  · trivial
  · exact faultAt_memOk _ _ _ (s := putWave _ _ s) h
  · exact h

theorem readSections_ok (asid bk : Nat) (g : Grid) (r : PhaseRec) (n m : Nat) (l : List PhaseWave) {s : State} (h : MemOk s) : (readSections asid bk g r n m l s).Ok := by
  induction l generalizing s with
  | nil => exact h
  | cons x rest ih => exact andThen_ok (readAll_ok _ _ h) (fun _ _ ht => andThen_ok (ih ht) (fun _ _ => id))

theorem resumeWaves_allOk (bk : Nat) (g : Grid) (c : Ctx) (r : PhaseRec) (rval : Word64) (n m : Nat) (l : List (PhaseWave × List (List Byte))) {s : State} (h : MemOk s) :
    AllOk (resumeWaves bk g c r rval n m l s) := by
  fun_induction resumeWaves bk g c r rval n m l s with
  | case1 => exact h
  | case2 => trivial
  | case3 _ _ _ _ _ e ih => exact ih (memOk_of_some (resumeWave_allOk _ _ _ _ _ _ _ _ _ h) e)

@[simp] theorem resumeFault_memOk (bk : Nat) (g : Grid) (r : PhaseRec) (f : FaultSpec) {s : State} (h : MemOk s) : MemOk (resumeFault bk g r f s) := by
  fun_cases resumeFault
  · exact h
  · exact endGrid_memOk _ _ (setStatus_memOk _ _ _ (pushFault_memOk _ _ h))
  · exact setStatus_memOk _ _ _ (pushFault_memOk _ _ h)
  · exact faultBlock_memOk _ _ _ _ _ (memOk_of_mem_eq h (by simp +zetaDelta))

@[simp] theorem dropAbsent_memOk (bk : Nat) (gone : List PhaseWave) {s : State} (h : MemOk s) : MemOk (dropAbsent bk gone s) := by
  have hg : MemOk (gone.foldl (fun t pw => retireWave (waveKey bk pw.idx) t) s) := memOk_of_mem_eq h (by simp)
  fun_cases dropAbsent
  · exact setStatus_memOk _ _ _ hg
  · exact hg
  · exact hg

@[simp] theorem headerBars_mem (bk : Nat) (g : Grid) (hd : List Byte) (s : State) : (headerBars bk g hd s).mem = s.mem := by simp [headerBars]

theorem readRecord_ok (asid bk : Nat) (g : Grid) (r : PhaseRec) {s : State} (h : MemOk s) : (readRecord asid bk g r s).Ok := by
  refine andThen_ok (lovageRead_ok _ _ _ h) (fun hd t ht => andThen_ok (readSections_ok _ _ _ _ _ _ _ ht) (fun l u hu => ?_))
  exact andThen_ok (lovageWrite_ok _ _ _ hu) (fun _ _ => id)

theorem resumeBlock_allOk (asid : Nat) (g : Grid) (c : Ctx) (bk core : Nat) {s : State} (h : MemOk s) : AllOk (resumeBlock asid g c s bk core) := by
  fun_cases resumeBlock
  · exact h
  · trivial
  · next e => exact resumeFault_memOk _ _ _ _ (memOk_of_fail (readRecord_ok _ _ _ _ h) e)
  · next r _ x t e _ =>
    have ht : MemOk t := memOk_of_ok (readRecord_ok _ _ _ _ h) e
    refine allOk_map (resumeWaves_allOk _ _ _ _ _ _ _ _ (memOk_of_mem_eq ?_ (takeCore_mem _ _ _ _ _))) (fun u hu => ?_)
    · split
      · exact ht
      · exact lendSlice_memOk _ _ _ ht
    · have hd := dropAbsent_memOk bk (headerWaves r x.1 false) hu
      dsimp only
      split
      · exact backOnCore_memOk _ (memOk_of_mem_eq hd (headerBars_mem _ _ _ _))
      · exact hd

theorem resumeAll_allOk (asid : Nat) (g : Grid) (c : Ctx) (l : List (Nat × Nat)) {s : State} (h : MemOk s) : AllOk (resumeAll asid g c l s) := by
  fun_induction resumeAll asid g c l s with
  | case1 => exact h
  | case2 _ _ _ _ _ e ih => exact ih (memOk_of_some (resumeBlock_allOk _ _ _ _ _ h) e)
  | case3 => trivial

theorem execPhaseResume_keeps (request core : Nat) {s : State} (h : MemOk s) : Keeps (execPhaseResume request core s) := by
  fun_cases execPhaseResume
  case case2 t e =>
    have ht : MemOk t := memOk_of_some (resumeAll_allOk _ _ _ _ h) e
    exact ht
  all_goals exact h

end Sys2Proof.Machine
end
section
/-! SUPPORT. The form of device memory under quanta, context saves and restorations, and under the flash engines. -/
namespace Sys2Proof.Machine
open Sys2Proof

/-! ### Quanta, save, scrub, restoration -/

theorem execQuantumEnd_keeps (partition : Nat) {s : State} (h : MemOk s) : Keeps (execQuantumEnd partition s) := by
  fun_cases execQuantumEnd <;> exact h

@[simp] theorem saveBlock_mem (asid : Nat) (s : State) (bk : Nat) : (saveBlock asid s bk).mem = s.mem := by
  fun_cases saveBlock <;> simp

theorem execContextSave_keeps (asid : Nat) {s : State} (h : MemOk s) : Keeps (execContextSave asid s) := by
  fun_cases execContextSave
  case case3 => exact memOk_of_mem_eq h (by simp +zetaDelta)
  all_goals exact h

theorem execCoreScrub_keeps (core : Nat) {s : State} (h : MemOk s) : Keeps (execCoreScrub core s) := by
  fun_cases execCoreScrub <;> exact h

theorem restoreOn_memOk (asid : Nat) (p : Nat × Nat) {s : State} (h : MemOk s) : MemOk (restoreOn asid s p) := by
  fun_cases restoreOn
  case case5 => exact backOnCore_memOk _ (memOk_of_mem_eq h (takeCore_mem _ _ _ _ _))
  all_goals exact memOk_of_mem_eq h (by simp +zetaDelta)

theorem execContextRestore_keeps (asid core : Nat) {s : State} (h : MemOk s) : Keeps (execContextRestore asid core s) := by
  fun_cases execContextRestore
  · exact h
  · exact memOk_of_mem_eq (memOk_foldl (fun _ _ => restoreOn_memOk _ _) _ h) (modCtx_mem _ _ _)

/-! ### Landing -/

@[simp] theorem nandPut_mem (fa : Nat) (bs : List Byte) (s : State) : (nandPut fa bs s).mem = s.mem := rfl
@[simp] theorem lunPop_mem (n : Nat) (s : State) : (lunPop n s).mem = s.mem := rfl
@[simp] theorem landCodewords_mem (bk fa : Nat) (d : Desc) (is : List Nat) (s : State) : (landCodewords bk fa d is s).mem = s.mem := by simp [landCodewords]

@[simp] theorem logLanding_memOk (asid gid num fa : Nat) (sd : Bool) (rl : Nat) {s : State} (h : MemOk s) : MemOk (logLanding asid gid num fa sd rl s) := by
  fun_cases logLanding <;> simp +zetaDelta [MemOk, h]

@[simp] theorem pageLanded_mem (bk : Nat) (sd : Bool) (rl : Nat) (s : State) : (pageLanded bk sd rl s).mem = s.mem := by
  fun_cases pageLanded <;> simp +zetaDelta

theorem senseDone_memOk (n bk : Nat) (b : Block) (g : Grid) (accepted : BitVec 4) {s : State} (h : MemOk s) : MemOk (senseDone n bk b g accepted s) := by
  have landed (held : Bool) (is : List Nat) : MemOk (if held then s else landCodewords bk b.fa.toNat g.d is s) := by
    split
    · exact h
    · exact memOk_of_mem_eq h (landCodewords_mem _ _ _ _ _)
  fun_cases senseDone
  · exact landed _ _
  · exact memOk_of_mem_eq (logLanding_memOk _ _ _ _ _ _ (memOk_of_mem_eq (landed _ _) ((lunPop_mem _ _).trans (landCodewords_mem _ _ _ _ _)))) (pageLanded_mem _ _ _ _)
  · exact unlessEarly_memOk _ _ h (pageFail_memOk _ _ _ _ _ (landed _ _))
  · exact landed _ _

theorem execFlashSenseComplete_keeps (lun : Nat) (accepted : BitVec 4) {s : State} (h : MemOk s) : Keeps (execFlashSenseComplete lun accepted s) := by
  fun_cases execFlashSenseComplete
  case case3 => exact senseDone_memOk _ _ _ _ _ h
  all_goals exact h

theorem readGivenUp_memOk (bk : Nat) {s : State} (h : MemOk s) : MemOk (readGivenUp s bk) := by
  fun_cases readGivenUp
  · exact pageFail_memOk _ _ _ _ _ h
  · exact h

theorem execLunTimeout_keeps (lun : Nat) {s : State} (h : MemOk s) : Keeps (execLunTimeout lun s) := by
  fun_cases execLunTimeout
  case case3 => exact memOk_foldl (fun _ _ => readGivenUp_memOk _) _ h
  all_goals exact h

/-! ### Write-back -/

@[simp] theorem pushTo_mem (die : Nat) (s : State) (asid q x : Nat) : (pushTo die s asid q x).mem = s.mem := by
  fun_cases pushTo <;> simp

@[simp] theorem takeItems_mem (asid q n : Nat) (acc : List Nat) (s : State) : (takeItems asid q n acc s).2.mem = s.mem := by
  fun_induction takeItems asid q n acc s with
  | case1 => rfl
  | case2 _ _ _ _ _ e ih => rw [ih, popItem_mem e]
  | case3 => exact touchQueue_mem _ _ _

@[simp] theorem setTail_mem (die : Nat) (q : Tailrace) (s : State) : (setTail die q s).mem = s.mem := rfl
@[simp] theorem setWb_mem (page : Nat) (st : WbState) (s : State) : (setWb page st s).mem = s.mem := rfl

theorem liftFailed_memOk (die : Nat) (w : Writeback) {s : State} (h : MemOk s) : MemOk (liftFailed die w s) := by
  fun_cases liftFailed
  · exact h
  · exact setLeafBit_memOk _ _ _ h

theorem failUnit_memOk (die : Nat) (w : Writeback) {s : State} (h : MemOk s) : MemOk (failUnit die w s) :=
  liftFailed_memOk _ _ (memOk_of_mem_eq (physPutWord_memOk _ _ h) (pushTo_mem _ _ _ _ _))

theorem failAfter_memOk (die : Nat) (w : Writeback) {s : State} (h : MemOk s) : MemOk (failAfter die w s) := by
  fun_cases failAfter
  · exact h
  · exact failUnit_memOk _ _ h

theorem beginUnit_memOk (die : Nat) (w : Writeback) {s : State} (h : MemOk s) : MemOk (beginUnit die w s) := by
  have taken {asid q n : Nat} {items : List Nat} {t : State} (e : takeItems asid q n [] s = (items, t)) : MemOk t := by
    have ht := takeItems_mem asid q n [] s
    rw [e] at ht
    exact memOk_of_mem_eq h ht
  fun_cases beginUnit
  · exact failUnit_memOk _ _ h
  · next e _ _ => exact memOk_of_mem_eq (taken e) (mem_foldl (fun _ _ => pushTo_mem _ _ _ _ _) _ _)
  · next e _ _ _ => exact failAfter_memOk _ _ (memOk_of_mem_eq (taken e) (mem_foldl (fun _ _ => pushTo_mem _ _ _ _ _) _ _))
  · next e _ _ _ _ _ _ =>
    refine memOk_of_mem_eq (taken e) ?_
    rw [mem_foldl (fun _ _ => lunPush_mem _ _ _)]
    simp +zetaDelta [apply_ite State.mem]

theorem pageWritten_memOk (die page : Nat) {s : State} (h : MemOk s) : MemOk (pageWritten die page s) := by
  fun_cases pageWritten
  · exact h
  · exact h
  · exact setLeafBit_memOk _ _ _ (setLeafBit_memOk _ _ _ h)

theorem goOn_memOk (die : Nat) (w : Writeback) {s : State} (h : MemOk s) : MemOk (goOn die w s) := by
  fun_cases goOn
  case case1 | case2 => exact h
  case case3 | case5 => exact beginUnit_memOk _ _ h
  case case4 => exact pageWritten_memOk _ _ h
  case case6 => exact failUnit_memOk _ _ h
  case case7 => exact liftFailed_memOk _ _ h

theorem unitReported_memOk (die : Nat) (w : Writeback) {s : State} (h : MemOk s) : MemOk (unitReported die w s) := by
  fun_cases unitReported
  · exact failAfter_memOk _ _ (memOk_of_mem_eq h (by simp +zetaDelta))
  · exact goOn_memOk _ _ (memOk_of_mem_eq h (by simp +zetaDelta))
  · exact goOn_memOk _ _ (memOk_of_mem_eq (physPut_memOk _ _ (physPut_memOk _ _ h)) (mem_foldl (fun _ _ => pushTo_mem _ _ _ _ _) _ _))

theorem execTailraceWriteback_keeps (baseDie : Nat) {s : State} (h : MemOk s) : Keeps (execTailraceWriteback baseDie s) := by
  fun_cases execTailraceWriteback
  · exact goOn_memOk _ _ h
  · exact h
  · exact beginUnit_memOk _ _ (s := setTail _ _ s) h

theorem execFlashProgramComplete_keeps (baseDie : Nat) (succeeded : Bool) {s : State} (h : MemOk s) : Keeps (execFlashProgramComplete baseDie succeeded s) := by
  have reported (x : Nat) (bs : List Byte) : MemOk (if succeeded then nandPut x bs s else s) := by
    split <;> exact h
  fun_cases execFlashProgramComplete
  · exact unitReported_memOk _ _ (reported _ _)
  · exact reported _ _
  · exact h

end Sys2Proof.Machine
end
section
/-! SUPPORT. The form of device memory under the physical function's commands, the host's rings and the package's borders. -/
namespace Sys2Proof.Machine
open Sys2Proof

/-! ### Commands -/

@[simp] theorem tellPf_mem (what value : Nat) (s : State) : (tellPf what value s).mem = s.mem := rfl
@[simp] theorem finishCmd_mem (stat : Nat) (s : State) : (finishCmd stat s).mem = s.mem := rfl

theorem startCmd_keeps (op asid : Nat) {f : State → State} (hf : ∀ t, MemOk t → MemOk (f t)) {s : State} (h : MemOk s) : Keeps (startCmd op asid f s) :=
  keeps_ite h (hf _ h)

theorem service_memOk {f : State → State} (hf : ∀ t, MemOk t → MemOk (f t)) {s : State} (h : MemOk s) : MemOk (service f s) := by
  fun_cases service
  · exact h
  · exact hf _ h

@[simp] theorem runLoad_mem (asid : Nat) (s : State) : (runLoad asid s).mem = s.mem := by
  fun_cases runLoad <;> rfl

theorem execLoad_keeps (asid : Nat) {s : State} (h : MemOk s) : Keeps (execLoad asid s) :=
  startCmd_keeps _ _ (fun _ => service_memOk (fun _ ht => memOk_of_mem_eq ht (runLoad_mem _ _))) h

theorem execInval_keeps (asid : Nat) {s : State} (h : MemOk s) : Keeps (execInval asid s) := startCmd_keeps _ _ (fun _ => id) h

theorem execInvalComplete_keeps {s : State} (h : MemOk s) : Keeps (execInvalComplete s) := keeps_ite h h

@[simp] theorem emptyQuern_mem (asid : Nat) (s : State) : (emptyQuern asid s).mem = s.mem := modCtx_mem _ _ _

theorem execTeardown_keeps (asid : Nat) {s : State} (h : MemOk s) : Keeps (execTeardown asid s) :=
  startCmd_keeps _ _ (fun _ ht => memOk_of_mem_eq (memOk_foldl (fun _ _ => endGrid_memOk _ _) _ ht) (emptyQuern_mem _ _)) h

theorem failGrid_memOk (gid : Nat) {s : State} (h : MemOk s) : MemOk (failGrid s gid) := by
  fun_cases failGrid
  · exact h
  · refine memOk_foldl (fun t n ht => ?_) _ h
    exact setStatus_memOk _ _ _ ht

@[simp] theorem removeCtx_mem (asid : Nat) (s : State) : (removeCtx asid s).mem = s.mem := by
  have told (l : AMap Ring) : (l.foldl (fun t r => emit (.notify 2 r.1) (wake t)) s).mem = s.mem := mem_foldl (fun t r => show (emit (.notify 2 r.1) (wake t)).mem = t.mem from rfl) l s
  fun_cases removeCtx <;> exact told _

theorem execTeardownComplete_keeps {s : State} (h : MemOk s) : Keeps (execTeardownComplete s) :=
  keeps_ite (memOk_of_mem_eq (memOk_foldl (fun _ _ => failGrid_memOk _) _ h) (removeCtx_mem _ _)) h

@[simp] theorem runGrant_mem (asid : Nat) (s : State) : (runGrant asid s).mem = s.mem := by
  fun_cases runGrant <;> rfl

theorem execGrant_keeps (asid : Nat) {s : State} (h : MemOk s) : Keeps (execGrant asid s) :=
  startCmd_keeps _ _ (fun _ => service_memOk (fun _ ht => memOk_of_mem_eq ht (runGrant_mem _ _))) h

@[simp] theorem runErase_mem (asid : Nat) (s : State) : (runErase asid s).mem = s.mem := by
  fun_cases runErase <;> simp

theorem execErase_keeps (asid : Nat) {s : State} (h : MemOk s) : Keeps (execErase asid s) :=
  startCmd_keeps _ _ (fun _ ht => memOk_of_mem_eq ht (runErase_mem _ _)) h

@[simp] theorem nandErase_mem (x : Nat) (s : State) : (nandErase x s).mem = s.mem := rfl

theorem execEraseComplete_keeps (succeeded : Bool) {s : State} (h : MemOk s) : Keeps (execEraseComplete succeeded s) := by
  fun_cases execEraseComplete <;> exact h

@[simp] theorem setLog_mem (asid : Nat) (l : Option LogArea) (s : State) : (setLog asid l s).mem = s.mem := by
  fun_cases setLog <;> simp

@[simp] theorem runReclog_mem (asid : Nat) (s : State) : (runReclog asid s).mem = s.mem := by
  fun_cases runReclog <;> simp

theorem execReclog_keeps (asid : Nat) {s : State} (h : MemOk s) : Keeps (execReclog asid s) :=
  startCmd_keeps _ _ (fun _ ht => memOk_of_mem_eq ht (runReclog_mem _ _)) h

theorem execPfUnassigned_keeps (op asid : Nat) {s : State} (h : MemOk s) : Keeps (execPfUnassigned op asid s) :=
  keeps_ite (startCmd_keeps _ _ (fun _ ht => memOk_of_mem_eq ht (finishCmd_mem _ _)) h) h

/-! ### Launch and completion rings -/

theorem execLaunchTailWrite_keeps (vf tail : Nat) {s : State} (h : MemOk s) : Keeps (execLaunchTailWrite vf tail s) := h

theorem runEntry_memOk (vf asid tag ptr : Nat) (uncorrectable : Bool) {s : State} (h : MemOk s) (x : Nat × State)
    (e : runEntry vf asid tag ptr uncorrectable s = some x) : MemOk x.2 := by
  have hr := lovageRead_ok asid ptr 128 h
  revert e
  fun_cases runEntry
  case case3 => nofun
  all_goals rintro ⟨⟩
  case case1 | case2 => exact h
  case case4 e => exact memOk_of_fail hr e
  case case5 e _ => exact memOk_of_ok hr e
  case case6 e _ => exact offerLaunch_memOk _ _ _ _ (memOk_of_ok hr e)

theorem execLaunchEntry_keeps (vf entry : Nat) (uncorrectable : Bool) {s : State} (h : MemOk s) : Keeps (execLaunchEntry vf entry uncorrectable s) := by
  fun_cases execLaunchEntry
  case case3 t e =>
    have ht : MemOk t := runEntry_memOk _ _ _ _ _ h _ e
    exact postCompletion_memOk _ _ _ _ ht
  all_goals exact h

theorem execCompletionHeadWrite_keeps (vf head : Nat) {s : State} (h : MemOk s) : Keeps (execCompletionHeadWrite vf head s) := releaseHeld_memOk _ _ h

/-! ### Tables, freezing, the watchdog -/

theorem execPartitionTableWrite_keeps (p lo hi : Nat) {s : State} (h : MemOk s) : Keeps (execPartitionTableWrite p lo hi s) := by
  fun_cases execPartitionTableWrite <;> exact h

theorem execQuantumTableWrite_keeps (p i entry : Nat) {s : State} (h : MemOk s) : Keeps (execQuantumTableWrite p i entry s) := by
  fun_cases execQuantumTableWrite <;> exact h

@[simp] theorem endInCard_mem (s : State) (n : Nat) : (endInCard s n).mem = s.mem := by
  fun_cases endInCard <;> simp

@[simp] theorem freeze_mem (s : State) : (freeze s).mem = s.mem := by
  have links (l : List (Nat × Link)) (t : State) : (l.foldl (fun t e => if e.2.trained then emit (.brakeFlit e.1) t else t) t).mem = t.mem := by
    refine mem_foldl (fun t e => ?_) _ _
    split <;> rfl
  fun_cases freeze
  · rfl
  · rw [links]
    simp +zetaDelta
  · simp +zetaDelta

@[simp] theorem fireWatchdog_mem (s : State) : (fireWatchdog s).mem = s.mem := by
  fun_cases fireWatchdog <;> simp

/-! ### Inbound accesses -/

@[simp] theorem noteInbound_memOk (asid addr len : Nat) (write : Bool) {s : State} (h : MemOk s) : MemOk (noteInbound asid addr len write s) := by
  fun_cases noteInbound
  · exact memOk_foldl (fun _ _ => noteLeaf_memOk _ _ _ _) _ h
  · exact h

theorem performInbound_memOk (asid addr len : Nat) (write : Option Nat) (c : Ctx) {s : State} (h : MemOk s) : MemOk (performInbound asid addr len write c s) := by
  cases write with
  | some x => exact ctxPut_memOk _ _ _ _ h
  | none => exact recordAccess_memOk asid (rootOf c) false addr len h

theorem execBar2Access_keeps (vf address len : Nat) (write : Option Nat) {s : State} (h : MemOk s) : Keeps (execBar2Access vf address len write s) := by
  have answered (t : State) (ht : MemOk t) : MemOk (match write with | some _ => t | none => emit (.answer (allOnesBytes len)) t) := by
    split <;> exact ht
  fun_cases execBar2Access
  · exact answered _ h
  · exact performInbound_memOk _ _ _ _ _ (s := wake s) h
  · exact answered _ (noteInbound_memOk _ _ _ _ (s := wake s) h)

@[simp] theorem refuseInbound_mem (s : State) : (refuseInbound s).mem = s.mem := rfl

@[simp] theorem mailbox_mem (asid address data : Nat) (s : State) : (mailbox asid address data s).mem = s.mem := by
  fun_cases mailbox <;> simp

theorem execMailboxWrite_keeps (requester address len data : Nat) {s : State} (h : MemOk s) : Keeps (execMailboxWrite requester address len data s) := by
  fun_cases execMailboxWrite
  · exact h
  · exact h
  · exact memOk_of_mem_eq h (mailbox_mem _ _ _ _)

theorem execDriveInboundRequest_keeps (requester address len : Nat) (write : Option Nat) {s : State} (h : MemOk s) :
    Keeps (execDriveInboundRequest requester address len write s) := by
  fun_cases execDriveInboundRequest
  · exact h
  · exact memOk_of_mem_eq h (mailbox_mem _ _ _ _)
  · next e _ =>
    rw [e]
    exact performInbound_memOk _ _ _ _ _ (s := wake s) h
  · next e _ =>
    rw [e]
    exact noteInbound_memOk _ _ _ _ (s := wake s) h

/-! ### Links -/

theorem logLink_memOk (port source offset len : Nat) (bs : List Byte) {s : State} (h : MemOk s) : MemOk (logLink port source offset len bs s) := by
  refine memOk_foldl (fun t asid ht => ?_) _ (memOk_foldl (fun _ _ => logAppend_memOk _ _ _ _ _) _ h)
  split
  · next i c _ _ =>
    have hc : MemOk (consume asid i t) := memOk_of_mem_eq ht (consume_mem _ _ _)
    split
    · exact memOk_ite ht (memOk_ite hc (diverge_memOk _ _ _ _ _ _ hc))
    · exact ht
  · exact ht

theorem execLinkInboundAccess_keeps (port source offset len : Nat) (write : Option Nat) {s : State} (h : MemOk s) :
    Keeps (execLinkInboundAccess port source offset len write s) := by
  fun_cases execLinkInboundAccess
  case case4 => exact logLink_memOk _ _ _ _ _ (physPut_memOk _ _ (s := wake s) h)
  all_goals exact h

end Sys2Proof.Machine
end
section
/-! SUPPORT. The form of device memory under recovery, rings, idle levels and register writes. -/
namespace Sys2Proof.Machine
open Sys2Proof

/-! ### Freezing, read-out, the watchdog -/

theorem execBrakeFlit_keeps (port : Nat) {s : State} (h : MemOk s) : Keeps (execBrakeFlit port s) := by
  fun_cases execBrakeFlit
  · exact memOk_of_mem_eq h (by simp [apply_ite State.mem])
  · exact h

theorem execScanRead_keeps (unit : MgmtRead) (index offset len : Nat) {s : State} (h : MemOk s) : Keeps (execScanRead unit index offset len s) := by
  fun_cases execScanRead <;> exact h

theorem execPackageReset_keeps {s : State} (h : MemOk s) : Keeps (execPackageReset s) := packageReset_memOk h rfl

theorem execFire_keeps {s : State} (h : MemOk s) : Keeps (execFire s) := memOk_of_mem_eq h (fireWatchdog_mem _)

theorem execWatchdogTimeout_keeps {s : State} (h : MemOk s) : Keeps (execWatchdogTimeout s) := by
  fun_cases execWatchdogTimeout
  · exact memOk_of_mem_eq h (fireWatchdog_mem _)
  · exact h

theorem execFirmwareImage_keeps (image : Nat) {s : State} (h : MemOk s) : Keeps (execFirmwareImage image s) := keeps_ite h h

theorem execReplayTimeout_keeps (asid address : Nat) (global : Bool) {s : State} (h : MemOk s) : Keeps (execReplayTimeout asid address global s) := by
  fun_cases execReplayTimeout
  case case4 | case5 => exact diverge_memOk _ _ _ _ _ _ h
  all_goals exact h

/-! ### Rings -/

@[simp] theorem ctlWrite_mem (asid ctl : Nat) (ws : List (Nat × Nat)) (s : State) : (ctlWrite asid ctl ws s).mem = s.mem := by simp [ctlWrite]
@[simp] theorem modRing_mem (asid ctl : Nat) (f : Ring → Ring) (s : State) : (modRing asid ctl f s).mem = s.mem := modCtx_mem _ _ _

@[simp] theorem formRing_mem (asid : Nat) (d : RingDesc) (s : State) : (formRing asid d s).mem = s.mem := by
  fun_cases formRing <;> simp +zetaDelta

theorem runRing_memOk (asid : Nat) {s : State} (h : MemOk s) : MemOk (runRing asid s) := by
  fun_cases runRing
  case case3 e _ _ => exact memOk_of_mem_eq (memOk_of_ok (lovageRead_ok _ _ _ h) e) (formRing_mem _ _ _)
  case case4 t e _ _ =>
    have ht : MemOk t := memOk_of_ok (lovageRead_ok _ _ _ h) e
    exact ht
  case case5 f t e =>
    have ht : MemOk t := memOk_of_fail (lovageRead_ok _ _ _ h) e
    exact ht
  all_goals exact h

theorem execRing_keeps (asid : Nat) {s : State} (h : MemOk s) : Keeps (execRing asid s) :=
  startCmd_keeps _ _ (fun _ => service_memOk (fun _ => runRing_memOk _)) h

theorem execRingSend_keeps (asid ctl : Nat) {s : State} (h : MemOk s) : Keeps (execRingSend asid ctl s) := by
  fun_cases execRingSend
  case case3 => exact memOk_of_mem_eq h (modRing_mem _ _ _ _)
  case case4 e => exact memOk_of_mem_eq (memOk_of_ok (lovageRead_ok _ _ _ h) e) (modRing_mem _ _ _ _)
  case case5 e => exact memOk_of_fail (lovageRead_ok _ _ _ h) e
  all_goals exact h

theorem execRevolutionReceived_keeps (asid ctl : Nat) (revolution : Incoming) (data : List Byte) {s : State} (h : MemOk s) :
    Keeps (execRevolutionReceived asid ctl revolution data s) := by
  have hw (p : Nat) : (lovageWrite asid p data (wake s)).Ok := lovageWrite_ok _ _ _ (s := wake s) h
  fun_cases execRevolutionReceived
  case case3 => exact memOk_of_mem_eq h (by simp +zetaDelta)
  case case4 e => exact memOk_of_mem_eq (memOk_of_ok (hw _) e) (by simp +zetaDelta)
  case case5 e => exact memOk_of_fail (hw _) e
  all_goals exact h

theorem execArevAdvance_keeps (asid ctl : Nat) (news : RingNews) {s : State} (h : MemOk s) : Keeps (execArevAdvance asid ctl news s) := by
  fun_cases execArevAdvance
  · exact h
  · exact memOk_of_mem_eq h (by simp +zetaDelta)
  · exact memOk_of_mem_eq h (by simp +zetaDelta)

@[simp] theorem rewind_mem (asid ctl cause position : Nat) (s : State) : (rewind asid ctl cause position s).mem = s.mem := by
  fun_cases rewind <;> simp +zetaDelta

@[simp] theorem detect_mem (asid ctl cause position : Nat) (s : State) : (detect asid ctl cause position s).mem = s.mem := by
  fun_cases detect <;> simp

theorem execRingStallTimeout_keeps (asid ctl : Nat) {s : State} (h : MemOk s) : Keeps (execRingStallTimeout asid ctl s) := by
  fun_cases execRingStallTimeout
  case case3 => exact memOk_of_mem_eq h (by simp)
  all_goals exact h

theorem execLinkFailure_keeps (port : Nat) {s : State} (h : MemOk s) : Keeps (execLinkFailure port s) := by
  fun_cases execLinkFailure
  case case3 =>
    refine memOk_of_mem_eq h (mem_foldl (fun t c => mem_foldl (fun u r => ?_) _ t) _ _)
    repeat' split
    all_goals simp
  all_goals exact h

theorem execRingFailureNotice_keeps (asid ctl cause position : Nat) {s : State} (h : MemOk s) : Keeps (execRingFailureNotice asid ctl cause position s) :=
  keeps_ite (memOk_of_mem_eq h (detect_mem _ _ _ _ _)) h

theorem execDetectionByAnyMember_keeps (asid ctl cause position : Nat) {s : State} (h : MemOk s) : Keeps (execDetectionByAnyMember asid ctl cause position s) :=
  keeps_ite (memOk_of_mem_eq h (rewind_mem _ _ _ _ _)) h

theorem execLinkTrained_keeps (port package : Nat) {s : State} (h : MemOk s) : Keeps (execLinkTrained port package s) := keeps_ite h h

/-! ### Idle levels -/

theorem execIdleEntry_keeps {s : State} (h : MemOk s) : Keeps (execIdleEntry s) := keeps_ite h h
theorem execIdleWakeTimer_keeps {s : State} (h : MemOk s) : Keeps (execIdleWakeTimer s) := keeps_ite h h

/-! ### Registers -/

theorem startOp_keeps (op asid : Nat) {s : State} (h : MemOk s) : Keeps (startOp op asid s) := by
  fun_cases startOp
  · exact execLoad_keeps _ h
  · exact execInval_keeps _ h
  · exact execTeardown_keeps _ h
  · exact execGrant_keeps _ h
  · exact execErase_keeps _ h
  · exact execRing_keeps _ h
  · exact execReclog_keeps _ h
  · exact execPfUnassigned_keeps _ _ h

theorem writePart_keeps (p half x : Nat) {s : State} (h : MemOk s) : Keeps (writePart p half x s) := by
  fun_cases writePart <;> exact execPartitionTableWrite_keeps _ _ _ h

theorem writeTables_keeps (offset x : Nat) {s : State} (h : MemOk s) : Keeps (writeTables offset x s) := by
  fun_cases writeTables
  · exact h
  · exact writePart_keeps _ _ _ h
  · exact execQuantumTableWrite_keeps _ _ _ h
  · exact h
  · exact h

theorem writePf_keeps (offset x : Nat) {s : State} (h : MemOk s) : Keeps (writePf offset x s) := by
  fun_cases writePf
  case case5 => exact startOp_keeps _ _ h
  case case8 => exact memOk_of_mem_eq h (by simp +zetaDelta [apply_ite State.mem])
  case case9 => exact execFire_keeps h
  case case13 => exact writeTables_keeps _ _ h
  all_goals exact h

theorem writeVf_memOk (n offset x : Nat) {s : State} (h : MemOk s) : MemOk (writeVf n offset x s) := by
  fun_cases writeVf
  case case1 | case2 | case4 => exact releaseHeld_memOk _ _ h
  all_goals exact h

@[simp] theorem fwMessage_mem (channel value : Nat) (s : State) : (fwMessage channel value s).mem = s.mem := by
  fun_cases fwMessage
  · rfl
  · simp [apply_ite State.mem]

theorem fwAttempt_memOk (act : FwAct) (offset value : Nat) {s : State} (h : MemOk s) : MemOk (fwAttempt act offset value s) := by
  fun_cases fwAttempt
  case case4 => exact physPut_memOk _ _ h
  case case6 => exact memOk_of_mem_eq h (fwMessage_mem _ _ _)
  case case7 => exact performInbound_memOk _ _ _ _ _ (s := wake s) h
  case case8 => exact noteInbound_memOk _ _ _ _ h
  all_goals exact h

theorem execRegisterWrite_keeps (space : RegSpace) (offset value : Nat) {s : State} (h : MemOk s) : Keeps (execRegisterWrite space offset value s) := by
  cases space with
  | pf => exact writePf_keeps _ _ h
  | vf n => exact writeVf_memOk _ _ _ h
  | contextTable => exact h
  | firmware act => exact fwAttempt_memOk _ _ _ h

end Sys2Proof.Machine
end
section
/-! SUPPORT. Every instruction, and every move, keeps the form of device memory. -/
namespace Sys2Proof.Machine
open Sys2Proof

/-! ### Words that are one shared word at its own operands -/

section
variable {s : State} (h : MemOk s)
include h

theorem execLea_keeps (x : XW) : Keeps (execLea x s) := regWord_keeps _ _ _ _ h
theorem execPadd_keeps (x : XW) : Keeps (execPadd x s) := regWord_keeps _ _ _ _ h
theorem execFclass_keeps (x : XW) : Keeps (execFclass x s) := regWord_keeps _ _ _ _ h
theorem execFscale_keeps (x : XW) : Keeps (execFscale x s) := regWord_keeps _ _ _ _ h
theorem execCvt_keeps (x : XW) : Keeps (execCvt x s) := regWord_keeps _ _ _ _ h
theorem execShfl_keeps (x : XW) : Keeps (execShfl x s) := regWord_keeps _ _ _ _ h
theorem execShflx_keeps (x : XW) : Keeps (execShflx x s) := regWord_keeps _ _ _ _ h
theorem execBcast_keeps (x : XW) : Keeps (execBcast x s) := regWord_keeps _ _ _ _ h
theorem execRed_keeps (x : XW) : Keeps (execRed x s) := regWord_keeps _ _ _ _ h
theorem execScan_keeps (x : XW) : Keeps (execScan x s) := regWord_keeps _ _ _ _ h
theorem execKpop_keeps (x : XW) : Keeps (execKpop x s) := regWord_keeps _ _ _ _ h
theorem execKff1_keeps (x : XW) : Keeps (execKff1 x s) := regWord_keeps _ _ _ _ h
theorem execKget_keeps (x : XW) : Keeps (execKget x s) := regWord_keeps _ _ _ _ h
theorem execQpush_keeps (y : YW) : Keeps (execQpush y s) := quernQueue_keeps _ _ _ _ h
theorem execQlenInit_keeps (y : YW) : Keeps (execQlenInit y s) := quernQueue_keeps _ _ _ _ h
theorem execDcdec_keeps (y : YW) : Keeps (execDcdec y s) := quernQueue_keeps _ _ _ _ h
theorem execDcset_keeps (y : YW) : Keeps (execDcset y s) := quernQueue_keeps _ _ _ _ h
theorem execCscale_keeps (q : QW) : Keeps (execCscale q s) := scaleTile_keeps _ _ h
theorem execCscaleRow_keeps (q : QW) : Keeps (execCscaleRow q s) := scaleTile_keeps _ _ h
theorem execCscaleCol_keeps (q : QW) : Keeps (execCscaleCol q s) := scaleTile_keeps _ _ h
theorem execNop_keeps (j : JW) : Keeps (execNop j s) := branch_keeps _ _ h
theorem execBra_keeps (j : JW) : Keeps (execBra j s) := branch_keeps _ _ h
theorem execBz_keeps (j : JW) : Keeps (execBz j s) := branch_keeps _ _ h
theorem execBnz_keeps (j : JW) : Keeps (execBnz j s) := branch_keeps _ _ h
theorem execBany_keeps (j : JW) : Keeps (execBany j s) := branch_keeps _ _ h
theorem execBall_keeps (j : JW) : Keeps (execBall j s) := branch_keeps _ _ h
theorem execBnone_keeps (j : JW) : Keeps (execBnone j s) := branch_keeps _ _ h

end

/-! ### Every instruction, every move -/

/-- Words of one shape have one argument; every other arm has the lemma of its own operation. -/
theorem exec_keeps (i : Instr) {s : State} (h : MemOk s) : Keeps (exec i s) := by
  cases i with
  | add | sub | adds | subs | mul | mulh | mad | abs | min | max | and | or | xor | andn | shl | shr | sar | rol | clz | popc | brev | bfx | bfi | divu
  | remu | sel | hmix | fadd | fsub | fmul | fma | fmin | fmax | fabs | fneg | frnd | fsqrt | pack | unpk => exact xWord_keeps _ _ h
  | mov => exact execMov_keeps _ h
  | lea => exact execLea_keeps h _
  | padd => exact execPadd_keeps h _
  | fclass => exact execFclass_keeps h _
  | fscale => exact execFscale_keeps h _
  | cvt => exact execCvt_keeps h _
  | shfl => exact execShfl_keeps h _
  | shflx => exact execShflx_keeps h _
  | bcast => exact execBcast_keeps h _
  | red => exact execRed_keeps h _
  | scan => exact execScan_keeps h _
  | kpop => exact execKpop_keeps h _
  | kff1 => exact execKff1_keeps h _
  | kget => exact execKget_keeps h _
  | frcp | frsq | fexp2 | flog2 | ftanh => exact iterWord_keeps _ _ h
  | cmp | fcmp | kop | kset => exact maskWord_keeps _ _ h
  | ld => exact execLd_keeps _ h
  | st => exact execSt_keeps _ h
  | lds => exact execLds_keeps _ h
  | sts => exact execSts_keeps _ h
  | ldb | ldbZ => exact bufLoad_keeps _ _ h
  | stb | stbZ => exact bufStore_keeps _ _ h
  | ldc | ldcCol => exact loadTile_keeps _ _ h
  | stc | stcCol => exact storeTile_keeps _ _ h
  | atom => exact execAtom_keeps _ h
  | ared => exact execAred_keeps _ h
  | cpy => exact execCpy_keeps _ h
  | cpyLane => exact execCpyLane_keeps _ h
  | cpyt => exact execCpyt_keeps _ h
  | cpytW => exact execCpytW_keeps _ h
  | fence => exact execFence_keeps _ h
  | waitc => exact execWaitc_keeps _ h
  | pref => exact execPref_keeps _ h
  | tagset => exact execTagset_keeps _ h
  | tagget => exact execTagget_keeps _ h
  | ptag => exact execPtag_keeps _ h
  | clean | cleanInv => exact cleanWord_keeps _ _ h
  | wres => exact execWres_keeps _ h
  | wrel => exact execWrel_keeps _ h
  | wstat => exact execWstat_keeps _ h
  | qcvt => exact execQcvt_keeps _ h
  | qcvtW => exact execQcvtW_keeps _ h
  | mloop => exact execMloop_keeps _ h
  | mloopPeer => exact execMloopPeer_keeps _ h
  | czero => exact execCzero_keeps _ h
  | cadd => exact execCadd_keeps _ h
  | caddPeer => exact execCaddPeer_keeps _ h
  | cscale => exact execCscale_keeps h _
  | cscaleRow => exact execCscaleRow_keeps h _
  | cscaleCol => exact execCscaleCol_keeps h _
  | demand => exact execDemand_keeps _ h
  | tolrd => exact execTolrd_keeps _ h
  | toltab => exact execToltab_keeps _ h
  | kappend => exact execKappend_keeps _ h
  | kstep => exact execKstep_keeps _ h
  | ksig => exact execKsig_keeps _ h
  | kgather => exact execKgather_keeps _ h
  | kfetch | kfetchV | kfetchW | kfetchWV => exact fetchWord_keeps _ _ h
  | kslot => exact execKslot_keeps _ h
  | kstat => exact execKstat_keeps _ h
  | bar => exact execBar_keeps _ h
  | barC => exact execBarC_keeps _ h
  | arrive | arriveC => exact arriveWord_keeps _ _ h
  | bwait => exact execBwait_keeps _ h
  | bwaitC => exact execBwaitC_keeps _ h
  | drainB | drainC => exact drainWord_keeps _ _ h
  | phase => exact execPhase_keeps _ h
  | yield => exact execYield_keeps _ h
  | qpush => exact execQpush_keeps h _
  | qlenInit => exact execQlenInit_keeps h _
  | dcdec => exact execDcdec_keeps h _
  | dcset => exact execDcset_keeps h _
  | qpop => exact execQpop_keeps _ h
  | qtry => exact execQtry_keeps _ h
  | qlen => exact execQlen_keeps _ h
  | poll => exact execPoll_keeps _ h
  | launch => exact execLaunch_keeps _ h
  | nop => exact execNop_keeps h _
  | bra => exact execBra_keeps h _
  | bz => exact execBz_keeps h _
  | bnz => exact execBnz_keeps h _
  | bany => exact execBany_keeps h _
  | ball => exact execBall_keeps h _
  | bnone => exact execBnone_keeps h _
  | loop => exact execLoop_keeps _ h
  | call => exact execCall_keeps _ h
  | ret | jmpi => exact jump_keeps _ h
  | endWave => exact execEndWave_keeps _ h
  | sysr => exact readWord_keeps _ _ h
  | sysw => exact execSysw_keeps _ h
  | trap => exact execTrap_keeps _ h
  | tret => exact execTret_keeps _ h
  | bkpt => exact execBkpt_keeps _ h
  | ticks => exact execTicks_keeps _ h
  | kill => exact execKill_keeps _ h
  | killGrid => exact execKillGrid_keeps _ h
  | faultrd => exact execFaultrd_keeps _ h
  | rpt | rptRegister => exact repeatWord_keeps _ _ _ h
  | clauseStart => exact execClauseStart_keeps _ h
  | eligibilityAgeExpiry => exact execEligibilityAgeExpiry_keeps _ h
  | loadDataReturn => exact execLoadDataReturn_keeps _ _ _ h
  | storeAcknowledge => exact execStoreAcknowledge_keeps _ _ h
  | operationRetire => exact execOperationRetire_keeps _ _ h
  | releasedQuernOperation => exact execReleasedQuernOperation_keeps _ h
  | sideLogReplay => exact execSideLogReplay_keeps _ h
  | blockComplete => exact execBlockComplete_keeps _ h
  | blockPlace => exact execBlockPlace_keeps _ _ h
  | placementAgeExpiry => exact execPlacementAgeExpiry_keeps _ h
  | displace => exact execDisplace_keeps _ h
  | pageListEntryRead => exact execPageListEntryRead_keeps _ _ h
  | landingSlotGrant => exact execLandingSlotGrant_keeps _ _ h
  | flashSenseComplete => exact execFlashSenseComplete_keeps _ _ h
  | lunTimeout => exact execLunTimeout_keeps _ h
  | phaseSave => exact execPhaseSave_keeps _ h
  | phaseTimeReached => exact execPhaseTimeReached_keeps _ h
  | phaseResume => exact execPhaseResume_keeps _ _ h
  | pollAttempt => exact execPollAttempt_keeps _ h
  | involuntarySave => exact execInvoluntarySave_keeps _ h
  | yieldExpiry => exact execYieldExpiry_keeps _ h
  | quantumEnd => exact execQuantumEnd_keeps _ h
  | contextSave => exact execContextSave_keeps _ h
  | coreScrub => exact execCoreScrub_keeps _ h
  | contextRestore => exact execContextRestore_keeps _ _ h
  | appendArrival => exact execAppendArrival_keeps _ _ _ h
  | stepFiling => exact execStepFiling_keeps _ _ h
  | tailraceWriteback => exact execTailraceWriteback_keeps _ h
  | flashProgramComplete => exact execFlashProgramComplete_keeps _ _ h
  | load => exact execLoad_keeps _ h
  | inval => exact execInval_keeps _ h
  | invalComplete => exact execInvalComplete_keeps h
  | teardown => exact execTeardown_keeps _ h
  | teardownComplete => exact execTeardownComplete_keeps h
  | grant => exact execGrant_keeps _ h
  | erase => exact execErase_keeps _ h
  | eraseComplete => exact execEraseComplete_keeps _ h
  | ring => exact execRing_keeps _ h
  | reclog => exact execReclog_keeps _ h
  | pfUnassigned => exact execPfUnassigned_keeps _ _ h
  | launchTailWrite => exact execLaunchTailWrite_keeps _ _ h
  | launchEntry => exact execLaunchEntry_keeps _ _ _ h
  | completionHeadWrite => exact execCompletionHeadWrite_keeps _ _ h
  | partitionTableWrite => exact execPartitionTableWrite_keeps _ _ _ h
  | quantumTableWrite => exact execQuantumTableWrite_keeps _ _ _ h
  | registerWrite => exact execRegisterWrite_keeps _ _ _ h
  | bar2Access => exact execBar2Access_keeps _ _ _ _ h
  | driveInboundRequest => exact execDriveInboundRequest_keeps _ _ _ _ h
  | mailboxWrite => exact execMailboxWrite_keeps _ _ _ _ h
  | linkInboundAccess => exact execLinkInboundAccess_keeps _ _ _ _ _ h
  | mmioTimeout => exact execMmioTimeout_keeps _ _ h
  | brakeN | freezeCommand | brk => exact memOk_of_mem_eq h (freeze_mem s)
  | brakeFlit => exact execBrakeFlit_keeps _ h
  | scanRead => exact execScanRead_keeps _ _ _ _ h
  | packageReset => exact execPackageReset_keeps h
  | fire => exact execFire_keeps h
  | watchdogTimeout => exact execWatchdogTimeout_keeps h
  | firmwareImage => exact execFirmwareImage_keeps _ h
  | replayTimeout => exact execReplayTimeout_keeps _ _ _ h
  | ringSend => exact execRingSend_keeps _ _ h
  | revolutionReceived => exact execRevolutionReceived_keeps _ _ _ _ h
  | ringStallTimeout => exact execRingStallTimeout_keeps _ _ h
  | linkFailure => exact execLinkFailure_keeps _ h
  | ringFailureNotice => exact execRingFailureNotice_keeps _ _ _ _ h
  | idleEntry => exact execIdleEntry_keeps h
  | idleWakeTimer => exact execIdleWakeTimer_keeps h
  | linkTrained => exact execLinkTrained_keeps _ _ h
  | arevAdvance => exact execArevAdvance_keeps _ _ _ h
  | detectionByAnyMember => exact execDetectionByAnyMember_keeps _ _ _ _ h

theorem settle_keeps (i : Instr) (key : Nat) (before : State) {r : Result} (hr : Keeps r) : Keeps (settle i key before r) := by
  fun_cases settle
  case case1 => exact memOk_of_mem_eq hr (retireWave_mem _ _)
  all_goals exact hr

theorem issueStep_keeps (key : Nat) {s : State} (h : MemOk s) : Keeps (issueStep key s) := by
  fun_cases issueStep
  · exact h
  · exact settle_keeps _ _ _ (exec_keeps _ (memOk_of_mem_eq h (issuing_mem _ _)))
  · exact illegalWord_keeps _ h
  · exact h

@[simp] theorem spoil_mem (g : Nat) (s : State) : (spoil g s).mem = s.mem := by
  fun_cases spoil <;> rfl

theorem moveStep_keeps (m : Move) {s : State} (h : MemOk s) : Keeps (moveStep m s) := by
  cases m with
  | issue key => exact issueStep_keeps _ h
  | event i => exact keeps_ite h (exec_keeps _ h)
  | pass cycles ticks => exact memOk_of_mem_eq h (passTime_mem _ _ _)
  | spoil granule => exact memOk_of_mem_eq h (spoil_mem _ _)
  | drive unit answers => exact h

theorem frozenStep_keeps (m : Move) {s : State} (h : MemOk s) : Keeps (frozenStep m s) := by
  cases m with
  | event i => exact keeps_ite (exec_keeps _ h) (keeps_ite h h)
  | issue | pass | spoil | drive => exact h

theorem step_keeps {s : State} (h : MemOk s) : Keeps (step s) := by
  have hn : MemOk (nextMove s).2 := memOk_of_mem_eq h (nextMove_mem s)
  exact keeps_ite (frozenStep_keeps _ hn) (moveStep_keeps _ hn)

end Sys2Proof.Machine
end
section
namespace Sys2Proof
open Sys2Proof.Machine

/-- Settles O47: a step is a move, a move's instruction keeps the canonical form (`exec_keeps`), and so does everything else a move does. -/
theorem memoryStaysCanonical : Obligations.MemoryStaysCanonical := by
  intro s t h e
  have hs : Keeps (step s) := step_keeps h
  rw [e] at hs
  exact hs

end Sys2Proof
end
section
/-! SUPPORT. The status words of a grid (R62): what leaves them as they are, what the end of a block writes, and what BLOCK_COMPLETE does while a replay has another operation come first at the block's word (R320). -/
namespace Sys2Proof.Machine
open Sys2Proof

/-! ### What leaves every status word as it is -/

theorem statusSet_of_grids {s t : State} (h : t.grids = s.grids) (gid num : Nat) : statusSet t gid num = statusSet s gid num := by
  simp only [statusSet, h]

/-- A grid is put back with the status words it had. -/
theorem statusSet_putGrid {k : Nat} {g : Grid} {s t : State} (hg : mget s.grids k = some g) (ht : ∃ g', t.grids = mput s.grids k g' ∧ g'.status = g.status)
    (gid num : Nat) : statusSet t gid num = statusSet s gid num := by
  obtain ⟨g', ht, h⟩ := ht
  by_cases hk : gid = k
  · subst hk
    simp [statusSet, hasStatus, ht, hg, h]
  · simp [statusSet, ht, mget_mput_ne _ _ hk]

theorem statusSet_modGrid {k : Nat} {f : Grid → Grid} (hf : ∀ g, (f g).status = g.status) (s : State) (gid num : Nat) :
    statusSet (modGrid k f s) gid num = statusSet s gid num := by
  fun_cases modGrid k f s
  case case1 g hg => exact statusSet_putGrid hg ⟨_, rfl, hf g⟩ gid num
  case case2 => rfl

theorem statusSet_foldl {α : Type} {f : State → α → State} {gid num : Nat} (hf : ∀ t a, statusSet (f t a) gid num = statusSet t gid num) (l : List α) (s : State) :
    statusSet (l.foldl f s) gid num = statusSet s gid num := by
  induction l generalizing s with
  | nil => rfl
  | cons a rest ih => rw [List.foldl_cons, ih, hf]

theorem startBlock_grids (d : Desc) (bk num : Nat) (s : State) : (startBlock d bk num s).grids = s.grids := modBlock_grids _ _ _

theorem statusSet_blockRunnable (k n : Nat) (s : State) (gid num : Nat) : statusSet (blockRunnable k n s) gid num = statusSet s gid num := by
  fun_cases blockRunnable k n s
  case case1 => rfl
  case case2 => rfl
  case case3 g hg _ _ s1 _ _ _ => exact statusSet_putGrid hg ⟨_, startBlock_grids _ _ _ s1, by rfl⟩ gid num
  all_goals exact statusSet_putGrid (by assumption) ⟨_, rfl, by rfl⟩ gid num

theorem statusSet_syncWrite (asid a : Nat) (x : Word64) (s : State) (gid num : Nat) : statusSet (syncWrite asid a x s) gid num = statusSet s gid num := by
  unfold syncWrite
  split
  · rfl
  · dsimp only
    rw [statusSet_of_grids (wakePhases_grids _ _)]
    split
    · rw [statusSet_foldl (by intro t p; exact statusSet_blockRunnable _ _ _ _ _)]
      exact statusSet_of_grids (modCtx_grids _ _ _) gid num
    · exact statusSet_of_grids (modCtx_grids _ _ _) gid num

theorem statusSet_plainWrite (asid a : Nat) (x : Word64) (s : State) (gid num : Nat) : statusSet (plainWrite asid a x s) gid num = statusSet s gid num := by
  fun_cases plainWrite asid a x s
  case case2 => exact statusSet_syncWrite _ _ _ _ _ _
  all_goals rfl

theorem statusSet_counterDec (asid a : Nat) (s : State) (gid num : Nat) : statusSet (counterDec asid a s) gid num = statusSet s gid num := by
  fun_cases counterDec asid a s
  case case3 => exact statusSet_plainWrite _ _ _ _ _ _
  all_goals rfl

theorem syncWrite32_grids (asid a : Nat) (x : Word32) (s : State) : (syncWrite32 asid a x s).grids = s.grids := by
  fun_cases syncWrite32 asid a x s
  case case1 => rfl
  case case2 => rw [wakePhases_grids, modCtx_grids]

theorem askGroup_grids (gid num : Nat) (s : State) : (askGroup gid num s).grids = s.grids := by rw [askGroup_frame]

theorem freeSlice_grids (asid : Nat) (b : Block) (s : State) : (freeSlice asid b s).grids = s.grids := by
  fun_cases freeSlice asid b s
  case case1 => exact modCtx_grids _ _ _
  case case2 => rfl

theorem postCompletion_grids (n tag kind code : Nat) (s : State) : (postCompletion n tag kind code s).grids = s.grids := by
  unfold postCompletion writeCompletion
  dsimp only
  split
  · rfl
  · rw [emit_grids, physPut_frame]

theorem logAppend_grids (asid w0 w1 w2 w3 : Nat) (s : State) : (logAppend asid w0 w1 w2 w3 s).grids = s.grids := by
  rw [logAppend_frame]

theorem statusSet_checkCluster (k grp n : Nat) (s : State) (gid num : Nat) : statusSet (checkCluster k grp n s) gid num = statusSet s gid num := by
  fun_cases checkCluster k grp n s
  case case1 => rfl
  case case2 g hg nums x _ y s1 =>
    rw [statusSet_foldl (by intro t m; exact statusSet_of_grids (modBlock_grids _ _ t) gid num)]
    exact statusSet_putGrid hg ⟨_, rfl, by rfl⟩ gid num
  case case3 => rfl

theorem statusSet_checkGridBar (k n : Nat) (s : State) (gid num : Nat) : statusSet (checkGridBar k n s) gid num = statusSet s gid num := by
  fun_cases checkGridBar k n s
  case case1 => rfl
  case case2 => rw [statusSet_of_grids (wakePhases_grids _ _), statusSet_modGrid (by intro g; rfl)]
  case case3 => rfl

theorem statusSet_checkGridDone (k : Nat) (s : State) (gid num : Nat) : statusSet (checkGridDone k s) gid num = statusSet s gid num := by
  unfold checkGridDone
  split
  · rfl
  · next g hg =>
    split
    · rfl
    · extract_lets s1 s2 s3
      have h1 : statusSet s1 gid num = statusSet s gid num := statusSet_putGrid hg ⟨_, rfl, by rfl⟩ gid num
      have h2 : statusSet s2 gid num = statusSet s1 gid num := by
        unfold s2
        split
        · rfl
        · exact statusSet_counterDec _ _ _ _ _
      have h3 : statusSet s3 gid num = statusSet s2 gid num := by
        unfold s3
        split
        · exact statusSet_of_grids (postCompletion_grids _ _ _ _ _) gid num
        · rfl
      rw [← h1, ← h2, ← h3]
      split
      · rfl
      · split
        · rfl
        · split
          · rfl
          · rw [statusSet_of_grids (modCtx_grids _ _ _)]
            split
            · rfl
            · exact statusSet_of_grids (logAppend_grids _ _ _ _ _ _) gid num

/-! ### The status word of a block that ends -/

/-- Where Quern writes the status word of a block, the block has its status exactly where that word is not 0: 0 is what a block without a status reads as. -/
theorem statusSet_setStatus {gid num : Nat} {x : Word32} {s : State} (h : statusEarly s gid num = true) : statusSet (setStatus gid num x s) gid num = (x != 0) := by
  simp only [statusEarly, Bool.and_eq_true, Bool.not_eq_true', Option.isNone_iff_eq_none] at h
  obtain ⟨hs, ho⟩ := h
  obtain ⟨g, hg⟩ : ∃ g, mget s.grids gid = some g := by
    by_contra hn
    simp [statusOp, Option.eq_none_iff_forall_ne_some.mpr (fun g hg => hn ⟨g, hg⟩)] at ho
  have hn : hasStatus g num = false := by simpa [statusSet, hg] using hs
  simp only [setStatus, hs, ho, hg, hn, Bool.false_eq_true, if_false, Option.getD_none]
  rw [statusSet_checkGridDone, statusSet_foldl (by intro t n; exact statusSet_checkGridBar _ _ _ _ _),
    statusSet_foldl (by intro t n; exact statusSet_checkCluster _ _ _ _ _ _),
    statusSet_of_grids ((syncWrite32_grids _ _ _ _).trans ((askGroup_grids _ _ _).trans (freeSlice_grids _ _ _)))]
  simp [statusSet, hasStatus, dropRequests, mgetD_mput]

/-- BLOCK_COMPLETE that is due while a replay has another operation come first at the block's status word (R320): the event is held, and nothing changes, exactly where the status word is not 0. -/
theorem execBlockComplete_of_statusEarly {bk : Nat} {b : Block} {s : State} (hb : mget s.blocks bk = some b) (hl : b.life ≠ .done) (hw : wavesOf s bk ≠ [])
    (hd : drained s bk = true) (he : statusEarly s b.gid b.num = true) :
    execBlockComplete bk s = .next (if endStatus b = 0 then setStatus b.gid b.num 0 s else s) := by
  simp only [execBlockComplete, hb, hl, hd, List.isEmpty_iff, hw, not_true_eq_false, or_self, if_false, unlessEarly, he, statusSet_setStatus he, Bool.true_and]
  by_cases hx : endStatus b = 0
  · rw [hx]
    rfl
  · rw [if_pos (by simpa using hx), if_neg hx]

/-- A status word done or faulted whose RL fits its three bits (R62) is not 0. -/
theorem statusWord_ne_zero {st rl : Nat} (gt sd : Bool) (h1 : 1 ≤ st) (h2 : st ≤ 2) (hr : rl < 8) : statusWord st 0 gt sd rl ≠ 0 := by
  intro hz
  have hn : (statusWord st 0 gt sd rl).toNat = 0 := congrArg BitVec.toNat hz
  simp only [statusWord, BitVec.toNat_ofNat] at hn
  cases gt <;> cases sd <;> simp at hn <;> omega

theorem endStatus_ne_zero {b : Block} (hr : b.rl < 8) : endStatus b ≠ 0 := by
  fun_cases endStatus b
  · exact statusWord_ne_zero false b.sd (by decide) (by decide) hr
  · exact statusWord_ne_zero true b.sd (by decide) (by decide) hr
  · exact statusWord_ne_zero false b.sd (by decide) (by decide) hr

/-- What does hold of a completion that comes early: where RL fits its field (R62), the event is held and nothing changes (R320). -/
theorem blockComplete_of_statusEarly {bk : Nat} {b : Block} {s : State} (hb : mget s.blocks bk = some b) (hl : b.life ≠ .done) (hw : wavesOf s bk ≠ [])
    (hd : drained s bk = true) (he : statusEarly s b.gid b.num = true) (hr : b.rl < 8) : exec (.blockComplete bk) s = .next s :=
  (execBlockComplete_of_statusEarly hb hl hw hd he).trans (by rw [if_neg (endStatus_ne_zero hr)])

/-! ### A block whose RL does not fit its field -/

/-- A block of one wave in a grid of two blocks, with its status words at sync address 64. -/
def overrunDesc : Desc :=
  { kind := 0, prio := 0, det := false, fpol := false, rmode := 2, gs := 1, pwoff := 0, au := 0, cv := 0, cs := 0, va := 1, nw := 1
    entry := 0, args := 0, pgf := 0, w1 := 0, w2 := 0, w3 := 0, w4 := 0, w5 := 0, ext3 := 2, ext4 := 1, ext5 := 1
    plist := 0, dcbase := 0, stbase := 64, prbase := 0, gdone := 0, stksz := 0 }

def overrunGrid : Grid :=
  { asid := 0, d := overrunDesc, status := [], runnable := [], listed := [], gbar := [], cbars := [], done := false, launcher := none }

/-- The grid is replayed from a log area at address 0. -/
def overrunCtx : Ctx :=
  { ent := { part := 0, root := 0, sbk := 0, stks := 0, syncsz := 1, stkb := 0, save := 0, fql := 0, fqb := 0, dspn := 0, fgn := 0, fgt := 0 }
    sync := [], queues := [], slices := [], lost := false, regions := [], rings := []
    log := some { base := 0, units := 1, written := 0, grids := [0], replay := true, used := [], lifted := [], full := false, began := 0, stamps := [] }
    saved := false }

/-- ST = 1 and RL = 384 add up to 2^30 + 384 · 2^23 = 2^32, which the 32 bits of the status word cut to 0. -/
def overrunBlock : Block := { freshBlock 0 0 with life := .running, core := some 0, rl := 384 }

/-- Block 0 has ended and drained; the log's one record is a Quern operation of block 1 at the status word of block 0. -/
def overrunState : State :=
  { State.reset with
    mem := [(0, 1), (7, 0x40), (8, 64)]
    ctxs := [(0, overrunCtx)]
    grids := [(0, overrunGrid)]
    blocks := [(0, overrunBlock)]
    waves := [(0, { freshWave overrunDesc 0 0 0 0 with ended := true })] }

theorem endStatus_overrunBlock : endStatus overrunBlock = 0 := by decide
theorem drained_overrunState : drained overrunState 0 = true := by decide +kernel
theorem wavesOf_overrunState : wavesOf overrunState 0 ≠ [] := by decide +kernel
theorem statusEarly_overrunState : statusEarly overrunState 0 0 = true := by decide +kernel

/-- The completion that should be held takes place all the same, and the block's wave is gone. -/
theorem blockComplete_overrunState : exec (.blockComplete 0) overrunState = .next (setStatus 0 0 0 overrunState) := by
  have h := execBlockComplete_of_statusEarly (s := overrunState) (b := overrunBlock) rfl (by decide) wavesOf_overrunState drained_overrunState statusEarly_overrunState
  rwa [if_pos endStatus_overrunBlock] at h

theorem waves_setStatus_overrunState : (setStatus 0 0 0 overrunState).waves = [] := by decide +kernel

end Sys2Proof.Machine
end
section
namespace Sys2Proof
open Sys2Proof.Machine

/-- Refutes O56, in its first clause: of a completion whose status word a replay has come later, it says that nothing changes, for every block. A block record with RL = 384, which does not fit the three bits of R62 and which the statement does not exclude, ends with the status word 0; the model takes that for no status, so it does not hold the event, and the block and its wave are gone. With RL below 8 the clause holds (`blockComplete_of_statusEarly`). -/
theorem not_blockEvents : ¬ Obligations.BlockEvents := by
  intro h
  obtain ⟨completes, -⟩ := h
  have held : exec (.blockComplete 0) overrunState = .next overrunState :=
    (completes 0 overrunBlock overrunGrid overrunCtx overrunState rfl rfl rfl rfl (by decide) wavesOf_overrunState drained_overrunState rfl).1 statusEarly_overrunState
  have same : setStatus 0 0 0 overrunState = overrunState := Host.Outcome.next.inj (blockComplete_overrunState.symm.trans held)
  have gone := waves_setStatus_overrunState
  rw [same] at gone
  exact absurd gone (by decide)

end Sys2Proof
end
section
/-! SUPPORT. Encoding and decoding of one word (R26 to R33): operand codes, the fields of each format, the opcode map, in both directions. -/
namespace Sys2Proof

/-! ### Operand codes (R29) -/

theorem Operand.listed_of_accepts {q : Slot} {o : Operand} (h : q.accepts o = true) : o.listed = true := by
  cases o with
  | int n =>
    simp only [Slot.accepts, Bool.and_eq_true] at h
    obtain ⟨-, inRange, -⟩ := h
    exact inRange
  | _ => rfl

theorem toNat_append_eq {k n : Nat} (x : BitVec k) (y : BitVec n) : (x ++ y).toNat = x.toNat * 2 ^ n + y.toNat := by
  rw [BitVec.toNat_append, ← Nat.shiftLeft_add_eq_or_of_lt y.isLt, Nat.shiftLeft_eq]

theorem extractLsb'_append_low {k n : Nat} (x : BitVec k) (y : BitVec n) : (x ++ y).extractLsb' 0 n = y := by
  rw [BitVec.extractLsb'_append_eq_of_add_le (by omega), BitVec.extractLsb'_eq_self]

theorem append_extractLsb'_eq {k n : Nat} {x : BitVec k} {c : BitVec (k + n)} (h : c.toNat / 2 ^ n = x.toNat) : x ++ c.extractLsb' 0 n = c := by
  apply BitVec.eq_of_toNat_eq
  rw [toNat_append_eq, ← h, BitVec.extractLsb'_toNat, Nat.shiftRight_zero, Nat.div_add_mod']

theorem Operand.decode_v {c : BitVec 9} (h : c.toNat < 0x100) : decode c = some (.v (c.extractLsb' 0 8)) := if_pos h

theorem Operand.decode_s {c : BitVec 9} (h : 0x100 ≤ c.toNat) (h' : c.toNat < 0x140) : decode c = some (.s (c.extractLsb' 0 6)) := by
  dsimp only [decode]
  rw [if_neg (by omega), if_pos h']

theorem Operand.decode_k {c : BitVec 9} (h : 0x140 ≤ c.toNat) (h' : c.toNat < 0x148) : decode c = some (.k (c.extractLsb' 0 3)) := by
  dsimp only [decode]
  rw [if_neg (by omega), if_neg (by omega), if_pos h']

theorem Operand.decode_int {c : BitVec 9} (h : 0x180 ≤ c.toNat) (h' : c.toNat < 0x1E0) : decode c = some (.int (c.extractLsb' 0 7)) := by
  dsimp only [decode]
  repeat rw [if_neg (by omega)]
  rw [if_pos h']

theorem Operand.decode_fc {c : BitVec 9} (h : 0x1E0 ≤ c.toNat) (h' : c.toNat < 0x1F0) : decode c = some (.fc (c.extractLsb' 0 4)) := by
  dsimp only [decode]
  repeat rw [if_neg (by omega)]
  rw [if_pos h']

/-- The code of a listed operand stands for that operand. -/
theorem Operand.decode_encode {o : Operand} (h : o.listed = true) : Operand.decode o.encode = some o := by
  cases o with
  | v n =>
    have code : (v n).encode.toNat = 0 + n.toNat := toNat_append_eq _ _
    exact (decode_v (by omega)).trans (congrArg (fun x => some (Operand.v x)) (extractLsb'_append_low _ n))
  | s n =>
    have code : (s n).encode.toNat = 0x100 + n.toNat := toNat_append_eq _ _
    exact (decode_s (by omega) (by omega)).trans (congrArg (fun x => some (Operand.s x)) (extractLsb'_append_low _ n))
  | k n =>
    have code : (k n).encode.toNat = 0x140 + n.toNat := toNat_append_eq _ _
    exact (decode_k (by omega) (by omega)).trans (congrArg (fun x => some (Operand.k x)) (extractLsb'_append_low _ n))
  | int n =>
    have code : (int n).encode.toNat = 0x180 + n.toNat := toNat_append_eq _ _
    have := of_decide_eq_true h
    exact (decode_int (by omega) (by omega)).trans (congrArg (fun x => some (Operand.int x)) (extractLsb'_append_low _ n))
  | fc n =>
    have code : (fc n).encode.toNat = 0x1E0 + n.toNat := toNat_append_eq _ _
    exact (decode_fc (by omega) (by omega)).trans (congrArg (fun x => some (Operand.fc x)) (extractLsb'_append_low _ n))
  | _ => rfl

theorem ite_some_cases {α : Type} {p : Prop} [Decidable p] {a b : α} {x : Option α} (h : (if p then some a else x) = some b) :
    (p ∧ a = b) ∨ (¬ p ∧ x = some b) := by
  by_cases hp : p
  · exact .inl ⟨hp, Option.some.inj (by rwa [if_pos hp] at h)⟩
  · exact .inr ⟨hp, by rwa [if_neg hp] at h⟩

/-- What a code stands for is listed and has that code. -/
theorem Operand.listed_and_encode_of_decode {c : BitVec 9} {o : Operand} (h : Operand.decode c = some o) : o.listed = true ∧ o.encode = c := by
  have := c.isLt
  dsimp only [decode] at h
  rcases ite_some_cases h with ⟨hv, rfl⟩ | ⟨hv, h⟩
  · exact ⟨rfl, append_extractLsb'_eq (x := 0#1) (n := 8) (c := c) (Nat.div_eq_of_lt hv)⟩
  rcases ite_some_cases h with ⟨hs, rfl⟩ | ⟨hs, h⟩
  · exact ⟨rfl, append_extractLsb'_eq (x := 0b100#3) (n := 6) (c := c) (show c.toNat / 64 = 4 by omega)⟩
  rcases ite_some_cases h with ⟨hk, rfl⟩ | ⟨hk, h⟩
  · exact ⟨rfl, append_extractLsb'_eq (x := 0b101000#6) (n := 3) (c := c) (show c.toNat / 8 = 40 by omega)⟩
  iterate 7
    rcases ite_some_cases h with ⟨hc, rfl⟩ | ⟨hc, h⟩
    · exact ⟨rfl, BitVec.eq_of_toNat_eq hc.symm⟩
  by_cases hr : c.toNat < 0x180
  · rw [if_pos hr] at h
    cases h
  rw [if_neg hr] at h
  rcases ite_some_cases h with ⟨hi, rfl⟩ | ⟨hi, h⟩
  · have low : (c.extractLsb' 0 7).toNat = c.toNat % 128 := by simp
    exact ⟨decide_eq_true (by omega), append_extractLsb'_eq (x := 0b11#2) (n := 7) (c := c) (show c.toNat / 128 = 3 by omega)⟩
  rcases ite_some_cases h with ⟨hf, rfl⟩ | ⟨hf, h⟩
  · exact ⟨rfl, append_extractLsb'_eq (x := 0b11110#5) (n := 4) (c := c) (show c.toNat / 16 = 30 by omega)⟩
  rcases ite_some_cases h with ⟨hc, rfl⟩ | ⟨-, h⟩
  · exact ⟨rfl, BitVec.eq_of_toNat_eq hc.symm⟩
  · cases h

theorem Operand.decode_eq_some {c : BitVec 9} {o : Operand} : Operand.decode c = some o ↔ o.listed = true ∧ o.encode = c :=
  ⟨listed_and_encode_of_decode, fun ⟨h, e⟩ => e ▸ decode_encode h⟩

/-! ### Fields of a word -/

theorem operandAt_eq_ok {w : Word64} {lo : Nat} {o : Operand} : operandAt w lo = .ok o ↔ o.listed = true ∧ w.extractLsb' lo 9 = o.encode := by
  rw [eq_comm (b := o.encode), ← Operand.decode_eq_some]
  unfold operandAt
  cases Operand.decode (w.extractLsb' lo 9) <;> simp

theorem literalOf_eq_ok {w : Word64} {next l : Option Word64} :
    literalOf w next = .ok l ↔ w.getLsbD 1 = l.isSome ∧ ∀ x, l = some x → next = some x := by
  unfold literalOf
  cases w.getLsbD 1 <;> cases next <;> cases l <;> simp

theorem bind_eq_ok {ε α β : Type} {x : Except ε α} {f : α → Except ε β} {b : β} : (x >>= f) = .ok b ↔ ∃ a, x = .ok a ∧ f a = .ok b := by
  cases x with
  | error e => simp [bind, Except.bind]
  | ok a => simp [bind, Except.bind]

theorem getLsbD_eq_iff {w : Word64} {i : Nat} {b : Bool} : w.extractLsb' i 1 = BitVec.ofBool b ↔ w.getLsbD i = b := by
  constructor
  · intro h
    simpa using congrArg (fun x => x.getLsbD 0) h
  · intro h
    ext j hj
    have : j = 0 := by omega
    subst this
    simpa using h

theorem opOf_lt (w : Word64) : opOf w < 256 := (w.extractLsb' 56 8).isLt

theorem extractLsb'_op (w : Word64) : w.extractLsb' 56 8 = BitVec.ofNat 8 (opOf w) := by rw [opOf, BitVec.ofNat_toNat, BitVec.setWidth_eq]

theorem subOf_eq (w : Word64) : w.extractLsb' 48 4 = BitVec.ofNat 4 (subOf w).toNat := by rw [BitVec.ofNat_toNat, BitVec.setWidth_eq, subOf]

theorem guardOf_eq_iff {w : Word64} {g : Guard} : guardOf w = g ↔ w.extractLsb' 53 3 = g.g ∧ w.extractLsb' 52 1 = BitVec.ofBool g.gn := by
  rw [getLsbD_eq_iff]
  constructor
  · rintro rfl
    exact ⟨rfl, rfl⟩
  · rintro ⟨hg, hn⟩
    simp only [guardOf, hg, hn]

theorem Ty.ofCode_eq_some {c : BitVec 4} {t : Ty} : Ty.ofCode c.toNat = some t ↔ c = t.code := by
  have table : ∀ c t, Ty.ofCode (BitVec.toNat (w := 4) c) = some t ↔ c = t.code := by
    intro c t
    cases t <;> revert c <;> decide
  exact table c t

theorem layoutX {w : Word64} {op : BitVec 8} {g : BitVec 3} {gn : BitVec 1} {sub : BitVec 4} {d : BitVec 9} {a : BitVec 9} {b : BitVec 9} {c : BitVec 9} {t : BitVec 4} {m : BitVec 3} {ea : BitVec 1} {eb : BitVec 1} {ec : BitVec 1} {l : BitVec 1} {z : BitVec 1} :
    op ++ g ++ gn ++ sub ++ d ++ a ++ b ++ c ++ t ++ m ++ ea ++ eb ++ ec ++ l ++ z = w ↔
      w.extractLsb' 56 8 = op ∧ w.extractLsb' 53 3 = g ∧ w.extractLsb' 52 1 = gn ∧ w.extractLsb' 48 4 = sub ∧ w.extractLsb' 39 9 = d ∧ w.extractLsb' 30 9 = a ∧ w.extractLsb' 21 9 = b ∧ w.extractLsb' 12 9 = c ∧ w.extractLsb' 8 4 = t ∧ w.extractLsb' 5 3 = m ∧ w.extractLsb' 4 1 = ea ∧ w.extractLsb' 3 1 = eb ∧ w.extractLsb' 2 1 = ec ∧ w.extractLsb' 1 1 = l ∧ w.extractLsb' 0 1 = z := by
  constructor
  · rintro rfl
    simp (disch := decide) only [BitVec.extractLsb'_append_eq_of_le, BitVec.extractLsb'_append_eq_of_add_le]
    simp
  · rintro ⟨rfl, rfl, rfl, rfl, rfl, rfl, rfl, rfl, rfl, rfl, rfl, rfl, rfl, rfl, rfl⟩
    simp (disch := decide) only [BitVec.extractLsb'_append_extractLsb'_eq_extractLsb']
    exact BitVec.extractLsb'_eq_self

theorem layoutM {w : Word64} {op : BitVec 8} {g : BitVec 3} {gn : BitVec 1} {sub : BitVec 4} {d : BitVec 9} {a : BitVec 9} {b : BitVec 9} {off : BitVec 10} {sz : BitVec 3} {ord : BitVec 2} {sco : BitVec 3} {e : BitVec 1} {l : BitVec 1} {x : BitVec 1} :
    op ++ g ++ gn ++ sub ++ d ++ a ++ b ++ off ++ sz ++ ord ++ sco ++ e ++ l ++ x = w ↔
      w.extractLsb' 56 8 = op ∧ w.extractLsb' 53 3 = g ∧ w.extractLsb' 52 1 = gn ∧ w.extractLsb' 48 4 = sub ∧ w.extractLsb' 39 9 = d ∧ w.extractLsb' 30 9 = a ∧ w.extractLsb' 21 9 = b ∧ w.extractLsb' 11 10 = off ∧ w.extractLsb' 8 3 = sz ∧ w.extractLsb' 6 2 = ord ∧ w.extractLsb' 3 3 = sco ∧ w.extractLsb' 2 1 = e ∧ w.extractLsb' 1 1 = l ∧ w.extractLsb' 0 1 = x := by
  constructor
  · rintro rfl
    simp (disch := decide) only [BitVec.extractLsb'_append_eq_of_le, BitVec.extractLsb'_append_eq_of_add_le]
    simp
  · rintro ⟨rfl, rfl, rfl, rfl, rfl, rfl, rfl, rfl, rfl, rfl, rfl, rfl, rfl, rfl⟩
    simp (disch := decide) only [BitVec.extractLsb'_append_extractLsb'_eq_extractLsb']
    exact BitVec.extractLsb'_eq_self

theorem layoutQ {w : Word64} {op : BitVec 8} {g : BitVec 3} {gn : BitVec 1} {sub : BitVec 4} {ct : BitVec 6} {wa : BitVec 5} {wb : BitVec 5} {kn : BitVec 8} {ia : BitVec 9} {ib : BitVec 9} {node : BitVec 6} :
    op ++ g ++ gn ++ sub ++ ct ++ wa ++ wb ++ kn ++ ia ++ ib ++ node = w ↔
      w.extractLsb' 56 8 = op ∧ w.extractLsb' 53 3 = g ∧ w.extractLsb' 52 1 = gn ∧ w.extractLsb' 48 4 = sub ∧ w.extractLsb' 42 6 = ct ∧ w.extractLsb' 37 5 = wa ∧ w.extractLsb' 32 5 = wb ∧ w.extractLsb' 24 8 = kn ∧ w.extractLsb' 15 9 = ia ∧ w.extractLsb' 6 9 = ib ∧ w.extractLsb' 0 6 = node := by
  constructor
  · rintro rfl
    simp (disch := decide) only [BitVec.extractLsb'_append_eq_of_le, BitVec.extractLsb'_append_eq_of_add_le]
    simp
  · rintro ⟨rfl, rfl, rfl, rfl, rfl, rfl, rfl, rfl, rfl, rfl, rfl⟩
    simp (disch := decide) only [BitVec.extractLsb'_append_extractLsb'_eq_extractLsb']
    exact BitVec.extractLsb'_eq_self

theorem layoutK {w : Word64} {op : BitVec 8} {g : BitVec 3} {gn : BitVec 1} {sub : BitVec 4} {d : BitVec 9} {a : BitVec 9} {b : BitVec 9} {c : BitVec 9} {head : BitVec 8} {y : BitVec 2} {l : BitVec 1} {z : BitVec 1} :
    op ++ g ++ gn ++ sub ++ d ++ a ++ b ++ c ++ head ++ y ++ l ++ z = w ↔
      w.extractLsb' 56 8 = op ∧ w.extractLsb' 53 3 = g ∧ w.extractLsb' 52 1 = gn ∧ w.extractLsb' 48 4 = sub ∧ w.extractLsb' 39 9 = d ∧ w.extractLsb' 30 9 = a ∧ w.extractLsb' 21 9 = b ∧ w.extractLsb' 12 9 = c ∧ w.extractLsb' 4 8 = head ∧ w.extractLsb' 2 2 = y ∧ w.extractLsb' 1 1 = l ∧ w.extractLsb' 0 1 = z := by
  constructor
  · rintro rfl
    simp (disch := decide) only [BitVec.extractLsb'_append_eq_of_le, BitVec.extractLsb'_append_eq_of_add_le]
    simp
  · rintro ⟨rfl, rfl, rfl, rfl, rfl, rfl, rfl, rfl, rfl, rfl, rfl, rfl⟩
    simp (disch := decide) only [BitVec.extractLsb'_append_extractLsb'_eq_extractLsb']
    exact BitVec.extractLsb'_eq_self

theorem layoutY {w : Word64} {op : BitVec 8} {g : BitVec 3} {gn : BitVec 1} {sub : BitVec 4} {d : BitVec 9} {a : BitVec 9} {b : BitVec 9} {imm : BitVec 16} {ea : BitVec 1} {eb : BitVec 1} {y : BitVec 1} {l : BitVec 1} {z : BitVec 1} :
    op ++ g ++ gn ++ sub ++ d ++ a ++ b ++ imm ++ ea ++ eb ++ y ++ l ++ z = w ↔
      w.extractLsb' 56 8 = op ∧ w.extractLsb' 53 3 = g ∧ w.extractLsb' 52 1 = gn ∧ w.extractLsb' 48 4 = sub ∧ w.extractLsb' 39 9 = d ∧ w.extractLsb' 30 9 = a ∧ w.extractLsb' 21 9 = b ∧ w.extractLsb' 5 16 = imm ∧ w.extractLsb' 4 1 = ea ∧ w.extractLsb' 3 1 = eb ∧ w.extractLsb' 2 1 = y ∧ w.extractLsb' 1 1 = l ∧ w.extractLsb' 0 1 = z := by
  constructor
  · rintro rfl
    simp (disch := decide) only [BitVec.extractLsb'_append_eq_of_le, BitVec.extractLsb'_append_eq_of_add_le]
    simp
  · rintro ⟨rfl, rfl, rfl, rfl, rfl, rfl, rfl, rfl, rfl, rfl, rfl, rfl, rfl⟩
    simp (disch := decide) only [BitVec.extractLsb'_append_extractLsb'_eq_extractLsb']
    exact BitVec.extractLsb'_eq_self

theorem layoutJ {w : Word64} {op : BitVec 8} {g : BitVec 3} {gn : BitVec 1} {sub : BitVec 4} {a : BitVec 9} {b : BitVec 9} {off : BitVec 28} {z : BitVec 2} :
    op ++ g ++ gn ++ sub ++ a ++ b ++ off ++ z = w ↔
      w.extractLsb' 56 8 = op ∧ w.extractLsb' 53 3 = g ∧ w.extractLsb' 52 1 = gn ∧ w.extractLsb' 48 4 = sub ∧ w.extractLsb' 39 9 = a ∧ w.extractLsb' 30 9 = b ∧ w.extractLsb' 2 28 = off ∧ w.extractLsb' 0 2 = z := by
  constructor
  · rintro rfl
    simp (disch := decide) only [BitVec.extractLsb'_append_eq_of_le, BitVec.extractLsb'_append_eq_of_add_le]
    simp
  · rintro ⟨rfl, rfl, rfl, rfl, rfl, rfl, rfl, rfl⟩
    simp (disch := decide) only [BitVec.extractLsb'_append_extractLsb'_eq_extractLsb']
    exact BitVec.extractLsb'_eq_self


theorem layoutP {w : Word64} {op : BitVec 8} {zero : BitVec 8} {n : BitVec 6} {reg : BitVec 1} {creg : BitVec 9} {d : BitVec 8} {a : BitVec 8} {b : BitVec 8} {c : BitVec 8} :
    op ++ zero ++ (n ++ reg ++ creg) ++ d ++ a ++ b ++ c = w ↔
      w.extractLsb' 56 8 = op ∧ w.extractLsb' 48 8 = zero ∧ w.extractLsb' 42 6 = n ∧ w.extractLsb' 41 1 = reg ∧ w.extractLsb' 32 9 = creg ∧ w.extractLsb' 24 8 = d ∧ w.extractLsb' 16 8 = a ∧ w.extractLsb' 8 8 = b ∧ w.extractLsb' 0 8 = c := by
  constructor
  · rintro rfl
    simp (disch := decide) only [BitVec.extractLsb'_append_eq_of_le, BitVec.extractLsb'_append_eq_of_add_le]
    simp
  · rintro ⟨rfl, rfl, rfl, rfl, rfl, rfl, rfl, rfl, rfl⟩
    simp (disch := decide) only [BitVec.extractLsb'_append_extractLsb'_eq_extractLsb']
    exact BitVec.extractLsb'_eq_self

def XW.listed (x : XW) : Prop := x.d.listed = true ∧ x.a.listed = true ∧ x.b.listed = true ∧ x.c.listed = true

theorem decodeX_eq_ok {w : Word64} {next : Option Word64} {x : XW} :
    decodeX w next = .ok x ↔ x.encode (opOf w) = w ∧ x.listed ∧ ∀ l, x.lit = some l → next = some l := by
  have fields : x.encode (opOf w) = w ↔ _ := layoutX
  rw [fields]
  simp only [decodeX, bind_eq_ok, operandAt_eq_ok, literalOf_eq_ok, getLsbD_eq_iff, ← extractLsb'_op, XW.listed]
  constructor
  · rintro ⟨d, ⟨ld, hd⟩, a, ⟨la, ha⟩, b, ⟨lb, hb⟩, c, ⟨lc, hc⟩, lit, ⟨hl, next⟩, h⟩
    split at h
    · cases h
    · next t ht =>
      split at h
      · cases h
      · next hz =>
        cases h
        exact ⟨⟨trivial, rfl, rfl, rfl, hd, ha, hb, hc, Ty.ofCode_eq_some.mp ht, rfl, rfl, rfl, rfl, hl, getLsbD_eq_iff.mpr (Bool.eq_false_of_not_eq_true hz)⟩,
          ⟨ld, la, lb, lc⟩, next⟩
  · rintro ⟨⟨-, hg, hn, hs, hd, ha, hb, hc, ht, hm, hea, heb, hec, hl, hz⟩, ⟨ld, la, lb, lc⟩, next⟩
    refine ⟨x.d, ⟨ld, hd⟩, x.a, ⟨la, ha⟩, x.b, ⟨lb, hb⟩, x.c, ⟨lc, hc⟩, x.lit, ⟨hl, next⟩, ?_⟩
    have zero : w.getLsbD 0 = false := getLsbD_eq_iff.mp hz
    simp only [Ty.ofCode_eq_some.mpr ht, guardOf, subOf, hg, hn, hs, hm, hea, heb, hec, zero, Bool.false_eq_true, if_false]

def MW.listed (m : MW) : Prop := m.d.listed = true ∧ m.a.listed = true ∧ m.b.listed = true

theorem decodeM_eq_ok {w : Word64} {next : Option Word64} {m : MW} :
    decodeM w next = .ok m ↔ m.encode (opOf w) = w ∧ m.listed ∧ ∀ l, m.lit = some l → next = some l := by
  have fields : m.encode (opOf w) = w ↔ _ := layoutM
  rw [fields]
  simp only [decodeM, bind_eq_ok, operandAt_eq_ok, literalOf_eq_ok, getLsbD_eq_iff, ← extractLsb'_op, MW.listed]
  constructor
  · rintro ⟨d, ⟨ld, hd⟩, a, ⟨la, ha⟩, b, ⟨lb, hb⟩, lit, ⟨hl, next⟩, h⟩
    cases h
    exact ⟨⟨trivial, rfl, rfl, rfl, hd, ha, hb, rfl, rfl, rfl, rfl, rfl, hl, rfl⟩, ⟨ld, la, lb⟩, next⟩
  · rintro ⟨⟨-, hg, hn, hs, hd, ha, hb, hoff, hsz, hord, hsco, he, hl, hx⟩, ⟨ld, la, lb⟩, next⟩
    refine ⟨m.d, ⟨ld, hd⟩, m.a, ⟨la, ha⟩, m.b, ⟨lb, hb⟩, m.lit, ⟨hl, next⟩, ?_⟩
    simp only [guardOf, subOf, hg, hn, hs, hoff, hsz, hord, hsco, he, hx]

def QW.listed (q : QW) : Prop := q.ia.listed = true ∧ q.ib.listed = true

theorem decodeQ_eq_ok {w : Word64} {q : QW} : decodeQ w = .ok q ↔ q.encode (opOf w) = w ∧ q.listed := by
  have fields : q.encode (opOf w) = w ↔ _ := layoutQ
  rw [fields]
  simp only [decodeQ, bind_eq_ok, operandAt_eq_ok, getLsbD_eq_iff, ← extractLsb'_op, QW.listed]
  constructor
  · rintro ⟨ia, ⟨la, ha⟩, ib, ⟨lb, hb⟩, h⟩
    cases h
    exact ⟨⟨trivial, rfl, rfl, rfl, rfl, rfl, rfl, rfl, ha, hb, rfl⟩, la, lb⟩
  · rintro ⟨⟨-, hg, hn, hs, hct, hwa, hwb, hkn, ha, hb, hnode⟩, la, lb⟩
    refine ⟨q.ia, ⟨la, ha⟩, q.ib, ⟨lb, hb⟩, ?_⟩
    simp only [guardOf, subOf, hg, hn, hs, hct, hwa, hwb, hkn, hnode]

def KW.listed (k : KW) : Prop := k.d.listed = true ∧ k.a.listed = true ∧ k.b.listed = true ∧ k.c.listed = true

theorem decodeK_eq_ok {w : Word64} {next : Option Word64} {k : KW} :
    decodeK w next = .ok k ↔ k.encode (opOf w) (subOf w).toNat = w ∧ k.listed ∧ ∀ l, k.lit = some l → next = some l := by
  have fields : k.encode (opOf w) (subOf w).toNat = w ↔ _ := layoutK
  rw [fields]
  simp only [decodeK, bind_eq_ok, operandAt_eq_ok, literalOf_eq_ok, getLsbD_eq_iff, ← extractLsb'_op, KW.listed]
  constructor
  · rintro ⟨d, ⟨ld, hd⟩, a, ⟨la, ha⟩, b, ⟨lb, hb⟩, c, ⟨lc, hc⟩, lit, ⟨hl, next⟩, h⟩
    split at h
    · cases h
    · next hz =>
      obtain ⟨hy, hz⟩ := not_or.mp hz
      cases h
      exact ⟨⟨trivial, rfl, rfl, subOf_eq w, hd, ha, hb, hc, rfl, not_not.mp hy, hl, getLsbD_eq_iff.mpr (Bool.eq_false_of_not_eq_true hz)⟩,
        ⟨ld, la, lb, lc⟩, next⟩
  · rintro ⟨⟨-, hg, hn, -, hd, ha, hb, hc, hhead, hy, hl, hz⟩, ⟨ld, la, lb, lc⟩, next⟩
    refine ⟨k.d, ⟨ld, hd⟩, k.a, ⟨la, ha⟩, k.b, ⟨lb, hb⟩, k.c, ⟨lc, hc⟩, k.lit, ⟨hl, next⟩, ?_⟩
    have zero : w.getLsbD 0 = false := getLsbD_eq_iff.mp hz
    have two : w.extractLsb' 2 2 = 0 := hy
    simp only [guardOf, hg, hn, hhead, two, zero, ne_eq, not_true, Bool.false_eq_true, or_self, if_false]

def YW.listed (y : YW) : Prop := y.d.listed = true ∧ y.a.listed = true ∧ y.b.listed = true

theorem decodeY_eq_ok {w : Word64} {next : Option Word64} {y : YW} :
    decodeY w next = .ok y ↔ y.encode (opOf w) (subOf w).toNat = w ∧ y.listed ∧ ∀ l, y.lit = some l → next = some l := by
  have fields : y.encode (opOf w) (subOf w).toNat = w ↔ _ := layoutY
  rw [fields]
  simp only [decodeY, bind_eq_ok, operandAt_eq_ok, literalOf_eq_ok, getLsbD_eq_iff, ← extractLsb'_op, YW.listed]
  constructor
  · rintro ⟨d, ⟨ld, hd⟩, a, ⟨la, ha⟩, b, ⟨lb, hb⟩, lit, ⟨hl, next⟩, h⟩
    split at h
    · cases h
    · next hz =>
      obtain ⟨hy, hz⟩ := not_or.mp hz
      cases h
      exact ⟨⟨trivial, rfl, rfl, subOf_eq w, hd, ha, hb, rfl, rfl, rfl, getLsbD_eq_iff.mpr (Bool.eq_false_of_not_eq_true hy), hl,
        getLsbD_eq_iff.mpr (Bool.eq_false_of_not_eq_true hz)⟩, ⟨ld, la, lb⟩, next⟩
  · rintro ⟨⟨-, hg, hn, -, hd, ha, hb, himm, hea, heb, hy, hl, hz⟩, ⟨ld, la, lb⟩, next⟩
    refine ⟨y.d, ⟨ld, hd⟩, y.a, ⟨la, ha⟩, y.b, ⟨lb, hb⟩, y.lit, ⟨hl, next⟩, ?_⟩
    have two : w.getLsbD 2 = false := getLsbD_eq_iff.mp hy
    have zero : w.getLsbD 0 = false := getLsbD_eq_iff.mp hz
    simp only [guardOf, hg, hn, himm, hea, heb, two, zero, Bool.false_eq_true, or_self, if_false]

def JW.listed (j : JW) : Prop := j.a.listed = true ∧ j.b.listed = true

theorem decodeJ_eq_ok {w : Word64} {j : JW} : decodeJ w = .ok j ↔ j.encode (opOf w) = w ∧ j.listed := by
  have fields : j.encode (opOf w) = w ↔ _ := layoutJ
  rw [fields]
  simp only [decodeJ, bind_eq_ok, operandAt_eq_ok, getLsbD_eq_iff, ← extractLsb'_op, JW.listed]
  constructor
  · rintro ⟨a, ⟨la, ha⟩, b, ⟨lb, hb⟩, h⟩
    split at h
    · cases h
    · next hs =>
      split at h
      · cases h
      · next hz =>
        cases h
        exact ⟨⟨trivial, rfl, rfl, not_not.mp hs, ha, hb, rfl, not_not.mp hz⟩, la, lb⟩
  · rintro ⟨⟨-, hg, hn, hs, ha, hb, hoff, hz⟩, la, lb⟩
    refine ⟨j.a, ⟨la, ha⟩, j.b, ⟨lb, hb⟩, ?_⟩
    have sub : subOf w = 0 := hs
    have low : w.extractLsb' 0 2 = 0 := hz
    simp only [guardOf, hg, hn, hoff, low, sub, ne_eq, not_true, if_false]

/-- RPT with its count in the word (false) or in an s register (true). -/
def repeatInstr (reg : Bool) (n : BitVec 6) (st : Steps) : Instr := if reg then .rptRegister n st else .rpt n st

theorem encodeP_eq_iff {w : Word64} {reg : Bool} {n : BitVec 6} {st : Steps} : encodeP reg n st = w ↔
    w.extractLsb' 56 8 = 0xF0#8 ∧ w.extractLsb' 48 8 = 0#8 ∧ w.extractLsb' 42 6 = (if reg then 0#6 else n) ∧ w.extractLsb' 41 1 = BitVec.ofBool reg ∧
    w.extractLsb' 32 9 = (if reg then (Operand.s n).encode else 0#9) ∧ w.extractLsb' 24 8 = st.d ∧ w.extractLsb' 16 8 = st.a ∧ w.extractLsb' 8 8 = st.b ∧
    w.extractLsb' 0 8 = st.c := by
  cases reg with
  | false => exact layoutP
  | true => exact layoutP

theorem decodeP_encodeP {w : Word64} {reg : Bool} {n : BitVec 6} {st : Steps} (h : encodeP reg n st = w) : decodeP w = .ok (repeatInstr reg n st) := by
  obtain ⟨-, hz, hn, hreg, hc, hsd, hsa, hsb, hsc⟩ := encodeP_eq_iff.mp h
  rw [getLsbD_eq_iff] at hreg
  have zero : w.extractLsb' 48 8 = 0 := hz
  unfold decodeP
  cases reg with
  | false =>
    have none : w.extractLsb' 32 9 = 0 := hc
    have count : w.extractLsb' 42 6 = n := hn
    simp only [zero, hreg, none, count, hsd, hsa, hsb, hsc, repeatInstr, ne_eq, not_true, Bool.false_eq_true, if_false]
  | true =>
    have code : w.extractLsb' 32 9 = (Operand.s n).encode := hc
    have count : w.extractLsb' 42 6 = 0 := hn
    simp only [zero, hreg, code, count, Operand.decode_encode (o := .s n) rfl, hsd, hsa, hsb, hsc, repeatInstr, ne_eq, not_true, if_false, if_true]

theorem encodeP_of_decodeP {w : Word64} {i : Instr} (hop : opOf w = 0xF0) (h : decodeP w = .ok i) :
    ∃ reg n st, i = repeatInstr reg n st ∧ encodeP reg n st = w := by
  have op : w.extractLsb' 56 8 = 0xF0#8 := by rw [extractLsb'_op, hop]
  unfold decodeP at h
  dsimp only at h
  split at h
  · cases h
  next hz =>
  split at h
  · next hreg =>
    split at h
    · cases h
    next hn =>
    split at h
    · next r hr =>
      cases h
      exact ⟨true, r, _, rfl, encodeP_eq_iff.mpr ⟨op, not_not.mp hz, not_not.mp hn, getLsbD_eq_iff.mpr hreg, (Operand.decode_eq_some.mp hr).2.symm, rfl, rfl, rfl, rfl⟩⟩
    · cases h
  · next hreg =>
    split at h
    · cases h
    · next hc =>
      cases h
      exact ⟨false, _, _, rfl, encodeP_eq_iff.mpr ⟨op, not_not.mp hz, rfl, getLsbD_eq_iff.mpr (Bool.eq_false_of_not_eq_true hreg), not_not.mp hc, rfl, rfl, rfl, rfl⟩⟩

end Sys2Proof
end
section
/-! SUPPORT. The opcode map (R35) in both directions, and the two round trips of a word (R26, R33, R36). -/
namespace Sys2Proof

/-! ### The checks of a row -/

theorem firstFailed_eq_none {l : List (Bool × Illegal)} : firstFailed l = none ↔ ∀ p ∈ l, p.1 = true := by
  induction l with
  | nil => simp [firstFailed]
  | cons p rest ih =>
    obtain ⟨b, r⟩ := p
    cases b
    · simp [firstFailed]
    · simpa [firstFailed] using ih

theorem illegal?_eq_none {i : Instr} (h : i.wellFormed = true) : i.illegal? = none := Option.isNone_iff_eq_none.mp h

theorem Instr.shape_legal {i : Instr} (h : i.wellFormed = true) : i.shape.illegal? = none := by
  have legal := illegal?_eq_none h
  unfold Instr.illegal? at legal
  split at legal
  · cases legal
  · assumption

theorem listed_of_checkX {r : XRow} {x : XW} (h : checkX r x = none) : x.listed := by
  simp only [checkX, firstFailed_eq_none, List.forall_mem_cons, Bool.and_eq_true] at h
  obtain ⟨-, -, -, -, ⟨⟨⟨hd, ha⟩, hb⟩, hc⟩, -⟩ := h
  exact ⟨Operand.listed_of_accepts hd, Operand.listed_of_accepts ha, Operand.listed_of_accepts hb, Operand.listed_of_accepts hc⟩

theorem listed_of_checkM {r : MRow} {m : MW} (h : checkM r m = none) : m.listed := by
  simp only [checkM, firstFailed_eq_none, List.forall_mem_cons, Bool.and_eq_true] at h
  obtain ⟨-, -, -, -, -, -, ⟨⟨hd, ha⟩, hb⟩, -⟩ := h
  exact ⟨Operand.listed_of_accepts hd, Operand.listed_of_accepts ha, Operand.listed_of_accepts hb⟩

theorem listed_of_checkQ {r : QRow} {q : QW} (h : checkQ r q = none) : q.listed := by
  simp only [checkQ, firstFailed_eq_none, List.forall_mem_cons, Bool.and_eq_true] at h
  obtain ⟨-, -, -, ⟨ha, hb⟩, -⟩ := h
  exact ⟨Operand.listed_of_accepts ha, Operand.listed_of_accepts hb⟩

theorem listed_of_checkK {r : KRow} {k : KW} (h : checkK r k = none) : k.listed := by
  simp only [checkK, firstFailed_eq_none, List.forall_mem_cons, Bool.and_eq_true] at h
  obtain ⟨-, -, ⟨⟨⟨hd, ha⟩, hb⟩, hc⟩, -⟩ := h
  exact ⟨Operand.listed_of_accepts hd, Operand.listed_of_accepts ha, Operand.listed_of_accepts hb, Operand.listed_of_accepts hc⟩

theorem listed_of_checkY {r : YRow} {y : YW} (h : checkY r y = none) : y.listed := by
  simp only [checkY, firstFailed_eq_none, List.forall_mem_cons, Bool.and_eq_true] at h
  obtain ⟨-, -, ⟨⟨hd, ha⟩, hb⟩, -⟩ := h
  exact ⟨Operand.listed_of_accepts hd, Operand.listed_of_accepts ha, Operand.listed_of_accepts hb⟩

theorem listed_of_checkJ {r : JRow} {j : JW} (h : checkJ r j = none) : j.listed := by
  simp only [checkJ, firstFailed_eq_none, List.forall_mem_cons, Bool.and_eq_true, beq_iff_eq] at h
  obtain ⟨-, -, ⟨ha, hb⟩, -⟩ := h
  exact ⟨Operand.listed_of_accepts ha, by rw [hb]; rfl⟩

theorem sub_of_checkM {r : MRow} {m : MW} (h : checkM r m = none) : m.sub.toNat ∈ r.subs := by
  simp only [checkM, firstFailed_eq_none, List.forall_mem_cons, List.contains_iff_mem] at h
  exact h.2.1

theorem sub_of_checkQ {r : QRow} {q : QW} (h : checkQ r q = none) : q.sub.toNat ∈ r.subs := by
  simp only [checkQ, firstFailed_eq_none, List.forall_mem_cons, List.contains_iff_mem] at h
  exact h.2.1

/-! ### From an opcode to its instruction and back (R35) -/

theorem shape_of_makeX {op : Nat} {mk : XW → Instr} (h : makeX op = some mk) (x : XW) : ∃ row, (mk x).shape = .x op row x := by
  unfold makeX at h
  split at h <;> cases h <;> exact ⟨_, rfl⟩

theorem shape_of_makeM {op sub : Nat} {mk : MW → Instr} (h : makeM op sub = some mk) (m : MW) : ∃ row, (mk m).shape = .m op row m := by
  unfold makeM at h
  split at h <;> cases h <;> (repeat' split) <;> exact ⟨_, rfl⟩

theorem shape_of_makeQ {op sub : Nat} {mk : QW → Instr} (h : makeQ op sub = some mk) (q : QW) : ∃ row, (mk q).shape = .q op row q := by
  unfold makeQ at h
  split at h <;> cases h <;> (repeat' split) <;> exact ⟨_, rfl⟩

theorem shape_of_makeJ {op : Nat} {mk : JW → Instr} (h : makeJ op = some mk) (j : JW) : ∃ row, (mk j).shape = .j op row j := by
  unfold makeJ at h
  split at h <;> cases h <;> exact ⟨_, rfl⟩

theorem shape_of_makeK {op sub : Nat} {mk : KW → Instr} (h : makeK op sub = .ok mk) (k : KW) : ∃ row, (mk k).shape = .k op sub row k := by
  unfold makeK at h
  split at h <;> (repeat' split at h) <;> cases h <;> subst_vars <;> exact ⟨_, rfl⟩

theorem shape_of_makeY {op sub : Nat} {mk : YW → Instr} (h : makeY op sub = .ok mk) (y : YW) : ∃ row, (mk y).shape = .y op sub row y := by
  unfold makeY at h
  split at h <;> (repeat' split at h) <;> cases h <;> subst_vars <;> exact ⟨_, rfl⟩

/-- The opcode map finds the instruction from its opcode and SUB, in the format that the opcode selects (R27, R35). -/
def Instr.mapped (i : Instr) : Prop :=
  match i.shape with
  | .x op _ x => op / 16 < 8 ∧ ∃ mk, makeX op = some mk ∧ mk x = i
  | .m op _ m => (op / 16 = 0x8 ∨ op / 16 = 0x9) ∧ ∃ mk, makeM op m.sub.toNat = some mk ∧ mk m = i
  | .q op _ q => op / 16 = 0xA ∧ ∃ mk, makeQ op q.sub.toNat = some mk ∧ mk q = i
  | .k op sc _ k => op / 16 = 0xB ∧ sc < 16 ∧ ∃ mk, makeK op sc = .ok mk ∧ mk k = i
  | .y op sc _ y => (op / 16 = 0xC ∨ op / 16 = 0xE) ∧ sc < 16 ∧ ∃ mk, makeY op sc = .ok mk ∧ mk y = i
  | .j op _ j => op / 16 = 0xD ∧ ∃ mk, makeJ op = some mk ∧ mk j = i
  | .p reg n steps => i = repeatInstr reg n steps
  | .event => False

theorem eight_le_of_mem_subsPeer {n : Nat} (h : n ∈ subsPeer) : ¬ n < 8 := by
  have low : ∀ k ∈ subsPeer, ¬ k < 8 := by decide
  exact low n h

theorem Instr.mapped_of_wellFormed {i : Instr} (hw : i.isWord = true) (h : i.wellFormed = true) : i.mapped := by
  have legal := Instr.shape_legal h
  cases i with
  | add | sub | adds | subs | mul | mulh | mad | abs | min | max | and | or | xor | andn | shl | shr | sar | rol | clz | popc | brev | bfx | bfi
  | mov | lea | padd | divu | remu | sel | hmix | fadd | fsub | fmul | fma | fmin | fmax | fabs | fneg | frnd | fclass | frcp | frsq | fsqrt | fexp2
  | flog2 | ftanh | fscale | cvt | shfl | shflx | bcast | red | scan | pack | unpk | cmp | fcmp | kop | kpop | kff1 | kset | kget => exact ⟨of_decide_eq_true rfl, _, rfl, rfl⟩
  | ld | st | lds | sts | atom | ared | fence | waitc | pref | tagset | tagget | ptag => exact ⟨of_decide_eq_true rfl, _, rfl, rfl⟩
  | ldb m | stb m | ldc m | stc m | cpy m | cpyt m | clean m =>
    have zero : m.sub.toNat = 0 := List.mem_singleton.mp (sub_of_checkM legal)
    exact ⟨of_decide_eq_true rfl, _, by rw [zero]; rfl, rfl⟩
  | ldbZ m | stbZ m | ldcCol m | stcCol m | cpyLane m | cpytW m | cleanInv m =>
    have one : m.sub.toNat = 1 := List.mem_singleton.mp (sub_of_checkM legal)
    exact ⟨of_decide_eq_true rfl, _, by rw [one]; rfl, rfl⟩
  | wres | wrel | wstat | czero | demand | tolrd | toltab => exact ⟨rfl, _, rfl, rfl⟩
  | qcvt q | mloop q | cadd q | cscale q =>
    have zero : q.sub.toNat = 0 := List.mem_singleton.mp (sub_of_checkQ legal)
    exact ⟨rfl, _, by rw [zero]; rfl, rfl⟩
  | qcvtW q | cscaleRow q =>
    have one : q.sub.toNat = 1 := List.mem_singleton.mp (sub_of_checkQ legal)
    exact ⟨rfl, _, by rw [one]; rfl, rfl⟩
  | cscaleCol q =>
    have two : q.sub.toNat = 2 := List.mem_singleton.mp (sub_of_checkQ legal)
    exact ⟨rfl, _, by rw [two]; rfl, rfl⟩
  | mloopPeer q | caddPeer q =>
    have peer : ¬ q.sub.toNat < 8 := eight_le_of_mem_subsPeer (sub_of_checkQ legal)
    exact ⟨rfl, _, congrArg some (if_neg peer), rfl⟩
  | kappend | kstep | ksig | kgather | kfetch | kfetchV | kfetchW | kfetchWV | kslot | kstat => exact ⟨rfl, of_decide_eq_true rfl, _, rfl, rfl⟩
  | bar | barC | arrive | arriveC | bwait | bwaitC | drainB | drainC | phase | yield | qpush | qpop | qtry | qlen | qlenInit | poll | dcdec | dcset
  | launch | sysr | sysw | trap | tret | bkpt | ticks | kill | killGrid | faultrd => exact ⟨of_decide_eq_true rfl, of_decide_eq_true rfl, _, rfl, rfl⟩
  | nop | bra | bz | bnz | bany | ball | bnone | loop | call | ret | jmpi | endWave => exact ⟨rfl, _, rfl, rfl⟩
  | rpt | rptRegister => exact rfl
  | _ => cases hw


/-! ### Decoding by format (R27) -/

theorem accept_eq_ok {i j : Instr} : accept i = .ok j ↔ i = j ∧ j.wellFormed = true := by
  unfold accept Instr.wellFormed
  split
  · next h =>
    constructor
    · intro e
      cases e
      exact ⟨rfl, by rw [h]; rfl⟩
    · rintro ⟨rfl, -⟩
      rfl
  · next r h =>
    constructor
    · intro e
      cases e
    · rintro ⟨rfl, e⟩
      rw [h] at e
      cases e

theorem finish_eq_ok {α : Type} {mk : Option (α → Instr)} {fields : Except Illegal α} {i : Instr} :
    finish mk fields = .ok i ↔ ∃ f x, mk = some f ∧ fields = .ok x ∧ f x = i ∧ i.wellFormed = true := by
  cases mk with
  | none => simp [finish]
  | some f =>
    cases fields with
    | error r => simp [finish]
    | ok x => simp [finish, accept_eq_ok]

theorem finishSub_eq_ok {α : Type} {mk : Except Illegal (α → Instr)} {fields : Except Illegal α} {i : Instr} :
    finishSub mk fields = .ok i ↔ ∃ f x, mk = .ok f ∧ fields = .ok x ∧ f x = i ∧ i.wellFormed = true := by
  cases mk with
  | error r => simp [finishSub]
  | ok f =>
    cases fields with
    | error r => simp [finishSub]
    | ok x => simp [finishSub, accept_eq_ok]

section
variable {w : Word64} {next : Option Word64}

theorem decodeWord_x (h : opOf w / 16 < 8) : decodeWord w next = finish (makeX (opOf w)) (decodeX w next) := by
  unfold decodeWord
  dsimp only
  generalize opOf w / 16 = n at h ⊢
  interval_cases n <;> rfl

theorem decodeWord_m (h : opOf w / 16 = 0x8 ∨ opOf w / 16 = 0x9) :
    decodeWord w next = finish (makeM (opOf w) (subOf w).toNat) (decodeM w next) := by
  unfold decodeWord
  rcases h with h | h <;> simp only [h]

theorem decodeWord_q (h : opOf w / 16 = 0xA) : decodeWord w next = finish (makeQ (opOf w) (subOf w).toNat) (decodeQ w) := by
  unfold decodeWord
  simp only [h]

theorem decodeWord_k (h : opOf w / 16 = 0xB) : decodeWord w next = finishSub (makeK (opOf w) (subOf w).toNat) (decodeK w next) := by
  unfold decodeWord
  simp only [h]

theorem decodeWord_y (h : opOf w / 16 = 0xC ∨ opOf w / 16 = 0xE) :
    decodeWord w next = finishSub (makeY (opOf w) (subOf w).toNat) (decodeY w next) := by
  unfold decodeWord
  rcases h with h | h <;> simp only [h]

theorem decodeWord_j (h : opOf w / 16 = 0xD) : decodeWord w next = finish (makeJ (opOf w)) (decodeJ w) := by
  unfold decodeWord
  simp only [h]

theorem decodeWord_p (h : opOf w / 16 = 0xF) : decodeWord w next = if opOf w = 0xF0 then decodeP w else .error .opcode := by
  unfold decodeWord
  simp only [h]

/-- L follows in formats X, M, K and Y (R33). -/
theorem hasLiteral_of_ne (h : opOf w / 16 ≠ 0xA ∧ opOf w / 16 ≠ 0xD ∧ opOf w / 16 ≠ 0xF) : hasLiteral w = w.getLsbD 1 := by
  unfold hasLiteral
  obtain ⟨ha, hd, hf⟩ := h
  split
  case h_1 e => exact absurd e ha
  case h_2 e => exact absurd e hd
  case h_3 e => exact absurd e hf
  case h_4 => rfl

theorem hasLiteral_eq_false (h : opOf w / 16 = 0xA ∨ opOf w / 16 = 0xD ∨ opOf w / 16 = 0xF) : hasLiteral w = false := by
  unfold hasLiteral
  rcases h with h | h | h <;> simp only [h]
end

/-! ### The words of each format -/

section
variable {i : Instr} {op : Nat}

theorem encode_x {row : XRow} {x : XW} (h : i.shape = .x op row x) : encode i = withLiteral (x.encode op) x.lit := by rw [encode, h]
theorem encode_m {row : MRow} {m : MW} (h : i.shape = .m op row m) : encode i = withLiteral (m.encode op) m.lit := by rw [encode, h]
theorem encode_q {row : QRow} {q : QW} (h : i.shape = .q op row q) : encode i = [q.encode op] := by rw [encode, h]
theorem encode_k {sc : Nat} {row : KRow} {k : KW} (h : i.shape = .k op sc row k) : encode i = withLiteral (k.encode op sc) k.lit := by rw [encode, h]
theorem encode_y {sc : Nat} {row : YRow} {y : YW} (h : i.shape = .y op sc row y) : encode i = withLiteral (y.encode op sc) y.lit := by rw [encode, h]
theorem encode_j {row : JRow} {j : JW} (h : i.shape = .j op row j) : encode i = [j.encode op] := by rw [encode, h]
theorem encode_p {reg : Bool} {n : BitVec 6} {st : Steps} (h : i.shape = .p reg n st) : encode i = [encodeP reg n st] := by rw [encode, h]
end

/-! ### What the encoder writes into SUB and L -/

theorem XW.literal_encode (op : Nat) (x : XW) : (x.encode op).getLsbD 1 = x.lit.isSome := by
  obtain ⟨-, -, -, -, -, -, -, -, -, -, -, -, -, hl, -⟩ := layoutX.mp (rfl : x.encode op = x.encode op)
  exact getLsbD_eq_iff.mp hl

theorem MW.literal_encode (op : Nat) (m : MW) : (m.encode op).getLsbD 1 = m.lit.isSome := by
  obtain ⟨-, -, -, -, -, -, -, -, -, -, -, -, hl, -⟩ := layoutM.mp (rfl : m.encode op = m.encode op)
  exact getLsbD_eq_iff.mp hl

theorem KW.literal_encode (op sub : Nat) (k : KW) : (k.encode op sub).getLsbD 1 = k.lit.isSome := by
  obtain ⟨-, -, -, -, -, -, -, -, -, -, hl, -⟩ := layoutK.mp (rfl : k.encode op sub = k.encode op sub)
  exact getLsbD_eq_iff.mp hl

theorem YW.literal_encode (op sub : Nat) (y : YW) : (y.encode op sub).getLsbD 1 = y.lit.isSome := by
  obtain ⟨-, -, -, -, -, -, -, -, -, -, -, hl, -⟩ := layoutY.mp (rfl : y.encode op sub = y.encode op sub)
  exact getLsbD_eq_iff.mp hl

theorem MW.subOf_encode (op : Nat) (m : MW) : subOf (m.encode op) = m.sub := by
  obtain ⟨-, -, -, hs, -⟩ := layoutM.mp (rfl : m.encode op = m.encode op)
  exact hs

theorem QW.subOf_encode (op : Nat) (q : QW) : subOf (q.encode op) = q.sub := by
  obtain ⟨-, -, -, hs, -⟩ := layoutQ.mp (rfl : q.encode op = q.encode op)
  exact hs

theorem KW.subOf_encode {op sub : Nat} (k : KW) (h : sub < 16) : (subOf (k.encode op sub)).toNat = sub := by
  obtain ⟨-, -, -, hs, -⟩ := layoutK.mp (rfl : k.encode op sub = k.encode op sub)
  rw [subOf, hs]
  exact Nat.mod_eq_of_lt h

theorem YW.subOf_encode {op sub : Nat} (y : YW) (h : sub < 16) : (subOf (y.encode op sub)).toNat = sub := by
  obtain ⟨-, -, -, hs, -⟩ := layoutY.mp (rfl : y.encode op sub = y.encode op sub)
  rw [subOf, hs]
  exact Nat.mod_eq_of_lt h

/-! ### Encoding, then decoding -/

/-- The words ws are one word with its literal where it says that one follows, and decode to i. -/
def ReadsBack (ws : List Word64) (i : Instr) : Prop :=
  ∃ w rest, ws = w :: rest ∧ rest.length + 1 = wordLength w ∧ decodeWord w rest.head? = .ok i

theorem readsBack_withLiteral {w : Word64} {lit : Option Word64} {i : Instr} (hl : hasLiteral w = lit.isSome) (hd : decodeWord w lit = .ok i) :
    ReadsBack (withLiteral w lit) i := by
  refine ⟨w, lit.toList, rfl, ?_, ?_⟩
  · cases lit <;> simp [wordLength, hl]
  · cases lit <;> exact hd

theorem readsBack_single {w : Word64} {i : Instr} (hl : hasLiteral w = false) (hd : decodeWord w none = .ok i) : ReadsBack [w] i :=
  ⟨w, [], rfl, by simp [wordLength, hl], hd⟩

theorem readsBack_encode {i : Instr} (hw : i.isWord = true) (h : i.wellFormed = true) : ReadsBack (encode i) i := by
  have mapped := Instr.mapped_of_wellFormed hw h
  have legal := Instr.shape_legal h
  unfold Instr.mapped at mapped
  cases hs : i.shape with
  | x op row x =>
    rw [encode_x hs]
    simp only [hs] at mapped legal
    obtain ⟨hop, mk, hmk, hi⟩ := mapped
    have op_eq : opOf (x.encode op) = op := Laws.XW.opOf_encode op x (by omega)
    refine readsBack_withLiteral ?_ ?_
    · rw [hasLiteral_of_ne (by omega), XW.literal_encode]
    · rw [decodeWord_x (by omega), finish_eq_ok, op_eq]
      exact ⟨mk, x, hmk, decodeX_eq_ok.mpr ⟨by rw [op_eq], listed_of_checkX legal, fun _ e => e⟩, hi, h⟩
  | m op row m =>
    rw [encode_m hs]
    simp only [hs] at mapped legal
    obtain ⟨hop, mk, hmk, hi⟩ := mapped
    have op_eq : opOf (m.encode op) = op := Laws.MW.opOf_encode op m (by omega)
    refine readsBack_withLiteral ?_ ?_
    · rw [hasLiteral_of_ne (by omega), MW.literal_encode]
    · rw [decodeWord_m (by omega), finish_eq_ok, op_eq, MW.subOf_encode]
      exact ⟨mk, m, hmk, decodeM_eq_ok.mpr ⟨by rw [op_eq], listed_of_checkM legal, fun _ e => e⟩, hi, h⟩
  | q op row q =>
    rw [encode_q hs]
    simp only [hs] at mapped legal
    obtain ⟨hop, mk, hmk, hi⟩ := mapped
    have op_eq : opOf (q.encode op) = op := Laws.QW.opOf_encode op q (by omega)
    refine readsBack_single (hasLiteral_eq_false (by omega)) ?_
    rw [decodeWord_q (by omega), finish_eq_ok, op_eq, QW.subOf_encode]
    exact ⟨mk, q, hmk, decodeQ_eq_ok.mpr ⟨by rw [op_eq], listed_of_checkQ legal⟩, hi, h⟩
  | k op sc row k =>
    rw [encode_k hs]
    simp only [hs] at mapped legal
    obtain ⟨hop, hsc, mk, hmk, hi⟩ := mapped
    have op_eq : opOf (k.encode op sc) = op := Laws.KW.opOf_encode op sc k (by omega)
    refine readsBack_withLiteral ?_ ?_
    · rw [hasLiteral_of_ne (by omega), KW.literal_encode]
    · rw [decodeWord_k (by omega), finishSub_eq_ok, op_eq, KW.subOf_encode k hsc]
      exact ⟨mk, k, hmk, decodeK_eq_ok.mpr ⟨by rw [op_eq, KW.subOf_encode k hsc], listed_of_checkK legal, fun _ e => e⟩, hi, h⟩
  | y op sc row y =>
    rw [encode_y hs]
    simp only [hs] at mapped legal
    obtain ⟨hop, hsc, mk, hmk, hi⟩ := mapped
    have op_eq : opOf (y.encode op sc) = op := Laws.YW.opOf_encode op sc y (by omega)
    refine readsBack_withLiteral ?_ ?_
    · rw [hasLiteral_of_ne (by omega), YW.literal_encode]
    · rw [decodeWord_y (by omega), finishSub_eq_ok, op_eq, YW.subOf_encode y hsc]
      exact ⟨mk, y, hmk, decodeY_eq_ok.mpr ⟨by rw [op_eq, YW.subOf_encode y hsc], listed_of_checkY legal, fun _ e => e⟩, hi, h⟩
  | j op row j =>
    rw [encode_j hs]
    simp only [hs] at mapped legal
    obtain ⟨hop, mk, hmk, hi⟩ := mapped
    have op_eq : opOf (j.encode op) = op := Laws.JW.opOf_encode op j (by omega)
    refine readsBack_single (hasLiteral_eq_false (by omega)) ?_
    rw [decodeWord_j (by omega), finish_eq_ok, op_eq]
    exact ⟨mk, j, hmk, decodeJ_eq_ok.mpr ⟨by rw [op_eq], listed_of_checkJ legal⟩, hi, h⟩
  | p reg n st =>
    rw [encode_p hs]
    simp only [hs] at mapped
    have op_eq : opOf (encodeP reg n st) = 0xF0 := Laws.opOf_encodeP reg n st
    refine readsBack_single (hasLiteral_eq_false (by omega)) ?_
    rw [decodeWord_p (by omega), if_pos op_eq, decodeP_encodeP rfl, mapped]
  | event => simp only [hs] at mapped

/-! ### Decoding, then encoding -/

/-- The words ws are w and, exactly where w says that a literal follows, the word after it. -/
def WritesBack (ws : List Word64) (w : Word64) (next : Option Word64) : Prop :=
  ∃ rest, ws = w :: rest ∧ (hasLiteral w = false → rest = []) ∧ (hasLiteral w = true → ∃ l, next = some l ∧ rest = [l])

theorem writesBack_withLiteral {w : Word64} {lit next : Option Word64} (hl : hasLiteral w = lit.isSome) (hn : ∀ l, lit = some l → next = some l) :
    WritesBack (withLiteral w lit) w next := by
  refine ⟨lit.toList, rfl, ?_, ?_⟩
  · intro e
    cases lit with
    | none => rfl
    | some l => simp [hl] at e
  · intro e
    cases lit with
    | none => simp [hl] at e
    | some l => exact ⟨l, hn l rfl, rfl⟩

theorem writesBack_single {w : Word64} {next : Option Word64} (hl : hasLiteral w = false) : WritesBack [w] w next :=
  ⟨[], rfl, fun _ => rfl, fun e => by rw [hl] at e; cases e⟩

theorem writesBack_of_decodeWord {w : Word64} {next : Option Word64} {i : Instr} (h : decodeWord w next = .ok i) :
    i.isWord = true ∧ i.wellFormed = true ∧ WritesBack (encode i) w next := by
  have small := opOf_lt w
  by_cases hx : opOf w / 16 < 8
  · rw [decodeWord_x hx, finish_eq_ok] at h
    obtain ⟨mk, x, hmk, hd, rfl, hi⟩ := h
    obtain ⟨hw, -, hn⟩ := decodeX_eq_ok.mp hd
    obtain ⟨row, hs⟩ := shape_of_makeX hmk x
    refine ⟨by rw [Instr.isWord, hs], hi, ?_⟩
    rw [encode_x hs, hw]
    exact writesBack_withLiteral (by rw [hasLiteral_of_ne (by omega), ← XW.literal_encode (opOf w), hw]) hn
  by_cases hm : opOf w / 16 = 0x8 ∨ opOf w / 16 = 0x9
  · rw [decodeWord_m hm, finish_eq_ok] at h
    obtain ⟨mk, m, hmk, hd, rfl, hi⟩ := h
    obtain ⟨hw, -, hn⟩ := decodeM_eq_ok.mp hd
    obtain ⟨row, hs⟩ := shape_of_makeM hmk m
    refine ⟨by rw [Instr.isWord, hs], hi, ?_⟩
    rw [encode_m hs, hw]
    exact writesBack_withLiteral (by rw [hasLiteral_of_ne (by omega), ← MW.literal_encode (opOf w), hw]) hn
  by_cases hq : opOf w / 16 = 0xA
  · rw [decodeWord_q hq, finish_eq_ok] at h
    obtain ⟨mk, q, hmk, hd, rfl, hi⟩ := h
    obtain ⟨hw, -⟩ := decodeQ_eq_ok.mp hd
    obtain ⟨row, hs⟩ := shape_of_makeQ hmk q
    refine ⟨by rw [Instr.isWord, hs], hi, ?_⟩
    rw [encode_q hs, hw]
    exact writesBack_single (hasLiteral_eq_false (.inl hq))
  by_cases hk : opOf w / 16 = 0xB
  · rw [decodeWord_k hk, finishSub_eq_ok] at h
    obtain ⟨mk, k, hmk, hd, rfl, hi⟩ := h
    obtain ⟨hw, -, hn⟩ := decodeK_eq_ok.mp hd
    obtain ⟨row, hs⟩ := shape_of_makeK hmk k
    refine ⟨by rw [Instr.isWord, hs], hi, ?_⟩
    rw [encode_k hs, hw]
    exact writesBack_withLiteral (by rw [hasLiteral_of_ne (by omega), ← KW.literal_encode (opOf w) (subOf w).toNat, hw]) hn
  by_cases hy : opOf w / 16 = 0xC ∨ opOf w / 16 = 0xE
  · rw [decodeWord_y hy, finishSub_eq_ok] at h
    obtain ⟨mk, y, hmk, hd, rfl, hi⟩ := h
    obtain ⟨hw, -, hn⟩ := decodeY_eq_ok.mp hd
    obtain ⟨row, hs⟩ := shape_of_makeY hmk y
    refine ⟨by rw [Instr.isWord, hs], hi, ?_⟩
    rw [encode_y hs, hw]
    exact writesBack_withLiteral (by rw [hasLiteral_of_ne (by omega), ← YW.literal_encode (opOf w) (subOf w).toNat, hw]) hn
  by_cases hj : opOf w / 16 = 0xD
  · rw [decodeWord_j hj, finish_eq_ok] at h
    obtain ⟨mk, j, hmk, hd, rfl, hi⟩ := h
    obtain ⟨hw, -⟩ := decodeJ_eq_ok.mp hd
    obtain ⟨row, hs⟩ := shape_of_makeJ hmk j
    refine ⟨by rw [Instr.isWord, hs], hi, ?_⟩
    rw [encode_j hs, hw]
    exact writesBack_single (hasLiteral_eq_false (.inr (.inl hj)))
  have hp : opOf w / 16 = 0xF := by omega
  rw [decodeWord_p hp] at h
  by_cases hop : opOf w = 0xF0
  · rw [if_pos hop] at h
    obtain ⟨reg, n, st, rfl, hw⟩ := encodeP_of_decodeP hop h
    have back : encode (repeatInstr reg n st) = [w] := by
      rw [← hw]
      cases reg <;> rfl
    refine ⟨by cases reg <;> rfl, by cases reg <;> rfl, ?_⟩
    rw [back]
    exact writesBack_single (hasLiteral_eq_false (.inr (.inr hp)))
  · rw [if_neg hop] at h
    cases h

/-- Settles O42: every format's fields come back from its word (`decodeX_eq_ok` to `decodeP_encodeP`), and the opcode map finds the row (`Instr.mapped_of_wellFormed`). -/
theorem decodeEncode : Obligations.DecodeEncode := fun _ hw h => readsBack_encode hw h

/-- Settles O43: the fields of a format make up its word, and the row of an accepted instruction has the word's opcode and SUB. -/
theorem encodeDecode : Obligations.EncodeDecode := fun _ _ _ h => writesBack_of_decodeWord h

/-- Settles O41: the six words, run through the decoder. -/
theorem decodeSampleWords : Obligations.DecodeSampleWords := ⟨rfl, rfl, rfl, rfl, rfl, rfl⟩

end Sys2Proof
end

section
/-! SUPPORT. Registers: what a read returns after a write, how a result of a type meets its register (R37, R38, R39). -/
namespace Sys2Proof.Machine

/-! ### Sign extension (R38) -/

theorem toSigned_eq_toInt (n x : Nat) : toSigned (n + 1) x = (BitVec.ofNat (n + 1) x).toInt := by
  rw [BitVec.toInt_eq_toNat_cond, BitVec.toNat_ofNat, toSigned, Nat.add_sub_cancel, Nat.pow_succ]
  split <;> split <;> omega

/-- The model's sign extension is that of bit vectors. -/
theorem ofNat_signExt (n v x : Nat) : BitVec.ofNat v (signExt (n + 1) v x) = (BitVec.ofNat (n + 1) x).signExtend v := by
  rw [BitVec.signExtend, ← toSigned_eq_toInt, signExt, ofSigned]
  apply BitVec.eq_of_toNat_eq
  rw [BitVec.toNat_ofNat, BitVec.toNat_ofInt]
  have bound : (toSigned (n + 1) x % ((2 ^ v : Nat) : Int)).toNat < 2 ^ v := by
    have := Int.emod_lt_of_pos (toSigned (n + 1) x) (b := ((2 ^ v : Nat) : Int)) (by exact_mod_cast Nat.two_pow_pos v)
    omega
  rw [Nat.mod_eq_of_lt bound]

theorem ofNat_mod_eq_setWidth (v n x : Nat) : BitVec.ofNat v (x % 2 ^ n) = (BitVec.ofNat n x).setWidth v := by
  apply BitVec.eq_of_toNat_eq
  simp

/-! ### One register after a write -/

theorem sReg_setS (w : Wave) (n r : Nat) (x : Word64) : sReg (setS w n x) r = if r = n then x else sReg w r :=
  mgetD_mset 0 w.s n r x

@[simp] theorem kReg_zero (w : Wave) : kReg w 0 = 0xFFFFFFFF := rfl

@[simp] theorem setK_zero (w : Wave) (x : Word32) : setK w 0 x = w := rfl

theorem kReg_setK (w : Wave) {n : Nat} (hn : 0 < n) (r : Nat) (x : Word32) :
    kReg (setK w n x) r = if r = n then x else kReg w r := by
  rw [setK, if_neg (by omega)]
  by_cases hr : r = 0
  · rw [hr, if_neg (by omega), kReg_zero, kReg_zero]
  · simp only [kReg, if_neg hr, mgetD_mset]

theorem vReg_setV (w : Wave) (n r : Nat) {i j : Nat} (hi : i < 32) (hj : j < 32) (x : Word32) :
    vReg (setV w n j x) r i = if r = n ∧ i = j then x else vReg w r i := by
  simp only [vReg, setV, mgetD_mset]
  have key : r * 32 + i = n * 32 + j ↔ r = n ∧ i = j := by omega
  simp only [key]

theorem vReg_setVPair (w : Wave) (n r : Nat) {i j : Nat} (hi : i < 32) (hj : j < 32) (x : Word64) :
    vReg (setVPair w n j x) r i =
      if r = n ∧ i = j then x.extractLsb' 0 32 else if r = n + 1 ∧ i = j then x.extractLsb' 32 32 else vReg w r i := by
  rw [setVPair, vReg_setV _ _ _ hi hj, vReg_setV _ _ _ hi hj]
  by_cases hr : r = n
  · subst hr
    simp
  · simp [hr]

/-! ### Lane values in a destination (R38, R39) -/

theorem toV_eq (t : Ty) (x : Nat) :
    toV t x = if t = .i8 ∨ t = .i16 then (BitVec.ofNat t.width x).signExtend 32 else (BitVec.ofNat t.width x).setWidth 32 := by
  cases t with
  | i8 => exact ofNat_signExt 7 32 x
  | i16 => exact ofNat_signExt 15 32 x
  | _ => exact ofNat_mod_eq_setWidth 32 _ x

theorem toS_eq (t : Ty) (x : Nat) :
    toS t x = if t = .i8 ∨ t = .i16 ∨ t = .i32 then (BitVec.ofNat t.width x).signExtend 64 else (BitVec.ofNat t.width x).setWidth 64 := by
  cases t with
  | i8 => exact ofNat_signExt 7 64 x
  | i16 => exact ofNat_signExt 15 64 x
  | i32 => exact ofNat_signExt 31 64 x
  | _ => exact ofNat_mod_eq_setWidth 64 _ x

/-- Writing lanes of a v destination changes the v file and nothing else of the wave. -/
theorem foldl_putTy_v (t : Ty) (n : BitVec 8) (f : Nat → Nat) (is : List Nat) (w : Wave) :
    is.foldl (fun w' i => putTy t (.v n) i (f i) w') w =
      { w with v := (is.foldl (fun w' i => putTy t (.v n) i (f i) w') w).v } := by
  induction is generalizing w with
  | nil => rfl
  | cons i is ih =>
    rw [List.foldl_cons, ih]
    simp only [putTy]
    split <;> rfl

theorem vReg_foldl_setV (n r : Nat) (g : Nat → Word32) {i : Nat} (hi : i < 32) (is : List Nat) (his : ∀ j ∈ is, j < 32) (w : Wave) :
    vReg (is.foldl (fun w' j => setV w' n j (g j)) w) r i = if r = n ∧ i ∈ is then g i else vReg w r i := by
  induction is generalizing w with
  | nil => simp
  | cons j is ih =>
    rw [List.forall_mem_cons] at his
    obtain ⟨hj, his⟩ := his
    rw [List.foldl_cons, ih his, vReg_setV _ _ _ hi hj]
    by_cases hin : i ∈ is <;> by_cases hij : i = j <;> by_cases hr : r = n <;> simp [hin, hij, hr]

theorem vReg_foldl_setVPair (n r : Nat) (g : Nat → Word64) {i : Nat} (hi : i < 32) (is : List Nat) (his : ∀ j ∈ is, j < 32) (w : Wave) :
    vReg (is.foldl (fun w' j => setVPair w' n j (g j)) w) r i =
      if r = n ∧ i ∈ is then (g i).extractLsb' 0 32 else if r = n + 1 ∧ i ∈ is then (g i).extractLsb' 32 32 else vReg w r i := by
  induction is generalizing w with
  | nil => simp
  | cons j is ih =>
    rw [List.forall_mem_cons] at his
    obtain ⟨hj, his⟩ := his
    rw [List.foldl_cons, ih his, vReg_setVPair _ _ _ hi hj]
    by_cases hin : i ∈ is
    · by_cases hr : r = n
      · simp [hin, hr]
      · by_cases hr' : r = n + 1 <;> simp [hin, hr, hr']
    · by_cases hij : i = j
      · subst hij
        simp [hin]
      · simp [hin, hij]

theorem lt_of_mem_lanesOf {m : Word32} {i : Nat} (h : i ∈ lanesOf m) : i < 32 := ((mem_lanesOf m i).mp h).1

theorem mem_lanesOf_of_lt (m : Word32) {i : Nat} (hi : i < 32) : i ∈ lanesOf m ↔ m.getLsbD i = true := by
  rw [mem_lanesOf, and_iff_right hi]

theorem putLanes_v (t : Ty) (n : BitVec 8) (m : Word32) (f : Nat → Nat) (w : Wave) :
    putLanes t (.v n) m f w = (lanesOf m).foldl (fun w' i => putTy t (.v n) i (f i) w') w := rfl

theorem vReg_putLanes_narrow {t : Ty} (ht : t.width ≤ 32) (n : BitVec 8) (m : Word32) (f : Nat → Nat) (w : Wave) (r : Nat) {i : Nat} (hi : i < 32) :
    vReg (putLanes t (.v n) m f w) r i = if r = n.toNat ∧ m.getLsbD i then toV t (f i) else vReg w r i := by
  have fold : putLanes t (.v n) m f w = (lanesOf m).foldl (fun w' i => setV w' n.toNat i (toV t (f i))) w := by
    simp only [putLanes_v, putTy, show t.width ≠ 64 by omega, if_false]
  rw [fold, vReg_foldl_setV _ _ _ hi _ (fun _ => lt_of_mem_lanesOf)]
  simp only [mem_lanesOf_of_lt m hi]

theorem vReg_putLanes_wide {t : Ty} (ht : t.width = 64) (n : BitVec 8) (m : Word32) (f : Nat → Nat) (w : Wave) (r : Nat) {i : Nat} (hi : i < 32) :
    vReg (putLanes t (.v n) m f w) r i =
      if r = n.toNat ∧ m.getLsbD i then BitVec.ofNat 32 (f i)
      else if r = n.toNat + 1 ∧ m.getLsbD i then BitVec.ofNat 32 (f i / 2 ^ 32) else vReg w r i := by
  have fold : putLanes t (.v n) m f w = (lanesOf m).foldl (fun w' i => setVPair w' n.toNat i (BitVec.ofNat 64 (f i))) w := by
    simp only [putLanes_v, putTy, ht, if_true]
  have low (x : Nat) : (BitVec.ofNat 64 x).extractLsb' 0 32 = BitVec.ofNat 32 x := by
    apply BitVec.eq_of_toNat_eq
    simp only [BitVec.extractLsb'_toNat, BitVec.toNat_ofNat]
    omega
  have high (x : Nat) : (BitVec.ofNat 64 x).extractLsb' 32 32 = BitVec.ofNat 32 (x / 2 ^ 32) := by
    apply BitVec.eq_of_toNat_eq
    simp only [BitVec.extractLsb'_toNat, BitVec.toNat_ofNat, Nat.shiftRight_eq_div_pow]
    omega
  rw [fold, vReg_foldl_setVPair _ _ _ hi _ (fun _ => lt_of_mem_lanesOf)]
  simp only [mem_lanesOf_of_lt m hi, low, high]

/-! ### Operands read in a type -/

theorem tyOp_of_ne_const {w : Wave} {lit : Option Word64} {t : Ty} {o : Operand} (hi : ∀ n, o ≠ .int n) (hf : ∀ n, o ≠ .fc n) (i : Nat) :
    tyOp w lit t o i = (rawOp w lit (t.width == 64) o i).toNat % 2 ^ t.width := by
  unfold tyOp
  split
  · split
    · exact absurd rfl (hi _)
    · exact absurd rfl (hf _)
    · rfl
  · rfl

theorem tyOp_s (w : Wave) (lit : Option Word64) (t : Ty) (n : BitVec 6) (i : Nat) :
    tyOp w lit t (.s n) i = ((sReg w n.toNat).setWidth t.width).toNat := by
  rw [tyOp_of_ne_const (by simp) (by simp), BitVec.toNat_setWidth]
  rfl

theorem vPair_toNat (w : Wave) (n i : Nat) : (vPair w n i).toNat = (vReg w n i).toNat + 2 ^ 32 * (vReg w (n + 1) i).toNat := by
  rw [vPair, toNat_append_eq]
  omega

theorem tyOp_v (w : Wave) (lit : Option Word64) (t : Ty) (n : BitVec 8) (i : Nat) :
    tyOp w lit t (.v n) i =
      if t.width = 64 then (vReg w n.toNat i).toNat + 2 ^ 32 * (vReg w (n.toNat + 1) i).toNat else (vReg w n.toNat i).toNat % 2 ^ t.width := by
  rw [tyOp_of_ne_const (by simp) (by simp)]
  by_cases ht : t.width = 64
  · simp only [rawOp, ht, BEq.rfl, if_true, ← vPair_toNat]
    exact Nat.mod_eq_of_lt (vPair w n.toNat i).isLt
  · have fits : (vReg w n.toNat i).toNat % 2 ^ 64 = (vReg w n.toNat i).toNat := Nat.mod_eq_of_lt (by omega)
    rw [if_neg ht, show (t.width == 64) = false by simp [ht]]
    simp only [rawOp, BitVec.toNat_setWidth, fits, Bool.false_eq_true, if_false]

/-! ### The laws of results and registers -/

theorem putLanes_v_narrow_law {t : Ty} (ht : t.width ≤ 32) (n : BitVec 8) (m : Word32) (f : Nat → Nat) (w : Wave) :
    ∃ u, putLanes t (.v n) m f w = u ∧ u = { w with v := u.v } ∧ ∀ r i, i < 32 → vReg u r i =
      if r = n.toNat ∧ m.getLsbD i then
        (if t = .i8 ∨ t = .i16 then (BitVec.ofNat t.width (f i)).signExtend 32 else (BitVec.ofNat t.width (f i)).setWidth 32)
      else vReg w r i :=
  ⟨_, rfl, foldl_putTy_v t n f _ w, fun r i hi => by rw [vReg_putLanes_narrow ht _ _ _ _ _ hi, toV_eq]⟩

theorem putLanes_v_wide_law {t : Ty} (ht : t.width = 64) (n : BitVec 8) (m : Word32) (f : Nat → Nat) (w : Wave) :
    ∃ u, putLanes t (.v n) m f w = u ∧ u = { w with v := u.v } ∧ ∀ r i, i < 32 → vReg u r i =
      if r = n.toNat ∧ m.getLsbD i then BitVec.ofNat 32 (f i)
      else if r = n.toNat + 1 ∧ m.getLsbD i then BitVec.ofNat 32 (f i / 2 ^ 32) else vReg w r i :=
  ⟨_, rfl, foldl_putTy_v t n f _ w, fun r _ hi => vReg_putLanes_wide ht _ _ _ _ r hi⟩

theorem putLanes_s_law (t : Ty) (n : BitVec 6) (m : Word32) (f : Nat → Nat) (w : Wave) :
    ∃ u, putLanes t (.s n) m f w = u ∧ u = { w with s := u.s } ∧ ∀ r, sReg u r =
      if r = n.toNat then
        (if t = .i8 ∨ t = .i16 ∨ t = .i32 then (BitVec.ofNat t.width (f 0)).signExtend 64 else (BitVec.ofNat t.width (f 0)).setWidth 64)
      else sReg w r :=
  ⟨setS w n.toNat (toS t (f 0)), rfl, rfl, fun r => by rw [sReg_setS, toS_eq]⟩

/-- Settles O49: the register laws one by one. -/
theorem registerWrites : Obligations.RegisterWrites := by
  intro t m f w low
  exact ⟨fun n ht => putLanes_v_narrow_law ht n m f w, fun n ht => putLanes_v_wide_law ht n m f w, fun n => putLanes_s_law t n m f w,
    ⟨kReg_zero w, setK_zero w⟩, fun _ x r hn => kReg_setK w hn r x, fun u hu => by simp [hu], fun lit n i _ => tyOp_s w lit t n i,
    fun lit n i => tyOp_v w lit t n i, fun _ _ => rfl⟩

end Sys2Proof.Machine
end

section
/-! SUPPORT. How a repeat begins: RPT's guard is k0, its count given or read once (R43, R44). -/
namespace Sys2Proof.Machine

/-- k0 selects every lane (R37). -/
theorem guardMask_k0 (w : Wave) : guardMask w { g := 0, gn := false } = 0xFFFFFFFF := rfl

theorem readiness_nil (w : Wave) (m : Word32) : readiness w m [] [] = .go := by
  unfold readiness
  split
  · next h => simp [firstTrap] at h
  · rfl

theorem emptyIn_s_eq_zero (w : Wave) {r : BitVec 6} (hr : r.toNat ∉ w.sE) (m : Word32) : emptyIn w (.s r) 1 m = 0 := by
  simp [emptyIn, hr]

theorem readiness_full_count (w : Wave) (m : Word32) {r : BitVec 6} (hr : r.toNat ∉ w.sE) : readiness w m [{ o := .s r }] [] = .go := by
  unfold readiness
  split
  · next h => simp [firstTrap] at h
  · simp [srcEmpty, emptyIn_s_eq_zero w hr]

/-- A repeat word whose count is ready, and not above 64, begins its repeat; above 64 it raises Illegal Instruction. -/
theorem repeatWord_of_ready {srcs : List Src} {n : Wave → Nat} {st : Steps} {key : Nat} {w : Wave} {c : Clause} {s : State}
    (hcur : current s = some (key, w)) (hcl : w.clause = some c) (hk : w.kE.contains 0 = false)
    (ready : readiness w 0xFFFFFFFF srcs [] = .go) :
    repeatWord srcs n st s = if n w > 64 then illegalWord w s else beginRepeat key w c (n w) st s := by
  have issues : Issues { g := 0, gn := false } srcs [] key w 0xFFFFFFFF s := ⟨hcur, hk, guardMask_k0 w, by decide, ready⟩
  rw [repeatWord, word_of_issues issues]
  simp only [hcl]

theorem beginRepeat_zero (key : Nat) (w : Wave) (c : Clause) (st : Steps) (s : State) :
    beginRepeat key w c 0 st s = .next (putWave key (stepOver (stepOver w)) s) := rfl

theorem beginRepeat_of_pos {key n : Nat} {w : Wave} {c : Clause} {st : Steps} {s : State} {raw : Word64} {i : Instr} (hn : 0 < n)
    (hnext : nextWord c = some raw) (hdec : decodeWord raw (c.words[c.idx + 2]?) = .ok i) :
    beginRepeat key w c n st s =
      if stepsInFile w.allot n st i then
        .next (putWave key { w with clause := some { c with idx := c.idx + 1, rpt := some { count := n, iter := 0, steps := st } }, again := 0, noE := false, arv := false } s)
      else illegalWord w s := by
  simp [beginRepeat, Nat.pos_iff_ne_zero.mp hn, hnext, hdec]

/-- Settles O17: the count is ready, so the word comes to `beginRepeat`, whose cases are the clauses. -/
theorem repeatBegins : Obligations.RepeatBegins := by
  intro key w c steps raw i s hcur hcl hnext hdec hk begins
  have fixed (n : BitVec 6) : exec (.rpt n steps) s = beginRepeat key w c (n.toNat + 1) steps s := by
    have small : ¬ n.toNat + 1 > 64 := by omega
    exact (repeatWord_of_ready hcur hcl hk (readiness_nil w _)).trans (if_neg small)
  refine ⟨fun n hin => ?_, fun n hout => ?_, fun r hr => ?_⟩
  · rw [fixed, beginRepeat_of_pos (Nat.succ_pos _) hnext hdec, if_pos hin]
  · rw [fixed, beginRepeat_of_pos (Nat.succ_pos _) hnext hdec, if_neg (by simp [hout])]
  · intro n
    have counted : exec (.rptRegister r steps) s = if n > 64 then illegalWord w s else beginRepeat key w c n steps s :=
      repeatWord_of_ready hcur hcl hk (readiness_full_count w _ hr)
    refine ⟨fun hn => ?_, fun hn hle hin => ?_, fun hn hle hout => ?_, fun hgt => ?_⟩
    · rw [counted, if_neg (by omega), hn, beginRepeat_zero]
    · rw [counted, if_neg (by omega), beginRepeat_of_pos hn hnext hdec, if_pos hin]
    · rw [counted, if_neg (by omega), beginRepeat_of_pos hn hnext hdec, if_neg (by simp [hout])]
    · rw [counted, if_pos hgt]

end Sys2Proof.Machine
end

section
/-! SUPPORT. The words a repeat issues: each stepped field takes its sum without a carry into the next, and the resume point goes from iteration to iteration (R43, R44). -/
namespace Sys2Proof

/-- Field lo of a word, raised by x, is still a nine-bit number. -/
def FieldHolds (raw : Word64) (lo : Nat) (x : Int) : Prop :=
  0 ≤ ((raw.extractLsb' lo 9).toNat : Int) + x ∧ ((raw.extractLsb' lo 9).toNat : Int) + x < 512

/-- The four stepped fields keep to their nine bits in iteration k. -/
structure FieldsHold (raw : Word64) (st : Steps) (k : Nat) : Prop where
  d : FieldHolds raw 39 (k * st.d.toInt)
  a : FieldHolds raw 30 (k * st.a.toInt)
  b : FieldHolds raw 21 (k * st.b.toInt)
  c : FieldHolds raw 12 (k * st.c.toInt)

theorem mul_toInt_zero (k : Nat) : (k : Int) * (0 : BitVec 8).toInt = 0 := Int.mul_zero k

theorem ofInt_toNat_of_range {n : Nat} {x : Int} (h0 : 0 ≤ x) (h1 : x < (2 ^ n : Nat)) : ((BitVec.ofInt n x).toNat : Int) = x := by
  rw [BitVec.toNat_ofInt, Int.toNat_of_nonneg (Int.emod_nonneg _ (by positivity)), Int.emod_eq_of_lt h0 h1]

/-- The stepped fields of a word, from the common fields above them to the bits below them. -/
theorem layoutSteps {w : Word64} {common : BitVec 16} {d a b c : BitVec 9} {low : BitVec 12} :
    common ++ d ++ a ++ b ++ c ++ low = w ↔
      w.extractLsb' 48 16 = common ∧ w.extractLsb' 39 9 = d ∧ w.extractLsb' 30 9 = a ∧ w.extractLsb' 21 9 = b ∧ w.extractLsb' 12 9 = c ∧ w.extractLsb' 0 12 = low := by
  constructor
  · rintro rfl
    simp (disch := decide) only [BitVec.extractLsb'_append_eq_of_le, BitVec.extractLsb'_append_eq_of_add_le]
    simp
  · rintro ⟨rfl, rfl, rfl, rfl, rfl, rfl⟩
    simp (disch := decide) only [BitVec.extractLsb'_append_extractLsb'_eq_extractLsb']
    exact BitVec.extractLsb'_eq_self

/-- Field lo of a word, raised by x. -/
def raisedField (raw : Word64) (lo : Nat) (x : Int) : BitVec 9 := BitVec.ofInt 9 ((raw.extractLsb' lo 9).toNat + x)

theorem toNat_raisedField {raw : Word64} {lo : Nat} {x : Int} (h : FieldHolds raw lo x) :
    ((raisedField raw lo x).toNat : Int) = (raw.extractLsb' lo 9).toNat + x := by
  obtain ⟨h0, h1⟩ := h
  exact ofInt_toNat_of_range h0 (by simpa using h1)

/-- The stepped word as one sum. -/
theorem stepWord_eq_ofInt (raw : Word64) (st : Steps) (k : Nat) :
    stepWord raw st k = BitVec.ofInt 64 ((raw.toNat : Int) + k * st.d.toInt * 2 ^ 39 + k * st.a.toInt * 2 ^ 30 + k * st.b.toInt * 2 ^ 21 +
      k * st.c.toInt * 2 ^ 12) := by
  simp only [stepWord, stepAt, BitVec.ofInt_add]
  rw [BitVec.ofInt_natCast, BitVec.ofNat_toNat, BitVec.setWidth_eq]

/-- Where every field holds its sum, the stepped word is the word with its fields raised: no field carries into the next. -/
theorem stepWord_eq_append {raw : Word64} {st : Steps} {k : Nat} (h : FieldsHold raw st k) :
    raw.extractLsb' 48 16 ++ raisedField raw 39 (k * st.d.toInt) ++ raisedField raw 30 (k * st.a.toInt) ++ raisedField raw 21 (k * st.b.toInt) ++
      raisedField raw 12 (k * st.c.toInt) ++ raw.extractLsb' 0 12 = stepWord raw st k := by
  have parts : raw.toNat = (raw.extractLsb' 48 16 ++ raw.extractLsb' 39 9 ++ raw.extractLsb' 30 9 ++ raw.extractLsb' 21 9 ++ raw.extractLsb' 12 9 ++
      raw.extractLsb' 0 12).toNat := congrArg BitVec.toNat (layoutSteps.mpr ⟨rfl, rfl, rfl, rfl, rfl, rfl⟩).symm
  have hd := toNat_raisedField h.d
  have ha := toNat_raisedField h.a
  have hb := toNat_raisedField h.b
  have hc := toNat_raisedField h.c
  generalize joined : raw.extractLsb' 48 16 ++ raisedField raw 39 (k * st.d.toInt) ++ raisedField raw 30 (k * st.a.toInt) ++
    raisedField raw 21 (k * st.b.toInt) ++ raisedField raw 12 (k * st.c.toInt) ++ raw.extractLsb' 0 12 = y
  have sum : (y.toNat : Int) = (raw.toNat : Int) + k * st.d.toInt * 2 ^ 39 + k * st.a.toInt * 2 ^ 30 + k * st.b.toInt * 2 ^ 21 + k * st.c.toInt * 2 ^ 12 := by
    rw [parts, ← joined]
    simp only [toNat_append_eq]
    push_cast
    rw [hd, ha, hb, hc]
    ring
  rw [stepWord_eq_ofInt, ← sum, BitVec.ofInt_natCast, BitVec.ofNat_toNat, BitVec.setWidth_eq]

/-- Each field of the stepped word holds its own sum. -/
theorem field_stepWord {raw : Word64} {st : Steps} {k : Nat} (h : FieldsHold raw st k) {p : Nat × BitVec 8}
    (hp : p ∈ [(39, st.d), (30, st.a), (21, st.b), (12, st.c)]) :
    (((stepWord raw st k).extractLsb' p.1 9).toNat : Int) = ((raw.extractLsb' p.1 9).toNat : Int) + k * p.2.toInt := by
  obtain ⟨-, d, a, b, c, -⟩ := layoutSteps.mp (stepWord_eq_append h)
  simp only [List.mem_cons, List.not_mem_nil, or_false] at hp
  rcases hp with rfl | rfl | rfl | rfl
  · rw [d, toNat_raisedField h.d]
  · rw [a, toNat_raisedField h.a]
  · rw [b, toNat_raisedField h.b]
  · rw [c, toNat_raisedField h.c]

/-- The bits above the fields stay. -/
theorem common_stepWord {raw : Word64} {st : Steps} {k : Nat} (h : FieldsHold raw st k) :
    (stepWord raw st k).extractLsb' 48 16 = raw.extractLsb' 48 16 := (layoutSteps.mp (stepWord_eq_append h)).left

/-- The bits below the fields stay. -/
theorem low_stepWord {raw : Word64} {st : Steps} {k : Nat} (h : FieldsHold raw st k) :
    (stepWord raw st k).extractLsb' 0 12 = raw.extractLsb' 0 12 := by
  obtain ⟨-, -, -, -, -, low⟩ := layoutSteps.mp (stepWord_eq_append h)
  exact low

/-- A field that is not stepped stays. -/
theorem unstepped_stepWord {raw : Word64} {st : Steps} {k : Nat} (h : FieldsHold raw st k) {p : Nat × BitVec 8}
    (hp : p ∈ [(39, st.d), (30, st.a), (21, st.b), (12, st.c)]) (zero : p.2 = 0) :
    (stepWord raw st k).extractLsb' p.1 9 = raw.extractLsb' p.1 9 := by
  have same := field_stepWord h hp
  rw [zero, mul_toInt_zero, Int.add_zero] at same
  exact BitVec.eq_of_toNat_eq (by exact_mod_cast same)

theorem extractLsb'_low_split (w : Word64) : w.extractLsb' 12 9 ++ w.extractLsb' 0 12 = w.extractLsb' 0 21 :=
  BitVec.extractLsb'_append_extractLsb'_eq_extractLsb' rfl

/-- With C unstepped, format M's offset and the fields below it stay. -/
theorem offset_stepWord {raw : Word64} {st : Steps} {k : Nat} (h : FieldsHold raw st k) (hc : st.c = 0) :
    (stepWord raw st k).extractLsb' 0 21 = raw.extractLsb' 0 21 := by
  have c := unstepped_stepWord h (p := (12, st.c)) (by simp) hc
  rw [← extractLsb'_low_split, ← extractLsb'_low_split raw, c, low_stepWord h]

/-! ### Register numbers -/

theorem Operand.toNat_of_decode_v {code : BitVec 9} {n : BitVec 8} (h : Operand.decode code = some (.v n)) : code.toNat = n.toNat := by
  obtain ⟨-, rfl⟩ := Operand.decode_eq_some.mp h
  rw [Operand.encode, toNat_append_eq]
  simp

theorem Operand.toNat_of_decode_s {code : BitVec 9} {n : BitVec 6} (h : Operand.decode code = some (.s n)) : code.toNat = 256 + n.toNat := by
  obtain ⟨-, rfl⟩ := Operand.decode_eq_some.mp h
  rw [Operand.encode, toNat_append_eq]
  rfl

theorem Operand.decode_v_of_toNat {code : BitVec 9} {x : Int} (h : (code.toNat : Int) = x) (h0 : 0 ≤ x) (h1 : x < 256) :
    Operand.decode code = some (.v (BitVec.ofInt 8 x)) := by
  refine Operand.decode_eq_some.mpr ⟨rfl, BitVec.eq_of_toNat_eq ?_⟩
  have := ofInt_toNat_of_range (n := 8) h0 (by simpa using h1)
  rw [Operand.encode, toNat_append_eq]
  simp only [BitVec.toNat_ofNat]
  omega

theorem Operand.decode_s_of_toNat {code : BitVec 9} {x : Int} (h : (code.toNat : Int) = 256 + x) (h0 : 0 ≤ x) (h1 : x < 64) :
    Operand.decode code = some (.s (BitVec.ofInt 6 x)) := by
  refine Operand.decode_eq_some.mpr ⟨rfl, BitVec.eq_of_toNat_eq ?_⟩
  have := ofInt_toNat_of_range (n := 6) h0 (by simpa using h1)
  rw [Operand.encode, toNat_append_eq]
  simp only [BitVec.toNat_ofNat]
  omega

/-- A step that changes nothing, or one that keeps a v or s register in its file. -/
def StepKeeps (raw : Word64) (k : Nat) (p : Nat × BitVec 8) : Prop :=
  p.2 = 0 ∨ ∃ q, Operand.decode (raw.extractLsb' p.1 9) = some q ∧ ((∃ n, q = .v n) ∨ ∃ n, q = .s n) ∧ q.inFile 256 ((k : Int) * p.2.toInt) = true

theorem StepKeeps.fieldHolds {raw : Word64} {k : Nat} {p : Nat × BitVec 8} (h : StepKeeps raw k p) : FieldHolds raw p.1 (k * p.2.toInt) := by
  have code := (raw.extractLsb' p.1 9).isLt
  rcases h with h | ⟨q, hq, ⟨n, rfl⟩ | ⟨n, rfl⟩, hin⟩
  · rw [h, mul_toInt_zero]
    exact ⟨by omega, by omega⟩
  · have := Operand.toNat_of_decode_v hq
    simp only [Operand.inFile, Bool.and_eq_true, decide_eq_true_eq] at hin
    exact ⟨by omega, by omega⟩
  · have := Operand.toNat_of_decode_s hq
    simp only [Operand.inFile, Bool.and_eq_true, decide_eq_true_eq] at hin
    exact ⟨by omega, by omega⟩

theorem StepKeeps.v_range {raw : Word64} {k : Nat} {p : Nat × BitVec 8} {n : BitVec 8} (h : StepKeeps raw k p)
    (hn : Operand.decode (raw.extractLsb' p.1 9) = some (.v n)) : 0 ≤ (n.toNat : Int) + k * p.2.toInt ∧ (n.toNat : Int) + k * p.2.toInt < 256 := by
  rcases h with h | ⟨q, hq, -, hin⟩
  · rw [h, mul_toInt_zero]
    exact ⟨by omega, by omega⟩
  · obtain rfl := Option.some.inj (hq.symm.trans hn)
    simp only [Operand.inFile, Bool.and_eq_true, decide_eq_true_eq] at hin
    exact hin

theorem StepKeeps.s_range {raw : Word64} {k : Nat} {p : Nat × BitVec 8} {n : BitVec 6} (h : StepKeeps raw k p)
    (hn : Operand.decode (raw.extractLsb' p.1 9) = some (.s n)) : 0 ≤ (n.toNat : Int) + k * p.2.toInt ∧ (n.toNat : Int) + k * p.2.toInt < 64 := by
  rcases h with h | ⟨q, hq, -, hin⟩
  · rw [h, mul_toInt_zero]
    exact ⟨by omega, by omega⟩
  · obtain rfl := Option.some.inj (hq.symm.trans hn)
    simp only [Operand.inFile, Bool.and_eq_true, decide_eq_true_eq] at hin
    exact hin

end Sys2Proof

namespace Sys2Proof.Machine

/-! ### The next iteration (R44) -/

theorem advance_of_more {w : Wave} {c : Clause} {r : Repeat} (hcl : w.clause = some c) (hr : c.rpt = some r) (more : r.iter + 1 < r.count) :
    advance w = { w with clause := some { c with rpt := some { r with iter := r.iter + 1 } }, again := 0, noE := false, arv := false, held := false } := by
  simp only [advance, hcl, hr, more, if_true]

theorem advance_of_last {w : Wave} {c : Clause} {r : Repeat} (hcl : w.clause = some c) (hr : c.rpt = some r) (last : r.count ≤ r.iter + 1) :
    advance w = stepOver w := by
  simp only [advance, hcl, hr, Nat.not_lt.mpr last, if_false]

theorem stepOver_within {w : Wave} {c : Clause} {raw : Word64} (hcl : w.clause = some c) (hraw : rawWord c = some raw)
    (within : c.idx + wordLength raw < c.words.length) :
    stepOver w = { w with clause := some { c with idx := c.idx + wordLength raw, rpt := none }, again := 0, noE := false, arv := false, held := false } := by
  simp only [stepOver, hcl, hraw, within, if_true]

theorem stepOver_behind {w : Wave} {c : Clause} {raw : Word64} (hcl : w.clause = some c) (hraw : rawWord c = some raw)
    (behind : c.words.length ≤ c.idx + wordLength raw) : stepOver w = endClause (w.pc + BitVec.ofNat 64 (8 * (c.words.length + 1))) w := by
  simp only [stepOver, hcl, hraw, Nat.not_lt.mpr behind, if_false, nextHeader]

/-- Settles O18: no field carries into the next (`stepWord_toNat`), and `advance` counts the iterations. -/
theorem repeatIterations : Obligations.RepeatIterations := by
  refine ⟨fun raw st k lo step o _ hp ho keeps => ?_, fun w c r raw hcl hr hraw => ⟨fun more => ?_, fun last within => ?_, fun last behind => ?_⟩⟩
  · have keep (p) (h : p ∈ [(39, st.d), (30, st.a), (21, st.b), (12, st.c)]) : StepKeeps raw k p := keeps p h
    have holds : FieldsHold raw st k := {
      d := (keep (39, st.d) (by simp)).fieldHolds
      a := (keep (30, st.a) (by simp)).fieldHolds
      b := (keep (21, st.b) (by simp)).fieldHolds
      c := (keep (12, st.c) (by simp)).fieldHolds }
    have sum := field_stepWord holds hp
    refine ⟨?_, ?_, fun p => unstepped_stepWord holds, offset_stepWord holds, common_stepWord holds, low_stepWord holds⟩
    · rintro n rfl
      obtain ⟨h0, h1⟩ := (keep _ hp).v_range ho
      rw [Operand.toNat_of_decode_v ho] at sum
      exact Operand.decode_v_of_toNat sum h0 h1
    · rintro n rfl
      obtain ⟨h0, h1⟩ := (keep _ hp).s_range ho
      rw [Operand.toNat_of_decode_s ho] at sum
      exact Operand.decode_s_of_toNat (by push_cast at sum; linarith) h0 h1
  · rw [advance_of_more hcl hr more]
    exact ⟨rfl, rfl⟩
  · rw [advance_of_last hcl hr last, stepOver_within hcl hraw within]
    exact ⟨rfl, rfl⟩
  · rw [advance_of_last hcl hr last, stepOver_behind hcl hraw behind]
    exact ⟨rfl, rfl⟩

end Sys2Proof.Machine
end

section
/-! SUPPORT. One step: the next move, the word a wave issues, what is noted after a word, and time that passes. -/
namespace Sys2Proof.Machine

/-- The state after the first listed move is taken from the list. -/
def moveTaken (rest : List Move) (s : State) : State := { s with sched := { s.sched with moves := rest, freeNo := s.sched.freeNo + 1 } }

theorem step_of_moves {m : Move} {rest : List Move} {s : State} (frozen : s.frozen = false) (moves : s.sched.moves = m :: rest) :
    step s = moveStep m (moveTaken rest s) := by
  have next : nextMove s = (m, moveTaken rest s) := by simp only [nextMove, moves]; rfl
  have running : ¬ (moveTaken rest s).frozen = true := ne_true_of_eq_false frozen
  simp only [step, next, if_neg running]

/-- Taking a move from the list lets no other wave issue. -/
theorem mayIssue_moveTaken (rest : List Move) (s : State) (key : Nat) : mayIssue (moveTaken rest s) key = mayIssue s key := rfl

theorem mayIssue_of_view {s : State} {key : Nat} {v : View} (view : viewOf s key = some v) (started : v.w.clause.isSome = true) (ended : v.w.ended = false)
    (poll : v.w.poll = none) (parked : v.w.parked = none) (life : v.b.life = .running) (acq : acquiring v.w = false)
    (stands : (v.w.held && !v.w.stop && saveDue s v.w.blk) = false) : mayIssue s key = true := by
  simp only [mayIssue, view, started, ended, poll, parked, life, acq, stands]
  rfl

/-- The word at the resume point, as its repeat steps it. -/
def wordAt (c : Clause) (raw : Word64) : Word64 := match c.rpt with | some r => stepWord raw r.steps r.iter | none => raw

theorem fetchInstr_of_raw {w : Wave} {c : Clause} {raw : Word64} (started : w.clause = some c) (hraw : rawWord c = some raw) :
    fetchInstr w = decodeWord (wordAt c raw) (nextWord c) := by
  simp only [fetchInstr, started, hraw]
  rfl

theorem issueStep_of_ok {s : State} {key : Nat} {w : Wave} {i : Instr} (hw : mget s.waves key = some w) (may : mayIssue s key = true)
    (fetch : fetchInstr w = .ok i) : issueStep key s = settle i key (issuing key s) (exec i (issuing key s)) := by
  simp only [issueStep, hw, may, if_true, fetch]

theorem issueStep_of_error {s : State} {key : Nat} {w : Wave} {r : Illegal} (hw : mget s.waves key = some w) (may : mayIssue s key = true)
    (fetch : fetchInstr w = .error r) : issueStep key s = illegalWord w s := by
  simp only [issueStep, hw, may, if_true, fetch]

/-- The mark that a due save leaves on a wave that waits at its word (R81). -/
def heldMark (i : Instr) (key : Nat) (before t : State) (w : Wave) : Bool := saveDue t w.blk && decide (t = before) && !ownWait i key t

theorem retiresHere_of_not_stop (s : State) (waits : Bool) {w : Wave} (h : w.stop = false) : retiresHere s waits w = false := by
  simp only [retiresHere, h, Bool.false_and]

/-- A wave that is not stopping keeps what its word answered, but for its mark. -/
theorem settle_of_running {i : Instr} {key : Nat} {before t : State} {w : Wave} (hw : mget t.waves key = some w) (hs : w.stop = false) :
    settle i key before (.next t) =
      if w.held = heldMark i key before t w then .next t else .next (putWave key { w with held := heldMark i key before t w } t) := by
  simp only [settle, hw, retiresHere_of_not_stop _ _ hs, Bool.false_eq_true, if_false]
  rfl

theorem settle_of_mark {i : Instr} {key : Nat} {before t : State}
    (h : ∀ w, mget t.waves key = some w → w.stop = false ∧ w.held = heldMark i key before t w) : settle i key before (.next t) = .next t := by
  cases hw : mget t.waves key with
  | none => simp only [settle, hw]
  | some w =>
    obtain ⟨hs, mark⟩ := h w hw
    rw [settle_of_running hw hs, if_pos mark]

theorem settle_of_other_mark {i : Instr} {key : Nat} {before t : State} {w : Wave} (hw : mget t.waves key = some w) (hs : w.stop = false)
    (h : w.held ≠ heldMark i key before t w) : settle i key before (.next t) = .next (putWave key { w with held := !w.held } t) := by
  have flips : heldMark i key before t w = !w.held := Bool.eq_not_of_ne h.symm
  rw [settle_of_running hw hs, if_neg h, flips]

/-! ### Time that passes -/

theorem passWave_eq (s : State) (cycles key : Nat) (w : Wave) :
    passWave s cycles key w = { w with
      poll := (passWave s cycles key w).poll, yieldLeft := (passWave s cycles key w).yieldLeft, age := (passWave s cycles key w).age } := by
  fun_cases passWave <;> rfl

theorem mget_passTime_waves (cycles ticks key : Nat) (s : State) : mget (passTime cycles ticks s).waves key = (mget s.waves key).map (passWave s cycles key) :=
  mget_map (passWave s cycles) s.waves key

/-- A context as ticks have passed for its rings. -/
def passCtx (now : Nat) (c : Ctx) : Ctx := { c with rings := c.rings.map (fun r => (r.1, passRing now c r.1 r.2)) }

theorem mget_passCtx_rings (now ctl : Nat) (c : Ctx) : mget (passCtx now c).rings ctl = (mget c.rings ctl).map (passRing now c ctl) :=
  mget_map (passRing now c) c.rings ctl

theorem mget_passTime_ctxs (cycles ticks key : Nat) (s : State) :
    mget (passTime cycles ticks s).ctxs key = (mget s.ctxs key).map (passCtx (passTime cycles ticks s).time.ticks.toNat) :=
  mget_map (fun _ => passCtx (passTime cycles ticks s).time.ticks.toNat) s.ctxs key

/-- Settles O44: the listed move is taken (`step_of_moves`), the wave may issue, and `settle` adds only its mark. -/
theorem stepRunsTheWord : Obligations.StepRunsTheWord := by
  intro m rest s frozen moves s1
  have taken : step s = moveStep m s1 := step_of_moves frozen moves
  refine ⟨fun key v c raw hm view started ended poll parked life acq stands hraw => ?_, fun i hm event => ?_, fun c n hm => ?_⟩
  · intro word s2
    subst hm
    obtain ⟨-, hw, -⟩ := viewOf_eq_some.mp view
    have may : mayIssue s1 key = true := (mayIssue_moveTaken rest s key).trans
      (mayIssue_of_view view (by rw [started]; rfl) ended poll parked life acq stands)
    have fetch : fetchInstr v.w = decodeWord word (c.words[c.idx + 1]?) := fetchInstr_of_raw started hraw
    refine ⟨fun i hi => ?_, fun r hr => taken.trans (issueStep_of_error hw may (fetch.trans hr))⟩
    have runs : step s = settle i key s2 (exec i s2) := taken.trans (issueStep_of_ok hw may (fetch.trans hi))
    refine ⟨runs, fun t ht mark => ?_, fun t w ht hw hs mark => ?_⟩
    · rw [runs, ht, settle_of_mark mark]
    · rw [runs, ht, settle_of_other_mark hw hs mark]
  · subst hm
    rw [taken, moveStep, event]
    rfl
  · subst hm
    refine ⟨passTime c n s1, taken, rfl, rfl, rfl, rfl, rfl, fun key x hx => ?_, fun key w hw => ?_⟩
    · have after := mget_passTime_ctxs c n key s1
      rw [show mget s1.ctxs key = some x from hx] at after
      refine ⟨_, after, rfl, fun ctl r hr => ?_⟩
      rw [mget_passCtx_rings, hr]
      rfl
    · have after := mget_passTime_waves c n key s1
      rw [show mget s1.waves key = some w from hw] at after
      exact ⟨_, after, passWave_eq s1 c key w⟩

end Sys2Proof.Machine
end

section
/-! SUPPORT. A result that returns: the bytes of its far parts, and the registers it writes and fills (R40, R122, R148). -/
namespace Sys2Proof.Machine

/-! ### Bytes of a value -/

theorem testBit_field (x lo n i : Nat) : (field x lo n).testBit i = (decide (i < n) && x.testBit (lo + i)) := by
  rw [field, Nat.testBit_mod_two_pow, Nat.testBit_div_two_pow]
  simp [Nat.add_comm]

/-- A field of a field. -/
theorem field_field {x lo n lo' n' : Nat} (h : lo' + n' ≤ n) : field (field x lo n) lo' n' = field x (lo + lo') n' := by
  apply Nat.eq_of_testBit_eq
  intro i
  simp only [testBit_field]
  by_cases hi : i < n'
  · simp [hi, show lo' + i < n by omega, Nat.add_assoc]
  · simp [hi]

/-- Replaced bytes, written as high part, new bytes and low part. -/
theorem setBytes_eq (x off len y : Nat) :
    setBytes x off len y = 2 ^ (8 * off) * (2 ^ (8 * len) * (x / 2 ^ (8 * off) / 2 ^ (8 * len)) + y % 2 ^ (8 * len)) + x % 2 ^ (8 * off) := by
  have low := Nat.div_add_mod x (2 ^ (8 * off))
  have high := Nat.div_add_mod (x / 2 ^ (8 * off)) (2 ^ (8 * len))
  rw [setBytes, field]
  generalize 2 ^ (8 * off) = a at *
  generalize 2 ^ (8 * len) = b at *
  generalize y % b = z
  have whole : x = (a * (b * (x / a / b)) + x % a) + x / a % b * a := by
    calc x = a * (b * (x / a / b) + x / a % b) + x % a := by rw [high, low]
      _ = _ := by ring
  have rest : x - x / a % b * a = a * (b * (x / a / b)) + x % a := Nat.sub_eq_of_eq_add whole
  rw [rest]
  ring

theorem testBit_setBytes (x off len y i : Nat) :
    (setBytes x off len y).testBit i = if 8 * off ≤ i ∧ i < 8 * (off + len) then y.testBit (i - 8 * off) else x.testBit i := by
  rw [setBytes_eq, Nat.testBit_two_pow_mul_add _ (Nat.mod_lt _ (Nat.two_pow_pos _))]
  by_cases low : i < 8 * off
  · rw [if_pos low, if_neg (by omega), Nat.testBit_mod_two_pow]
    simp [low]
  · rw [if_neg low, Nat.testBit_two_pow_mul_add _ (Nat.mod_lt _ (Nat.two_pow_pos _))]
    by_cases new : i - 8 * off < 8 * len
    · rw [if_pos new, if_pos (by omega), Nat.testBit_mod_two_pow]
      simp [new]
    · rw [if_neg new, if_neg (by omega), Nat.testBit_div_two_pow, Nat.testBit_div_two_pow]
      congr 1
      omega

theorem field_setBytes_outside {x off len y k : Nat} (h : ¬ (off ≤ k ∧ k < off + len)) : field (setBytes x off len y) (8 * k) 8 = field x (8 * k) 8 := by
  apply Nat.eq_of_testBit_eq
  intro i
  simp only [testBit_field, testBit_setBytes]
  by_cases hi : i < 8
  · rw [if_neg (by omega)]
  · simp [hi]

theorem field_setBytes_inside {x off len y k : Nat} (h0 : off ≤ k) (h1 : k < off + len) :
    field (setBytes x off len y) (8 * k) 8 = field y (8 * (k - off)) 8 := by
  apply Nat.eq_of_testBit_eq
  intro i
  simp only [testBit_field, testBit_setBytes]
  by_cases hi : i < 8
  · rw [if_pos (by omega), show 8 * k + i - 8 * off = 8 * (k - off) + i by omega]
  · simp [hi]

/-! ### Far parts (R122) -/

/-- A far part brings byte k of a lane. -/
def FarPart.Covers (q : FarPart) (lane k : Nat) : Prop := (q.shared = true ∨ q.lane = lane) ∧ q.off ≤ k ∧ k < q.off + q.len

/-- Part p of a return takes its bytes in a lane's value. -/
def farStep (f : Nat → FarPart → Nat) (lane x : Nat) (p : Nat × FarPart) : Nat :=
  if p.2.shared ∨ p.2.lane = lane then setBytes x p.2.off p.2.len (f p.1 p.2) else x

/-- A lane's value with its far parts. -/
def farValue (r : Return) (f : Nat → FarPart → Nat) (l : Nat × Nat) : Nat := ((List.range r.far.length).zip r.far).foldl (farStep f l.1) l.2

theorem farData_eq (r : Return) (f : Nat → FarPart → Nat) : farData r f = r.lanes.map (fun l => (l.1, farValue r f l)) := rfl

theorem field_farStep_uncovered {f : Nat → FarPart → Nat} {lane x k : Nat} {p : Nat × FarPart} (h : ¬ p.2.Covers lane k) :
    field (farStep f lane x p) (8 * k) 8 = field x (8 * k) 8 := by
  unfold farStep
  split
  · next ours => exact field_setBytes_outside (fun inside => h ⟨ours, inside⟩)
  · rfl

theorem field_farStep_covered {f : Nat → FarPart → Nat} {lane x k : Nat} {p : Nat × FarPart} (h : p.2.Covers lane k) :
    field (farStep f lane x p) (8 * k) 8 = field (f p.1 p.2) (8 * (k - p.2.off)) 8 := by
  obtain ⟨ours, low, high⟩ := h
  rw [farStep, if_pos ours, field_setBytes_inside low high]

theorem field_foldl_farStep_uncovered {f : Nat → FarPart → Nat} {lane k : Nat} (ps : List (Nat × FarPart)) (h : ∀ p ∈ ps, ¬ p.2.Covers lane k) (x : Nat) :
    field (ps.foldl (farStep f lane) x) (8 * k) 8 = field x (8 * k) 8 := by
  induction ps generalizing x with
  | nil => rfl
  | cons p ps ih =>
    rw [List.forall_mem_cons] at h
    rw [List.foldl_cons, ih h.2, field_farStep_uncovered h.1]

/-- The parts of a return with their places. -/
theorem getElem?_parts (ps : List FarPart) (j : Nat) : ((List.range ps.length).zip ps)[j]? = (ps[j]?).map (fun q => (j, q)) := by
  by_cases h : j < ps.length
  · simp [h]
  · simp [Nat.not_lt.mp h]

theorem mem_drop_parts {ps : List FarPart} {j : Nat} {p : Nat × FarPart} (h : p ∈ ((List.range ps.length).zip ps).drop j) :
    j ≤ p.1 ∧ ps[p.1]? = some p.2 := by
  obtain ⟨i, hi⟩ := List.mem_iff_getElem?.mp h
  rw [List.getElem?_drop, getElem?_parts, Option.map_eq_some_iff] at hi
  obtain ⟨q, hq, rfl⟩ := hi
  exact ⟨Nat.le_add_right j i, hq⟩

theorem field_farValue_uncovered (r : Return) (f : Nat → FarPart → Nat) (l : Nat × Nat) (k : Nat) (h : ∀ q ∈ r.far, ¬ q.Covers l.1 k) :
    field (farValue r f l) (8 * k) 8 = field l.2 (8 * k) 8 :=
  field_foldl_farStep_uncovered _ (fun p hp => h p.2 (List.of_mem_zip hp).2) _

/-- A byte is that of the newest part that covers it. -/
theorem field_farValue_covered {r : Return} (f : Nat → FarPart → Nat) {l : Nat × Nat} {k j : Nat} {q : FarPart} (hj : r.far[j]? = some q)
    (covers : q.Covers l.1 k) (newest : ∀ i x, j < i → r.far[i]? = some x → ¬ x.Covers l.1 k) :
    field (farValue r f l) (8 * k) 8 = field (f j q) (8 * (k - q.off)) 8 := by
  have at_j : ((List.range r.far.length).zip r.far)[j]? = some (j, q) := by rw [getElem?_parts, hj]; rfl
  have later : ∀ p ∈ ((List.range r.far.length).zip r.far).drop (j + 1), ¬ p.2.Covers l.1 k := fun p hp =>
    newest p.1 p.2 (mem_drop_parts hp).1 (mem_drop_parts hp).2
  rw [farValue, ← List.take_append_drop j ((List.range r.far.length).zip r.far), List.drop_eq_getElem?_toList_append, at_j, List.foldl_append]
  exact (field_foldl_farStep_uncovered _ later _).trans (field_farStep_covered covers)

/-- A byte of part j of the arrived data. -/
theorem field_arrived {r : Return} {bytes j k : Nat} {q : FarPart} (hj : r.far[j]? = some q) (hk : k < q.len) :
    field (arrived r bytes j) (8 * k) 8 = field bytes (8 * (((r.far.take j).map (fun p => p.len)).sum + k)) 8 := by
  rw [arrived, hj, Nat.mul_add]
  exact field_field (show 8 * k + 8 ≤ 8 * q.len by omega)

/-! ### Writing a result (R148) -/

/-- Word j of a value of size bytes in a v destination. -/
def resultWord (size : Nat) (sx : Bool) (x j : Nat) : Word32 :=
  if size ≤ 4 then BitVec.ofNat 32 (if sx then signExt (8 * size) 32 x else x) else BitVec.ofNat 32 (field x (32 * j) 32)

theorem resultWord_narrow {size : Nat} (h : size ≤ 4) (sx : Bool) (x j : Nat) :
    resultWord size sx x j = BitVec.ofNat 32 (if sx then signExt (8 * size) 32 x else x) := if_pos h

theorem resultWord_wide {size : Nat} (h : 4 < size) (sx : Bool) (x j : Nat) : resultWord size sx x j = BitVec.ofNat 32 (x / 2 ^ (32 * j)) := by
  rw [resultWord, if_neg (Nat.not_le.mpr h), field]
  exact BitVec.eq_of_toNat_eq (by simp)

theorem vReg_foldl_range (n q N : Nat) (g : Nat → Word32) {i i' : Nat} (hi : i < 32) (hi' : i' < 32) (w : Wave) :
    vReg ((List.range N).foldl (fun u j => setV u (n + j) i (g j)) w) q i' = if (n ≤ q ∧ q < n + N) ∧ i' = i then g (q - n) else vReg w q i' := by
  induction N with
  | zero => rw [if_neg (by omega)]; rfl
  | succ N ih =>
    rw [List.range_succ, List.foldl_append]
    simp only [List.foldl_cons, List.foldl_nil]
    rw [vReg_setV _ _ _ hi' hi, ih]
    by_cases last : q = n + N ∧ i' = i
    · rw [if_pos last, if_pos (by omega), show q - n = N by omega]
    · rw [if_neg last]
      congr 1
      exact propext ⟨fun h => ⟨⟨h.1.1, by omega⟩, h.2⟩, fun h => ⟨⟨h.1.1, by omega⟩, h.2⟩⟩

theorem vReg_putData (n : BitVec 8) (size : Nat) (sx : Bool) (x q : Nat) {i i' : Nat} (hi : i < 32) (hi' : i' < 32) (w : Wave) :
    vReg (putData (.v n) size sx i x w) q i' =
      if (n.toNat ≤ q ∧ q < n.toNat + resultRegs (.v n) size) ∧ i' = i then resultWord size sx x (q - n.toNat) else vReg w q i' := by
  by_cases h : size ≤ 4
  · simp only [putData, resultRegs, resultWord, if_pos h]
    rw [vReg_setV _ _ _ hi' hi]
    congr 1
    exact propext ⟨fun ⟨hq, e⟩ => ⟨⟨by omega, by omega⟩, e⟩, fun ⟨hq, e⟩ => ⟨by omega, e⟩⟩
  · simp only [putData, resultRegs, resultWord, if_neg h]
    exact vReg_foldl_range n.toNat q (size / 4) (fun j => BitVec.ofNat 32 (field x (32 * j) 32)) hi hi' w

/-- The lanes of a result written, one after another. -/
def putLanesData (d : Operand) (size : Nat) (sx : Bool) (ls : List (Nat × Nat)) (w : Wave) : Wave := ls.foldl (fun u l => putData d size sx l.1 l.2 u) w

theorem putLanesData_cons (d : Operand) (size : Nat) (sx : Bool) (l : Nat × Nat) (ls : List (Nat × Nat)) (w : Wave) :
    putLanesData d size sx (l :: ls) w = putLanesData d size sx ls (putData d size sx l.1 l.2 w) := rfl

theorem vReg_putLanesData_of_not_mem (n : BitVec 8) (size : Nat) (sx : Bool) (q : Nat) {i : Nat} (hi : i < 32) (ls : List (Nat × Nat))
    (small : ∀ l ∈ ls, l.1 < 32) (h : (q < n.toNat ∨ n.toNat + resultRegs (.v n) size ≤ q) ∨ ∀ l ∈ ls, l.1 ≠ i) (w : Wave) :
    vReg (putLanesData (.v n) size sx ls w) q i = vReg w q i := by
  induction ls generalizing w with
  | nil => rfl
  | cons l ls ih =>
    rw [List.forall_mem_cons] at small
    rw [putLanesData_cons, ih small.2 (h.imp_right (fun h => (List.forall_mem_cons.mp h).2)), vReg_putData _ _ _ _ _ small.1 hi, if_neg]
    rintro ⟨⟨low, high⟩, same⟩
    rcases h with outside | others
    · omega
    · exact (List.forall_mem_cons.mp others).1 same.symm

theorem vReg_putLanesData_of_mem (n : BitVec 8) (size : Nat) (sx : Bool) {q : Nat} (low : n.toNat ≤ q) (high : q < n.toNat + resultRegs (.v n) size)
    (ls : List (Nat × Nat)) (small : ∀ l ∈ ls, l.1 < 32) (nodup : (ls.map Prod.fst).Nodup) {l : Nat × Nat} (hl : l ∈ ls) (w : Wave) :
    vReg (putLanesData (.v n) size sx ls w) q l.1 = resultWord size sx l.2 (q - n.toNat) := by
  induction ls generalizing w with
  | nil => cases hl
  | cons a ls ih =>
    rw [List.map_cons, List.nodup_cons] at nodup
    rw [List.forall_mem_cons] at small
    rw [putLanesData_cons]
    rcases List.mem_cons.mp hl with rfl | hl
    · have once : ∀ b ∈ ls, b.1 ≠ l.1 := fun b hb e => nodup.1 (e ▸ List.mem_map_of_mem hb)
      rw [vReg_putLanesData_of_not_mem _ _ _ _ small.1 _ small.2 (.inr once), vReg_putData _ _ _ _ _ small.1 small.1, if_pos ⟨⟨low, high⟩, rfl⟩]
    · exact ih small.2 nodup.2 hl _

/-! ### A destination full again (R40) -/

theorem mem_foldl_sdel (f : Nat → Nat) (is l : List Nat) (x : Nat) : x ∈ is.foldl (fun l i => sdel l (f i)) l ↔ x ∈ l ∧ ∀ i ∈ is, x ≠ f i := by
  induction is generalizing l with
  | nil => simp
  | cons i is ih =>
    rw [List.foldl_cons, ih, mem_sdel, List.forall_mem_cons]
    tauto

theorem mem_markFull_vE (n : BitVec 8) (N : Nat) (m : Word32) (w : Wave) (x : Nat) :
    x ∈ (markFull (.v n) N m w).vE ↔ x ∈ w.vE ∧ ∀ j < N, ∀ i ∈ lanesOf m, x ≠ (n.toNat + j) * 32 + i := by
  have inner (js l : List Nat) : x ∈ js.foldl (fun l j => (lanesOf m).foldl (fun l i => sdel l ((n.toNat + j) * 32 + i)) l) l ↔
      x ∈ l ∧ ∀ j ∈ js, ∀ i ∈ lanesOf m, x ≠ (n.toNat + j) * 32 + i := by
    induction js generalizing l with
    | nil => simp
    | cons j js ih =>
      rw [List.foldl_cons, ih, mem_foldl_sdel, List.forall_mem_cons, and_assoc]
  simp only [markFull, inner, List.mem_range]

/-- The mask of the lanes that a result names. -/
def lanesMask (ls : List (Nat × Nat)) : Word32 := ls.foldl (fun x l => x ||| BitVec.ofNat 32 (1 <<< l.1)) 0

theorem getLsbD_foldl_lanes (ls : List (Nat × Nat)) (m : Word32) {i : Nat} (hi : i < 32) :
    (ls.foldl (fun x l => x ||| BitVec.ofNat 32 (1 <<< l.1)) m).getLsbD i = (m.getLsbD i || decide (∃ l ∈ ls, l.1 = i)) := by
  induction ls generalizing m with
  | nil => simp
  | cons l ls ih =>
    have bit : (BitVec.ofNat 32 (1 <<< l.1)).getLsbD i = decide (l.1 = i) := by
      rw [BitVec.getLsbD_ofNat, Nat.one_shiftLeft, Nat.testBit_two_pow]
      simp [hi]
    rw [List.foldl_cons, ih, BitVec.getLsbD_or, bit, Bool.or_assoc, Bool.eq_iff_iff]
    simp

theorem mem_lanesOf_lanesMask (ls : List (Nat × Nat)) {i : Nat} (hi : i < 32) : i ∈ lanesOf (lanesMask ls) ↔ ∃ l ∈ ls, l.1 = i := by
  rw [mem_lanesOf_of_lt _ hi, lanesMask, getLsbD_foldl_lanes _ _ hi]
  simp

/-! ### What a delivery leaves alone -/

theorem deliverReturn_eq (r : Return) (w : Wave) :
    deliverReturn r w = markFull r.dest (resultRegs r.dest r.size) (lanesMask r.lanes) (putLanesData r.dest r.size r.sx r.lanes w) := rfl

/-- A wave with other registers, and other registers empty. -/
structure RegsOnly (u w : Wave) : Prop where
  eq : u = { w with s := u.s, v := u.v, k := u.k, sE := u.sE, vE := u.vE, kE := u.kE }

theorem RegsOnly.trans {a b c : Wave} (hab : RegsOnly a b) (hbc : RegsOnly b c) : RegsOnly a c := by
  have both := hab.eq
  rw [hbc.eq] at both
  exact ⟨both⟩

theorem foldl_regsOnly {α : Type} {f : Wave → α → Wave} (h : ∀ u a, RegsOnly (f u a) u) (as : List α) (w : Wave) : RegsOnly (as.foldl f w) w := by
  induction as generalizing w with
  | nil => exact ⟨rfl⟩
  | cons a as ih => exact (ih (f w a)).trans (h w a)

theorem foldl_same {α β : Type} {f : Wave → α → Wave} {part : Wave → β} (h : ∀ u a, part (f u a) = part u) (as : List α) (w : Wave) :
    part (as.foldl f w) = part w := by
  induction as generalizing w with
  | nil => rfl
  | cons a as ih => rw [List.foldl_cons, ih, h]

theorem setV_regsOnly (w : Wave) (n i : Nat) (x : Word32) : RegsOnly (setV w n i x) w := ⟨rfl⟩

theorem putData_regsOnly (d : Operand) (size : Nat) (sx : Bool) (i x : Nat) (w : Wave) : RegsOnly (putData d size sx i x w) w := by
  cases d with
  | v n =>
    by_cases h : size ≤ 4
    · simp only [putData, if_pos h]
      exact setV_regsOnly _ _ _ _
    · simp only [putData, if_neg h]
      exact foldl_regsOnly (fun u j => setV_regsOnly u _ _ _) _ w
  | s n =>
    by_cases h : size ≤ 8
    · simp only [putData, if_pos h]
      exact ⟨rfl⟩
    · simp only [putData, if_neg h]
      exact ⟨rfl⟩
  | k n =>
    by_cases h : n.toNat = 0
    · simp only [putData, setK, if_pos h]
      exact ⟨rfl⟩
    · simp only [putData, setK, if_neg h]
      exact ⟨rfl⟩
  | _ => exact ⟨rfl⟩

theorem markFull_regsOnly (d : Operand) (n : Nat) (m : Word32) (w : Wave) : RegsOnly (markFull d n m w) w := by
  cases d with
  | v n => exact ⟨rfl⟩
  | s n => exact ⟨rfl⟩
  | k n => exact ⟨rfl⟩
  | _ => exact ⟨rfl⟩

theorem putLanesData_regsOnly (d : Operand) (size : Nat) (sx : Bool) (ls : List (Nat × Nat)) (w : Wave) : RegsOnly (putLanesData d size sx ls w) w := by
  unfold putLanesData
  exact foldl_regsOnly (fun u l => putData_regsOnly d size sx l.1 l.2 u) ls w

theorem deliverReturn_regsOnly (r : Return) (w : Wave) : RegsOnly (deliverReturn r w) w := by
  rw [deliverReturn_eq]
  exact (markFull_regsOnly _ _ _ _).trans (putLanesData_regsOnly _ _ _ _ _)

/-- Writing a v destination changes no other register file. -/
theorem putLanesData_v_same {β : Type} {part : Wave → β} (h : ∀ u n i x, part (setV u n i x) = part u) (n : BitVec 8) (size : Nat) (sx : Bool)
    (ls : List (Nat × Nat)) (w : Wave) : part (putLanesData (.v n) size sx ls w) = part w := by
  refine foldl_same (fun u l => ?_) ls w
  by_cases narrow : size ≤ 4
  · simp only [putData, if_pos narrow, h]
  · simp only [putData, if_neg narrow]
    exact foldl_same (fun u j => h _ _ _ _) _ u

theorem delAt_eq_eraseIdx {α : Type} (l : List α) (n : Nat) : delAt l n = l.eraseIdx n := by
  induction l generalizing n with
  | nil => rfl
  | cons x xs ih =>
    cases n with
    | zero => rfl
    | succ n => simp [delAt, ih]

/-! ### A result in a v register -/

section
variable {r : Return} {n : BitVec 8} (dest : r.dest = .v n) (small : ∀ l ∈ r.lanes, l.1 < 32) (w : Wave)
include dest

theorem vReg_deliverReturn (q i : Nat) : vReg (deliverReturn r w) q i = vReg (putLanesData (.v n) r.size r.sx r.lanes w) q i := by
  rw [deliverReturn_eq, dest]
  rfl

theorem deliverReturn_v_other : (deliverReturn r w).s = w.s ∧ (deliverReturn r w).k = w.k ∧ (deliverReturn r w).sE = w.sE ∧ (deliverReturn r w).kE = w.kE := by
  rw [deliverReturn_eq, dest]
  exact ⟨putLanesData_v_same (part := Wave.s) (fun _ _ _ _ => rfl) _ _ _ _ w, putLanesData_v_same (part := Wave.k) (fun _ _ _ _ => rfl) _ _ _ _ w,
    putLanesData_v_same (part := Wave.sE) (fun _ _ _ _ => rfl) _ _ _ _ w, putLanesData_v_same (part := Wave.kE) (fun _ _ _ _ => rfl) _ _ _ _ w⟩

theorem mem_deliverReturn_vE (x : Nat) :
    x ∈ (deliverReturn r w).vE ↔ x ∈ w.vE ∧ ∀ j < resultRegs (.v n) r.size, ∀ i ∈ lanesOf (lanesMask r.lanes), x ≠ (n.toNat + j) * 32 + i := by
  have same : (putLanesData (.v n) r.size r.sx r.lanes w).vE = w.vE := putLanesData_v_same (part := Wave.vE) (fun _ _ _ _ => rfl) _ _ _ _ w
  rw [deliverReturn_eq, dest, mem_markFull_vE, same]

include small

theorem full_deliverReturn_v {l : Nat × Nat} (hl : l ∈ r.lanes) {j : Nat} (hj : j < resultRegs (.v n) r.size) :
    (n.toNat + j) * 32 + l.1 ∉ (deliverReturn r w).vE := by
  rw [mem_deliverReturn_vE dest w]
  rintro ⟨-, others⟩
  exact others j hj l.1 ((mem_lanesOf_lanesMask _ (small l hl)).mpr ⟨l, hl, rfl⟩) rfl

theorem deliverReturn_v_frame {q i : Nat} (hi : i < 32) (h : (q < n.toNat ∨ n.toNat + resultRegs (.v n) r.size ≤ q) ∨ ∀ l ∈ r.lanes, l.1 ≠ i) :
    vReg (deliverReturn r w) q i = vReg w q i ∧ (q * 32 + i ∈ (deliverReturn r w).vE ↔ q * 32 + i ∈ w.vE) := by
  refine ⟨(vReg_deliverReturn dest w q i).trans (vReg_putLanesData_of_not_mem n _ _ q hi _ small h w), ?_⟩
  rw [mem_deliverReturn_vE dest w, and_iff_left]
  intro j hj i' hi' same
  have lt := lt_of_mem_lanesOf hi'
  rcases h with outside | others
  · omega
  · obtain ⟨l, hl, e⟩ := (mem_lanesOf_lanesMask _ lt).mp hi'
    exact others l hl (by omega)

theorem vReg_deliverReturn_of_mem (nodup : (r.lanes.map Prod.fst).Nodup) {l : Nat × Nat} (hl : l ∈ r.lanes) {j : Nat} (hj : j < resultRegs (.v n) r.size) :
    vReg (deliverReturn r w) (n.toNat + j) l.1 = resultWord r.size r.sx l.2 j := by
  rw [vReg_deliverReturn dest w,
    vReg_putLanesData_of_mem n _ _ (Nat.le_add_right _ _) (Nat.add_lt_add_left hj _) _ small nodup hl, Nat.add_sub_cancel_left]

end

/-! ### A result in an s register -/

theorem deliverReturn_s_narrow {r : Return} {n : BitVec 6} {x : Nat} (dest : r.dest = .s n) (lanes : r.lanes = [(0, x)]) (size : r.size ≤ 8) (w : Wave) :
    deliverReturn r w =
      { w with s := mset 0 w.s n.toNat (BitVec.ofNat 64 (if r.sx then signExt (8 * r.size) 64 x else x)), sE := sdel w.sE n.toNat } := by
  rw [deliverReturn_eq, dest, lanes]
  simp only [putLanesData, List.foldl_cons, List.foldl_nil, putData, if_pos size, resultRegs, markFull]
  rfl

theorem deliverReturn_s_wide {r : Return} {n : BitVec 6} {x : Nat} (dest : r.dest = .s n) (lanes : r.lanes = [(0, x)]) (size : 8 < r.size) (w : Wave) :
    deliverReturn r w =
      { w with
        s := mset 0 (mset 0 w.s n.toNat (BitVec.ofNat 64 x)) (n.toNat + 1) (BitVec.ofNat 64 (x / 2 ^ 64))
        sE := sdel (sdel w.sE n.toNat) (n.toNat + 1) } := by
  rw [deliverReturn_eq, dest, lanes]
  simp only [putLanesData, List.foldl_cons, List.foldl_nil, putData, if_neg (Nat.not_le.mpr size), resultRegs, markFull]
  rfl

theorem deliverReturn_s_law {r : Return} {n : BitVec 6} {x : Nat} (dest : r.dest = .s n) (lanes : r.lanes = [(0, x)]) (w : Wave) :
    let u := deliverReturn r w
    u.v = w.v ∧ u.k = w.k ∧ u.vE = w.vE ∧ u.kE = w.kE ∧ n.toNat ∉ u.sE ∧
      (r.size ≤ 8 → sReg u n.toNat = BitVec.ofNat 64 (if r.sx then signExt (8 * r.size) 64 x else x) ∧
        ∀ q, q ≠ n.toNat → sReg u q = sReg w q ∧ (q ∈ u.sE ↔ q ∈ w.sE)) ∧
      (8 < r.size → sReg u n.toNat = BitVec.ofNat 64 x ∧ sReg u (n.toNat + 1) = BitVec.ofNat 64 (x / 2 ^ 64) ∧ n.toNat + 1 ∉ u.sE ∧
        ∀ q, q ≠ n.toNat → q ≠ n.toNat + 1 → sReg u q = sReg w q ∧ (q ∈ u.sE ↔ q ∈ w.sE)) := by
  intro u
  by_cases size : r.size ≤ 8
  · have hu : u = _ := deliverReturn_s_narrow dest lanes size w
    rw [hu]
    refine ⟨rfl, rfl, rfl, rfl, by simp [mem_sdel], fun _ => ⟨?_, fun q hq => ⟨?_, ?_⟩⟩, fun wide => absurd size (Nat.not_le.mpr wide)⟩
    · simp [sReg, mgetD_mset]
    · simp [sReg, mgetD_mset, hq]
    · simp [mem_sdel, hq]
  · have hu : u = _ := deliverReturn_s_wide dest lanes (Nat.not_le.mp size) w
    rw [hu]
    refine ⟨rfl, rfl, rfl, rfl, by simp [mem_sdel], fun narrow => absurd narrow size, fun _ => ⟨?_, ?_, by simp [mem_sdel], fun q hq hq' => ⟨?_, ?_⟩⟩⟩
    · simp [sReg, mgetD_mset]
    · simp [sReg, mgetD_mset]
    · simp [sReg, mgetD_mset, hq, hq']
    · simp [mem_sdel, hq, hq']

/-! ### The return as a whole -/

/-- An intact return with the data that arrived, its far parts filled in. -/
def filledReturn (r : Return) (bytes : Nat) : Return := { r with lanes := farData r (fun j _ => arrived r bytes j) }

/-- The value of a lane when the data has arrived. -/
def returnValue (r : Return) (bytes : Nat) (l : Nat × Nat) : Nat := farValue r (fun j _ => arrived r bytes j) l

theorem filledReturn_lanes (r : Return) (bytes : Nat) : (filledReturn r bytes).lanes = r.lanes.map (fun l => (l.1, returnValue r bytes l)) :=
  farData_eq r (fun j _ => arrived r bytes j)

theorem execLoadDataReturn_of_intact {wave index : Nat} {w : Wave} {r : Return} {s : State} (hw : mget s.waves wave = some w)
    (hr : w.returns[index]? = some r) (intact : r.bad = none) (bytes : Nat) :
    exec (.loadDataReturn wave index (.data bytes)) s =
      .next { s with waves := mput s.waves wave (deliverReturn (filledReturn r bytes) { w with returns := w.returns.eraseIdx index }) } := by
  change execLoadDataReturn wave index (.data bytes) s = _
  simp only [execLoadDataReturn, hw, hr, intact, finishReturn, modWave_of_some hw, delAt_eq_eraseIdx]
  rfl

/-- Settles O24: the bytes of `returnValue`, and the registers of `deliverReturn`. -/
theorem returnedResults : Obligations.ReturnedResults := by
  intro wave index w r bytes s hw hr intact nodup small covers
  let u : Wave := { w with returns := w.returns.eraseIdx index }
  have lanes := filledReturn_lanes r bytes
  have smallFilled : ∀ l ∈ (filledReturn r bytes).lanes, l.1 < 32 := by
    rw [lanes, List.forall_mem_map]
    exact small
  have nodupFilled : ((filledReturn r bytes).lanes.map Prod.fst).Nodup := by
    rw [lanes, List.map_map]
    exact nodup
  have mem {l : Nat × Nat} (hl : l ∈ r.lanes) : (l.1, returnValue r bytes l) ∈ (filledReturn r bytes).lanes := by
    rw [lanes]
    exact List.mem_map_of_mem hl
  refine ⟨returnValue r bytes, deliverReturn (filledReturn r bytes) u, fun l k => field_farValue_uncovered r _ l k, fun l k j q hj hc newest => ?_,
    fun near l => ?_, execLoadDataReturn_of_intact hw hr intact bytes, (deliverReturn_regsOnly _ u).eq, fun n dest => ?_, fun n x dest one => ?_⟩
  · have ⟨_, low, high⟩ := hc
    exact (field_farValue_covered _ hj hc newest).trans (field_arrived hj (by omega))
  · rw [returnValue, farValue, near]
    rfl
  · obtain ⟨hs, hk, hsE, hkE⟩ := deliverReturn_v_other (r := filledReturn r bytes) dest u
    rw [dest]
    refine ⟨hs, hk, hsE, hkE, fun l hl => ⟨fun narrow => ?_, fun j wide hj => ?_, fun j hj => full_deliverReturn_v (r := filledReturn r bytes) dest smallFilled u (mem hl) hj⟩,
      fun q i hi h => deliverReturn_v_frame (r := filledReturn r bytes) dest smallFilled u hi (h.imp_right fun others => ?_)⟩
    · have one : 0 < resultRegs (.v n) r.size := by simp [resultRegs, narrow]
      exact (vReg_deliverReturn_of_mem (r := filledReturn r bytes) dest smallFilled u nodupFilled (mem hl) one).trans (resultWord_narrow narrow _ _ 0)
    · have within : j < resultRegs (.v n) r.size := by simpa [resultRegs, Nat.not_le.mpr wide] using hj
      exact (vReg_deliverReturn_of_mem (r := filledReturn r bytes) dest smallFilled u nodupFilled (mem hl) within).trans (resultWord_wide wide _ _ j)
    · rw [lanes, List.forall_mem_map]
      exact others
  · have single : (filledReturn r bytes).lanes = [(0, returnValue r bytes (0, x))] := by rw [lanes, one]; rfl
    exact deliverReturn_s_law (r := filledReturn r bytes) dest single u

end Sys2Proof.Machine
end

section
/-! SUPPORT. What every instruction word shares: it waits for its guard, passes where it is guarded off, and answers a next state where its wave issues (R36, R41, R42). -/
namespace Sys2Proof.Machine

/-- The outcome is a next state. -/
def Answers (r : Result) : Prop := ∃ t, r = .next t

theorem answers_next (t : State) : Answers (.next t) := ⟨t, rfl⟩

theorem answers_ite {p : Prop} [Decidable p] {a b : Result} (ha : Answers a) (hb : Answers b) : Answers (if p then a else b) := by
  split <;> assumption

theorem answers_raiseTrap (key : Nat) (w : Wave) (t : TrapSpec) {go : Wave → State → Result} (s : State) (h : ∀ u r, Answers (go u r)) :
    Answers (raiseTrap key w t go s) := raiseTrap_next key w t s h

theorem answers_hardFault (w : Wave) (f : FaultSpec) (s : State) : Answers (hardFault w f s) := hardFault_next w f s
theorem answers_illegalWord (w : Wave) (s : State) : Answers (illegalWord w s) := illegalWord_next w s

/-- The wave that issues stands in a block, a grid and a context, and its clause is started. -/
structure InClause (v : View) (s : State) : Prop where
  current : current s = some (v.key, v.w)
  view : viewOf s v.key = some v
  started : v.w.clause.isSome = true

/-- What an instruction word with a guard answers in a state: it waits while its guard register is empty, passes where no lane is selected, and answers a next state where its wave issues. -/
structure GuardedWord (g : Guard) (s : State) (r : Result) : Prop where
  waits : ∀ key w, current s = some (key, w) → guardEmpty w g = true → r = .next s
  passes : ∀ key w, current s = some (key, w) → guardEmpty w g = false → guardMask w g = 0 → r = .next (putWave key (advance w) s)
  answers : ∀ v, InClause v s → Answers r

theorem word_of_guardEmpty {g : Guard} {srcs : List Src} {dests : List (Operand × Nat)} {body : Nat → Wave → Word32 → State → Result} {key : Nat} {w : Wave}
    {s : State} (hcur : current s = some (key, w)) (empty : guardEmpty w g = true) : word g srcs dests body s = .next s := by
  simp only [word, hcur, empty, if_true]

theorem word_of_guarded_off {g : Guard} {srcs : List Src} {dests : List (Operand × Nat)} {body : Nat → Wave → Word32 → State → Result} {key : Nat} {w : Wave}
    {s : State} (hcur : current s = some (key, w)) (full : guardEmpty w g = false) (off : guardMask w g = 0) :
    word g srcs dests body s = .next (putWave key (advance w) s) := by
  simp only [word, hcur, full, Bool.false_eq_true, if_false, off, if_true]

section
variable {g : Guard} {srcs : List Src} {dests : List (Operand × Nat)} {s : State}

/-- A word answers where its body does for the wave that issues. -/
theorem answers_word {body : Nat → Wave → Word32 → State → Result} {v : View} (h : InClause v s) (hb : ∀ m, Answers (body v.key v.w m s)) :
    Answers (word g srcs dests body s) := by
  refine word_next (by rw [h.current]; rfl) (fun key w m hi => ?_)
  obtain ⟨rfl, rfl⟩ := Prod.mk.inj (Option.some.inj (hi.wave.symm.trans h.current))
  exact hb m

theorem guardedWord_of_body {body : Nat → Wave → Word32 → State → Result} (hb : ∀ v, InClause v s → ∀ m, Answers (body v.key v.w m s)) :
    GuardedWord g s (word g srcs dests body s) where
  waits _ _ := word_of_guardEmpty
  passes _ _ := word_of_guarded_off
  answers v h := answers_word h (hb v h)

theorem guardedWord_word {body : Nat → Wave → Word32 → State → Result} (hb : ∀ key w m, Answers (body key w m s)) :
    GuardedWord g s (word g srcs dests body s) := guardedWord_of_body (fun _ _ _ => hb _ _ _)

theorem guardedWord_regWord (f : Word32 → Wave → Wave) : GuardedWord g s (regWord g srcs dests f s) := guardedWord_word (fun _ _ _ => answers_next _)

theorem guardedWord_view {body : View → Word32 → State → Result} (hb : ∀ v, InClause v s → ∀ m, Answers (body v m s)) :
    GuardedWord g s (viewWord g srcs dests body s) := by
  refine guardedWord_of_body (fun v h m => ?_)
  simp only [h.view]
  exact hb v h m

theorem guardedWord_viewWord {body : View → Word32 → State → Result} (hb : ∀ v m, Answers (body v m s)) :
    GuardedWord g s (viewWord g srcs dests body s) := guardedWord_view (fun _ _ _ => hb _ _)

end

end Sys2Proof.Machine
end
section
/-! SUPPORT. The words of the integer, floating and lane units, of control and of the system registers wait, pass and answer. -/
namespace Sys2Proof.Machine
variable (s : State)

theorem xWord_guarded (x : XW) (f : Wave → Nat → Nat) : GuardedWord x.guard s (xWord x f s) := guardedWord_regWord _
theorem maskWord_guarded (x : XW) (f : Wave → Nat → Bool) : GuardedWord x.guard s (maskWord x f s) := guardedWord_regWord _

theorem execMov_guarded (x : XW) : GuardedWord x.guard s (execMov x s) := by
  fun_cases execMov
  · exact guardedWord_regWord _
  · exact xWord_guarded _ _ _

theorem branch_guarded (j : JW) (taken : Word32 → Wave → Bool) : GuardedWord j.guard s (branch j taken s) := guardedWord_word (fun _ _ _ => answers_next _)

theorem jump_guarded (j : JW) : GuardedWord j.guard s (jump j s) :=
  guardedWord_word (fun _ _ _ => answers_ite (answers_illegalWord _ _) (answers_next _))

theorem readWord_guarded (y : YW) (f : View → Word64) : GuardedWord y.guard s (readWord y f s) := guardedWord_viewWord (fun _ _ => answers_next _)

theorem execSysw_guarded (y : YW) : GuardedWord y.guard s (execSysw y s) :=
  guardedWord_word (fun _ _ _ => answers_ite (answers_ite (answers_illegalWord _ _) (answers_next _)) (answers_next _))

theorem execTrap_guarded (y : YW) : GuardedWord y.guard s (execTrap y s) :=
  guardedWord_word (fun _ _ _ => answers_raiseTrap _ _ _ _ (fun _ _ => answers_next _))

theorem execBkpt_guarded (y : YW) : GuardedWord y.guard s (execBkpt y s) :=
  guardedWord_word (fun _ _ _ => answers_raiseTrap _ _ _ _ (fun _ _ => answers_next _))

theorem execTret_guarded (y : YW) : GuardedWord y.guard s (execTret y s) := by
  refine guardedWord_word (fun key w m => ?_)
  split
  · exact answers_next _
  · exact answers_illegalWord _ _

end Sys2Proof.Machine
end

section
/-! SUPPORT. The words of memory, of the Sage, of the matrix unit and of the copy engine wait, pass and answer. -/
namespace Sys2Proof.Machine
variable (s : State)

/-! ### What memory words share -/

theorem answers_issueFault (v : View) (f : FaultSpec) (note : State → State) (back : State) : Answers (issueFault v f note s back) :=
  answers_ite (answers_next _) (answers_hardFault _ _ _)

theorem answers_queueOp (v : View) (op : MemOp) (counted acq pending : Bool) (edit : Wave → Wave) : Answers (queueOp v op counted acq pending s edit) := by
  fun_cases queueOp <;> exact answers_next _

theorem answers_loadIssue (r : LoadReq) (v : View) : Answers (loadIssue r v s) := by
  fun_cases loadIssue
  case case1 => exact answers_issueFault _ _ _ _ _
  case case2 => exact answers_raiseTrap _ _ _ _ (fun _ _ => answers_next _)
  all_goals exact answers_next _

theorem answers_storeIssue (n : Nat) (rel sys : Bool) (accs : List (Nat × Nat)) (data : Nat → Nat) (v : View) : Answers (storeIssue n rel sys accs data v s) := by
  fun_cases storeIssue
  · exact answers_issueFault _ _ _ _ _
  · exact answers_next _
  · exact answers_queueOp _ _ _ _ _ _ _

theorem answers_atomIssue (ret : Bool) (m : MW) (v : View) (mask : Word32) : Answers (atomIssue ret m v mask s) := by
  fun_cases atomIssue
  · exact answers_raiseTrap _ _ _ _ (fun _ _ => answers_next _)
  · exact answers_issueFault _ _ _ _ _
  · exact answers_next _
  · exact answers_queueOp _ _ _ _ _ _ _

theorem answers_bufWord (store z : Bool) (m : MW) (v : View) (mask : Word32) {go : List (Nat × Nat) → List Nat → Result} (hgo : ∀ accs out, Answers (go accs out)) :
    Answers (bufWord store z m v mask s go) := by
  fun_cases bufWord
  · exact answers_issueFault _ _ _ _ _
  · exact hgo _ _

/-- A read that holds its wave answers where the word that reads does. -/
theorem answers_heldRead (v : View) (ptr n : Nat) {go : List Byte → State → Result} (hgo : ∀ bs t, Answers (go bs t)) (back : State) :
    Answers (heldRead v ptr n s go back) := by
  fun_cases heldRead
  case case1 => exact answers_issueFault _ _ _ _ _
  case case5 => exact hgo _ _
  all_goals exact answers_next _

/-! ### Loads, stores, atomics -/

theorem execLd_guarded (m : MW) : GuardedWord m.guard s (execLd m s) := guardedWord_viewWord (fun _ _ => answers_loadIssue _ _ _)
theorem execSt_guarded (m : MW) : GuardedWord m.guard s (execSt m s) := guardedWord_viewWord (fun _ _ => answers_storeIssue _ _ _ _ _ _ _)
theorem execAtom_guarded (m : MW) : GuardedWord m.guard s (execAtom m s) := guardedWord_viewWord (fun _ _ => answers_atomIssue _ _ _ _ _)
theorem execAred_guarded (m : MW) : GuardedWord m.guard s (execAred m s) := guardedWord_viewWord (fun _ _ => answers_atomIssue _ _ _ _ _)

theorem bufLoad_guarded (z : Bool) (m : MW) : GuardedWord m.guard s (bufLoad z m s) :=
  guardedWord_viewWord (fun _ _ => answers_bufWord _ _ _ _ _ _ (fun _ _ => answers_loadIssue _ _ _))

theorem bufStore_guarded (z : Bool) (m : MW) : GuardedWord m.guard s (bufStore z m s) :=
  guardedWord_viewWord (fun _ _ => answers_bufWord _ _ _ _ _ _ (fun _ _ => answers_storeIssue _ _ _ _ _ _ _))

theorem execLds_guarded (m : MW) : GuardedWord m.guard s (execLds m s) := by
  refine guardedWord_viewWord (fun v mask => ?_)
  split
  · exact answers_hardFault _ _ _
  · exact answers_queueOp _ _ _ _ _ _ _

theorem execSts_guarded (m : MW) : GuardedWord m.guard s (execSts m s) := by
  refine guardedWord_viewWord (fun v mask => ?_)
  split
  · exact answers_hardFault _ _ _
  · exact answers_queueOp _ _ _ _ _ _ _

/-! ### Waits, tags, lines -/

theorem execFence_guarded (m : MW) : GuardedWord m.guard s (execFence m s) := by
  refine guardedWord_word (fun key w mask => ?_)
  exact answers_ite (answers_next _) (answers_next _)

theorem execWaitc_guarded (m : MW) : GuardedWord m.guard s (execWaitc m s) := by
  refine guardedWord_word (fun key w mask => ?_)
  exact answers_ite (answers_next _) (answers_next _)

theorem execTagset_guarded (m : MW) : GuardedWord m.guard s (execTagset m s) := by
  refine guardedWord_viewWord (fun v mask => ?_)
  dsimp only
  split
  · split
    · exact answers_hardFault _ _ _
    · exact answers_queueOp _ _ _ _ _ _ _
  · split
    · exact answers_illegalWord _ _
    · split
      · exact answers_hardFault _ _ _
      · exact answers_queueOp _ _ _ _ _ _ _

theorem execTagget_guarded (m : MW) : GuardedWord m.guard s (execTagget m s) := by
  refine guardedWord_viewWord (fun v mask => ?_)
  dsimp only
  split
  · exact answers_hardFault _ _ _
  · exact answers_ite (answers_next _) (answers_next _)

theorem cleanWord_guarded (inv : Bool) (m : MW) : GuardedWord m.guard s (cleanWord inv m s) := by
  refine guardedWord_viewWord (fun v mask => ?_)
  dsimp only
  split
  · exact answers_illegalWord _ _
  · split
    · exact answers_issueFault _ _ _ _ _
    · exact answers_ite (answers_next _) (answers_queueOp _ _ _ _ _ _ _)

/-! ### Checks of the Sage that go on or trap -/

theorem answers_unmetCheck (v : View) (mask : Word32) (n : Nat) {go : Wave → State → Result} (hgo : ∀ w t, Answers (go w t)) : Answers (unmetCheck v mask n go s) := by
  fun_cases unmetCheck
  · exact answers_raiseTrap _ _ _ _ hgo
  · exact hgo _ _

theorem answers_staleCheck (v : View) (mask : Word32) (owner : Block) (n : Nat) {go : Wave → State → Result} (hgo : ∀ w t, Answers (go w t)) (w : Wave) :
    Answers (staleCheck v mask owner n go w s) := by
  fun_cases staleCheck
  · exact hgo _ _
  · exact answers_raiseTrap _ _ _ _ hgo
  · exact hgo _ _

theorem answers_staleOther (v : View) (mask : Word32) (first : Bool) (owner : Block) (n : Nat) {go : Wave → State → Result} (hgo : ∀ w t, Answers (go w t)) (w : Wave) :
    Answers (staleOther v mask first owner n go w s) := by
  fun_cases staleOther
  · exact hgo _ _
  · exact answers_staleCheck _ _ _ _ _ hgo _

theorem answers_staleSource (v : View) (mask : Word32) (src : Option Nat) {go : Wave → State → Result} (hgo : ∀ w t, Answers (go w t)) (w : Wave) :
    Answers (staleSource v mask src go w s) := by
  fun_cases staleSource
  · exact answers_staleCheck _ _ _ _ _ hgo _
  · exact hgo _ _

theorem answers_lateResult (v : View) (d : Operand) (size : Nat) (mask : Word32) (lanes : List (Nat × Nat)) : Answers (lateResult v d size mask lanes s) := answers_next _

theorem execDemand_guarded (q : QW) : GuardedWord q.guard s (execDemand q s) :=
  guardedWord_viewWord (fun _ _ => answers_ite (answers_illegalWord _ _) (answers_next _))

theorem execTolrd_guarded (q : QW) : GuardedWord q.guard s (execTolrd q s) :=
  guardedWord_viewWord (fun _ _ => answers_ite (answers_illegalWord _ _) (answers_lateResult _ _ _ _ _ _))

theorem execToltab_guarded (q : QW) : GuardedWord q.guard s (execToltab q s) := by
  refine guardedWord_viewWord (fun v m => ?_)
  refine answers_ite (answers_illegalWord _ _) (answers_heldRead _ _ _ _ (fun bs u => ?_) _)
  split
  · exact answers_illegalWord _ _
  · exact answers_next _

theorem iterWord_guarded (x : XW) (f : Nat → Nat → Nat) : GuardedWord x.guard s (iterWord x f s) := by
  fun_cases iterWord
  · exact guardedWord_regWord _
  · refine guardedWord_viewWord (fun v m => ?_)
    split
    · exact answers_illegalWord _ _
    · exact answers_unmetCheck _ _ _ _ (fun _ _ => answers_next _)

/-! ### Reservations, tiles, loops and the quantizer -/

theorem execWres_guarded (q : QW) : GuardedWord q.guard s (execWres q s) :=
  guardedWord_viewWord (fun _ _ => answers_ite (answers_illegalWord _ _) (answers_ite (answers_next _) (answers_next _)))

theorem execWrel_guarded (q : QW) : GuardedWord q.guard s (execWrel q s) := guardedWord_viewWord (fun _ _ => answers_ite (answers_next _) (answers_next _))

theorem execWstat_guarded (q : QW) : GuardedWord q.guard s (execWstat q s) := by
  refine guardedWord_viewWord (fun v m => ?_)
  split
  · exact answers_next _
  · exact answers_next _

theorem answers_tileWord (v : View) (ts : List Nat) {go : State → Result} (hgo : ∀ t, Answers (go t)) : Answers (tileWord v ts go s) :=
  answers_ite (answers_next _) (hgo _)

theorem execCzero_guarded (q : QW) : GuardedWord q.guard s (execCzero q s) := guardedWord_viewWord (fun _ _ => answers_tileWord _ _ _ (fun _ => answers_next _))

theorem answers_caddFrom (q : QW) (own : Bool) (v : View) (src : Block) : Answers (caddFrom q own v src s) :=
  answers_ite (answers_illegalWord _ _) (answers_tileWord _ _ _ (fun _ => answers_next _))

theorem execCadd_guarded (q : QW) : GuardedWord q.guard s (execCadd q s) := guardedWord_viewWord (fun _ _ => answers_caddFrom _ _ _ _ _)

theorem execCaddPeer_guarded (q : QW) : GuardedWord q.guard s (execCaddPeer q s) := by
  refine guardedWord_viewWord (fun v m => ?_)
  split
  · exact answers_illegalWord _ _
  · exact answers_caddFrom _ _ _ _ _

theorem scaleTile_guarded (q : QW) (f : View → Word32 → Nat → Nat → Option Nat) : GuardedWord q.guard s (scaleTile q f s) :=
  guardedWord_viewWord (fun _ _ => answers_tileWord _ _ _ (fun _ => answers_next _))

theorem loadTile_guarded (col : Bool) (m : MW) : GuardedWord m.guard s (loadTile col m s) := by
  refine guardedWord_viewWord (fun v mask => ?_)
  split
  · exact answers_illegalWord _ _
  · exact answers_tileWord _ _ _ (fun _ => answers_lateResult _ _ _ _ _ _)

theorem storeTile_guarded (col : Bool) (m : MW) : GuardedWord m.guard s (storeTile col m s) := by
  refine guardedWord_viewWord (fun v mask => ?_)
  split
  · exact answers_illegalWord _ _
  · exact answers_tileWord _ _ _ (fun _ => answers_next _)

theorem answers_mloopIssue (q : QW) (pk : Nat) (pb : Block) (v : View) (mask : Word32) : Answers (mloopIssue q pk pb v mask s) := by
  fun_cases mloopIssue
  case case2 => exact answers_illegalWord _ _
  case case4 => exact answers_staleCheck _ _ _ _ _ (fun _ _ => answers_staleOther _ _ _ _ _ _ (fun _ _ => answers_unmetCheck _ _ _ _ (fun _ _ => answers_next _)) _) _
  all_goals exact answers_next _

theorem execMloop_guarded (q : QW) : GuardedWord q.guard s (execMloop q s) := guardedWord_viewWord (fun _ _ => answers_mloopIssue _ _ _ _ _ _)

theorem execMloopPeer_guarded (q : QW) : GuardedWord q.guard s (execMloopPeer q s) := by
  refine guardedWord_viewWord (fun v m => ?_)
  split
  · exact answers_illegalWord _ _
  · exact answers_mloopIssue _ _ _ _ _ _

theorem answers_quantIssue (q : QW) (op : EngOp) (src : Option Nat) (range : Nat → Option FaultSpec) (lines : Nat → List Nat) (v : View) (mask : Word32) :
    Answers (quantIssue q op src range lines v mask s) := by
  fun_cases quantIssue
  case case1 | case2 => exact answers_next _
  case case3 | case5 | case6 => exact answers_illegalWord _ _
  case case4 => exact answers_hardFault _ _ _
  case case7 => exact answers_staleSource _ _ _ _ (fun _ _ => answers_unmetCheck _ _ _ _ (fun _ _ => answers_next _)) _

theorem execQcvt_guarded (q : QW) : GuardedWord q.guard s (execQcvt q s) :=
  guardedWord_viewWord (fun _ _ => answers_ite (answers_illegalWord _ _) (answers_quantIssue _ _ _ _ _ _ _ _))

theorem execQcvtW_guarded (q : QW) : GuardedWord q.guard s (execQcvtW q s) := guardedWord_viewWord (fun _ _ => answers_quantIssue _ _ _ _ _ _ _ _)

/-! ### Copy words -/

theorem answers_copyIssue (v : View) (op : EngOp) (srcLines dstLines : List Nat) : Answers (copyIssue v op srcLines dstLines s) :=
  answers_ite (answers_next _) (answers_next _)

theorem execCpy_guarded (m : MW) : GuardedWord m.guard s (execCpy m s) := by
  refine guardedWord_viewWord (fun v mask => ?_)
  refine answers_ite (answers_hardFault _ _ _) (answers_ite (answers_copyIssue _ _ _ _ _) ?_)
  split
  · exact answers_hardFault _ _ _
  · exact answers_hardFault _ _ _
  · exact answers_ite (answers_hardFault _ _ _) (answers_copyIssue _ _ _ _ _)

theorem execCpyLane_guarded (m : MW) : GuardedWord m.guard s (execCpyLane m s) := by
  refine guardedWord_viewWord (fun v mask => ?_)
  dsimp only
  split
  · exact answers_hardFault _ _ _
  · exact answers_copyIssue _ _ _ _ _

theorem cpytWord_guarded (m : MW) (srcs : List Src) {go : View → TableArgs → Nat → State → Result} (hgo : ∀ v p n, Answers (go v p n s)) :
    GuardedWord m.guard s (cpytWord m srcs go s) := by
  refine guardedWord_viewWord (fun v mask => ?_)
  refine answers_ite ?_ (answers_hardFault _ _ _)
  split
  · exact answers_hardFault _ _ _
  · exact hgo _ _ _

theorem execCpyt_guarded (m : MW) : GuardedWord m.guard s (execCpyt m s) := by
  refine cpytWord_guarded _ _ _ (fun v p table => ?_)
  dsimp only
  split
  · exact answers_hardFault _ _ _
  · exact answers_copyIssue _ _ _ _ _

theorem execCpytW_guarded (m : MW) : GuardedWord m.guard s (execCpytW m s) := by
  refine cpytWord_guarded _ _ _ (fun v p table => ?_)
  dsimp only
  split
  · exact answers_next _
  · exact answers_ite (answers_next _) (answers_ite (answers_hardFault _ _ _) (answers_ite (answers_next _) (answers_copyIssue _ _ _ _ _)))

end Sys2Proof.Machine
end
section
/-! SUPPORT. The words of the key store and of synchronisation wait, pass and answer. -/
namespace Sys2Proof.Machine
variable (s : State)

/-! ### Words of the key store -/

theorem answers_withDesc (v : View) (ptr : Nat) {go : KvDesc → List Word64 → State → Result} (hgo : ∀ d ws t, Answers (go d ws t)) : Answers (withDesc v ptr s go) :=
  answers_ite (answers_illegalWord _ _) (answers_heldRead _ _ _ _ (fun _ _ => answers_ite (hgo _ _ _) (answers_illegalWord _ _)) _)

theorem answers_withHead (v : View) (d : KvDesc) (n : Nat) {go : HeadRec → State → Result} (hgo : ∀ r t, Answers (go r t)) (back : State) :
    Answers (withHead v d n s go back) :=
  answers_ite (answers_illegalWord _ _) (answers_heldRead _ _ _ _ (fun _ _ => answers_ite (hgo _ _) (answers_illegalWord _ _)) _)

/-- The body is taken for the function as a whole, the entry's address for any address: computed, it is a number in unary. -/
theorem answers_appendEntry (v : View) (d : KvDesc) (ws : List Word64) (bytes : List Byte) (back : State) : Answers (appendEntry v d ws bytes s back) := by
  generalize hf : @appendEntry = f
  delta appendEntry at hf
  subst hf
  beta_reduce
  extract_lets -underBinder core r slot p chk
  clear_value p chk
  split
  · exact answers_issueFault _ _ _ _ _
  · exact answers_ite (answers_next _) (answers_queueOp _ _ _ _ _ _ _)

theorem execKappend_guarded (k : KW) : GuardedWord k.guard s (execKappend k s) := by
  refine guardedWord_viewWord (fun v m => answers_withDesc _ _ _ (fun d ws u => ?_))
  refine answers_ite (answers_illegalWord _ _) (answers_withHead _ _ _ _ (fun hr x => answers_ite (answers_next _) ?_) _)
  split
  · exact answers_hardFault _ _ _
  · exact answers_ite (answers_next _) (answers_appendEntry _ _ _ _ _ _)

theorem execKstep_guarded (k : KW) : GuardedWord k.guard s (execKstep k s) := by
  refine guardedWord_viewWord (fun v m => answers_ite (answers_next _) (answers_withDesc _ _ _ (fun d ws u => ?_)))
  split
  · exact answers_hardFault _ _ _
  · exact answers_next _

theorem execKsig_guarded (k : KW) : GuardedWord k.guard s (execKsig k s) := by
  refine guardedWord_viewWord (fun v m => answers_withDesc _ _ _ (fun d ws u => ?_))
  exact answers_ite (answers_illegalWord _ _) (answers_withHead _ _ _ _ (fun _ _ => answers_ite (answers_next _) (answers_lateResult _ _ _ _ _ _)) _)

theorem execKslot_guarded (k : KW) : GuardedWord k.guard s (execKslot k s) :=
  guardedWord_viewWord (fun _ _ => answers_withDesc _ _ _ (fun _ _ _ => answers_ite (answers_illegalWord _ _) (answers_next _)))

theorem execKstat_guarded (k : KW) : GuardedWord k.guard s (execKstat k s) := by
  refine guardedWord_viewWord (fun v m => answers_withDesc _ _ _ (fun d ws u => answers_ite (answers_illegalWord _ _) ?_))
  split
  · exact answers_hardFault _ _ _
  · refine answers_ite (answers_next _) ?_
    split
    · exact answers_next _
    · exact answers_next _

theorem answers_registers (v : View) (d : KvDesc) {go : State → Result} (hgo : ∀ t, Answers (go t)) (back : State) : Answers (registers v d s go back) := by
  fun_cases registers
  · exact answers_hardFault _ _ _
  · exact answers_next _
  · exact hgo _
  · exact answers_next _

theorem answers_takesLines (v : View) (lines : List Nat) {go : State → Result} (hgo : ∀ t, Answers (go t)) (back : State) : Answers (takesLines v lines s go back) :=
  answers_ite (answers_next _) (hgo _)

theorem answers_gathered (k : KW) (v : View) (d : KvDesc) (q dptr : Nat) (m : Word32) (g : Gathered) (back : State) : Answers (gathered k v d q dptr m g s back) := by
  unfold gathered
  refine answers_ite (answers_raiseTrap _ _ _ _ (fun w t => ?_)) ?_
  · exact answers_takesLines _ _ _ (fun _ => answers_next _) _
  · exact answers_takesLines _ _ _ (fun _ => answers_next _) _

theorem execKgather_guarded (k : KW) : GuardedWord k.guard s (execKgather k s) := by
  refine guardedWord_viewWord (fun v m => answers_withDesc _ _ _ (fun d ws x => answers_withHead _ _ _ _ (fun hr y => ?_) _))
  refine answers_ite (answers_illegalWord _ _) (answers_ite (answers_hardFault _ _ _) (answers_registers _ _ _ (fun z => ?_) _))
  split
  · exact answers_next _
  · exact answers_hardFault _ _ _
  · exact answers_gathered _ _ _ _ _ _ _ _ _

theorem answers_fetchGo (k : KW) (v : View) (d : KvDesc) (ws : List Word64) (values : Bool) (dest : FetchDest) (ents lines : List Nat) (mark : State → State)
    (back : State) : Answers (fetchGo k v d ws values dest ents lines mark s back) :=
  answers_registers _ _ _ (fun _ => answers_takesLines _ _ _ (fun _ => answers_next _) _) _

theorem answers_fetchRes (v : View) (p : FetchArgs) (d : KvDesc) (columns : Bool) {go : Res → Result} (hgo : ∀ r, Answers (go r)) (back : State) :
    Answers (fetchRes v p d columns s go back) := by
  fun_cases fetchRes
  · exact answers_next _
  · exact answers_next _
  · exact answers_illegalWord _ _
  · exact hgo _

theorem answers_withList (v : View) (l : Nat) (p : FetchArgs) {go : List Nat → State → Result} (hgo : ∀ es t, Answers (go es t)) (back : State) :
    Answers (withList v l p s go back) := by
  unfold withList
  exact answers_heldRead _ _ _ _ (fun _ _ => answers_ite (answers_illegalWord _ _) (answers_heldRead _ _ _ _ (fun _ _ => hgo _ _) _)) _

theorem fetchWord_guarded (sub : Nat) (k : KW) : GuardedWord k.guard s (fetchWord sub k s) := by
  refine guardedWord_viewWord (fun v m => answers_withDesc _ _ _ (fun d ws x => answers_withHead _ _ _ _ (fun hr y => ?_) _))
  refine answers_ite (answers_illegalWord _ _) (answers_withList _ _ _ _ (fun ents z => ?_) _)
  refine answers_ite (answers_ite (answers_hardFault _ _ _) (answers_fetchGo _ _ _ _ _ _ _ _ _ _ _)) (answers_fetchRes _ _ _ _ _ (fun r => ?_) _)
  exact answers_fetchGo _ _ _ _ _ _ _ _ _ _ _

/-! ### Barriers and phases -/

theorem answers_waitAt (v : View) (cl : Bool) (n : Nat) (d : Operand) : Answers (waitAt v cl n d s) := answers_ite (answers_next _) (answers_next _)

theorem answers_barWord (cl : Bool) (d : Operand) (n : Nat) (v : View) : Answers (barWord cl d n v s) := by
  fun_cases barWord
  · exact answers_waitAt _ _ _ _ _
  · exact answers_waitAt _ _ _ _ _
  · exact answers_next _

theorem execBar_guarded (y : YW) : GuardedWord y.guard s (execBar y s) := guardedWord_viewWord (fun _ _ => answers_barWord _ _ _ _ _)
theorem execBarC_guarded (y : YW) : GuardedWord y.guard s (execBarC y s) := guardedWord_viewWord (fun _ _ => answers_barWord _ _ _ _ _)
theorem execBwait_guarded (y : YW) : GuardedWord y.guard s (execBwait y s) := guardedWord_viewWord (fun _ _ => answers_waitAt _ _ _ _ _)
theorem execBwaitC_guarded (y : YW) : GuardedWord y.guard s (execBwaitC y s) := guardedWord_viewWord (fun _ _ => answers_waitAt _ _ _ _ _)

theorem arriveWord_guarded (cl : Bool) (y : YW) : GuardedWord y.guard s (arriveWord cl y s) :=
  guardedWord_viewWord (fun _ _ => answers_ite (answers_next _) (answers_next _))

theorem drainWord_guarded (cl : Bool) (y : YW) : GuardedWord y.guard s (drainWord cl y s) :=
  guardedWord_viewWord (fun _ _ => answers_ite (answers_next _) (answers_barWord _ _ _ _ _))

theorem execPhase_guarded (y : YW) : GuardedWord y.guard s (execPhase y s) := by
  refine guardedWord_viewWord (fun v m => answers_ite (answers_next _) (answers_ite (answers_illegalWord _ _) ?_))
  dsimp only
  split
  · exact answers_hardFault _ _ _
  · exact answers_next _

/-! ### Queues, polls, launches -/

/-- A word that Quern answers at once answers where what follows does, in the state that Quern admits it to. -/
theorem answers_quernWord (v : View) (a size align : Nat) {go : State → Result} (hgo : ∀ t, quernOne v a false s = some t → Answers (go t)) :
    Answers (quernWord v a size align s go) := by
  fun_cases quernWord
  case case1 => exact answers_hardFault _ _ _
  case case2 => exact answers_next _
  case case3 t e => exact hgo t e
  case case4 => exact answers_next _

theorem quernQueue_guarded (y : YW) (size align : Nat) (op : Nat → Word64 → MemOp) : GuardedWord y.guard s (quernQueue y size align op s) := by
  refine guardedWord_viewWord (fun v m => ?_)
  dsimp only
  split
  · exact answers_hardFault _ _ _
  · exact answers_queueOp _ _ _ _ _ _ _

theorem execQpop_guarded (y : YW) : GuardedWord y.guard s (execQpop y s) := by
  refine guardedWord_viewWord (fun v m => answers_quernWord _ _ _ _ _ (fun u _ => ?_))
  split
  · exact answers_lateResult _ _ _ _ _ _
  · exact answers_next _

theorem execQtry_guarded (y : YW) : GuardedWord y.guard s (execQtry y s) := by
  refine guardedWord_viewWord (fun v m => answers_quernWord _ _ _ _ _ (fun u _ => ?_))
  split
  · exact answers_next _
  · exact answers_next _

/-- A log record leaves every context in place. -/
theorem isSome_ctxs_logAppend (asid k w0 w1 w2 w3 : Nat) (s : State) : (mget (logAppend asid w0 w1 w2 w3 s).ctxs k).isSome = (mget s.ctxs k).isSome := by
  fun_cases logAppend
  case case4 =>
    rw [mget_modCtx, physPut_frame]
    split <;> simp_all
  all_goals rfl

theorem isSome_ctxs_consume (asid i k : Nat) (s : State) : (mget (consume asid i s).ctxs k).isSome = (mget s.ctxs k).isSome := by
  rw [consume, mget_modCtx]
  split <;> simp_all

/-- A Quern operation that is admitted leaves every context in place. -/
theorem isSome_ctxs_quernOp {asid gid num wave ordinal addr : Nat} {global own : Bool} {s t : State}
    (h : quernOp asid gid num wave ordinal addr global s own = some t) (k : Nat) : (mget t.ctxs k).isSome = (mget s.ctxs k).isSome := by
  revert h
  fun_cases quernOp
  case case2 => rintro ⟨⟩; exact isSome_ctxs_logAppend _ _ _ _ _ _ _
  case case6 => rintro ⟨⟩; exact isSome_ctxs_consume _ _ _ _
  case case7 => nofun
  all_goals
    rintro ⟨⟩
    rfl

theorem isSome_ctxs_quernOne {v : View} {addr : Nat} {global : Bool} {s t : State} (h : quernOne v addr global s = some t) (k : Nat) :
    (mget t.ctxs k).isSome = (mget s.ctxs k).isSome := by
  obtain ⟨u, hu, rfl⟩ := Option.map_eq_some_iff.mp h
  rw [modWave_ctxs]
  exact isSome_ctxs_quernOp hu k

/-- QLEN reads the context that Quern has admitted it to. -/
theorem execQlen_guarded (y : YW) : GuardedWord y.guard s (execQlen y s) := by
  refine guardedWord_view (fun v h m => answers_quernWord _ _ _ _ _ (fun u hu => ?_))
  obtain ⟨-, -, -, -, ctx⟩ := viewOf_eq_some.mp h.view
  split
  · next gone =>
    have there := isSome_ctxs_quernOne hu v.g.asid
    rw [gone, ctx] at there
    cases there
  · exact answers_next _

theorem execPoll_guarded (y : YW) : GuardedWord y.guard s (execPoll y s) :=
  guardedWord_viewWord (fun _ _ => answers_quernWord _ _ _ _ _ (fun _ _ => answers_next _))

theorem execLaunch_guarded (y : YW) : GuardedWord y.guard s (execLaunch y s) :=
  guardedWord_viewWord (fun _ _ => answers_ite (answers_next _) (answers_ite (answers_illegalWord _ _) (answers_heldRead _ _ _ _ (fun _ _ => answers_next _) _)))

end Sys2Proof.Machine
end

section
/-! SUPPORT. Every instruction word and every event: a word with a guard waits and passes by it (R41, R42), and nothing that a wave issues or that arrives stops the package (R36, R114, R283). -/
namespace Sys2Proof.Machine

/-! ### Every word with a guard -/

section
variable (s : State)

theorem execLea_guarded (x : XW) : GuardedWord x.guard s (execLea x s) := guardedWord_regWord _
theorem execPadd_guarded (x : XW) : GuardedWord x.guard s (execPadd x s) := guardedWord_regWord _
theorem execFclass_guarded (x : XW) : GuardedWord x.guard s (execFclass x s) := guardedWord_regWord _
theorem execFscale_guarded (x : XW) : GuardedWord x.guard s (execFscale x s) := guardedWord_regWord _
theorem execCvt_guarded (x : XW) : GuardedWord x.guard s (execCvt x s) := guardedWord_regWord _
theorem execShfl_guarded (x : XW) : GuardedWord x.guard s (execShfl x s) := guardedWord_regWord _
theorem execShflx_guarded (x : XW) : GuardedWord x.guard s (execShflx x s) := guardedWord_regWord _
theorem execBcast_guarded (x : XW) : GuardedWord x.guard s (execBcast x s) := guardedWord_regWord _
theorem execRed_guarded (x : XW) : GuardedWord x.guard s (execRed x s) := guardedWord_regWord _
theorem execScan_guarded (x : XW) : GuardedWord x.guard s (execScan x s) := guardedWord_regWord _
theorem execKpop_guarded (x : XW) : GuardedWord x.guard s (execKpop x s) := guardedWord_regWord _
theorem execKff1_guarded (x : XW) : GuardedWord x.guard s (execKff1 x s) := guardedWord_regWord _
theorem execKget_guarded (x : XW) : GuardedWord x.guard s (execKget x s) := guardedWord_regWord _
theorem execCscale_guarded (q : QW) : GuardedWord q.guard s (execCscale q s) := scaleTile_guarded _ _ _
theorem execCscaleRow_guarded (q : QW) : GuardedWord q.guard s (execCscaleRow q s) := scaleTile_guarded _ _ _
theorem execCscaleCol_guarded (q : QW) : GuardedWord q.guard s (execCscaleCol q s) := scaleTile_guarded _ _ _
theorem execQpush_guarded (y : YW) : GuardedWord y.guard s (execQpush y s) := quernQueue_guarded _ _ _ _ _
theorem execQlenInit_guarded (y : YW) : GuardedWord y.guard s (execQlenInit y s) := quernQueue_guarded _ _ _ _ _
theorem execDcdec_guarded (y : YW) : GuardedWord y.guard s (execDcdec y s) := quernQueue_guarded _ _ _ _ _
theorem execDcset_guarded (y : YW) : GuardedWord y.guard s (execDcset y s) := quernQueue_guarded _ _ _ _ _
theorem execNop_guarded (j : JW) : GuardedWord j.guard s (execNop j s) := branch_guarded _ _ _
theorem execBra_guarded (j : JW) : GuardedWord j.guard s (execBra j s) := branch_guarded _ _ _
theorem execBz_guarded (j : JW) : GuardedWord j.guard s (execBz j s) := branch_guarded _ _ _
theorem execBnz_guarded (j : JW) : GuardedWord j.guard s (execBnz j s) := branch_guarded _ _ _
theorem execBany_guarded (j : JW) : GuardedWord j.guard s (execBany j s) := branch_guarded _ _ _
theorem execBall_guarded (j : JW) : GuardedWord j.guard s (execBall j s) := branch_guarded _ _ _
theorem execBnone_guarded (j : JW) : GuardedWord j.guard s (execBnone j s) := branch_guarded _ _ _
theorem execPtag_guarded (m : MW) : GuardedWord m.guard s (execPtag m s) := guardedWord_word (fun _ _ _ => answers_next _)
theorem execPref_guarded (m : MW) : GuardedWord m.guard s (execPref m s) := guardedWord_viewWord (fun _ _ => answers_next _)
theorem execLoop_guarded (j : JW) : GuardedWord j.guard s (execLoop j s) := guardedWord_word (fun _ _ _ => answers_next _)
theorem execCall_guarded (j : JW) : GuardedWord j.guard s (execCall j s) := guardedWord_word (fun _ _ _ => answers_next _)
theorem execEndWave_guarded (j : JW) : GuardedWord j.guard s (execEndWave j s) := guardedWord_word (fun _ _ _ => answers_next _)
theorem execYield_guarded (y : YW) : GuardedWord y.guard s (execYield y s) := guardedWord_word (fun _ _ _ => answers_next _)
theorem execTicks_guarded (y : YW) : GuardedWord y.guard s (execTicks y s) := guardedWord_word (fun _ _ _ => answers_next _)
theorem execFaultrd_guarded (y : YW) : GuardedWord y.guard s (execFaultrd y s) := guardedWord_word (fun _ _ _ => answers_next _)
theorem execKill_guarded (y : YW) : GuardedWord y.guard s (execKill y s) := guardedWord_word (fun _ _ _ => answers_next _)
theorem execKillGrid_guarded (y : YW) : GuardedWord y.guard s (execKillGrid y s) := guardedWord_viewWord (fun _ _ => answers_next _)

end

theorem GuardedWord.of_some {g g' : Guard} {s : State} {r : Result} (h : GuardedWord g s r) (e : some g = some g') : GuardedWord g' s r :=
  Option.some.inj e ▸ h

/-- Words of one shape have one argument; every other arm has the lemma of its own operation. -/
theorem exec_guarded {i : Instr} {g : Guard} (s : State) (h : i.guard? = some g) : GuardedWord g s (exec i s) := by
  cases i with
  | add | sub | adds | subs | mul | mulh | mad | abs | min | max | and | or | xor | andn | shl | shr | sar | rol | clz | popc | brev | bfx | bfi | divu
  | remu | sel | hmix | fadd | fsub | fmul | fma | fmin | fmax | fabs | fneg | frnd | fsqrt | pack | unpk => exact (xWord_guarded _ _ _).of_some h
  | cmp | fcmp | kop | kset => exact (maskWord_guarded _ _ _).of_some h
  | lea => exact (execLea_guarded _ _).of_some h
  | padd => exact (execPadd_guarded _ _).of_some h
  | fclass => exact (execFclass_guarded _ _).of_some h
  | fscale => exact (execFscale_guarded _ _).of_some h
  | cvt => exact (execCvt_guarded _ _).of_some h
  | shfl => exact (execShfl_guarded _ _).of_some h
  | shflx => exact (execShflx_guarded _ _).of_some h
  | bcast => exact (execBcast_guarded _ _).of_some h
  | red => exact (execRed_guarded _ _).of_some h
  | scan => exact (execScan_guarded _ _).of_some h
  | kpop => exact (execKpop_guarded _ _).of_some h
  | kff1 => exact (execKff1_guarded _ _).of_some h
  | kget => exact (execKget_guarded _ _).of_some h
  | mov => exact (execMov_guarded _ _).of_some h
  | frcp | frsq | fexp2 | flog2 | ftanh => exact (iterWord_guarded _ _ _).of_some h
  | ld => exact (execLd_guarded _ _).of_some h
  | st => exact (execSt_guarded _ _).of_some h
  | lds => exact (execLds_guarded _ _).of_some h
  | sts => exact (execSts_guarded _ _).of_some h
  | ldb | ldbZ => exact (bufLoad_guarded _ _ _).of_some h
  | stb | stbZ => exact (bufStore_guarded _ _ _).of_some h
  | ldc | ldcCol => exact (loadTile_guarded _ _ _).of_some h
  | stc | stcCol => exact (storeTile_guarded _ _ _).of_some h
  | atom => exact (execAtom_guarded _ _).of_some h
  | ared => exact (execAred_guarded _ _).of_some h
  | cpy => exact (execCpy_guarded _ _).of_some h
  | cpyLane => exact (execCpyLane_guarded _ _).of_some h
  | cpyt => exact (execCpyt_guarded _ _).of_some h
  | cpytW => exact (execCpytW_guarded _ _).of_some h
  | fence => exact (execFence_guarded _ _).of_some h
  | waitc => exact (execWaitc_guarded _ _).of_some h
  | tagset => exact (execTagset_guarded _ _).of_some h
  | tagget => exact (execTagget_guarded _ _).of_some h
  | clean | cleanInv => exact (cleanWord_guarded _ _ _).of_some h
  | wres => exact (execWres_guarded _ _).of_some h
  | wrel => exact (execWrel_guarded _ _).of_some h
  | wstat => exact (execWstat_guarded _ _).of_some h
  | qcvt => exact (execQcvt_guarded _ _).of_some h
  | qcvtW => exact (execQcvtW_guarded _ _).of_some h
  | mloop => exact (execMloop_guarded _ _).of_some h
  | mloopPeer => exact (execMloopPeer_guarded _ _).of_some h
  | czero => exact (execCzero_guarded _ _).of_some h
  | cadd => exact (execCadd_guarded _ _).of_some h
  | caddPeer => exact (execCaddPeer_guarded _ _).of_some h
  | cscale => exact (execCscale_guarded _ _).of_some h
  | cscaleRow => exact (execCscaleRow_guarded _ _).of_some h
  | cscaleCol => exact (execCscaleCol_guarded _ _).of_some h
  | demand => exact (execDemand_guarded _ _).of_some h
  | tolrd => exact (execTolrd_guarded _ _).of_some h
  | toltab => exact (execToltab_guarded _ _).of_some h
  | kappend => exact (execKappend_guarded _ _).of_some h
  | kstep => exact (execKstep_guarded _ _).of_some h
  | ksig => exact (execKsig_guarded _ _).of_some h
  | kgather => exact (execKgather_guarded _ _).of_some h
  | kfetch | kfetchV | kfetchW | kfetchWV => exact (fetchWord_guarded _ _ _).of_some h
  | kslot => exact (execKslot_guarded _ _).of_some h
  | kstat => exact (execKstat_guarded _ _).of_some h
  | bar => exact (execBar_guarded _ _).of_some h
  | barC => exact (execBarC_guarded _ _).of_some h
  | arrive | arriveC => exact (arriveWord_guarded _ _ _).of_some h
  | bwait => exact (execBwait_guarded _ _).of_some h
  | bwaitC => exact (execBwaitC_guarded _ _).of_some h
  | drainB | drainC => exact (drainWord_guarded _ _ _).of_some h
  | phase => exact (execPhase_guarded _ _).of_some h
  | qpush => exact (execQpush_guarded _ _).of_some h
  | qlenInit => exact (execQlenInit_guarded _ _).of_some h
  | dcdec => exact (execDcdec_guarded _ _).of_some h
  | dcset => exact (execDcset_guarded _ _).of_some h
  | qpop => exact (execQpop_guarded _ _).of_some h
  | qtry => exact (execQtry_guarded _ _).of_some h
  | qlen => exact (execQlen_guarded _ _).of_some h
  | poll => exact (execPoll_guarded _ _).of_some h
  | launch => exact (execLaunch_guarded _ _).of_some h
  | ret | jmpi => exact (jump_guarded _ _).of_some h
  | sysr => exact (readWord_guarded _ _ _).of_some h
  | sysw => exact (execSysw_guarded _ _).of_some h
  | trap => exact (execTrap_guarded _ _).of_some h
  | tret => exact (execTret_guarded _ _).of_some h
  | bkpt => exact (execBkpt_guarded _ _).of_some h
  | nop => exact (execNop_guarded _ _).of_some h
  | bra => exact (execBra_guarded _ _).of_some h
  | bz => exact (execBz_guarded _ _).of_some h
  | bnz => exact (execBnz_guarded _ _).of_some h
  | bany => exact (execBany_guarded _ _).of_some h
  | ball => exact (execBall_guarded _ _).of_some h
  | bnone => exact (execBnone_guarded _ _).of_some h
  | ptag => exact (execPtag_guarded _ _).of_some h
  | pref => exact (execPref_guarded _ _).of_some h
  | loop => exact (execLoop_guarded _ _).of_some h
  | call => exact (execCall_guarded _ _).of_some h
  | endWave => exact (execEndWave_guarded _ _).of_some h
  | yield => exact (execYield_guarded _ _).of_some h
  | ticks => exact (execTicks_guarded _ _).of_some h
  | faultrd => exact (execFaultrd_guarded _ _).of_some h
  | kill => exact (execKill_guarded _ _).of_some h
  | killGrid => exact (execKillGrid_guarded _ _).of_some h
  | _ => cases h

end Sys2Proof.Machine
end

section
/-! SUPPORT. Every event and every input answers a next state: an illegal one, or one that is not due, changes nothing. -/
namespace Sys2Proof.Machine
variable (s : State)

theorem answers_startCmd (op asid : Nat) (f : State → State) : Answers (startCmd op asid f s) := answers_ite (answers_next _) (answers_next _)

theorem execClauseStart_answers (core : Acting) : Answers (execClauseStart core s) := by
  fun_cases execClauseStart <;> exact answers_next _
theorem execEligibilityAgeExpiry_answers (wave : Nat) : Answers (execEligibilityAgeExpiry wave s) := by
  fun_cases execEligibilityAgeExpiry <;> exact answers_next _
theorem execLoadDataReturn_answers (wave index : Nat) (arrival : Arrival) : Answers (execLoadDataReturn wave index arrival s) := by
  fun_cases execLoadDataReturn <;> exact answers_next _
theorem execStoreAcknowledge_answers (wave : Nat) (delivered : Bool) : Answers (execStoreAcknowledge wave delivered s) := by
  fun_cases execStoreAcknowledge <;> exact answers_next _
theorem execOperationRetire_answers (wave : Acting) (cls : Engine) : Answers (execOperationRetire wave cls s) := by
  fun_cases execOperationRetire <;> exact answers_next _
theorem execReleasedQuernOperation_answers (wave : Nat) : Answers (execReleasedQuernOperation wave s) := by
  fun_cases execReleasedQuernOperation <;> exact answers_next _
theorem execSideLogReplay_answers (wave : Acting) : Answers (execSideLogReplay wave s) := by
  fun_cases execSideLogReplay <;> exact answers_next _
theorem execBlockComplete_answers (block : Nat) : Answers (execBlockComplete block s) := by
  fun_cases execBlockComplete <;> exact answers_next _
theorem execBlockPlace_answers (request core : Nat) : Answers (execBlockPlace request core s) := by
  fun_cases execBlockPlace <;> exact answers_next _
theorem execPlacementAgeExpiry_answers (request : Nat) : Answers (execPlacementAgeExpiry request s) := by
  fun_cases execPlacementAgeExpiry <;> exact answers_next _
theorem execDisplace_answers (baseDie : Nat) : Answers (execDisplace baseDie s) := by
  fun_cases execDisplace <;> exact answers_next _
theorem execPageListEntryRead_answers (grid index : Nat) : Answers (execPageListEntryRead grid index s) := by
  fun_cases execPageListEntryRead <;> exact answers_next _
theorem execLandingSlotGrant_answers (request core : Nat) : Answers (execLandingSlotGrant request core s) := by
  fun_cases execLandingSlotGrant <;> exact answers_next _
theorem execFlashSenseComplete_answers (lun : Nat) (accepted : BitVec 4) : Answers (execFlashSenseComplete lun accepted s) := by
  fun_cases execFlashSenseComplete <;> exact answers_next _
theorem execLunTimeout_answers (lun : Nat) : Answers (execLunTimeout lun s) := by
  fun_cases execLunTimeout <;> exact answers_next _
theorem execPhaseSave_answers (block : Nat) : Answers (execPhaseSave block s) := by
  fun_cases execPhaseSave <;> exact answers_next _
theorem execPhaseTimeReached_answers (block : Nat) : Answers (execPhaseTimeReached block s) := by
  fun_cases execPhaseTimeReached <;> exact answers_next _
theorem execPhaseResume_answers (request core : Nat) : Answers (execPhaseResume request core s) := by
  fun_cases execPhaseResume <;> exact answers_next _
theorem execPollAttempt_answers (wave : Nat) : Answers (execPollAttempt wave s) := by
  fun_cases execPollAttempt <;> exact answers_next _
theorem execInvoluntarySave_answers (block : Nat) : Answers (execInvoluntarySave block s) := by
  fun_cases execInvoluntarySave <;> exact answers_next _
theorem execYieldExpiry_answers (wave : Nat) : Answers (execYieldExpiry wave s) := by
  fun_cases execYieldExpiry <;> exact answers_next _
theorem execQuantumEnd_answers (partition : Nat) : Answers (execQuantumEnd partition s) := by
  fun_cases execQuantumEnd <;> exact answers_next _
theorem execContextSave_answers (asid : Nat) : Answers (execContextSave asid s) := by
  fun_cases execContextSave <;> exact answers_next _
theorem execCoreScrub_answers (core : Nat) : Answers (execCoreScrub core s) := by
  fun_cases execCoreScrub <;> exact answers_next _
theorem execContextRestore_answers (asid core : Nat) : Answers (execContextRestore asid core s) := by
  fun_cases execContextRestore <;> exact answers_next _
theorem execAppendArrival_answers (asid step core : Nat) : Answers (execAppendArrival asid step core s) := by
  fun_cases execAppendArrival <;> exact answers_next _
theorem execStepFiling_answers (asid : Nat) (step : Acting) : Answers (execStepFiling asid step s) := by
  fun_cases execStepFiling <;> exact answers_next _
theorem execTailraceWriteback_answers (baseDie : Nat) : Answers (execTailraceWriteback baseDie s) := by
  fun_cases execTailraceWriteback <;> exact answers_next _
theorem execFlashProgramComplete_answers (baseDie : Nat) (succeeded : Bool) : Answers (execFlashProgramComplete baseDie succeeded s) := by
  fun_cases execFlashProgramComplete <;> exact answers_next _
theorem execLoad_answers (asid : Nat) : Answers (execLoad asid s) := answers_startCmd _ _ _ _
theorem execInval_answers (asid : Nat) : Answers (execInval asid s) := answers_startCmd _ _ _ _
theorem execInvalComplete_answers : Answers (execInvalComplete s) := by
  fun_cases execInvalComplete <;> exact answers_next _
theorem execTeardown_answers (asid : Nat) : Answers (execTeardown asid s) := answers_startCmd _ _ _ _
theorem execTeardownComplete_answers : Answers (execTeardownComplete s) := by
  fun_cases execTeardownComplete <;> exact answers_next _
theorem execGrant_answers (asid : Nat) : Answers (execGrant asid s) := answers_startCmd _ _ _ _
theorem execErase_answers (asid : Nat) : Answers (execErase asid s) := answers_startCmd _ _ _ _
theorem execEraseComplete_answers (succeeded : Bool) : Answers (execEraseComplete succeeded s) := by
  fun_cases execEraseComplete <;> exact answers_next _
theorem execRing_answers (asid : Nat) : Answers (execRing asid s) := answers_startCmd _ _ _ _
theorem execReclog_answers (asid : Nat) : Answers (execReclog asid s) := answers_startCmd _ _ _ _
theorem execPfUnassigned_answers (op asid : Nat) : Answers (execPfUnassigned op asid s) := answers_ite (answers_startCmd _ _ _ _) (answers_next _)
theorem execLaunchTailWrite_answers (vf tail : Nat) : Answers (execLaunchTailWrite vf tail s) := answers_next _
theorem execLaunchEntry_answers (vf entry : Nat) (uncorrectable : Bool) : Answers (execLaunchEntry vf entry uncorrectable s) := by
  fun_cases execLaunchEntry <;> exact answers_next _
theorem execCompletionHeadWrite_answers (vf head : Nat) : Answers (execCompletionHeadWrite vf head s) := answers_next _
theorem execPartitionTableWrite_answers (p lo hi : Nat) : Answers (execPartitionTableWrite p lo hi s) := by
  fun_cases execPartitionTableWrite <;> exact answers_next _
theorem execQuantumTableWrite_answers (p i entry : Nat) : Answers (execQuantumTableWrite p i entry s) := by
  fun_cases execQuantumTableWrite <;> exact answers_next _
theorem execBar2Access_answers (vf address len : Nat) (write : Option Nat) : Answers (execBar2Access vf address len write s) := by
  refine answers_ite (answers_next _) ?_
  split
  · exact answers_next _
  · exact answers_next _
theorem execDriveInboundRequest_answers (requester address len : Nat) (write : Option Nat) : Answers (execDriveInboundRequest requester address len write s) := by
  fun_cases execDriveInboundRequest
  case case1 | case2 => exact answers_next _
  all_goals
    split
    · exact answers_next _
    · exact answers_next _
theorem execMailboxWrite_answers (requester address len data : Nat) : Answers (execMailboxWrite requester address len data s) := by
  fun_cases execMailboxWrite <;> exact answers_next _
theorem execLinkInboundAccess_answers (port source offset len : Nat) (write : Option Nat) : Answers (execLinkInboundAccess port source offset len write s) := by
  fun_cases execLinkInboundAccess <;> exact answers_next _
theorem execMmioTimeout_answers (wave index : Nat) : Answers (execMmioTimeout wave index s) := by
  fun_cases execMmioTimeout <;> exact answers_next _
theorem execBrakeN_answers : Answers (execBrakeN s) := answers_next _
theorem execFreezeCommand_answers : Answers (execFreezeCommand s) := answers_next _
theorem execBrk_answers : Answers (execBrk s) := answers_next _
theorem execBrakeFlit_answers (port : Nat) : Answers (execBrakeFlit port s) := by
  fun_cases execBrakeFlit <;> exact answers_next _
theorem execScanRead_answers (unit : MgmtRead) (index offset len : Nat) : Answers (execScanRead unit index offset len s) := by
  fun_cases execScanRead <;> exact answers_next _
theorem execPackageReset_answers : Answers (execPackageReset s) := answers_next _
theorem execFire_answers : Answers (execFire s) := answers_next _
theorem execWatchdogTimeout_answers : Answers (execWatchdogTimeout s) := by
  fun_cases execWatchdogTimeout <;> exact answers_next _
theorem execFirmwareImage_answers (image : Nat) : Answers (execFirmwareImage image s) := by
  fun_cases execFirmwareImage <;> exact answers_next _
theorem execReplayTimeout_answers (asid address : Nat) (global : Bool) : Answers (execReplayTimeout asid address global s) := by
  fun_cases execReplayTimeout <;> exact answers_next _
theorem execRingSend_answers (asid ctl : Nat) : Answers (execRingSend asid ctl s) := by
  fun_cases execRingSend <;> exact answers_next _
theorem execRevolutionReceived_answers (asid ctl : Nat) (revolution : Incoming) (data : List Byte) : Answers (execRevolutionReceived asid ctl revolution data s) := by
  fun_cases execRevolutionReceived <;> exact answers_next _
theorem execRingStallTimeout_answers (asid ctl : Nat) : Answers (execRingStallTimeout asid ctl s) := by
  fun_cases execRingStallTimeout <;> exact answers_next _
theorem execLinkFailure_answers (port : Nat) : Answers (execLinkFailure port s) := by
  fun_cases execLinkFailure <;> exact answers_next _
theorem execRingFailureNotice_answers (asid ctl cause position : Nat) : Answers (execRingFailureNotice asid ctl cause position s) := by
  fun_cases execRingFailureNotice <;> exact answers_next _
theorem execIdleEntry_answers : Answers (execIdleEntry s) := by
  fun_cases execIdleEntry <;> exact answers_next _
theorem execIdleWakeTimer_answers : Answers (execIdleWakeTimer s) := by
  fun_cases execIdleWakeTimer <;> exact answers_next _
theorem execLinkTrained_answers (port package : Nat) : Answers (execLinkTrained port package s) := by
  fun_cases execLinkTrained <;> exact answers_next _
theorem execArevAdvance_answers (asid ctl : Nat) (news : RingNews) : Answers (execArevAdvance asid ctl news s) := by
  fun_cases execArevAdvance <;> exact answers_next _
theorem execDetectionByAnyMember_answers (asid ctl cause position : Nat) : Answers (execDetectionByAnyMember asid ctl cause position s) := by
  fun_cases execDetectionByAnyMember <;> exact answers_next _

theorem answers_startOp (op asid : Nat) : Answers (startOp op asid s) := by
  fun_cases startOp
  case case8 => exact execPfUnassigned_answers _ _ _
  all_goals exact answers_startCmd _ _ _ _

theorem answers_writePart (p half x : Nat) : Answers (writePart p half x s) :=
  answers_ite (execPartitionTableWrite_answers _ _ _ _) (execPartitionTableWrite_answers _ _ _ _)

theorem answers_writeTables (offset x : Nat) : Answers (writeTables offset x s) := by
  fun_cases writeTables
  case case2 => exact answers_writePart _ _ _ _
  case case3 => exact execQuantumTableWrite_answers _ _ _ _
  all_goals exact answers_next _

theorem answers_writePf (offset x : Nat) : Answers (writePf offset x s) := by
  fun_cases writePf
  case case5 => exact answers_startOp _ _ _
  case case9 => exact execFire_answers _
  case case13 => exact answers_writeTables _ _ _
  all_goals exact answers_next _

theorem execRegisterWrite_answers (space : RegSpace) (offset value : Nat) : Answers (execRegisterWrite space offset value s) := by
  fun_cases execRegisterWrite
  case case1 => exact answers_writePf _ _ _
  all_goals exact answers_next _

end Sys2Proof.Machine
end
section
/-! SUPPORT. No instruction, no move and no frozen state stops the package (R36, R114, R283, R317). -/
namespace Sys2Proof.Machine

theorem repeatWord_answers {srcs : List Src} {n : Wave → Nat} {st : Steps} {v : View} {s : State} (h : InClause v s) : Answers (repeatWord srcs n st s) := by
  refine answers_word h (fun m => ?_)
  obtain ⟨c, hc⟩ := Option.isSome_iff_exists.mp h.started
  simp only [hc]
  refine answers_ite (answers_illegalWord _ _) ?_
  fun_cases beginRepeat
  case case1 | case4 => exact answers_next _
  all_goals exact answers_illegalWord _ _

/-- A word of format P is one of the two repeats. -/
theorem repeat_of_shape {i : Instr} {reg : Bool} {n : BitVec 6} {st : Steps} (h : i.shape = .p reg n st) :
    (∃ n st, i = .rpt n st) ∨ ∃ r st, i = .rptRegister r st := by
  cases i with
  | rpt n st => exact .inl ⟨n, st, rfl⟩
  | rptRegister r st => exact .inr ⟨r, st, rfl⟩
  | _ => cases h

/-- An instruction word answers where its wave issues. -/
theorem exec_answers_of_word {i : Instr} (hi : i.isWord = true) {v : View} {s : State} (h : InClause v s) : Answers (exec i s) := by
  cases hs : i.shape with
  | p reg n st =>
    rcases repeat_of_shape hs with ⟨n, st, rfl⟩ | ⟨r, st, rfl⟩
    · exact repeatWord_answers h
    · exact repeatWord_answers h
  | event => simp [Instr.isWord, hs] at hi
  | _ => exact (exec_guarded s (by rw [Instr.guard?, hs])).answers v h

/-- An event or an input answers in every state. -/
theorem exec_answers_of_event {i : Instr} (hi : i.isWord = false) (s : State) : Answers (exec i s) := by
  cases i with
  | clauseStart => exact execClauseStart_answers _ _
  | eligibilityAgeExpiry => exact execEligibilityAgeExpiry_answers _ _
  | loadDataReturn => exact execLoadDataReturn_answers _ _ _ _
  | storeAcknowledge => exact execStoreAcknowledge_answers _ _ _
  | operationRetire => exact execOperationRetire_answers _ _ _
  | releasedQuernOperation => exact execReleasedQuernOperation_answers _ _
  | sideLogReplay => exact execSideLogReplay_answers _ _
  | blockComplete => exact execBlockComplete_answers _ _
  | blockPlace => exact execBlockPlace_answers _ _ _
  | placementAgeExpiry => exact execPlacementAgeExpiry_answers _ _
  | displace => exact execDisplace_answers _ _
  | pageListEntryRead => exact execPageListEntryRead_answers _ _ _
  | landingSlotGrant => exact execLandingSlotGrant_answers _ _ _
  | flashSenseComplete => exact execFlashSenseComplete_answers _ _ _
  | lunTimeout => exact execLunTimeout_answers _ _
  | phaseSave => exact execPhaseSave_answers _ _
  | phaseTimeReached => exact execPhaseTimeReached_answers _ _
  | phaseResume => exact execPhaseResume_answers _ _ _
  | pollAttempt => exact execPollAttempt_answers _ _
  | involuntarySave => exact execInvoluntarySave_answers _ _
  | yieldExpiry => exact execYieldExpiry_answers _ _
  | quantumEnd => exact execQuantumEnd_answers _ _
  | contextSave => exact execContextSave_answers _ _
  | coreScrub => exact execCoreScrub_answers _ _
  | contextRestore => exact execContextRestore_answers _ _ _
  | appendArrival => exact execAppendArrival_answers _ _ _ _
  | stepFiling => exact execStepFiling_answers _ _ _
  | tailraceWriteback => exact execTailraceWriteback_answers _ _
  | flashProgramComplete => exact execFlashProgramComplete_answers _ _ _
  | load => exact execLoad_answers _ _
  | inval => exact execInval_answers _ _
  | invalComplete => exact execInvalComplete_answers _
  | teardown => exact execTeardown_answers _ _
  | teardownComplete => exact execTeardownComplete_answers _
  | grant => exact execGrant_answers _ _
  | erase => exact execErase_answers _ _
  | eraseComplete => exact execEraseComplete_answers _ _
  | ring => exact execRing_answers _ _
  | reclog => exact execReclog_answers _ _
  | pfUnassigned => exact execPfUnassigned_answers _ _ _
  | launchTailWrite => exact execLaunchTailWrite_answers _ _ _
  | launchEntry => exact execLaunchEntry_answers _ _ _ _
  | completionHeadWrite => exact execCompletionHeadWrite_answers _ _ _
  | partitionTableWrite => exact execPartitionTableWrite_answers _ _ _ _
  | quantumTableWrite => exact execQuantumTableWrite_answers _ _ _ _
  | registerWrite => exact execRegisterWrite_answers _ _ _ _
  | bar2Access => exact execBar2Access_answers _ _ _ _ _
  | driveInboundRequest => exact execDriveInboundRequest_answers _ _ _ _ _
  | mailboxWrite => exact execMailboxWrite_answers _ _ _ _ _
  | linkInboundAccess => exact execLinkInboundAccess_answers _ _ _ _ _ _
  | mmioTimeout => exact execMmioTimeout_answers _ _ _
  | brakeN => exact execBrakeN_answers _
  | freezeCommand => exact execFreezeCommand_answers _
  | brk => exact execBrk_answers _
  | brakeFlit => exact execBrakeFlit_answers _ _
  | scanRead => exact execScanRead_answers _ _ _ _ _
  | packageReset => exact execPackageReset_answers _
  | fire => exact execFire_answers _
  | watchdogTimeout => exact execWatchdogTimeout_answers _
  | firmwareImage => exact execFirmwareImage_answers _ _
  | replayTimeout => exact execReplayTimeout_answers _ _ _ _
  | ringSend => exact execRingSend_answers _ _ _
  | revolutionReceived => exact execRevolutionReceived_answers _ _ _ _ _
  | ringStallTimeout => exact execRingStallTimeout_answers _ _ _
  | linkFailure => exact execLinkFailure_answers _ _
  | ringFailureNotice => exact execRingFailureNotice_answers _ _ _ _ _
  | idleEntry => exact execIdleEntry_answers _
  | idleWakeTimer => exact execIdleWakeTimer_answers _
  | linkTrained => exact execLinkTrained_answers _ _ _
  | arevAdvance => exact execArevAdvance_answers _ _ _ _
  | detectionByAnyMember => exact execDetectionByAnyMember_answers _ _ _ _ _
  | _ => cases hi

theorem answers_settle (i : Instr) (key : Nat) (before : State) {r : Result} (h : Answers r) : Answers (settle i key before r) := by
  obtain ⟨t, rfl⟩ := h
  exact settle_next i key before t

/-- A wave that may issue stands in a block, a grid and a context, in a started clause. -/
theorem inClause_of_mayIssue {s : State} {key : Nat} (h : mayIssue s key = true) : ∃ v, InClause v (issuing key s) := by
  cases hv : viewOf s key with
  | none => simp [mayIssue, hv] at h
  | some v =>
    obtain ⟨rfl, hw, -⟩ := viewOf_eq_some.mp hv
    have started : v.w.clause.isSome = true := by
      simp only [mayIssue, hv, Bool.and_eq_true] at h
      simp [h]
    exact ⟨v, current_issuing hw, hv, started⟩

/-- What a wave issues is an instruction word. -/
theorem isWord_of_fetchInstr {w : Wave} {i : Instr} (h : fetchInstr w = .ok i) : i.isWord = true := by
  revert h
  fun_cases fetchInstr
  case case1 | case2 => nofun
  case case3 => exact fun h => (encodeDecode _ _ _ h).1

theorem issueStep_answers (key : Nat) (s : State) : Answers (issueStep key s) := by
  fun_cases issueStep
  case case2 may i fetch =>
    obtain ⟨v, hv⟩ := inClause_of_mayIssue may
    exact answers_settle _ _ _ (exec_answers_of_word (isWord_of_fetchInstr fetch) hv)
  case case3 => exact answers_illegalWord _ _
  all_goals exact answers_next _

theorem moveStep_answers (m : Move) (s : State) : Answers (moveStep m s) := by
  cases m with
  | issue key => exact issueStep_answers _ _
  | event i =>
    cases hi : i.isWord with
    | true => simpa [moveStep, hi] using answers_next s
    | false => simpa [moveStep, hi] using exec_answers_of_event hi s
  | pass | spoil | drive => exact answers_next _

/-- What a frozen package answers is an input, not a word. -/
theorem isWord_of_answersFrozen {i : Instr} (h : answersFrozen i = true) : i.isWord = false := by
  cases i with
  | scanRead | packageReset | firmwareImage => rfl
  | _ => cases h

theorem frozenStep_answers (m : Move) (s : State) : Answers (frozenStep m s) := by
  cases m with
  | event i =>
    cases hi : answersFrozen i with
    | true => simpa [frozenStep, hi] using exec_answers_of_event (isWord_of_answersFrozen hi) s
    | false => simpa [frozenStep, hi] using answers_ite (answers_next _) (answers_next _)
  | issue | pass | spoil | drive => exact answers_next _

/-- Settles O45: a step is a move of a running or of a frozen package, and every move answers. -/
theorem stepNeverStops : Obligations.StepNeverStops := fun _ => answers_ite (frozenStep_answers _ _) (moveStep_answers _ _)

end Sys2Proof.Machine
end

section
/-! SUPPORT. Empty registers (R41, R109): what a word of three sources does where one of its registers is empty. -/
namespace Sys2Proof.Machine

section
variable {g : Guard} {srcs : List Src} {dests : List (Operand × Nat)} {key : Nat} {w : Wave} {m : Word32} {s : State}

theorem word_of_wait (hcur : current s = some (key, w)) (full : guardEmpty w g = false) (mask : guardMask w g = m) (on : m ≠ 0)
    (ready : readiness w m srcs dests = .wait) (body : Nat → Wave → Word32 → State → Result) : word g srcs dests body s = .next s := by
  simp only [word, hcur, full, Bool.false_eq_true, if_false, mask, if_neg on, ready]

theorem word_of_trap (hcur : current s = some (key, w)) (full : guardEmpty w g = false) (mask : guardMask w g = m) (on : m ≠ 0) {o : Operand} {l : Word32}
    (ready : readiness w m srcs dests = .trap o l) (body : Nat → Wave → Word32 → State → Result) :
    word g srcs dests body s = raiseTrap key w { cause := 1, o := o, lanes := l } (waitsOn key) s := by
  simp only [word, hcur, full, Bool.false_eq_true, if_false, mask, if_neg on, ready]

/-- A source is empty and its E bit counts: it is set, and TRET.wait has not cleared it (R41, R113). -/
def Traps (w : Wave) (m : Word32) (q : Src) : Prop := q.e = true ∧ w.noE = false ∧ srcEmpty w m q ≠ 0

theorem firstTrap_cons_of_traps {q : Src} (h : Traps w m q) (rest : List Src) : firstTrap w m (q :: rest) = some (q.o, srcEmpty w m q) :=
  if_pos ⟨h.1, h.2.2⟩

theorem firstTrap_cons_of_not {q : Src} (hE : w.noE = false) (h : ¬ Traps w m q) (rest : List Src) : firstTrap w m (q :: rest) = firstTrap w m rest :=
  if_neg (fun trap => h ⟨trap.1, hE, trap.2⟩)

/-- What a word waits for: some source or destination is empty. -/
def Lacks (w : Wave) (m : Word32) (srcs : List Src) (dests : List (Operand × Nat)) : Prop :=
  (∃ q ∈ srcs, srcEmpty w m q ≠ 0) ∨ ∃ d ∈ dests, emptyIn w d.1 d.2 m ≠ 0

theorem readiness_of_firstTrap {o : Operand} {l : Word32} (hE : w.noE = false) (h : firstTrap w m srcs = some (o, l)) : readiness w m srcs dests = .trap o l := by
  simp only [readiness, hE, Bool.false_eq_true, if_false, h]

theorem firstTrap_eq_none (hE : w.noE = false) (h : ∀ q ∈ srcs, ¬ Traps w m q) : firstTrap w m srcs = none := by
  induction srcs with
  | nil => rfl
  | cons q rest ih =>
    rw [List.forall_mem_cons] at h
    rw [firstTrap_cons_of_not hE h.1, ih h.2]

/-- Without a trap the word waits exactly where it lacks a register. -/
theorem readiness_of_no_trap (h : ∀ q ∈ srcs, ¬ Traps w m q) [Decidable (Lacks w m srcs dests)] :
    readiness w m srcs dests = if Lacks w m srcs dests then .wait else .go := by
  have none : (if w.noE = true then none else firstTrap w m srcs) = none := by
    cases hE : w.noE with
    | true => rfl
    | false => exact firstTrap_eq_none hE h
  have lacks : (srcs.any (fun q => srcEmpty w m q != 0) || dests.any (fun d => emptyIn w d.1 d.2 m != 0)) = true ↔ Lacks w m srcs dests := by
    simp [Lacks]
  simp only [readiness, none, lacks]

end

/-- The sources of a format X word at its type. -/
def xSrcs (x : XW) : List Src := [srcA x (wideTy x.t), srcB x (wideTy x.t), srcC x (wideTy x.t)]

theorem xWord_eq_word (x : XW) (f : Wave → Nat → Nat) (s : State) : xWord x f s =
    word x.guard (xSrcs x) [dstD x (wideTy x.t)] (fun key w m t => .next (putWave key (advance (putLanes x.t x.d m (f w) w)) t)) s := rfl

theorem mem_xSrcs (x : XW) (q : Src) : q ∈ xSrcs x ↔ q = srcA x (wideTy x.t) ∨ q = srcB x (wideTy x.t) ∨ q = srcC x (wideTy x.t) := by simp [xSrcs]

section
variable {x : XW} {key : Nat} {w : Wave} {m : Word32} {s : State} (hcur : current s = some (key, w)) (full : guardEmpty w x.guard = false)
  (mask : guardMask w x.guard = m) (on : m ≠ 0) (f : Wave → Nat → Nat)
include hcur full mask on

theorem xWord_of_trap (hE : w.noE = false) {o : Operand} {l : Word32} (first : firstTrap w m (xSrcs x) = some (o, l)) :
    xWord x f s = raiseTrap key w { cause := 1, o := o, lanes := l } (waitsOn key) s :=
  (xWord_eq_word x f s).trans (word_of_trap hcur full mask on (readiness_of_firstTrap hE first) _)

theorem xWord_of_lack (quiet : ∀ q ∈ xSrcs x, ¬ Traps w m q) (lacks : Lacks w m (xSrcs x) [dstD x (wideTy x.t)]) : xWord x f s = .next s := by
  classical
  exact (xWord_eq_word x f s).trans (word_of_wait hcur full mask on ((readiness_of_no_trap quiet).trans (if_pos lacks)) _)

theorem xWord_of_full (quiet : ∀ q ∈ xSrcs x, ¬ Traps w m q) (ready : ¬ Lacks w m (xSrcs x) [dstD x (wideTy x.t)]) :
    xWord x f s = GoesOn key (putLanes x.t x.d m (f w) w) s := by
  classical
  exact regWord_of_issues ⟨hcur, full, mask, on, (readiness_of_no_trap quiet).trans (if_neg ready)⟩ _

end

/-- Settles O19: `exec_guarded` for the guard, and for the registers the first source that traps, else what the word lacks. -/
theorem wordsWaitOrPass : Obligations.WordsWaitOrPass := by
  refine ⟨fun i g key w s hg hcur => ⟨(exec_guarded s hg).waits key w hcur, (exec_guarded s hg).passes key w hcur⟩, ?_⟩
  intro x f key w m s hcur full mask on wide empty trapped raises
  have raised (o : Operand) (hE : w.noE = false) (first : firstTrap w m (xSrcs x) = some (o, empty o)) : raises o := by
    refine (xWord_of_trap hcur full mask on f hE first).trans ?_
    unfold raiseTrap
    cases softTrap w { cause := 1, o := o, lanes := empty o } with
    | go u => exact congrArg Host.Outcome.next (putWave_putWave key u _ s)
    | _ => rfl
  refine ⟨fun (ha : ¬ Traps w m (srcA x wide)) (hb : ¬ Traps w m (srcB x wide)) (hc : ¬ Traps w m (srcC x wide)) lacks => ?_,
    fun (ha : Traps w m (srcA x wide)) => raised _ ha.2.1 (firstTrap_cons_of_traps ha _),
    fun (ha : ¬ Traps w m (srcA x wide)) (hb : Traps w m (srcB x wide)) => raised _ hb.2.1 ?_,
    fun (ha : ¬ Traps w m (srcA x wide)) (hb : ¬ Traps w m (srcB x wide)) (hc : Traps w m (srcC x wide)) => raised _ hc.2.1 ?_,
    fun ha hb hc hd => ?_⟩
  · have quiet : ∀ q ∈ xSrcs x, ¬ Traps w m q := fun q hq => by
      rcases (mem_xSrcs x q).mp hq with rfl | rfl | rfl <;> assumption
    refine xWord_of_lack hcur full mask on f quiet ?_
    rcases lacks with h | h | h | h
    · exact .inl ⟨srcA x wide, (mem_xSrcs _ _).mpr (.inl rfl), h⟩
    · exact .inl ⟨srcB x wide, (mem_xSrcs _ _).mpr (.inr (.inl rfl)), h⟩
    · exact .inl ⟨srcC x wide, (mem_xSrcs _ _).mpr (.inr (.inr rfl)), h⟩
    · exact .inr ⟨dstD x wide, List.mem_singleton_self _, h⟩
  · exact (firstTrap_cons_of_not hb.2.1 ha _).trans (firstTrap_cons_of_traps hb _)
  · exact (firstTrap_cons_of_not hc.2.1 ha _).trans ((firstTrap_cons_of_not hc.2.1 hb _).trans (firstTrap_cons_of_traps hc _))
  · have here : ∀ q ∈ xSrcs x, srcEmpty w m q = 0 := fun q hq => by
      rcases (mem_xSrcs x q).mp hq with rfl | rfl | rfl <;> assumption
    refine xWord_of_full hcur full mask on f (fun q hq trap => trap.2.2 (here q hq)) ?_
    rintro (⟨q, hq, h⟩ | ⟨d, hmem, h⟩)
    · exact h (here q hq)
    · obtain rfl := List.mem_singleton.mp hmem
      exact h hd

end Sys2Proof.Machine
end

section
/-! SUPPORT. The order of R68: the wave a core chooses is least, among the eligible ones, in the lexicographic order of class, priority, back-off, place and age. -/
namespace Sys2Proof.Machine

/-- Where R68 puts a wave, the first place lowest: an aged wave by its age alone, the others behind it. -/
def rank (v : View) : ℕ ×ₗ ℕ ×ₗ ℕ ×ₗ ℕ ×ₗ ℕᵒᵈ :=
  if agedWave v.w = true then toLex (0, toLex (0, toLex (0, toLex (0, OrderDual.toDual v.w.age))))
  else toLex (1, toLex (v.g.d.prio, toLex (v.w.backoff, toLex (v.w.behind.toNat, OrderDual.toDual v.w.age))))

theorem rank_of_aged {v : View} (h : agedWave v.w = true) : rank v = toLex (0, toLex (0, toLex (0, toLex (0, OrderDual.toDual v.w.age)))) := if_pos h

theorem rank_of_young {v : View} (h : agedWave v.w = false) :
    rank v = toLex (1, toLex (v.g.d.prio, toLex (v.w.backoff, toLex (v.w.behind.toNat, OrderDual.toDual v.w.age)))) := if_neg (by simp [h])

/-- One wave goes before another where its rank is lower. -/
theorem before_iff_rank_lt (a b : View) : before a b = true ↔ rank a < rank b := by
  cases ha : agedWave a.w <;> cases hb : agedWave b.w
  · simp only [before, ha, hb, rank_of_young, Prod.Lex.toLex_lt_toLex, OrderDual.toDual_lt_toDual]
    cases ea : a.w.behind <;> cases eb : b.w.behind <;> simp <;> grind
  · simp [before, ha, hb, rank_of_young ha, rank_of_aged hb, Prod.Lex.toLex_lt_toLex]
  · simp [before, ha, hb, rank_of_aged ha, rank_of_young hb, Prod.Lex.toLex_lt_toLex]
  · simp [before, ha, hb, rank_of_aged ha, rank_of_aged hb, Prod.Lex.toLex_lt_toLex]

/-- A core keeps the better of the wave it holds and the next one. -/
def better (best : Option View) (v : View) : Option View :=
  match best with
  | some u => if before v u then some v else some u
  | none => some v

theorem chosen_eq (s : State) (core : Nat) : chosen s core = (eligibleOn s core).foldl better none := rfl

theorem foldl_better (l : List View) (u : View) :
    ∃ v, l.foldl better (some u) = some v ∧ v ∈ u :: l ∧ ∀ x ∈ u :: l, rank v ≤ rank x := by
  induction l generalizing u with
  | nil => exact ⟨u, rfl, by simp, by simp⟩
  | cons y l ih =>
    by_cases h : before y u = true
    · have lower : rank y < rank u := (before_iff_rank_lt y u).mp h
      obtain ⟨v, hv, mem, least⟩ := ih y
      refine ⟨v, by simpa [better, h] using hv, List.mem_cons_of_mem _ mem, fun x hx => ?_⟩
      rcases List.mem_cons.mp hx with rfl | hx
      · exact (least y (List.mem_cons_self ..)).trans lower.le
      · exact least x hx
    · have higher : rank u ≤ rank y := not_lt.mp (fun lt => h ((before_iff_rank_lt y u).mpr lt))
      obtain ⟨v, hv, mem, least⟩ := ih u
      refine ⟨v, by simpa [better, h] using hv, List.cons_subset_cons u (List.subset_cons_self y l) mem, fun x hx => ?_⟩
      rcases List.mem_cons.mp hx with rfl | hx
      · exact least x (List.mem_cons_self ..)
      · rcases List.mem_cons.mp hx with rfl | hx
        · exact (least u (List.mem_cons_self ..)).trans higher
        · exact least x (List.mem_cons_of_mem _ hx)

theorem eligibleOn_of_chosen_eq_none {s : State} {core : Nat} (h : chosen s core = none) : eligibleOn s core = [] := by
  rw [chosen_eq] at h
  cases hl : eligibleOn s core with
  | nil => rfl
  | cons u l =>
    obtain ⟨v, hv, -⟩ := foldl_better l u
    rw [hl, List.foldl_cons] at h
    cases h.symm.trans hv

/-- The chosen wave is one of the eligible, and none of them ranks lower. -/
theorem chosen_least {s : State} {core : Nat} {v : View} (h : chosen s core = some v) : v ∈ eligibleOn s core ∧ ∀ u ∈ eligibleOn s core, rank v ≤ rank u := by
  rw [chosen_eq] at h
  cases hl : eligibleOn s core with
  | nil => rw [hl] at h; cases h
  | cons u l =>
    obtain ⟨x, hx, mem, least⟩ := foldl_better l u
    rw [hl, List.foldl_cons] at h
    cases h.symm.trans hx
    exact ⟨mem, least⟩

theorem mem_eligibleOn {s : State} {core : Nat} {v : View} :
    v ∈ eligibleOn s core ↔ viewOf s v.key = some v ∧ v.b.core = some core ∧ eligible s v = true := by
  simp only [eligibleOn, List.mem_filterMap]
  constructor
  · rintro ⟨e, -, he⟩
    split at he
    · rename_i u hu
      split at he
      · rename_i holds
        cases he
        obtain ⟨key, -⟩ := viewOf_eq_some.mp hu
        exact ⟨key ▸ hu, holds⟩
      · cases he
    · cases he
  · rintro ⟨view, holds⟩
    obtain ⟨-, wave, -⟩ := viewOf_eq_some.mp view
    exact ⟨(v.key, v.w), mem_of_mget wave, by simp [view, holds]⟩

/-- What R68 says of the wave that is put before another. -/
structure PutBefore (v u : View) : Prop where
  aged : agedWave u.w = true → agedWave v.w = true ∧ u.w.age ≤ v.w.age
  young : agedWave v.w = false → v.g.d.prio ≤ u.g.d.prio ∧ (v.g.d.prio = u.g.d.prio → v.w.backoff ≤ u.w.backoff ∧
    (v.w.backoff = u.w.backoff → (v.w.behind = true → u.w.behind = true) ∧ (v.w.behind = u.w.behind → u.w.age ≤ v.w.age)))

theorem putBefore_of_rank_le {v u : View} (h : rank v ≤ rank u) : PutBefore v u := by
  cases hv : agedWave v.w <;> cases hu : agedWave u.w
  · simp only [rank_of_young hv, rank_of_young hu, Prod.Lex.toLex_le_toLex, OrderDual.toDual_le_toDual] at h
    refine ⟨by simp [hu], fun _ => ?_⟩
    cases ev : v.w.behind <;> cases eu : u.w.behind <;> simp [ev, eu] at h ⊢ <;> grind
  · simp [rank_of_young hv, rank_of_aged hu, Prod.Lex.toLex_le_toLex] at h
  · exact ⟨by simp [hu], by simp [hv]⟩
  · simp only [rank_of_aged hv, rank_of_aged hu, Prod.Lex.toLex_le_toLex, OrderDual.toDual_le_toDual] at h
    exact ⟨fun _ => ⟨hv, by simpa using h⟩, by simp [hv]⟩

theorem agedWave_iff (w : Wave) : agedWave w = true ↔ w.aged = true ∨ 2048 ≤ w.age := by simp [agedWave]

theorem chosen_law {s : State} {core : Nat} {v : View} (h : chosen s core = some v) :
    viewOf s v.key = some v ∧ v.b.core = some core ∧ eligible s v = true ∧
      ∀ key u, viewOf s key = some u → u.b.core = some core → eligible s u = true → PutBefore v u := by
  obtain ⟨mem, least⟩ := chosen_least h
  obtain ⟨view, onCore, elig⟩ := mem_eligibleOn.mp mem
  refine ⟨view, onCore, elig, fun key u hu hcore helig => putBefore_of_rank_le (least u (mem_eligibleOn.mpr ⟨?_, hcore, helig⟩))⟩
  obtain ⟨rfl, -⟩ := viewOf_eq_some.mp hu
  exact hu

theorem eligible_of_chosen_eq_none {s : State} {core key : Nat} {u : View} (h : chosen s core = none) (hu : viewOf s key = some u) (hcore : u.b.core = some core) :
    eligible s u = false := by
  obtain ⟨rfl, -⟩ := viewOf_eq_some.mp hu
  rw [← Bool.not_eq_true]
  intro helig
  have mem : u ∈ eligibleOn s core := mem_eligibleOn.mpr ⟨hu, hcore, helig⟩
  simp [eligibleOn_of_chosen_eq_none h] at mem

end Sys2Proof.Machine
end

section
/-! SUPPORT. Noting an access in its leaf (R280, R282) and writing a context's memory leave waves, blocks, grids, contexts and tags as they are; the start of a clause (R21 to R24). -/
namespace Sys2Proof.Machine

/-- A state after another that only the memory's side has changed: waves, blocks, grids, contexts and tags are the same. -/
structure MemSide (s t : State) : Prop where
  waves : t.waves = s.waves
  blocks : t.blocks = s.blocks
  grids : t.grids = s.grids
  ctxs : t.ctxs = s.ctxs
  tags : t.tags = s.tags

theorem MemSide.refl (s : State) : MemSide s s := ⟨rfl, rfl, rfl, rfl, rfl⟩

theorem MemSide.trans {a b c : State} (h : MemSide a b) (k : MemSide b c) : MemSide a c :=
  ⟨k.waves.trans h.waves, k.blocks.trans h.blocks, k.grids.trans h.grids, k.ctxs.trans h.ctxs, k.tags.trans h.tags⟩

theorem MemSide.foldl {α : Type} {f : State → α → State} (h : ∀ s a, MemSide s (f s a)) (l : List α) (s : State) : MemSide s (l.foldl f s) := by
  induction l generalizing s with
  | nil => exact .refl s
  | cons a l ih => exact (h s a).trans (ih _)

theorem physPut_memSide (a : Nat) (bs : List Byte) (s : State) : MemSide s (physPut a bs s) := by
  rw [physPut_frame]
  exact ⟨rfl, rfl, rfl, rfl, rfl⟩

theorem setLeafBit_memSide (p bit : Nat) (b : Bool) (s : State) : MemSide s (setLeafBit p bit b s) := by
  fun_cases setLeafBit
  · exact .refl s
  · exact physPut_memSide _ _ _

theorem tailStore_memSide (pa level p : Nat) (s : State) : MemSide s (tailStore pa level p s) := by
  have queued (x : State) (h : MemSide s x) : MemSide s (setLeafBit p 8 true (setLeafBit p 9 true x)) :=
    h.trans ((setLeafBit_memSide _ _ _ _).trans (setLeafBit_memSide _ _ _ _))
  unfold tailStore
  dsimp only
  split
  · exact queued _ ⟨rfl, rfl, rfl, rfl, rfl⟩
  · split
    · exact .refl s
    · exact ⟨rfl, rfl, rfl, rfl, rfl⟩
    · exact .refl s
    · split
      · exact .refl s
      · exact queued _ ⟨rfl, rfl, rfl, rfl, rfl⟩

theorem noteWalk_memSide (asid va : Nat) (writes : Nat → Bool) (w : Walk) (s : State) : MemSide s (noteWalk asid va writes w s) := by
  have cached (x : State) (m : List (Nat × Word64)) (h : MemSide s x) : MemSide s { x with tlb := m } := h.trans ⟨rfl, rfl, rfl, rfl, rfl⟩
  unfold noteWalk
  split
  · dsimp only
    split
    · exact cached s _ (.refl s)
    · split
      · exact cached _ _ ((cached s _ (.refl s)).trans ((setLeafBit_memSide _ _ _ _).trans (setLeafBit_memSide _ _ _ _)))
      · exact cached _ _ ((cached s _ (.refl s)).trans (setLeafBit_memSide _ _ _ _))
  · exact .refl s

theorem recordUnit_memSide (asid root : Nat) (write : Bool) (va : Nat) (s : State) : MemSide s (recordUnit asid root write va s) := by
  have noted : MemSide s (noteLeaf asid root write va s) := noteWalk_memSide _ _ _ _ _
  unfold recordUnit
  dsimp only
  split
  · split
    · exact noted.trans (tailStore_memSide _ _ _ _)
    · exact noted
  · exact noted

theorem recordAccess_memSide (asid root : Nat) (write : Bool) (addr len : Nat) (s : State) : MemSide s (recordAccess asid root write addr len s) :=
  MemSide.foldl (fun _ _ => recordUnit_memSide _ _ _ _ _) _ s

/-! ### What a fetch that succeeds holds -/

theorem length_of_fetchWords_ok {s : State} {v : View} {addr n : Nat} {h : ClauseHeader} {ws : List Word64} (ok : fetchWords s v addr n = .ok h ws) : ws.length = n := by
  unfold fetchWords at ok
  dsimp only at ok
  split at ok
  · cases ok
  · split at ok
    · cases ok
    · split at ok
      · cases ok
      · cases ok
      · split at ok <;> cases ok
        simp

/-- A clause that is fetched has the words its header counts, and all of them decode (R19, R20, R24). -/
theorem fetchClause_ok {s : State} {v : View} {h : ClauseHeader} {ws : List Word64} (ok : fetchClause s v = .ok h ws) :
    ws.length = h.nw + 1 ∧ checkClause h v.w.allot ws = none := by
  unfold fetchClause at ok
  split at ok
  · split at ok
    · cases ok
    · split at ok
      · split at ok
        · cases ok
        · cases ok
          exact ⟨length_of_fetchWords_ok ‹_›, ‹_›⟩
      · rename_i no
        exact absurd ok (no _ _)
  · cases ok
  · rename_i notCons notNil
    cases ws with
    | nil => exact absurd ok (notNil h)
    | cons a ws => exact absurd ok (notCons h a ws)

theorem admits_iff (th n : Nat) : admits th n = true ↔ th = 15 ∨ n ≤ th := by simp [admits]

theorem thresholdsHold_of_ok {s : State} {v : View} {h : ClauseHeader} {ws : List Word64} (ok : fetchClause s v = .ok h ws) (holds : thresholdsHold s v = true) :
    (h.thc = 15 ∨ v.w.oc.cpy ≤ h.thc) ∧ (h.thm = 15 ∨ v.w.oc.mtx ≤ h.thm) ∧ (h.thg = 15 ∨ v.w.oc.gat ≤ h.thg) ∧ (h.ths = 15 ∨ v.w.oc.st ≤ h.ths) := by
  simpa only [thresholdsHold, ok, Bool.and_eq_true, admits_iff, and_assoc] using holds

/-- What an eligible wave is (R67). -/
theorem eligible_parts {s : State} {v : View} (h : eligible s v = true) :
    v.b.life = .running ∧ v.w.ended = false ∧ v.w.clause = none ∧ thresholdsHold s v = true := by
  simp only [eligible, Bool.and_eq_true, beq_iff_eq, Bool.not_eq_true', Option.isNone_iff_eq_none] at h
  obtain ⟨⟨⟨⟨⟨⟨⟨⟨⟨life, -⟩, -⟩, ended⟩, -⟩, clause⟩, -⟩, -⟩, -⟩, thresholds⟩ := h
  exact ⟨life, ended, clause, thresholds⟩

/-! ### The event -/

/-- A wave at the first word of a clause. -/
def startedAt (h : ClauseHeader) (words : List Word64) (w : Wave) : Wave :=
  { w with clause := some { words := words, idx := 0, y := h.y, rpt := none, yld := none }, age := 0, aged := false, behind := false, held := false }

section
variable {s : State} {core : Nat} {v : View}

theorem execClauseStart_of_none (h : chosen s core = none) (bad : Bool) : execClauseStart ⟨core, bad⟩ s = .next s := by
  simp only [execClauseStart, h]

theorem execClauseStart_of_ok (h : chosen s core = some v) {hd : ClauseHeader} {words : List Word64} (ok : fetchClause s v = .ok hd words) :
    execClauseStart ⟨core, false⟩ s = .next (recordAccess v.g.asid (rootOf v.c) false (ptrAddr v.w.pc.toNat) (8 * (words.length + 1)) (modWave v.key (startedAt hd words) s)) := by
  simp only [execClauseStart, h, ok, spoilFetch]
  rfl

theorem execClauseStart_of_spoilt (h : chosen s core = some v) {hd : ClauseHeader} {words : List Word64} (ok : fetchClause s v = .ok hd words) :
    execClauseStart ⟨core, true⟩ s =
      .next (faultAt v.key { pc := v.w.pc, ix := 0x1F, iter := 0, opc := 0 } { cause := 10, addr := v.w.pc.toNat } (noteFetch v s)) := by
  simp only [execClauseStart, h, ok, spoilFetch]

theorem execClauseStart_of_illegal (h : chosen s core = some v) {ix opc : Nat} (bad : fetchClause s v = .illegal ix opc) :
    execClauseStart ⟨core, false⟩ s = .next (faultAt v.key { pc := v.w.pc, ix := ix, iter := 0, opc := opc } { cause := 8 } (noteFetch v s)) := by
  simp only [execClauseStart, h, bad, spoilFetch, illegalSpec]

theorem execClauseStart_of_fail (h : chosen s core = some v) {cause det : Nat} (bad : fetchClause s v = .fail cause det) :
    execClauseStart ⟨core, false⟩ s =
      .next (faultAt v.key { pc := v.w.pc, ix := 0x1F, iter := 0, opc := 0 } { cause := cause, det := det, addr := v.w.pc.toNat } (noteFetch v s)) := by
  simp only [execClauseStart, h, bad, spoilFetch]

/-- A clause that starts puts its wave at its first word, and changes neither another wave nor a block, a context or a tag. -/
theorem execClauseStart_started (h : chosen s core = some v) {hd : ClauseHeader} {words : List Word64} (ok : fetchClause s v = .ok hd words) :
    ∃ t, execClauseStart ⟨core, false⟩ s = .next t ∧ mget t.waves v.key = some (startedAt hd words v.w) ∧
      (∀ k, k ≠ v.key → mget t.waves k = mget s.waves k) ∧ t.blocks = s.blocks ∧ t.ctxs = s.ctxs ∧ t.tags = s.tags := by
  obtain ⟨view, -, -, -⟩ := chosen_law h
  obtain ⟨-, wave, -⟩ := viewOf_eq_some.mp view
  rw [execClauseStart_of_ok h ok, modWave_of_some wave]
  obtain ⟨waves, blocks, -, ctxs, tags⟩ :=
    recordAccess_memSide v.g.asid (rootOf v.c) false (ptrAddr v.w.pc.toNat) (8 * (words.length + 1)) (putWave v.key (startedAt hd words v.w) s)
  exact ⟨_, rfl, by rw [waves, putWave_waves, mget_mput_same], fun k hk => by rw [waves, putWave_waves, mget_mput_ne _ _ hk], blocks, ctxs, tags⟩

end

end Sys2Proof.Machine
end

section
/-! SUPPORT. Waits that end (R68, R71, R98), and the head of a wave's queue that takes effect in Quern (R92) or out of the side log (R125). -/
namespace Sys2Proof.Machine

section
variable {s : State} {wave : Nat} {v : View}

theorem viewOf_key (h : viewOf s wave = some v) : v.key = wave := (viewOf_eq_some.mp h).1
theorem viewOf_wave (h : viewOf s wave = some v) : mget s.waves wave = some v.w := (viewOf_eq_some.mp h).2.1
theorem viewOf_block (h : viewOf s wave = some v) : mget s.blocks v.w.blk = some v.b := (viewOf_eq_some.mp h).2.2.1
theorem viewOf_ctx (h : viewOf s wave = some v) : mget s.ctxs v.g.asid = some v.c := (viewOf_eq_some.mp h).2.2.2.2

/-! ### Ages, yields and polls -/

theorem execEligibilityAgeExpiry_of_due (h : viewOf s wave = some v) (elig : eligible s v = true) (old : 2048 ≤ v.w.age) :
    execEligibilityAgeExpiry wave s = .next (putWave wave { v.w with aged := true } s) := by
  simp only [execEligibilityAgeExpiry, h, elig, old, and_self, if_true]

theorem execYieldExpiry_of_over (h : viewOf s wave = some v) (due : v.w.yieldLeft = some 0) :
    execYieldExpiry wave s = .next (putWave wave { v.w with yieldLeft := none } s) := by
  simp only [execYieldExpiry, viewOf_wave h, due, if_true]

/-- A Quern operation of a wave leaves its count one higher and, where the grid is neither recorded nor replayed, nothing else. -/
theorem quernOne_plain (h : viewOf s wave = some v) (rec : recording v.c v.b.gid = false) (rep : replaying v.c v.b.gid = false) (addr : Nat) (global : Bool) :
    quernOne v addr global s = some (putWave wave { v.w with qops := v.w.qops + 1 } s) := by
  obtain rfl := viewOf_key h
  simp only [quernOne, quernOp_plain (viewOf_ctx h) rec rep, Option.map_some, modWave_of_some (viewOf_wave h)]

theorem pollHolds_iff (cge : Bool) (x value : Word64) : pollHolds cge x value = true ↔ if cge then value.toNat ≤ x.toNat else x = value := by
  cases cge <;> simp [pollHolds]

/-- A POLL whose wait is over, of a wave on its core whose group is not to be saved, makes its attempt. -/
theorem execPollAttempt_of_due (h : viewOf s wave = some v) {p : PollState} (hp : v.w.poll = some p) (left : p.left = 0) (run : v.b.life = .running)
    (quantum : holdsQuantum s v.g.asid = true) (stop : v.w.stop = false) (esc : escalating s v.w.blk = false)
    (rec : recording v.c v.b.gid = false) (rep : replaying v.c v.b.gid = false) :
    execPollAttempt wave s =
      .next (attempt { v with w := { v.w with qops := v.w.qops + 1 } } p (putWave wave { v.w with qops := v.w.qops + 1 } s)) := by
  obtain rfl := viewOf_key h
  simp [execPollAttempt, h, hp, left, run, quantum, stop, esc, quernOne_plain h rec rep, waveNow]

variable {w : Wave} {t : State} {p : PollState} {c : Ctx}

theorem attempt_of_holds (hw : mget t.waves v.key = some w) (hc : mget t.ctxs v.g.asid = some c) (holds : pollHolds p.cge (readVar c p.var p.w32) p.value = true) :
    attempt v p t = putWave v.key (advance (putS p.dest (readVar c p.var p.w32) { w with poll := none, backoff := 0 })) t := by
  simp only [attempt, hc, holds, if_true, modWave_of_some hw]

/-- A wave whose attempt failed: its level is one higher, and the next wait begins. -/
def pollAgain (p : PollState) (level : Nat) (w : Wave) : Wave := { w with backoff := level, poll := some { p with fails := p.fails + 1, left := 2 ^ (level + 4) } }

theorem attempt_of_fails (hw : mget t.waves v.key = some w) (hc : mget t.ctxs v.g.asid = some c)
    (fails : pollHolds p.cge (readVar c p.var p.w32) p.value = false) (few : p.fails < 15) :
    attempt v p t = putWave v.key (pollAgain p (min 15 (v.w.backoff + 1)) w) t := by
  simp only [attempt, hc, fails, Bool.false_eq_true, if_false, modWave_of_some hw, if_neg (show ¬ p.fails + 1 ≥ 16 by omega)]
  rfl

theorem attempt_of_escalates (hw : mget t.waves v.key = some w) (hc : mget t.ctxs v.g.asid = some c) {b : Block} (hb : mget t.blocks v.w.blk = some b)
    (fails : pollHolds p.cge (readVar c p.var p.w32) p.value = false) (many : 15 ≤ p.fails) :
    attempt v p t = putBlock v.w.blk { b with escal := some (b.escal.getD v.w.idx) } (putWave v.key (pollAgain p (min 15 (v.w.backoff + 1)) w) t) := by
  have hb' : mget (putWave v.key (pollAgain p (min 15 (v.w.backoff + 1)) w) t).blocks v.w.blk = some b := hb
  rw [← modBlock_of_some hb' (fun b => { b with escal := some (b.escal.getD v.w.idx) })]
  simp only [attempt, hc, fails, Bool.false_eq_true, if_false, modWave_of_some hw, if_pos (show p.fails + 1 ≥ 16 by omega)]
  rfl

end

/-! ### The head of a wave's queue -/

section
variable {s : State} {wave : Nat} {v : View} {e : MqEntry} {rest : List MqEntry}

/-- A Quern operation at the head of the queue is performed where no append of its wave is on its way. -/
theorem execReleasedQuernOperation_of_head (h : viewOf s wave = some v) (hq : v.w.mq = e :: rest) (run : v.b.life = .running)
    (quern : viaStorePath e.op = false) (out : appendOut v.c wave = false) : execReleasedQuernOperation wave s = .next (performAt v 0 e s) := by
  obtain rfl := viewOf_key h
  simp [execReleasedQuernOperation, h, hq, onCore, run, quern, awaitsAppend, out]

/-- The state in which a wave's Quern operation has been counted. -/
abbrev countedIn (wave : Nat) (v : View) (s : State) : State := putWave wave { v.w with qops := v.w.qops + 1 } s

theorem perfQuern_plain (h : viewOf s wave = some v) (rec : recording v.c v.b.gid = false) (rep : replaying v.c v.b.gid = false) (addr : Nat) (f : State → State) :
    perfQuern v addr f s = .done (f (countedIn wave v s)) := by
  simp only [perfQuern, quernOne_plain h rec rep]

theorem performAt_of_done {i : Nat} {t : State} (h : perform v e s = .done t) : performAt v i e s = retireOp v.key i e (!acksLater e.op) t := by
  simp only [performAt, h]

theorem performAt_of_wait {i : Nat} (h : perform v e s = .wait) : performAt v i e s = logPending v i s := by
  simp only [performAt, h]

theorem released_push (h : viewOf s wave = some v) (hq : v.w.mq = e :: rest) (run : v.b.life = .running) (out : appendOut v.c wave = false)
    (rec : recording v.c v.b.gid = false) (rep : replaying v.c v.b.gid = false) {q : Nat} {item : Word64} (op : e.op = .push q item) :
    execReleasedQuernOperation wave s = .next (modWave wave (dropOp 0) (pushItem v.g.asid q item (.wave wave e.no) (countedIn wave v s))) := by
  rw [execReleasedQuernOperation_of_head h hq run (by rw [op]; rfl) out, performAt_of_done (by rw [perform, op]; exact perfQuern_plain h rec rep _ _), op, viewOf_key h]
  rfl

theorem released_dcdec (h : viewOf s wave = some v) (hq : v.w.mq = e :: rest) (run : v.b.life = .running) (out : appendOut v.c wave = false)
    (rec : recording v.c v.b.gid = false) (rep : replaying v.c v.b.gid = false) {c : Nat} (op : e.op = .dcdec c) :
    execReleasedQuernOperation wave s = .next (modWave wave (fun w => ackSt e.no (dropOp 0 w)) (counterDec v.g.asid c (countedIn wave v s))) := by
  rw [execReleasedQuernOperation_of_head h hq run (by rw [op]; rfl) out, performAt_of_done (by rw [perform, op]; exact perfQuern_plain h rec rep _ _), op, viewOf_key h]
  rfl

theorem released_dcset (h : viewOf s wave = some v) (hq : v.w.mq = e :: rest) (run : v.b.life = .running) (out : appendOut v.c wave = false)
    (rec : recording v.c v.b.gid = false) (rep : replaying v.c v.b.gid = false) {c : Nat} {x : Word64} (op : e.op = .dcset c x) :
    execReleasedQuernOperation wave s = .next (modWave wave (fun w => ackSt e.no (dropOp 0 w)) (plainWrite v.g.asid c x (countedIn wave v s))) := by
  rw [execReleasedQuernOperation_of_head h hq run (by rw [op]; rfl) out, performAt_of_done (by rw [perform, op]; exact perfQuern_plain h rec rep _ _), op, viewOf_key h]
  rfl

/-! ### Logged stores -/

theorem execSideLogReplay_of_head (h : viewOf s wave = some v) (hq : v.w.mq = e :: rest) (run : v.b.life = .running) (logged : e.logged = true) :
    execSideLogReplay ⟨wave, false⟩ s = .next (performAt v 0 e s) := by
  simp [execSideLogReplay, h, hq, onCore, run, logged, performVia]

theorem laneFault_none {chk : Nat → Chk} (h : ∀ p c d, chk p ≠ .fail c d) (l : List (Nat × Nat)) : laneFault chk l = none := by
  fun_induction laneFault chk l with
  | case1 => rfl
  | case2 _ p _ c d hp => exact absurd hp (h p c d)
  | case3 _ _ _ _ ih => exact ih

/-- Checks that all come to one answer, no failure, find no failing lane. -/
theorem perfCheck_uniform {accs : List (Nat × Nat × Chk)} {x : Chk} (ok : ∀ c d, x ≠ .fail c d) (all : ∀ a ∈ accs, a.2.2 = x) (go : Unit → Perf) :
    perfCheck accs go = if accs.any (fun a => a.2.2 == .pending) then .wait else go () := by
  unfold perfCheck
  rw [laneFault_none]
  intro p c d
  cases hf : accs.find? (fun a => a.2.1 == p) with
  | none => simp
  | some a => simpa [all a (List.mem_of_find?_eq_some hf)] using ok c d

theorem perfCheck_of_ok {accs : List (Nat × Nat × Chk)} (all : ∀ a ∈ accs, a.2.2 = .ok) (go : Unit → Perf) : perfCheck accs go = go () := by
  rw [perfCheck_uniform (by simp) all, if_neg]
  simp only [List.any_eq_true, beq_iff_eq, not_exists, not_and]
  intro a ha
  simp [all a ha]

theorem perfCheck_of_pending {accs : List (Nat × Nat × Chk)} (all : ∀ a ∈ accs, a.2.2 = .pending) (ne : accs ≠ []) (go : Unit → Perf) : perfCheck accs go = .wait := by
  obtain ⟨a, ha⟩ := List.exists_mem_of_ne_nil accs ne
  rw [perfCheck_uniform (by simp) all, if_pos]
  exact List.any_eq_true.mpr ⟨a, ha, by simp [all a ha]⟩

theorem sideLog_store_ok (h : viewOf s wave = some v) (hq : v.w.mq = e :: rest) (run : v.b.life = .running) (logged : e.logged = true) {ps : List Piece}
    (op : e.op = .store ps) (ok : ∀ q ∈ ps, checkAccess s v .store (some q.tag) q.addr q.data.length = .ok) :
    execSideLogReplay ⟨wave, false⟩ s = .next (modWave wave (fun w => ackSt e.no (dropOp 0 w)) (putPieces v ps s)) := by
  have done : perform v e s = .done (putPieces v ps s) := by
    rw [perform, op]
    refine perfCheck_of_ok (fun a ha => ?_) _
    obtain ⟨q, hq, rfl⟩ := List.mem_map.mp ha
    exact ok q hq
  rw [execSideLogReplay_of_head h hq run logged, performAt_of_done done, op, viewOf_key h]
  rfl

/-- Taking entries into the side log marks them and changes none. -/
theorem logFrom_op (i : Nat) (q : List MqEntry) : (logFrom i q).map MqEntry.op = q.map MqEntry.op := by
  conv_rhs => rw [← List.take_append_drop i q]
  simp [logFrom, Function.comp_def]

/-- A store whose translation is still pending stays, and only the marks of the queue change. -/
theorem sideLog_store_pending (h : viewOf s wave = some v) (hq : v.w.mq = e :: rest) (run : v.b.life = .running) (logged : e.logged = true) {ps : List Piece}
    (op : e.op = .store ps) (pending : ∀ q ∈ ps, checkAccess s v .store (some q.tag) q.addr q.data.length = .pending) (ne : ps ≠ []) :
    ∃ t w', execSideLogReplay ⟨wave, false⟩ s = .next t ∧ mget t.waves wave = some w' ∧ w' = { v.w with mq := w'.mq } ∧
      w'.mq.map MqEntry.op = v.w.mq.map MqEntry.op ∧ t = { s with waves := t.waves } := by
  have wait : perform v e s = .wait := by
    rw [perform, op]
    refine perfCheck_of_pending (fun a ha => ?_) (by simpa using ne) _
    obtain ⟨q, hq, rfl⟩ := List.mem_map.mp ha
    exact pending q hq
  obtain rfl := viewOf_key h
  rw [execSideLogReplay_of_head h hq run logged, performAt_of_wait wait]
  unfold logPending
  dsimp only
  split
  · rw [modWave_of_some (viewOf_wave h)]
    exact ⟨_, _, rfl, mget_mput_same _ _ _, rfl, logFrom_op _ _, rfl⟩
  · exact ⟨s, v.w, rfl, viewOf_wave h, rfl, rfl, rfl⟩

end

end Sys2Proof.Machine
end

section
/-! SUPPORT. A load of TIER 4 pages that no drive answers: all ones in the bytes it asked for (R312). -/
namespace Sys2Proof.Machine

/-- A far part brings byte k of a lane, as a test. -/
def FarPart.coversByte (lane k : Nat) (q : FarPart) : Bool := (q.shared || q.lane == lane) && decide (q.off ≤ k) && decide (k < q.off + q.len)

theorem coversByte_iff (q : FarPart) (lane k : Nat) : q.coversByte lane k = true ↔ q.Covers lane k := by
  simp [FarPart.coversByte, FarPart.Covers, and_assoc]

theorem field_allOnes {len k : Nat} (h : k < len) : field (allOnes len) (8 * k) 8 = 255 := by
  apply Nat.eq_of_testBit_eq
  intro i
  rw [testBit_field, allOnes, Nat.testBit_two_pow_sub_one, show 255 = 2 ^ 8 - 1 from rfl, Nat.testBit_two_pow_sub_one]
  by_cases hi : i < 8
  · simp [hi, show 8 * k + i < 8 * len by omega]
  · simp [hi]

/-- What each part of an unanswered read comes to. -/
abbrev ones : Nat → FarPart → Nat := fun _ p => allOnes p.len

/-- Parts of ones leave a byte of ones where some part covers it, and the byte as it was elsewhere. -/
theorem field_foldl_ones (ps : List (Nat × FarPart)) (lane k x : Nat) :
    field (ps.foldl (farStep ones lane) x) (8 * k) 8 = if ps.any (fun p => p.2.coversByte lane k) then 255 else field x (8 * k) 8 := by
  induction ps generalizing x with
  | nil => rfl
  | cons p ps ih =>
    rw [List.foldl_cons, ih, List.any_cons]
    by_cases h : p.2.Covers lane k
    · have inside : k - p.2.off < p.2.len := by have := h.2; omega
      simp [field_farStep_covered h, field_allOnes inside, (coversByte_iff p.2 lane k).mpr h]
    · have outside : p.2.coversByte lane k = false := by rw [← Bool.not_eq_true, coversByte_iff]; exact h
      rw [outside, Bool.false_or, field_farStep_uncovered h]

theorem field_farValue_ones (r : Return) (l : Nat × Nat) (k : Nat) :
    field (farValue r ones l) (8 * k) 8 = if r.far.any (FarPart.coversByte l.1 k) then 255 else field l.2 (8 * k) 8 := by
  have parts : ((List.range r.far.length).zip r.far).map Prod.snd = r.far := List.map_snd_zip (by simp)
  have covered : ((List.range r.far.length).zip r.far).any (fun p => p.2.coversByte l.1 k) = r.far.any (FarPart.coversByte l.1 k) := by
    conv_rhs => rw [← parts, List.any_map]
    rfl
  rw [farValue, field_foldl_ones, covered]

/-- A read that was not answered, as it returns. -/
def unansweredReturn (r : Return) : Return := { r with lanes := farData r ones, far := [] }

section
variable {s : State} {wave i : Nat} {w : Wave} {r : Return}

theorem execMmioTimeout_of_drives (hw : mget s.waves wave = some w) (hr : w.returns[i]? = some r) (intact : r.bad = none) (ne : r.far ≠ [])
    (drives : ∀ p ∈ r.far, p.tier = 4) :
    execMmioTimeout wave i s =
      .next (putWave wave (deliverReturn (unansweredReturn r) { w with returns := delAt w.returns i }) (countDrives r.far.length s)) := by
  have missed : r.far.filter drivePart = r.far := List.filter_eq_self.mpr (fun p hp => by simp [drivePart, drives p hp])
  have rest : r.far.filter (fun p => !drivePart p) = [] := List.filter_eq_nil_iff.mpr (fun p hp => by simp [drivePart, drives p hp])
  have some : r.far.any drivePart = true := by
    obtain ⟨p, hp⟩ := List.exists_mem_of_ne_nil r.far ne
    exact List.any_eq_true.mpr ⟨p, hp, by simp [drivePart, drives p hp]⟩
  have hw' : mget (countDrives r.far.length s).waves wave = Option.some w := hw
  simp only [execMmioTimeout, hw, hr, intact, some, missed, rest, Option.isNone_none, List.isEmpty_nil, and_self, if_true, finishReturn, modWave_of_some hw']
  rfl

/-- The returned bytes, the count and the register of an unanswered load of TIER 4 pages. -/
theorem mmioTimeout_law (hw : mget s.waves wave = some w) (hr : w.returns[i]? = some r) (intact : r.bad = none) (ne : r.far ≠ [])
    (drives : ∀ p ∈ r.far, p.tier = 4) : ∃ (t : State) (r' : Return) (f : Nat × Nat → Nat),
      execMmioTimeout wave i s = .next t ∧ t.pf = { s.pf with cnt3110 := s.pf.cnt3110 + BitVec.ofNat 32 r.far.length } ∧ r' = { r with lanes := r'.lanes, far := [] } ∧
      r'.lanes = r.lanes.map (fun l => (l.1, f l)) ∧
      (∀ l ∈ r.lanes, ∀ j, f l / 2 ^ (8 * j) % 256 = if r.far.any (FarPart.coversByte l.1 j) then 255 else l.2 / 2 ^ (8 * j) % 256) ∧
      mget t.waves wave = some (deliverReturn r' { w with returns := delAt w.returns i }) ∧ t.mem = s.mem :=
  ⟨_, unansweredReturn r, farValue r ones, execMmioTimeout_of_drives hw hr intact ne drives, rfl, rfl, farData_eq r ones,
    fun l _ j => field_farValue_ones r l j, mget_mput_same _ _ _, rfl⟩

end

end Sys2Proof.Machine
end

section
/-! SUPPORT. A Quern operation under a recording or a replay (R319, R320): the record it leaves, or the record it consumes. -/
namespace Sys2Proof.Machine

/-! ### Reading back a list of words -/

theorem physBytes_physPut_within (a : Nat) (bs : List Byte) (s : State) {k n : Nat} (h : k + n ≤ bs.length) :
    physBytes (physPut a bs s) (a + k) n = (bs.drop k).take n := by
  rw [physBytes_eq]
  refine List.ext_getElem (by simp; omega) (fun i hi hi' => ?_)
  have small : i < n := by simpa using hi
  simp only [List.getElem_map, List.getElem_range, physByte_physPut]
  rw [dif_pos (by omega)]
  simp [show a + k + i - a = k + i by omega]

theorem take_drop_wordBytes (ws : List Nat) {j : Nat} (h : j < ws.length) : ((ws.flatMap (natToBytes 8)).drop (8 * j)).take 8 = natToBytes 8 ws[j] := by
  induction ws generalizing j with
  | nil => cases h
  | cons w ws ih =>
    cases j with
    | zero => rw [List.flatMap_cons, Nat.mul_zero, List.drop_zero, List.take_left' (length_natToBytes 8 w)]; rfl
    | succ j =>
      rw [List.flatMap_cons, Nat.mul_succ, Nat.add_comm, ← List.drop_drop, List.drop_left' (length_natToBytes 8 w), ih (Nat.lt_of_succ_lt_succ h)]
      rfl

theorem length_wordBytes (ws : List Nat) : (ws.flatMap (natToBytes 8)).length = 8 * ws.length := by
  induction ws with
  | nil => rfl
  | cons w ws ih => simp [ih]; omega

/-- Word j of a list of words that was written. -/
theorem physNat_physPut_words (a : Nat) (ws : List Nat) (s : State) {j : Nat} (h : j < ws.length) :
    physNat (physPut a (ws.flatMap (natToBytes 8)) s) (a + 8 * j) 8 = ws[j] % 2 ^ 64 := by
  rw [physNat, physBytes_physPut_within _ _ _ (by rw [length_wordBytes]; omega), take_drop_wordBytes ws h, bytesToNat_natToBytes,
    show (256 : Nat) ^ 8 = 2 ^ 64 by norm_num]

/-! ### Recording -/

section
variable {asid gid : Nat} {c : Ctx} {l : LogArea} {s : State}

theorem recording_iff (hl : c.log = some l) : recording c gid = true ↔ l.replay = false ∧ l.full = false ∧ l.grids.contains gid = true := by
  simp [recording, hl, and_assoc]

theorem replaying_iff (hl : c.log = some l) : replaying c gid = true ↔ l.replay = true ∧ l.grids.contains gid = true := by
  simp [replaying, hl]

/-- A record that is neither the last of its area nor beyond it is written as it is. -/
theorem logAppend_of_room (hc : mget s.ctxs asid = some c) (hl : c.log = some l) (full : l.full = false) (room : l.written + 1 < logCap l) (w0 w1 w2 w3 : Nat) :
    logAppend asid w0 w1 w2 w3 s =
      modCtx asid (fun c => { c with log := some { l with written := l.written + 1, full := false } })
        (physPut (l.base + 32 * l.written) ([w0, w1, w2, w3].flatMap (natToBytes 8)) s) := by
  simp only [logAppend, hc, hl, full, Bool.false_eq_true, false_or, if_neg (show ¬ l.written ≥ logCap l by omega), show l.written + 1 ≠ logCap l by omega,
    false_and, if_false, decide_false]

theorem logWord_logAppend (hc : mget s.ctxs asid = some c) (hl : c.log = some l) (full : l.full = false) (room : l.written + 1 < logCap l) (w0 w1 w2 w3 : Nat)
    {j : Nat} (hj : j < 4) : logWord (logAppend asid w0 w1 w2 w3 s) l l.written j = [w0, w1, w2, w3][j] % 2 ^ 64 := by
  have mem (f : Ctx → Ctx) (t : State) : (modCtx asid f t).mem = t.mem := by unfold modCtx; split <;> rfl
  rw [logAppend_of_room hc hl full room, ← physNat_physPut_words (l.base + 32 * l.written) [w0, w1, w2, w3] s hj, logWord, physNat, physNat, physBytes_eq, physBytes_eq]
  simp only [physByte, mem]

theorem quernOp_of_recording (hc : mget s.ctxs asid = some c) (rec : recording c gid = true) (num wave ordinal addr : Nat) (global own : Bool) :
    quernOp asid gid num wave ordinal addr global s own =
      some (logAppend asid (4 * 2 ^ 60 + num) addr ((if global then 2 ^ 63 else 0) + wave) ordinal s) := by
  simp only [quernOp, hc, rec, if_true]

/-- An operation of a recorded grid leaves its QUERN record. -/
theorem quernOp_recorded (hc : mget s.ctxs asid = some c) (hl : c.log = some l) (rec : recording c gid = true) (room : l.written + 1 < logCap l)
    {num wave : Nat} (hnum : num < 2 ^ 60) (hwave : wave < 2 ^ 63) (ordinal addr : Nat) (global own : Bool) :
    ∃ t, quernOp asid gid num wave ordinal addr global s own = some t ∧
      t.waves = s.waves ∧ t.blocks = s.blocks ∧ t.grids = s.grids ∧ logWord t l l.written 0 = 4 * 2 ^ 60 + num ∧ logWord t l l.written 1 = addr % 2 ^ 64 ∧
      logWord t l l.written 2 = (if global then 2 ^ 63 else 0) + wave ∧ logWord t l l.written 3 = ordinal % 2 ^ 64 := by
  obtain ⟨-, full, -⟩ := (recording_iff hl).mp rec
  have does := quernOp_of_recording hc rec num wave ordinal addr global own
  have frame := quernOp_frame does
  have word (j : Nat) (hj : j < 4) := logWord_logAppend hc hl full room (4 * 2 ^ 60 + num) addr ((if global then 2 ^ 63 else 0) + wave) ordinal hj
  refine ⟨_, does, by rw [frame], by rw [frame], by rw [frame],
    (word 0 (by decide)).trans (Nat.mod_eq_of_lt ?_), word 1 (by decide), (word 2 (by decide)).trans (Nat.mod_eq_of_lt ?_), word 3 (by decide)⟩
  · show 4 * 2 ^ 60 + num < 2 ^ 64
    omega
  · show (if global then 2 ^ 63 else 0) + wave < 2 ^ 64
    split <;> omega

/-! ### Replaying -/

/-- The record of an address that a replay consumes next. -/
def nextQuern (s : State) (l : LogArea) (addr : Nat) (global : Bool) : Option Nat :=
  nextRecord s l (fun i => logType s l i == 4 && logWord s l i 1 == addr && (decide (2 ^ 63 ≤ logWord s l i 2) == global))

/-- A record names an operation. -/
def Names (s : State) (l : LogArea) (i num wave ordinal : Nat) (own : Bool) : Prop :=
  logWord s l i 0 % 2 ^ 60 = num ∧ logWord s l i 2 % 32 = wave ∧ (own = true → logWord s l i 3 = ordinal)

theorem quernOp_of_replaying (hc : mget s.ctxs asid = some c) (hl : c.log = some l) (rep : replaying c gid = true) (num wave ordinal addr : Nat) (global own : Bool) :
    quernOp asid gid num wave ordinal addr global s own =
      if l.lifted.contains (addr, global) then some s
      else match nextQuern s l addr global with
        | none => some s
        | some i =>
          if logWord s l i 0 % 2 ^ 60 = num ∧ logWord s l i 2 % 32 = wave ∧ (own = false ∨ logWord s l i 3 = ordinal) then some (consume asid i s) else none := by
  have unrecorded : recording c gid = false := by
    rw [← Bool.not_eq_true, recording_iff hl, ((replaying_iff hl).mp rep).1]
    simp
  simp only [quernOp, hc, unrecorded, rep, hl, Bool.false_eq_true, if_false, if_true]
  rfl

variable (hc : mget s.ctxs asid = some c) (hl : c.log = some l) (rep : replaying c gid = true) (num wave ordinal : Nat) {addr : Nat} {global : Bool} (own : Bool)
include hc hl rep

theorem quernOp_unconstrained (h : (addr, global) ∈ l.lifted ∨ nextQuern s l addr global = none) :
    quernOp asid gid num wave ordinal addr global s own = some s := by
  rw [quernOp_of_replaying hc hl rep]
  rcases h with lifted | none
  · rw [if_pos (List.contains_iff_mem.mpr lifted)]
  · rw [none, ite_self]

theorem quernOp_consumes (kept : (addr, global) ∉ l.lifted) {i : Nat} (next : nextQuern s l addr global = some i) (its : Names s l i num wave ordinal own) :
    ∃ t c' l', quernOp asid gid num wave ordinal addr global s own = some t ∧ mget t.ctxs asid = some c' ∧ c'.log = some l' ∧ l'.used = i :: l.used ∧
      t.mem = s.mem ∧ t.waves = s.waves := by
  obtain ⟨sameNum, sameWave, sameOrdinal⟩ := its
  have named : logWord s l i 0 % 2 ^ 60 = num ∧ logWord s l i 2 % 32 = wave ∧ (own = false ∨ logWord s l i 3 = ordinal) := by
    refine ⟨sameNum, sameWave, ?_⟩
    cases own
    · exact .inl rfl
    · exact .inr (sameOrdinal rfl)
  have frame := consume_frame asid i s
  have here : mget (consume asid i s).ctxs asid =
      some { c with log := some { l with used := i :: l.used, stamps := mput l.stamps i s.time.ticks.toNat } } := by
    rw [consume, mget_modCtx, if_pos rfl, hc, Option.map_some, hl]
    rfl
  refine ⟨consume asid i s, _, _, ?_, here, rfl, rfl, by rw [frame], by rw [frame]⟩
  rw [quernOp_of_replaying hc hl rep, if_neg (by simpa using kept), next]
  exact if_pos named

theorem quernOp_held (kept : (addr, global) ∉ l.lifted) {i : Nat} (next : nextQuern s l addr global = some i) (its : ¬ Names s l i num wave ordinal own) :
    quernOp asid gid num wave ordinal addr global s own = none := by
  rw [quernOp_of_replaying hc hl rep, if_neg (by simpa using kept), next]
  refine if_neg ?_
  rintro ⟨sameNum, sameWave, sameOrdinal⟩
  exact its ⟨sameNum, sameWave, fun counts => sameOrdinal.resolve_left (by simp [counts])⟩

end

theorem servedOp_of_viewOf {key addr : Nat} {v : View} {s : State} (h : viewOf s key = some v) :
    servedOp key addr s = quernOp v.g.asid v.b.gid v.b.num v.w.idx v.w.qops addr false s false := by
  simp only [servedOp, h]

end Sys2Proof.Machine
end

section
/-! SUPPORT. Appends that arrive (R255) and steps that are filed (R258, R261). -/
namespace Sys2Proof.Machine

/-! ### What Lovage leaves unchanged -/

theorem farWriteOne_memSide (tier pa : Nat) (bs : List Byte) (s : State) : MemSide s (farWriteOne tier pa bs s) := by
  fun_cases farWriteOne <;> exact ⟨rfl, rfl, rfl, rfl, rfl⟩

theorem farPut_memSide (tier pa : Nat) (bs : List Byte) (s : State) : MemSide s (farPut tier pa bs s) := by
  unfold farPut
  split
  · exact farWriteOne_memSide _ _ _ _
  · exact MemSide.foldl (fun _ _ => farWriteOne_memSide _ _ _ _) _ s

theorem placePut_phys_memSide (bk pa tier : Nat) (bs : List Byte) (s : State) : MemSide s (placePut bk (.phys pa tier) bs s) := by
  show MemSide s (if tier ≥ 3 then farPut tier pa bs s else physPut pa bs s)
  split
  · exact farPut_memSide _ _ _ _
  · exact physPut_memSide _ _ _

theorem ctxPut_memSide (asid : Nat) (c : Ctx) (addr : Nat) (bs : List Byte) (s : State) : MemSide s (ctxPut asid c addr bs s) := by
  refine MemSide.foldl (fun t u => ?_) _ s
  dsimp only
  split
  · exact (recordUnit_memSide _ _ _ _ _).trans (placePut_phys_memSide _ _ _ _ _)
  · exact recordUnit_memSide _ _ _ _ _

/-- A context after another that only its log differs from. -/
def LogOnly (c c' : Ctx) : Prop := c' = { c with log := c'.log }

theorem modCtx_logOnly {asid k : Nat} {f : Ctx → Ctx} {s : State} {c : Ctx} (hf : ∀ c, LogOnly c (f c)) (h : mget s.ctxs k = some c) :
    ∃ c', mget (modCtx asid f s).ctxs k = some c' ∧ LogOnly c c' := by
  rw [mget_modCtx]
  split
  · next same =>
    subst same
    exact ⟨f c, by rw [h]; rfl, hf c⟩
  · exact ⟨c, h, rfl⟩

theorem logAppend_logOnly (asid w0 w1 w2 w3 : Nat) {k : Nat} {s : State} {c : Ctx} (h : mget s.ctxs k = some c) :
    ∃ c', mget (logAppend asid w0 w1 w2 w3 s).ctxs k = some c' ∧ LogOnly c c' := by
  fun_cases logAppend
  · exact ⟨c, h, rfl⟩
  · exact ⟨c, h, rfl⟩
  · exact ⟨c, h, rfl⟩
  · refine modCtx_logOnly (fun _ => rfl) ?_
    rw [(physPut_memSide _ _ _).ctxs]
    exact h

/-- A Quern operation changes a context's log at most. -/
theorem quernOp_logOnly {asid gid num wave ordinal addr k : Nat} {global own : Bool} {s t : State} {c : Ctx}
    (h : quernOp asid gid num wave ordinal addr global s own = some t) (hc : mget s.ctxs k = some c) : ∃ c', mget t.ctxs k = some c' ∧ LogOnly c c' := by
  have same : ∃ c', mget s.ctxs k = some c' ∧ LogOnly c c' := ⟨c, hc, rfl⟩
  revert h
  fun_cases quernOp <;> intro h <;> cases h
  case case2 => exact logAppend_logOnly _ _ _ _ _ hc
  case case6 => exact modCtx_logOnly (fun _ => rfl) hc
  all_goals exact same

theorem servedOp_logOnly {key addr k : Nat} {s t : State} {c : Ctx} (h : servedOp key addr s = some t) (hc : mget s.ctxs k = some c) :
    ∃ c', mget t.ctxs k = some c' ∧ LogOnly c c' := by
  unfold servedOp at h
  split at h
  · exact quernOp_logOnly h hc
  · cases h
    exact ⟨c, hc, rfl⟩

theorem mgetD_of_some {α : Type} {m : List (Nat × α)} {k : Nat} {x : α} (h : mget m k = some x) (d : α) : mgetD m k d = x := by
  rw [mgetD, h]
  rfl

/-! ### Regions -/

section
variable {asid step : Nat} {s : State} {c : Ctx} {r : Region}

theorem kvRegion_of_some (hc : mget s.ctxs asid = some c) (hr : mget c.regions step = some r) : kvRegion s asid step = r := by
  simp only [kvRegion, hc, mgetD_of_some hr]

/-- A region after a change of it. -/
theorem mget_modRegion (hc : mget s.ctxs asid = some c) (hr : mget c.regions step = some r) (f : Region → Region) :
    mget (modRegion asid step f s).ctxs asid = some { c with regions := mput c.regions step (f r) } := by
  rw [modRegion, mget_modCtx, if_pos rfl, hc, Option.map_some, mmod, mgetD_of_some hr]

theorem kvRegion_modRegion (hc : mget s.ctxs asid = some c) (hr : mget c.regions step = some r) (f : Region → Region) :
    kvRegion (modRegion asid step f s) asid step = f r :=
  kvRegion_of_some (mget_modRegion hc hr f) (mget_mput_same _ _ _)

theorem kvRegion_congr {t : State} (h : t.ctxs = s.ctxs) : kvRegion t asid step = kvRegion s asid step := by
  simp only [kvRegion, h]

/-! ### Arrival -/

/-- A region in which entry e has taken a step. -/
def arrivedRegion (now : Word64) (e : JEntry) (r : Region) : Region :=
  { r with entries := r.entries.map (fun x => if x.id = e.id then { x with step := some now, seq := r.nextSeq } else x), nextSeq := r.nextSeq + 1 }

theorem arrive_eq (e : JEntry) (s : State) : arrive asid step c e s =
    modWave e.wave (ackSt e.no) (modRegion asid step (arrivedRegion (syncWord c step) e)
      (ctxPut asid c (ptrAddr (journalAddr (kvDesc e.desc) e.core e.slot + 0x18)) (natToBytes 8 (syncWord c step).toNat) s)) := rfl

theorem modRegion_waves (f : Region → Region) (s : State) : (modRegion asid step f s).waves = s.waves := by unfold modRegion modCtx; split <;> rfl
theorem modRegion_blocks (f : Region → Region) (s : State) : (modRegion asid step f s).blocks = s.blocks := by unfold modRegion modCtx; split <;> rfl

/-- An entry arrives where a replay lets its step be read. -/
theorem execAppendArrival_of_due {core : Nat} {e : JEntry} (hc : mget s.ctxs asid = some c) (hr : mget c.regions step = some r) (opened : r.ksteps = [])
    (next : nextArrival s r step core = some e) (written : e.written = true) :
    execAppendArrival asid step core s = .next (((servedOp e.wave step s).map (arrive asid step c e)).getD s) := by
  simp [execAppendArrival, hc, mgetD_of_some hr, Region.closed, opened, next, written]

theorem arrive_law {e : JEntry} {x : State} (hc : mget s.ctxs asid = some c) (hr : mget c.regions step = some r) (served : servedOp e.wave step s = some x) :
    kvRegion (arrive asid step c e x) asid step = arrivedRegion (syncWord c step) e r ∧
      (∀ w, mget s.waves e.wave = some w → mget (arrive asid step c e x).waves e.wave = some (ackSt e.no w)) ∧ (arrive asid step c e x).blocks = s.blocks := by
  have frame := servedOp_frame served
  obtain ⟨c', hc', logOnly⟩ := servedOp_logOnly served hc
  have hr' : mget c'.regions step = some r := by rw [logOnly]; exact hr
  obtain ⟨waves, blocks, -, ctxs, -⟩ :=
    ctxPut_memSide asid c (ptrAddr (journalAddr (kvDesc e.desc) e.core e.slot + 0x18)) (natToBytes 8 (syncWord c step).toNat) x
  refine ⟨?_, fun w hw => ?_, ?_⟩
  · rw [arrive_eq, kvRegion_congr (modWave_ctxs _ _ _)]
    exact kvRegion_modRegion (by rw [ctxs]; exact hc') hr' _
  · rw [arrive_eq, mget_modWave, if_pos rfl, modRegion_waves, waves, frame]
    exact congrArg (Option.map (ackSt e.no)) hw
  · rw [arrive_eq, modWave_blocks, modRegion_blocks, blocks, frame]

/-! ### Filing -/

theorem stepJournal_intact (asid key : Nat) (es : List JEntry) (s : State) : stepJournal asid key false es s = readJournal asid key es [] s := by
  cases es <;> simp [stepJournal, readJournal]

/-- A step whose journal is read and filed reopens its region, where a replay lets it. -/
theorem execStepFiling_of_filed {key : Nat} {ws : List Word64} {rest : List (Nat × List Word64)} {xs : List Filed} {t u : State}
    (hc : mget s.ctxs asid = some c) (hr : mget c.regions step = some r) (first : r.ksteps = (key, ws) :: rest) (idle : r.readers = 0)
    (journal : readJournal asid key (r.entries.filter (fun e => e.step == some (syncWord c step))) [] s = some (xs, t))
    (filed : fileAll asid key (kvDesc ws) xs t = some u) :
    execStepFiling asid ⟨step, false⟩ s = .next ((reopen asid step (syncWord c step) key u).getD s) := by
  have counter : stepCounter s asid step = syncWord c step := by simp only [stepCounter, hc]
  simp [execStepFiling, kvRegion_of_some hc hr, first, idle, counter, stepJournal_intact, journal, filed]

/-- A sync word that takes a value other than 0 wakes no block. -/
theorem syncWrite_of_ne_zero (hc : mget s.ctxs asid = some c) (a : Nat) {x : Word64} (hx : x ≠ 0) :
    syncWrite asid a x s = wakePhases asid (modCtx asid (fun c => { c with sync := mset 0 c.sync (a / 8 * 8) x }) s) := by
  simp only [syncWrite, hc, hx, and_false, if_false]

theorem syncWrite_of_ne_zero_waves (hc : mget s.ctxs asid = some c) (a : Nat) {x : Word64} (hx : x ≠ 0) : (syncWrite asid a x s).waves = s.waves := by
  rw [syncWrite_of_ne_zero hc a hx, wakePhases_frame]
  unfold modCtx
  split <;> rfl

theorem mget_syncWrite_of_ne_zero (hc : mget s.ctxs asid = some c) (a : Nat) {x : Word64} (hx : x ≠ 0) :
    mget (syncWrite asid a x s).ctxs asid = some { c with sync := mset 0 c.sync (a / 8 * 8) x } := by
  rw [syncWrite_of_ne_zero hc a hx, wakePhases_frame]
  dsimp only
  rw [mget_modCtx, if_pos rfl, hc]
  rfl

theorem add_one_ne_zero {x : Word64} (h : x.toNat + 1 < 2 ^ 64) : x + 1 ≠ 0 := by bv_omega

/-- A region whose step is over: its entries of that step are filed, and its first KSTEP is done. -/
def filedRegion (now : Word64) (r : Region) : Region := { r with entries := r.entries.filter (fun e => e.step != some now), ksteps := r.ksteps.drop 1 }

/-- The state in which a region has reopened. -/
def reopened (asid step : Nat) (now : Word64) (key : Nat) (x : State) : State :=
  finishKstep key (now + 1) (syncWrite asid step (now + 1) (modRegion asid step (filedRegion now) x))

theorem reopen_eq (now : Word64) (key : Nat) (u : State) : reopen asid step now key u = (servedOp key step u).map (reopened asid step now key) := rfl

theorem reopened_ctx {now : Word64} {key : Nat} (hc : mget s.ctxs asid = some c) (hr : mget c.regions step = some r) (room : now.toNat + 1 < 2 ^ 64) :
    mget (reopened asid step now key s).ctxs asid =
      some { c with regions := mput c.regions step (filedRegion now r), sync := mset 0 c.sync (step / 8 * 8) (now + 1) } := by
  rw [reopened, finishKstep, modWave_ctxs]
  exact mget_syncWrite_of_ne_zero (mget_modRegion hc hr _) step (add_one_ne_zero room)

theorem reopened_wave {now : Word64} {key : Nat} (hc : mget s.ctxs asid = some c) (hr : mget c.regions step = some r) (room : now.toNat + 1 < 2 ^ 64)
    {w : Wave} {k : KW} {d : BitVec 6} (hw : mget s.waves key = some w) (arv : w.arv = true) (live : w.ended = false) (word : fetchInstr w = .ok (.kstep k))
    (dest : k.d = .s d) : mget (reopened asid step now key s).waves key = some (advance (setS { w with arv := false } d.toNat (now + 1))) := by
  rw [reopened, finishKstep, mget_modWave, if_pos rfl, syncWrite_of_ne_zero_waves (mget_modRegion hc hr _) step (add_one_ne_zero room), modRegion_waves, hw]
  simp only [Option.map_some, arv, live, word, dest, putS, Bool.false_eq_true, not_false_eq_true, and_self, if_true]

theorem syncWord_mset (c : Ctx) (a : Nat) (x : Word64) : syncWord { c with sync := mset 0 c.sync (a / 8 * 8) x } a = x := by
  rw [syncWord, mgetD_mset, if_pos rfl]

end

end Sys2Proof.Machine
end

section
/-! SUPPORT. The events of a core, put together: the start of a clause, a POLL, a step filed, and all of them. -/
namespace Sys2Proof.Machine

/-- CLAUSE_START: the choice of R68. -/
theorem clauseStart_choice (core : Nat) (s : State) :
    (∀ v, chosen s core = some v → viewOf s v.key = some v ∧ v.b.core = some core ∧ eligible s v = true ∧
      ∀ key u, viewOf s key = some u → u.b.core = some core → eligible s u = true →
        let aged := fun (x : View) => x.w.aged = true ∨ 2048 ≤ x.w.age
        (aged u → aged v ∧ u.w.age ≤ v.w.age) ∧
        (¬ aged v → v.g.d.prio ≤ u.g.d.prio ∧ (v.g.d.prio = u.g.d.prio → v.w.backoff ≤ u.w.backoff ∧
          (v.w.backoff = u.w.backoff → (v.w.behind = true → u.w.behind = true) ∧ (v.w.behind = u.w.behind → u.w.age ≤ v.w.age))))) ∧
    (chosen s core = none → (∀ key u, viewOf s key = some u → u.b.core = some core → eligible s u = false) ∧ exec (.clauseStart ⟨core, false⟩) s = .next s) := by
  refine ⟨fun v h => ?_, fun h => ⟨fun key u hu hcore => eligible_of_chosen_eq_none h hu hcore, execClauseStart_of_none h false⟩⟩
  obtain ⟨view, onCore, elig, first⟩ := chosen_law h
  refine ⟨view, onCore, elig, fun key u hu hcore helig => ?_⟩
  obtain ⟨aged, young⟩ := first key u hu hcore helig
  simp only [← Bool.not_eq_true, agedWave_iff] at aged young
  exact ⟨aged, young⟩

/-- CLAUSE_START: the clause of the chosen wave starts, or faults. -/
theorem clauseStart_starts (core : Nat) (v : View) (s : State) (h : chosen s core = some v) :
    (∀ hd words, fetchClause s v = .ok hd words →
      ∃ t, exec (.clauseStart ⟨core, false⟩) s = .next t ∧ mget t.waves v.key = some (startedAt hd words v.w) ∧
        (∀ k, k ≠ v.key → mget t.waves k = mget s.waves k) ∧ t.blocks = s.blocks ∧ t.ctxs = s.ctxs ∧ t.tags = s.tags ∧
        words.length = hd.nw + 1 ∧ checkClause hd v.w.allot words = none ∧
        (hd.thc = 15 ∨ v.w.oc.cpy ≤ hd.thc) ∧ (hd.thm = 15 ∨ v.w.oc.mtx ≤ hd.thm) ∧ (hd.thg = 15 ∨ v.w.oc.gat ≤ hd.thg) ∧ (hd.ths = 15 ∨ v.w.oc.st ≤ hd.ths)) ∧
    v.w.ended = false ∧ v.w.clause = none ∧ v.b.life = .running ∧ v.b.core = some core := by
  obtain ⟨-, onCore, elig, -⟩ := chosen_law h
  obtain ⟨run, ended, clause, thresholds⟩ := eligible_parts elig
  refine ⟨fun hd words ok => ?_, ended, clause, run, onCore⟩
  obtain ⟨t, next, wave, others, blocks, ctxs, tags⟩ := execClauseStart_started h ok
  obtain ⟨length, legal⟩ := fetchClause_ok ok
  exact ⟨t, next, wave, others, blocks, ctxs, tags, length, legal, thresholdsHold_of_ok ok thresholds⟩

/-- POLL_ATTEMPT (R71). -/
theorem pollAttempt_law (wave : Nat) (v : View) (s : State) (h : viewOf s wave = some v) (p : PollState) (hp : v.w.poll = some p) (left : p.left = 0)
    (run : v.b.life = .running) (quantum : holdsQuantum s v.g.asid = true) (stop : v.w.stop = false) (esc : escalating s v.w.blk = false)
    (rec : recording v.c v.b.gid = false) (rep : replaying v.c v.b.gid = false) :
    let x := readVar v.c p.var p.w32
    let holds := if p.cge then p.value.toNat ≤ x.toNat else x = p.value
    let w := { v.w with qops := v.w.qops + 1 }
    let level := Min.min 15 (v.w.backoff + 1)
    let failed := putWave wave { w with backoff := level, poll := some { p with fails := p.fails + 1, left := 2 ^ (level + 4) } } s
    (holds → exec (.pollAttempt wave) s = .next (putWave wave (advance (putS p.dest x { w with poll := none, backoff := 0 })) s)) ∧
    (¬ holds → p.fails < 15 → exec (.pollAttempt wave) s = .next failed) ∧
    (¬ holds → 15 ≤ p.fails → exec (.pollAttempt wave) s = .next { failed with blocks := mput s.blocks v.w.blk { v.b with escal := some (v.b.escal.getD v.w.idx) } }) := by
  intro x holds w level failed
  obtain rfl := viewOf_key h
  have due : exec (.pollAttempt v.key) s = .next (attempt { v with w := w } p (putWave v.key w s)) :=
    execPollAttempt_of_due h hp left run quantum stop esc rec rep
  have wave : mget (putWave v.key w s).waves v.key = some w := mget_mput_same _ _ _
  have ctx : mget (putWave v.key w s).ctxs v.g.asid = some v.c := viewOf_ctx (s := s) h
  have fails (not : ¬ holds) : pollHolds p.cge x p.value = false := by
    rw [← Bool.not_eq_true, pollHolds_iff]
    exact not
  refine ⟨fun yes => ?_, fun not few => ?_, fun not many => ?_⟩
  · rw [due, attempt_of_holds (v := { v with w := w }) wave ctx ((pollHolds_iff _ _ _).mpr yes), putWave_putWave]
  · rw [due, attempt_of_fails (v := { v with w := w }) wave ctx (fails not) few, putWave_putWave]
    rfl
  · rw [due, attempt_of_escalates (v := { v with w := w }) wave ctx (viewOf_block (v := v) (s := s) h) (fails not) many, putWave_putWave]
    rfl

/-- STEP_FILING of a filed step (R258, R261). -/
theorem stepFiling_law {asid step key : Nat} {ws : List Word64} {rest : List (Nat × List Word64)} {c : Ctx} {r : Region} {xs : List Filed} {s t u : State}
    (hc : mget s.ctxs asid = some c) (hr : mget c.regions step = some r) (first : r.ksteps = (key, ws) :: rest) (idle : r.readers = 0)
    (journal : readJournal asid key (r.entries.filter (fun e => e.step == some (syncWord c step))) [] s = some (xs, t))
    (filed : fileAll asid key (kvDesc ws) xs t = some u) (room : (syncWord c step).toNat + 1 < 2 ^ 64)
    {cu : Ctx} (hcu : mget u.ctxs asid = some cu) (hru : mget cu.regions step = some r) :
    (servedOp key step u = none → exec (.stepFiling asid ⟨step, false⟩) s = .next s) ∧
    ∀ x, servedOp key step u = some x → ∃ z cz, exec (.stepFiling asid ⟨step, false⟩) s = .next z ∧ mget z.ctxs asid = some cz ∧
      syncWord cz step = syncWord c step + 1 ∧
      mget cz.regions step = some { r with entries := r.entries.filter (fun e => e.step != some (syncWord c step)), ksteps := rest } ∧
      ∀ w k d, mget u.waves key = some w → w.arv = true → w.ended = false → fetchInstr w = .ok (.kstep k) → k.d = .s d →
        mget z.waves key = some (advance (setS { w with arv := false } d.toNat (syncWord c step + 1))) := by
  have next : exec (.stepFiling asid ⟨step, false⟩) s = .next ((reopen asid step (syncWord c step) key u).getD s) :=
    execStepFiling_of_filed hc hr first idle journal filed
  refine ⟨fun held => by rw [next, reopen_eq, held]; rfl, fun x served => ?_⟩
  obtain ⟨cx, hcx, logOnly⟩ := servedOp_logOnly served hcu
  have hrx : mget cx.regions step = some r := by rw [logOnly]; exact hru
  refine ⟨reopened asid step (syncWord c step) key x, _, by rw [next, reopen_eq, served]; rfl, reopened_ctx hcx hrx room, syncWord_mset _ step _, ?_,
    fun w k d hw arv live word dest => reopened_wave hcx hrx room (by rw [servedOp_frame served]; exact hw) arv live word dest⟩
  rw [mget_mput_same, filedRegion, first]
  rfl

/-- Settles O55, event by event: the choice by the least rank, the memory side of a clause's start, the one Quern operation that each event makes, and the one region that an arrival and a filing change. -/
theorem coreEvents : Obligations.CoreEvents := by
  refine ⟨clauseStart_choice, ?_, ?_, ?_, ?_, ?_, ?_⟩
  · intro core v s h
    obtain ⟨starts, state⟩ := clauseStart_starts core v s h
    exact ⟨starts, fun ix opc bad => execClauseStart_of_illegal h bad,
      ⟨fun cause det bad => execClauseStart_of_fail h bad, fun hd words ok => execClauseStart_of_spoilt h ok⟩, state⟩
  · intro wave v s h
    refine ⟨execEligibilityAgeExpiry_of_due h, execYieldExpiry_of_over h, pollAttempt_law wave v s h, fun e rest hq run => ⟨fun rec rep logged out => ?_, ?_⟩,
      fun i r hr intact ne drives => mmioTimeout_law (viewOf_wave h) hr intact ne drives⟩
    · exact ⟨fun q item op => released_push h hq run out rec rep op, fun c op => released_dcdec h hq run out rec rep op,
        fun c x op => released_dcset h hq run out rec rep op⟩
    · exact fun ps op logged => ⟨sideLog_store_ok h hq run logged op, sideLog_store_pending h hq run logged op⟩
  · intro asid gid num wave ordinal addr global own c s hc
    refine ⟨fun rec rep => quernOp_plain hc rec rep num wave ordinal addr global own,
      fun l hl rec room hnum hwave => quernOp_recorded hc hl rec room hnum hwave ordinal addr global own, fun l hl rep => ?_⟩
    intro next
    have same : next = nextQuern s l addr global := rfl
    rw [same]
    refine ⟨quernOp_unconstrained hc hl rep num wave ordinal own, fun i kept next => ?_⟩
    intro its
    exact ⟨quernOp_consumes hc hl rep num wave ordinal own kept next, quernOp_held hc hl rep num wave ordinal own kept next⟩
  · exact fun key addr v s h => servedOp_of_viewOf h
  · intro asid step core c r e s hc hr opened next written
    have due : exec (.appendArrival asid step core) s = .next (((servedOp e.wave step s).map (arrive asid step c e)).getD s) :=
      execAppendArrival_of_due hc hr opened next written
    refine ⟨fun held => by rw [due, held, Option.map_none, Option.getD_none], fun x served => ?_⟩
    rw [served, Option.map_some, Option.getD_some] at due
    exact ⟨_, due, arrive_law hc hr served⟩
  · intro asid step key ws rest c r xs s t u hc hr first idle _ now journal filed room ⟨cu, hcu, hru⟩
    exact stepFiling_law hc hr first idle journal filed room hcu hru

end Sys2Proof.Machine
end

section
/-! SUPPORT. A CK 5 record whose tick is reached (R58): it holds the tick count, and asks for its placement unless a request in the queue resumes its block already. -/
namespace Sys2Proof.Machine
open Sys2Proof

/-! ### A group of one block asks once -/

theorem satisfy_of_mget {block : Nat} {r : PhaseRec} {b : Block} {s : State} (hr : mget s.phaseQ block = some r) (hb : mget s.blocks block = some b) (x : Word64) :
    satisfy block x s = askGroup b.gid b.num { s with phaseQ := mput s.phaseQ block { r with rval := some x } } := by
  simp only [satisfy, hr, hb]

theorem groupBlocks_of_one {d : Desc} (one : d.gs = 1) (num : Nat) : groupBlocks d (groupOf d num) = [num] := by
  simp [groupBlocks, groupOf, one]

/-- The record of a block that is a group by itself, once it holds its value, asks for placement where no request resumes the block yet. -/
theorem askGroup_of_one {gid num : Nat} {g : Grid} {r : PhaseRec} {s : State} (hg : mget s.grids gid = some g) (one : g.d.gs = 1)
    (hr : mget s.phaseQ (blockKey gid num) = some r) (holds : r.rval.isSome = true) :
    askGroup gid num s =
      if s.placeQ.any (fun e => e.2.kind.resumes [blockKey gid num]) then s else enqueue (.resume [blockKey gid num]) gid g.d.prio s := by
  have ready : groupReady s gid (groupOf g.d num) g.d = true := by simp [groupReady, groupBlocks_of_one one, hr, holds]
  unfold askGroup
  rw [hg]
  simp only [ready, groupBlocks_of_one one, List.map_cons, List.map_nil, List.filter_cons, hr, Option.isSome_some, if_true, List.filter_nil, Bool.true_and]
  cases s.placeQ.any (fun e => e.2.kind.resumes [blockKey gid num]) <;> rfl

/-! ### The event -/

section
variable {block : Nat} {b : Block} {r : PhaseRec} {p : PhaseReq} {g : Grid} {s : State}

theorem execPhaseTimeReached_of_due (hr : mget s.phaseQ block = some r) (hp : r.cond = some p) (kind : p.ck = 5) (waits : r.rval = none)
    (reached : p.cval.toNat ≤ s.time.ticks.toNat) : exec (.phaseTimeReached block) s = .next (satisfy block s.time.ticks s) := by
  change execPhaseTimeReached block s = _
  unfold execPhaseTimeReached
  rw [hr]
  simp only [hp]
  exact if_pos ⟨kind, waits, reached⟩

variable (hr : mget s.phaseQ block = some r) (hb : mget s.blocks block = some b) (hp : r.cond = some p) (kind : p.ck = 5) (waits : r.rval = none)
  (reached : p.cval.toNat ≤ s.time.ticks.toNat)
include hr hb hp kind waits reached

/-- PHASE_TIME_REACHED for a block that is a group by itself: the queue takes one request for it, and not a second. -/
theorem phaseTimeReached_of_one (hg : mget s.grids b.gid = some g) (one : g.d.gs = 1) (key : block = blockKey b.gid b.num) :
    let t := { s with phaseQ := mput s.phaseQ block { r with rval := some s.time.ticks } }
    exec (.phaseTimeReached block) s = .next
      (if s.placeQ.any (fun e => e.2.kind.resumes [block]) then t else enqueue (.resume [block]) b.gid g.d.prio t) := by
  intro t
  have held : mget t.phaseQ (blockKey b.gid b.num) = some { r with rval := some s.time.ticks } := by rw [← key]; exact mget_mput_same _ _ _
  rw [execPhaseTimeReached_of_due hr hp kind waits reached, satisfy_of_mget hr hb, askGroup_of_one (s := t) hg one held rfl, ← key]

/-- The second clause of O57, with what it leaves out: no request in the queue resumes the block yet. -/
theorem phaseTimeReached_asks (unasked : s.placeQ.any (fun e => e.2.kind.resumes [block]) = false) :
    ∃ t, exec (.phaseTimeReached block) s = .next t ∧ mget t.phaseQ block = some { r with rval := some s.time.ticks } ∧ t.blocks = s.blocks ∧ t.waves = s.waves ∧
      ∀ g, mget s.grids b.gid = some g → g.d.gs = 1 → block = blockKey b.gid b.num →
        mget t.placeQ s.nextReq = some { kind := .resume [block], gid := b.gid, prio := g.d.prio, entered := s.time.cycle, aged := false } := by
  refine ⟨_, execPhaseTimeReached_of_due hr hp kind waits reached, ?_, ?_, ?_, fun g hg one key => ?_⟩
  · rw [satisfy_of_mget hr hb, askGroup_frame]
    exact mget_mput_same _ _ _
  · rw [satisfy_frame]
  · rw [satisfy_frame]
  · have asked := phaseTimeReached_of_one hr hb hp kind waits reached hg one key
    rw [execPhaseTimeReached_of_due hr hp kind waits reached, unasked] at asked
    rw [Host.Outcome.next.inj asked]
    exact mget_mput_same _ _ _

/-- Where a request resumes the block already, the placement queue stays as it is. -/
theorem phaseTimeReached_placeQ_of_asked (hg : mget s.grids b.gid = some g) (one : g.d.gs = 1) (key : block = blockKey b.gid b.num)
    (asked : s.placeQ.any (fun e => e.2.kind.resumes [block]) = true) {t : State} (ht : exec (.phaseTimeReached block) s = .next t) : t.placeQ = s.placeQ := by
  rw [phaseTimeReached_of_one hr hb hp kind waits reached hg one key, asked] at ht
  rw [← Host.Outcome.next.inj ht]
  rfl

end

/-! ### A record without its value whose block a request resumes already -/

/-- A PHASE on the tick counter, whose tick is the first. -/
def askedReq : PhaseReq := { ck := 5, cge := false, w32 := false, ca := 0, cval := 0, ord := 0 }
def askedRec : PhaseRec := { inv := false, waves := [], cond := some askedReq, gen := 0, rval := none, poller := none }
def askedBlock : Block := { freshBlock 0 0 with life := .phase }

/-- Block 0 of a grid whose groups have one block each; request 0 resumes it, and the next request is to be number 1. -/
def askedState : State :=
  { State.reset with
    grids := [(0, overrunGrid)]
    blocks := [(0, askedBlock)]
    phaseQ := [(0, askedRec)]
    placeQ := [(0, { kind := .resume [0], gid := 0, prio := 0, entered := 0, aged := false })]
    nextReq := 1 }

/-- The tick is reached, and no request 1 enters the queue. -/
theorem phaseTimeReached_askedState {t : State} (h : exec (.phaseTimeReached 0) askedState = .next t) : mget t.placeQ askedState.nextReq = none := by
  have same : t.placeQ = askedState.placeQ :=
    phaseTimeReached_placeQ_of_asked (s := askedState) (r := askedRec) (b := askedBlock) (p := askedReq) (g := overrunGrid) rfl rfl rfl rfl rfl (Nat.zero_le _) rfl rfl (by decide) (by decide) h
  rw [same]
  rfl

end Sys2Proof.Machine
end

section
namespace Sys2Proof
open Sys2Proof.Machine

/-- Refutes O57, in its second clause: of a CK 5 record whose tick is reached it says that a request to resume the block enters the placement queue, for every queue. The model asks once (R58, R59, R65): in `askedState` request 0 resumes the block already, which the statement does not exclude, and no second one enters. Where no request resumes the block yet, the clause holds (`phaseTimeReached_asks`). -/
theorem not_phaseAndQuantumEvents : ¬ Obligations.PhaseAndQuantumEvents := by
  intro h
  obtain ⟨-, timeReached, -⟩ := h
  obtain ⟨t, next, -, -, -, asks⟩ := timeReached 0 askedBlock askedRec askedReq askedState rfl rfl rfl rfl rfl (Nat.zero_le _)
  have entered := asks overrunGrid rfl rfl rfl
  rw [phaseTimeReached_askedState next] at entered
  exact absurd entered (by simp)

end Sys2Proof
end

section
/-! SUPPORT. What a write of a sync word changes (R52, R78, R105): the word itself, the phase records and placement requests that wait for it, and, where a counter falls to 0, the blocks that start by it. -/
namespace Sys2Proof.Machine

/-- A block that becomes runnable starts, asks for placement or is noted in its grid: contexts, memory and tags stay. -/
theorem blockRunnable_frame (gid num : Nat) (s : State) :
    let t := blockRunnable gid num s
    t = { s with grids := t.grids, blocks := t.blocks, waves := t.waves, placeQ := t.placeQ, nextReq := t.nextReq, idle := t.idle } := by
  fun_cases blockRunnable gid num s
  case case3 =>
    unfold startBlock startWaves modBlock
    split <;> rfl
  all_goals rfl

theorem foldl_blockRunnable_frame (l : List (Nat × Nat)) (s : State) :
    let t := l.foldl (fun t p => blockRunnable p.1 p.2 t) s
    t = { s with grids := t.grids, blocks := t.blocks, waves := t.waves, placeQ := t.placeQ, nextReq := t.nextReq, idle := t.idle } := by
  induction l generalizing s with
  | nil => rfl
  | cons p rest ih =>
    have first := blockRunnable_frame p.1 p.2 s
    have others := ih (blockRunnable p.1 p.2 s)
    dsimp only [List.foldl_cons] at first others ⊢
    rw [first] at others
    rw [first]
    exact others

@[simp] theorem wakePhases_tags (asid : Nat) (s : State) : (wakePhases asid s).tags = s.tags := by rw [wakePhases_frame]

section
variable {asid : Nat} {c : Ctx} {s : State}

theorem modCtx_of_some (hc : mget s.ctxs asid = some c) (f : Ctx → Ctx) : modCtx asid f s = { s with ctxs := mput s.ctxs asid (f c) } := by
  simp only [modCtx, hc]

/-- The context is the written one, and no other context changes. -/
theorem syncWrite_ctxs (hc : mget s.ctxs asid = some c) (a : Nat) (x : Word64) :
    (syncWrite asid a x s).ctxs = mput s.ctxs asid { c with sync := mset 0 c.sync (a / 8 * 8) x } := by
  simp only [syncWrite, hc, wakePhases_ctxs]
  split
  · rw [foldl_blockRunnable_frame, modCtx_of_some hc]
  · rw [modCtx_of_some hc]

theorem syncWrite_tags (hc : mget s.ctxs asid = some c) (a : Nat) (x : Word64) : (syncWrite asid a x s).tags = s.tags := by
  simp only [syncWrite, hc, wakePhases_tags]
  split
  · rw [foldl_blockRunnable_frame, modCtx_tags]
  · exact modCtx_tags _ _ _

/-- Only a fall to 0 makes a block runnable (R52). -/
theorem syncWrite_of_no_fall (hc : mget s.ctxs asid = some c) {a : Nat} {x : Word64} (h : syncWord c a = 0 ∨ x ≠ 0) :
    syncWrite asid a x s = wakePhases asid (modCtx asid (fun c => { c with sync := mset 0 c.sync (a / 8 * 8) x }) s) := by
  have no : ¬ (syncWord c a ≠ 0 ∧ x = 0) := fun fall => h.elim fall.1 (fun ne => ne fall.2)
  simp only [syncWrite, hc, if_neg no]

/-- A word of sync space after the write of one: the eight bytes at the address, and no others (R123). -/
theorem syncWord_put (c : Ctx) (a b : Nat) (x : Word64) :
    syncWord { c with sync := mset 0 c.sync (a / 8 * 8) x } b = if b / 8 = a / 8 then x else syncWord c b := by
  have same : b / 8 * 8 = a / 8 * 8 ↔ b / 8 = a / 8 := by omega
  simp only [syncWord, mgetD_mset, same]

/-- Without a ring in the context a write is performed as it stands (R322). -/
theorem plainWrite_of_no_rings (hc : mget s.ctxs asid = some c) (none : c.rings = []) (a : Nat) (x : Word64) : plainWrite asid a x s = syncWrite asid a x s := by
  simp only [plainWrite, hc, ringWord, none, List.find?_nil]

theorem counterDec_of_ne_zero (hc : mget s.ctxs asid = some c) {a : Nat} (h : syncWord c a ≠ 0) (none : c.rings = []) :
    counterDec asid a s = syncWrite asid a (syncWord c a - 1) s := by
  simp only [counterDec, hc, if_neg h, plainWrite_of_no_rings hc none]

end

end Sys2Proof.Machine
end

section
namespace Sys2Proof
open Sys2Proof.Machine

/-- Settles O30: the written context is the old one but for one word, and only a fall to 0 reaches waves and blocks. -/
theorem syncWriteEffects : Obligations.SyncWriteEffects := by
  intro asid a x c s hc _
  refine ⟨⟨_, by rw [syncWrite_ctxs hc, mget_mput_same], rfl, fun b => syncWord_put c a b x⟩, fun k other => by rw [syncWrite_ctxs hc, mget_mput_ne _ _ other],
    syncWrite_mem _ _ _ _, syncWrite_tags hc a x, fun noFall => ?_, counterDec_zero hc, fun ne none => counterDec_of_ne_zero hc ne none⟩
  rw [syncWrite_of_no_fall hc noFall, wakePhases_waves, wakePhases_blocks]
  exact ⟨modCtx_waves _ _ _, modCtx_blocks _ _ _⟩

/-- Settles O48: every register, map and set of the reset state is read off its definition. -/
theorem resetState : Obligations.ResetState := by
  refine ⟨rfl, rfl, rfl, rfl, rfl, rfl, rfl, rfl, rfl, rfl, rfl, rfl, rfl, rfl, rfl, fun _ => rfl, fun _ => rfl, rfl, rfl, fun _ _ => ⟨rfl, rfl⟩, rfl, ?_, ?_, ?_, reset_memOk⟩
  · intro p l trained
    cases trained
  · exact fun _ => ⟨rfl, rfl, rfl, rfl⟩
  · exact fun _ => rfl

end Sys2Proof
end

section
/-! SUPPORT. A write of a launch ring's base (R292) while completions are held back: the count of completions restarts, the ring has room, and the held completions are written into it at once (log 59). -/
namespace Sys2Proof.Machine

/-- A function whose completion ring of two entries is full, and which holds a third completion back. -/
def fullRing : Vf := { dfltVf with lrs := 1, written := 2, held := [(7, 0, 0)] }

/-- Function 0 has the full ring. -/
def fullRingState : State := { State.reset with vfs := [(0, fullRing)] }

/-- The state with a base of 0 written and both counts at 0, before any completion is released. -/
def restartedState : State := { fullRingState with vfs := mput fullRingState.vfs 0 { fullRing with lrb := 0, fetched := 0, written := 0 } }

theorem ringFull_fullRing : ringFull fullRing = true := by decide
theorem ringFull_restartedState : ringFull (vfAt restartedState 0) = false := by decide

/-- The write of LRB leaves what the registers take, and then writes the completions held back. -/
theorem exec_write_lrb (n x : Nat) (s : State) : exec (.registerWrite (.vf n) 0x00 x) s =
    .next (releaseHeld n (vfAt s n).held { s with vfs := mput s.vfs n { vfAt s n with lrb := x % 2 ^ 64 / 64 * 64, fetched := 0, written := 0 } }) := rfl

/-- What does hold of a write of LRB: where no completion is held back, the register and the two counts change, and nothing else. -/
theorem exec_write_lrb_of_none_held {n : Nat} {s : State} (none : (vfAt s n).held = []) {x : Nat} (hx : x < 2 ^ 64) : exec (.registerWrite (.vf n) 0x00 x) s =
    .next { s with vfs := mput s.vfs n { vfAt s n with lrb := x / 64 * 64, fetched := 0, written := 0 } } := by
  rw [exec_write_lrb, none, Nat.mod_eq_of_lt hx]
  rfl

/-- A completion held back alone is written where the ring has room, and vector 0 is raised. -/
theorem releaseHeld_one_out {n : Nat} {s : State} (room : ringFull (vfAt s n) = false) (tag kind code : Nat) :
    (releaseHeld n [(tag, kind, code)] s).out = s.out ++ [.msix n 0] := by
  simp only [releaseHeld, room, Bool.false_eq_true, if_false, writeCompletion, emit_out]
  rw [physPut_frame]

/-- In the full ring's state the write raises vector 0: the held completion is written. -/
theorem write_lrb_fullRingState {t : State} (h : exec (.registerWrite (.vf 0) 0x00 0) fullRingState = .next t) : t.out = [.msix 0 0] := by
  have next : exec (.registerWrite (.vf 0) 0x00 0) fullRingState = .next (releaseHeld 0 [(7, 0, 0)] restartedState) := exec_write_lrb 0 0 fullRingState
  have same : releaseHeld 0 [(7, 0, 0)] restartedState = t := Host.Outcome.next.inj (next.symm.trans h)
  rw [← same, releaseHeld_one_out ringFull_restartedState]
  rfl

end Sys2Proof.Machine
end

section
namespace Sys2Proof
open Sys2Proof.Machine

/-- Refutes O59, in its clause on the registers: it says that a write of LRB sets the base and the two counts and changes nothing else, in every state. In `fullRingState` a completion is held back because the ring is full; the write restarts the count, the ring has room, and the model writes that completion and raises its vector (R292, log 59). Where no completion is held back the clause holds (`exec_write_lrb_of_none_held`). -/
theorem not_hostInputs : ¬ Obligations.HostInputs := by
  intro h
  obtain ⟨-, -, -, -, -, -, registers, -⟩ := h
  obtain ⟨-, -, -, -, -, -, -, -, -, -, -, -, -, -, lrb, -⟩ := registers 0 0 fullRingState (by decide)
  exact absurd (write_lrb_fullRingState lrb) (by decide)

end Sys2Proof
end

section
/-! SUPPORT. Barriers (R74, R77, R93 to R95): the members of a block and the highest of them, what completes a barrier and what leaves it waiting, and what an arrival records. -/
namespace Sys2Proof.Machine

/-! ### Members -/

/-- The highest number of a list stands in it, and none is higher. -/
theorem foldl_max_of_ne_nil {l : List Nat} (h : l ≠ []) : l.foldl max 0 ∈ l ∧ ∀ i ∈ l, i ≤ l.foldl max 0 := by
  cases l with
  | nil => exact absurd rfl h
  | cons x xs =>
    rw [List.foldl_cons, Nat.zero_max]
    exact List.max?_eq_some_iff.mp List.max?_cons'

section
variable {α : Type}

/-- What stood in a map stands there after a write, unless it was the entry written over. -/
theorem mem_mput_of_mem {m : List (Nat × α)} {e : Nat × α} (h : e ∈ m) (k : Nat) (x : α) : e ∈ mput m k x ∨ (e.1 = k ∧ mget m k = some e.2) := by
  induction m with
  | nil => cases h
  | cons p rest ih =>
    obtain ⟨j, y⟩ := p
    by_cases low : k < j
    · left
      simpa only [mput, if_pos low] using List.mem_cons_of_mem _ h
    · by_cases same : k = j
      · subst same
        rcases List.mem_cons.mp h with rfl | old
        · exact .inr ⟨rfl, by simp [mget]⟩
        · left
          simpa only [mput, if_neg low, if_true] using List.mem_cons_of_mem _ old
      · have passed : mput ((j, y) :: rest) k x = (j, y) :: mput rest k x := by simp only [mput, if_neg low, if_neg same]
        have read : mget ((j, y) :: rest) k = mget rest k := by simp only [mget, if_neg (Ne.symm same)]
        rw [passed, read]
        rcases List.mem_cons.mp h with rfl | old
        · exact .inl List.mem_cons_self
        · exact (ih old).imp (List.mem_cons_of_mem _) id

end

/-- The indices of a block's present waves. -/
def membersOf (s : State) (bk : Nat) : List Nat := (presentOf s bk).map (fun e => e.2.idx)

theorem mem_membersOf {s : State} {bk i : Nat} : i ∈ membersOf s bk ↔ ∃ e ∈ s.waves, blockOfWave e.1 = bk ∧ e.2.ended = false ∧ e.2.idx = i := by
  simp only [membersOf, presentOf, wavesOf, List.mem_map, List.mem_filter, beq_iff_eq, Bool.not_eq_true', and_assoc]

/-- A wave that keeps its index and does not retire leaves the members of every block as they are. -/
theorem mem_membersOf_putWave {s : State} {k : Nat} {w u : Wave} (hw : mget s.waves k = some w) (idx : u.idx = w.idx) (ended : u.ended = w.ended) (bk i : Nat) :
    i ∈ membersOf (putWave k u s) bk ↔ i ∈ membersOf s bk := by
  simp only [mem_membersOf, putWave_waves]
  constructor
  · rintro ⟨e, he, block, live, rfl⟩
    rcases mem_mput he with rfl | old
    · exact ⟨(k, w), mem_of_mget hw, block, ended ▸ live, idx.symm⟩
    · exact ⟨e, old, block, live, rfl⟩
  · rintro ⟨e, he, block, live, rfl⟩
    rcases mem_mput_of_mem he k u with kept | ⟨key, read⟩
    · exact ⟨e, kept, block, live, rfl⟩
    · have same : w = e.2 := Option.some.inj (hw.symm.trans read)
      exact ⟨(k, u), mem_of_mget (mget_mput_same _ _ _), key ▸ block, by rw [ended, same, live], by rw [idx, same]⟩

/-- Two lists of the same numbers are empty together. -/
theorem ne_nil_congr {l m : List Nat} (h : ∀ i, i ∈ l ↔ i ∈ m) : l ≠ [] ↔ m ≠ [] := by
  simp only [ne_eq, List.eq_nil_iff_forall_not_mem, h]

/-! ### Block barriers -/

section
variable {s : State} {bk n : Nat} {b : Block}

/-- A barrier that a member has not reached goes on waiting. -/
theorem checkBar_of_missing (hb : mget s.blocks bk = some b) (missing : membersOf s bk = [] ∨ ∃ i ∈ membersOf s bk, i ∉ (mgetD b.bars n dfltBar).arrived) :
    checkBar bk n s = s := by
  simp only [checkBar, hb]
  refine if_neg ?_
  rintro ⟨some_, -, all⟩
  rcases missing with none | ⟨i, member, absent⟩
  · exact some_ none
  · exact absent (List.contains_iff_mem.mp (List.all_eq_true.mp all i member))

/-- A barrier as its generation ends: none has arrived in the next one, and one member is elected. -/
def nextBar (x : Bar) (elected : Nat) : Bar := { gen := x.gen + 1, arrived := [], elected := elected }

/-- A barrier that every member has reached ends its generation, and the highest member is elected. -/
theorem checkBar_of_all (hb : mget s.blocks bk = some b) (some_ : membersOf s bk ≠ []) (all : ∀ i ∈ membersOf s bk, i ∈ (mgetD b.bars n dfltBar).arrived) :
    checkBar bk n s = putBlock bk { b with bars := mput b.bars n (nextBar (mgetD b.bars n dfltBar) ((membersOf s bk).foldl max 0)) } s := by
  have arrived : (mgetD b.bars n dfltBar).arrived ≠ [] := by
    obtain ⟨i, member⟩ := List.exists_mem_of_ne_nil _ some_
    exact List.ne_nil_of_mem (all i member)
  have complete : (membersOf s bk).all (fun i => (mgetD b.bars n dfltBar).arrived.contains i) = true :=
    List.all_eq_true.mpr (fun i member => List.contains_iff_mem.mpr (all i member))
  simp only [checkBar, hb]
  rw [if_pos ⟨some_, arrived, complete⟩, modBlock_of_some hb]
  rfl

end

/-! ### Cluster barriers -/

section
variable {s : State} {bk gid grp n : Nat} {b : Block} {g : Grid}

/-- The blocks of a group that have no status. -/
def liveBlocks (g : Grid) (grp : Nat) : List Nat := (groupBlocks g.d grp).filter (fun m => !hasStatus g m)

/-- A cluster barrier changes grids and blocks alone. -/
theorem checkCluster_frame (gid grp n : Nat) (s : State) :
    let t := checkCluster gid grp n s
    t = { s with grids := t.grids, blocks := t.blocks } := by
  have blocks (nums : List Nat) (f : Block → Block) (t : State) : nums.foldl (fun t m => modBlock (blockKey gid m) f t) t =
      { t with blocks := (nums.foldl (fun t m => modBlock (blockKey gid m) f t) t).blocks } := by
    induction nums generalizing t with
    | nil => rfl
    | cons m rest ih =>
      have one : modBlock (blockKey gid m) f t = { t with blocks := (modBlock (blockKey gid m) f t).blocks } := by
        unfold modBlock
        split <;> rfl
      have more := ih (modBlock (blockKey gid m) f t)
      rw [List.foldl_cons]
      rw [one] at more ⊢
      exact more
  fun_cases checkCluster gid grp n s
  case case1 => rfl
  case case2 g hg nums x h y s1 =>
    rw [blocks]
  case case3 => rfl

/-- A cluster barrier that a live block has not reached goes on waiting. -/
theorem checkCluster_of_missing (hg : mget s.grids gid = some g) (missing : ∃ m ∈ liveBlocks g grp, f2Of g.d m ∉ (mgetD g.cbars (grp * 4 + n) dfltBar).arrived) :
    checkCluster gid grp n s = s := by
  obtain ⟨m, live, absent⟩ := missing
  simp only [checkCluster, hg]
  refine if_neg ?_
  rintro ⟨-, -, all⟩
  exact absent (List.contains_iff_mem.mp (List.all_eq_true.mp all m live))

/-- A cluster barrier that every live block has reached ends its generation, and the highest of them is elected. -/
theorem checkCluster_of_all (hg : mget s.grids gid = some g) (some_ : liveBlocks g grp ≠ [])
    (all : ∀ m ∈ liveBlocks g grp, f2Of g.d m ∈ (mgetD g.cbars (grp * 4 + n) dfltBar).arrived) :
    (checkCluster gid grp n s).grids = mput s.grids gid
      { g with cbars := mput g.cbars (grp * 4 + n) (nextBar (mgetD g.cbars (grp * 4 + n) dfltBar) (((liveBlocks g grp).map (f2Of g.d)).foldl max 0)) } := by
  have arrived : (mgetD g.cbars (grp * 4 + n) dfltBar).arrived ≠ [] := by
    obtain ⟨m, live⟩ := List.exists_mem_of_ne_nil _ some_
    exact List.ne_nil_of_mem (all m live)
  have complete : (liveBlocks g grp).all (fun m => (mgetD g.cbars (grp * 4 + n) dfltBar).arrived.contains (f2Of g.d m)) = true :=
    List.all_eq_true.mpr (fun m live => List.contains_iff_mem.mpr (all m live))
  have grids (nums : List Nat) (f : Block → Block) (t : State) : (nums.foldl (fun t m => modBlock (blockKey gid m) f t) t).grids = t.grids := by
    induction nums generalizing t with
    | nil => rfl
    | cons m rest ih => rw [List.foldl_cons, ih, modBlock_grids]
  simp only [checkCluster, hg]
  rw [if_pos ⟨some_, arrived, complete⟩, grids]
  rfl

/-- A block that a member keeps waiting has not arrived. -/
theorem checkBlockArrival_of_missing (hb : mget s.blocks bk = some b) (hg : mget s.grids b.gid = some g)
    (missing : ∃ i ∈ membersOf s bk, i ∉ mgetD b.cArr n []) : checkBlockArrival bk n s = s := by
  obtain ⟨i, member, absent⟩ := missing
  simp only [checkBlockArrival, hb, hg]
  refine if_neg ?_
  rintro ⟨-, all⟩
  exact absent (List.contains_iff_mem.mp (List.all_eq_true.mp all i member))

/-- A grid in whose group a block has arrived. -/
def blockArrived (g : Grid) (num n : Nat) : Grid :=
  { g with cbars := mmod g.cbars (groupOf g.d num * 4 + n) dfltBar (fun x => { x with arrived := sadd x.arrived (f2Of g.d num) }) }

/-- A block all of whose members have arrived is recorded in its group, and the cluster barrier is tested. -/
theorem checkBlockArrival_of_all (hb : mget s.blocks bk = some b) (hg : mget s.grids b.gid = some g) (some_ : membersOf s bk ≠ [])
    (all : ∀ i ∈ membersOf s bk, i ∈ mgetD b.cArr n []) :
    checkBlockArrival bk n s = checkCluster b.gid (groupOf g.d b.num) n { s with grids := mput s.grids b.gid (blockArrived g b.num n) } := by
  have complete : (membersOf s bk).all (fun i => (mgetD b.cArr n []).contains i) = true :=
    List.all_eq_true.mpr (fun i member => List.contains_iff_mem.mpr (all i member))
  have grid : modGrid b.gid (fun u => { u with cbars := mmod u.cbars (groupOf g.d b.num * 4 + n) dfltBar (fun x => { x with arrived := sadd x.arrived (f2Of u.d b.num) }) }) s =
      { s with grids := mput s.grids b.gid (blockArrived g b.num n) } := by
    simp only [modGrid, hg]
    rfl
  rw [← grid]
  simp only [checkBlockArrival, hb, hg]
  exact if_pos ⟨some_, complete⟩

/-- The test of a cluster arrival changes grids and blocks alone. -/
theorem checkBlockArrival_frame (bk n : Nat) (s : State) :
    let t := checkBlockArrival bk n s
    t = { s with grids := t.grids, blocks := t.blocks } := by
  fun_cases checkBlockArrival bk n s
  case case3 =>
    dsimp only
    rw [checkCluster_frame]
    unfold modGrid
    split <;> rfl
  all_goals rfl

end

end Sys2Proof.Machine
end

section
/-! SUPPORT. The barrier words (R93 to R95): what an arrival records, what a wave waits for at BAR, BWAIT and DRAIN, and what it takes when it goes on. -/
namespace Sys2Proof.Machine
open Sys2Proof

/-! ### Arrivals -/

section
variable {s : State} {v : View}

theorem viewOf_grid {wave : Nat} (h : viewOf s wave = some v) : mget s.grids v.b.gid = some v.g := (viewOf_eq_some.mp h).2.2.2.1

theorem waveNow_of_view (h : viewOf s v.key = some v) : waveNow s v = v.w := by simp only [waveNow, viewOf_wave h, Option.getD_some]

theorem barAt_block (h : viewOf s v.key = some v) (n : Nat) : barAt s v false n = mgetD v.b.bars n dfltBar := by
  simp only [barAt, barIn, viewOf_block h, Bool.false_eq_true, if_false]

theorem barAt_cluster (h : viewOf s v.key = some v) (n : Nat) : barAt s v true n = mgetD v.g.cbars (groupOf v.g.d v.b.num * 4 + n) dfltBar := by
  simp only [barAt, barIn, viewOf_block h, viewOf_grid h, if_true]

/-- A change of waves changes no barrier. -/
theorem barAt_modWave (k : Nat) (f : Wave → Wave) (s : State) (v : View) (cl : Bool) (n : Nat) : barAt (modWave k f s) v cl n = barAt s v cl n := by
  simp only [barAt, barIn, modWave_blocks, modWave_grids]

/-- The wave as its arrival leaves it: the generation it arrived in is pending. -/
def arrivedWave (v : View) (cl : Bool) (n : Nat) (s : State) : Wave := setPend cl n (barAt s v cl n).gen v.w

theorem pendAt_setPend (cl : Bool) (n g : Nat) (w : Wave) : pendAt (setPend cl n g w) cl n = some g := by
  cases cl <;> exact mget_mput_same _ _ _

/-- The members of a block are those that they were before a wave of it arrived. -/
theorem mem_membersOf_arrived (h : viewOf s v.key = some v) (cl : Bool) (n bk i : Nat) :
    i ∈ membersOf (putWave v.key (arrivedWave v cl n s) s) bk ↔ i ∈ membersOf s bk := by
  refine mem_membersOf_putWave (viewOf_wave h) ?_ ?_ bk i <;> cases cl <;> rfl

/-- A block in which the wave has arrived at a barrier of the block. -/
def blockWithArrival (v : View) (n : Nat) : Block :=
  { v.b with bars := mput v.b.bars n { mgetD v.b.bars n dfltBar with arrived := sadd (mgetD v.b.bars n dfltBar).arrived v.w.idx } }

/-- A block in which the wave has arrived at a cluster barrier. -/
def blockWithClusterArrival (v : View) (n : Nat) : Block := { v.b with cArr := mput v.b.cArr n (sadd (mgetD v.b.cArr n []) v.w.idx) }

/-- The arrival stands in its wave and its block before its barrier is tested. -/
theorem recordArrival_block (h : viewOf s v.key = some v) (n : Nat) : recordArrival v false n s =
    checkBar v.w.blk n (putBlock v.w.blk (blockWithArrival v n) (putWave v.key (arrivedWave v false n s) s)) := by
  have block : mget (putWave v.key (arrivedWave v false n s) s).blocks v.w.blk = some v.b := viewOf_block (s := s) h
  simp only [recordArrival, Bool.false_eq_true, if_false, modWave_of_some (viewOf_wave h)]
  exact congrArg _ (modBlock_of_some block _)

theorem recordArrival_cluster (h : viewOf s v.key = some v) (n : Nat) : recordArrival v true n s =
    checkBlockArrival v.w.blk n (putBlock v.w.blk (blockWithClusterArrival v n) (putWave v.key (arrivedWave v true n s) s)) := by
  have block : mget (putWave v.key (arrivedWave v true n s) s).blocks v.w.blk = some v.b := viewOf_block (s := s) h
  simp only [recordArrival, if_true, modWave_of_some (viewOf_wave h)]
  exact congrArg _ (modBlock_of_some block _)

/-- The test of a block barrier changes blocks alone. -/
theorem checkBar_frame (bk n : Nat) (s : State) : checkBar bk n s = { s with blocks := (checkBar bk n s).blocks } := by
  fun_cases checkBar bk n s
  case case2 =>
    unfold modBlock
    split <;> rfl
  all_goals rfl

theorem recordArrival_waves (h : viewOf s v.key = some v) (cl : Bool) (n : Nat) : (recordArrival v cl n s).waves = mput s.waves v.key (arrivedWave v cl n s) := by
  cases cl
  · rw [recordArrival_block h, checkBar_frame]
    rfl
  · rw [recordArrival_cluster h, checkBlockArrival_frame]
    rfl

/-- An arrival changes its own wave, and no other. -/
theorem mget_recordArrival_waves (h : viewOf s v.key = some v) (cl : Bool) (n k : Nat) :
    mget (recordArrival v cl n s).waves k = if k = v.key then some (arrivedWave v cl n s) else mget s.waves k := by
  rw [recordArrival_waves h, mget_mput]

theorem waveNow_recordArrival (h : viewOf s v.key = some v) (cl : Bool) (n : Nat) : waveNow (recordArrival v cl n s) v = arrivedWave v cl n s := by
  rw [waveNow, mget_recordArrival_waves h, if_pos rfl, Option.getD_some]

/-! ### Waiting and going on -/

/-- The wave goes on past a barrier, the elected member in D and no arrival pending. -/
def goesOnAt (v : View) (cl : Bool) (n : Nat) (d : Operand) (t : State) (x : Nat) : Result :=
  .next (putWave v.key (advance (putS d (BitVec.ofNat 64 x) (clearPend cl n (waveNow t v)))) t)

variable {cl : Bool} {n : Nat}

theorem waitAt_of_pending (pending : stillPending s v cl n = true) (d : Operand) : waitAt v cl n d s = .next s := by
  simp only [waitAt, pending, if_true, hold]

theorem waitAt_of_over (past : stillPending s v cl n = false) (pend : (pendAt (waveNow s v) cl n).isSome = true) (d : Operand) :
    waitAt v cl n d s = goesOnAt v cl n d s (barAt s v cl n).elected := by
  obtain ⟨g, hg⟩ := Option.isSome_iff_exists.mp pend
  simp only [waitAt, past, hg, Bool.false_eq_true, if_false, doneWith, goesOnAt]

theorem waitAt_of_none (none_ : pendAt (waveNow s v) cl n = none) (d : Operand) : waitAt v cl n d s = goesOnAt v cl n d s 0 := by
  have past : stillPending s v cl n = false := by rw [stillPending, none_]; rfl
  simp only [waitAt, past, none_, Bool.false_eq_true, if_false, doneWith, goesOnAt]

/-- The state in which a BAR has arrived: it does not arrive a second time. -/
def arrivedState (v : View) (cl : Bool) (n : Nat) (s : State) : State := modWave v.key (fun w => { w with arv := true }) (recordArrival v cl n s)

theorem waveNow_arrivedState (h : viewOf s v.key = some v) : waveNow (arrivedState v cl n s) v = { arrivedWave v cl n s with arv := true } := by
  rw [waveNow, arrivedState, mget_modWave, if_pos rfl, mget_recordArrival_waves h, if_pos rfl]
  rfl

theorem pendAt_arrivedState (h : viewOf s v.key = some v) :
    pendAt (waveNow (arrivedState v cl n s) v) cl n = pendAt (waveNow (recordArrival v cl n s) v) cl n := by
  rw [waveNow_arrivedState h, waveNow_recordArrival h]
  cases cl <;> rfl

theorem barAt_arrivedState : barAt (arrivedState v cl n s) v cl n = barAt (recordArrival v cl n s) v cl n := barAt_modWave _ _ _ _ _ _

theorem stillPending_arrivedState (h : viewOf s v.key = some v) : stillPending (arrivedState v cl n s) v cl n = stillPending (recordArrival v cl n s) v cl n := by
  rw [stillPending, pendAt_arrivedState h, barAt_arrivedState, stillPending]

/-- A wave may arrive where no earlier arrival of it is open and nothing of it may still touch the A window. -/
theorem mayArrive_iff : mayArrive s v cl n = true ↔ stillPending s v cl n = false ∧ aStoresOut v.w = false ∧ aReadsOut v = false := by
  simp only [mayArrive, Bool.and_eq_true, Bool.not_eq_true', and_assoc]

/-- BAR (R93), and DRAIN once it has drained (R95): it arrives where it may, and once; then it waits as BWAIT. -/
structure BarLaw (d : Operand) (v : View) (cl : Bool) (n : Nat) (s : State) (r : Result) : Prop where
  waits : v.w.arv = false → ¬ (stillPending s v cl n = false ∧ aStoresOut v.w = false ∧ aReadsOut v = false) → r = .next s
  arrives : v.w.arv = false → (stillPending s v cl n = false ∧ aStoresOut v.w = false ∧ aReadsOut v = false) →
    stillPending (recordArrival v cl n s) v cl n = true → r = .next (arrivedState v cl n s)
  completes : v.w.arv = false → (stillPending s v cl n = false ∧ aStoresOut v.w = false ∧ aReadsOut v = false) →
    stillPending (recordArrival v cl n s) v cl n = false → r = goesOnAt v cl n d (arrivedState v cl n s) (barAt (recordArrival v cl n s) v cl n).elected
  held : v.w.arv = true → stillPending s v cl n = true → r = .next s
  past : v.w.arv = true → stillPending s v cl n = false → (pendAt v.w cl n).isSome = true → r = goesOnAt v cl n d s (barAt s v cl n).elected

theorem barWord_law (h : viewOf s v.key = some v) (d : Operand) : BarLaw d v cl n s (barWord cl d n v s) := by
  have first (fresh : v.w.arv = false) (may : mayArrive s v cl n = true) : barWord cl d n v s = waitAt v cl n d (arrivedState v cl n s) := by
    simp only [barWord, fresh, may, Bool.false_eq_true, if_false, if_true, arrivedState]
  have later (arrived : v.w.arv = true) : barWord cl d n v s = waitAt v cl n d s := by simp only [barWord, arrived, if_true]
  refine ⟨fun fresh not => ?_, fun fresh may pending => ?_, fun fresh may past => ?_, fun arrived pending => ?_, fun arrived past pend => ?_⟩
  · have no : ¬ mayArrive s v cl n = true := fun yes => not (mayArrive_iff.mp yes)
    simp only [barWord, fresh, Bool.false_eq_true, if_false, if_neg no, hold]
  · rw [first fresh (mayArrive_iff.mpr may), waitAt_of_pending (stillPending_arrivedState h ▸ pending)]
  · rw [first fresh (mayArrive_iff.mpr may), waitAt_of_over (stillPending_arrivedState h ▸ past), barAt_arrivedState]
    rw [pendAt_arrivedState h, waveNow_recordArrival h, arrivedWave, pendAt_setPend]
    rfl
  · rw [later arrived, waitAt_of_pending pending]
  · rw [later arrived, waitAt_of_over past (by rwa [waveNow_of_view h])]

end

/-! ### The words -/

section
variable {y : YW} {v : View} {m : Word32} {s : State}

theorem exec_bar (h : Acts y.guard [] (dstY y) v m s) (cl : Bool) : exec (if cl then .barC y else .bar y) s = barWord cl y.d y.imm.toNat v s := by
  cases cl
  · exact (viewWord_of_acts h _ : execBar y s = _)
  · exact (viewWord_of_acts h _ : execBarC y s = _)

theorem exec_bwait (h : Acts y.guard [] (dstY y) v m s) (cl : Bool) : exec (if cl then .bwaitC y else .bwait y) s = waitAt v cl y.imm.toNat y.d s := by
  cases cl
  · exact (viewWord_of_acts h _ : execBwait y s = _)
  · exact (viewWord_of_acts h _ : execBwaitC y s = _)

theorem exec_drain (h : Acts y.guard [] (dstY y) v m s) (cl : Bool) : exec (if cl then .drainC y else .drainB y) s =
    if ¬ v.w.arv = true ∧ (v.w.oc.st ≠ 0 ∨ hasLogged v.w = true ∨ uncountedOut v.w = true) then .next s else barWord cl y.d y.imm.toNat v s := by
  cases cl
  · exact (viewWord_of_acts h _ : drainWord false y s = _)
  · exact (viewWord_of_acts h _ : drainWord true y s = _)

theorem exec_arrive (h : Acts y.guard [] [] v m s) (cl : Bool) : exec (if cl then .arriveC y else .arrive y) s =
    if mayArrive s v cl y.imm.toNat = true then .next (modWave v.key advance (recordArrival v cl y.imm.toNat s)) else .next s := by
  cases cl
  · exact (viewWord_of_acts h _ : arriveWord false y s = _)
  · exact (viewWord_of_acts h _ : arriveWord true y s = _)

end

end Sys2Proof.Machine
end

section
/-! SUPPORT. What an arrival leaves: the barrier of the block (R74, R93) and of the cluster (R77, R94), waiting or complete. -/
namespace Sys2Proof.Machine
open Sys2Proof

section
variable {s : State} {v : View} {n : Nat}

/-- DRAIN that has nothing outstanding is BAR (R95). -/
theorem exec_drain_of_drained {y : YW} {m : Word32} (h : Acts y.guard [] (dstY y) v m s) (cl : Bool)
    (st : v.w.oc.st = 0) (log : hasLogged v.w = false) (out : uncountedOut v.w = false) :
    exec (if cl then .drainC y else .drainB y) s = barWord cl y.d y.imm.toNat v s := by
  rw [exec_drain h]
  refine if_neg ?_
  rintro ⟨-, busy | busy | busy⟩
  · exact busy st
  · exact Bool.false_ne_true (log.symm.trans busy)
  · exact Bool.false_ne_true (out.symm.trans busy)

/-! ### At a barrier of the block -/

/-- The state in which an arrival at a barrier of the block stands recorded, before the barrier is tested. -/
def metState (v : View) (n : Nat) (s : State) : State := putBlock v.w.blk (blockWithArrival v n) (putWave v.key (arrivedWave v false n s) s)

theorem mget_metState_block : mget (metState v n s).blocks v.w.blk = some (blockWithArrival v n) := mget_mput_same _ _ _

theorem mgetD_blockWithArrival : mgetD (blockWithArrival v n).bars n dfltBar = { mgetD v.b.bars n dfltBar with arrived := sadd (mgetD v.b.bars n dfltBar).arrived v.w.idx } := by
  rw [blockWithArrival, mgetD_mput, if_pos rfl]

/-- An arrival at a barrier of the block changes waves and blocks alone. -/
theorem recordArrival_block_frame (h : viewOf s v.key = some v) (n : Nat) : recordArrival v false n s =
    { s with waves := (recordArrival v false n s).waves, blocks := (recordArrival v false n s).blocks } := by
  rw [recordArrival_block h, checkBar_frame]
  rfl

/-- It changes no other block. -/
theorem mget_recordArrival_blocks_of_ne (h : viewOf s v.key = some v) {k : Nat} (other : k ≠ v.w.blk) :
    mget (recordArrival v false n s).blocks k = mget s.blocks k := by
  have recorded : mget (metState v n s).blocks k = mget s.blocks k := mget_mput_ne _ _ other
  rw [recordArrival_block h, ← metState, ← recorded]
  fun_cases checkBar v.w.blk n (metState v n s)
  case case2 => rw [mget_modBlock, if_neg other]
  all_goals rfl

/-- A barrier that a member has not reached waits, the arrival recorded. -/
theorem recordArrival_block_of_missing (h : viewOf s v.key = some v)
    (missing : membersOf s v.w.blk = [] ∨ ∃ i ∈ membersOf s v.w.blk, i ∉ sadd (mgetD v.b.bars n dfltBar).arrived v.w.idx) :
    mget (recordArrival v false n s).blocks v.w.blk = some (blockWithArrival v n) := by
  have members (i : Nat) : i ∈ membersOf (metState v n s) v.w.blk ↔ i ∈ membersOf s v.w.blk := mem_membersOf_arrived h false n _ i
  rw [recordArrival_block h, ← metState, checkBar_of_missing mget_metState_block ?_, mget_metState_block]
  rw [mgetD_blockWithArrival]
  refine missing.imp (fun none_ => ?_) (fun ⟨i, member, absent⟩ => ⟨i, (members i).mpr member, absent⟩)
  exact Classical.not_not.mp (mt (ne_nil_congr members).mp (not_not_intro none_))

/-- A barrier that every member has reached ends its generation, and the highest member is elected. -/
theorem recordArrival_block_of_all (h : viewOf s v.key = some v) (some_ : membersOf s v.w.blk ≠ [])
    (all : ∀ i ∈ membersOf s v.w.blk, i ∈ sadd (mgetD v.b.bars n dfltBar).arrived v.w.idx) :
    ∃ e, mget (recordArrival v false n s).blocks v.w.blk = some { v.b with bars := mput v.b.bars n (nextBar (mgetD v.b.bars n dfltBar) e) } ∧
      e ∈ membersOf s v.w.blk ∧ ∀ i ∈ membersOf s v.w.blk, i ≤ e := by
  have members (i : Nat) : i ∈ membersOf (metState v n s) v.w.blk ↔ i ∈ membersOf s v.w.blk := mem_membersOf_arrived h false n _ i
  have present : membersOf (metState v n s) v.w.blk ≠ [] := (ne_nil_congr members).mpr some_
  obtain ⟨elected, highest⟩ := foldl_max_of_ne_nil present
  refine ⟨(membersOf (metState v n s) v.w.blk).foldl max 0, ?_, (members _).mp elected, fun i member => highest i ((members i).mpr member)⟩
  rw [recordArrival_block h, ← metState, checkBar_of_all mget_metState_block present (fun i member => ?_), putBlock_blocks, mget_mput_same, mgetD_blockWithArrival,
    blockWithArrival, mput_mput]
  · rfl
  · rw [mgetD_blockWithArrival]
    exact all i ((members i).mp member)

/-! ### At a barrier of the cluster -/

/-- The state in which an arrival at a cluster barrier stands recorded in its block, before the block is tested. -/
def clusterMetState (v : View) (n : Nat) (s : State) : State :=
  putBlock v.w.blk (blockWithClusterArrival v n) (putWave v.key (arrivedWave v true n s) s)

theorem mget_clusterMetState_block : mget (clusterMetState v n s).blocks v.w.blk = some (blockWithClusterArrival v n) := mget_mput_same _ _ _

theorem mget_clusterMetState_grid (h : viewOf s v.key = some v) : mget (clusterMetState v n s).grids v.b.gid = some v.g := viewOf_grid (s := s) h

theorem mgetD_blockWithClusterArrival : mgetD (blockWithClusterArrival v n).cArr n [] = sadd (mgetD v.b.cArr n []) v.w.idx := by
  rw [blockWithClusterArrival, mgetD_mput, if_pos rfl]

/-- An arrival at a cluster barrier changes waves, blocks and grids alone. -/
theorem recordArrival_cluster_frame (h : viewOf s v.key = some v) (n : Nat) : recordArrival v true n s =
    { s with waves := (recordArrival v true n s).waves, blocks := (recordArrival v true n s).blocks, grids := (recordArrival v true n s).grids } := by
  rw [recordArrival_cluster h, checkBlockArrival_frame]
  rfl

/-- A block of which a member has not arrived does not arrive: its group stays as it was. -/
theorem recordArrival_cluster_of_missing (h : viewOf s v.key = some v)
    (missing : ∃ i ∈ membersOf s v.w.blk, i ∉ sadd (mgetD v.b.cArr n []) v.w.idx) : recordArrival v true n s = clusterMetState v n s := by
  obtain ⟨i, member, absent⟩ := missing
  rw [recordArrival_cluster h, ← clusterMetState]
  refine checkBlockArrival_of_missing mget_clusterMetState_block (mget_clusterMetState_grid h) ⟨i, (mem_membersOf_arrived h true n _ i).mpr member, ?_⟩
  rwa [mgetD_blockWithClusterArrival]

/-- A block all of whose members have arrived arrives in its group, whose barrier is tested. -/
theorem recordArrival_cluster_of_all (h : viewOf s v.key = some v) (some_ : membersOf s v.w.blk ≠ [])
    (all : ∀ i ∈ membersOf s v.w.blk, i ∈ sadd (mgetD v.b.cArr n []) v.w.idx) :
    recordArrival v true n s = checkCluster v.b.gid (groupOf v.g.d v.b.num) n
      { clusterMetState v n s with grids := mput s.grids v.b.gid (blockArrived v.g v.b.num n) } := by
  have members (i : Nat) : i ∈ membersOf (clusterMetState v n s) v.w.blk ↔ i ∈ membersOf s v.w.blk := mem_membersOf_arrived h true n _ i
  rw [recordArrival_cluster h, ← clusterMetState]
  refine checkBlockArrival_of_all (b := blockWithClusterArrival v n) mget_clusterMetState_block (mget_clusterMetState_grid h) ((ne_nil_congr members).mpr some_) (fun i member => ?_)
  rw [mgetD_blockWithClusterArrival]
  exact all i ((members i).mp member)

theorem mgetD_blockArrived (g : Grid) (num n : Nat) : mgetD (blockArrived g num n).cbars (groupOf g.d num * 4 + n) dfltBar =
    { mgetD g.cbars (groupOf g.d num * 4 + n) dfltBar with arrived := sadd (mgetD g.cbars (groupOf g.d num * 4 + n) dfltBar).arrived (f2Of g.d num) } := by
  simp only [blockArrived, mmod, mgetD_mput, if_true]

/-- A cluster barrier that a live block has not reached waits, the block's arrival recorded. -/
theorem recordArrival_cluster_of_block_missing (h : viewOf s v.key = some v) (some_ : membersOf s v.w.blk ≠ [])
    (all : ∀ i ∈ membersOf s v.w.blk, i ∈ sadd (mgetD v.b.cArr n []) v.w.idx)
    (missing : ∃ m ∈ liveBlocks v.g (groupOf v.g.d v.b.num),
      f2Of v.g.d m ∉ sadd (mgetD v.g.cbars (groupOf v.g.d v.b.num * 4 + n) dfltBar).arrived (f2Of v.g.d v.b.num)) :
    mget (recordArrival v true n s).grids v.b.gid = some (blockArrived v.g v.b.num n) := by
  obtain ⟨m, live, absent⟩ := missing
  rw [recordArrival_cluster_of_all h some_ all, checkCluster_of_missing (g := blockArrived v.g v.b.num n) (mget_mput_same _ _ _) ⟨m, live, ?_⟩]
  · exact mget_mput_same _ _ _
  · rw [mgetD_blockArrived]
    exact absent

/-- A grid in which a cluster barrier of a group has ended its generation and elected the highest live block. -/
def gridCompleted (g : Grid) (grp n : Nat) : Grid :=
  { g with cbars := mput g.cbars (grp * 4 + n) (nextBar (mgetD g.cbars (grp * 4 + n) dfltBar) (((liveBlocks g grp).map (f2Of g.d)).foldl max 0)) }

/-- A cluster barrier that every live block has reached ends its generation, and the highest of them is elected. -/
theorem recordArrival_cluster_of_all_blocks (h : viewOf s v.key = some v) (some_ : membersOf s v.w.blk ≠ [])
    (all : ∀ i ∈ membersOf s v.w.blk, i ∈ sadd (mgetD v.b.cArr n []) v.w.idx)
    (live : liveBlocks v.g (groupOf v.g.d v.b.num) ≠ [])
    (reached : ∀ m ∈ liveBlocks v.g (groupOf v.g.d v.b.num),
      f2Of v.g.d m ∈ sadd (mgetD v.g.cbars (groupOf v.g.d v.b.num * 4 + n) dfltBar).arrived (f2Of v.g.d v.b.num)) :
    mget (recordArrival v true n s).grids v.b.gid = some (gridCompleted v.g (groupOf v.g.d v.b.num) n) := by
  rw [recordArrival_cluster_of_all h some_ all, checkCluster_of_all (g := blockArrived v.g v.b.num n) (mget_mput_same _ _ _) live (fun m member => ?_), mget_mput_same, mgetD_blockArrived]
  · simp only [blockArrived, mmod, mput_mput]
    rfl
  · rw [mgetD_blockArrived]
    exact reached m member

end

end Sys2Proof.Machine
end

section
namespace Sys2Proof
open Sys2Proof.Machine

/-- Settles O53: an arrival stands recorded before its barrier is tested, so each word goes on or waits as its generation is over or not (`BarLaw`), and a barrier ends its generation where the arrival was the last of its members. -/
theorem barrierWords : Obligations.BarrierWords := by
  unfold Obligations.BarrierWords
  refine ⟨?words, ?block, ?cluster⟩
  case words =>
    intro y v m cl s
    dsimp only
    refine ⟨fun h => ?_, fun h => ⟨fun may => ?_, fun not => ?_⟩⟩
    · have law := barWord_law (cl := cl) (n := y.imm.toNat) h.view y.d
      have pend : waveNow s v = v.w := waveNow_of_view h.view
      refine ⟨?bar, ?drained, ?busy, ?waiting, ?past, ?unmet⟩
      case bar =>
        rw [exec_bar h]
        exact ⟨law.waits, law.arrives, law.completes, law.held, law.past⟩
      case drained =>
        intro st log out
        rw [exec_drain_of_drained h cl st log out]
        exact ⟨law.waits, law.arrives, law.completes, law.held, law.past⟩
      case busy =>
        intro fresh out
        rw [exec_drain h, if_pos ⟨ne_true_of_eq_false fresh, out⟩]
      case waiting =>
        intro pending
        rw [exec_bwait h, waitAt_of_pending pending]
      case past =>
        intro past arrived
        rw [exec_bwait h, waitAt_of_over past (pend.symm ▸ arrived)]
        rfl
      case unmet =>
        intro none_
        rw [exec_bwait h, waitAt_of_none (pend.symm ▸ none_)]
        rfl
    · rw [exec_arrive h, if_pos (mayArrive_iff.mpr may)]
    · rw [exec_arrive h, if_neg (mt mayArrive_iff.mp not)]
  case block =>
    intro v n s h
    dsimp only
    refine ⟨?_, fun k other => ?_, recordArrival_block_frame h n, fun k other => mget_recordArrival_blocks_of_ne h other,
      recordArrival_block_of_missing h, fun some_ all => ?_⟩
    · rw [mget_recordArrival_waves h, if_pos rfl, arrivedWave, barAt_block h]
      rfl
    · rw [mget_recordArrival_waves h, if_neg other]
    · obtain ⟨e, block, elected, highest⟩ := recordArrival_block_of_all h some_ all
      exact ⟨_, block, rfl, rfl, elected, highest⟩
  case cluster =>
    intro v n s h _
    dsimp only
    refine ⟨?_, fun k other => ?_, recordArrival_cluster_frame h n, fun missing => ?_, recordArrival_cluster_of_block_missing h, fun some_ all live reached => ?_⟩
    · rw [mget_recordArrival_waves h, if_pos rfl, arrivedWave, barAt_cluster h]
      rfl
    · rw [mget_recordArrival_waves h, if_neg other]
    · rw [recordArrival_cluster_of_missing h missing]
      exact ⟨rfl, mget_clusterMetState_block⟩
    · have present : (liveBlocks v.g (groupOf v.g.d v.b.num)).map (f2Of v.g.d) ≠ [] := mt List.map_eq_nil_iff.mp live
      obtain ⟨elected, highest⟩ := foldl_max_of_ne_nil present
      refine ⟨_, _, recordArrival_cluster_of_all_blocks h some_ all live reached, rfl, mget_mput_same _ _ _, rfl, rfl, List.mem_map.mp elected, ?_⟩
      exact fun m member => highest _ (List.mem_map_of_mem member)

end Sys2Proof
end

section
/-! SUPPORT. Control transfers (R87, R88): targets, conditions, and the state each transfer answers. -/
namespace Sys2Proof.Machine
open Sys2Proof

/-- The low three bits of an address are zero. -/
theorem extractLsb'_three_eq_zero (a : Word64) : a.extractLsb' 0 3 = 0 ↔ a &&& 7 = 0 := by
  have whole (x : Word64) : x.toNat % 8 = 0 ↔ x &&& 7 = 0 := by
    rw [← BitVec.toNat_inj, BitVec.toNat_and]
    exact (Nat.and_two_pow_sub_one_eq_mod x.toNat 3).symm ▸ Iff.rfl
  rw [← whole, ← BitVec.toNat_inj, BitVec.extractLsb'_toNat]
  rfl

/-- The target of the OFF forms in the words of R87: H + 8 × OFF. -/
theorem offTarget_eq (w : Wave) (off : BitVec 28) : offTarget w off = w.pc + off.signExtend 64 * 8 := by
  rw [offTarget, BitVec.ofInt_mul, BitVec.signExtend, BitVec.mul_comm]
  rfl

theorem condValue_s_eq_zero (w : Wave) (n : BitVec 6) : condValue w (.s n) = 0 ↔ sReg w n.toNat = 0 :=
  BitVec.toNat_inj (y := 0)

theorem condValue_k (w : Wave) (n : BitVec 3) : condValue w (.k n) = (kReg w n.toNat).toNat :=
  (BitVec.toNat_setWidth 64 _).trans (Nat.mod_eq_of_lt (Nat.lt_trans (kReg w n.toNat).isLt (by decide)))

theorem condValue_k_eq_zero (w : Wave) (n : BitVec 3) : condValue w (.k n) = 0 ↔ kReg w n.toNat = 0 := by
  rw [condValue_k]
  exact BitVec.toNat_inj (y := 0)

theorem branchMask_k (w : Wave) (n : BitVec 3) : branchMask w (.k n) = kReg w n.toNat := by
  rw [branchMask, condValue_k, BitVec.ofNat_toNat, BitVec.setWidth_eq]

section
variable {j : JW} {key : Nat} {w : Wave} {m : Word32} {s : State}

/-- A transfer that reads A and changes no register, whatever decides it. -/
theorem branch_of_issues (h : Issues j.guard [{ o := j.a }] [] key w m s) {taken : Word32 → Wave → Bool} {p : Prop} [Decidable p] (decides : taken m w = true ↔ p) :
    branch j taken s = .next (putWave key (endClause (if p then w.pc + j.off.signExtend 64 * 8 else nextHeader w) w) s) := by
  rw [branch, word_of_issues h, transferTo, offTarget_eq]
  simp only [decides]

/-! The condition of each transfer (R88). -/

theorem exec_nop (j : JW) (s : State) : exec (.nop j) s = branch j (fun _ _ => false) s := rfl
theorem exec_bra (j : JW) (s : State) : exec (.bra j) s = branch j (fun _ _ => true) s := rfl
theorem exec_bz (j : JW) (s : State) : exec (.bz j) s = branch j (fun _ w => condValue w j.a == 0) s := rfl
theorem exec_bnz (j : JW) (s : State) : exec (.bnz j) s = branch j (fun _ w => condValue w j.a != 0) s := rfl
theorem exec_bany (j : JW) (s : State) : exec (.bany j) s = branch j (fun m w => branchMask w j.a &&& m != 0) s := rfl
theorem exec_ball (j : JW) (s : State) : exec (.ball j) s = branch j (fun m w => branchMask w j.a &&& m == m) s := rfl
theorem exec_bnone (j : JW) (s : State) : exec (.bnone j) s = branch j (fun m w => branchMask w j.a &&& m == 0) s := rfl

theorem jump_of_issues (h : Issues j.guard [{ o := j.a }] [] key w m s) {n : BitVec 6} (reg : j.a = .s n) :
    jump j s = if sReg w n.toNat &&& 7 = 0 then .next (putWave key (endClause (sReg w n.toNat) w) s) else illegalWord w s := by
  rw [jump, word_of_issues h, reg]
  simp only [rawOp, ne_eq, extractLsb'_three_eq_zero, ite_not]

end

end Sys2Proof.Machine
end

section
namespace Sys2Proof
open Sys2Proof.Machine

/-- Settles O15: what decides a branch is its condition of R88 (`branch_of_issues`), and a jump's low bits decide between its register and the fault (`jump_of_issues`). -/
theorem transferResults : Obligations.TransferResults := by
  intro j key w m s off goes
  refine ⟨fun h => ⟨?_, ?_, fun n reg => ?_, fun n reg => ?_, fun n reg low => ?_, fun n reg low => ?_⟩, fun n h reg => ?_, fun n h reg => ?_, fun c hc => ?_⟩
  · exact (exec_nop j s).trans (branch_of_issues h (by simp))
  · exact (exec_bra j s).trans (branch_of_issues h (by simp))
  · exact ⟨(exec_bz j s).trans (branch_of_issues h (by simp [reg, condValue_s_eq_zero])), (exec_bnz j s).trans (branch_of_issues h (by simp [reg, condValue_s_eq_zero]))⟩
  · exact ⟨(exec_bz j s).trans (branch_of_issues h (by simp [reg, condValue_k_eq_zero])), (exec_bnz j s).trans (branch_of_issues h (by simp [reg, condValue_k_eq_zero])),
      (exec_bany j s).trans (branch_of_issues h (by simp [reg, branchMask_k])), (exec_ball j s).trans (branch_of_issues h (by simp [reg, branchMask_k])),
      (exec_bnone j s).trans (branch_of_issues h (by simp [reg, branchMask_k]))⟩
  · have jumps := (jump_of_issues h reg).trans (if_pos low)
    exact ⟨jumps, jumps⟩
  · have faults := (jump_of_issues h reg).trans (if_neg low)
    exact ⟨faults, faults⟩
  · have issued : exec (.loop j) s = execLoop j s := rfl
    rw [issued, execLoop, word_of_issues h, reg]
    simp only [transferTo, sNum, offTarget_eq, bne_iff_ne]
    rfl
  · have issued : exec (.call j) s = execCall j s := rfl
    rw [issued, execCall, word_of_issues h, reg]
    simp only [transferTo, sNum, offTarget_eq]
    rfl
  · simp only [nextHeader, hc]

end Sys2Proof
end

section
/-! SUPPORT. What a soft trap records and where it resumes (R109 to R111). -/
namespace Sys2Proof.Machine
open Sys2Proof

/-- What the record of a soft trap holds (R111), raised by the word raw, of a wave that resumes as place does. -/
structure Records (t : TrapSpec) (raw : Word64) (place : Wave) (r : TrapRec) : Prop where
  cause : r.w0.extractLsb' 0 8 = BitVec.ofNat 8 t.cause
  opcode : r.w0.extractLsb' 8 8 = raw.extractLsb' 56 8
  imm : r.w0.extractLsb' 16 16 = BitVec.ofNat 16 t.imm
  source : r.w0.extractLsb' 32 9 = if t.cause = 1 then t.o.encode else 0
  rest : r.w0.extractLsb' 41 23 = 0
  pc : r.w1 = place.pc
  word : ∀ c', place.clause = some c' → c'.idx < 32 → r.w2.extractLsb' 0 5 = BitVec.ofNat 5 c'.idx ∧
    r.w2.extractLsb' 8 6 = (match c'.rpt with | some q => BitVec.ofNat 6 q.iter | none => 0)
  header : place.clause = none → r.w2 = 0
  addr : r.w3 = BitVec.ofNat 64 t.addr
  detail : r.w4 = BitVec.ofNat 64 t.detail
  lanes : r.w5 = t.lanes.setWidth 64

/-- A field of a word is the word's number without what lies below, at the field's width. -/
theorem extractLsb'_ofNat {lo n : Nat} (inside : lo + n ≤ 64) (x : Nat) : (BitVec.ofNat 64 x).extractLsb' lo n = BitVec.ofNat n (x / 2 ^ lo) := by
  refine BitVec.eq_of_getLsbD_eq (fun i hi => ?_)
  have bound : lo + i < 64 := by omega
  simp only [BitVec.getLsbD_extractLsb', BitVec.getLsbD_ofNat, Nat.testBit_div_two_pow, hi, bound, decide_true, Bool.true_and, Nat.add_comm]

theorem ofNat_eq_ofNat {n x y : Nat} (h : x % 2 ^ n = y % 2 ^ n) : BitVec.ofNat n x = BitVec.ofNat n y := by
  rw [← BitVec.toNat_inj, BitVec.toNat_ofNat, BitVec.toNat_ofNat, h]

/-- Four fields side by side, read back. -/
theorem extractLsb'_fields {src imm opc cause : Nat} (hs : src < 2 ^ 9) (hi : imm < 2 ^ 16) (ho : opc < 2 ^ 8) (hc : cause < 2 ^ 8) :
    let x : Word64 := BitVec.ofNat 64 (src * 2 ^ 32 + imm * 2 ^ 16 + opc * 2 ^ 8 + cause)
    x.extractLsb' 0 8 = BitVec.ofNat 8 cause ∧ x.extractLsb' 8 8 = BitVec.ofNat 8 opc ∧ x.extractLsb' 16 16 = BitVec.ofNat 16 imm ∧
      x.extractLsb' 32 9 = BitVec.ofNat 9 src ∧ x.extractLsb' 41 23 = BitVec.ofNat 23 0 := by
  intro x
  refine ⟨?_, ?_, ?_, ?_, ?_⟩
  all_goals
    refine (extractLsb'_ofNat (by decide) _).trans (ofNat_eq_ofNat ?_)
    omega

/-- The place of a word within its clause, read back. -/
theorem extractLsb'_place {iter ix : Nat} (hx : ix < 32) :
    (BitVec.ofNat 64 (iter * 2 ^ 8 + ix)).extractLsb' 0 5 = BitVec.ofNat 5 ix ∧ (BitVec.ofNat 64 (iter * 2 ^ 8 + ix)).extractLsb' 8 6 = BitVec.ofNat 6 iter := by
  constructor
  all_goals
    refine (extractLsb'_ofNat (by decide) _).trans (ofNat_eq_ofNat ?_)
    omega

theorem resumeInfo_pc (w : Wave) : (resumeInfo w).pc = w.pc := by
  cases h : w.clause <;> simp only [resumeInfo, wordInfo, h]

theorem resumeInfo_of_none {w : Wave} (h : w.clause = none) : resumeInfo w = { pc := w.pc, ix := 0, iter := 0, opc := 0 } := by
  simp only [resumeInfo, h]

theorem resumeInfo_of_some {w : Wave} {c : Clause} (h : w.clause = some c) :
    (resumeInfo w).ix = c.idx ∧ (resumeInfo w).iter = (c.rpt.map Repeat.iter).getD 0 := by
  cases hr : c.rpt <;> simp only [resumeInfo, wordInfo, h, hr, Option.map_none, Option.map_some, Option.getD_none, Option.getD_some, and_self]

/-- The opcode that a record names is that of the word at the resume point. -/
theorem wordInfo_opc {w : Wave} {c : Clause} {raw : Word64} (h : w.clause = some c) (word : rawWord c = some raw) : (wordInfo w).opc = opOf raw := by
  simp only [wordInfo, h, word]

theorem records_trapWords {t : TrapSpec} {raw : Word64} (place : Wave) (hi : t.imm < 2 ^ 16) (hc : t.cause < 2 ^ 8) :
    Records t raw place (trapWords t (opOf raw) (resumeInfo place)) := by
  have src : (if t.cause = 1 then t.o.encode.toNat * 2 ^ 32 else 0) = (if t.cause = 1 then t.o.encode else 0).toNat * 2 ^ 32 := by
    split <;> simp
  obtain ⟨cause, opcode, imm, source, rest⟩ := extractLsb'_fields (if t.cause = 1 then t.o.encode else 0).isLt hi (opOf_lt raw) hc
  rw [← src] at cause opcode imm source rest
  refine ⟨cause, ?_, imm, ?_, rest, resumeInfo_pc place, fun c' h lt => ?_, fun h => ?_, rfl, rfl, rfl⟩
  · exact opcode.trans (extractLsb'_op raw).symm
  · exact source.trans (by rw [BitVec.ofNat_toNat, BitVec.setWidth_eq])
  · obtain ⟨ix, iter⟩ := resumeInfo_of_some h
    obtain ⟨low, high⟩ := extractLsb'_place (iter := (resumeInfo place).iter) (ix.symm ▸ lt)
    refine ⟨ix ▸ low, high.trans ?_⟩
    rw [iter]
    cases c'.rpt <;> rfl
  · simp only [trapWords, resumeInfo_of_none h]
    rfl

/-- Where a soft trap resumes: causes 1 to 5 at the raising word, TRAP and BKPT behind it (R110). -/
def placeOfTrap (w : Wave) (t : TrapSpec) : Wave := if t.cause ≤ 5 then w else advance w

/-- The record that a soft trap writes. -/
def trapEntry (w : Wave) (t : TrapSpec) : TrapRec := trapWords t (wordInfo w).opc (resumeInfo (placeOfTrap w t))

/-- The wave in the handler, to resume as place does. -/
def entered (place : Wave) (vec : Word64) (retry : Bool) (r : TrapRec) : Wave :=
  { place with trec := r, trapSt := true, resume := some { pc := place.pc, clause := place.clause, retry := retry }, pc := vec, clause := none
               again := 0, noE := false, arv := false, held := false, age := 0, aged := false }

section
variable {w : Wave} {t : TrapSpec}

theorem softTrap_of_inside (inside : w.trapSt = true) : softTrap w t = .hard := if_pos inside

theorem softTrap_of_no_handler (outside : w.trapSt = false) (none : w.trapVec = 0) :
    softTrap w t = if t.cause = 5 then .fault { w with trec := trapEntry w t } else .go { w with trec := trapEntry w t } := by
  simp only [softTrap, outside, none, Bool.false_eq_true, if_false, if_true]
  rfl

theorem softTrap_of_handler (outside : w.trapSt = false) (handler : w.trapVec ≠ 0) :
    softTrap w t = .enter (entered (placeOfTrap w t) w.trapVec (decide (t.cause ≤ 5)) (trapEntry w t)) := by
  simp only [softTrap, outside, handler, Bool.false_eq_true, if_false]
  rfl

end

end Sys2Proof.Machine
end

section
namespace Sys2Proof
open Sys2Proof.Machine

/-- Settles O20: what a soft trap does is settled by trap.st, then by trap.vec, and its record is the same in every case (`records_trapWords`). -/
theorem softTrapEntry : Obligations.SoftTrapEntry := by
  intro w t c raw hc word imm cause _ _ place fills
  have filled : fills (trapEntry w t) := by
    rw [trapEntry, wordInfo_opc hc word]
    have r : Records t raw (placeOfTrap w t) _ := records_trapWords _ imm cause
    exact ⟨r.cause, r.opcode, r.imm, r.source, r.rest, r.pc, r.word, r.header, r.addr, r.detail, r.lanes⟩
  refine ⟨softTrap_of_inside, fun outside none five => ⟨_, ?_, filled⟩, fun outside none other => ⟨_, ?_, filled⟩,
    fun outside handler => ⟨_, softTrap_of_handler outside handler, filled, rfl, rfl, rfl, rfl, rfl⟩⟩
  · exact (softTrap_of_no_handler outside none).trans (if_pos five)
  · exact (softTrap_of_no_handler outside none).trans (if_neg other)

end Sys2Proof
end

section
/-! SUPPORT. TRAP, BKPT and TRET (R112, R113): what each does outside a handler and inside it. -/
namespace Sys2Proof.Machine
open Sys2Proof

/-- A word whose wave stands in the state is done: its wave goes on. -/
theorem done_putWave (key : Nat) (w : Wave) (s : State) : done key (putWave key w s) = .next (putWave key (advance w) s) := by
  rw [done, modWave_of_some (mget_putWave_same key w s), putWave_putWave]

section
variable {w : Wave} {t : TrapSpec} (key : Nat) (go : Wave → State → Result) (s : State)

theorem raiseTrap_of_inside (inside : w.trapSt = true) : raiseTrap key w t go s = illegalWord w s := by
  simp only [raiseTrap, softTrap_of_inside inside]

/-- Without a handler a trap of the program's own writes its record, and the word is done. -/
theorem raiseTrap_of_no_handler (outside : w.trapSt = false) (none : w.trapVec = 0) (own : t.cause ≠ 5) :
    ∃ x, softTrap w t = .go x ∧ raiseTrap key w t (fun _ u => done key u) s = .next (putWave key (advance x) s) := by
  have act := (softTrap_of_no_handler (t := t) outside none).trans (if_neg own)
  refine ⟨_, act, ?_⟩
  simp only [raiseTrap, act, done_putWave]

theorem raiseTrap_of_handler (outside : w.trapSt = false) (handler : w.trapVec ≠ 0) :
    ∃ x, softTrap w t = .enter x ∧ raiseTrap key w t go s = .next (putWave key x s) := by
  have act := softTrap_of_handler (t := t) outside handler
  refine ⟨_, act, ?_⟩
  simp only [raiseTrap, act]

end

section
variable {y : YW} {key : Nat} {w : Wave} {m : Word32} {s : State} (h : Issues y.guard [] [] key w m s)
include h

theorem exec_trap : exec (.trap y) s = raiseTrap key w { cause := 6, imm := y.imm.toNat, lanes := m } (fun _ u => done key u) s :=
  (word_of_issues h _ : execTrap y s = _)

/-- BKPT counts, then traps (R112). -/
theorem exec_bkpt : exec (.bkpt y) s =
    let counts := { w with bkpts := w.bkpts + 1 }
    raiseTrap key counts { cause := 7, imm := y.imm.toNat, lanes := m } (fun _ u => done key u) (putWave key counts s) :=
  (word_of_issues h _ : execBkpt y s = _)

theorem exec_tret_of_outside (outside : w.trapSt = false) : exec (.tret y) s = illegalWord w s := by
  refine (word_of_issues h _ : execTret y s = _).trans ?_
  simp only [outside]

theorem exec_tret_of_inside (inside : w.trapSt = true) {r : Resume} (saved : w.resume = some r) :
    exec (.tret y) s = .next (putWave key (trapReturn y.imm.toNat r w) s) := by
  refine (word_of_issues h _ : execTret y s = _).trans ?_
  simp only [inside, saved]

end

/-- The wave at the resume point a trap saved, outside the handler (R113). -/
def resumed (r : Resume) (w : Wave) : Wave := { endClause r.pc w with trapSt := false, resume := none, clause := r.clause }

section
variable {r : Resume} (w : Wave)

/-- A trap that the word itself asked for resumes behind it, whatever the form of TRET; so does plain TRET at a word that took no effect. -/
theorem trapReturn_of_plain {mode : Nat} (plain : r.retry = false ∨ mode = 0) : trapReturn mode r w = resumed r w := by
  rcases plain with behind | rfl
  · simp only [trapReturn, behind, Bool.false_eq_true, if_false]
    rfl
  · exact ite_self _

theorem trapReturn_skip (retry : r.retry = true) : trapReturn 1 r w = advance (resumed r w) := if_pos retry

theorem trapReturn_wait (retry : r.retry = true) : trapReturn 2 r w = { resumed r w with noE := true } := if_pos retry

end

end Sys2Proof.Machine
end

section
namespace Sys2Proof
open Sys2Proof.Machine

/-- Settles O21: TRAP and BKPT raise the one soft trap (`raiseTrap_of_no_handler`, `raiseTrap_of_handler`, `raiseTrap_of_inside`), and TRET is the return from it (`trapReturn`). -/
theorem trapWords : Obligations.TrapWords := by
  intro y key w m s h trap counts
  refine ⟨fun outside none => ⟨?_, ?_⟩, fun outside handler => ⟨?_, ?_⟩, fun inside => ⟨?_, ?_⟩, exec_tret_of_outside h, fun r inside saved => ⟨resumed r w, rfl, ?_⟩⟩
  · rw [exec_trap h]
    exact raiseTrap_of_no_handler key s outside none (by simp)
  · rw [exec_bkpt h]
    obtain ⟨u, act, res⟩ := raiseTrap_of_no_handler (w := counts) (t := { cause := 7, imm := y.imm.toNat, lanes := m }) key (putWave key counts s) outside none (by simp)
    exact ⟨u, act, res.trans (by rw [putWave_putWave])⟩
  · rw [exec_trap h]
    exact raiseTrap_of_handler key _ s outside handler
  · rw [exec_bkpt h]
    obtain ⟨u, act, res⟩ := raiseTrap_of_handler (w := counts) (t := { cause := 7, imm := y.imm.toNat, lanes := m }) key (fun _ u => done key u) (putWave key counts s) outside handler
    exact ⟨u, act, res.trans (by rw [putWave_putWave])⟩
  · rw [exec_trap h]
    exact raiseTrap_of_inside key _ s inside
  · rw [exec_bkpt h]
    exact raiseTrap_of_inside key _ _ inside
  · rw [exec_tret_of_inside h inside saved]
    refine ⟨fun plain => ?_, fun retry skip => ?_, fun retry wait => ?_⟩
    · rw [trapReturn_of_plain w (plain.imp_right (congrArg BitVec.toNat))]
    · rw [skip, ← trapReturn_skip w retry]
      rfl
    · rw [wait, ← trapReturn_wait w retry]
      rfl

end Sys2Proof
end

section
/-! SUPPORT. The system registers (R107, R108, R111): what SYSR, SYSW, TICKS and FAULTRD read and write. -/
namespace Sys2Proof.Machine
open Sys2Proof

section
variable {y : YW} {v : View} {m : Word32} {s : State} {d : BitVec 6}

/-- A word that reads one value into its s register changes nothing else. -/
theorem readWord_of_acts (h : Acts y.guard [] [(y.d, 1)] v m s) (reg : y.d = .s d) (f : View → Word64) : readWord y f s = GoesOn v.key (setS v.w d.toNat (f v)) s := by
  rw [readWord, viewWord_of_acts h, reg]
  rfl

theorem exec_sysr (h : Acts y.guard [] [(y.d, 1)] v m s) (reg : y.d = .s d) {n : BitVec 16} (named : y.imm = n) {x : Word64} (value : sysReg v n.toNat = x) :
    exec (.sysr y) s = GoesOn v.key (setS v.w d.toNat x) s := by
  subst named value
  exact readWord_of_acts h reg (fun v => sysReg v y.imm.toNat)

theorem exec_ticks (h : Issues y.guard [] [(y.d, 1)] v.key v.w m s) (reg : y.d = .s d) :
    exec (.ticks y) s = GoesOn v.key (setS v.w d.toNat s.time.ticks) s := by
  refine (word_of_issues h _ : execTicks y s = _).trans ?_
  rw [reg]
  rfl

theorem exec_faultrd (h : Issues y.guard [] [(y.d, 1)] v.key v.w m s) (reg : y.d = .s d) :
    exec (.faultrd y) s = GoesOn v.key (setS v.w d.toNat (v.w.trec.word y.imm.toNat)) s := by
  refine (word_of_issues h _ : execFaultrd y s = _).trans ?_
  rw [reg]
  rfl

/-- The page state that SYSR reads: of a page block that it is one, SD and RL (R107). -/
theorem sysReg_page (v : View) : sysReg v 3 = if v.g.d.kind = 1 then BitVec.ofNat 64 (16 + (if v.b.sd then 8 else 0) + v.b.rl) else 0 := rfl

/-- The words of a trap record in their order (R111). -/
theorem word_of_getElem? {r : TrapRec} {n : Nat} {x : Word64} (h : [r.w0, r.w1, r.w2, r.w3, r.w4, r.w5][n]? = some x) : r.word n = x := by
  match n with
  | 0 | 1 | 2 | 3 | 4 | 5 => exact Option.some.inj h
  | n + 6 => cases h

/-- SYSW writes trap.vec by 4, if the low bits are zero, and tier.miss by any other number that a word can hold. -/
theorem exec_sysw (h : Issues y.guard [srcYB y] [] v.key v.w m s) :
    exec (.sysw y) s =
      let x := rawOp v.w y.lit false y.b 0
      if y.imm = 4 then if x &&& 7 = 0 then GoesOn v.key { v.w with trapVec := x } s else illegalWord v.w s
      else GoesOn v.key { v.w with tierMiss := x } s := by
  refine (word_of_issues h _ : execSysw y s = _).trans ?_
  simp only [ne_eq, extractLsb'_three_eq_zero, ite_not]
  rfl

end

/-- The immediate of a well-formed format Y word is one that its row takes (R90). -/
theorem imm_of_wellFormed {i : Instr} {op sub : Nat} {r : YRow} {y : YW} (shape : i.shape = .y op sub r y) (h : i.wellFormed = true) : r.imm y.imm.toNat = true := by
  have legal : checkY r y = none := (congrArg Shape.illegal? shape).symm.trans (Instr.shape_legal h)
  simp only [checkY, firstFailed_eq_none, List.forall_mem_cons] at legal
  obtain ⟨-, imm, -⟩ := legal
  exact imm

end Sys2Proof.Machine
end

section
namespace Sys2Proof
open Sys2Proof.Machine

/-- Settles O22: each word reads or writes one place (`readWord_of_acts`, `exec_sysw`), and the immediates its row takes are those of R107 and R111 (`imm_of_wellFormed`). -/
theorem systemRegisters : Obligations.SystemRegisters := by
  intro y v m s
  refine ⟨fun d reg h => ?reads, fun h => ?write, fun h => ?_, fun h => ?_, fun h => ?_⟩
  case reads =>
    refine ⟨fun imm c core => exec_sysr h reg imm ?_, fun imm => exec_sysr h reg imm rfl, fun imm => exec_sysr h reg imm rfl,
      fun imm other => exec_sysr h reg imm ((sysReg_page v).trans (if_neg other)), fun imm page => exec_sysr h reg imm ((sysReg_page v).trans (if_pos page)),
      fun imm => exec_sysr h reg imm rfl, fun imm => exec_sysr h reg imm rfl, fun imm => exec_sysr h reg imm rfl, fun imm => exec_sysr h reg imm rfl,
      exec_ticks h.issues reg, fun n z imm word => ?_⟩
    · exact congrArg (fun o => BitVec.ofNat 64 (Option.getD o 0)) core
    · refine (exec_faultrd h.issues reg).trans ?_
      rw [imm, word_of_getElem? word]
  case write =>
    rw [exec_sysw h]
    refine ⟨fun vec low => (if_pos vec).trans (if_pos low), fun vec low => (if_pos vec).trans (if_neg low), fun miss => if_neg ?_⟩
    rw [miss]
    decide
  · exact of_decide_eq_true (imm_of_wellFormed rfl h)
  · have row : (y.imm.toNat == 4 || y.imm.toNat == 7) = true := imm_of_wellFormed rfl h
    rw [Bool.or_eq_true, beq_iff_eq, beq_iff_eq] at row
    exact row.imp (fun four => BitVec.eq_of_toNat_eq four) (fun seven => BitVec.eq_of_toNat_eq seven)
  · exact of_decide_eq_true (imm_of_wellFormed rfl h)

end Sys2Proof
end

section
/-! SUPPORT. What the retirement of a wave changes beside the wave (R74, R77, R89): barriers of its block and of its group. -/
namespace Sys2Proof.Machine
open Sys2Proof

/-- A grid, and a block, with their barriers set aside. -/
def gridAside (g : Grid) : Grid := { g with cbars := [] }
def blockAside (b : Block) : Block := { b with bars := [], cArr := [] }

theorem eq_of_blockAside {b c : Block} (h : blockAside c = blockAside b) : c = { b with bars := c.bars, cArr := c.cArr } :=
  congrArg (fun x : Block => { x with bars := c.bars, cArr := c.cArr }) h

/-- From s to t only grids and blocks change, and in them only barriers. -/
structure OnlyBarriers (s t : State) : Prop where
  rest : t = { s with grids := t.grids, blocks := t.blocks }
  grids : ∀ k, (mget t.grids k).map gridAside = (mget s.grids k).map gridAside
  blocks : ∀ k, (mget t.blocks k).map blockAside = (mget s.blocks k).map blockAside

namespace OnlyBarriers

variable {r s t : State}

theorem refl (s : State) : OnlyBarriers s s := ⟨rfl, fun _ => rfl, fun _ => rfl⟩

theorem trans (first : OnlyBarriers r s) (second : OnlyBarriers s t) : OnlyBarriers r t := by
  refine ⟨?_, fun k => (second.grids k).trans (first.grids k), fun k => (second.blocks k).trans (first.blocks k)⟩
  rw [second.rest, first.rest]

theorem foldl {α : Type} {f : State → α → State} (step : ∀ t a, OnlyBarriers t (f t a)) (l : List α) (s : State) : OnlyBarriers s (l.foldl f s) := by
  induction l generalizing s with
  | nil => exact refl s
  | cons a rest ih => exact (step s a).trans (ih (f s a))

theorem waves (h : OnlyBarriers s t) : t.waves = s.waves := by rw [h.rest]
theorem mem (h : OnlyBarriers s t) : t.mem = s.mem := by rw [h.rest]
theorem tags (h : OnlyBarriers s t) : t.tags = s.tags := by rw [h.rest]
theorem ctxs (h : OnlyBarriers s t) : t.ctxs = s.ctxs := by rw [h.rest]

theorem mget_blocks (h : OnlyBarriers s t) {k : Nat} {b : Block} (hb : mget s.blocks k = some b) :
    ∃ c, mget t.blocks k = some c ∧ c = { b with bars := c.bars, cArr := c.cArr } := by
  have aside := h.blocks k
  rw [hb, Option.map_some, Option.map_eq_some_iff] at aside
  obtain ⟨c, hc, same⟩ := aside
  exact ⟨c, hc, eq_of_blockAside same⟩

theorem mget_grids (h : OnlyBarriers s t) {k : Nat} {g : Grid} (hg : mget s.grids k = some g) : ∃ c, mget t.grids k = some c := by
  have aside := h.grids k
  rw [hg, Option.map_some, Option.map_eq_some_iff] at aside
  obtain ⟨c, hc, -⟩ := aside
  exact ⟨c, hc⟩

end OnlyBarriers

theorem onlyBarriers_modBlock (k : Nat) {f : Block → Block} (edits : ∀ b, blockAside (f b) = blockAside b) (s : State) : OnlyBarriers s (modBlock k f s) := by
  refine ⟨?_, fun j => by rw [modBlock_grids], fun j => ?_⟩
  · unfold modBlock
    split <;> rfl
  · rw [mget_modBlock]
    split
    · next here => rw [here, Option.map_map, show blockAside ∘ f = blockAside from funext edits]
    · rfl

theorem onlyBarriers_putCbars {gid : Nat} {g : Grid} {s : State} (hg : mget s.grids gid = some g) (bars : List (Nat × Bar)) :
    OnlyBarriers s { s with grids := mput s.grids gid { g with cbars := bars } } := by
  refine ⟨rfl, fun k => ?_, fun _ => rfl⟩
  rw [mget_mput]
  split
  · next here =>
    rw [here, hg]
    rfl
  · rfl

theorem onlyBarriers_checkBar (bk n : Nat) (s : State) : OnlyBarriers s (checkBar bk n s) := by
  fun_cases checkBar bk n s
  case case2 => exact onlyBarriers_modBlock bk (fun _ => by rfl) s
  all_goals exact .refl s

theorem onlyBarriers_checkCluster (gid grp n : Nat) (s : State) : OnlyBarriers s (checkCluster gid grp n s) := by
  fun_cases checkCluster gid grp n s
  case case2 hg _ _ _ _ _ => exact (onlyBarriers_putCbars hg _).trans (.foldl (fun t m => onlyBarriers_modBlock _ (fun _ => by rfl) t) _ _)
  all_goals exact .refl s

theorem onlyBarriers_checkBlockArrival (bk n : Nat) (s : State) : OnlyBarriers s (checkBlockArrival bk n s) := by
  fun_cases checkBlockArrival bk n s
  case case3 hg _ _ =>
    refine .trans ?_ (onlyBarriers_checkCluster _ _ _ _)
    rw [modGrid, hg]
    exact onlyBarriers_putCbars hg _
  all_goals exact .refl s

theorem onlyBarriers_checkAllBars (bk : Nat) (s : State) : OnlyBarriers s (checkAllBars bk s) :=
  .trans (.foldl (fun t n => onlyBarriers_checkBar bk n t) _ s) (.foldl (fun t n => onlyBarriers_checkBlockArrival bk n t) _ _)

/-! ### The wave that retires -/

section
variable {key : Nat} {w : Wave} {s : State}

theorem unpark_of_not_parked (hw : mget s.waves key = some w) (unparked : w.parked = none) (asid : Nat) : unpark asid key s = s := by
  simp only [unpark, hw, unparked]

/-- A wave that is not parked retires: it has ended, and its block's barriers are tested without it. -/
theorem retireWave_of_present (hw : mget s.waves key = some w) (present : w.ended = false) (unparked : w.parked = none) :
    retireWave key s = checkAllBars w.blk (putWave key (endWave w) s) := by
  rw [retireWave, hw]
  simp only [present, Bool.false_eq_true, if_false]
  rw [← modWave_of_some hw]
  refine congrArg (fun t => checkAllBars w.blk (modWave key endWave t)) ?_
  repeat' split
  · exact unpark_of_not_parked hw unparked _
  all_goals rfl

end

end Sys2Proof.Machine
end

section
/-! SUPPORT. The test of a block's phases when END leaves it (R56, R89). -/
namespace Sys2Proof.Machine
open Sys2Proof

/-! ### Present waves -/

theorem mem_presentOf {s : State} {bk : Nat} {e : Nat × Wave} : e ∈ presentOf s bk ↔ e ∈ s.waves ∧ blockOfWave e.1 = bk ∧ e.2.ended = false := by
  simp only [presentOf, wavesOf, List.mem_filter, beq_iff_eq, Bool.not_eq_true', and_assoc]

/-- In a map with rising keys every entry is what its key reads. -/
theorem mget_of_mem {α : Type} {m : List (Nat × α)} (order : mapWf m = true) {e : Nat × α} (h : e ∈ m) : mget m e.1 = some e.2 := by
  induction m with
  | nil => cases h
  | cons f rest ih =>
    obtain ⟨above, tail⟩ := (mapWf_cons f rest).mp order
    rcases List.mem_cons.mp h with rfl | old
    · exact if_pos rfl
    · exact (if_neg (Nat.ne_of_lt (above e old))).trans (ih tail old)

/-- The present waves of the wave's block, but for itself. -/
def othersOf (s : State) (key bk : Nat) : List (Nat × Wave) := (presentOf s bk).filter (fun e => e.1 != key)

theorem mem_othersOf {s : State} {key bk : Nat} {e : Nat × Wave} : e ∈ othersOf s key bk ↔ e ∈ presentOf s bk ∧ e.1 ≠ key := by
  simp only [othersOf, List.mem_filter, bne_iff_ne]

/-- Once a wave has ended, the present waves are the others. -/
theorem mem_presentOf_of_ended {s t : State} {key bk : Nat} {u : Wave} (order : mapWf s.waves = true) (waves : t.waves = mput s.waves key u) (ended : u.ended = true)
    {e : Nat × Wave} : e ∈ presentOf t bk ↔ e ∈ othersOf s key bk := by
  rw [mem_othersOf, mem_presentOf, mem_presentOf, waves]
  constructor
  · rintro ⟨member, block, present⟩
    have other : e.1 ≠ key := by
      intro here
      have read := mget_of_mem (mapWf_mput order key u) member
      rw [here, mget_mput_same] at read
      rw [← Option.some.inj read, ended] at present
      cases present
    refine ⟨⟨(mem_mput member).resolve_left ?_, block, present⟩, other⟩
    exact fun same => other (congrArg Prod.fst same)
  · rintro ⟨⟨member, block, present⟩, other⟩
    exact ⟨(mem_mput_of_mem member key u).resolve_right (fun here => other here.1), block, present⟩

/-! ### Conditions -/

theorem samePhase_iff {x y : PhaseReq} : samePhase x y = true ↔ x.ck = y.ck ∧ x.cge = y.cge ∧ x.w32 = y.w32 ∧ x.ca = y.ca ∧ x.cval = y.cval := by
  simp only [samePhase, Bool.and_eq_true, beq_iff_eq, and_assoc]

/-- Where all name the condition of the first, any two name the same. -/
theorem samePhase_of_phasesAgree {ps : List (Nat × PhaseReq)} (agree : phasesAgree ps = true) {p q : Nat × PhaseReq} (hp : p ∈ ps) (hq : q ∈ ps) :
    samePhase p.2 q.2 = true := by
  cases ps with
  | nil => cases hp
  | cons first rest =>
    have like (e : Nat × PhaseReq) (h : e ∈ first :: rest) : samePhase first.2 e.2 = true := by
      rcases List.mem_cons.mp h with rfl | later
      · exact samePhase_iff.mpr ⟨rfl, rfl, rfl, rfl, rfl⟩
      · exact List.all_eq_true.mp agree e later
    obtain ⟨ck, cge, w32, ca, cval⟩ := samePhase_iff.mp (like p hp)
    obtain ⟨ck', cge', w32', ca', cval'⟩ := samePhase_iff.mp (like q hq)
    exact samePhase_iff.mpr ⟨ck.symm.trans ck', cge.symm.trans cge', w32.symm.trans w32', ca.symm.trans ca', cval.symm.trans cval'⟩

theorem phasesAgree_of_all {ps : List (Nat × PhaseReq)} (h : ∀ p ∈ ps, ∀ q ∈ ps, samePhase p.2 q.2 = true) : phasesAgree ps = true := by
  cases ps with
  | nil => rfl
  | cons first rest => exact List.all_eq_true.mpr (fun q hq => h first List.mem_cons_self q (List.mem_cons_of_mem _ hq))

/-- The later of the PHASE found so far, given by its wave and its order, and another. -/
def laterPhase (best : Nat × Nat) (p : Nat × PhaseReq) : Nat × Nat := if best.2 ≤ p.2.ord then (p.1, p.2.ord) else best

theorem foldl_laterPhase (ps : List (Nat × PhaseReq)) (best : Nat × Nat) : (∃ p ∈ ps, p.1 = (ps.foldl laterPhase best).1) ∨ ps.foldl laterPhase best = best := by
  induction ps generalizing best with
  | nil => exact .inr rfl
  | cons p rest ih =>
    rcases ih (laterPhase best p) with ⟨q, hq, last⟩ | stays
    · exact .inl ⟨q, List.mem_cons_of_mem _ hq, last⟩
    · rw [List.foldl_cons, stays]
      by_cases later : best.2 ≤ p.2.ord
      · exact .inl ⟨p, List.mem_cons_self, by rw [laterPhase, if_pos later]⟩
      · exact .inr (if_neg later)

/-- The wave that executed its PHASE last is one of those at a PHASE. -/
theorem lastPhase_mem {ps : List (Nat × PhaseReq)} (some_ : ps ≠ []) : ∃ p ∈ ps, p.1 = lastPhase ps := by
  cases ps with
  | nil => exact absurd rfl some_
  | cons p rest =>
    have first : lastPhase (p :: rest) = (rest.foldl laterPhase (p.1, p.2.ord)).1 := congrArg (fun b => (rest.foldl laterPhase b).1) (if_pos (Nat.zero_le _))
    rw [first]
    rcases foldl_laterPhase rest (p.1, p.2.ord) with ⟨q, hq, last⟩ | stays
    · exact ⟨q, List.mem_cons_of_mem _ hq, last⟩
    · exact ⟨p, List.mem_cons_self, (congrArg Prod.fst stays).symm⟩

section
variable {s : State} {bk : Nat}

theorem mem_allPhases {ps : List (Nat × PhaseReq)} (h : allPhases s bk = some ps) {k : Nat} {x : PhaseReq} :
    (k, x) ∈ ps ↔ ∃ w, (k, w) ∈ presentOf s bk ∧ w.phase = some x := by
  dsimp only [allPhases] at h
  split at h
  · cases h
    simp only [List.mem_filterMap, Option.map_eq_some_iff, Prod.mk.injEq, Prod.exists]
    constructor
    · rintro ⟨i, w, member, z, phase, rfl, rfl⟩
      exact ⟨w, member, phase⟩
    · rintro ⟨w, member, phase⟩
      exact ⟨k, w, member, x, phase, rfl, rfl⟩
  · cases h

/-- Any two present waves at a PHASE name the same condition. -/
def AgreeAt (ws : List (Nat × Wave)) : Prop := ∀ p ∈ ws, ∀ q ∈ ws, ∀ x y, p.2.phase = some x → q.2.phase = some y → samePhase x y = true

theorem checkPhases_of_agree (agree : AgreeAt (presentOf s bk)) : checkPhases bk s = s := by
  unfold checkPhases
  split
  · rfl
  · next ps all =>
    refine if_pos (phasesAgree_of_all ?_)
    rintro ⟨i, x⟩ hx ⟨j, y⟩ hy
    obtain ⟨p, hp, px⟩ := (mem_allPhases all).mp hx
    obtain ⟨q, hq, qy⟩ := (mem_allPhases all).mp hy
    exact agree _ hp _ hq x y px qy

/-- Where every present wave holds at a PHASE and two differ, the block of the last one's record faults at its word. -/
theorem checkPhases_of_differ (order : mapWf s.waves = true) (all : ∀ p ∈ presentOf s bk, p.2.phase ≠ none)
    (differ : ∃ p ∈ presentOf s bk, ∃ q ∈ presentOf s bk, ∃ x y, p.2.phase = some x ∧ q.2.phase = some y ∧ samePhase x y = false) :
    ∃ p ∈ presentOf s bk, checkPhases bk s = faultBlock p.2.blk p.2.idx p.2.wid (wordInfo p.2) illegalSpec s := by
  obtain ⟨⟨i, p⟩, hp, ⟨j, q⟩, hq, x, y, px, qy, unlike⟩ := differ
  have every : (presentOf s bk).all (fun e => e.2.phase.isSome) = true := List.all_eq_true.mpr (fun e he => Option.isSome_iff_ne_none.mpr (all e he))
  obtain ⟨ps, phases⟩ : ∃ ps, allPhases s bk = some ps := ⟨_, if_pos ⟨List.ne_nil_of_mem hp, every⟩⟩
  have hx : (i, x) ∈ ps := (mem_allPhases phases).mpr ⟨p, hp, px⟩
  have hy : (j, y) ∈ ps := (mem_allPhases phases).mpr ⟨q, hq, qy⟩
  have disagree : ¬ phasesAgree ps = true := fun agree => by
    rw [samePhase_of_phasesAgree agree hx hy] at unlike
    cases unlike
  obtain ⟨⟨k, z⟩, hz, last⟩ := lastPhase_mem (List.ne_nil_of_mem hx)
  obtain ⟨w, hw, -⟩ := (mem_allPhases phases).mp hz
  have read : mget s.waves (lastPhase ps) = some w := last ▸ mget_of_mem order (mem_presentOf.mp hw).1
  refine ⟨(k, w), hw, ?_⟩
  simp only [checkPhases, phases, if_neg disagree, read, faultAt]

end

end Sys2Proof.Machine
end

section
/-! SUPPORT. How a block ends (R63, R286): once it is marked as faulted, nothing that its fault goes on to do takes the mark away. -/
namespace Sys2Proof.Machine
open Sys2Proof

/-- How the block with a key is to end. -/
def endAsAt (bk : Nat) (s : State) : Option (Option EndAs) := (mget s.blocks bk).map Block.endAs

section
variable {bk : Nat}

theorem endAsAt_of_blocks {s t : State} (same : t.blocks = s.blocks) : endAsAt bk t = endAsAt bk s := by
  rw [endAsAt, same, endAsAt]

theorem endAsAt_modBlock (k : Nat) {f : Block → Block} (keeps : ∀ b, (f b).endAs = b.endAs) (s : State) : endAsAt bk (modBlock k f s) = endAsAt bk s := by
  rw [endAsAt, endAsAt, mget_modBlock]
  split
  · next here => rw [here, Option.map_map, show Block.endAs ∘ f = Block.endAs from funext keeps]
  · rfl

theorem endAsAt_putBlock_ne {k : Nat} (other : bk ≠ k) (b : Block) (s : State) : endAsAt bk (putBlock k b s) = endAsAt bk s := by
  rw [endAsAt, endAsAt, putBlock_blocks, mget_mput_ne _ _ other]

theorem endAsAt_foldl {α : Type} {f : State → α → State} {l : List α} (step : ∀ t, ∀ a ∈ l, endAsAt bk (f t a) = endAsAt bk t) (s : State) :
    endAsAt bk (l.foldl f s) = endAsAt bk s := by
  induction l generalizing s with
  | nil => rfl
  | cons a rest ih => rw [List.foldl_cons, ih (fun t x hx => step t x (List.mem_cons_of_mem _ hx)), step s a List.mem_cons_self]

/-- Barriers are no part of how a block ends. -/
theorem endAsAt_of_onlyBarriers {s t : State} (h : OnlyBarriers s t) : endAsAt bk t = endAsAt bk s := by
  have aside := congrArg (Option.map Block.endAs) (h.blocks bk)
  rwa [Option.map_map, Option.map_map] at aside

/-! ### Waves that stop -/

theorem putQueue_blocks (asid q : Nat) (x : SyncQueue) (s : State) : (putQueue asid q x s).blocks = s.blocks := modCtx_blocks _ _ _

theorem unpark_blocks (asid key : Nat) (s : State) : (unpark asid key s).blocks = s.blocks := by
  fun_cases unpark asid key s
  case case2 => rw [modWave_blocks, putQueue_blocks]
  all_goals rfl

@[simp] theorem endAsAt_retireWave (key : Nat) (s : State) : endAsAt bk (retireWave key s) = endAsAt bk s := by
  unfold retireWave
  split
  · rfl
  · split
    · rfl
    · refine (endAsAt_of_onlyBarriers (onlyBarriers_checkAllBars _ _)).trans (endAsAt_of_blocks ?_)
      rw [modWave_blocks]
      repeat' split
      · exact unpark_blocks _ _ _
      all_goals rfl

@[simp] theorem endAsAt_stopBlock (k : Nat) (s : State) : endAsAt bk (stopBlock k s) = endAsAt bk s := by
  refine (endAsAt_foldl (fun t i _ => endAsAt_retireWave i t) _).trans (endAsAt_foldl (fun t i _ => ?_) s)
  exact endAsAt_of_blocks (modWave_blocks _ _ _)

theorem foldl_modWave_blocks {α : Type} (key : α → Nat) (f : α → Wave → Wave) (l : List α) (s : State) :
    (l.foldl (fun t a => modWave (key a) (f a) t) s).blocks = s.blocks := by
  induction l generalizing s with
  | nil => rfl
  | cons a rest ih => rw [List.foldl_cons, ih, modWave_blocks]

theorem discardHeld_blocks (asid k : Nat) (s : State) : (discardHeld asid k s).blocks = s.blocks := by
  have withdrawn (p : Nat → Bool) (l : List HeldPush) : (l.foldl (fun t h => modWave h.key (ackSt h.no) t) (withdrawHeld asid p s)).blocks = s.blocks :=
    (foldl_modWave_blocks HeldPush.key (fun h => ackSt h.no) l _).trans (modCtx_blocks _ _ _)
  unfold discardHeld
  split
  · rfl
  · dsimp only
    repeat' split
    all_goals exact withdrawn _ _

@[simp] theorem endAsAt_discardHeld (asid k : Nat) (s : State) : endAsAt bk (discardHeld asid k s) = endAsAt bk s :=
  endAsAt_of_blocks (discardHeld_blocks asid k s)

/-! ### Fault records, logs, completions -/

theorem physPut_blocks (a : Nat) (bs : List Byte) (s : State) : (physPut a bs s).blocks = s.blocks := by rw [physPut_frame]

theorem raiseVector_blocks (asid vector : Nat) (s : State) : (raiseVector asid vector s).blocks = s.blocks := by
  unfold raiseVector
  split <;> rfl

@[simp] theorem endAsAt_pushFault (asid : Nat) (words : List Word64) (s : State) : endAsAt bk (pushFault asid words s) = endAsAt bk s := by
  refine endAsAt_of_blocks ?_
  fun_cases pushFault asid words s
  case case1 => rfl
  case case2 => exact (modCtx_blocks _ _ _).trans (physPut_blocks _ _ _)
  case case3 => exact (raiseVector_blocks _ _ _).trans ((modCtx_blocks _ _ _).trans ((physPut_blocks _ _ _).trans (physPut_blocks _ _ _)))

theorem postCompletion_blocks (n tag kind code : Nat) (s : State) : (postCompletion n tag kind code s).blocks = s.blocks := by
  unfold postCompletion writeCompletion
  dsimp only
  split
  · rfl
  · rw [emit_blocks, physPut_blocks]

theorem logAppend_blocks (asid w0 w1 w2 w3 : Nat) (s : State) : (logAppend asid w0 w1 w2 w3 s).blocks = s.blocks := by rw [logAppend_frame]

theorem statusOp_blocks {gid num : Nat} {s t : State} (h : statusOp gid num s = some t) : t.blocks = s.blocks := by
  unfold statusOp at h
  split at h
  · cases h
    rfl
  · rw [quernOp_frame h]

/-! ### Sync words -/

@[simp] theorem endAsAt_blockRunnable (gid num : Nat) (s : State) : endAsAt bk (blockRunnable gid num s) = endAsAt bk s := by
  fun_cases blockRunnable gid num s
  case case3 => exact endAsAt_modBlock _ (fun _ => by rfl) _
  all_goals rfl

@[simp] theorem endAsAt_syncWrite (asid a : Nat) (x : Word64) (s : State) : endAsAt bk (syncWrite asid a x s) = endAsAt bk s := by
  unfold syncWrite
  split
  · rfl
  · refine (endAsAt_of_blocks (wakePhases_blocks _ _)).trans ?_
    split
    · refine (endAsAt_foldl (fun t p _ => ?_) _).trans (endAsAt_of_blocks (modCtx_blocks _ _ _))
      exact endAsAt_blockRunnable p.1 p.2 t
    · exact endAsAt_of_blocks (modCtx_blocks _ _ _)

@[simp] theorem endAsAt_plainWrite (asid a : Nat) (x : Word64) (s : State) : endAsAt bk (plainWrite asid a x s) = endAsAt bk s := by
  fun_cases plainWrite asid a x s
  case case2 => exact endAsAt_syncWrite _ _ _ _
  all_goals rfl

@[simp] theorem endAsAt_counterDec (asid a : Nat) (s : State) : endAsAt bk (counterDec asid a s) = endAsAt bk s := by
  fun_cases counterDec asid a s
  case case3 => exact endAsAt_plainWrite _ _ _ _
  all_goals rfl

theorem syncWrite32_blocks (asid a : Nat) (x : Word32) (s : State) : (syncWrite32 asid a x s).blocks = s.blocks := by
  fun_cases syncWrite32 asid a x s
  case case1 => rfl
  case case2 => rw [wakePhases_blocks, modCtx_blocks]

theorem askGroup_blocks (gid num : Nat) (s : State) : (askGroup gid num s).blocks = s.blocks := by rw [askGroup_frame]

theorem freeSlice_blocks (asid : Nat) (b : Block) (s : State) : (freeSlice asid b s).blocks = s.blocks := by
  fun_cases freeSlice asid b s
  case case1 => exact modCtx_blocks _ _ _
  case case2 => rfl

theorem checkGridBar_blocks (gid n : Nat) (s : State) : (checkGridBar gid n s).blocks = s.blocks := by
  fun_cases checkGridBar gid n s
  case case2 => rw [wakePhases_blocks, modGrid_blocks]
  all_goals rfl

/-! ### The other blocks of a grid that ends -/

@[simp] theorem endAsAt_checkGridDone (gid : Nat) (s : State) : endAsAt bk (checkGridDone gid s) = endAsAt bk s := by
  unfold checkGridDone
  split
  · rfl
  · next g hg =>
    split
    · rfl
    · extract_lets s1 s2 s3
      have counted : endAsAt bk s2 = endAsAt bk s := by
        unfold s2
        split
        · rfl
        · exact endAsAt_counterDec _ _ s1
      have told : endAsAt bk s3 = endAsAt bk s := by
        refine .trans ?_ counted
        unfold s3
        split
        · exact endAsAt_of_blocks (postCompletion_blocks _ _ _ _ _)
        · rfl
      refine .trans ?_ told
      repeat' split
      · rfl
      · rfl
      · rfl
      · refine endAsAt_of_blocks ((modCtx_blocks _ _ _).trans ?_)
        split
        · rfl
        · exact logAppend_blocks _ _ _ _ _ _

theorem endAsAt_setStatus {gid num : Nat} (other : bk ≠ blockKey gid num) (x : Word32) (s : State) : endAsAt bk (setStatus gid num x s) = endAsAt bk s := by
  unfold setStatus
  extract_lets u
  have admitted : endAsAt bk u = endAsAt bk s := by
    unfold u
    split
    · rfl
    · cases h : statusOp gid num s with
      | none => rfl
      | some t => exact endAsAt_of_blocks (statusOp_blocks h)
  refine .trans ?_ admitted
  split
  · rfl
  · next g hg =>
    split
    · rfl
    · refine (endAsAt_checkGridDone _ _).trans ((endAsAt_foldl (fun t n _ => endAsAt_of_blocks (checkGridBar_blocks _ _ _)) _).trans
        ((endAsAt_foldl (fun t n _ => endAsAt_of_onlyBarriers (onlyBarriers_checkCluster _ _ _ _)) _).trans ?_))
      refine (endAsAt_of_blocks ((syncWrite32_blocks _ _ _ _).trans ((askGroup_blocks _ _ _).trans (freeSlice_blocks _ _ _)))).trans ?_
      exact congrArg (Option.map Block.endAs) (mget_mput_ne _ _ other)

theorem endAsAt_endOther {gid num : Nat} (other : bk ≠ blockKey gid num) (s : State) : endAsAt bk (endOther gid num s) = endAsAt bk s := by
  unfold endOther
  split
  · rfl
  · split
    · rfl
    · dsimp only
      split
      · exact endAsAt_setStatus other _ _
      · rw [endAsAt_discardHeld]
        split
        · exact (endAsAt_stopBlock _ _).trans (endAsAt_putBlock_ne other _ s)
        · exact (endAsAt_foldl (fun t k _ => endAsAt_retireWave k t) _).trans (endAsAt_putBlock_ne other _ s)

theorem endAsAt_endGrid {gid num : Nat} (own : bk = blockKey gid num) (s : State) : endAsAt bk (endGrid gid (some num) s) = endAsAt bk s := by
  unfold endGrid
  split
  · rfl
  · refine endAsAt_foldl (fun t n _ => ?_) s
    split
    · rfl
    · next kept =>
      refine endAsAt_endOther (fun same => kept ?_) t
      have keys : blockKey gid num = blockKey gid n := own.symm.trans same
      exact congrArg some (Nat.add_left_cancel keys)

/-! ### The block that faults -/

/-- A running block that takes a hard fault is to end as faulted, whether its grid ends with it or not. -/
theorem endAsAt_faultBlock {b : Block} {g : Grid} {s : State} (hb : mget s.blocks bk = some b) (hg : mget s.grids b.gid = some g) (own : bk = blockKey b.gid b.num)
    (running : b.life = .running) (unmarked : b.endAs = none) (widx : Nat) (wid : Word64) (info : WordInfo) (f : FaultSpec) :
    endAsAt bk (faultBlock bk widx wid info f s) = some (some .faulted) := by
  have takes : ¬ (b.endAs = some .faulted ∨ b.endAs = some .gridFault ∨ b.life = .done) := by simp [running, unmarked]
  have awake : ¬ b.life = .phase := by simp [running]
  have marked (r : State) (h : endAsAt bk r = endAsAt bk s) {e : Block → Block} (marks : ∀ x, (e x).endAs = some .faulted) :
      endAsAt bk (modBlock bk e r) = some (some .faulted) := by
    obtain ⟨c, hc, -⟩ := Option.map_eq_some_iff.mp (h.trans (congrArg (Option.map Block.endAs) hb))
    rw [endAsAt, mget_modBlock, if_pos rfl, hc, Option.map_some, Option.map_some, marks]
  simp only [faultBlock, hb, hg, if_neg takes, if_neg awake]
  split
  · rw [endAsAt_endGrid own, endAsAt_discardHeld, endAsAt_stopBlock, endAsAt_retireWave]
    exact marked _ (endAsAt_pushFault _ _ _) (fun _ => by rfl)
  · rw [endAsAt_discardHeld, endAsAt_stopBlock, endAsAt_retireWave]
    exact marked _ (endAsAt_pushFault _ _ _) (fun _ => by rfl)

end

end Sys2Proof.Machine
end

section
/-! SUPPORT. END (R56, R89): the wave it retires, and the phases of those it leaves. -/
namespace Sys2Proof.Machine
open Sys2Proof

section
variable {j : JW} {v : View} {m : Word32} {s : State}

/-- The wave that END has retired. -/
def endedWave (v : View) : Wave := endWave (advance v.w)

/-- The state in which END has retired the wave, before the phases of its block are tested. -/
def endedState (v : View) (s : State) : State := checkAllBars v.w.blk (putWave v.key (endedWave v) s)

variable (h : Acts j.guard [] [] v m s) (present : v.w.ended = false) (unparked : v.w.parked = none)

theorem onlyBarriers_endedState (v : View) (s : State) : OnlyBarriers (putWave v.key (endedWave v) s) (endedState v s) := onlyBarriers_checkAllBars _ _

theorem endedState_waves (v : View) (s : State) : (endedState v s).waves = mput s.waves v.key (endedWave v) :=
  (onlyBarriers_endedState v s).waves

include h present unparked in
theorem exec_endWave : exec (.endWave j) s = .next (checkPhases v.w.blk (endedState v s)) := by
  refine (word_of_issues h.issues _ : execEndWave j s = _).trans ?_
  rw [retireWave_of_present (mget_putWave_same _ _ _) ((advance_ended _).trans present) ((advance_parked _).trans unparked), advance_blk, putWave_putWave]
  rfl

theorem mayIssue_of_ended {s : State} {key : Nat} {w : Wave} (hw : mget s.waves key = some w) (ended : w.ended = true) : mayIssue s key = false := by
  unfold mayIssue
  split
  · rfl
  · next u hu =>
    have same : u.w = w := Option.some.inj ((viewOf_wave hu).symm.trans hw)
    simp [same, ended]

/-- What the state that END leaves keeps: registers, every other wave, memory, tags and contexts, and every block but for barriers. -/
theorem endedState_law (v : View) (s : State) : ∃ w', mget (endedState v s).waves v.key = some w' ∧ w'.ended = true ∧ w'.clause = none ∧
    w'.s = v.w.s ∧ w'.k = v.w.k ∧ w'.v = v.w.v ∧ mayIssue (endedState v s) v.key = false ∧
    (∀ k, k ≠ v.key → mget (endedState v s).waves k = mget s.waves k) ∧ (endedState v s).mem = s.mem ∧ (endedState v s).tags = s.tags ∧ (endedState v s).ctxs = s.ctxs ∧
    ∀ k b, mget s.blocks k = some b → ∃ b', mget (endedState v s).blocks k = some b' ∧ b' = { b with bars := b'.bars, cArr := b'.cArr } := by
  have read : mget (endedState v s).waves v.key = some (endedWave v) := by rw [endedState_waves, mget_mput_same]
  have bars := onlyBarriers_endedState v s
  exact ⟨endedWave v, read, rfl, rfl, advance_s _, advance_k _, advance_v _, mayIssue_of_ended read rfl, fun k other => by rw [endedState_waves, mget_mput_ne _ _ other],
    bars.mem, bars.tags, bars.ctxs, fun k b hb => bars.mget_blocks hb⟩

theorem mem_presentOf_endedState (order : mapWf s.waves = true) {e : Nat × Wave} : e ∈ presentOf (endedState v s) v.w.blk ↔ e ∈ othersOf s v.key v.w.blk :=
  mem_presentOf_of_ended order (endedState_waves v s) rfl

include h present unparked in
/-- What does hold of END where the waves stand in the order of their keys: where the others name no two conditions, it retires its wave and does nothing else (`endedState_law`). -/
theorem exec_endWave_of_agree (order : mapWf s.waves = true) (agree : AgreeAt (othersOf s v.key v.w.blk)) : exec (.endWave j) s = .next (endedState v s) := by
  rw [exec_endWave h present unparked, checkPhases_of_agree]
  exact fun p hp q hq => agree p ((mem_presentOf_endedState order).mp hp) q ((mem_presentOf_endedState order).mp hq)

include h present unparked in
/-- What does hold of END where, besides, each of the others names the block in its record and the block its key: where they all hold at a PHASE and two differ, the block is to end as faulted (R56). -/
theorem exec_endWave_of_differ (order : mapWf s.waves = true) (records : ∀ p ∈ othersOf s v.key v.w.blk, p.2.blk = v.w.blk) (own : v.w.blk = blockKey v.b.gid v.b.num)
    (all : ∀ p ∈ othersOf s v.key v.w.blk, p.2.phase ≠ none)
    (differ : ∃ p ∈ othersOf s v.key v.w.blk, ∃ q ∈ othersOf s v.key v.w.blk, ∃ x y, p.2.phase = some x ∧ q.2.phase = some y ∧ samePhase x y = false)
    (running : v.b.life = .running) (unmarked : v.b.endAs = none) :
    ∃ t b', exec (.endWave j) s = .next t ∧ mget t.blocks v.w.blk = some b' ∧ b'.endAs = some .faulted := by
  have bars := onlyBarriers_endedState v s
  obtain ⟨-, -, hb, hg, -⟩ := viewOf_eq_some.mp h.view
  obtain ⟨b, hb', same⟩ := bars.mget_blocks hb
  obtain ⟨g, hg'⟩ := bars.mget_grids hg
  have gid : b.gid = v.b.gid := by rw [same]
  simp only [← mem_presentOf_endedState order] at records all differ
  obtain ⟨p, hp, faults⟩ := checkPhases_of_differ (endedState_waves v s ▸ mapWf_mput order _ _) all differ
  rw [records p hp] at faults
  have marked := endAsAt_faultBlock hb' (gid.symm ▸ hg') (own.trans (by rw [same])) (.trans (by rw [same]) running)
    (.trans (by rw [same]) unmarked) p.2.idx p.2.wid (wordInfo p.2) illegalSpec
  obtain ⟨b', hb'', faulted⟩ := Option.map_eq_some_iff.mp marked
  exact ⟨_, b', exec_endWave h present unparked, faults.symm ▸ hb'', faulted⟩

end

end Sys2Proof.Machine
end

section
/-! SUPPORT. Waves whose records name a block that there is not: the fault of R56 then reaches no block. -/
namespace Sys2Proof.Machine
open Sys2Proof

/-- A wave of block 0 by its key, present and at a PHASE on the tick counter, whose record names block 1. -/
def strayWave (idx tick : Nat) : Wave :=
  { freshWave overrunDesc 1 0 idx 0 with phase := some { ck := 5, cge := false, w32 := false, ca := 0, cval := BitVec.ofNat 64 tick, ord := idx } }

def strayBlock : Block := { freshBlock 0 0 with life := .running, core := some 0 }

def strayCtx : Ctx := { overrunCtx with log := none }

/-- Wave 0 of block 0 issues; waves 1 and 2 of it hold at PHASEs on two different ticks; there is no block 1. -/
def strayState : State :=
  { State.reset with
    sched := { State.reset.sched with cur := some 0 }
    ctxs := [(0, strayCtx)]
    grids := [(0, overrunGrid)]
    blocks := [(0, strayBlock)]
    waves := [(0, freshWave overrunDesc 0 0 0 0), (1, strayWave 1 1), (2, strayWave 2 2)] }

def strayView : View := { key := 0, w := freshWave overrunDesc 0 0 0 0, b := strayBlock, g := overrunGrid, c := strayCtx }

/-- END under the guard k0. -/
def plainEnd : JW := { guard := { g := 0, gn := false }, a := .none, b := .none, off := 0 }

theorem acts_plainEnd : Acts plainEnd.guard [] [] strayView 0xFFFFFFFF strayState :=
  ⟨⟨rfl, rfl, guardMask_k0 _, by decide, readiness_nil _ _⟩, rfl⟩

theorem othersOf_strayState : othersOf strayState 0 0 = [(1, strayWave 1 1), (2, strayWave 2 2)] := rfl

/-- END leaves the block as it is: the fault is raised for block 1, which there is not. -/
theorem endAsAt_end_strayState : endAsAt 0 (checkPhases 0 (endedState strayView strayState)) = some none := by decide +kernel

end Sys2Proof.Machine
end

section
namespace Sys2Proof
open Sys2Proof.Machine

/-- Refutes O16, in its second clause: it says that the block faults wherever the waves that END leaves hold at two different PHASEs, in every state. In `strayState` their records name a block that there is not, which the statement does not exclude, and the model raises the fault of R56 for the block that the record of the last PHASE names: block 0 goes on. Where the waves stand in the order of their keys the first clause holds (`exec_endWave_of_agree`, `endedState_law`), and where their records name their block the second does (`exec_endWave_of_differ`). -/
theorem not_endRetiresTheWave : ¬ Obligations.EndRetiresTheWave := by
  intro h
  obtain ⟨-, faults⟩ := h plainEnd strayView 0xFFFFFFFF strayState acts_plainEnd rfl rfl
  change (∀ p ∈ othersOf strayState 0 0, p.2.phase ≠ none) → (∃ p ∈ othersOf strayState 0 0, ∃ q ∈ othersOf strayState 0 0, _) → _ at faults
  rw [othersOf_strayState] at faults
  obtain ⟨t, b', next, read, faulted⟩ := faults (by decide) ⟨_, List.mem_cons_self, _, List.mem_cons_of_mem _ List.mem_cons_self, _, _, rfl, rfl, by decide⟩ rfl rfl
  have ended : checkPhases 0 (endedState strayView strayState) = t := Host.Outcome.next.inj ((exec_endWave acts_plainEnd rfl rfl).symm.trans next)
  have goes : endAsAt 0 t = some none := ended ▸ endAsAt_end_strayState
  have marked : endAsAt 0 t = some (some .faulted) := Option.map_eq_some_iff.mpr ⟨b', read, faulted⟩
  exact absurd (goes.symm.trans marked) (by decide)

end Sys2Proof
end

section
/-! SUPPORT. The words that wait for older operations, and the words that touch a pointer's tag or the near cache alone (R165 to R167, R171). -/
namespace Sys2Proof.Machine
open Sys2Proof

/-! ### Waits -/

section
variable {m : MW} {key : Nat} {w : Wave} {mask : Word32} {s : State}

theorem done_of_some (h : mget s.waves key = some w) : done key s = GoesOn key w s := congrArg Host.Outcome.next (modWave_of_some h advance)

theorem done_of_issues {g : Guard} {srcs : List Src} {dests : List (Operand × Nat)} (h : Issues g srcs dests key w mask s) : done key s = GoesOn key w s :=
  done_of_some (current_eq_some.mp h.wave).2

/-- What FENCE waits for: older loads, the side log (R125), and for release and full older stores. -/
theorem exec_fence (h : Issues m.guard [] [] key w mask s) : exec (.fence m) s =
    if loadsOut w = true ∨ hasLogged w = true ∨ (2 ≤ m.ord.toNat ∧ storesOut w = true) then .next s else GoesOn key w s := by
  rw [← done_of_issues h]
  exact (word_of_issues h _ : execFence m s = _)

theorem exec_waitc (h : Issues m.guard [plainSrc m m.b] [] key w mask s) : exec (.waitc m) s =
    if w.oc.at m.sub.toNat ≤ (rawOp w m.lit false m.b 0).toNat then GoesOn key w s else .next s := by
  rw [← done_of_issues h]
  exact (word_of_issues h _ : execWaitc m s = _)

/-- The counters that SUB 0 to 3 name. -/
theorem Counters.at_of_sub {c : Counters} {sub : BitVec 4} {n : Nat} (named : sub = 0 ∧ n = c.cpy ∨ sub = 1 ∧ n = c.mtx ∨ sub = 2 ∧ n = c.gat ∨ sub = 3 ∧ n = c.st) :
    c.at sub.toNat = n := by
  rcases named with ⟨rfl, rfl⟩ | ⟨rfl, rfl⟩ | ⟨rfl, rfl⟩ | ⟨rfl, rfl⟩ <;> rfl

end

/-! ### PTAG -/

/-- The pointer p with bits [63:60] replaced by bits [3:0] of x (R167). -/
def retag (p x : Word64) : Word64 := x.extractLsb' 0 4 ++ p.extractLsb' 0 60

theorem retag_address (p x : Word64) : (retag p x).extractLsb' 0 60 = p.extractLsb' 0 60 := BitVec.extractLsb'_append_eq_right

theorem retag_tag (p x : Word64) : (retag p x).extractLsb' 60 4 = x.extractLsb' 0 4 := BitVec.extractLsb'_append_eq_left

theorem retag_toNat (p x : Word64) : (retag p x).toNat = x.toNat % 16 * 2 ^ 60 + ptrAddr p.toNat := by
  have low : (p.extractLsb' 0 60).toNat < 2 ^ 60 := BitVec.isLt _
  rw [retag, BitVec.toNat_append, ← Nat.shiftLeft_add_eq_or_of_lt low, Nat.shiftLeft_eq]
  rfl

theorem exec_ptag {m : MW} {key : Nat} {w : Wave} {mask : Word32} {s : State}
    (h : Issues m.guard [ptrSrc m m.a, plainSrc m m.b] [(m.d, if isV m.d then 2 else 1)] key w mask s) :
    exec (.ptag m) s = GoesOn key (putLanes .b64 m.d mask (fun i => (retag (rawOp w m.lit true m.a i) (rawOp w m.lit false m.b 0)).toNat) w) s := by
  simp only [retag_toNat]
  exact (word_of_issues h _ : execPtag m s = _)

/-! ### PREF -/

/-- The state t is s but for lines that the near cache has come to hold. -/
structure HoldsMore (s t : State) : Prop where
  rest : t = { s with near := t.near }
  kept : ∀ l b, mget s.near l = some b → mget t.near l = some b

namespace HoldsMore

theorem refl (s : State) : HoldsMore s s := ⟨rfl, fun _ _ => id⟩

theorem trans {s t u : State} (first : HoldsMore s t) (second : HoldsMore t u) : HoldsMore s u where
  rest := second.rest.trans (congrArg (fun x : State => { x with near := u.near }) first.rest)
  kept l b h := second.kept l b (first.kept l b h)

theorem foldl {α : Type} {f : State → α → State} (step : ∀ t a, HoldsMore t (f t a)) (as : List α) (s : State) : HoldsMore s (as.foldl f s) := by
  induction as generalizing s with
  | nil => exact refl s
  | cons a as ih => exact (step s a).trans (ih (f s a))

theorem waves {s t : State} (h : HoldsMore s t) : t.waves = s.waves := by rw [h.rest]

end HoldsMore

/-- A line that is held already stays as it is, so no modified line turns clean. -/
theorem holdsMore_holdLine (line : Nat) (s : State) : HoldsMore s (holdLine line s) := by
  fun_cases holdLine
  case case1 absent =>
    refine ⟨rfl, fun l b held => ?_⟩
    have other : l ≠ line := fun same => nomatch (same ▸ held).symm.trans absent
    exact (mget_mput_ne _ _ other).trans held
  case case2 => exact .refl s

theorem holdsMore_prefLine (v : View) (tag : Nat) (s : State) (l : Nat × Nat) : HoldsMore s (prefLine v tag s l) := by
  fun_cases prefLine
  case case1 => exact holdsMore_holdLine _ s
  all_goals exact .refl s

theorem exec_pref {m : MW} {v : View} {mask : Word32} {s : State} (h : Acts m.guard [ptrSrc m m.a, plainSrc m m.b] [] v mask s) :
    ∃ t, HoldsMore s t ∧ exec (.pref m) s = GoesOn v.key v.w t := by
  have asked := HoldsMore.foldl (fun t r => HoldsMore.foldl (holdsMore_prefLine v (ptrTag r.1)) (linePieces (ptrAddr r.1) r.2) t) (prefRanges m v.w mask) s
  obtain ⟨-, present, -⟩ := viewOf_eq_some.mp h.view
  exact ⟨_, asked, (viewWord_of_acts h _ : execPref m s = _).trans (done_of_some (asked.waves ▸ present))⟩

end Sys2Proof.Machine
end

section
namespace Sys2Proof
open Sys2Proof.Machine

/-- Settles O31: what FENCE and WAITC wait for is one condition each (`exec_fence`, `exec_waitc`), PTAG joins the tag and the address (`retag`), and PREF only adds lines to the near cache (`HoldsMore`). -/
theorem fenceWords : Obligations.FenceWords := by
  intro m key w mask s
  refine ⟨fun h => ?fence, fun h n named => ?waitc, fun h => ⟨_, exec_ptag h, fun i => ⟨retag_address _ _, retag_tag _ _⟩⟩, ?pref⟩
  case fence =>
    rw [exec_fence h]
    refine ⟨fun acquire loads logged => if_neg ?_, fun acquire out => if_pos (out.imp_right .inl),
      fun release loads logged stores => if_neg ?_, fun release out => if_pos (out.imp_right (.imp_right (.intro release)))⟩
    · rintro (out | out | ⟨release, -⟩)
      · exact loads out
      · exact logged out
      · exact absurd (acquire ▸ release) (by decide)
    · rintro (out | out | ⟨-, out⟩)
      · exact loads out
      · exact logged out
      · exact stores out
  case waitc =>
    rw [exec_waitc h, Counters.at_of_sub named]
    exact ⟨fun low => if_pos low, fun high => if_neg (Nat.not_le_of_lt high)⟩
  case pref =>
    rintro v rfl rfl h
    obtain ⟨t, more, goes⟩ := exec_pref h
    exact ⟨t.near, goes.trans (congrArg (GoesOn v.key v.w) more.rest), more.kept⟩

end Sys2Proof
end

section
/-! SUPPORT. The A window (R8, R116, R120): which ranges lie in a block's allocation, the lines of a range, and the granules and units that an access is cut into. -/
namespace Sys2Proof.Machine
open Sys2Proof

/-! ### Ranges of the A window (R116) -/

/-- The n bytes from an address lie in the A window, within a block's allocation. -/
structure InA (d : Desc) (addr n : Nat) : Prop where
  start : aBase ≤ addr
  window : addr + n ≤ sBase
  bound : addr + n ≤ aBase + d.au * 4096

theorem windowOf_eq_a {addr : Nat} : windowOf addr = .a ↔ aBase ≤ addr ∧ addr < sBase := by
  fun_cases windowOf <;> simp [*]

/-- The check of R116 passes for a range of the A window where the whole of it lies in the allocation. -/
theorem inA_of_checkWindow {d : Desc} {addr n : Nat} (check : checkWindow d addr n = .ok) (window : windowOf addr = .a) (some_ : 0 < n) : InA d addr n := by
  obtain ⟨low, -⟩ := windowOf_eq_a.mp window
  simp only [checkWindow, window] at check
  split_ifs at check
  exact ⟨low, by omega, by omega⟩

section
variable {d : Desc} {addr n : Nat}

theorem InA.windowOf (h : InA d addr n) (some_ : 0 < n) : windowOf addr = .a := windowOf_eq_a.mpr ⟨h.start, by have := h.window; omega⟩

theorem InA.checkWindow (h : InA d addr n) (some_ : 0 < n) : checkWindow d addr n = .ok := by
  have window := h.window
  have bound := h.bound
  have top : sBase < 2 ^ 60 := by decide
  simp only [Machine.checkWindow, h.windowOf some_]
  rw [if_neg (by omega), if_neg (by omega), if_neg (by omega)]

/-- A range within a range of the allocation. -/
theorem InA.sub (h : InA d addr n) {a m : Nat} (low : addr ≤ a) (high : a + m ≤ addr + n) : InA d a m :=
  ⟨h.start.trans low, high.trans h.window, high.trans h.bound⟩

end

/-! ### Lines (R120) -/

theorem mem_linesOf {addr n l : Nat} : l ∈ linesOf addr n ↔ 0 < n ∧ (addr - aBase) / 128 ≤ l ∧ l ≤ (addr - aBase + n - 1) / 128 := by
  fun_cases linesOf
  · simp; omega
  · simp only [List.mem_map, List.mem_range]
    refine ⟨?_, fun ⟨_, low, high⟩ => ⟨l - (addr - aBase) / 128, by omega, by omega⟩⟩
    rintro ⟨j, hj, rfl⟩
    have : (addr - aBase) / 128 ≤ (addr - aBase + n - 1) / 128 := Nat.div_le_div_right (by omega)
    omega

theorem InA.aLines {d : Desc} {addr n : Nat} (h : InA d addr n) : aLines addr n = linesOf addr n := by
  rcases Nat.eq_zero_or_pos n with rfl | some_
  · simp [Machine.aLines, linesOf]
  · exact if_pos (h.windowOf some_)

/-- The lines that the first m bytes of a range complete, with those of the bytes left, are the lines of the range. -/
theorem mem_doneLines_append {d : Desc} {addr n m l : Nat} (h : InA d addr n) (part : m ≤ n) (some_ : 0 < m) :
    l ∈ doneLines (aLines addr m) (aLines (addr + m) (n - m)) ++ linesOf (addr + m) (n - m) ↔ l ∈ linesOf addr n := by
  have low := h.start
  rw [(h.sub le_rfl (by omega) : InA d addr m).aLines, (h.sub (by omega) (by omega) : InA d (addr + m) (n - m)).aLines]
  simp only [doneLines, List.mem_append, List.mem_filter, List.contains_eq_mem, Bool.not_eq_true', decide_eq_false_iff_not, mem_linesOf]
  omega

/-! ### Granules and units -/

/-- A range is cut at the first multiple of m after its start, and what is left is cut in the same way. -/
theorem parts_cons {m : Nat} (hm : 0 < m) (addr : Nat) {n : Nat} (some_ : 0 < n) :
    parts m addr n = (addr, min n (m - addr % m)) :: parts m (addr + min n (m - addr % m)) (n - min n (m - addr % m)) := by
  have cut := Nat.div_add_mod addr m
  have inside := Nat.mod_lt addr hm
  have next : (addr / m + 1) * m = addr + (m - addr % m) := by rw [Nat.add_mul, Nat.mul_comm]; omega
  have first : max addr (addr / m * m) = addr := by rw [Nat.mul_comm]; omega
  rcases Nat.lt_or_ge (m - addr % m) n with long | short
  · have starts : (addr + (m - addr % m)) / m = addr / m + 1 := by rw [← next, Nat.mul_div_cancel _ hm]
    have ends : addr / m + 1 ≤ (addr + n - 1) / m := by rw [Nat.le_div_iff_mul_le hm]; omega
    have whole : addr + (m - addr % m) + (n - (m - addr % m)) = addr + n := by omega
    simp only [parts, if_neg some_.ne', if_neg (Nat.sub_ne_zero_of_lt long), Nat.min_eq_right long.le, starts, whole]
    rw [show (addr + n - 1) / m - addr / m + 1 = (addr + n - 1) / m - (addr / m + 1) + 1 + 1 by omega, List.range_succ_eq_map, List.map_cons, List.map_map]
    congr 1
    · simp only [Nat.add_zero, first, next]
      congr 1; omega
    · refine List.map_congr_left fun j _ => ?_
      have above : (addr / m + 1) * m ≤ (addr / m + 1 + j) * m := Nat.mul_le_mul_right m (by omega)
      simp only [Function.comp, Nat.succ_eq_add_one, show addr / m + (j + 1) = addr / m + 1 + j by omega]
      rw [max_eq_right (by omega), max_eq_right (by omega)]
  · have last : (addr + n - 1) / m = addr / m := by
      rw [Nat.div_eq_iff hm]
      have := Nat.mul_comm m (addr / m)
      omega
    simp only [parts, if_neg some_.ne', last, Nat.min_eq_left short]
    simp [first, next, short]

/-- A part lies in its range. -/
theorem mem_parts {m : Nat} (hm : 0 < m) {addr n : Nat} {p : Nat × Nat} (h : p ∈ parts m addr n) : addr ≤ p.1 ∧ 0 < p.2 ∧ p.1 + p.2 ≤ addr + n := by
  induction n using Nat.strong_induction_on generalizing addr with
  | _ n ih =>
    rcases Nat.eq_zero_or_pos n with rfl | some_
    · simp [parts] at h
    · have := Nat.mod_lt addr hm
      rw [parts_cons hm addr some_] at h
      rcases List.mem_cons.mp h with rfl | h
      · simp only; omega
      · have := ih _ (by omega) h
        omega

end Sys2Proof.Machine
end

section
/-! SUPPORT. The copy engine in the A window (R120, R161 to R164): what it reads and writes there, and the lines it fills. -/
namespace Sys2Proof.Machine
open Sys2Proof

/-! ### Bytes of an allocation -/

theorem cellsGet_eq_map (m : List Host.Cell) (a n : Nat) : cellsGet m a n = (List.range n).map (fun j => mgetD m (a + j) blankByte) := by
  induction n generalizing a with
  | zero => rfl
  | succ n ih =>
    rw [cellsGet, ih, List.range_succ_eq_map, List.map_cons, List.map_map]
    refine congrArg _ (List.map_congr_left fun j _ => ?_)
    simp only [Function.comp, Nat.succ_eq_add_one, Nat.add_assoc, Nat.add_comm 1 j]

theorem cellsGet_append (m : List Host.Cell) (a n k : Nat) : cellsGet m a n ++ cellsGet m (a + n) k = cellsGet m a (n + k) := by
  simp only [cellsGet_eq_map, List.range_add, List.map_append, List.map_map, Function.comp_def, Nat.add_assoc]

theorem cellsPut_append (m : List Host.Cell) (a : Nat) (as bs : List Byte) : cellsPut m a (as ++ bs) = cellsPut (cellsPut m a as) (a + as.length) bs := by
  induction as generalizing m a with
  | nil => rfl
  | cons x as ih => rw [List.cons_append, cellsPut, ih, cellsPut, List.length_cons, Nat.add_assoc, Nat.add_comm 1]

/-- A write leaves what is read beside it. -/
theorem cellsGet_cellsPut_of_disjoint (m : List Host.Cell) {a n a' : Nat} {bs : List Byte} (apart : a + n ≤ a' ∨ a' + bs.length ≤ a) :
    cellsGet (cellsPut m a' bs) a n = cellsGet m a n := by
  simp only [cellsGet_eq_map]
  refine List.map_congr_left fun j hj => ?_
  rw [List.mem_range] at hj
  rw [mgetD_cellsPut, dif_neg (by omega)]

/-- A copy of n bytes within one map. -/
theorem mgetD_cellsPut_cellsGet (m : List Host.Cell) (to_ from_ n x : Nat) :
    mgetD (cellsPut m to_ (cellsGet m from_ n)) x blankByte = if to_ ≤ x ∧ x < to_ + n then mgetD m (x - to_ + from_) blankByte else mgetD m x blankByte := by
  rw [mgetD_cellsPut]
  simp only [cellsGet_eq_map, List.length_map, List.length_range, List.getElem_map, List.getElem_range, Nat.add_comm from_, dite_eq_ite]

/-! ### Reads and writes in the A window -/

section
variable {v : View} {s : State} {lane addr n : Nat}

theorem placeOf_a (s : State) (v : View) (lane : Nat) (write : Bool) (h : windowOf addr = .a) : placeOf s v lane addr write = .a (addr - aBase) := by
  simp only [placeOf, h]

/-- What is read from a range of the allocation. -/
theorem bytesAt_a {b : Block} (h : InA v.g.d addr n) (hb : mget s.blocks v.w.blk = some b) : bytesAt s v lane addr n = cellsGet b.a (addr - aBase) n := by
  have low := h.start
  simp only [bytesAt, cellsGet_eq_map]
  refine List.map_congr_left fun j hj => ?_
  rw [List.mem_range] at hj
  rw [placeOf_a s v lane false ((h.sub (by omega) (by omega) : InA v.g.d (addr + j) 1).windowOf Nat.one_pos)]
  simp only [placeByte, hb, Nat.sub_add_comm low]

theorem checkAccess_a (s : State) (k : Kind) (tag : Option Nat) (h : InA v.g.d addr n) (some_ : 0 < n) : checkAccess s v k tag addr n = .ok := by
  simp only [checkAccess, h.checkWindow some_, h.windowOf some_]

/-- The allocation holds no lost data, and its accesses mark no leaf and leave no package. -/
theorem lostUnit_a (s : State) (lane n : Nat) (h : windowOf addr = .a) : lostUnit s v lane addr n = false := by
  simp only [lostUnit, lostFrom, h, Option.isSome_none]

theorem recordAccs_a (s : State) (write : Bool) (lane m : Nat) (h : InA v.g.d addr n) (some_ : 0 < n) : recordAccs v write m [(lane, addr)] s = s := by
  have window := h.window
  have top : sBase < 2 ^ 60 := by decide
  have whole : ptrAddr addr = addr := Nat.mod_eq_of_lt (by omega)
  simp only [recordAccs, List.foldl_cons, List.foldl_nil, whole, h.windowOf some_, reduceCtorEq, if_false]

theorem sendReads_a (s : State) (lane : Nat) (h : InA v.g.d addr n) : sendReads v lane addr n s = s := by
  refine List.foldlRecOn (motive := (· = s)) _ _ rfl fun t same p hp => ?_
  subst same
  obtain ⟨low, some_, high⟩ := mem_parts (by decide) hp
  simp only [placeOf_a t v lane false ((h.sub low high).windowOf some_)]

theorem firstBad_a (s : State) (k : Kind) (lane tag : Nat) (h : InA v.g.d addr n) : firstBad s v k lane tag (parts 32 addr n) = none := by
  have all : ∀ p ∈ parts 32 addr n, InA v.g.d p.1 p.2 ∧ 0 < p.2 := fun p hp => by
    obtain ⟨low, some_, high⟩ := mem_parts (by decide) hp
    exact ⟨h.sub low high, some_⟩
  generalize parts 32 addr n = ps at all
  induction ps with
  | nil => rfl
  | cons p ps ih =>
    obtain ⟨⟨inA, some_⟩, rest⟩ := List.forall_mem_cons.mp all
    simp only [firstBad, checkAccess_a s k _ inA some_, lostUnit_a s lane _ (inA.windowOf some_), Bool.false_eq_true, and_false, if_false]
    exact ih rest

/-- A granule lies in one unit. -/
theorem units_of_granule {a m : Nat} (some_ : 0 < m) (whole : m ≤ 32 - a % 32) : units a m = [(a, m)] := by
  have one : min m (65536 - a % 65536) = m := Nat.min_eq_left (by omega)
  simp only [units, unitsFrom, if_neg some_.ne', one, Nat.sub_self, if_true]

theorem putAt_a {bs : List Byte} (lane : Nat) (s : State) (h : InA v.g.d addr bs.length) (some_ : 0 < bs.length) (whole : bs.length ≤ 32 - addr % 32) :
    putAt v lane addr bs s = placePut v.w.blk (.a (addr - aBase)) bs s := by
  simp [putAt, units_of_granule some_ whole, placeOf_a _ v lane true (h.windowOf some_), h.windowOf some_]

/-- Two writes side by side are one. -/
theorem placePut_append (bk off : Nat) (as bs : List Byte) (s : State) :
    placePut bk (.a (off + as.length)) bs (placePut bk (.a off) as s) = placePut bk (.a off) (as ++ bs) s := by
  unfold placePut modBlock
  cases hb : mget s.blocks bk with
  | none => simp [hb]
  | some b => simp [mput_mput, cellsPut_append]

/-- No older operation holds an access. -/
structure Older.Free (o : Older) : Prop where
  acquire : o.acquire = false
  opens : o.opens = false
  writes : o.writes = []
  reads : o.reads = []

theorem Older.Free.holdsRead {o : Older} (free : o.Free) (s : State) (v : View) (x : Span) : o.holdsRead s v x = false := by
  simp [Older.holdsRead, free.acquire, free.opens, free.writes]

theorem Older.Free.holdsWrite {o : Older} (free : o.Free) (s : State) (v : View) (x : Span) : o.holdsWrite s v x = false := by
  simp [Older.holdsWrite, free.holdsRead, free.reads]

/-- Nothing is older than the oldest operation of its wave. -/
theorem olderThan_free {e : EngEntry} (after : e.after = 0) (oldest : ∀ x ∈ v.w.cpyQ ++ v.w.mtxQ ++ v.w.gatQ, x.ran = false → e.no ≤ x.no) : (olderThan v e).Free := by
  have none_ : (engOpen v.w).filter (fun x => decide (x.no < e.no)) = [] := by
    rw [List.filter_eq_nil_iff]
    intro x hx
    obtain ⟨queued, ran⟩ := List.mem_filter.mp hx
    simpa using oldest x queued (by simpa using ran)
  constructor <;> simp [olderThan, after, none_]

/-- A write of a range of the allocation, granule by granule. -/
theorem writeParts_a {o : Older} (free : o.Free) (lane tag : Nat) {bs : List Byte} (h : InA v.g.d addr bs.length) (some_ : 0 < bs.length) (s : State) :
    writeParts v o lane tag (parts 32 addr bs.length) bs s = .ok () (placePut v.w.blk (.a (addr - aBase)) bs s) := by
  induction hn : bs.length using Nat.strong_induction_on generalizing addr bs s with
  | _ n ih =>
    subst hn
    have low := h.start
    obtain ⟨m, hm⟩ : ∃ m, m = min bs.length (32 - addr % 32) := ⟨_, rfl⟩
    have first : InA v.g.d addr m := h.sub le_rfl (by omega)
    have length : (bs.take m).length = m := List.length_take_of_le (by omega)
    have put : putAt v lane addr (bs.take m) s = placePut v.w.blk (.a (addr - aBase)) (bs.take m) s :=
      putAt_a lane s (length.symm ▸ first) (by omega) (by omega)
    rw [parts_cons (by decide) addr some_, ← hm, writeParts, free.holdsWrite, checkAccess_a s .store _ first (by omega), put]
    simp only [Bool.false_eq_true, if_false]
    rcases Nat.eq_zero_or_pos (bs.length - m) with none_ | more
    · rw [none_, List.take_of_length_le (by omega)]
      rfl
    · have left : (bs.drop m).length = bs.length - m := List.length_drop
      rw [← left, ih _ (by omega) (bs := bs.drop m) (h.sub (by omega) (by omega)) (by omega) _ rfl, show addr + m - aBase = addr - aBase + (bs.take m).length by omega,
        placePut_append, List.take_append_drop]

/-- A range of the allocation none of whose lines is awaited is read and the engine goes on, the state as it was. -/
theorem readOr_a {o : Older} (free : o.Free) {e : EngEntry} (lane tag : Nat) (here : EngOp) (go : List Byte → State → Worked) (s : State) (h : InA v.g.d addr n) (some_ : 0 < n)
    (full : ¬ ∃ l ∈ linesOf addr n, l ∈ e.need) : readOr v e o lane tag addr n here go s = go (bytesAt s v lane addr n) s := by
  have lines : (aLines addr n).any (fun l => e.need.contains l) = false := by simpa [h.aLines] using full
  simp only [readOr, h.checkWindow some_, lines, readParts, free.holdsRead, firstBad_a s .load lane tag h, recordAccs_a s false lane n h some_, sendReads_a s lane h,
    Bool.false_eq_true, if_false]

/-- An awaited line holds the engine at its point. -/
theorem readOr_of_awaited {o : Older} {e : EngEntry} (lane tag : Nat) (here : EngOp) (go : List Byte → State → Worked) (s : State) (h : InA v.g.d addr n) (some_ : 0 < n)
    (awaited : ∃ l ∈ linesOf addr n, l ∈ e.need) : readOr v e o lane tag addr n here go s = .part here true s := by
  have lines : (aLines addr n).any (fun l => e.need.contains l) = true := by simpa [h.aLines] using awaited
  simp only [readOr, h.checkWindow some_, lines, if_true]

end

end Sys2Proof.Machine
end

section
/-! SUPPORT. A copy inside the A window as a whole (R120, R161, R164): the bytes it writes, the lines it fills, and what becomes of the operations that wait for them. -/
namespace Sys2Proof.Machine
open Sys2Proof

/-! ### Lines that are full again (R120) -/

/-- Operations of a queue no longer wait for these lines. -/
def withoutNeeds (ls : List Nat) (q : List EngEntry) : List EngEntry := q.map (fun e => { e with need := e.need.filter (fun l => !ls.contains l) })

/-- A wave no operation of which waits for these lines. -/
def waveWithout (ls : List Nat) (w : Wave) : Wave := { w with cpyQ := withoutNeeds ls w.cpyQ, mtxQ := withoutNeeds ls w.mtxQ, gatQ := withoutNeeds ls w.gatQ }

theorem fillFor_eq (bk : Nat) (ls : List Nat) (s : State) : fillFor bk ls s = mapWaves bk (waveWithout ls) (modBlock bk (fun b => { b with aE := ls.foldl sdel b.aE }) s) := rfl

theorem withoutNeeds_append (ls ms : List Nat) (q : List EngEntry) : withoutNeeds ms (withoutNeeds ls q) = withoutNeeds (ls ++ ms) q := by
  simp only [withoutNeeds, List.map_map]
  refine List.map_congr_left fun e _ => ?_
  simp only [Function.comp, List.filter_filter, List.contains_append, Bool.not_or, Bool.and_comm]

theorem waveWithout_append (ls ms : List Nat) (w : Wave) : waveWithout ms (waveWithout ls w) = waveWithout (ls ++ ms) w := by
  simp only [waveWithout, withoutNeeds_append]

theorem foldl_sdel_eq_filter (ls l : List Nat) : ls.foldl sdel l = l.filter (fun x => !ls.contains x) := by
  have one (k : Nat) (l : List Nat) : sdel l k = l.filter (fun x => x != k) := by
    induction l with
    | nil => rfl
    | cons j l ih => by_cases h : j = k <;> simp [sdel, h, ih]
  induction ls generalizing l with
  | nil => simp
  | cons k ls ih => simp only [List.foldl_cons, ih, one, List.filter_filter, List.contains_cons, Bool.not_or, bne, Bool.and_comm]

/-- Only which lines are filled matters. -/
theorem fillFor_congr (bk : Nat) {ls ms : List Nat} (same : ∀ l, l ∈ ls ↔ l ∈ ms) (s : State) : fillFor bk ls s = fillFor bk ms s := by
  have contains (l : Nat) : ls.contains l = ms.contains l := by rw [Bool.eq_iff_iff]; simpa using same l
  have waves : waveWithout ls = waveWithout ms := by funext w; simp only [waveWithout, withoutNeeds, contains]
  simp only [fillFor_eq, foldl_sdel_eq_filter, waves, contains]

theorem mapWaves_mapWaves (bk : Nat) (f g : Wave → Wave) (s : State) : mapWaves bk g (mapWaves bk f s) = mapWaves bk (g ∘ f) s := by
  simp only [mapWaves, List.map_map]
  congr 1
  refine List.map_congr_left fun e _ => ?_
  by_cases h : blockOfWave e.1 = bk <;> simp [h]

theorem mget_mapWaves {bk k : Nat} {w : Wave} {s : State} (own : blockOfWave k = bk) (hw : mget s.waves k = some w) (f : Wave → Wave) :
    mget (mapWaves bk f s).waves k = some (f w) := by
  have h := mget_map (fun k w => if blockOfWave k = bk then f w else w) s.waves k
  rw [hw, Option.map_some, if_pos own] at h
  rw [← h]
  refine congrArg (mget · k) (List.map_congr_left fun e _ => ?_)
  split <;> rfl

theorem modBlock_putBlock (k : Nat) (f : Block → Block) (b : Block) (s : State) : modBlock k f (putBlock k b s) = putBlock k (f b) s := by
  rw [modBlock_of_some (mget_mput_same _ _ _ : mget (putBlock k b s).blocks k = some b)]
  simp only [putBlock, mput_mput]

/-! ### Bytes written, and lines filled by them -/

/-- Bytes are written at an offset of a block's allocation, and lines of it filled. -/
def landed (bk off : Nat) (bs : List Byte) (ls : List Nat) (s : State) : State := fillFor bk ls (placePut bk (.a off) bs s)

section
variable {bk off : Nat} {bs : List Byte} {ls : List Nat} {s : State}

theorem landed_mem : (landed bk off bs ls s).mem = s.mem := (fillFor_mem _ _ _).trans (modBlock_mem _ _ _)

theorem landed_tags : (landed bk off bs ls s).tags = s.tags := (modBlock_tags _ _ _).trans (modBlock_tags _ _ _)

theorem landed_eq {b : Block} (hb : mget s.blocks bk = some b) :
    landed bk off bs ls s = mapWaves bk (waveWithout ls) (putBlock bk { b with a := cellsPut b.a off bs, aE := ls.foldl sdel b.aE } s) := by
  simp only [landed, placePut, modBlock_of_some hb, fillFor_eq, modBlock_putBlock]

theorem mget_landed_block {b : Block} (hb : mget s.blocks bk = some b) :
    mget (landed bk off bs ls s).blocks bk = some { b with a := cellsPut b.a off bs, aE := ls.foldl sdel b.aE } := by
  rw [landed_eq hb]
  exact mget_mput_same _ _ _

theorem mget_landed_wave {k : Nat} {w : Wave} (own : blockOfWave k = bk) (hw : mget s.waves k = some w) : mget (landed bk off bs ls s).waves k = some (waveWithout ls w) :=
  mget_mapWaves own (by simpa [placePut] using hw) _

/-- One stretch after another beside it is one stretch. -/
theorem landed_landed {b : Block} (hb : mget s.blocks bk = some b) (cs : List Byte) (ms : List Nat) :
    landed bk (off + bs.length) cs ms (landed bk off bs ls s) = landed bk off (bs ++ cs) (ls ++ ms) s := by
  have waves : waveWithout ms ∘ waveWithout ls = waveWithout (ls ++ ms) := funext (waveWithout_append ls ms)
  rw [landed_eq (mget_landed_block hb), landed_eq hb, landed_eq hb, ← waves, ← mapWaves_mapWaves]
  simp only [putBlock, mapWaves, mput_mput, cellsPut_append, List.foldl_append]

end

/-! ### CPY (R161) -/

section
variable {v : View} {e : EngEntry} {o : Older}

/-- A copy of n bytes inside the allocation from an offset to another, as it leaves the state. -/
def copiedInA (v : View) (dst src n : Nat) (s : State) : State := landed v.w.blk (dst - aBase) (bytesAt s v 0 src n) (linesOf dst n) s

/-- The last bytes written fill every line they reach. -/
theorem doneLines_last {d : Desc} {dst n : Nat} (h : InA d dst n) : doneLines (aLines dst n) (aLines (dst + n) 0) = linesOf dst n := by
  have none_ : aLines (dst + n) 0 = [] := by simp [aLines, linesOf]
  simp [h.aLines, none_, doneLines]

/-- A stretch read and written, then the rest of the copy, is the whole copy: the rest neither reads nor writes again what the stretch has written. -/
theorem copiedInA_of_stretch {s : State} {b : Block} (hb : mget s.blocks v.w.blk = some b) {dst src n m : Nat} (from_ : InA v.g.d src n) (to_ : InA v.g.d dst n)
    (apart : src + n ≤ dst ∨ dst + n ≤ src) (some_ : 0 < m) (part : m ≤ n) :
    copiedInA v (dst + m) (src + m) (n - m) (landed v.w.blk (dst - aBase) (bytesAt s v 0 src m) (doneLines (aLines dst m) (aLines (dst + m) (n - m))) s) = copiedInA v dst src n s := by
  have low := to_.start
  have low' := from_.start
  have first := bytesAt_a (lane := 0) (from_.sub le_rfl (by omega) : InA v.g.d src m) hb
  have rest := bytesAt_a (lane := 0) (from_.sub (by omega) (by omega) : InA v.g.d (src + m) (n - m))
    (mget_landed_block hb (off := dst - aBase) (bs := bytesAt s v 0 src m) (ls := doneLines (aLines dst m) (aLines (dst + m) (n - m))))
  have length : (cellsGet b.a (src - aBase) m).length = m := length_cellsGet _ _ _
  rw [first] at rest ⊢
  rw [copiedInA, rest, cellsGet_cellsPut_of_disjoint _ (by omega), show dst + m - aBase = dst - aBase + (cellsGet b.a (src - aBase) m).length by omega, landed_landed hb,
    show src + m - aBase = src - aBase + m by omega, cellsGet_append, Nat.add_sub_cancel' part, copiedInA, bytesAt_a from_ hb]
  exact fillFor_congr _ (fun l => mem_doneLines_append to_ part some_) _

theorem cpyFrom_a (free : o.Free) (need : e.need = []) (dtag stag : Nat) {k dst src n : Nat} {s : State} {b : Block} (hb : mget s.blocks v.w.blk = some b)
    (from_ : InA v.g.d src n) (to_ : InA v.g.d dst n) (apart : src + n ≤ dst ∨ dst + n ≤ src) (some_ : 0 < n) (units : src % 128 + n ≤ 128 * k) :
    cpyFrom v e o dtag stag k dst src n s = .done (copiedInA v dst src n s) := by
  induction k generalizing dst src n s b with
  | zero => omega
  | succ k ih =>
    obtain ⟨m, hm⟩ : ∃ m, m = min n (128 - src % 128) := ⟨_, rfl⟩
    have low := from_.start
    have first : InA v.g.d src m := from_.sub le_rfl (by omega)
    have length : (bytesAt s v 0 src m).length = m := by simp [bytesAt]
    have whole := copiedInA_of_stretch hb from_ to_ apart (m := m) (by omega) (by omega)
    have write := writeParts_a free 0 dtag (addr := dst) (bs := bytesAt s v 0 src m) (by rw [length]; exact to_.sub le_rfl (by omega)) (by omega) s
    rw [length] at write
    rw [cpyFrom, if_neg some_.ne']
    simp only [← hm, readOr_a free 0 stag _ _ s first (by omega) (by simp [need] : ¬ ∃ l ∈ linesOf src m, l ∈ e.need), write, writeOr]
    change cpyFrom v e o dtag stag k (dst + m) (src + m) (n - m) (landed _ _ _ _ s) = _
    rcases Nat.eq_zero_or_pos (n - m) with none_ | more
    · obtain rfl : m = n := by omega
      rw [none_, doneLines_last to_]
      cases k <;> rfl
    · rw [ih (mget_landed_block hb) (from_.sub (by omega) (by omega)) (to_.sub (by omega) (by omega)) (by omega) more (by omega), whole]

/-- The units of a copy's source are no more than the engine allows for. -/
theorem runCpy_a (free : o.Free) (need : e.need = []) (dtag stag : Nat) {dst src n : Nat} {s : State} {b : Block} (hb : mget s.blocks v.w.blk = some b)
    (from_ : InA v.g.d src n) (to_ : InA v.g.d dst n) (apart : src + n ≤ dst ∨ dst + n ≤ src) (some_ : 0 < n) :
    runCpy v e o dst dtag src stag n s = .done (copiedInA v dst src n s) :=
  cpyFrom_a free need dtag stag hb from_ to_ apart some_ (by omega)

/-! ### CPYT of one row (R164) -/

/-- Where the table entry of a row lies. -/
def tableEntryAt (table rpb row : Nat) : Nat := table + 8 * (row / rpb)
/-- Where the row that it names lies. -/
def tableRowAt (s : State) (v : View) (table rpb rb row : Nat) : Nat :=
  (ptrAddr (bytesToNat (bytesAt s v 0 (tableEntryAt table rpb row) 8)) + row % rpb * rb) % 2 ^ 60

section
variable {dst table rpb rb row : Nat} {s : State}

theorem runCpyt_a (free : o.Free) (dtag ttag : Nat) (entry : InA v.g.d (tableEntryAt table rpb row) 8) (from_ : InA v.g.d (tableRowAt s v table rpb rb row) rb) (to_ : InA v.g.d dst rb)
    (some_ : 0 < rb) (entryFull : ¬ ∃ l ∈ linesOf (tableEntryAt table rpb row) 8, l ∈ e.need) (rowFull : ¬ ∃ l ∈ linesOf (tableRowAt s v table rpb rb row) rb, l ∈ e.need) :
    runCpyt v e o dst dtag table ttag rpb rb 1 row none s = .done (copiedInA v dst (tableRowAt s v table rpb rb row) rb s) := by
  have length : (bytesAt s v 0 (tableRowAt s v table rpb rb row) rb).length = rb := by simp [bytesAt]
  have write := writeParts_a free 0 dtag (addr := dst) (bs := bytesAt s v 0 (tableRowAt s v table rpb rb row) rb) (by rw [length]; exact to_) (by omega) s
  have lines := doneLines_last to_
  rw [runCpyt, rowsFrom]
  refine (readOr_a free 0 ttag _ _ s entry (by decide) entryFull).trans ?_
  refine (readOr_a free 0 _ _ _ s from_ some_ rowFull).trans ?_
  simp only [write, writeOr, rowsFrom, Nat.zero_mul, lines]
  rfl

theorem runCpyt_of_awaited (dtag ttag : Nat) (entry : InA v.g.d (tableEntryAt table rpb row) 8) (awaited : ∃ l ∈ linesOf (tableEntryAt table rpb row) 8, l ∈ e.need) :
    runCpyt v e o dst dtag table ttag rpb rb 1 row none s = .part (.cpyt dst dtag table ttag rpb rb 1 row none) true s := by
  rw [runCpyt, rowsFrom]
  exact readOr_of_awaited 0 ttag _ _ s entry (by decide) awaited

end
end
end Sys2Proof.Machine
end

section
/-! SUPPORT. The retirement of engine operations (R142), and what a matrix loop leaves (R185, R233, R234). -/
namespace Sys2Proof.Machine
open Sys2Proof

/-! ### The oldest of a class (R82, R142) -/

section
variable {wave : Nat} {v : View} {e : EngEntry} {rest : List EngEntry} {cls : Engine} {s : State}

/-- The oldest of a class, once its work is done, retires. -/
theorem exec_operationRetire_of_done {t : State} (h : viewOf s wave = some v) (core : onCore v = true) (queue : engQueue v.w cls = e :: rest) (ran : e.ran = false)
    (work : runEng v e s = .done t) : exec (.operationRetire ⟨wave, false⟩ cls) s = .next (modWave wave (dropEng cls 0) t) := by
  have first : (numbered (e :: rest)).find? (fun p => !p.2.ran && getsOn p.2 (runEng v p.2 s)) = some (0, e) := by
    simp [numbered, List.range_succ_eq_map, ran, work, getsOn]
  change execOperationRetire ⟨wave, false⟩ cls s = _
  simp [execOperationRetire, h, queue, core, ran, first, work, worked]

/-- A single operation that is held at its point changes nothing while its block has not ended. -/
theorem exec_operationRetire_of_held {line : Bool} {t : State} (h : viewOf s wave = some v) (queue : engQueue v.w cls = [e]) (alive : v.b.endAs = none) (ran : e.ran = false)
    (work : runEng v e s = .part e.op line t) : exec (.operationRetire ⟨wave, false⟩ cls) s = .next s := by
  have none_ : (numbered [e]).find? (fun p => !p.2.ran && getsOn p.2 (runEng v p.2 s)) = none := by
    simp [numbered, work, getsOn]
  change execOperationRetire ⟨wave, false⟩ cls s = _
  simp [execOperationRetire, h, queue, ran, none_, alive]

end

/-! ### Tiles (R237) -/

theorem tileKey_inj {t i j t' i' j' : Nat} (hi : i < 32) (hj : j < 32) (hi' : i' < 32) (hj' : j' < 32) : tileKey t i j = tileKey t' i' j' ↔ t = t' ∧ i = i' ∧ j = j' := by
  unfold tileKey
  omega

theorem mem_allElems {i j : Nat} : (i, j) ∈ allElems ↔ i < 32 ∧ j < 32 := by
  simp [allElems, lanes32]

theorem tileAt_setTile (b : Block) {t i j q x y : Nat} (z : Word32) (hi : i < 32) (hj : j < 32) (hx : x < 32) (hy : y < 32) :
    tileAt (setTile t i j z b) q x y = if q = t ∧ x = i ∧ y = j then z else tileAt b q x y := by
  simp only [tileAt, setTile, mgetD_mset, tileKey_inj hx hy hi hj]

/-- Elements set one after another: each holds its own value, whatever the order. -/
theorem tileAt_foldl_setTile (t : Nat) (f : Nat × Nat → Word32) {es : List (Nat × Nat)} (small : ∀ e ∈ es, e.1 < 32 ∧ e.2 < 32) (b : Block) {q x y : Nat} (hx : x < 32) (hy : y < 32) :
    tileAt (es.foldl (fun c e => setTile t e.1 e.2 (f e) c) b) q x y = if q = t ∧ (x, y) ∈ es then f (x, y) else tileAt b q x y := by
  induction es generalizing b with
  | nil => simp
  | cons e es ih =>
    obtain ⟨⟨hi, hj⟩, rest⟩ := List.forall_mem_cons.mp small
    rw [List.foldl_cons, ih rest, tileAt_setTile b _ hi hj hx hy]
    by_cases later : q = t ∧ (x, y) ∈ es
    · rw [if_pos later, if_pos ⟨later.1, List.mem_cons_of_mem _ later.2⟩]
    · rw [if_neg later]
      by_cases now : q = t ∧ x = e.1 ∧ y = e.2
      · obtain ⟨rfl, rfl, rfl⟩ := now
        simp
      · rw [if_neg now, if_neg]
        rintro ⟨same, h⟩
        rcases List.mem_cons.mp h with rfl | h
        · exact now ⟨same, rfl, rfl⟩
        · exact later ⟨same, h⟩

theorem tileAt_mapTile (t : Nat) (f : Nat → Nat → Word32 → Word32) (b : Block) {q x y : Nat} (hx : x < 32) (hy : y < 32) :
    tileAt (mapTile t f b) q x y = if q = t then f x y (tileAt b t x y) else tileAt b q x y := by
  rw [mapTile, tileAt_foldl_setTile t (fun e => f e.1 e.2 (tileAt b t e.1 e.2)) (fun e h => mem_allElems.mp h) b hx hy]
  simp [mem_allElems, hx, hy]

theorem foldl_setTile_frame (t : Nat) (f : Nat × Nat → Word32) (es : List (Nat × Nat)) (b : Block) :
    es.foldl (fun c e => setTile t e.1 e.2 (f e) c) b = { b with tiles := (es.foldl (fun c e => setTile t e.1 e.2 (f e) c) b).tiles } := by
  induction es generalizing b with
  | nil => rfl
  | cons e es ih => exact ih _

theorem mapTile_frame (t : Nat) (f : Nat → Nat → Word32 → Word32) (b : Block) : mapTile t f b = { b with tiles := (mapTile t f b).tiles } :=
  foldl_setTile_frame t (fun e => f e.1 e.2 (tileAt b t e.1 e.2)) allElems b

/-! ### A loop (R185, R233, R234) -/

/-- A change of one reservation leaves the rest of its block. -/
theorem mget_modRes {bk : Nat} {b : Block} {s : State} (hb : mget s.blocks bk = some b) (n : Nat) (f : Res → Res) :
    ∃ r, mget (modRes bk n f s).blocks bk = some { b with res := r } := by
  simp only [modRes, mget_modBlock, if_pos, hb, Option.map_some]
  split
  · exact ⟨_, rfl⟩
  · exact ⟨b.res, rfl⟩

theorem modRes_waves (bk n : Nat) (f : Res → Res) (s : State) : (modRes bk n f s).waves = s.waves := modBlock_waves _ _ _

/-- The tile of a loop after it. -/
def loopTile (ra rb : Res) (n a0 b0 i j : Nat) (x : Word32) : Word32 :=
  BitVec.ofNat 32 (loopElem ra rb (min (stepClass ra.fmt) (stepClass rb.fmt)) a0 b0 n i j x.toNat)

section
variable {bk ct wa wb n a0 b0 : Nat} {b : Block} {ra rb : Res} {s : State}

theorem runLoop_eq (hb : mget s.blocks bk = some b) (ha : mget b.res wa = some ra) (hb' : mget b.res wb = some rb) :
    runLoop bk ct wa wb bk n a0 b0 s =
      let t := modRes bk wa endRead (modBlock bk (mapTile ct (loopTile ra rb n a0 b0)) s)
      if wa = wb then t else modRes bk wb endRead t := by
  simp only [runLoop, hb, ha, hb', true_and]
  rfl

/-- A loop on two reservations of its own block changes its tile, and releases the reservations. -/
theorem mget_runLoop_blocks (hb : mget s.blocks bk = some b) (ha : mget b.res wa = some ra) (hb' : mget b.res wb = some rb) :
    ∃ r, mget (runLoop bk ct wa wb bk n a0 b0 s).blocks bk = some { mapTile ct (loopTile ra rb n a0 b0) b with res := r } := by
  have tile : mget (modBlock bk (mapTile ct (loopTile ra rb n a0 b0)) s).blocks bk = some (mapTile ct (loopTile ra rb n a0 b0) b) := by
    rw [mget_modBlock, if_pos rfl, hb, Option.map_some]
  rw [runLoop_eq hb ha hb']
  generalize mapTile ct (loopTile ra rb n a0 b0) b = c at tile ⊢
  obtain ⟨r, first⟩ := mget_modRes tile wa endRead
  dsimp only
  split
  · exact ⟨r, first⟩
  · obtain ⟨r', second⟩ := mget_modRes first wb endRead
    exact ⟨r', second⟩

theorem runLoop_waves (hb : mget s.blocks bk = some b) (ha : mget b.res wa = some ra) (hb' : mget b.res wb = some rb) :
    (runLoop bk ct wa wb bk n a0 b0 s).waves = s.waves := by
  rw [runLoop_eq hb ha hb']
  dsimp only
  split <;> simp only [modRes_waves, modBlock_waves]

end

/-- One more step of a loop on an element. -/
theorem loopElem_succ (ra rb : Res) (k a0 b0 n i j acc : Nat) : loopElem ra rb k a0 b0 (n + 1) i j acc =
    matrixStep (loopElem ra rb k a0 b0 n i j acc) ((List.range k).map (fun y => fMul (elemValue ra i ((a0 + n) * k + y)) (elemValue rb j ((b0 + n) * k + y)))) := by
  simp only [loopElem, List.range_succ, List.foldl_append, List.foldl_cons, List.foldl_nil, stepProducts, Nat.add_mul]

end Sys2Proof.Machine
end

section
/-! SUPPORT. What the retirement of a copy inside the A window and of a loop answers (R142). -/
namespace Sys2Proof.Machine
open Sys2Proof

section
variable {wave : Nat} {v : View} {e : EngEntry} {rest : List EngEntry} {s : State}

/-- The copy at the head of a wave's copy queue retires, n bytes from src now at dst too. -/
def CopyRetires (wave : Nat) (v : View) (rest : List EngEntry) (dst src n : Nat) (s : State) : Prop :=
  ∃ t b w', exec (.operationRetire ⟨wave, false⟩ .cpy) s = .next t ∧ mget t.waves wave = some w' ∧
    w'.cpyQ = rest.map (fun x => { x with need := x.need.filter (fun l => l ∉ linesOf dst n) }) ∧
    w'.oc.cpy = v.w.oc.cpy - 1 ∧ w'.s = v.w.s ∧ w'.v = v.w.v ∧ w'.k = v.w.k ∧ t.mem = s.mem ∧ t.tags = s.tags ∧
    mget t.blocks v.w.blk = some b ∧ (∀ l ∈ linesOf dst n, l ∉ b.aE) ∧
    ∀ off, mgetD b.a off blankByte = if dst - aBase ≤ off ∧ off < dst - aBase + n then mgetD v.b.a (off - (dst - aBase) + (src - aBase)) blankByte else mgetD v.b.a off blankByte

/-- A copy whose work is to copy inside the allocation retires with its bytes moved. -/
theorem copyRetires_of_done {dst src n : Nat} (h : viewOf s wave = some v) (own : blockOfWave wave = v.w.blk) (core : onCore v = true) (queue : v.w.cpyQ = e :: rest)
    (ran : e.ran = false) (from_ : InA v.g.d src n) (work : runEng v e s = .done (copiedInA v dst src n s)) : CopyRetires wave v rest dst src n s := by
  have wave_ : mget (copiedInA v dst src n s).waves wave = some (waveWithout (linesOf dst n) v.w) := mget_landed_wave own (viewOf_wave h)
  have block : mget (copiedInA v dst src n s).blocks v.w.blk = _ := mget_landed_block (viewOf_block h)
  refine ⟨_, _, dropEng .cpy 0 (waveWithout (linesOf dst n) v.w), exec_operationRetire_of_done (cls := .cpy) h core queue ran work, ?wave, ?queue, rfl, rfl, rfl, rfl,
    (modWave_mem _ _ _).trans landed_mem, (modWave_tags _ _ _).trans landed_tags, (congrArg (mget · v.w.blk) (modWave_blocks _ _ _)).trans block, ?lines, ?bytes⟩
  case wave => rw [mget_modWave, if_pos rfl, wave_, Option.map_some]
  case queue =>
    have left : (dropEng .cpy 0 (waveWithout (linesOf dst n) v.w)).cpyQ = withoutNeeds (linesOf dst n) rest := by
      simp only [dropEng, lowerCount, setQueue, engQueue, waveWithout, queue, withoutNeeds, List.map_cons, delAt]
    simp only [left, withoutNeeds, List.contains_eq_mem, decide_not]
  case lines =>
    intro l filled
    simp [foldl_sdel_eq_filter, filled]
  case bytes =>
    intro off
    simp only [bytesAt_a from_ (viewOf_block h)]
    exact mgetD_cellsPut_cellsGet _ _ _ _ _

/-- A loop that is the oldest of its block retires: its tile holds its results, and no other tile changes. -/
theorem loopRetires {ct wa wb n a0 b0 : Nat} {ra rb : Res} {more : List (Nat × Nat)} (h : viewOf s wave = some v) (core : onCore v = true) (queue : v.w.mtxQ = e :: rest)
    (ran : e.ran = false) (op : e.op = .mloop ct wa wb v.w.blk n a0 b0) (oldest : v.b.loops = (v.w.idx, e.no) :: more) (ha : mget v.b.res wa = some ra) (hb : mget v.b.res wb = some rb) :
    ∃ t b w', exec (.operationRetire ⟨wave, false⟩ .mtx) s = .next t ∧ mget t.waves wave = some w' ∧ w' = { v.w with mtxQ := rest, oc := { v.w.oc with mtx := v.w.oc.mtx - 1 } } ∧
      t.mem = s.mem ∧ mget t.blocks v.w.blk = some b ∧ b = { v.b with tiles := b.tiles, res := b.res, loops := more } ∧
      ∀ q i j, i < 32 → j < 32 → tileAt b q i j = if q = ct then loopTile ra rb n a0 b0 i j (tileAt v.b ct i j) else tileAt v.b q i j := by
  have work : runEng v e s = .done (leaveLoops v.w.blk (runLoop v.w.blk ct wa wb v.w.blk n a0 b0 s)) := by
    simp [runEng, op, loopsNext, oldest]
  have tile (q i j : Nat) (hi : i < 32) (hj : j < 32) := tileAt_mapTile ct (loopTile ra rb n a0 b0) v.b (q := q) hi hj
  have frame := mapTile_frame ct (loopTile ra rb n a0 b0) v.b
  obtain ⟨r, looped⟩ := mget_runLoop_blocks (n := n) (a0 := a0) (b0 := b0) (ct := ct) (viewOf_block h) ha hb
  generalize mapTile ct (loopTile ra rb n a0 b0) v.b = c at tile frame looped
  have loops : c.loops = (v.w.idx, e.no) :: more := (congrArg Block.loops frame).trans oldest
  refine ⟨_, { c with res := r, loops := more }, _, exec_operationRetire_of_done (cls := .mtx) h core queue ran work, ?wave, rfl, ?mem, ?block, ?frame, tile⟩
  case wave =>
    rw [mget_modWave, if_pos rfl, leaveLoops, modBlock_waves, runLoop_waves (viewOf_block h) ha hb, viewOf_wave h, Option.map_some]
    simp only [dropEng, lowerCount, setQueue, engQueue, queue, delAt]
  case mem => rw [modWave_mem, leaveLoops_mem, runLoop_mem]
  case block => rw [modWave_blocks, mget_leaveLoops, if_pos rfl, looped, Option.map_some, loops, List.drop_one, List.tail_cons]
  case frame => exact congrArg (fun d : Block => { d with res := r, loops := more }) frame

end

end Sys2Proof.Machine
end

section
namespace Sys2Proof
open Sys2Proof.Machine

/-- Settles O36: nothing holds the oldest operation of its wave (`olderThan_free`), so a copy inside the A window is done as a whole (`runCpy_a`, `runCpyt_a`) and retires with its bytes moved (`copyRetires_of_done`), or stays where its entry lies on an awaited line (`runCpyt_of_awaited`), and the oldest loop of its block leaves its results (`loopRetires`), step by step (`loopElem_succ`). -/
theorem engineRetires : Obligations.EngineRetires := by
  intro wave v e rest s h own core after ran oldest moved inA awaits
  have free := olderThan_free after oldest
  have block := viewOf_block h
  refine ⟨?copy, ?table, ?loop⟩
  case copy =>
    intro dst dtag src stag n queue op need some_ ⟨srcOk, srcA⟩ ⟨dstOk, dstA⟩ apart
    have from_ := inA_of_checkWindow srcOk srcA some_
    have to_ := inA_of_checkWindow dstOk dstA some_
    have work : runEng v e s = .done (copiedInA v dst src n s) := by
      simp only [runEng, op]
      exact runCpy_a free need dtag stag block from_ to_ apart some_
    exact copyRetires_of_done h own core queue ran from_ work
  case table =>
    intro dst dtag table ttag rpb rb first queue op some_ at_ src ⟨atOk, atA⟩ ⟨srcOk, srcA⟩ ⟨dstOk, dstA⟩ apart
    have entry : InA v.g.d (tableEntryAt table rpb first) 8 := inA_of_checkWindow atOk atA (by decide)
    have from_ : InA v.g.d (tableRowAt s v table rpb rb first) rb := inA_of_checkWindow srcOk srcA some_
    have to_ := inA_of_checkWindow dstOk dstA some_
    refine ⟨fun entryFull rowFull => ?_, fun awaited only alive => ?_⟩
    · have work : runEng v e s = .done (copiedInA v dst (tableRowAt s v table rpb rb first) rb s) := by
        simp only [runEng, op]
        exact runCpyt_a free dtag ttag entry from_ to_ some_ entryFull rowFull
      exact copyRetires_of_done h own core queue ran from_ work
    · have work : runEng v e s = .part e.op true s := by
        simp only [runEng, op]
        exact runCpyt_of_awaited dtag ttag entry awaited
      exact exec_operationRetire_of_held (cls := .cpy) h (queue.trans (congrArg _ only)) alive ran work
  case loop =>
    intro ct wa wb n a0 b0 ra rb more queue op loops ha hb k
    obtain ⟨t, b, w', goes, waves, wave', mem, blocks, frame, tile⟩ := loopRetires h core queue ran op loops ha hb
    exact ⟨t, b, w', goes, waves, wave', mem, blocks, frame, fun q i j hi hj =>
      ⟨fun x => loopElem ra rb k a0 b0 x i j (tileAt v.b ct i j).toNat, rfl, fun x _ => loopElem_succ ra rb k a0 b0 x i j _, tile q i j hi hj⟩⟩

end Sys2Proof
end

section
/-! SUPPORT. What the words of the memory unit share when they issue (R124, R150, R166): checks that no lane fails, the entry of the memory queue, and the lanes of a bounds-checked buffer. -/
namespace Sys2Proof.Machine
open Sys2Proof

/-! ### Checks in every lane -/

section
variable {chk : Nat → Chk} {accs : List (Nat × Nat)}

theorem laneFault_of_noneFails (h : NoneFails chk accs) : laneFault chk accs = none := by
  induction accs with
  | nil => rfl
  | cons a accs ih =>
    obtain ⟨first, rest⟩ := List.forall_mem_cons.mp h
    rcases first with ok | pending
    · simp only [laneFault, ok, ih rest]
    · simp only [laneFault, pending, ih rest]

theorem noneFails_of_ok (h : ∀ a ∈ accs, chk a.2 = .ok) : NoneFails chk accs := fun a mem => .inl (h a mem)

theorem laneFault_of_ok (h : ∀ a ∈ accs, chk a.2 = .ok) : laneFault chk accs = none := laneFault_of_noneFails (noneFails_of_ok h)

theorem lanePending_of_ok (h : ∀ a ∈ accs, chk a.2 = .ok) : lanePending chk accs = false :=
  List.any_eq_false.mpr fun a mem => by simp [h a mem]

end

/-! ### The memory queue (R124, R166) -/

/-- What the memory unit takes is the newest entry of the wave's queue. -/
theorem queues_queueOp (v : View) (op : MemOp) (counts acq pending : Bool) (edit : Wave → Wave) (s : State) :
    Queues op counts acq pending edit v s (queueOp v op counts acq pending s edit) := by
  intro room
  rw [queueOp, if_neg (Bool.not_eq_true _ ▸ room)]
  cases counts <;> rfl

/-! ### Stores (R124, R151) -/

/-- The check of a store's lane at its pointer. -/
def storeCheck (v : View) (n : Nat) (s : State) (p : Nat) : Chk := checkAccess s v .store (some (ptrTag p)) (ptrAddr p) n

/-- The store of each lane's data, lowest byte first. -/
def storeOp (n : Nat) (accs : List (Nat × Nat)) (data : Nat → Nat) : MemOp :=
  .store (accs.map (fun a => { lane := a.1, addr := ptrAddr a.2, tag := ptrTag a.2, data := natToBytes n (data a.1) }))

theorem queues_storeIssue {n : Nat} {rel sys : Bool} {accs : List (Nat × Nat)} (data : Nat → Nat) {v : View} {s : State}
    (checks : NoneFails (storeCheck v n s) accs) (full : emptyLineLanes v.b accs n = [])
    (ordered : ¬ (rel = true ∧ hasLogged v.w = true)) (returned : ¬ (sys = true ∧ farLoadsOut v.w = true)) :
    Queues (storeOp n accs data) true false (lanePending (storeCheck v n s) accs) id v s (storeIssue n rel sys accs data v s) := by
  have free : ¬ (emptyLineLanes v.b accs n ≠ [] ∨ (rel = true ∧ hasLogged v.w = true) ∨ (sys = true ∧ farLoadsOut v.w = true)) := by
    simp only [full, ordered, returned, ne_eq, not_true, or_self, not_false_iff]
  unfold storeCheck at checks
  simp only [storeIssue, laneFault_of_noneFails checks, if_neg free]
  exact queues_queueOp _ _ _ _ _ _ _

/-! ### Bounds-checked buffers (R154, R155) -/

/-- The lanes in which a buffer word acts. -/
def bufLanes (m : MW) (mask : Word32) : List Nat := if isV m.d || isV m.b then lanesOf mask else [0]

theorem bufFirst_of_none {pre acc : Nat → Option FaultSpec} {l : List Nat} (h : ∀ i ∈ l, pre i = none ∧ acc i = none) : bufFirst pre acc l = none := by
  induction l with
  | nil => rfl
  | cons i l ih =>
    obtain ⟨⟨first, access⟩, rest⟩ := List.forall_mem_cons.mp h
    simp only [bufFirst, first, access, ih rest]

/-- The lane's bytes lie in the buffer of A. -/
def inBuf (m : MW) (w : Wave) (i : Nat) : Bool := bufInRange (bufOf w m.a) (bufOffset m w i) (sizeOf m.sz)

theorem inBuf_eq (m : MW) (w : Wave) : inBuf m w = fun i => decide (0 ≤ bufOffset m w i ∧ bufOffset m w i + sizeOf m.sz ≤ (bufOf w m.a).len) :=
  funext fun _ => (Bool.decide_and _ _).symm

/-- The lanes of a buffer word inside its buffer, with their pointers. -/
def bufAccs (m : MW) (w : Wave) (mask : Word32) : List (Nat × Nat) :=
  ((bufLanes m mask).filter (inBuf m w)).map (fun i => (i, bufPtr (bufOf w m.a) (bufOffset m w i)))

/-- Where every lane lies inside, every lane has an access and none is left. -/
theorem bufAccs_of_inside {m : MW} {w : Wave} {mask : Word32} (all : ∀ i ∈ bufLanes m mask, inBuf m w i = true) :
    bufAccs m w mask = (bufLanes m mask).map (fun i => (i, bufPtr (bufOf w m.a) (bufOffset m w i))) :=
  congrArg (List.map _) (List.filter_eq_self.mpr all)

section
variable {store z : Bool} {m : MW} {v : View} {mask : Word32} {s : State}

/-- Where the descriptor is intact, the buffer may be written by a store, no lane's access ends beyond the address range or fails its check, and no lane lies outside but of a .z word, the lanes inside go on. -/
theorem bufWord_of_fits {go : List (Nat × Nat) → List Nat → Result} (intact : (bufOf v.w m.a).malformed = false) (writable : store = true → (bufOf v.w m.a).ro = false)
    (range : ∀ i ∈ bufLanes m mask, inBuf m v.w i = true → (ptrAddr (bufOf v.w m.a).lo : Int) + bufOffset m v.w i < 2 ^ 60)
    (outside : z = true ∨ ∀ i ∈ bufLanes m mask, inBuf m v.w i = true)
    (checks : NoneFails (fun p => checkAccess s v (if store then .store else .load) (some (ptrTag p)) (ptrAddr p) (sizeOf m.sz)) (bufAccs m v.w mask)) :
    bufWord store z m v mask s go = go (bufAccs m v.w mask) ((bufLanes m mask).filter (fun i => !inBuf m v.w i)) := by
  have first (i : Nat) (mem : i ∈ bufLanes m mask) : bufFault store z (bufOf v.w m.a) (bufOffset m v.w i) (sizeOf m.sz) i = none := by
    cases inside : inBuf m v.w i with
    | false =>
      have zero : z = true := outside.resolve_right fun all => nomatch (all i mem).symm.trans inside
      unfold inBuf at inside
      simp [bufFault, intact, inside, zero]
    | true =>
      have below := range i mem inside
      have kept : ¬ (store = true ∧ (bufOf v.w m.a).ro = true) := fun ro => nomatch ro.2.symm.trans (writable ro.1)
      unfold inBuf at inside
      simpa [bufFault, intact, inside, kept] using below
  have access (i : Nat) (inside : i ∈ (bufLanes m mask).filter (inBuf m v.w)) :
      laneFault (fun p => checkAccess s v (if store then .store else .load) (some (ptrTag p)) (ptrAddr p) (sizeOf m.sz)) [(i, bufPtr (bufOf v.w m.a) (bufOffset m v.w i))] = none :=
    laneFault_of_noneFails fun a mem => checks a (List.mem_singleton.mp mem ▸ List.mem_map_of_mem inside)
  have out : (bufLanes m mask).filter (fun i => !((bufLanes m mask).filter (inBuf m v.w)).contains i) = (bufLanes m mask).filter (fun i => !inBuf m v.w i) :=
    List.filter_congr fun i mem => by simp [mem]
  rw [← out]
  unfold bufWord
  dsimp only
  split
  case h_1 f fails =>
    exact nomatch fails.symm.trans (bufFirst_of_none fun i mem =>
      ⟨first i mem, ite_eq_right_iff.mpr fun inside => access i (List.contains_iff_mem.mp inside)⟩)
  case h_2 => rfl

/-- STB and STB.z give the data of the lanes inside their buffer to the memory unit. -/
theorem queues_bufStore (h : Acts m.guard (bufSrcs m ++ [dataSrc m m.d]) [] v mask s) (intact : (bufOf v.w m.a).malformed = false) (writable : (bufOf v.w m.a).ro = false)
    (range : ∀ i ∈ bufLanes m mask, inBuf m v.w i = true → (ptrAddr (bufOf v.w m.a).lo : Int) + bufOffset m v.w i < 2 ^ 60)
    (outside : z = true ∨ ∀ i ∈ bufLanes m mask, inBuf m v.w i = true) (checks : NoneFails (storeCheck v (sizeOf m.sz) s) (bufAccs m v.w mask))
    (full : emptyLineLanes v.b (bufAccs m v.w mask) (sizeOf m.sz) = []) (ordered : ¬ (m.ord = 2 ∧ hasLogged v.w = true))
    (returned : ¬ (systemRel m = true ∧ farLoadsOut v.w = true)) :
    Queues (storeOp (sizeOf m.sz) (bufAccs m v.w mask) (dataVal m v.w m.d)) true false (lanePending (storeCheck v (sizeOf m.sz) s) (bufAccs m v.w mask)) id v s (bufStore z m s) := by
  have fits (go : List (Nat × Nat) → List Nat → Result) := bufWord_of_fits (store := true) (go := go) intact (fun _ => writable) range outside checks
  rw [bufStore, viewWord_of_acts h, fits]
  exact queues_storeIssue _ checks full (by simpa using ordered) returned

end

/-! ### Atomics (R158 to R160) -/

section
variable {ret : Bool} {m : MW} {v : View} {mask : Word32} {s : State}

/-- The lanes of an atomic with their pointers, and the check of one. -/
def atomAccs (m : MW) (w : Wave) (mask : Word32) : List (Nat × Nat) := (memLanes m mask).map (fun i => (i, laneAddr m w i))
def atomCheck (m : MW) (v : View) (s : State) (p : Nat) : Chk := checkAtomic s v (ptrAddr p) (sizeOf m.sz) (ptrTag p)

/-- The atomic of every lane as the memory unit holds it. -/
def atomOp (ret : Bool) (m : MW) (w : Wave) (mask : Word32) : MemOp := .atom ret m.sub.toNat (sizeOf m.sz) m.d (atomLanes m w (atomAccs m w mask))

/-- A .fadd of a DET = 1 launch takes no effect but its trap (R160). -/
theorem atomIssue_of_det (add : m.sub = 10) (det : v.g.d.det = true) :
    atomIssue ret m v mask s = raiseTrap v.key v.w { cause := 5, lanes := mask } (fun _ t => .next t) s := if_pos ⟨add, det⟩

/-- An atomic that no check stops and no older operation holds enters the memory queue; one that returns waits for pending translations. -/
theorem queues_atomIssue (free : ¬ (m.sub = 10 ∧ v.g.d.det = true)) (checks : NoneFails (atomCheck m v s) (atomAccs m v.w mask))
    (mapped : ret = true → lanePending (atomCheck m v s) (atomAccs m v.w mask) = false) (ordered : ¬ (2 ≤ m.ord.toNat ∧ hasLogged v.w = true))
    (returned : ¬ (systemRel m = true ∧ farLoadsOut v.w = true)) :
    Queues (atomOp ret m v.w mask) (!ret) (m.ord = 1 || m.ord = 3) (lanePending (atomCheck m v s) (atomAccs m v.w mask))
      (fun w => if ret then markEmpty m.d (dataRegs m.sz m.d) mask w else w) v s (atomIssue ret m v mask s) := by
  have goes : ¬ ((ret = true ∧ lanePending (atomCheck m v s) (atomAccs m v.w mask) = true) ∨ (2 ≤ m.ord.toNat ∧ hasLogged v.w = true) ∨
      (systemRel m = true ∧ farLoadsOut v.w = true)) := by
    rintro (⟨returns, pending⟩ | log | far)
    · exact nomatch (mapped returns).symm.trans pending
    · exact ordered log
    · exact returned far
  unfold atomCheck atomAccs at checks goes
  simp only [atomIssue, if_neg free, laneFault_of_noneFails checks, if_neg goes]
  exact queues_queueOp _ _ _ _ _ _ _

end

end Sys2Proof.Machine
end

section
namespace Sys2Proof
open Sys2Proof.Machine

/-- Settles O25: where no lane fails, no line is empty and no order holds the word, the bytes of the lanes enter the memory queue (`queues_storeIssue`), those of STB and STB.z where the lane lies in the buffer (`queues_bufStore`). -/
theorem storeWords : Obligations.StoreWords := by
  intro m v mask s n chk stores
  refine ⟨fun h => ?st, fun h => ?buf⟩
  case st =>
    intro checks full ordered returned
    rw [show exec (.st m) s = _ from (viewWord_of_acts h _ : execSt m s = _)]
    exact queues_storeIssue _ checks full (by simpa using ordered) returned
  case buf =>
    intro d lanes e inside intact writable range
    have inBuf_iff (i : Nat) : inBuf m v.w i = true ↔ inside i := by rw [inBuf_eq]; exact decide_eq_true_iff
    have range' (i : Nat) (mem : i ∈ bufLanes m mask) (h : inBuf m v.w i = true) := range i mem ((inBuf_iff i).mp h)
    refine ⟨fun all => ?stb, ?stbZ⟩
    case stb =>
      intro checks full ordered returned
      have all' : ∀ i ∈ bufLanes m mask, inBuf m v.w i = true := fun i mem => (inBuf_iff i).mpr (all i mem)
      have every := bufAccs_of_inside all'
      exact every ▸ queues_bufStore h intact writable range' (.inr all') (every ▸ checks) (every ▸ full) ordered returned
    case stbZ =>
      intro checks full ordered returned
      have these : bufAccs m v.w mask = (lanes.filter (fun i => decide (inside i))).map (fun i => (i, bufPtr d (e i))) := by rw [bufAccs, inBuf_eq]; rfl
      exact these ▸ queues_bufStore h intact writable range' (.inl rfl) (these ▸ checks) (these ▸ full) ordered returned

/-- Settles O27: an atomic that no check stops and no order holds enters the memory queue (`queues_atomIssue`), and a .fadd of a DET = 1 launch traps (`atomIssue_of_det`). -/
theorem atomicWords : Obligations.AtomicWords := by
  intro m v mask s accs chk op
  refine ⟨fun h => ?atom, fun h => ?ared⟩
  case atom =>
    have issues : exec (.atom m) s = atomIssue true m v mask s := viewWord_of_acts h _
    rw [issues]
    refine ⟨fun free checks ordered returned => ?_, atomIssue_of_det⟩
    have mapped : lanePending (atomCheck m v s) (atomAccs m v.w mask) = false := lanePending_of_ok checks
    have queued := queues_atomIssue (ret := true) free (noneFails_of_ok checks) (fun _ => mapped) ordered returned
    rw [mapped] at queued
    exact queued
  case ared =>
    have issues : exec (.ared m) s = atomIssue false m v mask s := viewWord_of_acts h _
    rw [issues]
    exact ⟨fun free checks ordered returned => queues_atomIssue free checks nofun ordered returned, atomIssue_of_det⟩

end Sys2Proof
end

section
/-! SUPPORT. LD and LDB (R151, R155): the values of a load that nothing holds, and what its issue leaves (R40, R280). -/
namespace Sys2Proof.Machine
open Sys2Proof

section
variable {v : View} {s : State}

/-- A wave without logged entries forwards nothing from the side log. -/
theorem forwardByte_of_unlogged (unlogged : hasLogged v.w = false) {p : Place} {f : Byte × Bool} (found : forwardByte s v p = some f) : f.2 = false := by
  have all (e : MqEntry) (mem : e ∈ v.w.mq) : e.logged = false := by simpa using List.any_eq_false.mp unlogged e mem
  refine List.foldlRecOn (motive := fun best => ∀ f, best = some f → f.2 = false) v.w.mq _ nofun (fun best kept e mem f found => ?_) f found
  split at found
  · cases found
    exact all e mem
  · exact kept f found

/-- What a lane's load finds where its wave has no logged entry and its mapping is there: the value of R129 and R131. -/
theorem laneBytes_of_unlogged (unlogged : hasLogged v.w = false) (lane addr n : Nat) :
    ∃ bs, laneBytes s v lane addr n false = some bs ∧ bytesToNat bs = loadedValue v lane addr n s := by
  unfold laneBytes loadedValue
  dsimp only
  rw [if_neg, if_neg Bool.false_ne_true]
  · refine ⟨_, rfl, ?_⟩
    rw [List.map_map, List.zip_map', List.map_map]
    rfl
  · rw [Bool.not_eq_true, List.any_eq_false]
    intro f mem
    obtain ⟨p, -, rfl⟩ := List.mem_map.mp mem
    split
    · simp [forwardByte_of_unlogged unlogged ‹_›]
    · exact Bool.false_ne_true

/-- The values of all lanes are there. -/
theorem laneBytes_all_found (unlogged : hasLogged v.w = false) {chk : Nat → Chk} {accs : List (Nat × Nat)} (checks : ∀ a ∈ accs, chk a.2 = .ok) (n : Nat) :
    (accs.map (fun a => (a, laneBytes s v a.1 (ptrAddr a.2) n (chk a.2 == .pending)))).any (fun g => g.2.isNone) = false ∧
    (accs.map (fun a => (a, laneBytes s v a.1 (ptrAddr a.2) n (chk a.2 == .pending)))).map (fun g => (g.1.1, bytesToNat (g.2.getD []))) =
      accs.map (fun a => (a.1, loadedValue v a.1 (ptrAddr a.2) n s)) := by
  have found (a : Nat × Nat) (mem : a ∈ accs) : ∃ bs, laneBytes s v a.1 (ptrAddr a.2) n (chk a.2 == .pending) = some bs ∧
      bytesToNat bs = loadedValue v a.1 (ptrAddr a.2) n s := by
    rw [checks a mem]
    exact laneBytes_of_unlogged unlogged a.1 (ptrAddr a.2) n
  constructor
  · rw [List.any_map, List.any_eq_false]
    intro a mem
    obtain ⟨bs, some_, -⟩ := found a mem
    simp [some_]
  · rw [List.map_map]
    refine List.map_congr_left fun a mem => ?_
    obtain ⟨bs, some_, value⟩ := found a mem
    simp [some_, value]

/-! ### What an access leaves (R280) -/

theorem recordAccs_memSide (v : View) (write : Bool) (n : Nat) (accs : List (Nat × Nat)) (s : State) : MemSide s (recordAccs v write n accs s) := by
  refine MemSide.foldl (fun t a => ?_) _ _
  split
  · exact recordAccess_memSide _ _ _ _ _ _
  · exact .refl t

theorem sendParts_memSide (v : View) (lane addr : Nat) (ps : List FarPart) (s : State) : MemSide s (sendParts v lane addr ps s) := by
  refine MemSide.foldl (fun t p => ?_) _ _
  split
  · exact ⟨rfl, rfl, rfl, rfl, rfl⟩
  · exact .refl t

/-- The result that a load binds when it issues (R122, R129, R151). -/
def LoadReq.result (r : LoadReq) (v : View) (s : State) : Return :=
  { info := wordInfo v.w, dest := r.dest, size := r.size, sx := r.sx
    lanes := r.zeros.map (fun i => (i, 0)) ++ r.accs.map (fun a => (a.1, loadedValue v a.1 (ptrAddr a.2) r.size s))
    far := (if r.shared then r.accs.take 1 else r.accs).flatMap (fun a => farParts s v r.shared a.1 (ptrAddr a.2) r.size)
    bad := r.accs.find? (fun a => lostUnit s v a.1 (ptrAddr a.2) r.size), addrs := r.accs, acq := r.acq }

/-- The state that its accesses and its far reads leave. -/
def LoadReq.sent (r : LoadReq) (v : View) (s : State) : State :=
  ((if r.shared then r.accs.take 1 else r.accs).map (fun a => (a, farParts s v r.shared a.1 (ptrAddr a.2) r.size))).foldl
    (fun t a => sendParts v a.1.1 (ptrAddr a.1.2) a.2 t) (recordAccs v false r.size r.accs s)

theorem LoadReq.sent_memSide (r : LoadReq) (v : View) (s : State) : MemSide s (r.sent v s) :=
  (recordAccs_memSide _ _ _ _ _).trans (MemSide.foldl (fun _ _ => sendParts_memSide _ _ _ _ _) _ _)

theorem LoadReq.sent_mem (r : LoadReq) (v : View) (s : State) : (r.sent v s).mem = (recordAccs v false r.size r.accs s).mem :=
  mem_foldl (fun _ _ => sendParts_mem _ _ _ _ _) _ _

/-- A load that passes its checks, finds its lines full and is held by no older operation binds its result and goes on. -/
theorem loadIssue_of_free {r : LoadReq} (checks : ∀ a ∈ r.accs, checkAccess s v .load (some (ptrTag a.2)) (ptrAddr a.2) r.size = .ok)
    (full : emptyLineLanes v.b r.accs r.size = []) (unlogged : hasLogged v.w = false)
    (unblocked : loadBlocked s v (r.accs.flatMap (fun a => (List.range r.size).map (fun j => placeOf s v a.1 (ptrAddr a.2 + j)))) = false) :
    loadIssue r v s = GoesOn v.key (markEmpty r.dest (resultRegs r.dest r.size) r.mask { v.w with returns := v.w.returns ++ [r.result v s] }) (r.sent v s) := by
  obtain ⟨found, values⟩ := laneBytes_all_found (s := s) (chk := fun p => checkAccess s v .load (some (ptrTag p)) (ptrAddr p) r.size) unlogged checks r.size
  have passes : laneFault (fun p => checkAccess s v .load (some (ptrTag p)) (ptrAddr p) r.size) r.accs = none := laneFault_of_ok checks
  simp only [loadIssue, passes, full, ne_eq, not_true_eq_false, if_false, unblocked, Bool.false_eq_true, found, values, List.flatMap_map]
  rfl

theorem loadIssues_loadIssue (r : LoadReq) (v : View) (s : State) : LoadIssues r v s (loadIssue r v s) := by
  intro checks full unlogged unblocked
  have side := r.sent_memSide v s
  refine ⟨_, r.result v s, loadIssue_of_free checks full unlogged unblocked, rfl, rfl, rfl, rfl, rfl, rfl, rfl, rfl, rfl, mget_putWave_same _ _ _, fun k other => ?_,
    side.blocks, side.ctxs, side.tags, r.sent_mem v s⟩
  rw [mget_putWave_ne other, side.waves]

/-! ### Bounds-checked buffers (R155) -/

/-- The load of LDB and LDB.z: the lanes inside the buffer, and zero in the others. -/
def bufReq (m : MW) (w : Wave) (mask : Word32) : LoadReq :=
  { dest := m.d, size := sizeOf m.sz, sx := m.x, mask := mask, accs := bufAccs m w mask, zeros := (bufLanes m mask).filter (fun i => !inBuf m w i), shared := !isV m.b
    acq := systemAcq m, src := m.a, e := m.e }

theorem loadIssues_bufLoad {z : Bool} {m : MW} {mask : Word32} (h : Acts m.guard (bufSrcs m) [(m.d, dataRegs m.sz m.d)] v mask s) (intact : (bufOf v.w m.a).malformed = false)
    (range : ∀ i ∈ bufLanes m mask, inBuf m v.w i = true → (ptrAddr (bufOf v.w m.a).lo : Int) + bufOffset m v.w i < 2 ^ 60)
    (outside : z = true ∨ ∀ i ∈ bufLanes m mask, inBuf m v.w i = true) : LoadIssues (bufReq m v.w mask) v s (bufLoad z m s) := by
  intro checks
  have fits (go : List (Nat × Nat) → List Nat → Result) := bufWord_of_fits (store := false) (go := go) intact nofun range outside (noneFails_of_ok checks)
  rw [bufLoad, viewWord_of_acts h, fits]
  exact loadIssues_loadIssue (bufReq m v.w mask) v s checks

end

end Sys2Proof.Machine
end

section
namespace Sys2Proof
open Sys2Proof.Machine

/-- Settles O23: a load that passes its checks and that nothing holds binds the values of its lanes and marks D empty (`loadIssue_of_free`); LDB and LDB.z make it of the lanes inside the buffer (`loadIssues_bufLoad`). -/
theorem loadWords : Obligations.LoadWords := by
  intro m v mask s
  refine ⟨fun h => ?ld, fun h => ?ldb⟩
  case ld =>
    rw [show exec (.ld m) s = _ from (viewWord_of_acts h _ : execLd m s = _)]
    exact loadIssues_loadIssue _ _ _
  case ldb =>
    intro d lanes e inside intact range
    have inBuf_iff (i : Nat) : inBuf m v.w i = true ↔ inside i := by rw [inBuf_eq]; exact decide_eq_true_iff
    have range' (i : Nat) (mem : i ∈ bufLanes m mask) (h : inBuf m v.w i = true) := range i mem ((inBuf_iff i).mp h)
    refine ⟨fun all => ?ldb, _, _, rfl, rfl, ?ldbZ⟩
    case ldb =>
      have all' : ∀ i ∈ bufLanes m mask, inBuf m v.w i = true := fun i mem => (inBuf_iff i).mpr (all i mem)
      have whole := loadIssues_bufLoad (z := false) h intact range' (.inr all')
      have none_ : (bufLanes m mask).filter (fun i => !inBuf m v.w i) = [] := List.filter_eq_nil_iff.mpr fun i mem => by simp [all' i mem]
      rw [bufReq, none_, bufAccs_of_inside all'] at whole
      exact whole
    case ldbZ =>
      have whole := loadIssues_bufLoad (z := true) h intact range' (.inl rfl)
      rw [bufReq, bufAccs, inBuf_eq] at whole
      exact whole

end Sys2Proof
end

section
/-! SUPPORT. LDS and STS (R152, R153, R322): which sync addresses a word may name, and what Quern does with an access outside a recording and a replay. -/
namespace Sys2Proof.Machine
open Sys2Proof

/-! ### Issue (R91, R152) -/

section
variable {c : Ctx} {a : Nat}

theorem syncCheck_of_inside (aligned : a % 8 = 0) (inside : a + 8 ≤ c.ent.syncsz * 65536) : syncCheck c a 8 8 = none := by
  simp [syncCheck, inSync, aligned, inside]

theorem syncCheck_of_misaligned (odd : a % 8 ≠ 0) : syncCheck c a 8 8 = some illegalSpec := if_pos odd

theorem syncCheck_of_outside (aligned : a % 8 = 0) (outside : ¬ a + 8 ≤ c.ent.syncsz * 65536) : syncCheck c a 8 8 = some { cause := 7, det := 0x20, addr := a } := by
  simp [syncCheck, inSync, aligned, outside]

end

/-- What the check of a sync address leaves to its word: the access, Illegal Instruction or Unmappable Translation. -/
theorem syncIssue_law {v : View} {a : Nat} {s : State} {res : Result} {go : Result}
    (issues : res = match syncCheck v.c a 8 8 with | some f => hardFault v.w f s | none => go) :
    let inside := a % 8 = 0 ∧ a + 8 ≤ v.c.ent.syncsz * 65536
    (inside → res = go) ∧ (a % 8 ≠ 0 → res = illegalWord v.w s) ∧ (a % 8 = 0 → ¬ inside → res = hardFault v.w { cause := 7, det := 0x20, addr := a } s) := by
  subst issues
  refine ⟨fun inside => ?_, fun odd => ?_, fun aligned outside => ?_⟩
  · rw [syncCheck_of_inside inside.1 inside.2]
  · rw [syncCheck_of_misaligned odd]
    rfl
  · rw [syncCheck_of_outside aligned fun whole => outside ⟨aligned, whole⟩]

/-! ### At its Quern (R153, R322) -/

section
variable {v : View} {a : Nat} {s : State}

theorem readSync_of_aligned (c : Ctx) (aligned : a % 8 = 0) : readSync c a = if (mget c.queues (a / 64 * 64)).isSome then 0 else mgetD c.sync a 0 := by
  rw [readSync, syncWord, Nat.div_mul_cancel (Nat.dvd_of_mod_eq_zero aligned)]
  rfl

theorem countedIn_ctx {wave : Nat} (h : viewOf s wave = some v) : mget (countedIn wave v s).ctxs v.g.asid = some v.c :=
  (congrArg (mget · v.g.asid) (putWave_ctxs _ _ _)).trans (viewOf_ctx h)

/-- An LDS returns the word as Quern reads it. -/
theorem perfLds_plain (h : viewOf s v.key = some v) (rec : recording v.c v.b.gid = false) (rep : replaying v.c v.b.gid = false) (info : WordInfo) (d : Operand) :
    perfLds v info a d s = .done (addReturn v.key
      { info := info, dest := d, size := 8, sx := false, lanes := [(0, (readSync v.c a).toNat)], far := [], bad := none, addrs := [], acq := false } (countedIn v.key v s)) := by
  simp only [perfLds, quernOne_plain h rec rep, countedIn_ctx h]

/-- An STS to a word of a queue or to a status word is discarded; any other is a write of the word. -/
theorem perfSts_plain (h : viewOf s v.key = some v) (rec : recording v.c v.b.gid = false) (rep : replaying v.c v.b.gid = false) (x : Word64) :
    perfSts v a x s = .done (if (mget v.c.queues (a / 64 * 64)).isSome ∨ isStatusWord s v.g.asid a = true then countedIn v.key v s
      else plainWrite v.g.asid a x (countedIn v.key v s)) := by
  simp only [perfSts, quernOne_plain h rec rep, countedIn_ctx h]
  exact (apply_ite Perf.done _ _ _).symm

/-- A write to SENT or ACK of the context's one ring: its low half, where that raises the word and an ACK does not pass RECV (R322). -/
theorem plainWrite_of_ring {asid : Nat} {c : Ctx} (hc : mget s.ctxs asid = some c) {ctl : Nat} {r : Ring} (ring : c.rings = [(ctl, r)]) (word : a = ctl ∨ a = ctl + 8) (x : Word64) :
    plainWrite asid a x s =
      if x.toNat % 2 ^ 32 ≤ (syncWord c a).toNat % 2 ^ 32 ∨ (a = ctl + 8 ∧ (syncWord c (ctl + 16)).toNat % 2 ^ 32 < x.toNat % 2 ^ 32) then s
      else syncWrite asid a (BitVec.ofNat 64 (x.toNat % 2 ^ 32)) s := by
  have found : [(ctl, r)].find? (fun q => a == q.1 || a == q.1 + 8) = some (ctl, r) := List.find?_cons_of_pos (by simpa using word)
  simp only [plainWrite, hc, ringWord, ring, found]
  split_ifs <;> rfl

end

end Sys2Proof.Machine
end

section
namespace Sys2Proof
open Sys2Proof.Machine

/-- Settles O29: the address decides what LDS and STS come to at issue (`syncIssue_law`); performed, an LDS returns what Quern reads (`perfLds_plain`), and an STS is discarded or a write of its word (`perfSts_plain`), to a ring's SENT or ACK one of its low half (`plainWrite_of_ring`). -/
theorem syncWords : Obligations.SyncWords := by
  refine ⟨fun m v mask s => ⟨fun h => ?lds, fun h => ?sts⟩, fun v info a x d s h rec rep aligned => ?perform⟩
  case lds =>
    obtain ⟨inside, rest⟩ := syncIssue_law (show exec (.lds m) s = _ from (viewWord_of_acts h _ : execLds m s = _))
    exact ⟨fun h => inside h ▸ queues_queueOp _ _ _ _ _ _ _, rest⟩
  case sts =>
    obtain ⟨inside, rest⟩ := syncIssue_law (show exec (.sts m) s = _ from (viewWord_of_acts h _ : execSts m s = _))
    exact ⟨fun h => inside h ▸ queues_queueOp _ _ _ _ _ _ _, rest⟩
  case perform =>
    rw [modWave_of_some (viewOf_wave h)]
    intro counted
    rw [perfSts_plain h rec rep]
    refine ⟨⟨_, perfLds_plain h rec rep info d, rfl, rfl, rfl, rfl, ?value⟩, fun queue => congrArg Perf.done (if_pos (.inl queue)), fun noQueue noStatus noRing => ?word,
      fun ctl r noQueue noStatus ring word => ?ring⟩
    case value => rw [readSync_of_aligned _ aligned]
    case word =>
      have kept : ¬ ((mget v.c.queues (a / 64 * 64)).isSome = true ∨ isStatusWord s v.g.asid a = true) := by simp [noQueue, noStatus]
      rw [if_neg kept, plainWrite_of_no_rings (countedIn_ctx h) noRing]
    case ring =>
      have kept : ¬ ((mget v.c.queues (a / 64 * 64)).isSome = true ∨ isStatusWord s v.g.asid a = true) := by simp [noQueue, noStatus]
      rw [if_neg kept, plainWrite_of_ring (countedIn_ctx h) ring word]
      exact ⟨fun lower => congrArg Perf.done (if_pos lower), fun raises => congrArg Perf.done (if_neg raises)⟩

end Sys2Proof
end

section
/-! SUPPORT. TAGSET and TAGGET (R168, R170): what enters the memory queue, the one tag that a granule's write sets, and the tags that are bound. -/
namespace Sys2Proof.Machine
open Sys2Proof

/-! ### TAGSET -/

section
variable {m : MW} {v : View} {mask : Word32} {s : State}

/-- The pointers of A in some lanes. -/
def ptrAccs (m : MW) (w : Wave) (lanes : List Nat) : List (Nat × Nat) := lanes.map (fun i => (i, ptrVal m w m.a i))

/-- The check of a granule that a per-lane TAGSET names (log 56). -/
def granuleCheck (v : View) (s : State) (p : Nat) : Chk := tagCheck s v (ptrAddr p / 32 * 32) 32

theorem queues_tagset_lanes (h : Acts m.guard [ptrSrc m m.a, plainSrc m m.b] [] v mask s) (perLane : isV m.a = true)
    (checks : NoneFails (granuleCheck v s) (ptrAccs m v.w (lanesOf mask))) :
    Queues (.tagset ((ptrAccs m v.w (lanesOf mask)).map (fun a => (a.1, ptrAddr a.2, ptrTag a.2)))) true false (lanePending (granuleCheck v s) (ptrAccs m v.w (lanesOf mask))) id v s (execTagset m s) := by
  unfold granuleCheck ptrAccs at checks
  simp only [execTagset, viewWord_of_acts h, perLane, if_true, laneFault_of_noneFails checks]
  exact queues_queueOp _ _ _ _ _ _ _

/-- The pointer and the length of a uniform TAGSET. -/
def tagPtr (m : MW) (w : Wave) : Nat := ptrVal m w m.a 0
def tagLen (m : MW) (w : Wave) : Nat := (rawOp w m.lit false m.b 0).toNat

/-- The range that a uniform TAGSET may name. -/
def TagRangeLegal (m : MW) (w : Wave) : Prop := tagPtr m w % 32 = 0 ∧ tagLen m w % 32 = 0 ∧ tagLen m w < 2 ^ 32

theorem execTagset_of_illegal (h : Acts m.guard [ptrSrc m m.a, plainSrc m m.b] [] v mask s) (uniform : isV m.a = false) (illegal : ¬ TagRangeLegal m v.w) :
    execTagset m s = illegalWord v.w s := by
  have bad : tagPtr m v.w % 32 ≠ 0 ∨ tagLen m v.w % 32 ≠ 0 ∨ tagLen m v.w ≥ 2 ^ 32 := by unfold TagRangeLegal at illegal; omega
  unfold tagPtr tagLen at bad
  simp only [execTagset, viewWord_of_acts h, uniform, Bool.false_eq_true, if_false, if_pos bad]

/-- A uniform TAGSET of a legal range whose check does not fail; one of length 0 has nothing to check (log 56). -/
theorem queues_tagset_range (h : Acts m.guard [ptrSrc m m.a, plainSrc m m.b] [] v mask s) (uniform : isV m.a = false) (legal : TagRangeLegal m v.w) {c : Chk}
    (check : (if tagLen m v.w = 0 then Chk.ok else tagCheck s v (ptrAddr (tagPtr m v.w)) (tagLen m v.w)) = c) (passes : c = .ok ∨ c = .pending) :
    Queues (.tagRange (ptrAddr (tagPtr m v.w)) (tagLen m v.w) (ptrTag (tagPtr m v.w))) true false (c == .pending) id v s (execTagset m s) := by
  subst check
  have good : ¬ (tagPtr m v.w % 32 ≠ 0 ∨ tagLen m v.w % 32 ≠ 0 ∨ tagLen m v.w ≥ 2 ^ 32) := by unfold TagRangeLegal at legal; omega
  have checks : NoneFails (fun q => if tagLen m v.w = 0 then Chk.ok else tagCheck s v (ptrAddr q) (tagLen m v.w)) [(0, tagPtr m v.w)] :=
    List.forall_mem_singleton.mpr passes
  unfold tagPtr tagLen at *
  simp only [execTagset, viewWord_of_acts h, uniform, Bool.false_eq_true, if_false, if_neg good, laneFault_of_noneFails checks]
  exact queues_queueOp _ _ _ _ _ _ _

end

/-! ### The tag of a granule (R281) -/

section
variable {v : View} {addr tag pa leaf level p : Nat} {s : State}

theorem tagOf_setTag (pa tag a : Nat) (s : State) : tagOf (setTag pa tag s) a = if a / 32 = pa / 32 then tag % 16 else tagOf s a := by
  simp only [tagOf, setTag, mgetD_mset]
  split <;> simp

theorem noteTag_memSide (asid root va : Nat) (s : State) : MemSide s (noteTag asid root va s) := noteWalk_memSide _ _ _ _ _

theorem tagGranule_of_tagged (global : windowOf addr = .global) (walk : xlate s v.g.asid (rootOf v.c) addr true = .ok pa leaf level p) (tagged : leafTg leaf = true) :
    tagGranule v addr tag s = setTag pa tag (recordUnit v.g.asid (rootOf v.c) true addr s) := by
  simp only [tagGranule, global, walk, tagged, if_true]

theorem tagGranule_of_untagged (global : windowOf addr = .global) (walk : xlate s v.g.asid (rootOf v.c) addr true = .ok pa leaf level p) (untagged : leafTg leaf = false) :
    tagGranule v addr tag s = noteTag v.g.asid (rootOf v.c) addr s := by
  simp only [tagGranule, global, walk, untagged, if_true, Bool.false_eq_true, if_false]

theorem tagOf_tagGranule (global : windowOf addr = .global) (walk : xlate s v.g.asid (rootOf v.c) addr true = .ok pa leaf level p) (tagged : leafTg leaf = true) (a : Nat) :
    tagOf (tagGranule v addr tag s) a = if a / 32 = pa / 32 then tag % 16 else tagOf s a := by
  rw [tagGranule_of_tagged global walk tagged, tagOf_setTag]
  simp only [tagOf, (recordUnit_memSide _ _ _ _ _).tags]

end

/-! ### TAGGET (R170) -/

section
variable {m : MW} {v : View} {mask : Word32} {s : State}

/-- The result that TAGGET binds. -/
def tagResult (m : MW) (v : View) (mask : Word32) (s : State) : Return :=
  { info := wordInfo v.w, dest := m.d, size := 4, sx := false, lanes := (ptrAccs m v.w (memLanes m mask)).map (fun a => (a.1, tagValue s v (ptrAddr a.2)))
    far := [], bad := none, addrs := ptrAccs m v.w (memLanes m mask), acq := false }

theorem execTagget_of_free (h : Acts m.guard [ptrSrc m m.a] [(m.d, 1)] v mask s)
    (checks : ∀ a ∈ ptrAccs m v.w (memLanes m mask), checkAccess s v .load none (ptrAddr a.2) 1 = .ok)
    (untagging : tagsOut v.w = false) (unblocked : loadBlocked s v [] = false) :
    execTagget m s = GoesOn v.key (markEmpty m.d 1 mask { v.w with returns := v.w.returns ++ [tagResult m v mask s] })
      (recordAccs v false 1 (ptrAccs m v.w (memLanes m mask)) s) := by
  unfold ptrAccs at checks
  have passes : laneFault (fun p => checkAccess s v .load none (ptrAddr p) 1) _ = none := laneFault_of_ok checks
  have mapped : lanePending (fun p => checkAccess s v .load none (ptrAddr p) 1) _ = false := lanePending_of_ok checks
  simp only [execTagget, viewWord_of_acts h, passes, mapped, untagging, unblocked, Bool.false_eq_true, or_self, if_false]
  rfl

end

end Sys2Proof.Machine
end

section
namespace Sys2Proof
open Sys2Proof.Machine

/-- Settles O32: a TAGSET whose check does not fail enters the memory queue (`queues_tagset_lanes`, `queues_tagset_range`), the write of a granule sets its tag on a tagged page and nothing on another (`tagOf_tagGranule`, `tagGranule_of_untagged`), and TAGGET binds its tags at issue (`execTagget_of_free`). -/
theorem tagWords : Obligations.TagWords := by
  intro m v mask s
  refine ⟨fun h => ⟨fun perLane => ?lanes, fun uniform => ?range⟩, fun addr tag pa leaf level p global walk small => ?granule, fun h => ?tagget⟩
  case lanes => exact fun checks => queues_tagset_lanes h perLane checks
  case range =>
    refine ⟨fun even whole short passes => ?_, fun even whole short some_ pending => ?_, execTagset_of_illegal h uniform⟩
    · have check : (if tagLen m v.w = 0 then Chk.ok else tagCheck s v (ptrAddr (tagPtr m v.w)) (tagLen m v.w)) = .ok := ite_eq_left_iff.mpr passes.resolve_left
      exact queues_tagset_range h uniform ⟨even, whole, short⟩ check (.inl rfl)
    · exact queues_tagset_range h uniform ⟨even, whole, short⟩ ((if_neg some_).trans pending) (.inr rfl)
  case granule =>
    refine ⟨fun tagged => ?_, fun untagged => ?_⟩
    · have tags := tagOf_tagGranule (tag := tag) global walk tagged
      exact ⟨(tags pa).trans ((if_pos rfl).trans (Nat.mod_eq_of_lt small)), fun a other => (tags a).trans (if_neg other)⟩
    · rw [tagGranule_of_untagged global walk untagged, (noteTag_memSide _ _ _ _).tags]
  case tagget =>
    intro accs checks untagging unblocked
    have side := recordAccs_memSide v false 1 accs s
    refine ⟨_, tagResult m v mask s, execTagget_of_free h checks untagging unblocked, rfl, rfl, rfl, rfl, rfl, ?_, mget_putWave_same _ _ _, side.blocks, side.tags, rfl⟩
    exact List.map_congr_left fun a _ => congrArg (Prod.mk a.1) (ite_not _ _ _).symm

end Sys2Proof
end

section
/-! SUPPORT. CLEAN (R172): what enters the memory queue, and the near-cache lines that its performing leaves. -/
namespace Sys2Proof.Machine
open Sys2Proof

/-! ### Issue -/

section
variable {inv : Bool} {m : MW} {v : View} {mask : Word32} {s : State}

theorem cleanWord_of_long (h : Acts m.guard [ptrSrc m m.a, plainSrc m m.b] [] v mask s) (long : 2 ^ 32 ≤ (rawOp v.w m.lit false m.b 0).toNat) :
    cleanWord inv m s = illegalWord v.w s := by
  rw [cleanWord, viewWord_of_acts h]
  exact if_pos long

/-- A CLEAN whose range passes its checks enters the memory queue, its access recorded; one of length 0 has nothing to check (log 56). -/
theorem queues_cleanWord (h : Acts m.guard [ptrSrc m m.a, plainSrc m m.b] [] v mask s) {p n : Nat} (ptr : ptrVal m v.w m.a 0 = p) (len : (rawOp v.w m.lit false m.b 0).toNat = n)
    (short : n < 2 ^ 32) (passes : n = 0 ∨ cleanCheck s v (ptrTag p) (ptrAddr p) n = .ok) :
    Queues (.clean (ptrAddr p) n (ptrTag p) inv) true false false id v (recordAccs v false n (if n = 0 then [] else [(0, p)]) s) (cleanWord inv m s) := by
  have check : (if n = 0 then Chk.ok else cleanCheck s v (ptrTag p) (ptrAddr p) n) = .ok := ite_eq_left_iff.mpr passes.resolve_left
  have checks : laneFault (fun q => if n = 0 then Chk.ok else cleanCheck s v (ptrTag q) (ptrAddr q) n) [(0, p)] = none :=
    laneFault_of_ok (List.forall_mem_singleton.mpr check)
  simp only [cleanWord, viewWord_of_acts h, ptr, len, if_neg (Nat.not_le.mpr short), checks, check, reduceCtorEq, if_false]
  exact queues_queueOp _ _ _ _ _ _ _

end

/-! ### Translation does not read the near cache -/

theorem physNat_near (s : State) (near : List (Nat × Bool)) (a n : Nat) : physNat { s with near := near } a n = physNat s a n := by
  simp only [physNat, physBytes_eq]
  rfl

theorem walkFrom_near (s : State) (near : List (Nat × Bool)) (asid : Nat) (write : Bool) (va : Nat) (ls : List (Nat × Nat × Nat)) (table : Nat) (path : List (Nat × Nat)) :
    walkFrom { s with near := near } asid write va ls table path = walkFrom s asid write va ls table path := by
  induction ls generalizing table path with
  | nil => rfl
  | cons l ls ih =>
    simp only [walkFrom, physNat_near, ih]
    rfl

theorem xlate_near (s : State) (near : List (Nat × Bool)) (asid root va : Nat) (write : Bool) : xlate { s with near := near } asid root va write = xlate s asid root va write := by
  simp only [xlate, walk, walkFrom_near]
  rfl

/-! ### Performed -/

/-- What CLEAN makes of a held line: it is not modified; with .inv it is gone. -/
def cleanedLine (inv : Bool) (held : Option Bool) : Option Bool := if inv then none else held.map (fun _ => false)

theorem cleanedLine_idem (inv : Bool) (held : Option Bool) : cleanedLine inv (cleanedLine inv held) = cleanedLine inv held := by
  cases inv <;> cases held <;> rfl

/-- The state t is s but for the near-cache lines ks, which are cleaned. -/
structure Cleans (inv : Bool) (ks : List Nat) (s t : State) : Prop where
  rest : t = { s with near := t.near }
  lines : ∀ k, mget t.near k = if k ∈ ks then cleanedLine inv (mget s.near k) else mget s.near k

namespace Cleans

theorem refl (inv : Bool) (s : State) : Cleans inv [] s s := ⟨rfl, fun _ => rfl⟩

theorem trans {inv : Bool} {ks js : List Nat} {s t u : State} (first : Cleans inv ks s t) (second : Cleans inv js t u) : Cleans inv (ks ++ js) s u where
  rest := second.rest.trans (congrArg (fun x : State => { x with near := u.near }) first.rest)
  lines k := by
    rw [second.lines, first.lines]
    by_cases now : k ∈ ks <;> by_cases later : k ∈ js <;> simp [now, later, cleanedLine_idem]

end Cleans

theorem cleans_cleanLine (line : Nat) (inv : Bool) (s : State) : Cleans inv [line] s (cleanLine line inv s) := by
  fun_cases cleanLine
  case case1 absent =>
    refine ⟨rfl, fun k => ?_⟩
    split_ifs with h
    · rw [List.mem_singleton.mp h, absent]
      cases inv <;> rfl
    · rfl
  case case2 held present =>
    refine ⟨rfl, fun k => ?_⟩
    simp only [List.mem_singleton]
    cases inv with
    | true => exact mget_mdel _ _ _
    | false =>
      refine (mget_mput _ _ _ _).trans ?_
      split_ifs with h
      · rw [h, present]
        rfl
      · rfl

/-- One piece of a CLEAN's range: its line, where its translation is there. -/
def cleanPiece (v : View) (inv : Bool) (t : State) (l : Nat × Nat) : State :=
  match xlate t v.g.asid (rootOf v.c) l.1 with
  | .ok pa _ _ _ => cleanLine (pa / 128) inv t
  | _ => t

/-- The line that a piece translates to. -/
def lineOf (v : View) (s : State) (l : Nat × Nat) : List Nat :=
  match xlate s v.g.asid (rootOf v.c) l.1 with
  | .ok pa _ _ _ => [pa / 128]
  | _ => []

theorem cleans_cleanPiece (v : View) (inv : Bool) (s : State) (l : Nat × Nat) : Cleans inv (lineOf v s l) s (cleanPiece v inv s l) := by
  unfold cleanPiece lineOf
  cases xlate s v.g.asid (rootOf v.c) l.1 with
  | ok pa leaf level p => exact cleans_cleanLine _ _ _
  | pending => exact .refl inv s
  | bad det => exact .refl inv s

theorem Cleans.lineOf {inv : Bool} {ks : List Nat} {s t : State} (h : Cleans inv ks s t) (v : View) : lineOf v t = lineOf v s := by
  rw [h.rest]
  funext l
  simp only [Machine.lineOf, xlate_near]

theorem cleans_foldl (v : View) (inv : Bool) (ls : List (Nat × Nat)) (s : State) : Cleans inv (ls.flatMap (lineOf v s)) s (ls.foldl (cleanPiece v inv) s) := by
  induction ls generalizing s with
  | nil => exact .refl inv s
  | cons l ls ih =>
    have first := cleans_cleanPiece v inv s l
    have others := ih (cleanPiece v inv s l)
    rw [first.lineOf] at others
    exact first.trans others

/-- An operation that is done has passed its checks. -/
theorem perfCheck_done {accs : List (Nat × Nat × Chk)} {go : Unit → Perf} {t : State} (h : perfCheck accs go = .done t) : go () = .done t := by
  unfold perfCheck at h
  split at h
  · cases h
  · split at h
    · cases h
    · exact h

/-- A CLEAN that is done has cleaned the lines of its range, and nothing else has changed. -/
theorem cleans_of_perfClean {v : View} {addr len tag : Nat} {inv : Bool} {s t : State} (h : perfClean v addr len tag inv s = .done t) :
    Cleans inv ((linePieces addr len).flatMap (lineOf v s)) s t := by
  unfold perfClean at h
  split at h
  case isTrue empty =>
    cases h
    simp only [linePieces, empty, if_true, List.flatMap_nil]
    exact .refl inv s
  case isFalse =>
    cases perfCheck_done h
    exact cleans_foldl v inv _ s

end Sys2Proof.Machine
end

section
namespace Sys2Proof
open Sys2Proof.Machine

/-- Settles O33: a CLEAN whose range passes its checks enters the memory queue (`queues_cleanWord`), and once it is done it has cleaned the lines of its range and changed nothing else (`cleans_of_perfClean`). -/
theorem cleanWords : Obligations.CleanWords := by
  intro m v mask s
  refine ⟨fun h => ?issue, fun addr len tag inv t done => ?performed⟩
  case issue =>
    exact ⟨fun short passes => ⟨queues_cleanWord h rfl rfl short passes, queues_cleanWord h rfl rfl short passes⟩, fun long => ⟨cleanWord_of_long h long, cleanWord_of_long h long⟩⟩
  case performed =>
    have cleans := cleans_of_perfClean done
    refine ⟨cleans.rest, fun l pa leaf level p piece walk => ?_⟩
    have line : lineOf v s l = [pa / 128] := by simp only [lineOf, walk]
    have mem : pa / 128 ∈ (linePieces addr len).flatMap (lineOf v s) := List.mem_flatMap.mpr ⟨l, piece, by simp [line]⟩
    rw [cleans.lines, if_pos mem]
    rfl

end Sys2Proof
end

section
/-! SUPPORT. Words on accumulator tiles (R156, R237 to R239): the tiles a word binds, and the elements it changes. -/
namespace Sys2Proof.Machine
open Sys2Proof

/-! ### Binding and changing (R237) -/

section
variable {v : View} {s : State}

/-- No older loop of the wave is on the tiles that a word names, and the core has tiles for them. -/
structure TilesReady (v : View) (ts : List Nat) (s : State) : Prop where
  unlooped : loopOn v.w ts = false
  free : tilesFree v ts s = true

theorem tileWord_of_ready {ts : List Nat} (ready : TilesReady v ts s) (go : State → Result) : tileWord v ts go s = go (bindTiles v.w.blk ts s) :=
  if_neg (by simp [ready.unlooped, ready.free])

/-- The word binds its tiles, changes its block's elements to f and does nothing else. -/
def ChangesTiles (v : View) (ts : List Nat) (f : Nat → Nat → Nat → Word32) (s : State) (res : Result) : Prop :=
  ∃ b', res = GoesOn v.key v.w { s with blocks := mput s.blocks v.w.blk b' } ∧ b' = { v.b with tiles := b'.tiles, bound := ts.foldl sadd v.b.bound } ∧
    ∀ t a b, a < 32 → b < 32 → tileAt b' t a b = f t a b

/-- A change of a block that touches its tiles alone. -/
def TilesOnly (edit : Block → Block) : Prop := ∀ b, ∃ ts, edit b = { b with tiles := ts }

theorem tilesOnly_foldl {α : Type} {edit : Block → α → Block} (each : ∀ a, TilesOnly (edit · a)) (as : List α) : TilesOnly (as.foldl edit) := by
  intro b
  induction as generalizing b with
  | nil => exact ⟨_, rfl⟩
  | cons a as ih =>
    obtain ⟨_, first⟩ := each a b
    obtain ⟨ts, others⟩ := ih (edit b a)
    exact ⟨ts, others.trans (congrArg (fun c : Block => { c with tiles := ts }) first)⟩

theorem tilesOnly_mapTile (t : Nat) (f : Nat → Nat → Word32 → Word32) : TilesOnly (mapTile t f) := fun b => ⟨_, mapTile_frame t f b⟩

/-- A ready word that ends in a change of its block's tiles. -/
theorem changesTiles_of_edit {ts : List Nat} {f : Nat → Nat → Nat → Word32} {edit : Block → Block} (h : viewOf s v.key = some v) (ready : TilesReady v ts s) (only : TilesOnly edit)
    (elems : ∀ t a b, a < 32 → b < 32 → tileAt (edit { v.b with bound := ts.foldl sadd v.b.bound }) t a b = f t a b) :
    ChangesTiles v ts f s (tileWord v ts (fun u => done v.key (modBlock v.w.blk edit u)) s) := by
  obtain ⟨tiles, only⟩ := only { v.b with bound := ts.foldl sadd v.b.bound }
  refine ⟨edit { v.b with bound := ts.foldl sadd v.b.bound }, ?_, by rw [only], elems⟩
  have bound : bindTiles v.w.blk ts s = putBlock v.w.blk { v.b with bound := ts.foldl sadd v.b.bound } s := modBlock_of_some (viewOf_block h) _
  have edited : modBlock v.w.blk edit (bindTiles v.w.blk ts s) = { s with blocks := mput s.blocks v.w.blk (edit { v.b with bound := ts.foldl sadd v.b.bound }) } := by
    rw [bound, modBlock_of_some (mget_mput_same _ _ _), putBlock, putBlock, mput_mput]
  have present := viewOf_wave h
  rw [tileWord_of_ready ready, edited]
  exact done_of_some present

/-! ### CZERO, CADD, CSCALE (R238, R239) -/

theorem tileAt_foldl_zero (ts : List Nat) (b : Block) {t x y : Nat} (hx : x < 32) (hy : y < 32) :
    tileAt (ts.foldl (fun c n => mapTile n (fun _ _ _ => 0) c) b) t x y = if t ∈ ts then 0 else tileAt b t x y := by
  induction ts generalizing b with
  | nil => simp
  | cons n ts ih =>
    rw [List.foldl_cons, ih, tileAt_mapTile n _ b hx hy]
    by_cases later : t ∈ ts <;> by_cases now : t = n <;> simp [later, now]

end

section
variable {q : QW} {v : View} {mask : Word32} {s : State}

theorem exec_czero (h : Acts q.guard [] [] v mask s) (ready : TilesReady v ((List.range (q.kn.toNat + 1)).map (fun i => q.ct.toNat + i)) s) :
    ChangesTiles v ((List.range (q.kn.toNat + 1)).map (fun i => q.ct.toNat + i))
      (fun t a b => if q.ct.toNat ≤ t ∧ t ≤ q.ct.toNat + q.kn.toNat then 0 else tileAt v.b t a b) s (exec (.czero q) s) := by
  rw [show exec (.czero q) s = _ from (viewWord_of_acts h _ : execCzero q s = _)]
  refine changesTiles_of_edit h.view ready (tilesOnly_foldl (fun n => tilesOnly_mapTile n _) _) fun t a b ha hb => ?_
  have named : t ∈ (List.range (q.kn.toNat + 1)).map (fun i => q.ct.toNat + i) ↔ q.ct.toNat ≤ t ∧ t ≤ q.ct.toNat + q.kn.toNat := by
    simp only [List.mem_map, List.mem_range]
    exact ⟨by rintro ⟨i, hi, rfl⟩; omega, fun ⟨low, high⟩ => ⟨t - q.ct.toNat, by omega, by omega⟩⟩
  rw [tileAt_foldl_zero _ _ ha hb]
  simp only [named]
  rfl

/-- CADD from a block's tile. -/
theorem caddFrom_changes {own : Bool} {src : Block} {n : Nat} (h : viewOf s v.key = some v) (tile : valQ v.w q.ia = n) (small : n < 64)
    (ready : TilesReady v (if own = true ∧ n ≠ q.ct.toNat then [q.ct.toNat, n] else [q.ct.toNat]) s) :
    ChangesTiles v (if own = true ∧ n ≠ q.ct.toNat then [q.ct.toNat, n] else [q.ct.toNat])
      (fun t a b => if t = q.ct.toNat then BitVec.ofNat 32 (faddVal .f32 0 (tileAt v.b q.ct.toNat a b).toNat (tileAt src n a b).toNat) else tileAt v.b t a b) s
      (caddFrom q own v src s) := by
  simp only [caddFrom, tile, if_neg (show ¬ n > 63 by omega)]
  exact changesTiles_of_edit h ready (tilesOnly_mapTile _ _) fun t a b ha hb => tileAt_mapTile _ _ _ ha hb

/-- The peer that a word names is a block of the state. -/
theorem mget_of_peerOf {sub k : Nat} {b : Block} (peer : peerOf v sub s = some (k, b)) : mget s.blocks k = some b := by
  unfold peerOf at peer
  dsimp only at peer
  split_ifs at peer
  obtain ⟨b', present, same⟩ := Option.map_eq_some_iff.mp peer
  cases same
  exact present

theorem exec_caddPeer {k : Nat} {b : Block} (h : Acts q.guard [srcQ q.ia] [] v mask s) (peer : peerOf v q.sub.toNat s = some (k, b)) :
    exec (.caddPeer q) s = caddFrom q (k == v.w.blk) v b s := by
  rw [show exec (.caddPeer q) s = _ from (viewWord_of_acts h _ : execCaddPeer q s = _)]
  simp only [peer]

/-- A tile scaled in the elements that have a factor. -/
theorem scaleTile_changes {f : View → Word32 → Nat → Nat → Option Nat} {selected : Nat → Nat → Prop} [∀ a b, Decidable (selected a b)] {factor : Nat → Nat → Nat}
    (h : Acts q.guard [srcQ q.ia] [] v mask s) (ready : TilesReady v [q.ct.toNat] s) (factors : ∀ a b, f v mask a b = if selected a b then some (factor a b) else none) :
    ChangesTiles v [q.ct.toNat] (fun t a b => if t = q.ct.toNat ∧ selected a b then BitVec.ofNat 32 (fmulVal .f32 0 (tileAt v.b q.ct.toNat a b).toNat (factor a b))
      else tileAt v.b t a b) s (scaleTile q f s) := by
  rw [scaleTile, viewWord_of_acts h]
  refine changesTiles_of_edit h.view ready (tilesOnly_mapTile _ _) fun t a b ha hb => (tileAt_mapTile _ _ _ ha hb).trans ?_
  simp only [factors]
  by_cases same : t = q.ct.toNat <;> by_cases named : selected a b <;> simp only [same, named, if_true, if_false, and_self, and_true, and_false] <;> rfl

end

/-! ### LDC and STC (R156) -/

section
variable {col : Bool} {m : MW} {v : View} {mask : Word32} {r n : Nat} {s : State}

theorem tileOperands_of_small (row : (rawOp v.w m.lit false m.a 0).toNat = r) (tile : (rawOp v.w m.lit false m.b 0).toNat = n) (hr : r < 32) (hn : n < 64) :
    tileOperands m v.w = some (r, n) := by
  simp only [tileOperands, row, tile, hr, hn, and_self, if_true]

theorem loadTile_of_ready (h : Acts m.guard [plainSrc m m.a, plainSrc m m.b] [(m.d, 1)] v mask s) (operands : tileOperands m v.w = some (r, n)) (ready : TilesReady v [n] s) :
    loadTile col m s = lateResult v m.d 4 mask ((lanesOf mask).map (fun i => (i, (tileAt v.b n (laneElem col r i).1 (laneElem col r i).2).toNat))) (bindTiles v.w.blk [n] s) := by
  simp only [loadTile, viewWord_of_acts h, operands, tileWord_of_ready ready]

/-- The lane whose element of the row or column an element is. -/
def elemLane (col : Bool) (e : Nat × Nat) : Nat := if col then e.1 else e.2

theorem elemLane_laneElem (col : Bool) (r i : Nat) : elemLane col (laneElem col r i) = i := by cases col <;> rfl

/-- The elements of a row or column that the selected lanes name. -/
theorem mem_map_laneElem {x y : Nat} (hx : x < 32) (hy : y < 32) :
    (x, y) ∈ (lanesOf mask).map (laneElem col r) ↔ (if col then y else x) = r ∧ mask.getLsbD (elemLane col (x, y)) = true := by
  simp only [List.mem_map, mem_lanesOf]
  constructor
  · rintro ⟨i, ⟨-, selected⟩, elem⟩
    rw [← elem, elemLane_laneElem]
    refine ⟨?_, selected⟩
    cases col <;> cases elem <;> rfl
  · rintro ⟨rfl, selected⟩
    refine ⟨elemLane col (x, y), ⟨?_, selected⟩, ?_⟩
    · cases col <;> assumption
    · cases col <;> rfl

theorem storeTile_changes (h : Acts m.guard [plainSrc m m.a, plainSrc m m.b, plainSrc m m.d] [] v mask s) (operands : tileOperands m v.w = some (r, n)) (hr : r < 32)
    (ready : TilesReady v [n] s) :
    ChangesTiles v [n] (fun q x y => if q = n ∧ (if col then y else x) = r ∧ mask.getLsbD (elemLane col (x, y)) = true then
      BitVec.ofNat 32 (intOp v.w m.lit 32 m.d (elemLane col (x, y))) else tileAt v.b q x y) s (storeTile col m s) := by
  have small : ∀ e ∈ (lanesOf mask).map (laneElem col r), e.1 < 32 ∧ e.2 < 32 := by
    intro e mem
    obtain ⟨i, lane, rfl⟩ := List.mem_map.mp mem
    have hi := ((mem_lanesOf mask i).mp lane).1
    cases col
    · exact ⟨hr, hi⟩
    · exact ⟨hi, hr⟩
  have edit (b : Block) : (lanesOf mask).foldl (fun c i => setTile n (laneElem col r i).1 (laneElem col r i).2 (BitVec.ofNat 32 (intOp v.w m.lit 32 m.d i)) c) b =
      ((lanesOf mask).map (laneElem col r)).foldl (fun c e => setTile n e.1 e.2 (BitVec.ofNat 32 (intOp v.w m.lit 32 m.d (elemLane col e))) c) b := by
    simp only [List.foldl_map, elemLane_laneElem]
  simp only [storeTile, viewWord_of_acts h, operands, edit]
  refine changesTiles_of_edit h.view ready (tilesOnly_foldl (fun e b => ⟨_, rfl⟩) _) fun q x y hx hy => ?_
  rw [tileAt_foldl_setTile n (fun e => BitVec.ofNat 32 (intOp v.w m.lit 32 m.d (elemLane col e))) small _ hx hy]
  simp only [mem_map_laneElem hx hy]
  rfl

end

end Sys2Proof.Machine
end

section
namespace Sys2Proof
open Sys2Proof.Machine

/-- Settles O34: a ready tile word binds its tiles and edits the elements of its block alone (`changesTiles_of_edit`): STC a row or column (`storeTile_changes`), CZERO its tiles (`exec_czero`), CADD and CADD.peer a sum (`caddFrom_changes`), CSCALE the elements that have a factor (`scaleTile_changes`); LDC binds its result (`loadTile_of_ready`). -/
theorem tileWords : Obligations.TileWords := by
  refine ⟨fun m v mask r n s row tile hr hn unlooped free => ⟨fun h => ?ldc, fun h col => ?stc⟩, fun q v mask s => ⟨fun h => ?czero, fun h => ?operand⟩⟩
  case ldc =>
    have operands := tileOperands_of_small row tile hr hn
    exact ⟨loadTile_of_ready (col := false) h operands ⟨unlooped, free⟩, loadTile_of_ready (col := true) h operands ⟨unlooped, free⟩⟩
  case stc =>
    obtain ⟨b', goes, frame, elems⟩ := storeTile_changes (col := col) h (tileOperands_of_small row tile hr hn) hr ⟨unlooped, free⟩
    refine ⟨b', ?_, frame, elems⟩
    cases col
    · exact goes
    · exact goes
  case czero => exact fun unlooped free => exec_czero h ⟨unlooped, free⟩
  case operand =>
    have sum (n : Nat) (tile : valQ v.w q.ia = n) (small : n < 64) := caddFrom_changes (own := true) (src := v.b) h.view tile small
    simp only [true_and] at sum
    refine ⟨fun n tile small => ⟨fun unlooped free => ?cadd, fun pb own unlooped free => ?own, fun k pb peer other unlooped free => ?peer⟩,
      fun unlooped free => ?cscale, fun unlooped free => ?row, fun unlooped free => ?col⟩
    case cadd =>
      rw [show exec (.cadd q) s = _ from (viewWord_of_acts h _ : execCadd q s = _)]
      exact sum n tile small ⟨unlooped, free⟩
    case own =>
      obtain rfl : v.b = pb := Option.some.inj ((viewOf_block h.view).symm.trans (mget_of_peerOf own))
      rw [exec_caddPeer h own, beq_self_eq_true]
      exact sum n tile small ⟨unlooped, free⟩
    case peer =>
      have foreign : ¬ ((k == v.w.blk) = true ∧ n ≠ q.ct.toNat) := fun both => other (beq_iff_eq.mp both.1)
      have changes := caddFrom_changes (own := k == v.w.blk) (src := pb) h.view tile small
      rw [if_neg foreign] at changes
      rw [exec_caddPeer h peer]
      exact changes ⟨unlooped, free⟩
    case cscale =>
      have changes := scaleTile_changes (f := fun v _ _ _ => some (tyOp v.w none .f32 q.ia 0)) (selected := fun _ _ => True) h ⟨unlooped, free⟩ fun _ _ => (if_pos trivial).symm
      simp only [and_true] at changes
      exact changes
    case row =>
      exact scaleTile_changes (f := fun v m i _ => if m.getLsbD i then some (tyOp v.w none .f32 q.ia i) else none) h ⟨unlooped, free⟩ fun _ _ => rfl
    case col =>
      exact scaleTile_changes (f := fun v m _ j => if m.getLsbD j then some (tyOp v.w none .f32 q.ia j) else none) h ⟨unlooped, free⟩ fun _ _ => rfl

end Sys2Proof
end

section
/-! SUPPORT. Copy words (R161 to R164): what a word whose parameters and windows are legal gives to the copy engine. -/
namespace Sys2Proof.Machine
open Sys2Proof

section
variable {v : View} {s : State}

/-- The wave once a copy is the newest of its queue. -/
def withCopy (v : View) (op : EngOp) (srcs : List Nat) : Wave :=
  { v.w with cpyQ := v.w.cpyQ ++ [entryNow v op srcs], engNo := v.w.engNo + 1, oc := { v.w.oc with cpy := v.w.oc.cpy + 1 } }

/-- The copy enters the queue, its destination lines are empty, and nothing else changes, where the queue has room, no older operation fills the lines and no store of the block goes to them. -/
def QueuesCopy (v : View) (op : EngOp) (srcs dsts : List Nat) (s : State) (res : Result) : Prop :=
  v.w.oc.cpy < 63 → (∀ l ∈ dsts, l ∉ v.b.aE) → storesTo s v.w.blk dsts = false →
    res = .next (putWave v.key (advance (withCopy v op srcs)) { s with blocks := mput s.blocks v.w.blk { v.b with aE := dsts.foldl sadd v.b.aE } })

theorem copyIssue_of_free {b : Block} (hb : mget s.blocks v.w.blk = some b) (op : EngOp) (srcs : List Nat) {dsts : List Nat} (room : v.w.oc.cpy < 63)
    (free : ∀ l ∈ dsts, l ∉ v.b.aE) (unstored : storesTo s v.w.blk dsts = false) :
    copyIssue v op srcs dsts s = .next (putWave v.key (advance (withCopy v op srcs)) { s with blocks := mput s.blocks v.w.blk { b with aE := dsts.foldl sadd b.aE } }) := by
  have lines : linesTaken v dsts s = false := by simpa [linesTaken, unstored] using free
  have goes : ¬ (v.w.oc.cpy ≥ 63 ∨ linesTaken v dsts s = true) := by simp [lines, room]
  rw [copyIssue, if_neg goes, modBlock_of_some hb]
  rfl

theorem queuesCopy_copyIssue (h : viewOf s v.key = some v) (op : EngOp) (srcs dsts : List Nat) : QueuesCopy v op srcs dsts s (copyIssue v op srcs dsts s) :=
  copyIssue_of_free (viewOf_block h) op srcs

/-! ### CPY (R161) -/

theorem windowSpec_of_passes {d : Desc} {ptr n : Nat} (passes : checkWindow d (ptrAddr ptr) n = .ok) (lane : Nat) : windowSpec d lane ptr n = none := by
  simp only [windowSpec, passes]

theorem overlaps_iff {a b n : Nat} : overlaps a b n = true ↔ ¬ (a + n ≤ b ∨ b + n ≤ a) := by
  simp only [overlaps, Bool.and_eq_true, decide_eq_true_eq]
  omega

section
variable {m : MW} {mask : Word32}

/-- The operation of CPY, with n bytes to copy. -/
def cpyOp (m : MW) (w : Wave) (n : Nat) : EngOp := .cpy (ptrAddr (ptrVal m w m.d 0)) (ptrTag (ptrVal m w m.d 0)) (ptrAddr (ptrVal m w m.a 0)) (ptrTag (ptrVal m w m.a 0)) n

section
variable {n : Nat} (h : Acts m.guard [ptrSrc m m.d, ptrSrc m m.a, plainSrc m m.b] [] v mask s) (len : (rawOp v.w m.lit false m.b 0).toNat = n)
include h len

theorem exec_cpy_of_long (long : 2 ^ 32 ≤ n) : exec (.cpy m) s = hardFault v.w { cause := 9, addr := ptrVal m v.w m.a 0 } s := by
  rw [show exec (.cpy m) s = _ from (viewWord_of_acts h _ : execCpy m s = _)]
  simp only [len, ge_iff_le, if_pos long]

theorem exec_cpy_of_empty (empty : n = 0) : exec (.cpy m) s = copyIssue v (cpyOp m v.w n) [] [] s := by
  rw [show exec (.cpy m) s = _ from (viewWord_of_acts h _ : execCpy m s = _)]
  simp only [len, empty]
  rfl

theorem exec_cpy_of_windows (some_ : 0 < n) (short : n < 2 ^ 32) (src : checkWindow v.g.d (ptrAddr (ptrVal m v.w m.a 0)) n = .ok)
    (dst : checkWindow v.g.d (ptrAddr (ptrVal m v.w m.d 0)) n = .ok) :
    exec (.cpy m) s = if overlaps (ptrAddr (ptrVal m v.w m.a 0)) (ptrAddr (ptrVal m v.w m.d 0)) n then hardFault v.w { cause := 9, addr := ptrVal m v.w m.d 0 } s
      else copyIssue v (cpyOp m v.w n) (aLines (ptrAddr (ptrVal m v.w m.a 0)) n) (aLines (ptrAddr (ptrVal m v.w m.d 0)) n) s := by
  rw [show exec (.cpy m) s = _ from (viewWord_of_acts h _ : execCpy m s = _)]
  simp only [len, if_neg (Nat.not_le.mpr short), if_neg some_.ne', windowSpec_of_passes src, windowSpec_of_passes dst]
  rfl

end

/-! ### CPY.lane (R162) -/

theorem laneWindows_of_passes {d : Desc} {size : Nat} {lanes : List (Nat × Nat × Nat)}
    (passes : ∀ l ∈ lanes, checkWindow d (ptrAddr l.2.1) size = .ok ∧ checkWindow d (ptrAddr l.2.2) size = .ok) : laneWindows d size lanes = none := by
  induction lanes with
  | nil => rfl
  | cons l lanes ih =>
    obtain ⟨⟨src, dst⟩, rest⟩ := List.forall_mem_cons.mp passes
    simp only [laneWindows, windowSpec_of_passes src, windowSpec_of_passes dst, ih rest]

/-- A lane's source and destination as the engine holds them. -/
def laneCopy (m : MW) (w : Wave) (i : Nat) : CopyLane :=
  { lane := i, src := ptrAddr (laneAddr m w i), stag := ptrTag (laneAddr m w i), dst := ptrAddr (ptrVal m w m.d i), dtag := ptrTag (ptrVal m w m.d i) }

theorem exec_cpyLane (h : Acts m.guard [ptrSrc m m.d, ptrSrc m m.a] [] v mask s)
    (passes : ∀ i ∈ memLanes m mask, checkWindow v.g.d (ptrAddr (laneAddr m v.w i)) (sizeOf m.sz) = .ok ∧ checkWindow v.g.d (ptrAddr (ptrVal m v.w m.d i)) (sizeOf m.sz) = .ok) :
    exec (.cpyLane m) s = copyIssue v (.cpyLane (sizeOf m.sz) ((memLanes m mask).map (laneCopy m v.w)) none)
      ((memLanes m mask).flatMap (fun i => aLines (ptrAddr (laneAddr m v.w i)) (sizeOf m.sz)))
      ((memLanes m mask).flatMap (fun i => aLines (ptrAddr (ptrVal m v.w m.d i)) (sizeOf m.sz))) s := by
  have windows : laneWindows v.g.d (sizeOf m.sz) ((memLanes m mask).map (fun i => (i, laneAddr m v.w i, ptrVal m v.w m.d i))) = none :=
    laneWindows_of_passes (List.forall_mem_map.mpr passes)
  rw [show exec (.cpyLane m) s = _ from (viewWord_of_acts h _ : execCpyLane m s = _)]
  simp only [windows, List.map_map, List.flatMap_map]
  rfl

/-! ### CPYT (R164) -/

theorem tableWindow_of_passes {d : Desc} {table : Nat} {p : TableArgs} (passes : checkWindow d (p.range (ptrAddr table)).1 (p.range (ptrAddr table)).2 = .ok) :
    tableWindow d table p = none := by
  simp only [tableWindow, passes]

section
variable (legal : (tableArgs v.w m.b).ok = true)
  (window : checkWindow v.g.d ((tableArgs v.w m.b).range (ptrAddr (ptrVal m v.w m.a 0))).1 ((tableArgs v.w m.b).range (ptrAddr (ptrVal m v.w m.a 0))).2 = .ok)
include legal window

theorem cpytWord_of_legal {srcs : List Src} {go : View → TableArgs → Nat → State → Result} (h : Acts m.guard ([ptrSrc m m.a, { o := m.b, n := 2, e := m.e }] ++ srcs) [] v mask s) :
    cpytWord m srcs go s = go v (tableArgs v.w m.b) (ptrVal m v.w m.a 0) s := by
  rw [cpytWord, viewWord_of_acts h]
  simp only [legal, if_true, tableWindow_of_passes window]

theorem exec_cpyt (h : Acts m.guard [ptrSrc m m.a, { o := m.b, n := 2, e := m.e }, ptrSrc m m.d] [] v mask s)
    (dst : checkWindow v.g.d (ptrAddr (ptrVal m v.w m.d 0)) ((tableArgs v.w m.b).n * (tableArgs v.w m.b).rb) = .ok) :
    exec (.cpyt m) s =
      let p := tableArgs v.w m.b
      copyIssue v (.cpyt (ptrAddr (ptrVal m v.w m.d 0)) (ptrTag (ptrVal m v.w m.d 0)) (ptrAddr (ptrVal m v.w m.a 0)) (ptrTag (ptrVal m v.w m.a 0)) p.rpb p.rb p.n p.first none)
        v.b.aE (aLines (ptrAddr (ptrVal m v.w m.d 0)) (p.n * p.rb)) s := by
  rw [show exec (.cpyt m) s = _ from (cpytWord_of_legal legal window h : execCpyt m s = _)]
  simp only [windowSpec_of_passes dst]
  rfl

/-- CPYT.w into a reservation that admits a writer, and whose bytes its rows do not exceed. -/
theorem exec_cpytW {r : Res} (h : Acts m.guard [ptrSrc m m.a, { o := m.b, n := 2, e := m.e }] [] v mask s) (res : mget v.b.res (m.off.toNat % 32) = some r) (admits : r.st = 1 ∨ r.st = 3)
    (fits : (tableArgs v.w m.b).n * (tableArgs v.w m.b).rb ≤ resSize r.fmt r.elems r.b32 r.sc) (room : v.w.oc.cpy < 63) :
    exec (.cpytW m) s =
      let p := tableArgs v.w m.b
      .next (putWave v.key (advance (withCopy v (.cpytW (m.off.toNat % 32) 0 (ptrAddr (ptrVal m v.w m.a 0)) (ptrTag (ptrVal m v.w m.a 0)) p.rpb p.rb p.n p.first none) v.b.aE))
        { s with blocks := mput s.blocks v.w.blk { v.b with res := mput v.b.res (m.off.toNat % 32) { r with st := 2 } } }) := by
  have filling : modRes v.w.blk (m.off.toNat % 32) (fun r => { r with st := 2 }) s =
      putBlock v.w.blk { v.b with res := mput v.b.res (m.off.toNat % 32) { r with st := 2 } } s := by
    rw [modRes, modBlock_of_some (viewOf_block h.view), res]
  have writer : admitsWriter (some r) = true := by simpa [admitsWriter] using admits
  rw [show exec (.cpytW m) s = _ from (cpytWord_of_legal legal window h : execCpytW m s = _)]
  simp only [res, writer, not_true_eq_false, if_false, if_neg (Nat.not_lt.mpr fits), ge_iff_le, if_neg (Nat.not_le.mpr room), filling]
  rw [copyIssue_of_free (dsts := []) (mget_mput_same _ _ _) _ _ room nofun (by simp [storesTo])]
  simp only [putBlock, mput_mput]
  rfl

end

end

end

end Sys2Proof.Machine
end

section
namespace Sys2Proof
open Sys2Proof.Machine

/-- Settles O35: a copy word whose parameters and windows are legal comes to `copyIssue` (`exec_cpy_of_windows`, `exec_cpyLane`, `exec_cpyt`), which gives its operation to the engine (`queuesCopy_copyIssue`); CPYT.w does so with its reservation filling (`exec_cpytW`). -/
theorem copyWords : Obligations.CopyWords := by
  intro m v mask s
  dsimp only
  refine ⟨fun h => ?cpy, fun h passes => ?lane, fun legal window => ⟨fun h dst => ?table, fun h r res admits fits room => exec_cpytW legal window h res admits fits room⟩⟩
  case cpy =>
    refine ⟨fun short passes => ?_, fun long => exec_cpy_of_long h rfl long, fun some_ short src dst meet => ?_⟩
    · rcases Nat.eq_zero_or_pos (rawOp v.w m.lit false m.b 0).toNat with empty | some_
      · rw [exec_cpy_of_empty h rfl empty, if_pos empty, if_pos empty]
        exact queuesCopy_copyIssue h.view _ _ _
      · obtain ⟨src, dst, apart⟩ := passes.resolve_left some_.ne'
        have disjoint : ¬ overlaps (ptrAddr (ptrVal m v.w m.a 0)) (ptrAddr (ptrVal m v.w m.d 0)) (rawOp v.w m.lit false m.b 0).toNat = true := fun meet => overlaps_iff.mp meet apart
        rw [exec_cpy_of_windows h rfl some_ short src dst, if_neg disjoint, if_neg some_.ne', if_neg some_.ne']
        exact queuesCopy_copyIssue h.view _ _ _
    · rw [exec_cpy_of_windows h rfl some_ short src dst, if_pos (overlaps_iff.mpr meet)]
  case lane =>
    rw [exec_cpyLane h passes]
    exact queuesCopy_copyIssue h.view _ _ _
  case table =>
    rw [exec_cpyt legal window h dst]
    exact queuesCopy_copyIssue h.view _ _ _

end Sys2Proof
end

section
/-! SUPPORT. What a store leaves where it is performed (R120, R151, R280): bytes of the A allocation, of a stack slice, of a global page, and the leaf of its translation. -/
namespace Sys2Proof.Machine
open Sys2Proof

/-! ### One access, unit by unit -/

theorem units_of_within {addr n : Nat} (some_ : 0 < n) (within_ : addr % 65536 + n ≤ 65536) : units addr n = [(addr, n)] := by
  have one : min n (65536 - addr % 65536) = n := Nat.min_eq_left (by omega)
  simp only [units, unitsFrom, if_neg some_.ne', one, Nat.sub_self, if_true]

section
variable {v : View} {s : State} {lane addr : Nat} {bs : List Byte}

theorem putAt_of_within (lane : Nat) (s : State) (some_ : 0 < bs.length) (within_ : addr % 65536 + bs.length ≤ 65536) :
    putAt v lane addr bs s = placePut v.w.blk (placeOf s v lane addr true) bs
      (if windowOf addr = .global then recordAccess v.g.asid (rootOf v.c) true addr bs.length s else s) := by
  simp [putAt, units_of_within some_ within_]

/-- A write into the allocation from offset o of its bytes on: the units left are written as one. -/
theorem foldl_units_a {o k : Nat} (h : InA v.g.d addr bs.length) (left : o < bs.length) (fuel : (addr + o) % 65536 + (bs.length - o) ≤ 65536 * k) (t : State) :
    (unitsFrom (addr + o) (bs.length - o) k).foldl (fun t u =>
      let part := (bs.drop (u.1 - addr)).take u.2
      let t1 := if windowOf u.1 = .global then recordAccess v.g.asid (rootOf v.c) true u.1 u.2 t else t
      placePut v.w.blk (placeOf t v lane u.1 true) part t1) t = placePut v.w.blk (.a (addr + o - aBase)) (bs.drop o) t := by
  induction k generalizing o t with
  | zero => omega
  | succ k ih =>
    have low := h.start
    have inside : windowOf (addr + o) = .a := (h.sub (Nat.le_add_right _ _) (by omega) : InA v.g.d (addr + o) 1).windowOf Nat.one_pos
    have at_ : addr + o - addr = o := Nat.add_sub_cancel_left ..
    obtain ⟨m, hm⟩ : ∃ m, m = min (bs.length - o) (65536 - (addr + o) % 65536) := ⟨_, rfl⟩
    rw [unitsFrom, if_neg (by omega), ← hm, List.foldl_cons]
    simp only [inside, reduceCtorEq, if_false, at_, placeOf_a t v lane true inside]
    rcases Nat.eq_or_lt_of_le (show m ≤ bs.length - o by omega) with whole | more
    · rw [whole, Nat.sub_self, List.take_of_length_le (by simp)]
      cases k <;> simp [unitsFrom]
    · have part : ((bs.drop o).take m).length = m := by simp; omega
      have next : bs.length - o - m = bs.length - (o + m) := by omega
      have off : addr + (o + m) - aBase = addr + o - aBase + ((bs.drop o).take m).length := by omega
      have cut := ih (o := o + m) (by omega) (by omega) (placePut v.w.blk (.a (addr + o - aBase)) ((bs.drop o).take m) t)
      rw [Nat.add_assoc, next, cut, off, placePut_append, ← List.drop_drop, List.take_append_drop]

theorem putAt_inA (lane : Nat) (s : State) (h : InA v.g.d addr bs.length) (some_ : 0 < bs.length) :
    putAt v lane addr bs s = placePut v.w.blk (.a (addr - aBase)) bs s := by
  have fuel : (addr + 0) % 65536 + (bs.length - 0) ≤ 65536 * (bs.length / 65536 + 2) := by omega
  exact foldl_units_a h some_ fuel s

end

/-! ### Stores to the A window (R120) -/

theorem checkWindow_of_checkAccess {s : State} {v : View} {k : Kind} {tag : Option Nat} {addr n : Nat} (ok : checkAccess s v k tag addr n = .ok) : checkWindow v.g.d addr n = .ok := by
  unfold checkAccess at ok
  split at ok
  · assumption
  · exact ok

/-- What a piece leaves at an offset of the allocation that held x. -/
def pieceByte (off : Nat) (x : Byte) (q : Piece) : Byte :=
  if q.addr - aBase ≤ off ∧ off < q.addr - aBase + q.data.length then q.data.getD (off - (q.addr - aBase)) 0 else x

theorem mgetD_cellsPut_piece (m : List Host.Cell) (q : Piece) (off : Nat) :
    mgetD (cellsPut m (q.addr - aBase) q.data) off blankByte = pieceByte off (mgetD m off blankByte) q := by
  rw [mgetD_cellsPut, pieceByte]
  split_ifs with inside
  · exact (List.getD_eq_getElem _ _ _).symm
  · rfl

/-- Pieces in the allocation: each byte is that of the last piece that covers it, and nothing outside the allocation changes. -/
theorem putPieces_inA {v : View} {ps : List Piece} (inA : ∀ q ∈ ps, InA v.g.d q.addr q.data.length ∧ 0 < q.data.length) {s : State} {b : Block}
    (hb : mget s.blocks v.w.blk = some b) :
    (putPieces v ps s).waves = s.waves ∧ (putPieces v ps s).mem = s.mem ∧ ∃ a, mget (putPieces v ps s).blocks v.w.blk = some { b with a := a } ∧
      ∀ off, mgetD a off blankByte = ps.foldl (pieceByte off) (mgetD b.a off blankByte) := by
  induction ps generalizing s b with
  | nil => exact ⟨rfl, rfl, b.a, hb, fun _ => rfl⟩
  | cons q ps ih =>
    obtain ⟨⟨whole, some_⟩, rest⟩ := List.forall_mem_cons.mp inA
    have first : putAt v q.lane q.addr q.data s = modBlock v.w.blk (fun b => { b with a := cellsPut b.a (q.addr - aBase) q.data }) s := putAt_inA q.lane s whole some_
    have written : mget (putAt v q.lane q.addr q.data s).blocks v.w.blk = some { b with a := cellsPut b.a (q.addr - aBase) q.data } := by
      rw [first, mget_modBlock, if_pos rfl, hb, Option.map_some]
    obtain ⟨waves, mem, a, block, bytes⟩ := ih rest written
    refine ⟨?_, ?_, a, block, fun off => ?_⟩
    · exact waves.trans (by rw [first, modBlock_waves])
    · exact mem.trans (by rw [first, modBlock_mem])
    · exact (bytes off).trans (by rw [mgetD_cellsPut_piece, List.foldl_cons])

/-! ### Stores to the stack window (R117) -/

theorem windowOf_eq_stack {addr : Nat} : windowOf addr = .stack ↔ sBase ≤ addr ∧ addr < sEnd := by
  have after : aBase < sBase := by decide
  fun_cases windowOf
  · simp; omega
  · simp [*]
  · simp [*]

/-- A range of the stack window lies in one unit of 64 KiB. -/
theorem within_of_stack {d : Desc} {addr n : Nat} (check : checkWindow d addr n = .ok) (window : windowOf addr = .stack) (some_ : 0 < n) : addr % 65536 + n ≤ 65536 := by
  obtain ⟨low, -⟩ := windowOf_eq_stack.mp window
  simp only [checkWindow, window] at check
  split_ifs at check
  unfold sBase at low
  unfold sEnd at *
  omega

theorem placeOf_stack (s : State) (v : View) (lane : Nat) (write : Bool) {addr : Nat} (h : windowOf addr = .stack) : placeOf s v lane addr write = .phys (stackPa v lane (addr - sBase)) 0 := by
  simp only [placeOf, h]

/-! ### Stores to global memory (R122, R280) -/

/-- An address outside the leaf at p, of which there is none where p is 0. -/
def OffLeaf (p a : Nat) : Prop := p = 0 ∨ a < p ∨ p + 8 ≤ a

theorem physByte_setLeafBit {p a : Nat} (off : a < p ∨ p + 8 ≤ a) (bit : Nat) (b : Bool) (s : State) : physByte (setLeafBit p bit b s) a = physByte s a := by
  fun_cases setLeafBit
  · rfl
  · exact physByte_physPut_ne (by rwa [length_natToBytes]) s

theorem physByte_tailStore {p a : Nat} (off : a < p ∨ p + 8 ≤ a) (pa level : Nat) (s : State) : physByte (tailStore pa level p s) a = physByte s a := by
  have queued (x : State) (same : physByte x a = physByte s a) : physByte (setLeafBit p 8 true (setLeafBit p 9 true x)) a = physByte s a := by
    rw [physByte_setLeafBit off, physByte_setLeafBit off, same]
  unfold tailStore
  dsimp only
  split
  · exact queued _ rfl
  · split
    · rfl
    · rfl
    · rfl
    · split
      · rfl
      · exact queued _ rfl

theorem physByte_noteWalk {p a : Nat} (off : OffLeaf p a) (asid va x level : Nat) (path : List (Nat × Nat)) (writes : Nat → Bool) (s : State) :
    physByte (noteWalk asid va writes (.leaf x level p path) s) a = physByte s a := by
  unfold noteWalk
  dsimp only
  split
  · rfl
  next present =>
    have off' := off.resolve_left present
    split
    · exact (physByte_setLeafBit off' _ _ _).trans (physByte_setLeafBit off' _ _ _)
    · exact physByte_setLeafBit off' _ _ _

/-- A translation is the walk to its leaf. -/
theorem walk_of_xlate {s : State} {asid root va pa leaf level p : Nat} {write : Bool} (ok : xlate s asid root va write = .ok pa leaf level p) :
    ∃ path, walk s asid root write va = .leaf leaf level p path := by
  unfold xlate at ok
  split at ok
  · cases ok
  · cases ok
  · dsimp only at ok
    split at ok
    · cases ok
      exact ⟨_, ‹_›⟩
    · cases ok

/-- The record of an access changes no byte of memory outside the leaf of its translation. -/
theorem physByte_recordUnit {s : State} {asid root va pa leaf level p a : Nat} {write : Bool} (ok : xlate s asid root va write = .ok pa leaf level p) (off : OffLeaf p a) :
    physByte (recordUnit asid root write va s) a = physByte s a := by
  obtain ⟨path, walked⟩ := walk_of_xlate ok
  have noted : physByte (noteLeaf asid root write va s) a = physByte s a := by
    rw [noteLeaf, walked]
    exact physByte_noteWalk off _ _ _ _ _ _ _
  simp only [recordUnit, walked]
  split
  next flash => exact (physByte_tailStore (off.resolve_left flash.2.2) _ _ _).trans noted
  · exact noted

theorem placeOf_global {s : State} {v : View} {addr pa leaf level p : Nat} {write : Bool} (h : windowOf addr = .global)
    (ok : xlate s v.g.asid (rootOf v.c) addr write = .ok pa leaf level p) (lane : Nat) : placeOf s v lane addr write = .phys pa (leafTier leaf) := by
  simp only [placeOf, h, ok]

theorem placePut_near {tier : Nat} (near : tier ≤ 2) (bk pa : Nat) (bs : List Byte) (s : State) : placePut bk (.phys pa tier) bs s = physPut pa bs s :=
  if_neg (by omega)

theorem physByte_physPut_getD (a : Nat) (bs : List Byte) (s : State) {j : Nat} (h : j < bs.length) : physByte (physPut a bs s) (a + j) = bs.getD j 0 := by
  rw [physByte_physPut, dif_pos (by omega), List.getD_eq_getElem _ _ h]
  simp only [Nat.add_sub_cancel_left]

/-! ### STORE_ACKNOWLEDGE (R142) -/

section
variable {wave : Nat} {v : View} {e : MqEntry} {ps : List Piece} {s : State}

/-- The next store of a wave on its core, its checks passed, is performed and acknowledged. -/
theorem exec_storeAcknowledge (h : viewOf s wave = some v) (core : onCore v = true) (next : nextStore v.w = some (0, e)) (op : e.op = .store ps)
    (ok : ∀ q ∈ ps, checkAccess s v .store (some q.tag) q.addr q.data.length = .ok) :
    exec (.storeAcknowledge wave true) s = .next (modWave wave (fun w => ackSt e.no (dropOp 0 w)) (putPieces v ps s)) := by
  have done : perform v e s = .done (putPieces v ps s) := by
    rw [perform, op]
    exact perfCheck_of_ok (List.forall_mem_map.mpr ok) _
  have free : awaitsAppend v e = false := by simp [awaitsAppend, releases, op, viaStorePath]
  change execStoreAcknowledge wave true s = _
  simp only [execStoreAcknowledge, h, core, next, free, performVia, if_true, not_true_eq_false, if_false, Bool.false_eq_true, performAt_of_done done, op, viewOf_key h]
  rfl

theorem mget_acknowledged (h : viewOf s wave = some v) (f : Wave → Wave) {t : State} (waves : t.waves = s.waves) : mget (modWave wave f t).waves v.key = some (f v.w) := by
  rw [mget_modWave, viewOf_key h, if_pos rfl, waves, viewOf_wave h, Option.map_some]

/-- A store of one piece whose bytes go to one physical range, after what its access leaves of the state (u). -/
theorem storeReaches {q : Piece} {pa : Nat} {u : State} {gone : Wave → Wave} (h : viewOf s wave = some v) (side : MemSide s u)
    (acknowledged : exec (.storeAcknowledge wave true) s = .next (modWave wave gone (putPieces v [q] s))) (written : putAt v q.lane q.addr q.data s = physPut pa q.data u) :
    ∃ t, exec (.storeAcknowledge wave true) s = .next t ∧ mget t.waves v.key = some (gone v.w) ∧ t.blocks = s.blocks ∧ t.ctxs = s.ctxs ∧
      (∀ j < q.data.length, physByte t (pa + j) = q.data.getD j 0) ∧ ∀ a, (a < pa ∨ pa + q.data.length ≤ a) → physByte t a = physByte u a := by
  have put : putPieces v [q] s = physPut pa q.data u := written
  have whole := side.trans (physPut_memSide pa q.data u)
  have bytes (a : Nat) : physByte (modWave wave gone (physPut pa q.data u)) a = physByte (physPut pa q.data u) a := by simp only [physByte, modWave_mem]
  rw [put] at acknowledged
  exact ⟨_, acknowledged, mget_acknowledged h gone whole.waves, (modWave_blocks _ _ _).trans whole.blocks, (modWave_ctxs _ _ _).trans whole.ctxs,
    fun j hj => (bytes _).trans (physByte_physPut_getD _ _ _ hj), fun a away => (bytes a).trans (physByte_physPut_ne away u)⟩

end

end Sys2Proof.Machine
end

section
namespace Sys2Proof
open Sys2Proof.Machine

/-- Settles O26: the store is performed and acknowledged (`exec_storeAcknowledge`); in the A window its pieces are written in order (`putPieces_inA`); in the stack window and on a global page its bytes go to one physical range (`putAt_of_within`), and the record of the access touches the leaf alone (`physByte_recordUnit`). -/
theorem storesReachMemory : Obligations.StoresReachMemory := by
  intro wave v e ps s h core next op checks gone
  have acknowledged := exec_storeAcknowledge h core next op fun q mem => (checks q mem).2
  refine ⟨fun inA => ?a, fun q one stack => ?stack, fun q pa leaf level p one global within_ ok near => ?global⟩
  case a =>
    have ranges (q : Piece) (mem : q ∈ ps) : InA v.g.d q.addr q.data.length ∧ 0 < q.data.length :=
      have some_ := List.length_pos_iff.mpr (checks q mem).1
      ⟨inA_of_checkWindow (checkWindow_of_checkAccess (checks q mem).2) (inA q mem) some_, some_⟩
    obtain ⟨waves, mem, a, block, bytes⟩ := putPieces_inA ranges (viewOf_block h)
    exact ⟨_, { v.b with a := a }, acknowledged, mget_acknowledged h gone waves, (modWave_mem _ _ _).trans mem, (congrArg (mget · v.w.blk) (modWave_blocks _ _ _)).trans block, rfl, bytes⟩
  case stack =>
    subst one
    obtain ⟨ne, check⟩ := checks q (List.mem_singleton.mpr rfl)
    have some_ := List.length_pos_iff.mpr ne
    refine storeReaches h (.refl s) acknowledged ?_
    rw [putAt_of_within q.lane s some_ (within_of_stack (checkWindow_of_checkAccess check) stack some_), placeOf_stack s v q.lane true stack, if_neg (by simp [stack]),
      placePut_near (Nat.zero_le 2)]
  case global =>
    subst one
    have some_ := List.length_pos_iff.mpr (checks q (List.mem_singleton.mpr rfl)).1
    have written : putAt v q.lane q.addr q.data s = physPut pa q.data (recordUnit v.g.asid (rootOf v.c) true q.addr s) := by
      rw [putAt_of_within q.lane s some_ within_, placeOf_global global ok, if_pos global, placePut_near near]
      simp only [recordAccess, units_of_within some_ within_, List.foldl_cons, List.foldl_nil]
    obtain ⟨t, goes, waves, blocks, ctxs, bytes, rest⟩ := storeReaches h (recordUnit_memSide _ _ _ _ _) acknowledged written
    exact ⟨t, goes, waves, blocks, ctxs, bytes, fun a away off => (rest a away).trans (physByte_recordUnit ok off)⟩

end Sys2Proof
end

section
/-! SUPPORT. The integer operations of an atomic (R158), what decode grants of its word (R147, R158), and its lanes one after another (R159). -/
namespace Sys2Proof.Machine
open Sys2Proof

/-! ### Integer operations at a width (R158) -/

theorem atomVal_add (size old b cmp : Nat) : atomVal 0 size old b cmp = (BitVec.ofNat (8 * size) old + BitVec.ofNat (8 * size) b).toNat := by
  rw [BitVec.toNat_add, BitVec.toNat_ofNat, BitVec.toNat_ofNat, ← Nat.add_mod]
  rfl

section
variable {size old b : Nat} (cmp : Nat) (hold : old < 2 ^ (8 * size)) (hb : b < 2 ^ (8 * size))
include hold hb

theorem atomVal_bitwise :
    atomVal 1 size old b cmp = (BitVec.ofNat (8 * size) old &&& BitVec.ofNat (8 * size) b).toNat ∧
    atomVal 2 size old b cmp = (BitVec.ofNat (8 * size) old ||| BitVec.ofNat (8 * size) b).toNat ∧
    atomVal 3 size old b cmp = (BitVec.ofNat (8 * size) old ^^^ BitVec.ofNat (8 * size) b).toNat := by
  simp only [BitVec.toNat_and, BitVec.toNat_or, BitVec.toNat_xor, BitVec.toNat_ofNat, Nat.mod_eq_of_lt hold, Nat.mod_eq_of_lt hb]
  exact ⟨rfl, rfl, rfl⟩

/-- The model's signed comparison of two values is that of bit vectors of the width; where neither is below the other they are equal. -/
theorem signed_order (pos : 0 < size) :
    (toSigned (8 * size) old < toSigned (8 * size) b ∧ (BitVec.ofNat (8 * size) old).slt (BitVec.ofNat (8 * size) b) = true ∧
      (BitVec.ofNat (8 * size) b).slt (BitVec.ofNat (8 * size) old) = false) ∨
    old = b ∨
    (toSigned (8 * size) b < toSigned (8 * size) old ∧ (BitVec.ofNat (8 * size) b).slt (BitVec.ofNat (8 * size) old) = true ∧
      (BitVec.ofNat (8 * size) old).slt (BitVec.ofNat (8 * size) b) = false) := by
  have signed (x : Nat) : toSigned (8 * size) x = (BitVec.ofNat (8 * size) x).toInt := by
    obtain ⟨n, wd⟩ : ∃ n, 8 * size = n + 1 := ⟨8 * size - 1, by omega⟩
    rw [wd, toSigned_eq_toInt]
  simp only [signed, BitVec.slt_eq_decide, decide_eq_true_eq, decide_eq_false_iff_not, not_lt]
  rcases lt_trichotomy (BitVec.ofNat (8 * size) old).toInt (BitVec.ofNat (8 * size) b).toInt with lt | eq | gt
  · exact .inl ⟨lt, lt, lt.le⟩
  · have same := congrArg BitVec.toNat (BitVec.eq_of_toInt_eq eq)
    rw [BitVec.toNat_ofNat, BitVec.toNat_ofNat, Nat.mod_eq_of_lt hold, Nat.mod_eq_of_lt hb] at same
    exact .inr (.inl same)
  · exact .inr (.inr ⟨gt, gt, gt.le⟩)

theorem atomVal_signed_min (pos : 0 < size) :
    atomVal 4 size old b cmp = (if (BitVec.ofNat (8 * size) b).slt (BitVec.ofNat (8 * size) old) then BitVec.ofNat (8 * size) b else BitVec.ofNat (8 * size) old).toNat := by
  change (if toSigned (8 * size) old ≤ toSigned (8 * size) b then old else b) = _
  rcases signed_order hold hb pos with ⟨lt, -, ge⟩ | rfl | ⟨gt, slt, -⟩
  · rw [if_pos lt.le, ge, if_neg Bool.false_ne_true, BitVec.toNat_ofNat, Nat.mod_eq_of_lt hold]
  · rw [ite_self, ite_self, BitVec.toNat_ofNat, Nat.mod_eq_of_lt hold]
  · rw [if_neg gt.not_ge, slt, if_pos rfl, BitVec.toNat_ofNat, Nat.mod_eq_of_lt hb]

theorem atomVal_signed_max (pos : 0 < size) :
    atomVal 5 size old b cmp = (if (BitVec.ofNat (8 * size) old).slt (BitVec.ofNat (8 * size) b) then BitVec.ofNat (8 * size) b else BitVec.ofNat (8 * size) old).toNat := by
  change (if toSigned (8 * size) old ≤ toSigned (8 * size) b then b else old) = _
  rcases signed_order hold hb pos with ⟨lt, slt, -⟩ | rfl | ⟨gt, -, ge⟩
  · rw [if_pos lt.le, slt, if_pos rfl, BitVec.toNat_ofNat, Nat.mod_eq_of_lt hb]
  · rw [ite_self, ite_self, BitVec.toNat_ofNat, Nat.mod_eq_of_lt hold]
  · rw [if_neg gt.not_ge, ge, if_neg Bool.false_ne_true, BitVec.toNat_ofNat, Nat.mod_eq_of_lt hold]

end

/-! ### What decode grants of the word (R147, R158) -/

theorem checkM_of_wellFormed {i : Instr} {op : Nat} {r : MRow} {m : MW} (shape : i.shape = .m op r m) (h : i.wellFormed = true) : checkM r m = none :=
  (congrArg Shape.illegal? shape).symm.trans (Instr.shape_legal h)

theorem size_of_checkM {r : MRow} {m : MW} (h : checkM r m = none) : m.sz.toNat ∈ r.szs := by
  simp only [checkM, firstFailed_eq_none, List.forall_mem_cons, List.contains_iff_mem] at h
  obtain ⟨-, -, size, -⟩ := h
  exact size

/-- A .fadd, .fmin or .fmax has a SZ of 4 bytes. -/
theorem atomSizes_of_float {m : MW} (size : m.sz.toNat ∈ atomSizes m) (float : 10 ≤ m.sub.toNat) : m.sz = 2 := by
  rw [atomSizes, if_pos float, List.mem_singleton] at size
  exact BitVec.eq_of_toNat_eq size

theorem sub_of_wellFormed_ared {m : MW} (h : (Instr.ared m).wellFormed = true) : m.sub.toNat < 13 ∧ m.sub ≠ 8 ∧ m.sub ≠ 9 := by
  have bound : ∀ n ∈ [0, 1, 2, 3, 4, 5, 6, 7, 10, 11, 12], n < 13 ∧ n ≠ 8 ∧ n ≠ 9 := by decide
  obtain ⟨small, swap, compare⟩ := bound _ (sub_of_checkM (checkM_of_wellFormed (i := .ared m) rfl h))
  exact ⟨small, fun eq => swap (congrArg BitVec.toNat eq), fun eq => compare (congrArg BitVec.toNat eq)⟩

theorem sub_of_wellFormed_atom {m : MW} (h : (Instr.atom m).wellFormed = true) : m.sub.toNat < 13 := by
  have bound : ∀ n ∈ [0, 1, 2, 3, 4, 5, 6, 7, 8, 9, 10, 11, 12], n < 13 := by decide
  exact bound _ (sub_of_checkM (checkM_of_wellFormed (i := .atom m) rfl h))

/-! ### Lanes one after another (R159) -/

theorem atomAll_cons (v : View) (op size : Nat) (l : AtomLane) (rest : List AtomLane) (s : State) :
    let old := bytesToNat (bytesAt s v l.lane l.addr size true)
    let r := atomAll v op size rest (putAt v l.lane l.addr (natToBytes size (atomVal op size old l.b l.cmp)) s)
    atomAll v op size (l :: rest) s = ((l.lane, old) :: r.1, r.2) := rfl

end Sys2Proof.Machine
end

section
/-! SUPPORT. FP32 values as the atomics read and write them (R158, R174, R177, R213): an encoding that is no NaN comes back from its value, the exact sum is the sum of the rational values, and the order of the minimum and maximum is theirs. -/
namespace Sys2Proof.Machine
open Sys2Proof

/-! ### Encodings come back from their values (R174) -/

/-- The value of an FP32 encoding by its sign, exponent and fraction; of a NaN's encoding nothing is kept (R174). -/
inductive IsF32 : Nat → FVal → Prop where
  | nan {x : Nat} : IsF32 x .nan
  | inf (neg : Bool) : IsF32 (signBit fmtF32 neg + 255 * 2 ^ 23) (.inf neg)
  | small (neg : Bool) {m : Nat} : m < 2 ^ 23 → IsF32 (signBit fmtF32 neg + m) (.fin neg m (-149))
  | normal (neg : Bool) {e m : Nat} : 0 < e → e < 255 → m < 2 ^ 23 → IsF32 (signBit fmtF32 neg + e * 2 ^ 23 + m) (.fin neg (2 ^ 23 + m) (e - 150))

theorem isF32_fDecode {x : Nat} (hx : x < 2 ^ 32) : IsF32 x (fDecode fmtF32 x) := by
  obtain ⟨e, he⟩ : ∃ e, e = x / 2 ^ 23 % 2 ^ 8 := ⟨_, rfl⟩
  obtain ⟨m, hm⟩ : ∃ m, m = x / 2 ^ 0 % 2 ^ 23 := ⟨_, rfl⟩
  obtain ⟨neg, hneg⟩ : ∃ neg, neg = x.testBit 31 := ⟨_, rfl⟩
  have parts : x = signBit fmtF32 neg + e * 2 ^ 23 + m := by
    rw [hneg, he, hm, signBit, Nat.testBit_eq_decide_div_mod_eq]
    simp only [fmtF32, decide_eq_true_eq]
    split <;> omega
  have small : m < 2 ^ 23 := by omega
  have value : fDecode fmtF32 x = if e = 255 then (if m = 0 then .inf neg else .nan) else if e = 0 then .fin neg m (-149) else .fin neg (2 ^ 23 + m) (e - 127 - 23) := by
    rw [hneg, he, hm]
    rfl
  rw [value]
  split
  next inf =>
    split
    next zero => rw [parts, inf, zero]; exact .inf neg
    · exact .nan
  · split
    next zero => rw [parts, zero, Nat.zero_mul, Nat.add_zero]; exact .small neg small
    next top low =>
      rw [parts, sub_sub]
      exact .normal neg (by omega) (by omega) small

/-- In its own unit a significand is exact. -/
theorem roundUnits_exact {mode : RMode} {neg : Bool} {m : Nat} {e : Int} : roundUnits mode neg m e e false = m := by
  rw [roundUnits, if_pos le_rfl, sub_self, Int.toNat_zero, pow_zero, Nat.mul_one]

theorem fRound_small (neg : Bool) {m : Nat} (small : m < 2 ^ 23) : fRound fmtF32 0 false neg m (-149) false = signBit fmtF32 neg + m := by
  rw [fRound]
  split
  next zero => rw [zero.1, Nat.add_zero]
  next nonzero =>
    have log : Nat.log2 m < 23 := (Nat.log2_lt (by simpa using nonzero)).2 small
    have unit : max ((Nat.log2 m : Int) + -149 - (fmtF32.fb : Nat)) (1 - fmtF32.bias - (fmtF32.fb : Nat)) = -149 := by
      simp only [fmtF32]; omega
    have fits : m ≠ 2 ^ (fmtF32.fb + 1) := by simp only [fmtF32]; omega
    have subnormal : m < 2 ^ fmtF32.fb := small
    simp only [unit, roundUnits_exact, if_neg fits, if_pos subnormal]

theorem fRound_normal (neg : Bool) {e m : Nat} (low : 0 < e) (top : e < 255) (small : m < 2 ^ 23) :
    fRound fmtF32 0 false neg (2 ^ 23 + m) (e - 150) false = signBit fmtF32 neg + e * 2 ^ 23 + m := by
  have log : Nat.log2 (2 ^ 23 + m) = 23 := (Nat.log2_eq_iff (by omega)).2 ⟨by omega, by omega⟩
  have unit : max (((23 : Nat) : Int) + ((e : Int) - 150) - (fmtF32.fb : Nat)) (1 - fmtF32.bias - (fmtF32.fb : Nat)) = e - 150 := by
    simp only [fmtF32]; omega
  rw [fRound, if_neg (by omega), log]
  have fits : 2 ^ 23 + m ≠ 2 ^ (fmtF32.fb + 1) := by simp only [fmtF32]; omega
  have full : ¬ 2 ^ 23 + m < 2 ^ fmtF32.fb := by simp only [fmtF32]; omega
  have exponent : ((e : Int) - 150 + (fmtF32.fb : Nat) + fmtF32.bias).toNat = e := by simp only [fmtF32]; omega
  have finite : ¬ (e > 2 ^ fmtF32.eb - 1 ∨ (e = 2 ^ fmtF32.eb - 1 ∧ ¬ fmtF32.noInf) ∨ (fmtF32.noInf ∧ e = 2 ^ fmtF32.eb - 1 ∧ 2 ^ 23 + m = 2 ^ (fmtF32.fb + 1) - 1)) := by
    simp only [fmtF32]; omega
  simp only [unit, roundUnits_exact, if_neg fits, if_neg full, exponent, if_neg finite]
  rw [show 2 ^ 23 + m - 2 ^ fmtF32.fb = m from Nat.add_sub_cancel_left ..]
  rfl

theorem fEncode_of_isF32 {x : Nat} {v : FVal} (h : IsF32 x v) (num : v ≠ .nan) : fEncode fmtF32 0 false v = x := by
  cases h with
  | nan => exact absurd rfl num
  | inf neg => rfl
  | small neg small => exact fRound_small neg small
  | normal neg low top small => exact fRound_normal neg low top small

/-- An encoding that is no NaN comes back from its value. -/
theorem fEncode_fDecode {x : Nat} (hx : x < 2 ^ 32) (num : fDecode fmtF32 x ≠ .nan) : fEncode fmtF32 0 false (fDecode fmtF32 x) = x :=
  fEncode_of_isF32 (isF32_fDecode hx) num

/-! ### The exact sum (R177) -/

/-- A finite value in units of any power of two at most its own. -/
theorem rat_fin {neg : Bool} {m : Nat} {e q : Int} (le : q ≤ e) : (FVal.fin neg m e).rat = some ((inUnits neg m e q : Rat) * 2 ^ q) := by
  have split : (2 : Rat) ^ e = 2 ^ (e - q).toNat * 2 ^ q := by
    rw [← zpow_natCast, Int.toNat_of_nonneg (by omega), ← zpow_add₀ two_ne_zero, sub_add_cancel]
  cases neg <;> simp [FVal.rat, inUnits, split] <;> ring

/-- A signed integer as a finite value. -/
theorem rat_natAbs (x q : Int) : (FVal.fin (decide (x < 0)) x.natAbs q).rat = some ((x : Rat) * 2 ^ q) := by
  have sign : (if decide (x < 0) = true then -1 else 1 : Rat) * (x.natAbs : Rat) = x := by
    rw [Nat.cast_natAbs, Int.cast_abs]
    by_cases neg : x < 0
    · rw [decide_eq_true neg, if_pos rfl, abs_of_neg (by exact_mod_cast neg), neg_mul, one_mul, neg_neg]
    · rw [decide_eq_false neg, if_neg Bool.false_ne_true, abs_of_nonneg (by exact_mod_cast not_lt.1 neg), one_mul]
  rw [FVal.rat, sign]

theorem rat_eq_some {x : FVal} {p : Rat} (h : x.rat = some p) : ∃ neg m e, x = .fin neg m e := by
  cases x with
  | fin neg m e => exact ⟨neg, m, e, rfl⟩
  | nan => cases h
  | inf neg => cases h

/-- Two finite values in units of one power of two. -/
theorem rat_common {na nb : Bool} {ma mb : Nat} {ea eb : Int} {p q : Rat} (hp : (FVal.fin na ma ea).rat = some p) (hq : (FVal.fin nb mb eb).rat = some q) :
    p = (inUnits na ma ea (min ea eb) : Rat) * 2 ^ (min ea eb) ∧ q = (inUnits nb mb eb (min ea eb) : Rat) * 2 ^ (min ea eb) :=
  ⟨Option.some.inj (hp.symm.trans (rat_fin (min_le_left _ _))), Option.some.inj (hq.symm.trans (rat_fin (min_le_right _ _)))⟩

/-- The exact sum of two finite values is the sum of their rational values. -/
theorem rat_fAdd {mode : RMode} {x y : FVal} {p q : Rat} (hp : x.rat = some p) (hq : y.rat = some q) (ne : p + q ≠ 0) : (fAdd mode x y).rat = some (p + q) := by
  obtain ⟨na, ma, ea, rfl⟩ := rat_eq_some hp
  obtain ⟨nb, mb, eb, rfl⟩ := rat_eq_some hq
  obtain ⟨rfl, rfl⟩ := rat_common hp hq
  rw [← add_mul, ← Int.cast_add] at ne ⊢
  have nonzero : inUnits na ma ea (min ea eb) + inUnits nb mb eb (min ea eb) ≠ 0 := by
    intro zero
    rw [zero, Int.cast_zero, zero_mul] at ne
    exact ne rfl
  simp only [fAdd, if_neg nonzero]
  exact rat_natAbs _ _

theorem zero_of_same_sign {neg : Bool} {ma mb : Nat} {ea eb q : Int} (zero : inUnits neg ma ea q + inUnits neg mb eb q = 0) : ma = 0 ∧ mb = 0 := by
  have sum : ma * 2 ^ (ea - q).toNat + mb * 2 ^ (eb - q).toNat = 0 := by
    cases neg <;> simp only [inUnits, if_true, Bool.false_eq_true, if_false] at zero <;> omega
  have pow (k : Nat) : 2 ^ k ≠ 0 := (Nat.two_pow_pos k).ne'
  simpa [pow] using sum

/-- An exact zero sum is −0 only where both operands are −0. -/
theorem fAdd_zero {x y : FVal} {p q : Rat} (hp : x.rat = some p) (hq : y.rat = some q) (zero : p + q = 0) :
    fAdd 0 x y = .fin (x.signNeg && y.signNeg) 0 0 := by
  obtain ⟨na, ma, ea, rfl⟩ := rat_eq_some hp
  obtain ⟨nb, mb, eb, rfl⟩ := rat_eq_some hq
  obtain ⟨rfl, rfl⟩ := rat_common hp hq
  rw [← add_mul, ← Int.cast_add, mul_eq_zero, or_iff_left (zpow_ne_zero _ two_ne_zero), Int.cast_eq_zero] at zero
  simp only [fAdd, if_pos zero, FVal.signNeg]
  by_cases same : na = nb
  · subst same
    rw [if_pos ⟨(zero_of_same_sign zero).1, (zero_of_same_sign zero).2, rfl⟩, Bool.and_self]
  · rw [if_neg fun h => same h.2.2, Bool.eq_not_of_ne same, Bool.not_and_self]
    rfl

/-! ### The order of the minimum and maximum (R213) -/

/-- The comparison of two finite values is that of their rational values. -/
theorem fCompare_of_rat {x y : FVal} {p q : Rat} (hp : x.rat = some p) (hq : y.rat = some q) : fCompare x y = if p < q then -1 else if p = q then 0 else 1 := by
  obtain ⟨na, ma, ea, rfl⟩ := rat_eq_some hp
  obtain ⟨nb, mb, eb, rfl⟩ := rat_eq_some hq
  obtain ⟨rfl, rfl⟩ := rat_common hp hq
  have pos : (0 : Rat) < 2 ^ (min ea eb) := zpow_pos two_pos _
  simp only [fCompare, mul_lt_mul_iff_left₀ pos, mul_left_inj' pos.ne', Int.cast_lt, Int.cast_inj]

theorem isZero_of_rat {x : FVal} {p : Rat} (hp : x.rat = some p) (ne : p ≠ 0) : x.isZero = false := by
  obtain ⟨neg, m, e, rfl⟩ := rat_eq_some hp
  refine beq_false_of_ne fun zero => ne ((Option.some.inj hp).symm.trans ?_)
  rw [zero, Nat.cast_zero, mul_zero, zero_mul]

theorem fBelow_of_rat {x y : FVal} {p q : Rat} (hp : x.rat = some p) (hq : y.rat = some q) (ne : p ≠ q ∨ p ≠ 0) : fBelow x y = decide (p < q) := by
  rw [fBelow, fCompare_of_rat hp hq]
  rcases lt_trichotomy p q with lt | rfl | gt
  · rw [if_pos lt, decide_eq_true lt]
    rfl
  · rw [if_neg (lt_irrefl p), if_pos rfl, isZero_of_rat hp (ne.resolve_left fun h => h rfl), decide_eq_false (lt_irrefl p)]
    rfl
  · rw [if_neg gt.not_gt, if_neg gt.ne', decide_eq_false gt.not_gt]
    rfl

theorem fBelow_inf (neg : Bool) {y : FVal} (num : y ≠ .nan) (ne : y ≠ .inf neg) : fBelow (.inf neg) y = neg ∧ fBelow y (.inf neg) = !neg := by
  cases y with
  | nan => exact absurd rfl num
  | inf n => revert ne; revert neg n; decide
  | fin n m e => cases neg <;> exact ⟨rfl, rfl⟩

/-! ### The values that the atomics write (R158) -/

theorem isNan_eq_false {x : FVal} (num : x ≠ .nan) : x.isNan = false := by
  cases x with
  | nan => exact absurd rfl num
  | inf neg => rfl
  | fin neg m e => rfl

section
variable (old b : Nat)

theorem atomVal_fadd : atomVal 10 4 old b 0 = fEncode fmtF32 0 false (fAdd 0 (fDecode fmtF32 old) (fDecode fmtF32 b)) := rfl

theorem atomVal_fmin : atomVal 11 4 old b 0 = fEncode fmtF32 0 false (fMinV (fDecode fmtF32 old) (fDecode fmtF32 b)) := rfl

theorem atomVal_fmax : atomVal 12 4 old b 0 = fEncode fmtF32 0 false (fMaxV (fDecode fmtF32 old) (fDecode fmtF32 b)) := rfl

end

/-- Minimum and maximum write one of the two encodings, that which the order of R213 picks. -/
theorem atomVal_min_max {old b : Nat} (hold : old < 2 ^ 32) (hb : b < 2 ^ 32) (numOld : fDecode fmtF32 old ≠ .nan) (numB : fDecode fmtF32 b ≠ .nan) :
    atomVal 11 4 old b 0 = (if fBelow (fDecode fmtF32 b) (fDecode fmtF32 old) then b else old) ∧
    atomVal 12 4 old b 0 = (if fBelow (fDecode fmtF32 old) (fDecode fmtF32 b) then b else old) := by
  have pick (c : Bool) : fEncode fmtF32 0 false (if c then fDecode fmtF32 b else fDecode fmtF32 old) = if c then b else old := by
    cases c
    · exact fEncode_fDecode hold numOld
    · exact fEncode_fDecode hb numB
  rw [atomVal_fmin, atomVal_fmax, fMinV, fMaxV, isNan_eq_false numOld, isNan_eq_false numB]
  exact ⟨pick _, pick _⟩

end Sys2Proof.Machine
end

section
/-! SUPPORT. The three FP32 atomics, each clause of R158 on the values of the two encodings. -/
namespace Sys2Proof.Machine
open Sys2Proof

section
variable {old b : Nat}

theorem atomVal_fadd_nan (nan : fDecode fmtF32 old = .nan ∨ fDecode fmtF32 b = .nan) : atomVal 10 4 old b 0 = 0x7FC00000 := by
  rw [atomVal_fadd]
  rcases nan with nan | nan
  · rw [nan]; rfl
  · rw [nan]; cases fDecode fmtF32 old <;> rfl

theorem atomVal_fadd_inf {n : Bool} (inf : fDecode fmtF32 old = .inf n) (y : fDecode fmtF32 b = .inf n ∨ ∃ q, (fDecode fmtF32 b).rat = some q) :
    atomVal 10 4 old b 0 = if n then 0xFF800000 else 0x7F800000 := by
  rw [atomVal_fadd, inf]
  rcases y with same | ⟨q, hq⟩
  · rw [same]; cases n <;> rfl
  · obtain ⟨neg, m, e, fin⟩ := rat_eq_some hq
    rw [fin]; cases n <;> rfl

theorem atomVal_fadd_inf_right {n : Bool} {p : Rat} (inf : fDecode fmtF32 b = .inf n) (hp : (fDecode fmtF32 old).rat = some p) :
    atomVal 10 4 old b 0 = if n then 0xFF800000 else 0x7F800000 := by
  obtain ⟨neg, m, e, fin⟩ := rat_eq_some hp
  rw [atomVal_fadd, inf, fin]
  cases n <;> rfl

theorem atomVal_fadd_opposite_inf {n : Bool} (x : fDecode fmtF32 old = .inf n) (y : fDecode fmtF32 b = .inf (!n)) : atomVal 10 4 old b 0 = 0x7FC00000 := by
  rw [atomVal_fadd, x, y]
  cases n <;> rfl

theorem atomVal_fadd_zero {p q : Rat} (hp : (fDecode fmtF32 old).rat = some p) (hq : (fDecode fmtF32 b).rat = some q) (zero : p + q = 0) :
    atomVal 10 4 old b 0 = if (fDecode fmtF32 old).signNeg && (fDecode fmtF32 b).signNeg then 0x80000000 else 0 := by
  rw [atomVal_fadd, fAdd_zero hp hq zero]
  cases (fDecode fmtF32 old).signNeg && (fDecode fmtF32 b).signNeg <;> rfl

theorem atomVal_min_max_nan_left (hb : b < 2 ^ 32) (x : fDecode fmtF32 old = .nan) (num : fDecode fmtF32 b ≠ .nan) :
    atomVal 11 4 old b 0 = b ∧ atomVal 12 4 old b 0 = b := by
  rw [atomVal_fmin, atomVal_fmax, x]
  exact ⟨fEncode_fDecode hb num, fEncode_fDecode hb num⟩

theorem atomVal_min_max_nan_right (hold : old < 2 ^ 32) (y : fDecode fmtF32 b = .nan) (num : fDecode fmtF32 old ≠ .nan) :
    atomVal 11 4 old b 0 = old ∧ atomVal 12 4 old b 0 = old := by
  rw [atomVal_fmin, atomVal_fmax, fMinV, fMaxV, isNan_eq_false num, y]
  exact ⟨fEncode_fDecode hold num, fEncode_fDecode hold num⟩

theorem ne_nan_of_rat {x : FVal} {p : Rat} (h : x.rat = some p) : x ≠ .nan := by
  rintro rfl
  cases h

theorem atomVal_min_max_self (hold : old < 2 ^ 32) (num : fDecode fmtF32 old ≠ .nan) : atomVal 11 4 old old 0 = old ∧ atomVal 12 4 old old 0 = old := by
  obtain ⟨least, greatest⟩ := atomVal_min_max hold hold num num
  rw [least, greatest, ite_self]
  exact ⟨rfl, rfl⟩

section
variable (hold : old < 2 ^ 32) (hb : b < 2 ^ 32)
include hold hb

theorem atomVal_min_max_of_lt {p q : Rat} (hp : (fDecode fmtF32 old).rat = some p) (hq : (fDecode fmtF32 b).rat = some q) (lt : p < q) :
    atomVal 11 4 old b 0 = old ∧ atomVal 12 4 old b 0 = b := by
  obtain ⟨least, greatest⟩ := atomVal_min_max hold hb (ne_nan_of_rat hp) (ne_nan_of_rat hq)
  rw [least, greatest, fBelow_of_rat hp hq (.inl lt.ne), fBelow_of_rat hq hp (.inl lt.ne'), decide_eq_true lt, decide_eq_false lt.not_gt]
  exact ⟨rfl, rfl⟩

theorem atomVal_min_max_of_gt {p q : Rat} (hp : (fDecode fmtF32 old).rat = some p) (hq : (fDecode fmtF32 b).rat = some q) (gt : q < p) :
    atomVal 11 4 old b 0 = b ∧ atomVal 12 4 old b 0 = old := by
  obtain ⟨least, greatest⟩ := atomVal_min_max hold hb (ne_nan_of_rat hp) (ne_nan_of_rat hq)
  rw [least, greatest, fBelow_of_rat hp hq (.inl gt.ne'), fBelow_of_rat hq hp (.inl gt.ne), decide_eq_true gt, decide_eq_false gt.not_gt]
  exact ⟨rfl, rfl⟩

theorem atomVal_min_max_of_eq {p : Rat} (hp : (fDecode fmtF32 old).rat = some p) (hq : (fDecode fmtF32 b).rat = some p) (ne : p ≠ 0) :
    atomVal 11 4 old b 0 = old ∧ atomVal 12 4 old b 0 = old := by
  obtain ⟨least, greatest⟩ := atomVal_min_max hold hb (ne_nan_of_rat hp) (ne_nan_of_rat hq)
  rw [least, greatest, fBelow_of_rat hp hq (.inr ne), fBelow_of_rat hq hp (.inr ne), decide_eq_false (lt_irrefl p)]
  exact ⟨rfl, rfl⟩

/-- Two encodings of one infinity are one encoding. -/
theorem eq_of_same_inf {n : Bool} (x : fDecode fmtF32 old = .inf n) (y : fDecode fmtF32 b = .inf n) : old = b := by
  rw [← fEncode_fDecode hold (by rw [x]; exact FVal.noConfusion), ← fEncode_fDecode hb (by rw [y]; exact FVal.noConfusion), x, y]

theorem atomVal_min_max_inf {n : Bool} (x : fDecode fmtF32 old = .inf n) (num : fDecode fmtF32 b ≠ .nan) :
    atomVal 11 4 old b 0 = (if n then old else b) ∧ atomVal 12 4 old b 0 = if n then b else old := by
  by_cases same : fDecode fmtF32 b = .inf n
  · obtain rfl := eq_of_same_inf hold hb x same
    rw [ite_self]
    exact atomVal_min_max_self hold num
  · obtain ⟨least, greatest⟩ := atomVal_min_max hold hb (by rw [x]; exact FVal.noConfusion) num
    obtain ⟨below, above⟩ := fBelow_inf n num same
    rw [least, greatest, x, below, above]
    cases n <;> exact ⟨rfl, rfl⟩

theorem atomVal_min_max_inf_right {n : Bool} (y : fDecode fmtF32 b = .inf n) (num : fDecode fmtF32 old ≠ .nan) :
    atomVal 11 4 old b 0 = (if n then b else old) ∧ atomVal 12 4 old b 0 = if n then old else b := by
  by_cases same : fDecode fmtF32 old = .inf n
  · obtain rfl := eq_of_same_inf hold hb same y
    rw [ite_self]
    exact atomVal_min_max_self hold num
  · obtain ⟨least, greatest⟩ := atomVal_min_max hold hb num (by rw [y]; exact FVal.noConfusion)
    obtain ⟨below, above⟩ := fBelow_inf n num same
    rw [least, greatest, y, below, above]
    cases n <;> exact ⟨rfl, rfl⟩

end

end

end Sys2Proof.Machine
end

section
namespace Sys2Proof
open Sys2Proof.Machine

/-- Settles O28: integer operations are those of bit vectors of the width (`signed_order`); the FP32 sum is exact before its one rounding (`rat_fAdd`), and the minimum and maximum pick one of the two encodings (`atomVal_min_max`) by the order of the rational values (`fBelow_of_rat`), and an encoding comes back from its value (`fEncode_fDecode`). -/
theorem atomicValues : Obligations.AtomicValues := by
  refine ⟨?integers, ?floats, ?words, atomAll_cons⟩
  case integers =>
    intro size old b cmp hold hb pos
    obtain ⟨and, or, xor⟩ := atomVal_bitwise cmp hold hb
    exact ⟨atomVal_add size old b cmp, and, or, xor, atomVal_signed_min cmp hold hb pos, atomVal_signed_max cmp hold hb pos, rfl, rfl, rfl, if_pos rfl, fun ne => if_neg ne⟩
  case floats =>
    intro old b hold hb
    refine ⟨atomVal_fadd_nan, fun p q hp hq ne => ⟨_, rat_fAdd hp hq ne, rfl⟩, fun n => atomVal_fadd_inf, fun n p => atomVal_fadd_inf_right, fun p q => atomVal_fadd_zero, ?nans,
      atomVal_min_max_nan_left hb, atomVal_min_max_nan_right hold, fun n => atomVal_fadd_opposite_inf,
      fun p q hp hq => ⟨atomVal_min_max_of_lt hold hb hp hq, atomVal_min_max_of_gt hold hb hp hq⟩,
      fun n => atomVal_min_max_inf hold hb, fun n => atomVal_min_max_inf_right hold hb, fun p => atomVal_min_max_of_eq hold hb, ?self, ?negativeZero, ?positiveZero⟩
    case nans =>
      intro x y
      rw [atomVal_fmin, atomVal_fmax, x, y]
      exact ⟨rfl, rfl⟩
    case self =>
      rintro rfl
      exact atomVal_min_max_self hold
    case negativeZero =>
      rintro rfl rfl
      exact ⟨rfl, rfl⟩
    case positiveZero =>
      rintro rfl rfl
      exact ⟨rfl, rfl⟩
  case words =>
    refine fun m => ⟨sub_of_wellFormed_ared, sub_of_wellFormed_atom, ?_⟩
    rintro (ared | atom) float
    · exact atomSizes_of_float (size_of_checkM (checkM_of_wellFormed (i := .ared m) rfl ared)) float
    · exact atomSizes_of_float (size_of_checkM (checkM_of_wellFormed (i := .atom m) rfl atom)) float

end Sys2Proof
end

section
/-! SUPPORT. The matrix step over the rational values of its products (R185): the step without NaNs and infinities, the greatest exponent, and the truncated sum. -/
namespace Sys2Proof.Machine
open Sys2Proof

/-! ### Finite values -/

theorem abs_rat_fin {neg : Bool} {m : Nat} {e : Int} {q : Rat} (h : (FVal.fin neg m e).rat = some q) : |q| = m * 2 ^ e := by
  have nonneg : (0 : Rat) ≤ m * 2 ^ e := by positivity
  obtain rfl := Option.some.inj h
  cases neg
  · rw [if_neg Bool.false_ne_true, one_mul, abs_of_nonneg nonneg]
  · rw [if_pos rfl, neg_mul, one_mul, neg_mul, abs_neg, abs_of_nonneg nonneg]

/-- The leading bit of m × 2^e is worth 2^(log2 m + e). -/
theorem zpow_log2_bounds {m : Nat} (pos : m ≠ 0) (e : Int) : (2 : Rat) ^ ((Nat.log2 m : Int) + e) ≤ m * 2 ^ e ∧ (m : Rat) * 2 ^ e < 2 ^ ((Nat.log2 m : Int) + e + 1) := by
  obtain ⟨low, high⟩ := (Nat.log2_eq_iff pos).1 rfl
  have unit : (0 : Rat) < 2 ^ e := by positivity
  rw [add_right_comm, zpow_add₀ two_ne_zero, zpow_add₀ two_ne_zero]
  constructor
  · gcongr
    exact_mod_cast low
  · gcongr
    exact_mod_cast high

/-- A list of finite values is one of rational values, element by element. -/
theorem mem_rat_of_mem {ps : List FVal} {qs : List Rat} (values : ps.map FVal.rat = qs.map some) {p : FVal} (hp : p ∈ ps) : ∃ q ∈ qs, p.rat = some q := by
  obtain ⟨q, hq, eq⟩ := List.mem_map.1 (values ▸ List.mem_map_of_mem (f := FVal.rat) hp)
  exact ⟨q, hq, eq.symm⟩

theorem mem_of_mem_rat {ps : List FVal} {qs : List Rat} (values : ps.map FVal.rat = qs.map some) {q : Rat} (hq : q ∈ qs) : ∃ p ∈ ps, p.rat = some q :=
  List.mem_map.1 (values.symm ▸ List.mem_map_of_mem (f := some) hq)

/-! ### NaN and infinite products -/

section
variable {acc : Nat} {ps : List FVal}

theorem mem_infSigns {n : Bool} : n ∈ infSigns ps ↔ .inf n ∈ ps := by
  rw [infSigns, List.mem_filterMap]
  constructor
  · rintro ⟨p, hp, sign⟩
    cases p with
    | inf k => rwa [← Option.some.inj sign]
    | nan => cases sign
    | fin neg m e => cases sign
  · exact fun h => ⟨_, h, rfl⟩

theorem matrixStep_nan (nan : fDecode fmtF32 acc = .nan ∨ .nan ∈ ps) : matrixStep acc ps = 0x7FC00000 := by
  rw [matrixStep, if_pos]
  · rfl
  · exact nan.imp (fun h => by rw [h]; rfl) fun h => List.any_eq_true.2 ⟨_, h, rfl⟩

theorem no_isNan (num : fDecode fmtF32 acc ≠ .nan) (nums : .nan ∉ ps) : ¬ ((fDecode fmtF32 acc).isNan = true ∨ ps.any FVal.isNan = true) := by
  rintro (acc_nan | nan)
  · rw [isNan_eq_false num] at acc_nan
    cases acc_nan
  · obtain ⟨p, hp, is⟩ := List.any_eq_true.1 nan
    rw [isNan_eq_false fun h => nums (h ▸ hp)] at is
    cases is

theorem matrixStep_of_infSigns (num : fDecode fmtF32 acc ≠ .nan) (nums : .nan ∉ ps) {n : Bool} {rest : List Bool} (signs : infSigns ps = n :: rest) :
    matrixStep acc ps = if rest.any (fun x => x != n) ∨ fDecode fmtF32 acc = .inf (!n) then fNan fmtF32 else fInf fmtF32 n := by
  rw [matrixStep, if_neg (no_isNan num nums), signs]

theorem any_ne_iff {rest : List Bool} {k : Bool} : rest.any (fun x => x != k) = true ↔ (!k) ∈ rest := by
  rw [List.any_eq_true]
  exact ⟨fun ⟨x, hx, ne⟩ => Bool.eq_not_of_ne (bne_iff_ne.1 ne) ▸ hx, fun h => ⟨_, h, by cases k <;> rfl⟩⟩

theorem matrixStep_inf (num : fDecode fmtF32 acc ≠ .nan) (nums : .nan ∉ ps) {n : Bool} (inf : .inf n ∈ ps) :
    matrixStep acc ps = if .inf (!n) ∈ ps ∨ fDecode fmtF32 acc = .inf (!n) then 0x7FC00000 else if n then 0xFF800000 else 0x7F800000 := by
  have first := mem_infSigns.2 inf
  simp only [← mem_infSigns]
  cases signs : infSigns ps with
  | nil => rw [signs] at first; cases first
  | cons k rest =>
    rw [signs, List.mem_cons] at first
    simp only [matrixStep_of_infSigns num nums signs, any_ne_iff, List.mem_cons]
    by_cases same : n = k
    · subst same
      simp only [Bool.not_eq_self, false_or]
      cases n <;> rfl
    · obtain rfl := Bool.eq_not_of_ne same
      rw [if_pos (.inl (first.resolve_left same)), if_pos (.inl (.inl (Bool.not_not k)))]
      rfl

end

/-! ### The greatest exponent -/

theorem foldl_maxExp (ps : List FVal) (b : Int) :
    ps.foldl (fun b p => match b, expOf p with | some x, some y => some (max x y) | none, y => y | x, none => x) (some b) = some ((ps.filterMap expOf).foldl max b) := by
  induction ps generalizing b with
  | nil => rfl
  | cons p ps ih =>
    rw [List.foldl_cons, List.filterMap_cons]
    cases expOf p <;> exact ih _

theorem maxExp_eq (ps : List FVal) : maxExp ps = (ps.filterMap expOf).max? := by
  rw [maxExp]
  induction ps with
  | nil => rfl
  | cons p ps ih =>
    rw [List.foldl_cons, List.filterMap_cons]
    cases expOf p with
    | none => exact ih
    | some x => exact foldl_maxExp ps x

section
variable {ps : List FVal} {qs : List Rat} (values : ps.map FVal.rat = qs.map some)
include values

theorem infSigns_of_rat : infSigns ps = [] := by
  rw [infSigns, List.filterMap_eq_nil_iff]
  intro p hp
  obtain ⟨q, -, hq⟩ := mem_rat_of_mem values hp
  obtain ⟨neg, m, e, rfl⟩ := rat_eq_some hq
  rfl

theorem no_nan_of_rat : .nan ∉ ps := by
  intro nan
  obtain ⟨q, -, hq⟩ := mem_rat_of_mem values nan
  cases hq

theorem maxExp_of_zero (zero : ∀ q ∈ qs, q = 0) : maxExp ps = none := by
  rw [maxExp_eq, List.max?_eq_none_iff, List.filterMap_eq_nil_iff]
  intro p hp
  obtain ⟨q, hq, val⟩ := mem_rat_of_mem values hp
  obtain ⟨neg, m, e, rfl⟩ := rat_eq_some val
  have none_left : (m : Rat) * 2 ^ e = 0 := by rw [← abs_rat_fin val, zero q hq, abs_zero]
  rw [expOf, if_pos (Nat.cast_eq_zero.1 ((mul_eq_zero.1 none_left).resolve_right (by positivity)))]

/-- The greatest exponent of R185 is the power of two that the greatest magnitude reaches. -/
theorem maxExp_eq_some {x : Int} (reached : ∃ q ∈ qs, (2 : Rat) ^ x ≤ |q|) (bound : ∀ q ∈ qs, |q| < (2 : Rat) ^ (x + 1)) : maxExp ps = some x := by
  have below {p : FVal} (hp : p ∈ ps) {y : Int} (hy : expOf p = some y) : y ≤ x := by
    obtain ⟨q, hq, val⟩ := mem_rat_of_mem values hp
    obtain ⟨neg, m, e, rfl⟩ := rat_eq_some val
    rw [expOf] at hy
    split at hy
    · cases hy
    next pos =>
      obtain rfl := Option.some.inj hy
      have lt := ((zpow_log2_bounds pos e).1.trans_eq (abs_rat_fin val).symm).trans_lt (bound q hq)
      exact Int.lt_add_one_iff.1 ((zpow_lt_zpow_iff_right₀ one_lt_two).1 lt)
  rw [maxExp_eq, List.max?_eq_some_iff]
  constructor
  · obtain ⟨q, hq, le⟩ := reached
    obtain ⟨p, hp, val⟩ := mem_of_mem_rat values hq
    obtain ⟨neg, m, e, rfl⟩ := rat_eq_some val
    have pos : m ≠ 0 := by
      rintro rfl
      rw [abs_rat_fin val, Nat.cast_zero, zero_mul] at le
      exact absurd le (not_le.2 (by positivity))
    have exp : expOf (.fin neg m e) = some ((Nat.log2 m : Int) + e) := by rw [expOf, if_neg pos]
    have lt := le.trans_lt ((abs_rat_fin val).trans_lt (zpow_log2_bounds pos e).2)
    have eq : (Nat.log2 m : Int) + e = x := le_antisymm (below hp exp) (Int.lt_add_one_iff.1 ((zpow_lt_zpow_iff_right₀ one_lt_two).1 lt))
    exact List.mem_filterMap.2 ⟨_, hp, eq ▸ exp⟩
  · intro y hy
    obtain ⟨p, hp, exp⟩ := List.mem_filterMap.1 hy
    exact below hp exp

end

/-! ### The truncated sum -/

/-- In units of 2^q a magnitude is cut to the integer below it. -/
theorem floor_units (m : Nat) (e q : Int) :
    ⌊(m : Rat) * 2 ^ e / 2 ^ q⌋ = ((if q ≤ e then m * 2 ^ (e - q).toNat else m / 2 ^ (q - e).toNat : Nat) : Int) := by
  rw [mul_div_assoc, ← zpow_sub₀ two_ne_zero]
  split
  next le =>
    have units : (m : Rat) * 2 ^ (e - q) = ((m * 2 ^ (e - q).toNat : Nat) : Rat) := by
      push_cast
      rw [← zpow_natCast, Int.toNat_of_nonneg (by omega)]
    rw [units, Int.floor_natCast]
  next gt =>
    have units : (m : Rat) * 2 ^ (e - q) = (m : Rat) / ((2 ^ (q - e).toNat : Nat) : Rat) := by
      push_cast
      rw [← zpow_natCast, Int.toNat_of_nonneg (by omega), div_eq_mul_inv, ← zpow_neg, neg_sub]
    rw [units, Rat.floor_natCast_div_natCast]
    rfl

/-- A product is truncated toward zero. -/
theorem truncUnits_of_rat {p : FVal} {q : Rat} (val : p.rat = some q) (k : Int) :
    truncUnits k p = if 0 ≤ q then (q / 2 ^ k).floor else (q / 2 ^ k).ceil := by
  obtain ⟨neg, m, e, rfl⟩ := rat_eq_some val
  have nonneg : (0 : Rat) ≤ m * 2 ^ e := by positivity
  have floor := floor_units m e k
  rw [truncUnits, ← floor]
  cases neg
  · obtain rfl : (m : Rat) * 2 ^ e = q := by simpa [FVal.rat] using val
    rw [if_neg Bool.false_ne_true, if_pos nonneg]
    rfl
  · obtain rfl : -((m : Rat) * 2 ^ e) = q := by simpa [FVal.rat] using val
    rw [if_pos rfl, Rat.ceil_eq_neg_floor_neg, neg_div, neg_neg]
    split
    next zero =>
      rw [le_antisymm (neg_nonneg.1 zero) nonneg, zero_div, neg_zero]
      rfl
    · rfl

/-- The sum of rational products, each truncated toward zero to a multiple of 2^k (R185). -/
def truncatedSum (k : Int) (qs : List Rat) : Rat :=
  (qs.map (fun q => (if 0 ≤ q then ((q / 2 ^ k).floor : Rat) else ((q / 2 ^ k).ceil : Rat)) * 2 ^ k)).sum

theorem foldl_truncUnits {ps : List FVal} {qs : List Rat} (values : ps.map FVal.rat = qs.map some) (k : Int) :
    ((ps.foldl (fun n p => n + truncUnits k p) 0 : Int) : Rat) * 2 ^ k = truncatedSum k qs := by
  rw [truncatedSum, ← List.foldl_map (f := truncUnits k) (g := (· + ·)), ← List.sum_eq_foldl]
  induction ps generalizing qs with
  | nil =>
    obtain rfl := List.map_eq_nil_iff.1 values.symm
    simp
  | cons p ps ih =>
    obtain ⟨q, qs, rfl, val, rest⟩ := List.map_eq_cons_iff.1 values.symm
    rw [List.map_cons, List.map_cons, List.sum_cons, List.sum_cons, ← ih rest.symm, truncUnits_of_rat val.symm, Int.cast_add, add_mul, apply_ite (Int.cast : Int → Rat)]

/-! ### The rounding of a step -/

section
variable {acc : Nat} {ps : List FVal} {qs : List Rat} (values : ps.map FVal.rat = qs.map some)
include values

theorem matrixStep_of_zero (num : fDecode fmtF32 acc ≠ .nan) (zero : ∀ q ∈ qs, q = 0) : matrixStep acc ps = acc := by
  rw [matrixStep, if_neg (no_isNan num (no_nan_of_rat values)), infSigns_of_rat values]
  simp only [maxExp_of_zero values zero]

theorem matrixStep_of_maxExp (num : fDecode fmtF32 acc ≠ .nan) {x : Int} (exp : maxExp ps = some x) : ∃ sum : Int,
    (sum : Rat) * 2 ^ (x - 47) = truncatedSum (x - 47) qs ∧
    matrixStep acc ps = fEncode fmtF32 0 false (fAdd 0 (fDecode fmtF32 acc) (.fin (decide (sum < 0)) sum.natAbs (x - 47))) := by
  refine ⟨_, foldl_truncUnits values (x - 47), ?_⟩
  rw [matrixStep, if_neg (no_isNan num (no_nan_of_rat values)), infSigns_of_rat values]
  simp only [exp]

end

theorem signNeg_of_rat_pos {v : FVal} {r : Rat} (val : v.rat = some r) (pos : 0 < r) : v.signNeg = false := by
  obtain ⟨neg, m, e, rfl⟩ := rat_eq_some val
  cases neg
  · rfl
  · obtain rfl := Option.some.inj val
    have nonneg : (0 : Rat) ≤ m * 2 ^ e := by positivity
    rw [if_pos rfl, neg_mul, one_mul, neg_mul] at pos
    exact absurd nonneg (not_le.2 (neg_pos.1 pos))

/-- An accumulator that the truncated sum cancels leaves +0. -/
theorem fAdd_cancel {a : FVal} {r : Rat} (val : a.rat = some r) {sum k : Int} (zero : r + sum * 2 ^ k = 0) :
    fAdd 0 a (.fin (decide (sum < 0)) sum.natAbs k) = .fin false 0 0 := by
  have unit : (0 : Rat) < 2 ^ k := by positivity
  rw [fAdd_zero val (rat_natAbs sum k) zero]
  by_cases neg : sum < 0
  · have cast : (sum : Rat) < 0 := by exact_mod_cast neg
    have pos : 0 < r := by rw [eq_neg_of_add_eq_zero_left zero]; exact neg_pos.2 (mul_neg_of_neg_of_pos cast unit)
    rw [signNeg_of_rat_pos val pos, Bool.false_and]
  · rw [FVal.signNeg, decide_eq_false neg, Bool.and_false]

end Sys2Proof.Machine
end

section
namespace Sys2Proof
open Sys2Proof.Machine

/-- Settles O37: NaNs and infinities decide first (`matrixStep_nan`, `matrixStep_inf`); finite products are summed in the units of their greatest exponent (`maxExp_eq_some`, `foldl_truncUnits`), and the sum is exact before its one rounding (`rat_fAdd`), where it cancels the accumulator +0 (`fAdd_cancel`). -/
theorem matrixStepRounding : Obligations.MatrixStepRounding := by
  refine ⟨fun acc ps small => ⟨matrixStep_nan, fun num nums n inf => matrixStep_inf num nums inf, fun qs values => ⟨fun zero num => matrixStep_of_zero values num zero, ?finite⟩⟩, loopElem_succ⟩
  intro x reached bound
  have exp : maxExp ps = some x := maxExp_eq_some values (reached.imp fun q h => ⟨h.1, h.2.2⟩) bound
  refine ⟨?nonzero, ?zero, ?infinite⟩
  case nonzero =>
    intro r val ne
    obtain ⟨sum, total, step⟩ := matrixStep_of_maxExp values (ne_nan_of_rat val) exp
    unfold truncatedSum at total
    rw [← total] at ne ⊢
    exact ⟨_, rat_fAdd val (rat_natAbs sum _) ne, step⟩
  case zero =>
    intro r val zero
    obtain ⟨sum, total, step⟩ := matrixStep_of_maxExp values (ne_nan_of_rat val) exp
    unfold truncatedSum at total
    rw [← total] at zero
    rw [step, fAdd_cancel val zero]
    rfl
  case infinite =>
    intro n inf
    have num : fDecode fmtF32 acc ≠ .nan := by rw [inf]; exact FVal.noConfusion
    obtain ⟨sum, -, step⟩ := matrixStep_of_maxExp values num exp
    have same := fEncode_fDecode small num
    rw [inf] at same step
    exact step.trans same

end Sys2Proof
end

section
/-! SUPPORT. Rounding to a format (R174, R177, R178): the format's magnitudes as one rising sequence, extended above the largest finite one, and the place in it that a rounded value takes. -/
namespace Sys2Proof.Machine
open Sys2Proof

/-! ### The magnitudes of a format (R174) -/

/-- A format as R174 lays them out has at least two exponent bits and two fraction bits. -/
structure FFmt.Wide (f : FFmt) : Prop where
  exponent : 2 ≤ f.eb
  fraction : 2 ≤ f.fb

theorem wide_fmtOf (t : Ty) : (fmtOf t).Wide := by
  cases t <;> exact ⟨by decide, by decide⟩

/-- The exponent of the smallest subnormal, the spacing below the smallest normal value (R177). -/
def FFmt.lowExp (f : FFmt) : Int := 1 - f.bias - f.fb

/-- The magnitude of an encoding without its sign bit; above the largest finite one, the further values of R177 with an unbounded exponent. -/
def FFmt.magnitude (f : FFmt) (k : Nat) : Rat :=
  ((if k < 2 ^ f.fb then k else 2 ^ f.fb + k % 2 ^ f.fb : Nat) : Rat) * 2 ^ (f.lowExp + ((k / 2 ^ f.fb - 1 : Nat) : Int))

section
variable {f : FFmt}

/-- A significand of the format's precision in a spacing at least the lowest: a full one overflows into the next binade without a change of the formula. -/
theorem magnitude_eq {j n : Nat} (normal : j = 0 ∨ 2 ^ f.fb ≤ n) (le : n ≤ 2 ^ (f.fb + 1)) : f.magnitude (j * 2 ^ f.fb + n) = n * 2 ^ (f.lowExp + j) := by
  have pos := Nat.two_pow_pos f.fb
  rw [pow_succ] at le
  rw [FFmt.magnitude]
  generalize 2 ^ f.fb = p at *
  by_cases small : n < p
  · obtain rfl := normal.resolve_right (not_le.2 small)
    rw [Nat.zero_mul, Nat.zero_add, if_pos small, Nat.div_eq_of_lt small]
  obtain ⟨i, rfl⟩ := Nat.exists_eq_add_of_le (not_lt.1 small)
  have place : j * p + (p + i) = i + p * (j + 1) := by ring
  rw [place, if_neg (by rw [Nat.mul_succ]; omega), Nat.add_mul_mod_self_left, Nat.add_mul_div_left _ _ pos]
  by_cases full : i = p
  · subst full
    rw [Nat.mod_self, Nat.div_self pos, show 1 + (j + 1) - 1 = j + 1 by omega]
    push_cast
    rw [← add_assoc, zpow_add_one₀ two_ne_zero]
    ring
  · rw [Nat.mod_eq_of_lt (by omega), Nat.div_eq_of_lt (by omega), Nat.zero_add, Nat.add_sub_cancel]

/-- Every place lies in a binade, as a significand in its spacing. -/
theorem exists_binade (f : FFmt) (k : Nat) : ∃ j n, k = j * 2 ^ f.fb + n ∧ n < 2 ^ (f.fb + 1) ∧ (j = 0 ∨ 2 ^ f.fb ≤ n) := by
  rw [pow_succ]
  have pos := Nat.two_pow_pos f.fb
  generalize 2 ^ f.fb = p at *
  have parts := Nat.div_add_mod k p
  have rem := Nat.mod_lt k pos
  cases h : k / p with
  | zero => exact ⟨0, k, by omega, by rw [h] at parts; omega, .inl rfl⟩
  | succ j => exact ⟨j, p + k % p, by rw [h, Nat.mul_succ, Nat.mul_comm] at parts; omega, by omega, .inr (by omega)⟩

theorem magnitude_strictMono (f : FFmt) : StrictMono f.magnitude := by
  refine strictMono_nat_of_lt_succ fun k => ?_
  obtain ⟨j, n, rfl, lt, normal⟩ := exists_binade f k
  rw [add_assoc, magnitude_eq normal lt.le, magnitude_eq (normal.imp_right (Nat.le_succ_of_le)) lt]
  gcongr
  exact Nat.lt_succ_self n

theorem magnitude_zero (f : FFmt) : f.magnitude 0 = 0 := by
  rw [FFmt.magnitude, if_pos (Nat.two_pow_pos _), Nat.cast_zero, zero_mul]

theorem magnitude_nonneg (f : FFmt) (k : Nat) : 0 ≤ f.magnitude k :=
  magnitude_zero f ▸ (magnitude_strictMono f).monotone (Nat.zero_le k)

end

/-! ### Which of two neighbours a magnitude rounds to (R177) -/

/-- A magnitude x rounds past lo, to hi or beyond it, where lo and hi are neighbours and odd says whether lo's fraction is odd. -/
def RoundsPast (mode : RMode) (neg : Bool) (x lo hi : Rat) (odd : Bool) : Prop :=
  match mode with
  | 0 => lo + hi < 2 * x ∨ (lo + hi = 2 * x ∧ odd = true)
  | 1 => hi ≤ x
  | 2 => if neg then hi ≤ x else lo < x
  | _ => if neg then lo < x else hi ≤ x

section
variable {mode : RMode} {neg odd : Bool} {x lo hi : Rat}

theorem roundsPast_of_le (lt : lo < hi) (le : hi ≤ x) : RoundsPast mode neg x lo hi odd := by
  rcases mode with _ | _ | _ | mode
  · exact .inl (by linarith)
  · exact le
  · cases neg
    · exact lt.trans_le le
    · exact le
  · cases neg
    · exact le
    · exact lt.trans_le le

theorem lt_of_roundsPast (lt : lo < hi) (past : RoundsPast mode neg x lo hi odd) : lo < x := by
  rcases mode with _ | _ | _ | mode
  · rcases past with past | ⟨past, -⟩ <;> linarith
  · exact lt.trans_le past
  · cases neg
    · exact past
    · exact lt.trans_le past
  · cases neg
    · exact lt.trans_le past
    · exact past

theorem roundsPast_mul {c : Rat} (pos : 0 < c) : RoundsPast mode neg (x * c) (lo * c) (hi * c) odd ↔ RoundsPast mode neg x lo hi odd := by
  have lt (a b : Rat) : a * c < b * c ↔ a < b := mul_lt_mul_iff_left₀ pos
  have le (a b : Rat) : a * c ≤ b * c ↔ a ≤ b := mul_le_mul_iff_left₀ pos
  have eq (a b : Rat) : a * c = b * c ↔ a = b := mul_left_inj' pos.ne'
  rcases mode with _ | _ | _ | mode <;> simp only [RoundsPast, ← add_mul, ← mul_assoc, lt, le, eq]

/-- An integer rounds past exactly the integers below it. -/
theorem roundsPast_natCast (n i : Nat) : RoundsPast mode neg n i ((i + 1 : Nat) : Rat) odd ↔ i < n := by
  have lt : (i : Rat) < ((i + 1 : Nat) : Rat) := by exact_mod_cast Nat.lt_succ_self i
  exact ⟨fun past => by exact_mod_cast lt_of_roundsPast lt past, fun h => roundsPast_of_le lt (by exact_mod_cast h)⟩

end

/-! ### Rounding to an integer number of units (R177) -/

/-- The tests of `roundsUp` on a remainder say whether the magnitude rounds past the integer below it. -/
theorem roundsUp_iff {mode : RMode} {neg : Bool} {n rem half : Nat} (pos : 0 < half) (lt : rem < 2 * half) :
    roundsUp mode neg n rem half false = true ↔
      RoundsPast mode neg ((n * (2 * half) + rem : Nat) : Rat) ((n * (2 * half) : Nat) : Rat) (((n + 1) * (2 * half) : Nat) : Rat) (decide (n % 2 = 1)) := by
  rw [add_mul n 1, one_mul]
  generalize n * (2 * half) = low
  have toward : ¬ ((low + 2 * half : Nat) : Rat) ≤ ((low + rem : Nat) : Rat) := by
    norm_cast
    omega
  rcases mode with _ | _ | _ | mode
  · have ne : half ≠ 0 := pos.ne'
    simp only [roundsUp, RoundsPast, Bool.or_eq_true, Bool.and_eq_true, decide_eq_true_eq, beq_iff_eq, bne_iff_ne, Bool.false_or]
    norm_cast
    omega
  · exact iff_of_false Bool.false_ne_true toward
  · cases neg
    · simp [roundsUp, RoundsPast, Nat.pos_iff_ne_zero]
    · simpa [roundsUp, RoundsPast] using toward
  · cases neg
    · simpa [roundsUp, RoundsPast] using toward
    · simp [roundsUp, RoundsPast, Nat.pos_iff_ne_zero]

/-- The rounded significand lies above exactly those integers that the exact magnitude rounds past. -/
theorem lt_roundUnits_iff {mode : RMode} {neg : Bool} {m i : Nat} {e q : Int} : i < roundUnits mode neg m e q false ↔
    RoundsPast mode neg (m * 2 ^ (e - q)) i ((i + 1 : Nat) : Rat) (decide (i % 2 = 1)) := by
  rw [roundUnits]
  split
  next le =>
    have whole : (m : Rat) * 2 ^ (e - q) = ((m * 2 ^ (e - q).toNat : Nat) : Rat) := by
      push_cast
      rw [← zpow_natCast, Int.toNat_of_nonneg (by omega)]
    rw [whole, roundsPast_natCast]
  next gt =>
    obtain ⟨h, shift⟩ : ∃ h, (q - e).toNat = h + 1 := ⟨(q - e).toNat - 1, by omega⟩
    have pos : 0 < 2 ^ h := Nat.two_pow_pos h
    have units : (m : Rat) * 2 ^ (e - q) * ((2 * 2 ^ h : Nat) : Rat) = (m : Rat) := by
      have inverse : (2 : Rat) ^ (e - q) * 2 ^ (h + 1) = 1 := by
        rw [← zpow_natCast, ← zpow_add₀ two_ne_zero, ← shift, Int.toNat_of_nonneg (by omega), sub_add_sub_cancel, sub_self, zpow_zero]
      rw [mul_assoc, ← pow_succ', Nat.cast_pow, Nat.cast_ofNat, inverse, mul_one]
    rw [← roundsPast_mul (c := ((2 * 2 ^ h : Nat) : Rat)) (by exact_mod_cast (by omega : 0 < 2 * 2 ^ h)), units, shift, ← Nat.cast_mul, ← Nat.cast_mul]
    dsimp only
    rw [pow_succ', Nat.add_sub_cancel]
    generalize 2 ^ h = half at *
    have parts := Nat.div_add_mod' m (2 * half)
    have rem : m % (2 * half) < 2 * half := Nat.mod_lt m (by omega)
    have step : ((i * (2 * half) : Nat) : Rat) < (((i + 1) * (2 * half) : Nat) : Rat) := by exact_mod_cast Nat.mul_lt_mul_of_pos_right (Nat.lt_succ_self i) (by omega)
    rcases lt_trichotomy i (m / (2 * half)) with below | rfl | above
    · have le : (i + 1) * (2 * half) ≤ m := (Nat.mul_le_mul_right _ below).trans (by omega)
      exact iff_of_true (by split <;> omega) (roundsPast_of_le step (by exact_mod_cast le))
    · have up := roundsUp_iff (mode := mode) (neg := neg) (n := m / (2 * half)) pos rem
      rw [parts] at up
      rw [← up]
      split <;> simp_all
    · have le : m < i * (2 * half) := lt_of_lt_of_le (by rw [Nat.succ_mul (m / (2 * half))]; omega) (Nat.mul_le_mul_right _ above)
      refine iff_of_false (by split <;> omega) fun past => ?_
      exact absurd (lt_of_roundsPast step past) (not_lt.2 (by exact_mod_cast le.le))

end Sys2Proof.Machine
end

section
/-! SUPPORT. `fRound` and `fDecode` on the magnitudes of a format (R174, R177, R178). -/
namespace Sys2Proof.Machine
open Sys2Proof

section
variable {f : FFmt} {mode : RMode} {sat neg : Bool} {m : Nat} {e : Int}

/-! ### The place that a rounded value takes (R177) -/

/-- The exponent of the spacing in which m × 2^e is rounded. -/
def FFmt.unitExp (f : FFmt) (m : Nat) (e : Int) : Int := max ((Nat.log2 m : Int) + e - f.fb) f.lowExp

/-- The place of the rounded m × 2^e among the format's magnitudes. -/
def FFmt.roundedPlace (f : FFmt) (mode : RMode) (neg : Bool) (m : Nat) (e : Int) : Nat :=
  if m = 0 then 0 else (f.unitExp m e - f.lowExp).toNat * 2 ^ f.fb + roundUnits mode neg m e (f.unitExp m e) false

/-- In its spacing a magnitude has the format's precision, and no more. -/
theorem unitExp_bounds (pos : m ≠ 0) :
    (m : Rat) * 2 ^ (e - f.unitExp m e) < ((2 ^ (f.fb + 1) : Nat) : Rat) ∧ (f.unitExp m e = f.lowExp ∨ ((2 ^ f.fb : Nat) : Rat) ≤ m * 2 ^ (e - f.unitExp m e)) := by
  obtain ⟨low, high⟩ := zpow_log2_bounds pos (e - f.unitExp m e)
  rw [Nat.cast_pow, Nat.cast_pow, Nat.cast_ofNat, ← zpow_natCast, ← zpow_natCast]
  constructor
  · refine high.trans_le (zpow_le_zpow_right₀ one_le_two ?_)
    rw [FFmt.unitExp]
    omega
  · refine (max_choice ((Nat.log2 m : Int) + e - f.fb) f.lowExp).symm.imp id fun above => ?_
    refine le_trans (zpow_le_zpow_right₀ one_le_two ?_) low
    rw [FFmt.unitExp, above]
    omega

theorem roundUnits_bounds (pos : m ≠ 0) : roundUnits mode neg m e (f.unitExp m e) false ≤ 2 ^ (f.fb + 1) ∧
    (f.unitExp m e = f.lowExp ∨ 2 ^ f.fb ≤ roundUnits mode neg m e (f.unitExp m e) false) := by
  obtain ⟨below, normal⟩ := unitExp_bounds (f := f) (e := e) pos
  constructor
  · refine not_lt.1 fun lt => ?_
    exact absurd (lt_of_roundsPast (by exact_mod_cast Nat.lt_succ_self _) (lt_roundUnits_iff.1 lt)) below.not_gt
  · refine normal.imp_right fun le => ?_
    have pow := Nat.two_pow_pos f.fb
    obtain ⟨n, hn⟩ : ∃ n, 2 ^ f.fb = n + 1 := ⟨2 ^ f.fb - 1, by omega⟩
    rw [hn] at le ⊢
    exact lt_roundUnits_iff.2 (roundsPast_of_le (by exact_mod_cast Nat.lt_succ_self n) le)

/-- A place k is the rounded one as soon as x rounds past the magnitude below it and not past its own. -/
theorem lt_place_iff {x : Rat} {k : Nat} (odd : Nat → Bool)
    (below : ∀ i, k = i + 1 → RoundsPast mode neg x (f.magnitude i) (f.magnitude (i + 1)) (odd i))
    (above : ¬ RoundsPast mode neg x (f.magnitude k) (f.magnitude (k + 1)) (odd k)) (i : Nat) :
    i < k ↔ RoundsPast mode neg x (f.magnitude i) (f.magnitude (i + 1)) (odd i) := by
  have rising := magnitude_strictMono f
  constructor
  · intro lt
    obtain ⟨j, rfl⟩ := Nat.exists_eq_succ_of_ne_zero (Nat.ne_of_gt (Nat.zero_lt_of_lt lt))
    rcases (Nat.lt_succ_iff.1 lt).eq_or_lt with rfl | lt
    · exact below i rfl
    · exact roundsPast_of_le (rising i.lt_succ_self) ((rising.monotone lt).trans (lt_of_roundsPast (rising j.lt_succ_self) (below j rfl)).le)
  · intro past
    by_contra ge
    rcases (not_lt.1 ge).eq_or_lt with rfl | lt
    · exact above past
    · exact above (roundsPast_of_le (rising k.lt_succ_self) ((rising.monotone lt).trans (lt_of_roundsPast (rising i.lt_succ_self) past).le))

theorem decide_odd_add {f : FFmt} (wide : f.Wide) (j n : Nat) : decide ((j * 2 ^ f.fb + n) % 2 = 1) = decide (n % 2 = 1) := by
  have even : 2 ∣ j * 2 ^ f.fb := (dvd_pow_self 2 (by have := wide.fraction; omega)).mul_left j
  rw [Nat.add_mod, Nat.mod_eq_zero_of_dvd even, Nat.zero_add, Nat.mod_mod]

/-- Where the significand n is the rounded y, the place of n in the spacing 2^j times the lowest is the rounded place of y in that spacing. -/
theorem lt_binade_iff (wide : f.Wide) {y : Rat} {j n : Nat} (units : ∀ i, i < n ↔ RoundsPast mode neg y i ((i + 1 : Nat) : Rat) (decide (i % 2 = 1)))
    (below : y < ((2 ^ (f.fb + 1) : Nat) : Rat)) (normal : j = 0 ∨ ((2 ^ f.fb : Nat) : Rat) ≤ y) (le : n ≤ 2 ^ (f.fb + 1)) (full : j = 0 ∨ 2 ^ f.fb ≤ n) (i : Nat) :
    i < j * 2 ^ f.fb + n ↔ RoundsPast mode neg (y * 2 ^ (f.lowExp + j)) (f.magnitude i) (f.magnitude (i + 1)) (decide (i % 2 = 1)) := by
  have rising := magnitude_strictMono f
  have pos : (0 : Rat) < 2 ^ (f.lowExp + j) := by positivity
  refine lt_place_iff (fun i => decide (i % 2 = 1)) (fun k hk => ?below) ?above i
  case below =>
    by_cases least : n = 2 ^ f.fb ∧ j ≠ 0
    · refine roundsPast_of_le (rising k.lt_succ_self) ?_
      rw [← hk, magnitude_eq full le, least.1]
      exact mul_le_mul_of_nonneg_right (normal.resolve_left least.2) pos.le
    · obtain ⟨n, rfl⟩ : ∃ i, n = i + 1 := Nat.exists_eq_succ_of_ne_zero (by
        have := Nat.two_pow_pos f.fb
        rcases full with rfl | full <;> omega)
      obtain rfl : k = j * 2 ^ f.fb + n := by omega
      rw [add_assoc, magnitude_eq (by omega) (by omega), magnitude_eq full le, roundsPast_mul pos, decide_odd_add wide]
      exact (units n).1 n.lt_succ_self
  case above =>
    rcases le.eq_or_lt with top | lt
    · refine fun past => absurd (lt_of_roundsPast (rising (Nat.lt_succ_self _)) past) (not_lt.2 ?_)
      rw [magnitude_eq full le, top]
      exact mul_le_mul_of_nonneg_right below.le pos.le
    · rw [add_assoc, magnitude_eq full le, magnitude_eq (full.imp_right Nat.le_succ_of_le) lt, roundsPast_mul pos, decide_odd_add wide]
      exact fun past => absurd ((units n).2 past) (lt_irrefl n)

theorem exists_unitExp_eq (f : FFmt) (m : Nat) (e : Int) : ∃ j : Nat, f.unitExp m e = f.lowExp + j :=
  ⟨(f.unitExp m e - f.lowExp).toNat, by rw [FFmt.unitExp]; omega⟩

/-- R177: the place of the rounded value lies above exactly those magnitudes that the exact one rounds past. -/
theorem lt_roundedPlace_iff (wide : f.Wide) (i : Nat) : i < f.roundedPlace mode neg m e ↔
    RoundsPast mode neg (m * 2 ^ e) (f.magnitude i) (f.magnitude (i + 1)) (decide (i % 2 = 1)) := by
  by_cases zero : m = 0
  · subst zero
    rw [FFmt.roundedPlace, if_pos rfl, Nat.cast_zero, zero_mul]
    refine iff_of_false (Nat.not_lt_zero i) fun past => ?_
    exact absurd (lt_of_roundsPast (magnitude_strictMono f i.lt_succ_self) past) (magnitude_nonneg f i).not_gt
  obtain ⟨below, normal⟩ := unitExp_bounds (f := f) (e := e) zero
  obtain ⟨le, full⟩ := roundUnits_bounds (f := f) (mode := mode) (neg := neg) (e := e) zero
  obtain ⟨j, unit⟩ := exists_unitExp_eq f m e
  have scale : (m : Rat) * 2 ^ e = m * 2 ^ (e - f.unitExp m e) * 2 ^ (f.lowExp + j) := by
    rw [mul_assoc, ← zpow_add₀ two_ne_zero, unit, sub_add_cancel]
  rw [FFmt.roundedPlace, if_neg zero, scale, show (f.unitExp m e - f.lowExp).toNat = j by omega]
  exact lt_binade_iff wide (fun _ => lt_roundUnits_iff) below (normal.imp_left fun h => by omega) le (full.imp_left fun h => by omega) i

/-! ### The encoding written (R178) -/

theorem fMax_eq (f : FFmt) (neg : Bool) : fMax f neg = signBit f neg + fMax f false := by
  rw [fMax, fMax, signBit, signBit, if_neg Bool.false_ne_true, Nat.zero_add]

/-- The test of `fRound` on an exponent and a fraction says whether their place lies above the largest finite one. -/
theorem overflows_iff (wide : f.Wide) {ex frac : Nat} (lt : frac < 2 ^ f.fb) :
    (ex > 2 ^ f.eb - 1 ∨ (ex = 2 ^ f.eb - 1 ∧ ¬ f.noInf) ∨ (f.noInf ∧ ex = 2 ^ f.eb - 1 ∧ 2 ^ f.fb + frac = 2 ^ (f.fb + 1) - 1)) ↔ fMax f false < ex * 2 ^ f.fb + frac := by
  rw [fMax, signBit, if_neg Bool.false_ne_true, Nat.zero_add, pow_succ, pow_add]
  have exps : 2 ^ 2 ≤ 2 ^ f.eb := Nat.pow_le_pow_right (by omega) wide.exponent
  have fracs : 2 ^ 2 ≤ 2 ^ f.fb := Nat.pow_le_pow_right (by omega) wide.fraction
  generalize 2 ^ f.fb = p at *
  obtain ⟨d, hd⟩ : ∃ d, 2 ^ f.eb = d + 1 := ⟨2 ^ f.eb - 1, by omega⟩
  rw [hd, Nat.add_sub_cancel, Nat.succ_mul]
  have pos : p ≤ d * p := Nat.le_mul_of_pos_left p (by omega)
  rcases lt_trichotomy ex d with below | rfl | above
  · have le : ex * p + p ≤ d * p := Nat.succ_mul ex p ▸ Nat.mul_le_mul_right p below
    split <;> omega
  · split
    next noInf =>
      rw [or_iff_right (lt_irrefl ex), or_iff_right fun h => h.2 noInf, and_iff_right noInf, and_iff_right rfl]
      generalize ex * p = w at *
      omega
    next hasInf =>
      refine iff_of_true (.inr (.inl ⟨rfl, hasInf⟩)) ?_
      omega
  · have le : d * p + p ≤ ex * p := Nat.succ_mul d p ▸ Nat.mul_le_mul_right p above
    split <;> omega

theorem subnormal_le_fMax (wide : f.Wide) {n : Nat} (small : n < 2 ^ f.fb) : n ≤ fMax f false := by
  have below := (overflows_iff (ex := 0) wide small).not.1 (by
    have := Nat.pow_le_pow_right two_pos wide.exponent
    omega)
  rwa [Nat.zero_mul, Nat.zero_add, not_lt] at below

/-- The encoding of an exponent of at least 1 and a full significand, as `fRound` forms it. -/
theorem finish_eq (wide : f.Wide) {q : Int} {j n : Nat} (unit : q = f.lowExp + j) (full : 2 ^ f.fb ≤ n) (lt : n < 2 ^ (f.fb + 1)) :
    (let ex := (q + f.fb + f.bias).toNat
      if ex > 2 ^ f.eb - 1 ∨ (ex = 2 ^ f.eb - 1 ∧ ¬ f.noInf) ∨ (f.noInf ∧ ex = 2 ^ f.eb - 1 ∧ n = 2 ^ (f.fb + 1) - 1) then
        overflowTo f mode sat neg
      else signBit f neg + ex * 2 ^ f.fb + (n - 2 ^ f.fb)) =
    if j * 2 ^ f.fb + n ≤ fMax f false then signBit f neg + (j * 2 ^ f.fb + n) else overflowTo f mode sat neg := by
  obtain ⟨frac, rfl⟩ := Nat.exists_eq_add_of_le full
  have ex : (q + f.fb + f.bias).toNat = j + 1 := by
    rw [unit, FFmt.lowExp]
    omega
  have place : j * 2 ^ f.fb + (2 ^ f.fb + frac) = (j + 1) * 2 ^ f.fb + frac := by ring
  dsimp only
  simp only [ex, overflows_iff wide (show frac < 2 ^ f.fb by rw [pow_succ] at lt; omega), place, Nat.add_sub_cancel_left]
  split
  next above => rw [if_neg above.not_ge]
  next le => rw [if_pos (not_lt.1 le), Nat.add_assoc]

/-- Rounding writes the rounded place with the sign where it is finite, and else what an overflow gives. -/
theorem fRound_eq (wide : f.Wide) : fRound f mode sat neg m e false =
    if f.roundedPlace mode neg m e ≤ fMax f false then signBit f neg + f.roundedPlace mode neg m e else overflowTo f mode sat neg := by
  by_cases zero : m = 0
  · rw [fRound, if_pos ⟨zero, Bool.false_ne_true⟩, FFmt.roundedPlace, if_pos zero, if_pos (Nat.zero_le _), Nat.add_zero]
  obtain ⟨le, full⟩ := roundUnits_bounds (f := f) (mode := mode) (neg := neg) (e := e) zero
  obtain ⟨j, unit⟩ := exists_unitExp_eq f m e
  rw [fRound, if_neg fun h => zero h.1, FFmt.roundedPlace, if_neg zero, show (f.unitExp m e - f.lowExp).toNat = j by omega]
  have unit_eq : max ((Nat.log2 m : Int) + e - f.fb) (1 - f.bias - f.fb) = f.unitExp m e := rfl
  dsimp only
  rw [unit_eq]
  generalize roundUnits mode neg m e (f.unitExp m e) false = n at *
  by_cases carry : n = 2 ^ (f.fb + 1)
  · simp only [if_pos carry, if_neg (lt_irrefl (2 ^ f.fb))]
    have place : j * 2 ^ f.fb + n = (j + 1) * 2 ^ f.fb + 2 ^ f.fb := by rw [carry]; ring
    rw [place]
    exact finish_eq wide (by rw [unit]; push_cast; ring) le_rfl (Nat.pow_lt_pow_right one_lt_two f.fb.lt_succ_self)
  · simp only [if_neg carry]
    by_cases small : n < 2 ^ f.fb
    · obtain rfl : j = 0 := by
        have := full.resolve_right (not_le.2 small)
        omega
      rw [if_pos small, Nat.zero_mul, Nat.zero_add, if_pos (subnormal_le_fMax wide small)]
    · rw [if_neg small]
      exact finish_eq wide unit (not_lt.1 small) (lt_of_le_of_ne le carry)

/-! ### The values of encodings (R174) -/

/-- The value of an exponent and a fraction, as `fDecode` forms it, is the magnitude at their place. -/
theorem value_eq (f : FFmt) (neg : Bool) {ex m : Nat} (lt : m < 2 ^ f.fb) :
    ∃ n e, (if ex = 0 then FVal.fin neg m (1 - f.bias - f.fb) else .fin neg (2 ^ f.fb + m) ((ex : Int) - f.bias - f.fb)) = .fin neg n e ∧
      (n : Rat) * 2 ^ e = f.magnitude (ex * 2 ^ f.fb + m) := by
  cases ex with
  | zero =>
    refine ⟨m, _, if_pos rfl, ?_⟩
    rw [magnitude_eq (.inl rfl) (by rw [pow_succ]; omega), FFmt.lowExp, Nat.cast_zero, add_zero]
  | succ j =>
    refine ⟨2 ^ f.fb + m, _, if_neg (Nat.succ_ne_zero j), ?_⟩
    rw [Nat.succ_mul, Nat.add_assoc, magnitude_eq (.inr (Nat.le_add_right _ _)) (by rw [pow_succ]; omega), FFmt.lowExp]
    congr 2
    push_cast
    ring

/-- The sign and the magnitude of an encoding make up its value, where it is finite. -/
theorem fDecode_eq (wide : f.Wide) (y : Nat) :
    (fMax f false < y % 2 ^ (f.eb + f.fb) ∧ (fDecode f y).rat = none) ∨
    (y % 2 ^ (f.eb + f.fb) ≤ fMax f false ∧ ∃ m e, fDecode f y = .fin (y.testBit (f.eb + f.fb)) m e ∧ (m : Rat) * 2 ^ e = f.magnitude (y % 2 ^ (f.eb + f.fb))) := by
  have parts : y % 2 ^ (f.eb + f.fb) = field y f.fb f.eb * 2 ^ f.fb + field y 0 f.fb := by
    rw [field, field, pow_zero, Nat.div_one, Nat.add_comm f.eb, pow_add, Nat.mod_mul, Nat.add_comm, Nat.mul_comm]
  have frac : field y 0 f.fb < 2 ^ f.fb := Nat.mod_lt _ (Nat.two_pow_pos _)
  have exp : field y f.fb f.eb < 2 ^ f.eb := Nat.mod_lt _ (Nat.two_pow_pos _)
  have above := overflows_iff wide (ex := field y f.fb f.eb) frac
  have value := value_eq f (y.testBit (f.eb + f.fb)) (ex := field y f.fb f.eb) frac
  rw [parts, fDecode, ← above, ← not_lt, ← above]
  clear above
  generalize field y f.fb f.eb = ex at *
  generalize field y 0 f.fb = m at *
  rw [pow_succ]
  by_cases noInf : f.noInf = true
  · rw [if_pos noInf]
    by_cases nan : ex = 2 ^ f.eb - 1 ∧ m = 2 ^ f.fb - 1
    · rw [if_pos nan]
      exact .inl ⟨.inr (.inr ⟨noInf, nan.1, by omega⟩), rfl⟩
    · rw [if_neg nan]
      exact .inr ⟨by rintro (high | ⟨-, hasInf⟩ | ⟨-, top, full⟩); exacts [by omega, hasInf noInf, nan ⟨top, by omega⟩], value⟩
  · rw [if_neg noInf]
    by_cases top : ex = 2 ^ f.eb - 1
    · rw [if_pos top]
      refine .inl ⟨.inr (.inl ⟨top, noInf⟩), ?_⟩
      split <;> rfl
    · rw [if_neg top]
      exact .inr ⟨by rintro (high | ⟨max, -⟩ | ⟨hasNone, -⟩); exacts [by omega, top max, noInf hasNone], value⟩

theorem fMax_lt (f : FFmt) : fMax f false < 2 ^ (f.eb + f.fb) := by
  have exp := Nat.two_pow_pos f.eb
  have frac := Nat.two_pow_pos f.fb
  have pos := Nat.mul_pos exp frac
  rw [fMax, signBit, if_neg Bool.false_ne_true, Nat.zero_add, pow_add, Nat.sub_mul, Nat.one_mul]
  split <;> omega

theorem mod_signBit_add (f : FFmt) (neg : Bool) {k : Nat} (lt : k < 2 ^ (f.eb + f.fb)) : (signBit f neg + k) % 2 ^ (f.eb + f.fb) = k := by
  cases neg
  · rw [signBit, if_neg Bool.false_ne_true, Nat.zero_add, Nat.mod_eq_of_lt lt]
  · rw [signBit, if_pos rfl, Nat.add_mod_left, Nat.mod_eq_of_lt lt]

theorem testBit_signBit_add (f : FFmt) (neg : Bool) {k : Nat} (lt : k < 2 ^ (f.eb + f.fb)) : (signBit f neg + k).testBit (f.eb + f.fb) = neg := by
  cases neg
  · rw [signBit, if_neg Bool.false_ne_true, Nat.zero_add, Nat.testBit_lt_two_pow lt]
  · rw [signBit, if_pos rfl, Nat.testBit_two_pow_add_eq, Nat.testBit_lt_two_pow lt, Bool.not_false]

/-- An encoding of the format's width is its place with its sign. -/
theorem eq_signBit_add {y : Nat} (lt : y < 2 ^ (f.eb + f.fb + 1)) : y = signBit f (y.testBit (f.eb + f.fb)) + y % 2 ^ (f.eb + f.fb) := by
  rw [pow_succ] at lt
  rw [signBit, Nat.testBit_eq_decide_div_mod_eq]
  have parts := Nat.div_add_mod y (2 ^ (f.eb + f.fb))
  have div : y / 2 ^ (f.eb + f.fb) < 2 := Nat.div_lt_of_lt_mul lt
  rcases Nat.lt_succ_iff_lt_or_eq.1 div with h | h
  · rw [Nat.lt_one_iff.1 h] at parts ⊢
    simpa using parts.symm
  · rw [h] at parts ⊢
    simpa using parts.symm

/-- A finite place with a sign is the encoding of its magnitude with that sign. -/
theorem rat_signBit_add (wide : f.Wide) (neg : Bool) {k : Nat} (le : k ≤ fMax f false) :
    (fDecode f (signBit f neg + k)).rat = some ((if neg then -1 else 1) * f.magnitude k) := by
  have lt := le.trans_lt (fMax_lt f)
  rcases fDecode_eq wide (signBit f neg + k) with ⟨above, -⟩ | ⟨-, m, e, value, mag⟩
  · rw [mod_signBit_add f neg lt] at above
    exact absurd le above.not_ge
  · rw [mod_signBit_add f neg lt] at mag
    rw [value, testBit_signBit_add f neg lt, FVal.rat, mul_assoc, mag]

/-- A place above the largest finite one has no rational value. -/
theorem rat_signBit_add_above (wide : f.Wide) (neg : Bool) {k : Nat} (above : fMax f false < k) (lt : k < 2 ^ (f.eb + f.fb)) :
    (fDecode f (signBit f neg + k)).rat = none := by
  rcases fDecode_eq wide (signBit f neg + k) with ⟨-, none⟩ | ⟨le, -⟩
  · exact none
  · rw [mod_signBit_add f neg lt] at le
    exact absurd le above.not_ge

/-- The magnitude of a finite encoding is one of the format's magnitudes up to the largest. -/
theorem abs_finite (wide : f.Wide) {y : Nat} {p : Rat} (h : (fDecode f y).rat = some p) : ∃ i ≤ fMax f false, |p| = f.magnitude i := by
  rcases fDecode_eq wide y with ⟨-, none⟩ | ⟨le, m, e, value, mag⟩
  · rw [none] at h
    cases h
  · rw [value] at h
    exact ⟨_, le, (abs_rat_fin h).trans mag⟩

theorem signBit_false (f : FFmt) : signBit f false = 0 := rfl

theorem rat_fInf (wide : f.Wide) (inf : ¬ f.noInf = true) (neg : Bool) : (fDecode f (fInf f neg)).rat = none := by
  have exp := Nat.two_pow_pos f.eb
  have frac := Nat.two_pow_pos f.fb
  refine rat_signBit_add_above wide neg ?_ ?_
  · have finite := (overflows_iff wide (ex := 2 ^ f.eb - 1) (Nat.two_pow_pos f.fb)).1 (.inr (.inl ⟨rfl, inf⟩))
    exact finite
  · rw [pow_add]
    exact Nat.mul_lt_mul_of_pos_right (by omega) frac

theorem rat_fNan (wide : f.Wide) (noInf : f.noInf = true) : (fDecode f (fNan f)).rat = none := by
  rw [fNan, if_pos noInf]
  have pos := Nat.two_pow_pos (f.eb + f.fb)
  have four : 2 ^ 2 ≤ 2 ^ (f.eb + f.fb) := Nat.pow_le_pow_right two_pos (wide.exponent.trans (Nat.le_add_right _ _))
  have above := rat_signBit_add_above wide false (k := 2 ^ (f.eb + f.fb) - 1) (by rw [fMax, signBit_false, if_pos noInf]; omega) (by omega)
  rwa [signBit_false, Nat.zero_add] at above

theorem overflowTo_sat (f : FFmt) (mode : RMode) (neg : Bool) : overflowTo f mode true neg = fMax f neg := rfl

theorem overflowTo_noInf (noInf : f.noInf = true) : overflowTo f mode false neg = fNan f := by
  unfold overflowTo
  rw [if_neg Bool.false_ne_true, if_pos noInf]

/-- Where the format has an infinity, an overflow without saturation gives it to nearest and in the mode that rounds away from zero (R178). -/
theorem overflowTo_inf (inf : ¬ f.noInf = true) :
    overflowTo f mode false neg = if mode = 0 ∨ (mode = 2 ∧ neg = false) ∨ (2 < mode ∧ neg = true) then fInf f neg else fMax f neg := by
  unfold overflowTo
  rw [if_neg Bool.false_ne_true, if_neg inf]
  rcases mode with _ | _ | _ | mode <;> cases neg <;> simp

/-- An overflow is finite only where it gives the largest finite value, and without saturation only in a mode that does not round away from zero. -/
theorem overflowTo_finite (wide : f.Wide) {r : Rat} (h : (fDecode f (overflowTo f mode sat neg)).rat = some r) :
    overflowTo f mode sat neg = signBit f neg + fMax f false ∧ (sat = false → ¬ (mode = 2 ∧ neg = false ∨ mode = 3 ∧ neg = true)) := by
  rw [← fMax_eq]
  cases sat with
  | true => exact ⟨overflowTo_sat f mode neg, fun h => by cases h⟩
  | false =>
    by_cases noInf : f.noInf = true
    · rw [overflowTo_noInf noInf, rat_fNan wide noInf] at h
      cases h
    · rw [overflowTo_inf noInf] at h ⊢
      split at h
      · rw [rat_fInf wide noInf] at h
        cases h
      next away =>
        refine ⟨if_neg away, ?_⟩
        rintro - (up | ⟨rfl, down⟩)
        · exact away (.inr (.inl up))
        · exact away (.inr (.inr ⟨Nat.lt_succ_self 2, down⟩))

/-! ### The neighbour that each mode takes (R177) -/

theorem roundedPlace_toward (wide : f.Wide) (toward : mode = 1 ∨ mode = 2 ∧ neg = true ∨ mode = 3 ∧ neg = false) :
    f.magnitude (f.roundedPlace mode neg m e) ≤ m * 2 ^ e ∧ (m : Rat) * 2 ^ e < f.magnitude (f.roundedPlace mode neg m e + 1) := by
  have place (i : Nat) : i < f.roundedPlace mode neg m e ↔ f.magnitude (i + 1) ≤ m * 2 ^ e := by
    rw [lt_roundedPlace_iff wide]
    rcases toward with rfl | ⟨rfl, rfl⟩ | ⟨rfl, rfl⟩ <;> rfl
  generalize f.roundedPlace mode neg m e = k at *
  refine ⟨?_, not_le.1 ((place k).not.1 (lt_irrefl k))⟩
  cases k with
  | zero => rw [magnitude_zero]; positivity
  | succ k => exact (place k).1 k.lt_succ_self

theorem roundedPlace_away (wide : f.Wide) (away : mode = 2 ∧ neg = false ∨ mode = 3 ∧ neg = true) :
    (m : Rat) * 2 ^ e ≤ f.magnitude (f.roundedPlace mode neg m e) ∧ ∀ i < f.roundedPlace mode neg m e, f.magnitude i < m * 2 ^ e := by
  have place (i : Nat) : i < f.roundedPlace mode neg m e ↔ f.magnitude i < m * 2 ^ e := by
    rw [lt_roundedPlace_iff wide]
    rcases away with ⟨rfl, rfl⟩ | ⟨rfl, rfl⟩ <;> rfl
  exact ⟨not_lt.1 ((place _).not.1 (lt_irrefl _)), fun i => (place i).1⟩

/-- To nearest, the exact magnitude lies on the rounded one's side of the midpoint with each lower magnitude, and at the midpoint the rounded place is even. -/
theorem roundedPlace_nearest_below (wide : f.Wide) {i : Nat} (below : i < f.roundedPlace 0 neg m e) :
    f.magnitude i + f.magnitude (f.roundedPlace 0 neg m e) ≤ 2 * (m * 2 ^ e) ∧
    (f.magnitude i + f.magnitude (f.roundedPlace 0 neg m e) = 2 * (m * 2 ^ e) → f.roundedPlace 0 neg m e % 2 = 0) := by
  have place (i : Nat) := lt_roundedPlace_iff (mode := 0) (neg := neg) (m := m) (e := e) wide i
  generalize f.roundedPlace 0 neg m e = k at *
  obtain ⟨j, rfl⟩ := Nat.exists_eq_succ_of_ne_zero (Nat.ne_of_gt (Nat.zero_lt_of_lt below))
  have le := (magnitude_strictMono f).monotone (Nat.lt_succ_iff.1 below)
  rcases (place j).1 j.lt_succ_self with past | ⟨tie, odd⟩
  · exact ⟨by linarith, fun eq => by linarith⟩
  · have odd := of_decide_eq_true odd
    exact ⟨by linarith, fun _ => by omega⟩

theorem roundedPlace_nearest_above (wide : f.Wide) {i : Nat} (above : f.roundedPlace 0 neg m e < i) :
    2 * ((m : Rat) * 2 ^ e) ≤ f.magnitude i + f.magnitude (f.roundedPlace 0 neg m e) ∧
    (f.magnitude i + f.magnitude (f.roundedPlace 0 neg m e) = 2 * (m * 2 ^ e) → f.roundedPlace 0 neg m e % 2 = 0) := by
  have place (i : Nat) := lt_roundedPlace_iff (mode := 0) (neg := neg) (m := m) (e := e) wide i
  generalize f.roundedPlace 0 neg m e = k at *
  have le := (magnitude_strictMono f).monotone (Nat.succ_le_of_lt above)
  obtain ⟨within, even⟩ := not_or.1 ((place k).not.1 (lt_irrefl k))
  refine ⟨by linarith, fun tie => ?_⟩
  have odd : ¬ k % 2 = 1 := fun odd => even ⟨by linarith, decide_eq_true odd⟩
  omega

theorem abs_sub_le_iff_midpoint {x a b : Rat} (lt : a < b) : |x - b| ≤ |x - a| ↔ a + b ≤ 2 * x := by
  rw [← sq_le_sq]
  constructor <;> intro h <;> nlinarith

theorem abs_sub_le_iff_midpoint' {x a b : Rat} (lt : a < b) : |x - a| ≤ |x - b| ↔ 2 * x ≤ a + b := by
  rw [← sq_le_sq]
  constructor <;> intro h <;> nlinarith

theorem abs_sub_eq_iff_midpoint {x a b : Rat} (ne : a ≠ b) : |x - b| = |x - a| ↔ a + b = 2 * x := by
  rw [abs_eq_abs, or_iff_right fun h => ne (sub_right_injective h.symm)]
  constructor <;> intro h <;> linarith

/-- No magnitude up to the largest finite one lies nearer than the rounded one, or the largest where that overflows; where another lies as near, the place is even. -/
theorem nearest_place (wide : f.Wide) {i k : Nat} (finite : i ≤ fMax f false) (hk : k = min (f.roundedPlace 0 neg m e) (fMax f false)) (ne : i ≠ k) :
    |(m : Rat) * 2 ^ e - f.magnitude k| ≤ |(m : Rat) * 2 ^ e - f.magnitude i| ∧
    (|(m : Rat) * 2 ^ e - f.magnitude k| = |(m : Rat) * 2 ^ e - f.magnitude i| → k % 2 = 0) := by
  have rising := magnitude_strictMono f
  rw [abs_sub_eq_iff_midpoint fun h => ne (rising.injective h)]
  rcases ne.lt_or_gt with below | above
  · rw [abs_sub_le_iff_midpoint (rising below)]
    rcases le_or_gt (f.roundedPlace 0 neg m e) (fMax f false) with le | past
    · rw [min_eq_left le] at hk
      exact hk ▸ roundedPlace_nearest_below wide (hk ▸ below)
    · rw [min_eq_right past.le] at hk
      subst hk
      have mid := (roundedPlace_nearest_below wide past).1
      have lower := rising below
      have upper := rising past
      exact ⟨by linarith, fun tie => by linarith⟩
  · obtain rfl : k = f.roundedPlace 0 neg m e := by omega
    rw [abs_sub_le_iff_midpoint' (rising above), add_comm (f.magnitude _) (f.magnitude i)]
    exact roundedPlace_nearest_above wide above

/-! ### Finite results (R177) -/

/-- A finite result has the sign of the exact value, and the rounded place, or the largest finite one where that overflows, as it does not without saturation in a mode that rounds away from zero. -/
theorem fRound_finite (wide : f.Wide) {r : Rat} (h : (fDecode f (fRound f mode sat neg m e false)).rat = some r) :
    fRound f mode sat neg m e false = signBit f neg + min (f.roundedPlace mode neg m e) (fMax f false) ∧
    r = (if neg then -1 else 1) * f.magnitude (min (f.roundedPlace mode neg m e) (fMax f false)) ∧
    (sat = false → mode = 2 ∧ neg = false ∨ mode = 3 ∧ neg = true → f.roundedPlace mode neg m e ≤ fMax f false) := by
  have written : fRound f mode sat neg m e false = signBit f neg + min (f.roundedPlace mode neg m e) (fMax f false) ∧
      (sat = false → mode = 2 ∧ neg = false ∨ mode = 3 ∧ neg = true → f.roundedPlace mode neg m e ≤ fMax f false) := by
    rw [fRound_eq wide] at h ⊢
    split at h
    next le => exact ⟨by rw [if_pos le, min_eq_left le], fun _ _ => le⟩
    next past =>
      obtain ⟨largest, inward⟩ := overflowTo_finite wide h
      exact ⟨by rw [if_neg past, min_eq_right (not_le.1 past).le, largest], fun unsaturated away => absurd away (inward unsaturated)⟩
  rw [written.1, rat_signBit_add wide neg (min_le_right _ _)] at h
  exact ⟨written.1, (Option.some.inj h).symm, written.2⟩

/-- An encoding comes back from its value in every mode. -/
theorem fRound_fDecode (wide : f.Wide) {y : Nat} (lt : y < 2 ^ (f.eb + f.fb + 1)) (value : fDecode f y = .fin neg m e) : fRound f mode sat neg m e false = y := by
  have rising := magnitude_strictMono f
  rcases fDecode_eq wide y with ⟨-, none⟩ | ⟨le, n, g, same, mag⟩
  · rw [value] at none
    cases none
  rw [value] at same
  obtain ⟨sign, rfl, rfl⟩ := FVal.fin.inj same
  have place : f.roundedPlace mode neg m e = y % 2 ^ (f.eb + f.fb) := by
    refine eq_of_forall_lt_iff fun i => ?_
    rw [lt_roundedPlace_iff wide, mag]
    refine ⟨fun past => rising.lt_iff_lt.1 (lt_of_roundsPast (rising i.lt_succ_self) past), fun lt => ?_⟩
    exact roundsPast_of_le (rising i.lt_succ_self) (rising.monotone lt)
  rw [fRound_eq wide, place, if_pos le, sign, ← eq_signBit_add lt]

end

end Sys2Proof.Machine
end

section
/-! SUPPORT. What each rounding mode and an overflow give, over the rational value of what is rounded (R177, R178). -/
namespace Sys2Proof.Machine
open Sys2Proof

section
variable {f : FFmt} {mode : RMode} {sat neg : Bool} {m : Nat} {e : Int} {q r : Rat}

/-! ### Nearest (R177) -/

theorem signBit_add_mod_two (wide : f.Wide) (neg : Bool) (k : Nat) : (signBit f neg + k) % 2 = k % 2 := by
  have even : 2 ∣ signBit f neg := by
    rw [signBit]
    split
    · exact dvd_pow_self 2 (by have := wide.fraction; omega)
    · exact dvd_zero 2
  rw [Nat.add_mod, Nat.mod_eq_zero_of_dvd even, Nat.zero_add, Nat.mod_mod]

theorem abs_sign_mul {neg : Bool} {x : Rat} (nonneg : 0 ≤ x) : |(if neg then -1 else 1) * x| = x := by
  cases neg
  · rw [if_neg Bool.false_ne_true, one_mul, abs_of_nonneg nonneg]
  · rw [if_pos rfl, neg_one_mul, abs_neg, abs_of_nonneg nonneg]

/-- Values of one sign are as far apart as their magnitudes. -/
theorem abs_sign_mul_sub (neg : Bool) (x y : Rat) : |(if neg then -1 else 1) * x - (if neg then -1 else 1) * y| = |x - y| := by
  cases neg
  · rw [if_neg Bool.false_ne_true, one_mul, one_mul]
  · rw [if_pos rfl, neg_one_mul, neg_one_mul, neg_sub_neg, abs_sub_comm]

/-- A finite value is its magnitude with its sign. -/
theorem eq_sign_mul (hq : (FVal.fin neg m e).rat = some q) : q = (if neg then -1 else 1) * (m * 2 ^ e) := by
  rw [← mul_assoc]
  exact (Option.some.inj hq).symm

/-- Values of opposite signs and one magnitude are as far from a third only where that is zero, or they are. -/
theorem eq_zero_of_opposite {p : Rat} (same : |p| = |r|) (ne : p ≠ r) (tie : |q - r| = |q - p|) : q = 0 := by
  obtain rfl := (abs_eq_abs.1 same).resolve_left ne
  rcases abs_eq_abs.1 tie with eq | eq
  · exact absurd (by linarith) ne
  · linarith

theorem fRound_nearest (wide : f.Wide) (hq : (FVal.fin neg m e).rat = some q) (hr : (fDecode f (fRound f 0 sat neg m e false)).rat = some r)
    {y : Nat} {p : Rat} (hp : (fDecode f y).rat = some p) :
    |q - r| ≤ |q - p| ∧ (p ≠ r → |q - r| = |q - p| → fRound f 0 sat neg m e false % 2 = 0) := by
  obtain ⟨out, value, -⟩ := fRound_finite wide hr
  obtain ⟨i, finite, mag⟩ := abs_finite wide hp
  obtain ⟨k, hk⟩ : ∃ k, k = min (f.roundedPlace 0 neg m e) (fMax f false) := ⟨_, rfl⟩
  have dist : |q - r| = |m * 2 ^ e - f.magnitude k| := by
    rw [eq_sign_mul hq, value, abs_sign_mul_sub, hk]
  have near : |m * 2 ^ e - f.magnitude i| ≤ |q - p| := by
    rw [← mag, ← abs_rat_fin hq]
    exact abs_abs_sub_abs_le q p
  rw [out, ← hk, signBit_add_mod_two wide]
  by_cases same : i = k
  · subst same
    refine ⟨dist.trans_le near, fun ne tie => ?_⟩
    have abs_eq : |p| = |r| := by rw [mag, value, abs_sign_mul (magnitude_nonneg f _), hk]
    have zero : (m : Rat) * 2 ^ e = 0 := by rw [← abs_rat_fin hq, eq_zero_of_opposite abs_eq ne tie, abs_zero]
    have none_left : m = 0 := Nat.cast_eq_zero.1 ((mul_eq_zero.1 zero).resolve_right (by positivity))
    rw [hk, FFmt.roundedPlace, if_pos none_left, Nat.zero_min]
  · obtain ⟨nearer, even⟩ := nearest_place wide finite hk same
    rw [dist]
    exact ⟨nearer.trans near, fun _ tie => even (le_antisymm nearer (near.trans_eq tie.symm))⟩

/-! ### The directed modes (R177) -/

theorem fRound_toward (wide : f.Wide) (toward : mode = 1 ∨ mode = 2 ∧ neg = true ∨ mode = 3 ∧ neg = false)
    (hq : (FVal.fin neg m e).rat = some q) (hr : (fDecode f (fRound f mode sat neg m e false)).rat = some r) :
    |r| ≤ |q| ∧ ∀ y p, (fDecode f y).rat = some p → ¬ (|r| < |p| ∧ |p| ≤ |q|) := by
  obtain ⟨-, value, -⟩ := fRound_finite wide hr
  obtain ⟨le, next⟩ := roundedPlace_toward (f := f) (m := m) (e := e) wide toward
  have rising := magnitude_strictMono f
  rw [value, abs_sign_mul (magnitude_nonneg f _), abs_rat_fin hq]
  refine ⟨(rising.monotone (min_le_left _ _)).trans le, fun y p hp between => ?_⟩
  obtain ⟨i, finite, mag⟩ := abs_finite wide hp
  rw [mag, rising.lt_iff_lt] at between
  have above : f.roundedPlace mode neg m e + 1 ≤ i := by omega
  exact absurd (next.trans_le (rising.monotone above)) between.2.not_gt

theorem fRound_away (wide : f.Wide) (away : mode = 2 ∧ neg = false ∨ mode = 3 ∧ neg = true)
    (hq : (FVal.fin neg m e).rat = some q) (hr : (fDecode f (fRound f mode false neg m e false)).rat = some r) :
    |q| ≤ |r| ∧ ∀ y p, (fDecode f y).rat = some p → ¬ (|q| ≤ |p| ∧ |p| < |r|) := by
  obtain ⟨-, value, finite⟩ := fRound_finite wide hr
  obtain ⟨le, below⟩ := roundedPlace_away (f := f) (m := m) (e := e) wide away
  rw [value, abs_sign_mul (magnitude_nonneg f _), abs_rat_fin hq, min_eq_left (finite rfl away)]
  refine ⟨le, fun y p hp between => ?_⟩
  obtain ⟨i, -, mag⟩ := abs_finite wide hp
  rw [mag, (magnitude_strictMono f).lt_iff_lt] at between
  exact absurd (below i between.2) between.1.not_gt

/-- A finite result is not of the other sign. -/
theorem fRound_sign (wide : f.Wide) (hq : (FVal.fin neg m e).rat = some q) (hr : (fDecode f (fRound f mode sat neg m e false)).rat = some r) :
    (neg = false ∧ 0 ≤ q ∧ 0 ≤ r) ∨ (neg = true ∧ q ≤ 0 ∧ r ≤ 0) := by
  obtain ⟨-, value, -⟩ := fRound_finite wide hr
  have magnitude : (0 : Rat) ≤ m * 2 ^ e := by positivity
  have rounded := magnitude_nonneg f (min (f.roundedPlace mode neg m e) (fMax f false))
  rw [eq_sign_mul hq, value]
  cases neg
  · rw [if_neg Bool.false_ne_true, one_mul, one_mul]
    exact .inl ⟨rfl, magnitude, rounded⟩
  · rw [if_pos rfl, neg_one_mul, neg_one_mul]
    exact .inr ⟨rfl, neg_nonpos.2 magnitude, neg_nonpos.2 rounded⟩

theorem fRound_zero (wide : f.Wide) (hq : (FVal.fin neg m e).rat = some q) (hr : (fDecode f (fRound f 1 sat neg m e false)).rat = some r) :
    |r| ≤ |q| ∧ 0 ≤ r * q ∧ ∀ y p, (fDecode f y).rat = some p → ¬ (|r| < |p| ∧ |p| ≤ |q|) := by
  obtain ⟨le, none⟩ := fRound_toward wide (.inl rfl) hq hr
  refine ⟨le, ?_, none⟩
  rcases fRound_sign wide hq hr with ⟨-, hq, hr⟩ | ⟨-, hq, hr⟩
  · exact mul_nonneg hr hq
  · exact mul_nonneg_of_nonpos_of_nonpos hr hq

theorem fRound_up (wide : f.Wide) (hq : (FVal.fin neg m e).rat = some q) (hr : (fDecode f (fRound f 2 false neg m e false)).rat = some r) :
    q ≤ r ∧ ∀ y p, (fDecode f y).rat = some p → ¬ (q ≤ p ∧ p < r) := by
  rcases fRound_sign wide hq hr with ⟨rfl, nonneg, nonneg'⟩ | ⟨rfl, nonpos, nonpos'⟩
  · obtain ⟨le, none⟩ := fRound_away wide (.inl ⟨rfl, rfl⟩) hq hr
    rw [abs_of_nonneg nonneg, abs_of_nonneg nonneg'] at *
    exact ⟨le, fun y p hp between => none y p hp (by rwa [abs_of_nonneg (nonneg.trans between.1)])⟩
  · obtain ⟨le, none⟩ := fRound_toward wide (.inr (.inl ⟨rfl, rfl⟩)) hq hr
    rw [abs_of_nonpos nonpos, abs_of_nonpos nonpos'] at *
    exact ⟨neg_le_neg_iff.1 le, fun y p hp between => none y p hp (by
      rw [abs_of_nonpos (between.2.le.trans nonpos')]
      exact ⟨neg_lt_neg between.2, neg_le_neg between.1⟩)⟩

theorem fRound_down (wide : f.Wide) (hq : (FVal.fin neg m e).rat = some q) (hr : (fDecode f (fRound f 3 false neg m e false)).rat = some r) :
    r ≤ q ∧ ∀ y p, (fDecode f y).rat = some p → ¬ (r < p ∧ p ≤ q) := by
  rcases fRound_sign wide hq hr with ⟨rfl, nonneg, nonneg'⟩ | ⟨rfl, nonpos, nonpos'⟩
  · obtain ⟨le, none⟩ := fRound_toward wide (.inr (.inr ⟨rfl, rfl⟩)) hq hr
    rw [abs_of_nonneg nonneg, abs_of_nonneg nonneg'] at *
    exact ⟨le, fun y p hp between => none y p hp (by rwa [abs_of_nonneg (nonneg'.trans between.1.le)])⟩
  · obtain ⟨le, none⟩ := fRound_away wide (.inr ⟨rfl, rfl⟩) hq hr
    rw [abs_of_nonpos nonpos, abs_of_nonpos nonpos'] at *
    exact ⟨neg_le_neg_iff.1 le, fun y p hp between => none y p hp (by
      rw [abs_of_nonpos (between.2.trans nonpos)]
      exact ⟨neg_le_neg between.2, neg_lt_neg between.1⟩)⟩

/-! ### Overflow (R178) -/

theorem rat_of_le_fMax (wide : f.Wide) {k : Nat} (le : k ≤ fMax f false) : (fDecode f k).rat = some (f.magnitude k) := by
  have value := rat_signBit_add wide false le
  rwa [signBit_false, Nat.zero_add, if_neg Bool.false_ne_true, one_mul] at value

/-- The value above the largest finite one lies as far from it as the one below (R177). -/
theorem magnitude_fMax_succ (wide : f.Wide) :
    f.magnitude (fMax f false + 1) - f.magnitude (fMax f false) = f.magnitude (fMax f false) - f.magnitude (fMax f false - 1) := by
  obtain ⟨j, n, below, full, lt⟩ : ∃ j n, fMax f false = j * 2 ^ f.fb + n + 1 ∧ 2 ^ f.fb ≤ n ∧ n + 1 < 2 ^ (f.fb + 1) := by
    have exps := Nat.pow_le_pow_right two_pos wide.exponent
    have fracs := Nat.pow_le_pow_right two_pos wide.fraction
    rw [fMax, signBit_false, Nat.zero_add, pow_add, pow_succ]
    generalize 2 ^ f.fb = p at *
    obtain ⟨d, hd⟩ : ∃ d, 2 ^ f.eb = d + 3 := ⟨2 ^ f.eb - 3, by omega⟩
    rw [hd]
    split
    · exact ⟨d + 1, 2 * p - 3, by rw [Nat.add_mul d 3, Nat.add_mul d 1]; omega, by omega, by omega⟩
    · exact ⟨d, 2 * p - 2, by rw [show d + 3 - 1 = d + 2 by omega, Nat.add_mul d 2]; omega, by omega, by omega⟩
  rw [below, Nat.add_sub_cancel, add_assoc _ n 1, add_assoc, magnitude_eq (.inr full) (by omega), magnitude_eq (.inr (by omega)) lt.le, magnitude_eq (.inr (by omega)) lt]
  push_cast
  ring

/-- The overflow test in terms of the largest finite value and its distance to the one below: the value rounds past the largest (R177, R178). -/
theorem past_iff (wide : f.Wide) (hmode : mode < 4) (hq : (FVal.fin neg m e).rat = some q) {top gap : Rat}
    (htop : f.magnitude (fMax f false) = top) (hgap : f.magnitude (fMax f false + 1) = top + gap) :
    ((mode = 0 ∧ (top + gap / 2 < |q| ∨ (|q| = top + gap / 2 ∧ fMax f false % 2 = 1))) ∨ (mode = 1 ∧ top + gap ≤ |q|) ∨
      (mode = 2 ∧ (top < q ∨ q ≤ -(top + gap))) ∨ (mode = 3 ∧ (q < -top ∨ top + gap ≤ q))) ↔ fMax f false < f.roundedPlace mode neg m e := by
  have nonneg : 0 ≤ top := htop ▸ magnitude_nonneg f _
  have rising : top < top + gap := by
    rw [← hgap, ← htop]
    exact magnitude_strictMono f (Nat.lt_succ_self _)
  have magnitude : (0 : Rat) ≤ m * 2 ^ e := by positivity
  rw [lt_roundedPlace_iff wide, htop, hgap, abs_rat_fin hq, eq_sign_mul hq]
  generalize (m : Rat) * 2 ^ e = x at *
  rcases mode with _ | _ | _ | _ | mode
  · have half : top + (top + gap) < 2 * x ↔ top + gap / 2 < x := by constructor <;> intro h <;> linarith
    have tie : top + (top + gap) = 2 * x ↔ x = top + gap / 2 := by constructor <;> intro h <;> linarith
    simp [RoundsPast, half, tie]
  · simp [RoundsPast]
  · cases neg
    · have : x + top ≤ -gap → top < x := fun h => by linarith
      simpa [RoundsPast] using this
    · have : top < -x → top + gap ≤ x := fun h => by linarith
      simpa [RoundsPast] using this
  · cases neg
    · have : x < -top → top + gap ≤ x := fun h => by linarith
      simpa [RoundsPast] using this
    · have : top + gap ≤ -x → top < x := fun h => by linarith
      simpa [RoundsPast] using this
  · exact absurd hmode (by simp)

/-- What overflows is not zero, so it has the sign of its encoding. -/
theorem sign_of_past (wide : f.Wide) (hq : (FVal.fin neg m e).rat = some q) (past : fMax f false < f.roundedPlace mode neg m e) :
    (q < 0 ↔ neg = true) ∧ (0 < q ↔ neg = false) := by
  have pos : (0 : Rat) < m * 2 ^ e := (magnitude_nonneg f _).trans_lt (lt_of_roundsPast (magnitude_strictMono f (Nat.lt_succ_self _)) ((lt_roundedPlace_iff wide _).1 past))
  rw [eq_sign_mul hq]
  cases neg
  · rw [if_neg Bool.false_ne_true, one_mul]
    exact ⟨iff_of_false pos.not_gt Bool.false_ne_true, iff_of_true pos rfl⟩
  · rw [if_pos rfl, neg_one_mul]
    exact ⟨iff_of_true (neg_lt_zero.2 pos) rfl, iff_of_false (neg_lt_zero.2 pos).not_gt (Bool.false_ne_true ∘ Eq.symm)⟩

end

/-- What an overflow gives in each of the five formats. -/
theorem overflowTo_fmtOf (t : Ty) {mode : RMode} (hmode : mode < 4) (sat neg : Bool) : overflowTo (fmtOf t) mode sat neg =
    if sat then fMax (fmtOf t) neg else if t = .e4m3 then 0x7F
      else if mode = 0 ∨ (mode = 2 ∧ neg = false) ∨ (mode = 3 ∧ neg = true) then fInf (fmtOf t) neg else fMax (fmtOf t) neg := by
  cases sat with
  | true => rfl
  | false =>
    by_cases e4m3 : t = .e4m3
    · subst e4m3
      exact overflowTo_noInf rfl
    · have inf : ¬ (fmtOf t).noInf = true := by
        revert e4m3
        cases t <;> decide
      have three : 2 < mode ↔ mode = 3 := ⟨fun h => le_antisymm (Nat.lt_succ_iff.1 hmode) h, fun h => by rw [h]; exact Nat.lt_succ_self 2⟩
      simp only [overflowTo_inf inf, three, if_neg Bool.false_ne_true, if_neg e4m3]

end Sys2Proof.Machine
end

section
namespace Sys2Proof
open Sys2Proof.Machine

/-- Settles O7: the magnitudes of a format rise (`magnitude_strictMono`), and the rounded place lies above exactly those that the exact value rounds past (`lt_roundedPlace_iff`), so each mode takes the neighbour that R177 names (`fRound_nearest`, `fRound_zero`, `fRound_up`, `fRound_down`), an encoding comes back (`fRound_fDecode`), and the test of an overflow is whether the value rounds past the largest finite one (`past_iff`). -/
theorem roundingIsNearest : Obligations.RoundingIsNearest := by
  intro t mode sat v q float hmode hq
  obtain ⟨neg, m, e, rfl⟩ := rat_eq_some hq
  have wide := wide_fmtOf t
  refine ⟨fun r hr => ⟨?nearest, ?zero, ?up, ?down⟩, ?roundTrip, ?overflow⟩
  case nearest =>
    rintro rfl y p hp
    exact fRound_nearest wide hq hr hp
  case zero =>
    rintro rfl
    exact fRound_zero wide hq hr
  case up =>
    rintro rfl rfl
    exact fRound_up wide hq hr
  case down =>
    rintro rfl rfl
    exact fRound_down wide hq hr
  case roundTrip =>
    intro y lt value
    refine fRound_fDecode wide (lt.trans_eq ?_) value
    revert float
    cases t <;> decide
  case overflow =>
    intro top below htop hbelow gap past
    obtain rfl := Option.some.inj ((rat_of_le_fMax wide le_rfl).symm.trans htop)
    obtain rfl := Option.some.inj ((rat_of_le_fMax wide (Nat.sub_le _ 1)).symm.trans hbelow)
    have past_iff : past ↔ fMax (fmtOf t) false < (fmtOf t).roundedPlace mode neg m e :=
      past_iff wide hmode hq rfl (by linarith [magnitude_fMax_succ wide])
    have out := fRound_eq wide (mode := mode) (sat := sat) (neg := neg) (m := m) (e := e)
    rw [past_iff, not_lt]
    refine ⟨fun le => ?_, fun above => ?_⟩
    · rw [if_pos le] at out
      exact Option.isSome_iff_exists.2 ⟨_, (congrArg (fun y => (fDecode (fmtOf t) y).rat) out).trans (rat_signBit_add wide neg le)⟩
    · obtain ⟨negative, positive⟩ := sign_of_past wide hq above
      rw [if_neg above.not_ge, overflowTo_fmtOf t hmode] at out
      simp only [negative, positive, Bool.decide_eq_true]
      exact out

end Sys2Proof
end

section
/-! SUPPORT. TOLTAB of a table that it can read (R193, R242): the outcome where the table is invalid. The far reads of the image go where the page tables point once the access has set the accessed bits of R280. -/
namespace Sys2Proof.Machine
open Sys2Proof

/-! ### A read of the wave that goes through (R129, R245) -/

section
variable {v : View} {s : State}

/-- The bytes that a wave without logged entries finds where its mapping is there (R129, R131). -/
theorem laneBytes_eq_readBytes (unlogged : hasLogged v.w = false) (ptr n : Nat) : laneBytes s v 0 (ptrAddr ptr) n false = some (readBytes v ptr n s) := by
  unfold laneBytes readBytes
  dsimp only
  rw [if_neg, if_neg Bool.false_ne_true]
  · rw [List.map_map, List.zip_map', List.map_map]
    rfl
  · rw [Bool.not_eq_true, List.any_eq_false]
    intro f mem
    obtain ⟨p, -, rfl⟩ := List.mem_map.mp mem
    split
    · simp [forwardByte_of_unlogged unlogged ‹_›]
    · exact Bool.false_ne_true

/-- The word that reads gets the bytes, and the state with its access recorded and its far reads sent. -/
theorem heldRead_of_readable {ptr n : Nat} (h : Readable v ptr n s) (go : List Byte → State → Result) (back : State) :
    heldRead v ptr n s go back = go (readBytes v ptr n s) (sendReads v 0 (ptrAddr ptr) n (readState v ptr n s)) := by
  have passes : laneFault (fun p => checkAccess s v .load (some (ptrTag p)) (ptrAddr p) n) [(0, ptr)] = none := laneFault_of_ok (by simpa using h.checks)
  have mapped : (checkAccess s v .load (some (ptrTag ptr)) (ptrAddr ptr) n == .pending) = false := by rw [h.checks]; rfl
  simp only [heldRead, passes, h.lines, h.unordered, mapped, laneBytes_eq_readBytes h.unlogged, h.present, ne_eq, not_true_eq_false, Bool.false_eq_true, or_self, if_false]
  rfl

/-- A range none of whose parts lies on the far side sends nothing (R122). -/
theorem sendReads_of_near {lane addr n : Nat} (near : ∀ p ∈ parts 8 addr n, farPlace (placeOf s v lane p.1) = none) : sendReads v lane addr n s = s := by
  refine List.foldlRecOn (motive := (· = s)) _ _ rfl fun t same p mem => ?_
  subst same
  have here := near p mem
  split
  · next pa tier place =>
    rw [place, farPlace] at here
    exact if_neg fun far => by simp [far] at here
  · rfl

/-- An entry that is not in use is zero in a valid table (R193). -/
theorem parseTable_of_unused {image : List Byte} {j : Nat} (hj : j < 64) (unused : bitAt (bytesToNat ((image.drop (16 * j + 8)).take 8)) 63 = false)
    (nonzero : bytesToNat ((image.drop (16 * j)).take 8) ≠ 0) : parseTable image = none := by
  unfold parseTable
  refine if_neg fun valid => nonzero ?_
  have entries := List.all_eq_true.mp (Bool.and_eq_true_iff.mp valid).1
  have entry := entries _ (List.mem_map_of_mem (List.mem_range.mpr hj))
  rw [TolImage.used, unused, if_neg Bool.false_ne_true] at entry
  exact beq_iff_eq.mp (Bool.and_eq_true_iff.mp entry).1

/-! ### TOLTAB (R193, R242) -/

section
variable {q : QW} {mask : Word32} (h : Acts q.guard [srcQ q.ia] [] v mask s) (aligned : valQ v.w q.ia % 16 = 0)
  (readable : Readable v (valQ v.w q.ia) 1024 s) (invalid : parseTable (readBytes v (valQ v.w q.ia) 1024 s) = none)
include h aligned readable invalid

theorem exec_toltab_of_invalid : exec (.toltab q) s = illegalWord v.w (sendReads v 0 (ptrAddr (valQ v.w q.ia)) 1024 (readState v (valQ v.w q.ia) 1024 s)) := by
  rw [show exec (.toltab q) s = _ from (viewWord_of_acts h _ : execToltab q s = _)]
  generalize 1024 = n at readable invalid ⊢
  dsimp only
  rw [if_neg (not_not_intro aligned), heldRead_of_readable readable, invalid]

/-- What does hold of an invalid table: where no part of the image lies on the far side once the access is recorded, the word raises Illegal Instruction in the state that the read leaves. -/
theorem exec_toltab_of_invalid_of_near
    (near : ∀ p ∈ parts 8 (ptrAddr (valQ v.w q.ia)) 1024, farPlace (placeOf (readState v (valQ v.w q.ia) 1024 s) v 0 p.1) = none) :
    exec (.toltab q) s = illegalWord v.w (readState v (valQ v.w q.ia) 1024 s) := by
  rw [exec_toltab_of_invalid h aligned readable invalid, sendReads_of_near near]

end
end

/-! ### A table whose accessed bit moves its own mapping -/

/-- Page tables, and one byte of an invalid table image. The root at 0x3FEB is not aligned: its entry 1, at 0x3FF3, shares three bytes with the leaf at 0x3FF8, under which the first 1,008 bytes of the image lie. Bit 10 of that leaf, AC, is bit 50 of root entry 1 and of the address that it names. Once it is set the entry names the table at 2^50 + 2^47, not the one at 2^47, and the last 16 bytes of the image lie in a peer package, not in tier 1. -/
def skewTables : List (Nat × Nat) :=
  [(0x3FEB, 2 ^ 63 + 0x1000), (0x1FF8, 2 ^ 63 + 0x2000), (0x2FF8, 2 ^ 63 + 0x3000), (0x3FF8, 2 ^ 63 + 2 ^ 61 + 0x800080),
    (2 ^ 47, 2 ^ 63 + 0x5000), (0x5000, 2 ^ 63 + 2 ^ 61 + 0x80), (2 ^ 50 + 2 ^ 47, 2 ^ 63 + 0x6000), (0x6000, 2 ^ 63 + 2 ^ 61 + 2 ^ 55 + 0x6080), (0, 1)]

def skewCtx : Ctx := { overrunCtx with ent := { overrunCtx.ent with root := 0x3FEB }, log := none }
def skewBlock : Block := { freshBlock 0 0 with life := .running, core := some 0 }
/-- s2 points to the image. -/
def skewPtr : Nat := 2 ^ 48 - 1008
def skewWave : Wave := setS (freshWave overrunDesc 0 0 0 0) 2 (BitVec.ofNat 64 skewPtr)
def skewView : View := { key := 0, w := skewWave, b := skewBlock, g := overrunGrid, c := skewCtx }

def skewState : State :=
  { State.reset with
    sched := { State.reset.sched with cur := some 0 }
    mem := skewTables.foldl (fun m t => cellsPut m t.1 (natToBytes 8 t.2)) []
    ctxs := [(0, skewCtx)]
    grids := [(0, overrunGrid)]
    blocks := [(0, skewBlock)]
    waves := [(0, skewWave)] }

/-- TOLTAB s2 under the guard k0. -/
def skewWord : QW := { guard := { g := 0, gn := false }, sub := 0, ct := 0, wa := 0, wb := 0, kn := 0, ia := .s 2, ib := .none, node := 0 }

theorem acts_skewWord : Acts skewWord.guard [srcQ skewWord.ia] [] skewView 0xFFFFFFFF skewState :=
  ⟨⟨rfl, rfl, guardMask_k0 _, by decide, readiness_full_count _ _ List.not_mem_nil⟩, rfl⟩

theorem valQ_skewWord : valQ skewWave skewWord.ia = skewPtr := by decide
theorem aligned_skewPtr : skewPtr % 16 = 0 := by decide

theorem near_skewState : ∀ p ∈ parts 8 (ptrAddr skewPtr) 1024, farParts skewState skewView false 0 p.1 p.2 = [] := by decide +kernel

theorem readable_skewState : Readable skewView skewPtr 1024 skewState where
  checks := by decide +kernel
  lines := rfl
  unlogged := rfl
  unordered := rfl
  present := by decide +kernel
  near := near_skewState

theorem parseTable_skewState : parseTable (readBytes skewView skewPtr 1024 skewState) = none :=
  parseTable_of_unused (j := 63) (by decide) (by decide +kernel) (by decide +kernel)

/-- What has left the package after a word. -/
def outAfter : Result → List Out
  | .next t => t.out
  | _ => []

/-- Two reads of the image leave the package. -/
theorem outAfter_sent : (outAfter (illegalWord skewWave (sendReads skewView 0 (ptrAddr skewPtr) 1024 (readState skewView skewPtr 1024 skewState)))).length = 2 := by
  decide +kernel

theorem outAfter_readState : (outAfter (illegalWord skewWave (readState skewView skewPtr 1024 skewState))).length = 0 := by decide +kernel

end Sys2Proof.Machine
end

section
namespace Sys2Proof
open Sys2Proof.Machine

/-- Refutes O40, in its clause on TOLTAB of an invalid table: it says that the word raises Illegal Instruction in the state in which the image's accesses are recorded and nothing else is done, wherever no byte of the image lies on the far side when the word issues. In `skewState` the root of the context is not aligned, which LOAD would refuse but the statement does not exclude: an accessed bit that the read itself sets turns the tables, so that the last 16 bytes lie in a peer package by the time the reads are sent, and two of them leave the package. Where no part of the image lies on the far side once its accesses are recorded, the clause holds (`exec_toltab_of_invalid_of_near`). -/
theorem not_toleranceWords : ¬ Obligations.ToleranceWords := by
  intro h
  obtain ⟨words, -⟩ := h
  obtain ⟨-, -, toltab⟩ := words skewWord skewView 0xFFFFFFFF skewState
  have acts := acts_skewWord
  have ptr : valQ skewView.w skewWord.ia = skewPtr := valQ_skewWord
  obtain ⟨-, reads⟩ := toltab acts
  have model := exec_toltab_of_invalid acts
  rw [ptr] at reads model
  obtain ⟨illegal, -⟩ := reads aligned_skewPtr readable_skewState
  have same := (model aligned_skewPtr readable_skewState parseTable_skewState).symm.trans (illegal parseTable_skewState)
  have lengths : 2 = 0 := outAfter_sent.symm.trans ((congrArg (fun r => (outAfter r).length) same).trans outAfter_readState)
  exact absurd lengths (by decide)

end Sys2Proof
end

section
/-! SUPPORT. What the integer and logic words compute, over bit vectors of the type's width (R205). -/
namespace Sys2Proof.Machine
open Sys2Proof

/-! ### A word that writes a value of its operands -/

/-- A word of three sources writes any values that agree with its own. -/
theorem xWrites_of_eq {x : XW} {key : Nat} {w : Wave} {m : Word32} {s : State} (h : XReady x key w m s) {i : Instr} {f : Wave → Nat → Nat} {g : Nat → Nat}
    (word : exec i s = xWord x f s) (eq : ∀ j, f w j = g j) : XWrites x i key w m s g := by
  rw [XWrites, word, xWord, regWord_of_issues h, funext eq]

theorem intOp_lt (w : Wave) (lit : Option Word64) (n : Nat) (o : Operand) (i : Nat) : intOp w lit n o i < 2 ^ n := Nat.mod_lt _ (Nat.two_pow_pos n)

theorem tyOp_of_int {t : Ty} (int : t.isFloat = false) (w : Wave) (lit : Option Word64) (o : Operand) (i : Nat) : tyOp w lit t o i = intOp w lit t.width o i := by
  unfold tyOp
  rw [int, if_neg Bool.false_ne_true]

theorem tyOp_lt {t : Ty} (int : t.isFloat = false) (w : Wave) (lit : Option Word64) (o : Operand) (i : Nat) : tyOp w lit t o i < 2 ^ t.width := by
  rw [tyOp_of_int int]
  exact intOp_lt ..

/-! ### Integers of a type (R176) -/

theorem width_eq_succ (t : Ty) : t.width = (t.width - 1) + 1 := by cases t <;> rfl

theorem ofSigned_eq (n : Nat) (z : Int) : ofSigned n z = (BitVec.ofInt n z).toNat := by
  rw [BitVec.toNat_ofInt]
  rfl

theorem toSigned_width (t : Ty) (a : Nat) : toSigned t.width a = (BitVec.ofNat t.width a).toInt := by
  rw [width_eq_succ t, toSigned_eq_toInt]

theorem intVal_eq (t : Ty) (a : Nat) : intVal t a = tyInt t (BitVec.ofNat t.width a) := by
  rw [intVal, tyInt, toSigned_width, BitVec.toNat_ofNat]

theorem tyMin_le_tyMax (t : Ty) : tyMin t ≤ tyMax t := by cases t <;> decide

theorem clampInt_eq {lo hi : Int} (le : lo ≤ hi) (z : Int) : clampInt lo hi z = max lo (min z hi) := by
  unfold clampInt
  split
  · omega
  · split <;> omega

theorem clamp_eq (t : Ty) (z : Int) : clampInt (tyMin t) (tyMax t) z = max (tyMin t) (min z (tyMax t)) := clampInt_eq (tyMin_le_tyMax t) z

/-- Patterns of one width that stand for the same integer are equal. -/
theorem tyInt_inj {t : Ty} {a b : BitVec t.width} (same : tyInt t a = tyInt t b) : a = b := by
  unfold tyInt at same
  split at same
  · exact BitVec.eq_of_toInt_eq same
  · exact BitVec.eq_of_toNat_eq (by exact_mod_cast same)

/-! ### The table of R205 -/

section
variable {t : Ty} (a b c : Nat)

theorem addVal_eq : addVal t a b = (BitVec.ofNat t.width a + BitVec.ofNat t.width b).toNat := by
  rw [BitVec.toNat_add, BitVec.toNat_ofNat, BitVec.toNat_ofNat, ← Nat.add_mod]
  rfl

theorem subVal_eq : subVal t a b = (BitVec.ofNat t.width a - BitVec.ofNat t.width b).toNat := by
  rw [subVal, ofSigned_eq, Int.sub_eq_add_neg, BitVec.ofInt_add, BitVec.ofInt_neg, ← BitVec.sub_eq_add_neg]
  rfl

theorem addsVal_eq : addsVal t a b =
    (BitVec.ofInt t.width (max (tyMin t) (min (tyInt t (BitVec.ofNat _ a) + tyInt t (BitVec.ofNat _ b)) (tyMax t)))).toNat := by
  rw [addsVal, ofSigned_eq, clamp_eq, intVal_eq, intVal_eq]

theorem subsVal_eq : subsVal t a b =
    (BitVec.ofInt t.width (max (tyMin t) (min (tyInt t (BitVec.ofNat _ a) - tyInt t (BitVec.ofNat _ b)) (tyMax t)))).toNat := by
  rw [subsVal, ofSigned_eq, clamp_eq, intVal_eq, intVal_eq]

theorem mulVal_eq : mulVal t a b = (BitVec.ofNat t.width a * BitVec.ofNat t.width b).toNat := by
  rw [BitVec.toNat_mul, BitVec.toNat_ofNat, BitVec.toNat_ofNat, ← Nat.mul_mod]
  rfl

theorem mulhVal_eq : mulhVal t a b = (BitVec.ofInt t.width (tyInt t (BitVec.ofNat _ a) * tyInt t (BitVec.ofNat _ b) / 2 ^ t.width)).toNat := by
  rw [mulhVal, ofSigned_eq, intVal_eq, intVal_eq, Nat.cast_pow, Nat.cast_ofNat]

theorem madVal_eq : madVal t a b c = (BitVec.ofNat t.width a * BitVec.ofNat t.width b + BitVec.ofNat t.width c).toNat := by
  simp [madVal, BitVec.toNat_add, BitVec.toNat_mul, Nat.add_mod, Nat.mul_mod]

theorem absVal_eq : absVal t a = (BitVec.ofInt t.width |tyInt t (BitVec.ofNat _ a)|).toNat := by
  rw [absVal, intVal_eq, ← ofSigned_eq, ofSigned, Int.abs_eq_natAbs, ← Int.natCast_mod, Int.toNat_natCast]

theorem getLsbD_ofNat_width (j : Nat) : (BitVec.ofNat t.width a).getLsbD j = (decide (j < t.width) && a.testBit j) := BitVec.getLsbD_ofNat ..

variable {a b} (ha : a < 2 ^ t.width) (hb : b < 2 ^ t.width)
include ha hb

theorem minVal_eq : minVal t a b = (if tyInt t (BitVec.ofNat _ a) < tyInt t (BitVec.ofNat _ b) then BitVec.ofNat t.width a else BitVec.ofNat t.width b).toNat := by
  rw [minVal, intVal_eq, intVal_eq]
  rcases lt_trichotomy (tyInt t (BitVec.ofNat _ a)) (tyInt t (BitVec.ofNat _ b)) with lt | eq | gt
  · rw [if_pos lt.le, if_pos lt, BitVec.toNat_ofNat, Nat.mod_eq_of_lt ha]
  · rw [if_pos eq.le, if_neg eq.not_lt, ← tyInt_inj eq, BitVec.toNat_ofNat, Nat.mod_eq_of_lt ha]
  · rw [if_neg gt.not_ge, if_neg gt.not_gt, BitVec.toNat_ofNat, Nat.mod_eq_of_lt hb]

theorem maxVal_eq : maxVal t a b = (if tyInt t (BitVec.ofNat _ b) < tyInt t (BitVec.ofNat _ a) then BitVec.ofNat t.width a else BitVec.ofNat t.width b).toNat := by
  rw [maxVal, intVal_eq, intVal_eq]
  rcases lt_trichotomy (tyInt t (BitVec.ofNat _ a)) (tyInt t (BitVec.ofNat _ b)) with lt | eq | gt
  · rw [if_pos lt.le, if_neg lt.not_gt, BitVec.toNat_ofNat, Nat.mod_eq_of_lt hb]
  · rw [if_pos eq.le, if_neg eq.not_gt, BitVec.toNat_ofNat, Nat.mod_eq_of_lt hb]
  · rw [if_neg gt.not_ge, if_pos gt, BitVec.toNat_ofNat, Nat.mod_eq_of_lt ha]

theorem and_eq_toNat : a &&& b = (BitVec.ofNat t.width a &&& BitVec.ofNat t.width b).toNat := by
  rw [BitVec.toNat_and, BitVec.toNat_ofNat, BitVec.toNat_ofNat, Nat.mod_eq_of_lt ha, Nat.mod_eq_of_lt hb]

theorem or_eq_toNat : a ||| b = (BitVec.ofNat t.width a ||| BitVec.ofNat t.width b).toNat := by
  rw [BitVec.toNat_or, BitVec.toNat_ofNat, BitVec.toNat_ofNat, Nat.mod_eq_of_lt ha, Nat.mod_eq_of_lt hb]

theorem xor_eq_toNat : a ^^^ b = (BitVec.ofNat t.width a ^^^ BitVec.ofNat t.width b).toNat := by
  rw [BitVec.toNat_xor, BitVec.toNat_ofNat, BitVec.toNat_ofNat, Nat.mod_eq_of_lt ha, Nat.mod_eq_of_lt hb]

omit hb in
theorem andnVal_eq : andnVal t a b = (BitVec.ofNat t.width a &&& ~~~(BitVec.ofNat t.width b)).toNat := by
  rw [andnVal, BitVec.toNat_and, BitVec.toNat_not, BitVec.toNat_ofNat, BitVec.toNat_ofNat, Nat.mod_eq_of_lt ha]

theorem divuVal_eq : divuVal t a b = (if BitVec.ofNat t.width b = 0 then BitVec.allOnes t.width else BitVec.ofNat t.width a / BitVec.ofNat t.width b).toNat := by
  have zero : BitVec.ofNat t.width b = 0 ↔ b = 0 := by rw [← BitVec.toNat_inj, BitVec.toNat_ofNat, Nat.mod_eq_of_lt hb]; rfl
  simp only [zero, divuVal]
  split
  · rw [BitVec.toNat_allOnes]
  · rw [BitVec.toNat_udiv, BitVec.toNat_ofNat, BitVec.toNat_ofNat, Nat.mod_eq_of_lt ha, Nat.mod_eq_of_lt hb]

theorem remuVal_eq : remuVal a b = (if BitVec.ofNat t.width b = 0 then BitVec.ofNat t.width a else BitVec.ofNat t.width a % BitVec.ofNat t.width b).toNat := by
  have zero : BitVec.ofNat t.width b = 0 ↔ b = 0 := by rw [← BitVec.toNat_inj, BitVec.toNat_ofNat, Nat.mod_eq_of_lt hb]; rfl
  simp only [zero, remuVal]
  split
  · rw [BitVec.toNat_ofNat, Nat.mod_eq_of_lt ha]
  · rw [BitVec.toNat_umod, BitVec.toNat_ofNat, BitVec.toNat_ofNat, Nat.mod_eq_of_lt ha, Nat.mod_eq_of_lt hb]

end

/-! ### Counting and reversing bits -/

section
variable {t : Ty} {a : Nat}

theorem clzVal_le (t : Ty) (a : Nat) : clzVal t a ≤ t.width := by
  unfold clzVal
  split <;> omega

theorem log2_lt_width (ne : a % 2 ^ t.width ≠ 0) : Nat.log2 (a % 2 ^ t.width) < t.width := (Nat.log2_lt ne).2 (Nat.mod_lt _ (Nat.two_pow_pos _))

theorem getLsbD_of_clzVal (ha : a < 2 ^ t.width) {j : Nat} (above : t.width - clzVal t a ≤ j) : (BitVec.ofNat t.width a).getLsbD j = false := by
  rw [getLsbD_ofNat_width, Bool.and_eq_false_imp, decide_eq_true_eq]
  intro _
  apply Nat.testBit_lt_two_pow
  unfold clzVal at above
  rw [Nat.mod_eq_of_lt ha] at above
  split at above
  next zero => rw [zero]; exact Nat.two_pow_pos j
  next ne =>
    have := log2_lt_width (t := t) (a := a) (by rwa [Nat.mod_eq_of_lt ha])
    rw [Nat.mod_eq_of_lt ha] at this
    exact (Nat.log2_lt ne).1 (by omega)

theorem getLsbD_clzVal (ha : a < 2 ^ t.width) (some : clzVal t a < t.width) : (BitVec.ofNat t.width a).getLsbD (t.width - 1 - clzVal t a) = true := by
  unfold clzVal at some ⊢
  rw [Nat.mod_eq_of_lt ha] at some ⊢
  split at some
  · omega
  next ne =>
    have low := log2_lt_width (t := t) (a := a) (by rwa [Nat.mod_eq_of_lt ha])
    rw [Nat.mod_eq_of_lt ha] at low
    rw [if_neg ne, getLsbD_ofNat_width, show t.width - 1 - (t.width - 1 - a.log2) = a.log2 by omega, Nat.testBit_log2 ne]
    simp [low]

theorem popcVal_eq (t : Ty) (a : Nat) : popcVal t a = (Finset.univ.filter (fun j : Fin t.width => (BitVec.ofNat t.width a).getLsbD j = true)).card := by
  have bit (j : Fin t.width) : (BitVec.ofNat t.width a).getLsbD j = a.testBit j := by rw [getLsbD_ofNat_width, decide_eq_true j.isLt, Bool.true_and]
  simp only [bit, Finset.card_filter]
  rw [Fin.sum_univ_eq_sum_range (fun j => if a.testBit j = true then 1 else 0), ← Finset.card_filter]
  change _ = ((List.range t.width).filter (fun j => decide (a.testBit j = true))).length
  simp only [popcVal, Bool.decide_eq_true]

/-- After n bits the sum of the reversed powers holds the bits from the top down to wd - n, and is a multiple of the power there. -/
theorem testBit_reversed (a wd : Nat) {n : Nat} (le : n ≤ wd) :
    let r := (List.range n).foldl (fun r j => if a.testBit j then r + 2 ^ (wd - 1 - j) else r) 0
    2 ^ (wd - n) ∣ r ∧ ∀ j, r.testBit j = (decide (wd - n ≤ j) && decide (j < wd) && a.testBit (wd - 1 - j)) := by
  induction n with
  | zero =>
    refine ⟨dvd_zero _, fun j => ?_⟩
    have : ¬ (wd ≤ j ∧ j < wd) := by omega
    simp [this]
  | succ n ih =>
    obtain ⟨⟨c, hc⟩, bits⟩ := ih (by omega)
    simp only [List.range_succ, List.foldl_append, List.foldl_cons, List.foldl_nil] at *
    generalize (List.range n).foldl (fun r j => if a.testBit j then r + 2 ^ (wd - 1 - j) else r) 0 = r at *
    have double : 2 ^ (wd - n) = 2 ^ (wd - (n + 1)) * 2 := by rw [← Nat.pow_succ]; congr 1; omega
    have top : wd - 1 - n = wd - (n + 1) := by omega
    have step (j : Nat) : (decide (wd - (n + 1) ≤ j) && decide (j < wd) && a.testBit (wd - 1 - j)) =
        (r.testBit j || (decide (j = wd - (n + 1)) && a.testBit n)) := by
      rw [bits]
      by_cases here : j = wd - (n + 1)
      · subst here
        rw [show wd - 1 - (wd - (n + 1)) = n by omega]
        have : ¬ wd - n ≤ wd - (n + 1) := by omega
        have : wd - (n + 1) < wd := by omega
        simp [*]
      · have : wd - (n + 1) ≤ j ↔ wd - n ≤ j := by omega
        simp [*]
    split
    next set =>
      rw [top]
      refine ⟨⟨2 * c + 1, by rw [hc, double]; ring⟩, fun j => ?_⟩
      rw [step, set, hc, Nat.two_pow_add_eq_or_of_lt (Nat.pow_lt_pow_right (by omega) (by omega)), Nat.testBit_or, ← hc, Nat.testBit_two_pow]
      simp [eq_comm]
    next clear =>
      refine ⟨⟨2 * c, by rw [hc, double]; ring⟩, fun j => ?_⟩
      rw [step, Bool.eq_false_of_not_eq_true clear]
      simp

theorem testBit_brevVal (t : Ty) (a j : Nat) : (brevVal t a).testBit j = (decide (j < t.width) && (BitVec.ofNat t.width a).getLsbD (t.width - 1 - j)) := by
  obtain ⟨-, bits⟩ := testBit_reversed a t.width le_rfl
  have pos : 0 < t.width := by rw [width_eq_succ]; omega
  rw [brevVal, bits, getLsbD_ofNat_width]
  have : t.width - 1 - j < t.width := by omega
  simp [this]

end
end Sys2Proof.Machine
end

section
namespace Sys2Proof
open Sys2Proof.Machine

/-- Settles O1: each row of the table of R205 is the operation of the same name on bit vectors of the width (`addVal_eq` to `remuVal_eq`). -/
theorem integerResults : Obligations.IntegerResults := by
  intro x key w m s h int a b c z clamp
  have la (i : Nat) : valA x w i < 2 ^ x.t.width := tyOp_lt int ..
  have lb (i : Nat) : valB x w i < 2 ^ x.t.width := tyOp_lt int ..
  refine ⟨xWrites_of_eq h rfl fun i => addVal_eq .., xWrites_of_eq h rfl fun i => subVal_eq .., xWrites_of_eq h rfl fun i => addsVal_eq ..,
    xWrites_of_eq h rfl fun i => subsVal_eq .., xWrites_of_eq h rfl fun i => mulVal_eq .., xWrites_of_eq h rfl fun i => mulhVal_eq ..,
    xWrites_of_eq h rfl fun i => madVal_eq .., xWrites_of_eq h rfl fun i => absVal_eq .., xWrites_of_eq h rfl fun i => minVal_eq (la i) (lb i),
    xWrites_of_eq h rfl fun i => maxVal_eq (la i) (lb i), xWrites_of_eq h rfl fun i => and_eq_toNat (la i) (lb i),
    xWrites_of_eq h rfl fun i => or_eq_toNat (la i) (lb i), xWrites_of_eq h rfl fun i => xor_eq_toNat (la i) (lb i),
    xWrites_of_eq h rfl fun i => andnVal_eq (la i), ⟨_, xWrites_of_eq h rfl fun i => rfl, fun i => ?clz⟩,
    xWrites_of_eq h rfl fun i => popcVal_eq .., ⟨_, xWrites_of_eq h rfl fun i => rfl, fun i j => testBit_brevVal ..⟩,
    xWrites_of_eq h rfl fun i => divuVal_eq (la i) (lb i), xWrites_of_eq h rfl fun i => remuVal_eq (la i) (lb i)⟩
  case clz => exact ⟨clzVal_le .., fun j => getLsbD_of_clzVal (la i), getLsbD_clzVal (la i)⟩

end Sys2Proof
end

section
/-! SUPPORT. Shifts, rotates and bit fields, over bit vectors of the type's width (R206, R207). -/
namespace Sys2Proof.Machine
open Sys2Proof

/-- The model's count is the statement's: 64 bits for a 64-bit type, else 32 (R206). -/
theorem countB_eq (x : XW) (w : Wave) (i : Nat) : countB x w i = countOf x w x.b i := rfl
theorem countC_eq (x : XW) (w : Wave) (i : Nat) : countC x w i = countOf x w x.c i := rfl

section
variable {t : Ty} (a c : Nat)

theorem shlVal_eq : shlVal t a c = (BitVec.ofNat t.width a <<< c).toNat := by
  rw [BitVec.toNat_shiftLeft, BitVec.toNat_ofNat, shlVal]
  split
  next out =>
    obtain ⟨k, rfl⟩ := Nat.exists_eq_add_of_le out
    rw [Nat.shiftLeft_eq, Nat.pow_add, ← Nat.mul_assoc, Nat.mul_right_comm, Nat.mul_mod_left]
  · rw [Nat.shiftLeft_eq, Nat.mod_mul_mod]

theorem shrVal_eq : shrVal t a c = (BitVec.ofNat t.width a >>> c).toNat := by
  rw [BitVec.toNat_ushiftRight, BitVec.toNat_ofNat, Nat.shiftRight_eq_div_pow, shrVal]
  split
  next out => rw [Nat.div_eq_of_lt ((Nat.mod_lt _ (Nat.two_pow_pos _)).trans_le (Nat.pow_le_pow_right two_pos out))]
  · rfl

/-- Shifting by more than the width leaves what shifting by the width does: the sign. -/
theorem shiftRight_min {n : Nat} {z : Int} (low : -2 ^ n ≤ z) (high : z < 2 ^ n) (c : Nat) : z / 2 ^ min c n = z / 2 ^ c := by
  rcases Nat.le_total c n with le | le
  · rw [Nat.min_eq_left le]
  · have wider : (2 : Int) ^ n ≤ 2 ^ c := pow_le_pow_right₀ (by norm_num) le
    rw [Nat.min_eq_right le]
    rcases lt_or_ge z 0 with neg | pos
    · rw [Int.ediv_eq_neg_one_of_neg_of_le neg (by omega), Int.ediv_eq_neg_one_of_neg_of_le neg (by omega)]
    · rw [Int.ediv_eq_zero_of_lt pos high, Int.ediv_eq_zero_of_lt pos (by omega)]

theorem sarVal_eq : sarVal t a c = ((BitVec.ofNat t.width a).sshiftRight c).toNat := by
  rw [sarVal, ofSigned_eq, toSigned_width, BitVec.sshiftRight, Int.shiftRight_eq_div_pow, Nat.cast_pow, Nat.cast_pow, Nat.cast_ofNat]
  have low := BitVec.le_toInt (BitVec.ofNat t.width a)
  have high := BitVec.toInt_lt (x := BitVec.ofNat t.width a)
  have half : (2 : Int) ^ t.width = 2 ^ (t.width - 1) * 2 := by rw [← pow_succ, ← width_eq_succ]
  have pos : (0 : Int) < 2 ^ (t.width - 1) := by positivity
  rw [shiftRight_min (by omega) (by omega)]

theorem rolVal_eq : rolVal t a c = ((BitVec.ofNat t.width a).rotateLeft c).toNat := by
  rw [BitVec.toNat_rotateLeft, BitVec.toNat_ofNat, rolVal]
  have bound : a % 2 ^ t.width < 2 ^ t.width := Nat.mod_lt _ (Nat.two_pow_pos _)
  have count : c % t.width < t.width := Nat.mod_lt _ (by rw [width_eq_succ]; omega)
  have low : a % 2 ^ t.width / 2 ^ (t.width - c % t.width) < 2 ^ (c % t.width) := by
    apply Nat.div_lt_of_lt_mul
    rwa [← Nat.pow_add, Nat.sub_add_cancel count.le]
  have high : (a * 2 ^ (c % t.width) + a % 2 ^ t.width / 2 ^ (t.width - c % t.width)) % 2 ^ t.width =
      (2 ^ (c % t.width) * (a % 2 ^ t.width) + a % 2 ^ t.width / 2 ^ (t.width - c % t.width)) % 2 ^ t.width := by
    rw [Nat.add_mod, Nat.mul_comm, ← Nat.mul_mod_mod, ← Nat.add_mod]
  rw [high, Nat.two_pow_add_eq_or_of_lt low, Nat.or_mod_two_pow, Nat.shiftLeft_eq, Nat.mul_comm, Nat.shiftRight_eq_div_pow,
    Nat.mod_eq_of_lt (low.trans (Nat.pow_lt_pow_right (by omega) count))]

end

/-! ### Fields (R207) -/

section
variable {t : Ty} {a d p n : Nat}

theorem fieldLen_le (t : Ty) (p n : Nat) (pos : 0 < fieldLen t p n) : p + fieldLen t p n ≤ t.width := by
  unfold fieldLen at *
  split at pos <;> simp only [*, if_true, if_false] <;> omega

theorem field_lt (x lo len : Nat) : field x lo len < 2 ^ len := Nat.mod_lt _ (Nat.two_pow_pos _)

/-- The field of a type's width, extended by its top bit for a signed type (R207). -/
theorem testBit_bfxVal (j : Nat) : (bfxVal t a p n).testBit j = (decide (j < t.width) &&
    (if j < fieldLen t p n then (BitVec.ofNat t.width a).getLsbD (p + j)
      else t.signed && decide (0 < fieldLen t p n) && (BitVec.ofNat t.width a).getLsbD (p + fieldLen t p n - 1))) := by
  unfold bfxVal
  obtain ⟨k, hk⟩ : ∃ k, k = fieldLen t p n := ⟨_, rfl⟩
  rw [← hk]
  have inside : 0 < k → p + k ≤ t.width := fun pos => hk ▸ fieldLen_le t p n (hk ▸ pos)
  by_cases zero : k = 0
  · simp [zero]
  obtain ⟨l, rfl⟩ : ∃ l, k = l + 1 := ⟨k - 1, by omega⟩
  have inside := inside (Nat.succ_pos l)
  have bit {i : Nat} (lt : i < l + 1) : (field a p (l + 1)).testBit i = (BitVec.ofNat t.width a).getLsbD (p + i) := by
    rw [testBit_field, decide_eq_true lt, Bool.true_and, getLsbD_ofNat_width, decide_eq_true (show p + i < t.width by omega), Bool.true_and]
  by_cases signed : t.signed = true
  · have extended : (signExt (l + 1) t.width (field a p (l + 1))).testBit j = ((BitVec.ofNat (l + 1) (field a p (l + 1))).signExtend t.width).getLsbD j := by
      rw [← ofNat_signExt, getLsbD_ofNat_width]
      by_cases lt : j < t.width
      · simp [lt]
      · rw [decide_eq_false lt, Bool.false_and, signExt, ofSigned_eq]
        exact Nat.testBit_lt_two_pow ((BitVec.isLt _).trans_le (Nat.pow_le_pow_right two_pos (by omega)))
    have top : (BitVec.ofNat (l + 1) (field a p (l + 1))).msb = (BitVec.ofNat t.width a).getLsbD (p + (l + 1) - 1) := by
      rw [BitVec.msb_eq_getLsbD_last, BitVec.getLsbD_ofNat, Nat.add_sub_cancel, decide_eq_true (Nat.lt_succ_self l), Bool.true_and, bit (Nat.lt_succ_self l)]
      rfl
    rw [if_neg zero, if_pos signed, extended, BitVec.getLsbD_signExtend, BitVec.getLsbD_ofNat, top]
    by_cases lt : j < l + 1
    · rw [if_pos lt, if_pos lt, decide_eq_true lt, Bool.true_and, bit lt]
    · rw [if_neg lt, if_neg lt, signed, decide_eq_true (Nat.succ_pos l), Bool.and_self, Bool.true_and]
  · simp only [if_neg zero, if_neg signed]
    by_cases lt : j < l + 1
    · simp [lt, bit lt, show j < t.width by omega]
    · simp [lt, testBit_field, signed]

theorem testBit_bfiVal (ha : a < 2 ^ t.width) (hd : d < 2 ^ t.width) (j : Nat) : (bfiVal t d a p n).testBit j =
    (if p ≤ j ∧ j < p + fieldLen t p n then (BitVec.ofNat t.width a).getLsbD (j - p) else (BitVec.ofNat t.width d).getLsbD j) := by
  have whole {x : Nat} (hx : x < 2 ^ t.width) (i : Nat) : (BitVec.ofNat t.width x).getLsbD i = x.testBit i := by
    rw [BitVec.getLsbD, BitVec.toNat_ofNat, Nat.mod_eq_of_lt hx]
  rw [whole ha, whole hd, bfiVal]
  obtain ⟨k, hk⟩ : ∃ k, k = fieldLen t p n := ⟨_, rfl⟩
  rw [← hk]
  split
  next zero => rw [if_neg (by omega)]
  next pos =>
    have parts : d = 2 ^ p * (2 ^ k * (d / 2 ^ p / 2 ^ k) + field d p k) + d % 2 ^ p := by
      rw [field, Nat.div_add_mod, Nat.div_add_mod]
    have replaced : d - field d p k * 2 ^ p + field a 0 k * 2 ^ p = 2 ^ p * (2 ^ k * (d / 2 ^ p / 2 ^ k) + field a 0 k) + d % 2 ^ p := by
      have old : d - field d p k * 2 ^ p = 2 ^ p * (2 ^ k * (d / 2 ^ p / 2 ^ k)) + d % 2 ^ p := by
        rw [Nat.mul_add, Nat.mul_comm _ (field d p k)] at parts
        omega
      rw [old, Nat.mul_add, Nat.mul_comm (field a 0 k)]
      omega
    rw [replaced, Nat.testBit_two_pow_mul_add _ (Nat.mod_lt _ (Nat.two_pow_pos p)), Nat.testBit_two_pow_mul_add _ (field_lt a 0 k)]
    by_cases below : j < p
    · rw [if_pos below, if_neg (by omega), Nat.testBit_mod_two_pow, decide_eq_true below, Bool.true_and]
    · rw [if_neg below]
      by_cases inside : j - p < k
      · rw [if_pos inside, if_pos (by omega), testBit_field, decide_eq_true inside, Bool.true_and, Nat.zero_add]
      · rw [if_neg inside, if_neg (by omega), Nat.testBit_div_two_pow, Nat.testBit_div_two_pow]
        congr 1
        omega

end
end Sys2Proof.Machine
end

section
namespace Sys2Proof
open Sys2Proof.Machine

/-- Settles O2: shifts and rotates are those of bit vectors (`shlVal_eq` to `rolVal_eq`), and the bits of a field's result come from the field, its top bit, or D (`testBit_bfxVal`, `testBit_bfiVal`). -/
theorem shiftAndFieldResults : Obligations.ShiftAndFieldResults := by
  intro x key w m s h int a d c len
  have la (i : Nat) : valA x w i < 2 ^ x.t.width := tyOp_lt int ..
  have ld (i : Nat) : tyOp w x.lit x.t x.d i < 2 ^ x.t.width := tyOp_lt int ..
  refine ⟨xWrites_of_eq h rfl fun i => shlVal_eq .., xWrites_of_eq h rfl fun i => shrVal_eq .., xWrites_of_eq h rfl fun i => sarVal_eq ..,
    xWrites_of_eq h rfl fun i => rolVal_eq .., ⟨_, xWrites_of_eq h rfl fun i => rfl, fun i j => testBit_bfxVal j⟩,
    ⟨_, xWrites_of_eq h rfl fun i => rfl, fun i j => testBit_bfiVal (la i) (ld i) j⟩⟩

end Sys2Proof
end

section
/-! SUPPORT. MOV and SEL (R208): what a k register receives, and which source a condition picks. -/
namespace Sys2Proof.Machine
open Sys2Proof

/-- The bits of a k register after a masked write (R204). -/
theorem getLsbD_masked (k m x : Word32) {i : Nat} (lt : i < 32) :
    ((k &&& ~~~m) ||| (x &&& m)).getLsbD i = if m.getLsbD i then x.getLsbD i else k.getLsbD i := by
  simp only [BitVec.getLsbD_or, BitVec.getLsbD_and, BitVec.getLsbD_not, decide_eq_true lt, Bool.true_and]
  cases m.getLsbD i <;> simp

theorem putK_eq (n : BitVec 3) (m x : Word32) (w : Wave) : putK n m x w = setK w n.toNat ((kReg w n.toNat &&& ~~~m) ||| (x &&& m)) := rfl

/-- A masked write of one bit in each lane. -/
theorem getLsbD_masked_maskOf (k m : Word32) (p : Nat → Bool) {i : Nat} (lt : i < 32) :
    ((k &&& ~~~m) ||| (maskOf p &&& m)).getLsbD i = if m.getLsbD i then p i else k.getLsbD i := by
  rw [getLsbD_masked _ _ _ lt, getLsbD_maskOf, decide_eq_true lt, Bool.true_and]

section
variable {x : XW} {w : Wave} {i : Nat}

theorem movBit_perLane (per : x.a.perLane = true) : movBit x w i = if x.t.width = 64 then (valA x w i).testBit i else (toV x.t (valA x w i)).getLsbD i := by
  rw [movBit, if_pos per]

theorem movBit_uniform (uniform : x.a.perLane = false) : movBit x w i = (maskBits x w).getLsbD i := by
  rw [movBit, uniform, if_neg Bool.false_ne_true]

/-- What is no constant of a floating type gives its bits as they stand. -/
theorem movBit_raw (uniform : x.a.perLane = false) (notConst : x.t.isFloat = true → (∀ c, x.a ≠ .int c) ∧ ∀ c, x.a ≠ .fc c) (lt : i < 32) :
    movBit x w i = (rawOp w x.lit false x.a 0).getLsbD i := by
  have raw : maskBits x w = (rawOp w x.lit false x.a 0).setWidth 32 := by
    unfold maskBits
    split
    next c float eq => exact absurd eq ((notConst float).1 c)
    next c float eq => exact absurd eq ((notConst float).2 c)
    · rfl
  rw [movBit_uniform uniform, raw, BitVec.getLsbD_setWidth, decide_eq_true lt, Bool.true_and]

theorem movBit_const (float : x.t.isFloat = true) (const : (∃ c, x.a = .int c) ∨ ∃ c, x.a = .fc c) : movBit x w i = (BitVec.ofNat 32 (valA x w 0)).getLsbD i := by
  obtain ⟨c, eq⟩ | ⟨c, eq⟩ := const
  all_goals
    rw [movBit_uniform (by rw [eq]; rfl)]
    unfold maskBits
    rw [float, eq]

end

theorem exec_mov_of_not_k {x : XW} {key : Nat} {w : Wave} {m : Word32} {s : State} (h : XReady x key w m s) (notK : ∀ n, x.d ≠ .k n) :
    exec (.mov x) s = GoesOn key (putLanes x.t x.d m (valA x w) w) s := by
  refine xWrites_of_eq (i := .mov x) (f := fun w => valA x w) h ?_ fun _ => rfl
  change execMov x s = _
  unfold execMov
  split
  next n eq => exact absurd eq (notK n)
  · rfl

theorem exec_mov_k {x : XW} {n : BitVec 3} {key : Nat} {w : Wave} {m : Word32} {s : State} (h : Issues x.guard [srcA x (wideTy x.t)] [(x.d, 1)] key w m s) (toK : x.d = .k n) :
    exec (.mov x) s = GoesOn key (setK w n.toNat ((kReg w n.toNat &&& ~~~m) ||| (maskOf (movBit x w) &&& m))) s := by
  change execMov x s = _
  unfold execMov
  rw [toK] at h ⊢
  exact regWord_of_issues h _

end Sys2Proof.Machine
end

section
namespace Sys2Proof
open Sys2Proof.Machine

/-- Settles O3: a k register takes one bit in each selected lane (`getLsbD_masked_maskOf`), by the form of A (`movBit_perLane`, `movBit_raw`, `movBit_const`), and SEL picks by its condition. -/
theorem moveResults : Obligations.MoveResults := by
  intro x key w m s
  refine ⟨exec_mov_of_not_k, fun n h toK => ⟨_, exec_mov_k h toK, fun i lt => ?bits⟩, fun h => ?select⟩
  case bits =>
    rw [getLsbD_masked_maskOf _ _ _ lt]
    refine ⟨fun out => by rw [out, if_neg Bool.false_ne_true], fun sel => ?_⟩
    rw [if_pos sel]
    have plain {o : Operand} (eq : x.a = o) (uniform : o.perLane = false) (ni : ∀ c, o ≠ .int c) (nf : ∀ c, o ≠ .fc c) :
        movBit x w i = (rawOp w x.lit false o 0).getLsbD i := eq ▸ movBit_raw (eq ▸ uniform) (fun _ => eq ▸ ⟨ni, nf⟩) lt
    refine ⟨movBit_perLane, fun r eq => plain eq rfl (by simp) (by simp), fun r eq => ?_, fun eq => plain eq rfl (by simp) (by simp),
      fun c eq int => ?_, movBit_const, fun uniform ni nf => plain rfl uniform ni nf⟩
    · rw [plain eq rfl (by simp) (by simp), rawOp, BitVec.getLsbD_setWidth, decide_eq_true (by omega), Bool.true_and]
    · rw [movBit_raw (by rw [eq]; rfl) (fun float => by simp [int] at float) lt, eq, rawOp]
  case select =>
    intro picks
    have run {f : Nat → Bool} (cond : selCond x w = f) : picks f :=
      xWrites_of_eq h (f := fun w i => if selCond x w i then valA x w i else valB x w i) rfl fun i => by rw [cond]
    refine ⟨fun k hc ⟨d, hd⟩ => run ?_, fun k hc ⟨d, hd⟩ => run ?_, fun c hc => run ?_⟩
    · simp [funext_iff, selCond, hc, hd]
    · simp [funext_iff, selCond, hc, hd, bne, beq_eq_decide]
    · simp [funext_iff, selCond, hc, bne, beq_eq_decide]

end Sys2Proof
end

section
/-! SUPPORT. LEA, PADD and HMIX (R209 to R211): the two parts of a pointer, and a word as a list of elements. -/
namespace Sys2Proof.Machine
open Sys2Proof

/-! ### LEA (R209) -/

/-- An index as 64 bits: sign-extended where its type is signed, else zero-extended. -/
theorem ofSigned_intVal (t : Ty) (b : Nat) :
    BitVec.ofNat 64 (ofSigned 64 (intVal t b)) = if t.signed then (BitVec.ofNat t.width b).signExtend 64 else (BitVec.ofNat t.width b).setWidth 64 := by
  rw [intVal_eq, ofSigned_eq, BitVec.ofNat_toNat, BitVec.setWidth_eq, tyInt]
  split
  · rfl
  · rw [BitVec.ofInt_natCast]
    exact BitVec.eq_of_toNat_eq (by simp)

section
variable {a : Nat} (ha : a < 2 ^ 64) (idx sh : Nat)
include ha

theorem leaVal_lt : leaVal a idx sh < 2 ^ 64 := by
  have low : (a % 2 ^ 60 + idx * 2 ^ sh) % 2 ^ 60 < 2 ^ 60 := Nat.mod_lt _ (by norm_num)
  unfold leaVal
  omega

/-- Bits [59:0] move by the shifted index, modulo 2^60. -/
theorem leaVal_address : (BitVec.ofNat 64 (leaVal a idx sh)).extractLsb' 0 60 =
    (BitVec.ofNat 64 a).extractLsb' 0 60 + (BitVec.ofNat 64 idx <<< sh).extractLsb' 0 60 := by
  apply BitVec.eq_of_toNat_eq
  have shifted : (BitVec.ofNat 64 idx <<< sh).toNat % 2 ^ 60 = idx * 2 ^ sh % 2 ^ 60 := by
    rw [BitVec.toNat_shiftLeft, BitVec.toNat_ofNat, Nat.shiftLeft_eq, Nat.mod_mul_mod, Nat.mod_mod_of_dvd _ (pow_dvd_pow 2 (by norm_num))]
  rw [BitVec.toNat_add, BitVec.extractLsb'_toNat, BitVec.extractLsb'_toNat, BitVec.extractLsb'_toNat, Nat.shiftRight_zero, Nat.shiftRight_zero, Nat.shiftRight_zero,
    shifted, BitVec.toNat_ofNat, BitVec.toNat_ofNat, Nat.mod_eq_of_lt ha, Nat.mod_eq_of_lt (leaVal_lt ha idx sh), leaVal]
  omega

/-- The tag stays. -/
theorem leaVal_tag : (BitVec.ofNat 64 (leaVal a idx sh)).extractLsb' 60 4 = (BitVec.ofNat 64 a).extractLsb' 60 4 := by
  apply BitVec.eq_of_toNat_eq
  have low : (a % 2 ^ 60 + idx * 2 ^ sh) % 2 ^ 60 < 2 ^ 60 := Nat.mod_lt _ (by norm_num)
  rw [BitVec.extractLsb'_toNat, BitVec.extractLsb'_toNat, BitVec.toNat_ofNat, BitVec.toNat_ofNat, Nat.mod_eq_of_lt ha, Nat.mod_eq_of_lt (leaVal_lt ha idx sh),
    Nat.shiftRight_eq_div_pow, Nat.shiftRight_eq_div_pow, leaVal]
  omega

end

/-! ### PADD (R210) -/

/-- The number whose n digits of w bits are e 0, e 1, ... -/
def digits (w : Nat) (e : Nat → Nat) (n : Nat) : Nat := (List.range n).foldl (fun r j => r + e j * 2 ^ (j * w)) 0

section
variable {w : Nat} {e : Nat → Nat} (small : ∀ j, e j < 2 ^ w)

theorem digits_succ (w : Nat) (e : Nat → Nat) (n : Nat) : digits w e (n + 1) = 2 ^ (n * w) * e n + digits w e n := by
  rw [digits, List.range_succ, List.foldl_append, List.foldl_cons, List.foldl_nil, Nat.add_comm, Nat.mul_comm]
  rfl

include small

theorem digits_lt (n : Nat) : digits w e n < 2 ^ (n * w) := by
  induction n with
  | zero => simp [digits]
  | succ n ih =>
    rw [digits_succ, Nat.succ_mul, Nat.pow_add]
    calc 2 ^ (n * w) * e n + digits w e n < 2 ^ (n * w) * (e n + 1) := by rw [Nat.mul_succ]; omega
      _ ≤ 2 ^ (n * w) * 2 ^ w := Nat.mul_le_mul_left _ (small n)

theorem field_digits {n j : Nat} (lt : j < n) : field (digits w e n) (j * w) w = e j := by
  induction n with
  | zero => omega
  | succ n ih =>
    apply Nat.eq_of_testBit_eq
    intro i
    rw [testBit_field, digits_succ, Nat.testBit_two_pow_mul_add _ (digits_lt small n)]
    by_cases below : i < w
    · rw [decide_eq_true below, Bool.true_and]
      rcases Nat.lt_succ_iff_lt_or_eq.1 lt with before | rfl
      · have inside : j * w + i < n * w := by
          have : (j + 1) * w ≤ n * w := Nat.mul_le_mul_right w before
          rw [Nat.succ_mul] at this
          omega
        rw [if_pos inside, ← ih before, testBit_field, decide_eq_true below, Bool.true_and]
      · rw [if_neg (by omega), Nat.add_sub_cancel_left]
    · rw [decide_eq_false below, Bool.false_and, Nat.testBit_lt_two_pow ((small j).trans_le (Nat.pow_le_pow_right two_pos (by omega)))]

end

theorem extractLsb'_of_lt {n x : Nat} (hx : x < 2 ^ n) (lo len : Nat) : (BitVec.ofNat n x).extractLsb' lo len = BitVec.ofNat len (field x lo len) := by
  apply BitVec.eq_of_toNat_eq
  rw [BitVec.extractLsb'_toNat, BitVec.toNat_ofNat, BitVec.toNat_ofNat, Nat.mod_eq_of_lt hx, Nat.shiftRight_eq_div_pow, field, Nat.mod_mod]

theorem paddElem_eq (t : Ty) (op a b : Nat) : paddElem t op a b =
    (let z : Int := if op < 2 then tyInt t (BitVec.ofNat _ a) + tyInt t (BitVec.ofNat _ b) else tyInt t (BitVec.ofNat _ a) - tyInt t (BitVec.ofNat _ b)
     BitVec.ofInt t.width (if op % 2 = 1 then max (tyMin t) (min z (tyMax t)) else z)).toNat := by
  rw [paddElem, ofSigned_eq, clamp_eq, intVal_eq, intVal_eq]

/-- PADD's word has one element of each pair in its place. -/
theorem extractLsb'_paddVal {t : Ty} (wd : t.width = 8 ∨ t.width = 16) {a b : Nat} (op : Nat) {j : Nat} (lt : j < 32 / t.width) :
    (BitVec.ofNat 32 (paddVal t op a b)).extractLsb' (j * t.width) t.width =
      BitVec.ofNat t.width (paddElem t op (field a (j * t.width) t.width) (field b (j * t.width) t.width)) := by
  have small (j : Nat) : paddElem t op (field a (j * t.width) t.width) (field b (j * t.width) t.width) < 2 ^ t.width := by
    rw [paddElem_eq]
    exact BitVec.isLt _
  have whole : 32 / t.width * t.width = 32 := by rcases wd with wd | wd <;> rw [wd]
  have value : paddVal t op a b = digits t.width (fun j => paddElem t op (field a (j * t.width) t.width) (field b (j * t.width) t.width)) (32 / t.width) := rfl
  have bound := digits_lt small (32 / t.width)
  rw [whole] at bound
  rw [value, extractLsb'_of_lt bound, field_digits small lt]

theorem paddVal_lt {t : Ty} (wd : t.width = 8 ∨ t.width = 16) (op a b : Nat) : paddVal t op a b < 2 ^ 32 := by
  have whole : 32 / t.width * t.width = 32 := by rcases wd with wd | wd <;> rw [wd]
  have bound := digits_lt (w := t.width) (e := fun j => paddElem t op (field a (j * t.width) t.width) (field b (j * t.width) t.width))
    (fun j => by rw [paddElem_eq]; exact BitVec.isLt _) (32 / t.width)
  rwa [whole] at bound

end Sys2Proof.Machine
end

section
namespace Sys2Proof
open Sys2Proof.Machine

/-- Settles O4: LEA moves the address and keeps the tag (`leaVal_address`, `leaVal_tag`), PADD's word consists of its elements (`extractLsb'_paddVal`), and HMIX is `hmix`. -/
theorem pointerAndPackedResults : Obligations.PointerAndPackedResults := by
  intro x key w m s
  refine ⟨fun h int => ⟨fun i => BitVec.ofNat 64 (leaVal (intOp w x.lit 64 x.a i) (ofSigned 64 (intVal x.t (valB x w i))) (rawOp w x.lit false x.c i).toNat), ?_, fun i => ?_⟩,
    fun h wd sub => ⟨fun i => BitVec.ofNat 32 (paddVal x.t x.sub.toNat (intOp w x.lit 32 x.a i) (intOp w x.lit 32 x.b i)), ?_, fun i j lt => ?_⟩, fun h b64 => ?_⟩
  · simp only [BitVec.toNat_ofNat, Nat.mod_eq_of_lt (leaVal_lt (intOp_lt w x.lit 64 x.a _) _ _)]
    exact (regWord_of_issues h _ : execLea x s = _)
  · refine ⟨?_, leaVal_tag (intOp_lt ..) _ _⟩
    rw [leaVal_address (intOp_lt ..), ofSigned_intVal]
    rfl
  · simp only [BitVec.toNat_ofNat, Nat.mod_eq_of_lt (paddVal_lt wd ..)]
    exact (regWord_of_issues h _ : execPadd x s = _)
  · dsimp only
    rw [extractLsb'_paddVal wd _ lt, paddElem_eq, extractLsb'_of_lt (intOp_lt ..), extractLsb'_of_lt (intOp_lt ..), BitVec.ofNat_toNat, BitVec.setWidth_eq]
  · exact xWrites_of_eq h rfl fun i => rfl

end Sys2Proof
end

section
/-! SUPPORT. Moves between lanes, and fields packed into a word (R217, R220). -/
namespace Sys2Proof.Machine
open Sys2Proof

/-! ### SHFLX (R217) -/

/-- Writing two registers of a lane is writing them as a pair. -/
theorem setV_setV_eq_setVPair (w : Wave) (n i : Nat) (x y : Word32) : setV (setV w n i x) (n + 1) i y = setVPair w n i (y ++ x) := by
  rw [setVPair, extractLsb'_append_low, BitVec.extractLsb'_append_eq_of_le (le_refl 32), Nat.sub_self, BitVec.extractLsb'_eq_self]

theorem foldl_setVPair_frame (n : Nat) (g : Nat → Word64) (is : List Nat) (w : Wave) :
    is.foldl (fun u i => setVPair u n i (g i)) w = { w with v := (is.foldl (fun u i => setVPair u n i (g i)) w).v } := by
  induction is generalizing w with
  | nil => rfl
  | cons i is ih =>
    rw [List.foldl_cons, ih]
    rfl

theorem execShflx_of_issues {x : XW} {n : BitVec 8} {key : Nat} {w : Wave} {m : Word32} {s : State}
    (h : Issues x.guard [srcAll x.a false x.ea, srcLanesB x false, srcAll x.c false x.ec] [(x.d, 2)] key w m s) (toV : x.d = .v n) :
    exec (.shflx x) s = GoesOn key ((lanesOf m).foldl (fun u i => setVPair u n.toNat i
      (BitVec.ofNat 32 (valC x w (i ^^^ (valB x w i % 32))) ++ BitVec.ofNat 32 (valA x w (i ^^^ (valB x w i % 32))))) w) s := by
  refine (regWord_of_issues h _ : execShflx x s = _).trans ?_
  simp only [toV, setV_setV_eq_setVPair]
  rfl

/-! ### PACK and UNPK (R220) -/

section
variable {d a b : Nat} (ha : a < 2 ^ 32) (hb : b < 2 ^ 32) (hd : d < 2 ^ 32)

include ha hb in
theorem packVal_halves : packVal 0 d a b = ((BitVec.ofNat 32 b).extractLsb' 0 16 ++ (BitVec.ofNat 32 a).extractLsb' 0 16).toNat := by
  simp only [toNat_append_eq, BitVec.extractLsb'_toNat, BitVec.toNat_ofNat, Nat.shiftRight_eq_div_pow, Nat.mod_eq_of_lt ha, Nat.mod_eq_of_lt hb, packVal]
  omega

include ha hb hd in
theorem packVal_low : packVal 1 d a b = ((BitVec.ofNat 32 d).extractLsb' 16 16 ++ (BitVec.ofNat 32 b).extractLsb' 0 8 ++ (BitVec.ofNat 32 a).extractLsb' 0 8).toNat := by
  simp only [toNat_append_eq, BitVec.extractLsb'_toNat, BitVec.toNat_ofNat, Nat.shiftRight_eq_div_pow, Nat.mod_eq_of_lt ha, Nat.mod_eq_of_lt hb, Nat.mod_eq_of_lt hd,
    packVal, field]
  omega

include ha hb hd in
theorem packVal_high : packVal 2 d a b = ((BitVec.ofNat 32 b).extractLsb' 0 8 ++ (BitVec.ofNat 32 a).extractLsb' 0 8 ++ (BitVec.ofNat 32 d).extractLsb' 0 16).toNat := by
  simp only [toNat_append_eq, BitVec.extractLsb'_toNat, BitVec.toNat_ofNat, Nat.shiftRight_eq_div_pow, Nat.mod_eq_of_lt ha, Nat.mod_eq_of_lt hb, Nat.mod_eq_of_lt hd,
    packVal]
  omega

/-- The widths of the fields that UNPK reads. -/
def unpkWidth (op : Nat) : Nat := match op with | 0 => 16 | 1 => 8 | _ => 4

include ha in
theorem unpkVal_eq (t : Ty) (op : Nat) (q : Nat) : unpkVal t op a q =
    (if t.signed then ((BitVec.ofNat 32 a).extractLsb' (unpkWidth op * (q % (32 / unpkWidth op))) (unpkWidth op)).signExtend 32
      else ((BitVec.ofNat 32 a).extractLsb' (unpkWidth op * (q % (32 / unpkWidth op))) (unpkWidth op)).setWidth 32).toNat := by
  obtain ⟨k, hk, narrow⟩ : ∃ k, unpkWidth op = k + 1 ∧ k + 1 ≤ 32 := by
    unfold unpkWidth
    split
    · exact ⟨15, rfl, by omega⟩
    · exact ⟨7, rfl, by omega⟩
    · exact ⟨3, rfl, by omega⟩
  change (if t.signed then signExt (unpkWidth op) 32 (field a (q % (32 / unpkWidth op) * unpkWidth op) (unpkWidth op)) else field a (q % (32 / unpkWidth op) * unpkWidth op) (unpkWidth op)) = _
  rw [hk, extractLsb'_of_lt ha, Nat.mul_comm (k + 1)]
  split
  · have bound (x : Nat) : signExt (k + 1) 32 x < 2 ^ 32 := by
      rw [signExt, ofSigned_eq]
      exact BitVec.isLt _
    rw [← ofNat_signExt, BitVec.toNat_ofNat, Nat.mod_eq_of_lt (bound _)]
  · have small := field_lt a (q % (32 / (k + 1)) * (k + 1)) (k + 1)
    rw [BitVec.toNat_setWidth, BitVec.toNat_ofNat, Nat.mod_eq_of_lt small, Nat.mod_eq_of_lt (small.trans_le (Nat.pow_le_pow_right two_pos narrow))]

end
end Sys2Proof.Machine
end

section
namespace Sys2Proof
open Sys2Proof.Machine

/-- Settles O10: each word reads the lane that R217 names; SHFLX writes its two registers as a pair (`execShflx_of_issues`). -/
theorem laneMoves : Obligations.LaneMoves := by
  intro x key w m s
  refine ⟨fun h => ?_, fun n h toV => ?_, fun n h toS => ?_⟩
  · have shfl {f : Nat → Nat} (eq : ∀ i, valA x w (shflLane x.sub.toNat i (valB x w i)) = f i) : XWrites x (.shfl x) key w m s f :=
      (regWord_of_issues h _ : execShfl x s = _).trans (by rw [funext eq])
    refine ⟨fun sub => shfl fun i => ?_, fun sub => shfl fun i => ?_, fun sub => shfl fun i => ?_, fun sub => shfl fun i => ?_, (regWord_of_issues h _ : execBcast x s = _)⟩
    · rw [sub]; rfl
    · rw [sub]; exact apply_ite (valA x w) _ _ _
    · rw [sub]; exact apply_ite (valA x w) _ _ _
    · rw [sub]; rfl
  · refine ⟨_, execShflx_of_issues h toV, foldl_setVPair_frame .., fun r i lt => ?_⟩
    rw [vReg_foldl_setVPair _ _ _ lt _ fun _ => lt_of_mem_lanesOf]
    simp only [mem_lanesOf_of_lt m lt, extractLsb'_append_low, BitVec.extractLsb'_append_eq_of_le (le_refl 32), Nat.sub_self, BitVec.extractLsb'_eq_self, and_comm]
  · refine (regWord_of_issues h _ : execKget x s = _).trans ?_
    rw [toS]
    rfl

/-- Settles O12: PACK's halves and bytes (`packVal_halves`, `packVal_low`, `packVal_high`), and UNPK's field, extended (`unpkVal_eq`). -/
theorem packResults : Obligations.PackResults := by
  intro x key w m s h wd int a b d
  have la (i : Nat) : valA x w i < 2 ^ 32 := wd ▸ tyOp_lt int ..
  have lb (i : Nat) : valB x w i < 2 ^ 32 := wd ▸ tyOp_lt int ..
  have ld (i : Nat) : tyOp w x.lit x.t x.d i < 2 ^ 32 := wd ▸ tyOp_lt int ..
  have pack {f : Nat → Nat} (eq : ∀ i, packVal x.sub.toNat (tyOp w x.lit x.t x.d i) (valA x w i) (valB x w i) = f i) : XWrites x (.pack x) key w m s f :=
    xWrites_of_eq (f := fun w i => packVal x.sub.toNat (tyOp w x.lit x.t x.d i) (valA x w i) (valB x w i)) h rfl eq
  refine ⟨fun sub => pack fun i => ?_, fun sub => pack fun i => ?_, fun sub => pack fun i => ?_, fun n sub =>
    xWrites_of_eq (f := fun w i => unpkVal x.t x.sub.toNat (valA x w i) (valB x w i)) h rfl fun i => ?_⟩
  · rw [sub]; exact packVal_halves (la i) (lb i)
  · rw [sub]; exact packVal_low (la i) (lb i) (ld i)
  · rw [sub]; exact packVal_high (la i) (lb i) (ld i)
  · have width : n = unpkWidth x.sub.toNat := by rcases sub with ⟨sub, rfl⟩ | ⟨sub, rfl⟩ | ⟨sub, rfl⟩ <;> rw [sub] <;> rfl
    have whole : (b i).toNat = valB x w i := by rw [BitVec.toNat_ofNat, Nat.mod_eq_of_lt (lb i)]
    rw [width, whole]
    exact unpkVal_eq (la i) x.t _ _

end Sys2Proof
end

section
/-! SUPPORT. Compares and masks (R221, R222): one bit in each selected lane, and the lanes that a count takes. -/
namespace Sys2Proof.Machine
open Sys2Proof

/-! ### Words that write a k register (R204) -/

/-- A word that writes one bit of a k register in each selected lane leaves the masked bits there. -/
theorem maskWord_of_issues {x : XW} {n : BitVec 3} {key : Nat} {w : Wave} {m : Word32} {s : State}
    (h : Issues x.guard [srcA x (wideTy x.t), srcB x (wideTy x.t)] [(x.d, 1)] key w m s) (toK : x.d = .k n) (f : Wave → Nat → Bool) :
    maskWord x f s = GoesOn key (setK w n.toNat ((kReg w n.toNat &&& ~~~m) ||| (maskOf (f w) &&& m))) s := by
  refine (regWord_of_issues h _ : maskWord x f s = _).trans ?_
  rw [toK]
  rfl

/-- The mask of the bits of a k register is the register. -/
theorem maskOf_getLsbD (z : Word32) : maskOf (fun i => z.getLsbD i) = z := by
  refine BitVec.eq_of_getLsbD_eq fun i lt => ?_
  rw [getLsbD_maskOf, decide_eq_true lt, Bool.true_and]

/-! ### Conditions (R221) -/

/-- A condition by its number, from whether A is below B and whether they are equal; 6 and 7 are UN and ORD of operands that are no NaN. -/
def condOf (op : Nat) (lt eq : Bool) : Bool :=
  match op with
  | 0 => eq | 1 => !eq | 2 => lt | 3 => lt || eq | 4 => !(lt || eq) | 5 => !lt | 6 => false | _ => true

theorem cmpHolds_eq {op : Nat} (small : op < 6) (a b : Int) : cmpHolds op a b = condOf op (decide (a < b)) (decide (a = b)) := by
  obtain rfl | rfl | rfl | rfl | rfl | rfl : op = 0 ∨ op = 1 ∨ op = 2 ∨ op = 3 ∨ op = 4 ∨ op = 5 := by omega
  all_goals simp only [cmpHolds, condOf, beq_eq_decide, bne, ← Bool.decide_or, ← decide_not, decide_eq_decide]
  all_goals omega

/-- FCMP of operands that are no NaN goes by their order. -/
theorem fcmpHolds_of_num {op : Nat} {a b : FVal} (na : a ≠ .nan) (nb : b ≠ .nan) :
    fcmpHolds op a b = if op = 6 then false else if op = 7 then true else cmpHolds op (fCompare a b) 0 := by
  unfold fcmpHolds
  rw [isNan_eq_false na, isNan_eq_false nb, Bool.or_false, if_neg Bool.false_ne_true]
  split
  · rfl
  · rfl
  next not6 not7 => rw [if_neg not6, if_neg not7]

theorem fcmpHolds_of_compare {op : Nat} (small : op < 8) {a b : FVal} (na : a ≠ .nan) (nb : b ≠ .nan) {lt eq : Bool}
    (order : fCompare a b = if lt then -1 else if eq then 0 else 1) (apart : ¬ (lt = true ∧ eq = true)) : fcmpHolds op a b = condOf op lt eq := by
  rw [fcmpHolds_of_num na nb]
  split
  next un => rw [un]; rfl
  next notUn =>
    split
    next ord => rw [ord]; rfl
    next notOrd =>
      rw [order, cmpHolds_eq (by omega)]
      cases lt <;> cases eq
      · rfl
      · rfl
      · rfl
      · exact absurd ⟨rfl, rfl⟩ apart

section
variable {op : Nat} (small : op < 8) {a b : FVal}

theorem fcmpHolds_nan (nan : a = .nan ∨ b = .nan) : fcmpHolds op a b = (op == 1 || op == 6) := by
  have some : (a.isNan || b.isNan) = true := by
    rcases nan with rfl | rfl
    · rfl
    · exact Bool.or_true _
  unfold fcmpHolds
  rw [some, if_pos rfl]

include small

theorem fcmpHolds_rat {p q : Rat} (ha : a.rat = some p) (hb : b.rat = some q) : fcmpHolds op a b = condOf op (decide (p < q)) (decide (p = q)) := by
  refine fcmpHolds_of_compare small (fun nan => by rw [nan] at ha; cases ha) (fun nan => by rw [nan] at hb; cases hb) ?_ ?_
  · rw [fCompare_of_rat ha hb]
    simp only [decide_eq_true_eq]
  · simp only [decide_eq_true_eq]
    rintro ⟨lt, rfl⟩
    exact lt_irrefl _ lt

theorem fcmpHolds_inf_inf (c d : Bool) : fcmpHolds op (.inf c) (.inf d) = condOf op (c && !d) (c == d) := by
  refine fcmpHolds_of_compare small (by simp) (by simp) ?_ ?_
  · cases c <;> cases d <;> rfl
  · cases c <;> cases d <;> simp

theorem fcmpHolds_inf_rat (c : Bool) {q : Rat} (hb : b.rat = some q) : fcmpHolds op (.inf c) b = condOf op c false := by
  obtain ⟨neg, m, e, rfl⟩ := rat_eq_some hb
  refine fcmpHolds_of_compare small (by simp) (by simp) ?_ (by simp)
  cases c <;> rfl

theorem fcmpHolds_rat_inf {p : Rat} (ha : a.rat = some p) (d : Bool) : fcmpHolds op a (.inf d) = condOf op (!d) false := by
  obtain ⟨neg, m, e, rfl⟩ := rat_eq_some ha
  refine fcmpHolds_of_compare small (by simp) (by simp) ?_ (by simp)
  cases d <;> rfl

end

/-- CMP of a bit type tests equality alone (R203). -/
theorem sub_of_wellFormed_cmp {x : XW} (h : (Instr.cmp x).wellFormed = true) (bits : x.t = .b32 ∨ x.t = .b64) : x.sub.toNat < 2 := by
  have legal : checkX (rowCmp x) x = none := (congrArg Shape.illegal? (rfl : (Instr.cmp x).shape = .x 0x70 (rowCmp x) x)).symm.trans (Instr.shape_legal h)
  simp only [checkX, firstFailed_eq_none, List.forall_mem_cons] at legal
  obtain ⟨-, -, type, -⟩ := legal
  by_contra high
  rw [rowCmp, if_neg high] at type
  rcases bits with eq | eq
  · rw [eq] at type; exact absurd type (by decide)
  · rw [eq] at type; exact absurd type (by decide)

/-! ### Counts (R222) -/

/-- A lane that KPOP and KFF1 count: selected, and its bit set, or its value nonzero for a v source. -/
def laneCounts (x : XW) (m : Word32) (w : Wave) (i : Nat) : Bool := m.getLsbD i && (if isV x.a then decide (valA x w i ≠ 0) else (valA x w 0).testBit i)

theorem countLanes_eq (x : XW) (m : Word32) (w : Wave) : countLanes x m w = (List.range 32).filter (laneCounts x m w) := by
  rw [countLanes, lanesOf, lanes32, List.filter_filter]
  refine List.filter_congr fun i _ => ?_
  rw [laneCounts, Bool.and_comm]
  congr 1
  cases x.a <;> simp [isV, bne, beq_eq_decide]

theorem length_countLanes (x : XW) (m : Word32) (w : Wave) : (countLanes x m w).length = (Finset.univ.filter (fun i : Fin 32 => laneCounts x m w i = true)).card := by
  rw [countLanes_eq, Finset.card_filter, Fin.sum_univ_eq_sum_range (fun i => if laneCounts x m w i = true then 1 else 0), ← Finset.card_filter]
  change _ = ((List.range 32).filter (fun i => decide (laneCounts x m w i = true))).length
  simp only [Bool.decide_eq_true]

/-- The first number below n that a predicate names, or n. -/
theorem head?_filter_range (p : Nat → Bool) (n : Nat) : let r := (((List.range n).filter p).head?).getD n
    r ≤ n ∧ (∀ i < r, p i = false) ∧ (r < n → p r = true) := by
  intro r
  have found : r = ((List.range n).find? p).getD n := by rw [← List.head?_filter]
  rw [found]
  cases h : (List.range n).find? p with
  | none =>
    rw [List.find?_eq_none] at h
    exact ⟨le_rfl, fun i lt => by simpa using h i (List.mem_range.2 lt), fun lt => absurd lt (lt_irrefl n)⟩
  | some k =>
    obtain ⟨here, below⟩ := List.find?_range_eq_some.1 h
    exact ⟨(List.mem_range.1 below.1).le, fun i lt => by simpa using below.2 i lt, fun _ => here⟩

theorem length_countLanes_le (x : XW) (m : Word32) (w : Wave) : (countLanes x m w).length ≤ 32 := by
  rw [countLanes_eq]
  exact (List.length_filter_le _ _).trans_eq List.length_range

theorem putLanes_u32_s {n : BitVec 6} {v : Nat} (le : v ≤ 32) (m : Word32) (w : Wave) : putLanes .u32 (.s n) m (fun _ => v) w = setS w n.toNat (BitVec.ofNat 64 v) := by
  change setS w n.toNat (BitVec.ofNat 64 (v % 2 ^ 32)) = _
  rw [Nat.mod_eq_of_lt (by omega)]

section
variable {x : XW} {n : BitVec 6} {key : Nat} {w : Wave} {m : Word32} {s : State} (h : Issues x.guard [srcCount x] [dstD x false] key w m s) (toS : x.d = .s n)
include h toS

theorem exec_kpop : exec (.kpop x) s = GoesOn key (setS w n.toNat (BitVec.ofNat 64 (Finset.univ.filter (fun i : Fin 32 => laneCounts x m w i = true)).card)) s := by
  refine (regWord_of_issues h _ : execKpop x s = _).trans ?_
  rw [toS, putLanes_u32_s (length_countLanes_le x m w), length_countLanes]

theorem exec_kff1 : exec (.kff1 x) s = GoesOn key (setS w n.toNat (BitVec.ofNat 64 ((((List.range 32).filter (laneCounts x m w)).head?).getD 32))) s := by
  obtain ⟨le, -⟩ := head?_filter_range (laneCounts x m w) 32
  refine (regWord_of_issues h _ : execKff1 x s = _).trans ?_
  rw [toS, countLanes_eq, putLanes_u32_s le]

end
end Sys2Proof.Machine
end

section
namespace Sys2Proof
open Sys2Proof.Machine

/-- Settles O13: both compares write masked bits (`maskWord_of_issues`), CMP's by the order of integers (`cmpHolds_eq`), FCMP's by that of rational values and infinities (`fcmpHolds_rat` to `fcmpHolds_rat_inf`). -/
theorem compareResults : Obligations.CompareResults := by
  intro x n key w m s toK h holds
  have named : holds = condOf x.sub.toNat := rfl
  refine ⟨fun small int => ⟨_, maskWord_of_issues h toK _, fun i lt => ?_⟩, sub_of_wellFormed_cmp, fun small => ⟨_, maskWord_of_issues h toK _, fun i lt => ?_⟩⟩
  · rw [getLsbD_masked_maskOf _ _ _ lt, named, cmpHolds_eq small, intVal_eq, intVal_eq]
    rfl
  · intro a b
    rw [getLsbD_masked_maskOf _ _ _ lt, named]
    have is (v : Nat) (lt : v < 16) : (x.sub == BitVec.ofNat 4 v) = (x.sub.toNat == v) := by
      simp only [beq_eq_decide, ← BitVec.toNat_inj, BitVec.toNat_ofNat, Nat.mod_eq_of_lt (show v < 2 ^ 4 from lt)]
    refine ⟨fun out => by rw [out, if_neg Bool.false_ne_true], fun sel nan => ?_, fun sel p q ha hb => ?_, fun sel c d ha hb => ?_, fun sel c q ha hb => ?_, fun sel p d ha hb => ?_⟩
    all_goals rw [sel, if_pos rfl]
    · rw [show (x.sub == 1 || x.sub == 6) = (x.sub.toNat == 1 || x.sub.toNat == 6) from congrArg₂ or (is 1 (by omega)) (is 6 (by omega))]
      exact fcmpHolds_nan nan
    · exact fcmpHolds_rat small ha hb
    · exact (congrArg₂ (fcmpHolds _) ha hb).trans (fcmpHolds_inf_inf small c d)
    · exact (congrArg (fcmpHolds _ · _) ha).trans (fcmpHolds_inf_rat small c hb)
    · exact (congrArg (fcmpHolds _ _) hb).trans (fcmpHolds_rat_inf small ha d)

/-- Settles O14: KOP and KSET write masked bits (`maskWord_of_issues`), KPOP and KFF1 take the number and the first of the lanes that count (`exec_kpop`, `exec_kff1`). -/
theorem maskResults : Obligations.MaskResults := by
  intro x key w m s a b
  refine ⟨fun n h toK => ⟨fun z op => ?_, _, maskWord_of_issues h toK _, fun i lt => ?_⟩, fun n h toS => ?_⟩
  · have value : kopVal x.sub.toNat a b = z := by
      rcases op with ⟨sub, rfl⟩ | ⟨sub, rfl⟩ | ⟨sub, rfl⟩ | ⟨sub, rfl⟩ | ⟨sub, rfl⟩ | ⟨sub, rfl⟩ <;> rw [sub] <;> rfl
    refine (maskWord_of_issues h toK _ : execKop x s = _).trans ?_
    rw [← value, maskOf_getLsbD]
  · rw [getLsbD_masked_maskOf _ _ _ lt]
    cases m.getLsbD i <;> simp [bne, beq_eq_decide]
  · exact ⟨exec_kpop h toS, _, exec_kff1 h toS, head?_filter_range (laneCounts x m w) 32⟩

end Sys2Proof
end

section
/-! SUPPORT. Words that change the record of their own block: what the block and the wave are afterwards, and the formats of R227 and R228. -/
namespace Sys2Proof.Machine
open Sys2Proof

/-- A word that is done with a change of its block leaves every other block. -/
theorem done_modBlock {v : View} {s : State} (h : viewOf s v.key = some v) (f : Block → Block) :
    done v.key (modBlock v.w.blk f s) = GoesOn v.key v.w { s with blocks := mput s.blocks v.w.blk (f v.b) } := by
  obtain ⟨-, hw, hb, -, -⟩ := viewOf_eq_some.mp h
  rw [modBlock_of_some hb]
  exact congrArg Host.Outcome.next (modWave_of_some (s := putBlock v.w.blk (f v.b) s) hw advance)

/-- What WRES accepts as element count and format word (R227, R228). -/
theorem formatOk_iff (e f : Nat) : formatOk e f = true ↔ e ≠ 0 ∧ e % 96 = 0 ∧ f < 64 ∧ f % 16 ≤ 9 ∧ (f.testBit 4 = true → f.testBit 5 = true) ∧
    (f % 16 ≤ 3 → f.testBit 5 = true) ∧ (7 ≤ f % 16 → f.testBit 5 = false) := by
  have low : field f 0 4 = f % 16 := by simp [field]
  unfold formatOk bitAt
  rw [low]
  cases f.testBit 4 <;> cases f.testBit 5 <;> simp [and_assoc]

/-- A reservation in a state admits a writer where it is empty or ready (R121). -/
theorem admitsWriter_some {r : Res} : admitsWriter (some r) = true ↔ r.st = 1 ∨ r.st = 3 := by simp [admitsWriter]

/-- A reservation admits a reader where it is ready or draining (R121). -/
theorem admitsReader_some {r : Res} : admitsReader (some r) = true ↔ r.st = 3 ∨ r.st = 4 := by simp [admitsReader]

/-! ### WRES, WREL and WSTAT (R228, R229, R230) -/

theorem execWrel_of_admits {q : QW} {v : View} {m : Word32} {s : State} (h : Acts q.guard [] [] v m s) (free : admitsWriter (mget v.b.res q.wa.toNat) = true) :
    execWrel q s = GoesOn v.key v.w { s with blocks := mput s.blocks v.w.blk { v.b with res := mdel v.b.res q.wa.toNat } } :=
  (viewWord_of_acts h _).trans ((if_pos free).trans (done_modBlock h.view _))

theorem execWrel_of_busy {q : QW} {v : View} {m : Word32} {s : State} (h : Acts q.guard [] [] v m s) (busy : ¬ admitsWriter (mget v.b.res q.wa.toNat) = true) :
    execWrel q s = .next s :=
  (viewWord_of_acts h _).trans (if_neg busy)

end Sys2Proof.Machine
end

section
namespace Sys2Proof
open Sys2Proof.Machine

/-- Settles O38: the operands of WRES are legal as R227 and R228 say, and each word changes the record of its own block alone. -/
theorem reservationWords : Obligations.ReservationWords := by
  intro q v mask s e f fmt b32 sc bits rows size units legal own
  have legalIff : formatOk e f = true ↔ legal := formatOk_iff e f
  have low : field f 0 4 = fmt := by simp [field, fmt]
  have sizeEq : resSize (field f 0 4) e (bitAt f 4) (bitAt f 5) = size := by rw [low]; rfl
  refine ⟨fun h => ?_, fun h => ⟨fun r found st => ?_, fun busy => ?_⟩, fun h => ⟨fun r d found reg => ?_, fun none => ?_⟩⟩
  · have refused : (¬ formatOk e f ∨ resSize (field f 0 4) e (bitAt f 4) (bitAt f 5) > 2 ^ 20 ∨
        own + (resSize (field f 0 4) e (bitAt f 4) (bitAt f 5) + 4095) / 4096 > 256) ↔ ¬ (legal ∧ size ≤ 2 ^ 20 ∧ own + units ≤ 256) := by
      rw [sizeEq, legalIff]
      exact (or_congr_right (or_congr not_le.symm not_le.symm)).trans ((or_congr_right not_and_or.symm).trans not_and_or.symm)
    have body : execWres q s = _ := viewWord_of_acts h _
    refine ⟨fun ok small few unused room => ?_, fun bad => ?_, fun ok small few full => ?_⟩
    · refine body.trans ((if_neg (mt refused.mp (not_not_intro ⟨ok, small, few⟩))).trans ((if_neg ?_).trans ((done_modBlock h.view _).trans ?_)))
      · rw [unused, sizeEq]
        rintro (used | above)
        · exact Bool.false_ne_true used
        · exact absurd room (not_le.mpr above)
      · rw [low]
        rfl
    · exact body.trans (if_pos (refused.mpr bad))
    · refine body.trans ((if_neg (mt refused.mp (not_not_intro ⟨ok, small, few⟩))).trans (if_pos ?_))
      rw [sizeEq]
      exact full.imp Option.isSome_iff_ne_none.mpr id
  · exact execWrel_of_admits h (by rw [found]; exact admitsWriter_some.mpr st)
  · refine execWrel_of_busy h fun free => ?_
    cases found : mget v.b.res q.wa.toNat with
    | none => rw [found] at free; exact absurd free Bool.false_ne_true
    | some r =>
      rw [found] at free
      obtain ⟨not1, not3⟩ := busy r found
      exact (admitsWriter_some.mp free).elim not1 not3
  · refine (viewWord_of_acts h _ : execWstat q s = _).trans ?_
    simp only [found, reg]
    rfl
  · refine (viewWord_of_acts h _ : execWstat q s = _).trans ?_
    simp only [none]
    rfl

end Sys2Proof
end

section
/-! SUPPORT. The tolerance traps of a word, raised one after the other (R109, R110, R199, R200), before a change of blocks alone. -/
namespace Sys2Proof.Machine
open Sys2Proof

/-! ### Traps in order -/

/-- The soft traps of a list, raised in order: each goes on, without a handler, to the next, and the last to the word's effect. -/
def raiseAll (key : Nat) : List TrapSpec → (Wave → State → Result) → Wave → State → Result
  | [], go, w, s => go w s
  | t :: rest, go, w, s => raiseTrap key w t (raiseAll key rest go) s

/-- A trap stops its word: inside a handler the word is illegal, and with one the wave enters it. -/
def StopsWord (v : View) (trap : TrapSpec) (s : State) (r : Result) : Prop :=
  (v.w.trapSt = true → r = illegalWord v.w s) ∧
  (v.w.trapSt = false → v.w.trapVec ≠ 0 → ∃ u, softTrap v.w trap = .enter u ∧ r = .next (putWave v.key u s))

/-- A trap without a handler leaves its record, and the word goes on: its wave as goes, the blocks as did says. -/
def LeavesRecord (v : View) (trap : TrapSpec) (goes : Wave) (did : State → Prop) (s : State) (r : Result) : Prop :=
  v.w.trapSt = false → v.w.trapVec = 0 →
    ∃ u t, softTrap v.w trap = .go u ∧ r = .next t ∧ mget t.waves v.key = some (advance { goes with trec := u.trec }) ∧
      (∀ k, k ≠ v.key → mget t.waves k = mget s.waves k) ∧ t = { s with waves := t.waves, blocks := t.blocks } ∧ did t

theorem raiseAll_append (key : Nat) (a b : List TrapSpec) (go : Wave → State → Result) : raiseAll key (a ++ b) go = raiseAll key a (raiseAll key b go) := by
  induction a with
  | nil => rfl
  | cons t rest ih =>
    funext w s
    exact congrArg (fun f => raiseTrap key w t f s) ih

/-- The first trap of a list stops the word. -/
theorem stopsWord_raiseAll (v : View) (t : TrapSpec) (rest : List TrapSpec) (go : Wave → State → Result) (s : State) :
    StopsWord v t s (raiseAll v.key (t :: rest) go v.w s) :=
  ⟨fun inside => raiseTrap_of_inside _ _ _ inside, fun outside handler => raiseTrap_of_handler _ _ _ outside handler⟩

/-- Without a handler the wave goes on with the record of the last trap, whatever its record was before. -/
theorem raiseAll_of_no_handler {w : Wave} (outside : w.trapSt = false) (none : w.trapVec = 0) (key : Nat) (last : TrapSpec) (go : Wave → State → Result) :
    ∀ traps : List TrapSpec, (∀ t ∈ traps ++ [last], t.cause ≤ 4) → ∀ (x : TrapRec) (s : State), ∃ r, (r = s ∨ ∃ u, r = putWave key u s) ∧
      raiseAll key (traps ++ [last]) go { w with trec := x } s = go { w with trec := trapEntry w last } (putWave key { w with trec := trapEntry w last } r)
  | [], causes, x, s => by
    have small : last.cause ≤ 4 := causes last (List.mem_singleton_self last)
    have place : trapEntry { w with trec := x } last = trapEntry w last := by
      unfold trapEntry placeOfTrap
      rw [if_pos (show last.cause ≤ 5 by omega), if_pos (show last.cause ≤ 5 by omega)]
      rfl
    have act := (softTrap_of_no_handler (w := { w with trec := x }) (t := last) outside none).trans (if_neg (by omega))
    refine ⟨s, .inl rfl, ?_⟩
    simp only [List.nil_append, raiseAll, raiseTrap, act, place]
  | t :: rest, causes, x, s => by
    have small : t.cause ≤ 4 := causes t List.mem_cons_self
    have act := (softTrap_of_no_handler (w := { w with trec := x }) (t := t) outside none).trans (if_neg (by omega))
    obtain ⟨r, same, goes⟩ := raiseAll_of_no_handler outside none key last go rest (fun u mem => causes u (List.mem_cons_of_mem _ mem))
      (trapEntry { w with trec := x } t) (putWave key { w with trec := trapEntry { w with trec := x } t } s)
    refine ⟨r, .inr ?_, ?_⟩
    · obtain same | ⟨u, same⟩ := same
      · exact ⟨_, same⟩
      · exact ⟨u, same.trans (putWave_putWave _ _ _ _)⟩
    · simp only [List.cons_append, raiseAll, raiseTrap, act]
      exact goes

/-! ### Changes of blocks -/

/-- A change of the blocks of a state, and of nothing else, that does not look at waves. -/
structure OnBlocks (f : State → State) : Prop where
  putWave : ∀ k x s, f (putWave k x s) = Machine.putWave k x (f s)
  frame : ∀ s, f s = { s with blocks := (f s).blocks }

theorem onBlocks_modBlock (k : Nat) (f : Block → Block) : OnBlocks (modBlock k f) := by
  constructor
  · intro j x s
    unfold modBlock
    rw [putWave_blocks]
    split <;> rfl
  · intro s
    unfold modBlock
    split <;> rfl

theorem OnBlocks.comp {f g : State → State} (hf : OnBlocks f) (hg : OnBlocks g) : OnBlocks (fun s => f (g s)) where
  putWave k x s := by rw [hg.putWave, hf.putWave]
  frame s := by
    have outer := hf.frame (g s)
    have inner := hg.frame s
    generalize (f (g s)).blocks = bs at outer ⊢
    rw [outer, inner]

theorem OnBlocks.frame_putWave {f : State → State} (hf : OnBlocks f) (k : Nat) (x : Wave) (s : State) :
    Machine.putWave k x (f s) = { s with waves := (Machine.putWave k x (f s)).waves, blocks := (Machine.putWave k x (f s)).blocks } := by
  have frame := hf.frame s
  generalize (f s).blocks = bs at frame
  rw [frame]
  rfl

theorem onBlocks_id : OnBlocks (fun s => s) := ⟨fun _ _ _ => rfl, fun _ => rfl⟩

/-! ### Words that go on to a change of blocks -/

section
variable {v : View} {s : State} {goes : Wave → Wave} {change : State → State}

/-- What such a word does when its traps let it: its wave goes on, the blocks change. -/
def goesWith (v : View) (goes : Wave → Wave) (change : State → State) (w : Wave) (s : State) : Result :=
  .next (putWave v.key (advance (goes w)) (change s))

theorem goesWith_eq (onBlocks : OnBlocks change) {bs : List (Nat × Block)} (h : (change s).blocks = bs) :
    goesWith v goes change v.w s = .next (putWave v.key (advance (goes v.w)) { s with blocks := bs }) := by
  rw [goesWith, onBlocks.frame s, h]

theorem leavesRecord_raiseAll (onBlocks : OnBlocks change) (keep : ∀ x, goes { v.w with trec := x } = { goes v.w with trec := x })
    (traps : List TrapSpec) (last : TrapSpec) (causes : ∀ t ∈ traps ++ [last], t.cause ≤ 4) {did : State → Prop} (done : ∀ w, did (putWave v.key w (change s))) :
    LeavesRecord v last (goes v.w) did s (raiseAll v.key (traps ++ [last]) (goesWith v goes change) v.w s) := by
  intro outside none
  have small : last.cause ≤ 4 := causes last (List.mem_append_right _ (List.mem_singleton_self last))
  have act := (softTrap_of_no_handler (w := v.w) (t := last) outside none).trans (if_neg (by omega))
  obtain ⟨r, same, res⟩ := raiseAll_of_no_handler outside none v.key last (goesWith v goes change) traps causes v.w.trec s
  have final : ∀ w, putWave v.key w (change (putWave v.key { v.w with trec := trapEntry v.w last } r)) = putWave v.key w (change s) := by
    intro w
    rw [onBlocks.putWave, putWave_putWave]
    obtain rfl | ⟨u, rfl⟩ := same
    · rfl
    · rw [onBlocks.putWave, putWave_putWave]
  refine ⟨_, putWave v.key (advance { goes v.w with trec := trapEntry v.w last }) (change s), act, ?_, ?_, fun k other => ?_, ?_, done _⟩
  · refine res.trans ?_
    rw [goesWith, final, keep]
  · exact mget_putWave_same _ _ _
  · rw [mget_putWave_ne other, onBlocks.frame s]
  · exact onBlocks.frame_putWave _ _ _

end

/-! ### The checks of R199 and R200 -/

/-- The trap of a stale reservation, by its number. -/
def staleTraps (v : View) (mask : Word32) (n : Nat) (r : Res) : List TrapSpec :=
  if staleRes v.b r then [{ cause := 3, detail := r.node + n * 256, lanes := mask }] else []

/-- The trap of an unmet node. -/
def unmetTraps (v : View) (mask : Word32) (n : Nat) : List TrapSpec :=
  if (choiceAt v.b n).unm then [{ cause := 4, detail := n, lanes := mask }] else []

theorem staleCheck_eq {v : View} {mask : Word32} {owner : Block} {n : Nat} {r : Res} (found : mget owner.res n = some r) (go : Wave → State → Result) :
    staleCheck v mask owner n go = raiseAll v.key (staleTraps v mask n r) go := by
  funext w s
  unfold staleCheck staleTraps
  rw [found]
  dsimp only
  split <;> rfl

theorem unmetCheck_eq (v : View) (w : Wave) (mask : Word32) (n : Nat) (go : Wave → State → Result) (s : State) :
    unmetCheck { v with w := w } mask n go s = raiseAll v.key (unmetTraps v mask n) go w s := by
  unfold unmetCheck unmetTraps
  dsimp only
  split <;> rfl

theorem cause_of_stale {v : View} {mask : Word32} {n : Nat} {r : Res} {t : TrapSpec} (h : t ∈ staleTraps v mask n r) : t.cause ≤ 4 := by
  unfold staleTraps at h
  split at h
  · cases List.mem_singleton.mp h
    exact Nat.le_succ 3
  · exact absurd h List.not_mem_nil

theorem cause_of_unmet {v : View} {mask : Word32} {n : Nat} {t : TrapSpec} (h : t ∈ unmetTraps v mask n) : t.cause ≤ 4 := by
  unfold unmetTraps at h
  split at h
  · cases List.mem_singleton.mp h
    exact Nat.le_refl 4
  · exact absurd h List.not_mem_nil

/-! ### MLOOP (R233, R234, R235) -/

/-- A loop of the block of v on reservation wb of block pk joins the loops, binds its tile and holds its reservations. -/
def joins (v : View) (ct wa wb pk : Nat) (s : State) : State :=
  let t := modRes v.w.blk wa startRead (joinLoops v (bindTiles v.w.blk [ct] s))
  if pk = v.w.blk ∧ wa = wb then t else modRes pk wb startRead t

theorem onBlocks_joins (v : View) (ct wa wb pk : Nat) : OnBlocks (joins v ct wa wb pk) := by
  have own : OnBlocks (fun s => modRes v.w.blk wa startRead (joinLoops v (bindTiles v.w.blk [ct] s))) :=
    (onBlocks_modBlock _ _).comp ((onBlocks_modBlock _ _).comp (onBlocks_modBlock _ _))
  by_cases same : pk = v.w.blk ∧ wa = wb
  · have eq : joins v ct wa wb pk = fun s => modRes v.w.blk wa startRead (joinLoops v (bindTiles v.w.blk [ct] s)) := funext fun s => if_pos same
    exact eq ▸ own
  · have eq : joins v ct wa wb pk = fun s => modRes pk wb startRead (modRes v.w.blk wa startRead (joinLoops v (bindTiles v.w.blk [ct] s))) :=
      funext fun s => if_neg same
    exact eq ▸ (onBlocks_modBlock _ _).comp own

theorem mget_modRes_other {bk k : Nat} (other : k ≠ bk) (n : Nat) (f : Res → Res) (s : State) : mget (modRes bk n f s).blocks k = mget s.blocks k := by
  rw [modRes, mget_modBlock, if_neg other]

theorem mget_modRes_same {bk n : Nat} {b : Block} {r : Res} {s : State} (hb : mget s.blocks bk = some b) (hr : mget b.res n = some r) (f : Res → Res) :
    mget (modRes bk n f s).blocks bk = some { b with res := mput b.res n (f r) } := by
  rw [modRes, mget_modBlock, if_pos rfl, hb, Option.map_some, hr]

/-- What is left of a loop's issue in its own block, before its other reservation is held. -/
theorem mget_joins_own {v : View} {s : State} (hb : mget s.blocks v.w.blk = some v.b) (ct : Nat) {wa : Nat} {ra : Res} (ha : mget v.b.res wa = some ra) :
    mget (modRes v.w.blk wa startRead (joinLoops v (bindTiles v.w.blk [ct] s))).blocks v.w.blk =
      some { v.b with bound := sadd v.b.bound ct, loops := v.b.loops ++ [(v.w.idx, v.w.engNo)], res := mput v.b.res wa (startRead ra) } := by
  have bound : mget (bindTiles v.w.blk [ct] s).blocks v.w.blk = some { v.b with bound := sadd v.b.bound ct } := by
    rw [bindTiles, mget_modBlock, if_pos rfl, hb]
    rfl
  have joined : mget (joinLoops v (bindTiles v.w.blk [ct] s)).blocks v.w.blk =
      some { v.b with bound := sadd v.b.bound ct, loops := v.b.loops ++ [(v.w.idx, v.w.engNo)] } := by
    rw [mget_joinLoops, if_pos rfl, bound]
    rfl
  exact mget_modRes_same joined ha _

theorem mget_joins_other (v : View) (ct wa : Nat) (s : State) {key : Nat} (other : key ≠ v.w.blk) :
    mget (modRes v.w.blk wa startRead (joinLoops v (bindTiles v.w.blk [ct] s))).blocks key = mget s.blocks key := by
  rw [mget_modRes_other other, mget_joinLoops, if_neg other, bindTiles, mget_modBlock, if_neg other]

/-- What the issue of a loop leaves in the blocks (R233, R234). -/
def LoopIssued (v : View) (ct wa wb pk : Nat) (ra rb : Res) (s t : State) : Prop :=
  (∀ key, key ≠ v.w.blk → key ≠ pk → mget t.blocks key = mget s.blocks key) ∧
  (∃ b, mget t.blocks v.w.blk = some b ∧ b = { v.b with bound := sadd v.b.bound ct, loops := v.b.loops ++ [(v.w.idx, v.w.engNo)], res := b.res } ∧
    mget b.res wa = some { ra with st := 4, readers := ra.readers + 1 }) ∧
  ∃ p, mget t.blocks pk = some p ∧ mget p.res wb = some { rb with st := 4, readers := rb.readers + 1 }

theorem loopIssued_joins {v : View} {s : State} (hb : mget s.blocks v.w.blk = some v.b) (ct : Nat) {wa wb pk : Nat} {pb : Block} {ra rb : Res}
    (hp : mget s.blocks pk = some pb) (ha : mget v.b.res wa = some ra) (hr : mget pb.res wb = some rb) :
    LoopIssued v ct wa wb pk ra rb s (joins v ct wa wb pk s) := by
  have own := mget_joins_own hb ct ha
  unfold joins
  dsimp only
  by_cases here : pk = v.w.blk
  · subst here
    obtain rfl : v.b = pb := Option.some.inj (hb.symm.trans hp)
    by_cases same : wa = wb
    · subst same
      obtain rfl : ra = rb := Option.some.inj (ha.symm.trans hr)
      rw [if_pos ⟨rfl, rfl⟩]
      exact ⟨fun key other _ => mget_joins_other v ct wa s other, ⟨_, own, rfl, mget_mput_same _ _ _⟩, ⟨_, own, mget_mput_same _ _ _⟩⟩
    · rw [if_neg (fun h => same h.2)]
      have both := mget_modRes_same (n := wb) own ((mget_mput_ne _ _ (Ne.symm same)).trans hr) startRead
      refine ⟨fun key other _ => ?_, ⟨_, both, rfl, ?_⟩, ⟨_, both, mget_mput_same _ _ _⟩⟩
      · rw [mget_modRes_other other, mget_joins_other v ct wa s other]
      · exact (mget_mput_ne _ _ same).trans (mget_mput_same _ _ _)
  · rw [if_neg (fun h => here h.1)]
    have peer := mget_modRes_same (n := wb) ((mget_joins_other v ct wa s here).trans hp) hr startRead
    refine ⟨fun key other far => ?_, ⟨_, (mget_modRes_other (Ne.symm here) _ _ _).trans own, rfl, mget_mput_same _ _ _⟩, ⟨_, peer, mget_mput_same _ _ _⟩⟩
    rw [mget_modRes_other far, mget_joins_other v ct wa s other]

/-- The traps of a loop: that of a stale reservation, WA before WB, and that of an unmet node. -/
def loopTraps (q : QW) (v : View) (mask : Word32) (ra rb : Res) : List TrapSpec :=
  (staleTraps v mask q.wa.toNat ra ++ if staleRes v.b ra then [] else staleTraps v mask q.wb.toNat rb) ++ unmetTraps v mask q.node.toNat

/-- A loop that nothing holds up raises its traps and goes on. -/
theorem mloopIssue_eq {q : QW} {pk : Nat} {pb : Block} {v : View} {mask : Word32} {s : State} {ra rb : Res}
    (ha : mget v.b.res q.wa.toNat = some ra) (hr : mget pb.res q.wb.toNat = some rb) (ready : ra.st = 3 ∨ ra.st = 4) (ready' : rb.st = 3 ∨ rb.st = 4)
    (room : v.w.oc.mtx < 63) (notA : ra.fmt ≠ 9) (notB : rb.fmt ≠ 9)
    (inA : (valQ v.w q.ia + (q.kn.toNat + 1)) * min (stepClass ra.fmt) (stepClass rb.fmt) ≤ ra.elems)
    (inB : (valQ v.w q.ib + (q.kn.toNat + 1)) * min (stepClass ra.fmt) (stepClass rb.fmt) ≤ rb.elems) (free : tilesFree v [q.ct.toNat] s = true) :
    mloopIssue q pk pb v mask s = raiseAll v.key (loopTraps q v mask ra rb)
      (goesWith v (queueMtx (entryNow v (.mloop q.ct.toNat q.wa.toNat q.wb.toNat pk (q.kn.toNat + 1) (valQ v.w q.ia) (valQ v.w q.ib)) []))
        (joins v q.ct.toNat q.wa.toNat q.wb.toNat pk)) v.w s := by
  have admitted : ¬ (¬ admitsReader (some ra) = true ∨ ¬ admitsReader (some rb) = true ∨ v.w.oc.mtx ≥ 63) := by
    rw [admitsReader_some, admitsReader_some]
    omega
  have legal : ¬ (ra.fmt = 9 ∨ rb.fmt = 9 ∨ (valQ v.w q.ia + (q.kn.toNat + 1)) * min (stepClass ra.fmt) (stepClass rb.fmt) > ra.elems ∨
      (valQ v.w q.ib + (q.kn.toNat + 1)) * min (stepClass ra.fmt) (stepClass rb.fmt) > rb.elems) := by
    rintro (h | h | h | h)
    · exact notA h
    · exact notB h
    · exact absurd inA (not_le.mpr h)
    · exact absurd inB (not_le.mpr h)
  have other : ∀ go, staleOther v mask (staleRes v.b ra) pb q.wb.toNat go = raiseAll v.key (if staleRes v.b ra then [] else staleTraps v mask q.wb.toNat rb) go := by
    intro go
    funext w t
    unfold staleOther
    split
    · rfl
    · rw [staleCheck_eq hr]
  unfold mloopIssue
  simp only [ha, hr]
  rw [if_neg admitted, if_neg legal, if_neg (not_not_intro free)]
  simp only [unmetCheck_eq, other, staleCheck_eq ha, ← raiseAll_append, loopTraps]
  rw [List.append_assoc]
  rfl

theorem execMloop_of_acts {q : QW} {v : View} {mask : Word32} {s : State} (h : Acts q.guard [srcQ q.ia, srcQ q.ib] [] v mask s) {peer : Bool} {pk : Nat} {pb : Block}
    (own : peer = false → pk = v.w.blk ∧ pb = v.b) (other : peer = true → peerOf v q.sub.toNat s = some (pk, pb)) :
    exec (if peer then .mloopPeer q else .mloop q) s = mloopIssue q pk pb v mask s := by
  cases peer
  · obtain ⟨rfl, rfl⟩ := own rfl
    exact viewWord_of_acts h _
  · refine (viewWord_of_acts h _ : execMloopPeer q s = _).trans ?_
    simp only [other rfl]

/-! ### QCVT (R232) -/

/-- A quantize word fills its destination, holds its source, and notes its production. -/
def quantizes (v : View) (wd node c : Nat) (t : TolNode) (src : Option Nat) (s : State) : State :=
  let held := modRes v.w.blk wd (fun r => quantDest r node c) s
  recordProduction v.w.blk node t (match src with | some n => modRes v.w.blk n startRead held | none => held)

theorem onBlocks_quantizes (v : View) (wd node c : Nat) (t : TolNode) (src : Option Nat) : OnBlocks (quantizes v wd node c t src) := by
  cases src with
  | none => exact (onBlocks_modBlock _ _).comp (onBlocks_modBlock _ _)
  | some n => exact (onBlocks_modBlock _ _).comp ((onBlocks_modBlock _ _).comp (onBlocks_modBlock _ _))

/-- The choice file after a production. -/
def filed (b : Block) (n : Nat) (t : TolNode) : List (Nat × Choice) := mput b.choice n (produced t (choiceAt b n))

section
variable {v : View} {s : State} (hb : mget s.blocks v.w.blk = some v.b) {wd : Nat} {r : Res} (hr : mget v.b.res wd = some r) (node c : Nat) (t : TolNode)
include hb hr

theorem modRes_dest : modRes v.w.blk wd (fun r => quantDest r node c) s = putBlock v.w.blk { v.b with res := mput v.b.res wd (quantDest r node c) } s := by
  rw [modRes, modBlock_of_some hb, hr]

theorem quantizes_alone : (quantizes v wd node c t none s).blocks =
    mput s.blocks v.w.blk { v.b with res := mput v.b.res wd (quantDest r node c), choice := filed v.b node t } := by
  unfold quantizes recordProduction
  dsimp only
  rw [modRes_dest hb hr, modBlock_of_some (mget_mput_same _ _ _)]
  exact mput_mput _ _ _ _

theorem quantizes_source {ws : Nat} {x : Res} (apart : wd ≠ ws) (hx : mget v.b.res ws = some x) : (quantizes v wd node c t (some ws) s).blocks =
    mput s.blocks v.w.blk { v.b with res := mput (mput v.b.res wd (quantDest r node c)) ws (startRead x), choice := filed v.b node t } := by
  have source : mget (mput v.b.res wd (quantDest r node c)) ws = some x := (mget_mput_ne _ _ apart.symm).trans hx
  unfold quantizes recordProduction
  dsimp only
  rw [modRes_dest hb hr, modBlock_of_some (mget_modRes_same (mget_mput_same _ _ _) source _), modRes, modBlock_of_some (mget_mput_same _ _ _)]
  exact (mput_mput _ _ _ _).trans (mput_mput _ _ _ _)

end

/-- The traps of a quantize word: that of a stale source, and that of an unmet node. -/
def quantTraps (q : QW) (v : View) (mask : Word32) (src : Option (Nat × Res)) : List TrapSpec :=
  (match src with | some x => staleTraps v mask x.1 x.2 | none => []) ++ unmetTraps v mask q.node.toNat

/-- A quantize word that nothing holds up raises its traps and goes on. -/
theorem quantIssue_eq {q : QW} {op : EngOp} {src : Option (Nat × Res)} {range : Nat → Option FaultSpec} {lines : Nat → List Nat} {v : View} {mask : Word32} {s : State}
    {r : Res} {node : TolNode} (hr : mget v.b.res q.wa.toNat = some r) (ready : r.st = 1 ∨ r.st = 3) (room : v.w.oc.mtx < 63)
    (source : ∀ n x, src = some (n, x) → mget v.b.res n = some x ∧ (x.st = 3 ∨ x.st = 4) ∧ x.e96 = r.e96) (inside : range r.elems = none)
    (used : mget v.b.tol q.node.toNat = some node) (kind : node.kind = 0)
    (fits : resSize (choiceAt v.b q.node.toNat).cho r.elems r.b32 (decide ((choiceAt v.b q.node.toNat).cho ≤ 6)) ≤ r.room) :
    quantIssue q op (src.map Prod.fst) range lines v mask s = raiseAll v.key (quantTraps q v mask src)
      (goesWith v (queueMtx (entryNow v op (lines r.elems)))
        (quantizes v q.wa.toNat q.node.toNat (choiceAt v.b q.node.toNat).cho node (src.map Prod.fst))) v.w s := by
  have producer : producerAt v.b 0 q.node.toNat = some node := by
    unfold producerAt
    rw [used]
    exact if_pos kind
  unfold quantIssue
  simp only [hr, inside, producer, if_neg (not_lt.mpr fits), gt_iff_lt]
  have writer : admitsWriter (some r) = true := admitsWriter_some.mpr ready
  cases src with
  | none =>
    simp only [Option.map_none, writer, not_true, false_or, Bool.false_eq_true, ge_iff_le, not_le.mpr room, if_false, staleSource, unmetCheck_eq]
    rfl
  | some p =>
    obtain ⟨n, x⟩ := p
    obtain ⟨hx, reads, same⟩ := source n x rfl
    have reader : admitsReader (some x) = true := admitsReader_some.mpr reads
    simp only [Option.map_some, writer, hx, reader, same, bne_self_eq_false, not_true, false_or, Bool.not_true, Bool.false_eq_true, ge_iff_le, not_le.mpr room, if_false,
      staleSource, unmetCheck_eq, staleCheck_eq hx, ← raiseAll_append]
    rfl

/-! ### The lists of traps -/

section
variable {v : View} {mask : Word32} {n : Nat} {r : Res}

theorem staleTraps_of_stale (h : staleRes v.b r = true) : staleTraps v mask n r = [{ cause := 3, detail := r.node + n * 256, lanes := mask }] := if_pos h
theorem staleTraps_of_good (h : staleRes v.b r = false) : staleTraps v mask n r = [] := if_neg (by rw [h]; exact Bool.false_ne_true)
theorem unmetTraps_of_unmet (h : (choiceAt v.b n).unm = true) : unmetTraps v mask n = [{ cause := 4, detail := n, lanes := mask }] := if_pos h
theorem unmetTraps_of_met (h : (choiceAt v.b n).unm = false) : unmetTraps v mask n = [] := if_neg (by rw [h]; exact Bool.false_ne_true)

theorem cause_of_loopTraps {q : QW} {ra rb : Res} {t : TrapSpec} (h : t ∈ loopTraps q v mask ra rb) : t.cause ≤ 4 := by
  rcases List.mem_append.mp h with stale | unmet
  · rcases List.mem_append.mp stale with first | second
    · exact cause_of_stale first
    · split at second
      · exact absurd second List.not_mem_nil
      · exact cause_of_stale second
  · exact cause_of_unmet unmet

theorem cause_of_quantTraps {q : QW} {src : Option (Nat × Res)} {t : TrapSpec} (h : t ∈ quantTraps q v mask src) : t.cause ≤ 4 := by
  rcases List.mem_append.mp h with stale | unmet
  · split at stale
    · exact cause_of_stale stale
    · exact absurd stale List.not_mem_nil
  · exact cause_of_unmet unmet

/-- A word whose traps are those of a list raises the first of them. -/
theorem stopsWord_of_traps {s : State} {go : Wave → State → Result} {traps rest : List TrapSpec} {t : TrapSpec} {res : Result}
    (h : res = raiseAll v.key traps go v.w s) (first : traps = t :: rest) : StopsWord v t s res := by
  rw [h, first]
  exact stopsWord_raiseAll v t rest go s

/-- A word whose traps are those of a list leaves the record of the last of them. -/
theorem leavesRecord_of_traps {s : State} {goes : Wave → Wave} {change : State → State} {traps front : List TrapSpec} {t : TrapSpec} {res : Result} {did : State → Prop}
    (h : res = raiseAll v.key traps (goesWith v goes change) v.w s) (causes : ∀ t ∈ traps, t.cause ≤ 4) (last : traps = front ++ [t]) (onBlocks : OnBlocks change)
    (keep : ∀ x, goes { v.w with trec := x } = { goes v.w with trec := x }) (done : ∀ w, did (putWave v.key w (change s))) : LeavesRecord v t (goes v.w) did s res := by
  subst last
  rw [h]
  exact leavesRecord_raiseAll onBlocks keep front t causes done

end

end Sys2Proof.Machine
end

section
namespace Sys2Proof
open Sys2Proof.Machine

/-- Settles O39: a word that nothing holds up raises its tolerance traps in order (`mloopIssue_eq`, `quantIssue_eq`), the first of which stops it or the last of which leaves its record (`stopsWord_of_traps`, `leavesRecord_of_traps`), and then it changes blocks alone. -/
theorem matrixWords : Obligations.MatrixWords := by
  intro q v mask s room wa wb unmet queued unmetTrap staleTrap raises records
  refine ⟨?_, fun r node hr ready used kind => ?_⟩
  · intro h peer pk pb ra rb own other ha hr ready ready' n k notA notB inA inB free word goes did
    have hb := (viewOf_eq_some.mp h.view).2.2.1
    have hp : mget s.blocks pk = some pb := by
      cases peer
      · obtain ⟨rfl, rfl⟩ := own rfl
        exact hb
      · exact mget_of_peerOf (other rfl)
    have res : exec word s = _ := (execMloop_of_acts h own other).trans (mloopIssue_eq ha hr ready ready' room notA notB inA inB free)
    have issued := loopIssued_joins hb q.ct.toNat hp ha hr
    have onBlocks := onBlocks_joins v q.ct.toNat wa wb pk
    have stops : ∀ t, (∃ rest, loopTraps q v mask ra rb = t :: rest) → raises word t := fun t ⟨_, first⟩ => stopsWord_of_traps res first
    have leaves : ∀ t, (∃ front, loopTraps q v mask ra rb = front ++ [t]) → records word t goes did :=
      fun t ⟨_, last⟩ => leavesRecord_of_traps res (fun _ => cause_of_loopTraps) last onBlocks (fun _ => rfl) (fun _ => issued)
    refine ⟨fun goodA goodB met => ?_, fun staleA => ⟨stops _ ?_, fun met => leaves _ ?_⟩, fun goodA staleB => ⟨stops _ ?_, fun met => leaves _ ?_⟩,
      fun goodA goodB isUnmet => stops _ ?_, fun isUnmet => leaves _ ?_⟩
    · rw [loopTraps, staleTraps_of_good goodA, staleTraps_of_good goodB, unmetTraps_of_met met, ite_self] at res
      exact ⟨_, res, onBlocks.frame s, issued⟩
    · exact ⟨_, by rw [loopTraps, staleTraps_of_stale staleA]; rfl⟩
    · exact ⟨[], by rw [loopTraps, staleTraps_of_stale staleA, unmetTraps_of_met met, if_pos staleA]; rfl⟩
    · exact ⟨_, by rw [loopTraps, staleTraps_of_good goodA, staleTraps_of_stale staleB, goodA]; rfl⟩
    · exact ⟨[], by rw [loopTraps, staleTraps_of_good goodA, staleTraps_of_stale staleB, unmetTraps_of_met met, goodA]; rfl⟩
    · exact ⟨[], by rw [loopTraps, staleTraps_of_good goodA, staleTraps_of_good goodB, unmetTraps_of_unmet isUnmet, ite_self]; rfl⟩
    · exact ⟨_, by rw [loopTraps, unmetTraps_of_unmet isUnmet]⟩
  · intro c fits dest file
    have file_eq : filed v.b q.node.toNat node = file := by
      unfold filed produced
      rw [kind]
    have dest_eq : quantDest r q.node.toNat c = dest := by
      simp only [quantDest, scaleOff, decide_eq_true_eq]
      rfl
    refine ⟨?_, fun src h apart hx reads same => ?_⟩
    · intro h p stride aligned even window inside goes blocks
      have hb := (viewOf_eq_some.mp h.view).2.2.1
      have legal : ¬ (p % 4 ≠ 0 ∨ stride % 4 ≠ 0 ∨ windowOf (ptrAddr p) ≠ .a) := by
        rintro (bad | bad | bad)
        · exact bad aligned
        · exact bad even
        · exact bad window
      have res : exec (.qcvt q) s = _ := (viewWord_of_acts h _ : execQcvt q s = _).trans ((if_neg legal).trans
        (quantIssue_eq (src := none) hr ready room (fun _ _ => nofun) (if_neg (not_lt.mpr inside)) used kind fits))
      have onBlocks := onBlocks_quantizes v wa q.node.toNat c node none
      have blocks_eq : (quantizes v wa q.node.toNat c node none s).blocks = blocks := by rw [quantizes_alone hb hr, file_eq, dest_eq]
      refine ⟨fun met => ?_, fun isUnmet => ⟨stopsWord_of_traps (rest := []) res ?_,
        leavesRecord_of_traps (front := []) res (fun _ => cause_of_quantTraps) ?_ onBlocks (fun _ => rfl) (fun _ => blocks_eq)⟩⟩
      · rw [quantTraps, unmetTraps_of_met met] at res
        exact res.trans (goesWith_eq onBlocks blocks_eq)
      · rw [quantTraps, unmetTraps_of_unmet isUnmet]
        rfl
      · rw [quantTraps, unmetTraps_of_unmet isUnmet]
    · intro goes blocks
      have hb := (viewOf_eq_some.mp h.view).2.2.1
      have res : exec (.qcvtW q) s = _ := (viewWord_of_acts h _ : execQcvtW q s = _).trans
        (quantIssue_eq (src := some (wb, src)) hr ready room (fun n x eq => by cases eq; exact ⟨hx, reads, same⟩) rfl used kind fits)
      have onBlocks := onBlocks_quantizes v wa q.node.toNat c node (some wb)
      have blocks_eq : (quantizes v wa q.node.toNat c node (some wb) s).blocks = blocks := by
        rw [quantizes_source hb hr _ _ _ apart hx, file_eq, dest_eq]
        rfl
      have stops : ∀ t, (∃ rest, quantTraps q v mask (some (wb, src)) = t :: rest) → raises (.qcvtW q) t := fun t ⟨_, first⟩ => stopsWord_of_traps res first
      have leaves : ∀ t, (∃ front, quantTraps q v mask (some (wb, src)) = front ++ [t]) → records (.qcvtW q) t goes (fun t => t.blocks = blocks) :=
        fun t ⟨_, last⟩ => leavesRecord_of_traps res (fun _ => cause_of_quantTraps) last onBlocks (fun _ => rfl) (fun _ => blocks_eq)
      refine ⟨fun good met => ?_, fun stale => ⟨stops _ ?_, fun met => leaves _ ⟨[], ?_⟩⟩, fun good isUnmet => stops _ ⟨[], ?_⟩, fun isUnmet => leaves _ ?_⟩
      · rw [quantTraps, staleTraps_of_good good, unmetTraps_of_met met] at res
        exact res.trans (goesWith_eq onBlocks blocks_eq)
      · exact ⟨_, by rw [quantTraps, staleTraps_of_stale stale]; rfl⟩
      · rw [quantTraps, staleTraps_of_stale stale, unmetTraps_of_met met]
        rfl
      · rw [quantTraps, staleTraps_of_good good, unmetTraps_of_unmet isUnmet]
        rfl
      · exact ⟨_, by rw [quantTraps, unmetTraps_of_unmet isUnmet]⟩

end Sys2Proof
end

section
/-! SUPPORT. A frozen package whose firmware is halted still accepts an image through the management port (R296, R317). -/
namespace Sys2Proof.Machine
open Sys2Proof

/-- A package frozen after its watchdog has halted firmware; the next move is an image through the management port. -/
def frozenRecovery : State :=
  { State.reset with frozen := true, fw := { State.reset.fw with halted := true }, sched := { State.reset.sched with moves := [.event (.firmwareImage 7)] } }

/-- The step accepts the image: firmware's part of the state changes. -/
theorem step_frozenRecovery : ∃ t, step frozenRecovery = .next t ∧ t.fw.accepted = some 7 := ⟨_, rfl, rfl⟩

end Sys2Proof.Machine
end

section
namespace Sys2Proof
open Sys2Proof.Machine

/-- Refutes O46: in a frozen package whose firmware is halted, a firmware image (R296) is accepted, which changes firmware's state without a package reset. -/
theorem not_frozenPackage : ¬ Obligations.FrozenPackage := by
  intro h
  obtain ⟨t, step_eq, accepted⟩ := step_frozenRecovery
  obtain ⟨same | isReset, -⟩ := h frozenRecovery t rfl step_eq
  · have kept : t.fw.accepted = none := congrArg (fun u : State => u.fw.accepted) same.1
    exact absurd (accepted.symm.trans kept) nofun
  · exact absurd isReset nofun

end Sys2Proof
end

section
/-! SUPPORT. A grid that a fault ends, one of whose blocks has an RL that does not fit its field (R62, R63). -/
namespace Sys2Proof.Machine
open Sys2Proof

/-- A grid of two blocks that a fault of one ends. -/
def wideGrid : Grid := { overrunGrid with d := { overrunDesc with fpol := true } }

/-- ST = 2, GT = 1 and RL = 240 add up to 2^31 + 2^27 + 240 · 2^23 = 2^32, which the 32 bits of the status word cut to 0. -/
def wideBlock : Block := { freshBlock 0 1 with rl := 240 }

/-- The wave of the block that runs, block 0. -/
def wideWave : Wave := freshWave overrunDesc 0 0 0 0

/-- Block 0 runs, block 1 has not begun. -/
def wideState : State :=
  { State.reset with
    ctxs := [(0, { overrunCtx with log := none })]
    grids := [(0, wideGrid)]
    blocks := [(0, { freshBlock 0 0 with life := .running, core := some 0 }), (1, wideBlock)]
    waves := [(0, wideWave)] }

theorem blocks_wideState : mget wideState.blocks (blockKey 0 1) = some wideBlock := by
  rw [show blockKey 0 1 = 1 from by decide]
  rfl

/-- The state after a fault of the wave. -/
def wideAfter : State := faultBlock wideWave.blk wideWave.idx wideWave.wid (wordInfo wideWave) illegalSpec wideState

theorem hardFault_wideState : hardFault wideWave illegalSpec wideState = .next wideAfter := rfl
theorem hasStatus_wideAfter : (mget wideAfter.grids 0).map (fun g => hasStatus g 1) = some false := by decide +kernel
theorem endAs_wideAfter : (mget wideAfter.blocks 1).map (fun b => b.endAs) = some none := by decide +kernel

end Sys2Proof.Machine
end

section
namespace Sys2Proof
open Sys2Proof.Machine

/-- Refutes O50, in what a fault leaves of a grid with FPOL = 1: of every other block it says that it has a status or is marked to end. A block record with RL = 240, which does not fit the three bits of R62 and which the statement does not exclude, ends with the status word 0, which is no status, and it is freed without a mark. -/
theorem not_endingABlock : ¬ Obligations.EndingABlock := by
  intro h
  obtain ⟨faults, -⟩ := h
  obtain ⟨-, taken⟩ := faults wideWave illegalSpec _ wideGrid _ wideState rfl rfl rfl rfl
  obtain ⟨t, res, -, ends, -⟩ := taken rfl rfl
  obtain rfl : wideAfter = t := Host.Outcome.next.inj (hardFault_wideState.symm.trans res)
  rcases ends rfl 1 wideBlock (by decide) (by decide) blocks_wideState rfl (by decide) with ⟨g, found, status⟩ | ⟨b, found, mark⟩
  · have noStatus := hasStatus_wideAfter
    change mget wideAfter.grids 0 = some g at found
    rw [found, Option.map_some, status] at noStatus
    exact absurd noStatus (by decide)
  · have noMark := endAs_wideAfter
    change mget wideAfter.blocks 1 = some b at found
    rw [found, Option.map_some, mark] at noMark
    exact absurd noMark (by decide)

end Sys2Proof
end

section
/-! SUPPORT. Floating encodings (R174, R177): a rounded value depends on its rational value and sign alone, every encoding fits its width, and one that is no NaN comes back from its value. -/
namespace Sys2Proof.Machine
open Sys2Proof

section
variable {f : FFmt} {mode : RMode} {sat neg : Bool} {m m' : Nat} {e e' : Int}

/-! ### A rounded value by its rational value -/

theorem roundedPlace_congr (wide : f.Wide) (same : (m : Rat) * 2 ^ e = m' * 2 ^ e') : f.roundedPlace mode neg m e = f.roundedPlace mode neg m' e' :=
  eq_of_forall_lt_iff fun i => by rw [lt_roundedPlace_iff wide, lt_roundedPlace_iff wide, same]

theorem fRound_congr (wide : f.Wide) (same : (m : Rat) * 2 ^ e = m' * 2 ^ e') : fRound f mode sat neg m e false = fRound f mode sat neg m' e' false := by
  rw [fRound_eq wide, fRound_eq wide, roundedPlace_congr wide same]

/-! ### Encodings fit their width (R174) -/

theorem signBit_add_lt (f : FFmt) (neg : Bool) {k : Nat} (lt : k < 2 ^ (f.eb + f.fb)) : signBit f neg + k < 2 ^ (f.eb + f.fb + 1) := by
  rw [signBit, pow_succ]
  split <;> omega

theorem infPlace_lt (f : FFmt) : (2 ^ f.eb - 1) * 2 ^ f.fb < 2 ^ (f.eb + f.fb) := by
  have exp := Nat.two_pow_pos f.eb
  rw [pow_add]
  exact Nat.mul_lt_mul_of_pos_right (by omega) (Nat.two_pow_pos _)

theorem fNan_lt (f : FFmt) (fraction : 0 < f.fb) : fNan f < 2 ^ (f.eb + f.fb) := by
  have pos := Nat.two_pow_pos (f.eb + f.fb)
  have exp := Nat.two_pow_pos f.eb
  have half : 2 ^ (f.fb - 1) < 2 ^ f.fb := Nat.pow_lt_pow_right one_lt_two (by omega)
  have place : (2 ^ f.eb - 1) * 2 ^ f.fb + 2 ^ f.fb = 2 ^ (f.eb + f.fb) := by
    rw [pow_add, Nat.sub_mul, Nat.one_mul, Nat.sub_add_cancel (Nat.le_mul_of_pos_left _ exp)]
  rw [fNan]
  split <;> omega

theorem fEncode_lt (wide : f.Wide) (mode : RMode) (sat : Bool) (v : FVal) : fEncode f mode sat v < 2 ^ (f.eb + f.fb + 1) := by
  have nan : fNan f < 2 ^ (f.eb + f.fb + 1) :=
    (fNan_lt f (by have := wide.fraction; omega)).trans (Nat.pow_lt_pow_right one_lt_two (Nat.lt_succ_self _))
  have top (neg : Bool) : fMax f neg < 2 ^ (f.eb + f.fb + 1) := fMax_eq f neg ▸ signBit_add_lt f neg (fMax_lt f)
  have inf (neg : Bool) : fInf f neg < 2 ^ (f.eb + f.fb + 1) := signBit_add_lt f neg (infPlace_lt f)
  cases v with
  | nan => exact nan
  | inf neg =>
    rw [show fEncode f mode sat (.inf neg) = if sat then fMax f neg else if f.noInf then fNan f else fInf f neg from rfl]
    split
    · exact top neg
    · split
      · exact nan
      · exact inf neg
  | fin neg m e =>
    refine lt_of_eq_of_lt (fRound_eq wide) ?_
    split
    next le => exact signBit_add_lt f neg (le.trans_lt (fMax_lt f))
    next =>
      cases sat with
      | true => exact top neg
      | false =>
        by_cases noInf : f.noInf = true
        · rw [overflowTo_noInf noInf]
          exact nan
        · rw [overflowTo_inf noInf]
          split
          · exact inf neg
          · exact top neg

theorem width_of_float {t : Ty} (float : t.isFloat = true) : t.width = (fmtOf t).eb + (fmtOf t).fb + 1 := by
  revert float
  cases t <;> decide

/-- An operand read in a type fits the type's width. -/
theorem tyOp_lt_width (w : Wave) (lit : Option Word64) (t : Ty) (o : Operand) (i : Nat) : tyOp w lit t o i < 2 ^ t.width := by
  cases float : t.isFloat with
  | false => exact tyOp_lt float w lit o i
  | true =>
    unfold tyOp
    rw [if_pos float]
    split
    · rw [width_of_float float]
      exact fEncode_lt (wide_fmtOf t) 0 false (.fin _ _ 0)
    · rw [width_of_float float]
      exact fEncode_lt (wide_fmtOf t) 0 _ _
    · exact intOp_lt ..

/-! ### Parts of a decoded value (R174) -/

theorem fDecode_fin {y : Nat} (h : fDecode f y = .fin neg m e) : neg = y.testBit (f.eb + f.fb) ∧ m < 2 ^ (f.fb + 1) := by
  have frac : field y 0 f.fb < 2 ^ f.fb := Nat.mod_lt _ (Nat.two_pow_pos _)
  revert h
  unfold fDecode
  dsimp only
  rw [pow_succ]
  repeat' split
  all_goals
    intro h
    cases h
  all_goals exact ⟨rfl, by omega⟩

theorem fDecode_inf {y : Nat} (h : fDecode f y = .inf neg) :
    ¬ f.noInf = true ∧ neg = y.testBit (f.eb + f.fb) ∧ y % 2 ^ (f.eb + f.fb) = (2 ^ f.eb - 1) * 2 ^ f.fb := by
  have parts : y % 2 ^ (f.eb + f.fb) = field y f.fb f.eb * 2 ^ f.fb + field y 0 f.fb := by
    rw [field, field, pow_zero, Nat.div_one, Nat.add_comm f.eb, pow_add, Nat.mod_mul, Nat.add_comm, Nat.mul_comm]
  revert h
  rw [parts]
  unfold fDecode
  dsimp only
  repeat' split
  all_goals
    intro h
    cases h
  next noInf top zero => exact ⟨noInf, rfl, by rw [top, zero, Nat.add_zero]⟩

/-- An encoding that is no NaN comes back from its value in every mode. -/
theorem fEncode_of_num (wide : f.Wide) {y : Nat} (lt : y < 2 ^ (f.eb + f.fb + 1)) (num : fDecode f y ≠ .nan) : fEncode f mode false (fDecode f y) = y := by
  cases value : fDecode f y with
  | nan => exact absurd value num
  | inf neg =>
    obtain ⟨hasInf, sign, place⟩ := fDecode_inf value
    rw [fEncode, if_neg Bool.false_ne_true, if_neg hasInf, fInf, ← place, sign, ← eq_signBit_add lt]
  | fin neg m e => exact fRound_fDecode wide lt value

/-- A zero is encoded by its sign bit. -/
theorem fEncode_zero (f : FFmt) (mode : RMode) (sat neg : Bool) (e : Int) : fEncode f mode sat (.fin neg 0 e) = signBit f neg := by
  rw [fEncode, fRound, if_pos ⟨rfl, Bool.false_ne_true⟩]

end

/-! ### The order of values (R213) -/

theorem fCompare_self (v : FVal) : fCompare v v = 0 := by
  cases v with
  | nan => rfl
  | inf neg => exact if_pos rfl
  | fin neg m e =>
    unfold fCompare
    dsimp only
    rw [if_neg (lt_irrefl _), if_pos rfl]

theorem fBelow_self (v : FVal) : fBelow v v = false := by
  unfold fBelow
  rw [fCompare_self]
  cases v.signNeg <;> simp

theorem fCompare_swap {u v : FVal} (nu : u ≠ .nan) (nv : v ≠ .nan) : fCompare v u = -fCompare u v := by
  cases u with
  | nan => exact absurd rfl nu
  | inf n =>
    cases v with
    | nan => exact absurd rfl nv
    | inf k => revert n k; decide
    | fin k m e => cases n <;> rfl
  | fin n m e =>
    cases v with
    | nan => exact absurd rfl nv
    | inf k => cases k <;> rfl
    | fin k m' e' =>
      simp only [fCompare, min_comm e' e]
      rcases lt_trichotomy (inUnits n m e (min e e')) (inUnits k m' e' (min e e')) with lt | eq | gt
      · rw [if_neg lt.not_gt, if_neg lt.ne', if_pos lt]
        rfl
      · rw [eq, if_neg (lt_irrefl _), if_pos rfl]
        rfl
      · rw [if_pos gt, if_neg gt.not_gt, if_neg gt.ne']

/-- Of two values at most one is below the other. -/
theorem fBelow_asymm {u v : FVal} (nu : u ≠ .nan) (nv : v ≠ .nan) (below : fBelow u v = true) : fBelow v u = false := by
  unfold fBelow at *
  rw [fCompare_swap nu nv]
  cases su : u.signNeg <;> cases sv : v.signNeg <;> simp_all
  all_goals omega

end Sys2Proof.Machine
end

section
/-! SUPPORT. Rounding to an integral value (R178, R213), in each mode. -/
namespace Sys2Proof.Machine
open Sys2Proof

section
variable {mode : RMode} {neg : Bool} {m : Nat} {e : Int}

/-- The rounded integer lies above exactly those that the magnitude rounds past. -/
theorem lt_roundInt_iff (i : Nat) : i < roundUnits mode neg m e 0 false ↔ RoundsPast mode neg (m * 2 ^ e) i ((i + 1 : Nat) : Rat) (decide (i % 2 = 1)) := by
  rw [lt_roundUnits_iff, sub_zero]

theorem magnitude_pos (m : Nat) (e : Int) : (0 : Rat) ≤ m * 2 ^ e := by positivity

/-- In the modes that round toward zero the integer is the floor of the magnitude. -/
theorem roundInt_toward (toward : mode = 1 ∨ mode = 2 ∧ neg = true ∨ 2 < mode ∧ neg = false) : ((roundUnits mode neg m e 0 false : Nat) : Int) = ⌊(m : Rat) * 2 ^ e⌋ := by
  have place : roundUnits mode neg m e 0 false = ⌊(m : Rat) * 2 ^ e⌋₊ := by
    refine eq_of_forall_lt_iff fun i => ?_
    rw [lt_roundInt_iff, Nat.lt_iff_add_one_le, Nat.le_floor_iff (magnitude_pos m e)]
    rcases toward with rfl | ⟨rfl, rfl⟩ | ⟨above, rfl⟩
    · rfl
    · rfl
    · obtain ⟨k, rfl⟩ := Nat.exists_eq_add_of_le' above
      rfl
  rw [place, Int.natCast_floor_eq_floor (magnitude_pos m e)]

/-- In the modes that round away from zero it is the ceiling. -/
theorem roundInt_away (away : mode = 2 ∧ neg = false ∨ 2 < mode ∧ neg = true) : ((roundUnits mode neg m e 0 false : Nat) : Int) = ⌈(m : Rat) * 2 ^ e⌉ := by
  have place : roundUnits mode neg m e 0 false = ⌈(m : Rat) * 2 ^ e⌉₊ := by
    refine eq_of_forall_lt_iff fun i => ?_
    rw [lt_roundInt_iff, Nat.lt_ceil]
    rcases away with ⟨rfl, rfl⟩ | ⟨above, rfl⟩
    · rfl
    · obtain ⟨k, rfl⟩ := Nat.exists_eq_add_of_le' above
      rfl
  rw [place, Int.natCast_ceil_eq_ceil (magnitude_pos m e)]

/-- To nearest, the integer lies within one half, and at one half it is even. -/
theorem roundInt_nearest : |((roundUnits 0 neg m e 0 false : Nat) : Rat) - m * 2 ^ e| ≤ 1 / 2 ∧
    (|((roundUnits 0 neg m e 0 false : Nat) : Rat) - m * 2 ^ e| = 1 / 2 → roundUnits 0 neg m e 0 false % 2 = 0) := by
  have place (i : Nat) := lt_roundInt_iff (mode := 0) (neg := neg) (m := m) (e := e) i
  have nonneg := magnitude_pos m e
  generalize roundUnits 0 neg m e 0 false = n at *
  generalize (m : Rat) * 2 ^ e = x at *
  obtain ⟨within, even⟩ := not_or.mp ((place n).not.mp (lt_irrefl n))
  push_cast at within even
  have below : x ≤ n + 1 / 2 := by linarith
  have above : (n : Rat) - 1 / 2 ≤ x ∧ ((n : Rat) - 1 / 2 = x → n % 2 = 0) := by
    cases n with
    | zero => exact ⟨by push_cast; linarith, fun _ => rfl⟩
    | succ k =>
      rcases (place k).mp k.lt_succ_self with past | ⟨tie, odd⟩
      · push_cast at past ⊢
        exact ⟨by linarith, fun eq => by linarith⟩
      · have odd := of_decide_eq_true odd
        push_cast at tie ⊢
        exact ⟨by linarith, fun _ => by omega⟩
  refine ⟨abs_sub_le_iff.mpr ⟨by linarith, by linarith⟩, fun half => ?_⟩
  rcases (abs_eq (by norm_num)).mp half with up | down
  · exact above.2 (by linarith)
  · by_contra odd
    exact even ⟨by linarith, decide_eq_true (by omega)⟩

end

/-- A signed integer. -/
def signed (neg : Bool) (n : Nat) : Int := if neg then -(n : Int) else n

theorem signed_cast (neg : Bool) (n : Nat) : ((signed neg n : Int) : Rat) = (if neg then -1 else 1) * (n : Rat) := by
  cases neg
  · rw [signed, if_neg Bool.false_ne_true, if_neg Bool.false_ne_true, one_mul, Int.cast_natCast]
  · rw [signed, if_pos rfl, if_pos rfl, neg_one_mul, Int.cast_neg, Int.cast_natCast]

theorem floor_eq (p : Rat) : p.floor = ⌊p⌋ := rfl
theorem ratCeil_eq (p : Rat) : p.ceil = ⌈p⌉ := Rat.ceil_eq_neg_floor_neg p

/-- The integer that a value rounds to in each mode (R178, R213). -/
structure RoundsTo (mode : RMode) (p : Rat) (z : Int) : Prop where
  nearest : mode = 0 → |(z : Rat) - p| ≤ 1 / 2 ∧ (|(z : Rat) - p| = 1 / 2 → z % 2 = 0)
  zero : mode = 1 → z = if 0 ≤ p then p.floor else p.ceil
  up : mode = 2 → z = p.ceil
  down : mode = 3 → z = p.floor

theorem roundsTo_signed {mode : RMode} {neg : Bool} {m : Nat} {e : Int} {p : Rat} (hp : (FVal.fin neg m e).rat = some p) :
    RoundsTo mode p (signed neg (roundUnits mode neg m e 0 false)) := by
  have value := eq_sign_mul hp
  have nonneg := magnitude_pos m e
  refine ⟨?_, ?_, ?_, ?_⟩
  · rintro rfl
    obtain ⟨near, even⟩ := roundInt_nearest (neg := neg) (m := m) (e := e)
    rw [signed_cast, value, abs_sign_mul_sub]
    refine ⟨near, fun half => ?_⟩
    have := even half
    unfold signed
    split <;> omega
  · rintro rfl
    have floor := roundInt_toward (neg := neg) (m := m) (e := e) (mode := 1) (.inl rfl)
    rw [floor_eq, ratCeil_eq, value]
    generalize (m : Rat) * 2 ^ e = x at *
    cases neg
    · rw [signed, if_neg Bool.false_ne_true, if_neg Bool.false_ne_true, one_mul, if_pos nonneg, floor]
    · rw [signed, if_pos rfl, if_pos rfl, neg_one_mul, floor, Int.ceil_neg]
      split
      next zero =>
        obtain rfl : x = 0 := by linarith
        rw [neg_zero, Int.floor_zero, neg_zero]
      · rfl
  · rintro rfl
    rw [ratCeil_eq, value]
    cases neg
    · rw [signed, if_neg Bool.false_ne_true, if_neg Bool.false_ne_true, one_mul, roundInt_away (.inl ⟨rfl, rfl⟩)]
    · rw [signed, if_pos rfl, if_pos rfl, neg_one_mul, Int.ceil_neg, roundInt_toward (.inr (.inl ⟨rfl, rfl⟩))]
  · rintro rfl
    rw [floor_eq, value]
    cases neg
    · rw [signed, if_neg Bool.false_ne_true, if_neg Bool.false_ne_true, one_mul, roundInt_toward (.inr (.inr ⟨Nat.lt_succ_self 2, rfl⟩))]
    · rw [signed, if_pos rfl, if_pos rfl, neg_one_mul, Int.floor_neg, roundInt_away (.inr ⟨Nat.lt_succ_self 2, rfl⟩)]

end Sys2Proof.Machine
end

section
/-! SUPPORT. The selections and the integral values of floating types (R213, R214). -/
namespace Sys2Proof.Machine
open Sys2Proof

/-! ### Encodings of small integers (R174) -/

/-- The rounded place of an integer of at most the format's precision has its magnitude. -/
theorem magnitude_roundedPlace_nat {f : FFmt} (low : f.lowExp ≤ 0) {n : Nat} (small : n ≤ 2 ^ f.fb) (neg : Bool) : f.magnitude (f.roundedPlace 0 neg n 0) = n := by
  by_cases zero : n = 0
  · rw [FFmt.roundedPlace, if_pos zero, magnitude_zero, zero, Nat.cast_zero]
  obtain ⟨le, full⟩ := roundUnits_bounds (f := f) (mode := 0) (neg := neg) (e := 0) zero
  obtain ⟨j, unit⟩ := exists_unitExp_eq f n 0
  have whole : f.unitExp n 0 ≤ 0 := by
    have log : Nat.log2 n ≤ f.fb := Nat.le_of_lt_succ ((Nat.log2_lt zero).mpr (small.trans_lt (Nat.pow_lt_pow_right one_lt_two (Nat.lt_succ_self _))))
    rw [FFmt.unitExp]
    omega
  have exact : roundUnits 0 neg n 0 (f.unitExp n 0) false = n * 2 ^ (0 - f.unitExp n 0).toNat := if_pos whole
  rw [FFmt.roundedPlace, if_neg zero, show (f.unitExp n 0 - f.lowExp).toNat = j by omega, magnitude_eq (full.imp_left fun h => by omega) le, ← unit, exact]
  push_cast
  rw [← zpow_natCast, Int.toNat_of_nonneg (by omega), mul_assoc, ← zpow_add₀ two_ne_zero, zero_sub, neg_add_cancel, zpow_zero, mul_one]

/-- Integers of the format's precision lie below the largest finite value of each floating type. -/
theorem place_le_fMax {t : Ty} (fp : t ∈ tysFp) {n : Nat} (small : n ≤ 2 ^ (fmtOf t).fb) (neg : Bool) :
    (fmtOf t).roundedPlace 0 neg n 0 ≤ fMax (fmtOf t) false ∧ (fmtOf t).magnitude ((fmtOf t).roundedPlace 0 neg n 0) = n := by
  have low : (fmtOf t).lowExp ≤ 0 ∧ (-(fmtOf t).lowExp).toNat * 2 ^ (fmtOf t).fb + 2 ^ (fmtOf t).fb ≤ fMax (fmtOf t) false := by
    revert fp
    cases t <;> decide
  have mag := magnitude_roundedPlace_nat low.1 small neg
  refine ⟨le_trans ((magnitude_strictMono (fmtOf t)).le_iff_le.mp ?_) low.2, mag⟩
  rw [mag, magnitude_eq (.inr le_rfl) (Nat.pow_le_pow_right two_pos (Nat.le_succ _)), Int.toNat_of_nonneg (by omega), add_neg_cancel, zpow_zero, mul_one]
  exact_mod_cast small

/-! ### FRND (R213) -/

theorem frndVal_fin {t : Ty} {mode : RMode} {a : Nat} {neg : Bool} {m : Nat} {e : Int} (h : fDecode (fmtOf t) a = .fin neg m e) :
    frndVal t mode a = fRound (fmtOf t) 0 false neg (roundUnits mode neg m e 0 false) 0 false := by
  unfold frndVal fVal
  rw [h]
  dsimp only
  split
  next nonneg =>
    refine fRound_congr (wide_fmtOf t) ?_
    rw [roundUnits, if_pos nonneg, zpow_zero, mul_one, sub_zero]
    push_cast
    rw [← zpow_natCast, Int.toNat_of_nonneg nonneg]
  · rfl

/-- A magnitude that is an integer rounds to itself. -/
theorem roundInt_of_nat {mode : RMode} {neg : Bool} {m k : Nat} {e : Int} (whole : (m : Rat) * 2 ^ e = k) : roundUnits mode neg m e 0 false = k :=
  eq_of_forall_lt_iff fun i => by rw [lt_roundInt_iff, whole, roundsPast_natCast]

/-- A value with a fraction has no more than the format's precision before it. -/
theorem roundInt_le {mode : RMode} {neg : Bool} {m k : Nat} {e : Int} (lt : m < 2 ^ (k + 1)) (frac : e < 0) : roundUnits mode neg m e 0 false ≤ 2 ^ k := by
  refine not_lt.mp fun above => ?_
  have past := lt_of_roundsPast (by exact_mod_cast Nat.lt_succ_self _) ((lt_roundInt_iff _).mp above)
  have half : (2 : Rat) ^ e ≤ 2⁻¹ := zpow_neg_one (2 : Rat) ▸ zpow_le_zpow_right₀ one_le_two (by omega)
  have small : (m : Rat) < 2 ^ (k + 1) := by exact_mod_cast lt
  have bound : (m : Rat) * 2 ^ e ≤ m * 2⁻¹ := mul_le_mul_of_nonneg_left half (Nat.cast_nonneg m)
  rw [pow_succ] at small
  push_cast at past
  linarith

/-- FRND of a finite value gives the integer it rounds to, with its sign; an integral value comes back. -/
theorem frndVal_spec {t : Ty} (fp : t ∈ tysFp) {mode : RMode} {a : Nat} (lt : a < 2 ^ t.width) {p : Rat} (hp : (fDecode (fmtOf t) a).rat = some p) :
    ∃ z : Int, (fDecode (fmtOf t) (frndVal t mode a)).rat = some (z : Rat) ∧
      (frndVal t mode a).testBit ((fmtOf t).eb + (fmtOf t).fb) = a.testBit ((fmtOf t).eb + (fmtOf t).fb) ∧ (p = (p.floor : Rat) → frndVal t mode a = a) ∧ RoundsTo mode p z := by
  have wide := wide_fmtOf t
  have float : t.isFloat = true := by revert fp; cases t <;> decide
  rw [width_of_float float] at lt
  obtain ⟨neg, m, e, value⟩ := rat_eq_some hp
  obtain ⟨sign, small⟩ := fDecode_fin value
  rw [value] at hp
  have out := frndVal_fin (mode := mode) value
  have rounds := roundsTo_signed (mode := mode) hp
  refine ⟨signed neg (roundUnits mode neg m e 0 false), ?_⟩
  by_cases whole : (m : Rat) * 2 ^ e = (roundUnits mode neg m e 0 false : Nat)
  · have back : frndVal t mode a = a := by
      rw [out, ← fRound_fDecode wide (mode := 0) (sat := false) lt value]
      exact fRound_congr wide (by rw [whole, zpow_zero, mul_one])
    refine ⟨?_, by rw [back], fun _ => back, rounds⟩
    rw [back, value, hp, eq_sign_mul hp, signed_cast, whole]
  · have frac : e < 0 := by
      refine not_le.mp fun nonneg => whole ?_
      rw [roundUnits, if_pos nonneg, sub_zero]
      push_cast
      rw [← zpow_natCast, Int.toNat_of_nonneg nonneg]
    obtain ⟨le, mag⟩ := place_le_fMax fp (roundInt_le (mode := mode) (neg := neg) small frac) neg
    have written := (out.trans (fRound_eq wide)).trans (if_pos le)
    refine ⟨?_, ?_, fun integral => absurd ?_ whole, rounds⟩
    · rw [written, rat_signBit_add wide neg le, mag, signed_cast]
    · rw [written, testBit_signBit_add _ _ (le.trans_lt (fMax_lt _)), sign]
    · have abs : (m : Rat) * 2 ^ e = (p.floor.natAbs : Nat) := by
        rw [← abs_rat_fin hp, integral, Nat.cast_natAbs, Int.cast_abs]
        rfl
      rw [abs, roundInt_of_nat abs]

/-! ### FMIN, FMAX, FABS, FNEG, FCLASS (R213, R214) -/

section
variable {t : Ty} (float : t.isFloat = true) {p q : Nat}
include float

/-- What is written of an operand that is no NaN is the operand. -/
theorem fPut_num (mode : RMode) (lt : p < 2 ^ t.width) (num : fDecode (fmtOf t) p ≠ .nan) : fPut t mode (fVal t p) = p :=
  fEncode_of_num (wide_fmtOf t) (width_of_float float ▸ lt) num

/-- Where one operand is a NaN the other is taken, in FMIN and FMAX. -/
theorem fPut_minV_of_nan (hp : p < 2 ^ t.width) (hq : q < 2 ^ t.width) (pick : FVal → FVal → FVal) (left : ∀ v, pick .nan v = v) (right : ∀ v, v ≠ .nan → pick v .nan = v) :
    (fDecode (fmtOf t) p = .nan → fDecode (fmtOf t) q = .nan → fPut t 0 (pick (fVal t p) (fVal t q)) = fNan (fmtOf t)) ∧
    (fDecode (fmtOf t) p = .nan → fDecode (fmtOf t) q ≠ .nan → fPut t 0 (pick (fVal t p) (fVal t q)) = q) ∧
    (fDecode (fmtOf t) q = .nan → fDecode (fmtOf t) p ≠ .nan → fPut t 0 (pick (fVal t p) (fVal t q)) = p) := by
  refine ⟨fun np nq => ?_, fun np numq => ?_, fun nq nump => ?_⟩
  · rw [show fVal t p = .nan from np, show fVal t q = .nan from nq, left]
    rfl
  · rw [show fVal t p = .nan from np, left, fPut_num float 0 hq numq]
  · rw [show fVal t q = .nan from nq, right (fVal t p) nump, fPut_num float 0 hp nump]

theorem fminVal_of_nan (hp : p < 2 ^ t.width) (hq : q < 2 ^ t.width) :
    (fDecode (fmtOf t) p = .nan → fDecode (fmtOf t) q = .nan → fminVal t p q = fNan (fmtOf t)) ∧
    (fDecode (fmtOf t) p = .nan → fDecode (fmtOf t) q ≠ .nan → fminVal t p q = q) ∧ (fDecode (fmtOf t) q = .nan → fDecode (fmtOf t) p ≠ .nan → fminVal t p q = p) :=
  fPut_minV_of_nan float hp hq fMinV (fun _ => rfl) (fun v num => by rw [fMinV, isNan_eq_false num]; rfl)

theorem fmaxVal_of_nan (hp : p < 2 ^ t.width) (hq : q < 2 ^ t.width) :
    (fDecode (fmtOf t) p = .nan → fDecode (fmtOf t) q = .nan → fmaxVal t p q = fNan (fmtOf t)) ∧
    (fDecode (fmtOf t) p = .nan → fDecode (fmtOf t) q ≠ .nan → fmaxVal t p q = q) ∧ (fDecode (fmtOf t) q = .nan → fDecode (fmtOf t) p ≠ .nan → fmaxVal t p q = p) :=
  fPut_minV_of_nan float hp hq fMaxV (fun _ => rfl) (fun v num => by rw [fMaxV, isNan_eq_false num]; rfl)

/-- The minimum of two numbers is one of them, and neither is below it. -/
theorem fminVal_of_num (hp : p < 2 ^ t.width) (hq : q < 2 ^ t.width) (np : fDecode (fmtOf t) p ≠ .nan) (nq : fDecode (fmtOf t) q ≠ .nan) :
    (fminVal t p q = p ∨ fminVal t p q = q) ∧ fBelow (fDecode (fmtOf t) p) (fDecode (fmtOf t) (fminVal t p q)) = false ∧
      fBelow (fDecode (fmtOf t) q) (fDecode (fmtOf t) (fminVal t p q)) = false := by
  have out : fminVal t p q = if fBelow (fVal t q) (fVal t p) then q else p := by
    rw [fminVal, fMinV, show (fVal t p).isNan = false from isNan_eq_false np, show (fVal t q).isNan = false from isNan_eq_false nq, if_neg Bool.false_ne_true,
      if_neg Bool.false_ne_true, apply_ite (fPut t 0), fPut_num float 0 hp np, fPut_num float 0 hq nq]
  rw [out]
  cases below : fBelow (fVal t q) (fVal t p) with
  | true =>
    rw [if_pos rfl]
    exact ⟨.inr rfl, fBelow_asymm nq np below, fBelow_self _⟩
  | false =>
    rw [if_neg Bool.false_ne_true]
    exact ⟨.inl rfl, fBelow_self _, below⟩

/-- The maximum of two numbers is one of them, and it is below neither. -/
theorem fmaxVal_of_num (hp : p < 2 ^ t.width) (hq : q < 2 ^ t.width) (np : fDecode (fmtOf t) p ≠ .nan) (nq : fDecode (fmtOf t) q ≠ .nan) :
    (fmaxVal t p q = p ∨ fmaxVal t p q = q) ∧ fBelow (fDecode (fmtOf t) (fmaxVal t p q)) (fDecode (fmtOf t) p) = false ∧
      fBelow (fDecode (fmtOf t) (fmaxVal t p q)) (fDecode (fmtOf t) q) = false := by
  have out : fmaxVal t p q = if fBelow (fVal t p) (fVal t q) then q else p := by
    rw [fmaxVal, fMaxV, show (fVal t p).isNan = false from isNan_eq_false np, show (fVal t q).isNan = false from isNan_eq_false nq, if_neg Bool.false_ne_true,
      if_neg Bool.false_ne_true, apply_ite (fPut t 0), fPut_num float 0 hp np, fPut_num float 0 hq nq]
  rw [out]
  cases below : fBelow (fVal t p) (fVal t q) with
  | true =>
    rw [if_pos rfl]
    exact ⟨.inr rfl, fBelow_asymm np nq below, fBelow_self _⟩
  | false =>
    rw [if_neg Bool.false_ne_true]
    exact ⟨.inl rfl, fBelow_self _, below⟩

end

/-- A number with another sign is encoded with another sign bit alone. -/
theorem fEncode_signed {f : FFmt} (wide : f.Wide) {p : Nat} {v : FVal} (neg : Bool)
    (h : (∃ n, fDecode f p = .inf n ∧ v = .inf neg) ∨ (∃ n m e, fDecode f p = .fin n m e ∧ v = .fin neg m e)) :
    fEncode f 0 false v = signBit f neg + p % 2 ^ (f.eb + f.fb) := by
  obtain ⟨n, value, rfl⟩ | ⟨n, m, e, value, rfl⟩ := h
  · obtain ⟨hasInf, -, place⟩ := fDecode_inf value
    rw [fEncode, if_neg Bool.false_ne_true, if_neg hasInf, fInf, place]
  · rcases fDecode_eq wide p with ⟨-, none⟩ | ⟨le, n', m', same, mag⟩
    · rw [value] at none
      cases none
    · rw [value] at same
      obtain ⟨-, rfl, rfl⟩ := FVal.fin.inj same
      have rising := magnitude_strictMono f
      have place : f.roundedPlace 0 neg m e = p % 2 ^ (f.eb + f.fb) := by
        refine eq_of_forall_lt_iff fun i => ?_
        rw [lt_roundedPlace_iff wide, mag]
        exact ⟨fun past => rising.lt_iff_lt.mp (lt_of_roundsPast (rising i.lt_succ_self) past),
          fun lt => roundsPast_of_le (rising i.lt_succ_self) (rising.monotone lt)⟩
      rw [fEncode, fRound_eq wide, place, if_pos le]

theorem fabsVal_num {t : Ty} {p : Nat} (num : fDecode (fmtOf t) p ≠ .nan) : fabsVal t p = p % 2 ^ ((fmtOf t).eb + (fmtOf t).fb) := by
  have out (v : FVal) (h : (∃ n, fDecode (fmtOf t) p = .inf n ∧ v = .inf false) ∨ (∃ n m e, fDecode (fmtOf t) p = .fin n m e ∧ v = .fin false m e)) :=
    (fEncode_signed (wide_fmtOf t) false h).trans (Nat.zero_add _)
  unfold fabsVal fVal
  cases value : fDecode (fmtOf t) p with
  | nan => exact absurd value num
  | inf n =>
    have eq := out (.inf false) (.inl ⟨n, value, rfl⟩)
    rwa [fEncode, if_neg Bool.false_ne_true, if_neg (fDecode_inf value).1] at eq
  | fin n m e => exact out _ (.inr ⟨n, m, e, value, rfl⟩)

theorem fnegVal_num {t : Ty} (float : t.isFloat = true) {p : Nat} (lt : p < 2 ^ t.width) (num : fDecode (fmtOf t) p ≠ .nan) :
    fnegVal t p = if p.testBit ((fmtOf t).eb + (fmtOf t).fb) then p - 2 ^ ((fmtOf t).eb + (fmtOf t).fb) else p + 2 ^ ((fmtOf t).eb + (fmtOf t).fb) := by
  have sign : fnegVal t p = signBit (fmtOf t) (!p.testBit ((fmtOf t).eb + (fmtOf t).fb)) + p % 2 ^ ((fmtOf t).eb + (fmtOf t).fb) := by
    refine fEncode_signed (wide_fmtOf t) _ ?_
    unfold fVal
    cases value : fDecode (fmtOf t) p with
    | nan => exact absurd value num
    | inf n => exact .inl ⟨n, rfl, by rw [← (fDecode_inf value).2.1]; rfl⟩
    | fin n m e => exact .inr ⟨n, m, e, rfl, by rw [← (fDecode_fin value).1]; rfl⟩
  have parts := eq_signBit_add (width_of_float float ▸ lt)
  rw [sign]
  generalize p % 2 ^ ((fmtOf t).eb + (fmtOf t).fb) = k at *
  cases bit : p.testBit ((fmtOf t).eb + (fmtOf t).fb) with
  | true =>
    rw [bit, signBit, if_pos rfl] at parts
    rw [Bool.not_true, signBit, if_neg Bool.false_ne_true, if_pos rfl]
    omega
  | false =>
    rw [bit, signBit, if_neg Bool.false_ne_true] at parts
    rw [Bool.not_false, signBit, if_pos rfl, if_neg Bool.false_ne_true]
    omega

/-- The class of R214, by the value and the exponent field. -/
theorem fclassVal_eq (t : Ty) (a : Nat) : fclassVal t a =
    (let f := fmtOf t
     let neg := a.testBit (f.eb + f.fb)
     let sub := field a f.fb f.eb == 0
     2 ^ (match fDecode f a with
      | .nan => 8
      | .inf _ => if neg then 0 else 7
      | .fin _ k _ => if k = 0 then (if neg then 3 else 4) else if neg then (if sub then 2 else 1) else (if sub then 5 else 6))) := by
  cases value : fDecode (fmtOf t) a with
  | nan => simp only [fclassVal, fVal, value]
  | inf n =>
    simp only [fclassVal, fVal, value, (fDecode_inf value).2.1]
    split <;> rfl
  | fin n m e =>
    simp only [fclassVal, fVal, value, (fDecode_fin value).1, beq_iff_eq]
    split
    · split <;> rfl
    · rw [apply_ite (2 ^ ·), apply_ite (2 ^ ·), apply_ite (2 ^ ·)]
      split <;> split <;> rfl

end Sys2Proof.Machine
end

section
namespace Sys2Proof
open Sys2Proof.Machine

/-- Settles O6: an operand that is no NaN comes back from its value (`fEncode_of_num`), so each word selects an operand, changes its sign bit, or rounds it to an integer (`frndVal_spec`). -/
theorem floatSelections : Obligations.FloatSelections := by
  intro x key w m s fp fmt pa pb a b top
  have float : x.t.isFloat = true := by revert fp; cases x.t <;> decide
  have lta (i : Nat) : pa i < 2 ^ x.t.width := tyOp_lt_width ..
  have ltb (i : Nat) : pb i < 2 ^ x.t.width := tyOp_lt_width ..
  refine ⟨fun h => ⟨⟨_, xWrites_of_eq h rfl (fun _ => rfl), fun i => ?_⟩, ⟨_, xWrites_of_eq h rfl (fun _ => rfl), fun i => ?_⟩,
    ⟨_, xWrites_of_eq h rfl (fun _ => rfl), fun i => ⟨fun nan => ?_, fabsVal_num⟩⟩, ⟨_, xWrites_of_eq h rfl (fun _ => rfl), fun i => ⟨fun nan => ?_, fnegVal_num float (lta i)⟩⟩,
    ⟨_, xWrites_of_eq h rfl (fun _ => rfl), fun i => ⟨fun nan => ?_, fun n inf => ?_, fun p hp => ?_⟩⟩⟩, fun h => ⟨_, (regWord_of_issues h _ : execFclass x s = _), fun i => fclassVal_eq x.t (pa i)⟩⟩
  · obtain ⟨both, left, right⟩ := fminVal_of_nan float (lta i) (ltb i)
    exact ⟨both, left, right, fminVal_of_num float (lta i) (ltb i)⟩
  · obtain ⟨both, left, right⟩ := fmaxVal_of_nan float (lta i) (ltb i)
    exact ⟨both, left, right, fmaxVal_of_num float (lta i) (ltb i)⟩
  · simp only [fabsVal, fVal, show fDecode (fmtOf x.t) (valA x w i) = .nan from nan, fmt]
  · simp only [fnegVal, fVal, show fDecode (fmtOf x.t) (valA x w i) = .nan from nan]
    rfl
  · simp only [frndVal, fVal, show fDecode (fmtOf x.t) (valA x w i) = .nan from nan]
    rfl
  · have num : fDecode (fmtOf x.t) (pa i) ≠ .nan := by rw [show fDecode (fmtOf x.t) (pa i) = .inf n from inf]; nofun
    have back := fPut_num float 0 (lta i) num
    rw [show fVal x.t (pa i) = .inf n from inf] at back
    simpa only [frndVal, fVal, show fDecode (fmtOf x.t) (valA x w i) = .inf n from inf] using back
  · obtain ⟨z, value, sign, integral, rounds⟩ := frndVal_spec fp (lta i) hp (mode := x.m.toNat)
    exact ⟨z, value, sign, integral, rounds.nearest, rounds.zero, rounds.up, rounds.down⟩

end Sys2Proof
end

section
/-! SUPPORT. Conversions between types (R178, R216). -/
namespace Sys2Proof.Machine
open Sys2Proof

theorem cvtVal_int_int {u t : Ty} (src : u.isFloat = false) (dst : t.isFloat = false) (mode : RMode) (sat : Bool) (a : Nat) :
    cvtVal u t mode sat a = (BitVec.ofInt t.width (if sat then max (tyMin t) (min (tyInt u (BitVec.ofNat _ a)) (tyMax t)) else tyInt u (BitVec.ofNat _ a))).toNat := by
  simp only [cvtVal, src, dst, cvtInt, ofSigned_eq, clamp_eq, intVal_eq]
  split <;> rfl

theorem cvtVal_int_float {u t : Ty} (src : u.isFloat = false) (dst : t.isFloat = true) (mode : RMode) (sat : Bool) (a : Nat) :
    ∃ v : FVal, v.rat = some (tyInt u (BitVec.ofNat _ a) : Rat) ∧ cvtVal u t mode sat a = fEncode (fmtOf t) mode sat v := by
  have value := rat_natAbs (tyInt u (BitVec.ofNat _ a)) 0
  rw [zpow_zero, mul_one] at value
  refine ⟨_, value, ?_⟩
  simp only [cvtVal, src, dst, cvtInt, intVal_eq]

/-- A finite value rounds to an integer in the mode, which is clamped to the type. -/
theorem toIntTy_rat (t : Ty) (mode : RMode) {v : FVal} {q : Rat} (hq : v.rat = some q) :
    ∃ z : Int, toIntTy t mode v = (BitVec.ofInt t.width (max (tyMin t) (min z (tyMax t)))).toNat ∧ RoundsTo mode q z := by
  obtain ⟨neg, m, e, rfl⟩ := rat_eq_some hq
  refine ⟨_, ?_, roundsTo_signed hq⟩
  rw [toIntTy, ofSigned_eq, clamp_eq]
  rfl

theorem cvtVal_float_int {u t : Ty} (src : u.isFloat = true) (dst : t.isFloat = false) (mode : RMode) (sat : Bool) (a : Nat) :
    cvtVal u t mode sat a = toIntTy t mode (fDecode (fmtOf u) a) := by
  simp only [cvtVal, src, dst]
  rfl

theorem cvtVal_float_float {u t : Ty} (src : u.isFloat = true) (dst : t.isFloat = true) (mode : RMode) (sat : Bool) (a : Nat) :
    cvtVal u t mode sat a = if u = t then fPut t 0 (fVal t a) else fEncode (fmtOf t) mode sat (fDecode (fmtOf u) a) := by
  simp only [cvtVal, src, dst]
  rfl

end Sys2Proof.Machine
end

section
namespace Sys2Proof
open Sys2Proof.Machine

/-- Settles O8: each pair of kinds of type has its own conversion; a value goes to an integer type by the integer it rounds to (`toIntTy_rat`). -/
theorem conversionResults : Obligations.ConversionResults := by
  intro x key w m s h mode sat pat int v
  refine ⟨_, (regWord_of_issues h _ : execCvt x s = _), fun i => ⟨fun src dst => cvtVal_int_int src dst _ _ _, fun src dst => cvtVal_int_float src dst _ _ _,
    fun src dst => ?_, fun src dst => ?_⟩⟩
  · rw [cvtVal_float_int src dst]
    refine ⟨fun nan => ?_, fun n inf => ?_, fun q hq => ?_⟩
    · rw [show fDecode (fmtOf x.srcTy) (pat i) = .nan from nan]
      rfl
    · rw [show fDecode (fmtOf x.srcTy) (pat i) = .inf n from inf]
      exact ofSigned_eq _ _
    · obtain ⟨z, out, rounds⟩ := toIntTy_rat x.t mode hq
      exact ⟨z, out, rounds.nearest, rounds.zero, rounds.up, rounds.down⟩
  · rw [cvtVal_float_float src dst]
    refine ⟨fun nan => ?_, fun same num => ?_, fun other => if_neg other⟩
    · have nan : fDecode (fmtOf x.srcTy) (pat i) = .nan := nan
      split
      next same => rw [← same, show fVal x.srcTy (pat i) = .nan from nan]; rfl
      next => rw [nan]; rfl
    · rw [if_pos same, ← same]
      exact fPut_num src 0 (tyOp_lt_width ..) num

end Sys2Proof
end

section
/-! SUPPORT. Exact sums, products and square roots, and the clamped exponent of FSCALE (R212). -/
namespace Sys2Proof.Machine
open Sys2Proof

/-! ### Sums and products (R177) -/

/-- An exact zero sum has the sign that its operands share, and else that of the mode. -/
theorem fAdd_of_zero {mode : RMode} {u v : FVal} {p q : Rat} (hp : u.rat = some p) (hq : v.rat = some q) (zero : p + q = 0) :
    fAdd mode u v = .fin (if u.signNeg = v.signNeg then u.signNeg else decide (mode = 3)) 0 0 := by
  obtain ⟨na, ma, ea, rfl⟩ := rat_eq_some hp
  obtain ⟨nb, mb, eb, rfl⟩ := rat_eq_some hq
  obtain ⟨rfl, rfl⟩ := rat_common hp hq
  rw [← add_mul, ← Int.cast_add, mul_eq_zero, or_iff_left (zpow_ne_zero _ two_ne_zero), Int.cast_eq_zero] at zero
  refine (if_pos zero).trans ?_
  by_cases same : na = nb
  · subst same
    exact (if_pos ⟨(zero_of_same_sign zero).1, (zero_of_same_sign zero).2, rfl⟩).trans (congrArg (fun n => FVal.fin n 0 0) (if_pos rfl).symm)
  · refine (if_neg fun h => same h.2.2).trans (congrArg (fun n => FVal.fin n 0 0) ?_)
    exact (beq_eq_decide mode 3).trans (if_neg same).symm

theorem fAdd_nan_right (mode : RMode) (u : FVal) : fAdd mode u .nan = .nan := by cases u <;> rfl

/-- An exact product of finite values is the product of their rational values, with the product of their signs. -/
theorem fMul_rat {u v : FVal} {p q : Rat} (hp : u.rat = some p) (hq : v.rat = some q) : (fMul u v).rat = some (p * q) ∧ (fMul u v).signNeg = (u.signNeg != v.signNeg) := by
  obtain ⟨na, ma, ea, rfl⟩ := rat_eq_some hp
  obtain ⟨nb, mb, eb, rfl⟩ := rat_eq_some hq
  rw [eq_sign_mul hp, eq_sign_mul hq]
  refine ⟨?_, rfl⟩
  simp only [fMul, FVal.rat, Nat.cast_mul, zpow_add₀ (two_ne_zero : (2 : Rat) ≠ 0), Option.some.injEq]
  cases na <;> cases nb <;> simp <;> ring

/-- A finite value of rational value zero has significand zero. -/
theorem significand_of_zero {neg : Bool} {m : Nat} {e : Int} (h : (FVal.fin neg m e).rat = some 0) : m = 0 := by
  have value := eq_sign_mul h
  have nonzero : (if neg then -1 else 1 : Rat) ≠ 0 := by cases neg <;> decide
  have zero := (mul_eq_zero.mp ((mul_eq_zero.mp value.symm).resolve_left nonzero)).resolve_right (zpow_ne_zero _ two_ne_zero)
  exact_mod_cast zero

/-- What is encoded of an exact zero is its sign bit. -/
theorem fEncode_of_zero (f : FFmt) (mode : RMode) {v : FVal} (h : v.rat = some 0) : fEncode f mode false v = signBit f v.signNeg := by
  obtain ⟨neg, m, e, rfl⟩ := rat_eq_some h
  rw [significand_of_zero h, fEncode_zero]
  rfl

theorem fMul_nan_right (u : FVal) : fMul u .nan = .nan := by cases u <;> rfl

theorem fMul_inf_right {u : FVal} {p : Rat} (hp : u.rat = some p) (k : Bool) : fMul u (.inf k) = if p = 0 then .nan else .inf (u.signNeg != k) := by
  obtain ⟨n, m, e, rfl⟩ := rat_eq_some hp
  by_cases zero : p = 0
  · rw [if_pos zero]
    exact if_pos (significand_of_zero (zero ▸ hp))
  · rw [if_neg zero]
    refine if_neg fun h => zero ?_
    rw [eq_sign_mul hp, h, Nat.cast_zero, zero_mul, mul_zero]

theorem fMul_inf_left {v : FVal} {q : Rat} (hq : v.rat = some q) (n : Bool) : fMul (.inf n) v = if q = 0 then .nan else .inf (n != v.signNeg) := by
  obtain ⟨k, m, e, rfl⟩ := rat_eq_some hq
  by_cases zero : q = 0
  · rw [if_pos zero]
    exact if_pos (significand_of_zero (zero ▸ hq))
  · rw [if_neg zero]
    refine if_neg fun h => zero ?_
    rw [eq_sign_mul hq, h, Nat.cast_zero, zero_mul, mul_zero]

/-- A number that is no finite one is an infinity. -/
theorem eq_inf_of_rat_none {v : FVal} (num : v ≠ .nan) (h : v.rat = none) : v = .inf v.signNeg := by
  cases v with
  | nan => exact absurd rfl num
  | inf n => rfl
  | fin n m e => cases h

/-- A product of numbers that are not zero, of which one is infinite, is an infinity. -/
theorem fMul_of_inf {u v : FVal} (nu : u ≠ .nan) (nv : v ≠ .nan) (zu : u.isZero = false) (zv : v.isZero = false) (inf : u.rat = none ∨ v.rat = none) :
    fMul u v = .inf (u.signNeg != v.signNeg) := by
  cases u with
  | nan => exact absurd rfl nu
  | inf n =>
    cases v with
    | nan => exact absurd rfl nv
    | inf k => rfl
    | fin k m e => exact if_neg (ne_of_beq_false zv)
  | fin n m e =>
    cases v with
    | nan => exact absurd rfl nv
    | inf k => exact if_neg (ne_of_beq_false zu)
    | fin k m' e' => rcases inf with h | h <;> cases h

/-- The result of an exact sum, rounded once (R177). -/
theorem fEncode_fAdd (f : FFmt) (mode : RMode) (u v : FVal) :
    let r := fEncode f mode false (fAdd mode u v)
    let inf := fun (n : Bool) => fEncode f 0 false (.inf n)
    ((u = .nan ∨ v = .nan) → r = fNan f) ∧ (∀ n k, u = .inf n → v = .inf k → r = if n = k then inf n else fNan f) ∧
    (∀ n q, u = .inf n → v.rat = some q → r = inf n) ∧ (∀ p k, u.rat = some p → v = .inf k → r = inf k) ∧
    (∀ p q, u.rat = some p → v.rat = some q → (p + q ≠ 0 → ∃ w : FVal, w.rat = some (p + q) ∧ r = fEncode f mode false w) ∧
      (p + q = 0 → r = signBit f (if u.signNeg = v.signNeg then u.signNeg else decide (mode = 3)))) := by
  intro r inf
  refine ⟨?_, ?_, ?_, ?_, fun p q hp hq => ⟨fun ne => ⟨_, rat_fAdd hp hq ne, rfl⟩, fun zero => ?_⟩⟩
  · rintro (rfl | rfl)
    · rfl
    · exact congrArg (fEncode f mode false) (fAdd_nan_right mode u)
  · rintro n k rfl rfl
    exact apply_ite (fEncode f mode false) _ _ _
  · rintro n q rfl hq
    obtain ⟨k, m, e, rfl⟩ := rat_eq_some hq
    rfl
  · rintro p k hp rfl
    obtain ⟨n, m, e, rfl⟩ := rat_eq_some hp
    rfl
  · exact (congrArg (fEncode f mode false) (fAdd_of_zero hp hq zero)).trans (fEncode_zero f mode false _ 0)

/-- The result of an exact product, rounded once (R177). -/
theorem fEncode_fMul (f : FFmt) (mode : RMode) (u v : FVal) :
    let r := fEncode f mode false (fMul u v)
    let inf := fun (n : Bool) => fEncode f 0 false (.inf n)
    ((u = .nan ∨ v = .nan) → r = fNan f) ∧
    (∀ p, u.rat = some p → (∃ k, v = .inf k) → r = if p = 0 then fNan f else inf (u.signNeg != v.signNeg)) ∧
    (∀ q, (∃ n, u = .inf n) → v.rat = some q → r = if q = 0 then fNan f else inf (u.signNeg != v.signNeg)) ∧
    (∀ n k, u = .inf n → v = .inf k → r = inf (n != k)) ∧
    ∀ p q, u.rat = some p → v.rat = some q → (p * q ≠ 0 → ∃ w : FVal, w.rat = some (p * q) ∧ r = fEncode f mode false w) ∧
      (p * q = 0 → r = signBit f (u.signNeg != v.signNeg)) := by
  intro r inf
  refine ⟨?_, ?_, ?_, ?_, fun p q hp hq => ?_⟩
  · rintro (rfl | rfl)
    · rfl
    · exact congrArg (fEncode f mode false) (fMul_nan_right u)
  · rintro p hp ⟨k, rfl⟩
    exact (congrArg (fEncode f mode false) (fMul_inf_right hp k)).trans (apply_ite (fEncode f mode false) _ _ _)
  · rintro q ⟨n, rfl⟩ hq
    exact (congrArg (fEncode f mode false) (fMul_inf_left hq n)).trans (apply_ite (fEncode f mode false) _ _ _)
  · rintro n k rfl rfl
    rfl
  · obtain ⟨value, sign⟩ := fMul_rat hp hq
    refine ⟨fun _ => ⟨_, value, rfl⟩, fun zero => ?_⟩
    rw [zero] at value
    rw [← sign]
    exact fEncode_of_zero f mode value

/-- The result of an exact product and sum, rounded once (R177). -/
theorem fEncode_fma (f : FFmt) (mode : RMode) (u v w : FVal) :
    let r := fEncode f mode false (fAdd mode (fMul u v) w)
    let inf := fun (n : Bool) => fEncode f 0 false (.inf n)
    ((u = .nan ∨ v = .nan ∨ w = .nan) → r = fNan f) ∧ (∀ p k, u.rat = some p → v = .inf k → p = 0 → r = fNan f) ∧
    (∀ n q, u = .inf n → v.rat = some q → q = 0 → r = fNan f) ∧ (∀ p q, u.rat = some p → v.rat = some q → ∀ k, w = .inf k → r = inf k) ∧
    (u ≠ .nan → v ≠ .nan → w ≠ .nan → u.isZero = false → v.isZero = false → (u.rat = none ∨ v.rat = none) →
      let n := u.signNeg != v.signNeg
      r = if w = .inf (!n) then fNan f else inf n) ∧
    ∀ p q y, u.rat = some p → v.rat = some q → w.rat = some y → (p * q + y ≠ 0 → ∃ z : FVal, z.rat = some (p * q + y) ∧ r = fEncode f mode false z) ∧
      (p * q + y = 0 → r = signBit f (if (u.signNeg != v.signNeg) = w.signNeg then u.signNeg != v.signNeg else decide (mode = 3))) := by
  intro r inf
  obtain ⟨nan, infs, infLeft, infRight, finite⟩ := fEncode_fAdd f mode (fMul u v) w
  refine ⟨?_, fun p k hp hv zero => nan (.inl ?_), fun n q hu hq zero => nan (.inl ?_), fun p q hp hq k hw => infRight _ _ (fMul_rat hp hq).1 hw,
    fun nu nv nw zu zv infinite => ?_, fun p q y hp hq hy => ?_⟩
  · rintro (rfl | rfl | rfl)
    · exact nan (.inl rfl)
    · exact nan (.inl (fMul_nan_right u))
    · exact nan (.inr rfl)
  · rw [hv, fMul_inf_right hp, if_pos zero]
  · rw [hu, fMul_inf_left hq, if_pos zero]
  · have product := fMul_of_inf nu nv zu zv infinite
    cases w with
    | nan => exact absurd rfl nw
    | inf k =>
      refine (infs _ _ product rfl).trans ?_
      cases (u.signNeg != v.signNeg) <;> cases k <;> rfl
    | fin k m e => exact infLeft _ _ product rfl
  · obtain ⟨value, sign⟩ := fMul_rat hp hq
    rw [← sign]
    exact finite _ _ value hy

/-! ### Square roots (R212) -/

/-- Digit by digit the root stays below its square's bound. -/
theorem isqrtStep_spec (x : Nat) : ∀ (n r : Nat), r * r ≤ x → x < (r + 2 ^ n) * (r + 2 ^ n) →
    isqrtStep n x r * isqrtStep n x r ≤ x ∧ x < (isqrtStep n x r + 1) * (isqrtStep n x r + 1)
  | 0, r, le, lt => ⟨le, lt⟩
  | n + 1, r, le, lt => by
    rw [isqrtStep]
    have double : r + 2 ^ n + 2 ^ n = r + 2 ^ (n + 1) := by rw [pow_succ]; omega
    split
    next fits => exact isqrtStep_spec x n _ fits (double ▸ lt)
    next above => exact isqrtStep_spec x n r le (not_le.mp above)

theorem isqrt_spec (x : Nat) : isqrt x * isqrt x ≤ x ∧ x < (isqrt x + 1) * (isqrt x + 1) := by
  refine isqrtStep_spec x _ 0 (Nat.zero_le x) ?_
  rw [Nat.zero_add, ← pow_add]
  exact Nat.lt_log2_self.trans_le (Nat.pow_le_pow_right two_pos (by omega))

/-- The root that is rounded: an integer of at least 2^64 in a unit, whose squares bracket the operand (R212). -/
theorem fSqrtBits_spec (f : FFmt) (mode : RMode) {m : Nat} (pos : m ≠ 0) (e : Int) : ∃ (r : Nat) (g : Int) (more : Bool),
    fSqrtBits f mode m e = fRound f mode false false r g more ∧ 2 ^ 64 ≤ r ∧
    ((r : Rat) * 2 ^ g) ^ 2 ≤ m * 2 ^ e ∧ (m : Rat) * 2 ^ e < (((r : Rat) + 1) * 2 ^ g) ^ 2 ∧ (more = false ↔ ((r : Rat) * 2 ^ g) ^ 2 = m * 2 ^ e) := by
  obtain ⟨k, hk, even⟩ : ∃ k : Nat, (if (e - 128) % 2 = 0 then 128 else 129 : Int) = k ∧ 128 ≤ k ∧ (e - k) % 2 = 0 := by
    by_cases h : (e - 128) % 2 = 0
    · exact ⟨128, if_pos h, le_rfl, h⟩
    · exact ⟨129, if_neg h, by omega, by omega⟩
  obtain ⟨g, hg⟩ : ∃ g : Int, e = k + (g + g) := ⟨(e - k) / 2, by omega⟩
  have half : (e - k) / 2 = g := by omega
  obtain ⟨le, lt⟩ := isqrt_spec (m * 2 ^ k)
  refine ⟨isqrt (m * 2 ^ k), g, isqrt (m * 2 ^ k) * isqrt (m * 2 ^ k) != m * 2 ^ k, ?_, ?_, ?_⟩
  · rw [fSqrtBits, hk, half, Int.toNat_natCast]
  · refine not_lt.mp fun small => ?_
    have square : (isqrt (m * 2 ^ k) + 1) * (isqrt (m * 2 ^ k) + 1) ≤ 2 ^ 64 * 2 ^ 64 := Nat.mul_le_mul small small
    have large : 2 ^ 128 ≤ m * 2 ^ k := (Nat.pow_le_pow_right two_pos even.1).trans (Nat.le_mul_of_pos_left _ (Nat.pos_of_ne_zero pos))
    omega
  · have scale : (m : Rat) * 2 ^ e = ((m * 2 ^ k : Nat) : Rat) * (2 ^ g * 2 ^ g) := by
      rw [hg, zpow_add₀ two_ne_zero, zpow_add₀ two_ne_zero, zpow_natCast]
      push_cast
      ring
    have unit : (0 : Rat) < 2 ^ g * 2 ^ g := by positivity
    have square (r : Rat) : (r * 2 ^ g) ^ 2 = r * r * (2 ^ g * 2 ^ g) := by ring
    generalize isqrt (m * 2 ^ k) = r at *
    rw [scale, square, square, mul_le_mul_iff_left₀ unit, mul_lt_mul_iff_left₀ unit, mul_left_inj' unit.ne']
    refine ⟨by exact_mod_cast le, by exact_mod_cast lt, ?_⟩
    rw [bne_eq_false_iff_eq]
    exact_mod_cast Iff.rfl

/-! ### FSCALE (R212) -/

/-- The exponents that a format decodes to. -/
theorem fDecode_exponent {f : FFmt} {y : Nat} {neg : Bool} {m : Nat} {e : Int} (h : fDecode f y = .fin neg m e) : f.lowExp ≤ e ∧ e ≤ f.lowExp + (2 ^ f.eb : Nat) := by
  have exp : field y f.fb f.eb < 2 ^ f.eb := Nat.mod_lt _ (Nat.two_pow_pos _)
  rw [FFmt.lowExp]
  revert h
  unfold fDecode
  dsimp only
  repeat' split
  all_goals
    intro h
    cases h
  all_goals omega

/-- Magnitudes above zero and below half the least one round alike. -/
theorem roundsPast_tiny (f : FFmt) {mode : RMode} {neg odd : Bool} {x : Rat} (pos : 0 < x) (tiny : 2 * x < f.magnitude 1) (i : Nat) :
    RoundsPast mode neg x (f.magnitude i) (f.magnitude (i + 1)) odd ↔ i = 0 ∧ (mode = 2 ∧ neg = false ∨ 2 < mode ∧ neg = true) := by
  have rising := magnitude_strictMono f
  cases i with
  | zero =>
    have zero := magnitude_zero f
    have below : ¬ f.magnitude 1 ≤ x := by linarith
    have nearest : ¬ (f.magnitude 0 + f.magnitude 1 < 2 * x ∨ (f.magnitude 0 + f.magnitude 1 = 2 * x ∧ odd = true)) := by
      rintro (past | ⟨tie, -⟩) <;> linarith
    rcases mode with _ | _ | _ | mode
    · simpa [RoundsPast] using nearest
    · simpa [RoundsPast] using below
    · cases neg <;> simp [RoundsPast, zero, pos, below]
    · cases neg <;> simp [RoundsPast, zero, pos, below]
  | succ i =>
    refine iff_of_false (fun past => ?_) (fun h => Nat.succ_ne_zero i h.1)
    have above := lt_of_roundsPast (rising (i + 1).lt_succ_self) past
    have one := rising.monotone (show 1 ≤ i + 1 by omega)
    linarith

theorem magnitude_one (f : FFmt) : f.magnitude 1 = 2 ^ f.lowExp := by
  have one := magnitude_eq (f := f) (j := 0) (n := 1) (.inl rfl) (Nat.one_le_two_pow)
  rwa [Nat.zero_mul, Nat.zero_add, Nat.cast_one, one_mul, Nat.cast_zero, add_zero] at one

/-- Two magnitudes above zero and below half the least one have one encoding. -/
theorem fRound_tiny {f : FFmt} (wide : f.Wide) {mode : RMode} {sat neg : Bool} {m : Nat} {e e' : Int} (pos : m ≠ 0)
    (tiny : 2 * ((m : Rat) * 2 ^ e) < f.magnitude 1) (tiny' : 2 * ((m : Rat) * 2 ^ e') < f.magnitude 1) :
    fRound f mode sat neg m e false = fRound f mode sat neg m e' false := by
  have above (g : Int) : (0 : Rat) < m * 2 ^ g := mul_pos (by exact_mod_cast Nat.pos_of_ne_zero pos) (by positivity)
  have place : f.roundedPlace mode neg m e = f.roundedPlace mode neg m e' := eq_of_forall_lt_iff fun i => by
    rw [lt_roundedPlace_iff wide, lt_roundedPlace_iff wide, roundsPast_tiny f (above e) tiny, roundsPast_tiny f (above e') tiny']
  rw [fRound_eq wide, fRound_eq wide, place]

/-- A magnitude of at least the value above the largest finite one overflows. -/
theorem fRound_huge {f : FFmt} (wide : f.Wide) {mode : RMode} {sat neg : Bool} {m : Nat} {e : Int} (huge : f.magnitude (fMax f false + 1) ≤ m * 2 ^ e) :
    fRound f mode sat neg m e false = overflowTo f mode sat neg := by
  have past : fMax f false < f.roundedPlace mode neg m e := (lt_roundedPlace_iff wide _).mpr (roundsPast_of_le (magnitude_strictMono f (Nat.lt_succ_self _)) huge)
  rw [fRound_eq wide, if_neg past.not_ge]

/-- The values of the five formats lie between 2^-200 and 2^600. -/
theorem range_fmtOf (t : Ty) : -200 ≤ (fmtOf t).lowExp ∧ (fmtOf t).lowExp ≤ 0 ∧ 2 ^ (fmtOf t).eb ≤ 256 ∧ (fmtOf t).fb ≤ 23 := by
  cases t <;> decide

theorem magnitude_top (t : Ty) : (fmtOf t).magnitude (fMax (fmtOf t) false + 1) ≤ 2 ^ (600 : Int) := by
  obtain ⟨-, low, exps, fracs⟩ := range_fmtOf t
  have top := fMax_lt (fmtOf t)
  generalize hf : fmtOf t = f at *
  have lt : fMax f false + 1 ≤ 256 * 2 ^ f.fb := by
    rw [pow_add] at top
    exact (Nat.succ_le_of_lt top).trans (Nat.mul_le_mul_right _ exps)
  have le := (magnitude_strictMono f).monotone lt
  have full : 256 * 2 ^ f.fb = 255 * 2 ^ f.fb + 2 ^ f.fb := by omega
  rw [full, magnitude_eq (.inr le_rfl) (Nat.pow_le_pow_right two_pos (Nat.le_succ _)), Nat.cast_pow, Nat.cast_ofNat, ← zpow_natCast, ← zpow_add₀ two_ne_zero] at le
  exact le.trans (zpow_le_zpow_right₀ one_le_two (by omega))

/-- The clamped exponent gives the result of the exponent itself. -/
theorem fRound_clampExp {t : Ty} {a : Nat} {mode : RMode} {neg : Bool} {m : Nat} {g : Int} (h : fDecode (fmtOf t) a = .fin neg m g) (pos : m ≠ 0) (E : Int) :
    fRound (fmtOf t) mode false neg m (g + clampExp E) false = fRound (fmtOf t) mode false neg m (g + E) false := by
  have wide := wide_fmtOf t
  obtain ⟨floor, low, exps, fracs⟩ := range_fmtOf t
  obtain ⟨above, below⟩ := fDecode_exponent h
  have one : (1 : Rat) ≤ m := by exact_mod_cast Nat.one_le_iff_ne_zero.mpr pos
  rw [clampExp, clampInt_eq (by decide)]
  rcases lt_trichotomy E 4000 with small | rfl | large
  · rcases lt_or_ge E (-4000) with under | within
    · have tiny (e : Int) (le : e ≤ g - 4000) : 2 * ((m : Rat) * 2 ^ e) < (fmtOf t).magnitude 1 := by
        have bound : (m : Rat) < 2 ^ (24 : Int) := by
          have lt : m < 2 ^ 24 := (fDecode_fin h).2.trans_le (Nat.pow_le_pow_right two_pos (by omega))
          exact_mod_cast lt
        rw [magnitude_one]
        calc 2 * ((m : Rat) * 2 ^ e) < 2 ^ (1 : Int) * (2 ^ (24 : Int) * 2 ^ e) := by
              rw [zpow_one]
              have unit : (0 : Rat) < 2 ^ e := by positivity
              nlinarith
          _ = 2 ^ (25 + e) := by rw [← zpow_add₀ two_ne_zero, ← zpow_add₀ two_ne_zero]; congr 1; ring
          _ ≤ 2 ^ (fmtOf t).lowExp := zpow_le_zpow_right₀ one_le_two (by omega)
      exact fRound_tiny wide pos (tiny _ (by omega)) (tiny _ (by omega))
    · rw [min_eq_left small.le, max_eq_right within]
  · rfl
  · have huge (e : Int) (le : g + 4000 ≤ e) : (fmtOf t).magnitude (fMax (fmtOf t) false + 1) ≤ m * 2 ^ e := by
      calc (fmtOf t).magnitude (fMax (fmtOf t) false + 1) ≤ 2 ^ (600 : Int) := magnitude_top t
        _ ≤ 2 ^ e := zpow_le_zpow_right₀ one_le_two (by omega)
        _ ≤ m * 2 ^ e := le_mul_of_one_le_left (by positivity) one
    rw [fRound_huge wide (huge _ (by omega)), fRound_huge wide (huge _ (by omega))]

/-- FSCALE's exponent is the low 32 bits of B, signed, where B is no FP32 constant. -/
theorem fscaleExp_eq {x : XW} (notConst : ∀ n, x.b ≠ .fc n) (w : Wave) (i : Nat) : fscaleExp x w i = (BitVec.ofNat 32 (intOp w x.lit 32 x.b i)).toInt := by
  unfold fscaleExp
  split
  next n eq => exact absurd eq (notConst n)
  next => exact toSigned_eq_toInt 31 _

theorem fsqrtVal_spec (t : Ty) (mode : RMode) (y : Nat) :
    (fDecode (fmtOf t) y = .nan → fsqrtVal t mode y = fNan (fmtOf t)) ∧
    (∀ n, fDecode (fmtOf t) y = .inf n → fsqrtVal t mode y = if n then fNan (fmtOf t) else fInf (fmtOf t) false) ∧
    (∀ p, (fDecode (fmtOf t) y).rat = some p → p < 0 → fsqrtVal t mode y = fNan (fmtOf t)) ∧
    (∀ n e, fDecode (fmtOf t) y = .fin n 0 e → fsqrtVal t mode y = signBit (fmtOf t) n) ∧
    (∀ p, (fDecode (fmtOf t) y).rat = some p → 0 < p → ∃ (r : Nat) (e : Int) (more : Bool),
      fsqrtVal t mode y = fRound (fmtOf t) mode false false r e more ∧ 2 ^ ((fmtOf t).fb + 2) ≤ r ∧
      ((r : Rat) * 2 ^ e) ^ 2 ≤ p ∧ p < (((r : Rat) + 1) * 2 ^ e) ^ 2 ∧ (more = false ↔ ((r : Rat) * 2 ^ e) ^ 2 = p)) := by
  unfold fsqrtVal fVal
  refine ⟨fun nan => ?_, fun n inf => ?_, fun p hp neg => ?_, fun n e zero => ?_, fun p hp pos => ?_⟩
  · rw [nan]
  · rw [inf]
  · obtain ⟨n, m, e, value⟩ := rat_eq_some hp
    rw [value] at hp ⊢
    have nonneg := magnitude_pos m e
    have sign := eq_sign_mul hp
    have some_m : m ≠ 0 := by
      rintro rfl
      rw [Nat.cast_zero, zero_mul, mul_zero] at sign
      linarith
    cases n with
    | true => exact (if_neg some_m).trans (if_pos rfl)
    | false =>
      rw [if_neg Bool.false_ne_true, one_mul] at sign
      linarith
  · rw [zero]
    exact (if_pos rfl).trans (fEncode_zero ..)
  · obtain ⟨n, m, e, value⟩ := rat_eq_some hp
    rw [value] at hp ⊢
    have nonneg := magnitude_pos m e
    have sign := eq_sign_mul hp
    have some_m : m ≠ 0 := by
      rintro rfl
      rw [Nat.cast_zero, zero_mul, mul_zero] at sign
      linarith
    cases n with
    | true =>
      rw [if_pos rfl, neg_one_mul] at sign
      linarith
    | false =>
      rw [if_neg Bool.false_ne_true, one_mul] at sign
      obtain ⟨r, g, more, out, large, le, lt, exact⟩ := fSqrtBits_spec (fmtOf t) mode some_m e
      have precision : 2 ^ ((fmtOf t).fb + 2) ≤ 2 ^ 64 := Nat.pow_le_pow_right two_pos (by have := (range_fmtOf t).2.2.2; omega)
      rw [sign]
      exact ⟨r, g, more, ((if_neg some_m).trans (if_neg Bool.false_ne_true)).trans out, precision.trans large, le, lt, exact⟩

theorem fscaleVal_spec (t : Ty) (mode : RMode) (y : Nat) (E : Int) :
    (fDecode (fmtOf t) y = .nan → fscaleVal t mode y E = fNan (fmtOf t)) ∧
    (∀ n, fDecode (fmtOf t) y = .inf n → fscaleVal t mode y E = fEncode (fmtOf t) 0 false (.inf n)) ∧
    (∀ n e, fDecode (fmtOf t) y = .fin n 0 e → fscaleVal t mode y E = signBit (fmtOf t) n) ∧
    ∀ p, (fDecode (fmtOf t) y).rat = some p → p * (2 : Rat) ^ E ≠ 0 → ∃ v : FVal, v.rat = some (p * (2 : Rat) ^ E) ∧ fscaleVal t mode y E = fEncode (fmtOf t) mode false v := by
  unfold fscaleVal fVal
  refine ⟨fun nan => ?_, fun n inf => ?_, fun n e zero => ?_, fun p hp ne => ?_⟩
  · rw [nan]
    rfl
  · rw [inf]
    rfl
  · rw [zero]
    exact (if_pos rfl).trans (fEncode_zero ..)
  · obtain ⟨n, m, e, value⟩ := rat_eq_some hp
    have sign := eq_sign_mul (value ▸ hp)
    have some_m : m ≠ 0 := by
      rintro rfl
      rw [sign, Nat.cast_zero, zero_mul, mul_zero, zero_mul] at ne
      exact ne rfl
    refine ⟨.fin n m (e + E), ?_, ?_⟩
    · rw [FVal.rat, sign, zpow_add₀ two_ne_zero]
      exact congrArg some (by ring)
    · rw [value]
      exact (if_neg some_m).trans (fRound_clampExp value some_m E)

end Sys2Proof.Machine
end

section
namespace Sys2Proof
open Sys2Proof.Machine

/-- Settles O5: the exact results (`fEncode_fAdd`, `fMul_rat`, `fSqrtBits_spec`) are encoded once, and the exponent that FSCALE clamps rounds as the exponent itself does (`fRound_clampExp`). -/
theorem floatResults : Obligations.FloatResults := by
  intro x key w m s fmt a b c once inf zero sums
  refine ⟨fun h => ⟨⟨_, xWrites_of_eq h rfl (fun _ => rfl), fun i => fEncode_fAdd fmt x.m.toNat (a i) (b i)⟩,
    ⟨_, xWrites_of_eq h rfl (fun _ => rfl), fun i => fEncode_fAdd fmt x.m.toNat (a i) (b i).neg⟩,
    ⟨_, xWrites_of_eq h rfl (fun _ => rfl), fun i => fEncode_fMul fmt x.m.toNat (a i) (b i)⟩,
    ⟨_, xWrites_of_eq h rfl (fun _ => rfl), fun i => fEncode_fma fmt x.m.toNat (a i) (b i) (c i)⟩,
    ⟨_, xWrites_of_eq h rfl (fun _ => rfl), fun i => fsqrtVal_spec x.t x.m.toNat (valA x w i)⟩⟩, fun h notConst => ⟨_, (regWord_of_issues h _ : execFscale x s = _), fun i => ?_⟩⟩
  obtain ⟨nan, infinite, zeros, scaled⟩ := fscaleVal_spec x.t x.m.toNat (valA x w i) (fscaleExp x w i)
  exact ⟨nan, infinite, zeros, fun p hp => fscaleExp_eq notConst w i ▸ scaled p hp⟩

end Sys2Proof
end

section
/-! SUPPORT. The fixed tree of RED, the running combinations of SCAN, and their operations and identities (R218, R219). -/
namespace Sys2Proof.Machine
open Sys2Proof

/-! ### The tree and the running combinations -/

/-- One level of the tree over a function of the lane: neighbours combined. -/
def treeLevel (f : Nat → Nat → Nat) (y : Nat → Nat) (i : Nat) : Nat := f (y (2 * i)) (y (2 * i + 1))

theorem redLevel_range' (f : Nat → Nat → Nat) (y : Nat → Nat) : ∀ n k : Nat, redLevel f ((List.range' (2 * k) (2 * n)).map y) = (List.range' k n).map (treeLevel f y)
  | 0, _ => rfl
  | n + 1, k => by
    rw [show 2 * (n + 1) = 2 * n + 1 + 1 by omega, List.range'_succ, List.range'_succ, List.map_cons, List.map_cons, redLevel, show 2 * k + 1 + 1 = 2 * (k + 1) by omega,
      redLevel_range' f y n (k + 1), List.range'_succ, List.map_cons]
    rfl

theorem redLevel_range (f : Nat → Nat → Nat) (y : Nat → Nat) (n : Nat) : redLevel f ((List.range (2 * n)).map y) = (List.range n).map (treeLevel f y) := by
  rw [List.range_eq_range', List.range_eq_range']
  exact redLevel_range' f y n 0

/-- The tree of R218 over the 32 lanes is five levels. -/
theorem redTree_lanes (f : Nat → Nat → Nat) (y : Nat → Nat) :
    redTree f (lanes32.map y) = treeLevel f (treeLevel f (treeLevel f (treeLevel f (treeLevel f y)))) 0 := by
  unfold redTree
  rw [show lanes32 = List.range (2 * 16) from rfl, redLevel_range f y 16, redLevel_range f _ 8, redLevel_range f _ 4, redLevel_range f _ 2, redLevel_range f _ 1]
  rfl

/-- The running combination up to a lane. -/
def running (f : Nat → Nat → Nat) (y : Nat → Nat) : Nat → Nat
  | 0 => y 0
  | i + 1 => f (running f y i) (y (i + 1))

theorem scanFrom_range' (f : Nat → Nat → Nat) (y : Nat → Nat) : ∀ n k : Nat,
    scanFrom f (running f y k) ((List.range' (k + 1) n).map y) = (List.range' (k + 1) n).map (running f y)
  | 0, _ => rfl
  | n + 1, k => by
    rw [List.range'_succ, List.map_cons, List.map_cons, scanFrom]
    exact congrArg (List.cons _) (scanFrom_range' f y n (k + 1))

theorem scanAll_lanes (f : Nat → Nat → Nat) (y : Nat → Nat) : scanAll f (lanes32.map y) = lanes32.map (running f y) := by
  rw [show lanes32 = 0 :: List.range' 1 31 from rfl, List.map_cons, List.map_cons, scanAll]
  exact congrArg (List.cons _) (scanFrom_range' f y 31 0)

theorem getD_map_lanes (y : Nat → Nat) {i : Nat} (lt : i < 32) : (lanes32.map y).getD i 0 = y i := by
  rw [List.getD_eq_getElem?_getD, List.getElem?_map, lanes32, List.getElem?_range lt]
  rfl

/-- What SCAN writes of a value: a NaN is canonical (R175). -/
theorem canonical_eq (t : Ty) (a : Nat) : canonical t a = if t.isFloat = true ∧ fDecode (fmtOf t) a = .nan then fNan (fmtOf t) else a := by
  have nan : (fVal t a).isNan = true ↔ fDecode (fmtOf t) a = .nan := by
    unfold fVal
    cases fDecode (fmtOf t) a <;> simp [FVal.isNan]
  simp only [canonical, nan]

/-! ### Operations and identities (R218) -/

section
variable {t : Ty} {p q : Nat} (hp : p < 2 ^ t.width) (hq : q < 2 ^ t.width)
include hp hq

/-- The operations and identities of the integer and bit types. -/
theorem redOp_int (int : t.isFloat = false) (mode : RMode) {op : Nat} :
    let a : BitVec t.width := BitVec.ofNat _ p
    let b : BitVec t.width := BitVec.ofNat _ q
    (op = 0 → redId t op = 0 ∧ redOp t mode op p q = (a + b).toNat) ∧
    (op = 1 → redId t op = (BitVec.ofInt t.width (tyMax t)).toNat ∧ redOp t mode op p q = (if tyInt t b < tyInt t a then b else a).toNat) ∧
    (op = 2 → redId t op = (BitVec.ofInt t.width (tyMin t)).toNat ∧ redOp t mode op p q = (if tyInt t a < tyInt t b then b else a).toNat) ∧
    (op = 3 → redId t op = 2 ^ t.width - 1 ∧ redOp t mode op p q = (a &&& b).toNat) ∧
    (op = 4 → redId t op = 0 ∧ redOp t mode op p q = (a ||| b).toNat) ∧ (op = 5 → redId t op = 0 ∧ redOp t mode op p q = (a ^^^ b).toNat) := by
  intro a b
  have noFloat : ¬ t.isFloat = true := by rw [int]; exact Bool.false_ne_true
  refine ⟨?_, ?_, ?_, ?_, ?_, ?_⟩
  · rintro rfl
    exact ⟨if_neg noFloat, (if_neg noFloat).trans (addVal_eq p q)⟩
  · rintro rfl
    refine ⟨(if_neg noFloat).trans (ofSigned_eq _ _), (if_neg noFloat).trans ((minVal_eq hp hq).trans (congrArg BitVec.toNat ?_))⟩
    rcases lt_trichotomy (tyInt t a) (tyInt t b) with lt | eq | gt
    · rw [if_pos lt, if_neg lt.not_gt]
    · rw [if_neg eq.not_lt, if_neg eq.not_gt]
      exact (tyInt_inj eq).symm
    · rw [if_neg gt.not_gt, if_pos gt]
  · rintro rfl
    refine ⟨(if_neg noFloat).trans (ofSigned_eq _ _), (if_neg noFloat).trans ((maxVal_eq hp hq).trans (congrArg BitVec.toNat ?_))⟩
    rcases lt_trichotomy (tyInt t a) (tyInt t b) with lt | eq | gt
    · rw [if_neg lt.not_gt, if_pos lt]
    · rw [if_neg eq.not_gt, if_neg eq.not_lt]
      exact (tyInt_inj eq).symm
    · rw [if_pos gt, if_neg gt.not_gt]
  · rintro rfl
    exact ⟨rfl, and_eq_toNat hp hq⟩
  · rintro rfl
    exact ⟨rfl, or_eq_toNat hp hq⟩
  · rintro rfl
    exact ⟨rfl, xor_eq_toNat hp hq⟩

end

/-- Where a value of the format is an infinity, it is encoded as one. -/
theorem fEncode_inf {f : FFmt} {y : Nat} {k : Bool} (h : fDecode f y = .inf k) (n : Bool) : fEncode f 0 false (.inf n) = fInf f n := by
  rw [fEncode, if_neg Bool.false_ne_true, if_neg (fDecode_inf h).1]

/-- The sum of RED and SCAN in a floating type. -/
theorem redOp_sum {t : Ty} (float : t.isFloat = true) (mode : RMode) (p q : Nat) :
    let f := fmtOf t
    let a := fDecode f p
    let b := fDecode f q
    let r := redOp t mode 0 p q
    redId t 0 = 2 ^ (f.eb + f.fb) ∧ ((a = .nan ∨ b = .nan) → r = fNan f) ∧ (∀ n k, a = .inf n → b = .inf k → r = if n = k then fInf f n else fNan f) ∧
    (∀ n y, a = .inf n → b.rat = some y → r = fInf f n) ∧ (∀ y k, a.rat = some y → b = .inf k → r = fInf f k) ∧
    (∀ y z, a.rat = some y → b.rat = some z →
      (y + z = 0 → r = signBit f (if a.signNeg = b.signNeg then a.signNeg else decide (mode = 3))) ∧ (y + z ≠ 0 → ∃ v : FVal, v.rat = some (y + z) ∧ r = fEncode f mode false v)) := by
  intro f a b r
  have out : r = fEncode f mode false (fAdd mode a b) := if_pos float
  obtain ⟨nan, infs, left, right, finite⟩ := fEncode_fAdd f mode a b
  rw [out]
  refine ⟨(if_pos float).trans (if_pos rfl), nan, fun n k hn hk => ?_, fun n y hn hy => ?_, fun y k hy hk => ?_, fun y z hy hz => (finite y z hy hz).symm⟩
  · exact (infs n k hn hk).trans (by rw [← fEncode_inf hn])
  · exact (left n y hn hy).trans (fEncode_inf hn n)
  · exact (right y k hy hk).trans (fEncode_inf hk k)

end Sys2Proof.Machine
end

section
namespace Sys2Proof
open Sys2Proof.Machine

/-- Settles O11: the combination is `redOp` and the identity `redId`; RED is five levels of the tree (`redTree_lanes`), SCAN the running combination (`scanAll_lanes`). -/
theorem reductionResults : Obligations.ReductionResults := by
  intro x key w m s h op fmt zero
  refine ⟨redOp x.t x.m.toNat op, redId x.t op, fun int p q hp hq => redOp_int hp hq int _, fun float p q hp hq => ?floats, ?_⟩
  case floats =>
    refine ⟨fun sum => ?_, fun isMin => ?_, fun isMax => ?_⟩
    · rw [sum]
      exact redOp_sum float _ p q
    · rw [isMin]
      have out : redOp x.t x.m.toNat 1 p q = fminVal x.t p q := if_pos float
      rw [out]
      obtain ⟨both, left, right⟩ := fminVal_of_nan float hp hq
      exact ⟨if_pos float, ⟨both, left, right⟩, fminVal_of_num float hp hq⟩
    · rw [isMax]
      have out : redOp x.t x.m.toNat 2 p q = fmaxVal x.t p q := if_pos float
      rw [out]
      obtain ⟨both, left, right⟩ := fmaxVal_of_nan float hp hq
      exact ⟨if_pos float, ⟨both, left, right⟩, fmaxVal_of_num float hp hq⟩
  intro x0 level written
  have scanned : (scanAll (redOp x.t x.m.toNat op) (redInput x op m w)).map (canonical x.t) = lanes32.map (fun i => canonical x.t (running (redOp x.t x.m.toNat op) x0 i)) := by
    rw [redInput, scanAll_lanes, List.map_map]
    rfl
  refine ⟨fun small => ?_, running (redOp x.t x.m.toNat op) x0, rfl, fun _ _ => rfl, fun _ => ⟨_, (regWord_of_issues h _ : execScan x s = _), fun incl i lt => ?_, fun excl => ⟨?_, fun i lt => ?_⟩⟩⟩
  · have same : x.sub.toNat = op := (Nat.mod_eq_of_lt (by omega)).symm
    refine (regWord_of_issues h _ : execRed x s = _).trans ?_
    simp only [same, redInput]
    rw [redTree_lanes]
    rfl
  · have notExcl : ¬ decide (8 ≤ x.sub.toNat) = true := by rw [decide_eq_true_eq]; omega
    refine (if_neg notExcl).trans ?_
    rw [scanned, getD_map_lanes _ lt]
    exact canonical_eq x.t _
  · exact (if_pos (decide_eq_true excl)).trans (if_pos rfl)
  · refine ((if_pos (decide_eq_true excl)).trans (if_neg (Nat.succ_ne_zero i))).trans ?_
    rw [scanned, Nat.add_sub_cancel, getD_map_lanes _ (by omega)]
    exact canonical_eq x.t _

end Sys2Proof
end

section
/-! SUPPORT. The iterative functions (R215): their special inputs, the reciprocals as integers of many bits in a unit, and the arguments whose result is exact. -/
namespace Sys2Proof.Machine
open Sys2Proof

/-! ### Exact results -/

/-- A magnitude of the format is encoded at its place in every mode. -/
theorem fRound_of_magnitude {f : FFmt} (wide : f.Wide) {mode : RMode} {sat neg : Bool} {m k : Nat} {e : Int} (le : k ≤ fMax f false) (same : (m : Rat) * 2 ^ e = f.magnitude k) :
    fRound f mode sat neg m e false = signBit f neg + k := by
  have rising := magnitude_strictMono f
  have place : f.roundedPlace mode neg m e = k := by
    refine eq_of_forall_lt_iff fun i => ?_
    rw [lt_roundedPlace_iff wide, same]
    exact ⟨fun past => rising.lt_iff_lt.mp (lt_of_roundsPast (rising i.lt_succ_self) past), fun lt => roundsPast_of_le (rising i.lt_succ_self) (rising.monotone lt)⟩
  rw [fRound_eq wide, place, if_pos le]

theorem wide_f32 : fmtF32.Wide := wide_fmtOf .f32

/-- The place of a power of two in FP32. -/
theorem magnitude_two_pow {z : Int} (low : -149 ≤ z) (high : z < 128) : ∃ k ≤ fMax fmtF32 false, fmtF32.magnitude k = 2 ^ z := by
  have least : fmtF32.lowExp = -149 := by decide
  have frac : fmtF32.fb = 23 := rfl
  have top : fMax fmtF32 false = 255 * 2 ^ 23 - 1 := by decide
  rcases lt_or_ge z (-126) with small | normal
  · obtain ⟨i, rfl⟩ : ∃ i : Nat, z = -149 + i := ⟨(z + 149).toNat, by omega⟩
    have le : 2 ^ i ≤ 2 ^ 23 := Nat.pow_le_pow_right two_pos (by omega)
    have mag := magnitude_eq (f := fmtF32) (j := 0) (n := 2 ^ i) (.inl rfl) (Nat.pow_le_pow_right two_pos (by rw [frac]; omega))
    refine ⟨2 ^ i, by omega, ?_⟩
    rw [Nat.zero_mul, Nat.zero_add] at mag
    rw [mag, least, Nat.cast_pow, Nat.cast_ofNat, ← zpow_natCast, ← zpow_add₀ two_ne_zero]
    push_cast
    rfl
  · obtain ⟨j, rfl⟩ : ∃ j : Nat, z = j - 126 := ⟨(z + 126).toNat, by omega⟩
    have mag := magnitude_eq (f := fmtF32) (j := j) (n := 2 ^ 23) (.inr le_rfl) (Nat.pow_le_pow_right two_pos (by rw [frac]; omega))
    refine ⟨j * 2 ^ fmtF32.fb + 2 ^ 23, by rw [top, frac]; omega, ?_⟩
    rw [mag, least, Nat.cast_pow, Nat.cast_ofNat, ← zpow_natCast, ← zpow_add₀ two_ne_zero]
    congr 1
    push_cast
    ring

/-- To nearest or toward zero, at most half the least magnitude gives zero. -/
theorem fRound_of_half {f : FFmt} (wide : f.Wide) {mode : RMode} (down : mode = 0 ∨ mode = 1) {sat neg : Bool} {m : Nat} {e : Int} (small : 2 * ((m : Rat) * 2 ^ e) ≤ f.magnitude 1) :
    fRound f mode sat neg m e false = signBit f neg := by
  have zero := magnitude_zero f
  have one : 0 < f.magnitude 1 := zero ▸ magnitude_strictMono f Nat.zero_lt_one
  have place : f.roundedPlace mode neg m e = 0 := by
    refine Nat.eq_zero_of_not_pos fun pos => ?_
    rcases down with rfl | rfl
    · rcases (lt_roundedPlace_iff wide 0).mp pos with past | ⟨-, odd⟩
      · linarith
      · exact absurd odd (by decide)
    · have past : f.magnitude 1 ≤ m * 2 ^ e := (lt_roundedPlace_iff wide 0).mp pos
      linarith
  rw [fRound_eq wide, place, if_pos (Nat.zero_le _), Nat.add_zero]

/-! ### Rounding for an iteration count (R215) -/

theorem log2_of_lt {m k : Nat} (pos : m ≠ 0) (lt : m < 2 ^ k) : Nat.log2 m < k := (Nat.log2_lt pos).mpr lt

/-- A value of at most 12 bits below 2^128 is not cut: it is rounded to nearest or toward zero. -/
theorem iterRound_short {n m : Nat} (neg : Bool) (e : Int) (short : m < 2 ^ 12) (below : m ≠ 0 → (Nat.log2 m : Int) + e < 128) :
    ∃ mode, (mode = 0 ∨ mode = 1) ∧ iterRound n neg m e false = fRound fmtF32 mode false neg m e false := by
  by_cases two : n ≥ 2
  · exact ⟨0, .inl rfl, if_pos two⟩
  · refine ⟨1, .inr rfl, (if_neg two).trans ?_⟩
    have noCut : Nat.log2 m + 1 - (if n = 0 then 12 else 22) = 0 := by
      by_cases zero : m = 0
      · rw [zero, Nat.log2_zero]
        split <;> omega
      · have := log2_of_lt zero short
        split <;> omega
    rw [noCut]
    refine (if_neg fun h => absurd h.2 (not_le.mpr (below h.1))).trans ?_
    rw [pow_zero, Nat.div_one, Nat.cast_zero, add_zero]

/-- A power of two at every iteration count. -/
theorem iterRound_one (n : Nat) (z : Int) : (-149 ≤ z → z < 128 → (fDecode fmtF32 (iterRound n false 1 z false)).rat = some ((2 : Rat) ^ z)) ∧
    (128 ≤ z → iterRound n false 1 z false = 0x7F800000) ∧ (z < -149 → iterRound n false 1 z false = 0) := by
  have log : Nat.log2 1 = 0 := rfl
  refine ⟨fun low high => ?_, fun high => ?_, fun low => ?_⟩
  · obtain ⟨mode, -, out⟩ := iterRound_short (n := n) (m := 1) false z (by decide) (fun _ => by rw [log]; omega)
    obtain ⟨k, le, mag⟩ := magnitude_two_pow low high
    rw [out, fRound_of_magnitude wide_f32 le (by rw [mag, Nat.cast_one, one_mul]), rat_signBit_add wide_f32 false le, if_neg Bool.false_ne_true, one_mul, mag]
  · by_cases two : n ≥ 2
    · have huge : fmtF32.magnitude (fMax fmtF32 false + 1) ≤ ((1 : Nat) : Rat) * 2 ^ z := by
        have top : fMax fmtF32 false + 1 = 254 * 2 ^ fmtF32.fb + 2 ^ 23 := by decide
        have least : fmtF32.lowExp = -149 := by decide
        rw [top, magnitude_eq (f := fmtF32) (j := 254) (n := 2 ^ 23) (.inr le_rfl) (by decide), least, Nat.cast_one, one_mul, Nat.cast_pow, Nat.cast_ofNat, ← zpow_natCast, ← zpow_add₀ two_ne_zero]
        exact zpow_le_zpow_right₀ one_le_two (by push_cast; omega)
      exact (if_pos two).trans (fRound_huge wide_f32 huge)
    · exact (if_neg two).trans (if_pos ⟨one_ne_zero, by rw [log]; omega⟩)
  · obtain ⟨mode, down, out⟩ := iterRound_short (n := n) (m := 1) false z (by decide) (fun _ => by rw [log]; omega)
    have least : fmtF32.lowExp = -149 := by decide
    rw [out, fRound_of_half wide_f32 down, signBit_false]
    rw [magnitude_one, least, Nat.cast_one, one_mul, ← zpow_one_add₀ two_ne_zero]
    exact zpow_le_zpow_right₀ one_le_two (by omega)

/-- A small integer at every iteration count. -/
theorem iterRound_nat (n : Nat) (neg : Bool) {m : Nat} (short : m < 2 ^ 12) : (fDecode fmtF32 (iterRound n neg m 0 false)).rat = some ((if neg then -1 else 1) * (m : Rat)) := by
  have below (pos : m ≠ 0) : (Nat.log2 m : Int) + 0 < 128 := by
    have := log2_of_lt pos short
    omega
  obtain ⟨mode, -, out⟩ := iterRound_short (n := n) neg 0 short below
  have frac : fmtF32.fb = 23 := rfl
  obtain ⟨le, mag⟩ := place_le_fMax (t := .f32) (by decide) (n := m) (short.le.trans (Nat.pow_le_pow_right two_pos (by decide))) neg
  have same : (m : Rat) * 2 ^ (0 : Int) = fmtF32.magnitude (fmtF32.roundedPlace 0 neg m 0) := by rw [zpow_zero, mul_one]; exact mag.symm
  rw [out, fRound_of_magnitude wide_f32 le same, rat_signBit_add wide_f32 neg le]
  exact congrArg (fun x => some ((if neg then -1 else 1) * x)) mag

/-! ### Reciprocals (R215) -/

/-- Cut to 12 or 22 significant bits, an integer M in units of 2^g brackets what M and M + 1 bracket; P says which nonnegative numbers lie at most at the value. -/
theorem iterRound_cut {P : Rat → Prop} (down : ∀ x y, 0 ≤ x → x ≤ y → P y → P x) {n k : Nat} (count : n = 0 ∧ k = 12 ∨ n = 1 ∧ k = 22) {M : Nat} {g : Int} (large : 2 ^ 100 ≤ M)
    (low : P (M * 2 ^ g)) (high : ¬ P ((M + 1) * 2 ^ g)) (neg more : Bool) :
    ((Nat.log2 M : Int) + g < 128 → ∃ (r : Nat) (e : Int), (2 ^ (k - 1) ≤ r ∧ r < 2 ^ k) ∧ P (r * 2 ^ e) ∧ ¬ P ((r + 1) * 2 ^ e) ∧
      iterRound n neg M g more = fRound fmtF32 1 false neg r e false) ∧
    (128 ≤ (Nat.log2 M : Int) + g → iterRound n neg M g more = fInf fmtF32 neg) := by
  have pos : M ≠ 0 := by omega
  have few : ¬ n ≥ 2 := by omega
  have bits : (if n = 0 then 12 else 22) = k := by rcases count with ⟨rfl, rfl⟩ | ⟨rfl, rfl⟩ <;> rfl
  have log : 100 ≤ Nat.log2 M := (Nat.le_log2 pos).mpr large
  obtain ⟨c, hc⟩ : ∃ c, Nat.log2 M + 1 = k + c := ⟨Nat.log2 M + 1 - k, by omega⟩
  have cut : Nat.log2 M + 1 - (if n = 0 then 12 else 22) = c := by rw [bits]; omega
  refine ⟨fun below => ⟨M / 2 ^ c, g + c, ⟨?_, ?_⟩, ?_, fun past => high ?_, ?_⟩, fun above => (if_neg few).trans (if_pos ⟨pos, above⟩)⟩
  · rw [Nat.le_div_iff_mul_le (Nat.two_pow_pos c), ← pow_add, show k - 1 + c = Nat.log2 M by omega]
    exact (Nat.le_log2 pos).mp le_rfl
  · rw [Nat.div_lt_iff_lt_mul (Nat.two_pow_pos c), ← pow_add, ← hc]
    exact Nat.lt_log2_self
  · refine down _ _ (by positivity) ?_ low
    have le : M / 2 ^ c * 2 ^ c ≤ M := Nat.div_mul_le_self M (2 ^ c)
    rw [zpow_add₀ two_ne_zero, mul_left_comm, mul_comm ((2 : Rat) ^ g), zpow_natCast]
    exact mul_le_mul_of_nonneg_right (by exact_mod_cast le) (by positivity)
  · refine down _ _ (by positivity) ?_ past
    have le : M + 1 ≤ (M / 2 ^ c + 1) * 2 ^ c := Nat.succ_le_of_lt (Nat.lt_mul_of_div_lt (Nat.lt_succ_self _) (Nat.two_pow_pos c))
    rw [zpow_add₀ two_ne_zero, mul_left_comm, mul_comm ((2 : Rat) ^ g), zpow_natCast]
    exact mul_le_mul_of_nonneg_right (by exact_mod_cast le) (by positivity)
  · refine (if_neg few).trans ?_
    rw [cut]
    exact if_neg fun h => absurd h.2 (not_le.mpr below)

/-- The reciprocal of m × 2^e as an integer of at least 100 bits in a unit. -/
theorem recip_spec {m : Nat} (pos : m ≠ 0) (small : m < 2 ^ 24) (e : Int) {v : Rat} (hv : v = m * 2 ^ e) :
    2 ^ 100 ≤ 2 ^ 200 / m ∧ ((2 ^ 200 / m : Nat) : Rat) * 2 ^ (-e - 200) ≤ 1 / v ∧ 1 / v < (((2 ^ 200 / m : Nat) : Rat) + 1) * 2 ^ (-e - 200) ∧
      ((2 ^ 200 % m != 0) = false ↔ ((2 ^ 200 / m : Nat) : Rat) * 2 ^ (-e - 200) = 1 / v) := by
  have value : 1 / v = 2 ^ 200 / m * (2 : Rat) ^ (-e - 200) := by
    rw [hv, zpow_sub₀ two_ne_zero, zpow_neg]
    field_simp
  have unit : (0 : Rat) < 2 ^ (-e - 200) := by positivity
  have mpos : (0 : Rat) < m := by exact_mod_cast Nat.pos_of_ne_zero pos
  have parts := Nat.div_add_mod' (2 ^ 200) m
  have rem := Nat.mod_lt (2 ^ 200) (Nat.pos_of_ne_zero pos)
  have large : 2 ^ 100 ≤ 2 ^ 200 / m := by
    rw [Nat.le_div_iff_mul_le (Nat.pos_of_ne_zero pos)]
    calc 2 ^ 100 * m ≤ 2 ^ 100 * 2 ^ 24 := Nat.mul_le_mul_left _ small.le
      _ ≤ 2 ^ 200 := by norm_num
  rw [value, mul_le_mul_iff_left₀ unit, mul_lt_mul_iff_left₀ unit, mul_left_inj' unit.ne', le_div_iff₀ mpos, div_lt_iff₀ mpos, eq_div_iff mpos.ne', bne_eq_false_iff_eq]
  generalize 2 ^ 200 / m = q at *
  generalize 2 ^ 200 % m = z at *
  have cast : (q : Rat) * m + z = 2 ^ 200 := by exact_mod_cast parts
  have zlt : (z : Rat) < m := by exact_mod_cast rem
  have znn : (0 : Rat) ≤ z := Nat.cast_nonneg z
  refine ⟨large, by linarith, by linarith, fun h => ?_, fun h => ?_⟩
  · rw [h, Nat.cast_zero] at cast
    linarith
  · have zero : (z : Rat) = 0 := by linarith
    exact_mod_cast zero

/-- The reciprocal square root of m × 2^e as an integer of at least 100 bits in a unit. -/
theorem rsqrt_spec (n : Nat) {m : Nat} (pos : m ≠ 0) (small : m < 2 ^ 24) {e : Int} (range : -149 ≤ e) {q : Rat} (hq : q = m * 2 ^ e) :
    ∃ (M : Nat) (g : Int) (more : Bool), rsqrtRound n m e = iterRound n false M g more ∧ 2 ^ 100 ≤ M ∧ (Nat.log2 M : Int) + g < 128 ∧
      ((M : Rat) * 2 ^ g) ^ 2 * q ≤ 1 ∧ 1 < (((M : Rat) + 1) * 2 ^ g) ^ 2 * q ∧ (more = false ↔ ((M : Rat) * 2 ^ g) ^ 2 * q = 1) := by
  obtain ⟨m1, h, e1, hm, hg, m1pos, m1small, hval, hrange⟩ : ∃ (m1 : Nat) (h e1 : Int), (if (e % 2 != 0) = true then 2 * m else m) = m1 ∧
      (if (e % 2 != 0) = true then e - 1 else e) = e1 ∧ m1 ≠ 0 ∧ m1 < 2 ^ 25 ∧ (e1 = h + h ∧ (m : Rat) * 2 ^ e = m1 * 2 ^ e1) ∧ -150 ≤ e1 := by
    by_cases odd : (e % 2 != 0) = true
    · rw [if_pos odd, if_pos odd]
      have odd' : e % 2 ≠ 0 := bne_iff_ne.mp odd
      refine ⟨2 * m, (e - 1) / 2, e - 1, rfl, rfl, by omega, by omega, ⟨by omega, ?_⟩, by omega⟩
      rw [zpow_sub_one₀ two_ne_zero]
      push_cast
      ring
    · rw [if_neg odd, if_neg odd]
      have even : e % 2 = 0 := by simpa using odd
      exact ⟨m, e / 2, e, rfl, rfl, pos, by omega, ⟨by omega, rfl⟩, by omega⟩
  obtain ⟨he, scale⟩ := hval
  have half : e1 / 2 = h := by omega
  obtain ⟨le, lt⟩ := isqrt_spec (2 ^ 400 / m1)
  have m1p := Nat.pos_of_ne_zero m1pos
  have le' : isqrt (2 ^ 400 / m1) * isqrt (2 ^ 400 / m1) * m1 ≤ 2 ^ 400 := (Nat.le_div_iff_mul_le m1p).mp le
  have lt' : 2 ^ 400 < (isqrt (2 ^ 400 / m1) + 1) * (isqrt (2 ^ 400 / m1) + 1) * m1 := (Nat.div_lt_iff_lt_mul m1p).mp lt
  have out : rsqrtRound n m e = iterRound n false (isqrt (2 ^ 400 / m1)) (-200 - h) (isqrt (2 ^ 400 / m1) * isqrt (2 ^ 400 / m1) * m1 != 2 ^ 400) := by
    unfold rsqrtRound
    dsimp only
    rw [hm, hg, half]
  refine ⟨_, _, _, out, ?_⟩
  generalize isqrt (2 ^ 400 / m1) = M at *
  have unit : ((2 : Rat) ^ (-200 - h)) ^ 2 * q = m1 / 2 ^ 400 := by
    rw [hq, scale, he, zpow_sub₀ two_ne_zero, zpow_add₀ two_ne_zero]
    field_simp
  have square (x : Rat) : (x * 2 ^ (-200 - h)) ^ 2 * q = x * x * m1 / 2 ^ 400 := by
    rw [mul_pow, mul_assoc, unit, pow_two]
    exact mul_div_assoc' _ _ _
  have two : (0 : Rat) < 2 ^ 400 := by positivity
  rw [square, square, div_le_one two, one_lt_div two, div_eq_one_iff_eq two.ne', bne_eq_false_iff_eq]
  refine ⟨?_, ?_, by exact_mod_cast le', by exact_mod_cast lt', by exact_mod_cast Iff.rfl⟩
  · refine not_lt.mp fun less => ?_
    have bound : (M + 1) * (M + 1) * m1 ≤ 2 ^ 100 * 2 ^ 100 * 2 ^ 25 := Nat.mul_le_mul (Nat.mul_le_mul less less) m1small.le
    rw [← pow_add, ← pow_add] at bound
    exact absurd (lt'.trans_le (bound.trans (Nat.pow_le_pow_right two_pos (by decide)))) (lt_irrefl _)
  · have bound : M < 2 ^ 201 := by
      refine not_le.mp fun big => ?_
      have bound : 2 ^ 201 * 2 ^ 201 * 1 ≤ M * M * m1 := Nat.mul_le_mul (Nat.mul_le_mul big big) m1p
      rw [mul_one, ← pow_add] at bound
      exact absurd (bound.trans le') (not_le.mpr (Nat.pow_lt_pow_right one_lt_two (by decide)))
    by_cases zero : M = 0
    · rw [zero, Nat.log2_zero]
      omega
    · have := log2_of_lt zero bound
      omega

/-- A nonzero FP32 value: its significand, its exponent, its magnitude and its sign. -/
theorem nonzero_f32 {a : Nat} {q : Rat} (hq : (fDecode fmtF32 a).rat = some q) (ne : q ≠ 0) : ∃ (neg : Bool) (m : Nat) (e : Int),
    fDecode fmtF32 a = .fin neg m e ∧ m ≠ 0 ∧ m < 2 ^ 24 ∧ (-149 ≤ e ∧ e ≤ 107) ∧ |q| = m * 2 ^ e ∧ neg = decide (q < 0) := by
  obtain ⟨neg, m, e, value⟩ := rat_eq_some hq
  have sign := eq_sign_mul (value ▸ hq)
  have range := fDecode_exponent value
  have nonzero : m ≠ 0 := by
    rintro rfl
    exact ne (by rw [sign, Nat.cast_zero, zero_mul, mul_zero])
  have pos : (0 : Rat) < m * 2 ^ e := mul_pos (by exact_mod_cast Nat.pos_of_ne_zero nonzero) (by positivity)
  refine ⟨neg, m, e, value, nonzero, (fDecode_fin value).2, range, abs_rat_fin (value ▸ hq), ?_⟩
  rw [sign]
  cases neg
  · rw [if_neg Bool.false_ne_true, one_mul, decide_eq_false pos.not_gt]
  · rw [if_pos rfl, neg_one_mul, decide_eq_true (neg_lt_zero.mpr pos)]

theorem frsqVal_of_pos {n a : Nat} {neg : Bool} {m : Nat} {e : Int} (value : fDecode fmtF32 a = .fin neg m e) (nonzero : m ≠ 0) (pos : neg = false) :
    frsqVal n a = rsqrtRound n m e := by
  rw [frsqVal, value, pos]
  exact (if_neg nonzero).trans (if_neg Bool.false_ne_true)

/-- What M and M + 1 bracket is at least 2^128 just where M is, in a unit of at most 2^128. -/
theorem le_log2_iff {M : Nat} {g : Int} {x : Rat} (large : 2 ^ 100 ≤ M) (low : (M : Rat) * 2 ^ g ≤ x) (high : x < ((M : Rat) + 1) * 2 ^ g) (unit : g ≤ 128) :
    128 ≤ (Nat.log2 M : Int) + g ↔ 2 ^ 128 ≤ x := by
  have pos : M ≠ 0 := by omega
  obtain ⟨d, hd⟩ : ∃ d : Nat, 128 - g = d := ⟨(128 - g).toNat, by omega⟩
  have scale : (2 : Rat) ^ 128 = 2 ^ d * 2 ^ g := by
    rw [← zpow_natCast, ← zpow_natCast, ← zpow_add₀ two_ne_zero]
    congr 1
    omega
  have upos : (0 : Rat) < 2 ^ g := by positivity
  have log : 128 ≤ (Nat.log2 M : Int) + g ↔ 2 ^ d ≤ M := by
    rw [← Nat.le_log2 pos]
    omega
  rw [log, scale]
  refine ⟨fun le => le_trans ?_ low, fun le => Nat.lt_succ_iff.mp ?_⟩
  · exact mul_le_mul_of_nonneg_right (by exact_mod_cast le) upos.le
  · have lt := lt_of_mul_lt_mul_right (le.trans_lt high) upos.le
    exact_mod_cast lt

/-- The table of special inputs of R215, at every iteration count. -/
theorem special_inputs (n a : Nat) : (fDecode fmtF32 a = .nan → frcpVal n a = 0x7FC00000 ∧ frsqVal n a = 0x7FC00000 ∧ fexp2Val n a = 0x7FC00000 ∧
      flog2Val n a = 0x7FC00000 ∧ ftanhVal n a = 0x7FC00000) ∧
    (∀ neg e, fDecode fmtF32 a = .fin neg 0 e → frcpVal n a = (if neg then 0xFF800000 else 0x7F800000) ∧
      frsqVal n a = (if neg then 0xFF800000 else 0x7F800000) ∧ fexp2Val n a = 0x3F800000 ∧ flog2Val n a = 0xFF800000 ∧
      ftanhVal n a = (if neg then 0x80000000 else 0)) ∧
    (fDecode fmtF32 a = .inf false → frcpVal n a = 0 ∧ frsqVal n a = 0 ∧ fexp2Val n a = 0x7F800000 ∧ flog2Val n a = 0x7F800000 ∧ ftanhVal n a = 0x3F800000) ∧
    (fDecode fmtF32 a = .inf true → frcpVal n a = 0x80000000 ∧ frsqVal n a = 0x7FC00000 ∧ fexp2Val n a = 0 ∧ flog2Val n a = 0x7FC00000 ∧ ftanhVal n a = 0xBF800000) ∧
    (∀ q, (fDecode fmtF32 a).rat = some q → q < 0 → frsqVal n a = 0x7FC00000 ∧ flog2Val n a = 0x7FC00000) := by
  unfold frcpVal frsqVal fexp2Val flog2Val ftanhVal
  refine ⟨fun nan => ?_, fun neg e zero => ?_, fun inf => ?_, fun inf => ?_, fun q hq neg => ?_⟩
  · rw [nan]
    exact ⟨rfl, rfl, rfl, rfl, rfl⟩
  · rw [zero]
    cases neg <;> exact ⟨rfl, rfl, rfl, rfl, rfl⟩
  · rw [inf]
    exact ⟨rfl, rfl, rfl, rfl, rfl⟩
  · rw [inf]
    exact ⟨rfl, rfl, rfl, rfl, rfl⟩
  · obtain ⟨n, m, e, value, nonzero, -, -, -, sign⟩ := nonzero_f32 hq neg.ne
    rw [value, sign, decide_eq_true neg]
    exact ⟨(if_neg nonzero).trans (if_pos rfl), (if_neg nonzero).trans (if_pos rfl)⟩

theorem frcpVal_of_nonzero {n a : Nat} {neg : Bool} {m : Nat} {e : Int} (value : fDecode fmtF32 a = .fin neg m e) (nonzero : m ≠ 0) :
    frcpVal n a = iterRound n neg (2 ^ 200 / m) (-e - 200) (2 ^ 200 % m != 0) := by
  unfold frcpVal
  rw [value]
  dsimp only
  rw [if_neg nonzero, recipRound]

/-- FRCP of a nonzero value at 2 iterations is the rounding to nearest of its reciprocal. -/
theorem frcpVal_two {a : Nat} {q : Rat} (hq : (fDecode fmtF32 a).rat = some q) (ne : q ≠ 0) : ∃ (neg : Bool) (r : Nat) (e : Int) (more : Bool),
    frcpVal 2 a = fRound fmtF32 0 false neg r e more ∧ (neg = decide (q < 0)) ∧
    (r : Rat) * 2 ^ e ≤ 1 / |q| ∧ 1 / |q| < ((r : Rat) + 1) * 2 ^ e ∧ (more = false ↔ (r : Rat) * 2 ^ e = 1 / |q|) ∧ 2 ^ 100 ≤ r := by
  obtain ⟨neg, m, e, value, pos, small, -, abs, sign⟩ := nonzero_f32 hq ne
  obtain ⟨large, le, lt, exact⟩ := recip_spec pos small e abs
  have out := frcpVal_of_nonzero (n := 2) value pos
  generalize 2 ^ 200 / m = r at *
  generalize (2 ^ 200 % m != 0) = more at *
  exact ⟨neg, r, _, more, out.trans (if_pos (Nat.le_refl 2)), sign, le, lt, exact, large⟩

/-- FRSQ of a positive value at 2 iterations is the rounding to nearest of its reciprocal root. -/
theorem frsqVal_two {a : Nat} {q : Rat} (hq : (fDecode fmtF32 a).rat = some q) (pos : 0 < q) : ∃ (r : Nat) (e : Int) (more : Bool),
    frsqVal 2 a = fRound fmtF32 0 false false r e more ∧ ((r : Rat) * 2 ^ e) ^ 2 * q ≤ 1 ∧ 1 < (((r : Rat) + 1) * 2 ^ e) ^ 2 * q ∧
    (more = false ↔ ((r : Rat) * 2 ^ e) ^ 2 * q = 1) ∧ 2 ^ 100 ≤ r := by
  obtain ⟨neg, m, e, value, nonzero, small, range, abs, sign⟩ := nonzero_f32 hq pos.ne'
  rw [abs_of_pos pos] at abs
  obtain ⟨M, g, more, out, large, -, le, lt, exact⟩ := rsqrt_spec 2 nonzero small range.1 abs
  exact ⟨M, g, more, (frsqVal_of_pos value nonzero (sign.trans (decide_eq_false pos.not_gt))).trans (out.trans (if_pos (Nat.le_refl 2))), le, lt, exact, large⟩

section
variable {n k a : Nat} {q : Rat} (count : n = 0 ∧ k = 12 ∨ n = 1 ∧ k = 22) (hq : (fDecode fmtF32 a).rat = some q)
include count hq

/-- FRCP at 0 and 1 iterations is the reciprocal cut to 12 and 22 bits, infinite from 2^128. -/
theorem frcpVal_cut (ne : q ≠ 0) : (2 ^ 128 ≤ 1 / |q| → frcpVal n a = if q < 0 then 0xFF800000 else 0x7F800000) ∧
    (1 / |q| < 2 ^ 128 → ∃ (r : Nat) (e : Int), (2 ^ (k - 1) ≤ r ∧ r < 2 ^ k) ∧ (r : Rat) * 2 ^ e ≤ 1 / |q| ∧ 1 / |q| < ((r : Rat) + 1) * 2 ^ e ∧
      frcpVal n a = fRound fmtF32 1 false (decide (q < 0)) r e false) := by
  obtain ⟨neg, m, e, value, nonzero, small, range, abs, sign⟩ := nonzero_f32 hq ne
  obtain ⟨large, le, lt, -⟩ := recip_spec nonzero small e abs
  obtain ⟨finite, infinite⟩ := iterRound_cut (P := fun x => x ≤ 1 / |q|) (fun x y _ le h => le.trans h) count large le (not_le.mpr lt) neg (2 ^ 200 % m != 0)
  have top := le_log2_iff large le lt (by omega)
  rw [frcpVal_of_nonzero value nonzero]
  refine ⟨fun above => ?_, fun below => ?_⟩
  · rw [infinite (top.mpr above), sign]
    by_cases negative : q < 0
    · rw [decide_eq_true negative, if_pos negative]
      rfl
    · rw [decide_eq_false negative, if_neg negative]
      rfl
  · obtain ⟨r, g, bits, le, lt, out⟩ := finite (not_le.mp (mt top.mp below.not_ge))
    exact ⟨r, g, bits, le, not_le.mp lt, by rw [out, sign]⟩

/-- FRSQ at 0 and 1 iterations is the reciprocal root cut to 12 and 22 bits. -/
theorem frsqVal_cut (pos : 0 < q) : ∃ (r : Nat) (e : Int), (2 ^ (k - 1) ≤ r ∧ r < 2 ^ k) ∧ ((r : Rat) * 2 ^ e) ^ 2 * q ≤ 1 ∧ 1 < (((r : Rat) + 1) * 2 ^ e) ^ 2 * q ∧
    frsqVal n a = fRound fmtF32 1 false false r e false := by
  obtain ⟨neg, m, e, value, nonzero, small, range, abs, sign⟩ := nonzero_f32 hq pos.ne'
  rw [abs_of_pos pos] at abs
  obtain ⟨M, g, more, out, large, below, le, lt, -⟩ := rsqrt_spec n nonzero small range.1 abs
  obtain ⟨finite, -⟩ := iterRound_cut (P := fun x => x ^ 2 * q ≤ 1) (fun x y nonneg le h => (mul_le_mul_of_nonneg_right (pow_le_pow_left₀ nonneg le 2) pos.le).trans h)
    count large le (not_le.mpr lt) false more
  obtain ⟨r, g, bits, le, lt, cutOut⟩ := finite below
  exact ⟨r, g, bits, le, not_le.mp lt, by rw [frsqVal_of_pos value nonzero (sign.trans (decide_eq_false pos.not_gt)), out, cutOut]⟩

end

/-! ### Powers and logarithms of two (R215) -/

/-- A result of 1 at zero. -/
theorem fexp2Val_zero {n a : Nat} {neg : Bool} {e : Int} (value : fDecode fmtF32 a = .fin neg 0 e) : fexp2Val n a = 0x3F800000 := by
  rw [fexp2Val, value]
  rfl

/-- An integer argument in units of 2^-320. -/
theorem inUnits_int {neg : Bool} {m : Nat} {e z : Int} (range : -149 ≤ e) (hq : (FVal.fin neg m e).rat = some (z : Rat)) : inUnits neg m e (-fixBits) = z * (2 ^ fixBits : Nat) := by
  have units := (rat_fin (neg := neg) (m := m) (show -(fixBits : Int) ≤ e by rw [fixBits]; omega)).symm.trans hq
  have scale : (inUnits neg m e (-fixBits) : Rat) = z * 2 ^ fixBits := by
    have eq := Option.some.inj units
    rw [zpow_neg, zpow_natCast] at eq
    rw [← eq, mul_assoc, inv_mul_cancel₀ (by positivity), mul_one]
  exact_mod_cast scale

/-- Below 512 in magnitude, an integer argument leaves no fraction. -/
theorem exp2Round_int (n : Nat) {neg : Bool} {m : Nat} {e z : Int} (range : -149 ≤ e) (hq : (FVal.fin neg m e).rat = some (z : Rat))
    (small : ¬ (m ≠ 0 ∧ (Nat.log2 m : Int) + e ≥ 9)) : exp2Round n neg m e = iterRound n false 1 z false := by
  have unit : ((2 ^ fixBits : Nat) : Int) ≠ 0 := by exact_mod_cast (Nat.two_pow_pos fixBits).ne'
  unfold exp2Round
  rw [if_neg small, inUnits_int range hq]
  dsimp only
  rw [Int.mul_ediv_cancel _ unit, Int.mul_emod_left]
  exact if_pos rfl

/-- Just above 2^-600 every count gives 0. -/
theorem iterRound_least (n : Nat) : iterRound n false 1 (-600) true = 0 := by
  by_cases two : n ≥ 2
  · exact (if_pos two).trans (by decide)
  · obtain rfl | rfl : n = 0 ∨ n = 1 := by omega
    · decide
    · decide

/-- FEXP2 of an integer is that power of two, infinite from 2^128 and 0 below 2^-149, at every count. -/
theorem fexp2Val_int (n : Nat) {a : Nat} {z : Int} (hq : (fDecode fmtF32 a).rat = some (z : Rat)) :
    (-149 ≤ z → z < 128 → (fDecode fmtF32 (fexp2Val n a)).rat = some ((2 : Rat) ^ z)) ∧ (128 ≤ z → fexp2Val n a = 0x7F800000) ∧ (z < -149 → fexp2Val n a = 0) := by
  by_cases zero : z = 0
  · subst zero
    obtain ⟨neg, m, e, value⟩ := rat_eq_some hq
    rw [value, Int.cast_zero] at hq
    obtain rfl := significand_of_zero hq
    rw [fexp2Val_zero value]
    refine ⟨fun _ _ => ?_, fun h => absurd h (by decide), fun h => absurd h (by decide)⟩
    rw [show fDecode fmtF32 0x3F800000 = .fin false (2 ^ 23) (-23) by decide, FVal.rat, zpow_zero]
    norm_num
  obtain ⟨neg, m, e, value, nonzero, small, range, abs, sign⟩ := nonzero_f32 hq (by exact_mod_cast zero)
  have out : fexp2Val n a = exp2Round n neg m e := by
    rw [fexp2Val, value]
    exact if_neg nonzero
  rw [out]
  by_cases large : m ≠ 0 ∧ (Nat.log2 m : Int) + e ≥ 9
  · have far : (512 : Int) ≤ |z| := by
      have bound : (2 : Rat) ^ (9 : Int) ≤ |(z : Rat)| := by
        rw [abs]
        exact (zpow_le_zpow_right₀ one_le_two large.2).trans (zpow_log2_bounds nonzero e).1
      exact_mod_cast bound
    have branch : exp2Round n neg m e = if neg then iterRound n false 1 (-600) true else iterRound n false 1 600 false := if_pos large
    rw [branch, sign]
    by_cases negative : (z : Rat) < 0
    · rw [decide_eq_true negative, if_pos rfl, iterRound_least]
      have below : z < 0 := by exact_mod_cast negative
      rw [abs_of_neg below] at far
      exact ⟨fun h => by omega, fun h => by omega, fun _ => rfl⟩
    · rw [decide_eq_false negative, if_neg Bool.false_ne_true, (iterRound_one n 600).2.1 (by decide)]
      have above : 0 ≤ z := by exact_mod_cast not_lt.mp negative
      rw [abs_of_nonneg above] at far
      exact ⟨fun _ h => by omega, fun _ => rfl, fun h => by omega⟩
  · rw [exp2Round_int n range.1 (value ▸ hq) large]
    exact iterRound_one n z

/-- FLOG2 of a power of two is its exponent at every count. -/
theorem flog2Val_two_pow (n : Nat) {a : Nat} {z : Int} (hq : (fDecode fmtF32 a).rat = some ((2 : Rat) ^ z)) : (fDecode fmtF32 (flog2Val n a)).rat = some (z : Rat) := by
  have pos : (0 : Rat) < 2 ^ z := by positivity
  obtain ⟨neg, m, e, value, nonzero, small, range, abs, sign⟩ := nonzero_f32 hq pos.ne'
  rw [abs_of_pos pos] at abs
  obtain ⟨low, high⟩ := zpow_log2_bounds nonzero e
  have whole : (Nat.log2 m : Int) + e = z := by
    rw [← abs] at low high
    have le := (zpow_le_zpow_iff_right₀ (one_lt_two : (1 : Rat) < 2)).mp low
    have lt := (zpow_lt_zpow_iff_right₀ (one_lt_two : (1 : Rat) < 2)).mp high
    omega
  have power : m = 2 ^ Nat.log2 m := by
    have eq : (m : Rat) * 2 ^ e = 2 ^ Nat.log2 m * 2 ^ e := by
      rw [← abs, ← whole, zpow_add₀ two_ne_zero, zpow_natCast]
    exact_mod_cast mul_right_cancel₀ (zpow_ne_zero e two_ne_zero) eq
  have bits := log2_of_lt nonzero small
  have out : flog2Val n a = iterRound n (decide (z < 0)) z.natAbs 0 false := by
    rw [flog2Val, value, sign, decide_eq_false pos.not_gt, ← whole]
    exact ((if_neg nonzero).trans (if_neg Bool.false_ne_true)).trans (if_pos power)
  have magnitude := eq_sign_mul (rat_natAbs z 0)
  rw [zpow_zero, mul_one, mul_one] at magnitude
  rw [out, iterRound_nat n _ (by omega), ← magnitude]

/-! ### The words (R199, R215) -/

section
variable {x : XW} {v : View} {m : Word32} {n : BitVec 7} {s : State} (named : x.c = .int n) (h : Acts x.guard [srcA x false] [dstD x false] v m s)
include named h

theorem iterWord_of_node {node : TolNode} (used : mget v.b.tol n.toNat = some node) (kind : node.kind = 2) (f : Nat → Nat → Nat) :
    iterWord x f s = raiseAll v.key (unmetTraps v m n.toNat)
      (fun w u => .next (putWave v.key (advance (iterWrite x f (choiceAt v.b n.toNat).cho m w)) (recordProduction v.w.blk n.toNat node u))) v.w s := by
  have producer : producerAt v.b 2 n.toNat = some node := by
    unfold producerAt
    rw [used]
    exact if_pos kind
  have word : iterNode x = some n.toNat := by rw [iterNode, named]
  unfold iterWord
  rw [word]
  refine (viewWord_of_acts h _).trans ?_
  rw [producer]
  exact unmetCheck_eq v v.w m n.toNat _ s

theorem iterWord_of_no_node (none : ∀ t, mget v.b.tol n.toNat = some t → t.kind ≠ 2) (f : Nat → Nat → Nat) : iterWord x f s = illegalWord v.w s := by
  have producer : producerAt v.b 2 n.toNat = Option.none := by
    unfold producerAt
    split
    next t found => exact if_neg (none t found)
    · rfl
  have word : iterNode x = some n.toNat := by rw [iterNode, named]
  unfold iterWord
  rw [word]
  refine (viewWord_of_acts h _).trans ?_
  rw [producer]

end

theorem boundOf_iterative (c : Nat) : boundOf 2 c = if c = 0 then 88 else if c = 1 then 168 else 184 := by
  unfold boundOf
  rw [if_pos rfl]
  rcases c with _ | _ | c <;> rfl

/-- The record of an iterative node's production in the block of the wave. -/
theorem recordProduction_iterative {v : View} {s : State} (hb : mget s.blocks v.w.blk = some v.b) {n : Nat} {node : TolNode} (kind : node.kind = 2) :
    let iters := (choiceAt v.b n).cho
    let bound := if iters = 0 then 88 else if iters = 1 then 168 else 184
    recordProduction v.w.blk n node s = { s with blocks := mput s.blocks v.w.blk { v.b with choice := mput v.b.choice n { choiceAt v.b n with
      prd := true, ach := bound, st := fallsShort node (choiceAt v.b n) bound } } } := by
  intro iters bound
  have at_bound : boundOf node.kind (choiceAt v.b n).cho = bound := by rw [kind, boundOf_iterative]
  rw [recordProduction, modBlock_of_some hb, produced, at_bound]
  rfl

end Sys2Proof.Machine
end

section
namespace Sys2Proof
open Sys2Proof.Machine

/-- Settles O9: the words are `iterWord`; the reciprocals are brackets of the exact value (`recip_spec`, `rsqrt_spec`), cut at 0 and 1 iterations (`iterRound_cut`); powers of two and small integers are not cut (`iterRound_one`, `iterRound_nat`). -/
theorem iterativeResults : Obligations.IterativeResults := by
  refine ⟨fun x key w m s none f32 h => ?words, fun x v m n node s named f32 h met => ?nodes, fun x v m n node s named f32 h used kind unm => ?unmet,
    fun n a => ?special, fun a q hq ne => ?recip, fun a q hq pos => ?rsqrt, fun n k a q count hq ne => ?cuts, fun n a z => ?exact, ?points⟩
  case words =>
    have word (f : Nat → Nat → Nat) : iterWord x f s = GoesOn key (putLanes x.t x.d m (fun i => f 2 (valA x w i)) w) s := by
      have noNode : iterNode x = Option.none := by rw [iterNode, none]
      unfold iterWord
      rw [noNode]
      exact regWord_of_issues h _
    exact ⟨word _, word _, word _, word _, word _⟩
  case nodes =>
    intro iters bound writes
    have hb := (viewOf_eq_some.mp h.view).2.2.1
    refine ⟨fun used kind => ?_, fun none => ?_⟩
    · have word (f : Nat → Nat → Nat) : iterWord x f s = GoesOn v.key (putLanes .f32 x.d m (fun i => f iters (valA x v.w i)) v.w)
          { s with blocks := mput s.blocks v.w.blk { v.b with choice := mput v.b.choice n.toNat { choiceAt v.b n.toNat with
              prd := true, ach := bound, st := fallsShort node (choiceAt v.b n.toNat) bound } } } := by
        rw [iterWord_of_node named h used kind, unmetTraps_of_met met]
        refine (congrArg (fun t => Host.Outcome.next (putWave v.key _ t)) (recordProduction_iterative hb kind)).trans ?_
        rw [iterWrite, f32]
        rfl
      exact ⟨word _, word _, word _, word _, word _⟩
    · exact ⟨iterWord_of_no_node named h none _, iterWord_of_no_node named h none _, iterWord_of_no_node named h none _, iterWord_of_no_node named h none _,
        iterWord_of_no_node named h none _⟩
  case unmet =>
    intro iters bound trap raises
    have hb := (viewOf_eq_some.mp h.view).2.2.1
    have word (i : Instr) (f : Nat → Nat → Nat) (eq : exec i s = iterWord x f s) : raises i (fun i => f iters (valA x v.w i)) := by
      rw [iterWord_of_node named h used kind, unmetTraps_of_unmet unm] at eq
      obtain ⟨inside, handler⟩ := eq ▸ stopsWord_raiseAll v _ [] _ s
      refine ⟨inside, handler, fun outside none => ?_⟩
      have act := (softTrap_of_no_handler (w := v.w) (t := { cause := 4, detail := n.toNat, lanes := m }) outside none).trans (if_neg (show ¬ (4 : Nat) = 5 by decide))
      refine ⟨_, act, eq.trans ?_⟩
      simp only [raiseAll, raiseTrap, act]
      refine (congrArg (fun t => Host.Outcome.next (putWave v.key _ t)) (recordProduction_iterative (s := putWave v.key _ s) hb kind)).trans ?_
      rw [iterWrite, f32]
      rfl
    exact ⟨word _ _ rfl, word _ _ rfl, word _ _ rfl, word _ _ rfl, word _ _ rfl⟩
  case special => exact special_inputs n a
  case recip => exact frcpVal_two hq ne
  case rsqrt => exact frsqVal_two hq pos
  case cuts => exact ⟨(frcpVal_cut count hq ne).1, (frcpVal_cut count hq ne).2, frsqVal_cut count hq⟩
  case exact => exact ⟨fexp2Val_int n, flog2Val_two_pow n⟩
  case points => exact ⟨by decide +kernel, by decide +kernel, by decide +kernel, by decide +kernel, by decide +kernel, by decide +kernel⟩

end Sys2Proof
end

section
/-! SUPPORT. What ending a grid leaves of the package (R62 to R64, R287): the physical function's registers stay, a grid keeps its context, its descriptor and the status words it has, and a block that is marked to end stays marked. -/
namespace Sys2Proof.Machine
open Sys2Proof

/-- The block with a key is marked to end. -/
def Marked (s : State) (bk : Nat) : Prop := ∃ b, mget s.blocks bk = some b ∧ b.endAs ≠ none

/-- The grid has a status word for a block. -/
def HasWord (s : State) (gid n : Nat) : Prop := ∃ g, mget s.grids gid = some g ∧ (mget g.status n).isSome = true

/-- h is g with no status word lost. -/
structure KeepsWords (g h : Grid) : Prop where
  asid : h.asid = g.asid
  d : h.d = g.d
  words : ∀ n, (mget g.status n).isSome = true → (mget h.status n).isSome = true

theorem KeepsWords.of_status {g h : Grid} (asid : h.asid = g.asid) (d : h.d = g.d) (same : h.status = g.status) : KeepsWords g h :=
  ⟨asid, d, fun n some_ => by rwa [same]⟩

theorem KeepsWords.trans {g h i : Grid} (first : KeepsWords g h) (second : KeepsWords h i) : KeepsWords g i :=
  ⟨second.asid.trans first.asid, second.d.trans first.d, fun n some_ => second.words n (first.words n some_)⟩

/-- From s to t blocks and grids move towards their ends alone. -/
structure Ending (s t : State) : Prop where
  pf : t.pf = s.pf
  grids : ∀ gid g, mget s.grids gid = some g → ∃ h, mget t.grids gid = some h ∧ KeepsWords g h
  marks : ∀ bk, Marked s bk → Marked t bk

namespace Ending

variable {r s t : State}

theorem of_same (pf : t.pf = s.pf) (grids : t.grids = s.grids) (blocks : t.blocks = s.blocks) : Ending s t where
  pf := pf
  grids gid g hg := ⟨g, by rw [grids]; exact hg, .of_status rfl rfl rfl⟩
  marks bk h := by rwa [Marked, blocks]

theorem refl (s : State) : Ending s s := of_same rfl rfl rfl

theorem trans (first : Ending r s) (second : Ending s t) : Ending r t where
  pf := second.pf.trans first.pf
  grids gid g hg := by
    obtain ⟨h, hh, gh⟩ := first.grids gid g hg
    obtain ⟨i, hi, hi'⟩ := second.grids gid h hh
    exact ⟨i, hi, gh.trans hi'⟩
  marks bk h := second.marks bk (first.marks bk h)

theorem foldl {α : Type} {f : State → α → State} (step : ∀ t a, Ending t (f t a)) (l : List α) (s : State) : Ending s (l.foldl f s) := by
  induction l generalizing s with
  | nil => exact refl s
  | cons a rest ih => exact (step s a).trans (ih (f s a))

theorem hasWord (h : Ending s t) {gid n : Nat} (word : HasWord s gid n) : HasWord t gid n := by
  obtain ⟨g, hg, some_⟩ := word
  obtain ⟨g', hg', kept⟩ := h.grids gid g hg
  exact ⟨g', hg', kept.words n some_⟩

/-- Barriers are no part of it. -/
theorem of_onlyBarriers (h : OnlyBarriers s t) : Ending s t where
  pf := by rw [h.rest]
  grids gid g hg := by
    have aside := h.grids gid
    rw [hg, Option.map_some, Option.map_eq_some_iff] at aside
    obtain ⟨g', hg', same⟩ := aside
    exact ⟨g', hg', .of_status (congrArg Grid.asid same :) (congrArg Grid.d same :) (congrArg Grid.status same :)⟩
  marks bk marked := by
    obtain ⟨b, hb, mark⟩ := marked
    obtain ⟨c, hc, same⟩ := h.mget_blocks hb
    exact ⟨c, hc, by rwa [same]⟩

theorem modBlock (k : Nat) {f : Block → Block} (keeps : ∀ b, (f b).endAs = b.endAs) (s : State) : Ending s (modBlock k f s) where
  pf := modBlock_pf _ _ _
  grids gid g hg := ⟨g, by rw [modBlock_grids]; exact hg, .of_status rfl rfl rfl⟩
  marks bk marked := by
    obtain ⟨b, hb, mark⟩ := marked
    rw [Marked, mget_modBlock]
    split
    · next same => exact ⟨f b, by rw [← same, hb]; rfl, by rwa [keeps]⟩
    · exact ⟨b, hb, mark⟩

theorem putGrid {gid : Nat} {g g' : Grid} (hg : mget s.grids gid = some g) (kept : KeepsWords g g') : Ending s { s with grids := mput s.grids gid g' } where
  pf := rfl
  grids k h hh := by
    rw [mget_mput]
    split
    · next same =>
      subst same
      obtain rfl := Option.some.inj (hg.symm.trans hh)
      exact ⟨g', rfl, kept⟩
    · exact ⟨h, hh, .of_status rfl rfl rfl⟩
  marks _ marked := marked

theorem modGrid (k : Nat) {f : Grid → Grid} (keeps : ∀ g, KeepsWords g (f g)) (s : State) : Ending s (modGrid k f s) := by
  unfold Machine.modGrid
  split
  · next g hg => exact putGrid hg (keeps g)
  · exact refl s

theorem modCtx (asid : Nat) (f : Ctx → Ctx) (s : State) : Ending s (modCtx asid f s) := of_same (modCtx_pf _ _ _) (modCtx_grids _ _ _) (modCtx_blocks _ _ _)

theorem modWave (k : Nat) (f : Wave → Wave) (s : State) : Ending s (modWave k f s) := of_same (modWave_pf _ _ _) (modWave_grids _ _ _) (modWave_blocks _ _ _)

theorem wakePhases (asid : Nat) (s : State) : Ending s (wakePhases asid s) := of_same (wakePhases_pf _ _) (wakePhases_grids _ _) (wakePhases_blocks _ _)

end Ending

/-! ### Sync words, logs and completions -/

theorem startBlock_ending (d : Desc) (bk num : Nat) (s : State) : Ending s (startBlock d bk num s) :=
  (Ending.of_same rfl rfl rfl : Ending s (startWaves d bk num s)).trans (.modBlock bk (fun _ => by rfl) _)

theorem blockRunnable_ending (gid num : Nat) (s : State) : Ending s (blockRunnable gid num s) := by
  unfold blockRunnable
  split
  · exact .refl s
  · next g hg =>
    split
    · exact .refl s
    · extract_lets g1 s1 bk grp
      have noted : Ending s s1 := .putGrid hg (.of_status rfl rfl rfl)
      refine noted.trans ?_
      repeat' split
      · exact startBlock_ending _ _ _ s1
      all_goals exact .of_same rfl rfl rfl

theorem syncWrite_ending (asid a : Nat) (x : Word64) (s : State) : Ending s (syncWrite asid a x s) := by
  unfold syncWrite
  split
  · exact .refl s
  · extract_lets old s1 s2
    have written : Ending s s1 := .modCtx _ _ _
    have run : Ending s1 s2 := by
      unfold s2
      split
      · exact .foldl (fun t (p : Nat × Nat) => blockRunnable_ending p.1 p.2 t) _ _
      · exact .refl _
    exact (written.trans run).trans (.wakePhases _ _)

theorem plainWrite_ending (asid a : Nat) (x : Word64) (s : State) : Ending s (plainWrite asid a x s) := by
  fun_cases plainWrite asid a x s
  case case2 => exact syncWrite_ending _ _ _ _
  all_goals exact .refl s

theorem counterDec_ending (asid a : Nat) (s : State) : Ending s (counterDec asid a s) := by
  fun_cases counterDec asid a s
  case case3 => exact plainWrite_ending _ _ _ _
  all_goals exact .refl s

theorem syncWrite32_ending (asid a : Nat) (x : Word32) (s : State) : Ending s (syncWrite32 asid a x s) := by
  fun_cases syncWrite32 asid a x s
  case case1 => exact .refl s
  case case2 => exact (Ending.modCtx _ _ _).trans (.wakePhases _ _)

theorem logAppend_ending (asid w0 w1 w2 w3 : Nat) (s : State) : Ending s (logAppend asid w0 w1 w2 w3 s) :=
  .of_same (by rw [logAppend_frame]) (logAppend_grids _ _ _ _ _ _) (logAppend_blocks _ _ _ _ _ _)

theorem postCompletion_pf (n tag kind code : Nat) (s : State) : (postCompletion n tag kind code s).pf = s.pf := by
  unfold postCompletion writeCompletion
  dsimp only
  split
  · rfl
  · rw [emit_pf, physPut_frame]

theorem postCompletion_ending (n tag kind code : Nat) (s : State) : Ending s (postCompletion n tag kind code s) :=
  .of_same (postCompletion_pf _ _ _ _ _) (postCompletion_grids _ _ _ _ _) (postCompletion_blocks _ _ _ _ _)

theorem statusOp_ending {gid num : Nat} {s t : State} (h : statusOp gid num s = some t) : Ending s t := by
  unfold statusOp at h
  split at h
  · cases h
    exact .refl s
  · have frame := quernOp_frame h
    exact .of_same (by rw [frame]) (by rw [frame]) (by rw [frame])

theorem askGroup_ending (gid num : Nat) (s : State) : Ending s (askGroup gid num s) := .of_same (by rw [askGroup_frame]) (askGroup_grids _ _ _) (askGroup_blocks _ _ _)

theorem freeSlice_ending (asid : Nat) (b : Block) (s : State) : Ending s (freeSlice asid b s) := by
  fun_cases freeSlice asid b s
  case case1 => exact .modCtx _ _ _
  case case2 => exact .refl s

theorem checkGridBar_ending (gid n : Nat) (s : State) : Ending s (checkGridBar gid n s) := by
  fun_cases checkGridBar gid n s
  case case2 => exact (Ending.modGrid gid (fun g => .of_status (by rfl) (by rfl) (by rfl)) s).trans (.wakePhases _ _)
  all_goals exact .refl s

theorem checkGridDone_ending (gid : Nat) (s : State) : Ending s (checkGridDone gid s) := by
  unfold checkGridDone
  split
  · exact .refl s
  · next g hg =>
    split
    · exact .refl s
    · extract_lets s1 s2 s3
      have told : Ending s s3 := by
        refine (Ending.putGrid hg (.of_status rfl rfl rfl) : Ending s s1).trans (.trans (s := s2) ?_ ?_)
        · unfold s2
          split
          · exact .refl s1
          · exact counterDec_ending _ _ s1
        · unfold s3
          split
          · exact postCompletion_ending _ _ _ _ s2
          · exact .refl s2
      repeat' split
      · exact told
      · exact told
      · exact told
      · refine told.trans (.trans ?_ (.modCtx _ _ _))
        split
        · exact .refl s3
        · exact logAppend_ending _ _ _ _ _ s3

/-! ### Status words -/

section
variable {gid num : Nat} {s : State}

/-- The state in which the status word is written: its operation of Quern is recorded, or admitted. -/
theorem admitted_ending (gid num : Nat) (s : State) : Ending s (if statusSet s gid num then s else (statusOp gid num s).getD s) := by
  split
  · exact .refl s
  · cases h : statusOp gid num s with
    | none => exact .refl s
    | some t => exact statusOp_ending h

/-- A block that is freed stays marked. -/
theorem freeBlock_marks (bk gid num : Nat) (hb : blockKey gid num = bk) (s : State) (k : Nat) (marked : Marked s k) :
    ∃ b, mget (mput s.blocks bk (freeBlock (blockOr s gid num))) k = some b ∧ b.endAs ≠ none := by
  obtain ⟨b, hk, mark⟩ := marked
  rw [mget_mput]
  split
  · next same => exact ⟨_, rfl, by rw [blockOr, hb, ← same, hk]; exact mark⟩
  · exact ⟨b, hk, mark⟩

/-- A status word is written once, and never lost; a block that was marked stays so. -/
theorem setStatus_ends (x : Word32) (s : State) : Ending s (setStatus gid num x s) ∧ ((∃ g, mget s.grids gid = some g) → HasWord (setStatus gid num x s) gid num) := by
  have admitted := admitted_ending gid num s
  unfold setStatus
  dsimp only
  generalize (if statusSet s gid num then s else (statusOp gid num s).getD s) = u at admitted
  split
  · next none =>
    refine ⟨admitted, fun ⟨g, hg⟩ => ?_⟩
    obtain ⟨g', hg', -⟩ := admitted.grids gid g hg
    cases none.symm.trans hg'
  · next g hg =>
    split
    · next has =>
      refine ⟨admitted, fun _ => ⟨g, hg, ?_⟩⟩
      rw [hasStatus, mgetD] at has
      cases h : mget g.status num with
      | none => simp [h] at has
      | some => rfl
    · generalize hu : ({ u with grids := _, blocks := _, waves := _, phaseQ := _ } : State) = s1
      have written : Ending u s1 := by
        subst hu
        refine ⟨rfl, fun k h hh => ?_, fun k marked => freeBlock_marks _ gid num rfl u k marked⟩
        exact (Ending.putGrid hg (g' := { g with status := mput g.status num x }) ⟨rfl, rfl, fun n some_ => by
          rw [mget_mput]
          split
          · rfl
          · exact some_⟩).grids k h hh
      have word : HasWord s1 gid num := by
        subst hu
        exact ⟨_, mget_mput_same _ _ _, by rw [mget_mput_same]; rfl⟩
      have onward : Ending s1 (checkGridDone gid ((List.range 2).foldl (fun t n => checkGridBar gid n t) ((List.range 4).foldl (fun t n => checkCluster gid (groupOf g.d num) n t)
          (syncWrite32 g.asid (g.d.stbase + 4 * num) x (askGroup gid num (freeSlice g.asid (blockOr u gid num) (dropRequests (blockKey gid num) s1))))))) :=
        (Ending.of_same rfl rfl rfl : Ending s1 (dropRequests (blockKey gid num) s1)).trans ((freeSlice_ending _ _ _).trans ((askGroup_ending _ _ _).trans
          ((syncWrite32_ending _ _ _ _).trans ((Ending.foldl (fun t n => .of_onlyBarriers (onlyBarriers_checkCluster gid _ n t)) _ _).trans
            ((Ending.foldl (fun t n => checkGridBar_ending gid n t) _ _).trans (checkGridDone_ending gid _))))))
      exact ⟨admitted.trans (written.trans onward), fun _ => onward.hasWord word⟩

theorem setStatus_ending (gid num : Nat) (x : Word32) (s : State) : Ending s (setStatus gid num x s) := (setStatus_ends x s).1
theorem hasWord_setStatus (hg : ∃ g, mget s.grids gid = some g) (x : Word32) : HasWord (setStatus gid num x s) gid num := (setStatus_ends x s).2 hg

theorem dropReads_ending (bk : Nat) (s : State) : Ending s (dropReads bk s) := .of_same rfl rfl rfl

end

/-! ### Waves that stop -/

theorem putQueue_ending (asid q : Nat) (x : SyncQueue) (s : State) : Ending s (putQueue asid q x s) := .modCtx _ _ _

theorem unpark_ending (asid key : Nat) (s : State) : Ending s (unpark asid key s) := by
  fun_cases unpark asid key s
  case case2 => exact (putQueue_ending _ _ _ _).trans (.modWave _ _ _)
  all_goals exact .refl s

theorem retireWave_ending (key : Nat) (s : State) : Ending s (retireWave key s) := by
  unfold retireWave
  split
  · exact .refl s
  · split
    · exact .refl s
    · refine .trans ?_ ((Ending.modWave _ _ _).trans (.of_onlyBarriers (onlyBarriers_checkAllBars _ _)))
      repeat' split
      · exact unpark_ending _ _ _
      all_goals exact .refl s

theorem stopBlock_ending (bk : Nat) (s : State) : Ending s (stopBlock bk s) :=
  (Ending.foldl (fun t k => .modWave k _ t) _ s).trans (.foldl (fun t k => retireWave_ending k t) _ _)

theorem discardHeld_ending (asid bk : Nat) (s : State) : Ending s (discardHeld asid bk s) := by
  have withdrawn (p : Nat → Bool) (l : List HeldPush) : Ending s (l.foldl (fun t h => modWave h.key (ackSt h.no) t) (withdrawHeld asid p s)) :=
    (Ending.modCtx asid _ s).trans (.foldl (fun t h => .modWave _ _ t) l _)
  unfold discardHeld
  split
  · exact .refl s
  · dsimp only
    split
    · exact withdrawn _ _
    · split
      · exact withdrawn _ _
      · exact (withdrawn _ _).trans (.of_same rfl rfl rfl)

/-! ### Blocks that end with their grid -/

/-- A block that ends with its grid is marked, or has its status word. -/
theorem endOther_ends (gid num : Nat) (s : State) :
    Ending s (endOther gid num s) ∧ ((∃ g, mget s.grids gid = some g) → HasWord (endOther gid num s) gid num ∨ Marked (endOther gid num s) (blockKey gid num)) := by
  unfold endOther
  split
  · next none => exact ⟨.refl s, fun ⟨g, hg⟩ => by cases none.symm.trans hg⟩
  · next g hg =>
    split
    · next has =>
      refine ⟨.refl s, fun _ => .inl ⟨g, hg, ?_⟩⟩
      rw [hasStatus, mgetD] at has
      cases h : mget g.status num with
      | none => simp [h] at has
      | some => rfl
    · dsimp only
      split
      · exact ⟨(dropReads_ending _ _).trans (setStatus_ending _ _ _ _), fun _ => .inl (hasWord_setStatus (s := dropReads _ s) ⟨g, hg⟩ _)⟩
      · generalize hu : dropRequests (blockKey gid num) ({ putBlock _ _ s with phaseQ := _ } : State) = s1
        have marked : Marked s1 (blockKey gid num) := by
          subst hu
          exact ⟨_, mget_mput_same _ _ _, by simp⟩
        have put : Ending s s1 := by
          subst hu
          refine ⟨rfl, fun k h hh => ⟨h, hh, .of_status rfl rfl rfl⟩, fun k before => ?_⟩
          obtain ⟨b, hb, mark⟩ := before
          rw [Marked, dropRequests, putBlock, mget_mput]
          split
          · exact ⟨_, rfl, by simp⟩
          · exact ⟨b, hb, mark⟩
        have stopped : ∀ t, Ending s1 t → Ending s1 (discardHeld g.asid (blockKey gid num) t) := fun t h => h.trans (discardHeld_ending _ _ _)
        have onward := stopped (if (blockOr s gid num).life = .running then stopBlock (blockKey gid num) s1
            else ((presentOf s1 (blockKey gid num)).map Prod.fst).foldl (fun t k => retireWave k t) s1) (by
          split
          · exact stopBlock_ending _ _
          · exact .foldl (fun t k => retireWave_ending k t) _ _)
        exact ⟨put.trans onward, fun _ => .inr (onward.marks _ marked)⟩

/-- A step of a fold that keeps what the rest of it wants leaves its own result at the end. -/
theorem foldl_reaches {α : Type} {f : State → α → State} {P : α → State → Prop} {I : State → Prop} (step : ∀ t a, Ending t (f t a)) (keeps : ∀ {t u a}, Ending t u → P a t → P a u)
    (inv : ∀ {t u}, Ending t u → I t → I u) (own : ∀ t a, I t → P a (f t a)) {l : List α} {a : α} (mem : a ∈ l) {s : State} (here : I s) : P a (l.foldl f s) := by
  obtain ⟨before, after, rfl⟩ := List.append_of_mem mem
  rw [List.foldl_append, List.foldl_cons]
  exact keeps (.foldl step after _) (own _ a (inv (.foldl step before s) here))

theorem endGrid_ending (gid : Nat) (keep : Option Nat) (s : State) : Ending s (endGrid gid keep s) := by
  unfold endGrid
  split
  · exact .refl s
  · refine .foldl (fun t n => ?_) _ s
    split
    · exact .refl t
    · exact (endOther_ends gid n t).1

/-- The block is marked to end, or has its status word. -/
def Ends (s : State) (gid n : Nat) : Prop := HasWord s gid n ∨ Marked s (blockKey gid n)

theorem Ending.ends {s t : State} (h : Ending s t) {gid n : Nat} (ends : Ends s gid n) : Ends t gid n :=
  ends.imp h.hasWord (h.marks _)

theorem ends_endGrid {gid : Nat} {g : Grid} {s : State} (hg : mget s.grids gid = some g) {n : Nat} (lt : n < gridBlocks g.d) : Ends (endGrid gid none s) gid n := by
  rw [endGrid, hg]
  refine foldl_reaches (P := fun n t => Ends t gid n) (I := fun t => ∃ g, mget t.grids gid = some g) (fun t m => ?_) (fun onward ends => onward.ends ends)
    (fun onward ⟨g, hg⟩ => ?_) (fun t m hg => ?_) (List.mem_range.mpr lt) ⟨g, hg⟩
  · exact (endOther_ends gid m t).1
  · obtain ⟨g', hg', -⟩ := onward.grids gid g hg
    exact ⟨g', hg'⟩
  · exact (endOther_ends gid m t).2 hg

theorem failGrid_ending (gid : Nat) (s : State) : Ending s (failGrid s gid) := by
  unfold failGrid
  split
  · exact .refl s
  · exact .foldl (fun t n => (dropReads_ending _ _).trans (setStatus_ending _ _ _ _)) _ s

theorem hasWord_failGrid {gid : Nat} {g : Grid} {s : State} (hg : mget s.grids gid = some g) {n : Nat} (lt : n < gridBlocks g.d) : HasWord (failGrid s gid) gid n := by
  rw [failGrid, hg]
  refine foldl_reaches (P := fun n t => HasWord t gid n) (I := fun t => ∃ g, mget t.grids gid = some g) (fun t m => ?_) (fun onward word => onward.hasWord word)
    (fun onward ⟨g, hg⟩ => ?_) (fun t m hg => ?_) (List.mem_range.mpr lt) ⟨g, hg⟩
  · exact (dropReads_ending _ _).trans (setStatus_ending _ _ _ _)
  · obtain ⟨g', hg', -⟩ := onward.grids gid g hg
    exact ⟨g', hg'⟩
  · exact hasWord_setStatus (s := dropReads _ t) hg _

/-! ### All open grids of a context -/

section
variable {asid gid : Nat} {g : Grid} {s : State}

theorem mem_openGrids (hg : mget s.grids gid = some g) (own : g.asid = asid) (live : g.done = false) : gid ∈ openGrids s asid := by
  refine List.mem_map.mpr ⟨(gid, g), List.mem_filter.mpr ⟨mem_of_mget hg, ?_⟩, rfl⟩
  simp [own, live]

/-- The grid stands, with the blocks of its descriptor. -/
def Stands (gid : Nat) (d : Desc) (s : State) : Prop := ∃ g, mget s.grids gid = some g ∧ g.d = d

theorem Ending.stands {s t : State} (h : Ending s t) {gid : Nat} {d : Desc} (stands : Stands gid d s) : Stands gid d t := by
  obtain ⟨g, hg, same⟩ := stands
  obtain ⟨g', hg', kept⟩ := h.grids gid g hg
  exact ⟨g', hg', kept.d.trans same⟩

variable (hg : mget s.grids gid = some g) {l : List Nat} (mem : gid ∈ l) {n : Nat} (lt : n < gridBlocks g.d)
include hg mem lt

theorem ends_foldl_endGrid : Ends (l.foldl (fun t gid => endGrid gid none t) s) gid n :=
  foldl_reaches (P := fun k t => k = gid → Ends t gid n) (I := Stands gid g.d) (fun t k => endGrid_ending k none t) (fun onward ends same => onward.ends (ends same))
    (fun onward stands => onward.stands stands) (fun t k ⟨h, hh, same⟩ own => own ▸ ends_endGrid (own ▸ hh) (by rw [same]; exact lt)) mem ⟨g, hg, rfl⟩ rfl

theorem hasWord_foldl_failGrid : HasWord (l.foldl failGrid s) gid n :=
  foldl_reaches (P := fun k t => k = gid → HasWord t gid n) (I := Stands gid g.d) (fun t k => failGrid_ending k t) (fun onward word same => onward.hasWord (word same))
    (fun onward stands => onward.stands stands) (fun t k ⟨h, hh, same⟩ own => own ▸ hasWord_failGrid (own ▸ hh) (by rw [same]; exact lt)) mem ⟨g, hg, rfl⟩ rfl

end

end Sys2Proof.Machine
end

section
/-! SUPPORT. The commands of the physical function (R290, R291): what each of them does once it has begun. -/
namespace Sys2Proof.Machine
open Sys2Proof

/-- A command has begun: GO reads 1, and CMDA and CMDL are taken as they stand. -/
def begun (op asid : Nat) (s : State) : State := { s with pf := { s.pf with go := true, op := op, asid := asid, runA := s.pf.cmda, runL := s.pf.cmdl } }

section
variable {s : State} (asid0 : Nat)

theorem startCmd_of_busy (busy : s.pf.go = true) (op asid : Nat) (f : State → State) : startCmd op asid f s = .next s := by
  rw [startCmd, if_pos busy]

theorem startCmd_of_idle (idle : s.pf.go = false) (op asid : Nat) (f : State → State) : startCmd op asid f s = .next (f (begun (op % 16) (asid % 4096) s)) := by
  rw [startCmd, if_neg (by simp [idle])]
  rfl

theorem service_of_halted (halted : s.fw.halted = true) (f : State → State) : service f s = finishCmd 1 s := if_pos halted
theorem service_of_running (running : s.fw.halted = false) (f : State → State) : service f s = f s := if_neg (by simp [running])

theorem execPfUnassigned_of_busy (busy : s.pf.go = true) (op : Nat) : execPfUnassigned op asid0 s = .next s := by
  unfold execPfUnassigned
  split
  · exact startCmd_of_busy busy _ _ _
  · rfl

end

section
variable {s : State} (asid : Nat)

/-- What TEARDOWN does at once. -/
def teardown (asid : Nat) (t : State) : State := emptyQuern (asid % 4096) ((openGrids t (asid % 4096)).foldl (fun u gid => endGrid gid none u) t)

/-- Every one of the commands, written while GO reads 1, is discarded. -/
theorem exec_of_busy (busy : s.pf.go = true) (op : Nat) :
    exec (.load asid) s = .next s ∧ exec (.inval asid) s = .next s ∧ exec (.teardown asid) s = .next s ∧ exec (.grant asid) s = .next s ∧ exec (.erase asid) s = .next s ∧
      exec (.ring asid) s = .next s ∧ exec (.reclog asid) s = .next s ∧ exec (.pfUnassigned op asid) s = .next s :=
  have discarded (op : Nat) (f : State → State) := startCmd_of_busy busy op asid f
  ⟨discarded 1 _, discarded 2 _, discarded 3 (teardown asid), discarded 4 _, discarded 5 _, discarded 6 _, discarded 7 _, execPfUnassigned_of_busy asid busy op⟩

variable (idle : s.pf.go = false)
include idle

theorem exec_load : exec (.load asid) s = .next (service (runLoad (asid % 4096)) (begun 1 (asid % 4096) s)) := startCmd_of_idle idle 1 asid _
theorem exec_inval : exec (.inval asid) s = .next (begun 2 (asid % 4096) s) := startCmd_of_idle idle 2 asid _
theorem exec_teardown : exec (.teardown asid) s =
    .next (emptyQuern (asid % 4096) ((openGrids s (asid % 4096)).foldl (fun u gid => endGrid gid none u) (begun 3 (asid % 4096) s))) := startCmd_of_idle idle 3 asid (teardown asid)
theorem exec_grant : exec (.grant asid) s = .next (service (runGrant (asid % 4096)) (begun 4 (asid % 4096) s)) := startCmd_of_idle idle 4 asid _
theorem exec_erase : exec (.erase asid) s = .next (runErase (asid % 4096) (begun 5 (asid % 4096) s)) := startCmd_of_idle idle 5 asid _
theorem exec_ring : exec (.ring asid) s = .next (service (runRing (asid % 4096)) (begun 6 (asid % 4096) s)) := startCmd_of_idle idle 6 asid _
theorem exec_reclog : exec (.reclog asid) s = .next (runReclog (asid % 4096) (begun 7 (asid % 4096) s)) := startCmd_of_idle idle 7 asid _

theorem exec_pfUnassigned {op : Nat} (unassigned : op % 16 = 0 ∨ 8 ≤ op % 16) :
    exec (.pfUnassigned op asid) s = .next (finishCmd 0xFF (begun (op % 16) (asid % 4096) s)) :=
  (if_pos unassigned).trans (startCmd_of_idle idle op asid _)

end

/-! ### The command register (R290, R291) -/

section
variable {s : State} {x : Nat} (lt : x < 2 ^ 64)
include lt

theorem exec_registerWrite_command : exec (.registerWrite .pf 0x18 x) s =
    if s.pf.go then .next s
    else if bitAt x 63 then startOp (field x 16 4) (field x 0 12) s
    else .next { s with pf := { s.pf with op := field x 16 4, asid := field x 0 12 } } := by
  change writePf 0x18 (x % 2 ^ 64) s = _
  rw [Nat.mod_eq_of_lt lt]
  rfl

/-- GO is the top bit of the word. -/
theorem bitAt_go : bitAt x 63 = decide (2 ^ 63 ≤ x) := by
  rw [bitAt, Nat.testBit_eq_decide_div_mod_eq]
  exact decide_eq_decide.mpr (by omega)

end

theorem startOp_of_unassigned {op : Nat} (unassigned : op = 0 ∨ 8 ≤ op) (asid : Nat) (s : State) : startOp op asid s = execPfUnassigned op asid s := by
  rcases unassigned with rfl | large
  · rfl
  · obtain ⟨k, rfl⟩ := Nat.exists_eq_add_of_le' large
    rfl

/-! ### LOAD (R272) -/

section
variable {s : State} {asid : Nat}

theorem ctxLive_iff : ctxLive s asid = true ↔ (∃ e ∈ s.grids, e.2.asid = asid ∧ e.2.done = false) ∨ ∃ c, mget s.ctxs asid = some c ∧ c.saved = true := by
  rw [ctxLive, Bool.or_eq_true, List.any_eq_true]
  refine or_congr ?_ ?_
  · simp only [Bool.and_eq_true, beq_iff_eq, Bool.not_eq_true']
  · cases mget s.ctxs asid <;> simp

theorem runLoad_of_live (live : ctxLive s asid = true) : runLoad asid s = finishCmd 2 s := if_pos live

theorem runLoad_of_bad (dead : ctxLive s asid = false) (bad : ctxEntryOk s asid = false) : runLoad asid s = finishCmd 1 s := by
  rw [runLoad, if_neg (by simp [dead]), if_neg (by simp [bad])]

theorem runLoad_of_ok (dead : ctxLive s asid = false) (ok : ctxEntryOk s asid = true) :
    runLoad asid s = finishCmd 0 { s with ctxs := mput s.ctxs asid (freshCtx (ctxEntry s asid) (logOf s asid)), logs := mdel s.logs asid } := by
  rw [runLoad, if_neg (by simp [dead]), if_pos ok]

/-- R272: the fields that must be zero, the alignments, and the sizes of sync space. -/
theorem ctxEntryOk_iff : ctxEntryOk s asid = true ↔
    let x := ctxWord s asid
    let zero := fun (i lo n : Nat) => x i / 2 ^ lo % 2 ^ n = 0
    let place := fun (i : Nat) => x i % 2 ^ 56
    (x 0).testBit 63 = true ∧ zero 0 60 3 ∧ zero 1 56 8 ∧ zero 2 17 15 ∧ zero 3 56 8 ∧ zero 4 56 8 ∧ zero 5 56 4 ∧ zero 7 56 8 ∧
      place 0 % 32768 = 0 ∧ place 1 % 65536 = 0 ∧ 1 ≤ x 2 % 2 ^ 17 ∧ x 2 % 2 ^ 17 ≤ 65536 ∧ place 3 % 65536 = 0 ∧ place 4 % 4096 = 0 ∧ place 5 % 64 = 0 ∧ place 7 % 8 = 0 := by
  simp only [ctxEntryOk, ctxEntry, field, bitAt, Bool.and_eq_true, beq_iff_eq, decide_eq_true_eq, and_assoc, pow_zero, Nat.div_one]

end

/-! ### INVAL (R282) -/

section
variable {s : State} {asid a len : Nat}

theorem invalidates_iff (key : Nat) : invalidates asid a len key = true ↔
    let size := 2 ^ levelLo (key / 2 ^ 44 % 8)
    let lo := key % 2 ^ 44 * size
    key / 2 ^ 47 = asid ∧ (len = 0 ∨ (lo < (ptrAddr a / 65536 + len) * 65536 ∧ ptrAddr a / 65536 * 65536 < lo + size)) := by
  simp only [invalidates, meetsUnits, Bool.and_eq_true, Bool.or_eq_true, beq_iff_eq, decide_eq_true_eq]

theorem execInvalComplete_of_done (go : s.pf.go = true) (op : s.pf.op = 2) (performed : invalDone s s.pf.asid s.pf.runA s.pf.runL = true) :
    execInvalComplete s = .next (finishCmd 0 { s with tlb := s.tlb.filter (fun e => !invalidates s.pf.asid s.pf.runA s.pf.runL e.1) }) := if_pos ⟨go, op, performed⟩

theorem execInvalComplete_of_not_done (out : invalDone s s.pf.asid s.pf.runA s.pf.runL = false) : execInvalComplete s = .next s :=
  if_neg fun h => by simp [out] at h

/-- A store that the side log does not hold, and that lies in the range, is in flight. -/
theorem invalDone_of_store {key : Nat} {v : View} {m : MqEntry} {ps : List Piece} {q : Piece} (view : viewOf s key = some v) (own : v.g.asid = asid)
    (placed : v.b.core ≠ none) (mem : m ∈ v.w.mq) (unlogged : m.logged = false) (op : m.op = .store ps) (piece : q ∈ ps) (uses : usesUnits a len ⟨q.lane, q.addr, q.data.length⟩ = true) :
    invalDone s asid a len = false := by
  obtain ⟨-, wave, block, grid, -⟩ := viewOf_eq_some.mp view
  have inCtx : (key, v.w) ∈ ctxWaves s asid := by
    refine List.mem_filter.mpr ⟨mem_of_mget wave, ?_⟩
    simp [block, grid, own]
  have inFlight : waveUses s a len v = true := by
    have used : (opUses m.op).any (usesUnits a len) = true := by
      rw [op]
      exact List.any_eq_true.mpr ⟨_, List.mem_map_of_mem piece, uses⟩
    have some_ : v.w.mq.any (fun m => !m.logged && (opUses m.op).any (usesUnits a len)) = true := List.any_eq_true.mpr ⟨m, mem, by rw [unlogged, used]; rfl⟩
    rw [waveUses, some_]
    rfl
  rw [invalDone, Bool.and_eq_false_iff]
  refine .inl (List.all_eq_false.mpr ⟨_, inCtx, ?_⟩)
  rw [view]
  simp [inFlight, placed]

end

/-! ### TEARDOWN (R287) -/

section
variable {s : State} {asid : Nat}

theorem emptyQuern_ending (asid : Nat) (s : State) : Ending s (emptyQuern asid s) := .modCtx _ _ _

theorem emptyQuern_empties {c : Ctx} (hc : mget (emptyQuern asid s).ctxs asid = some c) : c.regions = [] ∧ ∀ e ∈ c.queues, e.2.held = [] := by
  rw [emptyQuern, mget_modCtx, if_pos rfl, Option.map_eq_some_iff] at hc
  obtain ⟨c0, -, rfl⟩ := hc
  refine ⟨rfl, fun e he => ?_⟩
  obtain ⟨x, -, rfl⟩ := List.mem_map.mp he
  rfl

/-- Telling the neighbours of a ring leaves everything of the package but its idle level. -/
theorem tellRings_frame (rings : List (Nat × Ring)) (s : State) :
    let t := rings.foldl (fun t r => emit (.notify 2 r.1) (wake t)) s
    t = { s with idle := t.idle, out := t.out } := by
  induction rings generalizing s with
  | nil => rfl
  | cons r rest ih => exact ih (emit (.notify 2 r.1) (wake s))

theorem removeCtx_removes (asid : Nat) (s : State) :
    (removeCtx asid s).grids = s.grids ∧ mget (removeCtx asid s).ctxs asid = none ∧ (∀ e ∈ (removeCtx asid s).tlb, e.1 / 2 ^ 47 ≠ asid) ∧
      ∀ e ∈ (removeCtx asid s).cores, e.2.ctx ≠ some asid := by
  unfold removeCtx
  extract_lets rings p s1 s2
  have told : s1.grids = s.grids := by
    unfold s1
    rw [tellRings_frame]
  have gone : s2.grids = s.grids ∧ mget s2.ctxs asid = none ∧ (∀ e ∈ s2.tlb, e.1 / 2 ^ 47 ≠ asid) ∧ ∀ e ∈ s2.cores, e.2.ctx ≠ some asid := by
    refine ⟨told, mget_mdel_same _ _, fun e he => ?_, fun e he => ?_⟩
    · simpa using (List.mem_filter.mp he).2
    · obtain ⟨x, -, rfl⟩ := List.mem_map.mp he
      split
      · simp
      · assumption
  split
  · exact gone
  · exact gone

end

/-! ### GRANT, ERASE and RECLOG (R310, R311, R318) -/

section
variable {s : State} {asid : Nat}

/-- GRANT binds or unbinds one requester, but none that is bound elsewhere, and at most 256 at once. -/
theorem runGrant_of_other {a : Nat} (bound_ : mget s.grants (field s.pf.runA 0 16) = some a) (other : a ≠ asid) : runGrant asid s = finishCmd 1 s := by
  simp only [runGrant, bound_]
  exact if_pos (bne_iff_ne.mpr other)

section
variable (free : ∀ a, mget s.grants (field s.pf.runA 0 16) = some a → a = asid)
include free

theorem runGrant_of_free : runGrant asid s =
    if bitAt s.pf.runA 16 then
      (if (mget s.grants (field s.pf.runA 0 16)).isNone ∧ s.grants.length ≥ 256 then finishCmd 1 s else finishCmd 0 { s with grants := mput s.grants (field s.pf.runA 0 16) asid })
    else finishCmd 0 { s with grants := mdel s.grants (field s.pf.runA 0 16) } := by
  unfold runGrant
  refine if_neg ?_
  split
  · next a bound_ => simp [free a bound_]
  · simp

theorem runGrant_of_unbind (unbind : bitAt s.pf.runA 16 = false) : runGrant asid s = finishCmd 0 { s with grants := mdel s.grants (field s.pf.runA 0 16) } := by
  rw [runGrant_of_free free, if_neg (by simp [unbind])]

theorem runGrant_of_full (bind_ : bitAt s.pf.runA 16 = true) (new : mget s.grants (field s.pf.runA 0 16) = none) (full : 256 ≤ s.grants.length) : runGrant asid s = finishCmd 1 s := by
  rw [runGrant_of_free free, if_pos bind_, if_pos ⟨by rw [new]; rfl, full⟩]

theorem runGrant_of_room (bind_ : bitAt s.pf.runA 16 = true) (room : mget s.grants (field s.pf.runA 0 16) ≠ none ∨ s.grants.length < 256) :
    runGrant asid s = finishCmd 0 { s with grants := mput s.grants (field s.pf.runA 0 16) asid } := by
  rw [runGrant_of_free free, if_pos bind_, if_neg]
  rintro ⟨new, full⟩
  exact room.elim (fun old => old (Option.isNone_iff_eq_none.mp new)) (fun less => absurd full (by omega))

end

theorem runErase_of_none (none : mget s.ctxs asid = none) : runErase asid s = finishCmd 1 s := by simp only [runErase, none]

theorem runErase_of_some {c : Ctx} (hc : mget s.ctxs asid = some c) : runErase asid s =
    if grantsLun s c.ent (lunOf s.pf.runA) true then lunPush (lunOf s.pf.runA) (.erase s.pf.runA) (wake s) else finishCmd 1 s := by
  simp only [runErase, hc]

theorem runReclog_of_open {l : LogArea} (hl : logOf s asid = some l) (grids : l.grids ≠ []) : runReclog asid s = finishCmd 1 s := by
  unfold runReclog
  refine if_pos ?_
  rw [hl]
  simpa using grids

section
variable (closed : ∀ l, logOf s asid = some l → l.grids = [])
include closed

theorem runReclog_of_closed : runReclog asid s =
    if s.pf.runL = 0 then finishCmd 0 (setLog asid none s)
    else if s.pf.runA % 65536 ≠ 0 ∨ s.pf.runA + s.pf.runL * 65536 > 0x8000000000 then finishCmd 1 s
    else finishCmd 0 (setLog asid (some (freshLog s.pf.runA s.pf.runL)) s) := by
  unfold runReclog
  refine if_neg ?_
  split
  · next l hl => simp [closed l hl]
  · simp

theorem runReclog_of_unbind (unbind : s.pf.runL = 0) : runReclog asid s = finishCmd 0 (setLog asid none s) := by
  rw [runReclog_of_closed closed, if_pos unbind]

theorem runReclog_of_bad (bind_ : s.pf.runL ≠ 0) (bad : s.pf.runA % 65536 ≠ 0 ∨ s.pf.runA + s.pf.runL * 65536 > 0x8000000000) : runReclog asid s = finishCmd 1 s := by
  rw [runReclog_of_closed closed, if_neg bind_, if_pos bad]

theorem runReclog_of_ok (bind_ : s.pf.runL ≠ 0) (aligned : s.pf.runA % 65536 = 0) (inside : s.pf.runA + s.pf.runL * 65536 ≤ 0x8000000000) :
    runReclog asid s = finishCmd 0 (setLog asid (some (freshLog s.pf.runA s.pf.runL)) s) := by
  rw [runReclog_of_closed closed, if_neg bind_, if_neg (not_or.mpr ⟨not_not_intro aligned, not_lt.mpr inside⟩)]

end

theorem logOf_of_some {c : Ctx} (hc : mget s.ctxs asid = some c) : logOf s asid = c.log := by simp only [logOf, hc]
theorem logOf_of_none (none : mget s.ctxs asid = none) : logOf s asid = mget s.logs asid := by simp only [logOf, none]
theorem setLog_of_some {c : Ctx} (hc : mget s.ctxs asid = some c) (l : Option LogArea) : setLog asid l s = { s with ctxs := mput s.ctxs asid { c with log := l } } := by
  simp only [setLog, hc]
  exact modCtx_of_some hc _
theorem setLog_none_of_none (none : mget s.ctxs asid = none) : setLog asid .none s = { s with logs := mdel s.logs asid } := by simp only [setLog, none]
theorem setLog_some_of_none (none : mget s.ctxs asid = none) (l : LogArea) : setLog asid (some l) s = { s with logs := mput s.logs asid l } := by simp only [setLog, none]

theorem lunAt_lunPush (n : Nat) (o : LunOp) (s : State) : (lunAt (lunPush n o s) n).ops = (lunAt s n).ops ++ [o] := by
  rw [lunPush, lunAt, mgetD, mget_mput_same]
  rfl

theorem nandByte_nandErase (x y : Nat) {j : Nat} (lt : j < 16384) (s : State) : nandByte (nandErase x s) y j = if sameEraseBlock x y then 0xFF else nandByte s y j := by
  have page : (y * flashPageSize + j) / flashPageSize = y := by
    unfold flashPageSize
    omega
  simp only [nandByte, nandErase, mgetD]
  rw [mget_filter (fun k => !sameEraseBlock x (k / flashPageSize)), page]
  cases sameEraseBlock x y <;> simp

/-- The first LUN whose oldest operation is an erase reports it. -/
theorem find_erase {pre post : List (Nat × Lun)} {n x : Nat} {l : Lun} {rest : List LunOp} (luns : s.luns = pre ++ (n, l) :: post) (ops : l.ops = .erase x :: rest)
    (first : ∀ e ∈ pre, ∀ y, e.2.ops.head? ≠ some (.erase y)) :
    s.luns.find? (fun e => match e.2.ops.head? with | some (.erase _) => true | _ => false) = some (n, l) := by
  rw [luns, List.find?_append, List.find?_eq_none.mpr, Option.none_or, List.find?_cons_of_pos]
  · simp [ops]
  · intro e he is
    split at is
    · next y head => exact first e he y head
    · cases is

theorem execEraseComplete_of_first {pre post : List (Nat × Lun)} {n x : Nat} {l : Lun} {rest : List LunOp} (luns : s.luns = pre ++ (n, l) :: post) (ops : l.ops = .erase x :: rest)
    (first : ∀ e ∈ pre, ∀ y, e.2.ops.head? ≠ some (.erase y)) (succeeded : Bool) :
    execEraseComplete succeeded s = if succeeded then .next (finishCmd 0 (lunPop n (nandErase x s))) else .next (finishCmd 3 (lunPop n s)) := by
  unfold execEraseComplete
  split
  · next none => cases none.symm.trans (find_erase luns ops first)
  · next found =>
    obtain ⟨rfl, rfl⟩ := Prod.mk.inj (Option.some.inj (found.symm.trans (find_erase luns ops first)))
    simp only [ops, List.head?_cons]

end

/-! ### RING (R321) -/

section
variable {s : State} {asid ctl : Nat}

theorem ctlWrite_ctxs {c : Ctx} (hc : mget s.ctxs asid = some c) (ctl : Nat) (ws : List (Nat × Nat)) :
    mget (ctlWrite asid ctl ws s).ctxs asid = some { c with sync := ws.foldl (fun m w => mset 0 m (ctl + w.1) (BitVec.ofNat 64 w.2)) c.sync } := by
  rw [ctlWrite, wakePhases_ctxs, mget_modCtx, if_pos rfl, hc]
  rfl

/-- A word of a control block that is written last reads as written. -/
theorem ctlWord_of_sync {c : Ctx} (hc : mget s.ctxs asid = some c) (aligned : ctl % 8 = 0) {off : Nat} (place : off % 8 = 0) :
    ctlWord s asid ctl off = (mgetD c.sync (ctl + off) 0).toNat := by
  have same : (ctl + off) / 8 * 8 = ctl + off := by omega
  rw [ctlWord, hc]
  simp only [syncWord, same]

/-- The state of a ring is in bits [63:62] of its fifth word. -/
theorem running_word (y : Nat) : field (BitVec.ofNat 64 (2 ^ 62 + y % 2 ^ 62)).toNat 62 2 = 1 := by
  rw [BitVec.toNat_ofNat, field]
  omega

theorem formRing_forms {c : Ctx} {d : RingDesc} (hc : mget s.ctxs asid = some c) (aligned : d.ctl % 64 = 0) :
    ringState (formRing asid d s) asid d.ctl = 1 ∧ ∃ cz q, mget (formRing asid d s).ctxs asid = some cz ∧ mget cz.rings d.ctl = some q ∧ q.pos = d.pos ∧ q.nm = d.nm ∧ q.tmo = d.tmo ∧
      q.next = d.next ∧ q.prev = d.prev ∧ q.rbb = d.rbb ∧ q.rsz = d.rsz ∧ q.sent = (if ringState s asid d.ctl = 2 then ringArev s asid d.ctl else 0) ∧
      q.fresh = decide (ringState s asid d.ctl ≠ 2) := by
  unfold formRing
  extract_lets st old a r s1
  have formed : mget s1.ctxs asid = some { c with rings := mput c.rings d.ctl r } := by
    unfold s1
    rw [mget_modCtx, if_pos rfl, hc]
    rfl
  have written (ws : List (Nat × Nat)) := ctlWrite_ctxs formed d.ctl ws
  have state {z : State} {cz : Ctx} (hz : mget z.ctxs asid = some cz) (y : Nat) (word : mgetD cz.sync (d.ctl + 0x20) 0 = BitVec.ofNat 64 (2 ^ 62 + y % 2 ^ 62)) :
      ringState z asid d.ctl = 1 := by
    rw [ringState, ctlWord_of_sync hz (by omega) (by decide), word, running_word]
  have ring (z : State) (ws : List (Nat × Nat)) (hz : z = ctlWrite asid d.ctl ws s1) (y : Nat)
      (word : mgetD (ws.foldl (fun m w => mset 0 m (d.ctl + w.1) (BitVec.ofNat 64 w.2)) c.sync) (d.ctl + 0x20) 0 = BitVec.ofNat 64 (2 ^ 62 + y % 2 ^ 62)) :
      ringState z asid d.ctl = 1 ∧ ∃ cz q, mget z.ctxs asid = some cz ∧ mget cz.rings d.ctl = some q ∧ q.pos = d.pos ∧ q.nm = d.nm ∧ q.tmo = d.tmo ∧
      q.next = d.next ∧ q.prev = d.prev ∧ q.rbb = d.rbb ∧ q.rsz = d.rsz ∧ q.sent = (if st = 2 then a else 0) ∧ q.fresh = decide (st ≠ 2) :=
    hz ▸ ⟨state (written ws) y word, _, r, written ws, mget_mput_same _ _ _, rfl, rfl, rfl, rfl, rfl, rfl, rfl, rfl, rfl⟩
  rcases eq_or_ne st 2 with two | other
  · exact ring _ _ (if_pos two) (ctlWord s asid d.ctl 0x20) (by simp [mgetD_mset])
  · exact ring _ _ (if_neg other) 0 (by simp [mgetD_mset])

theorem runRing_of_none (none : mget s.ctxs asid = none) : runRing asid s = finishCmd 1 s := by simp only [runRing, none]

section
variable {c : Ctx} (hc : mget s.ctxs asid = some c)
include hc

theorem runRing_of_misplaced (bad : s.pf.runA % 64 ≠ 0 ∨ onTier1 s asid c (ptrAddr s.pf.runA) 64 = false) : runRing asid s = finishCmd 1 s := by
  simp only [runRing, hc]
  exact if_pos (bad.imp_right (by simp))

variable {bs : List Byte} {t : State} (aligned : s.pf.runA % 64 = 0) (tier1 : onTier1 s asid c (ptrAddr s.pf.runA) 64 = true) (read : lovageRead asid s.pf.runA 64 s = .ok bs t)
include aligned tier1 read

theorem runRing_of_read : runRing asid s =
    if ringOk t asid c (ringDesc (wordsOf 8 bs)) ∧ ringState t asid (ringDesc (wordsOf 8 bs)).ctl ≠ 1 then finishCmd 0 (formRing asid (ringDesc (wordsOf 8 bs)) t) else finishCmd 1 t := by
  simp only [runRing, hc, read]
  exact if_neg (by simp [aligned, tier1])

end

theorem ctl_aligned {c : Ctx} {d : RingDesc} (ok : ringOk s asid c d = true) : d.ctl % 64 = 0 := by
  simp only [ringOk, Bool.and_eq_true, beq_iff_eq, decide_eq_true_eq] at ok
  tauto

theorem reachable_iff (p : Nat) : reachable s p = true ↔ ∃ e ∈ s.links, e.2.trained = true ∧ e.2.package = p := by
  simp only [reachable, List.any_eq_true, Bool.and_eq_true, beq_iff_eq]

theorem onTier1_iff {c : Ctx} {addr len : Nat} : onTier1 s asid c addr len = true ↔
    ∀ u ∈ units addr len, ∃ pa leaf level at_, xlate s asid (rootOf c) u.1 = .ok pa leaf level at_ ∧ leafTier leaf = 0 := by
  rw [onTier1, List.all_eq_true]
  refine forall₂_congr fun u _ => ?_
  cases xlate s asid (rootOf c) u.1 <;> simp

/-- R321: the conditions on a descriptor, in its words. -/
theorem ringOk_ringDesc_iff (c : Ctx) (ws : List Word64) : ringOk s asid c (ringDesc ws) = true ↔
    let x := descWord ws
    let d := ringDesc ws
    (x 0).testBit 63 = true ∧ x 0 / 2 ^ 58 % 2 ^ 5 = 0 ∧ x 1 / 2 ^ 26 % 2 ^ 38 = 0 ∧ x 3 / 2 ^ 32 % 2 ^ 32 = 0 ∧ x 5 = 0 ∧ x 6 = 0 ∧ x 7 = 0 ∧
      2 ≤ d.nm ∧ d.pos < d.nm ∧ 1 ≤ d.tmo ∧ d.tmo ≤ 60000 ∧ d.rbb % 4096 = 0 ∧ d.rsz % 4096 = 0 ∧ d.rsz ≤ 2 ^ 30 ∧ d.ctl % 64 = 0 ∧
      d.ctl + 64 ≤ c.ent.syncsz * 65536 ∧ (∃ e ∈ s.links, e.2.trained = true ∧ e.2.package = d.next) ∧ (∃ e ∈ s.links, e.2.trained = true ∧ e.2.package = d.prev) ∧
      ∀ u ∈ units (ptrAddr d.rbb) (6 * d.rsz), ∃ pa leaf level at_, xlate s asid (rootOf c) u.1 = .ok pa leaf level at_ ∧ leafTier leaf = 0 := by
  have valid : (ringDesc ws).v = (descWord ws 0).testBit 63 := rfl
  have zero : (ringDesc ws).zero = (field (descWord ws 0) 58 5 == 0 && field (descWord ws 1) 26 38 == 0 && field (descWord ws 3) 32 32 == 0 && [5, 6, 7].all (fun i => descWord ws i == 0)) := rfl
  generalize ringDesc ws = d at *
  simp only [ringOk, valid, zero, inSync, Bool.and_eq_true, beq_iff_eq, decide_eq_true_eq, reachable_iff, onTier1_iff, field, List.all_cons, List.all_nil, and_true, and_assoc]

/-- A read of Lovage changes no context. -/
theorem ctxs_of_lovageRead {ptr n : Nat} {bs : List Byte} {t : State} (h : lovageRead asid ptr n s = .ok bs t) : t.ctxs = s.ctxs := by
  have sent (root addr len : Nat) (u : State) : (sendCtx asid root addr len u).ctxs = u.ctxs := by
    refine List.foldlRecOn (motive := fun t : State => t.ctxs = u.ctxs) _ _ rfl fun t same p _ => ?_
    have one (tier pa n : Nat) (t : State) : (farReadOne tier pa n t).ctxs = t.ctxs := by
      unfold farReadOne
      dsimp only
      split <;> rfl
    have far (tier pa n : Nat) (t : State) : (farGet tier pa n t).ctxs = t.ctxs := by
      unfold farGet
      split
      · exact one _ _ _ _
      · exact List.foldlRecOn (motive := fun u : State => u.ctxs = t.ctxs) _ _ rfl fun _ same _ _ => (one _ _ _ _).trans same
    split
    · split
      · exact (far _ _ _ _).trans same
      · exact same
    · exact same
  unfold lovageRead at h
  repeat' split at h
  all_goals cases h
  exact (sent _ _ _ _).trans (recordAccess_memSide _ _ _ _ _ _).ctxs

end

end Sys2Proof.Machine
end

section
namespace Sys2Proof
open Sys2Proof.Machine

/-- Settles O58: a command that begins takes CMDA and CMDL as they stand (`startCmd_of_idle`), and one written while GO reads 1 is discarded (`startCmd_of_busy`); from there each command is its own function of the state, whose refusals are its conditions in turn. Ending the grids of a context leaves every block marked or with its status word (`ends_foldl_endGrid`), and tearing it down leaves every block a status word (`hasWord_foldl_failGrid`). -/
theorem commandEvents : Obligations.CommandEvents := by
  intro asid0 s asid begun0 ended
  refine ⟨exec_of_busy asid0, fun idle => ⟨fun halted => ?halted, fun running => ?running, exec_inval asid0 idle, ?teardown, fun none => ?eraseNone, fun c hc => ?erase, fun l hl grids => ?reclogOpen,
    fun closed => ?reclog, fun c hc => ⟨logOf_of_some hc, setLog_of_some (s := begun 7 asid s) hc⟩,
    fun none => ⟨logOf_of_none none, setLog_none_of_none (s := begun 7 asid s) none, setLog_some_of_none (s := begun 7 asid s) none⟩, fun op => exec_pfUnassigned asid0 idle⟩,
    fun go op => ?invalComplete, fun x lt => ?register, fun go op torn => ?torn,
    fun pre post n x l rest luns ops first => ?eraseComplete, ctxEntryOk_iff, fun c ws => ⟨?fields, ringOk_ringDesc_iff c ws⟩⟩
  case halted =>
    have refused (f : State → State) (op : Nat) : service f (begun op asid s) = finishCmd 1 (begun op asid s) := service_of_halted (s := begun op asid s) halted f
    exact ⟨(exec_load asid0 idle).trans (congrArg _ (refused _ 1)), (exec_grant asid0 idle).trans (congrArg _ (refused _ 4)), (exec_ring asid0 idle).trans (congrArg _ (refused _ 6))⟩
  case running =>
    have served (f : State → State) (op : Nat) : service f (begun op asid s) = f (begun op asid s) := service_of_running (s := begun op asid s) running f
    have load := (exec_load asid0 idle).trans (congrArg _ (served _ 1))
    have grant := (exec_grant asid0 idle).trans (congrArg _ (served _ 4))
    have ring := (exec_ring asid0 idle).trans (congrArg _ (served _ 6))
    intro live
    have liveIff : ctxLive (begun 1 asid s) asid = true ↔ live := ctxLive_iff
    have dead (no : ¬ live) : ctxLive (begun 1 asid s) asid = false := Bool.eq_false_iff.mpr (liveIff.not.mpr no)
    refine ⟨fun yes => load.trans (congrArg _ (runLoad_of_live (liveIff.mpr yes))), fun no bad => load.trans (congrArg _ (runLoad_of_bad (dead no) bad)), fun no ok => ?loads, ?_⟩
    case loads =>
      refine ⟨_, _, load.trans (congrArg _ (runLoad_of_ok (dead no) ok)), rfl, rfl, mget_mput_same _ _ _, rfl, ?_, fun a => rfl, rfl, rfl, rfl, fun k other => mget_mput_ne _ _ other, rfl⟩
      exact congrArg (· % 2 ^ 17) (Nat.div_one _)
    have req : field s.pf.cmda 0 16 = s.pf.cmda % 2 ^ 16 := congrArg (· % 2 ^ 16) (Nat.div_one _)
    refine ⟨fun a bound_ other => grant.trans (congrArg _ (runGrant_of_other (s := begun 4 asid s) (req ▸ bound_) other)), fun free => ?grants,
      fun none => ring.trans (congrArg _ (runRing_of_none (s := begun 6 asid s) none)), fun c hc => ⟨fun bad => ring.trans (congrArg _ (runRing_of_misplaced (s := begun 6 asid s) hc bad)), ?rings⟩⟩
    case grants =>
      exact ⟨fun unbind => grant.trans (congrArg _ ((runGrant_of_unbind (s := begun 4 asid s) (req ▸ free) unbind).trans (congrArg (fun r => finishCmd 0 { begun 4 asid s with grants := mdel s.grants r }) req))),
        fun bind_ new full => grant.trans (congrArg _ (runGrant_of_full (s := begun 4 asid s) (req ▸ free) bind_ (req ▸ new) full)),
        fun bind_ room => grant.trans (congrArg _ ((runGrant_of_room (s := begun 4 asid s) (req ▸ free) bind_ (req ▸ room)).trans
          (congrArg (fun r => finishCmd 0 { begun 4 asid s with grants := mput s.grants r asid }) req)))⟩
    case rings =>
      intro bs t aligned tier1 read d
      have runs := ring.trans (congrArg _ (runRing_of_read (s := begun 6 asid s) hc aligned tier1 read))
      have read_ctx : mget t.ctxs asid = some c := by rwa [ctxs_of_lovageRead read]
      refine ⟨fun bad => runs.trans (congrArg _ (if_neg fun ok => ?_)), fun ok closed => ?_⟩
      · exact bad.elim (fun no => by simp [d, no] at ok) ok.2
      · obtain ⟨state, cz, q, formed⟩ := formRing_forms read_ctx (ctl_aligned ok)
        exact ⟨_, cz, q, runs.trans (congrArg _ (if_pos ⟨ok, closed⟩)), rfl, rfl, state, formed⟩
  case teardown =>
    refine ⟨_, exec_teardown asid0 idle, ?_, fun c hc => emptyQuern_empties hc, fun gid g hg own live n lt => ?_⟩
    · exact ((Ending.foldl (fun t gid => endGrid_ending gid none t) _ _).trans (emptyQuern_ending _ _)).pf
    · exact (emptyQuern_ending asid _).ends (ends_foldl_endGrid (s := begun 3 asid s) hg (mem_openGrids hg own live) lt)
  case eraseNone => exact (exec_erase asid0 idle).trans (congrArg _ (runErase_of_none (s := begun 5 asid s) none))
  case erase =>
    have runs := (exec_erase asid0 idle).trans (congrArg _ (runErase_of_some (s := begun 5 asid s) hc))
    have same : grantsLun (begun 5 asid s) = grantsLun s := rfl
    refine ⟨fun no => runs.trans (congrArg _ (if_neg ?_)), fun yes => ⟨_, runs.trans (congrArg _ (if_pos ?_)), rfl, rfl, lunAt_lunPush _ _ _⟩⟩
    · rw [same]
      exact Bool.eq_false_iff.mp no
    · exact yes
  case reclogOpen => exact (exec_reclog asid0 idle).trans (congrArg _ (runReclog_of_open (s := begun 7 asid s) hl grids))
  case reclog =>
    have runs := exec_reclog asid0 idle
    exact ⟨fun unbind => runs.trans (congrArg _ (runReclog_of_unbind (s := begun 7 asid s) closed unbind)),
      fun bind_ bad => runs.trans (congrArg _ (runReclog_of_bad (s := begun 7 asid s) closed bind_ bad)),
      fun bind_ aligned inside => runs.trans (congrArg _ (runReclog_of_ok (s := begun 7 asid s) closed bind_ aligned inside))⟩
  case invalComplete =>
    refine ⟨fun performed => ⟨_, execInvalComplete_of_done go op performed, rfl, fun e => ?_⟩, execInvalComplete_of_not_done, fun key v m ps q view own placed mem unlogged store piece uses =>
      execInvalComplete_of_not_done (invalDone_of_store view own placed mem unlogged store piece uses)⟩
    refine List.mem_filter.trans (and_congr_right fun _ => ?_)
    rw [Bool.not_eq_true', ← Bool.not_eq_true, invalidates_iff]
  case register =>
    intro op
    have writes := exec_registerWrite_command (s := s) lt
    have owner : field x 0 12 = x % 4096 := congrArg (· % 2 ^ 12) (Nat.div_one _)
    rw [bitAt_go lt, owner] at writes
    refine ⟨fun busy => writes.trans (if_pos busy), fun idle less => writes.trans ((if_neg (by simp [idle])).trans (if_neg (by simpa using less))), fun idle go => ?_⟩
    have begins : exec (.registerWrite .pf 0x18 x) s = startOp op (x % 4096) s := writes.trans ((if_neg (by simp [idle])).trans (if_pos (decide_eq_true go)))
    have same (n : Nat) (i : Instr) (own : startOp n (x % 4096) s = exec i s) (is : op = n) : exec (.registerWrite .pf 0x18 x) s = exec i s := begins.trans (is ▸ own)
    exact ⟨same 1 _ rfl, same 2 _ rfl, same 3 _ rfl, same 4 _ rfl, same 5 _ rfl, same 6 _ rfl, same 7 _ rfl, fun unassigned => begins.trans (startOp_of_unassigned unassigned _ s)⟩
  case torn =>
    obtain ⟨grids, gone, tlb, cores⟩ := removeCtx_removes s.pf.asid ((openGrids s s.pf.asid).foldl failGrid s)
    refine ⟨_, if_pos ⟨go, op, torn⟩, rfl, rfl, gone, tlb, cores, fun gid g hg own live n lt => ?_⟩
    obtain ⟨g', hg', word⟩ := hasWord_foldl_failGrid hg (mem_openGrids hg own live) lt
    exact ⟨g', (congrArg (mget · gid) grids).trans hg', word⟩
  case eraseComplete =>
    have reports := execEraseComplete_of_first luns ops first
    exact ⟨⟨_, reports true, rfl, rfl, rfl, fun y j lt => nandByte_nandErase x y lt s⟩, ⟨_, reports false, rfl, rfl, rfl, rfl⟩⟩
  case fields => simp only [ringDesc, field, descWord, pow_zero, Nat.div_one, and_self]

end Sys2Proof
end
